-- ==== Sys2Proof/Word.lean ====
section
/-! DEFINITION. The word types of the module: what the manual treats as bits (R10–R12). -/

namespace Sys2Proof

/-- One byte of a memory, a store or a message (R10). -/
abbrev Byte := BitVec 8
/-- One 64-bit word: a queue word, a register, a descriptor word (R12). -/
abbrev Word := BitVec 64

/-- A word from a natural number, modulo 2^64. -/
abbrev Word.ofNat (n : Nat) : Word := BitVec.ofNat 64 n

end Sys2Proof
end

