-- ==== Sys2Proof/Syntax.lean ====
section
/-! DEFINITION. The commands and events that the module takes, with the operands each carries from outside: who
accesses it, which instance it concerns, and what arrives on its ports. -/

namespace Sys2Proof

/-- Who makes a register access (R26, R566, R647): a physical function, a virtual function of a port, Ringmaster's
window, or the baseboard controller through CHG_ACCESS. -/
inductive Fn where
  | pf (port : Nat)
  | vf (port v : Nat)
  | rm
  | bmc
  deriving DecidableEq, Repr

/-- A seal-protocol message (R423, R507): module that sent it, step, layout epoch, recovery epoch, marker kind. -/
structure SealMsg where
  src : Nat
  step : Nat
  lepoch : Nat
  repoch : Nat
  mark : Nat
  deriving DecidableEq, Repr

/-- A hardware upset of a matrix tile: a bit of one output element, or of the checksum value of a row, inverted. -/
structure Upset where
  row : Nat
  col : Nat
  ckcol : Bool
  bit : Nat
  deriving DecidableEq, Repr

/-- The stores of R188 that a read or a scrub may find in error; a queue-pool word is word n of the words that queue q
holds. -/
inductive Store where
  | scratch (u : Nat)
  | region (r : Nat)
  | press (c : Nat)
  | pool (r q n : Nat)
  | link (r q : Nat)
  | near (s : Nat)
  | cellar (p : Nat)
  deriving DecidableEq, Repr

/-- What a read or a scrub of a location found (R189); passEnd is the end of a whole scrub pass. -/
inductive ScrubResult where
  | clean
  | corrected
  | uncorrectable
  | passEnd
  deriving DecidableEq, Repr

/-- A training frame of one lane (R401): CONTROL and STATUS as received, and whether this end's receiver is ready. -/
structure TrainFrame where
  ctl : Nat
  sts : Nat
  own : Bool
  deriving DecidableEq, Repr

/-- An alignment block of one lane as received (R408, R409), with its block position. -/
structure AlignBlock where
  marker : Nat
  portid : Nat
  lsn : Nat
  check : Nat
  pos : Nat
  deriving DecidableEq, Repr

/-- A HELLO flit (R403, R412); `topo` holds DXM1, DYM1, DZM1 and WRAP as `FAB_TOPO` [15:0] does. -/
structure Hello where
  retrain : Bool
  id : Nat
  dir : Nat
  topo : Nat
  ports : Nat
  shared : Nat
  lane : Nat
  stepping : Nat
  deriving DecidableEq, Repr

/-- A FLOW flit (R412): acknowledged LSN, LSN of a NAK, credits of the eight lanes and of the shared pool. -/
structure FlowFlit where
  ack : Option Nat
  nak : Option Nat
  credits : List Nat
  shared : Nat
  deriving DecidableEq, Repr

/-- A TSYNC RSP (R436): T1, T2 and T3 in units of 2^-16 ns, TSEQ, POK, and whether its codeword was a replay. -/
structure TimeRsp where
  t1 : Nat
  t2 : Nat
  t3 : Nat
  seq : Nat
  pok : Bool
  replay : Bool
  deriving DecidableEq, Repr

/-- A packet: eight header words, the words of its data flits, and the poison of each flit (R410, R417). -/
structure Pkt where
  hdr : List Word
  words : List Word
  poison : List Bool
  deriving DecidableEq, Repr

/-- A received codeword (R405, R406, R411): the symbols the decoder corrected, none when it cannot, and the message it leaves, as
a number whose bit i is message bit mi. -/
structure Codeword where
  corrected : Option Nat
  msg : Nat
  deriving DecidableEq, Repr


/-- The commands and events of the module: one constructor for each row of the table (the summary is the table's). -/
inductive Instr where
  /-- REGISTER_WRITE (R15). A write to a register field that has no row of its own takes effect according to the field's access type. -/
  | registerWrite (fn : Fn) (off size : Nat) (data : Word)
  /-- UNMAPPED_READ (R568). A read of an unmapped BAR0 offset returns 0, is counted, and sets UNMAPPED on the first occurrence. -/
  | unmappedRead (fn : Fn) (off size : Nat)
  /-- CLOCK_WINDOW_END (R34). At the end of each 2 µs window an island steps its clock down or up by 50 MHz according to its stall share. -/
  | clockWindowEnd (isl stalled total : Nat)
  /-- ISLAND_CLOCK_CHANGE (R35). An island applies a pending clock change at the next tile or cell-transfer boundary, stalling up to 500 ns. -/
  | islandClockChange (isl : Nat)
  /-- ISLAND_GATE (R623). An engine island with no work for 2 µs stops its clock and keeps its resume code in CUR. -/
  | islandGate (isl : Nat)
  /-- ISLAND_WAKE (R623). A gated engine island resumes its clock within 0.5 µs when work arrives. -/
  | islandWake (isl : Nat)
  /-- GATE_EVALUATE (R242). Once every enrolled sequencer has reached the gate marker and the Carousel has ended the step's work, the module evaluates its gate. -/
  | gateEvaluate (p : Nat)
  /-- SEND_SEAL_READY (R247). When all sequencers have arrived at SEAL, the gate has passed, the updates are written and the pins are satisfied, the module sends SEAL_READY. -/
  | sendSealReady (p : Nat)
  /-- INSTALL_CUT (R343). At the install cut each region's Solver writes the alternate root record of every used entry. -/
  | installCut (p : Nat)
  /-- RECV_SEAL_READY (R508). The coordinator receives a SEAL_READY vote for the attempt. -/
  | recvSealReady (p : Nat) (m : SealMsg)
  /-- RECV_GATE_FAIL (R508). The coordinator receives a GATE_FAIL vote. -/
  | recvGateFail (p : Nat) (m : SealMsg)
  /-- READY_TMO_EXPIRY (R508). READY_TMO passes after the first vote without every vote, so the coordinator decides ABANDON and posts SEAL_TMO. -/
  | readyTmoExpiry (p : Nat)
  /-- RECV_SEAL (R509). A rank receives SEAL for SEALED_STEP + 1 with READY_SENT set and commits the step. -/
  | recvSeal (p : Nat) (m : SealMsg)
  /-- RECV_ABANDON (R509). A rank receives ABANDON for the step in progress and abandons it. -/
  | recvAbandon (p : Nat) (m : SealMsg)
  /-- VOID_PASS_END (R360). The void pass finishes and the journal is cleared. -/
  | voidPassEnd (p : Nat)
  /-- DECIDE_TMO_EXPIRY (R509). A rank that voted gets no decision within DECIDE_TMO, sets IN_DOUBT and posts SEAL_TMO. -/
  | decideTmoExpiry (p : Nat)
  /-- RECV_BOUND_READY (R511). The coordinator receives BOUND_READY and releases the boundary or abandon barrier once every live rank agrees, or sends EPOCH_MISMATCH. -/
  | recvBoundReady (p : Nat) (m : SealMsg)
  /-- RECV_BOUND_RELEASE (R243). A rank receives BOUND_RELEASE and its sequencers continue or yield. -/
  | recvBoundRelease (p : Nat) (m : SealMsg)
  /-- RECV_EPOCH_MISMATCH (R511). Every sequencer of the job halts with cause EPOCH_MISMATCH. -/
  | recvEpochMismatch (p : Nat) (m : SealMsg)
  /-- ACK_TMO_EXPIRY (R510). The abandon acknowledgements are incomplete at ACK_TMO, so the coordinator posts SEAL_TMO and releases nothing. -/
  | ackTmoExpiry (p : Nat)
  /-- BOUND_TMO_EXPIRY (R511). BOUND_TMO passes without every rank at a boundary, so the coordinator posts SEAL_TMO and keeps waiting. -/
  | boundTmoExpiry (p : Nat)
  /-- DEFERRED_RELEASE (R540). The coordinator sends a deferred BOUND_RELEASE when its system time reaches QEND + 40 ns. -/
  | deferredRelease (p : Nat)
  /-- SEQ_READ_NULL (R215). The sequencer reads a NULL packet from its command queue as no command. -/
  | seqReadNull (c : Nat)
  /-- SEQ_POISON_HEADER (R215). A command packet whose first word is poisoned is discarded without a completion, and POISON_CMD is set. -/
  | seqPoisonHeader (c : Nat)
  /-- CMD_NOP (R219). NOP issues and ends. -/
  | cmdNop (c : Nat)
  /-- CMD_WAITQ (R234). WAITQ starts consuming COUNT packets of a queue of this sequencer. -/
  | cmdWaitq (c : Nat)
  /-- WAITQ_END (R234). WAITQ ends with OK once COUNT packets are consumed, or with STALE_END on a stale event. -/
  | waitqEnd (c : Nat)
  /-- CMD_SIGNAL (R235). SIGNAL writes a packet of 0–8 words to a queue of the partition. -/
  | cmdSignal (c : Nat)
  /-- CMD_CALL (R238). CALL runs an installed routine, nesting up to 4 deep. -/
  | cmdCall (c : Nat)
  /-- ROUTINE_RETURN (R238). After the routine's last word the sequencer returns, and the CALL posts its record. -/
  | routineReturn (c : Nat)
  /-- CMD_INSTALL (R236). INSTALL validates every command of a routine and makes the table entry valid. -/
  | cmdInstall (c : Nat)
  /-- CMD_INSTALL_REMOVE (R236). INSTALL with REMOVE = 1 clears a routine-table entry. -/
  | cmdInstallRemove (c : Nat)
  /-- CMD_SCHED (R239). SCHED loads the step's schedule-table row into S[0]–S[7]. -/
  | cmdSched (c : Nat)
  /-- CMD_PHASE (R241). A phase marker sets the sequencer's phase and posts the census entries of the cluster's units. -/
  | cmdPhase (c : Nat)
  /-- CMD_PHASE_GATE (R242). The gate marker reports the sequencer's arrival and waits for the gate. -/
  | cmdPhaseGate (c : Nat)
  /-- CMD_PHASE_FULL (R243). A FULL marker reports arrival at a full boundary and waits for the release. -/
  | cmdPhaseFull (c : Nat)
  /-- CMD_EPOCH (R244). EPOCH reports arrival at a full boundary that switches to a new mapping slot and layout epoch. -/
  | cmdEpoch (c : Nat)
  /-- CMD_SEAL (R246). SEAL checks its STEP and pins, reports arrival at the seal, and waits for SEAL or ABANDON. -/
  | cmdSeal (c : Nat)
  /-- CMD_MATMUL (R227). MATMUL issues one product or K-slice, cut into tiles for the cluster's units. -/
  | cmdMatmul (c : Nat)
  /-- CMD_CHAIN (R232). CHAIN issues a vector-engine chain with its schedule patches applied. -/
  | cmdChain (c : Nat)
  /-- CMD_XFER (R233). XFER issues a region transfer and waits for a transfer slot. -/
  | cmdXfer (c : Nat)
  /-- XFER_ACCEPT (R178). The transfer engine accepts a waiting transfer once fewer than 16 are in flight. -/
  | xferAccept (r n : Nat)
  /-- XFER_COMPLETE (R177). A transfer completes once every byte written is visible; a poisoned source is carried and reported. -/
  | xferComplete (r n : Nat) (host : List Byte)
  /-- COMMAND_END (R221). A command ends when all its effects are complete, and its group counter falls. -/
  | commandEnd (c id : Nat)
  /-- SEQ_STOP_REQUEST (R254). A write of STOP requests a halt of the sequencer. -/
  | seqStopRequest (fn : Fn) (c : Nat)
  /-- SEQ_HALT (R250). At the next issue decision the sequencer halts with cause STOP. -/
  | seqHalt (c : Nat)
  /-- SEQ_RESUME (R250). RESUME restarts a halted sequencer according to its halt cause. -/
  | seqResume (fn : Fn) (c : Nat) (stop : Bool)
  /-- TILE_START (R123). At a tile or pass boundary the unit chooses its next work: arbitration tile, then training tile, then Solver tile. -/
  | tileStart (u : Nat)
  /-- TILE_COMPLETE (R118). After its checksum test a tile posts its completion with flags and first positions. -/
  | tileComplete (u : Nat) (upset : Option Upset)
  /-- ARBITRATION_OUTCOME (R502). When the arbitration tile ends, the outcome is chosen, units are marked, the held completion is posted and the fault record is written. -/
  | arbitrationOutcome (r orig : Nat)
  /-- REWRITE_RUN_COMPLETE (R502). The arbitration unit's rewrite run in reference order completes and writes the tile, or leaves the disagreement unresolved. -/
  | rewriteRunComplete (u : Nat) (upset : Option Upset)
  /-- SOLVER_PASS_END (R124). A Solver pass ends and drains into bank S, and a waiting training tile takes the unit. -/
  | solverPassEnd (u : Nat)
  /-- SOLVER_TILE_COMPLETE (R126). A Solver tile posts its completion to the Root Solver with any CHK or POISON; the operand hit names the pass that a failing test shows, and the upset, if any. -/
  | solverTileComplete (u : Nat) (hit : Nat × Option Upset) (poison : Bool)
  /-- HEALTH_SET (R131). Ringmaster sets QUAR or CKDEG of a unit. -/
  | healthSet (u bits : Nat)
  /-- PARTIAL_ARRIVAL (R82). A K-slice partial arrives at a combining point and is added or held in slice order. -/
  | partialArrival (n : Nat)
  /-- CHAIN_COMPLETE (R162). A chain completes after all its writes, with its flags and reductions. -/
  | chainComplete (u : Nat)
  /-- CENSUS_HELD_POST (R165). A held census record is posted once its queue has a free cell, releasing the stalled chain. -/
  | censusHeldPost (u : Nat)
  /-- PATROL_SCRUB_PASS (R188). A scrub reads a store location, corrects what it can and writes it back. -/
  | patrolScrubPass (store : Store) (loc : Nat) (res : ScrubResult)
  /-- QUEUE_WORD_WRITE (R194). A producer writes one word of a packet into the queue pool. -/
  | queueWordWrite (r q prod : Nat) (w : Word) (mark : Nat) (p : Bool)
  /-- CELL_GRANTED (R198). A stalled producer obtains a freed cell and resumes without losing words. -/
  | cellGranted (r q : Nat)
  /-- QUEUE_WORD_READ (R196). The consumer reads a word in queue order, PKTS falls at a packet's last word, and cells are freed. -/
  | queueWordRead (r q : Nat)
  /-- STALE_TIMER_FIRE (R199). The staleness timer fires, sets STALE_FIRED and raises a stale event at the consumer. -/
  | staleTimerFire (r q : Nat)
  /-- QP_FLUSH (R200). Writing FLUSH requests a flush of the queue. -/
  | qpFlush (fn : Fn) (r q : Nat)
  /-- FLUSH_TAKE_EFFECT (R200). Once open packets have ended and no read is partway, the packets present at the request are discarded. -/
  | flushTakeEffect (r q : Nat)
  /-- QP_RESET (R201). RESET empties a stopped partition's queue at once and cancels any flush. -/
  | qpReset (fn : Fn) (r q : Nat)
  /-- QUEUE_EN_WRITE (R208). A write to a queue's EN enables it after checking reserves and CKIND, or disables and empties it. -/
  | queueEnWrite (fn : Fn) (r q : Nat) (data : Word)
  /-- RACK_PUSH (R266). PUSH allocates pages and copies a frame onto the lane. -/
  | rackPush (c : Nat)
  /-- RACK_PUSH_END (R266). A PUSH waiting for pages completes when spills release them and its frame record is complete. -/
  | rackPushEnd (r lane : Nat)
  /-- RACK_POP (R266). POP copies the top frame to its destination and frees it, fetching it first if spilled. -/
  | rackPop (c : Nat)
  /-- RACK_PEEK (R266). PEEK copies the top frame and leaves it resident on the lane. -/
  | rackPeek (c : Nat)
  /-- RACK_POP_END (R266). A POP or PEEK that waited on a fetch completes once the data is written. -/
  | rackPopEnd (r lane : Nat)
  /-- RACK_DROP (R266). DROP frees the top frame and cancels its moves. -/
  | rackDrop (c : Nat)
  /-- RACK_HINT (R272). HINT puts the lane into drain mode. -/
  | rackHint (c : Nat)
  /-- SPILL_START (R270). The Racking engine starts spilling a frame to its host home. -/
  | spillStart (r lane : Nat)
  /-- SPILL_COMPLETE (R270). The frame's last page has been accepted by the host and its pages are freed. -/
  | spillComplete (r lane : Nat)
  /-- SPILL_REFUSED (R274). A spill write refused by the host port leaves the frame resident and unspillable and sets HOST_ERR. -/
  | spillRefused (r lane : Nat)
  /-- FRAME_FETCH_START (R272). In drain mode, or on demand, the engine starts fetching a spilled frame into fresh pages. -/
  | frameFetchStart (r lane : Nat)
  /-- FRAME_FETCH_COMPLETE (R271). A fetch finishes and its CRC is checked, making the frame resident again. -/
  | frameFetchComplete (r lane : Nat) (host : Option (List Byte))
  /-- RACK_ENABLE (R285). A write of RACK_CTL.EN = 1 is dropped with CFG_BAD if the area or quotas are invalid. -/
  | rackEnable (fn : Fn) (r : Nat) (data : Word)
  /-- PRESS_ARM (R305). ARM allocates and zeroes a staging entry and waits to bind to a MATMUL. -/
  | pressArm (c : Nat)
  /-- PRESS_ABSORB (R309). A tapped tile's taken samples are absorbed in reference order into the staged sub-tiles. -/
  | pressAbsorb (c : Nat)
  /-- PRESS_DEPOSIT_RESUME (R309). A unit holding a tapped tile resumes once capture-store room appears. -/
  | pressDepositResume (u : Nat)
  /-- PRESS_EXPORT (R312). EXPORT writes an entry's part as a partial record. -/
  | pressExport (c : Nat)
  /-- PRESS_MERGE (R314). MERGE merges a source into the alternate statistics slot as a running average, or carries it. -/
  | pressMerge (c : Nat)
  /-- CMD_SOLVE (R339). SOLVE checks a solve descriptor and submits it to the Root Solver. -/
  | cmdSolve (c : Nat)
  /-- SOLVE_CMD_ACCEPT (R340). A waiting SOLVE is accepted into a freed slot and receives a ticket. -/
  | solveCmdAccept (r : Nat)
  /-- SOLVE_QUEUE_ACCEPT (R339). A solve packet from the input queue is checked and accepted, or rejected with a result record. -/
  | solveQueueAccept (r : Nat)
  /-- SOLVE_ACTIVATE (R340). An accepted solve becomes active, PRIO first and then in acceptance order. -/
  | solveActivate (r : Nat)
  /-- SOLVE_SETUP_END (R331). The input is loaded, damped and scaled, and the first residual is formed. -/
  | solveSetupEnd (r slot : Nat)
  /-- SOLVE_ITERATION_END (R329). An iteration ends, and the residual is tested against TOL, CAP and ill-posedness. -/
  | solveIterationEnd (r slot : Nat)
  /-- SOLVE_DEADLINE (R334). The deadline passes, so the solve ends ABANDONED or returns its last iterate as PARTIAL. -/
  | solveDeadline (r slot : Nat)
  /-- SOLVE_COMPLETE (R340). The solve's output is written and its completion is recorded. -/
  | solveComplete (r slot : Nat)
  /-- SOLVE_DROP (R351). DROP ends every accepted solve ABANDONED. -/
  | solveDrop (fn : Fn) (r : Nat)
  /-- UPDATE_APPLY (R367). APPLY updates the rows of a tensor into their non-visible copies by the job's rule. -/
  | updateApply (c : Nat)
  /-- APPLY_END (R378). An APPLY ends once all its writes have completed, or at a row boundary on UPD_NF, UPD_POISON or UPD_LIST. -/
  | applyEnd (p n : Nat)
  /-- UPDATE_FETCH (R380). FETCH copies visible state out to DATA. -/
  | updateFetch (c : Nat)
  /-- UPDATE_PLACE (R381). PLACE writes the refreshed class C working-copy rows into the newly visible copy. -/
  | updatePlace (c : Nat)
  /-- UPDATE_ADOPT (R382). ADOPT writes raw records into this module's areas as they stand. -/
  | updateAdopt (c : Nat)
  /-- APPLY_INTERRUPT (R383). A fault stops an APPLY's work; it stays outstanding and posts UPD_STOP. -/
  | applyInterrupt (p n row : Nat)
  /-- UPDATE_REPLAY (R383). REPLAY re-executes every journaled APPLY of the step in journal order. -/
  | updateReplay (fn : Fn) (p : Nat)
  /-- REPLAY_END (R383). The replay ends and REPLAY reads 0. -/
  | replayEnd (p : Nat)
  /-- AUDIT_CHECK (R384). The auditor compares a sampled working-copy element with the RNE of its master. -/
  | auditCheck (p tensor index : Nat)
  /-- CASK_WITHDRAW (R355). A withdrawn Cask's granules move to the next Cask; a stack with none left posts STACK_DOWN. -/
  | caskWithdraw (stack cask : Nat)
  /-- LINK_ENABLE (R400). Setting a LEN bit brings a link from DISABLED or FAILED into DETECT. -/
  | linkEnable (fn : Fn) (d : Nat)
  /-- LINK_DISABLE (R434). Clearing a LEN bit disables the link, losing unacknowledged codewords. -/
  | linkDisable (fn : Fn) (d : Nat)
  /-- LINK_DETECT (R400). Enough ports detect signal, so the link enters TRAIN. -/
  | linkDetect (d ports : Nat)
  /-- TRAIN_FRAME_RECV (R401). A training frame is received and its equaliser requests are applied. -/
  | trainFrameRecv (d port lane : Nat) (f : TrainFrame)
  /-- TRAIN_TIMEOUT (R400). After 250 ms in TRAIN the link returns to DETECT, or fails after the third expiry. -/
  | trainTimeout (d : Nat)
  /-- ALIGN_BLOCK_RECV (R409). An alignment block is received, locking and deskewing lanes or checking the LSN. -/
  | alignBlockRecv (d port lane : Nat) (b : AlignBlock)
  /-- ALIGN_TIMEOUT (R400). After 1 ms in ALIGN the link fails with ALIGN_TIMEOUT. -/
  | alignTimeout (d : Nat)
  /-- BOND_TIMEOUT (R400). After 100 µs in BOND the link fails with BOND_WIDTH. -/
  | bondTimeout (d : Nat)
  /-- HELLO_RECV (R403). A HELLO flit is checked in CHECK, or requests RETRAIN in ACTIVE. -/
  | helloRecv (d : Nat) (h : Hello)
  /-- CHECK_TIMEOUT (R400). After 1 ms in CHECK the link fails with the failing cause. -/
  | checkTimeout (d : Nat)
  /-- FLOW_TIMEOUT (R404). No FLOW flit for 10 µs sends the link into RETRAIN. -/
  | flowTimeout (d : Nat)
  /-- RETRAIN_TIMEOUT (R400). After 2 ms in RETRAIN the link goes to FAILED. -/
  | retrainTimeout (d : Nat)
  /-- CODEWORD_RECV (R411). A codeword is decoded and its slots are processed once in LSN order. -/
  | codewordRecv (d : Nat) (cw : Codeword)
  /-- FLOW_RECV (R412). A FLOW flit acknowledges codewords, reports NAKs and returns credits. -/
  | flowRecv (d : Nat) (f : FlowFlit)
  /-- REPLAY_CODEWORD_RECV (R411). A REPLAY codeword resets the receiver's count and resumes processing. -/
  | replayCodewordRecv (d lsn : Nat)
  /-- ACK_TIMEOUT_REPLAY (R411). 10 µs without an advancing acknowledgement, or a full replay buffer, starts a replay. -/
  | ackTimeoutReplay (d : Nat)
  /-- PACKET_INJECT (R430). A hub agent injects a packet after the partition's permission check, and the injection is metered. -/
  | packetInject (p : Nat) (k : Pkt)
  /-- PACKET_FORWARD (R427). A packet in transit is forwarded on the route that FAB_RT names. -/
  | packetForward (d : Nat) (k : Pkt)
  /-- CREDIT_STALL (R416). A packet that has waited for credit for over 1 ms sets CREDIT_STALL. -/
  | creditStall (d vc : Nat)
  /-- QPUSH_RECV (R420). A delivered QPUSH writes its words as one packet to a local queue. -/
  | qpushRecv (k : Pkt)
  /-- MWRITE_RECV (R421). A delivered MWRITE writes granules to a tier and optionally returns MWACK. -/
  | mwriteRecv (k : Pkt)
  /-- MWRITE_WIDEN_RECV (R421). A delivered MWRITE_WIDEN widens MXFP8 blocks to BF16 and adds to the census. -/
  | mwriteWidenRecv (k : Pkt)
  /-- MREAD_RECV (R422). A delivered MREAD reads a tier range and returns MRDATA. -/
  | mreadRecv (k : Pkt)
  /-- MWACK_RECV (R422). A write acknowledgement reaches the requesting agent. -/
  | mwackRecv (k : Pkt)
  /-- MRDATA_RECV (R422). Read data with its status reaches the requesting agent. -/
  | mrdataRecv (k : Pkt)
  /-- MGMT_RECV (R423). A MGMT packet is delivered to Ringmaster's mailbox. -/
  | mgmtRecv (k : Pkt)
  /-- RT_FILL (R441). RT_FILL fills FAB_RT with dimension-order routes. -/
  | rtFill (fn : Fn)
  /-- TSYNC_PERIOD (R436). Every PERIOD µs a non-root module sends TSYNC REQ on its parent link. -/
  | tsyncPeriod
  /-- TSYNC_REQ_RECV (R436). A parent answers a TSYNC REQ with an RSP carrying its timestamps. -/
  | tsyncReqRecv (d t1 seq turn : Nat) (replay : Bool)
  /-- TSYNC_RSP_RECV (R437). The child computes its offset and steps or slews its time, updating TIME_OK. -/
  | tsyncRspRecv (d : Nat) (t : TimeRsp)
  /-- HOLDOVER_EXPIRY (R438). After 100 ms of holdover TIME_OK is cleared. -/
  | holdoverExpiry
  /-- COLL_RS (R467). A reduce-scatter starts; each member receives its shard of the sum in reference order. -/
  | collRs (c : Nat)
  /-- COLL_AG (R475). An all-gather starts, delivering every member's shard to all members. -/
  | collAg (c : Nat)
  /-- COLL_AR (R467). An all-reduce starts, delivering the whole reduced range to every member. -/
  | collAr (c : Nat)
  /-- COLL_A2A (R477). An all-to-all starts dispatching rows to experts under capacity quotas. -/
  | collA2a (c : Nat)
  /-- COLL_NORM (R479). NORM sends this rank's norm part to the seal coordinator and waits for the global norm. -/
  | collNorm (c : Nat)
  /-- COLL_PREDUCE (R478). PREDUCE combines Press partial records at the root in CONTRIB order. -/
  | collPreduce (c : Nat)
  /-- COLL_SEND (R476). SEND moves granules to a peer against its grants. -/
  | collSend (c : Nat)
  /-- COLL_RECV (R476). RECV grants and receives granules from a peer. -/
  | collRecv (c : Nat)
  /-- COLL_DATA_RECV (R470). A DATA packet of a collective is accepted and added or written. -/
  | collDataRecv (k : Pkt)
  /-- COLL_GRANT_RECV (R471). A GRANT permits the member to send segments. -/
  | collGrantRecv (k : Pkt)
  /-- GRANT_ISSUE (R471). A receiver issues grants pair by pair as reorder slots are free. -/
  | grantIssue (p cid : Nat)
  /-- COLL_DIGEST_RECV (R472). A contributor's digest and magnitude digest arrive at the tester. -/
  | collDigestRecv (k : Pkt)
  /-- COLL_COUNTS_RECV (R477). An expert member receives a member's per-expert counts. -/
  | collCountsRecv (k : Pkt)
  /-- COLL_NORM_RECV (R479). A norm part or result enters the coordinator's sum or the norm table. -/
  | collNormRecv (k : Pkt)
  /-- COLL_DONE_RECV (R466). The Taster's DONE confirms that a shard's digest test passed or was resolved. -/
  | collDoneRecv (k : Pkt)
  /-- COLL_RESEND_RECV (R473). A contributor resends its contribution for digest arbitration. -/
  | collResendRecv (k : Pkt)
  /-- DIGEST_ARBITRATION_END (R473). The re-reduction on the second adder ends and decides which sum is written. -/
  | digestArbitrationEnd (p cid : Nat)
  /-- COLL_TIMEOUT (R468). An expected segment or grant is missing for TMO, so the collective ends COLL_LOST. -/
  | collTimeout (p cid : Nat)
  /-- HOLD_EXPIRY (R483). A held packet for an unopened CID is discarded after TMO. -/
  | holdExpiry (p cid : Nat)
  /-- COLL_END (R466). The collective ends once its result is visible, its digests are resolved and its grants are used. -/
  | collEnd (p cid : Nat)
  /-- MAP_LOAD (R455). GO starts checking a mapping image into a slot. -/
  | mapLoad (fn : Fn) (p : Nat)
  /-- MAP_LOAD_DONE (R455). The load ends, making the slot valid or reporting the first failure. -/
  | mapLoadDone (p : Nat)
  /-- MAP_CLEAR (R450). GO with CLEAR invalidates a mapping slot. -/
  | mapClear (fn : Fn) (p : Nat)
  /-- CAR_ENABLE (R456). CAR_CTL.EN = 1 makes the start slot current, or is dropped with MAP_FAIL. -/
  | carEnable (fn : Fn) (p : Nat) (data : Word)
  /-- CAR_SEGS_WRITE (R489). A SEGS write exceeding the 2,048 total is dropped with SEG_OVER. -/
  | carSegsWrite (fn : Fn) (p : Nat) (data : Word)
  /-- SEAL_LOAD (R515). LOAD sets SEALED_STEP, parity and schedule index for a restored module. -/
  | sealLoad (fn : Fn) (p : Nat)
  /-- SEAL_FORCE (R515). FORCE applies the seal of SEALED_STEP + 1 on a rank in doubt. -/
  | sealForce (fn : Fn) (p : Nat)
  /-- SEAL_REVERT (R515). REVERT undoes the last seal and voids its stamps. -/
  | sealRevert (fn : Fn) (p : Nat)
  /-- SEAL_DISCARD (R515). DISCARD abandons the step in progress and clears IN_DOUBT. -/
  | sealDiscard (fn : Fn) (p : Nat)
  /-- RCV_QUIESCE (R516). QUIESCE starts clearing everything in flight from a stopped partition. -/
  | rcvQuiesce (fn : Fn) (p : Nat)
  /-- QUIESCE_DONE (R516). The quiesce completes and QUIESCE reads 0. -/
  | quiesceDone (p : Nat)
  /-- RCV_APPLY (R517). APPLY sets the recovery epoch to REPOCH_NEXT and clears ATT. -/
  | rcvApply (fn : Fn) (p : Nat)
  /-- PART_START (R534). START runs a stopped partition after checking definition, state and ownership. -/
  | partStart (fn : Fn) (p : Nat)
  /-- PART_STOP (R535). STOP halts every sequencer and enters STOPPING. -/
  | partStop (fn : Fn) (p : Nat)
  /-- STOP_COMPLETE (R535). Once commands, solves, Racking moves and void passes have drained, the partition becomes STOPPED. -/
  | stopComplete (p : Nat)
  /-- YIELD_COMPLETE (R541). After a yield halt drains, the partition becomes YIELDED. -/
  | yieldComplete (p : Nat)
  /-- PART_CLAIM (R531). CLAIM takes ownership of the partition's regions and starts clearing them. -/
  | partClaim (fn : Fn) (p : Nat)
  /-- CLAIM_CLEAR_DONE (R531). The regions are cleared and CLEARED is set. -/
  | claimClearDone (p : Nat)
  /-- QUANTUM_END (R539). System time reaching QEND sets YREQ. -/
  | quantumEnd (p : Nat)
  /-- QEND_WRITE (R539). A QEND write moves the quantum end, setting YREQ at once if it lies in the past. -/
  | qendWrite (fn : Fn) (p : Nat) (data : Word)
  /-- GRACE_FENCE (R542). At GEND a running partition is fenced. -/
  | graceFence (p : Nat)
  /-- FENCE_DONE (R542). The fence's actions complete and the state becomes FENCED. -/
  | fenceDone (p : Nat)
  /-- CGRANT_WRITE (R537). A grant write from a function, or beyond CGRANT_MAX, is dropped and recorded. -/
  | cgrantWrite (fn : Fn) (p i : Nat) (data : Word)
  /-- REGION_PARK (R623). A region owned by no partition for 1 ms is parked. -/
  | regionPark (r : Nat)
  /-- REGION_WAKE (R623). An access or claim wakes a parked or retained region. -/
  | regionWake (r : Nat)
  /-- SELF_REFRESH_ENTER (R623). A stack or package without access for 1 ms enters self-refresh. -/
  | selfRefreshEnter (dev : Nat)
  /-- MTR_GO (R550). GO snapshots the partition's meters into the path's buffer. -/
  | mtrGo (fn : Fn) (p : Nat)
  /-- MTR_UNATTR (R550). UNATTR snapshots the unattributed meters. -/
  | mtrUnattr (fn : Fn)
  /-- METER_READING_DONE (R551). The reading with its SEQ and MAC is complete in the buffer. -/
  | meterReadingDone (path p : Nat)
  /-- CHG_REGISTER (R556). REGISTER checks a change descriptor and verifies its first signature. -/
  | chgRegister (fn : Fn) (role : Nat)
  /-- CHG_APPROVE (R556). APPROVE verifies the second signature. -/
  | chgApprove (fn : Fn)
  /-- CHG_VERIFY_DONE (R557). A signature verification ends, entering PENDING or APPROVED or failing with its RESULT. -/
  | chgVerifyDone
  /-- CHG_APPLY (R558). APPLY re-checks the descriptor and starts applying the protection change. -/
  | chgApply (fn : Fn)
  /-- CHG_APPLY_DONE (R558). Frames and regions are cleared, the items take effect in one cycle, and SEQ and EPOCH advance. -/
  | chgApplyDone
  /-- CHG_CANCEL (R556). CANCEL returns to IDLE and clears the buffer and the stage. -/
  | chgCancel (fn : Fn)
  /-- HIQ_DOORBELL (R571). A TAIL doorbell posts descriptors to an inbound ring. -/
  | hiqDoorbell (fn : Fn) (q tail : Nat)
  /-- HIQ_PACKET (R572). A PACKET descriptor writes its words as one packet to the ring's queue. -/
  | hiqPacket (f q : Nat) (desc : List Word) (data : List Byte) (poison : Bool)
  /-- HIQ_WRITE (R572). A WRITE descriptor copies host memory to a tier address. -/
  | hiqWrite (f q : Nat) (desc : List Word) (data : List Byte) (poison : Bool)
  /-- HIQ_READ (R572). A READ descriptor copies a tier range to host memory. -/
  | hiqRead (f q : Nat) (desc : List Word)
  /-- HIQ_DESC_COMPLETE (R574). A descriptor completes in ring order and may raise its NOTIFY vector. -/
  | hiqDescComplete (f q : Nat)
  /-- HIQ_SKIP (R574). SKIP moves HEAD past a failed descriptor and resumes the ring. -/
  | hiqSkip (fn : Fn) (q : Nat)
  /-- HIQ_RESET (R574). RESET sets HEAD to TAIL, discards the descriptors between and clears HALTED. -/
  | hiqReset (fn : Fn) (q : Nat)
  /-- HIQ_BASE_WRITE (R584). Enabling an inbound ring is checked against the target queue's partition and the port. -/
  | hiqBaseWrite (fn : Fn) (q : Nat) (data : Word)
  /-- HOQ_DOORBELL (R577). A HEAD doorbell frees outbound ring slots. -/
  | hoqDoorbell (fn : Fn) (q head : Nat)
  /-- HOQ_PACKET_WRITE (R577). Once room exists, a packet is written to the outbound ring with its header last. -/
  | hoqPacketWrite (f q : Nat)
  /-- HOQ_MODERATION_TIMER (R578). TIME µs after the first unannounced packet the ring's vector is raised. -/
  | hoqModerationTimer (f q : Nat)
  /-- HOQ_BASE_WRITE (R585). Enabling an outbound ring checks its drained queue and restarts TAIL and PHASE. -/
  | hoqBaseWrite (fn : Fn) (q : Nat) (data : Word)
  /-- MSIX_UNMASK (R579). Unmasking a vector sends its pending message. -/
  | msixUnmask (f vec : Nat)
  /-- WINDOW_WRITE (R583). A DMA window write is dropped with BAD_CFG while a ring is enabled or the partition runs. -/
  | windowWrite (fn : Fn) (off : Nat) (data : Word)
  /-- VF_FLR (R569). A VF Function Level Reset disables its rings, cancels its DMA and clears its registers. -/
  | vfFlr (port v : Nat)
  /-- PF_FLR (R569). A PF FLR resets the PF and all VFs of its port and clears window P. -/
  | pfFlr (port : Nat)
  /-- PORT_RESET (R606). PERST#, hot reset or link-down resets one host port's logic and functions. -/
  | portReset (port : Nat)
  /-- D3HOT_ENTER (R569). A function in D3hot stops DMA and interrupts, keeping its ring positions. -/
  | d3hotEnter (f : Nat)
  /-- D0_RETURN (R569). A function returning to D0 resumes its rings. -/
  | d0Return (f : Nat)
  /-- HOST_READY_SET (R600). HOST_READY sets and the port stops answering with Retry Status. -/
  | hostReadySet (port : Nat)
  /-- HUB_SRT_GO (R100). GO starts an evaluation of the stochastic-rounding draw. -/
  | hubSrtGo (fn : Fn) (p : Nat)
  /-- HUB_SRT_DONE (R100). The draw is placed in VALUE and GO reads 0. -/
  | hubSrtDone (p : Nat)
  /-- COLD_START (R599). Power-up runs the boot ROM, image check, slot selection and Ringmaster start. -/
  | coldStart
  /-- MEM_READY (R599). Near tier and Cellar are initialised, MEM_READY sets, and pending claims proceed. -/
  | memReady
  /-- BOOT_ALIVE (R596). ALIVE clears the running slot's attempt count. -/
  | bootAlive (fn : Fn)
  /-- ALIVE_TIMEOUT (R596). No ALIVE within 10 s causes a warm reset with cause FALLBACK. -/
  | aliveTimeout
  /-- BOOT_COMMIT (R597). COMMIT raises MIN_SVN and may revoke key 0. -/
  | bootCommit (fn : Fn)
  /-- BOOT_WARM (R607). A warm reset fences running partitions and restarts with DRAM in self-refresh. -/
  | bootWarm (fn : Fn)
  /-- BOOT_COLD (R606). A cold reset request resets everything except the flash. -/
  | bootCold (fn : Fn)
  /-- BOOT_SETPREF (R614). SETPREF writes the preferred slot to the boot control block. -/
  | bootSetpref (fn : Fn) (sel : Nat)
  /-- FWCTL_WRITE_PAGE (R615). GO writes BOOT_FWBUF to a page of the standby slot. -/
  | fwctlWritePage (fn : Fn)
  /-- FWCTL_ERASE (R615). GO with ERASE erases the standby slot. -/
  | fwctlErase (fn : Fn)
  /-- FWCTL_DONE (R615). The flash action ends with its RESULT. -/
  | fwctlDone
  /-- LOCKSTEP_MISMATCH (R603). A management core pair mismatches and stops, posting LOCKSTEP. -/
  | lockstepMismatch (pair : Nat)
  /-- ID_WAIT_TIMEOUT (R601). ID_WAIT passes without SET_ID, so links stay disabled and NO_ID is reported. -/
  | idWaitTimeout
  /-- MCTP_GET_STATUS (R610). GET_STATUS returns boot status, version, cause and ID, and deasserts SMB_ALERT#. -/
  | mctpGetStatus (req : List Byte)
  /-- MCTP_SELECT_SLOT (R610). SELECT_SLOT writes the preferred slot for the next reset. -/
  | mctpSelectSlot (req : List Byte)
  /-- MCTP_SET_ID (R601). SET_ID writes the module ID while all links are disabled, or returns LINKS_UP. -/
  | mctpSetId (req : List Byte)
  /-- MCTP_METER_READ (R610). METER_READ returns a signed meter reading over the baseboard path. -/
  | mctpMeterRead (req : List Byte)
  /-- MCTP_SENSOR_READ (R610). SENSOR_READ returns a THM_SENSOR register. -/
  | mctpSensorRead (req : List Byte)
  /-- MCTP_RESET (R632). RESET performs a warm or cold reset, and a cold reset may leave a trip. -/
  | mctpReset (req : List Byte)
  /-- MCTP_CHG_ACCESS (R610). CHG_ACCESS reads or writes the CHG_ range only. -/
  | mctpChgAccess (req : List Byte)
  /-- MCTP_FW_WRITE (R598). FW_WRITE writes or erases the standby slot or writes the configuration image. -/
  | mctpFwWrite (req : List Byte)
  /-- MCTP_SET_ENDPOINT_ID (R609). The MCTP control message Set Endpoint ID assigns the endpoint ID. -/
  | mctpSetEndpointId (req : List Byte)
  /-- MCTP_GET_ENDPOINT_ID (R609). The MCTP control message Get Endpoint ID returns the endpoint ID. -/
  | mctpGetEndpointId (req : List Byte)
  /-- MCTP_GET_VERSION_SUPPORT (R609). The MCTP control message Get MCTP Version Support returns the supported versions. -/
  | mctpGetVersionSupport (req : List Byte)
  /-- MCTP_GET_MESSAGE_TYPE_SUPPORT (R609). The MCTP control message Get Message Type Support returns the supported message types. -/
  | mctpGetMessageTypeSupport (req : List Byte)
  /-- MCTP_GET_VDM_SUPPORT (R609). The MCTP control message Get Vendor Defined Message Support reports the vendor message type. -/
  | mctpGetVdmSupport (req : List Byte)
  /-- PWR_QUALIFIED (R617). After 10 ms at or above 340 V with PWR_EN high, the precharge starts. -/
  | pwrQualified
  /-- PRECHARGE_DONE (R617). The bulk is charged and the compute, stack and Cellar converters start. -/
  | prechargeDone
  /-- INPUT_SAMPLE (R625). A 10 µs input sample drives the fast limiter rule, dropout detection and electrical trips. -/
  | inputSample (mv ma : Nat)
  /-- AVERAGE_RULE_TICK (R625). Every 100 µs with the 10 ms average above PLIM, CAP falls by 1 code. -/
  | averageRuleTick
  /-- RECOVERY_RULE_TICK (R625). Every 1 ms with the average below 0.97 × PLIM, CAP rises by 1 code. -/
  | recoveryRuleTick
  /-- BULK_WARN (R619). The bulk falls below 280 V and PWR_WARN# asserts. -/
  | bulkWarn
  /-- HOLDUP_SHUTDOWN (R619). The bulk falls below 260 V, PWR_GOOD deasserts and the rails shut down. -/
  | holdupShutdown
  /-- RIDING_CLEAR (R619). The bulk recharges to 340 V and RIDING clears. -/
  | ridingClear
  /-- THERMAL_SAMPLE (R629). A sensor sample applies the warning, limiting and trip levels of its die or device. -/
  | thermalSample (sensor : Nat) (value : Int) (plausible : Bool)
  /-- TRIP_EXIT (R632). PWR_EN cycled low for at least 100 ms leaves the trip with a cold start. -/
  | tripExit
  /-- PWR_EN_LOW (R622). PWR_EN held low for 1 ms deasserts PWR_GOOD and disables the rails. -/
  | pwrEnLow
  /-- PLIM_WRITE (R627). A PLIM write is clamped to 2,000 W–vendor limit and takes effect within 100 µs. -/
  | plimWrite (fn : Fn) (data : Word)
  /-- HARDENED_SCRUB_PASS (R635). A scrub pass votes every hardened word within 1 ms. -/
  | hardenedScrubPass
  /-- PERST_DEASSERT (R600). Deassertion of PERST# on a host port starts link training, and the port answers configuration requests with Retry Status until HOST_READY. -/
  | perstDeassert (port : Nat)
  /-- LEAK_DETECTOR_WETTED (R631). The leak detector under the cold plate becomes wet, and the trip logic removes power within 100 µs. -/
  | leakDetectorWetted
  /-- RAIL_OUT_OF_RANGE (R631). An internal rail stays outside ±10 % of nominal for 20 µs, and the module trips. -/
  | railOutOfRange (rail : Nat)
  /-- SEAL_REVERT_DONE (R515). REVERT finishes reading and voiding every header of the registered areas, and then reads 0. -/
  | sealRevertDone (p : Nat)
  /-- RT_FILL_DONE (R441). The fill of FAB_RT with dimension-order routes completes within 20 µs, and RT_FILL reads 0. -/
  | rtFillDone
  deriving DecidableEq, Repr

end Sys2Proof
end

