-- ==== Sys2Proof/Decode.lean ====
section
/-! DEFINITION. Decoding of table words. No row of the table gives bits: the module takes commands on registers, queues,
links and pins, and the descriptors that software writes are decoded where they are read (Machine/Operands.lean and the
engines' files). -/

namespace Sys2Proof

/-- The command that a word of the table's bits spells: none, as no row of the table has bits. -/
def decodeTableWord (_nbits _w : Nat) : Option Instr := none

end Sys2Proof
end

