-- ==== Sys2Proof/Config.lean ====
section
/-! DEFINITION. What one part or one implementation fixes and the manual gives no number for, and the free values:
constants with no body, so that a statement holds for every value of them. -/

namespace Sys2Proof

/-- `CHG_UID`: unique per module (R563); the manual gives no number. -/
opaque Config.moduleUid : Word

/-- A value that the manual leaves open, w bits wide, drawn fresh for each n (the state's own counter). -/
opaque Config.freeBits (w : Nat) (n : Nat) : Nat

/-- The FP32 code of a function stage of R146 at an infinite operand where its formula has no value there: opcode, and
whether the operand is −Inf. -/
opaque Config.fnAtInf (op : Nat) (neg : Bool) : Nat

/-- Energy in fJ of one event of meter i: the coefficient table of the configuration image (R548). -/
opaque Config.energyCoef (i : Nat) : Nat

/-- Static energy in fJ of one region-ns (R548). -/
opaque Config.staticEnergy : Nat

/-- Energy in fJ of one region's share, 1/16, of the module's base power in one ns (R548). -/
opaque Config.baseEnergy : Nat

/-- Energy in fJ of clearing one region under R531 (R549). -/
opaque Config.clearEnergy : Nat

/-- SHA-256 of Wovaldo's public key i, as the boot ROM holds it (R591). -/
opaque Config.vendorKeyHash (i : Nat) : Nat

/-- The public key x‖y that a configuration image carries (R591); the manual does not give its place. The argument is the
image's header and vendor section. -/
opaque Config.imageKey (image : List Byte) : List Byte

/-- The expected `HUB_ID` that a vendor section names (R592); the manual does not give the section's layout. -/
opaque Config.vendorHubId (vendor : List Byte) : Word

/-- Clock in MHz of hub island k (fabric and Carousel, memory control, management) that a vendor section fixes (R32); the manual
does not give the section's layout. -/
opaque Config.hubClock (vendor : List Byte) (k : Nat) : Nat

/-- Clock in MHz of a stack base die, tied to the DRAM interface (R32); the manual gives no number. -/
opaque Config.stackClock : Nat

/-- Code of the register that a block prefix code and a register index of a PROFILE entry name (R593); the manual does not
give the codes. -/
opaque Config.profileReg (block index : Nat) : Nat

/-- Value of a field that a profile does not name: for a B field the firmware's profile default, for an E field the value
the profile derives (R21, R605); the manual leaves both to the firmware's release notes. -/
opaque Config.profileFill (profile reg lo : Nat) : Nat

end Sys2Proof
end

