-- ==== Sys2Proof/Machine/Bits.lean ====
section
/-! DEFINITION. Bit fields, byte order, sparse maps and list helpers: the plain data operations that every
meaning shares (R10–R12 fix bit numbering and byte order). -/

namespace Sys2Proof.Machine

/-- Field [hi:lo] of a number read as bits (R11). -/
def bits (w hi lo : Nat) : Nat := (w >>> lo) % 2 ^ (hi + 1 - lo)

/-- Bit n of a number. -/
def bit (w n : Nat) : Bool := (w >>> n) % 2 == 1

/-- The number with field [hi:lo] replaced by v modulo the field's width. -/
def setBits (w hi lo v : Nat) : Nat :=
  w - bits w hi lo * 2 ^ lo + (v % 2 ^ (hi + 1 - lo)) * 2 ^ lo

/-- 1 for true, 0 for false. -/
def b2n (b : Bool) : Nat := if b then 1 else 0

/-- Field [hi:lo] of a word. -/
def wbits (w : Word) (hi lo : Nat) : Nat := bits w.toNat hi lo

/-- Bit n of a word. -/
def wbit (w : Word) (n : Nat) : Bool := bit w.toNat n

/-- The word with field [hi:lo] replaced. -/
def wset (w : Word) (hi lo v : Nat) : Word := Word.ofNat (setBits w.toNat hi lo v)

/-- A w-bit two's complement field as an integer. -/
def signed (w n : Nat) : Int := if n < 2 ^ (w - 1) then (n : Int) else (n : Int) - (2 : Int) ^ w

/-- An integer as a w-bit two's complement field. -/
def unsigned (w : Nat) (i : Int) : Nat := (i % ((2 : Int) ^ w)).toNat

/-- Saturating increment of a field at its maximum m. -/
def satAdd (m n k : Nat) : Nat := min m (n + k)

/-- n clamped to lo–hi. -/
def clamp (lo hi n : Nat) : Nat := max lo (min hi n)

/-- ⌈a / b⌉. -/
def cdiv (a b : Nat) : Nat := (a + b - 1) / b

/-- Little-endian value of a byte list: the byte at the lowest address holds bits [7:0] (R10). -/
def leNat : List Byte → Nat
  | [] => 0
  | b :: bs => b.toNat + 256 * leNat bs

/-- n bytes of a number, little-endian (R10). -/
def leBytes : Nat → Nat → List Byte
  | 0, _ => []
  | n + 1, w => BitVec.ofNat 8 w :: leBytes n (w / 256)

/-- Big-endian value of a byte list, used by the signature and hash standards. -/
def beNat (bs : List Byte) : Nat := bs.foldl (fun a b => a * 256 + b.toNat) 0

/-- n bytes of a number, big-endian. -/
def beBytes (n w : Nat) : List Byte := (leBytes n w).reverse

/-- 64-bit words of a byte list, little-endian, the last padded with zeros. -/
def wordsOf : Nat → List Byte → List Word
  | 0, _ => []
  | n + 1, bs => Word.ofNat (leNat (bs.take 8)) :: wordsOf n (bs.drop 8)

/-- The bytes of a list of words, little-endian. -/
def bytesOf (ws : List Word) : List Byte := ws.flatMap (fun w => leBytes 8 w.toNat)

/-- The list with entry i replaced; a list shorter than i + 1 is unchanged. -/
def listSet {α : Type} : List α → Nat → α → List α
  | [], _, _ => []
  | _ :: xs, 0, a => a :: xs
  | x :: xs, n + 1, a => x :: listSet xs n a

/-- Word i of a packet or record, 0 beyond its end. -/
def wordAt (ws : List Word) (i : Nat) : Word := ws.getD i 0

/-- The numbers from a, n of them, in ascending order. -/
def rangeFrom (a n : Nat) : List Nat := (List.range n).map (a + ·)

/-- A sparse map: value of key k, d where k is not listed. -/
def sget {α : Type} (d : α) : List (Nat × α) → Nat → α
  | [], _ => d
  | (k', a) :: m, k => if k = k' then a else sget d m k

/-- An entry put before the first entry of a greater key. -/
def sins {α : Type} (k : Nat) (a : α) : List (Nat × α) → List (Nat × α)
  | [] => [(k, a)]
  | (k', a') :: m => if k < k' then (k, a) :: (k', a') :: m else (k', a') :: sins k a m

/-- A sparse map with key k set to a: in canonical form keys rise strictly and no listed value equals d. -/
def sset {α : Type} [DecidableEq α] (d : α) (m : List (Nat × α)) (k : Nat) (a : α) : List (Nat × α) :=
  let m := m.filter (fun x => x.1 != k)
  if a = d then m else sins k a m

/-- The sparse map with every key in [a, a + n) removed. -/
def sclear {α : Type} (m : List (Nat × α)) (a n : Nat) : List (Nat × α) :=
  m.filter (fun p => decide (p.1 < a) || decide (a + n ≤ p.1))

/-- The sparse map with the keys removed that p holds of. -/
def sdrop {α : Type} (m : List (Nat × α)) (p : Nat → Bool) : List (Nat × α) :=
  m.filter (fun q => !p q.1)

/-- The canonical form of a sparse map: keys strictly rising, no value equal to the unlisted value. -/
def swf {α : Type} [DecidableEq α] (d : α) : List (Nat × α) → Bool
  | [] => true
  | [(_, a)] => decide (a ≠ d)
  | (k, a) :: (k', a') :: m => decide (a ≠ d) && decide (k < k') && swf d ((k', a') :: m)

/-- Insertion of an element into a list sorted by a key, after its equals. -/
def insertBy {α : Type} (key : α → Nat) (x : α) : List α → List α
  | [] => [x]
  | y :: ys => if key x < key y then x :: y :: ys else y :: insertBy key x ys

/-- A list sorted by a key, stably (insertion order kept among equals). -/
def sortBy {α : Type} (key : α → Nat) (xs : List α) : List α :=
  xs.foldl (fun acc x => insertBy key x acc) []

/-- f applied n times. -/
def iter {α : Type} (f : α → α) : Nat → α → α
  | 0, x => x
  | n + 1, x => iter f n (f x)

/-- A list cut into pieces of n (the last may be shorter); fuel bounds the number of pieces. -/
def chunks {α : Type} (n : Nat) : Nat → List α → List (List α)
  | 0, _ => []
  | fuel + 1, xs => if xs.isEmpty then [] else xs.take n :: chunks n fuel (xs.drop n)

end Sys2Proof.Machine
end

