-- ==== Sys2Proof/Machine/RegMap.lean ====
section
/-! DEFINITION. The register map: every register of R646–R653 with its window, offset, instance rule and width, and
every field of the field tables with its bits, access type, reset value and level. RSVD fields are the bits no field
names; they read 0 (R14). -/

namespace Sys2Proof.Machine

/-- The windows of BAR0 (R26). -/
inductive Win where
  | hub
  | region
  | cluster
  | unit
  deriving DecidableEq, Repr

/-- Instance kinds (R647); W is one instance per window, for `HUB_PSEL` (R648). -/
inductive IKind where
  | M
  | Mp
  | P
  | F
  | W
  | R
  | C
  | U
  deriving DecidableEq, Repr

/-- The access types of R15. A field with HEALTH type is RWS/W1S: set by Ringmaster and arbitration only (R131). -/
inductive Acc where
  | RO
  | RW
  | WO
  | W1C
  | W1S
  | HEALTH
  deriving DecidableEq, Repr

/-- The registers of R650–R653. A counter block whose members share one layout and one index range is one register
with an index (for example `FAB_CNT`, i = 0–5). -/
inductive Reg where
  | HUB_ID
  | HUB_PSEL
  | HUB_STEP
  | HUB_SEED
  | HUB_SRT_IDX
  | HUB_SRT_STEP
  | HUB_SRT_OUT
  | HUB_SCHED
  | HUB_GATE_LIM
  | HUB_GATE_CTL
  | HUB_GATE_STAT
  | HUB_GATE_NORM
  | HUB_CNT_SKIP
  | HUB_CNT_SUPPR
  | HUB_CNT_CLIP
  | HUB_NT_ERR
  | HUB_NT_ERR_ADDR
  | CEL_ERR
  | CEL_ERR_ADDR
  | CSK_STAT
  | CSK_CNT_ELEM
  | CEL_UPD_CTL
  | CEL_UPD_STAT
  | CEL_UPD_STICKY
  | CEL_UPD_CMD
  | CEL_JRNL
  | CEL_AUD_LOG
  | CEL_CNT_ROWS
  | CEL_CNT_MISMATCH
  | CEL_CNT_REPLAY
  | CEL_CNT_FALLBACK
  | PART_NTX
  | PART_CLX
  | PART_TBL
  | PART_CTL
  | PART_STAT
  | PART_QEND
  | PART_QCFG
  | PART_VIOL
  | PART_RESUME
  | PART_CNT_XPART
  | PART_CGRANT
  | PART_OWN
  | FAB_CTL
  | FAB_STICKY
  | FAB_ID
  | FAB_TOPO
  | FAB_LINK_CFG
  | FAB_LINK_STAT
  | FAB_LINK_FEC
  | FAB_LINK_RETRY
  | FAB_TIME_CTL
  | FAB_TIME_NOW
  | FAB_TIME_STAT
  | FAB_CNT
  | FAB_JOB
  | FAB_PERM
  | FAB_RT
  | CAR_CTL
  | CAR_CFG
  | CAR_SEGS
  | CAR_STAT
  | CAR_STICKY
  | CAR_MAPLOAD
  | CAR_MAPADDR
  | CAR_MAPSLOT
  | CAR_CNT
  | TST_LOG
  | TST_CNT_CHECK
  | TST_CNT_FAIL
  | SEAL_CFG
  | SEAL_STAT
  | SEAL_LOG
  | SEAL_CAUSE
  | SEAL_CMD
  | SEAL_LOADIDX
  | SEAL_CNT
  | SEAL_LIVE
  | INT_CTL
  | INT_STAT
  | INT_RCV
  | INT_FLOG
  | INT_CNT
  | MTR_SNAP
  | MTR_STAT
  | MTR_EPOCH
  | MTR_RD
  | MTR_LIVE
  | CHG_CMD
  | CHG_STAT
  | CHG_SEQ
  | CHG_UID
  | CHG_DIGEST
  | CHG_KEYSTAGE
  | CHG_FP
  | HOSTIF_CTL
  | HOSTIF_PORT
  | HOSTIF_WIN
  | HOSTIF_WINSZ
  | HOSTIF_CAUSE
  | HOSTIF_CVEC
  | HOSTIF_CNT
  | HOSTIF_RWIN
  | HOSTIF_RWINSZ
  | HOSTIF_HIQ_BASE
  | HOSTIF_HIQ_CTL
  | HOSTIF_HIQ_DB
  | HOSTIF_HIQ_STAT
  | HOSTIF_HOQ_BASE
  | HOSTIF_HOQ_SRC
  | HOSTIF_HOQ_DB
  | HOSTIF_HOQ_MOD
  | HOSTIF_HOQ_STAT
  | BOOT_STAT
  | BOOT_VER
  | BOOT_CMD
  | BOOT_CAUSE
  | BOOT_PROFSEL
  | BOOT_FWCTL
  | PWR_CTL
  | PWR_STICKY
  | PWR_STAT
  | PWR_ENERGY
  | PWR_TRIPLOG
  | PWR_CNT_DROPOUT
  | THM_SENSOR
  | HUB_HARD_STAT
  | HUB_HARD_ADDR
  | RGN_CLK
  | RGN_MEMERR
  | RGN_MEMERR_ADDR
  | QP_POOL_STAT
  | QP_STICKY
  | QP_MEMERR
  | QP_MEMERR_ADDR
  | QP_QCFG
  | QP_QSTAT
  | QP_QCMD
  | QP_QCNT
  | RACK_CTL
  | RACK_STAT
  | RACK_STICKY
  | RACK_AREA
  | RACK_LANE_CFG
  | RACK_LANE_HOST
  | RACK_LANE_STAT
  | RACK_LANE_HUSE
  | RACK_CNT
  | SOLV_CFG
  | SOLV_STAT
  | SOLV_STICKY
  | SOLV_CMD
  | SOLV_RTAB
  | SOLV_STAGE
  | SOLV_TICKET
  | SOLV_CNT
  | INT_RGN_FQ
  | INT_RGN_ARB
  | CLU_CLK
  | CLU_SEQ_CTL
  | CLU_SEQ_STAT
  | CLU_SEQ_CMD
  | CLU_SEQ_STICKY
  | CLU_SEQ_POS
  | CLU_SEQ_GRP
  | CLU_SEQ_SCHED
  | CLU_SEQ_CNT
  | CLU_SEQ_RTN
  | PRS_CFG
  | PRS_STAT
  | PRS_STICKY
  | PRS_ENTRY
  | PRS_ENTRY_CNT
  | PRS_CNT
  | MXE_CTL
  | MXE_STAT
  | MXE_HEALTH
  | MXE_TFLAG
  | MXE_STICKY
  | MXE_CKSEED
  | MXE_CKPAT
  | MXE_CKLOG
  | MXE_CNT_TILE
  | MXE_CNT_SOLV
  | MXE_CNT_PREEMPT
  | MXE_CNT_CHK
  | MXE_CNT_UNTESTED
  | MXE_INJ
  | VEC_CTL
  | VEC_STAT
  | VEC_STICKY
  | VEC_FLAG
  | VEC_FPOS_NF
  | VEC_FPOS_OVF
  | VEC_FPOS_EMPTY
  | VEC_CNT_CHAIN
  | VEC_CNT_ELEM
  | VEC_CNT_CENSUS
  | VEC_CNT_CDROP
  | UNIT_MEMERR
  | UNIT_MEMERR_ADDR
  | CHG_BUF
  | BOOT_FWBUF
  | MSIX_ADDR
  | MSIX_DATA
  | MSIX_PBA
  deriving DecidableEq, Repr

/-- Where a register lies: window, offset of index 0 from the window's base, distance between indices, number of
indices, instance kind, width in bits. -/
structure RegInfo where
  win : Win
  base : Nat
  stride : Nat
  count : Nat
  kind : IKind
  width : Nat
  deriving DecidableEq, Repr

/-- One field: bits, access type, LK, DA, reset value, and whether its level is E (R15–R21). -/
structure FieldInfo where
  hi : Nat
  lo : Nat
  acc : Acc
  lk : Bool
  da : Bool
  reset : Nat
  expert : Bool
  deriving DecidableEq, Repr

/-- A field named by its register and bits. -/
structure Fld where
  reg : Reg
  hi : Nat
  lo : Nat
  deriving DecidableEq, Repr

/-- The placement of every register (R650–R653). -/
def Reg.info : Reg → RegInfo
  | .HUB_ID => ⟨.hub, 0x0, 0x0, 1, .M, 32⟩
  | .HUB_PSEL => ⟨.hub, 0x4, 0x0, 1, .W, 32⟩
  | .HUB_STEP => ⟨.hub, 0x20, 0x0, 1, .P, 64⟩
  | .HUB_SEED => ⟨.hub, 0x28, 0x0, 1, .P, 64⟩
  | .HUB_SRT_IDX => ⟨.hub, 0x30, 0x0, 1, .P, 64⟩
  | .HUB_SRT_STEP => ⟨.hub, 0x38, 0x0, 1, .P, 64⟩
  | .HUB_SRT_OUT => ⟨.hub, 0x40, 0x0, 1, .P, 32⟩
  | .HUB_SCHED => ⟨.hub, 0x48, 0x0, 1, .P, 64⟩
  | .HUB_GATE_LIM => ⟨.hub, 0x50, 0x0, 1, .P, 64⟩
  | .HUB_GATE_CTL => ⟨.hub, 0x58, 0x0, 1, .P, 32⟩
  | .HUB_GATE_STAT => ⟨.hub, 0x60, 0x0, 1, .P, 64⟩
  | .HUB_GATE_NORM => ⟨.hub, 0x68, 0x0, 1, .P, 64⟩
  | .HUB_CNT_SKIP => ⟨.hub, 0x70, 0x0, 1, .P, 64⟩
  | .HUB_CNT_SUPPR => ⟨.hub, 0x78, 0x0, 1, .P, 64⟩
  | .HUB_CNT_CLIP => ⟨.hub, 0x80, 0x0, 1, .P, 64⟩
  | .HUB_NT_ERR => ⟨.hub, 0x100, 0x10, 8, .Mp, 64⟩
  | .HUB_NT_ERR_ADDR => ⟨.hub, 0x108, 0x10, 8, .Mp, 64⟩
  | .CEL_ERR => ⟨.hub, 0x200, 0x10, 24, .Mp, 64⟩
  | .CEL_ERR_ADDR => ⟨.hub, 0x208, 0x10, 24, .Mp, 64⟩
  | .CSK_STAT => ⟨.hub, 0x400, 0x20, 8, .Mp, 64⟩
  | .CSK_CNT_ELEM => ⟨.hub, 0x408, 0x20, 8, .Mp, 64⟩
  | .CEL_UPD_CTL => ⟨.hub, 0x500, 0x0, 1, .P, 32⟩
  | .CEL_UPD_STAT => ⟨.hub, 0x504, 0x0, 1, .P, 32⟩
  | .CEL_UPD_STICKY => ⟨.hub, 0x508, 0x0, 1, .P, 32⟩
  | .CEL_UPD_CMD => ⟨.hub, 0x50C, 0x0, 1, .P, 32⟩
  | .CEL_JRNL => ⟨.hub, 0x510, 0x0, 1, .P, 64⟩
  | .CEL_AUD_LOG => ⟨.hub, 0x518, 0x0, 1, .P, 64⟩
  | .CEL_CNT_ROWS => ⟨.hub, 0x520, 0x0, 1, .P, 64⟩
  | .CEL_CNT_MISMATCH => ⟨.hub, 0x528, 0x0, 1, .P, 64⟩
  | .CEL_CNT_REPLAY => ⟨.hub, 0x530, 0x0, 1, .P, 64⟩
  | .CEL_CNT_FALLBACK => ⟨.hub, 0x538, 0x0, 1, .P, 64⟩
  | .PART_NTX => ⟨.hub, 0x20000, 0x8, 128, .P, 64⟩
  | .PART_CLX => ⟨.hub, 0x20400, 0x8, 64, .P, 64⟩
  | .PART_TBL => ⟨.hub, 0x20800, 0x0, 1, .P, 64⟩
  | .PART_CTL => ⟨.hub, 0x20808, 0x0, 1, .P, 32⟩
  | .PART_STAT => ⟨.hub, 0x2080C, 0x0, 1, .P, 32⟩
  | .PART_QEND => ⟨.hub, 0x20810, 0x0, 1, .P, 64⟩
  | .PART_QCFG => ⟨.hub, 0x20818, 0x0, 1, .P, 32⟩
  | .PART_VIOL => ⟨.hub, 0x20820, 0x0, 1, .P, 64⟩
  | .PART_RESUME => ⟨.hub, 0x20828, 0x0, 1, .P, 64⟩
  | .PART_CNT_XPART => ⟨.hub, 0x20830, 0x0, 1, .P, 64⟩
  | .PART_CGRANT => ⟨.hub, 0x20900, 0x8, 64, .P, 64⟩
  | .PART_OWN => ⟨.hub, 0x20C00, 0x4, 16, .Mp, 32⟩
  | .FAB_CTL => ⟨.hub, 0x40000, 0x0, 1, .Mp, 32⟩
  | .FAB_STICKY => ⟨.hub, 0x40004, 0x0, 1, .Mp, 32⟩
  | .FAB_ID => ⟨.hub, 0x40008, 0x0, 1, .Mp, 32⟩
  | .FAB_TOPO => ⟨.hub, 0x40010, 0x0, 1, .Mp, 32⟩
  | .FAB_LINK_CFG => ⟨.hub, 0x40100, 0x20, 6, .Mp, 32⟩
  | .FAB_LINK_STAT => ⟨.hub, 0x40108, 0x20, 6, .Mp, 64⟩
  | .FAB_LINK_FEC => ⟨.hub, 0x40110, 0x20, 6, .Mp, 64⟩
  | .FAB_LINK_RETRY => ⟨.hub, 0x40118, 0x20, 6, .Mp, 64⟩
  | .FAB_TIME_CTL => ⟨.hub, 0x40200, 0x0, 1, .Mp, 32⟩
  | .FAB_TIME_NOW => ⟨.hub, 0x40208, 0x0, 1, .Mp, 64⟩
  | .FAB_TIME_STAT => ⟨.hub, 0x40210, 0x0, 1, .Mp, 64⟩
  | .FAB_CNT => ⟨.hub, 0x40300, 0x8, 6, .Mp, 64⟩
  | .FAB_JOB => ⟨.hub, 0x41000, 0x0, 1, .P, 64⟩
  | .FAB_PERM => ⟨.hub, 0x41400, 0x8, 128, .P, 64⟩
  | .FAB_RT => ⟨.hub, 0x42000, 0x4, 2048, .Mp, 32⟩
  | .CAR_CTL => ⟨.hub, 0x50000, 0x0, 1, .P, 32⟩
  | .CAR_CFG => ⟨.hub, 0x50004, 0x0, 1, .P, 32⟩
  | .CAR_SEGS => ⟨.hub, 0x50008, 0x0, 1, .P, 32⟩
  | .CAR_STAT => ⟨.hub, 0x5000C, 0x0, 1, .P, 32⟩
  | .CAR_STICKY => ⟨.hub, 0x50010, 0x0, 1, .P, 32⟩
  | .CAR_MAPLOAD => ⟨.hub, 0x50018, 0x0, 1, .P, 64⟩
  | .CAR_MAPADDR => ⟨.hub, 0x50020, 0x0, 1, .P, 64⟩
  | .CAR_MAPSLOT => ⟨.hub, 0x50040, 0x8, 16, .P, 64⟩
  | .CAR_CNT => ⟨.hub, 0x50100, 0x8, 5, .P, 64⟩
  | .TST_LOG => ⟨.hub, 0x51000, 0x0, 1, .P, 64⟩
  | .TST_CNT_CHECK => ⟨.hub, 0x51008, 0x0, 1, .P, 64⟩
  | .TST_CNT_FAIL => ⟨.hub, 0x51010, 0x0, 1, .P, 64⟩
  | .SEAL_CFG => ⟨.hub, 0x60000, 0x0, 1, .P, 64⟩
  | .SEAL_STAT => ⟨.hub, 0x60008, 0x0, 1, .P, 64⟩
  | .SEAL_LOG => ⟨.hub, 0x60010, 0x0, 1, .P, 64⟩
  | .SEAL_CAUSE => ⟨.hub, 0x60018, 0x0, 1, .P, 32⟩
  | .SEAL_CMD => ⟨.hub, 0x60020, 0x0, 1, .P, 64⟩
  | .SEAL_LOADIDX => ⟨.hub, 0x60028, 0x0, 1, .P, 64⟩
  | .SEAL_CNT => ⟨.hub, 0x60040, 0x8, 5, .P, 64⟩
  | .SEAL_LIVE => ⟨.hub, 0x60400, 0x8, 128, .P, 64⟩
  | .INT_CTL => ⟨.hub, 0x61000, 0x0, 1, .P, 32⟩
  | .INT_STAT => ⟨.hub, 0x61004, 0x0, 1, .P, 32⟩
  | .INT_RCV => ⟨.hub, 0x61008, 0x0, 1, .P, 32⟩
  | .INT_FLOG => ⟨.hub, 0x61010, 0x0, 1, .Mp, 64⟩
  | .INT_CNT => ⟨.hub, 0x61040, 0x8, 6, .Mp, 64⟩
  | .MTR_SNAP => ⟨.hub, 0x70000, 0x0, 1, .P, 32⟩
  | .MTR_STAT => ⟨.hub, 0x70008, 0x0, 1, .P, 64⟩
  | .MTR_EPOCH => ⟨.hub, 0x70010, 0x0, 1, .P, 64⟩
  | .MTR_RD => ⟨.hub, 0x70100, 0x8, 32, .P, 64⟩
  | .MTR_LIVE => ⟨.hub, 0x70400, 0x8, 24, .P, 64⟩
  | .CHG_CMD => ⟨.hub, 0x78000, 0x0, 1, .Mp, 32⟩
  | .CHG_STAT => ⟨.hub, 0x78004, 0x0, 1, .Mp, 32⟩
  | .CHG_SEQ => ⟨.hub, 0x78008, 0x0, 1, .Mp, 64⟩
  | .CHG_UID => ⟨.hub, 0x78010, 0x0, 1, .Mp, 64⟩
  | .CHG_DIGEST => ⟨.hub, 0x78020, 0x8, 4, .Mp, 64⟩
  | .CHG_KEYSTAGE => ⟨.hub, 0x78040, 0x8, 4, .Mp, 64⟩
  | .CHG_FP => ⟨.hub, 0x78060, 0x8, 2, .Mp, 64⟩
  | .HOSTIF_CTL => ⟨.hub, 0x90000, 0x0, 1, .F, 32⟩
  | .HOSTIF_PORT => ⟨.hub, 0x90004, 0x0, 1, .Mp, 32⟩
  | .HOSTIF_WIN => ⟨.hub, 0x90008, 0x0, 1, .F, 64⟩
  | .HOSTIF_WINSZ => ⟨.hub, 0x90010, 0x0, 1, .F, 64⟩
  | .HOSTIF_CAUSE => ⟨.hub, 0x90018, 0x0, 1, .F, 32⟩
  | .HOSTIF_CVEC => ⟨.hub, 0x9001C, 0x0, 1, .F, 32⟩
  | .HOSTIF_CNT => ⟨.hub, 0x90040, 0x8, 4, .F, 64⟩
  | .HOSTIF_RWIN => ⟨.hub, 0x90100, 0x10, 16, .Mp, 64⟩
  | .HOSTIF_RWINSZ => ⟨.hub, 0x90108, 0x10, 16, .Mp, 64⟩
  | .HOSTIF_HIQ_BASE => ⟨.hub, 0x91000, 0x20, 32, .F, 64⟩
  | .HOSTIF_HIQ_CTL => ⟨.hub, 0x91008, 0x20, 32, .F, 32⟩
  | .HOSTIF_HIQ_DB => ⟨.hub, 0x9100C, 0x20, 32, .F, 32⟩
  | .HOSTIF_HIQ_STAT => ⟨.hub, 0x91010, 0x20, 32, .F, 32⟩
  | .HOSTIF_HOQ_BASE => ⟨.hub, 0x92000, 0x20, 32, .F, 64⟩
  | .HOSTIF_HOQ_SRC => ⟨.hub, 0x92008, 0x20, 32, .F, 32⟩
  | .HOSTIF_HOQ_DB => ⟨.hub, 0x9200C, 0x20, 32, .F, 32⟩
  | .HOSTIF_HOQ_MOD => ⟨.hub, 0x92010, 0x20, 32, .F, 32⟩
  | .HOSTIF_HOQ_STAT => ⟨.hub, 0x92014, 0x20, 32, .F, 32⟩
  | .BOOT_STAT => ⟨.hub, 0xA0000, 0x0, 1, .M, 64⟩
  | .BOOT_VER => ⟨.hub, 0xA0008, 0x0, 1, .M, 64⟩
  | .BOOT_CMD => ⟨.hub, 0xA0010, 0x0, 1, .Mp, 32⟩
  | .BOOT_CAUSE => ⟨.hub, 0xA0014, 0x0, 1, .M, 32⟩
  | .BOOT_PROFSEL => ⟨.hub, 0xA0018, 0x0, 1, .P, 32⟩
  | .BOOT_FWCTL => ⟨.hub, 0xA0020, 0x0, 1, .Mp, 64⟩
  | .PWR_CTL => ⟨.hub, 0xB0000, 0x0, 1, .Mp, 32⟩
  | .PWR_STICKY => ⟨.hub, 0xB0004, 0x0, 1, .Mp, 32⟩
  | .PWR_STAT => ⟨.hub, 0xB0008, 0x0, 1, .Mp, 64⟩
  | .PWR_ENERGY => ⟨.hub, 0xB0010, 0x0, 1, .Mp, 64⟩
  | .PWR_TRIPLOG => ⟨.hub, 0xB0018, 0x0, 1, .Mp, 64⟩
  | .PWR_CNT_DROPOUT => ⟨.hub, 0xB0020, 0x0, 1, .Mp, 64⟩
  | .THM_SENSOR => ⟨.hub, 0xB0100, 0x4, 24, .Mp, 32⟩
  | .HUB_HARD_STAT => ⟨.hub, 0xB0200, 0x0, 1, .Mp, 64⟩
  | .HUB_HARD_ADDR => ⟨.hub, 0xB0208, 0x0, 1, .Mp, 64⟩
  | .RGN_CLK => ⟨.region, 0x10, 0x0, 1, .R, 32⟩
  | .RGN_MEMERR => ⟨.region, 0x100, 0x0, 1, .R, 64⟩
  | .RGN_MEMERR_ADDR => ⟨.region, 0x108, 0x0, 1, .R, 64⟩
  | .QP_POOL_STAT => ⟨.region, 0x10000, 0x0, 1, .R, 64⟩
  | .QP_STICKY => ⟨.region, 0x10008, 0x0, 1, .R, 32⟩
  | .QP_MEMERR => ⟨.region, 0x10010, 0x0, 1, .R, 64⟩
  | .QP_MEMERR_ADDR => ⟨.region, 0x10018, 0x0, 1, .R, 64⟩
  | .QP_QCFG => ⟨.region, 0x18000, 0x20, 1024, .R, 64⟩
  | .QP_QSTAT => ⟨.region, 0x18008, 0x20, 1024, .R, 64⟩
  | .QP_QCMD => ⟨.region, 0x18010, 0x20, 1024, .R, 32⟩
  | .QP_QCNT => ⟨.region, 0x18018, 0x20, 1024, .R, 64⟩
  | .RACK_CTL => ⟨.region, 0x20000, 0x0, 1, .R, 32⟩
  | .RACK_STAT => ⟨.region, 0x20004, 0x0, 1, .R, 32⟩
  | .RACK_STICKY => ⟨.region, 0x20008, 0x0, 1, .R, 32⟩
  | .RACK_AREA => ⟨.region, 0x20010, 0x0, 1, .R, 64⟩
  | .RACK_LANE_CFG => ⟨.region, 0x20040, 0x20, 8, .R, 64⟩
  | .RACK_LANE_HOST => ⟨.region, 0x20048, 0x20, 8, .R, 64⟩
  | .RACK_LANE_STAT => ⟨.region, 0x20050, 0x20, 8, .R, 64⟩
  | .RACK_LANE_HUSE => ⟨.region, 0x20058, 0x20, 8, .R, 64⟩
  | .RACK_CNT => ⟨.region, 0x20200, 0x8, 4, .R, 64⟩
  | .SOLV_CFG => ⟨.region, 0x30000, 0x0, 1, .R, 32⟩
  | .SOLV_STAT => ⟨.region, 0x30004, 0x0, 1, .R, 32⟩
  | .SOLV_STICKY => ⟨.region, 0x30008, 0x0, 1, .R, 32⟩
  | .SOLV_CMD => ⟨.region, 0x3000C, 0x0, 1, .R, 32⟩
  | .SOLV_RTAB => ⟨.region, 0x30010, 0x0, 1, .R, 64⟩
  | .SOLV_STAGE => ⟨.region, 0x30018, 0x0, 1, .R, 32⟩
  | .SOLV_TICKET => ⟨.region, 0x3001C, 0x0, 1, .R, 32⟩
  | .SOLV_CNT => ⟨.region, 0x30040, 0x8, 7, .R, 64⟩
  | .INT_RGN_FQ => ⟨.region, 0x38000, 0x0, 1, .R, 32⟩
  | .INT_RGN_ARB => ⟨.region, 0x38008, 0x0, 1, .R, 64⟩
  | .CLU_CLK => ⟨.cluster, 0x10, 0x0, 1, .C, 32⟩
  | .CLU_SEQ_CTL => ⟨.cluster, 0x100, 0x0, 1, .C, 32⟩
  | .CLU_SEQ_STAT => ⟨.cluster, 0x104, 0x0, 1, .C, 32⟩
  | .CLU_SEQ_CMD => ⟨.cluster, 0x108, 0x0, 1, .C, 32⟩
  | .CLU_SEQ_STICKY => ⟨.cluster, 0x10C, 0x0, 1, .C, 32⟩
  | .CLU_SEQ_POS => ⟨.cluster, 0x110, 0x0, 1, .C, 64⟩
  | .CLU_SEQ_GRP => ⟨.cluster, 0x118, 0x0, 1, .C, 64⟩
  | .CLU_SEQ_SCHED => ⟨.cluster, 0x120, 0x4, 8, .C, 32⟩
  | .CLU_SEQ_CNT => ⟨.cluster, 0x140, 0x0, 1, .C, 64⟩
  | .CLU_SEQ_RTN => ⟨.cluster, 0x200, 0x8, 64, .C, 64⟩
  | .PRS_CFG => ⟨.cluster, 0x400, 0x0, 1, .C, 32⟩
  | .PRS_STAT => ⟨.cluster, 0x404, 0x0, 1, .C, 32⟩
  | .PRS_STICKY => ⟨.cluster, 0x408, 0x0, 1, .C, 32⟩
  | .PRS_ENTRY => ⟨.cluster, 0x440, 0x10, 8, .C, 64⟩
  | .PRS_ENTRY_CNT => ⟨.cluster, 0x448, 0x10, 8, .C, 64⟩
  | .PRS_CNT => ⟨.cluster, 0x4C0, 0x8, 5, .C, 64⟩
  | .MXE_CTL => ⟨.unit, 0x0, 0x0, 1, .U, 32⟩
  | .MXE_STAT => ⟨.unit, 0x4, 0x0, 1, .U, 32⟩
  | .MXE_HEALTH => ⟨.unit, 0x8, 0x0, 1, .U, 32⟩
  | .MXE_TFLAG => ⟨.unit, 0x10, 0x0, 1, .U, 64⟩
  | .MXE_STICKY => ⟨.unit, 0x18, 0x0, 1, .U, 32⟩
  | .MXE_CKSEED => ⟨.unit, 0x20, 0x0, 1, .U, 64⟩
  | .MXE_CKPAT => ⟨.unit, 0x28, 0x0, 1, .U, 64⟩
  | .MXE_CKLOG => ⟨.unit, 0x30, 0x0, 1, .U, 64⟩
  | .MXE_CNT_TILE => ⟨.unit, 0x38, 0x0, 1, .U, 64⟩
  | .MXE_CNT_SOLV => ⟨.unit, 0x40, 0x0, 1, .U, 64⟩
  | .MXE_CNT_PREEMPT => ⟨.unit, 0x48, 0x0, 1, .U, 64⟩
  | .MXE_CNT_CHK => ⟨.unit, 0x50, 0x0, 1, .U, 64⟩
  | .MXE_CNT_UNTESTED => ⟨.unit, 0x58, 0x0, 1, .U, 64⟩
  | .MXE_INJ => ⟨.unit, 0x60, 0x0, 1, .U, 32⟩
  | .VEC_CTL => ⟨.unit, 0x100, 0x0, 1, .U, 32⟩
  | .VEC_STAT => ⟨.unit, 0x104, 0x0, 1, .U, 32⟩
  | .VEC_STICKY => ⟨.unit, 0x108, 0x0, 1, .U, 32⟩
  | .VEC_FLAG => ⟨.unit, 0x110, 0x0, 1, .U, 64⟩
  | .VEC_FPOS_NF => ⟨.unit, 0x118, 0x0, 1, .U, 64⟩
  | .VEC_FPOS_OVF => ⟨.unit, 0x120, 0x0, 1, .U, 64⟩
  | .VEC_FPOS_EMPTY => ⟨.unit, 0x128, 0x0, 1, .U, 64⟩
  | .VEC_CNT_CHAIN => ⟨.unit, 0x130, 0x0, 1, .U, 64⟩
  | .VEC_CNT_ELEM => ⟨.unit, 0x138, 0x0, 1, .U, 64⟩
  | .VEC_CNT_CENSUS => ⟨.unit, 0x140, 0x0, 1, .U, 64⟩
  | .VEC_CNT_CDROP => ⟨.unit, 0x148, 0x0, 1, .U, 64⟩
  | .UNIT_MEMERR => ⟨.unit, 0x200, 0x0, 1, .U, 64⟩
  | .UNIT_MEMERR_ADDR => ⟨.unit, 0x208, 0x0, 1, .U, 64⟩
  | .CHG_BUF => ⟨.hub, 0x79000, 0x8, 512, .Mp, 64⟩
  | .BOOT_FWBUF => ⟨.hub, 0xA1000, 0x8, 512, .Mp, 64⟩
  | .MSIX_ADDR => ⟨.hub, 0xC0000, 0x10, 64, .F, 64⟩
  | .MSIX_DATA => ⟨.hub, 0xC0008, 0x10, 64, .F, 64⟩
  | .MSIX_PBA => ⟨.hub, 0xC8000, 0x0, 1, .F, 64⟩

/-- The fields of every register, from its field table. -/
def Reg.fields : Reg → List FieldInfo
  | .HUB_ID => [⟨31, 20, .RO, false, false, 0x3A1, false⟩, ⟨19, 8, .RO, false, false, 0x512, false⟩,
      ⟨7, 4, .RO, false, false, 0xA, false⟩, ⟨3, 0, .RO, false, false, 0x2, false⟩]
  | .HUB_PSEL => [⟨3, 0, .RW, false, false, 0x0, false⟩, ⟨4, 4, .RW, false, false, 0x0, false⟩]
  | .HUB_STEP => [⟨47, 0, .RO, false, false, 0x0, false⟩, ⟨48, 48, .RO, false, false, 0x0, false⟩,
      ⟨51, 49, .RO, false, false, 0x0, false⟩, ⟨52, 52, .RO, false, false, 0x0, true⟩,
      ⟨53, 53, .RO, false, false, 0x0, true⟩, ⟨54, 54, .RO, false, false, 0x0, true⟩]
  | .HUB_SEED => [⟨63, 0, .RW, true, false, 0x0, false⟩]
  | .HUB_SRT_IDX => [⟨39, 0, .RW, false, false, 0x0, true⟩, ⟨63, 40, .RW, false, false, 0x0, true⟩]
  | .HUB_SRT_STEP => [⟨47, 0, .RW, false, false, 0x0, true⟩, ⟨55, 48, .RW, false, false, 0x0, true⟩,
      ⟨63, 63, .W1S, false, false, 0x0, true⟩]
  | .HUB_SRT_OUT => [⟨31, 0, .RO, false, false, 0x0, true⟩]
  | .HUB_SCHED => [⟨47, 0, .RO, false, false, 0x0, false⟩]
  | .HUB_GATE_LIM => [⟨31, 0, .RW, true, false, 0x7F800000, false⟩, ⟨63, 32, .RW, true, false, 0x7F800000, false⟩]
  | .HUB_GATE_CTL => [⟨0, 0, .RW, true, false, 0x1, false⟩, ⟨1, 1, .RW, false, false, 0x0, false⟩]
  | .HUB_GATE_STAT => [⟨31, 0, .RO, false, false, 0x3F800000, false⟩, ⟨32, 32, .RO, false, false, 0x0, false⟩,
      ⟨33, 33, .RO, false, false, 0x0, false⟩, ⟨34, 34, .RO, false, false, 0x0, false⟩,
      ⟨35, 35, .RO, false, false, 0x0, false⟩, ⟨36, 36, .RO, false, false, 0x0, false⟩,
      ⟨37, 37, .RO, false, false, 0x0, true⟩]
  | .HUB_GATE_NORM => [⟨63, 0, .RO, false, false, 0x0, false⟩]
  | .HUB_CNT_SKIP => [⟨63, 0, .RO, false, false, 0x0, true⟩]
  | .HUB_CNT_SUPPR => [⟨63, 0, .RO, false, false, 0x0, true⟩]
  | .HUB_CNT_CLIP => [⟨63, 0, .RO, false, false, 0x0, true⟩]
  | .HUB_NT_ERR => [⟨31, 0, .RO, false, false, 0x0, true⟩, ⟨47, 32, .RO, false, false, 0x0, false⟩,
      ⟨63, 48, .RO, false, false, 0x0, true⟩]
  | .HUB_NT_ERR_ADDR => [⟨35, 0, .RO, false, false, 0x0, true⟩, ⟨63, 63, .W1C, false, false, 0x0, true⟩]
  | .CEL_ERR => [⟨31, 0, .RO, false, false, 0x0, true⟩, ⟨47, 32, .RO, false, false, 0x0, false⟩,
      ⟨63, 48, .RO, false, false, 0x0, true⟩]
  | .CEL_ERR_ADDR => [⟨35, 0, .RO, false, false, 0x0, true⟩, ⟨63, 63, .W1C, false, false, 0x0, true⟩]
  | .CSK_STAT => [⟨5, 0, .RO, false, false, 0x0, true⟩, ⟨37, 6, .RO, false, false, 0x0, false⟩]
  | .CSK_CNT_ELEM => [⟨63, 0, .RO, false, false, 0x0, true⟩]
  | .CEL_UPD_CTL => [⟨0, 0, .RW, true, false, 0x0, false⟩, ⟨1, 1, .RW, false, false, 0x1, false⟩,
      ⟨6, 2, .RW, false, false, 0x10, true⟩]
  | .CEL_UPD_STAT => [⟨0, 0, .RO, false, false, 0x0, false⟩, ⟨1, 1, .RO, false, false, 0x0, true⟩,
      ⟨2, 2, .RO, false, false, 0x0, true⟩, ⟨15, 3, .RO, false, false, 0x0, true⟩]
  | .CEL_UPD_STICKY => [⟨0, 0, .W1C, false, false, 0x0, false⟩, ⟨1, 1, .W1C, false, false, 0x0, false⟩,
      ⟨2, 2, .W1C, false, false, 0x0, false⟩, ⟨3, 3, .W1C, false, false, 0x0, true⟩,
      ⟨4, 4, .W1C, false, false, 0x0, true⟩, ⟨5, 5, .W1C, false, false, 0x0, false⟩,
      ⟨6, 6, .W1C, false, false, 0x0, false⟩, ⟨7, 7, .W1C, false, false, 0x0, false⟩,
      ⟨8, 8, .W1C, false, false, 0x0, true⟩]
  | .CEL_UPD_CMD => [⟨0, 0, .W1S, false, false, 0x0, true⟩]
  | .CEL_JRNL => [⟨38, 12, .RW, true, false, 0x0, false⟩]
  | .CEL_AUD_LOG => [⟨23, 0, .RO, false, false, 0x0, true⟩, ⟨63, 24, .RO, false, false, 0x0, true⟩]
  | .CEL_CNT_ROWS => [⟨63, 0, .RO, false, false, 0x0, true⟩]
  | .CEL_CNT_MISMATCH => [⟨63, 0, .RO, false, false, 0x0, true⟩]
  | .CEL_CNT_REPLAY => [⟨63, 0, .RO, false, false, 0x0, true⟩]
  | .CEL_CNT_FALLBACK => [⟨63, 0, .RO, false, false, 0x0, true⟩]
  | .PART_NTX => [⟨0, 0, .RW, false, true, 0x0, false⟩, ⟨2, 1, .RW, false, true, 0x0, false⟩,
      ⟨5, 3, .RW, false, true, 0x0, false⟩, ⟨11, 6, .RW, false, true, 0x0, false⟩,
      ⟨24, 16, .RW, false, true, 0x0, false⟩]
  | .PART_CLX => [⟨0, 0, .RW, false, true, 0x0, false⟩, ⟨6, 1, .RW, false, true, 0x0, false⟩,
      ⟨12, 7, .RW, false, true, 0x0, false⟩]
  | .PART_TBL => [⟨0, 0, .RW, false, true, 0x0, false⟩, ⟨16, 1, .RW, false, true, 0x0, false⟩,
      ⟨23, 17, .RW, false, true, 0x0, false⟩]
  | .PART_CTL => [⟨0, 0, .W1S, false, false, 0x0, false⟩, ⟨1, 1, .W1S, false, false, 0x0, false⟩,
      ⟨2, 2, .W1S, false, false, 0x0, false⟩]
  | .PART_STAT => [⟨2, 0, .RO, false, false, 0x0, false⟩, ⟨3, 3, .RO, false, false, 0x0, false⟩,
      ⟨4, 4, .W1C, false, false, 0x0, false⟩, ⟨5, 5, .W1C, false, false, 0x0, true⟩,
      ⟨6, 6, .W1C, false, false, 0x0, false⟩, ⟨7, 7, .W1C, false, false, 0x0, false⟩,
      ⟨10, 8, .RO, false, false, 0x0, true⟩]
  | .PART_QEND => [⟨63, 0, .RW, false, false, 0x0, false⟩]
  | .PART_QCFG => [⟨15, 0, .RW, false, false, 0x1388, false⟩, ⟨23, 16, .RW, false, false, 0x19, true⟩]
  | .PART_VIOL => [⟨25, 0, .RO, false, false, 0x0, true⟩, ⟨49, 26, .RO, false, false, 0x0, true⟩,
      ⟨51, 50, .RO, false, false, 0x0, true⟩]
  | .PART_RESUME => [⟨3, 0, .RO, false, false, 0x0, true⟩, ⟨19, 4, .RO, false, false, 0x0, true⟩,
      ⟨20, 20, .RO, false, false, 0x0, true⟩]
  | .PART_CNT_XPART => [⟨63, 0, .RO, false, false, 0x0, true⟩]
  | .PART_CGRANT => [⟨23, 0, .RW, true, false, 0x0, true⟩, ⟨24, 24, .RW, true, false, 0x0, true⟩]
  | .PART_OWN => [⟨3, 0, .RO, false, false, 0x0, true⟩, ⟨4, 4, .RO, false, false, 0x0, false⟩]
  | .FAB_CTL => [⟨5, 0, .RW, false, false, 0x0, false⟩]
  | .FAB_STICKY => [⟨0, 0, .W1C, false, false, 0x0, false⟩, ⟨1, 1, .W1C, false, false, 0x0, false⟩,
      ⟨2, 2, .W1C, false, false, 0x0, false⟩, ⟨3, 3, .W1C, false, false, 0x0, true⟩,
      ⟨4, 4, .W1C, false, false, 0x0, false⟩, ⟨5, 5, .W1C, false, false, 0x0, true⟩,
      ⟨6, 6, .W1C, false, false, 0x0, false⟩, ⟨7, 7, .W1C, false, false, 0x0, true⟩,
      ⟨8, 8, .W1C, false, false, 0x0, true⟩, ⟨9, 9, .W1C, false, false, 0x0, false⟩,
      ⟨10, 10, .W1C, false, false, 0x0, true⟩]
  | .FAB_ID => [⟨12, 0, .RW, false, false, 0x0, false⟩, ⟨13, 13, .RW, false, false, 0x0, false⟩]
  | .FAB_TOPO => [⟨3, 0, .RW, false, false, 0xF, false⟩, ⟨7, 4, .RW, false, false, 0xF, false⟩,
      ⟨12, 8, .RW, false, false, 0x1F, false⟩, ⟨15, 13, .RW, false, false, 0x7, false⟩,
      ⟨16, 16, .W1S, false, false, 0x0, true⟩]
  | .FAB_LINK_CFG => [⟨3, 0, .RW, false, false, 0xF, true⟩, ⟨5, 4, .RW, false, false, 0x1, false⟩,
      ⟨15, 8, .RW, false, false, 0x0, true⟩, ⟨16, 16, .RW, false, false, 0x1, true⟩]
  | .FAB_LINK_STAT => [⟨3, 0, .RO, false, false, 0x0, false⟩, ⟨7, 4, .RO, false, false, 0x0, false⟩,
      ⟨10, 8, .RO, false, false, 0x0, false⟩, ⟨11, 11, .RO, false, false, 0x0, true⟩,
      ⟨24, 12, .RO, false, false, 0x0, false⟩, ⟨27, 25, .RO, false, false, 0x0, true⟩,
      ⟨47, 32, .RO, false, false, 0x0, true⟩]
  | .FAB_LINK_FEC => [⟨31, 0, .RO, false, false, 0x0, true⟩, ⟨63, 32, .RO, false, false, 0x0, false⟩]
  | .FAB_LINK_RETRY => [⟨31, 0, .RO, false, false, 0x0, true⟩, ⟨63, 32, .RO, false, false, 0x0, true⟩]
  | .FAB_TIME_CTL => [⟨12, 0, .RW, false, false, 0x0, false⟩, ⟨13, 13, .RW, false, false, 0x0, false⟩,
      ⟨31, 16, .RW, false, false, 0x7D, true⟩]
  | .FAB_TIME_NOW => [⟨63, 0, .RW, false, false, 0x0, false⟩]
  | .FAB_TIME_STAT => [⟨31, 0, .RO, false, false, 0x0, true⟩, ⟨34, 32, .RO, false, false, 0x7, false⟩,
      ⟨35, 35, .RO, false, false, 0x0, true⟩, ⟨36, 36, .RO, false, false, 0x0, false⟩,
      ⟨37, 37, .RO, false, false, 0x0, true⟩]
  | .FAB_CNT => [⟨63, 0, .RO, false, false, 0x0, true⟩]
  | .FAB_JOB => [⟨15, 0, .RW, false, true, 0x0, false⟩, ⟨31, 16, .RO, false, false, 0x0, false⟩,
      ⟨47, 32, .RO, false, false, 0x0, false⟩, ⟨51, 48, .RW, true, false, 0x0, true⟩,
      ⟨61, 52, .RW, true, false, 0x0, true⟩, ⟨62, 62, .RW, true, false, 0x0, true⟩]
  | .FAB_PERM => [⟨63, 0, .RW, false, true, 0x0, false⟩]
  | .FAB_RT => [⟨2, 0, .RW, false, false, 0x7, true⟩, ⟨10, 8, .RW, false, false, 0x7, true⟩,
      ⟨18, 16, .RW, false, false, 0x7, true⟩, ⟨26, 24, .RW, false, false, 0x7, true⟩]
  | .CAR_CTL => [⟨0, 0, .RW, true, false, 0x0, false⟩, ⟨1, 1, .RW, false, false, 0x0, true⟩,
      ⟨7, 4, .RW, true, false, 0x0, false⟩, ⟨31, 16, .RW, true, false, 0x0, false⟩]
  | .CAR_CFG => [⟨9, 0, .RW, true, false, 0x64, false⟩, ⟨24, 16, .RW, true, false, 0x10, true⟩,
      ⟨28, 25, .RW, true, false, 0x8, true⟩]
  | .CAR_SEGS => [⟨11, 0, .RW, true, false, 0x80, false⟩]
  | .CAR_STAT => [⟨0, 0, .RO, false, false, 0x0, false⟩, ⟨6, 1, .RO, false, false, 0x0, true⟩,
      ⟨18, 7, .RO, false, false, 0x0, true⟩, ⟨22, 19, .RO, false, false, 0x0, false⟩]
  | .CAR_STICKY => [⟨0, 0, .W1C, false, false, 0x0, false⟩, ⟨1, 1, .W1C, false, false, 0x0, false⟩,
      ⟨2, 2, .W1C, false, false, 0x0, false⟩, ⟨3, 3, .W1C, false, false, 0x0, true⟩,
      ⟨4, 4, .W1C, false, false, 0x0, false⟩, ⟨5, 5, .W1C, false, false, 0x0, true⟩,
      ⟨6, 6, .W1C, false, false, 0x0, true⟩, ⟨7, 7, .W1C, false, false, 0x0, true⟩,
      ⟨8, 8, .W1C, false, false, 0x0, false⟩, ⟨9, 9, .W1C, false, false, 0x0, true⟩]
  | .CAR_MAPLOAD => [⟨3, 0, .RW, false, false, 0x0, false⟩, ⟨4, 4, .RW, false, false, 0x0, false⟩,
      ⟨5, 5, .W1S, false, false, 0x0, false⟩, ⟨11, 8, .RO, false, false, 0x0, false⟩,
      ⟨39, 16, .RO, false, false, 0x0, true⟩, ⟨63, 40, .RO, false, false, 0x0, true⟩]
  | .CAR_MAPADDR => [⟨38, 12, .RW, false, false, 0x0, false⟩]
  | .CAR_MAPSLOT => [⟨0, 0, .RO, false, false, 0x0, false⟩, ⟨38, 12, .RO, false, false, 0x0, true⟩]
  | .CAR_CNT => [⟨63, 0, .RO, false, false, 0x0, true⟩]
  | .TST_LOG => [⟨15, 0, .RO, false, false, 0x0, true⟩, ⟨28, 16, .RO, false, false, 0x0, true⟩,
      ⟨29, 29, .RO, false, false, 0x0, true⟩, ⟨31, 30, .RO, false, false, 0x0, false⟩,
      ⟨63, 32, .RO, false, false, 0x0, true⟩]
  | .TST_CNT_CHECK => [⟨63, 0, .RO, false, false, 0x0, true⟩]
  | .TST_CNT_FAIL => [⟨63, 0, .RO, false, false, 0x0, true⟩]
  | .SEAL_CFG => [⟨15, 0, .RW, true, false, 0x64, false⟩, ⟨31, 16, .RW, true, false, 0xC8, false⟩,
      ⟨47, 32, .RW, true, false, 0xA, true⟩, ⟨63, 48, .RW, true, false, 0x3E8, true⟩]
  | .SEAL_STAT => [⟨12, 0, .RO, false, false, 0x0, false⟩, ⟨13, 13, .RO, false, false, 0x0, false⟩,
      ⟨14, 14, .RO, false, false, 0x0, false⟩, ⟨15, 15, .RO, false, false, 0x0, false⟩,
      ⟨16, 16, .RO, false, false, 0x0, true⟩, ⟨17, 17, .RO, false, false, 0x0, true⟩,
      ⟨25, 18, .RO, false, false, 0x0, true⟩, ⟨39, 26, .RO, false, false, 0x0, true⟩,
      ⟨52, 40, .RO, false, false, 0x0, true⟩]
  | .SEAL_LOG => [⟨47, 0, .RO, false, false, 0x0, false⟩, ⟨50, 48, .RO, false, false, 0x0, false⟩,
      ⟨51, 51, .RO, false, false, 0x0, true⟩, ⟨59, 52, .RO, false, false, 0x0, true⟩]
  | .SEAL_CAUSE => [⟨2, 0, .RO, false, false, 0x0, false⟩, ⟨15, 3, .RO, false, false, 0x0, true⟩]
  | .SEAL_CMD => [⟨47, 0, .RW, true, false, 0x0, true⟩, ⟨48, 48, .W1S, true, false, 0x0, true⟩,
      ⟨49, 49, .W1S, true, false, 0x0, true⟩, ⟨50, 50, .W1S, true, false, 0x0, true⟩,
      ⟨51, 51, .W1S, true, false, 0x0, true⟩]
  | .SEAL_LOADIDX => [⟨47, 0, .RW, true, false, 0x0, true⟩]
  | .SEAL_CNT => [⟨63, 0, .RO, false, false, 0x0, true⟩]
  | .SEAL_LIVE => [⟨63, 0, .RW, true, false, 0xFFFFFFFFFFFFFFFF, true⟩]
  | .INT_CTL => [⟨0, 0, .RW, true, false, 0x0, false⟩, ⟨4, 1, .RW, true, false, 0x0, false⟩,
      ⟨14, 5, .RW, true, false, 0x0, false⟩]
  | .INT_STAT => [⟨0, 0, .W1C, false, false, 0x0, false⟩, ⟨1, 1, .W1C, false, false, 0x0, false⟩,
      ⟨2, 2, .W1C, false, false, 0x0, false⟩, ⟨3, 3, .W1C, false, false, 0x0, false⟩,
      ⟨4, 4, .W1C, false, false, 0x0, false⟩, ⟨5, 5, .RO, false, false, 0x0, true⟩,
      ⟨6, 6, .W1C, false, false, 0x0, true⟩]
  | .INT_RCV => [⟨15, 0, .RW, true, false, 0x0, true⟩, ⟨16, 16, .W1S, true, false, 0x0, true⟩,
      ⟨17, 17, .W1S, true, false, 0x0, true⟩, ⟨18, 18, .RW, true, false, 0x0, true⟩]
  | .INT_FLOG => [⟨11, 0, .RO, false, false, 0x0, true⟩, ⟨12, 12, .W1C, false, false, 0x0, true⟩]
  | .INT_CNT => [⟨63, 0, .RO, false, false, 0x0, true⟩]
  | .MTR_SNAP => [⟨0, 0, .W1S, false, false, 0x0, false⟩, ⟨1, 1, .W1S, false, false, 0x0, true⟩]
  | .MTR_STAT => [⟨47, 0, .RO, false, false, 0x1, false⟩, ⟨48, 48, .RO, false, false, 0x0, false⟩,
      ⟨49, 49, .RO, false, false, 0x0, true⟩]
  | .MTR_EPOCH => [⟨31, 0, .RO, false, false, 0x0, false⟩, ⟨63, 32, .RO, false, false, 0x0, false⟩]
  | .MTR_RD => [⟨63, 0, .RO, false, false, 0x0, false⟩]
  | .MTR_LIVE => [⟨63, 0, .RO, false, false, 0x0, true⟩]
  | .CHG_CMD => [⟨0, 0, .W1S, false, false, 0x0, false⟩, ⟨1, 1, .W1S, false, false, 0x0, false⟩,
      ⟨2, 2, .W1S, false, false, 0x0, false⟩, ⟨3, 3, .W1S, false, false, 0x0, false⟩,
      ⟨4, 4, .RW, false, false, 0x0, false⟩]
  | .CHG_STAT => [⟨2, 0, .RO, false, false, 0x0, false⟩, ⟨6, 3, .RO, false, false, 0x0, false⟩,
      ⟨7, 7, .RO, false, false, 0x0, true⟩]
  | .CHG_SEQ => [⟨63, 0, .RO, false, false, 0x0, false⟩]
  | .CHG_UID => [⟨63, 0, .RO, false, false, 0x0, false⟩]
  | .CHG_DIGEST => [⟨63, 0, .RO, false, false, 0x0, false⟩]
  | .CHG_KEYSTAGE => [⟨63, 0, .WO, false, false, 0x0, true⟩]
  | .CHG_FP => [⟨63, 0, .RO, false, false, 0x0, false⟩]
  | .HOSTIF_CTL => [⟨0, 0, .RW, false, false, 0x0, true⟩]
  | .HOSTIF_PORT => [⟨15, 0, .RW, true, false, 0x0, false⟩]
  | .HOSTIF_WIN => [⟨0, 0, .RW, false, false, 0x0, false⟩, ⟨63, 12, .RW, false, false, 0x0, false⟩]
  | .HOSTIF_WINSZ => [⟨44, 0, .RW, false, false, 0x0, false⟩]
  | .HOSTIF_CAUSE => [⟨7, 0, .W1C, false, false, 0x0, false⟩]
  | .HOSTIF_CVEC => [⟨5, 0, .RW, false, false, 0x0, false⟩, ⟨15, 8, .RW, false, false, 0x0, false⟩]
  | .HOSTIF_CNT => [⟨63, 0, .RW, false, false, 0x0, true⟩]
  | .HOSTIF_RWIN => [⟨0, 0, .RW, false, false, 0x0, false⟩, ⟨63, 12, .RW, false, false, 0x0, false⟩]
  | .HOSTIF_RWINSZ => [⟨44, 0, .RW, false, false, 0x0, false⟩]
  | .HOSTIF_HIQ_BASE => [⟨0, 0, .RW, false, false, 0x0, false⟩, ⟨4, 1, .RW, false, false, 0x0, false⟩,
      ⟨63, 12, .RW, false, false, 0x0, false⟩]
  | .HOSTIF_HIQ_CTL => [⟨3, 0, .RW, false, false, 0x0, false⟩, ⟨13, 4, .RW, false, false, 0x0, false⟩,
      ⟨19, 14, .RW, false, false, 0x0, false⟩, ⟨20, 20, .W1S, false, false, 0x0, false⟩,
      ⟨21, 21, .W1S, false, false, 0x0, false⟩]
  | .HOSTIF_HIQ_DB => [⟨15, 0, .WO, false, false, 0x0, false⟩]
  | .HOSTIF_HIQ_STAT => [⟨15, 0, .RO, false, false, 0x0, false⟩, ⟨16, 16, .RO, false, false, 0x0, false⟩,
      ⟨20, 17, .RO, false, false, 0x0, false⟩, ⟨21, 21, .W1C, false, false, 0x0, true⟩,
      ⟨22, 22, .W1C, false, false, 0x0, true⟩]
  | .HOSTIF_HOQ_BASE => [⟨0, 0, .RW, false, false, 0x0, false⟩, ⟨4, 1, .RW, false, false, 0x0, false⟩,
      ⟨63, 12, .RW, false, false, 0x0, false⟩]
  | .HOSTIF_HOQ_SRC => [⟨3, 0, .RW, false, false, 0x0, false⟩, ⟨13, 4, .RW, false, false, 0x0, false⟩,
      ⟨19, 14, .RW, false, false, 0x0, false⟩]
  | .HOSTIF_HOQ_DB => [⟨15, 0, .WO, false, false, 0x0, false⟩]
  | .HOSTIF_HOQ_MOD => [⟨7, 0, .RW, false, false, 0x1, false⟩, ⟨23, 8, .RW, false, false, 0x0, true⟩]
  | .HOSTIF_HOQ_STAT => [⟨15, 0, .RO, false, false, 0x0, false⟩, ⟨16, 16, .RO, false, false, 0x1, true⟩,
      ⟨17, 17, .RO, false, false, 0x0, true⟩, ⟨18, 18, .W1C, false, false, 0x0, false⟩,
      ⟨19, 19, .W1C, false, false, 0x0, true⟩]
  | .BOOT_STAT => [⟨3, 0, .RO, false, false, 0x0, false⟩, ⟨4, 4, .RO, false, false, 0x0, false⟩,
      ⟨5, 5, .RO, false, false, 0x0, false⟩, ⟨6, 6, .RO, false, false, 0x0, false⟩,
      ⟨7, 7, .RO, false, false, 0x0, false⟩, ⟨8, 8, .RO, false, false, 0x0, false⟩,
      ⟨9, 9, .RO, false, false, 0x0, false⟩, ⟨10, 10, .RO, false, false, 0x1, true⟩,
      ⟨11, 11, .RO, false, false, 0x1, true⟩, ⟨12, 12, .RO, false, false, 0x0, true⟩,
      ⟨13, 13, .RO, false, false, 0x0, false⟩, ⟨19, 16, .RO, false, false, 0x0, true⟩,
      ⟨23, 20, .RO, false, false, 0x0, true⟩, ⟨27, 24, .RO, false, false, 0x0, true⟩]
  | .BOOT_VER => [⟨31, 0, .RO, false, false, 0x0, false⟩, ⟨47, 32, .RO, false, false, 0x0, false⟩,
      ⟨63, 48, .RO, false, false, 0x0, true⟩]
  | .BOOT_CMD => [⟨0, 0, .W1S, false, false, 0x0, true⟩, ⟨1, 1, .W1S, false, false, 0x0, true⟩,
      ⟨2, 2, .W1S, false, false, 0x0, false⟩, ⟨3, 3, .W1S, false, false, 0x0, false⟩,
      ⟨4, 4, .W1S, false, false, 0x0, false⟩, ⟨5, 5, .RW, false, false, 0x0, false⟩]
  | .BOOT_CAUSE => [⟨3, 0, .RO, false, false, 0x0, false⟩, ⟨4, 4, .RO, false, false, 0x0, false⟩]
  | .BOOT_PROFSEL => [⟨3, 0, .RW, true, false, 0xF, false⟩]
  | .BOOT_FWCTL => [⟨12, 0, .RW, false, false, 0x0, true⟩, ⟨13, 13, .RW, false, false, 0x0, true⟩,
      ⟨14, 14, .W1S, false, false, 0x0, true⟩, ⟨17, 15, .RO, false, false, 0x0, true⟩,
      ⟨18, 18, .RO, false, false, 0x1, true⟩]
  | .PWR_CTL => [⟨12, 0, .RW, false, false, 0xDAC, false⟩]
  | .PWR_STICKY => [⟨0, 0, .W1C, false, false, 0x0, false⟩, ⟨1, 1, .W1C, false, false, 0x0, false⟩,
      ⟨2, 2, .W1C, false, false, 0x0, true⟩, ⟨3, 3, .W1C, false, false, 0x0, true⟩,
      ⟨4, 4, .W1C, false, false, 0x0, false⟩, ⟨5, 5, .W1C, false, false, 0x0, false⟩,
      ⟨6, 6, .W1C, false, false, 0x0, false⟩]
  | .PWR_STAT => [⟨12, 0, .RO, false, false, 0x0, false⟩, ⟨18, 13, .RO, false, false, 0x28, false⟩,
      ⟨19, 19, .RO, false, false, 0x0, false⟩, ⟨20, 20, .RO, false, false, 0x0, false⟩,
      ⟨21, 21, .RO, false, false, 0x0, true⟩, ⟨22, 22, .RO, false, false, 0x0, true⟩,
      ⟨23, 23, .RO, false, false, 0x0, true⟩, ⟨47, 32, .RO, false, false, 0xFFFF, true⟩,
      ⟨55, 48, .RO, false, false, 0xFF, true⟩]
  | .PWR_ENERGY => [⟨63, 0, .RO, false, false, 0x0, false⟩]
  | .PWR_TRIPLOG => [⟨3, 0, .RO, false, false, 0x0, false⟩, ⟨4, 4, .RO, false, false, 0x0, false⟩,
      ⟨15, 8, .RO, false, false, 0x0, true⟩, ⟨31, 16, .RO, false, false, 0x0, true⟩]
  | .PWR_CNT_DROPOUT => [⟨63, 0, .RO, false, false, 0x0, true⟩]
  | .THM_SENSOR => [⟨15, 0, .RO, false, false, 0x0, false⟩, ⟨16, 16, .RO, false, false, 0x0, false⟩,
      ⟨17, 17, .RO, false, false, 0x0, false⟩, ⟨18, 18, .RO, false, false, 0x0, true⟩,
      ⟨19, 19, .RO, false, false, 0x0, true⟩]
  | .HUB_HARD_STAT => [⟨15, 0, .RO, false, false, 0x0, true⟩, ⟨31, 16, .RO, false, false, 0x0, false⟩,
      ⟨47, 32, .RO, false, false, 0x0, false⟩]
  | .HUB_HARD_ADDR => [⟨31, 0, .RO, false, false, 0x0, true⟩, ⟨35, 32, .RO, false, false, 0x0, true⟩,
      ⟨63, 63, .W1C, false, false, 0x0, true⟩]
  | .RGN_CLK => [⟨5, 0, .RW, false, false, 0xC, false⟩, ⟨13, 8, .RW, false, false, 0x28, false⟩,
      ⟨21, 16, .RO, false, false, 0xC, false⟩, ⟨29, 24, .RO, false, false, 0x28, true⟩,
      ⟨30, 30, .RW, false, false, 0x0, true⟩]
  | .RGN_MEMERR => [⟨31, 0, .RO, false, false, 0x0, true⟩, ⟨47, 32, .RO, false, false, 0x0, false⟩,
      ⟨63, 48, .RO, false, false, 0x0, true⟩]
  | .RGN_MEMERR_ADDR => [⟨35, 0, .RO, false, false, 0x0, true⟩, ⟨63, 63, .W1C, false, false, 0x0, true⟩]
  | .QP_POOL_STAT => [⟨16, 0, .RO, false, false, 0x10000, false⟩, ⟨33, 17, .RO, false, false, 0x0, true⟩,
      ⟨44, 34, .RO, false, false, 0x0, true⟩]
  | .QP_STICKY => [⟨0, 0, .W1C, false, false, 0x0, true⟩, ⟨1, 1, .W1C, false, false, 0x0, false⟩,
      ⟨2, 2, .W1C, false, false, 0x0, false⟩, ⟨3, 3, .W1C, false, false, 0x0, false⟩,
      ⟨4, 4, .W1C, false, false, 0x0, true⟩, ⟨5, 5, .W1C, false, false, 0x0, false⟩,
      ⟨6, 6, .W1C, false, false, 0x0, true⟩]
  | .QP_MEMERR => [⟨31, 0, .RO, false, false, 0x0, true⟩, ⟨47, 32, .RO, false, false, 0x0, false⟩,
      ⟨63, 48, .RO, false, false, 0x0, true⟩]
  | .QP_MEMERR_ADDR => [⟨35, 0, .RO, false, false, 0x0, true⟩, ⟨63, 63, .W1C, false, false, 0x0, true⟩]
  | .QP_QCFG => [⟨0, 0, .RW, true, false, 0x0, false⟩, ⟨3, 1, .RW, true, false, 0x0, false⟩,
      ⟨6, 4, .RW, true, false, 0x0, true⟩, ⟨24, 8, .RW, true, false, 0x40, true⟩,
      ⟨48, 32, .RW, true, false, 0x0, true⟩, ⟨63, 52, .RW, false, false, 0x0, false⟩]
  | .QP_QSTAT => [⟨19, 0, .RO, false, false, 0x0, false⟩, ⟨36, 20, .RO, false, false, 0x0, true⟩,
      ⟨41, 37, .RO, false, false, 0x0, true⟩, ⟨42, 42, .RO, false, false, 0x0, false⟩,
      ⟨43, 43, .RO, false, false, 0x0, false⟩, ⟨44, 44, .W1C, false, false, 0x0, false⟩,
      ⟨45, 45, .W1C, false, false, 0x0, true⟩, ⟨46, 46, .W1C, false, false, 0x0, true⟩,
      ⟨47, 47, .W1C, false, false, 0x0, true⟩]
  | .QP_QCMD => [⟨0, 0, .W1S, false, false, 0x0, false⟩, ⟨1, 1, .W1S, true, false, 0x0, true⟩]
  | .QP_QCNT => [⟨63, 0, .RO, false, false, 0x0, true⟩]
  | .RACK_CTL => [⟨0, 0, .RW, true, false, 0x0, false⟩, ⟨1, 1, .RW, false, false, 0x1, false⟩,
      ⟨4, 2, .RW, true, false, 0x4, true⟩]
  | .RACK_STAT => [⟨0, 0, .RO, false, false, 0x0, false⟩, ⟨8, 1, .RO, false, false, 0x0, true⟩]
  | .RACK_STICKY => [⟨0, 0, .W1C, false, false, 0x0, false⟩, ⟨1, 1, .W1C, false, false, 0x0, false⟩,
      ⟨2, 2, .W1C, false, false, 0x0, false⟩, ⟨3, 3, .W1C, false, false, 0x0, true⟩,
      ⟨4, 4, .W1C, false, false, 0x0, true⟩, ⟨5, 5, .W1C, false, false, 0x0, true⟩,
      ⟨6, 6, .W1C, false, false, 0x0, true⟩, ⟨7, 7, .W1C, false, false, 0x0, true⟩,
      ⟨8, 8, .W1C, false, false, 0x0, true⟩]
  | .RACK_AREA => [⟨12, 0, .RW, true, false, 0x0, false⟩, ⟨28, 16, .RW, true, false, 0x0, false⟩]
  | .RACK_LANE_CFG => [⟨12, 0, .RW, true, false, 0x0, false⟩, ⟨28, 16, .RW, true, false, 0x0, true⟩,
      ⟨38, 32, .RW, false, false, 0x4, false⟩, ⟨58, 39, .RW, true, false, 0x0, false⟩]
  | .RACK_LANE_HOST => [⟨56, 12, .RW, true, false, 0x0, false⟩]
  | .RACK_LANE_STAT => [⟨6, 0, .RO, false, false, 0x0, false⟩, ⟨7, 7, .RO, false, false, 0x0, true⟩,
      ⟨20, 8, .RO, false, false, 0x0, true⟩, ⟨27, 21, .RO, false, false, 0x0, true⟩,
      ⟨28, 28, .RO, false, false, 0x0, true⟩, ⟨29, 29, .RO, false, false, 0x0, true⟩,
      ⟨63, 32, .RO, false, false, 0x0, true⟩]
  | .RACK_LANE_HUSE => [⟨19, 0, .RO, false, false, 0x0, true⟩]
  | .RACK_CNT => [⟨63, 0, .RO, false, false, 0x0, true⟩]
  | .SOLV_CFG => [⟨0, 0, .RW, true, false, 0x0, false⟩, ⟨1, 1, .RW, true, false, 0x0, false⟩,
      ⟨11, 2, .RW, true, false, 0x0, false⟩, ⟨31, 16, .RW, true, false, 0x64, true⟩]
  | .SOLV_STAT => [⟨0, 0, .RO, false, false, 0x0, false⟩, ⟨3, 1, .RO, false, false, 0x0, true⟩,
      ⟨10, 4, .RO, false, false, 0x0, true⟩, ⟨17, 11, .RO, false, false, 0x0, true⟩,
      ⟨18, 18, .RO, false, false, 0x0, true⟩, ⟨19, 19, .RO, false, false, 0x0, true⟩]
  | .SOLV_STICKY => [⟨0, 0, .W1C, false, false, 0x0, false⟩, ⟨1, 1, .W1C, false, false, 0x0, false⟩,
      ⟨2, 2, .W1C, false, false, 0x0, false⟩, ⟨3, 3, .W1C, false, false, 0x0, false⟩,
      ⟨4, 4, .W1C, false, false, 0x0, true⟩, ⟨5, 5, .W1C, false, false, 0x0, true⟩,
      ⟨6, 6, .W1C, false, false, 0x0, true⟩, ⟨7, 7, .W1C, false, false, 0x0, true⟩,
      ⟨8, 8, .W1C, false, false, 0x0, true⟩, ⟨9, 9, .W1C, false, false, 0x0, true⟩]
  | .SOLV_CMD => [⟨0, 0, .W1S, false, false, 0x0, true⟩]
  | .SOLV_RTAB => [⟨38, 12, .RW, true, false, 0x0, false⟩, ⟨51, 39, .RW, true, false, 0x0, false⟩]
  | .SOLV_STAGE => [⟨12, 0, .RW, true, false, 0x0, false⟩, ⟨28, 16, .RW, true, false, 0x0, false⟩]
  | .SOLV_TICKET => [⟨11, 0, .RO, false, false, 0x0, true⟩, ⟨27, 16, .RO, false, false, 0x0, true⟩]
  | .SOLV_CNT => [⟨63, 0, .RO, false, false, 0x0, true⟩]
  | .INT_RGN_FQ => [⟨0, 0, .RW, true, false, 0x0, false⟩, ⟨10, 1, .RW, true, false, 0x0, false⟩]
  | .INT_RGN_ARB => [⟨9, 0, .RO, false, false, 0x0, true⟩, ⟨19, 10, .RO, false, false, 0x0, true⟩,
      ⟨22, 20, .RO, false, false, 0x0, false⟩, ⟨23, 23, .RO, false, false, 0x0, true⟩,
      ⟨47, 32, .RO, false, false, 0x0, true⟩]
  | .CLU_CLK => [⟨5, 0, .RW, false, false, 0xC, false⟩, ⟨13, 8, .RW, false, false, 0x28, false⟩,
      ⟨21, 16, .RO, false, false, 0xC, false⟩, ⟨29, 24, .RO, false, false, 0x28, true⟩,
      ⟨30, 30, .RW, false, false, 0x0, true⟩]
  | .CLU_SEQ_CTL => [⟨0, 0, .RW, true, false, 0x0, false⟩, ⟨10, 1, .RW, true, false, 0x0, false⟩,
      ⟨18, 11, .RW, true, false, 0xFF, true⟩]
  | .CLU_SEQ_STAT => [⟨2, 0, .RO, false, false, 0x0, false⟩, ⟨6, 3, .RO, false, false, 0x0, false⟩,
      ⟨9, 7, .RO, false, false, 0x0, false⟩, ⟨12, 10, .RO, false, false, 0x0, true⟩,
      ⟨18, 13, .RO, false, false, 0x0, true⟩]
  | .CLU_SEQ_CMD => [⟨0, 0, .W1S, false, false, 0x0, false⟩, ⟨1, 1, .W1S, false, false, 0x0, false⟩]
  | .CLU_SEQ_STICKY => [⟨0, 0, .W1C, false, false, 0x0, false⟩, ⟨1, 1, .W1C, false, false, 0x0, false⟩,
      ⟨2, 2, .W1C, false, false, 0x0, true⟩, ⟨3, 3, .W1C, false, false, 0x0, true⟩,
      ⟨4, 4, .W1C, false, false, 0x0, true⟩, ⟨5, 5, .W1C, false, false, 0x0, false⟩,
      ⟨11, 6, .W1C, false, false, 0x0, false⟩]
  | .CLU_SEQ_POS => [⟨23, 0, .RO, false, false, 0x0, true⟩, ⟨29, 24, .RO, false, false, 0x0, true⟩,
      ⟨30, 30, .RO, false, false, 0x0, true⟩, ⟨47, 32, .RO, false, false, 0x0, true⟩,
      ⟨63, 48, .RO, false, false, 0x0, false⟩]
  | .CLU_SEQ_GRP => [⟨5, 0, .RO, false, false, 0x0, true⟩, ⟨11, 6, .RO, false, false, 0x0, true⟩,
      ⟨17, 12, .RO, false, false, 0x0, true⟩, ⟨23, 18, .RO, false, false, 0x0, true⟩,
      ⟨29, 24, .RO, false, false, 0x0, true⟩, ⟨35, 30, .RO, false, false, 0x0, true⟩,
      ⟨41, 36, .RO, false, false, 0x0, true⟩, ⟨47, 42, .RO, false, false, 0x0, true⟩]
  | .CLU_SEQ_SCHED => [⟨31, 0, .RO, false, false, 0x0, true⟩]
  | .CLU_SEQ_CNT => [⟨63, 0, .RO, false, false, 0x0, true⟩]
  | .CLU_SEQ_RTN => [⟨31, 0, .RO, false, false, 0x0, true⟩, ⟨54, 32, .RO, false, false, 0x0, true⟩,
      ⟨63, 63, .RO, false, false, 0x0, false⟩]
  | .PRS_CFG => [⟨0, 0, .RW, true, false, 0x0, false⟩, ⟨7, 1, .RW, true, false, 0x8, false⟩]
  | .PRS_STAT => [⟨0, 0, .RO, false, false, 0x0, false⟩, ⟨4, 1, .RO, false, false, 0x0, true⟩,
      ⟨11, 5, .RO, false, false, 0x0, true⟩, ⟨21, 12, .RO, false, false, 0x0, true⟩]
  | .PRS_STICKY => [⟨0, 0, .W1C, false, false, 0x0, false⟩, ⟨1, 1, .W1C, false, false, 0x0, true⟩,
      ⟨2, 2, .W1C, false, false, 0x0, false⟩, ⟨3, 3, .W1C, false, false, 0x0, false⟩,
      ⟨4, 4, .W1C, false, false, 0x0, false⟩, ⟨5, 5, .W1C, false, false, 0x0, true⟩,
      ⟨6, 6, .W1C, false, false, 0x0, true⟩, ⟨7, 7, .W1C, false, false, 0x0, true⟩]
  | .PRS_ENTRY => [⟨0, 0, .RO, false, false, 0x0, false⟩, ⟨24, 1, .RO, false, false, 0x0, true⟩,
      ⟨40, 25, .RO, false, false, 0x0, true⟩, ⟨50, 41, .RO, false, false, 0x0, true⟩,
      ⟨57, 51, .RO, false, false, 0x0, true⟩, ⟨58, 58, .RO, false, false, 0x0, true⟩,
      ⟨59, 59, .RO, false, false, 0x0, true⟩, ⟨60, 60, .RO, false, false, 0x0, true⟩,
      ⟨61, 61, .RO, false, false, 0x0, true⟩]
  | .PRS_ENTRY_CNT => [⟨31, 0, .RO, false, false, 0x0, true⟩]
  | .PRS_CNT => [⟨63, 0, .RO, false, false, 0x0, true⟩]
  | .MXE_CTL => [⟨0, 0, .RW, false, false, 0x1, false⟩, ⟨3, 2, .RW, false, false, 0x0, true⟩,
      ⟨15, 8, .RW, false, false, 0x10, true⟩]
  | .MXE_STAT => [⟨1, 0, .RO, false, false, 0x0, false⟩, ⟨4, 2, .RO, false, false, 0x0, true⟩,
      ⟨5, 5, .RO, false, false, 0x0, true⟩, ⟨6, 6, .RO, false, false, 0x0, true⟩,
      ⟨7, 7, .RO, false, false, 0x0, true⟩]
  | .MXE_HEALTH => [⟨0, 0, .HEALTH, false, false, 0x0, false⟩, ⟨1, 1, .HEALTH, false, false, 0x0, false⟩]
  | .MXE_TFLAG => [⟨0, 0, .RO, false, false, 0x0, false⟩, ⟨1, 1, .RO, false, false, 0x0, false⟩,
      ⟨2, 2, .RO, false, false, 0x0, false⟩, ⟨3, 3, .RO, false, false, 0x0, true⟩,
      ⟨4, 4, .RO, false, false, 0x0, false⟩, ⟨5, 5, .RO, false, false, 0x0, false⟩,
      ⟨13, 8, .RO, false, false, 0x0, true⟩, ⟨18, 14, .RO, false, false, 0x0, true⟩,
      ⟨24, 19, .RO, false, false, 0x0, true⟩, ⟨29, 25, .RO, false, false, 0x0, true⟩,
      ⟨35, 30, .RO, false, false, 0x0, true⟩, ⟨40, 36, .RO, false, false, 0x0, true⟩,
      ⟨46, 41, .RO, false, false, 0x0, true⟩, ⟨63, 48, .RO, false, false, 0x0, true⟩]
  | .MXE_STICKY => [⟨5, 0, .W1C, false, false, 0x0, false⟩, ⟨6, 6, .W1C, false, false, 0x0, true⟩,
      ⟨7, 7, .W1C, false, false, 0x0, true⟩, ⟨8, 8, .W1C, false, false, 0x0, true⟩]
  | .MXE_CKSEED => [⟨63, 0, .RW, false, false, 0x1, true⟩]
  | .MXE_CKPAT => [⟨63, 0, .RW, false, false, 0x0, true⟩]
  | .MXE_CKLOG => [⟨5, 0, .RO, false, false, 0x0, true⟩, ⟨6, 6, .RO, false, false, 0x0, true⟩,
      ⟨7, 7, .RO, false, false, 0x0, true⟩, ⟨23, 8, .RO, false, false, 0x0, true⟩,
      ⟨63, 32, .RO, false, false, 0x0, true⟩]
  | .MXE_CNT_TILE => [⟨63, 0, .RO, false, false, 0x0, true⟩]
  | .MXE_CNT_SOLV => [⟨63, 0, .RO, false, false, 0x0, true⟩]
  | .MXE_CNT_PREEMPT => [⟨63, 0, .RO, false, false, 0x0, true⟩]
  | .MXE_CNT_CHK => [⟨63, 0, .RO, false, false, 0x0, true⟩]
  | .MXE_CNT_UNTESTED => [⟨63, 0, .RO, false, false, 0x0, true⟩]
  | .MXE_INJ => [⟨0, 0, .RW, true, false, 0x0, true⟩, ⟨6, 1, .RW, true, false, 0x0, true⟩,
      ⟨11, 7, .RW, true, false, 0x0, true⟩, ⟨12, 12, .RW, true, false, 0x0, true⟩,
      ⟨17, 13, .RW, true, false, 0x0, true⟩, ⟨18, 18, .W1C, false, false, 0x0, true⟩]
  | .VEC_CTL => [⟨9, 0, .RW, true, false, 0x0, false⟩, ⟨16, 16, .RW, true, false, 0x0, false⟩]
  | .VEC_STAT => [⟨0, 0, .RO, false, false, 0x0, false⟩, ⟨5, 1, .RO, false, false, 0x0, true⟩,
      ⟨6, 6, .RO, false, false, 0x0, true⟩, ⟨7, 7, .RO, false, false, 0x0, true⟩,
      ⟨8, 8, .RO, false, false, 0x0, true⟩]
  | .VEC_STICKY => [⟨5, 0, .W1C, false, false, 0x0, false⟩, ⟨6, 6, .W1C, false, false, 0x0, true⟩,
      ⟨7, 7, .W1C, false, false, 0x0, true⟩, ⟨8, 8, .W1C, false, false, 0x0, true⟩]
  | .VEC_FLAG => [⟨0, 0, .RO, false, false, 0x0, false⟩, ⟨1, 1, .RO, false, false, 0x0, false⟩,
      ⟨2, 2, .RO, false, false, 0x0, true⟩, ⟨3, 3, .RO, false, false, 0x0, false⟩,
      ⟨4, 4, .RO, false, false, 0x0, false⟩, ⟨5, 5, .RO, false, false, 0x0, false⟩,
      ⟨10, 8, .RO, false, false, 0x0, true⟩, ⟨63, 16, .RO, false, false, 0x0, true⟩]
  | .VEC_FPOS_NF => [⟨23, 0, .RO, false, false, 0x0, true⟩, ⟨47, 24, .RO, false, false, 0x0, true⟩]
  | .VEC_FPOS_OVF => [⟨23, 0, .RO, false, false, 0x0, true⟩, ⟨47, 24, .RO, false, false, 0x0, true⟩]
  | .VEC_FPOS_EMPTY => [⟨23, 0, .RO, false, false, 0x0, true⟩, ⟨47, 24, .RO, false, false, 0x0, true⟩]
  | .VEC_CNT_CHAIN => [⟨63, 0, .RO, false, false, 0x0, true⟩]
  | .VEC_CNT_ELEM => [⟨63, 0, .RO, false, false, 0x0, true⟩]
  | .VEC_CNT_CENSUS => [⟨63, 0, .RO, false, false, 0x0, true⟩]
  | .VEC_CNT_CDROP => [⟨63, 0, .RO, false, false, 0x0, true⟩]
  | .UNIT_MEMERR => [⟨31, 0, .RO, false, false, 0x0, true⟩, ⟨47, 32, .RO, false, false, 0x0, false⟩,
      ⟨63, 48, .RO, false, false, 0x0, true⟩]
  | .UNIT_MEMERR_ADDR => [⟨35, 0, .RO, false, false, 0x0, true⟩, ⟨63, 63, .W1C, false, false, 0x0, true⟩]
  | .CHG_BUF => [⟨63, 0, .RW, false, false, 0x0, true⟩]
  | .BOOT_FWBUF => [⟨63, 0, .RW, false, false, 0x0, true⟩]
  | .MSIX_ADDR => [⟨63, 0, .RW, false, false, 0x0, true⟩]
  | .MSIX_DATA => [⟨31, 0, .RW, false, false, 0x0, true⟩, ⟨32, 32, .RW, false, false, 0x1, true⟩]
  | .MSIX_PBA => [⟨63, 0, .RO, false, false, 0x0, true⟩]

/-- Every register, in the order of R650–R653. -/
def Reg.all : List Reg := [
  .HUB_ID, .HUB_PSEL, .HUB_STEP, .HUB_SEED, .HUB_SRT_IDX, .HUB_SRT_STEP, .HUB_SRT_OUT, .HUB_SCHED, .HUB_GATE_LIM,
  .HUB_GATE_CTL, .HUB_GATE_STAT, .HUB_GATE_NORM, .HUB_CNT_SKIP, .HUB_CNT_SUPPR, .HUB_CNT_CLIP, .HUB_NT_ERR,
  .HUB_NT_ERR_ADDR, .CEL_ERR, .CEL_ERR_ADDR, .CSK_STAT, .CSK_CNT_ELEM, .CEL_UPD_CTL, .CEL_UPD_STAT,
  .CEL_UPD_STICKY, .CEL_UPD_CMD, .CEL_JRNL, .CEL_AUD_LOG, .CEL_CNT_ROWS, .CEL_CNT_MISMATCH, .CEL_CNT_REPLAY,
  .CEL_CNT_FALLBACK, .PART_NTX, .PART_CLX, .PART_TBL, .PART_CTL, .PART_STAT, .PART_QEND, .PART_QCFG, .PART_VIOL,
  .PART_RESUME, .PART_CNT_XPART, .PART_CGRANT, .PART_OWN, .FAB_CTL, .FAB_STICKY, .FAB_ID, .FAB_TOPO, .FAB_LINK_CFG,
  .FAB_LINK_STAT, .FAB_LINK_FEC, .FAB_LINK_RETRY, .FAB_TIME_CTL, .FAB_TIME_NOW, .FAB_TIME_STAT, .FAB_CNT, .FAB_JOB,
  .FAB_PERM, .FAB_RT, .CAR_CTL, .CAR_CFG, .CAR_SEGS, .CAR_STAT, .CAR_STICKY, .CAR_MAPLOAD, .CAR_MAPADDR,
  .CAR_MAPSLOT, .CAR_CNT, .TST_LOG, .TST_CNT_CHECK, .TST_CNT_FAIL, .SEAL_CFG, .SEAL_STAT, .SEAL_LOG, .SEAL_CAUSE,
  .SEAL_CMD, .SEAL_LOADIDX, .SEAL_CNT, .SEAL_LIVE, .INT_CTL, .INT_STAT, .INT_RCV, .INT_FLOG, .INT_CNT, .MTR_SNAP,
  .MTR_STAT, .MTR_EPOCH, .MTR_RD, .MTR_LIVE, .CHG_CMD, .CHG_STAT, .CHG_SEQ, .CHG_UID, .CHG_DIGEST, .CHG_KEYSTAGE,
  .CHG_FP, .HOSTIF_CTL, .HOSTIF_PORT, .HOSTIF_WIN, .HOSTIF_WINSZ, .HOSTIF_CAUSE, .HOSTIF_CVEC, .HOSTIF_CNT,
  .HOSTIF_RWIN, .HOSTIF_RWINSZ, .HOSTIF_HIQ_BASE, .HOSTIF_HIQ_CTL, .HOSTIF_HIQ_DB, .HOSTIF_HIQ_STAT,
  .HOSTIF_HOQ_BASE, .HOSTIF_HOQ_SRC, .HOSTIF_HOQ_DB, .HOSTIF_HOQ_MOD, .HOSTIF_HOQ_STAT, .BOOT_STAT, .BOOT_VER,
  .BOOT_CMD, .BOOT_CAUSE, .BOOT_PROFSEL, .BOOT_FWCTL, .PWR_CTL, .PWR_STICKY, .PWR_STAT, .PWR_ENERGY, .PWR_TRIPLOG,
  .PWR_CNT_DROPOUT, .THM_SENSOR, .HUB_HARD_STAT, .HUB_HARD_ADDR, .RGN_CLK, .RGN_MEMERR, .RGN_MEMERR_ADDR,
  .QP_POOL_STAT, .QP_STICKY, .QP_MEMERR, .QP_MEMERR_ADDR, .QP_QCFG, .QP_QSTAT, .QP_QCMD, .QP_QCNT, .RACK_CTL,
  .RACK_STAT, .RACK_STICKY, .RACK_AREA, .RACK_LANE_CFG, .RACK_LANE_HOST, .RACK_LANE_STAT, .RACK_LANE_HUSE,
  .RACK_CNT, .SOLV_CFG, .SOLV_STAT, .SOLV_STICKY, .SOLV_CMD, .SOLV_RTAB, .SOLV_STAGE, .SOLV_TICKET, .SOLV_CNT,
  .INT_RGN_FQ, .INT_RGN_ARB, .CLU_CLK, .CLU_SEQ_CTL, .CLU_SEQ_STAT, .CLU_SEQ_CMD, .CLU_SEQ_STICKY, .CLU_SEQ_POS,
  .CLU_SEQ_GRP, .CLU_SEQ_SCHED, .CLU_SEQ_CNT, .CLU_SEQ_RTN, .PRS_CFG, .PRS_STAT, .PRS_STICKY, .PRS_ENTRY,
  .PRS_ENTRY_CNT, .PRS_CNT, .MXE_CTL, .MXE_STAT, .MXE_HEALTH, .MXE_TFLAG, .MXE_STICKY, .MXE_CKSEED, .MXE_CKPAT,
  .MXE_CKLOG, .MXE_CNT_TILE, .MXE_CNT_SOLV, .MXE_CNT_PREEMPT, .MXE_CNT_CHK, .MXE_CNT_UNTESTED, .MXE_INJ, .VEC_CTL,
  .VEC_STAT, .VEC_STICKY, .VEC_FLAG, .VEC_FPOS_NF, .VEC_FPOS_OVF, .VEC_FPOS_EMPTY, .VEC_CNT_CHAIN, .VEC_CNT_ELEM,
  .VEC_CNT_CENSUS, .VEC_CNT_CDROP, .UNIT_MEMERR, .UNIT_MEMERR_ADDR, .CHG_BUF, .BOOT_FWBUF, .MSIX_ADDR, .MSIX_DATA,
  .MSIX_PBA]

/-- The number of a register in the order of R650–R653. -/
def Reg.code (r : Reg) : Nat := r.ctorIdx

/-- Key of instance i, index j of a register in the register map of the state; every register has room for 2,048 instances
of 4,096 indices. -/
def regKey (r : Reg) (i j : Nat) : Nat := (r.code * 2048 + i % 2048) * 4096 + j % 4096

/-- The value of a register after cold reset (R20): every field at its Reset column. `CHG_UID` is unique per module
(R563) and has no number in the manual. -/
def Reg.reset (r : Reg) : Word :=
  if r = .CHG_UID then Config.moduleUid
  else Word.ofNat (r.fields.foldl (fun a f => a + f.reset * 2 ^ f.lo) 0)

/-- The register of a number. -/
def Reg.ofCode (n : Nat) : Reg := Reg.all.getD n .HUB_ID

/-- What an unlisted key of the register map reads as: the register's reset value. -/
def regDefault (k : Nat) : Word := (Reg.ofCode (k / (2048 * 4096))).reset

/-! ### Fields by name -/

/-- `HUB_ID.FAMILY` (R2). -/
abbrev Fld.HUB_ID_FAMILY : Fld := ⟨.HUB_ID, 31, 20⟩
/-- `HUB_ID.PART` (R2). -/
abbrev Fld.HUB_ID_PART : Fld := ⟨.HUB_ID, 19, 8⟩
/-- `HUB_ID.STEP_MAJOR` (R2). -/
abbrev Fld.HUB_ID_STEP_MAJOR : Fld := ⟨.HUB_ID, 7, 4⟩
/-- `HUB_ID.STEP_MINOR` (R2). -/
abbrev Fld.HUB_ID_STEP_MINOR : Fld := ⟨.HUB_ID, 3, 0⟩
/-- `HUB_PSEL.PART` (R648). -/
abbrev Fld.HUB_PSEL_PART : Fld := ⟨.HUB_PSEL, 3, 0⟩
/-- `HUB_PSEL.PORT` (R648). -/
abbrev Fld.HUB_PSEL_PORT : Fld := ⟨.HUB_PSEL, 4, 4⟩
/-- `HUB_STEP.SEALED_STEP` (R52). -/
abbrev Fld.HUB_STEP_SEALED_STEP : Fld := ⟨.HUB_STEP, 47, 0⟩
/-- `HUB_STEP.PARITY` (R52). -/
abbrev Fld.HUB_STEP_PARITY : Fld := ⟨.HUB_STEP, 48, 48⟩
/-- `HUB_STEP.PHASE` (R52). -/
abbrev Fld.HUB_STEP_PHASE : Fld := ⟨.HUB_STEP, 51, 49⟩
/-- `HUB_STEP.UPDATE_DONE` (R52). -/
abbrev Fld.HUB_STEP_UPDATE_DONE : Fld := ⟨.HUB_STEP, 52, 52⟩
/-- `HUB_STEP.READY_SENT` (R52). -/
abbrev Fld.HUB_STEP_READY_SENT : Fld := ⟨.HUB_STEP, 53, 53⟩
/-- `HUB_STEP.GATE_FAIL` (R52). -/
abbrev Fld.HUB_STEP_GATE_FAIL : Fld := ⟨.HUB_STEP, 54, 54⟩
/-- `HUB_SEED.SEED` (R99). -/
abbrev Fld.HUB_SEED_SEED : Fld := ⟨.HUB_SEED, 63, 0⟩
/-- `HUB_SRT_IDX.INDEX` (R100). -/
abbrev Fld.HUB_SRT_IDX_INDEX : Fld := ⟨.HUB_SRT_IDX, 39, 0⟩
/-- `HUB_SRT_IDX.TENSOR` (R100). -/
abbrev Fld.HUB_SRT_IDX_TENSOR : Fld := ⟨.HUB_SRT_IDX, 63, 40⟩
/-- `HUB_SRT_STEP.STEP` (R100). -/
abbrev Fld.HUB_SRT_STEP_STEP : Fld := ⟨.HUB_SRT_STEP, 47, 0⟩
/-- `HUB_SRT_STEP.DRAW` (R100). -/
abbrev Fld.HUB_SRT_STEP_DRAW : Fld := ⟨.HUB_SRT_STEP, 55, 48⟩
/-- `HUB_SRT_STEP.GO` (R100). -/
abbrev Fld.HUB_SRT_STEP_GO : Fld := ⟨.HUB_SRT_STEP, 63, 63⟩
/-- `HUB_SRT_OUT.VALUE` (R100). -/
abbrev Fld.HUB_SRT_OUT_VALUE : Fld := ⟨.HUB_SRT_OUT, 31, 0⟩
/-- `HUB_SCHED.INDEX` (R259). -/
abbrev Fld.HUB_SCHED_INDEX : Fld := ⟨.HUB_SCHED, 47, 0⟩
/-- `HUB_GATE_LIM.NMAX` (R388). -/
abbrev Fld.HUB_GATE_LIM_NMAX : Fld := ⟨.HUB_GATE_LIM, 31, 0⟩
/-- `HUB_GATE_LIM.CLIP` (R388). -/
abbrev Fld.HUB_GATE_LIM_CLIP : Fld := ⟨.HUB_GATE_LIM, 63, 32⟩
/-- `HUB_GATE_CTL.GLOBAL` (R388). -/
abbrev Fld.HUB_GATE_CTL_GLOBAL : Fld := ⟨.HUB_GATE_CTL, 0, 0⟩
/-- `HUB_GATE_CTL.SKIP_ADV` (R388). -/
abbrev Fld.HUB_GATE_CTL_SKIP_ADV : Fld := ⟨.HUB_GATE_CTL, 1, 1⟩
/-- `HUB_GATE_STAT.CLIPF` (R389). -/
abbrev Fld.HUB_GATE_STAT_CLIPF : Fld := ⟨.HUB_GATE_STAT, 31, 0⟩
/-- `HUB_GATE_STAT.PASS` (R389). -/
abbrev Fld.HUB_GATE_STAT_PASS : Fld := ⟨.HUB_GATE_STAT, 32, 32⟩
/-- `HUB_GATE_STAT.NF` (R389). -/
abbrev Fld.HUB_GATE_STAT_NF : Fld := ⟨.HUB_GATE_STAT, 33, 33⟩
/-- `HUB_GATE_STAT.CHK` (R389). -/
abbrev Fld.HUB_GATE_STAT_CHK : Fld := ⟨.HUB_GATE_STAT, 34, 34⟩
/-- `HUB_GATE_STAT.POISON` (R389). -/
abbrev Fld.HUB_GATE_STAT_POISON : Fld := ⟨.HUB_GATE_STAT, 35, 35⟩
/-- `HUB_GATE_STAT.NORM` (R389). -/
abbrev Fld.HUB_GATE_STAT_NORM : Fld := ⟨.HUB_GATE_STAT, 36, 36⟩
/-- `HUB_GATE_STAT.CLIPPED` (R389). -/
abbrev Fld.HUB_GATE_STAT_CLIPPED : Fld := ⟨.HUB_GATE_STAT, 37, 37⟩
/-- `HUB_GATE_NORM.NORM` (R389). -/
abbrev Fld.HUB_GATE_NORM_NORM : Fld := ⟨.HUB_GATE_NORM, 63, 0⟩
/-- `HUB_CNT_SKIP.COUNT` (R393). -/
abbrev Fld.HUB_CNT_SKIP_COUNT : Fld := ⟨.HUB_CNT_SKIP, 63, 0⟩
/-- `HUB_CNT_SUPPR.COUNT` (R393). -/
abbrev Fld.HUB_CNT_SUPPR_COUNT : Fld := ⟨.HUB_CNT_SUPPR, 63, 0⟩
/-- `HUB_CNT_CLIP.COUNT` (R393). -/
abbrev Fld.HUB_CNT_CLIP_COUNT : Fld := ⟨.HUB_CNT_CLIP, 63, 0⟩
/-- `HUB_NT_ERR.CE_CNT` (R212). -/
abbrev Fld.HUB_NT_ERR_CE_CNT : Fld := ⟨.HUB_NT_ERR, 31, 0⟩
/-- `HUB_NT_ERR.UE_CNT` (R212). -/
abbrev Fld.HUB_NT_ERR_UE_CNT : Fld := ⟨.HUB_NT_ERR, 47, 32⟩
/-- `HUB_NT_ERR.SCRUB_PASS` (R212). -/
abbrev Fld.HUB_NT_ERR_SCRUB_PASS : Fld := ⟨.HUB_NT_ERR, 63, 48⟩
/-- `HUB_NT_ERR_ADDR.ADDR` (R213). -/
abbrev Fld.HUB_NT_ERR_ADDR_ADDR : Fld := ⟨.HUB_NT_ERR_ADDR, 35, 0⟩
/-- `HUB_NT_ERR_ADDR.VALID` (R213). -/
abbrev Fld.HUB_NT_ERR_ADDR_VALID : Fld := ⟨.HUB_NT_ERR_ADDR, 63, 63⟩
/-- `CEL_ERR.CE_CNT` (R212). -/
abbrev Fld.CEL_ERR_CE_CNT : Fld := ⟨.CEL_ERR, 31, 0⟩
/-- `CEL_ERR.UE_CNT` (R212). -/
abbrev Fld.CEL_ERR_UE_CNT : Fld := ⟨.CEL_ERR, 47, 32⟩
/-- `CEL_ERR.SCRUB_PASS` (R212). -/
abbrev Fld.CEL_ERR_SCRUB_PASS : Fld := ⟨.CEL_ERR, 63, 48⟩
/-- `CEL_ERR_ADDR.ADDR` (R213). -/
abbrev Fld.CEL_ERR_ADDR_ADDR : Fld := ⟨.CEL_ERR_ADDR, 35, 0⟩
/-- `CEL_ERR_ADDR.VALID` (R213). -/
abbrev Fld.CEL_ERR_ADDR_VALID : Fld := ⟨.CEL_ERR_ADDR, 63, 63⟩
/-- `CSK_STAT.ACTIVE` (R390). -/
abbrev Fld.CSK_STAT_ACTIVE : Fld := ⟨.CSK_STAT, 5, 0⟩
/-- `CSK_STAT.FAULTMAP` (R390). -/
abbrev Fld.CSK_STAT_FAULTMAP : Fld := ⟨.CSK_STAT, 37, 6⟩
/-- `CSK_CNT_ELEM.COUNT` (R390). -/
abbrev Fld.CSK_CNT_ELEM_COUNT : Fld := ⟨.CSK_CNT_ELEM, 63, 0⟩
/-- `CEL_UPD_CTL.EN` (R391). -/
abbrev Fld.CEL_UPD_CTL_EN : Fld := ⟨.CEL_UPD_CTL, 0, 0⟩
/-- `CEL_UPD_CTL.AUD_EN` (R391). -/
abbrev Fld.CEL_UPD_CTL_AUD_EN : Fld := ⟨.CEL_UPD_CTL, 1, 1⟩
/-- `CEL_UPD_CTL.AUD_SHIFT` (R391). -/
abbrev Fld.CEL_UPD_CTL_AUD_SHIFT : Fld := ⟨.CEL_UPD_CTL, 6, 2⟩
/-- `CEL_UPD_STAT.BUSY` (R391). -/
abbrev Fld.CEL_UPD_STAT_BUSY : Fld := ⟨.CEL_UPD_STAT, 0, 0⟩
/-- `CEL_UPD_STAT.VOIDING` (R391). -/
abbrev Fld.CEL_UPD_STAT_VOIDING : Fld := ⟨.CEL_UPD_STAT, 1, 1⟩
/-- `CEL_UPD_STAT.REPLAYING` (R391). -/
abbrev Fld.CEL_UPD_STAT_REPLAYING : Fld := ⟨.CEL_UPD_STAT, 2, 2⟩
/-- `CEL_UPD_STAT.JRNL` (R391). -/
abbrev Fld.CEL_UPD_STAT_JRNL : Fld := ⟨.CEL_UPD_STAT, 15, 3⟩
/-- `CEL_UPD_STICKY.NF` (R392). -/
abbrev Fld.CEL_UPD_STICKY_NF : Fld := ⟨.CEL_UPD_STICKY, 0, 0⟩
/-- `CEL_UPD_STICKY.POISON` (R392). -/
abbrev Fld.CEL_UPD_STICKY_POISON : Fld := ⟨.CEL_UPD_STICKY, 1, 1⟩
/-- `CEL_UPD_STICKY.LIST` (R392). -/
abbrev Fld.CEL_UPD_STICKY_LIST : Fld := ⟨.CEL_UPD_STICKY, 2, 2⟩
/-- `CEL_UPD_STICKY.NONORM` (R392). -/
abbrev Fld.CEL_UPD_STICKY_NONORM : Fld := ⟨.CEL_UPD_STICKY, 3, 3⟩
/-- `CEL_UPD_STICKY.UNREG` (R392). -/
abbrev Fld.CEL_UPD_STICKY_UNREG : Fld := ⟨.CEL_UPD_STICKY, 4, 4⟩
/-- `CEL_UPD_STICKY.AUDIT` (R392). -/
abbrev Fld.CEL_UPD_STICKY_AUDIT : Fld := ⟨.CEL_UPD_STICKY, 5, 5⟩
/-- `CEL_UPD_STICKY.FALLBACK` (R392). -/
abbrev Fld.CEL_UPD_STICKY_FALLBACK : Fld := ⟨.CEL_UPD_STICKY, 6, 6⟩
/-- `CEL_UPD_STICKY.BLOCKED` (R392). -/
abbrev Fld.CEL_UPD_STICKY_BLOCKED : Fld := ⟨.CEL_UPD_STICKY, 7, 7⟩
/-- `CEL_UPD_STICKY.JOURNAL` (R392). -/
abbrev Fld.CEL_UPD_STICKY_JOURNAL : Fld := ⟨.CEL_UPD_STICKY, 8, 8⟩
/-- `CEL_UPD_CMD.REPLAY` (R391). -/
abbrev Fld.CEL_UPD_CMD_REPLAY : Fld := ⟨.CEL_UPD_CMD, 0, 0⟩
/-- `CEL_JRNL.ADDR` (R392). -/
abbrev Fld.CEL_JRNL_ADDR : Fld := ⟨.CEL_JRNL, 38, 12⟩
/-- `CEL_AUD_LOG.TENSOR` (R392). -/
abbrev Fld.CEL_AUD_LOG_TENSOR : Fld := ⟨.CEL_AUD_LOG, 23, 0⟩
/-- `CEL_AUD_LOG.INDEX` (R392). -/
abbrev Fld.CEL_AUD_LOG_INDEX : Fld := ⟨.CEL_AUD_LOG, 63, 24⟩
/-- `CEL_CNT_ROWS.COUNT` (R393). -/
abbrev Fld.CEL_CNT_ROWS_COUNT : Fld := ⟨.CEL_CNT_ROWS, 63, 0⟩
/-- `CEL_CNT_MISMATCH.COUNT` (R393). -/
abbrev Fld.CEL_CNT_MISMATCH_COUNT : Fld := ⟨.CEL_CNT_MISMATCH, 63, 0⟩
/-- `CEL_CNT_REPLAY.COUNT` (R393). -/
abbrev Fld.CEL_CNT_REPLAY_COUNT : Fld := ⟨.CEL_CNT_REPLAY, 63, 0⟩
/-- `CEL_CNT_FALLBACK.COUNT` (R393). -/
abbrev Fld.CEL_CNT_FALLBACK_COUNT : Fld := ⟨.CEL_CNT_FALLBACK, 63, 0⟩
/-- `PART_NTX.VALID` (R181). -/
abbrev Fld.PART_NTX_VALID : Fld := ⟨.PART_NTX, 0, 0⟩
/-- `PART_NTX.WIDTH` (R181). -/
abbrev Fld.PART_NTX_WIDTH : Fld := ⟨.PART_NTX, 2, 1⟩
/-- `PART_NTX.SEL` (R181). -/
abbrev Fld.PART_NTX_SEL : Fld := ⟨.PART_NTX, 5, 3⟩
/-- `PART_NTX.FRAME` (R181). -/
abbrev Fld.PART_NTX_FRAME : Fld := ⟨.PART_NTX, 11, 6⟩
/-- `PART_NTX.LBASE` (R181). -/
abbrev Fld.PART_NTX_LBASE : Fld := ⟨.PART_NTX, 24, 16⟩
/-- `PART_CLX.VALID` (R183). -/
abbrev Fld.PART_CLX_VALID : Fld := ⟨.PART_CLX, 0, 0⟩
/-- `PART_CLX.FRAME` (R183). -/
abbrev Fld.PART_CLX_FRAME : Fld := ⟨.PART_CLX, 6, 1⟩
/-- `PART_CLX.LSLOT` (R183). -/
abbrev Fld.PART_CLX_LSLOT : Fld := ⟨.PART_CLX, 12, 7⟩
/-- `PART_TBL.VALID` (R561). -/
abbrev Fld.PART_TBL_VALID : Fld := ⟨.PART_TBL, 0, 0⟩
/-- `PART_TBL.REGIONS` (R561). -/
abbrev Fld.PART_TBL_REGIONS : Fld := ⟨.PART_TBL, 16, 1⟩
/-- `PART_TBL.CGRANT_MAX` (R561). -/
abbrev Fld.PART_TBL_CGRANT_MAX : Fld := ⟨.PART_TBL, 23, 17⟩
/-- `PART_CTL.START` (R561). -/
abbrev Fld.PART_CTL_START : Fld := ⟨.PART_CTL, 0, 0⟩
/-- `PART_CTL.STOP` (R561). -/
abbrev Fld.PART_CTL_STOP : Fld := ⟨.PART_CTL, 1, 1⟩
/-- `PART_CTL.CLAIM` (R561). -/
abbrev Fld.PART_CTL_CLAIM : Fld := ⟨.PART_CTL, 2, 2⟩
/-- `PART_STAT.STATE` (R561). -/
abbrev Fld.PART_STAT_STATE : Fld := ⟨.PART_STAT, 2, 0⟩
/-- `PART_STAT.YREQ` (R561). -/
abbrev Fld.PART_STAT_YREQ : Fld := ⟨.PART_STAT, 3, 3⟩
/-- `PART_STAT.CLEARED` (R561). -/
abbrev Fld.PART_STAT_CLEARED : Fld := ⟨.PART_STAT, 4, 4⟩
/-- `PART_STAT.LOCK_VIOL` (R561). -/
abbrev Fld.PART_STAT_LOCK_VIOL : Fld := ⟨.PART_STAT, 5, 5⟩
/-- `PART_STAT.REFUSED` (R561). -/
abbrev Fld.PART_STAT_REFUSED : Fld := ⟨.PART_STAT, 6, 6⟩
/-- `PART_STAT.CMD_REF` (R561). -/
abbrev Fld.PART_STAT_CMD_REF : Fld := ⟨.PART_STAT, 7, 7⟩
/-- `PART_STAT.CAUSE` (R561). -/
abbrev Fld.PART_STAT_CAUSE : Fld := ⟨.PART_STAT, 10, 8⟩
/-- `PART_QEND.QEND` (R561). -/
abbrev Fld.PART_QEND_QEND : Fld := ⟨.PART_QEND, 63, 0⟩
/-- `PART_QCFG.GRACE` (R561). -/
abbrev Fld.PART_QCFG_GRACE : Fld := ⟨.PART_QCFG, 15, 0⟩
/-- `PART_QCFG.YGUARD` (R561). -/
abbrev Fld.PART_QCFG_YGUARD : Fld := ⟨.PART_QCFG, 23, 16⟩
/-- `PART_VIOL.LOCK_OFF` (R561). -/
abbrev Fld.PART_VIOL_LOCK_OFF : Fld := ⟨.PART_VIOL, 25, 0⟩
/-- `PART_VIOL.REF_TID` (R561). -/
abbrev Fld.PART_VIOL_REF_TID : Fld := ⟨.PART_VIOL, 49, 26⟩
/-- `PART_VIOL.REF_CAUSE` (R561). -/
abbrev Fld.PART_VIOL_REF_CAUSE : Fld := ⟨.PART_VIOL, 51, 50⟩
/-- `PART_RESUME.SLOT` (R561). -/
abbrev Fld.PART_RESUME_SLOT : Fld := ⟨.PART_RESUME, 3, 0⟩
/-- `PART_RESUME.LEPOCH` (R561). -/
abbrev Fld.PART_RESUME_LEPOCH : Fld := ⟨.PART_RESUME, 19, 4⟩
/-- `PART_RESUME.VALID` (R561). -/
abbrev Fld.PART_RESUME_VALID : Fld := ⟨.PART_RESUME, 20, 20⟩
/-- `PART_CNT_XPART.COUNT` (R561). -/
abbrev Fld.PART_CNT_XPART_COUNT : Fld := ⟨.PART_CNT_XPART, 63, 0⟩
/-- `PART_CGRANT.TENSOR` (R561). -/
abbrev Fld.PART_CGRANT_TENSOR : Fld := ⟨.PART_CGRANT, 23, 0⟩
/-- `PART_CGRANT.VALID` (R561). -/
abbrev Fld.PART_CGRANT_VALID : Fld := ⟨.PART_CGRANT, 24, 24⟩
/-- `PART_OWN.OWNER` (R561). -/
abbrev Fld.PART_OWN_OWNER : Fld := ⟨.PART_OWN, 3, 0⟩
/-- `PART_OWN.OWNED` (R561). -/
abbrev Fld.PART_OWN_OWNED : Fld := ⟨.PART_OWN, 4, 4⟩
/-- `FAB_CTL.LEN` (R440). -/
abbrev Fld.FAB_CTL_LEN : Fld := ⟨.FAB_CTL, 5, 0⟩
/-- `FAB_STICKY.LINK_DOWN` (R440). -/
abbrev Fld.FAB_STICKY_LINK_DOWN : Fld := ⟨.FAB_STICKY, 0, 0⟩
/-- `FAB_STICKY.CHECK_FAIL` (R440). -/
abbrev Fld.FAB_STICKY_CHECK_FAIL : Fld := ⟨.FAB_STICKY, 1, 1⟩
/-- `FAB_STICKY.PERM_DROP` (R440). -/
abbrev Fld.FAB_STICKY_PERM_DROP : Fld := ⟨.FAB_STICKY, 2, 2⟩
/-- `FAB_STICKY.EPOCH_DROP` (R440). -/
abbrev Fld.FAB_STICKY_EPOCH_DROP : Fld := ⟨.FAB_STICKY, 3, 3⟩
/-- `FAB_STICKY.ROUTE_DROP` (R440). -/
abbrev Fld.FAB_STICKY_ROUTE_DROP : Fld := ⟨.FAB_STICKY, 4, 4⟩
/-- `FAB_STICKY.MALFORMED` (R440). -/
abbrev Fld.FAB_STICKY_MALFORMED : Fld := ⟨.FAB_STICKY, 5, 5⟩
/-- `FAB_STICKY.PCRC` (R440). -/
abbrev Fld.FAB_STICKY_PCRC : Fld := ⟨.FAB_STICKY, 6, 6⟩
/-- `FAB_STICKY.TRUNC` (R440). -/
abbrev Fld.FAB_STICKY_TRUNC : Fld := ⟨.FAB_STICKY, 7, 7⟩
/-- `FAB_STICKY.CREDIT_STALL` (R440). -/
abbrev Fld.FAB_STICKY_CREDIT_STALL : Fld := ⟨.FAB_STICKY, 8, 8⟩
/-- `FAB_STICKY.TIME_LOST` (R440). -/
abbrev Fld.FAB_STICKY_TIME_LOST : Fld := ⟨.FAB_STICKY, 9, 9⟩
/-- `FAB_STICKY.ID_LOCKED` (R440). -/
abbrev Fld.FAB_STICKY_ID_LOCKED : Fld := ⟨.FAB_STICKY, 10, 10⟩
/-- `FAB_ID.ID` (R441). -/
abbrev Fld.FAB_ID_ID : Fld := ⟨.FAB_ID, 12, 0⟩
/-- `FAB_ID.VALID` (R441). -/
abbrev Fld.FAB_ID_VALID : Fld := ⟨.FAB_ID, 13, 13⟩
/-- `FAB_TOPO.DXM1` (R441). -/
abbrev Fld.FAB_TOPO_DXM1 : Fld := ⟨.FAB_TOPO, 3, 0⟩
/-- `FAB_TOPO.DYM1` (R441). -/
abbrev Fld.FAB_TOPO_DYM1 : Fld := ⟨.FAB_TOPO, 7, 4⟩
/-- `FAB_TOPO.DZM1` (R441). -/
abbrev Fld.FAB_TOPO_DZM1 : Fld := ⟨.FAB_TOPO, 12, 8⟩
/-- `FAB_TOPO.WRAP` (R441). -/
abbrev Fld.FAB_TOPO_WRAP : Fld := ⟨.FAB_TOPO, 15, 13⟩
/-- `FAB_TOPO.RT_FILL` (R441). -/
abbrev Fld.FAB_TOPO_RT_FILL : Fld := ⟨.FAB_TOPO, 16, 16⟩
/-- `FAB_LINK_CFG.TMAX` (R442). -/
abbrev Fld.FAB_LINK_CFG_TMAX : Fld := ⟨.FAB_LINK_CFG, 3, 0⟩
/-- `FAB_LINK_CFG.BOND_MIN` (R442). -/
abbrev Fld.FAB_LINK_CFG_BOND_MIN : Fld := ⟨.FAB_LINK_CFG, 5, 4⟩
/-- `FAB_LINK_CFG.ASYM` (R442). -/
abbrev Fld.FAB_LINK_CFG_ASYM : Fld := ⟨.FAB_LINK_CFG, 15, 8⟩
/-- `FAB_LINK_CFG.PRECODE` (R442). -/
abbrev Fld.FAB_LINK_CFG_PRECODE : Fld := ⟨.FAB_LINK_CFG, 16, 16⟩
/-- `FAB_LINK_STAT.STATE` (R443). -/
abbrev Fld.FAB_LINK_STAT_STATE : Fld := ⟨.FAB_LINK_STAT, 3, 0⟩
/-- `FAB_LINK_STAT.CAUSE` (R443). -/
abbrev Fld.FAB_LINK_STAT_CAUSE : Fld := ⟨.FAB_LINK_STAT, 7, 4⟩
/-- `FAB_LINK_STAT.PORTS_UP` (R443). -/
abbrev Fld.FAB_LINK_STAT_PORTS_UP : Fld := ⟨.FAB_LINK_STAT, 10, 8⟩
/-- `FAB_LINK_STAT.DATELINE` (R443). -/
abbrev Fld.FAB_LINK_STAT_DATELINE : Fld := ⟨.FAB_LINK_STAT, 11, 11⟩
/-- `FAB_LINK_STAT.NBR_ID` (R443). -/
abbrev Fld.FAB_LINK_STAT_NBR_ID : Fld := ⟨.FAB_LINK_STAT, 24, 12⟩
/-- `FAB_LINK_STAT.NBR_DIR` (R443). -/
abbrev Fld.FAB_LINK_STAT_NBR_DIR : Fld := ⟨.FAB_LINK_STAT, 27, 25⟩
/-- `FAB_LINK_STAT.RETRAINS` (R443). -/
abbrev Fld.FAB_LINK_STAT_RETRAINS : Fld := ⟨.FAB_LINK_STAT, 47, 32⟩
/-- `FAB_LINK_FEC.CORR_SYM` (R444). -/
abbrev Fld.FAB_LINK_FEC_CORR_SYM : Fld := ⟨.FAB_LINK_FEC, 31, 0⟩
/-- `FAB_LINK_FEC.UNCORR` (R444). -/
abbrev Fld.FAB_LINK_FEC_UNCORR : Fld := ⟨.FAB_LINK_FEC, 63, 32⟩
/-- `FAB_LINK_RETRY.REPLAYS` (R444). -/
abbrev Fld.FAB_LINK_RETRY_REPLAYS : Fld := ⟨.FAB_LINK_RETRY, 31, 0⟩
/-- `FAB_LINK_RETRY.STALLS` (R444). -/
abbrev Fld.FAB_LINK_RETRY_STALLS : Fld := ⟨.FAB_LINK_RETRY, 63, 32⟩
/-- `FAB_TIME_CTL.ROOT` (R445). -/
abbrev Fld.FAB_TIME_CTL_ROOT : Fld := ⟨.FAB_TIME_CTL, 12, 0⟩
/-- `FAB_TIME_CTL.EN` (R445). -/
abbrev Fld.FAB_TIME_CTL_EN : Fld := ⟨.FAB_TIME_CTL, 13, 13⟩
/-- `FAB_TIME_CTL.PERIOD` (R445). -/
abbrev Fld.FAB_TIME_CTL_PERIOD : Fld := ⟨.FAB_TIME_CTL, 31, 16⟩
/-- `FAB_TIME_NOW.NOW` (R445). -/
abbrev Fld.FAB_TIME_NOW_NOW : Fld := ⟨.FAB_TIME_NOW, 63, 0⟩
/-- `FAB_TIME_STAT.OFFSET` (R446). -/
abbrev Fld.FAB_TIME_STAT_OFFSET : Fld := ⟨.FAB_TIME_STAT, 31, 0⟩
/-- `FAB_TIME_STAT.PARENT` (R446). -/
abbrev Fld.FAB_TIME_STAT_PARENT : Fld := ⟨.FAB_TIME_STAT, 34, 32⟩
/-- `FAB_TIME_STAT.LOCKED` (R446). -/
abbrev Fld.FAB_TIME_STAT_LOCKED : Fld := ⟨.FAB_TIME_STAT, 35, 35⟩
/-- `FAB_TIME_STAT.TIME_OK` (R446). -/
abbrev Fld.FAB_TIME_STAT_TIME_OK : Fld := ⟨.FAB_TIME_STAT, 36, 36⟩
/-- `FAB_TIME_STAT.HOLDOVER` (R446). -/
abbrev Fld.FAB_TIME_STAT_HOLDOVER : Fld := ⟨.FAB_TIME_STAT, 37, 37⟩
/-- `FAB_CNT.COUNT` (R447). -/
abbrev Fld.FAB_CNT_COUNT : Fld := ⟨.FAB_CNT, 63, 0⟩
/-- `FAB_JOB.JTAG` (R448). -/
abbrev Fld.FAB_JOB_JTAG : Fld := ⟨.FAB_JOB, 15, 0⟩
/-- `FAB_JOB.REPOCH` (R448). -/
abbrev Fld.FAB_JOB_REPOCH : Fld := ⟨.FAB_JOB, 31, 16⟩
/-- `FAB_JOB.LEPOCH` (R448). -/
abbrev Fld.FAB_JOB_LEPOCH : Fld := ⟨.FAB_JOB, 47, 32⟩
/-- `FAB_JOB.CENS_REG` (R448). -/
abbrev Fld.FAB_JOB_CENS_REG : Fld := ⟨.FAB_JOB, 51, 48⟩
/-- `FAB_JOB.CENS_Q` (R448). -/
abbrev Fld.FAB_JOB_CENS_Q : Fld := ⟨.FAB_JOB, 61, 52⟩
/-- `FAB_JOB.CENS_EN` (R448). -/
abbrev Fld.FAB_JOB_CENS_EN : Fld := ⟨.FAB_JOB, 62, 62⟩
/-- `FAB_PERM.MODS` (R448). -/
abbrev Fld.FAB_PERM_MODS : Fld := ⟨.FAB_PERM, 63, 0⟩
/-- `FAB_RT.DIR_0` (R449). -/
abbrev Fld.FAB_RT_DIR_0 : Fld := ⟨.FAB_RT, 2, 0⟩
/-- `FAB_RT.DIR_1` (R449). -/
abbrev Fld.FAB_RT_DIR_1 : Fld := ⟨.FAB_RT, 10, 8⟩
/-- `FAB_RT.DIR_2` (R449). -/
abbrev Fld.FAB_RT_DIR_2 : Fld := ⟨.FAB_RT, 18, 16⟩
/-- `FAB_RT.DIR_3` (R449). -/
abbrev Fld.FAB_RT_DIR_3 : Fld := ⟨.FAB_RT, 26, 24⟩
/-- `CAR_CTL.EN` (R488). -/
abbrev Fld.CAR_CTL_EN : Fld := ⟨.CAR_CTL, 0, 0⟩
/-- `CAR_CTL.LASTR` (R488). -/
abbrev Fld.CAR_CTL_LASTR : Fld := ⟨.CAR_CTL, 1, 1⟩
/-- `CAR_CTL.START_SLOT` (R488). -/
abbrev Fld.CAR_CTL_START_SLOT : Fld := ⟨.CAR_CTL, 7, 4⟩
/-- `CAR_CTL.START_LEPOCH` (R488). -/
abbrev Fld.CAR_CTL_START_LEPOCH : Fld := ⟨.CAR_CTL, 31, 16⟩
/-- `CAR_CFG.TMO` (R489). -/
abbrev Fld.CAR_CFG_TMO : Fld := ⟨.CAR_CFG, 9, 0⟩
/-- `CAR_CFG.DMAX` (R489). -/
abbrev Fld.CAR_CFG_DMAX : Fld := ⟨.CAR_CFG, 24, 16⟩
/-- `CAR_CFG.GWIN` (R489). -/
abbrev Fld.CAR_CFG_GWIN : Fld := ⟨.CAR_CFG, 28, 25⟩
/-- `CAR_SEGS.SEGS` (R489). -/
abbrev Fld.CAR_SEGS_SEGS : Fld := ⟨.CAR_SEGS, 11, 0⟩
/-- `CAR_STAT.BUSY` (R490). -/
abbrev Fld.CAR_STAT_BUSY : Fld := ⟨.CAR_STAT, 0, 0⟩
/-- `CAR_STAT.OPEN` (R490). -/
abbrev Fld.CAR_STAT_OPEN : Fld := ⟨.CAR_STAT, 6, 1⟩
/-- `CAR_STAT.SEGUSED` (R490). -/
abbrev Fld.CAR_STAT_SEGUSED : Fld := ⟨.CAR_STAT, 18, 7⟩
/-- `CAR_STAT.CUR_SLOT` (R490). -/
abbrev Fld.CAR_STAT_CUR_SLOT : Fld := ⟨.CAR_STAT, 22, 19⟩
/-- `CAR_STICKY.DIGEST` (R490). -/
abbrev Fld.CAR_STICKY_DIGEST : Fld := ⟨.CAR_STICKY, 0, 0⟩
/-- `CAR_STICKY.RERUN` (R490). -/
abbrev Fld.CAR_STICKY_RERUN : Fld := ⟨.CAR_STICKY, 1, 1⟩
/-- `CAR_STICKY.LOST` (R490). -/
abbrev Fld.CAR_STICKY_LOST : Fld := ⟨.CAR_STICKY, 2, 2⟩
/-- `CAR_STICKY.OVERCAP` (R490). -/
abbrev Fld.CAR_STICKY_OVERCAP : Fld := ⟨.CAR_STICKY, 3, 3⟩
/-- `CAR_STICKY.LEPOCH` (R490). -/
abbrev Fld.CAR_STICKY_LEPOCH : Fld := ⟨.CAR_STICKY, 4, 4⟩
/-- `CAR_STICKY.STALE` (R490). -/
abbrev Fld.CAR_STICKY_STALE : Fld := ⟨.CAR_STICKY, 5, 5⟩
/-- `CAR_STICKY.BAD_DESC` (R490). -/
abbrev Fld.CAR_STICKY_BAD_DESC : Fld := ⟨.CAR_STICKY, 6, 6⟩
/-- `CAR_STICKY.SEG_OVER` (R490). -/
abbrev Fld.CAR_STICKY_SEG_OVER : Fld := ⟨.CAR_STICKY, 7, 7⟩
/-- `CAR_STICKY.MAP_FAIL` (R490). -/
abbrev Fld.CAR_STICKY_MAP_FAIL : Fld := ⟨.CAR_STICKY, 8, 8⟩
/-- `CAR_STICKY.HOLD_FULL` (R490). -/
abbrev Fld.CAR_STICKY_HOLD_FULL : Fld := ⟨.CAR_STICKY, 9, 9⟩
/-- `CAR_MAPLOAD.SLOT` (R491). -/
abbrev Fld.CAR_MAPLOAD_SLOT : Fld := ⟨.CAR_MAPLOAD, 3, 0⟩
/-- `CAR_MAPLOAD.CLEAR` (R491). -/
abbrev Fld.CAR_MAPLOAD_CLEAR : Fld := ⟨.CAR_MAPLOAD, 4, 4⟩
/-- `CAR_MAPLOAD.GO` (R491). -/
abbrev Fld.CAR_MAPLOAD_GO : Fld := ⟨.CAR_MAPLOAD, 5, 5⟩
/-- `CAR_MAPLOAD.STATUS` (R491). -/
abbrev Fld.CAR_MAPLOAD_STATUS : Fld := ⟨.CAR_MAPLOAD, 11, 8⟩
/-- `CAR_MAPLOAD.ENTRY` (R491). -/
abbrev Fld.CAR_MAPLOAD_ENTRY : Fld := ⟨.CAR_MAPLOAD, 39, 16⟩
/-- `CAR_MAPLOAD.TID` (R491). -/
abbrev Fld.CAR_MAPLOAD_TID : Fld := ⟨.CAR_MAPLOAD, 63, 40⟩
/-- `CAR_MAPADDR.ADDR` (R491). -/
abbrev Fld.CAR_MAPADDR_ADDR : Fld := ⟨.CAR_MAPADDR, 38, 12⟩
/-- `CAR_MAPSLOT.VALID` (R491). -/
abbrev Fld.CAR_MAPSLOT_VALID : Fld := ⟨.CAR_MAPSLOT, 0, 0⟩
/-- `CAR_MAPSLOT.ADDR` (R491). -/
abbrev Fld.CAR_MAPSLOT_ADDR : Fld := ⟨.CAR_MAPSLOT, 38, 12⟩
/-- `CAR_CNT.COUNT` (R493). -/
abbrev Fld.CAR_CNT_COUNT : Fld := ⟨.CAR_CNT, 63, 0⟩
/-- `TST_LOG.CID` (R492). -/
abbrev Fld.TST_LOG_CID : Fld := ⟨.TST_LOG, 15, 0⟩
/-- `TST_LOG.SHARD` (R492). -/
abbrev Fld.TST_LOG_SHARD : Fld := ⟨.TST_LOG, 28, 16⟩
/-- `TST_LOG.ALG` (R492). -/
abbrev Fld.TST_LOG_ALG : Fld := ⟨.TST_LOG, 29, 29⟩
/-- `TST_LOG.OUTCOME` (R492). -/
abbrev Fld.TST_LOG_OUTCOME : Fld := ⟨.TST_LOG, 31, 30⟩
/-- `TST_LOG.DIFF` (R492). -/
abbrev Fld.TST_LOG_DIFF : Fld := ⟨.TST_LOG, 63, 32⟩
/-- `TST_CNT_CHECK.COUNT` (R493). -/
abbrev Fld.TST_CNT_CHECK_COUNT : Fld := ⟨.TST_CNT_CHECK, 63, 0⟩
/-- `TST_CNT_FAIL.COUNT` (R493). -/
abbrev Fld.TST_CNT_FAIL_COUNT : Fld := ⟨.TST_CNT_FAIL, 63, 0⟩
/-- `SEAL_CFG.READY_TMO` (R523). -/
abbrev Fld.SEAL_CFG_READY_TMO : Fld := ⟨.SEAL_CFG, 15, 0⟩
/-- `SEAL_CFG.DECIDE_TMO` (R523). -/
abbrev Fld.SEAL_CFG_DECIDE_TMO : Fld := ⟨.SEAL_CFG, 31, 16⟩
/-- `SEAL_CFG.ACK_TMO` (R523). -/
abbrev Fld.SEAL_CFG_ACK_TMO : Fld := ⟨.SEAL_CFG, 47, 32⟩
/-- `SEAL_CFG.BOUND_TMO` (R523). -/
abbrev Fld.SEAL_CFG_BOUND_TMO : Fld := ⟨.SEAL_CFG, 63, 48⟩
/-- `SEAL_STAT.COORD` (R524). -/
abbrev Fld.SEAL_STAT_COORD : Fld := ⟨.SEAL_STAT, 12, 0⟩
/-- `SEAL_STAT.IS_COORD` (R524). -/
abbrev Fld.SEAL_STAT_IS_COORD : Fld := ⟨.SEAL_STAT, 13, 13⟩
/-- `SEAL_STAT.IN_DOUBT` (R524). -/
abbrev Fld.SEAL_STAT_IN_DOUBT : Fld := ⟨.SEAL_STAT, 14, 14⟩
/-- `SEAL_STAT.OLD_INTACT` (R524). -/
abbrev Fld.SEAL_STAT_OLD_INTACT : Fld := ⟨.SEAL_STAT, 15, 15⟩
/-- `SEAL_STAT.WAIT_REL` (R524). -/
abbrev Fld.SEAL_STAT_WAIT_REL : Fld := ⟨.SEAL_STAT, 16, 16⟩
/-- `SEAL_STAT.BOUNDARY` (R524). -/
abbrev Fld.SEAL_STAT_BOUNDARY : Fld := ⟨.SEAL_STAT, 17, 17⟩
/-- `SEAL_STAT.ATT` (R524). -/
abbrev Fld.SEAL_STAT_ATT : Fld := ⟨.SEAL_STAT, 25, 18⟩
/-- `SEAL_STAT.LIVE_N` (R524). -/
abbrev Fld.SEAL_STAT_LIVE_N : Fld := ⟨.SEAL_STAT, 39, 26⟩
/-- `SEAL_STAT.MISSING` (R524). -/
abbrev Fld.SEAL_STAT_MISSING : Fld := ⟨.SEAL_STAT, 52, 40⟩
/-- `SEAL_LOG.STEP` (R525). -/
abbrev Fld.SEAL_LOG_STEP : Fld := ⟨.SEAL_LOG, 47, 0⟩
/-- `SEAL_LOG.KIND` (R525). -/
abbrev Fld.SEAL_LOG_KIND : Fld := ⟨.SEAL_LOG, 50, 48⟩
/-- `SEAL_LOG.LOCAL` (R525). -/
abbrev Fld.SEAL_LOG_LOCAL : Fld := ⟨.SEAL_LOG, 51, 51⟩
/-- `SEAL_LOG.ATT` (R525). -/
abbrev Fld.SEAL_LOG_ATT : Fld := ⟨.SEAL_LOG, 59, 52⟩
/-- `SEAL_CAUSE.REASON` (R525). -/
abbrev Fld.SEAL_CAUSE_REASON : Fld := ⟨.SEAL_CAUSE, 2, 0⟩
/-- `SEAL_CAUSE.RANK` (R525). -/
abbrev Fld.SEAL_CAUSE_RANK : Fld := ⟨.SEAL_CAUSE, 15, 3⟩
/-- `SEAL_CMD.STEP` (R526). -/
abbrev Fld.SEAL_CMD_STEP : Fld := ⟨.SEAL_CMD, 47, 0⟩
/-- `SEAL_CMD.LOAD` (R526). -/
abbrev Fld.SEAL_CMD_LOAD : Fld := ⟨.SEAL_CMD, 48, 48⟩
/-- `SEAL_CMD.FORCE` (R526). -/
abbrev Fld.SEAL_CMD_FORCE : Fld := ⟨.SEAL_CMD, 49, 49⟩
/-- `SEAL_CMD.REVERT` (R526). -/
abbrev Fld.SEAL_CMD_REVERT : Fld := ⟨.SEAL_CMD, 50, 50⟩
/-- `SEAL_CMD.DISCARD` (R526). -/
abbrev Fld.SEAL_CMD_DISCARD : Fld := ⟨.SEAL_CMD, 51, 51⟩
/-- `SEAL_LOADIDX.INDEX` (R526). -/
abbrev Fld.SEAL_LOADIDX_INDEX : Fld := ⟨.SEAL_LOADIDX, 47, 0⟩
/-- `SEAL_CNT.COUNT` (R528). -/
abbrev Fld.SEAL_CNT_COUNT : Fld := ⟨.SEAL_CNT, 63, 0⟩
/-- `SEAL_LIVE.RANKS` (R526). -/
abbrev Fld.SEAL_LIVE_RANKS : Fld := ⟨.SEAL_LIVE, 63, 0⟩
/-- `INT_CTL.FQ_EN` (R527). -/
abbrev Fld.INT_CTL_FQ_EN : Fld := ⟨.INT_CTL, 0, 0⟩
/-- `INT_CTL.FQ_REG` (R527). -/
abbrev Fld.INT_CTL_FQ_REG : Fld := ⟨.INT_CTL, 4, 1⟩
/-- `INT_CTL.FQ_Q` (R527). -/
abbrev Fld.INT_CTL_FQ_Q : Fld := ⟨.INT_CTL, 14, 5⟩
/-- `INT_STAT.FAULT` (R527). -/
abbrev Fld.INT_STAT_FAULT : Fld := ⟨.INT_STAT, 0, 0⟩
/-- `INT_STAT.REC_LOST` (R527). -/
abbrev Fld.INT_STAT_REC_LOST : Fld := ⟨.INT_STAT, 1, 1⟩
/-- `INT_STAT.CTRL` (R527). -/
abbrev Fld.INT_STAT_CTRL : Fld := ⟨.INT_STAT, 2, 2⟩
/-- `INT_STAT.XPART` (R527). -/
abbrev Fld.INT_STAT_XPART : Fld := ⟨.INT_STAT, 3, 3⟩
/-- `INT_STAT.POISON` (R527). -/
abbrev Fld.INT_STAT_POISON : Fld := ⟨.INT_STAT, 4, 4⟩
/-- `INT_STAT.ARB_OPEN` (R527). -/
abbrev Fld.INT_STAT_ARB_OPEN : Fld := ⟨.INT_STAT, 5, 5⟩
/-- `INT_STAT.CMD_REFUSED` (R527). -/
abbrev Fld.INT_STAT_CMD_REFUSED : Fld := ⟨.INT_STAT, 6, 6⟩
/-- `INT_RCV.REPOCH_NEXT` (R527). -/
abbrev Fld.INT_RCV_REPOCH_NEXT : Fld := ⟨.INT_RCV, 15, 0⟩
/-- `INT_RCV.APPLY` (R527). -/
abbrev Fld.INT_RCV_APPLY : Fld := ⟨.INT_RCV, 16, 16⟩
/-- `INT_RCV.QUIESCE` (R527). -/
abbrev Fld.INT_RCV_QUIESCE : Fld := ⟨.INT_RCV, 17, 17⟩
/-- `INT_RCV.REFRESH` (R527). -/
abbrev Fld.INT_RCV_REFRESH : Fld := ⟨.INT_RCV, 18, 18⟩
/-- `INT_FLOG.HEAD` (R527). -/
abbrev Fld.INT_FLOG_HEAD : Fld := ⟨.INT_FLOG, 11, 0⟩
/-- `INT_FLOG.WRAPPED` (R527). -/
abbrev Fld.INT_FLOG_WRAPPED : Fld := ⟨.INT_FLOG, 12, 12⟩
/-- `INT_CNT.COUNT` (R528). -/
abbrev Fld.INT_CNT_COUNT : Fld := ⟨.INT_CNT, 63, 0⟩
/-- `MTR_SNAP.GO` (R562). -/
abbrev Fld.MTR_SNAP_GO : Fld := ⟨.MTR_SNAP, 0, 0⟩
/-- `MTR_SNAP.UNATTR` (R562). -/
abbrev Fld.MTR_SNAP_UNATTR : Fld := ⟨.MTR_SNAP, 1, 1⟩
/-- `MTR_STAT.NEXT_SEQ` (R562). -/
abbrev Fld.MTR_STAT_NEXT_SEQ : Fld := ⟨.MTR_STAT, 47, 0⟩
/-- `MTR_STAT.KEYED` (R562). -/
abbrev Fld.MTR_STAT_KEYED : Fld := ⟨.MTR_STAT, 48, 48⟩
/-- `MTR_STAT.BUSY` (R562). -/
abbrev Fld.MTR_STAT_BUSY : Fld := ⟨.MTR_STAT, 49, 49⟩
/-- `MTR_EPOCH.EPOCH` (R562). -/
abbrev Fld.MTR_EPOCH_EPOCH : Fld := ⟨.MTR_EPOCH, 31, 0⟩
/-- `MTR_EPOCH.BOOTS` (R562). -/
abbrev Fld.MTR_EPOCH_BOOTS : Fld := ⟨.MTR_EPOCH, 63, 32⟩
/-- `MTR_RD.WORD` (R562). -/
abbrev Fld.MTR_RD_WORD : Fld := ⟨.MTR_RD, 63, 0⟩
/-- `MTR_LIVE.COUNT` (R562). -/
abbrev Fld.MTR_LIVE_COUNT : Fld := ⟨.MTR_LIVE, 63, 0⟩
/-- `CHG_CMD.REGISTER` (R563). -/
abbrev Fld.CHG_CMD_REGISTER : Fld := ⟨.CHG_CMD, 0, 0⟩
/-- `CHG_CMD.APPROVE` (R563). -/
abbrev Fld.CHG_CMD_APPROVE : Fld := ⟨.CHG_CMD, 1, 1⟩
/-- `CHG_CMD.APPLY` (R563). -/
abbrev Fld.CHG_CMD_APPLY : Fld := ⟨.CHG_CMD, 2, 2⟩
/-- `CHG_CMD.CANCEL` (R563). -/
abbrev Fld.CHG_CMD_CANCEL : Fld := ⟨.CHG_CMD, 3, 3⟩
/-- `CHG_CMD.ROLE` (R563). -/
abbrev Fld.CHG_CMD_ROLE : Fld := ⟨.CHG_CMD, 4, 4⟩
/-- `CHG_STAT.STATE` (R563). -/
abbrev Fld.CHG_STAT_STATE : Fld := ⟨.CHG_STAT, 2, 0⟩
/-- `CHG_STAT.RESULT` (R563). -/
abbrev Fld.CHG_STAT_RESULT : Fld := ⟨.CHG_STAT, 6, 3⟩
/-- `CHG_STAT.FIRST` (R563). -/
abbrev Fld.CHG_STAT_FIRST : Fld := ⟨.CHG_STAT, 7, 7⟩
/-- `CHG_SEQ.SEQ` (R563). -/
abbrev Fld.CHG_SEQ_SEQ : Fld := ⟨.CHG_SEQ, 63, 0⟩
/-- `CHG_UID.UID` (R563). -/
abbrev Fld.CHG_UID_UID : Fld := ⟨.CHG_UID, 63, 0⟩
/-- `CHG_DIGEST.DIGEST` (R563). -/
abbrev Fld.CHG_DIGEST_DIGEST : Fld := ⟨.CHG_DIGEST, 63, 0⟩
/-- `CHG_KEYSTAGE.KEY` (R563). -/
abbrev Fld.CHG_KEYSTAGE_KEY : Fld := ⟨.CHG_KEYSTAGE, 63, 0⟩
/-- `CHG_FP.FP` (R563). -/
abbrev Fld.CHG_FP_FP : Fld := ⟨.CHG_FP, 63, 0⟩
/-- `HOSTIF_CTL.RO` (R583). -/
abbrev Fld.HOSTIF_CTL_RO : Fld := ⟨.HOSTIF_CTL, 0, 0⟩
/-- `HOSTIF_PORT.HOST1` (R583). -/
abbrev Fld.HOSTIF_PORT_HOST1 : Fld := ⟨.HOSTIF_PORT, 15, 0⟩
/-- `HOSTIF_WIN.EN` (R583). -/
abbrev Fld.HOSTIF_WIN_EN : Fld := ⟨.HOSTIF_WIN, 0, 0⟩
/-- `HOSTIF_WIN.BASE` (R583). -/
abbrev Fld.HOSTIF_WIN_BASE : Fld := ⟨.HOSTIF_WIN, 63, 12⟩
/-- `HOSTIF_WINSZ.PAGES` (R583). -/
abbrev Fld.HOSTIF_WINSZ_PAGES : Fld := ⟨.HOSTIF_WINSZ, 44, 0⟩
/-- `HOSTIF_CAUSE.CAUSE` (R583). -/
abbrev Fld.HOSTIF_CAUSE_CAUSE : Fld := ⟨.HOSTIF_CAUSE, 7, 0⟩
/-- `HOSTIF_CVEC.VEC` (R583). -/
abbrev Fld.HOSTIF_CVEC_VEC : Fld := ⟨.HOSTIF_CVEC, 5, 0⟩
/-- `HOSTIF_CVEC.CEN` (R583). -/
abbrev Fld.HOSTIF_CVEC_CEN : Fld := ⟨.HOSTIF_CVEC, 15, 8⟩
/-- `HOSTIF_CNT.COUNT` (R587). -/
abbrev Fld.HOSTIF_CNT_COUNT : Fld := ⟨.HOSTIF_CNT, 63, 0⟩
/-- `HOSTIF_RWIN.EN` (R583). -/
abbrev Fld.HOSTIF_RWIN_EN : Fld := ⟨.HOSTIF_RWIN, 0, 0⟩
/-- `HOSTIF_RWIN.BASE` (R583). -/
abbrev Fld.HOSTIF_RWIN_BASE : Fld := ⟨.HOSTIF_RWIN, 63, 12⟩
/-- `HOSTIF_RWINSZ.PAGES` (R583). -/
abbrev Fld.HOSTIF_RWINSZ_PAGES : Fld := ⟨.HOSTIF_RWINSZ, 44, 0⟩
/-- `HOSTIF_HIQ_BASE.EN` (R584). -/
abbrev Fld.HOSTIF_HIQ_BASE_EN : Fld := ⟨.HOSTIF_HIQ_BASE, 0, 0⟩
/-- `HOSTIF_HIQ_BASE.LOGN` (R584). -/
abbrev Fld.HOSTIF_HIQ_BASE_LOGN : Fld := ⟨.HOSTIF_HIQ_BASE, 4, 1⟩
/-- `HOSTIF_HIQ_BASE.ADDR` (R584). -/
abbrev Fld.HOSTIF_HIQ_BASE_ADDR : Fld := ⟨.HOSTIF_HIQ_BASE, 63, 12⟩
/-- `HOSTIF_HIQ_CTL.REGION` (R584). -/
abbrev Fld.HOSTIF_HIQ_CTL_REGION : Fld := ⟨.HOSTIF_HIQ_CTL, 3, 0⟩
/-- `HOSTIF_HIQ_CTL.QUEUE` (R584). -/
abbrev Fld.HOSTIF_HIQ_CTL_QUEUE : Fld := ⟨.HOSTIF_HIQ_CTL, 13, 4⟩
/-- `HOSTIF_HIQ_CTL.VEC` (R584). -/
abbrev Fld.HOSTIF_HIQ_CTL_VEC : Fld := ⟨.HOSTIF_HIQ_CTL, 19, 14⟩
/-- `HOSTIF_HIQ_CTL.SKIP` (R584). -/
abbrev Fld.HOSTIF_HIQ_CTL_SKIP : Fld := ⟨.HOSTIF_HIQ_CTL, 20, 20⟩
/-- `HOSTIF_HIQ_CTL.RESET` (R584). -/
abbrev Fld.HOSTIF_HIQ_CTL_RESET : Fld := ⟨.HOSTIF_HIQ_CTL, 21, 21⟩
/-- `HOSTIF_HIQ_DB.TAIL` (R584). -/
abbrev Fld.HOSTIF_HIQ_DB_TAIL : Fld := ⟨.HOSTIF_HIQ_DB, 15, 0⟩
/-- `HOSTIF_HIQ_STAT.HEAD` (R584). -/
abbrev Fld.HOSTIF_HIQ_STAT_HEAD : Fld := ⟨.HOSTIF_HIQ_STAT, 15, 0⟩
/-- `HOSTIF_HIQ_STAT.HALTED` (R584). -/
abbrev Fld.HOSTIF_HIQ_STAT_HALTED : Fld := ⟨.HOSTIF_HIQ_STAT, 16, 16⟩
/-- `HOSTIF_HIQ_STAT.STATUS` (R584). -/
abbrev Fld.HOSTIF_HIQ_STAT_STATUS : Fld := ⟨.HOSTIF_HIQ_STAT, 20, 17⟩
/-- `HOSTIF_HIQ_STAT.DB_ERR` (R584). -/
abbrev Fld.HOSTIF_HIQ_STAT_DB_ERR : Fld := ⟨.HOSTIF_HIQ_STAT, 21, 21⟩
/-- `HOSTIF_HIQ_STAT.POISON_IN` (R584). -/
abbrev Fld.HOSTIF_HIQ_STAT_POISON_IN : Fld := ⟨.HOSTIF_HIQ_STAT, 22, 22⟩
/-- `HOSTIF_HOQ_BASE.EN` (R585). -/
abbrev Fld.HOSTIF_HOQ_BASE_EN : Fld := ⟨.HOSTIF_HOQ_BASE, 0, 0⟩
/-- `HOSTIF_HOQ_BASE.LOGN` (R585). -/
abbrev Fld.HOSTIF_HOQ_BASE_LOGN : Fld := ⟨.HOSTIF_HOQ_BASE, 4, 1⟩
/-- `HOSTIF_HOQ_BASE.ADDR` (R585). -/
abbrev Fld.HOSTIF_HOQ_BASE_ADDR : Fld := ⟨.HOSTIF_HOQ_BASE, 63, 12⟩
/-- `HOSTIF_HOQ_SRC.REGION` (R585). -/
abbrev Fld.HOSTIF_HOQ_SRC_REGION : Fld := ⟨.HOSTIF_HOQ_SRC, 3, 0⟩
/-- `HOSTIF_HOQ_SRC.QUEUE` (R585). -/
abbrev Fld.HOSTIF_HOQ_SRC_QUEUE : Fld := ⟨.HOSTIF_HOQ_SRC, 13, 4⟩
/-- `HOSTIF_HOQ_SRC.VEC` (R585). -/
abbrev Fld.HOSTIF_HOQ_SRC_VEC : Fld := ⟨.HOSTIF_HOQ_SRC, 19, 14⟩
/-- `HOSTIF_HOQ_DB.HEAD` (R585). -/
abbrev Fld.HOSTIF_HOQ_DB_HEAD : Fld := ⟨.HOSTIF_HOQ_DB, 15, 0⟩
/-- `HOSTIF_HOQ_MOD.CNT` (R585). -/
abbrev Fld.HOSTIF_HOQ_MOD_CNT : Fld := ⟨.HOSTIF_HOQ_MOD, 7, 0⟩
/-- `HOSTIF_HOQ_MOD.TIME` (R585). -/
abbrev Fld.HOSTIF_HOQ_MOD_TIME : Fld := ⟨.HOSTIF_HOQ_MOD, 23, 8⟩
/-- `HOSTIF_HOQ_STAT.TAIL` (R585). -/
abbrev Fld.HOSTIF_HOQ_STAT_TAIL : Fld := ⟨.HOSTIF_HOQ_STAT, 15, 0⟩
/-- `HOSTIF_HOQ_STAT.PHASE` (R585). -/
abbrev Fld.HOSTIF_HOQ_STAT_PHASE : Fld := ⟨.HOSTIF_HOQ_STAT, 16, 16⟩
/-- `HOSTIF_HOQ_STAT.FULL` (R585). -/
abbrev Fld.HOSTIF_HOQ_STAT_FULL : Fld := ⟨.HOSTIF_HOQ_STAT, 17, 17⟩
/-- `HOSTIF_HOQ_STAT.STALE` (R585). -/
abbrev Fld.HOSTIF_HOQ_STAT_STALE : Fld := ⟨.HOSTIF_HOQ_STAT, 18, 18⟩
/-- `HOSTIF_HOQ_STAT.DB_ERR` (R585). -/
abbrev Fld.HOSTIF_HOQ_STAT_DB_ERR : Fld := ⟨.HOSTIF_HOQ_STAT, 19, 19⟩
/-- `BOOT_STAT.STAGE` (R612). -/
abbrev Fld.BOOT_STAT_STAGE : Fld := ⟨.BOOT_STAT, 3, 0⟩
/-- `BOOT_STAT.SLOT` (R612). -/
abbrev Fld.BOOT_STAT_SLOT : Fld := ⟨.BOOT_STAT, 4, 4⟩
/-- `BOOT_STAT.PREF` (R612). -/
abbrev Fld.BOOT_STAT_PREF : Fld := ⟨.BOOT_STAT, 5, 5⟩
/-- `BOOT_STAT.FALLBACK` (R612). -/
abbrev Fld.BOOT_STAT_FALLBACK : Fld := ⟨.BOOT_STAT, 6, 6⟩
/-- `BOOT_STAT.CFG_DEFAULTED` (R612). -/
abbrev Fld.BOOT_STAT_CFG_DEFAULTED : Fld := ⟨.BOOT_STAT, 7, 7⟩
/-- `BOOT_STAT.HOST_READY` (R612). -/
abbrev Fld.BOOT_STAT_HOST_READY : Fld := ⟨.BOOT_STAT, 8, 8⟩
/-- `BOOT_STAT.MEM_READY` (R612). -/
abbrev Fld.BOOT_STAT_MEM_READY : Fld := ⟨.BOOT_STAT, 9, 9⟩
/-- `BOOT_STAT.PAIR0_OK` (R612). -/
abbrev Fld.BOOT_STAT_PAIR0_OK : Fld := ⟨.BOOT_STAT, 10, 10⟩
/-- `BOOT_STAT.PAIR1_OK` (R612). -/
abbrev Fld.BOOT_STAT_PAIR1_OK : Fld := ⟨.BOOT_STAT, 11, 11⟩
/-- `BOOT_STAT.ACTIVE_PAIR` (R612). -/
abbrev Fld.BOOT_STAT_ACTIVE_PAIR : Fld := ⟨.BOOT_STAT, 12, 12⟩
/-- `BOOT_STAT.PROT_LOST` (R612). -/
abbrev Fld.BOOT_STAT_PROT_LOST : Fld := ⟨.BOOT_STAT, 13, 13⟩
/-- `BOOT_STAT.ATTEMPT_A` (R612). -/
abbrev Fld.BOOT_STAT_ATTEMPT_A : Fld := ⟨.BOOT_STAT, 19, 16⟩
/-- `BOOT_STAT.ATTEMPT_B` (R612). -/
abbrev Fld.BOOT_STAT_ATTEMPT_B : Fld := ⟨.BOOT_STAT, 23, 20⟩
/-- `BOOT_STAT.LASTFAIL` (R612). -/
abbrev Fld.BOOT_STAT_LASTFAIL : Fld := ⟨.BOOT_STAT, 27, 24⟩
/-- `BOOT_VER.FW_VERSION` (R613). -/
abbrev Fld.BOOT_VER_FW_VERSION : Fld := ⟨.BOOT_VER, 31, 0⟩
/-- `BOOT_VER.FW_SVN` (R613). -/
abbrev Fld.BOOT_VER_FW_SVN : Fld := ⟨.BOOT_VER, 47, 32⟩
/-- `BOOT_VER.MIN_SVN` (R613). -/
abbrev Fld.BOOT_VER_MIN_SVN : Fld := ⟨.BOOT_VER, 63, 48⟩
/-- `BOOT_CMD.ALIVE` (R614). -/
abbrev Fld.BOOT_CMD_ALIVE : Fld := ⟨.BOOT_CMD, 0, 0⟩
/-- `BOOT_CMD.COMMIT` (R614). -/
abbrev Fld.BOOT_CMD_COMMIT : Fld := ⟨.BOOT_CMD, 1, 1⟩
/-- `BOOT_CMD.WARM` (R614). -/
abbrev Fld.BOOT_CMD_WARM : Fld := ⟨.BOOT_CMD, 2, 2⟩
/-- `BOOT_CMD.COLD` (R614). -/
abbrev Fld.BOOT_CMD_COLD : Fld := ⟨.BOOT_CMD, 3, 3⟩
/-- `BOOT_CMD.SETPREF` (R614). -/
abbrev Fld.BOOT_CMD_SETPREF : Fld := ⟨.BOOT_CMD, 4, 4⟩
/-- `BOOT_CMD.SEL` (R614). -/
abbrev Fld.BOOT_CMD_SEL : Fld := ⟨.BOOT_CMD, 5, 5⟩
/-- `BOOT_CAUSE.SOURCE` (R613). -/
abbrev Fld.BOOT_CAUSE_SOURCE : Fld := ⟨.BOOT_CAUSE, 3, 0⟩
/-- `BOOT_CAUSE.WARM` (R613). -/
abbrev Fld.BOOT_CAUSE_WARM : Fld := ⟨.BOOT_CAUSE, 4, 4⟩
/-- `BOOT_PROFSEL.PROFILE` (R614). -/
abbrev Fld.BOOT_PROFSEL_PROFILE : Fld := ⟨.BOOT_PROFSEL, 3, 0⟩
/-- `BOOT_FWCTL.PAGE` (R615). -/
abbrev Fld.BOOT_FWCTL_PAGE : Fld := ⟨.BOOT_FWCTL, 12, 0⟩
/-- `BOOT_FWCTL.ERASE` (R615). -/
abbrev Fld.BOOT_FWCTL_ERASE : Fld := ⟨.BOOT_FWCTL, 13, 13⟩
/-- `BOOT_FWCTL.GO` (R615). -/
abbrev Fld.BOOT_FWCTL_GO : Fld := ⟨.BOOT_FWCTL, 14, 14⟩
/-- `BOOT_FWCTL.RESULT` (R615). -/
abbrev Fld.BOOT_FWCTL_RESULT : Fld := ⟨.BOOT_FWCTL, 17, 15⟩
/-- `BOOT_FWCTL.TARGET` (R615). -/
abbrev Fld.BOOT_FWCTL_TARGET : Fld := ⟨.BOOT_FWCTL, 18, 18⟩
/-- `PWR_CTL.PLIM` (R641). -/
abbrev Fld.PWR_CTL_PLIM : Fld := ⟨.PWR_CTL, 12, 0⟩
/-- `PWR_STICKY.DROPOUT` (R641). -/
abbrev Fld.PWR_STICKY_DROPOUT : Fld := ⟨.PWR_STICKY, 0, 0⟩
/-- `PWR_STICKY.OV_WARN` (R641). -/
abbrev Fld.PWR_STICKY_OV_WARN : Fld := ⟨.PWR_STICKY, 1, 1⟩
/-- `PWR_STICKY.FAST_LIMIT` (R641). -/
abbrev Fld.PWR_STICKY_FAST_LIMIT : Fld := ⟨.PWR_STICKY, 2, 2⟩
/-- `PWR_STICKY.AVG_LIMIT` (R641). -/
abbrev Fld.PWR_STICKY_AVG_LIMIT : Fld := ⟨.PWR_STICKY, 3, 3⟩
/-- `PWR_STICKY.THERM_LIMIT` (R641). -/
abbrev Fld.PWR_STICKY_THERM_LIMIT : Fld := ⟨.PWR_STICKY, 4, 4⟩
/-- `PWR_STICKY.WARN` (R641). -/
abbrev Fld.PWR_STICKY_WARN : Fld := ⟨.PWR_STICKY, 5, 5⟩
/-- `PWR_STICKY.SENSOR_DEG` (R641). -/
abbrev Fld.PWR_STICKY_SENSOR_DEG : Fld := ⟨.PWR_STICKY, 6, 6⟩
/-- `PWR_STAT.PIN_AVG` (R642). -/
abbrev Fld.PWR_STAT_PIN_AVG : Fld := ⟨.PWR_STAT, 12, 0⟩
/-- `PWR_STAT.CAP` (R642). -/
abbrev Fld.PWR_STAT_CAP : Fld := ⟨.PWR_STAT, 18, 13⟩
/-- `PWR_STAT.IN_RANGE` (R642). -/
abbrev Fld.PWR_STAT_IN_RANGE : Fld := ⟨.PWR_STAT, 19, 19⟩
/-- `PWR_STAT.RIDING` (R642). -/
abbrev Fld.PWR_STAT_RIDING : Fld := ⟨.PWR_STAT, 20, 20⟩
/-- `PWR_STAT.WARN_OUT` (R642). -/
abbrev Fld.PWR_STAT_WARN_OUT : Fld := ⟨.PWR_STAT, 21, 21⟩
/-- `PWR_STAT.POWER_LIMITING` (R642). -/
abbrev Fld.PWR_STAT_POWER_LIMITING : Fld := ⟨.PWR_STAT, 22, 22⟩
/-- `PWR_STAT.THERMAL_LIMITING` (R642). -/
abbrev Fld.PWR_STAT_THERMAL_LIMITING : Fld := ⟨.PWR_STAT, 23, 23⟩
/-- `PWR_STAT.PARKED` (R642). -/
abbrev Fld.PWR_STAT_PARKED : Fld := ⟨.PWR_STAT, 47, 32⟩
/-- `PWR_STAT.SELFREF` (R642). -/
abbrev Fld.PWR_STAT_SELFREF : Fld := ⟨.PWR_STAT, 55, 48⟩
/-- `PWR_ENERGY.ENERGY` (R643). -/
abbrev Fld.PWR_ENERGY_ENERGY : Fld := ⟨.PWR_ENERGY, 63, 0⟩
/-- `PWR_TRIPLOG.CAUSE` (R643). -/
abbrev Fld.PWR_TRIPLOG_CAUSE : Fld := ⟨.PWR_TRIPLOG, 3, 0⟩
/-- `PWR_TRIPLOG.VALID` (R643). -/
abbrev Fld.PWR_TRIPLOG_VALID : Fld := ⟨.PWR_TRIPLOG, 4, 4⟩
/-- `PWR_TRIPLOG.SENSOR` (R643). -/
abbrev Fld.PWR_TRIPLOG_SENSOR : Fld := ⟨.PWR_TRIPLOG, 15, 8⟩
/-- `PWR_TRIPLOG.VALUE` (R643). -/
abbrev Fld.PWR_TRIPLOG_VALUE : Fld := ⟨.PWR_TRIPLOG, 31, 16⟩
/-- `PWR_CNT_DROPOUT.COUNT` (R643). -/
abbrev Fld.PWR_CNT_DROPOUT_COUNT : Fld := ⟨.PWR_CNT_DROPOUT, 63, 0⟩
/-- `THM_SENSOR.VALUE` (R644). -/
abbrev Fld.THM_SENSOR_VALUE : Fld := ⟨.THM_SENSOR, 15, 0⟩
/-- `THM_SENSOR.VALID` (R644). -/
abbrev Fld.THM_SENSOR_VALID : Fld := ⟨.THM_SENSOR, 16, 16⟩
/-- `THM_SENSOR.WARN` (R644). -/
abbrev Fld.THM_SENSOR_WARN : Fld := ⟨.THM_SENSOR, 17, 17⟩
/-- `THM_SENSOR.LIMIT` (R644). -/
abbrev Fld.THM_SENSOR_LIMIT : Fld := ⟨.THM_SENSOR, 18, 18⟩
/-- `THM_SENSOR.DEGRADED` (R644). -/
abbrev Fld.THM_SENSOR_DEGRADED : Fld := ⟨.THM_SENSOR, 19, 19⟩
/-- `HUB_HARD_STAT.PASSES` (R645). -/
abbrev Fld.HUB_HARD_STAT_PASSES : Fld := ⟨.HUB_HARD_STAT, 15, 0⟩
/-- `HUB_HARD_STAT.CORRECTED` (R645). -/
abbrev Fld.HUB_HARD_STAT_CORRECTED : Fld := ⟨.HUB_HARD_STAT, 31, 16⟩
/-- `HUB_HARD_STAT.UNRESOLVED` (R645). -/
abbrev Fld.HUB_HARD_STAT_UNRESOLVED : Fld := ⟨.HUB_HARD_STAT, 47, 32⟩
/-- `HUB_HARD_ADDR.OFFSET` (R645). -/
abbrev Fld.HUB_HARD_ADDR_OFFSET : Fld := ⟨.HUB_HARD_ADDR, 31, 0⟩
/-- `HUB_HARD_ADDR.PART` (R645). -/
abbrev Fld.HUB_HARD_ADDR_PART : Fld := ⟨.HUB_HARD_ADDR, 35, 32⟩
/-- `HUB_HARD_ADDR.VALID` (R645). -/
abbrev Fld.HUB_HARD_ADDR_VALID : Fld := ⟨.HUB_HARD_ADDR, 63, 63⟩
/-- `RGN_CLK.MIN` (R37). -/
abbrev Fld.RGN_CLK_MIN : Fld := ⟨.RGN_CLK, 5, 0⟩
/-- `RGN_CLK.MAX` (R37). -/
abbrev Fld.RGN_CLK_MAX : Fld := ⟨.RGN_CLK, 13, 8⟩
/-- `RGN_CLK.CUR` (R37). -/
abbrev Fld.RGN_CLK_CUR : Fld := ⟨.RGN_CLK, 21, 16⟩
/-- `RGN_CLK.CAP` (R37). -/
abbrev Fld.RGN_CLK_CAP : Fld := ⟨.RGN_CLK, 29, 24⟩
/-- `RGN_CLK.FIXED` (R37). -/
abbrev Fld.RGN_CLK_FIXED : Fld := ⟨.RGN_CLK, 30, 30⟩
/-- `RGN_MEMERR.CE_CNT` (R212). -/
abbrev Fld.RGN_MEMERR_CE_CNT : Fld := ⟨.RGN_MEMERR, 31, 0⟩
/-- `RGN_MEMERR.UE_CNT` (R212). -/
abbrev Fld.RGN_MEMERR_UE_CNT : Fld := ⟨.RGN_MEMERR, 47, 32⟩
/-- `RGN_MEMERR.SCRUB_PASS` (R212). -/
abbrev Fld.RGN_MEMERR_SCRUB_PASS : Fld := ⟨.RGN_MEMERR, 63, 48⟩
/-- `RGN_MEMERR_ADDR.ADDR` (R213). -/
abbrev Fld.RGN_MEMERR_ADDR_ADDR : Fld := ⟨.RGN_MEMERR_ADDR, 35, 0⟩
/-- `RGN_MEMERR_ADDR.VALID` (R213). -/
abbrev Fld.RGN_MEMERR_ADDR_VALID : Fld := ⟨.RGN_MEMERR_ADDR, 63, 63⟩
/-- `QP_POOL_STAT.FREE` (R206). -/
abbrev Fld.QP_POOL_STAT_FREE : Fld := ⟨.QP_POOL_STAT, 16, 0⟩
/-- `QP_POOL_STAT.RSV_SUM` (R206). -/
abbrev Fld.QP_POOL_STAT_RSV_SUM : Fld := ⟨.QP_POOL_STAT, 33, 17⟩
/-- `QP_POOL_STAT.ENABLED` (R206). -/
abbrev Fld.QP_POOL_STAT_ENABLED : Fld := ⟨.QP_POOL_STAT, 44, 34⟩
/-- `QP_STICKY.RSV_OVER` (R207). -/
abbrev Fld.QP_STICKY_RSV_OVER : Fld := ⟨.QP_STICKY, 0, 0⟩
/-- `QP_STICKY.OVERLONG` (R207). -/
abbrev Fld.QP_STICKY_OVERLONG : Fld := ⟨.QP_STICKY, 1, 1⟩
/-- `QP_STICKY.MALFORMED` (R207). -/
abbrev Fld.QP_STICKY_MALFORMED : Fld := ⟨.QP_STICKY, 2, 2⟩
/-- `QP_STICKY.BROKEN` (R207). -/
abbrev Fld.QP_STICKY_BROKEN : Fld := ⟨.QP_STICKY, 3, 3⟩
/-- `QP_STICKY.STALE` (R207). -/
abbrev Fld.QP_STICKY_STALE : Fld := ⟨.QP_STICKY, 4, 4⟩
/-- `QP_STICKY.POISON_IN` (R207). -/
abbrev Fld.QP_STICKY_POISON_IN : Fld := ⟨.QP_STICKY, 5, 5⟩
/-- `QP_STICKY.BAD_CFG` (R207). -/
abbrev Fld.QP_STICKY_BAD_CFG : Fld := ⟨.QP_STICKY, 6, 6⟩
/-- `QP_MEMERR.CE_CNT` (R212). -/
abbrev Fld.QP_MEMERR_CE_CNT : Fld := ⟨.QP_MEMERR, 31, 0⟩
/-- `QP_MEMERR.UE_CNT` (R212). -/
abbrev Fld.QP_MEMERR_UE_CNT : Fld := ⟨.QP_MEMERR, 47, 32⟩
/-- `QP_MEMERR.SCRUB_PASS` (R212). -/
abbrev Fld.QP_MEMERR_SCRUB_PASS : Fld := ⟨.QP_MEMERR, 63, 48⟩
/-- `QP_MEMERR_ADDR.ADDR` (R213). -/
abbrev Fld.QP_MEMERR_ADDR_ADDR : Fld := ⟨.QP_MEMERR_ADDR, 35, 0⟩
/-- `QP_MEMERR_ADDR.VALID` (R213). -/
abbrev Fld.QP_MEMERR_ADDR_VALID : Fld := ⟨.QP_MEMERR_ADDR, 63, 63⟩
/-- `QP_QCFG.EN` (R208). -/
abbrev Fld.QP_QCFG_EN : Fld := ⟨.QP_QCFG, 0, 0⟩
/-- `QP_QCFG.CKIND` (R208). -/
abbrev Fld.QP_QCFG_CKIND : Fld := ⟨.QP_QCFG, 3, 1⟩
/-- `QP_QCFG.CIDX` (R208). -/
abbrev Fld.QP_QCFG_CIDX : Fld := ⟨.QP_QCFG, 6, 4⟩
/-- `QP_QCFG.MAX_CELLS` (R208). -/
abbrev Fld.QP_QCFG_MAX_CELLS : Fld := ⟨.QP_QCFG, 24, 8⟩
/-- `QP_QCFG.RESERVE` (R208). -/
abbrev Fld.QP_QCFG_RESERVE : Fld := ⟨.QP_QCFG, 48, 32⟩
/-- `QP_QCFG.STALE` (R208). -/
abbrev Fld.QP_QCFG_STALE : Fld := ⟨.QP_QCFG, 63, 52⟩
/-- `QP_QSTAT.PKTS` (R209). -/
abbrev Fld.QP_QSTAT_PKTS : Fld := ⟨.QP_QSTAT, 19, 0⟩
/-- `QP_QSTAT.CELLS` (R209). -/
abbrev Fld.QP_QSTAT_CELLS : Fld := ⟨.QP_QSTAT, 36, 20⟩
/-- `QP_QSTAT.OPEN` (R209). -/
abbrev Fld.QP_QSTAT_OPEN : Fld := ⟨.QP_QSTAT, 41, 37⟩
/-- `QP_QSTAT.FLUSH_PEND` (R209). -/
abbrev Fld.QP_QSTAT_FLUSH_PEND : Fld := ⟨.QP_QSTAT, 42, 42⟩
/-- `QP_QSTAT.BROKEN` (R209). -/
abbrev Fld.QP_QSTAT_BROKEN : Fld := ⟨.QP_QSTAT, 43, 43⟩
/-- `QP_QSTAT.STALE_FIRED` (R209). -/
abbrev Fld.QP_QSTAT_STALE_FIRED : Fld := ⟨.QP_QSTAT, 44, 44⟩
/-- `QP_QSTAT.OVERLONG` (R209). -/
abbrev Fld.QP_QSTAT_OVERLONG : Fld := ⟨.QP_QSTAT, 45, 45⟩
/-- `QP_QSTAT.MALFORMED` (R209). -/
abbrev Fld.QP_QSTAT_MALFORMED : Fld := ⟨.QP_QSTAT, 46, 46⟩
/-- `QP_QSTAT.POISON_IN` (R209). -/
abbrev Fld.QP_QSTAT_POISON_IN : Fld := ⟨.QP_QSTAT, 47, 47⟩
/-- `QP_QCMD.FLUSH` (R210). -/
abbrev Fld.QP_QCMD_FLUSH : Fld := ⟨.QP_QCMD, 0, 0⟩
/-- `QP_QCMD.RESET` (R210). -/
abbrev Fld.QP_QCMD_RESET : Fld := ⟨.QP_QCMD, 1, 1⟩
/-- `QP_QCNT.LINKED` (R211). -/
abbrev Fld.QP_QCNT_LINKED : Fld := ⟨.QP_QCNT, 63, 0⟩
/-- `RACK_CTL.EN` (R285). -/
abbrev Fld.RACK_CTL_EN : Fld := ⟨.RACK_CTL, 0, 0⟩
/-- `RACK_CTL.SPILL_EN` (R285). -/
abbrev Fld.RACK_CTL_SPILL_EN : Fld := ⟨.RACK_CTL, 1, 1⟩
/-- `RACK_CTL.XSLOTS` (R285). -/
abbrev Fld.RACK_CTL_XSLOTS : Fld := ⟨.RACK_CTL, 4, 2⟩
/-- `RACK_STAT.BUSY` (R286). -/
abbrev Fld.RACK_STAT_BUSY : Fld := ⟨.RACK_STAT, 0, 0⟩
/-- `RACK_STAT.DRAIN` (R286). -/
abbrev Fld.RACK_STAT_DRAIN : Fld := ⟨.RACK_STAT, 8, 1⟩
/-- `RACK_STICKY.FULL` (R287). -/
abbrev Fld.RACK_STICKY_FULL : Fld := ⟨.RACK_STICKY, 0, 0⟩
/-- `RACK_STICKY.MISMATCH` (R287). -/
abbrev Fld.RACK_STICKY_MISMATCH : Fld := ⟨.RACK_STICKY, 1, 1⟩
/-- `RACK_STICKY.LOST` (R287). -/
abbrev Fld.RACK_STICKY_LOST : Fld := ⟨.RACK_STICKY, 2, 2⟩
/-- `RACK_STICKY.HOST_ERR` (R287). -/
abbrev Fld.RACK_STICKY_HOST_ERR : Fld := ⟨.RACK_STICKY, 3, 3⟩
/-- `RACK_STICKY.CRC_ERR` (R287). -/
abbrev Fld.RACK_STICKY_CRC_ERR : Fld := ⟨.RACK_STICKY, 4, 4⟩
/-- `RACK_STICKY.LEFTOVER` (R287). -/
abbrev Fld.RACK_STICKY_LEFTOVER : Fld := ⟨.RACK_STICKY, 5, 5⟩
/-- `RACK_STICKY.PINNED` (R287). -/
abbrev Fld.RACK_STICKY_PINNED : Fld := ⟨.RACK_STICKY, 6, 6⟩
/-- `RACK_STICKY.STALL` (R287). -/
abbrev Fld.RACK_STICKY_STALL : Fld := ⟨.RACK_STICKY, 7, 7⟩
/-- `RACK_STICKY.CFG_BAD` (R287). -/
abbrev Fld.RACK_STICKY_CFG_BAD : Fld := ⟨.RACK_STICKY, 8, 8⟩
/-- `RACK_AREA.BASE` (R288). -/
abbrev Fld.RACK_AREA_BASE : Fld := ⟨.RACK_AREA, 12, 0⟩
/-- `RACK_AREA.PAGES` (R288). -/
abbrev Fld.RACK_AREA_PAGES : Fld := ⟨.RACK_AREA, 28, 16⟩
/-- `RACK_LANE_CFG.QUOTA` (R289). -/
abbrev Fld.RACK_LANE_CFG_QUOTA : Fld := ⟨.RACK_LANE_CFG, 12, 0⟩
/-- `RACK_LANE_CFG.HIWAT` (R289). -/
abbrev Fld.RACK_LANE_CFG_HIWAT : Fld := ⟨.RACK_LANE_CFG, 28, 16⟩
/-- `RACK_LANE_CFG.PF_FRAMES` (R289). -/
abbrev Fld.RACK_LANE_CFG_PF_FRAMES : Fld := ⟨.RACK_LANE_CFG, 38, 32⟩
/-- `RACK_LANE_CFG.HPAGES` (R289). -/
abbrev Fld.RACK_LANE_CFG_HPAGES : Fld := ⟨.RACK_LANE_CFG, 58, 39⟩
/-- `RACK_LANE_HOST.BASE` (R290). -/
abbrev Fld.RACK_LANE_HOST_BASE : Fld := ⟨.RACK_LANE_HOST, 56, 12⟩
/-- `RACK_LANE_STAT.DEPTH` (R291). -/
abbrev Fld.RACK_LANE_STAT_DEPTH : Fld := ⟨.RACK_LANE_STAT, 6, 0⟩
/-- `RACK_LANE_STAT.DRAIN` (R291). -/
abbrev Fld.RACK_LANE_STAT_DRAIN : Fld := ⟨.RACK_LANE_STAT, 7, 7⟩
/-- `RACK_LANE_STAT.RES_PAGES` (R291). -/
abbrev Fld.RACK_LANE_STAT_RES_PAGES : Fld := ⟨.RACK_LANE_STAT, 20, 8⟩
/-- `RACK_LANE_STAT.SPILLED` (R291). -/
abbrev Fld.RACK_LANE_STAT_SPILLED : Fld := ⟨.RACK_LANE_STAT, 27, 21⟩
/-- `RACK_LANE_STAT.SPILLING` (R291). -/
abbrev Fld.RACK_LANE_STAT_SPILLING : Fld := ⟨.RACK_LANE_STAT, 28, 28⟩
/-- `RACK_LANE_STAT.FETCHING` (R291). -/
abbrev Fld.RACK_LANE_STAT_FETCHING : Fld := ⟨.RACK_LANE_STAT, 29, 29⟩
/-- `RACK_LANE_STAT.TOP_TAG` (R291). -/
abbrev Fld.RACK_LANE_STAT_TOP_TAG : Fld := ⟨.RACK_LANE_STAT, 63, 32⟩
/-- `RACK_LANE_HUSE.HUSED` (R292). -/
abbrev Fld.RACK_LANE_HUSE_HUSED : Fld := ⟨.RACK_LANE_HUSE, 19, 0⟩
/-- `RACK_CNT.COUNT` (R293). -/
abbrev Fld.RACK_CNT_COUNT : Fld := ⟨.RACK_CNT, 63, 0⟩
/-- `SOLV_CFG.EN` (R348). -/
abbrev Fld.SOLV_CFG_EN : Fld := ⟨.SOLV_CFG, 0, 0⟩
/-- `SOLV_CFG.SQ_EN` (R348). -/
abbrev Fld.SOLV_CFG_SQ_EN : Fld := ⟨.SOLV_CFG, 1, 1⟩
/-- `SOLV_CFG.SQ` (R348). -/
abbrev Fld.SOLV_CFG_SQ : Fld := ⟨.SOLV_CFG, 11, 2⟩
/-- `SOLV_CFG.DMAX` (R348). -/
abbrev Fld.SOLV_CFG_DMAX : Fld := ⟨.SOLV_CFG, 31, 16⟩
/-- `SOLV_STAT.BUSY` (R349). -/
abbrev Fld.SOLV_STAT_BUSY : Fld := ⟨.SOLV_STAT, 0, 0⟩
/-- `SOLV_STAT.ACTIVE` (R349). -/
abbrev Fld.SOLV_STAT_ACTIVE : Fld := ⟨.SOLV_STAT, 3, 1⟩
/-- `SOLV_STAT.SLOTS` (R349). -/
abbrev Fld.SOLV_STAT_SLOTS : Fld := ⟨.SOLV_STAT, 10, 4⟩
/-- `SOLV_STAT.LENDING` (R349). -/
abbrev Fld.SOLV_STAT_LENDING : Fld := ⟨.SOLV_STAT, 17, 11⟩
/-- `SOLV_STAT.LOADING` (R349). -/
abbrev Fld.SOLV_STAT_LOADING : Fld := ⟨.SOLV_STAT, 18, 18⟩
/-- `SOLV_STAT.INSTALLING` (R349). -/
abbrev Fld.SOLV_STAT_INSTALLING : Fld := ⟨.SOLV_STAT, 19, 19⟩
/-- `SOLV_STICKY.CHK` (R350). -/
abbrev Fld.SOLV_STICKY_CHK : Fld := ⟨.SOLV_STICKY, 0, 0⟩
/-- `SOLV_STICKY.POISON` (R350). -/
abbrev Fld.SOLV_STICKY_POISON : Fld := ⟨.SOLV_STICKY, 1, 1⟩
/-- `SOLV_STICKY.ILL` (R350). -/
abbrev Fld.SOLV_STICKY_ILL : Fld := ⟨.SOLV_STICKY, 2, 2⟩
/-- `SOLV_STICKY.CAPPED` (R350). -/
abbrev Fld.SOLV_STICKY_CAPPED : Fld := ⟨.SOLV_STICKY, 3, 3⟩
/-- `SOLV_STICKY.ABANDONED` (R350). -/
abbrev Fld.SOLV_STICKY_ABANDONED : Fld := ⟨.SOLV_STICKY, 4, 4⟩
/-- `SOLV_STICKY.WARMREJ` (R350). -/
abbrev Fld.SOLV_STICKY_WARMREJ : Fld := ⟨.SOLV_STICKY, 5, 5⟩
/-- `SOLV_STICKY.REJECT` (R350). -/
abbrev Fld.SOLV_STICKY_REJECT : Fld := ⟨.SOLV_STICKY, 6, 6⟩
/-- `SOLV_STICKY.CFG_BAD` (R350). -/
abbrev Fld.SOLV_STICKY_CFG_BAD : Fld := ⟨.SOLV_STICKY, 7, 7⟩
/-- `SOLV_STICKY.MWAIT` (R350). -/
abbrev Fld.SOLV_STICKY_MWAIT : Fld := ⟨.SOLV_STICKY, 8, 8⟩
/-- `SOLV_STICKY.CQ_ERR` (R350). -/
abbrev Fld.SOLV_STICKY_CQ_ERR : Fld := ⟨.SOLV_STICKY, 9, 9⟩
/-- `SOLV_CMD.DROP` (R351). -/
abbrev Fld.SOLV_CMD_DROP : Fld := ⟨.SOLV_CMD, 0, 0⟩
/-- `SOLV_RTAB.ADDR` (R352). -/
abbrev Fld.SOLV_RTAB_ADDR : Fld := ⟨.SOLV_RTAB, 38, 12⟩
/-- `SOLV_RTAB.COUNT` (R352). -/
abbrev Fld.SOLV_RTAB_COUNT : Fld := ⟨.SOLV_RTAB, 51, 39⟩
/-- `SOLV_STAGE.BASE` (R352). -/
abbrev Fld.SOLV_STAGE_BASE : Fld := ⟨.SOLV_STAGE, 12, 0⟩
/-- `SOLV_STAGE.PAGES` (R352). -/
abbrev Fld.SOLV_STAGE_PAGES : Fld := ⟨.SOLV_STAGE, 28, 16⟩
/-- `SOLV_TICKET.NEXT` (R351). -/
abbrev Fld.SOLV_TICKET_NEXT : Fld := ⟨.SOLV_TICKET, 11, 0⟩
/-- `SOLV_TICKET.LAST_DONE` (R351). -/
abbrev Fld.SOLV_TICKET_LAST_DONE : Fld := ⟨.SOLV_TICKET, 27, 16⟩
/-- `SOLV_CNT.COUNT` (R353). -/
abbrev Fld.SOLV_CNT_COUNT : Fld := ⟨.SOLV_CNT, 63, 0⟩
/-- `INT_RGN_FQ.EN` (R528). -/
abbrev Fld.INT_RGN_FQ_EN : Fld := ⟨.INT_RGN_FQ, 0, 0⟩
/-- `INT_RGN_FQ.QUEUE` (R528). -/
abbrev Fld.INT_RGN_FQ_QUEUE : Fld := ⟨.INT_RGN_FQ, 10, 1⟩
/-- `INT_RGN_ARB.ORIG` (R528). -/
abbrev Fld.INT_RGN_ARB_ORIG : Fld := ⟨.INT_RGN_ARB, 9, 0⟩
/-- `INT_RGN_ARB.ARBU` (R528). -/
abbrev Fld.INT_RGN_ARB_ARBU : Fld := ⟨.INT_RGN_ARB, 19, 10⟩
/-- `INT_RGN_ARB.OUTCOME` (R528). -/
abbrev Fld.INT_RGN_ARB_OUTCOME : Fld := ⟨.INT_RGN_ARB, 22, 20⟩
/-- `INT_RGN_ARB.INJECTED` (R528). -/
abbrev Fld.INT_RGN_ARB_INJECTED : Fld := ⟨.INT_RGN_ARB, 23, 23⟩
/-- `INT_RGN_ARB.TILE_SEQ` (R528). -/
abbrev Fld.INT_RGN_ARB_TILE_SEQ : Fld := ⟨.INT_RGN_ARB, 47, 32⟩
/-- `CLU_CLK.MIN` (R37). -/
abbrev Fld.CLU_CLK_MIN : Fld := ⟨.CLU_CLK, 5, 0⟩
/-- `CLU_CLK.MAX` (R37). -/
abbrev Fld.CLU_CLK_MAX : Fld := ⟨.CLU_CLK, 13, 8⟩
/-- `CLU_CLK.CUR` (R37). -/
abbrev Fld.CLU_CLK_CUR : Fld := ⟨.CLU_CLK, 21, 16⟩
/-- `CLU_CLK.CAP` (R37). -/
abbrev Fld.CLU_CLK_CAP : Fld := ⟨.CLU_CLK, 29, 24⟩
/-- `CLU_CLK.FIXED` (R37). -/
abbrev Fld.CLU_CLK_FIXED : Fld := ⟨.CLU_CLK, 30, 30⟩
/-- `CLU_SEQ_CTL.EN` (R252). -/
abbrev Fld.CLU_SEQ_CTL_EN : Fld := ⟨.CLU_SEQ_CTL, 0, 0⟩
/-- `CLU_SEQ_CTL.CMDQ` (R252). -/
abbrev Fld.CLU_SEQ_CTL_CMDQ : Fld := ⟨.CLU_SEQ_CTL, 10, 1⟩
/-- `CLU_SEQ_CTL.UMASK` (R252). -/
abbrev Fld.CLU_SEQ_CTL_UMASK : Fld := ⟨.CLU_SEQ_CTL, 18, 11⟩
/-- `CLU_SEQ_STAT.STATE` (R253). -/
abbrev Fld.CLU_SEQ_STAT_STATE : Fld := ⟨.CLU_SEQ_STAT, 2, 0⟩
/-- `CLU_SEQ_STAT.HALT_CAUSE` (R253). -/
abbrev Fld.CLU_SEQ_STAT_HALT_CAUSE : Fld := ⟨.CLU_SEQ_STAT, 6, 3⟩
/-- `CLU_SEQ_STAT.PHASE` (R253). -/
abbrev Fld.CLU_SEQ_STAT_PHASE : Fld := ⟨.CLU_SEQ_STAT, 9, 7⟩
/-- `CLU_SEQ_STAT.DEPTH` (R253). -/
abbrev Fld.CLU_SEQ_STAT_DEPTH : Fld := ⟨.CLU_SEQ_STAT, 12, 10⟩
/-- `CLU_SEQ_STAT.OUTST` (R253). -/
abbrev Fld.CLU_SEQ_STAT_OUTST : Fld := ⟨.CLU_SEQ_STAT, 18, 13⟩
/-- `CLU_SEQ_CMD.STOP` (R254). -/
abbrev Fld.CLU_SEQ_CMD_STOP : Fld := ⟨.CLU_SEQ_CMD, 0, 0⟩
/-- `CLU_SEQ_CMD.RESUME` (R254). -/
abbrev Fld.CLU_SEQ_CMD_RESUME : Fld := ⟨.CLU_SEQ_CMD, 1, 1⟩
/-- `CLU_SEQ_STICKY.BAD_CMD` (R255). -/
abbrev Fld.CLU_SEQ_STICKY_BAD_CMD : Fld := ⟨.CLU_SEQ_STICKY, 0, 0⟩
/-- `CLU_SEQ_STICKY.DENIED` (R255). -/
abbrev Fld.CLU_SEQ_STICKY_DENIED : Fld := ⟨.CLU_SEQ_STICKY, 1, 1⟩
/-- `CLU_SEQ_STICKY.CANCELLED` (R255). -/
abbrev Fld.CLU_SEQ_STICKY_CANCELLED : Fld := ⟨.CLU_SEQ_STICKY, 2, 2⟩
/-- `CLU_SEQ_STICKY.STALE_END` (R255). -/
abbrev Fld.CLU_SEQ_STICKY_STALE_END : Fld := ⟨.CLU_SEQ_STICKY, 3, 3⟩
/-- `CLU_SEQ_STICKY.QUEUE_ERR` (R255). -/
abbrev Fld.CLU_SEQ_STICKY_QUEUE_ERR : Fld := ⟨.CLU_SEQ_STICKY, 4, 4⟩
/-- `CLU_SEQ_STICKY.POISON_CMD` (R255). -/
abbrev Fld.CLU_SEQ_STICKY_POISON_CMD : Fld := ⟨.CLU_SEQ_STICKY, 5, 5⟩
/-- `CLU_SEQ_STICKY.FLAGS` (R255). -/
abbrev Fld.CLU_SEQ_STICKY_FLAGS : Fld := ⟨.CLU_SEQ_STICKY, 11, 6⟩
/-- `CLU_SEQ_POS.OFFSET` (R256). -/
abbrev Fld.CLU_SEQ_POS_OFFSET : Fld := ⟨.CLU_SEQ_POS, 23, 0⟩
/-- `CLU_SEQ_POS.RTN` (R256). -/
abbrev Fld.CLU_SEQ_POS_RTN : Fld := ⟨.CLU_SEQ_POS, 29, 24⟩
/-- `CLU_SEQ_POS.IN_RTN` (R256). -/
abbrev Fld.CLU_SEQ_POS_IN_RTN : Fld := ⟨.CLU_SEQ_POS, 30, 30⟩
/-- `CLU_SEQ_POS.LAST_TAG` (R256). -/
abbrev Fld.CLU_SEQ_POS_LAST_TAG : Fld := ⟨.CLU_SEQ_POS, 47, 32⟩
/-- `CLU_SEQ_POS.LEPOCH` (R256). -/
abbrev Fld.CLU_SEQ_POS_LEPOCH : Fld := ⟨.CLU_SEQ_POS, 63, 48⟩
/-- `CLU_SEQ_GRP.OUT_0` (R257). -/
abbrev Fld.CLU_SEQ_GRP_OUT_0 : Fld := ⟨.CLU_SEQ_GRP, 5, 0⟩
/-- `CLU_SEQ_GRP.OUT_1` (R257). -/
abbrev Fld.CLU_SEQ_GRP_OUT_1 : Fld := ⟨.CLU_SEQ_GRP, 11, 6⟩
/-- `CLU_SEQ_GRP.OUT_2` (R257). -/
abbrev Fld.CLU_SEQ_GRP_OUT_2 : Fld := ⟨.CLU_SEQ_GRP, 17, 12⟩
/-- `CLU_SEQ_GRP.OUT_3` (R257). -/
abbrev Fld.CLU_SEQ_GRP_OUT_3 : Fld := ⟨.CLU_SEQ_GRP, 23, 18⟩
/-- `CLU_SEQ_GRP.OUT_4` (R257). -/
abbrev Fld.CLU_SEQ_GRP_OUT_4 : Fld := ⟨.CLU_SEQ_GRP, 29, 24⟩
/-- `CLU_SEQ_GRP.OUT_5` (R257). -/
abbrev Fld.CLU_SEQ_GRP_OUT_5 : Fld := ⟨.CLU_SEQ_GRP, 35, 30⟩
/-- `CLU_SEQ_GRP.OUT_6` (R257). -/
abbrev Fld.CLU_SEQ_GRP_OUT_6 : Fld := ⟨.CLU_SEQ_GRP, 41, 36⟩
/-- `CLU_SEQ_GRP.OUT_7` (R257). -/
abbrev Fld.CLU_SEQ_GRP_OUT_7 : Fld := ⟨.CLU_SEQ_GRP, 47, 42⟩
/-- `CLU_SEQ_SCHED.VALUE` (R258). -/
abbrev Fld.CLU_SEQ_SCHED_VALUE : Fld := ⟨.CLU_SEQ_SCHED, 31, 0⟩
/-- `CLU_SEQ_CNT.COUNT` (R258). -/
abbrev Fld.CLU_SEQ_CNT_COUNT : Fld := ⟨.CLU_SEQ_CNT, 63, 0⟩
/-- `CLU_SEQ_RTN.ADDR` (R258). -/
abbrev Fld.CLU_SEQ_RTN_ADDR : Fld := ⟨.CLU_SEQ_RTN, 31, 0⟩
/-- `CLU_SEQ_RTN.WORDS` (R258). -/
abbrev Fld.CLU_SEQ_RTN_WORDS : Fld := ⟨.CLU_SEQ_RTN, 54, 32⟩
/-- `CLU_SEQ_RTN.VALID` (R258). -/
abbrev Fld.CLU_SEQ_RTN_VALID : Fld := ⟨.CLU_SEQ_RTN, 63, 63⟩
/-- `PRS_CFG.EN` (R322). -/
abbrev Fld.PRS_CFG_EN : Fld := ⟨.PRS_CFG, 0, 0⟩
/-- `PRS_CFG.RATE` (R322). -/
abbrev Fld.PRS_CFG_RATE : Fld := ⟨.PRS_CFG, 7, 1⟩
/-- `PRS_STAT.BUSY` (R323). -/
abbrev Fld.PRS_STAT_BUSY : Fld := ⟨.PRS_STAT, 0, 0⟩
/-- `PRS_STAT.ENTRIES` (R323). -/
abbrev Fld.PRS_STAT_ENTRIES : Fld := ⟨.PRS_STAT, 4, 1⟩
/-- `PRS_STAT.SLOTS` (R323). -/
abbrev Fld.PRS_STAT_SLOTS : Fld := ⟨.PRS_STAT, 11, 5⟩
/-- `PRS_STAT.CAPT` (R323). -/
abbrev Fld.PRS_STAT_CAPT : Fld := ⟨.PRS_STAT, 21, 12⟩
/-- `PRS_STICKY.NF` (R324). -/
abbrev Fld.PRS_STICKY_NF : Fld := ⟨.PRS_STICKY, 0, 0⟩
/-- `PRS_STICKY.OVF` (R324). -/
abbrev Fld.PRS_STICKY_OVF : Fld := ⟨.PRS_STICKY, 1, 1⟩
/-- `PRS_STICKY.POISON` (R324). -/
abbrev Fld.PRS_STICKY_POISON : Fld := ⟨.PRS_STICKY, 2, 2⟩
/-- `PRS_STICKY.UNBOUND` (R324). -/
abbrev Fld.PRS_STICKY_UNBOUND : Fld := ⟨.PRS_STICKY, 3, 3⟩
/-- `PRS_STICKY.NFSKIP` (R324). -/
abbrev Fld.PRS_STICKY_NFSKIP : Fld := ⟨.PRS_STICKY, 4, 4⟩
/-- `PRS_STICKY.LEFTOVER` (R324). -/
abbrev Fld.PRS_STICKY_LEFTOVER : Fld := ⟨.PRS_STICKY, 5, 5⟩
/-- `PRS_STICKY.STALL` (R324). -/
abbrev Fld.PRS_STICKY_STALL : Fld := ⟨.PRS_STICKY, 6, 6⟩
/-- `PRS_STICKY.BAD_DESC` (R324). -/
abbrev Fld.PRS_STICKY_BAD_DESC : Fld := ⟨.PRS_STICKY, 7, 7⟩
/-- `PRS_ENTRY.VALID` (R325). -/
abbrev Fld.PRS_ENTRY_VALID : Fld := ⟨.PRS_ENTRY, 0, 0⟩
/-- `PRS_ENTRY.BLOCK` (R325). -/
abbrev Fld.PRS_ENTRY_BLOCK : Fld := ⟨.PRS_ENTRY, 24, 1⟩
/-- `PRS_ENTRY.CONTRIB` (R325). -/
abbrev Fld.PRS_ENTRY_CONTRIB : Fld := ⟨.PRS_ENTRY, 40, 25⟩
/-- `PRS_ENTRY.TFIRST` (R325). -/
abbrev Fld.PRS_ENTRY_TFIRST : Fld := ⟨.PRS_ENTRY, 50, 41⟩
/-- `PRS_ENTRY.TCOUNT` (R325). -/
abbrev Fld.PRS_ENTRY_TCOUNT : Fld := ⟨.PRS_ENTRY, 57, 51⟩
/-- `PRS_ENTRY.NF` (R325). -/
abbrev Fld.PRS_ENTRY_NF : Fld := ⟨.PRS_ENTRY, 58, 58⟩
/-- `PRS_ENTRY.OVF` (R325). -/
abbrev Fld.PRS_ENTRY_OVF : Fld := ⟨.PRS_ENTRY, 59, 59⟩
/-- `PRS_ENTRY.POISON` (R325). -/
abbrev Fld.PRS_ENTRY_POISON : Fld := ⟨.PRS_ENTRY, 60, 60⟩
/-- `PRS_ENTRY.BOUND` (R325). -/
abbrev Fld.PRS_ENTRY_BOUND : Fld := ⟨.PRS_ENTRY, 61, 61⟩
/-- `PRS_ENTRY_CNT.SAMPLES` (R325). -/
abbrev Fld.PRS_ENTRY_CNT_SAMPLES : Fld := ⟨.PRS_ENTRY_CNT, 31, 0⟩
/-- `PRS_CNT.COUNT` (R326). -/
abbrev Fld.PRS_CNT_COUNT : Fld := ⟨.PRS_CNT, 63, 0⟩
/-- `MXE_CTL.LEND` (R129). -/
abbrev Fld.MXE_CTL_LEND : Fld := ⟨.MXE_CTL, 0, 0⟩
/-- `MXE_CTL.W_MODE` (R129). -/
abbrev Fld.MXE_CTL_W_MODE : Fld := ⟨.MXE_CTL, 3, 2⟩
/-- `MXE_CTL.LEND_HOLD` (R129). -/
abbrev Fld.MXE_CTL_LEND_HOLD : Fld := ⟨.MXE_CTL, 15, 8⟩
/-- `MXE_STAT.OWNER` (R130). -/
abbrev Fld.MXE_STAT_OWNER : Fld := ⟨.MXE_STAT, 1, 0⟩
/-- `MXE_STAT.MODE` (R130). -/
abbrev Fld.MXE_STAT_MODE : Fld := ⟨.MXE_STAT, 4, 2⟩
/-- `MXE_STAT.SPARSE` (R130). -/
abbrev Fld.MXE_STAT_SPARSE : Fld := ⟨.MXE_STAT, 5, 5⟩
/-- `MXE_STAT.BANK_S_LIVE` (R130). -/
abbrev Fld.MXE_STAT_BANK_S_LIVE : Fld := ⟨.MXE_STAT, 6, 6⟩
/-- `MXE_STAT.ARB` (R130). -/
abbrev Fld.MXE_STAT_ARB : Fld := ⟨.MXE_STAT, 7, 7⟩
/-- `MXE_HEALTH.QUAR` (R131). -/
abbrev Fld.MXE_HEALTH_QUAR : Fld := ⟨.MXE_HEALTH, 0, 0⟩
/-- `MXE_HEALTH.CKDEG` (R131). -/
abbrev Fld.MXE_HEALTH_CKDEG : Fld := ⟨.MXE_HEALTH, 1, 1⟩
/-- `MXE_TFLAG.NF` (R132). -/
abbrev Fld.MXE_TFLAG_NF : Fld := ⟨.MXE_TFLAG, 0, 0⟩
/-- `MXE_TFLAG.OVF` (R132). -/
abbrev Fld.MXE_TFLAG_OVF : Fld := ⟨.MXE_TFLAG, 1, 1⟩
/-- `MXE_TFLAG.UNF` (R132). -/
abbrev Fld.MXE_TFLAG_UNF : Fld := ⟨.MXE_TFLAG, 2, 2⟩
/-- `MXE_TFLAG.EMPTY` (R132). -/
abbrev Fld.MXE_TFLAG_EMPTY : Fld := ⟨.MXE_TFLAG, 3, 3⟩
/-- `MXE_TFLAG.POISON` (R132). -/
abbrev Fld.MXE_TFLAG_POISON : Fld := ⟨.MXE_TFLAG, 4, 4⟩
/-- `MXE_TFLAG.CHK` (R132). -/
abbrev Fld.MXE_TFLAG_CHK : Fld := ⟨.MXE_TFLAG, 5, 5⟩
/-- `MXE_TFLAG.NF_ROW` (R132). -/
abbrev Fld.MXE_TFLAG_NF_ROW : Fld := ⟨.MXE_TFLAG, 13, 8⟩
/-- `MXE_TFLAG.NF_COL` (R132). -/
abbrev Fld.MXE_TFLAG_NF_COL : Fld := ⟨.MXE_TFLAG, 18, 14⟩
/-- `MXE_TFLAG.OVF_ROW` (R132). -/
abbrev Fld.MXE_TFLAG_OVF_ROW : Fld := ⟨.MXE_TFLAG, 24, 19⟩
/-- `MXE_TFLAG.OVF_COL` (R132). -/
abbrev Fld.MXE_TFLAG_OVF_COL : Fld := ⟨.MXE_TFLAG, 29, 25⟩
/-- `MXE_TFLAG.UNF_ROW` (R132). -/
abbrev Fld.MXE_TFLAG_UNF_ROW : Fld := ⟨.MXE_TFLAG, 35, 30⟩
/-- `MXE_TFLAG.UNF_COL` (R132). -/
abbrev Fld.MXE_TFLAG_UNF_COL : Fld := ⟨.MXE_TFLAG, 40, 36⟩
/-- `MXE_TFLAG.CHK_ROW` (R132). -/
abbrev Fld.MXE_TFLAG_CHK_ROW : Fld := ⟨.MXE_TFLAG, 46, 41⟩
/-- `MXE_TFLAG.TILE_SEQ` (R132). -/
abbrev Fld.MXE_TFLAG_TILE_SEQ : Fld := ⟨.MXE_TFLAG, 63, 48⟩
/-- `MXE_STICKY.FLAGS` (R133). -/
abbrev Fld.MXE_STICKY_FLAGS : Fld := ⟨.MXE_STICKY, 5, 0⟩
/-- `MXE_STICKY.SOLV_CHK` (R133). -/
abbrev Fld.MXE_STICKY_SOLV_CHK : Fld := ⟨.MXE_STICKY, 6, 6⟩
/-- `MXE_STICKY.SOLV_POISON` (R133). -/
abbrev Fld.MXE_STICKY_SOLV_POISON : Fld := ⟨.MXE_STICKY, 7, 7⟩
/-- `MXE_STICKY.BAD_DESC` (R133). -/
abbrev Fld.MXE_STICKY_BAD_DESC : Fld := ⟨.MXE_STICKY, 8, 8⟩
/-- `MXE_CKSEED.SEED` (R134). -/
abbrev Fld.MXE_CKSEED_SEED : Fld := ⟨.MXE_CKSEED, 63, 0⟩
/-- `MXE_CKPAT.PATTERN` (R135). -/
abbrev Fld.MXE_CKPAT_PATTERN : Fld := ⟨.MXE_CKPAT, 63, 0⟩
/-- `MXE_CKLOG.ROW` (R136). -/
abbrev Fld.MXE_CKLOG_ROW : Fld := ⟨.MXE_CKLOG, 5, 0⟩
/-- `MXE_CKLOG.SOLVER` (R136). -/
abbrev Fld.MXE_CKLOG_SOLVER : Fld := ⟨.MXE_CKLOG, 6, 6⟩
/-- `MXE_CKLOG.INJECTED` (R136). -/
abbrev Fld.MXE_CKLOG_INJECTED : Fld := ⟨.MXE_CKLOG, 7, 7⟩
/-- `MXE_CKLOG.TILE_SEQ` (R136). -/
abbrev Fld.MXE_CKLOG_TILE_SEQ : Fld := ⟨.MXE_CKLOG, 23, 8⟩
/-- `MXE_CKLOG.DIFF` (R136). -/
abbrev Fld.MXE_CKLOG_DIFF : Fld := ⟨.MXE_CKLOG, 63, 32⟩
/-- `MXE_CNT_TILE.COUNT` (R137). -/
abbrev Fld.MXE_CNT_TILE_COUNT : Fld := ⟨.MXE_CNT_TILE, 63, 0⟩
/-- `MXE_CNT_SOLV.COUNT` (R137). -/
abbrev Fld.MXE_CNT_SOLV_COUNT : Fld := ⟨.MXE_CNT_SOLV, 63, 0⟩
/-- `MXE_CNT_PREEMPT.COUNT` (R137). -/
abbrev Fld.MXE_CNT_PREEMPT_COUNT : Fld := ⟨.MXE_CNT_PREEMPT, 63, 0⟩
/-- `MXE_CNT_CHK.COUNT` (R137). -/
abbrev Fld.MXE_CNT_CHK_COUNT : Fld := ⟨.MXE_CNT_CHK, 63, 0⟩
/-- `MXE_CNT_UNTESTED.COUNT` (R137). -/
abbrev Fld.MXE_CNT_UNTESTED_COUNT : Fld := ⟨.MXE_CNT_UNTESTED, 63, 0⟩
/-- `MXE_INJ.ARM` (R138). -/
abbrev Fld.MXE_INJ_ARM : Fld := ⟨.MXE_INJ, 0, 0⟩
/-- `MXE_INJ.ROW` (R138). -/
abbrev Fld.MXE_INJ_ROW : Fld := ⟨.MXE_INJ, 6, 1⟩
/-- `MXE_INJ.COL` (R138). -/
abbrev Fld.MXE_INJ_COL : Fld := ⟨.MXE_INJ, 11, 7⟩
/-- `MXE_INJ.CKCOL` (R138). -/
abbrev Fld.MXE_INJ_CKCOL : Fld := ⟨.MXE_INJ, 12, 12⟩
/-- `MXE_INJ.BIT` (R138). -/
abbrev Fld.MXE_INJ_BIT : Fld := ⟨.MXE_INJ, 17, 13⟩
/-- `MXE_INJ.FIRED` (R138). -/
abbrev Fld.MXE_INJ_FIRED : Fld := ⟨.MXE_INJ, 18, 18⟩
/-- `VEC_CTL.CENS_QUEUE` (R167). -/
abbrev Fld.VEC_CTL_CENS_QUEUE : Fld := ⟨.VEC_CTL, 9, 0⟩
/-- `VEC_CTL.CENS_EN` (R167). -/
abbrev Fld.VEC_CTL_CENS_EN : Fld := ⟨.VEC_CTL, 16, 16⟩
/-- `VEC_STAT.BUSY` (R168). -/
abbrev Fld.VEC_STAT_BUSY : Fld := ⟨.VEC_STAT, 0, 0⟩
/-- `VEC_STAT.CENS_USED` (R168). -/
abbrev Fld.VEC_STAT_CENS_USED : Fld := ⟨.VEC_STAT, 5, 1⟩
/-- `VEC_STAT.RD0_OPEN` (R168). -/
abbrev Fld.VEC_STAT_RD0_OPEN : Fld := ⟨.VEC_STAT, 6, 6⟩
/-- `VEC_STAT.RD1_OPEN` (R168). -/
abbrev Fld.VEC_STAT_RD1_OPEN : Fld := ⟨.VEC_STAT, 7, 7⟩
/-- `VEC_STAT.CENS_HELD` (R168). -/
abbrev Fld.VEC_STAT_CENS_HELD : Fld := ⟨.VEC_STAT, 8, 8⟩
/-- `VEC_STICKY.FLAGS` (R169). -/
abbrev Fld.VEC_STICKY_FLAGS : Fld := ⟨.VEC_STICKY, 5, 0⟩
/-- `VEC_STICKY.BAD_DESC` (R169). -/
abbrev Fld.VEC_STICKY_BAD_DESC : Fld := ⟨.VEC_STICKY, 6, 6⟩
/-- `VEC_STICKY.CENS_STALL` (R169). -/
abbrev Fld.VEC_STICKY_CENS_STALL : Fld := ⟨.VEC_STICKY, 7, 7⟩
/-- `VEC_STICKY.CENS_DROP` (R169). -/
abbrev Fld.VEC_STICKY_CENS_DROP : Fld := ⟨.VEC_STICKY, 8, 8⟩
/-- `VEC_FLAG.NF` (R170). -/
abbrev Fld.VEC_FLAG_NF : Fld := ⟨.VEC_FLAG, 0, 0⟩
/-- `VEC_FLAG.OVF` (R170). -/
abbrev Fld.VEC_FLAG_OVF : Fld := ⟨.VEC_FLAG, 1, 1⟩
/-- `VEC_FLAG.UNF` (R170). -/
abbrev Fld.VEC_FLAG_UNF : Fld := ⟨.VEC_FLAG, 2, 2⟩
/-- `VEC_FLAG.EMPTY` (R170). -/
abbrev Fld.VEC_FLAG_EMPTY : Fld := ⟨.VEC_FLAG, 3, 3⟩
/-- `VEC_FLAG.POISON` (R170). -/
abbrev Fld.VEC_FLAG_POISON : Fld := ⟨.VEC_FLAG, 4, 4⟩
/-- `VEC_FLAG.CHK` (R170). -/
abbrev Fld.VEC_FLAG_CHK : Fld := ⟨.VEC_FLAG, 5, 5⟩
/-- `VEC_FLAG.OVF_STAGE` (R170). -/
abbrev Fld.VEC_FLAG_OVF_STAGE : Fld := ⟨.VEC_FLAG, 10, 8⟩
/-- `VEC_FLAG.CHAIN_SEQ` (R170). -/
abbrev Fld.VEC_FLAG_CHAIN_SEQ : Fld := ⟨.VEC_FLAG, 63, 16⟩
/-- `VEC_FPOS_NF.ROW` (R171). -/
abbrev Fld.VEC_FPOS_NF_ROW : Fld := ⟨.VEC_FPOS_NF, 23, 0⟩
/-- `VEC_FPOS_NF.COL` (R171). -/
abbrev Fld.VEC_FPOS_NF_COL : Fld := ⟨.VEC_FPOS_NF, 47, 24⟩
/-- `VEC_FPOS_OVF.ROW` (R171). -/
abbrev Fld.VEC_FPOS_OVF_ROW : Fld := ⟨.VEC_FPOS_OVF, 23, 0⟩
/-- `VEC_FPOS_OVF.COL` (R171). -/
abbrev Fld.VEC_FPOS_OVF_COL : Fld := ⟨.VEC_FPOS_OVF, 47, 24⟩
/-- `VEC_FPOS_EMPTY.ROW` (R171). -/
abbrev Fld.VEC_FPOS_EMPTY_ROW : Fld := ⟨.VEC_FPOS_EMPTY, 23, 0⟩
/-- `VEC_FPOS_EMPTY.COL` (R171). -/
abbrev Fld.VEC_FPOS_EMPTY_COL : Fld := ⟨.VEC_FPOS_EMPTY, 47, 24⟩
/-- `VEC_CNT_CHAIN.COUNT` (R172). -/
abbrev Fld.VEC_CNT_CHAIN_COUNT : Fld := ⟨.VEC_CNT_CHAIN, 63, 0⟩
/-- `VEC_CNT_ELEM.COUNT` (R172). -/
abbrev Fld.VEC_CNT_ELEM_COUNT : Fld := ⟨.VEC_CNT_ELEM, 63, 0⟩
/-- `VEC_CNT_CENSUS.COUNT` (R172). -/
abbrev Fld.VEC_CNT_CENSUS_COUNT : Fld := ⟨.VEC_CNT_CENSUS, 63, 0⟩
/-- `VEC_CNT_CDROP.COUNT` (R172). -/
abbrev Fld.VEC_CNT_CDROP_COUNT : Fld := ⟨.VEC_CNT_CDROP, 63, 0⟩
/-- `UNIT_MEMERR.CE_CNT` (R212). -/
abbrev Fld.UNIT_MEMERR_CE_CNT : Fld := ⟨.UNIT_MEMERR, 31, 0⟩
/-- `UNIT_MEMERR.UE_CNT` (R212). -/
abbrev Fld.UNIT_MEMERR_UE_CNT : Fld := ⟨.UNIT_MEMERR, 47, 32⟩
/-- `UNIT_MEMERR.SCRUB_PASS` (R212). -/
abbrev Fld.UNIT_MEMERR_SCRUB_PASS : Fld := ⟨.UNIT_MEMERR, 63, 48⟩
/-- `UNIT_MEMERR_ADDR.ADDR` (R213). -/
abbrev Fld.UNIT_MEMERR_ADDR_ADDR : Fld := ⟨.UNIT_MEMERR_ADDR, 35, 0⟩
/-- `UNIT_MEMERR_ADDR.VALID` (R213). -/
abbrev Fld.UNIT_MEMERR_ADDR_VALID : Fld := ⟨.UNIT_MEMERR_ADDR, 63, 63⟩
/-- `CHG_BUF.WORD` (R555). -/
abbrev Fld.CHG_BUF_WORD : Fld := ⟨.CHG_BUF, 63, 0⟩
/-- `BOOT_FWBUF.WORD` (R615). -/
abbrev Fld.BOOT_FWBUF_WORD : Fld := ⟨.BOOT_FWBUF, 63, 0⟩
/-- `MSIX_ADDR.ADDR` (R579). -/
abbrev Fld.MSIX_ADDR_ADDR : Fld := ⟨.MSIX_ADDR, 63, 0⟩
/-- `MSIX_DATA.DATA` (R579). -/
abbrev Fld.MSIX_DATA_DATA : Fld := ⟨.MSIX_DATA, 31, 0⟩
/-- `MSIX_DATA.MASK` (R579). -/
abbrev Fld.MSIX_DATA_MASK : Fld := ⟨.MSIX_DATA, 32, 32⟩
/-- `MSIX_PBA.PENDING` (R579). -/
abbrev Fld.MSIX_PBA_PENDING : Fld := ⟨.MSIX_PBA, 63, 0⟩

end Sys2Proof.Machine
end

