-- ==== Sys2Proof/Machine/Float.lean ====
section
/-! DEFINITION. Number formats, rounding, conversions and the reference order (chapter 02: R59–R97).
Every value is computed exactly as a dyadic number m × 2^e and narrowed once, by one rounding function. -/

namespace Sys2Proof.Machine

/-- A decoded value: the canonical NaN, an infinity, or the exact number m × 2^e. Negative zero does not occur (R64). -/
inductive FVal where
  | nan
  | inf (neg : Bool)
  | fin (m : Int) (e : Int)
  deriving DecidableEq, Repr

/-- +0, the one zero an engine knows (R64). -/
def FVal.zero : FVal := .fin 0 0
/-- 1.0. -/
def FVal.one : FVal := .fin 1 0

/-- A binary storage format: exponent and fraction widths (R60). -/
structure Fmt where
  eb : Nat
  fb : Nat
  deriving DecidableEq, Repr

/-- BF16 (R60, code 0x0). -/
def bf16 : Fmt := ⟨8, 7⟩
/-- FP32 (R60, code 0x1). -/
def fp32 : Fmt := ⟨8, 23⟩
/-- FP64 (R60, code 0x5). -/
def fp64 : Fmt := ⟨11, 52⟩
/-- The chunk format of R78: 24-bit significand, 11-bit exponent. -/
def chunkFmt : Fmt := ⟨11, 23⟩

/-- Exponent bias. -/
def Fmt.bias (f : Fmt) : Int := (2 : Int) ^ (f.eb - 1) - 1
/-- Exponent of the least significand bit of a subnormal. -/
def Fmt.emin (f : Fmt) : Int := 1 - f.bias - f.fb
/-- Largest unbiased exponent of a finite value. -/
def Fmt.emax (f : Fmt) : Int := f.bias
/-- Bits of one value. -/
def Fmt.width (f : Fmt) : Nat := 1 + f.eb + f.fb

/-- x × 2^k as an integer shift; negative k floors toward zero of the magnitude. -/
def shl (m : Nat) (k : Int) : Nat := if 0 ≤ k then m <<< k.toNat else m >>> (-k).toNat

/-- The sign of m applied to a magnitude. -/
def withSign (m : Int) (a : Nat) : Int := if m < 0 then -(a : Int) else (a : Int)

/-- Rounding modes: nearest-even (R69), toward +Inf (R96), and stochastic with the draw R of R71. -/
inductive Rnd where
  | rne
  | up
  | sr (r : Nat)
  deriving DecidableEq, Repr

/-- Whether the magnitude q with remainder rem of 2^sh rounds away from zero. -/
def roundsAway (rnd : Rnd) (neg : Bool) (q rem sh : Nat) : Bool :=
  if rem = 0 then false
  else match rnd with
    | .rne => if 2 * rem = 2 ^ sh then q % 2 == 1 else decide (2 ^ sh < 2 * rem)
    | .up => !neg
    | .sr r => decide (r < rem * 2 ^ 32 / 2 ^ sh)

/-- m × 2^e rounded into a format (R62, R68–R71): ±Inf above the range, subnormals produced without flushing.
An overflow toward +Inf of a negative number keeps the largest finite value. -/
def roundDy (f : Fmt) (rnd : Rnd) (m e : Int) : FVal :=
  let a := m.natAbs
  if a = 0 then .zero
  else
    let q := max (e + a.log2 - f.fb) f.emin
    let r : Nat :=
      if q ≤ e then a <<< (e - q).toNat
      else
        let sh := (q - e).toNat
        let n := a >>> sh
        n + b2n (roundsAway rnd (m < 0) n (a % 2 ^ sh) sh)
    if r = 0 then .zero
    else if f.emax < q + r.log2 then
      (if rnd = .up ∧ m < 0 then .fin (-((2 : Int) ^ (f.fb + 1) - 1)) (f.emax - f.fb) else .inf (m < 0))
    else .fin (withSign m r) q

/-- A value rounded into a format; NaN and infinities pass. -/
def roundF (f : Fmt) (rnd : Rnd) : FVal → FVal
  | .nan => .nan
  | .inf s => .inf s
  | .fin m e => roundDy f rnd m e

/-- The value a bit pattern stands for; a negative zero input reads as +0 (R64), any NaN as NaN (R62). -/
def decodeF (f : Fmt) (w : Nat) : FVal :=
  let s := bit w (f.eb + f.fb)
  let x := bits w (f.eb + f.fb - 1) f.fb
  let fr := w % 2 ^ f.fb
  if x = 2 ^ f.eb - 1 then (if fr = 0 then .inf s else .nan)
  else
    let m : Nat := if x = 0 then fr else fr + 2 ^ f.fb
    let e : Int := if x = 0 then f.emin else (x : Int) - f.bias - f.fb
    if m = 0 then .zero else .fin (if s then -(m : Int) else m) e

/-- The bit pattern of a value that the format holds: the canonical NaN of R63, +0 for zero (R64). The value is
rounded to nearest-even first, which changes nothing for a value already in the format. -/
def encodeF (f : Fmt) (v : FVal) : Nat :=
  let top := f.eb + f.fb
  match roundF f .rne v with
  | .nan => (2 ^ f.eb - 1) * 2 ^ f.fb + 2 ^ (f.fb - 1)
  | .inf s => (2 ^ f.eb - 1) * 2 ^ f.fb + b2n s * 2 ^ top
  | .fin m e =>
    let a := m.natAbs
    if a = 0 then 0
    else
      let lg := e + a.log2
      let q := max (lg - f.fb) f.emin
      let n := shl a (e - q)
      let body : Nat := if n < 2 ^ f.fb then n else (q - f.emin + 1).toNat * 2 ^ f.fb + (n - 2 ^ f.fb)
      b2n (m < 0) * 2 ^ top + body

/-- Whether a value is NaN. -/
def FVal.isNan : FVal → Bool
  | .nan => true
  | _ => false
/-- Whether a value is finite. -/
def FVal.isFin : FVal → Bool
  | .fin _ _ => true
  | _ => false
/-- Whether a value is zero. -/
def FVal.isZero : FVal → Bool
  | .fin m _ => m == 0
  | _ => false
/-- Whether the sign of a value is negative. -/
def FVal.isNeg : FVal → Bool
  | .nan => false
  | .inf s => s
  | .fin m _ => decide (m < 0)

/-- The opposite value. -/
def FVal.neg : FVal → FVal
  | .nan => .nan
  | .inf s => .inf (!s)
  | .fin m e => .fin (-m) e
/-- The magnitude. -/
def FVal.abs : FVal → FVal
  | .nan => .nan
  | .inf _ => .inf false
  | .fin m e => .fin m.natAbs e
/-- The value times 2^k, exactly. -/
def FVal.scale2 (k : Int) : FVal → FVal
  | .fin m e => if m = 0 then .zero else .fin m (e + k)
  | v => v

/-- The exact sum; Inf − Inf is NaN (R67). -/
def exactAdd : FVal → FVal → FVal
  | .nan, _ => .nan
  | _, .nan => .nan
  | .inf a, .inf b => if a = b then .inf a else .nan
  | .inf a, .fin _ _ => .inf a
  | .fin _ _, .inf b => .inf b
  | .fin m e, .fin m' e' =>
    if m = 0 then .fin m' e' else if m' = 0 then .fin m e
    else
      let q := min e e'
      .fin (m * 2 ^ (e - q).toNat + m' * 2 ^ (e' - q).toNat) q

/-- The exact product; 0 × Inf is NaN (R67). -/
def exactMul : FVal → FVal → FVal
  | .nan, _ => .nan
  | _, .nan => .nan
  | .inf a, .inf b => .inf (xor a b)
  | .inf a, .fin m _ => if m = 0 then .nan else .inf (xor a (m < 0))
  | .fin m _, .inf b => if m = 0 then .nan else .inf (xor b (m < 0))
  | .fin m e, .fin m' e' => if m = 0 ∨ m' = 0 then .zero else .fin (m * m') (e + e')

/-- Sum correctly rounded (R62). -/
def addF (f : Fmt) (x y : FVal) : FVal := roundF f .rne (exactAdd x y)
/-- Difference correctly rounded. -/
def subF (f : Fmt) (x y : FVal) : FVal := addF f x y.neg
/-- Product correctly rounded (R62). -/
def mulF (f : Fmt) (x y : FVal) : FVal := roundF f .rne (exactMul x y)
/-- Fused multiply-add correctly rounded (R62). -/
def fmaF (f : Fmt) (x y z : FVal) : FVal := roundF f .rne (exactAdd (exactMul x y) z)

/-- Quotient of magnitudes with enough bits and a sticky bit, so that one rounding is correct. -/
def quotDy (f : Fmt) (m e m' e' : Int) : FVal :=
  let k := f.fb + 4 + m'.natAbs.log2
  let n := m.natAbs <<< k
  let q := n / m'.natAbs
  let st := b2n (n % m'.natAbs ≠ 0)
  let a := 2 * q + st
  .fin (if (m < 0) = (m' < 0) then (a : Int) else -(a : Int)) (e - e' - k - 1)

/-- Quotient correctly rounded (R95); x / 0 is an infinity, 0 / 0 and Inf / Inf are NaN (R67). -/
def divF (f : Fmt) (x y : FVal) : FVal :=
  match x, y with
  | .nan, _ => .nan
  | _, .nan => .nan
  | .inf _, .inf _ => .nan
  | .inf a, .fin m _ => .inf (xor a (m < 0))
  | .fin _ _, .inf _ => .zero
  | .fin m e, .fin m' e' =>
    if m' = 0 then (if m = 0 then .nan else .inf (m < 0))
    else if m = 0 then .zero
    else roundF f .rne (quotDy f m e m' e')

/-- Newton's iteration for the integer square root, from above, with fuel. -/
def isqrtAux : Nat → Nat → Nat → Nat
  | 0, _, x => x
  | fuel + 1, n, x => let y := (x + n / x) / 2; if y < x then isqrtAux fuel n y else x

/-- ⌊√n⌋. -/
def isqrt (n : Nat) : Nat := if n = 0 then 0 else isqrtAux (n.log2 + 2) n (2 ^ (n.log2 / 2 + 1))

/-- Square root correctly rounded; a negative input gives NaN. -/
def sqrtF (f : Fmt) (x : FVal) : FVal :=
  match x with
  | .nan => .nan
  | .inf s => if s then .nan else .inf false
  | .fin m e =>
    if m < 0 then .nan
    else if m = 0 then .zero
    else
      let k := 2 * (f.fb + 4)
      let odd := (e - k) % 2
      let n := m.natAbs <<< (k + odd.toNat)
      let r := isqrt n
      roundDy f .rne (2 * r + b2n (r * r ≠ n) : Nat) ((e - k - odd) / 2 - 1)

/-- Order of two values that are not NaN: x < y. -/
def ltV : FVal → FVal → Bool
  | .nan, _ => false
  | _, .nan => false
  | .inf a, .inf b => a && !b
  | .inf a, .fin _ _ => a
  | .fin _ _, .inf b => !b
  | .fin m e, .fin m' e' =>
    let q := min e e'
    decide (m * 2 ^ (e - q).toNat < m' * 2 ^ (e' - q).toNat)

/-- Equality of values: +0 and a negative-zero input compare equal (R67); NaN equals nothing. -/
def eqV (x y : FVal) : Bool := !x.isNan && !y.isNan && !ltV x y && !ltV y x

/-- x ≤ y. -/
def leV (x y : FVal) : Bool := !x.isNan && !y.isNan && !ltV y x

/-- Maximum, NaN if either operand is NaN (R67). -/
def maxV (x y : FVal) : FVal := if x.isNan || y.isNan then .nan else if ltV x y then y else x
/-- Minimum, NaN if either operand is NaN (R67). -/
def minV (x y : FVal) : FVal := if x.isNan || y.isNan then .nan else if ltV y x then y else x

/-- A natural number as an exact value. -/
def ofNatV (n : Nat) : FVal := .fin n 0

/-- Whether a finite operation overflowed: finite operands gave ±Inf (R86 OVF). -/
def ovfOf (xs : List FVal) (r : FVal) : Bool :=
  (match r with | .inf _ => true | _ => false) && xs.all FVal.isFin

/-- A value carried with whether any finite operation so far gave ±Inf (R86). -/
abbrev FO := FVal × Bool

/-- Sum of two flagged values in a format. -/
def addO (f : Fmt) (x y : FO) : FO :=
  let r := addF f x.1 y.1
  (r, x.2 || y.2 || ovfOf [x.1, y.1] r)
/-- Product of two values in a format, with its overflow. -/
def mulO (f : Fmt) (x y : FVal) : FO :=
  let r := mulF f x y
  (r, ovfOf [x, y] r)

/-- One level of the pairwise tree: neighbours combined. -/
def pairUp {α : Type} (op : α → α → α) : List α → List α
  | x :: y :: r => op x y :: pairUp op r
  | r => r

/-- The fixed pairwise tree over 32 leaves, 5 levels (R75). A shorter list is first filled up with z. -/
def tree32 {α : Type} (op : α → α → α) (z : α) (xs : List α) : α :=
  let full := xs.take 32 ++ List.replicate (32 - xs.length) z
  (iter (pairUp op) 5 full).headD z

/-- Leaves reduced by 32-leaf trees and a sequential pass from acc, in the structure of R75. -/
def chunkFold {α : Type} (op : α → α → α) (z : α) (acc : α) (xs : List α) : α :=
  (chunks 32 (xs.length + 1) xs).foldl (fun a c => op a (tree32 op z c)) acc

/-- The combining of slice partials in ascending index: the first, then each added (R81). -/
def combineF (f : Fmt) : List FO → FO
  | [] => (.zero, false)
  | p :: ps => ps.foldl (addO f) p

/-! ### Microscaling elements (R65) -/

/-- Element formats of MX blocks. -/
inductive MxElem where
  | e4m3
  | e5m2
  | e2m1
  deriving DecidableEq, Repr

/-- emax_elem (R65). -/
def MxElem.emaxE : MxElem → Int
  | .e4m3 => 8
  | .e5m2 => 15
  | .e2m1 => 2
/-- Exponent bits and mantissa bits. -/
def MxElem.ebits : MxElem → Nat
  | .e4m3 => 4
  | .e5m2 => 5
  | .e2m1 => 2
/-- Mantissa bits. -/
def MxElem.mbits : MxElem → Nat
  | .e4m3 => 3
  | .e5m2 => 2
  | .e2m1 => 1
/-- Bits of an element. -/
def MxElem.width (x : MxElem) : Nat := 1 + x.ebits + x.mbits
/-- Largest finite value. -/
def MxElem.maxnorm : MxElem → FVal
  | .e4m3 => .fin 448 0
  | .e5m2 => .fin 57344 0
  | .e2m1 => .fin 6 0
/-- The code of the largest finite magnitude. -/
def MxElem.maxCode : MxElem → Nat
  | .e4m3 => 0x7E
  | .e5m2 => 0x7B
  | .e2m1 => 0x7

/-- The value of an element code, before its block scale (R65). -/
def decodeElem (x : MxElem) (c : Nat) : FVal :=
  let s := bit c (x.ebits + x.mbits)
  let ex := bits c (x.ebits + x.mbits - 1) x.mbits
  let fr := c % 2 ^ x.mbits
  let bias : Int := (2 : Int) ^ (x.ebits - 1) - 1
  let body : FVal :=
    if ex = 0 then .fin fr (1 - bias - x.mbits) else .fin (fr + 2 ^ x.mbits) (ex - bias - x.mbits)
  let v : FVal := match x with
    | .e4m3 => if c % 128 = 0x7F then .nan else body
    | .e5m2 => if ex = 31 then (if fr = 0 then .inf false else .nan) else body
    | .e2m1 => body
  if v.isZero then .zero else if s then v.neg else v

/-- The exact power 2^X that a scale byte stands for; none for 0xFF, which is NaN (R65). -/
def scaleExp (e : Nat) : Option Int := if e = 0xFF then none else some ((e : Int) - 127)

/-- Rounding of a finite quotient to the nearest element value, ties to even, clamped to maxnorm (R91). Answers the
code and whether the element saturated. -/
def quantElem (x : MxElem) (m e : Int) : Nat × Bool :=
  let a := m.natAbs
  if a = 0 then (0, false)
  else
    let bias : Int := (2 : Int) ^ (x.ebits - 1) - 1
    let emin := 1 - bias - x.mbits
    let q := max (e + a.log2 - x.mbits) emin
    let n : Nat :=
      if q ≤ e then a <<< (e - q).toNat
      else
        let sh := (q - e).toNat
        (a >>> sh) + b2n (roundsAway .rne false (a >>> sh) (a % 2 ^ sh) sh)
    let sgn := b2n (m < 0) * 2 ^ (x.ebits + x.mbits)
    if n = 0 then (0, false)
    else if ltV x.maxnorm (.fin n q) then (sgn + x.maxCode, true)
    else
      let n' := if n = 2 ^ (x.mbits + 1) then 2 ^ x.mbits else n
      let q' := if n = 2 ^ (x.mbits + 1) then q + 1 else q
      let body : Nat := if n' < 2 ^ x.mbits then n' else (q' - emin + 1).toNat * 2 ^ x.mbits + (n' - 2 ^ x.mbits)
      (sgn + body, false)

/-- Tensor kinds (R70). -/
inductive Kind where
  | w
  | a
  | g
  | o
  deriving DecidableEq, Repr

/-- The kind of a two-bit code (R70). -/
def Kind.ofCode (n : Nat) : Kind := match n % 4 with | 0 => .w | 1 => .a | 2 => .g | _ => .o
/-- The two-bit code of a kind (R70). -/
def Kind.code : Kind → Nat
  | .w => 0
  | .a => 1
  | .g => 2
  | .o => 3

/-- The block exponent recipe of a kind for a nonzero amax (R92). -/
def recipe (k : Kind) (x : MxElem) (amax : FVal) : Int :=
  match amax with
  | .fin m e =>
    let x0 := e + m.natAbs.log2 - x.emaxE
    match k with
    | .w => if leV (amax.scale2 (-x0)) x.maxnorm then x0 else x0 + 1
    | .a => x0
    | _ => x0 + 1
  | _ => 0

/-- Counts that an operation adds to a census entry (R93). -/
structure Census where
  elems : Nat := 0
  zero : Nat := 0
  sat : Nat := 0
  nonfin : Nat := 0
  vanish : Nat := 0
  under : Nat := 0
  deriving DecidableEq, Repr

/-- Sum of two sets of counts, each saturating at 2^48 − 1 (R94). -/
def Census.add (a b : Census) : Census :=
  let c := satAdd (2 ^ 48 - 1)
  { elems := c a.elems b.elems, zero := c a.zero b.zero, sat := c a.sat b.sat
    nonfin := c a.nonfin b.nonfin, vanish := c a.vanish b.vanish, under := c a.under b.under }

/-- Quantisation of one block of real elements (R91): scale byte, element codes, census counts. -/
def quantBlock (k : Kind) (x : MxElem) (vs : List FVal) : Nat × List Nat × Census :=
  let n := vs.length
  if vs.any (fun v => !v.isFin) then (0xFF, vs.map (fun _ => 0), { elems := n, nonfin := n })
  else
    let amax := vs.foldl (fun a v => maxV a v.abs) .zero
    if amax.isZero then (0x7F, vs.map (fun _ => 0), { elems := n, zero := n })
    else
      let X := max (-127) (min 127 (recipe k x amax))
      let qs := vs.map (fun v => match v with | .fin m e => quantElem x m (e - X) | _ => (0, false))
      let cen := (vs.zip qs).foldl (fun (c : Census) p =>
        let z := p.2.1 % 2 ^ (x.ebits + x.mbits) == 0
        { c with zero := c.zero + b2n z, sat := c.sat + b2n p.2.2, vanish := c.vanish + b2n (z && !p.1.isZero) })
        { elems := n }
      ((X + 127).toNat, qs.map Prod.fst, cen)

/-! ### Draws (R72, R73) -/

/-- Rotation left of a 32-bit number. -/
def rotl32 (x r : Nat) : Nat := ((x <<< r) % 2 ^ 32) ||| (x >>> (32 - r))

/-- The state of the draw generator. -/
structure DrawState where
  x0 : Nat
  x1 : Nat
  x2 : Nat
  x3 : Nat
  k0 : Nat
  k1 : Nat
  deriving DecidableEq, Repr

/-- One round of the draw generator (R72). -/
def drawRound (d : DrawState) : DrawState :=
  let x0 := (d.x0 + d.k0) % 2 ^ 32
  let x2 := (d.x2 + d.k1) % 2 ^ 32
  let x1 := rotl32 d.x1 7 ^^^ x0
  let x3 := rotl32 d.x3 11 ^^^ x2
  let x0 := (x0 + x3) % 2 ^ 32
  let x2 := (x2 + x1) % 2 ^ 32
  let x1 := rotl32 x1 19 ^^^ x2
  let x3 := rotl32 x3 23 ^^^ x0
  ⟨x0, x1, x2, x3, (d.k0 + 0x9E3779B9) % 2 ^ 32, (d.k1 + 0x7F4A7C15) % 2 ^ 32⟩

/-- The 32-bit draw R of one element: seed, tensor, element index, step, draw number (R72). -/
def draw (seed tensor index step dn : Nat) : Nat :=
  let s : DrawState :=
    { x0 := index % 2 ^ 32, x1 := bits index 39 32 ||| ((tensor % 2 ^ 24) <<< 8)
      x2 := step % 2 ^ 32, x3 := bits step 47 32 ||| ((dn % 256) <<< 16)
      k0 := seed % 2 ^ 32, k1 := bits seed 63 32 }
  let r := iter drawRound 10 s
  r.x0 ^^^ r.x1 ^^^ r.x2 ^^^ r.x3

/-! ### Conversions (R68) -/

/-- Result of converting one value into a scalar format: bits, overflow, census counts. -/
structure Conv where
  w : Nat
  ovf : Bool
  cen : Census
  deriving DecidableEq, Repr

/-- Census counts of one element written as r from input x into a float target (R93). -/
def cenOf (x r : FVal) : Census :=
  { elems := 1, zero := b2n r.isZero, nonfin := b2n (!r.isFin), vanish := b2n (r.isZero && x.isFin && !x.isZero) }

/-- FP32 or a wider exact value to a float target in a rounding mode (R68). -/
def convFloat (f : Fmt) (rnd : Rnd) (x : FVal) : Conv :=
  let r := roundF f rnd x
  ⟨encodeF f r, ovfOf [x] r, cenOf x r⟩

/-- FP32 to INT32: RNE, saturating; NaN gives 0 and counts non-finite (R68, R93). An infinity saturates as a value
beyond the limit does (DEDUCED: the row "above the target's range" saturates). -/
def convInt (x : FVal) : Conv :=
  let enc (i : Int) : Nat := unsigned 32 i
  match x with
  | .nan => ⟨0, false, { elems := 1, nonfin := 1 }⟩
  | .inf s => ⟨enc (if s then -2 ^ 31 else 2 ^ 31 - 1), false, { elems := 1, sat := 1 }⟩
  | .fin m e =>
    let a := m.natAbs
    let n : Nat :=
      if 0 ≤ e then (if e ≤ 200 then a <<< e.toNat else 2 ^ 200)
      else (let sh := (-e).toNat; (a >>> sh) + b2n (roundsAway .rne false (a >>> sh) (a % 2 ^ sh) sh))
    let n : Nat := if a = 0 then 0 else n
    let i := withSign m n
    let z : Census := { elems := 1, zero := b2n (n = 0), vanish := b2n (n = 0 && a ≠ 0) }
    if 2 ^ 31 - 1 < i then ⟨enc (2 ^ 31 - 1), false, { elems := 1, sat := 1 }⟩
    else if i < -2 ^ 31 then ⟨enc (-2 ^ 31), false, { elems := 1, sat := 1 }⟩
    else ⟨enc i, false, z⟩

/-- The rounding mode of a conversion into BF16: SR for kind G, RNE otherwise (R70). -/
def convRnd (k : Kind) (r : Nat) : Rnd := if k = .g then .sr r else .rne

/-! ### Split-BF16 (R80) -/

/-- hi(x) and lo(x). -/
def splitBf (x : FVal) : FVal × FVal :=
  match x with
  | .fin m _ =>
    let big : FVal := .fin (withSign m 255) 120
    let h := match roundF bf16 .rne x with | .inf _ => big | v => v
    (h, roundF bf16 .rne (exactAdd x h.neg))
  | v => (v, .zero)

/-! ### Bounds of the tests (R96, R97) -/

/-- A sum rounded toward +Inf in FP32. -/
def addUp (x y : FVal) : FVal := roundF fp32 .up (exactAdd x y)
/-- A product rounded toward +Inf in FP32. -/
def mulUp (x y : FVal) : FVal := roundF fp32 .up (exactMul x y)

/-- γ_n = n·u / (1 − n·u) with u = 2^−24, rounded toward +Inf in FP32 (R95). -/
def gammaUp (n : Nat) : FVal :=
  if 2 ^ 24 ≤ n then .inf false
  else
    let k := 60
    let q := (n <<< k) / (2 ^ 24 - n)
    roundDy fp32 .up (q + b2n ((n <<< k) % (2 ^ 24 - n) ≠ 0) : Nat) (-(k : Int))

end Sys2Proof.Machine
end

