-- ==== Sys2Proof/Machine/State.lean ====
section
/-! DEFINITION. The state of the module: every register, memory, queue, buffer, counter and mode the manual gives it,
as plain data, and the queue of commands that wait. Registers are one sparse map whose unlisted entries hold their
reset values (R20); the clock, limiter and supply state is kept apart in `Power`. -/

namespace Sys2Proof.Machine

/-! ### Queue pool (R193–R203) -/

/-- A linked packet: its words with their P bits, whether it is a NULL packet, and whether a pending flush covers it. -/
structure Packet where
  words : List (Word × Bool)
  null : Bool
  old : Bool
  deriving DecidableEq, Repr

/-- A packet with words written and no END yet, of one producer (R194). -/
structure OpenPkt where
  prod : Nat
  words : List (Word × Bool)
  old : Bool
  deriving DecidableEq, Repr

/-- One word offered to a queue: data, MARK and P (R193). -/
structure QWord where
  w : Word
  mark : Nat
  p : Bool
  deriving DecidableEq, Repr

/-- One queue of a region's pool: linked packets in order, words of the head packet already read, open packets,
producers whose words are discarded up to END after an overlong packet, words of stalled producers, a pending
flush, a broken link record, and the earliest time at which the running staleness timer fires. -/
structure QueueS where
  linked : List Packet := []
  rd : Nat := 0
  opens : List OpenPkt := []
  skip : List Nat := []
  waiting : List (Nat × QWord) := []
  flush : Bool := false
  broken : Bool := false
  timer : Option Nat := none
  deriving DecidableEq, Repr

/-! ### Commands in progress (R220–R226, R656–R657) -/

/-- The outcome of one tile, chain, partial or other effect of a command, at its place in tile order (R657).
Positions are in the coordinates of the whole product or chain (R225). -/
structure Part where
  order : Nat
  status : Nat := 0
  flags : Nat := 0
  nf : Option (Nat × Nat) := none
  ovf : Option (Nat × Nat) := none
  unf : Option (Nat × Nat) := none
  emp : Option (Nat × Nat) := none
  chk : Option Nat := none
  detail : Nat := 0
  deriving DecidableEq, Repr

/-- An outstanding or ended command of a sequencer: identity, header, schedule step, layout epoch and phase at issue, effects
still to complete, their outcomes, the completion record once ended, and the target queue of a SIGNAL (R44, R221, R222,
R235). -/
structure OutCmd where
  id : Nat
  hdr : Word
  step : Nat
  lepoch : Nat
  phase : Nat := 0
  left : Nat
  parts : List Part := []
  cancelled : Bool := false
  ended : Option (List Word) := none
  aux : Nat := 0
  deriving DecidableEq, Repr

/-- One level of the call stack: the routine, the word offset of its next command, attempts made, RETRY, and the
identity of the CALL command that runs it (R238). -/
structure Frame where
  rtn : Nat
  off : Nat
  attempts : Nat
  retry : Nat
  callId : Nat
  deriving DecidableEq, Repr

/-- What a sequencer waits for in an agreement (R242–R247). -/
inductive Agree where
  | none
  | gate
  | full
  | epoch (lepoch slot : Nat)
  | seal (pins : List Nat)
  deriving DecidableEq, Repr

/-- A WAITQ in progress: queue, packets wanted, packets consumed, poison met, ended by a stale event (R234). -/
structure WaitQ where
  id : Nat
  queue : Nat
  count : Nat
  got : Nat := 0
  poison : Bool := false
  stale : Bool := false
  deriving DecidableEq, Repr

/-! ### Units (R101–R172) -/

/-- One tile of a MATMUL: its cluster, unit and command, place in tile order, indices (i, j), intra-cluster slice, the
command's words, and for a fused pair the chain's body (R228–R231). `redo` tells what of a tile re-issued after a
withdrawal was already counted (R230): bit 0 its own end, bit 1 the delivery of its partial, bit 2 the combined output,
bit 3 its chain; bit 4 marks a run whose result is discarded. -/
structure TileJob where
  cl : Nat
  u : Nat
  id : Nat
  order : Nat
  i : Nat
  j : Nat
  ks : Nat
  mm : List Word
  fused : Option (List Word)
  redo : Nat
  deriving DecidableEq, Repr

/-- A chain of a unit: its command, place in order, body of 24 words as written, and for a fused chain its tile. `redo`
tells a chain re-issued with its group, whose command has ended (R230). -/
structure ChainJob where
  cl : Nat
  id : Nat
  order : Nat
  body : List Word
  tile : Option TileJob
  redo : Bool
  deriving DecidableEq, Repr

/-- Work queued on a unit in issue order (R224). -/
inductive Job where
  | tile (t : TileJob)
  | chain (c : ChainJob)
  deriving DecidableEq, Repr

/-- The sequencer of one cluster (R214–R250): halt cause, phase, call stack,
outstanding commands, the agreement it waits in, its WAITQs, tiles and chains held for want of a unit, a MATMUL that waits for its CHAIN, the step window and the
EPOCH mark of R41, whether it discards packets through SEAL (R248), for a failure of its own gate or not, whether the window's SEAL has been read, the last TAG,
and the next command identity. -/
structure SeqS where
  halt : Nat := 0
  phase : Nat := 0
  stack : List Frame := []
  outst : List OutCmd := []
  agree : Agree := .none
  agreeId : Nat := 0
  arrived : Bool := false
  waitqs : List WaitQ := []
  held : List Job := []
  fuse : Option (List Word) := none
  gated : Bool := false
  epochMark : Bool := false
  skipSeal : Bool := false
  skipOwn : Bool := false
  sealRead : Bool := false
  lastTag : Nat := 0
  nextId : Nat := 0
  deriving DecidableEq, Repr

/-- A Solver tile (R122, R328, R342): its solve's ticket, its place in the product, the rows of the first operand and the
columns of the second that it covers, passes still to run, whether it is a second run and the unit of the first, and its weight
bits with the generator's state before it where it advanced it (R116). -/
structure STile where
  ticket : Nat
  i : Nat
  j : Nat
  rows : List (List FVal)
  cols : List (List FVal)
  left : Nat
  second : Bool := false
  avoid : Nat := 1024
  wbits : Nat := 0
  seed : Option Nat := none
  deriving DecidableEq, Repr

/-- The kinds of matrix work a unit runs: a training tile, an arbitration tile, a rewrite run of R502, or a Solver
tile. -/
inductive RunKind where
  | train
  | arb
  | rewrite
  | solver (t : STile)
  deriving DecidableEq, Repr

/-- The running tile of a unit with its weight bits (R115). -/
structure Running where
  kind : RunKind
  job : TileJob
  wbits : Nat
  deriving DecidableEq, Repr

/-- Outputs and flags of a tile: FP32 values row by row, flags of R86, first positions within the tile, first failing
row, the number of chunks set to +0, and whether a slice with K ≥ 1 takes part (R89). -/
structure TileOut where
  rows : List (List FVal)
  flags : Nat
  nf : Option (Nat × Nat)
  ovf : Option (Nat × Nat)
  unf : Option (Nat × Nat)
  chk : Option Nat
  under : Nat
  deep : Bool := true
  deriving DecidableEq, Repr

/-- The accumulator of one line of an open reduction: running value, count of included elements, best index and value,
TOPK candidates. -/
structure RedLine where
  acc : FVal
  n : Nat := 0
  best : Option (Nat × FVal) := none
  top : List (Nat × FVal) := []
  deriving DecidableEq, Repr

/-- An open reduction of a unit (R157): destination, function, axis, the group it serves, its lines, the length of the
line already covered, poison taken in, whether a failed tile makes it deliver nothing (R657), and the work that a
withdrawal re-issues (R230). -/
structure RedState where
  dst : Nat
  rfn : Nat
  axis : Nat
  id : Nat
  grp : Nat
  lines : List RedLine
  base : Nat
  poison : Bool
  dead : Bool
  work : List Job
  deriving DecidableEq, Repr

/-- One entry of a census table (R164): tensor, step, kind and format of its first write, counts. -/
structure CensEntry where
  tensor : Nat
  step : Nat
  kind : Nat
  fmt : Nat
  cen : Census
  deriving DecidableEq, Repr

/-- One output at a combining point (R82, R113): the product's or command's identity, tile, slices expected, next slice
to add, running total, early partials held, first failed slice, and slice 0's tile, whose OUT takes the result. -/
structure Comb where
  pid : Nat
  i : Nat
  j : Nat
  ns : Nat
  next : Nat := 0
  total : Option TileOut := none
  held : List (Nat × Option TileOut) := []
  failed : Option Nat := none
  owner : Option TileJob := none
  deriving DecidableEq, Repr

/-- A K-slice partial on its way to its combining point: point 0–15 is a region's controller, 16 + u is unit u; no data
when its slice failed (R656). -/
structure Partial where
  point : Nat
  pid : Nat
  i : Nat
  j : Nat
  ns : Nat
  slice : Nat
  data : Option TileOut
  job : TileJob
  deriving DecidableEq, Repr

/-- One unit: queued work, arbitration and rewrite work ahead of it, the running tile, the tile that waits in the
vector engine's input buffer, the unfinished Solver tile in bank S, open reductions, the census table in
order of use, held census records, and a tapped tile whose samples wait for room in the Press. -/
structure UnitS where
  queue : List Job := []
  ahead : List Running := []
  run : Option Running := none
  vbuf : Option (TileOut × ChainJob) := none
  bankS : Option STile := none
  reds : List RedState := []
  cens : List CensEntry := []
  cheld : List CensEntry := []
  hold : Bool := false
  deriving DecidableEq, Repr

/-- An arbitration in progress in a region (R501): original unit and tile, weight bits, whether its fault was injected,
the tested rows (r, ĉ, T) of the original, its held outcome, the arbitration unit, what that unit found, time of
detection, TILE_SEQ, whether the rewrite run is under way, and its unit. -/
structure Arb where
  region : Nat
  orig : Nat
  job : TileJob
  wbits : Nat
  injected : Bool
  rows : List (Nat × FVal × FVal × FVal)
  held : TileOut
  unit : Option Nat
  arbRows : Option (Bool × List (Nat × FVal × FVal × FVal)) := none
  time : Nat
  seq : Nat
  rewriting : Bool := false
  rewr : Option Nat := none
  deriving DecidableEq, Repr

/-- A transfer of R177: its command, words 1–5, whether the engine has accepted it. -/
structure XferJob where
  cl : Nat
  id : Nat
  words : List Word
  accepted : Bool
  deriving DecidableEq, Repr

/-- What one slice of a tile delivers of a sample: its local index, values, poison, and whether the mask takes it (R295, R296). -/
structure PSample where
  idx : Nat
  vals : List FVal
  bad : Bool
  taken : Bool
  deriving DecidableEq, Repr

/-- A staging entry of the Press (R303–R311): the ARM that allocated it while outstanding, its block, contribution and
ranges, sample selection, the MATMUL it is bound to (identity, words, number of tapped tiles), the next tile to absorb, the
samples of tiles whose slices are not all captured, by tile and slice, samples deposited per tile, the staged sums, count, flags with the first flagged element, poisoned staging
slots, and whether it was exported or merged in the step. -/
structure PEntry where
  arm : Option Nat
  tag : Nat
  side : Bool
  block : Nat
  contrib : Nat
  pid : Nat
  doff : Nat
  dim : Nat
  tfirst : Nat
  tcount : Nat
  sbase : Nat
  valid : Nat
  mask : Option Nat
  bound : Option (Nat × List Word × Nat) := none
  next : Nat := 0
  slices : List (Nat × Nat × List PSample) := []
  dep : List (Nat × List (Nat × List FVal × Bool)) := []
  stage : List (Nat × Nat) := []
  count : Nat := 0
  nf : Option (Nat × Nat) := none
  ovf : Option (Nat × Nat) := none
  poison : Bool := false
  badSlots : List Nat := []
  used : Bool := false
  deriving DecidableEq, Repr

/-- The Press of a cluster: staging entries by index, EXPORT and MERGE commands that wait for their entry's ARM, and MERGE
commands that wait for a Solver's load (R344). -/
structure PressS where
  ents : List (Nat × PEntry) := []
  wait : List (Nat × List Word) := []
  mwait : List (Nat × List Word) := []
  deriving DecidableEq, Repr

/-- What the module sends out: writes to host memory, interrupt messages, fabric packets and link units, management
replies, mailbox deliveries. The newest is last. -/
inductive Out where
  | hostWrite (port addr : Nat) (data : List Byte)
  | msix (f vec : Nat)
  | packet (d : Nat) (k : Pkt)
  | train (d port lane ctl sts : Nat)
  | hello (d : Nat) (h : Hello)
  | flow (d : Nat) (f : FlowFlit)
  | replay (d lsn : Nat)
  | tsyncReq (d t1 seq : Nat)
  | tsyncRsp (d : Nat) (t : TimeRsp)
  | mctp (reply : List Byte)
  | mailbox (k : Pkt)
  | pin (name : Nat) (level : Bool)
  deriving DecidableEq, Repr

/-! ### The step of a partition (R45, R242, R505) -/

/-- What the module has seen in a partition's step in progress: an NF flag on a gradient-bearing tile, an unresolved
checksum disagreement, consumed poison, a control-path fault or another reason to vote to abandon, whether the gate
has been evaluated and passed, whether all votes of this attempt were sent, and whether the job must be killed. -/
structure StepS where
  nf : Bool := false
  chk : Bool := false
  poison : Bool := false
  vote : Bool := false
  gate : Option Bool := none
  killed : Bool := false
  skipAdv : Bool := false
  installed : Nat := 0
  cutDone : Bool := false
  deriving DecidableEq, Repr

/-! ### Mapping (R450–R456) -/

/-- A group of a mapping image: identifier, ADJ, ROLE, member ranks in member order (R452). -/
structure Group where
  gid : Nat
  adj : Bool
  role : Nat
  members : List Nat
  deriving DecidableEq, Repr

/-- A tensor entry of a mapping image (R453). -/
structure TensorEnt where
  tensor : Nat
  kind : Nat
  fmt : Nat
  reg : Bool
  classC : Bool
  depart : Bool
  mxgather : Bool
  uses : Nat
  rule : Nat
  lrows : Nat
  lcols : Nat
  gid : Nat
  cut : Nat
  lblk : Nat
  hdr : Nat
  mom : Nat
  mst : Nat
  wc : Nat
  urows : Nat
  ulen : Nat
  deriving DecidableEq, Repr

/-- A placement table: identifier, group, and per expert its member index, local slot and capacity (R453). -/
structure PlaceTab where
  pt : Nat
  gid : Nat
  ents : List (Nat × Nat × Nat)
  deriving DecidableEq, Repr

/-- A checked mapping image: address and length in words, this module's rank, module IDs of the ranks, groups, tensors,
placement tables, and stages (rank, first layer, count) (R451–R453). -/
structure MapImg where
  addr : Nat
  words : Nat
  rank : Nat
  ids : List Nat
  groups : List Group
  tensors : List TensorEnt
  places : List PlaceTab
  stages : List (Nat × Nat × Nat)
  deriving DecidableEq, Repr

/-- Mapping slots of a partition that are valid, the current slot, and the slot and address of a load in progress. -/
structure MapS where
  imgs : List (Nat × MapImg) := []
  cur : Option Nat := none
  loading : Option (Nat × Nat) := none
  deriving DecidableEq, Repr

/-! ### Racking (R260–R277) -/

/-- Where the bytes of a frame are. -/
inductive FrameSt where
  | waiting
  | resident
  | spilling
  | spilled
  | fetching
  | lost
  deriving DecidableEq, Repr

/-- A frame of a lane (R262): identity, tag, format, shape, SPILL class, first page of its host home, pages held, where
its bytes are, CRC, poison mark, no host home, valid host copy, host write refused, taken by a POP that waits. -/
structure RFrame where
  uid : Nat
  tag : Nat
  fmt : Nat
  rows : Nat
  rbytes : Nat
  cls : Nat
  home : Nat
  pages : List Nat := []
  st : FrameSt := .waiting
  crc : Nat := 0
  poison : Bool := false
  pinned : Bool := false
  host : Bool := false
  unspill : Bool := false
  gone : Bool := false
  deriving DecidableEq, Repr

/-- A RACK command that waits its turn: identity, words, its frame, whether the frame had to be fetched. -/
structure LaneCmd where
  id : Nat
  words : List Word
  uid : Nat
  fetched : Bool
  deriving DecidableEq, Repr

/-- A lane: frames from bottom to top, drain mode, commands in issue order, next frame identity. -/
structure LaneS where
  frames : List RFrame := []
  drain : Bool := false
  cmds : List LaneCmd := []
  next : Nat := 0
  deriving DecidableEq, Repr

/-! ### Root Solver (R327–R346) -/

/-- How far a solve has come. -/
inductive SolveStage where
  | waiting
  | setup
  | iterating
  | ended
  | recorded
  deriving DecidableEq, Repr

/-- An accepted solve: ticket, descriptor, acceptance order and time, activation time, buffer it writes, stage, input and
previous root as loaded, partition and address of the statistics slot it loads, A, iterates, residual state, warm-start state,
results of its stage's products so far, tiles of the product under way that have ended (row, column, elements), tiles to run and
under way, its final status, and whether an install cut has considered it. -/
structure Solve where
  ticket : Nat
  words : List Word
  order : Nat
  accepted : Nat
  started : Option Nat := none
  buf : Nat := 3
  stage : SolveStage := .waiting
  input : List (List FVal) := []
  root : List (List FVal) := []
  load : Option (Nat × Nat) := none
  sstep : Nat := 0
  a : List (List FVal) := []
  x : List (List FVal) := []
  m : List (List FVal) := []
  k : Nat := 0
  rho : FVal := .zero
  rises : Nat := 0
  e : Int := 0
  warm : Bool := false
  warmRej : Nat := 0
  hdrBad : Bool := false
  chk : Bool := false
  results : List (List (List FVal)) := []
  ends : List (Nat × Nat × List (List FVal)) := []
  todo : List STile := []
  lent : Nat := 0
  macs : Nat := 0
  status : Nat := 0
  cut : Bool := false
  deriving DecidableEq, Repr

/-- Parity slots 0 and 1 of a curvature statistics block (R302, R313): its partition, their tier addresses, bytes of each. -/
structure StatPair where
  part : Nat
  slot0 : Nat
  slot1 : Nat
  bytes : Nat
  deriving DecidableEq, Repr

/-- The Root Solver of a region: solves in its slots, SOLVE commands that wait for a slot, the static root table read at
partition start, acceptances so far, the last tickets with their completion, and acceptances up to the DROP under way. -/
structure SolverS where
  slots : List Solve := []
  wait : List (Nat × Nat × List Word) := []
  table : List (List Word) := []
  count : Nat := 0
  recent : List (Nat × Bool) := []
  dropped : Nat := 0
  deriving DecidableEq, Repr

/-! ### Update engine (R360, R378) -/

/-- A journaled APPLY: its command, words after PATCH, clip factor, whether rule 3 falls back (R368) and whether a record it
read was poisoned, whether it is outstanding, stopped by a fault, and has counted its outcomes. -/
structure JEnt where
  cl : Nat
  id : Nat
  tag : Nat
  words : List Word
  clipf : Nat
  fall : Bool
  bad : Bool
  live : Bool := true
  stopped : Bool := false
  counted : Bool := false
  deriving DecidableEq, Repr

/-- A FETCH, PLACE or ADOPT in progress (R386): its command, words after PATCH, rows of its list moved, whether a word it read
was poisoned, rows skipped, whether its list was read. -/
structure UMove where
  cl : Nat
  id : Nat
  words : List Word
  pos : Nat := 0
  poison : Bool := false
  skip : Nat := 0
  started : Bool := false
  deriving DecidableEq, Repr

/-- The update controller for one partition: journal of the attempt, entries of abandoned attempts that the void pass still
has to stamp, tensors applied in the window, tensors clipped, whether a replay runs, APPLYs with FREEZE = 1 whose inputs are
held (whether their attempt was abandoned, words), and FETCH, PLACE and ADOPT commands in progress. -/
structure UpdS where
  jrnl : List JEnt := []
  void : List JEnt := []
  win : List Nat := []
  clipped : List Nat := []
  replay : Bool := false
  frozen : List (Bool × List Word) := []
  moves : List UMove := []
  deriving DecidableEq, Repr

/-! ### Links and time (R400–R416, R436–R438) -/

/-- A lane of a link: transmit taps, precoding, frames in a row with both ends ready; lane marker found, port number and
position of the last valid block, valid blocks in a row, blocks missed in a row. -/
structure LaneT where
  taps : List Int := [0, 0, 0, 64, 0]
  precode : Bool := false
  ready : Nat := 0
  marker : Nat := 0
  portid : Nat := 0
  pos : Nat := 0
  hits : Nat := 0
  miss : Nat := 0
  deriving DecidableEq, Repr

/-- A link: time of entry into its state, `FAB_LINK_CFG` as latched at TRAIN or RETRAIN, ports that take part, TRAIN
expiries, lanes by 4·port + lane, the cause a CHECK has found, times of recent entries into RETRAIN; next LSN sent, first
LSN not acknowledged, packets kept for replay with their last LSN, time the acknowledgement last advanced, replays since;
LSN counted and LSN processed, NAK outstanding, codewords since the last FLOW, time of the last FLOW received; credits of
lanes 0–7 and the shared pool to send with, credits to return; packets that wait for credit with their time and whether
their stall was counted; the packet being received. -/
structure LinkS where
  since : Nat := 0
  cfg : Word := 0x1001F
  ports : Nat := 0
  tries : Nat := 0
  lanes : List (Nat × LaneT) := []
  fail : Option Nat := none
  retrains : List Nat := []
  tx : Nat := 0
  ack : Nat := 0
  buf : List (Nat × Pkt) := []
  ackAt : Nat := 0
  reps : Nat := 0
  rxCnt : Nat := 0
  rxDone : Nat := 0
  nak : Bool := false
  since32 : Nat := 0
  flowAt : Nat := 0
  credits : List Nat := []
  owed : List Nat := []
  wait : List (Nat × Bool × Pkt) := []
  cur : Option Pkt := none
  deriving DecidableEq, Repr

/-- System time: fraction of a nanosecond in 2^-16, correction still to slew, exchanges in a row below 2 ns, whether
TIME_OK was ever reached, the exchange under way (T1, TSEQ), next TSEQ, time of the last request, start of holdover. -/
structure TimeS where
  frac : Nat := 0
  corr : Int := 0
  good : Nat := 0
  everOk : Bool := false
  pend : Option (Nat × Nat) := none
  seq : Nat := 0
  reqAt : Option Nat := none
  holdAt : Option Nat := none
  deriving DecidableEq, Repr

/-- Credit held by a delivered QPUSH whose words wait for cells (R416): link, credit pool, flits, region, queue,
producer. -/
structure CreditHold where
  link : Nat
  pool : Nat
  flits : Nat
  region : Nat
  queue : Nat
  prod : Nat
  deriving DecidableEq, Repr

/-! ### Collectives (R460–R486) -/

/-- Elements of one segment or message that arrived: sender, shard, segment, asked for again by an arbitration, codes with
their poison. -/
structure CData where
  frm : Nat
  shard : Nat
  seg : Nat
  again : Bool := false
  codes : List (Nat × Bool)
  deriving DecidableEq, Repr

/-- A segment that waits for its grant: receiver, shard, segment, data words with one poison mark a flit, VALUE, and the
DIGEST values by shard that follow it. -/
structure CSeg where
  dst : Nat
  shard : Nat
  seg : Nat
  words : List Word
  bad : List Bool
  value : Nat := 0
  digs : List (Nat × Nat) := []
  deriving DecidableEq, Repr

/-- A collective open on this module (R462–R480): its command, its algorithm (1 CHAIN, 2 DIRECT, 3 RING), this member's index
and the members' module IDs, KIND and LCOLS of its tensor, whether it ends its tensor's ranges; block, first sub-tile and
sub-tile count of a PREDUCE; the module's own time at its last arrival. Grants received and unused, granted and not
arrived, and all given, as (member, shard, segment); segments to send; what has arrived; digests (member, shard, d, μ);
a shard under arbitration with its first sum; shards tested here and shards whose DONE has come; write acknowledgements
outstanding by member; its outcome. -/
structure CollS where
  cl : Nat
  id : Nat
  cid : Nat
  words : List Word
  alg : Nat
  me : Nat
  mods : List Nat
  kind : Nat
  lcols : Nat
  lastr : Bool
  block : Nat := 0
  tfirst : Nat := 0
  tcount : Nat := 0
  seen : Nat
  gin : List (Nat × Nat × Nat) := []
  gout : List (Nat × Nat × Nat) := []
  given : List (Nat × Nat × Nat) := []
  out : List CSeg := []
  got : List CData := []
  cnts : List CData := []
  digs : List (Nat × Nat × Nat × Nat) := []
  first : Option (Nat × List (Nat × Bool)) := none
  tested : List Nat := []
  dones : List Nat := []
  acks : List (Nat × Nat) := []
  started : Bool := false
  broken : Bool := false
  status : Nat := 0
  flags : Nat := 0
  nf : Option (Nat × Nat) := none
  ovf : Option (Nat × Nat) := none
  elems : Nat := 0
  detail : Nat := 0
  deriving DecidableEq, Repr

/-- The Carousel for one partition: open collectives, packets held for a CID not open yet with their time of arrival, the
norm table by tensor · 8192 + shard, NORM commands of the step, parts of the gate norm by rank, entries of per-tensor
norms by tensor · 8192 + shard, and the tensors whose ranges have ended with CID and members. -/
structure CarS where
  colls : List CollS := []
  hold : List (Nat × Pkt) := []
  ntab : List (Nat × Nat) := []
  norms : Nat := 0
  parts : List (Nat × Nat) := []
  tents : List (Nat × Nat) := []
  lasts : List (Nat × Nat × List Nat) := []
  deriving DecidableEq, Repr

/-! ### The seal logic (R507–R512) -/

/-- Seal logic of a partition. As a rank: behind the abandon barrier, time of its vote, boundary vote sent. As coordinator:
votes held (rank, SEAL_READY) and the time of the first; after an ABANDON the ranks still to acknowledge, its step and
time; boundary votes (rank, step, mark, layout epoch) and the time of the first; a deferred release (system time, step,
mark). -/
structure SealS where
  barrier : Bool := false
  votedAt : Option Nat := none
  bsent : Bool := false
  votes : List (Nat × Bool) := []
  voteAt : Nat := 0
  ack : Option (List Nat) := none
  ackStep : Nat := 0
  ackAt : Nat := 0
  ackTmo : Bool := false
  bound : List (Nat × Nat × Nat × Nat) := []
  boundAt : Nat := 0
  boundTmo : Bool := false
  release : Option (Nat × Nat × Nat) := none
  deriving DecidableEq, Repr

/-! ### Partitions and metering (R529–R563) -/

/-- What a claim and a fence of a partition have under way: the state it had before the claim, the regions being cleared,
whether the claim waits for MEM_READY, whether the actions of a fence are under way. -/
structure PartS where
  prior : Nat := 1
  clearing : List Nat := []
  waiting : Bool := false
  fencing : Bool := false
  deriving DecidableEq, Repr

/-- A meter reading in progress (R550): number of the function that asked, path (0 function, 1 Ringmaster, 2 baseboard
controller), set of meters (16 unattributed), partition window and buffer that take it, words 0–29. -/
structure MeterJob where
  fn : Nat
  path : Nat
  part : Nat
  win : Nat
  words : List Word
  deriving DecidableEq, Repr

/-! ### The configuration flash (R588–R598) -/

/-- The boot control block: preferred slot (0 A, 1 B), attempt counts, MIN_SVN, revoked keys, BOOTS (R588, R590). -/
structure BootCtl where
  pref : Nat := 0
  attA : Nat := 0
  attB : Nat := 0
  minSvn : Nat := 0
  revoked : List Nat := []
  boots : Nat := 0
  deriving DecidableEq, Repr

/-- The protection record: public keys of Operator and Steward, meter keys by set, `CHG_SEQ`, and the DA registers by
register key (R554). -/
structure Prot where
  keys : Option (List Byte × List Byte) := none
  mkeys : List (Nat × List Byte) := []
  seq : Nat := 0
  da : List (Nat × Word) := []
  deriving DecidableEq, Repr

/-- The health record: units with their bits (bit 0 QUAR, bit 1 CKDEG), Casks by stack (R602). -/
structure Health where
  units : List (Nat × Nat) := []
  casks : List (Nat × Nat) := []
  deriving DecidableEq, Repr

/-- The flash: records kept as two copies (none where neither copy is valid, R590), and the bytes of the configuration
image and the firmware slots by flash address; an unlisted byte is erased and reads 0xFF. -/
structure Flash where
  boot : Option BootCtl := none
  prot : Option Prot := some {}
  health : Option Health := none
  bytes : List (Nat × Byte) := []
  deriving DecidableEq, Repr

/-- The configuration image as held after its checks (R591–R594): vendor section, IDENTITY, TOPOLOGY and TIME records,
profile records by number with their entries. -/
structure Cfg where
  vendor : List Byte := []
  ident : Nat := 2 ^ 14
  topo : Option Nat := none
  time : Option Nat := none
  profiles : List (Nat × List Word) := []
  deriving DecidableEq, Repr

/-- A flash action in progress (R598, R610, R615): asked for over MCTP, erase of a range or write of bytes, address,
length of an erase, data. -/
structure FwJob where
  bmc : Bool
  erase : Bool
  addr : Nat
  len : Nat := 0
  data : List Byte := []
  deriving DecidableEq, Repr

/-- The hub's start-up state: time Ringmaster started, ALIVE seen, SVN and revocation mark of the running image, ports
with PERST# deasserted and with HOST_READY, MCTP endpoint ID, NO_ID, end of the wait for SET_ID, flash action in
progress. -/
structure BootS where
  rmAt : Option Nat := none
  alive : Bool := false
  revoke0 : Bool := false
  perst : List Nat := []
  ready : List Nat := []
  eid : Nat := 0
  noId : Bool := false
  waitId : Option Nat := none
  fw : Option FwJob := none
  deriving DecidableEq, Repr

/-! ### Host rings (R571–R578) -/

/-- A descriptor of an inbound ring that has started (R572, R574): type, NOTIFY, length, host offset, tier address,
partition, packet words or copy bytes with their poison, and whether a packet's words have been written. -/
structure InDesc where
  kind : Nat
  notify : Bool
  len : Nat
  haddr : Nat
  taddr : Nat
  part : Nat
  words : List Word := []
  data : List Byte := []
  poison : Bool := false
  deriving DecidableEq, Repr

/-- An inbound ring: TAIL, descriptors started and not complete, in ring order. -/
structure InRing where
  tail : Nat := 0
  jobs : List InDesc := []
  deriving DecidableEq, Repr

/-- An outbound ring: HEAD as last written, packets written, packets since the last interrupt, time of the first of
them. -/
structure OutRing where
  head : Nat := 0
  pseq : Nat := 0
  cnt : Nat := 0
  first : Nat := 0
  deriving DecidableEq, Repr

/-! ### Hardened storage (R633–R636) -/

/-- A 32-bit word of the hardened set whose three copies disagree: register, instance, index, half, and each copy's value,
none where its code does not correct it. -/
structure Upset3 where
  reg : Reg
  inst : Nat
  idx : Nat
  half : Nat
  a : Option Nat
  b : Option Nat
  c : Option Nat
  deriving DecidableEq, Repr

-- FAMILIES

/-! ### The whole -/

/-- Everything on the module but its clocks, limiter and supply. -/
structure Chip where
  regs : List (Nat × Word) := []
  mem : List (Nat × Byte) := []
  poison : List (Nat × Bool) := []
  queues : List (Nat × QueueS) := []
  seqs : List (Nat × SeqS) := []
  units : List (Nat × UnitS) := []
  partials : List Partial := []
  combs : List (Nat × List Comb) := []
  arbs : List Arb := []
  xfers : List (Nat × List XferJob) := []
  steps : List (Nat × StepS) := []
  flog : List (Nat × List Word) := []
  meters : List (Nat × Nat) := []
  maps : List (Nat × MapS) := []
  held : List (Nat × Nat × Nat) := []
  stats : List StatPair := []
  press : List (Nat × PressS) := []
  d3 : List Nat := []
  racks : List (Nat × LaneS) := []
  solvers : List (Nat × SolverS) := []
  upds : List (Nat × UpdS) := []
  pnorms : List (Nat × List (Nat × Nat)) := []
  links : List (Nat × LinkS) := []
  arrived : List (Nat × Pkt) := []
  chold : List CreditHold := []
  wcens : List (Nat × List CensEntry) := []
  time : TimeS := {}
  cars : List (Nat × CarS) := []
  seals : List (Nat × SealS) := []
  parts : List (Nat × PartS) := []
  mjobs : List MeterJob := []
  energy : List (Nat × Nat) := []
  chgSecond : Bool := false
  flash : Flash := {}
  prot : Prot := {}
  cfg : Cfg := {}
  boot : BootS := {}
  inRings : List (Nat × InRing) := []
  outRings : List (Nat × OutRing) := []
  freeAt : List (Nat × Nat) := []
  cref : Nat := 2 ^ 24 - 1
  upsets : List Upset3 := []
  now : Nat := 0
  up : Nat := 0
  fresh : Nat := 0
  out : List Out := []
  deriving DecidableEq, Repr

/-- Clock of one island: bounds, frequency in effect, FIXED, frequency to change to, gated (R34–R37, R623). -/
structure Island where
  min : Nat := 12
  max : Nat := 40
  cur : Nat := 12
  fixed : Bool := false
  pend : Option Nat := none
  gated : Bool := false
  deriving DecidableEq, Repr

/-- The supply (R617, R622, R632): off, precharging, on, or tripped with only the always-on domain supplied. -/
inductive Supply where
  | off
  | precharge
  | on
  | tripped
  deriving DecidableEq, Repr

/-- Clocks, limiter and supply: PLIM; island clocks; CAP by compute die (40 where not listed) and dies whose thermal rule
acts; input power samples of the last 100 ms in µW, newest first; energy not yet shown, in units of 10^-11 J; consecutive
samples above 400 V, 16 A and 4,600 W; last input voltage in mV; junction sensor readings by 32 · die + sensor (none:
excluded); time of the last thermal lowering of CAP by die; one more than the time since when the flow has been below
2.0 L/min, 0 for none; leak detector wetted. -/
structure Power where
  plim : Nat := 3500
  clk : List (Nat × Island) := []
  supply : Supply := .off
  caps : List (Nat × Nat) := []
  hot : List Nat := []
  samples : List Nat := []
  joules : Nat := 0
  overs : Nat := 0
  amps : Nat := 0
  watts : Nat := 0
  mv : Nat := 0
  junc : List (Nat × Option Int) := []
  thermAt : List (Nat × Nat) := []
  slow : Nat := 0
  leak : Bool := false
  deriving DecidableEq, Repr

/-- The state of the module and the queue of commands that wait, first in, first out. -/
structure State where
  chip : Chip
  pwr : Power
  pending : List Instr
  deriving DecidableEq, Repr

/-- Reasons a step can stop the machine. -/
inductive Fault where
  /-- Raised by no meaning: the manual gives every command of the table an effect. Safe. -/
  | unused
  deriving DecidableEq, Repr

/-- Reasons a command is refused. -/
inductive Refusal where
  /-- Raised by a dispatch arm whose command has no meaning yet. Safe: the run stops. -/
  | notModelled (mnemonic : String)
  deriving DecidableEq, Repr

/-- The module right after cold reset (R20): every register reads its reset value, every memory byte reads 0, every
queue, buffer and engine is empty, and no command waits. -/
def State.reset : State := { chip := {}, pwr := {}, pending := [] }

/-- What a command does to everything but clocks, limiter, supply and queue. -/
def State.onChip (s : State) (f : Chip → Chip) : State := { s with chip := f s.chip }

end Sys2Proof.Machine
end

