-- ==== Sys2Proof/Machine/Ops.lean ====
section
/-! DEFINITION. The named operations over registers, memory, poison, meters and time that every meaning uses. -/

namespace Sys2Proof.Machine

/-! ### Registers -/

/-- Value of a register instance: its listed value, or its reset value (R20). -/
def Chip.rd (c : Chip) (r : Reg) (i : Nat) (j : Nat := 0) : Word :=
  sget (regDefault (regKey r i j)) c.regs (regKey r i j)

/-- A register instance set to a value by a write of its bits [hi:lo]; a hardened word that the write covers has all three
copies updated (R634, R636). -/
def Chip.wrBits (c : Chip) (r : Reg) (i : Nat) (v : Word) (hi lo j : Nat) : Chip :=
  { c with
    regs := sset (regDefault (regKey r i j)) c.regs (regKey r i j) v
    upsets := c.upsets.filter (fun u => !(u.reg == r && u.inst == i && u.idx == j
      && decide (32 * u.half ≤ hi) && decide (lo < 32 * u.half + 32))) }

/-- A register instance set to a value. -/
def Chip.wr (c : Chip) (r : Reg) (i : Nat) (v : Word) (j : Nat := 0) : Chip := c.wrBits r i v 63 0 j

/-- Field of instance i of its register, as a number. -/
def Chip.g (c : Chip) (f : Fld) (i : Nat) (j : Nat := 0) : Nat := wbits (c.rd f.reg i j) f.hi f.lo

/-- Field of instance i, index j of its register set to v modulo its width. -/
def Chip.put (c : Chip) (f : Fld) (i v : Nat) (j : Nat := 0) : Chip :=
  c.wrBits f.reg i (wset (c.rd f.reg i j) f.hi f.lo v) f.hi f.lo j

/-- Whether a one-bit field is 1. -/
def Chip.on (c : Chip) (f : Fld) (i : Nat) (j : Nat := 0) : Bool := c.g f i j != 0

/-- A one-bit field set to 1 (an event sets a W1C or status bit). -/
def Chip.set1 (c : Chip) (f : Fld) (i : Nat) (j : Nat := 0) : Chip := c.put f i 1 j

/-- A sticky field ORed with bits. -/
def Chip.orF (c : Chip) (f : Fld) (i v : Nat) (j : Nat := 0) : Chip := c.put f i (c.g f i j ||| v) j

/-- A counter advanced by n, wrapping at its width. -/
def Chip.inc (c : Chip) (f : Fld) (i : Nat) (n : Nat := 1) (j : Nat := 0) : Chip := c.put f i (c.g f i j + n) j

/-- A counter advanced by n, saturating at its width. -/
def Chip.incSat (c : Chip) (f : Fld) (i : Nat) (n : Nat := 1) (j : Nat := 0) : Chip :=
  c.put f i (satAdd (2 ^ (f.hi + 1 - f.lo) - 1) (c.g f i j) n) j

/-- The word of a register instance with its bits [hi:lo] taken from `d` (R12). -/
def Chip.merged (c : Chip) (r : Reg) (i j hi lo d : Nat) : Word := wset (c.rd r i j) hi lo (bits d hi lo)

/-- A register instance back at its reset value. -/
def Chip.regReset (c : Chip) (r : Reg) (i : Nat) (j : Nat := 0) : Chip :=
  { c with regs := sdrop c.regs (fun k => k == regKey r i j) }

/-- Every index of instance i of a register back at its reset value. -/
def Chip.regResetAll (c : Chip) (r : Reg) (i : Nat) : Chip :=
  { c with regs := sclear c.regs (regKey r i 0) 4096 }

/-- The fields of instance i of a register that hold a property, back at their reset values. -/
def Chip.fieldsReset (c : Chip) (r : Reg) (i : Nat) (j : Nat) (p : FieldInfo → Bool) : Chip :=
  (r.fields.filter p).foldl (fun c f => c.put ⟨r, f.hi, f.lo⟩ i f.reset j) c

/-! ### Partitions and ownership -/

/-- The partition that owns a region (R561 `PART_OWN`). -/
def Chip.owner (c : Chip) (r : Nat) : Option Nat :=
  if c.on .PART_OWN_OWNED 0 r then some (c.g .PART_OWN_OWNER 0 r) else none

/-- Whether a partition owns a region. -/
def Chip.owns (c : Chip) (p r : Nat) : Bool := decide (r < 16) && c.owner r == some p

/-- Region of a flat cluster index (R23). -/
def regionOfCl (cl : Nat) : Nat := cl / 8
/-- Region of a flat unit index (R23). -/
def regionOfU (u : Nat) : Nat := u / 64
/-- Cluster of a flat unit index (R23). -/
def clOfU (u : Nat) : Nat := u / 8

/-- The partition that owns a cluster's region, 0 where none does. -/
def Chip.partOfCl (c : Chip) (cl : Nat) : Nat := (c.owner (regionOfCl cl)).getD 0

/-- Whether a partition runs in the sense of R17: CLEARING, RUNNING or STOPPING (R533). -/
def Chip.runs (c : Chip) (p : Nat) : Bool :=
  let st := c.g .PART_STAT_STATE p
  decide (2 ≤ st) && decide (st ≤ 4)

/-- The regions of a list that a partition owns. -/
def Chip.regionsOf (c : Chip) (p : Nat) : List Nat := (List.range 16).filter (c.owns p)

/-- The flat indices of the clusters a partition owns. -/
def Chip.clustersOf (c : Chip) (p : Nat) : List Nat := (c.regionsOf p).flatMap (fun r => rangeFrom (8 * r) 8)

/-- The step in progress of a partition (R52). -/
def Chip.step (c : Chip) (p : Nat) : Nat := c.g .HUB_STEP_SEALED_STEP p + 1

/-- The current layout epoch of a partition (R448). -/
def Chip.lepoch (c : Chip) (p : Nat) : Nat := c.g .FAB_JOB_LEPOCH p

/-! ### Time, meters, free values, what goes out -/

/-- A value of w bits that the manual leaves open: fresh at each use. -/
def Chip.free (c : Chip) (w : Nat) : Nat × Chip :=
  (Config.freeBits w c.fresh % 2 ^ w, { c with fresh := c.fresh + 1 })

/-- Something sent out of the module. -/
def Chip.emit (c : Chip) (o : Out) : Chip := { c with out := c.out ++ [o] }

/-- A count of meter i of a set advanced by n, wrapping at 2^64; set 16 holds the unattributed meters (R546). -/
def Chip.tally (c : Chip) (p i n : Nat) : Chip :=
  { c with meters := sset 0 c.meters (p * 32 + i) ((sget 0 c.meters (p * 32 + i) + n) % 2 ^ 64) }

/-- An energy of n fJ charged to a set: whole mJ count in meter 23, the remainder carries over (R548). -/
def Chip.charge (c : Chip) (p n : Nat) : Chip :=
  let e := sget 0 c.energy p + n
  { c.tally p 23 (e / 10 ^ 12) with energy := sset 0 c.energy p (e % 10 ^ 12) }

/-- Meter i of a partition advanced by n events, with their energy (R546, R548). -/
def Chip.meter (c : Chip) (p i n : Nat) : Chip := (c.tally p i n).charge p (Config.energyCoef i * n)

/-- Value of meter i of a partition. -/
def Chip.meterVal (c : Chip) (p i : Nat) : Nat := sget 0 c.meters (p * 32 + i)

/-! ### Memory (R173–R190)

Keys of the byte memory: scratch, region buffer, near tier by stack and physical address, Cellar by package and
physical address, each in a range of its own. -/

/-- Key of a scratch byte. -/
def scratchKey (u off : Nat) : Nat := u * 2 ^ 32 + off
/-- Key of a region-buffer byte. -/
def regionKey (r off : Nat) : Nat := 2 ^ 60 + r * 2 ^ 32 + off
/-- Key of a near-tier byte: stack and physical address (R180). -/
def nearKey (s paddr : Nat) : Nat := 2 * 2 ^ 60 + s * 2 ^ 40 + paddr
/-- Key of a Cellar byte: package and physical address (R182). -/
def cellarKey (p paddr : Nat) : Nat := 3 * 2 ^ 60 + p * 2 ^ 40 + paddr

/-- The byte that a memory location nothing has written reads as. Near tier and Cellar are initialised at start-up,
and a claim writes every on-chip byte with zero (R531, R599). -/
def memDefault : Byte := 0

/-- The canonical form of the byte memory. -/
def Chip.memWf (c : Chip) : Bool := swf memDefault c.mem

/-- One byte of memory. -/
def Chip.byte (c : Chip) (k : Nat) : Byte := sget memDefault c.mem k

/-- n bytes of memory from a key. -/
def Chip.bytes (c : Chip) (k n : Nat) : List Byte := (rangeFrom k n).map c.byte

/-- Poison granule of a key: 8 B on chip, 64 B in DRAM (R188). -/
def granuleSize (k : Nat) : Nat := if k < 2 * 2 ^ 60 then 8 else 64
/-- First key of the poison granule that holds a key. -/
def granule (k : Nat) : Nat := k / granuleSize k * granuleSize k

/-- Whether a location is poisoned (R190). -/
def Chip.bad (c : Chip) (k : Nat) : Bool := sget false c.poison (granule k)

/-- Whether any of n bytes from a key is poisoned. -/
def Chip.badAny (c : Chip) (k n : Nat) : Bool :=
  (List.range (n / 8 + 2)).any (fun i => c.bad (min (k + 8 * i) (k + n - 1))) && decide (0 < n)

/-- The poison of the granule of a key set or cleared. -/
def Chip.setBad (c : Chip) (k : Nat) (b : Bool) : Chip :=
  { c with poison := sset false c.poison (granule k) b }

/-- One byte written. -/
def Chip.putByte (c : Chip) (k : Nat) (b : Byte) : Chip := { c with mem := sset memDefault c.mem k b }

/-- Bytes written from a key, with no change of poison. -/
def Chip.putBytes (c : Chip) (k : Nat) : List Byte → Chip
  | [] => c
  | b :: bs => (c.putByte k b).putBytes (k + 1) bs

/-- Poison of a write of n bytes from a key (R190): a poisoned write marks every granule it touches, and a clean write
clears the granules it covers whole. -/
def Chip.poisonWrite (c : Chip) (k n : Nat) (b : Bool) : Chip :=
  let g := granuleSize k
  (List.range (n / g + 2)).foldl (fun c i =>
    let a := granule k + g * i
    if k + n ≤ a ∨ n = 0 then c
    else if b then c.setBad a true
    else if k ≤ a ∧ a + g ≤ k + n then c.setBad a false else c) c

/-- The bytes of a 64 B granule that reach host memory: those of its words without poison (R191). -/
def cleanBytes (ps : List Bool) : Nat := 8 * ((List.range 8).filter (fun i => !ps.getD i false)).length

/-- A 64 B granule written to host memory through a port: whole where no word of it is poisoned, else each word without
poison. The poison granule of an on-chip source is its 8 B word, that of DRAM the whole 64 B (R188, R191). -/
def Chip.hostGranule (c : Chip) (port h : Nat) (bs : List Byte) (ps : List Bool) : Chip :=
  if ps.any (fun b => b) then
    (List.range 8).foldl (fun c i =>
      if ps.getD i false then c else c.emit (.hostWrite port (h + 8 * i) ((bs.drop (8 * i)).take 8))) c
  else c.emit (.hostWrite port h bs)

/-- An access to the memory device of a key wakes it from self-refresh (R623). -/
def Chip.touch (c : Chip) (k : Nat) : Chip :=
  if k < 2 * 2 ^ 60 then c
  else if k < 3 * 2 ^ 60 then
    let s := (k - 2 * 2 ^ 60) / 2 ^ 40
    c.put ⟨.PWR_STAT, 48 + s, 48 + s⟩ 0 0
  else { c with cref := setBits c.cref ((k - 3 * 2 ^ 60) / 2 ^ 40) ((k - 3 * 2 ^ 60) / 2 ^ 40) 0 }

/-- Bytes written from a key, carrying poison or clean (R190). -/
def Chip.write (c : Chip) (k : Nat) (bs : List Byte) (b : Bool := false) : Chip :=
  ((c.putBytes k bs).poisonWrite k bs.length b).touch k

/-- Poison of the eight words of an aligned 64 B granule; the words of a poisoned DRAM granule are all poisoned (R190). -/
def Chip.badWords (c : Chip) (k : Nat) : List Bool := (List.range 8).map (fun i => c.bad (k + 8 * i))

/-- An aligned 64 B granule written with the poison of its eight words: on chip word by word, in DRAM as one (R190). -/
def Chip.write64 (c : Chip) (k : Nat) (bs : List Byte) (ps : List Bool) : Chip :=
  if k < 2 * 2 ^ 60 then
    (List.range 8).foldl (fun c i => c.setBad (k + 8 * i) (ps.getD i false)) (c.putBytes k bs)
  else ((c.putBytes k bs).setBad k (ps.any id)).touch k

/-- A little-endian number of n bytes read from a key (R10). -/
def Chip.num (c : Chip) (k n : Nat) : Nat := leNat (c.bytes k n)

/-- A range of memory filled with zeros and clean check bits. -/
def Chip.zero (c : Chip) (k n : Nat) : Chip :=
  { c with mem := sclear c.mem k n, poison := sclear c.poison k n }

/-! ### Near-tier and Cellar translation (R180–R183) -/

/-- The set of stacks that WIDTH and SEL of a near-tier extent name; none where they make it invalid (R181). -/
def ntxStacks (w : Word) : Option (List Nat) :=
  let sel := wbits w 5 3
  match wbits w 2 1 with
  | 0 => some [sel]
  | 1 => if sel < 4 then some [2 * sel, 2 * sel + 1] else none
  | 2 => if sel = 0 then some (List.range 8) else none
  | _ => none

/-- The set of stacks that a near-tier extent interleaves; none when the descriptor is invalid, LBASE + W > 512 included
(R181). -/
def ntxSet (w : Word) : Option (List Nat) :=
  if ¬ wbit w 0 then none
  else
    match ntxStacks w with
    | some st => if wbits w 24 16 + st.length ≤ 512 then some st else none
    | none => none

/-- Key of a logical near-tier address of a partition under one extent descriptor (R180). -/
def ntxKey (w : Word) (a : Nat) : Option Nat :=
  match ntxSet w with
  | none => none
  | some st =>
    let n := st.length
    let base := wbits w 24 16
    if base * 2 ^ 30 ≤ a ∧ a < (base + n) * 2 ^ 30 then
      let o := a - base * 2 ^ 30
      let g := o / 4096
      some (nearKey (st.getD (g % n) 0) (wbits w 11 6 * 2 ^ 30 + g / n * 4096 + o % 4096))
    else none

/-- First answer of a function over the numbers from i, n of them. -/
def firstSome (f : Nat → Option Nat) : Nat → Nat → Option Nat
  | 0, _ => none
  | n + 1, i => match f i with | some x => some x | none => firstSome f n (i + 1)

/-- Key of a logical near-tier address of a partition, none where no valid extent covers it (R180). -/
def Chip.nearOf (c : Chip) (p a : Nat) : Option Nat :=
  firstSome (fun i => ntxKey (c.rd .PART_NTX p i) a) 128 0

/-- Key of a logical Cellar address under one extent descriptor (R182). -/
def clxKey (w : Word) (a : Nat) : Option Nat :=
  let base := wbits w 12 7 * 24 * 2 ^ 30
  if wbit w 0 ∧ base ≤ a ∧ a < base + 24 * 2 ^ 30 then
    let o := a - base
    let g := o / 4096
    some (cellarKey (g % 24) (wbits w 6 1 * 2 ^ 30 + g / 24 * 4096 + o % 4096))
  else none

/-- Key of a logical Cellar address of a partition (R182). -/
def Chip.cellarOf (c : Chip) (p a : Nat) : Option Nat :=
  firstSome (fun i => clxKey (c.rd .PART_CLX p i) a) 64 0

/-- First offset of the region-buffer range reserved for combining points (R174). -/
def combBase : Nat := 0x01FC0000

/-- Pages of the Racking area of a region: first page and count (R261, R288). -/
def Chip.rackPages (c : Chip) (r : Nat) : Nat × Nat := (c.g .RACK_AREA_BASE r, c.g .RACK_AREA_PAGES r)
/-- Pages of the Solver stage area of a region (R352). -/
def Chip.stagePages (c : Chip) (r : Nat) : Nat × Nat := (c.g .SOLV_STAGE_BASE r, c.g .SOLV_STAGE_PAGES r)

/-- Whether any of n bytes from an offset of a region buffer lies in the Racking area or the Solver stage area, which are
unmapped to every other engine (R261, R352). -/
def Chip.inArea (c : Chip) (r off n : Nat) : Bool :=
  [c.rackPages r, c.stagePages r].any (fun x =>
    decide (0 < n) && decide (0 < x.2) && decide (off < 4096 * (x.1 + x.2)) && decide (4096 * x.1 < off + n))

/-- Key of one byte of a tier address of a partition (R176); none where the address has stray bits, names a reserved
tier or host memory, lies outside the partition, in the reserved range, or in an area of another engine. -/
def Chip.tierKey (c : Chip) (p a : Nat) : Option Nat :=
  match bits a 63 60 with
  | 0 =>
    let u := bits a 47 32
    if bits a 59 48 = 0 ∧ bits a 31 19 = 0 ∧ u < 1024 ∧ c.owns p (regionOfU u) then some (scratchKey u (bits a 18 0)) else none
  | 1 =>
    let r := bits a 35 32
    if bits a 59 36 = 0 ∧ bits a 31 25 = 0 ∧ c.owns p r ∧ bits a 24 0 < combBase ∧ ¬ c.inArea r (bits a 24 0) 1 then some (regionKey r (bits a 24 0)) else none
  | 2 => if bits a 59 39 = 0 then c.nearOf p (bits a 38 0) else none
  | 3 => if bits a 59 41 = 0 then c.cellarOf p (bits a 40 0) else none
  | _ => none

/-- Meter of bytes read (or written) at a key: on chip, near tier, Cellar (R546). -/
def meterOfKey (k : Nat) (wr : Bool) : Nat :=
  (if k < 2 * 2 ^ 60 then 11 else if k < 3 * 2 ^ 60 then 13 else 15) + b2n wr

/-- The keys of the aligned 64 B granules of a tier range; none if any is unmapped. -/
def Chip.tierKeys (c : Chip) (p a n : Nat) : Option (List Nat) :=
  ((List.range (n / 64)).map (fun i => c.tierKey p (a + 64 * i))).foldr
    (fun o acc => match o, acc with | some k, some ks => some (k :: ks) | _, _ => none) (some [])

/-- n bytes (a multiple of 64, at an aligned address) of a tier address with whether they carry poison. -/
def Chip.tierRead (c : Chip) (p a n : Nat) : Option (List Byte × Bool) :=
  (c.tierKeys p a n).map (fun ks => (ks.flatMap (fun k => c.bytes k 64), ks.any (fun k => c.badAny k 64)))

/-- A tier range read by an engine counted on the read meters of its memories (R546). -/
def Chip.meterReads (c : Chip) (p a n : Nat) : Chip :=
  let ks := (c.tierKeys p a n).getD []
  [11, 13, 15].foldl (fun c i =>
    let m := 64 * (ks.filter (fun k => meterOfKey k false == i)).length
    if m = 0 then c else c.meter p i m) c

/-- 64 B granules written at keys in order. -/
def Chip.writeGranules (c : Chip) (p : Nat) : List Nat → List Byte → Bool → Chip
  | [], _, _ => c
  | k :: ks, bs, b =>
    ((c.write k (bs.take 64) b).meter p (meterOfKey k true) (bs.take 64).length).writeGranules p ks (bs.drop 64) b

/-- Bytes written to a tier address of a partition; an unmapped range is not written. -/
def Chip.tierWrite (c : Chip) (p a : Nat) (bs : List Byte) (b : Bool) : Chip :=
  match c.tierKeys p a (cdiv bs.length 64 * 64) with
  | some ks => c.writeGranules p ks bs b
  | none => c

/-! ### Accessors of engines -/

/-- A queue of a region's pool. -/
def Chip.queue (c : Chip) (r q : Nat) : QueueS := sget {} c.queues (r * 1024 + q)
/-- A queue replaced. -/
def Chip.setQueue (c : Chip) (r q : Nat) (x : QueueS) : Chip :=
  { c with queues := sset {} c.queues (r * 1024 + q) x }
/-- A sequencer. -/
def Chip.seq (c : Chip) (cl : Nat) : SeqS := sget {} c.seqs cl
/-- A sequencer replaced. -/
def Chip.setSeq (c : Chip) (cl : Nat) (x : SeqS) : Chip := { c with seqs := sset {} c.seqs cl x }
/-- A unit. -/
def Chip.unit (c : Chip) (u : Nat) : UnitS := sget {} c.units u
/-- A unit replaced. -/
def Chip.setUnit (c : Chip) (u : Nat) (x : UnitS) : Chip := { c with units := sset {} c.units u x }

/-- Slew in one nanosecond: at most 6 units of 2^-16 ns, below 100 ppm (R437). -/
def slewOf (corr : Int) : Int := max (-6) (min 6 corr)

/-- System time of a partition's grace end; none with QEND = 0 (R539). -/
def Chip.gend (c : Chip) (p : Nat) : Option Nat :=
  let q := c.g .PART_QEND_QEND p
  if q = 0 then none else some (q + 1000000 * c.g .PART_QCFG_GRACE p)

/-- Whether a partition is charged for time: it runs, and its grace end has not come (R546, R547). -/
def Chip.charged (c : Chip) (p : Nat) : Bool :=
  c.runs p && (match c.gend p with | some t => decide (c.now < t) | none => true)

/-- One nanosecond of n regions charged to a set: RUN_NS, OCC, static energy and share of the base power (R546–R549). -/
def Chip.occupy (c : Chip) (p n : Nat) : Chip :=
  ((c.tally p 21 1).tally p 22 n).charge p (n * (Config.staticEnergy + Config.baseEnergy))

/-- One nanosecond metered: each partition charged for its regions, the rest to the unattributed meters (R546–R549). -/
def Chip.tickMeters (c : Chip) : Chip :=
  let ps := (List.range 16).filter c.charged
  let used := (ps.map (fun p => (c.regionsOf p).length)).sum
  (ps.foldl (fun c p => c.occupy p (c.regionsOf p).length) c).occupy 16 (16 - used)

/-- One nanosecond passes: system time advances by a nanosecond and its share of the slew, the module's own clock by one
(R9, R436, R437); a powered module meters it. -/
def State.tick (s : State) : State :=
  s.onChip (fun c =>
    let c := if s.pwr.supply = .on then c.tickMeters else c
    let d := slewOf c.time.corr
    let f := (c.time.frac : Int) + 65536 + d
    { c with now := (c.now + (f / 65536).toNat) % 2 ^ 64, up := c.up + 1
             time := { c.time with frac := (f % 65536).toNat, corr := c.time.corr - d } })

/-- A command that changes nothing but the chip answers a next state. -/
def nextChip (s : State) (f : Chip → Chip) : Host.Outcome State Fault Refusal := .next (s.onChip f)

end Sys2Proof.Machine
end

