-- ==== Sys2Proof/Machine/Queues.lean ====
section
/-! DEFINITION. The queue pool (R193–R204): producing and consuming words, quotas and reserves, flush and reset. -/

namespace Sys2Proof.Machine

/-- Cells that n words take (R193). -/
def cellsOf (n : Nat) : Nat := cdiv n 8

/-- Cells a queue holds, those of open packets included; a cell of the head packet is free once its last written word
has been read (R196). -/
def QueueS.cells (q : QueueS) : Nat :=
  (q.linked.map (fun k => cellsOf k.words.length)).sum + (q.opens.map (fun o => cellsOf o.words.length)).sum - q.rd / 8

/-- Packets linked and not yet fully read; a broken queue reads 1 (R196, R203). -/
def QueueS.pkts (q : QueueS) : Nat := if q.broken then 1 else q.linked.length

/-- The enabled queues of a region. -/
def Chip.enabledQueues (c : Chip) (r : Nat) : List Nat :=
  c.regs.filterMap (fun (k, v) =>
    if regKey .QP_QCFG r 0 ≤ k ∧ k < regKey .QP_QCFG r 1024 ∧ wbit v 0 then some (k - regKey .QP_QCFG r 0) else none)

/-- Reserve of a queue, at most its quota (R198). -/
def Chip.reserve (c : Chip) (r q : Nat) : Nat := min (c.g .QP_QCFG_RESERVE r q) (c.g .QP_QCFG_MAX_CELLS r q)

/-- Cells on the free list of a region's pool (R206). -/
def Chip.freeCells (c : Chip) (r : Nat) : Nat :=
  65536 - (c.queues.map (fun p => if p.1 / 1024 = r then p.2.cells else 0)).sum

/-- The reserves of enabled queues that are not yet taken (R198). -/
def Chip.unusedReserves (c : Chip) (r : Nat) : Nat :=
  ((c.enabledQueues r).map (fun q => c.reserve r q - (c.queue r q).cells)).sum

/-- Whether a queue obtains one more of the pool's 65,536 cells (R193, R198). -/
def Chip.canCell (c : Chip) (r q : Nat) : Bool :=
  let n := (c.queue r q).cells
  if c.g .QP_QCFG_MAX_CELLS r q ≤ n ∨ c.freeCells r = 0 then false
  else if n < c.reserve r q then true
  else decide (c.unusedReserves r < c.freeCells r)

/-- What became of a word offered to a queue. -/
inductive QRes where
  | ok
  | stalled
  | malformed
  | overlong
  | disabled
  deriving DecidableEq, Repr

/-- A malformed event marked on a queue and its pool (R197, R201, R203). -/
def Chip.markMalformed (c : Chip) (r q : Nat) : Chip := (c.set1 .QP_QSTAT_MALFORMED r q).set1 .QP_STICKY_MALFORMED r

/-- A poisoned word marked on a queue and its pool (R202). -/
def Chip.markPoisonIn (c : Chip) (r q : Nat) (p : Bool) : Chip :=
  if p then (c.set1 .QP_QSTAT_POISON_IN r q).set1 .QP_STICKY_POISON_IN r else c

/-- The time at which a staleness timer started now fires at the earliest; none with STALE = 0 (R199). -/
def Chip.newTimer (c : Chip) (r q : Nat) : Option Nat :=
  let n := c.g .QP_QCFG_STALE r q
  if n = 0 then none else some (c.up + 256 * n)

/-- A packet linked to the tail of a queue: PKTS rises, LINKED counts it, and the staleness timer starts when the queue
was empty (R194, R199, R211). -/
def Chip.link (c : Chip) (r q : Nat) (k : Packet) : Chip :=
  let x := c.queue r q
  let c := c.inc .QP_QCNT_LINKED r 1 q
  c.setQueue r q { x with linked := x.linked ++ [k], timer := if x.linked.isEmpty then c.newTimer r q else x.timer }

/-- The open packet of a producer. -/
def QueueS.openOf (x : QueueS) (prod : Nat) : Option OpenPkt := x.opens.find? (fun o => o.prod == prod)

/-- One word of a producer accepted, discarded or refused by a queue, by the first rule that applies: a disabled or
broken queue (R201, R203), an overlong packet's rest (R197), a reserved MARK or a NULL inside a packet (R197), a word that would open a 17th
packet (R194), an overlong packet (R197), no cell (R198); otherwise the word is stored and END links the packet. -/
def Chip.qAccept (c : Chip) (r q prod : Nat) (w : QWord) : Chip × QRes :=
  let x := c.queue r q
  let without := x.opens.filter (fun o => o.prod != prod)
  if ¬ c.on .QP_QCFG_EN r q ∨ x.broken then (c.markMalformed r q, .disabled)
  else if x.skip.contains prod then
    (c.setQueue r q { x with skip := if w.mark = 1 then x.skip.filter (· != prod) else x.skip }, .overlong)
  else if w.mark = 3 ∨ (w.mark = 2 ∧ (x.openOf prod).isSome) then
    ((c.setQueue r q { x with opens := without }).markMalformed r q, .malformed)
  else if w.mark = 2 then
    if c.canCell r q then ((c.markPoisonIn r q w.p).link r q ⟨[(0, w.p)], true, false⟩, .ok) else (c, .stalled)
  else
    let o := (x.openOf prod).getD ⟨prod, [], false⟩
    let n := o.words.length
    if n = 0 ∧ w.mark ≠ 1 ∧ 16 ≤ x.opens.length then (c, .stalled)
    else if 512 ≤ n ∨ c.g .QP_QCFG_MAX_CELLS r q < cellsOf (n + 1) then
      (((c.setQueue r q { x with opens := without, skip := if w.mark = 1 then x.skip else prod :: x.skip }).set1
        .QP_QSTAT_OVERLONG r q).set1 .QP_STICKY_OVERLONG r, .overlong)
    else if n % 8 = 0 ∧ ¬ c.canCell r q then (c, .stalled)
    else
      let o := { o with words := o.words ++ [(w.w, w.p)] }
      let c := c.markPoisonIn r q w.p
      if w.mark = 1 then ((c.setQueue r q { x with opens := without }).link r q ⟨o.words, false, o.old⟩, .ok)
      else (c.setQueue r q { x with opens := without ++ [o] }, .ok)

/-- One word offered by a producer: words of a producer that already waits queue up behind its own (R198). -/
def Chip.qWrite (c : Chip) (r q prod : Nat) (w : QWord) : Chip × QRes :=
  let x := c.queue r q
  if x.waiting.any (fun p => p.1 == prod) then (c.setQueue r q { x with waiting := x.waiting ++ [(prod, w)] }, .stalled)
  else
    match c.qAccept r q prod w with
    | (_, .stalled) => (c.setQueue r q { x with waiting := x.waiting ++ [(prod, w)] }, .stalled)
    | res => res

/-- The first waiting word that the queue now takes, in order of arrival, each producer's words in order: a producer
whose word is still refused keeps its later words waiting (R198). -/
def Chip.grantOne (c : Chip) (r q : Nat) : List Nat → List (Nat × QWord) → List (Nat × QWord) → Option Chip
  | _, _, [] => none
  | blocked, before, (prod, w) :: rest =>
    if blocked.contains prod then c.grantOne r q blocked (before ++ [(prod, w)]) rest
    else
      match c.qAccept r q prod w with
      | (_, .stalled) => c.grantOne r q (prod :: blocked) (before ++ [(prod, w)]) rest
      | (c', _) => some (c'.setQueue r q { c'.queue r q with waiting := before ++ rest })

/-- Waiting words taken one after another until none can be, fuel bounding their number. -/
def Chip.grantAll (c : Chip) (r q : Nat) : Nat → Chip
  | 0 => c
  | n + 1 =>
    match c.grantOne r q [] [] (c.queue r q).waiting with
    | some c' => c'.grantAll r q n
    | none => c

/-- A whole packet offered at once by an engine: linked, no cell at once, or the queue is disabled or broken. -/
inductive Post where
  | linked (c : Chip)
  | noCell
  | closed (c : Chip)
  deriving DecidableEq, Repr

/-- A packet of words posted in one piece, with END on the last word. -/
def Chip.post (c : Chip) (r q : Nat) (ws : List (Word × Bool)) : Post :=
  let x := c.queue r q
  let n := cellsOf ws.length
  if ¬ c.on .QP_QCFG_EN r q ∨ x.broken then .closed (c.markMalformed r q)
  else
    let used := x.cells
    let fromReserve := min n (c.reserve r q - used)
    if c.g .QP_QCFG_MAX_CELLS r q < used + n ∨ c.freeCells r < n ∨ c.freeCells r - c.unusedReserves r < n - fromReserve then
      .noCell
    else .linked ((c.markPoisonIn r q (ws.any Prod.snd)).link r q ⟨ws, false, false⟩)

/-- The next word in queue order with its end-of-packet mark; a broken queue returns one NULL word with P (R196, R203). -/
def Chip.qRead (c : Chip) (r q : Nat) : Option (QWord × Chip) :=
  let x := c.queue r q
  if x.broken then some (⟨0, 2, true⟩, c.markPoisonIn r q true)
  else
    match x.linked with
    | [] => none
    | k :: ks =>
      let (w, p) := k.words.getD x.rd (0, false)
      let last := decide (k.words.length ≤ x.rd + 1)
      let x' := if last then { x with linked := ks, rd := 0, timer := if ks.isEmpty then none else c.newTimer r q }
        else { x with rd := x.rd + 1, timer := c.newTimer r q }
      some (⟨w, if k.null then 2 else if last then 1 else 0, p⟩, (c.markPoisonIn r q p).setQueue r q x')

/-- The head packet read whole by its consumer. -/
def Chip.qTake (c : Chip) (r q : Nat) : Option (Packet × Chip) :=
  let x := c.queue r q
  if x.broken then some (⟨[(0, true)], true, false⟩, c.markPoisonIn r q true)
  else
    match x.linked with
    | [] => none
    | k :: ks =>
      some (k, (c.markPoisonIn r q (k.words.any Prod.snd)).setQueue r q
        { x with linked := ks, rd := 0, timer := if ks.isEmpty then none else c.newTimer r q })

/-- A queue emptied at once: linked, open and waiting words, flush, broken mark and timer (R201). -/
def Chip.qEmpty (c : Chip) (r q : Nat) : Chip := c.setQueue r q {}

/-! ### Producers (R195) -/

/-- Producer number of a sequencer. -/
def seqProducer (cl : Nat) : Nat := 2 ^ 20 + cl
/-- Producer number of the receive stage's census records of a partition. -/
def censProducer (p : Nat) : Nat := 2 ^ 23 + p
/-- Producer number of an inbound ring of a function. -/
def ringProducer (f q : Nat) : Nat := 2 ^ 22 + (f * 64 + q)

/-- The partition of a producer that is a sequencer or a ring of a virtual function; none for an engine, which posts to its
own region, for a fabric channel, whose packets the fence checks as they arrive, and for a ring of a physical function. -/
def Chip.prodPart (c : Chip) (prod : Nat) : Option Nat :=
  if 2 ^ 20 ≤ prod ∧ prod < 2 ^ 20 + 128 then c.owner (regionOfCl (prod - 2 ^ 20))
  else if 2 ^ 22 + 128 ≤ prod ∧ prod < 2 ^ 22 + 34 * 64 then some (((prod - 2 ^ 22) / 64 - 2) % 16)
  else none

/-- A queue disabled or reset belongs to a stopped partition; a partition that owns the region locks it (R17). -/
def Chip.locked (c : Chip) (r : Nat) : Bool := match c.owner r with | some p => c.runs p | none => false

/-! ### Meanings -/

/-- FLUSH_TAKE_EFFECT (R200, R204): once no packet open at the request is still open and the consumer is not partway,
the packets present at the request go, and later ones stay in order. -/
def execFlushTakeEffect (r q : Nat) (s : State) : Host.Outcome State Fault Refusal :=
  nextChip s (fun c =>
    let x := c.queue r q
    if x.flush ∧ x.rd = 0 ∧ x.opens.all (fun o => !o.old) then
      let l := x.linked.filter (fun k => !k.old)
      c.setQueue r q { x with linked := l, flush := false, timer := if l.isEmpty then none else x.timer }
    else c)

/-- A flush request accepted: every packet linked or open now is marked for it (R200). A second request while one is
pending has no further effect. -/
def Chip.qFlush (c : Chip) (r q : Nat) : Chip :=
  let x := c.queue r q
  if x.flush then c
  else c.setQueue r q { x with flush := true, linked := x.linked.map (fun k => { k with old := true })
                               opens := x.opens.map (fun o => { o with old := true }) }

end Sys2Proof.Machine
end

