-- ==== Sys2Proof/Machine/Faults.lean ====
section
/-! DEFINITION. Fault records (R494–R498, R654), consumed poison (R504, R505) and the marks they leave on a partition's
step. -/

namespace Sys2Proof.Machine

/-- Where a fault lies, for the places its record goes to (R494): in a region's blocks, in the hub or fabric on behalf
of a partition, or in a resource of no partition with copies to the partitions listed. -/
inductive Place where
  | region (r : Nat)
  | part (p : Nat)
  | nobody (copies : List Nat)
  deriving DecidableEq, Repr

/-- What a fault record says (R495). -/
structure FaultSpec where
  cls : Nat
  action : Nat := 0
  injected : Bool := false
  loc : Nat := 0
  lockind : Nat := 0
  place : Place
  time : Option Nat := none
  detail : List Nat := []
  ext : List Word := []
  deriving DecidableEq, Repr

/-- Partition attributed to a place (R494, R495). -/
def Chip.placePart (c : Chip) : Place → Option Nat
  | .region r => c.owner r
  | .part p => some p
  | .nobody _ => none

/-- The place of a fault in a block of a region: the region's queue, or the log alone where no partition owns the region
(R494). -/
def Chip.regionPlace (c : Chip) (r : Nat) : Place := if (c.owner r).isSome then .region r else .nobody []

/-- The words of a fault record (R495): header, step and recovery epoch, time, five detail words, extension. -/
def Chip.faultWords (c : Chip) (f : FaultSpec) : List Word :=
  let p := c.placePart f.place
  let pn := p.getD 0
  let w0 := c.g .INT_CNT_COUNT 0 0 % 2 ^ 16 + 0xF1 * 2 ^ 16 + f.cls * 2 ^ 24 + f.action * 2 ^ 32
    + b2n f.injected * 2 ^ 35 + pn * 2 ^ 36 + f.loc % 1024 * 2 ^ 40 + f.lockind * 2 ^ 50 + f.ext.length * 2 ^ 54
    + b2n p.isNone * 2 ^ 59
  let w1 := (if p.isNone then 0 else c.step pn % 2 ^ 48 + c.g .FAB_JOB_REPOCH pn * 2 ^ 48)
  [Word.ofNat w0, Word.ofNat w1, Word.ofNat (f.time.getD c.now)]
    ++ (List.range 5).map (fun i => Word.ofNat (f.detail.getD i 0)) ++ f.ext

/-- The fault queue of a region or a partition: region and queue when records are posted (R494, R527, R528). -/
def Chip.faultQueue (c : Chip) : Place → Option (Nat × Nat)
  | .region r => if c.on .INT_RGN_FQ_EN r then some (r, c.g .INT_RGN_FQ_QUEUE r) else none
  | .part p => if c.on .INT_CTL_FQ_EN p then some (c.g .INT_CTL_FQ_REG p, c.g .INT_CTL_FQ_Q p) else none
  | .nobody _ => none

/-- A record lost from a fault queue: REC_LOST of the partition and the count of lost records (R494). -/
def Chip.recLost (c : Chip) (p : Option Nat) : Chip :=
  let c := c.inc .INT_CNT_COUNT 0 1 4
  match p with
  | some p => c.set1 .INT_STAT_REC_LOST p
  | none => c

/-- Whether a queue of a region is closed to the records of a place: a partition's records go to its own regions only
(R195). -/
def Chip.foreignRegion (c : Chip) (pl : Place) (r : Nat) : Bool :=
  match pl with | .part p => !c.owns p r | _ => false

/-- A record posted to one fault queue; a queue outside the partition, disabled, of another consumer kind or without a cell
at once loses it (R195, R494). -/
def Chip.postRecord (c : Chip) (pl : Place) (ws : List Word) : Chip :=
  match c.faultQueue pl with
  | none => c.recLost (c.placePart pl)
  | some (r, q) =>
    let k := c.g .QP_QCFG_CKIND r q
    if (k = 3 ∨ k = 4) ∧ ¬ c.foreignRegion pl r then
      match c.post r q (ws.map (·, false)) with
      | .linked c' => c'
      | _ => c.recLost (c.placePart pl)
    else c.recLost (c.placePart pl)

/-- The record's first 64 B written to the fault log; WRAPPED is set when it overwrites the oldest entry (R494, R522). -/
def Chip.logRecord (c : Chip) (ws : List Word) : Chip :=
  let h := c.g .INT_FLOG_HEAD 0
  let old := !(sget [] c.flog h).isEmpty
  let c := { c with flog := sset [] c.flog h (ws.take 8) }
  let c := if old then c.set1 .INT_FLOG_WRAPPED 0 else c
  c.put .INT_FLOG_HEAD 0 (h + 1)

/-- The MSI-X or status cause bits of a partition that a class sets in `INT_STAT` (R527). -/
def Chip.markIntStat (c : Chip) (cls p : Nat) : Chip :=
  let c := c.set1 .INT_STAT_FAULT p
  let c := if 0x0A ≤ cls ∧ cls ≤ 0x0E then c.set1 .INT_STAT_CTRL p else c
  let c := if cls = 0x0F then c.set1 .INT_STAT_XPART p else c
  if cls = 0x09 then c.set1 .INT_STAT_POISON p else c

/-- The words of the XPART record of a partition: kind, source module, target form and target (R538, R654). -/
def xpartSpec (p kind src form target : Nat) : FaultSpec :=
  { cls := 0x0F, action := 3, place := .part p, detail := [kind + src * 2 ^ 16 + form * 2 ^ 32, target] }

/-- A record of a partition whose fault queue lies in a region outside it: the write is a queue write across the boundary,
counted, marked and logged (R195, R538). Its own record finds the same queue, so the log alone holds it. -/
def Chip.foreignRecord (c : Chip) (p : Nat) : Chip :=
  match c.faultQueue (.part p) with
  | some (r, q) =>
    if c.owns p r then c
    else
      let c := (c.inc .PART_CNT_XPART_COUNT p).inc .INT_CNT_COUNT 0 1 0
      let c := c.logRecord (c.faultWords (xpartSpec p 1 (c.g .FAB_ID_ID 0) 0 (r + q * 16)))
      (c.markIntStat 0x0F p).recLost (some p)
  | none => c

/-- A fault's record posted for a partition. -/
def Chip.postPart (c : Chip) (cls p : Nat) (ws : List Word) : Chip :=
  ((c.postRecord (.part p) ws).markIntStat cls p).foreignRecord p

/-- One fault counted, logged and posted (R494). -/
def Chip.postFault (c : Chip) (f : FaultSpec) : Chip :=
  let c := c.inc .INT_CNT_COUNT 0 1 0
  let ws := c.faultWords f
  let c := c.logRecord ws
  match f.place with
  | .part p => c.postPart f.cls p ws
  | .nobody ps => ps.foldl (fun c p => c.postPart f.cls p ws) c
  | pl =>
    let c := c.postRecord pl ws
    match c.placePart pl with
    | some p => c.markIntStat f.cls p
    | none => c

/-- The step record of a partition. -/
def Chip.stepS (c : Chip) (p : Nat) : StepS := sget {} c.steps p
/-- The step record of a partition replaced. -/
def Chip.setStep (c : Chip) (p : Nat) (x : StepS) : Chip := { c with steps := sset {} c.steps p x }

/-- The module must vote to abandon the partition's step in progress. -/
def Chip.mustVote (c : Chip) (p : Nat) : Chip := c.setStep p { c.stepS p with vote := true }

/-- A control-path fault (R498): its record, and a vote to abandon by every partition concerned. -/
def Chip.ctrlFault (c : Chip) (ps : List Nat) (f : FaultSpec) : Chip :=
  ps.foldl (fun c p => c.mustVote p) (c.postFault f)

/-- Poison consumed by a block of a partition (R505): the gate fails, a POISON_USED record is posted, the job is to be
killed. Block codes are those of R654. -/
def Chip.consumePoison (c : Chip) (p blk tag : Nat) (pl : Place) (loc lockind : Nat) : Chip :=
  let c := c.setStep p { c.stepS p with poison := true, killed := true }
  c.postFault { cls := 0x09, action := 2, place := pl, loc := loc, lockind := lockind, detail := [blk, tag] }

/-- An access across a partition boundary blocked (R538): counted, recorded. Kinds and target forms are those of R654. -/
def Chip.xpart (c : Chip) (p kind src form target : Nat) : Chip :=
  (c.inc .PART_CNT_XPART_COUNT p).postFault (xpartSpec p kind src form target)

/-- A queue's link record found uncorrectable (R203): the queue is broken, its packets and cells are gone, and a record
is posted. Words of stalled producers are met by the broken queue once they are taken (CELL_GRANTED). -/
def Chip.breakQueue (c : Chip) (r q : Nat) : Chip :=
  let c := c.setQueue r q { broken := true, waiting := (c.queue r q).waiting }
  let c := c.set1 .QP_STICKY_BROKEN r
  c.postFault { cls := 0x07, place := .region r, loc := r, lockind := 3, detail := [r + q * 16] }

/-- The error register of a store, its index, its LOC and LOCKIND, and the place its record goes to (R205, R497). -/
def storeInfo : Store → Fld × Fld × Nat × Nat × Nat × Nat × Nat
  | .scratch u => (.UNIT_MEMERR_CE_CNT, .UNIT_MEMERR_ADDR_ADDR, u, 0, u, 1, 1)
  | .region r => (.RGN_MEMERR_CE_CNT, .RGN_MEMERR_ADDR_ADDR, r, 0, r, 3, 2)
  | .press cl => (.RGN_MEMERR_CE_CNT, .RGN_MEMERR_ADDR_ADDR, cl / 8, 0, cl, 2, 3)
  | .pool r _ _ => (.QP_MEMERR_CE_CNT, .QP_MEMERR_ADDR_ADDR, r, 0, r, 3, 4)
  | .link r _ => (.QP_MEMERR_CE_CNT, .QP_MEMERR_ADDR_ADDR, r, 0, r, 3, 4)
  | .near s => (.HUB_NT_ERR_CE_CNT, .HUB_NT_ERR_ADDR_ADDR, 0, s, s, 4, 0)
  | .cellar p => (.CEL_ERR_CE_CNT, .CEL_ERR_ADDR_ADDR, 0, p, p, 5, 0)

/-- Key of a location of a byte-addressed store. -/
def storeKey : Store → Nat → Option Nat
  | .scratch u, a => some (scratchKey u a)
  | .region r, a => some (regionKey r a)
  | .near s, a => some (nearKey s a)
  | .cellar p, a => some (cellarKey p a)
  | _, _ => none

/-- Where word n of the words of a list of packets lies: packet and word in it. -/
def wordIn : Nat → List (List (Word × Bool)) → Option (Nat × Nat)
  | _, [] => none
  | n, k :: ks => if n < k.length then some (0, n) else (wordIn (n - k.length) ks).map (fun x => (x.1 + 1, x.2))

/-- A word of a packet marked with P (R202). -/
def markP (ws : List (Word × Bool)) (n : Nat) : List (Word × Bool) := listSet ws n ((ws.getD n (0, false)).1, true)

/-- The place in its cell of word n of a queue, and the queue with that word marked: linked packets in order, then open
ones. Each packet begins in a cell of its own (R193, R194). -/
def QueueS.markWord (x : QueueS) (n : Nat) : Nat × QueueS :=
  match wordIn n (x.linked.map Packet.words) with
  | some (i, j) => (j % 8, { x with linked := x.linked.mapIdx (fun m k => if m = i then { k with words := markP k.words j } else k) })
  | none =>
    match wordIn (n - (x.linked.map (fun k => k.words.length)).sum) (x.opens.map OpenPkt.words) with
    | some (i, j) => (j % 8, { x with opens := x.opens.mapIdx (fun m o => if m = i then { o with words := markP o.words j } else o) })
    | none => (n % 8, x)

/-- The location of an error as the address register and the record show it: a poison granule's address, and in the queue
pool cell number × 64 + word × 8 (R213). The cell of a word is the one the command names. -/
def Chip.errLoc (c : Chip) (st : Store) (a : Nat) : Nat :=
  match st with
  | .near _ => a / 64 * 64
  | .cellar _ => a / 64 * 64
  | .pool r q n => a / 64 % 65536 * 64 + 8 * ((c.queue r q).markWord n).1
  | .link _ _ => a / 64 % 65536 * 64
  | _ => a / 8 * 8

/-- Whether a partition holds frame f of stack s (R181). -/
def Chip.holdsNear (c : Chip) (p s f : Nat) : Bool :=
  (List.range 128).any (fun i =>
    let w := c.rd .PART_NTX p i
    match ntxSet w with
    | some st => st.contains s && wbits w 11 6 == f
    | none => false)

/-- Whether a partition holds Cellar frame f (R183). -/
def Chip.holdsCellar (c : Chip) (p f : Nat) : Bool :=
  (List.range 64).any (fun i => let w := c.rd .PART_CLX p i; wbit w 0 && wbits w 6 1 == f)

/-- Where the record of an error in a store goes (R192, R494): the partition that holds the location, or the log alone. -/
def Chip.storePlace (c : Chip) (st : Store) (a : Nat) : Place :=
  let ofPart (l : List Nat) : Place := match l with | p :: _ => .part p | [] => .nobody []
  match st with
  | .scratch u => if (c.owner (u / 64)).isSome then .region (u / 64) else .nobody []
  | .region r => if (c.owner r).isSome then .region r else .nobody []
  | .press cl => if (c.owner (cl / 8)).isSome then .region (cl / 8) else .nobody []
  | .pool r _ _ => if (c.owner r).isSome then .region r else .nobody []
  | .link r _ => if (c.owner r).isSome then .region r else .nobody []
  | .near s => ofPart ((List.range 16).filter (fun p => c.holdsNear p s (a / 2 ^ 30)))
  | .cellar _ => ofPart ((List.range 16).filter (fun p => c.holdsCellar p (a / 2 ^ 30)))

/-- Class, W3 and W4 of the record of an uncorrectable error (R497, R654). -/
def ueDetail : Store → Nat → Nat × List Nat
  | .near s, a => (0x05, [s, a])
  | .cellar p, a => (0x06, [p, a])
  | st, a => (0x04, [a, (storeInfo st).2.2.2.2.2.2])

/-- The staging slot of a Press buffer that holds a location is poisoned: the entry that occupies it sets POISON (R303,
R319). Entries occupy consecutive slots in ascending entry index. -/
def Chip.pressBad (c : Chip) (cl loc : Nat) : Chip :=
  let x := sget {} c.press cl
  let mark (acc : Nat × List (Nat × PEntry)) (e : Nat × PEntry) : Nat × List (Nat × PEntry) :=
    let k := loc / 16384
    let hit := decide (acc.1 ≤ k) && decide (k < acc.1 + e.2.tcount)
    (acc.1 + e.2.tcount, acc.2 ++ [(e.1, if hit then { e.2 with poison := true, badSlots := (k - acc.1) :: e.2.badSlots } else e.2)])
  { c with press := sset {} c.press cl { x with ents := (x.ents.foldl mark (0, [])).2 } }

/-- What a read or scrub of a location finds (R188, R189, R192): a corrected error is counted; an uncorrectable one is
counted, marks the location poisoned, is logged in the address register and posts a record; a link record breaks its
queue; the end of a pass is counted. -/
def Chip.readResult (c : Chip) (st : Store) (a : Nat) (res : ScrubResult) : Chip :=
  let (ce, ad, i, j, loc, lk, _) := storeInfo st
  let c := match storeKey st a with | some k => c.touch k | none => c
  match res with
  | .clean => c
  | .corrected => c.incSat ce i 1 j
  | .passEnd => c.inc ⟨ce.reg, 63, 48⟩ i 1 j
  | .uncorrectable =>
    let a := c.errLoc st a
    let c := c.incSat ⟨ce.reg, 47, 32⟩ i 1 j
    let c := (c.put ad i a j).set1 ⟨ad.reg, 63, 63⟩ i j
    match st with
    | .link r q => c.breakQueue r q
    | .pool r q n =>
      let c := c.setQueue r q ((c.queue r q).markWord n).2
      c.postFault { cls := 0x04, place := c.storePlace st a, loc := loc, lockind := lk, detail := [a, 4] }
    | _ =>
      let c := match storeKey st a with | some k => c.setBad k true | none => c
      let c := match st with | .press cl => c.pressBad cl a | _ => c
      let (cls, d) := ueDetail st a
      c.postFault { cls := cls, place := c.storePlace st a, loc := loc, lockind := lk, detail := d }

/-- PATROL_SCRUB_PASS (R188–R192, R203, R212, R213): a read or scrub finds a location clean, corrects it, or marks it
poisoned and reports it. -/
def execPatrolScrubPass (store : Store) (loc : Nat) (res : ScrubResult) (s : State) : Host.Outcome State Fault Refusal :=
  nextChip s (fun c => c.readResult store loc res)

end Sys2Proof.Machine
end

