-- ==== Sys2Proof/Machine/Fence.lean ====
section
/-! DEFINITION. The current mapping of a partition and the fence on writes: registered training state, mapping images
and held ranges (R41, R187, R356–R362, R450, R453). -/

namespace Sys2Proof.Machine

/-! ### Stored blocks (R301, R302) -/

/-- Sub-tile rows P of a block of a dimension (R301). -/
def subRows (dim : Nat) : Nat := cdiv dim 64
/-- Sub-tiles NT of a block (R301). -/
def subCount (dim : Nat) : Nat := subRows dim * (subRows dim + 1) / 2
/-- Bytes of a stored block: its header page and sub-tiles (R302, R341). -/
def blockBytes (dim : Nat) : Nat := 4096 + subCount dim * 16384

/-! ### Rounding of spans (R356) -/

/-- ⌈n⌉4K. -/
def span4K (n : Nat) : Nat := cdiv n 4096 * 4096
/-- Row pitch RP in elements of a row of LEN elements. -/
def rowPitch (len : Nat) : Nat := 32 * cdiv len 32

/-! ### The current mapping -/

/-- Mapping slots of a partition. -/
def Chip.mapS (c : Chip) (p : Nat) : MapS := sget {} c.maps p
/-- Mapping slots of a partition replaced. -/
def Chip.setMapS (c : Chip) (p : Nat) (m : MapS) : Chip := { c with maps := sset {} c.maps p m }

/-- The image of a valid slot. -/
def MapS.img (m : MapS) (slot : Nat) : Option MapImg := (m.imgs.find? (fun x => x.1 == slot)).map Prod.snd

/-- The current mapping image of a partition (R456). -/
def Chip.curMap (c : Chip) (p : Nat) : Option MapImg :=
  match (c.mapS p).cur with
  | some k => (c.mapS p).img k
  | none => none

/-! ### Ranks and the coordinator (R25, R512) -/

/-- Module IDs of a partition's job by rank: this module alone without a mapping. -/
def Chip.jobIds (c : Chip) (p : Nat) : List Nat := match c.curMap p with | some m => m.ids | none => [c.g .FAB_ID_ID 0]
/-- This module's rank in a partition's job. -/
def Chip.myRank (c : Chip) (p : Nat) : Nat := match c.curMap p with | some m => m.rank | none => 0

/-- The live ranks of a partition's job, ascending. -/
def Chip.liveRanks (c : Chip) (p : Nat) : List Nat :=
  (List.range (c.jobIds p).length).filter (fun r => bit (c.rd .SEAL_LIVE p (r / 64)).toNat (r % 64))

/-- The seal coordinator: the lowest live rank. -/
def Chip.coord (c : Chip) (p : Nat) : Option Nat := (c.liveRanks p).head?
/-- Whether this module is the coordinator of a partition's job. -/
def Chip.isCoord (c : Chip) (p : Nat) : Bool := c.coord p == some (c.myRank p)
/-- Whether this module's own rank is live. -/
def Chip.amLive (c : Chip) (p : Nat) : Bool := (c.liveRanks p).contains (c.myRank p)

/-- COORD, IS_COORD and LIVE_N of a partition follow its mapping and `SEAL_LIVE` (R524). -/
def Chip.syncCoord (c : Chip) (p : Nat) : Chip :=
  ((c.put .SEAL_STAT_COORD p ((c.coord p).getD 0)).put .SEAL_STAT_IS_COORD p (b2n (c.isCoord p))).put
    .SEAL_STAT_LIVE_N p (c.liveRanks p).length

/-- Tensor entries of the current mapping. -/
def Chip.tensors (c : Chip) (p : Nat) : List TensorEnt := match c.curMap p with | some m => m.tensors | none => []

/-- The registered entry of a tensor (R361). -/
def Chip.regTensor (c : Chip) (p t : Nat) : Option TensorEnt := (c.tensors p).find? (fun e => e.tensor == t && e.reg)

/-- Whether the mapping lists a tensor with KIND G (R45, R70). -/
def Chip.mapKindG (c : Chip) (p t : Nat) : Bool := (c.tensors p).any (fun e => e.tensor == t && e.kind == 2)

/-! ### Areas of a tensor (R356) -/

/-- S: bytes of one FP32 copy of an area. -/
def TensorEnt.s4 (e : TensorEnt) : Nat := span4K (4 * rowPitch e.ulen * e.urows)
/-- S2: bytes of one BF16 copy. -/
def TensorEnt.s2 (e : TensorEnt) : Nat := span4K (2 * rowPitch e.ulen * e.urows)

/-- The areas of a tensor: base and length of HDR, MOM, MST, WC. -/
def TensorEnt.areas (e : TensorEnt) : List (Nat × Nat) :=
  [(e.hdr, 32 * e.urows), (e.mom, (if e.rule = 0 then 2 else 4) * e.s4), (e.mst, 2 * e.s4), (e.wc, 2 * e.s2)]

/-- First byte that two ranges share. -/
def overlapAt (a n b m : Nat) : Option Nat := if n = 0 ∨ m = 0 then none else if max a b < min (a + n) (b + m) then some (max a b) else none

/-- The visible parity slot of a partition (R40). -/
def Chip.parity (c : Chip) (p : Nat) : Nat := c.g .HUB_STEP_SEALED_STEP p % 2

/-- The visible roots of a partition's regions (R41, R341): of every entry in use its visible record, and of an installed root
the buffer that holds it. -/
def Chip.rootRanges (c : Chip) (p : Nat) : List (Nat × Nat) :=
  (c.regionsOf p).flatMap (fun r =>
    let table := (sget {} c.solvers r).table
    let stat (e i : Nat) : Nat := (wordAt (table.getD e []) i).toNat
    ((List.range (c.g .SOLV_RTAB_COUNT r)).filter (fun e => bit (stat e 0) 36)).flatMap (fun e =>
      let o := c.g .SOLV_RTAB_ADDR r * 4096 + 256 * e + 64 + 64 * c.parity p
      let w := match c.nearOf p o with | some k => c.num k 8 | none => 0
      (2 * 2 ^ 60 + o, 64) ::
        (if bit w 0 ∧ bits w 2 1 < 3 then [(stat e (1 + bits w 2 1), blockBytes (bits (stat e 0) 35 24))] else [])))

/-- The visible slots of the statistics blocks that MERGE and SOLVE commands have named since the partition's mapping became
current: the mapping image lists no such slot (R41, R187, R314; DEDUCED, log entry 57). -/
def Chip.statRanges (c : Chip) (p : Nat) : List (Nat × Nat) :=
  (c.stats.filter (fun x => x.part == p)).map (fun x => (if c.parity p = 0 then x.slot0 else x.slot1, x.bytes))

/-- A statistics block named by a command of a partition. -/
def Chip.noteStat (c : Chip) (p slot0 slot1 dim : Nat) : Chip :=
  let x : StatPair := ⟨p, slot0, slot1, blockBytes dim⟩
  if c.stats.contains x then c else { c with stats := c.stats ++ [x] }

/-- Ranges that the update controller guards: registered areas and areas of old homes (R361), held ranges (R362). -/
def Chip.updFenced (c : Chip) (p : Nat) : List (Nat × Nat) :=
  ((c.tensors p).filter (fun e => e.reg || e.depart)).flatMap TensorEnt.areas
    ++ (c.held.filter (fun h => h.1 == p)).map (fun h => (h.2.1, h.2.2))

/-- Ranges of a partition that no engine may write: those of the update controller, visible roots and statistics, images of valid
slots (R41, R361, R362, R450). -/
def Chip.fenced (c : Chip) (p : Nat) : List (Nat × Nat) :=
  c.updFenced p ++ c.rootRanges p ++ c.statRanges p ++ (c.mapS p).imgs.map (fun x => (x.2.addr, 8 * x.2.words))

/-- A write blocked at the fence (R41, R187, R361, R362, R450, R498): writer code of R654 and the tier address of the
first blocked byte; BLOCKED shows a block under R361 or R362 (R392). -/
def Chip.blockedWrite (c : Chip) (p writer addr : Nat) : Chip :=
  let c := if (c.updFenced p).any (fun r => (overlapAt addr 1 r.1 r.2).isSome) then c.set1 .CEL_UPD_STICKY_BLOCKED p else c
  c.ctrlFault [p] { cls := 0x0B, action := 3, place := .part p, detail := [writer, addr] }

/-- First byte of a write of n bytes at a tier address that the fence blocks, none if it lies in no fenced range. -/
def Chip.fenceHit (c : Chip) (p a n : Nat) : Option Nat :=
  (c.fenced p).foldl (fun acc r =>
    match acc, overlapAt a n r.1 r.2 with
    | none, x => x
    | some y, some x => some (min x y)
    | some y, none => some y) none

/-- Working-copy slot of a class N tensor that a CHAIN with CVT of KIND W may write now: slot SEALED_STEP mod 2 (R41). -/
def Chip.refreshSlot (c : Chip) (p t : Nat) : Option (Nat × Nat) :=
  match c.regTensor p t with
  | some e => if e.classC then none else some (e.wc + c.g .HUB_STEP_SEALED_STEP p % 2 * e.s2, e.s2)
  | none => none

/-- Whether a range lies whole in another. -/
def within (a n : Nat) (r : Nat × Nat) : Bool := decide (r.1 ≤ a) && decide (a + n ≤ r.1 + r.2)

/-- Tier address of an on-chip key (R176). -/
def tierOfKey (k : Nat) : Nat := k

end Sys2Proof.Machine
end

