-- ==== Sys2Proof/Machine/Operands.lean ====
section
/-! DEFINITION. Operand forms: the operand address space, element streams in memory, command headers, the words of
MATMUL and of a chain body, and the static checks of R218 in their order (R101–R107, R142–R145, R174, R217–R246). -/

namespace Sys2Proof.Machine

/-! ### Status codes (R226) -/

/-- Status codes 0–20 of a completion record. -/
def stOK : Nat := 0
def stBadOpcode : Nat := 1
def stBadLen : Nat := 2
def stBadField : Nat := 3
def stBadFormat : Nat := 4
def stBadShape : Nat := 5
def stBadSparse : Nat := 6
def stBadAlign : Nat := 7
def stBadAddr : Nat := 8
def stBadChain : Nat := 9
def stBadTier : Nat := 10
def stBadOverlap : Nat := 11
def stDenied : Nat := 12
def stCancelled : Nat := 13
def stStaleEnd : Nat := 14
def stQueueErr : Nat := 15
def stCmdPoison : Nat := 16
def stSealed : Nat := 17
def stSealAbandon : Nat := 18
def stStepMismatch : Nat := 19
def stSliceFail : Nat := 20

/-- The first status other than OK of a list of checks made in order (R218). -/
def firstBad : List Nat → Nat
  | [] => stOK
  | s :: ss => if s = stOK then firstBad ss else s

/-- A check: its status when its condition fails. -/
def chk (ok : Bool) (st : Nat) : Nat := if ok then stOK else st

/-! ### The operand address space of a unit (R174) -/

/-- Key of one byte of an operand address of a unit. -/
def opKey (u a : Nat) : Option Nat :=
  if a < 0x00080000 then some (scratchKey u a)
  else if 0x01000000 ≤ a ∧ a < 0x02FC0000 then some (regionKey (regionOfU u) (a - 0x01000000))
  else none

/-- Whether n bytes from an operand address lie whole in the scratch or whole in the region buffer (R174). -/
def opRange (a n : Nat) : Bool :=
  n == 0 || decide (a + n ≤ 0x00080000) || (decide (0x01000000 ≤ a) && decide (a + n ≤ 0x02FC0000))

/-- Key of an operand address already checked. -/
def opAt (u a : Nat) : Nat := (opKey u a).getD 0

/-- Bytes at an operand address of a unit. -/
def Chip.opBytes (c : Chip) (u a n : Nat) : List Byte := c.bytes (opAt u a) n
/-- Whether bytes at an operand address carry poison. -/
def Chip.opBad (c : Chip) (u a n : Nat) : Bool := c.badAny (opAt u a) n

/-- Whether a write of n bytes at a tier location meets a valid routine of a cluster of the region (R237). -/
def Chip.inRoutine (c : Chip) (r off n : Nat) : Bool :=
  (rangeFrom (8 * r) 8).any (fun cl => (List.range 64).any (fun k =>
    let w := c.rd .CLU_SEQ_RTN cl k
    let a := wbits w 31 0 - 0x01000000
    wbit w 63 && decide (off < a + 8 * wbits w 54 32) && decide (a < off + n)))

/-- Whether an engine reaches n bytes from an operand address of a unit: in one memory, in no area of another engine
(R174, R261, R352). -/
def Chip.opReach (c : Chip) (u a n : Nat) : Bool :=
  opRange a n && !(decide (0x01000000 ≤ a) && c.inArea (regionOfU u) (a - 0x01000000) n)

/-- Whether engines may write n bytes at an operand address: reached and in no valid routine (R174, R237). -/
def Chip.opWritable (c : Chip) (u a n : Nat) : Bool :=
  c.opReach u a n && !(decide (0x01000000 ≤ a) && decide (0 < n) && c.inRoutine (regionOfU u) (a - 0x01000000) n)

/-! ### Formats of element streams (R27, R60, R65, R66) -/

/-- Half-bytes of one element of a format code. -/
def fmtNibbles : Nat → Nat
  | 0 => 4
  | 1 => 8
  | 2 => 2
  | 3 => 2
  | 4 => 1
  | 6 => 8
  | 7 => 2
  | _ => 8

/-- Bytes that n elements of a format take. -/
def fmtBytes (f n : Nat) : Nat := cdiv (n * fmtNibbles f) 2

/-- Whether a format code is a microscaling format. -/
def isMx (f : Nat) : Bool := f == 2 || f == 3 || f == 4

/-- Element format of an MX code. -/
def mxOf (f : Nat) : MxElem := if f = 2 then .e4m3 else if f = 3 then .e5m2 else .e2m1

/-- The raw code of element j of a row that starts at an operand address (R66: the even MXFP4 element in bits [3:0]). -/
def Chip.rawElem (c : Chip) (u row f j : Nat) : Nat :=
  match fmtNibbles f with
  | 1 => let b := c.num (opAt u (row + j / 2)) 1; if j % 2 = 0 then b % 16 else b / 16
  | n => c.num (opAt u (row + j * n / 2)) (n / 2)

/-- Value of a raw element code that is not MX, widened as R68 gives. -/
def rawValue (f w : Nat) : FVal :=
  match f with
  | 0 => decodeF bf16 w
  | 6 => roundF fp32 .rne (.fin (signed 32 w) 0)
  | _ => decodeF fp32 w

/-- Exact value of an MX element under a scale byte; a NaN scale makes every element NaN (R65, R79). -/
def mxValue (f code scale : Nat) : FVal :=
  match scaleExp scale with
  | none => .nan
  | some X => (decodeElem (mxOf f) code).scale2 X

/-! ### Command headers (R217, R219) -/

/-- OP of a header. -/
def hdrOp (w : Word) : Nat := wbits w 7 0
/-- LEN of a header. -/
def hdrLen (w : Word) : Nat := wbits w 17 8
/-- CPL of a header. -/
def hdrCpl (w : Word) : Bool := wbit w 18
/-- CQ of a header. -/
def hdrCq (w : Word) : Nat := wbits w 28 19
/-- GRP of a header. -/
def hdrGrp (w : Word) : Nat := wbits w 31 29
/-- WAITMASK of a header. -/
def hdrWait (w : Word) : Nat := wbits w 39 32
/-- TAG of a header. -/
def hdrTag (w : Word) : Nat := wbits w 55 40

/-- Least and greatest LEN of an opcode; none for a reserved code (R219). -/
def opLen : Nat → Option (Nat × Nat)
  | 0x00 => some (1, 1)
  | 0x03 => some (2, 2)
  | 0x04 => some (2, 10)
  | 0x05 => some (2, 2)
  | 0x06 => some (3, 3)
  | 0x07 => some (3, 3)
  | 0x08 => some (2, 2)
  | 0x09 => some (2, 2)
  | 0x0A => some (4, 4)
  | 0x10 => some (14, 14)
  | 0x11 => some (26, 26)
  | 0x12 => some (6, 6)
  | 0x20 => some (12, 12)
  | 0x21 => some (18, 18)
  | 0x22 => some (16, 16)
  | 0x23 => some (8, 8)
  | 0x24 => some (8, 8)
  | _ => none

/-! ### MATMUL (R227) -/

/-- Fields of MATMUL words 1–13. -/
def mmM (w : List Word) : Nat := wbits (wordAt w 1) 23 0
def mmN (w : List Word) : Nat := wbits (wordAt w 1) 47 24
def mmFa (w : List Word) : Nat := wbits (wordAt w 1) 51 48
def mmFb (w : List Word) : Nat := wbits (wordAt w 1) 55 52
def mmTa (w : List Word) : Bool := wbit (wordAt w 1) 56
def mmTb (w : List Word) : Bool := wbit (wordAt w 1) 57
def mmSparse (w : List Word) : Nat := wbits (wordAt w 1) 59 58
def mmBias (w : List Word) : Bool := wbit (wordAt w 1) 60
def mmDest (w : List Word) : Nat := wbits (wordAt w 1) 62 61
def mmK (w : List Word) : Nat := wbits (wordAt w 2) 23 0
def mmKoff (w : List Word) : Nat := wbits (wordAt w 2) 47 24
def mmKsplit (w : List Word) : Nat := wbits (wordAt w 2) 50 48 + 1
def mmSlice (w : List Word) : Nat := wbits (wordAt w 3) 7 0
def mmNslice (w : List Word) : Nat := wbits (wordAt w 3) 15 8 + 1
def mmCreg (w : List Word) : Nat := wbits (wordAt w 3) 19 16
def mmPid (w : List Word) : Nat := wbits (wordAt w 3) 35 20
/-- ADDR and STRIDE of words 4–8: A, B, scales of A, scales of B, metadata. -/
def mmAddr (w : List Word) (k : Nat) : Nat := wbits (wordAt w (4 + k)) 31 0
def mmStride (w : List Word) (k : Nat) : Nat := wbits (wordAt w (4 + k)) 55 32
def mmBiasAddr (w : List Word) : Nat := wbits (wordAt w 9) 31 0
def mmOut (w : List Word) : Nat := wbits (wordAt w 10) 31 0
def mmOutStride (w : List Word) : Nat := wbits (wordAt w 10) 55 32
def mmRmask (w : List Word) : Nat := wbits (wordAt w 11) 31 0
def mmRen (w : List Word) : Bool := wbit (wordAt w 11) 32
def mmCen (w : List Word) : Bool := wbit (wordAt w 11) 33
def mmCmask (w : List Word) : Nat := wbits (wordAt w 12) 31 0
def mmTensor (w : List Word) : Nat := wbits (wordAt w 13) 23 0

/-- The mode of an operand pairing: 0 BF16, 1 MXFP8, 2 MXFP4, 3 SPLIT; none outside R101 (R102). -/
def mmMode (fa fb : Nat) : Option Nat :=
  if fa = 0 ∧ fb = 0 then some 0
  else if (fa = 2 ∨ fa = 3) ∧ (fb = 2 ∨ fb = 3) then some 1
  else if fa = 4 ∧ fb = 4 then some 2
  else if fa = 1 ∧ fb = 1 then some 3
  else none

/-- Whether a mode is microscaled. -/
def modeMx (m : Nat) : Bool := m == 1 || m == 2

/-- The BAD_FIELD checks of MATMUL's table (R227), for a sequencer of a region. -/
def mmFieldOk (w : List Word) (region : Nat) : Bool :=
  let mx := isMx (mmFa w)
  let zero (k : Nat) : Bool := wordAt w k == 0
  (!(mmBias w && decide (0 < mmSlice w))) && mmDest w != 3 && !wbit (wordAt w 1) 63
    && !(decide (1 < mmKsplit w) && mmDest w == 2) && wbits (wordAt w 2) 63 51 == 0
    && decide (mmSlice w < mmNslice w)
    && (mmDest w == 2) == decide (1 < mmNslice w)
    && !(mmSlice w == 0 && mmCreg w != region) && wbits (wordAt w 3) 63 36 == 0
    && (rangeFrom 4 5).all (fun k => wbits (wordAt w k) 63 56 == 0)
    && (mx || (zero 6 && zero 7)) && (mmSparse w != 0 || zero 8)
    && wbits (wordAt w 9) 63 32 == 0 && (mmBias w || zero 9)
    && wbits (wordAt w 10) 63 56 == 0
    && wbits (wordAt w 11) 63 34 == 0 && !((mmRen w || mmCen w) && mmDest w != 0)
    && wbits (wordAt w 12) 63 32 == 0 && wbits (wordAt w 13) 63 24 == 0

/-- The checks of MATMUL after BAD_FIELD, in the order of its table and of R105 (R218 step 4). -/
def mmOwnChecks (w : List Word) : Nat :=
  let mode := mmMode (mmFa w) (mmFb w)
  let mx := modeMx (mode.getD 0)
  let al (n : Nat) (k : Nat) : Bool := mmAddr w k % n == 0 && mmStride w k % n == 0
  firstBad [
    chk mode.isSome stBadFormat,
    chk (!(mx && (mmTa w || mmTb w))) stBadFormat,
    chk (mmSparse w != 3 && !(mode == some 3 && mmSparse w != 0)) stBadSparse,
    chk (mmKoff w % 32 == 0 && !(mmKoff w != 0 && mmSlice w == 0) && decide (mmKoff w + mmK w ≤ 16777215)) stBadShape,
    chk (!(decide (mmSlice w + 1 < mmNslice w) && mmK w % 32 != 0)) stBadShape,
    chk (al 64 0 && al 64 1) stBadAlign,
    chk (!mx || (al 16 2 && al 16 3)) stBadAlign,
    chk (mmSparse w == 0 || al 16 4) stBadAlign,
    chk (!mmBias w || mmBiasAddr w % 64 == 0) stBadAlign,
    chk (!(mmDest w == 0 || (mmDest w == 2 && mmSlice w == 0)) || (mmOut w % 64 == 0 && mmOutStride w % 64 == 0)) stBadAlign,
    chk (mmRmask w % 8 == 0) stBadAlign,
    chk (mmCmask w % 4 == 0) stBadAlign]

/-! ### Chain bodies (R142, R145) -/

/-- Fields of a chain body. -/
def chRows (b : List Word) : Nat := wbits (wordAt b 0) 23 0
def chCols (b : List Word) : Nat := wbits (wordAt b 0) 47 24
def chNstage (b : List Word) : Nat := wbits (wordAt b 0) 51 48
def chSrc (b : List Word) : Nat := wbits (wordAt b 0) 54 52
def chNimm (b : List Word) : Nat := wbits (wordAt b 0) 58 55
def chMpol (b : List Word) : Bool := wbit (wordAt b 0) 59
def chMaskEn (b : List Word) : Bool := wbit (wordAt b 0) 60
def chSrc2En (b : List Word) : Bool := wbit (wordAt b 0) 61
/-- Address, stride, format and axis of stream word k (1 source, 3 second stream). -/
def chAddr (b : List Word) (k : Nat) : Nat := wbits (wordAt b k) 31 0
def chStride (b : List Word) (k : Nat) : Nat := wbits (wordAt b k) 55 32
def chFmt (b : List Word) (k : Nat) : Nat := wbits (wordAt b k) 59 56
def chAxis (b : List Word) (k : Nat) : Nat := wbits (wordAt b k) 60 60
def chDstEn (b : List Word) : Bool := wbit (wordAt b 2) 56
def chIdxBase (b : List Word) : Nat := wbits (wordAt b 5) 39 0
def chTensor (b : List Word) : Nat := wbits (wordAt b 5) 63 40
def chPitch (b : List Word) : Nat := wbits (wordAt b 6) 39 0
def chRowsValid (b : List Word) : Nat := wbits (wordAt b 7) 23 0
def chColsValid (b : List Word) : Nat := wbits (wordAt b 7) 47 24
/-- Broadcast vector n: enabled, axis, format. -/
def chBrEn (b : List Word) (n : Nat) : Bool := wbit (wordAt b (8 + n)) 32
def chBrAxis (b : List Word) (n : Nat) : Nat := wbits (wordAt b (8 + n)) 33 33
def chBrFmt (b : List Word) (n : Nat) : Nat := wbits (wordAt b (8 + n)) 37 34
def chRedAddr (b : List Word) (n : Nat) : Nat := wbits (wordAt b (10 + n)) 31 0
/-- The stage words in use. -/
def chStages (b : List Word) : List Word := (b.drop 12).take (min 8 (chNstage b))
/-- Immediate i. -/
def chImm (b : List Word) (i : Nat) : FVal :=
  let w := wordAt b (20 + i / 2)
  decodeF fp32 (if i % 2 = 0 then wbits w 31 0 else wbits w 63 32)

/-- Fields of a stage word. -/
def sgOp (w : Word) : Nat := wbits w 7 0
def sgB (w : Word) : Nat := wbits w 10 8
def sgBidx (w : Word) : Nat := wbits w 13 11
def sgC (w : Word) : Nat := wbits w 16 14
def sgCidx (w : Word) : Nat := wbits w 19 17
def sgSave (w : Word) : Bool := wbit w 20
def sgSlot (w : Word) : Nat := wbits w 21 21
def sgFn (w : Word) : Nat := wbits w 25 22
def sgAxisKind (w : Word) : Nat := wbits w 27 26
def sgDst (w : Word) : Nat := wbits w 28 28
def sgAcc (w : Word) : Bool := wbit w 29
def sgFin (w : Word) : Bool := wbit w 30
def sgK (w : Word) : Nat := wbits w 34 31 + 1
def sgDraw (w : Word) : Nat := wbits w 42 35

/-- Whether an opcode of R146 takes operand B. -/
def opTakesB (o : Nat) : Bool :=
  (decide (1 ≤ o) && decide (o ≤ 6)) || o == 0x0A || o == 0x0B || o == 0x0E || (decide (0x40 ≤ o) && decide (o ≤ 0x43))
/-- Whether an opcode takes operand C: FMA and CLAMP. -/
def opTakesC (o : Nat) : Bool := o == 0x05 || o == 0x0E
/-- Whether an opcode is listed in R146. -/
def opKnown (o : Nat) : Bool :=
  decide (o ≤ 0x0E) || (decide (0x10 ≤ o) && decide (o ≤ 0x13)) || (decide (0x20 ≤ o) && decide (o ≤ 0x27))
    || (decide (0x30 ≤ o) && decide (o ≤ 0x36)) || (decide (0x40 ≤ o) && decide (o ≤ 0x43)) || o == 0x50 || o == 0x60 || o == 0x70

/-- Whether an operand selector names something the chain has, given the save slots written so far (R143). -/
def selOk (b : List Word) (slots : List Nat) (sel idx : Nat) : Bool :=
  match sel with
  | 0 => false
  | 1 => decide (idx < chNimm b)
  | 2 => chBrEn b 0
  | 3 => chBrEn b 1
  | 4 => slots.contains 0
  | 5 => slots.contains 1
  | 6 => chSrc2En b
  | _ => false

/-- Whether the fields that a stage does not use are 0 and those it uses are in range (R143, R145, R146). An immediate index
counts as used only under selector 1, SSLOT only under SAVE (DEDUCED, log entry 48). -/
def stageOk (b : List Word) (slots : List Nat) (w : Word) : Bool :=
  let o := sgOp w
  let red := o == 0x60
  let cvt := o == 0x70
  let rand := o == 0x50
  opKnown o
    && (if opTakesB o then selOk b slots (sgB w) (sgBidx w) else sgB w == 0)
    && (sgB w == 1 || sgBidx w == 0)
    && (if opTakesC o then selOk b slots (sgC w) (sgCidx w) else sgC w == 0)
    && (sgC w == 1 || sgCidx w == 0)
    && (sgSave w || sgSlot w == 0)
    && (if red then decide (sgFn w ≤ 10) && sgAxisKind w != 3 else cvt || (sgFn w == 0 && sgAxisKind w == 0))
    && (red || cvt || (sgDst w == 0 && !sgFin w)) && (red || !sgAcc w)
    && (if red && sgFn w == 10 then sgAxisKind w == 0 else wbits w 34 31 == 0)
    && (rand || cvt || sgDraw w == 0) && wbits w 63 43 == 0
    && !(red && sgFn w == 9 && (sgAcc w || !sgFin w || chSrc b == 0))

/-- Every stage checked in order, with the save slots that earlier stages wrote. -/
def stagesOk (b : List Word) : List Nat → List Word → Bool
  | _, [] => true
  | slots, w :: ws => stageOk b slots w && stagesOk b (if sgSave w then sgSlot w :: slots else slots) ws

/-- The CVT stage of a chain. -/
def chCvt (b : List Word) : Option Word := (chStages b).find? (fun w => sgOp w == 0x70)
/-- The reduction stages of a chain. -/
def chReds (b : List Word) : List Word := (chStages b).filter (fun w => sgOp w == 0x60)
/-- Destination format: that of the CVT, else FP32 (R142). -/
def chDstFmt (b : List Word) : Nat := match chCvt b with | some w => sgFn w | none => 1
/-- Block axis of the destination: AXIS of the CVT. -/
def chDstAxis (b : List Word) : Nat := match chCvt b with | some w => sgDst w | none => 0

/-- The BAD_CHAIN row of R143. -/
def chainOk (b : List Word) : Bool :=
  let st := chStages b
  let cv := st.filter (fun w => sgOp w == 0x70)
  let rd := chReds b
  decide (chSrc b ≤ 2) && decide (chNstage b ≤ 8) && decide (chNimm b ≤ 8) && wbits (wordAt b 0) 63 62 == 0
    && wbits (wordAt b 1) 63 61 == 0 && wbits (wordAt b 2) 63 57 == 0 && wbits (wordAt b 3) 63 61 == 0
    && wbits (wordAt b 4) 63 56 == 0 && wbits (wordAt b 6) 63 40 == 0 && wbits (wordAt b 7) 63 48 == 0
    && wbits (wordAt b 8) 63 38 == 0 && wbits (wordAt b 9) 63 38 == 0
    && wbits (wordAt b 10) 63 32 == 0 && wbits (wordAt b 11) 63 32 == 0
    && stagesOk b [] st
    && (match cv with | [] => true | [w] => st.getLast? == some w && (st.filter (· == w)).length == 1 | _ => false)
    && (match rd with | [] => true | [_] => true | [x, y] => sgDst x != sgDst y | _ => false)

/-- The BAD_FORMAT row of R143, with the rule of R144 for a chain without stages. The fields of a disabled stream are checked
like those of one in use; only the source word of SRC = 0 is ignored (R142). -/
def chainFmtOk (b : List Word) : Bool :=
  let ok (f : Nat) : Bool := decide (f ≤ 4) || f == 6
  let str (k : Nat) : Bool := ok (chFmt b k) && (isMx (chFmt b k) || chAxis b k == 0)
  (chSrc b == 0 || str 1) && str 3 && decide (chBrFmt b 0 ≤ 1) && decide (chBrFmt b 1 ≤ 1)
    && (match chCvt b with | some w => ok (sgFn w) | none => true)
    && (chNstage b != 0 || chSrc b == 0 || decide (chFmt b 1 ≤ 1))

/-- Lines of a reduction of a chain with the given rows and columns. -/
def redLines (axis rows cols : Nat) : Nat := if axis = 0 then rows else if axis = 1 then cols else 1

/-- The BAD_SHAPE row of R143 for given tile dimensions: a fused chain must have the product's M and N; the reduction
limits of R157 hold per chain the unit runs, also for one that closes its state at once (DEDUCED, log entry 48); the element
index stays below 2^40. -/
def chainShapeOk (b : List Word) (mn : Option (Nat × Nat)) : Bool :=
  let r := chRows b
  let n := chCols b
  (match mn with | some (m, k) => r == m && n == k | none => true)
    && (chReds b).all (fun w =>
      let rr := if mn.isSome then min r 64 else r
      let cc := if mn.isSome then min n 32 else n
      if sgFn w = 10 then decide (rr ≤ 128) else decide (redLines (sgAxisKind w) rr cc ≤ 4096))
    && (r == 0 || n == 0 || decide (chIdxBase b + (r - 1) * chPitch b + n - 1 < 2 ^ 40))

/-- Row or band stride of a scale array (R655). -/
def scaleStride (axis cols : Nat) : Nat := if axis = 0 then 16 * cdiv (cdiv cols 32) 16 else 16 * cdiv cols 16

/-- The BAD_ALIGN row of R143: any address or stride of the body, in use or not; only the source word of SRC = 0 is ignored
(R142). -/
def chainAlignOk (b : List Word) : Bool :=
  let str (k : Nat) : Bool := chAddr b k % 64 == 0 && chStride b k % 64 == 0
  (chSrc b == 0 || str 1) && str 2 && str 3 && str 4 && chAddr b 8 % 64 == 0 && chAddr b 9 % 64 == 0
    && chRedAddr b 0 % 64 == 0 && chRedAddr b 1 % 64 == 0

/-- Columns of a stored row of a format: an MX row blocked along itself is filled up to whole blocks (R66). -/
def storedCols (fmt axis cols : Nat) : Nat := if isMx fmt ∧ axis = 0 then 32 * cdiv cols 32 else cols

/-- Whether a test holds of `rows` rows of n bytes, the last row asked first. -/
def rowsOk (p : Nat → Nat → Bool) (addr stride rows n : Nat) : Bool :=
  p (addr + (rows - 1) * stride) n && (List.range rows).all (fun r => p (addr + r * stride) n)

/-- Whether a test holds of every row of a stream, the bytes between two rows left out, and of its scale array whole (R143,
R655). A row counts whole, with its masked and padding lanes (DEDUCED, log entry 48). -/
def streamOk (p : Nat → Nat → Bool) (addr stride fmt axis rows cols : Nat) : Bool :=
  rows == 0 || cols == 0 ||
    (rowsOk p addr stride rows (fmtBytes fmt cols)
      && (!isMx fmt || p (addr + rows * stride) ((if axis = 0 then rows else cdiv rows 32) * scaleStride axis cols)))

/-- The BAD_ADDR row of R143; SRC must name the memory its address lies in. -/
def chainAddrOk (b : List Word) : Bool :=
  let r := chRows b
  let n := chCols b
  let br (k : Nat) : Bool :=
    !chBrEn b k || r == 0 || n == 0 || opRange (chAddr b (8 + k)) (fmtBytes (chBrFmt b k) (if chBrAxis b k = 0 then r else n))
  (chSrc b == 0 || streamOk opRange (chAddr b 1) (chStride b 1) (chFmt b 1) (chAxis b 1) r n)
    && (!chSrc2En b || streamOk opRange (chAddr b 3) (chStride b 3) (chFmt b 3) (chAxis b 3) r n)
    && (!chMaskEn b || streamOk opRange (chAddr b 4) (chStride b 4) 7 0 r n) && br 0 && br 1
    && (!chDstEn b || streamOk opRange (chAddr b 2) (chStride b 2) (chDstFmt b) (chDstAxis b) r
          (if n = 0 then 0 else storedCols (chDstFmt b) (chDstAxis b) n))
    && ((chReds b).filter sgFin).all (fun w =>
      opRange (chRedAddr b (sgDst w)) (if sgFn w = 10 then 128 * r else 4 * redLines (sgAxisKind w) r n))
    && (chSrc b == 0 || r == 0 || n == 0 || (chSrc b == 1) == decide (chAddr b 1 < 0x80000))

/-- The checks of R143 in order. -/
def chainChecks (b : List Word) (mn : Option (Nat × Nat)) : Nat :=
  firstBad [chk (chainOk b) stBadChain, chk (chainFmtOk b) stBadFormat, chk (chainShapeOk b mn) stBadShape,
    chk (chainAlignOk b) stBadAlign, chk (chainAddrOk b) stBadAddr]

/-- The chain body of a CHAIN command (words 2–25) with its immediates patched from schedule registers (R232). -/
def patchBody (patch : Nat) (sched : List Nat) (b : List Word) : List Word :=
  (List.range 8).foldl (fun b i =>
    if bit patch i then
      let k := 20 + i / 2
      let v := sched.getD i 0
      listSet b k (if i % 2 = 0 then wset (wordAt b k) 31 0 v else wset (wordAt b k) 63 32 v)
    else b) b

/-! ### Static checks of sequencer commands (R218, R232–R246) -/

/-- XFER words: ROWS, ROW_BYTES and strides (R233). -/
def xfRows (w : List Word) : Nat := wbits (wordAt w 3) 23 0
def xfRowBytes (w : List Word) : Nat := wbits (wordAt w 3) 55 24
def xfSrc (w : List Word) : Nat := (wordAt w 1).toNat
def xfDst (w : List Word) : Nat := (wordAt w 2).toNat
def xfSrcStride (w : List Word) : Nat := wbits (wordAt w 4) 47 0
def xfDstStride (w : List Word) : Nat := wbits (wordAt w 5) 47 0

/-- Checks 1–3 of R177. -/
def xferStatic (w : List Word) : Nat :=
  if xfRows w = 0 ∨ xfRowBytes w = 0 then stOK
  else firstBad [
    chk (decide (bits (xfSrc w) 63 60 ≤ 4) && decide (bits (xfDst w) 63 60 ≤ 4)) stBadTier,
    chk ([xfSrc w, xfDst w, xfSrcStride w, xfDstStride w, xfRowBytes w].all (fun n => n % 64 == 0)) stBadAlign]

end Sys2Proof.Machine
end

