-- ==== Sys2Proof/Machine/Descriptors.lean ====
section
/-! DEFINITION. The static decoding of every sequencer command (R218): lengths, reserved bits and BAD_FIELD values, and
each command's own checks, in the manual's order. -/

namespace Sys2Proof.Machine

/-! ### PRESS (R304, R312, R313) -/

/-- ACT of a PRESS, RACK or SOLVE word 1. -/
def prAct (w : List Word) : Nat := wbits (wordAt w 1) 2 0
def prEntry (w : List Word) : Nat := wbits (wordAt w 1) 10 8
def prBlock (w : List Word) : Nat := wbits (wordAt w 1) 39 16
/-- The zero words of a list of indices. -/
def zeroWords (w : List Word) (l : List Nat) : Bool := l.all (fun k => wordAt w k == 0)

/-- BAD_FIELD checks of PRESS. -/
def pressFieldOk (w : List Word) : Bool :=
  let w1 := wordAt w 1
  let w2 := wordAt w 2
  let w3 := wordAt w 3
  let w4 := wordAt w 4
  let w6 := wordAt w 6
  let unit01 (n : Nat) : Bool := let v := decodeF fp32 n; !v.isNan && leV .zero v && leV v .one
  match prAct w with
  | 0 =>
    let dim := wbits w2 51 40
    let cnt := wbits w3 16 10
    wbits w1 7 4 == 0 && wbits w1 15 11 == 0 && wbits w1 63 56 == 0 && wbits w2 63 52 == 0
      && decide (1 ≤ dim) && decide (dim ≤ 2048) && decide (1 ≤ cnt) && decide (cnt ≤ 96)
      && decide (wbits w3 9 0 + cnt ≤ subCount dim) && wbits w3 23 17 == 0
      && decide (wbits w3 63 24 + wbits w4 23 0 ≤ 2 ^ 40) && wbits w4 31 25 == 0
      && (wbit w4 24 || wbits w4 63 32 == 0) && zeroWords w [5, 6, 7]
  | 1 => wbits w1 7 3 == 0 && wbits w1 63 11 == 0 && zeroWords w [3, 4, 5, 6, 7]
  | 2 =>
    let src := wbits w1 4 3
    let dim := wbits w6 28 17
    let cnt := wbits w6 16 10
    src != 3 && wbits w1 7 5 == 0 && (src == 0 || prEntry w == 0) && wbits w1 15 11 == 0 && wbits w1 63 40 == 0
      && (src == 1 || w2 == 0) && unit01 (wbits (wordAt w 5) 31 0) && unit01 (wbits (wordAt w 5) 63 32)
      && decide (1 ≤ dim) && decide (dim ≤ 2048) && decide (1 ≤ cnt) && decide (wbits w6 9 0 + cnt ≤ subCount dim)
      && wbits w6 63 29 == 0 && wordAt w 7 == 0
  | _ => false

/-- TIER of an address in a word. -/
def tierOf (w : Word) : Nat := wbits w 63 60

/-- The further static checks of PRESS. -/
def pressOwn (w : List Word) : Nat :=
  let recOk (a : Word) : List Nat :=
    [chk (tierOf a == 1 || tierOf a == 2) stBadTier, chk (a.toNat % 4096 == 0) stBadAlign]
  match prAct w with
  | 0 => chk (wbits (wordAt w 4) 63 32 % 8 == 0) stBadAlign
  | 1 => firstBad (recOk (wordAt w 2))
  | _ =>
    firstBad ((if wbits (wordAt w 1) 4 3 = 1 then recOk (wordAt w 2) else [])
      ++ [chk (tierOf (wordAt w 3) == 2 && tierOf (wordAt w 4) == 2) stBadTier,
          chk ((wordAt w 3).toNat % 4096 == 0 && (wordAt w 4).toNat % 4096 == 0) stBadAlign])

/-! ### All commands -/

/-! ### RACK (R264, R265) -/

/-- Fields of RACK. -/
def rkFmt (w : List Word) : Nat := wbits (wordAt w 1) 7 4
def rkSpill (w : List Word) : Nat := wbits (wordAt w 1) 9 8
def rkTag (w : List Word) : Nat := wbits (wordAt w 1) 47 16
def rkAddr (w : List Word) : Nat := wbits (wordAt w 2) 31 0
def rkStride (w : List Word) : Nat := wbits (wordAt w 2) 55 32
def rkRows (w : List Word) : Nat := wbits (wordAt w 3) 23 0
def rkRowBytes (w : List Word) : Nat := wbits (wordAt w 3) 47 24

/-- BAD_FIELD checks of RACK. -/
def rackFieldOk (w : List Word) : Bool :=
  let w1 := wordAt w 1
  let a := prAct w
  decide (a ≤ 4) && wbits w1 3 3 == 0 && (decide (a ≤ 2) || rkFmt w == 0)
    && (if a = 0 then rkSpill w != 3 else rkSpill w == 0) && wbits w1 15 10 == 0 && (a != 4 || rkTag w == 0)
    && wbits w1 63 48 == 0 && wbits (wordAt w 2) 63 56 == 0 && wbits (wordAt w 3) 63 48 == 0
    && (decide (a ≤ 2) || zeroWords w [2, 3]) && zeroWords w [4, 5, 6, 7]

/-- The further static checks of RACK: the format, then checks 1–3 of R265. -/
def rackOwn (w : List Word) : Nat :=
  if 3 ≤ prAct w then stOK
  else if ¬ [0, 1, 6, 7].contains (rkFmt w) then stBadFormat
  else if rkRows w = 0 ∨ rkRowBytes w = 0 then stOK
  else firstBad [chk (rkRows w == 1 || decide (rkRowBytes w ≤ rkStride w)) stBadField,
    chk (rkAddr w % 64 == 0 && rkStride w % 64 == 0 && rkRowBytes w % 64 == 0) stBadAlign]

/-! ### SOLVE (R338, R339) -/

/-- Fields of a solve descriptor. -/
def svChol (w : List Word) : Bool := wbit (wordAt w 1) 0
def svPexp (w : List Word) : Nat := wbits (wordAt w 1) 2 1
def svDim (w : List Word) : Nat := wbits (wordAt w 1) 15 4
def svInstall (w : List Word) : Bool := wbit (wordAt w 1) 16
def svWarm (w : List Word) : Bool := wbit (wordAt w 1) 17
def svPrio (w : List Word) : Bool := wbit (wordAt w 1) 18
def svFixed (w : List Word) : Bool := wbit (wordAt w 1) 19
def svDclass (w : List Word) : Bool := wbit (wordAt w 1) 20
def svCap (w : List Word) : Nat := max 1 (wbits (wordAt w 1) 31 24)
def svScq (w : List Word) : Nat := wbits (wordAt w 1) 41 32
def svStag (w : List Word) : Nat := wbits (wordAt w 1) 63 48
def svEntry (w : List Word) : Nat := wbits (wordAt w 2) 11 0
def svPart (w : List Word) : Nat := wbits (wordAt w 2) 31 16
def svDeadline (w : List Word) : Nat := wbits (wordAt w 2) 55 32
def svDamp (w : List Word) : FVal := decodeF fp32 (wbits (wordAt w 3) 31 0)
def svTol (w : List Word) : FVal := decodeF fp32 (wbits (wordAt w 3) 63 32)
def svIthr (w : List Word) : FVal := decodeF fp32 (wbits (wordAt w 4) 31 0)
def svIn (w : List Word) (k : Nat) : Nat := (wordAt w (5 + k)).toNat
def svOut (w : List Word) : Nat := (wordAt w 7).toNat
def svWork (w : List Word) : Nat := (wordAt w 8).toNat
def svBlock (w : List Word) : Nat := wbits (wordAt w 9) 23 0
/-- Whether the root table entry is used (R338). -/
def svUsesEntry (w : List Word) : Bool := svInstall w || svWarm w

/-- BAD_FIELD values of a solve descriptor. -/
def solveFieldOk (w : List Word) : Bool :=
  let w1 := wordAt w 1
  let num (v : FVal) : Bool := v.isFin && !ltV v .zero
  !(svChol w && svPexp w != 0) && wbits w1 3 3 == 0 && decide (svDim w ≤ 2048) && !(svWarm w && svChol w)
    && wbits w1 23 21 == 0 && wbits w1 47 42 == 0 && (svUsesEntry w || svEntry w == 0) && wbits (wordAt w 2) 15 12 == 0
    && wbits (wordAt w 2) 63 56 == 0 && num (svDamp w) && num (svTol w) && num (svIthr w) && !ltV (svIthr w) (svTol w)
    && wbits (wordAt w 4) 63 32 == 0 && !(svFixed w && svIn w 1 != 0) && (svInstall w == (svOut w == 0))
    && wbits (wordAt w 9) 63 24 == 0 && zeroWords w [10, 11, 12, 13, 14, 15]

/-- Addresses of a solve descriptor in use. -/
def solveAddrs (w : List Word) : List Nat :=
  [svIn w 0, svWork w] ++ (if svFixed w then [] else [svIn w 1]) ++ (if svInstall w then [] else [svOut w])

/-- Checks 3 and 4 of R339; a trivial solve passes them. -/
def solveOwn (w : List Word) : Nat :=
  if svDim w = 0 then stOK
  else firstBad [chk ((solveAddrs w).all (fun a => bits a 63 60 == 2)) stBadTier,
    chk ((solveAddrs w).all (fun a => a % 4096 == 0)) stBadAlign]

/-! ### UPDATE (R375, R377) -/

/-- Fields of UPDATE. -/
def upPatch (w : List Word) : Nat := wbits (wordAt w 1) 7 0
def upAct (w : List Word) : Nat := wbits (wordAt w 2) 2 0
def upRule (w : List Word) : Nat := wbits (wordAt w 2) 4 3
def upClassC (w : List Word) : Bool := wbit (wordAt w 2) 5
def upRowsel (w : List Word) : Bool := wbit (wordAt w 2) 6
def upFreeze (w : List Word) : Nat := wbits (wordAt w 2) 8 7
def upLuse (w : List Word) : Bool := wbit (wordAt w 2) 9
def upRuse (w : List Word) : Bool := wbit (wordAt w 2) 10
def upArea (w : List Word) : Nat := wbits (wordAt w 2) 12 11
def upTensor (w : List Word) : Nat := wbits (wordAt w 2) 39 16
def upRows (w : List Word) : Nat := wbits (wordAt w 3) 31 0
def upLen (w : List Word) : Nat := wbits (wordAt w 3) 55 32
def upNlist (w : List Word) : Nat := wbits (wordAt w 4) 31 0
def upRreg (w : List Word) : Nat := wbits (wordAt w 4) 35 32
def upEntryL (w : List Word) : Nat := wbits (wordAt w 4) 47 36
def upEntryR (w : List Word) : Nat := wbits (wordAt w 4) 59 48
def upData (w : List Word) : Nat := (wordAt w 5).toNat
def upList (w : List Word) : Nat := (wordAt w 6).toNat
def upHdr (w : List Word) : Nat := (wordAt w 7).toNat
def upMom (w : List Word) : Nat := (wordAt w 8).toNat
def upMst (w : List Word) : Nat := (wordAt w 9).toNat
def upWc (w : List Word) : Nat := (wordAt w 10).toNat
def upFmask (w : List Word) : Nat := (wordAt w 11).toNat
def upPdir (w : List Word) : Nat := (wordAt w 12).toNat
/-- Code of immediate slot i. -/
def upImm (w : List Word) (i : Nat) : Nat := wbits (wordAt w (13 + i / 2)) (32 * (i % 2) + 31) (32 * (i % 2))
def upMaxage (w : List Word) : Nat := wbits (wordAt w 17) 31 0

/-- The root entry of FETCH with AREA = 2. -/
def upRoot (w : List Word) : Bool := upAct w == 1 && upArea w == 2

/-- Check 1 of R377: the BAD_FIELD values of R375. -/
def updFieldOk (w : List Word) : Bool :=
  let w2 := wordAt w 2
  let a := upAct w
  let lr := upLuse w || upRuse w
  wbits (wordAt w 1) 63 8 == 0 && decide (a ≤ 3) && upFreeze w != 3 && (if a = 0 then lr == (upRule w == 3) else !lr)
    && !(a == 1 && upArea w == 1 && !upClassC w) && !(a == 2 && (upArea w != 1 || !upClassC w)) && !((a == 0 || a == 3) && upArea w != 0)
    && wbits w2 15 13 == 0 && wbits w2 63 40 == 0 && wbits (wordAt w 3) 63 56 == 0
    && (upLuse w || upRoot w || upEntryL w == 0) && (upRuse w || upEntryR w == 0) && (lr || upRoot w || upRreg w == 0)
    && wbits (wordAt w 4) 63 60 == 0 && (upRowsel w || upList w == 0) && (upFreeze w == 2 || upFmask w == 0)
    && (upRule w == 3 || upPdir w == 0) && wbits (wordAt w 17) 63 32 == 0

/-- Check 2 of R377: the command makes no access. -/
def upNothing (w : List Word) : Bool := upRows w == 0 || upLen w == 0 || (upRowsel w && upNlist w == 0)

/-- Checks 3 and 4 of R377. -/
def updOwn (w : List Word) : Nat :=
  if upNothing w then stOK
  else
    let t (a : Nat) : Nat := bits a 63 60
    let dram := if upClassC w then 3 else 2
    let mem (a : Nat) : Bool := t a == 2 || t a == 3
    let data := t (upData w)
    let tiers := t (upHdr w) == dram && t (upMom w) == dram && (upRule w != 3 || t (upPdir w) == dram) && t (upMst w) == 3
      && (if upClassC w then t (upWc w) == 3 else decide (t (upWc w) ≤ 1)) && (upFreeze w != 2 || mem (upFmask w))
      && (!upRowsel w || mem (upList w))
      && (match upAct w with | 0 => data == dram | 1 => decide (1 ≤ data) && decide (data ≤ 4) | _ => decide (1 ≤ data) && decide (data ≤ 3))
    let areas := [upHdr w, upMom w, upMst w, upWc w, upData w] ++ (if upRule w = 3 then [upPdir w] else [])
      ++ (if upFreeze w = 2 then [upFmask w] else [])
    firstBad [chk tiers stBadTier, chk (areas.all (fun a => a % 4096 == 0) && (!upRowsel w || upList w % 64 == 0)) stBadAlign]

/-! ### COLL (R462) -/

/-- Fields of COLL. -/
def clOp (w : List Word) : Nat := wbits (wordAt w 1) 3 0
def clAlg (w : List Word) : Nat := wbits (wordAt w 1) 5 4
def clWiden (w : List Word) : Bool := wbit (wordAt w 1) 6
def clNormacc (w : List Word) : Bool := wbit (wordAt w 1) 7
def clDraw (w : List Word) : Nat := wbits (wordAt w 1) 15 8
def clCid (w : List Word) : Nat := wbits (wordAt w 1) 31 16
def clGid (w : List Word) : Nat := wbits (wordAt w 1) 47 32
def clSfmt (w : List Word) : Nat := wbits (wordAt w 1) 51 48
def clDfmt (w : List Word) : Nat := wbits (wordAt w 1) 55 52
def clIdx0 (w : List Word) : Nat := wbits (wordAt w 2) 39 0
def clTensor (w : List Word) : Nat := wbits (wordAt w 2) 63 40
def clCount (w : List Word) : Nat := wbits (wordAt w 3) 39 0
def clSrc (w : List Word) : Nat := (wordAt w 4).toNat
def clDst (w : List Word) : Nat := (wordAt w 5).toNat
def clPeer (w : List Word) : Nat := wbits (wordAt w 6) 12 0
def clPt (w : List Word) : Nat := wbits (wordAt w 6) 19 16
def clScnt (w : List Word) : Nat := (wordAt w 7).toNat
def clRmask (w : List Word) : Nat := (wordAt w 8).toNat
def clRcnt (w : List Word) : Nat := (wordAt w 9).toNat
def clRowBytes (w : List Word) : Nat := wbits (wordAt w 10) 23 0
def clSrows (w : List Word) : Nat := wbits (wordAt w 10) 47 24
def clRet (w : List Word) : Bool := wbit (wordAt w 10) 48

/-- BAD_FIELD values of COLL. -/
def collFieldOk (w : List Word) : Bool :=
  let o := clOp w
  decide (o ≤ 7) && !(clAlg w == 1 && o != 0 && o != 2) && !(clAlg w == 3 && o != 1) && !(clAlg w != 0 && decide (3 ≤ o))
    && !(clWiden w && o != 1) && !(clNormacc w && o != 0 && o != 2) && wbits (wordAt w 1) 63 56 == 0
    && !(o == 4 && (clGid w != 0 || clSfmt w != 0 || clDfmt w != 0 || clCount w != 0 || clSrc w != 0 || clDst w != 0))
    && !(decide (3 ≤ o) && wordAt w 2 != 0) && wbits (wordAt w 3) 63 40 == 0
    && (decide (5 ≤ o) || clPeer w == 0) && wbits (wordAt w 6) 15 13 == 0 && (o == 3 || clPt w == 0)
    && wbits (wordAt w 6) 63 20 == 0 && (o == 3 || zeroWords w [7, 8, 9, 10]) && wbits (wordAt w 10) 63 49 == 0
    && wordAt w 11 == 0

/-- The further static checks of COLL; no code from 0x8 up is executed anywhere (R61, R462). -/
def collOwn (w : List Word) : Nat :=
  let o := clOp w
  let tier (a : Nat) : Bool := decide (1 ≤ bits a 63 60) && decide (bits a 63 60 ≤ 3)
  if o = 4 then stOK
  else firstBad [
    chk (!(o == 0 || o == 2) || (decide (clSfmt w ≤ 1) && decide (clDfmt w ≤ 1))) stBadFormat,
    chk (decide (clSfmt w ≤ 7) && decide (clDfmt w ≤ 7)) stBadFormat,
    chk (tier (clSrc w) && tier (clDst w)) stBadTier,
    chk (clSrc w % 64 == 0 && clDst w % 64 == 0) stBadAlign,
    chk (o != 3 || clRowBytes w % 64 == 0) stBadAlign]

/-- Whether the reserved bits and BAD_FIELD values of a command's own words are in order (R218 step 3). -/
def fieldOk (w : List Word) (region : Nat) : Bool :=
  let w1 := wordAt w 1
  wbits (wordAt w 0) 63 56 == 0 &&
  match hdrOp (wordAt w 0) with
  | 0x03 => wbits w1 63 26 == 0
  | 0x04 => wbits w1 63 18 == 0 && decide (wbits w1 17 14 ≤ 8)
  | 0x05 => wbits w1 63 10 == 0
  | 0x06 => wbits w1 63 7 == 0 && (wbit w1 6 || wbits (wordAt w 2) 63 55 == 0)
  | 0x07 => wbits w1 63 56 == 0 && wbits (wordAt w 2) 63 48 == 0
  | 0x08 => wbits w1 7 3 == 0 && wbits w1 63 9 == 0 && decide (1 ≤ wbits w1 2 0) && decide (wbits w1 2 0 ≤ 5)
      && !(wbits w1 2 0 == 4 && wbit w1 8)
  | 0x09 => wbits w1 63 24 == 0 && decide (wbits w1 23 16 < 16)
  | 0x0A => wbits w1 63 52 == 0 && decide (wbits w1 51 48 ≤ 8)
  | 0x10 => mmFieldOk w region
  | 0x11 => wbits w1 63 8 == 0
      && (List.range 8).all (fun i => !bit w1.toNat i || decide (i < chNimm (w.drop 2)))
  | 0x12 => wbits (wordAt w 3) 63 56 == 0 && wbits (wordAt w 4) 63 48 == 0 && wbits (wordAt w 5) 63 48 == 0
  | 0x20 => collFieldOk w
  | 0x21 => updFieldOk w
  | 0x22 => solveFieldOk w
  | 0x23 => pressFieldOk w
  | 0x24 => rackFieldOk w
  | _ => true

/-- A command's own static checks (R218 step 4). `fusedMN` holds M and N of the MATMUL before a fused CHAIN. -/
def ownChecks (w : List Word) (fusedMN : Option (Nat × Nat)) : Nat :=
  let w1 := wordAt w 1
  match hdrOp (wordAt w 0) with
  | 0x04 => chk (hdrLen (wordAt w 0) == max 2 (2 + wbits w1 17 14)) stBadLen
  | 0x06 =>
    if wbit w1 6 then stOK
    else
      let a := wbits (wordAt w 2) 31 0
      let n := wbits (wordAt w 2) 54 32
      firstBad [chk (a % 64 == 0) stBadAlign,
        chk (decide (0x01000000 ≤ a) && decide (a + 8 * n ≤ 0x02FC0000)) stBadAddr]
  | 0x07 =>
    let a := wbits w1 31 0
    let n := wbits w1 55 32
    if n = 0 then stOK
    else firstBad [chk (a % 64 == 0) stBadAlign,
      chk (decide (0x01000000 ≤ a) && decide (a + 32 * n ≤ 0x02FC0000)) stBadAddr]
  | 0x10 => mmOwnChecks w
  | 0x11 =>
    let b := w.drop 2
    if chSrc b = 0 ∧ fusedMN.isNone then stBadChain else chainChecks b fusedMN
  | 0x12 => xferStatic w
  | 0x20 => collOwn w
  | 0x21 => updOwn w
  | 0x22 => solveOwn w
  | 0x23 => pressOwn w
  | 0x24 => rackOwn w
  | _ => stOK

/-- The static decoding of a command of n words in its packet or routine (R218): its status. -/
def decodeStatus (w : List Word) (n region : Nat) (fusedMN : Option (Nat × Nat)) : Nat :=
  let h := wordAt w 0
  match opLen (hdrOp h) with
  | none => stBadOpcode
  | some (lo, hi) =>
    firstBad [chk (decide (lo ≤ hdrLen h) && decide (hdrLen h ≤ hi) && hdrLen h == n) stBadLen,
      chk (fieldOk w region) stBadField, ownChecks w fusedMN]

end Sys2Proof.Machine
end

