-- ==== Sys2Proof/Machine/SeqCore.lean ====
section
/-! DEFINITION. What every sequencer command shares: the stream position, issue, completion records in issue order,
cancelling, unwinding after an abandon (R214–R226, R238, R248, R250, R657). -/

namespace Sys2Proof.Machine

/-- The units of a cluster. -/
def unitsOf (cl : Nat) : List Nat := rangeFrom (8 * cl) 8

/-! ### Units a sequencer may use (R230) -/

/-- Whether a unit is in service. -/
def Chip.inService (c : Chip) (u : Nat) : Bool := !c.on .MXE_HEALTH_QUAR u && !c.on .MXE_HEALTH_CKDEG u

/-- The units available to a sequencer, in ascending order. -/
def Chip.available (c : Chip) (cl : Nat) : List Nat :=
  (unitsOf cl).filter (fun u => bit (c.g .CLU_SEQ_CTL_UMASK cl) (u % 8) && c.inService u)

/-- Of units in ascending order, the one with the fewest queued tiles and chains, the lowest-numbered on a tie. -/
def Chip.lightest (c : Chip) : List Nat → Option Nat
  | [] => none
  | u :: us =>
    match c.lightest us with
    | none => some u
    | some v => if (c.unit v).queue.length < (c.unit u).queue.length then some v else some u

/-! ### The stream (R214–R216) -/

/-- Whether a sequencer's command queue is enabled for it (R214). -/
def Chip.cmdqOk (c : Chip) (cl : Nat) : Bool :=
  let r := regionOfCl cl
  let q := c.g .CLU_SEQ_CTL_CMDQ cl
  c.on .QP_QCFG_EN r q && c.g .QP_QCFG_CKIND r q == 0 && c.g .QP_QCFG_CIDX r q == cl % 8

/-- Words of routine n of a sequencer from word offset off, at most k of them, with their poison. -/
def Chip.routine (c : Chip) (cl n off k : Nat) : List (Word × Bool) :=
  let w := c.rd .CLU_SEQ_RTN cl n
  let key := regionKey (regionOfCl cl) (wbits w 31 0 - 0x01000000)
  (rangeFrom off (min k (wbits w 54 32 - off))).map (fun i =>
    (Word.ofNat (c.num (key + 8 * i) 8), c.bad (key + 8 * i)))

/-- Length in words of routine n. -/
def Chip.routineLen (c : Chip) (cl n : Nat) : Nat := wbits (c.rd .CLU_SEQ_RTN cl n) 54 32

/-- The next command at the stream position: its words, and the number of words of its packet, or in a routine the
words its LEN takes (R215, R216). A NULL packet is no command. -/
def Chip.head (c : Chip) (cl : Nat) : Option (List (Word × Bool)) :=
  match (c.seq cl).stack with
  | f :: _ =>
    match c.routine cl f.rtn f.off 1 with
    | (h, p) :: _ => if p then some [(h, p)] else some (c.routine cl f.rtn f.off (max 1 (hdrLen h)))
    | [] => none
  | [] =>
    if c.cmdqOk cl then
      match (c.queue (regionOfCl cl) (c.g .CLU_SEQ_CTL_CMDQ cl)).linked with
      | k :: _ => if k.null then none else some k.words
      | [] => none
    else none

/-- The stream position moved past n words of a routine, or past the head packet of the command queue. -/
def Chip.advance (c : Chip) (cl n : Nat) : Chip :=
  let s := c.seq cl
  match s.stack with
  | f :: fs => c.setSeq cl { s with stack := { f with off := f.off + n } :: fs }
  | [] =>
    match c.qTake (regionOfCl cl) (c.g .CLU_SEQ_CTL_CMDQ cl) with
    | some (_, c') => c'
    | none => c

/-- The stream position moved past a command of words w; a SEAL read is remembered (R248 step 3). -/
def Chip.advanceCmd (c : Chip) (cl : Nat) (w : List Word) : Chip :=
  let c := c.advance cl w.length
  if hdrOp (wordAt w 0) = 0x0A then c.setSeq cl { c.seq cl with sealRead := true } else c

/-! ### Outstanding commands and completion records (R220–R226) -/

/-- Whether a command is outstanding: issued and not ended. -/
def OutCmd.isOpen (o : OutCmd) : Bool := o.ended.isNone
/-- Whether a command is a CALL, which counts in no group (R221). -/
def OutCmd.isCall (o : OutCmd) : Bool := hdrOp o.hdr == 0x05

/-- Outstanding commands of a group of a sequencer (R221, R257). -/
def SeqS.groupCount (s : SeqS) (g : Nat) : Nat :=
  (s.outst.filter (fun o => o.isOpen && !o.isCall && hdrGrp o.hdr == g)).length
/-- Outstanding commands of a sequencer (R253). -/
def SeqS.openCount (s : SeqS) : Nat := (s.outst.filter OutCmd.isOpen).length
/-- Whether every earlier command but the CALLs around it has ended (R220). -/
def SeqS.allEnded (s : SeqS) : Bool := s.outst.all (fun o => !o.isOpen || o.isCall)

/-- Whether a command with a header may issue (R220): its WAITMASK groups are empty and fewer than 32 commands are
outstanding. -/
def SeqS.mayIssue (s : SeqS) (h : Word) : Bool :=
  decide (s.openCount < 32) && (List.range 8).all (fun g => !bit (hdrWait h) g || s.groupCount g == 0)

/-- A position field: ROW [23:0], COL [47:24] (R225). -/
def posWord (p : Option (Nat × Nat)) : Word := match p with | some (r, k) => Word.ofNat (r % 2 ^ 24 + k % 2 ^ 24 * 2 ^ 24) | none => 0

/-- The earlier of two positions in reference order (R87). -/
def minPos (a b : Option (Nat × Nat)) : Option (Nat × Nat) :=
  match a, b with
  | none, b => b
  | a, none => a
  | some (r, k), some (r', k') => if r < r' ∨ (r = r' ∧ k ≤ k') then some (r, k) else some (r', k')

/-- The lesser of two optional numbers. -/
def minOpt (a b : Option Nat) : Option Nat :=
  match a, b with
  | none, b => b
  | a, none => a
  | some x, some y => some (min x y)

/-- Outcomes of a command's tiles, chains and partials merged (R225, R657): the first status other than OK in tile
order with its detail, the OR of the flags, the first positions. -/
def mergeParts (ps : List Part) : Part :=
  (sortBy Part.order ps).foldl (fun a p =>
    { order := 0
      status := if a.status = 0 then p.status else a.status
      detail := if a.status = 0 ∧ (p.status ≠ 0 ∨ a.detail = 0) then p.detail else a.detail
      flags := a.flags ||| p.flags
      nf := minPos a.nf p.nf, ovf := minPos a.ovf p.ovf, unf := minPos a.unf p.unf, emp := minPos a.emp p.emp
      chk := minOpt a.chk p.chk }) { order := 0 }

/-- A completion record (R225). -/
def recordOf (cl : Nat) (h : Word) (cnt step lep : Nat) (m : Part) : List Word :=
  [Word.ofNat (hdrTag h + hdrOp h * 2 ^ 16 + m.status * 2 ^ 24 + m.flags % 64 * 2 ^ 29 + cl * 2 ^ 35 + cnt % 2 ^ 16 * 2 ^ 48),
   posWord m.nf, posWord m.ovf, posWord m.unf, Word.ofNat (m.chk.getD 0 % 2 ^ 24), posWord m.emp, Word.ofNat m.detail,
   Word.ofNat (step % 2 ^ 48 + lep % 2 ^ 16 * 2 ^ 48)]

/-- The marks a status leaves in `CLU_SEQ_STICKY`, and those of the flags of a command that posts a record (R255). -/
def Chip.seqSticky (c : Chip) (cl : Nat) (m : Part) (rec? : Bool) : Chip :=
  let c := if rec? then c.orF .CLU_SEQ_STICKY_FLAGS cl (m.flags % 64) else c
  if 1 ≤ m.status ∧ m.status ≤ 11 then c.set1 .CLU_SEQ_STICKY_BAD_CMD cl
  else if m.status = stDenied then c.set1 .CLU_SEQ_STICKY_DENIED cl
  else if m.status = stCancelled then c.set1 .CLU_SEQ_STICKY_CANCELLED cl
  else if m.status = stStaleEnd then c.set1 .CLU_SEQ_STICKY_STALE_END cl
  else if m.status = stQueueErr then c.set1 .CLU_SEQ_STICKY_QUEUE_ERR cl
  else c

/-- Order of the phases of R44 in a module's work: the refresh of a step comes before the next step's phases. -/
def phaseRank (n : Nat) : Nat := if n = 7 then 0 else n

/-- The phase that a sequencer returns to when a SEAL it waits at ends without a seal: that in which the SEAL issued. -/
def SeqS.backPhase (s : SeqS) : Nat :=
  match s.agree with
  | .seal _ => match s.outst.find? (fun o => o.id == s.agreeId) with | some o => o.phase | none => s.phase
  | _ => s.phase

/-- The phases in which a sequencer has work: that of its last marker, and those at issue of its outstanding commands. -/
def SeqS.phases (s : SeqS) : List Nat := s.phase :: (s.outst.filter (fun o => o.isOpen && !o.isCall)).map OutCmd.phase

/-- PHASE of a partition's step (R44, R52): 6 once SEAL_READY was sent, else the earliest phase with work outstanding. -/
def Chip.showPhase (c : Chip) (p : Nat) : Chip :=
  let ph := ((c.clustersOf p).filter (fun cl => c.on .CLU_SEQ_CTL_EN cl)).flatMap (fun cl => (c.seq cl).phases)
  let best := (sortBy phaseRank (ph.filter (fun n => n != 0 && n != 6))).headD 0
  c.put .HUB_STEP_PHASE p (if c.on .HUB_STEP_READY_SENT p then 6 else best)

/-- Ended commands' records linked in issue order per queue; a record waits behind an earlier command with the same CQ
and for a cell, and is discarded when its queue is disabled (R217, R222). -/
def Chip.linkRecords (c : Chip) (cl : Nat) : List Nat → List OutCmd → Chip × List OutCmd
  | _, [] => (c, [])
  | blocked, o :: os =>
    let q := hdrCq o.hdr
    match o.ended with
    | none =>
      let (c, os) := c.linkRecords cl (if hdrCpl o.hdr then q :: blocked else blocked) os
      (c, o :: os)
    | some ws =>
      if ¬ hdrCpl o.hdr then c.linkRecords cl blocked os
      else if blocked.contains q then
        let (c, os) := c.linkRecords cl blocked os
        (c, o :: os)
      else
        match c.post (regionOfCl cl) q (ws.map (·, false)) with
        | .linked c' => c'.linkRecords cl blocked os
        | .closed c' => (c'.set1 .CLU_SEQ_STICKY_QUEUE_ERR cl).linkRecords cl blocked os
        | .noCell =>
          let (c, os) := c.linkRecords cl (q :: blocked) os
          (c, o :: os)

/-- Every record of a sequencer that can be linked now is linked. -/
def Chip.flushRecords (c : Chip) (cl : Nat) : Chip :=
  let (c, os) := c.linkRecords cl [] (c.seq cl).outst
  c.setSeq cl { c.seq cl with outst := os }

/-- DEPTH of a Racking lane: frames pushed and not taken (R267). -/
def Chip.laneDepth (c : Chip) (cl : Nat) : Nat :=
  ((sget {} c.racks cl).frames.filter (fun f => f.st != .waiting)).length

/-- DETAIL of a RACK record (R267). -/
def rackDetail (depth tag : Nat) (fetched pinned poison : Bool) : Nat :=
  depth + b2n fetched * 2 ^ 7 + b2n pinned * 2 ^ 8 + b2n poison * 2 ^ 9 + tag * 2 ^ 16

/-- FTAG that a RACK record shows: 0 for HINT (R267). -/
def rackTag (w : List Word) : Nat := if prAct w = 4 then 0 else rkTag w

/-- DETAIL of a command that an abandon or a fence ended: 0, but every RACK record shows depth and tag (R226, R267). -/
def Chip.cancelDetail (c : Chip) (cl : Nat) (o : OutCmd) : Nat :=
  if hdrOp o.hdr = 0x24 then
    match (sget {} c.racks cl).cmds.find? (fun k => k.id == o.id) with
    | some k => rackDetail (c.laneDepth cl) (rackTag k.words) k.fetched false false
    | none => c.laneDepth cl
  else 0

/-- Command id of a sequencer ends with the given outcome: counted, marked, its record formed, PHASE redone (R44, R221, R222,
R225, R255). A cancelled command ends with CANCELLED. -/
def Chip.endCmd (c : Chip) (cl id : Nat) (m : Part) : Chip :=
  match (c.seq cl).outst.find? (fun o => o.id == id && o.isOpen) with
  | none => c
  | some o =>
    let m := if o.cancelled ∧ m.status = 0 then { m with status := stCancelled, detail := c.cancelDetail cl o } else m
    let c := c.inc .CLU_SEQ_CNT_COUNT cl
    let ws := recordOf cl o.hdr (c.g .CLU_SEQ_CNT_COUNT cl) o.step o.lepoch m
    let c := c.seqSticky cl m (hdrCpl o.hdr)
    let s := c.seq cl
    let c := c.setSeq cl { s with outst := s.outst.map (fun o' => if o'.id = id then { o' with ended := some ws } else o') }
    (c.showPhase (c.partOfCl cl)).flushRecords cl

/-- A command entered in the order of its sequencer's records with `left` effects to complete. Answers its identity. -/
def Chip.enlist (c : Chip) (cl : Nat) (h : Word) (left : Nat) : Nat × Chip :=
  let s := c.seq cl
  let p := c.partOfCl cl
  let o : OutCmd := { id := s.nextId, hdr := h, step := c.step p, lepoch := c.lepoch p, phase := s.phase, left := left }
  (s.nextId, c.setSeq cl { s with outst := s.outst ++ [o], nextId := s.nextId + 1 })

/-- A command issued: LAST_TAG shows it (R221, R256). -/
def Chip.issue (c : Chip) (cl : Nat) (h : Word) (left : Nat) : Nat × Chip :=
  (c.setSeq cl { c.seq cl with lastTag := hdrTag h }).enlist cl h left

/-- A command issued that ends at once with an outcome. -/
def Chip.issueEnd (c : Chip) (cl : Nat) (h : Word) (m : Part) : Chip :=
  let (id, c) := c.issue cl h 0
  c.endCmd cl id m

/-- The record of a command that is never issued: one that fails decoding, is poisoned, or is discarded (R215, R218, R248). -/
def Chip.endUnissued (c : Chip) (cl : Nat) (h : Word) (m : Part) : Chip :=
  let (id, c) := c.enlist cl h 0
  c.endCmd cl id m

/-- An outcome of a command's effect recorded, one effect fewer to complete. -/
def Chip.partDone (c : Chip) (cl id : Nat) (m : Part) (n : Nat := 1) : Chip :=
  let s := c.seq cl
  c.setSeq cl { s with outst := s.outst.map (fun o =>
    if o.id = id ∧ o.isOpen then { o with parts := o.parts ++ [m], left := o.left - n } else o) }

/-- The outcome of a single-effect command recorded as its last: the command may then end (COMMAND_END). -/
def Chip.finish (c : Chip) (cl id : Nat) (m : Part) : Chip :=
  let s := c.seq cl
  c.setSeq cl { s with outst := s.outst.map (fun o =>
    if o.id = id ∧ o.isOpen then { o with parts := o.parts ++ [m], left := 0 } else o) }

/-! ### Taking the next command (R214–R218, R220) -/

/-- Whether a sequencer may read a command: enabled, its partition RUNNING, not halted, in no agreement, no STOP pending
(R214, R250, R254). -/
def Chip.seqRuns (c : Chip) (cl : Nat) : Bool :=
  let s := c.seq cl
  c.on .CLU_SEQ_CTL_EN cl && s.halt == 0 && s.agree == .none && !c.on .CLU_SEQ_CMD_STOP cl
    && (match c.owner (regionOfCl cl) with | some p => c.g .PART_STAT_STATE p == 3 | none => false)

/-- A sequencer halts with a cause (R250). -/
def Chip.haltSeq (c : Chip) (cl cause : Nat) : Chip := c.setSeq cl { c.seq cl with halt := cause }

/-- A sequencer enabled with no valid command queue halts with cause CMDQ (R214). -/
def Chip.checkCmdq (c : Chip) (cl : Nat) : Chip :=
  if c.on .CLU_SEQ_CTL_EN cl ∧ (c.seq cl).halt = 0 ∧ ¬ c.cmdqOk cl then c.haltSeq cl 8 else c

/-- M and N of a MATMUL that waits for its CHAIN (R231). -/
def SeqS.fusedMN (s : SeqS) : Option (Nat × Nat) := s.fuse.map (fun w => (mmM w, mmN w))

/-- Discarding after an abandon at top level (R248 step 5): the head packet goes, and SEAL ends the discarding with
SEAL_ABANDON and a halt. -/
def Chip.skipPacket (c : Chip) (cl : Nat) : Chip :=
  match c.head cl with
  | none => c
  | some ws =>
    let h := (ws.map Prod.fst).headD 0
    let c := c.advance cl ws.length
    if hdrOp h = 0x0A then
      let c := c.setSeq cl { c.seq cl with skipSeal := false, halt := 2, gated := false }
      c.endUnissued cl h { order := 0, status := stSealAbandon, detail := b2n (c.seq cl).skipOwn }
    else c

/-- Partials marked failed for every tile of a slice command that ends at issue (R656). -/
def Chip.failSlices (c : Chip) (cl : Nat) (w : List Word) : Chip :=
  if hdrOp (wordAt w 0) ≠ 0x10 ∨ w.length ≠ 14 ∨ mmNslice w < 2 ∨ mmNslice w ≤ mmSlice w
      ∨ ¬ c.owns (c.partOfCl cl) (mmCreg w) then c
  else
    let part (i j : Nat) : Partial :=
      { point := mmCreg w, pid := mmPid w, i := i, j := j, ns := mmNslice w, slice := mmSlice w, data := none
        job := { cl := cl, u := 8 * cl, id := 0, order := 0, i := i, j := j, ks := 0, mm := w, fused := none, redo := 31 } }
    { c with partials := c.partials ++ (List.range (cdiv (mmM w) 64)).flatMap (fun i => (List.range (cdiv (mmN w) 32)).map (part i)) }

/-- A chain that ends with a status other than OK sets no flag and BAD_DESC, and is the last completed chain (R143,
R169–R172). -/
def Chip.chainFailed (c : Chip) (u : Nat) : Chip :=
  let c := (c.inc .VEC_CNT_CHAIN_COUNT u).set1 .VEC_STICKY_BAD_DESC u
  let c := c.wr .VEC_FLAG u (Word.ofNat (c.g .VEC_CNT_CHAIN_COUNT u % 2 ^ 48 * 2 ^ 16))
  ((c.wr .VEC_FPOS_NF u 0).wr .VEC_FPOS_OVF u 0).wr .VEC_FPOS_EMPTY u 0

/-- Whether a status is one that the body of a chain gets from the checks of R143. -/
def chainStatuses : List Nat := [stBadChain, stBadFormat, stBadShape, stBadAlign, stBadAddr]

/-- The marks that a command refused before it runs leaves in its engine (R143, R324, R490, R493, R656). A refused chain marks
the unit that R230 would give it (DEDUCED, log entry 33). -/
def Chip.refusedMarks (c : Chip) (cl : Nat) (w : List Word) (st : Nat) : Chip :=
  match hdrOp (wordAt w 0) with
  | 0x10 => c.failSlices cl w
  | 0x11 =>
    if chainStatuses.contains st then
      match c.lightest (c.available cl) with | some u => c.chainFailed u | none => c
    else c
  | 0x20 =>
    let p := c.partOfCl cl
    let c := c.inc .CAR_CNT_COUNT p 1 0
    if (1 ≤ st ∧ st ≤ 11) ∨ st = 24 ∨ st = 25 ∨ (28 ≤ st ∧ st ≤ 30) then c.set1 .CAR_STICKY_BAD_DESC p else c
  | 0x23 => if (1 ≤ st ∧ st ≤ 11) ∨ (25 ≤ st ∧ st ≤ 28) then c.set1 .PRS_STICKY_BAD_DESC cl else c
  | _ => c

/-- DETAIL of a command refused at decode: every RACK record shows depth and tag (R267). -/
def Chip.refusedDetail (c : Chip) (cl : Nat) (w : List Word) : Nat :=
  if hdrOp (wordAt w 0) = 0x24 then rackDetail (c.laneDepth cl) (rackTag w) false false false else 0

/-- A command that fails decoding, or carries poison, ends without being issued: its record and the marks of its engine
(R215, R218). -/
def Chip.reject (c : Chip) (cl : Nat) (w : List Word) (st : Nat) : Chip :=
  (c.endUnissued cl (wordAt w 0) { order := 0, status := st, detail := c.refusedDetail cl w }).refusedMarks cl w st

/-- A command that ends at issue with a status other than OK: its record and the marks of its engine. -/
def Chip.refuse (c : Chip) (cl : Nat) (w : List Word) (st : Nat) (detail : Nat := 0) : Chip :=
  (c.issueEnd cl (wordAt w 0) { order := 0, status := st, detail := detail }).refusedMarks cl w st

/-- Whether a command is the CHAIN that a waiting MATMUL forms a fused pair with (R231). -/
def pairs (mm w : List Word) : Bool :=
  let b := w.drop 2
  hdrOp (wordAt w 0) == 0x11 && chSrc b == 0 && chRows b == mmM mm && chCols b == mmN mm

/-- A waiting MATMUL with DEST = 1 that the next command does not form a pair with ends with BAD_FIELD (R231). -/
def Chip.dropFuse (c : Chip) (cl : Nat) (w : List Word) : Chip :=
  let s := c.seq cl
  match s.fuse with
  | some mm => if pairs mm w then c else (c.setSeq cl { s with fuse := none }).reject cl mm stBadField
  | none => c

/-- POISON_CMD: a command packet carried poison; the words of a routine are no packet (R215, R216, R255). -/
def Chip.poisonCmd (c : Chip) (cl : Nat) : Chip :=
  if (c.seq cl).stack.isEmpty then c.set1 .CLU_SEQ_STICKY_POISON_CMD cl else c

/-- The sequencer's next command, when it is one that `want` names: poisoned words and failed decoding end it at once
(R215, R218); otherwise it issues by `go` once R220 lets it. `go` receives the chip with the stream moved past the
command, and the command's words. -/
def Chip.take (c : Chip) (cl : Nat) (want : List Word → Bool) (all : Bool) (go : Chip → List Word → Chip) : Chip :=
  if ¬ c.seqRuns cl then c
  else if (c.seq cl).skipSeal then c.skipPacket cl
  else
    match c.head cl with
    | none => c
    | some ws =>
      let w := ws.map Prod.fst
      let h := w.headD 0
      let p := c.partOfCl cl
      if ¬ want w ∨ (ws.map Prod.snd).headD false then c
      else
        let c := c.dropFuse cl w
        let s := c.seq cl
        if ws.any Prod.snd then
          let c := (c.setSeq cl { s with fuse := none }).advanceCmd cl w
          ((c.poisonCmd cl).consumePoison p 3 (hdrTag h) (.region (regionOfCl cl)) cl 2).reject cl w stCmdPoison
        else
          let st := decodeStatus w w.length (regionOfCl cl) s.fusedMN
          if st ≠ stOK then ((c.setSeq cl { s with fuse := none }).advanceCmd cl w).reject cl w st
          else if ¬ s.mayIssue h ∨ (all ∧ ¬ s.allEnded) then c
          else go (c.advanceCmd cl w) w

/-- A command of one opcode. -/
def isOp (o : Nat) (w : List Word) : Bool := hdrOp (wordAt w 0) == o

/-! ### Cancelling (R248, R250) -/

/-- Whether a queued job belongs to a command of a sequencer. -/
def Job.ofCl (cl : Nat) : Job → Bool
  | .tile t => t.cl == cl
  | .chain k => k.cl == cl

/-- Identity of the command of a job. -/
def Job.id : Job → Nat
  | .tile t => t.id
  | .chain k => k.id

/-- Place of a job in tile order. -/
def Job.order : Job → Nat
  | .tile t => t.order
  | .chain k => k.order

/-- Tiles and chains of a sequencer not yet started are dropped, with the partials and combining state of their products
(R248). -/
def Chip.dropQueued (c : Chip) (cl : Nat) : Chip :=
  let c := (unitsOf cl).foldl (fun c u =>
    let x := c.unit u
    let v := match x.vbuf with | some (_, k) => if k.cl = cl then none else x.vbuf | none => none
    let c := c.setUnit u { x with queue := x.queue.filter (fun j => !j.ofCl cl), vbuf := v }
    { c with combs := sset [] c.combs (16 + u) [] }) c
  let c := { c with
    partials := c.partials.filter (fun q => q.job.cl != cl)
    combs := sset [] c.combs (regionOfCl cl) [] }
  c.setSeq cl { c.seq cl with held := [] }

/-- Tiles of a command still running or held by an arbitration, after its queued work was dropped. -/
def Chip.running (c : Chip) (cl id : Nat) : Nat :=
  ((unitsOf cl).filter (fun u => match (c.unit u).run with
    | some r => r.kind == RunKind.train && r.job.cl == cl && r.job.id == id | none => false)).length
    + (c.arbs.filter (fun a => a.job.cl == cl && a.job.id == id)).length

/-- What an open command still waits for once it is cancelled: running tiles of a product or chain, an accepted transfer,
nothing for the commands of other engines, which their engines stop (R248). -/
def Chip.leftCancelled (c : Chip) (cl : Nat) (o : OutCmd) : Nat :=
  match hdrOp o.hdr with
  | 0x10 => c.running cl o.id
  | 0x11 => c.running cl o.id
  | 0x12 => ((sget [] c.xfers (regionOfCl cl)).filter (fun x => x.cl == cl && x.id == o.id && x.accepted)).length
  | _ => 0

/-- Every open command of a sequencer but the CALLs and those to keep is cancelled; one with nothing left ends with
CANCELLED (R248). -/
def Chip.cancelAll (c : Chip) (cl : Nat) (keep : OutCmd → Bool) : Chip :=
  let s := c.seq cl
  let hit (o : OutCmd) : Bool := o.isOpen && !o.isCall && !keep o
  let ids := (s.outst.filter hit).map OutCmd.id
  let c := c.setSeq cl { s with outst := s.outst.map (fun o =>
    if hit o then { o with cancelled := true, left := c.leftCancelled cl o } else o) }
  let xs := (sget [] c.xfers (regionOfCl cl)).filter (fun x => x.cl != cl || x.accepted || !ids.contains x.id)
  let c := { c with xfers := sset [] c.xfers (regionOfCl cl) xs }
  ids.foldl (fun c id =>
    match (c.seq cl).outst.find? (fun o => o.id == id && o.isOpen) with
    | some o => if o.left = 0 then c.endCmd cl id (mergeParts o.parts) else c
    | none => c) c

/-- Whether a command of a sequencer has been cancelled. -/
def Chip.isCancelled (c : Chip) (cl id : Nat) : Bool := (c.seq cl).outst.any (fun o => o.id == id && o.cancelled)

/-- The WAITQs of a sequencer end at once with CANCELLED, the packets consumed and their poison (R234). -/
def Chip.cancelWaitqs (c : Chip) (cl : Nat) : Chip :=
  let ws := (c.seq cl).waitqs
  let c := c.setSeq cl { c.seq cl with waitqs := [] }
  ws.foldl (fun c w => c.endCmd cl w.id { order := 0, status := stCancelled, flags := if w.poison then 16 else 0, detail := w.got }) c

/-- The header of the step's SEAL at or after a word offset of a routine, searched through CALLs, fuel bounding the
commands looked at (R248 step 3). -/
def Chip.findSeal (c : Chip) (cl : Nat) : Nat → Nat → Nat → Option Word
  | 0, _, _ => none
  | fuel + 1, rtn, off =>
    match c.routine cl rtn off 2 with
    | [] => none
    | (h, _) :: rest =>
      if hdrOp h = 0x0A then some h
      else
        let inner : Option Word :=
          if hdrOp h = 0x05 then c.findSeal cl fuel (wbits ((rest.map Prod.fst).headD 0) 5 0) 0 else none
        match inner with
        | some x => some x
        | none => c.findSeal cl fuel rtn (off + max 1 (hdrLen h))

/-- First SEAL after the position of any frame of a call stack. -/
def Chip.sealOfStack (c : Chip) (cl : Nat) : List Frame → Option Word
  | [] => none
  | f :: fs => match c.findSeal cl (c.routineLen cl f.rtn + 64) f.rtn f.off with | some h => some h | none => c.sealOfStack cl fs

/-- An enrolled sequencer after ABANDON or a local gate failure (R248): it stops issuing, drops and cancels, lets FETCH, PLACE and ADOPT run to their
end (R386), answers the step's SEAL with SEAL_ABANDON, ends the CALLs inside the outermost one with CANCELLED, and retries that one or
halts with cause ABANDON. -/
def Chip.unwind (c : Chip) (cl : Nat) (own : Bool) : Chip :=
  let det := b2n own
  let ph := (c.seq cl).backPhase
  let sealWait := match (c.seq cl).agree with | .seal _ => some (c.seq cl).agreeId | _ => none
  let c := (c.cancelWaitqs cl).dropQueued cl
  let c := match sealWait with
    | some id => c.endCmd cl id { order := 0, status := stSealAbandon, detail := det }
    | none => c
  let c := c.cancelAll cl (fun o => hdrOp o.hdr == 0x21 && o.aux == 1)
  let s := c.seq cl
  let sealRead := s.sealRead
  let c := match sealWait, (if s.sealRead then none else c.sealOfStack cl s.stack) with
    | none, some h => c.endUnissued cl h { order := 0, status := stSealAbandon, detail := det }
    | _, _ => c
  let c := s.stack.dropLast.foldl (fun c f => c.endCmd cl f.callId { order := 0, status := stCancelled }) c
  let s := { c.seq cl with agree := .none, arrived := false, fuse := none, gated := false, epochMark := false, sealRead := false
                           phase := ph }
  match s.stack.getLast? with
  | some f =>
    if f.attempts ≤ f.retry then c.setSeq cl { s with stack := [{ f with off := 0, attempts := f.attempts + 1 }] }
    else
      let c := c.setSeq cl { s with stack := [], halt := 2 }
      c.endCmd cl f.callId { order := 0, status := stSealAbandon, detail := det }
  | none => if sealWait.isSome ∨ sealRead then c.setSeq cl { s with halt := 2 } else c.setSeq cl { s with skipSeal := true, skipOwn := own }

/-- Everything a sequencer has outstanding ends with CANCELLED, its CALLs innermost first (R250, R516). -/
def Chip.cancelSeq (c : Chip) (cl : Nat) : Chip :=
  let ph := (c.seq cl).backPhase
  let c := ((c.cancelWaitqs cl).dropQueued cl).cancelAll cl (fun _ => false)
  let c := (c.seq cl).stack.foldl (fun c f => c.endCmd cl f.callId { order := 0, status := stCancelled }) c
  c.setSeq cl { c.seq cl with agree := .none, arrived := false, fuse := none, gated := false, sealRead := false,
                              skipSeal := false, skipOwn := false, epochMark := false, stack := [], phase := ph }

/-- A fenced sequencer (R250): issue stops, what it has outstanding ends with CANCELLED, it halts with cause FENCED. -/
def Chip.fenceSeq (c : Chip) (cl : Nat) : Chip := (c.cancelSeq cl).haltSeq cl 5

end Sys2Proof.Machine
end

