-- ==== Sys2Proof/Machine/Topo.lean ====
section
/-! DEFINITION. The torus (R24, R403, R425, R426): coordinates, neighbours, dimension-order routes, datelines, and the
registers that follow from them. -/

namespace Sys2Proof.Machine

/-- Coordinates of a module ID. -/
def coordX (id : Nat) : Nat := bits id 3 0
def coordY (id : Nat) : Nat := bits id 7 4
def coordZ (id : Nat) : Nat := bits id 12 8
def coords (id : Nat) : List Nat := [coordX id, coordY id, coordZ id]

/-- Sizes of the torus. -/
def Chip.dims (c : Chip) : List Nat :=
  [c.g .FAB_TOPO_DXM1 0 + 1, c.g .FAB_TOPO_DYM1 0 + 1, c.g .FAB_TOPO_DZM1 0 + 1]

/-- Whether an ID lies in the topology. -/
def Chip.inTopo (c : Chip) (id : Nat) : Bool := ((coords id).zip c.dims).all (fun x => decide (x.1 < x.2))

/-- Whether two modules are torus neighbours. -/
def Chip.neighbours (c : Chip) (a b : Nat) : Bool :=
  let d := (List.range 3).filter (fun k => (coords a).getD k 0 != (coords b).getD k 0)
  match d with
  | [k] =>
    let x := (coords a).getD k 0
    let y := (coords b).getD k 0
    let n := c.dims.getD k 1
    decide (x + 1 = y) || decide (y + 1 = x)
      || (bit (c.g .FAB_TOPO_WRAP 0) k && (decide ((x + 1) % n = y) || decide ((y + 1) % n = x)))
  | _ => false

/-- Module ID of coordinates. -/
def idOfCoords (x y z : Nat) : Nat := x + 16 * y + 256 * z

/-- Neighbour of a module in direction d (R403); none in a dimension of size 1 or past an edge without WRAP. -/
def Chip.neighbour (c : Chip) (id d : Nat) : Option Nat :=
  let k := d / 2
  let n := c.dims.getD k 1
  let v := (coords id).getD k 0
  let wrap := bit (c.g .FAB_TOPO_WRAP 0) k
  let next : Option Nat :=
    if n ≤ 1 then none
    else if d % 2 = 0 then (if v + 1 < n then some (v + 1) else if wrap then some 0 else none)
    else if 0 < v then some (v - 1) else if wrap then some (n - 1) else none
  next.map (fun v =>
    let cs := listSet (coords id) k v
    idOfCoords (cs.getD 0 0) (cs.getD 1 0) (cs.getD 2 0))

/-- The direction of a dimension-order route in dimension k, none when the coordinates agree (R425). -/
def Chip.dirIn (c : Chip) (src dst k : Nat) : Option Nat :=
  let a := (coords src).getD k 0
  let b := (coords dst).getD k 0
  let n := c.dims.getD k 1
  if a = b then none
  else if bit (c.g .FAB_TOPO_WRAP 0) k then
    let plus := (b + n - a % n) % n
    some (2 * k + b2n (decide (n - plus < plus)))
  else some (2 * k + b2n (decide (b < a)))

/-- The dimension-order route toward a module ID: a direction, 6 LOCAL, 7 DROP (R425, R449). -/
def Chip.dimRoute (c : Chip) (dst : Nat) : Nat :=
  let me := c.g .FAB_ID_ID 0
  if ¬ c.inTopo dst then 7
  else
    match c.dirIn me dst 0, c.dirIn me dst 1, c.dirIn me dst 2 with
    | some d, _, _ => d
    | none, some d, _ => d
    | none, none, some d => d
    | none, none, none => 6

/-- Every entry of `FAB_RT` at its dimension-order route (R425). -/
def Chip.fillRoutes (c : Chip) : Chip :=
  (List.range 2048).foldl (fun c' i =>
    c'.wr .FAB_RT 0 (Word.ofNat (((List.range 4).map (fun n => c.dimRoute (4 * i + n) * 2 ^ (8 * n))).sum)) i) c

/-- The route that `FAB_RT` names for a module ID (R449). -/
def Chip.routeOf (c : Chip) (id : Nat) : Nat := wbits (c.rd .FAB_RT 0 (id / 4)) (8 * (id % 4) + 2) (8 * (id % 4))

/-- Whether the link in direction d is a dateline of its ring (R426). -/
def Chip.isDateline (c : Chip) (d : Nat) : Bool :=
  let k := d / 2
  let n := c.dims.getD k 1
  let v := (coords (c.g .FAB_ID_ID 0)).getD k 0
  bit (c.g .FAB_TOPO_WRAP 0) k && decide (1 < n) && v == (if d % 2 = 0 then n - 1 else 0)

/-- The DATELINE bits of the links follow the ID and the topology (R443). -/
def Chip.setDatelines (c : Chip) : Chip :=
  (List.range 6).foldl (fun c d => c.put .FAB_LINK_STAT_DATELINE 0 (b2n (c.isDateline d)) d) c

/-- Whether this module is the time root (R436). -/
def Chip.isRoot (c : Chip) : Bool := c.g .FAB_ID_ID 0 == c.g .FAB_TIME_CTL_ROOT 0

/-- TIME_OK cleared; TIME_LOST records it when it was set (R440). -/
def Chip.clearTimeOk (c : Chip) : Chip :=
  if c.on .FAB_TIME_STAT_TIME_OK 0 then (c.put .FAB_TIME_STAT_TIME_OK 0 0).set1 .FAB_STICKY_TIME_LOST 0 else c

/-- PARENT and the root's TIME_OK follow `FAB_TIME_CTL`, the ID and the routes (R436, R437, R446). -/
def Chip.timeRole (c : Chip) : Chip :=
  if ¬ c.on .FAB_TIME_CTL_EN 0 then
    let c := c.put .FAB_TIME_STAT_PARENT 0 7
    if c.isRoot then c.clearTimeOk else c
  else if c.isRoot then (c.put .FAB_TIME_STAT_PARENT 0 6).set1 .FAB_TIME_STAT_TIME_OK 0
  else
    let d := c.routeOf (c.g .FAB_TIME_CTL_ROOT 0)
    c.put .FAB_TIME_STAT_PARENT 0 (if d < 6 then d else 7)

end Sys2Proof.Machine
end

