-- ==== Sys2Proof/Machine/Access.lean ====
section
/-! DEFINITION. BAR0 (R12–R20, R26, R532, R566–R568, R579, R646–R649): where an offset lies for the function that uses
it, what a write does to each field by its access type, unmapped accesses, and the causes and vectors of a function.
RegWrite.lean holds the command REGISTER_WRITE. -/

namespace Sys2Proof.Machine

/-! ### Functions (R567, R579) -/

/-- Number of a function: physical function 0 or 1, virtual functions of port 0, of port 1, Ringmaster, baseboard
controller. -/
def fnIdx : Fn → Nat
  | .pf port => port % 2
  | .vf port v => 2 + 16 * (port % 2) + (v + 15) % 16
  | .rm => 34
  | .bmc => 35

/-- The partition of a virtual function: VF v serves partition v − 1. -/
def fnPart : Fn → Option Nat
  | .vf _ v => some ((v + 15) % 16)
  | _ => none

/-- Whether a function index is a virtual function's, and its partition. -/
def vfPart (f : Nat) : Option Nat := if 2 ≤ f ∧ f < 34 then some ((f - 2) % 16) else none

/-- MSI-X vectors of a function. -/
def vecCount (f : Nat) : Nat := if f < 2 then 64 else 16

/-- Rings of a function (R582). -/
def ringCount (f : Nat) : Nat := if f < 2 then 32 else 16

/-- A vector raised: sent, or pending while it is masked or the function is in D3hot (R569, R579). -/
def Chip.raise (c : Chip) (f v : Nat) : Chip :=
  let v := min v (vecCount f - 1)
  if c.on .MSIX_DATA_MASK f v ∨ c.d3.contains f then
    c.wr .MSIX_PBA f (Word.ofNat ((c.rd .MSIX_PBA f).toNat ||| 2 ^ v))
  else c.emit (.msix f v)

/-- A pending vector sent, once it is unmasked and the function is in D0. -/
def Chip.sendPending (c : Chip) (f v : Nat) : Chip :=
  if bit (c.rd .MSIX_PBA f).toNat v ∧ ¬ c.on .MSIX_DATA_MASK f v ∧ ¬ c.d3.contains f then
    (c.put ⟨.MSIX_PBA, v, v⟩ f 0).emit (.msix f v)
  else c

/-- A cause of a function set: it raises the vector when its bit goes from 0 to 1 while it is enabled (R579). -/
def Chip.cause (c : Chip) (f k : Nat) : Chip :=
  if bit (c.g .HOSTIF_CAUSE_CAUSE f) k then c
  else
    let c := c.orF .HOSTIF_CAUSE_CAUSE f (2 ^ k)
    if bit (c.g .HOSTIF_CVEC_CEN f) k then c.raise f (c.g .HOSTIF_CVEC_VEC f) else c

/-- A cause of the virtual functions of a partition. -/
def Chip.partCause (c : Chip) (p k : Nat) : Chip := (c.cause (2 + p) k).cause (18 + p) k

/-- The state of a partition changed, with its cause (R579). -/
def Chip.setPart (c : Chip) (p st : Nat) : Chip :=
  if c.g .PART_STAT_STATE p = st then c else (c.put .PART_STAT_STATE p st).partCause p 0

/-! ### Where an offset lies (R26, R646–R649) -/

/-- A place in the register map: register, instance, index, and the byte within the register. -/
structure Loc where
  reg : Reg
  inst : Nat
  idx : Nat
  byte : Nat
  deriving DecidableEq, Repr

/-- Whether a function is the physical function or Ringmaster's window. -/
def fnPriv : Fn → Bool
  | .pf _ => true
  | .rm => true
  | _ => false

/-- Whether a register belongs to the change protocol, the only range of the baseboard controller (R647). -/
def isChg : Reg → Bool
  | .CHG_CMD => true
  | .CHG_STAT => true
  | .CHG_SEQ => true
  | .CHG_UID => true
  | .CHG_DIGEST => true
  | .CHG_KEYSTAGE => true
  | .CHG_FP => true
  | .CHG_BUF => true
  | _ => false

/-- Instance of `HUB_PSEL` in a window. -/
def pselOf : Fn → Option Nat
  | .pf port => some (port % 2)
  | .rm => some 2
  | _ => none

/-- The instance of a register that a function reaches (R647, R648); `at` is the flat index of the region, cluster or
unit window. The reading buffers of Ringmaster's path are the instances from 32 (R550). -/
def Chip.instOf (c : Chip) (fn : Fn) (r : Reg) (at' : Nat) : Option Nat :=
  let seen (reg : Nat) : Bool := match fnPart fn with | some p => c.owns p reg | none => fnPriv fn
  if r == .MTR_RD then
    match fnPart fn with
    | some p => some p
    | none => (pselOf fn).map (fun i => c.g .HUB_PSEL_PART i + if i = 2 then 32 else 0)
  else match r.info.kind with
  | .M => if fn = .bmc then none else some 0
  | .Mp => if fnPriv fn ∨ (fn = .bmc ∧ isChg r) then some 0 else none
  | .P => match fnPart fn with
    | some p => some p
    | none => (pselOf fn).map (fun i => c.g .HUB_PSEL_PART i)
  | .F => match fn with
    | .rm => some (c.g .HUB_PSEL_PORT 2)
    | .bmc => none
    | f => some (fnIdx f)
  | .W => pselOf fn
  | .R => if seen at' then some at' else none
  | .C => if seen (at' / 8) then some at' else none
  | .U => if seen (at' / 64) then some at' else none

/-- Whether an index of a register is mapped for an instance: a virtual function has 16 rings and 16 vectors (R579, R582). -/
def idxMapped (r : Reg) (f j : Nat) : Bool :=
  match r with
  | .HOSTIF_HIQ_BASE => decide (j < ringCount f)
  | .HOSTIF_HIQ_CTL => decide (j < ringCount f)
  | .HOSTIF_HIQ_DB => decide (j < ringCount f)
  | .HOSTIF_HIQ_STAT => decide (j < ringCount f)
  | .HOSTIF_HOQ_BASE => decide (j < ringCount f)
  | .HOSTIF_HOQ_SRC => decide (j < ringCount f)
  | .HOSTIF_HOQ_DB => decide (j < ringCount f)
  | .HOSTIF_HOQ_MOD => decide (j < ringCount f)
  | .HOSTIF_HOQ_STAT => decide (j < ringCount f)
  | .MSIX_ADDR => decide (j < vecCount f)
  | .MSIX_DATA => decide (j < vecCount f)
  | _ => true

/-- Index and byte of an offset within the block of a register. -/
def Reg.within (r : Reg) (w : Win) (o : Nat) : Option (Nat × Nat) :=
  let i := r.info
  if i.win ≠ w ∨ o < i.base then none
  else
    let d := o - i.base
    let j := if i.stride = 0 then 0 else d / i.stride
    let b := if i.stride = 0 then d else d % i.stride
    if j < i.count ∧ b < i.width / 8 then some (j, b) else none

/-- The window, flat index and offset in the window of a BAR0 offset (R26); none in a gap. -/
def windowOf (off : Nat) : Option (Win × Nat × Nat) :=
  if off < 0x01000000 then some (.hub, 0, off)
  else if off < 0x03000000 then
    let r := (off - 0x01000000) / 0x00200000
    let o := (off - 0x01000000) % 0x00200000
    if o < 0x40000 then some (.region, r, o)
    else
      let k := (o - 0x40000) / 0x20000
      let o := (o - 0x40000) % 0x20000
      if 8 ≤ k then none
      else if o < 0x8000 then some (.cluster, 8 * r + k, o)
      else
        let u := (o - 0x8000) / 0x2000
        if 8 ≤ u then none else some (.unit, 64 * r + 8 * k + u, (o - 0x8000) % 0x2000)
  else none

/-- First place of a list of registers that holds an offset of a window. -/
def findReg (w : Win) (o : Nat) : List Reg → Option (Reg × Nat × Nat)
  | [] => none
  | r :: rs => match r.within w o with | some (j, b) => some (r, j, b) | none => findReg w o rs

/-- The place that a function reaches at a BAR0 offset; none where it is unmapped for it (R14, R26, R532, R647). -/
def Chip.locate (c : Chip) (fn : Fn) (off : Nat) : Option Loc :=
  match windowOf off with
  | none => none
  | some (w, at', o) =>
    match findReg w o Reg.all with
    | none => none
    | some (r, j, b) =>
      match c.instOf fn r at' with
      | none => none
      | some i => if idxMapped r i j then some ⟨r, i, j, b⟩ else none

/-- BAR0 offset of index j of instance i of a register. -/
def Reg.offset (r : Reg) (i j : Nat) : Nat :=
  let f := r.info
  let base : Nat := match f.win with
    | .hub => 0
    | .region => 0x01000000 + i * 0x00200000
    | .cluster => 0x01000000 + i / 8 * 0x00200000 + 0x40000 + i % 8 * 0x20000
    | .unit => 0x01000000 + i / 64 * 0x00200000 + 0x40000 + i / 8 % 8 * 0x20000 + 0x8000 + i % 8 * 0x2000
  base + f.base + j * f.stride

/-- Whether an offset lies in the fault log, mapped for the physical function and Ringmaster's window (R522, R649). -/
def inLog (fn : Fn) (off : Nat) : Bool :=
  fnPriv fn && ((decide (0x80000 ≤ off) && decide (off < 0x90000)) || (decide (0x180000 ≤ off) && decide (off < 0x1C0000)))

/-- Whether a function reaches an instance of a register through the window it selects. -/
def Chip.reaches (c : Chip) (fn : Fn) (r : Reg) (i : Nat) : Bool := c.instOf fn r i == some i

/-! ### Unmapped and misshapen accesses (R14, R568) -/

/-- An access to an unmapped offset counted for the function that made it: reads i = 0, writes i = 1. -/
def Chip.unmapped (c : Chip) (fn : Fn) (i : Nat) : Chip :=
  match fn with
  | .rm => c
  | .bmc => c
  | f => (c.inc .HOSTIF_CNT_COUNT (fnIdx f) 1 i).cause (fnIdx f) 5

/-- A write that covers only part of an aligned 4 B word, dropped and counted. -/
def Chip.badSize (c : Chip) (fn : Fn) : Chip :=
  match fn with
  | .rm => c
  | .bmc => c
  | f => c.inc .HOSTIF_CNT_COUNT (fnIdx f) 1 2

/-- UNMAPPED_READ (R14, R568): a read of an unmapped offset returns 0 and is counted. -/
def execUnmappedRead (fn : Fn) (off size : Nat) (s : State) : Host.Outcome State Fault Refusal :=
  nextChip s (fun c =>
    if 0 < size ∧ (c.locate fn off).isNone ∧ ¬ inLog fn off then c.unmapped fn 0 else c)

/-! ### Writes to fields (R15–R19) -/

/-- The partition whose running locks an LK field of an instance (R17). -/
def Chip.lockPart (c : Chip) (r : Reg) (i : Nat) : Option Nat :=
  match r.info.kind with
  | .P => some i
  | .R => c.owner i
  | .C => c.owner (i / 8)
  | .U => c.owner (i / 64)
  | _ => none

/-- Whether LK fields of an instance are locked now. -/
def Chip.isLocked (c : Chip) (r : Reg) (i : Nat) : Bool :=
  match c.lockPart r i with | some p => c.runs p | none => false

/-- A lock violation recorded: the BAR0 offset of the dropped write (R536). -/
def Chip.lockViol (c : Chip) (p off : Nat) : Chip := (c.set1 .PART_STAT_LOCK_VIOL p).put .PART_VIOL_LOCK_OFF p off

/-- Fields whose write is an operation of its own (RegWrite.lean): the write of the other fields by their access type leaves
them as they are, as it leaves every W1S field, whose event is a command of its own. -/
def ownRow (r : Reg) (lo : Nat) : Bool :=
  match r with
  | .PART_QEND => true
  | .PART_CGRANT => true
  | .FAB_CTL => true
  | .CAR_CTL => lo == 0
  | .CAR_SEGS => true
  | .HOSTIF_WIN => true
  | .HOSTIF_WINSZ => true
  | .HOSTIF_RWIN => true
  | .HOSTIF_RWINSZ => true
  | .HOSTIF_HIQ_BASE => true
  | .HOSTIF_HIQ_DB => true
  | .HOSTIF_HOQ_BASE => true
  | .HOSTIF_HOQ_DB => true
  | .PWR_CTL => true
  | .QP_QCFG => lo == 0
  | .RACK_CTL => lo == 0
  | _ => false

/-- A field of a register after a write of the bits [hi:lo] of its word by its access type (R15): `d` is the word with the
written bits in place. -/
def writeField (locked : Bool) (r : Reg) (lo hi : Nat) (d : Nat) (w : Word) (f : FieldInfo) : Word :=
  if f.da ∨ f.hi < lo ∨ hi < f.lo ∨ (f.lk ∧ locked) ∨ ownRow r f.lo then w
  else
    let a := max lo f.lo
    let b := min hi f.hi
    let v := bits d b a
    match f.acc with
    | .RW => wset w b a v
    | .WO => wset w b a v
    | .W1C => wset w b a (wbits w b a &&& (v ^^^ (2 ^ (b + 1 - a) - 1)))
    | _ => w

/-- Values that a register stores in place of those written. -/
def stored (r : Reg) (f : Nat) (w : Word) : Word :=
  let atLeast1 (hi lo : Nat) (w : Word) : Word := if wbits w hi lo = 0 then wset w hi lo 1 else w
  let atMost (hi lo m : Nat) (w : Word) : Word := if m < wbits w hi lo then wset w hi lo m else w
  let limit (hi lo : Nat) (w : Word) : Word :=
    if wbits w hi lo = 0 ∨ 0x7F800000 < wbits w hi lo then wset w hi lo 0x7F800000 else w
  match r with
  | .PART_QCFG => atLeast1 23 16 w
  | .HUB_GATE_LIM => limit 63 32 (limit 31 0 w)
  | .SEAL_CFG => atLeast1 63 48 (atLeast1 47 32 (atLeast1 31 16 (atLeast1 15 0 w)))
  | .FAB_LINK_CFG => atLeast1 5 4 (atLeast1 3 0 w)
  | .FAB_TIME_CTL => atLeast1 31 16 w
  | .CAR_CFG => atLeast1 28 25 (atMost 24 16 256 (atLeast1 24 16 (atLeast1 9 0 w)))
  | .RACK_CTL => atLeast1 4 2 w
  | .RACK_AREA => atMost 28 16 6144 w
  | .RACK_LANE_CFG => atMost 38 32 64 w
  | .SOLV_CFG => atLeast1 31 16 w
  | .SOLV_RTAB => atMost 51 39 4096 w
  | .SOLV_STAGE => atMost 28 16 8128 w
  | .PRS_CFG => atMost 7 1 64 (atLeast1 7 1 w)
  | .QP_QCFG => atMost 63 52 3906 (atMost 48 32 65536 (atMost 24 8 65536 (atLeast1 24 8 w)))
  | .MXE_CKSEED => if w = 0 then 1 else w
  | .HOSTIF_HIQ_CTL => atMost 19 14 (vecCount f - 1) w
  | .HOSTIF_HOQ_SRC => atMost 19 14 (vecCount f - 1) w
  | .HOSTIF_CVEC => atMost 5 0 (vecCount f - 1) w
  | .HUB_PSEL => if f = 2 then w else wset w 4 4 0
  | .HOSTIF_CNT => 0
  | _ => w

/-- First byte of a table range outside a partition's near tier (R348). -/
def Chip.nearWhole (c : Chip) (p a n : Nat) : Bool := (List.range (cdiv n 4096)).all (fun i => (c.nearOf p (a + 4096 * i)).isSome)

/-- Whether a region's Solver may be enabled (R348). -/
def Chip.solvOk (c : Chip) (r : Nat) : Bool :=
  let (sb, sn) := c.stagePages r
  let (rb, rn) := c.rackPages r
  let cnt := c.g .SOLV_RTAB_COUNT r
  decide (sb + sn ≤ 8128) && !(decide (0 < sn) && decide (0 < rn) && decide (max sb rb < min (sb + sn) (rb + rn)))
    && (cnt == 0 || (match c.owner r with
      | some p => c.nearWhole p (c.g .SOLV_RTAB_ADDR r * 4096) (256 * cnt)
      | none => false))

/-- Registers that Ringmaster alone writes (R522). -/
def rmOnly : Reg → Bool
  | .SEAL_CMD => true
  | .SEAL_LOADIDX => true
  | .SEAL_LIVE => true
  | .INT_RCV => true
  | _ => false

/-- Whether a write to a whole register is dropped for a reason of its own, and the bit that records it. -/
def Chip.writeDropped (c : Chip) (fn : Fn) (l : Loc) : Bool × Option (Fld × Nat) :=
  match l.reg with
  | .HUB_SRT_IDX => (c.on ⟨.HUB_SRT_STEP, 63, 63⟩ l.inst, none)
  | .HUB_SRT_STEP => (c.on ⟨.HUB_SRT_STEP, 63, 63⟩ l.inst, none)
  | .FAB_ID => (c.g .FAB_CTL_LEN 0 != 0, some (.FAB_STICKY_ID_LOCKED, 0))
  | .FAB_TOPO => (c.g .FAB_CTL_LEN 0 != 0, some (.FAB_STICKY_ID_LOCKED, 0))
  | .FAB_TIME_NOW => (c.on .FAB_TIME_CTL_EN 0, none)
  | .CHG_BUF => (c.g .CHG_STAT_STATE 0 != 0, none)
  | .CHG_KEYSTAGE => (c.g .CHG_STAT_STATE 0 != 0, none)
  | .BOOT_FWBUF => (c.on .BOOT_FWCTL_GO 0, none)
  | r => (rmOnly r && fn != .rm, none)

/-- The bits [hi:lo] of a register written with those of `d` (R12, R15–R18), with the register's own rules. -/
def Chip.writeReg (c : Chip) (fn : Fn) (l : Loc) (hi lo d : Nat) : Chip :=
  let (drop, rec?) := c.writeDropped fn l
  if drop then match rec? with | some (f, i) => c.set1 f i | none => c
  else
    let r := l.reg
    let locked := c.isLocked r l.inst
    let old := c.rd r l.inst l.idx
    let touched := r.fields.filter (fun f => decide (lo ≤ f.hi) && decide (f.lo ≤ hi) && !ownRow r f.lo)
    let new := stored r l.inst (touched.foldl (writeField locked r lo hi d) old)
    let viol := locked && touched.any (fun f => f.lk)
    let c := if viol then match c.lockPart r l.inst with
        | some p => c.lockViol p (r.offset l.inst l.idx + (if 32 ≤ lo then 4 else 0)) | none => c
      else c
    match r with
    | .FAB_TIME_NOW => { c with now := setBits c.now hi lo (bits d hi lo), time := { c.time with frac := 0 } }
    | .FAB_ID => ((c.wr r l.inst new).setDatelines).timeRole
    | .FAB_TOPO => (c.wr r l.inst new).setDatelines
    | .FAB_TIME_CTL => (c.wr r l.inst new).timeRole
    | .FAB_RT => (c.wr r l.inst new l.idx).timeRole
    | .HOSTIF_PORT =>
      (List.range 16).foldl (fun c p =>
        if c.runs p then c.lockViol p (r.offset 0 0) else c.put ⟨.HOSTIF_PORT, p, p⟩ 0 (bits d p p)) c
    | .SOLV_CFG =>
      let c' := c.wr r l.inst new
      if lo = 0 ∧ wbit new 0 ∧ ¬ c'.solvOk l.inst then
        (c.wr r l.inst (wset new 0 0 (b2n (wbit old 0)))).set1 .SOLV_STICKY_CFG_BAD l.inst
      else c'
    | .CLU_SEQ_CTL => (c.wr r l.inst new).checkCmdq l.inst
    | .CEL_UPD_CTL =>
      if wbit new 0 ∧ ¬ wbit old 0 ∧ ¬ c.nearWhole l.inst (c.g .CEL_JRNL_ADDR l.inst * 4096) 0x40000 then c.wr r l.inst (wset new 0 0 0)
      else c.wr r l.inst new
    | .RGN_CLK => c
    | .CLU_CLK => c
    | .MSIX_DATA => (c.wr r l.inst new l.idx).sendPending l.inst l.idx
    | .SEAL_LIVE => (c.wr r l.inst new l.idx).syncCoord l.inst
    | _ => c.wrBits r l.inst new hi lo l.idx

/-- One aligned word of 4 B of the registers that have no operation of their own written. -/
def Chip.write4 (c : Chip) (fn : Fn) (off d : Nat) : Chip × Bool :=
  match c.locate fn off with
  | some l => (c.writeReg fn l (8 * l.byte + 31) (8 * l.byte) (d % 2 ^ 32 * 2 ^ (8 * l.byte)), true)
  | none => (c, inLog fn off)

/-- Bytes of `CHG_BUF` written (R568). -/
def Chip.writeChgBytes (c : Chip) (off size d : Nat) : Chip :=
  if c.g .CHG_STAT_STATE 0 ≠ 0 then c
  else
    (List.range size).foldl (fun c i =>
      let a := off + i - 0x79000
      if a < 4096 then
        let w := c.rd .CHG_BUF 0 (a / 8)
        c.wr .CHG_BUF 0 (wset w (8 * (a % 8) + 7) (8 * (a % 8)) (d / 2 ^ (8 * i) % 256)) (a / 8)
      else c) c

/-- A clock island. -/
def Power.island (p : Power) (i : Nat) : Island := sget {} p.clk i
/-- A clock island replaced. -/
def Power.setIsland (p : Power) (i : Nat) (x : Island) : Power := { p with clk := sset {} p.clk i x }

end Sys2Proof.Machine
end

