-- ==== Sys2Proof/Machine/Crypto.lean ====
section
/-! DEFINITION. The standards that meter readings, change descriptors and firmware images name: SHA-256 (FIPS 180-4),
HMAC (FIPS 198-1) and ECDSA over P-384 (FIPS 186-5) (R551, R555, R591, R595). -/

namespace Sys2Proof.Machine

/-! ### SHA-256 -/

/-- The round constants of SHA-256. -/
def sha256K : List Nat :=
  [0x428a2f98, 0x71374491, 0xb5c0fbcf, 0xe9b5dba5, 0x3956c25b, 0x59f111f1, 0x923f82a4, 0xab1c5ed5]
  ++ [0xd807aa98, 0x12835b01, 0x243185be, 0x550c7dc3, 0x72be5d74, 0x80deb1fe, 0x9bdc06a7, 0xc19bf174]
  ++ [0xe49b69c1, 0xefbe4786, 0x0fc19dc6, 0x240ca1cc, 0x2de92c6f, 0x4a7484aa, 0x5cb0a9dc, 0x76f988da]
  ++ [0x983e5152, 0xa831c66d, 0xb00327c8, 0xbf597fc7, 0xc6e00bf3, 0xd5a79147, 0x06ca6351, 0x14292967]
  ++ [0x27b70a85, 0x2e1b2138, 0x4d2c6dfc, 0x53380d13, 0x650a7354, 0x766a0abb, 0x81c2c92e, 0x92722c85]
  ++ [0xa2bfe8a1, 0xa81a664b, 0xc24b8b70, 0xc76c51a3, 0xd192e819, 0xd6990624, 0xf40e3585, 0x106aa070]
  ++ [0x19a4c116, 0x1e376c08, 0x2748774c, 0x34b0bcb5, 0x391c0cb3, 0x4ed8aa4a, 0x5b9cca4f, 0x682e6ff3]
  ++ [0x748f82ee, 0x78a5636f, 0x84c87814, 0x8cc70208, 0x90befffa, 0xa4506ceb, 0xbef9a3f7, 0xc67178f2]

/-- The initial hash value of SHA-256. -/
def sha256H : List Nat :=
  [0x6a09e667, 0xbb67ae85, 0x3c6ef372, 0xa54ff53a, 0x510e527f, 0x9b05688c, 0x1f83d9ab, 0x5be0cd19]

/-- A 32-bit word rotated right. -/
def rotr32 (x n : Nat) : Nat := x / 2 ^ n + x % 2 ^ n * 2 ^ (32 - n)

/-- The message schedule extended by n words; the list holds the newest word first. -/
def shaSchedule : Nat → List Nat → List Nat
  | 0, ws => ws
  | n + 1, ws =>
    let a := ws.getD 14 0
    let b := ws.getD 1 0
    let s0 := (rotr32 a 7) ^^^ (rotr32 a 18) ^^^ (a / 2 ^ 3)
    let s1 := (rotr32 b 17) ^^^ (rotr32 b 19) ^^^ (b / 2 ^ 10)
    shaSchedule n ((s1 + ws.getD 6 0 + s0 + ws.getD 15 0) % 2 ^ 32 :: ws)

/-- One round of the compression function with its constant plus schedule word. -/
def shaRound (s : List Nat) (kw : Nat) : List Nat :=
  match s with
  | [a, b, c, d, e, f, g, h] =>
    let s1 := (rotr32 e 6) ^^^ (rotr32 e 11) ^^^ (rotr32 e 25)
    let ch := (e &&& f) ^^^ ((2 ^ 32 - 1 - e) &&& g)
    let t1 := h + s1 + ch + kw
    let s0 := (rotr32 a 2) ^^^ (rotr32 a 13) ^^^ (rotr32 a 22)
    let mj := (a &&& b) ^^^ (a &&& c) ^^^ (b &&& c)
    [(t1 + s0 + mj) % 2 ^ 32, a, b, c, (d + t1) % 2 ^ 32, e, f, g]
  | s => s

/-- One 64 B block compressed into a hash value. -/
def shaBlock (h : List Nat) (blk : List Byte) : List Nat :=
  let w := ((chunks 4 16 blk).map beNat).reverse
  let ws := (shaSchedule 48 w).reverse
  let out := (ws.zip sha256K).foldl (fun s x => shaRound s (x.1 + x.2)) h
  (h.zip out).map (fun x => (x.1 + x.2) % 2 ^ 32)

/-- The message with its padding. -/
def shaPad (m : List Byte) : List Byte :=
  m ++ [0x80] ++ List.replicate ((119 - m.length % 64) % 64) 0 ++ beBytes 8 (8 * m.length)

/-- SHA-256 of a message, 32 bytes. -/
def sha256 (m : List Byte) : List Byte :=
  ((chunks 64 (m.length / 64 + 2) (shaPad m)).foldl shaBlock sha256H).flatMap (beBytes 4)

/-! ### HMAC -/

/-- HMAC-SHA-256 of a message under a key of at most 64 bytes. -/
def hmac256 (key m : List Byte) : List Byte :=
  let k := key ++ List.replicate (64 - key.length) 0
  sha256 (k.map (fun b => b ^^^ 0x5c) ++ sha256 (k.map (fun b => b ^^^ 0x36) ++ m))

/-! ### ECDSA over P-384 -/

/-- The field prime of P-384. -/
def p384P : Nat := 2 ^ 384 - 2 ^ 128 - 2 ^ 96 + 2 ^ 32 - 1
/-- The order of the base point. -/
def p384N : Nat :=
  0xffffffffffffffffffffffffffffffffffffffffffffffffc7634d81f4372ddf581a0db248b0a77aecec196accc52973
/-- The coefficient b of the curve y² = x³ − 3x + b. -/
def p384B : Nat :=
  0xb3312fa7e23ee7e4988e056be3f82d19181d9c6efe8141120314088f5013875ac656398d8a2ed19d2a85c8edd3ec2aef
/-- The base point. -/
def p384G : Nat × Nat :=
  (0xaa87ca22be8b05378eb1c71ef320ad746e1d3b628ba79b9859f741e082542a385502f25dbf55296c3a545e3872760ab7,
   0x3617de4a96262c6f5d9e98bf9292dc29f8f41dbd289a147ce9da3113b5f0b8c00a60b1ce1d7e819d7a431d7c90ea0e5f)

/-- x^e mod m, by squaring, over n bits of e from the lowest. -/
def powMod (m : Nat) : Nat → Nat → Nat → Nat
  | 0, _, _ => 1 % m
  | n + 1, x, e =>
    let r := powMod m n (x * x % m) (e / 2)
    if e % 2 = 1 then r * x % m else r

/-- Inverse modulo a prime below 2^384. -/
def invMod (m x : Nat) : Nat := powMod m 384 (x % m) (m - 2)

/-- The sum of two points of the curve; `none` is the point at infinity. -/
def p384Add (a b : Option (Nat × Nat)) : Option (Nat × Nat) :=
  match a, b with
  | none, b => b
  | a, none => a
  | some (x1, y1), some (x2, y2) =>
    let p := p384P
    if x1 = x2 ∧ (y1 + y2) % p = 0 then none
    else
      let l := if x1 = x2 then (3 * x1 * x1 + (p - 3)) * invMod p (2 * y1) % p
        else (y2 + p - y1) * invMod p (x2 + p - x1) % p
      let x3 := (l * l + 2 * p - x1 - x2) % p
      some (x3, (l * (x1 + p - x3) + p - y1) % p)

/-- k times a point, over n bits of k from the lowest. -/
def p384Mul : Nat → Nat → Option (Nat × Nat) → Option (Nat × Nat)
  | 0, _, _ => none
  | n + 1, k, q =>
    let r := p384Mul n (k / 2) (p384Add q q)
    if k % 2 = 1 then p384Add r q else r

/-- Whether a point lies on the curve. -/
def onP384 (q : Nat × Nat) : Bool :=
  decide (q.1 < p384P) && decide (q.2 < p384P) &&
    (q.2 * q.2 % p384P == (q.1 * q.1 % p384P * q.1 + (p384P - 3) * q.1 + p384B) % p384P)

/-- ECDSA verification of a 32-byte digest: the public key x‖y and the signature r‖s as 96 bytes each. -/
def ecdsaOk (key sig digest : List Byte) : Bool :=
  let q := (beNat (key.take 48), beNat ((key.drop 48).take 48))
  let r := beNat (sig.take 48)
  let s := beNat ((sig.drop 48).take 48)
  if r = 0 ∨ s = 0 ∨ p384N ≤ r ∨ p384N ≤ s ∨ ¬ onP384 q then false
  else
    let w := invMod p384N s
    match p384Add (p384Mul 384 (beNat digest * w % p384N) (some p384G)) (p384Mul 384 (r * w % p384N) (some q)) with
    | none => false
    | some (x, _) => x % p384N == r

end Sys2Proof.Machine
end

