-- ==== Sys2Proof/Machine/Meters.lean ====
section
/-! DEFINITION. Meter readings: snapshots, sequence numbers, the MAC, and the buffers of the three paths (R546–R553). -/

namespace Sys2Proof.Machine

/-- The meter key of a set, 32 bytes (R551). -/
def Chip.meterKey (c : Chip) (part : Nat) : Option (List Byte) := (c.prot.mkeys.find? (fun x => x.1 == part)).map Prod.snd

/-- Words 0–29 of a reading taken now (R550). -/
def Chip.readingWords (c : Chip) (path part : Nat) : List Word :=
  let w0 := 0xB1 + part * 2 ^ 8 + path * 2 ^ 13 + c.g .FAB_ID_ID 0 * 2 ^ 16 + c.g .FAB_ID_VALID 0 * 2 ^ 29
    + b2n (c.meterKey part).isSome * 2 ^ 30
  [Word.ofNat w0, Word.ofNat (c.g .MTR_STAT_NEXT_SEQ part), Word.ofNat c.now, c.rd .MTR_EPOCH part]
    ++ (List.range 24).map (fun i => Word.ofNat (c.meterVal part i)) ++ [0, 0]

/-- The MAC of a reading, two words; 0 with no key installed (R551). -/
def Chip.readingMac (c : Chip) (part : Nat) (ws : List Word) : List Word :=
  match c.meterKey part with
  | some k => wordsOf 2 ((hmac256 k (bytesOf ws)).take 16)
  | none => [0, 0]

/-- GO, UNATTR and BUSY of a partition's window follow the readings in progress (R550, R562). -/
def Chip.showReadings (c : Chip) (p : Nat) : Chip :=
  let own := c.mjobs.filter (fun j => j.part == p)
  let un := c.mjobs.filter (fun j => j.part == 16 && j.path != 2 && j.win % 32 == p)
  ((c.put .MTR_SNAP_GO p (b2n (own.any (fun j => j.path != 2)))).put .MTR_SNAP_UNATTR p (b2n (!un.isEmpty))).put
    .MTR_STAT_BUSY p (b2n (!own.isEmpty || !un.isEmpty))

/-- Whether a reading of a set is in progress on a path. -/
def Chip.reading (c : Chip) (path part : Nat) : Bool := c.mjobs.any (fun j => j.path == path && j.part == part)

/-- A reading started: the snapshot is taken with the next SEQ; one that the same path has in progress is ignored (R550,
R552). -/
def Chip.startReading (c : Chip) (f path part win : Nat) : Chip :=
  if c.reading path part then c
  else
    let j : MeterJob := { fn := f, path := path, part := part, win := win, words := c.readingWords path part }
    ({ c.inc .MTR_STAT_NEXT_SEQ part with mjobs := c.mjobs ++ [j] }).showReadings (win % 32)

/-- A reading completed under the key installed now: its words stand in the buffer of its path, or in the reply to the
baseboard controller; a function's cause MTR_DONE is set (R550, R551, R579). -/
def Chip.finishReading (c : Chip) (j : MeterJob) : Chip :=
  let ws := j.words ++ c.readingMac j.part j.words
  let c := ({ c with mjobs := c.mjobs.filter (fun k => !(k.path == j.path && k.part == j.part)) }).showReadings (j.win % 32)
  if j.path = 2 then c.emit (.mctp (0 :: bytesOf ws))
  else
    let c := (List.range 32).foldl (fun c i => c.wr .MTR_RD j.win (wordAt ws i) i) c
    if j.fn < 34 then c.cause j.fn 2 else c

/-- Path of a function. -/
def fnPath (fn : Fn) : Nat := if fn = .rm then 1 else 0

/-- MTR_GO (R550, R552): the partition's meters are copied for the path of the function that asks. -/
def execMtrGo (fn : Fn) (p : Nat) (s : State) : Host.Outcome State Fault Refusal :=
  nextChip s (fun c => if 16 ≤ p ∨ ¬ c.reaches fn .MTR_SNAP p then c else c.startReading (fnIdx fn) (fnPath fn) p (fnPath fn * 32 + p))

/-- MTR_UNATTR (R549, R550): accepted from the physical function and Ringmaster's window; the reading stands in the window it
was asked for in. -/
def execMtrUnattr (fn : Fn) (s : State) : Host.Outcome State Fault Refusal :=
  nextChip s (fun c =>
    match pselOf fn with
    | some i => c.startReading (fnIdx fn) (fnPath fn) 16 (fnPath fn * 32 + c.g .HUB_PSEL_PART i)
    | none => c)

/-- METER_READING_DONE (R550–R552). -/
def execMeterReadingDone (path p : Nat) (s : State) : Host.Outcome State Fault Refusal :=
  nextChip s (fun c =>
    match c.mjobs.find? (fun j => j.path == path && j.part == p) with
    | some j => c.finishReading j
    | none => c)

end Sys2Proof.Machine
end

