-- ==== Sys2Proof/Machine/Census.lean ====
section
/-! DEFINITION. The census table of a unit and its records (R93, R94, R164, R165), and writes of engines to a unit's
operand space with the fence before them. -/

namespace Sys2Proof.Machine

/-- A census record (R94). -/
def censusWords (e : CensEntry) : List Word :=
  let c := e.cen
  [Word.ofNat (e.tensor % 2 ^ 24 + e.kind % 4 * 2 ^ 24 + e.fmt % 16 * 2 ^ 26), Word.ofNat (e.step % 2 ^ 48)]
    ++ [c.elems, c.zero, c.sat, c.nonfin, c.vanish, c.under].map (fun n => Word.ofNat (n % 2 ^ 48))

/-- A census record of a unit posted: discarded and counted while CENS_EN = 0 or the queue is disabled, held while the
queue has no free cell (R164, R165). -/
def Chip.censPost (c : Chip) (u : Nat) (e : CensEntry) : Chip :=
  if ¬ c.on .VEC_CTL_CENS_EN u then c.inc .VEC_CNT_CDROP_COUNT u
  else
    match c.post (regionOfU u) (c.g .VEC_CTL_CENS_QUEUE u) ((censusWords e).map (·, false)) with
    | .linked c' => c'.inc .VEC_CNT_CENSUS_COUNT u
    | .noCell => c.setUnit u { c.unit u with cheld := (c.unit u).cheld ++ [e] }
    | .closed _ => (c.inc .VEC_CNT_CDROP_COUNT u).set1 .VEC_STICKY_CENS_DROP u

/-- Counts added to the census entry of a tensor and step: a new key that finds the table full posts the entry used
least recently (R94, R164). -/
def Chip.censAdd (c : Chip) (u : Nat) (e : CensEntry) : Chip :=
  let x := c.unit u
  match x.cens.find? (fun o => o.tensor == e.tensor && o.step == e.step) with
  | some o =>
    let rest := x.cens.filter (fun o => !(o.tensor == e.tensor && o.step == e.step))
    c.setUnit u { x with cens := rest ++ [{ o with cen := o.cen.add e.cen }] }
  | none =>
    match x.cens with
    | old :: rest =>
      if 16 ≤ x.cens.length then (c.setUnit u { x with cens := rest ++ [e] }).censPost u old
      else c.setUnit u { x with cens := x.cens ++ [e] }
    | [] => c.setUnit u { x with cens := [e] }

/-- The entry of a tensor and step posted, if the table holds one (CEND of R145, R164). -/
def Chip.censPostKey (c : Chip) (u tensor step : Nat) : Chip :=
  let x := c.unit u
  match x.cens.find? (fun o => o.tensor == tensor && o.step == step) with
  | some o => (c.setUnit u { x with cens := x.cens.filter (fun o => !(o.tensor == tensor && o.step == step)) }).censPost u o
  | none => c

/-- Every entry of a unit posted (a phase marker, R164). -/
def Chip.censPostAll (c : Chip) (u : Nat) : Chip :=
  let l := (c.unit u).cens
  l.foldl (fun c e => c.censPost u e) (c.setUnit u { c.unit u with cens := [] })

/-- CENSUS_HELD_POST (R165): held records are posted in order once cells are free; a record whose queue is disabled by
then is discarded and counted. -/
def execCensusHeldPost (u : Nat) (s : State) : Host.Outcome State Fault Refusal :=
  nextChip s (fun c =>
    let l := (c.unit u).cheld
    l.foldl (fun c e => c.censPost u e) (c.setUnit u { c.unit u with cheld := [] }))

/-- One run of bytes written by an engine at an operand address of a unit. A run that meets a fenced range is blocked
and reported, unless it lies whole in an exempt range (R41, R187, R361); other bytes are written and metered. -/
def Chip.engWrite (c : Chip) (p writer u addr : Nat) (bs : List Byte) (poison : Bool) (exempt : List (Nat × Nat) := []) : Chip :=
  let k := opAt u addr
  match c.fenceHit p k bs.length with
  | some a =>
    if exempt.any (within k bs.length) then (c.write k bs poison).meter p 12 bs.length
    else c.blockedWrite p writer a
  | none => (c.write k bs poison).meter p 12 bs.length

/-- Maximal runs of a row of optional items: start index and items of each run of present ones. -/
def runsOf {α : Type} : Nat → List (Option α) → List (Nat × List α)
  | _, [] => []
  | i, none :: xs => runsOf (i + 1) xs
  | i, some a :: xs =>
    match runsOf (i + 1) xs with
    | (j, as) :: rest => if j = i + 1 then (i, a :: as) :: rest else (i, [a]) :: (j, as) :: rest
    | [] => [(i, [a])]

end Sys2Proof.Machine
end

