-- ==== Sys2Proof/Machine/Digest.lean ====
section
/-! DEFINITION. Checksums: CRC-32C (R262, R418, R590). -/

namespace Sys2Proof.Machine

/-- One bit of the reflected CRC-32C. -/
def crcBit (r : Nat) : Nat := if r % 2 = 1 then (r / 2) ^^^ 0x82F63B78 else r / 2

/-- One byte taken into a CRC-32C register. -/
def crcByte (r : Nat) (b : Byte) : Nat := iter crcBit 8 (r ^^^ b.toNat)

/-- CRC-32C of bytes: starts at all ones, reflected, complemented at the end. -/
def crc32c (bs : List Byte) : Nat := (bs.foldl crcByte 0xFFFFFFFF) ^^^ 0xFFFFFFFF

end Sys2Proof.Machine
end

