-- ==== Sys2Proof/Machine/Packet.lean ====
section
/-! DEFINITION. Packets and links of the Trellis: headers and PCRC, routing, credits, sending, replay, the states a link
moves between, and injection (R400–R419, R425–R434). -/

namespace Sys2Proof.Machine

/-! ### Headers (R417–R419) -/

/-- Word i of a header. -/
def hw (k : Pkt) (i : Nat) : Word := wordAt k.hdr i
def kType (k : Pkt) : Nat := wbits (hw k 0) 7 0
def kVc (k : Pkt) : Nat := wbits (hw k 0) 9 8
def kLane (k : Pkt) : Nat := wbits (hw k 0) 10 10
def kShared (k : Pkt) : Bool := wbit (hw k 0) 11
def kDst (k : Pkt) : Nat := wbits (hw k 0) 24 12
def kSrc (k : Pkt) : Nat := wbits (hw k 0) 37 25
def kNdata (k : Pkt) : Nat := wbits (hw k 0) 44 38
def kHops (k : Pkt) : Nat := wbits (hw k 0) 50 45
def kJtag (k : Pkt) : Nat := wbits (hw k 1) 15 0
def kLepoch (k : Pkt) : Nat := wbits (hw k 1) 31 16
def kRepoch (k : Pkt) : Nat := wbits (hw k 1) 47 32

end Sys2Proof.Machine

namespace Sys2Proof

/-- A header field written. -/
def Pkt.set (k : Pkt) (i hi lo v : Nat) : Pkt :=
  { k with hdr := Machine.listSet k.hdr i (Machine.wset (Machine.hw k i) hi lo v) }

end Sys2Proof

namespace Sys2Proof.Machine

/-- Flits of a packet. -/
def kFlits (k : Pkt) : Nat := 1 + kNdata k

/-- Virtual channel of a type; none where the type is reserved or link-local. -/
def vcOfType : Nat → Option Nat
  | 0x10 => some 2
  | 0x20 => some 2
  | 0x21 => some 2
  | 0x22 => some 2
  | 0x28 => some 3
  | 0x29 => some 3
  | 0x30 => some 1
  | 0x40 => some 0
  | 0x41 => some 0
  | _ => none

/-- PCRC of a packet: words 0–6 with LANE, SHARED and HOPS as 0, then the data. -/
def pcrc (k : Pkt) : Nat :=
  let w0 := wset (wset (hw k 0) 11 10 0) 50 45 0
  crc32c (bytesOf (w0 :: (List.range 6).map (fun i => hw k (i + 1))) ++ bytesOf k.words)

/-- Whether the PCRC of a packet matches. -/
def crcOk (k : Pkt) : Bool := wbits (hw k 7) 31 0 == pcrc k

end Sys2Proof.Machine

namespace Sys2Proof

/-- The packet with its PCRC. -/
def Pkt.seal (k : Pkt) : Pkt := k.set 7 31 0 (Machine.pcrc k)

end Sys2Proof

namespace Sys2Proof.Machine

/-- A packet of a type toward a module: its type words 2–6 and data words with one poison mark per flit. -/
def mkPkt (type dst : Nat) (ws : List Nat) (data : List Word) (poison : List Bool) : Pkt :=
  let n := cdiv data.length 8
  let w0 := type + (vcOfType type).getD 0 * 2 ^ 8 + dst % 2 ^ 13 * 2 ^ 12 + n * 2 ^ 38
  { hdr := [Word.ofNat w0, 0] ++ (List.range 5).map (fun i => Word.ofNat (ws.getD i 0)) ++ [0]
    words := data ++ List.replicate (8 * n - data.length) 0
    poison := (List.range n).map (fun i => poison.getD i false) }

/-- A header flit as eight words. -/
def headWords (ws : List Word) : List Word := (List.range 8).map (wordAt ws)

/-! ### Links -/

/-- A link. -/
def Chip.link' (c : Chip) (d : Nat) : LinkS := sget {} c.links d
/-- A link replaced. -/
def Chip.setLink (c : Chip) (d : Nat) (x : LinkS) : Chip := { c with links := sset {} c.links d x }
/-- STATE of a link (R400). -/
def Chip.linkState (c : Chip) (d : Nat) : Nat := c.g .FAB_LINK_STAT_STATE 0 d
/-- Whether a link carries packets. -/
def Chip.linkActive (c : Chip) (d : Nat) : Bool := decide (d < 6) && c.linkState d == 6

/-- A link enters a state now. -/
def Chip.toState (c : Chip) (d st : Nat) : Chip :=
  (c.put .FAB_LINK_STAT_STATE 0 st d).setLink d { c.link' d with since := c.up }

/-- CAUSE of a link. -/
def Chip.setCause (c : Chip) (d cause : Nat) : Chip := c.put .FAB_LINK_STAT_CAUSE 0 cause d

/-- Partitions with a job tag, to whose fault queues link faults are copied (R494). -/
def Chip.jobParts (c : Chip) : List Nat := (List.range 16).filter (fun p => c.g .FAB_JOB_JTAG p != 0)

/-- A packet discarded at its header (R427). -/
def Chip.routeDrop (c : Chip) (d : Nat) (k : Pkt) : Chip :=
  let c := (c.inc .FAB_CNT_COUNT 0 1 2).set1 .FAB_STICKY_ROUTE_DROP 0
  c.postFault { cls := 0x11, place := .nobody c.jobParts, loc := d, lockind := 6, detail := [kDst k, kHops k] }

/-- The parent link is lost: LOCKED clears and holdover starts (R438). -/
def Chip.holdover (c : Chip) : Chip :=
  let c := (c.put .FAB_TIME_STAT_LOCKED 0 0).set1 .FAB_TIME_STAT_HOLDOVER 0
  { c with time := { c.time with pend := none, holdAt := some (c.time.holdAt.getD c.up) } }

/-- The packet being received when its link fails, completed with poisoned flits of 0 (R434). -/
def Chip.truncate (c : Chip) (d : Nat) : Chip :=
  match (c.link' d).cur with
  | none => c
  | some k =>
    let n := kNdata k - k.poison.length
    let k := { k with words := k.words ++ List.replicate (8 * n) 0, poison := k.poison ++ List.replicate n true }
    let c := (c.inc .FAB_CNT_COUNT 0 1 5).set1 .FAB_STICKY_TRUNC 0
    { c with arrived := c.arrived ++ [(d, k)] }

/-- A link goes to FAILED or DISABLED (R434): what it had not yet delivered is lost, a packet in reception is truncated,
packets that wait for it are discarded; leaving ACTIVE or RETRAIN sets LINK_DOWN and posts a record. Credits of the link
are no longer returned. -/
def Chip.linkDown (c : Chip) (d st cause : Nat) : Chip :=
  let live := c.linkState d == 6 || c.linkState d == 7
  let x := c.link' d
  let c := c.truncate d
  let c := { c with arrived := c.arrived.map (fun (a : Nat × Pkt) => if a.1 = d then (6, a.2) else a)
                    chold := c.chold.filter (fun h => h.link != d) }
  let c := (c.setLink d { retrains := x.retrains, tries := x.tries }).toState d st
  let c := c.put .FAB_LINK_STAT_PORTS_UP 0 0 d
  let c := if live ∨ st = 8 then c.setCause d cause else c
  let c := if live then
      let c := (c.set1 .FAB_STICKY_LINK_DOWN 0).postFault
        { cls := 0x10, place := .nobody c.jobParts, loc := d, lockind := 6, detail := [cause] }
      if c.g .FAB_TIME_STAT_PARENT 0 = d then c.holdover else c
    else c
  x.wait.foldl (fun c w => c.routeDrop d w.2.2) c

/-- An ACTIVE link enters RETRAIN; a fifth entry within 1 s fails it (R404). -/
def Chip.toRetrain (c : Chip) (d cause : Nat) : Chip :=
  if ¬ c.linkActive d then c
  else
    let x := c.link' d
    let recent := x.retrains.filter (fun t => decide (c.up < t + 1000000000))
    let c := c.incSat .FAB_LINK_STAT_RETRAINS 0 1 d
    if 4 ≤ recent.length then c.linkDown d 8 cause
    else
      let c := c.setLink d { x with
        cfg := c.rd .FAB_LINK_CFG 0 d, ports := 7, reps := 0, retrains := recent ++ [c.up]
        lanes := x.lanes.map (fun l => (l.1, { l.2 with hits := 0, miss := 0 })) }
      ((c.toState d 7).setCause d cause).put .FAB_LINK_STAT_PORTS_UP 0 0 d

/-- A cause that the manual does not name. -/
def Chip.openCause (c : Chip) (f : Chip → Nat → Chip) : Chip :=
  let (v, c) := c.free 4
  f c v

/-! ### Credits and sending (R411, R415) -/

/-- Buffer lane of a packet (R414). -/
def kBuf (k : Pkt) : Nat := 2 * kVc k + kLane k

/-- Codewords that a packet takes. -/
def kCodewords (k : Pkt) : Nat := cdiv (kFlits k) 10

/-- Credit pool that a packet may use: its lane's own (0–7) or the shared pool (8). -/
def LinkS.poolFor (x : LinkS) (k : Pkt) : Option Nat :=
  if kFlits k ≤ x.credits.getD (kBuf k) 0 then some (kBuf k)
  else if kFlits k ≤ x.credits.getD 8 0 then some 8 else none

/-- Codewords sent and not acknowledged. -/
def LinkS.unacked (x : LinkS) : Nat := (x.tx + 65536 - x.ack) % 65536

/-- A packet sent on a link from a credit pool, its codewords kept for replay. -/
def Chip.sendNow (c : Chip) (d : Nat) (k : Pkt) (pool : Nat) : Chip :=
  let x := c.link' d
  let k := k.set 0 11 11 (b2n (pool == 8))
  let tx := (x.tx + kCodewords k) % 65536
  let c := c.setLink d { x with
    tx := tx, credits := listSet x.credits pool (x.credits.getD pool 0 - kFlits k)
    buf := x.buf ++ [((tx + 65535) % 65536, k)], ackAt := if x.unacked = 0 then c.up else x.ackAt }
  c.emit (.packet d k)

/-- A replay from the oldest unacknowledged codeword; the eighth without an advance leaves ACTIVE (R404, R411). -/
def Chip.replay (c : Chip) (d : Nat) : Chip :=
  let x := c.link' d
  let c := c.incSat .FAB_LINK_RETRY_REPLAYS 0 1 d
  let c := (c.setLink d { x with reps := x.reps + 1, ackAt := c.up }).emit (.replay d x.ack)
  let c := x.buf.foldl (fun c b => c.emit (.packet d b.2)) c
  if 8 ≤ x.reps + 1 then c.toRetrain d 8 else c

/-- Waiting packets of a link sent in order as credit and replay room allow; a packet waits behind an earlier one of its
lane. -/
def Chip.serveWait (c : Chip) (d : Nat) : List Nat → List (Nat × Bool × Pkt) → Chip × List (Nat × Bool × Pkt)
  | _, [] => (c, [])
  | blocked, w :: ws =>
    let x := c.link' d
    let pool := if blocked.contains (kBuf w.2.2) ∨ 1024 < x.unacked + kCodewords w.2.2 then none else x.poolFor w.2.2
    match pool with
    | some p => (c.sendNow d w.2.2 p).serveWait d blocked ws
    | none =>
      let (c, l) := c.serveWait d (kBuf w.2.2 :: blocked) ws
      (c, w :: l)

/-- The waiting packets of a link served. -/
def Chip.pump (c : Chip) (d : Nat) : Chip :=
  let (c, l) := c.serveWait d [] (c.link' d).wait
  c.setLink d { c.link' d with wait := l }

/-- A packet handed to an ACTIVE link. A full replay buffer starts a replay. -/
def Chip.sendOn (c : Chip) (d : Nat) (k : Pkt) : Chip :=
  let x := c.link' d
  let c := (c.setLink d { x with wait := x.wait ++ [(c.up, false, k)] }).pump d
  if 1024 < x.unacked + kCodewords k then c.replay d else c

/-! ### Routing (R425–R428) -/

/-- LANE of a packet that leaves in direction d: L on entering a dimension, H from the dateline on (R426). `fr` is the link
it came on. -/
def Chip.laneFor (c : Chip) (fr : Option Nat) (d : Nat) (k : Pkt) : Nat :=
  let keep := match fr with | some e => if e / 2 = d / 2 then kLane k else 0 | none => 0
  if c.isDateline d then 1 else keep

/-- A packet routed by `FAB_RT`: delivered here, sent on, or discarded. -/
def Chip.route (c : Chip) (fr : Option Nat) (k : Pkt) : Chip :=
  let d := c.routeOf (kDst k)
  if d = 6 then { c with arrived := c.arrived ++ [(fr.getD 6, k)] }
  else if d = 7 ∨ 63 ≤ kHops k ∨ ¬ c.linkActive d then c.routeDrop d k
  else c.sendOn d ((k.set 0 10 10 (c.laneFor fr d k)).set 0 50 45 (kHops k + 1))

/-! ### Receiving -/

/-- A FLOW flit sent: what has been processed, credits to return, and a NAK where one is due (R412). -/
def Chip.sendFlow (c : Chip) (d : Nat) (nak : Option Nat) : Chip :=
  let x := c.link' d
  let f : FlowFlit := { ack := some ((x.rxDone + 65535) % 65536), nak := nak, credits := (List.range 8).map (fun i => x.owed.getD i 0)
                        shared := x.owed.getD 8 0 }
  (c.setLink d { x with since32 := 0, owed := List.replicate 9 0 }).emit (.flow d f)

/-- Credits of n flits returned to a pool of a link; more than 64 waiting go out at once. -/
def Chip.returnCredit (c : Chip) (d pool n : Nat) : Chip :=
  if ¬ c.linkActive d then c
  else
    let x := c.link' d
    let o := (List.range 9).map (fun i => x.owed.getD i 0 + (if i = pool then n else 0))
    let c := c.setLink d { x with owed := o }
    if 64 < o.sum then c.sendFlow d none else c

/-- Whether a producer's words wait at a queue. -/
def Chip.waits (c : Chip) (r q prod : Nat) : Bool := (c.queue r q).waiting.any (fun w => w.1 == prod)

/-- Credits held by delivered packets whose words no longer wait are returned (R416). -/
def Chip.settle (c : Chip) : Chip :=
  let free := c.chold.filter (fun h => !c.waits h.region h.queue h.prod)
  let c := { c with chold := c.chold.filter (fun h => c.waits h.region h.queue h.prod) }
  free.foldl (fun c h => c.returnCredit h.link h.pool h.flits) c

/-- Pool that a received packet's credit belongs to. -/
def kPool (k : Pkt) : Nat := if kShared k then 8 else kBuf k

/-- A packet taken out of the receive buffer: the link it came on, and the rest. -/
def takeArrived (k : Pkt) : List (Nat × Pkt) → Option (Nat × List (Nat × Pkt))
  | [] => none
  | a :: as => if a.2 = k then some (a.1, as) else (takeArrived k as).map (fun x => (x.1, a :: x.2))

/-- A packet leaves the receive buffer of the link it came on, and its credit goes back. -/
def Chip.leave (c : Chip) (k : Pkt) : Chip :=
  match takeArrived k c.arrived with
  | none => c
  | some (d, l) => ({ c with arrived := l }).returnCredit d (kPool k) (kFlits k)

/-- A packet leaves the receive buffer while its words wait at a queue: its credit stays held (R416). -/
def Chip.leaveHeld (c : Chip) (k : Pkt) (r q prod : Nat) : Chip :=
  match takeArrived k c.arrived with
  | none => c
  | some (d, l) =>
    let c := { c with arrived := l }
    if d < 6 then { c with chold := c.chold ++ [{ link := d, pool := kPool k, flits := kFlits k, region := r, queue := q, prod := prod }] } else c

/-! ### Injection (R430, R433) -/

/-- Whether a partition may send to a module. -/
def Chip.permits (c : Chip) (p id : Nat) : Bool := bit (c.rd .FAB_PERM p (id / 64)).toNat (id % 64)

/-- Whether a partition's packet to a module would be sent. -/
def Chip.mayInject (c : Chip) (p dst : Nat) : Bool := c.g .FAB_JOB_JTAG p != 0 && c.permits p dst

/-- Fabric bytes of a packet (R433). -/
def kBytes (k : Pkt) : Nat := 64 * kFlits k

/-- A packet of a partition injected: checked, stamped with source, job tag and epochs, metered, routed. -/
def Chip.inject (c : Chip) (p : Nat) (k : Pkt) : Chip :=
  if ¬ c.mayInject p (kDst k) then c
  else
    let k := ((k.set 0 37 25 (c.g .FAB_ID_ID 0)).set 0 50 45 0).set 0 11 10 0
    let k := ((k.set 1 15 0 (c.g .FAB_JOB_JTAG p)).set 1 31 16 (c.lepoch p)).set 1 47 32 (c.g .FAB_JOB_REPOCH p)
    let k := k.seal
    (c.meter p 19 (kBytes k)).route none k

/-- A management packet injected: no job tag and no meter (R423, R433). -/
def Chip.injectMgmt (c : Chip) (k : Pkt) : Chip :=
  let k := (((k.set 0 37 25 (c.g .FAB_ID_ID 0)).set 0 50 45 0).set 0 11 10 0).set 1 47 0 0
  c.route none k.seal

end Sys2Proof.Machine
end

