-- ==== Sys2Proof/Machine/Tile.lean ====
section
/-! DEFINITION. One tile of the matrix engine as a function of memory: geometry, operand elements, chunk arithmetic,
masks, and the checksum column (R75–R80, R96, R101–R117, R228, R229). -/

namespace Sys2Proof.Machine

/-! ### Geometry (R228, R229) -/

/-- First chunk and number of chunks of intra-cluster slice s of S over C chunks (R229). -/
def sliceChunks (C S s : Nat) : Nat × Nat := (s * (C / S) + min s (C % S), C / S + b2n (decide (s < C % S)))

/-- Rows of the tile. -/
def TileJob.mt (t : TileJob) : Nat := min 64 (mmM t.mm - 64 * t.i)
/-- Columns of the tile. -/
def TileJob.nt (t : TileJob) : Nat := min 32 (mmN t.mm - 32 * t.j)
/-- K offset k_s of the tile's slice. -/
def TileJob.k0 (t : TileJob) : Nat := 32 * (sliceChunks (cdiv (mmK t.mm) 32) (mmKsplit t.mm) t.ks).1
/-- Contracted length of the tile's slice. -/
def TileJob.kt (t : TileJob) : Nat :=
  min (32 * (sliceChunks (cdiv (mmK t.mm) 32) (mmKsplit t.mm) t.ks).2) (mmK t.mm - t.k0)
/-- Mode of the tile (R101). -/
def TileJob.mode (t : TileJob) : Nat := (mmMode (mmFa t.mm) (mmFb t.mm)).getD 0
/-- Whether the tile is the slice that carries the bias. -/
def TileJob.hasBias (t : TileJob) : Bool := mmBias t.mm && t.ks == 0

/-! ### What the loader reads: addresses (R66, R103, R109, R228) -/

/-- Address and index within its row of the stored element of an operand: `line` is the row of A or the column of B,
`k` the stored position along K; A and transposed B run along K, the others across it. -/
def elemAt (addr stride : Nat) (alongK : Bool) (line k : Nat) : Nat × Nat :=
  if alongK then (addr + line * stride, k) else (addr + k * stride, line)

/-- Row address and index of a stored element of A at tile row r. -/
def TileJob.aAt (t : TileJob) (r k : Nat) : Nat × Nat :=
  elemAt (mmAddr t.mm 0) (mmStride t.mm 0) (!mmTa t.mm) (64 * t.i + r) k
/-- Row address and index of a stored element of B at tile column n. -/
def TileJob.bAt (t : TileJob) (n k : Nat) : Nat × Nat :=
  elemAt (mmAddr t.mm 1) (mmStride t.mm 1) (mmTb t.mm) (32 * t.j + n) k

/-- Address of the metadata byte of group g of a line of the compressed operand (R103). -/
def TileJob.metaAt (t : TileJob) (line g : Nat) : Nat := mmAddr t.mm 4 + line * mmStride t.mm 4 + g / 2

/-- Scale addresses of chunk ch of row r of A and of column n of B. -/
def TileJob.saAt (t : TileJob) (r ch : Nat) : Nat := mmAddr t.mm 2 + (64 * t.i + r) * mmStride t.mm 2 + ch
/-- Scale address of chunk ch of column n of B. -/
def TileJob.sbAt (t : TileJob) (n ch : Nat) : Nat := mmAddr t.mm 3 + ch * mmStride t.mm 3 + 32 * t.j + n

/-- Bytes of one stored element range: first byte and count for an index of a format. -/
def elemByte (f : Nat) (p : Nat × Nat) : Nat × Nat := (p.1 + p.2 * fmtNibbles f / 2, max 1 (fmtNibbles f / 2))

/-- Number of stored positions along K for a dense or compressed operand. -/
def storedK (sparse : Bool) (k : Nat) : Nat := if sparse then 2 * cdiv k 4 else k

/-- The byte ranges that a tile reads for an operand: one per line, or one per stored K row. -/
def operandRanges (f addr stride : Nat) (alongK : Bool) (line0 lines k0 ks : Nat) : List (Nat × Nat) :=
  if lines = 0 ∨ ks = 0 then []
  else
    let span (base first n : Nat) : Nat × Nat :=
      let lo := first * fmtNibbles f / 2
      (base + lo, cdiv ((first + n) * fmtNibbles f) 2 - lo)
    if alongK then (rangeFrom line0 lines).map (fun l => span (addr + l * stride) k0 ks)
    else (rangeFrom k0 ks).map (fun k => span (addr + k * stride) line0 lines)

/-- Every byte range that a tile reads (R107, R114): operands, scales, metadata, bias, masks. -/
def TileJob.reads (t : TileJob) : List (Nat × Nat) :=
  let w := t.mm
  let sp := mmSparse w
  let fa := mmFa w
  let fb := mmFb w
  let ka := if sp = 1 then t.k0 / 2 else t.k0
  let kb := if sp = 2 then t.k0 / 2 else t.k0
  let ch0 := t.k0 / 32
  let nch := cdiv t.kt 32
  let mx := modeMx t.mode && decide (0 < t.kt)
  if t.mt = 0 ∨ t.nt = 0 then []
  else
    operandRanges fa (mmAddr w 0) (mmStride w 0) (!mmTa w) (64 * t.i) t.mt ka (storedK (sp == 1) t.kt)
    ++ operandRanges fb (mmAddr w 1) (mmStride w 1) (mmTb w) (32 * t.j) t.nt kb (storedK (sp == 2) t.kt)
    ++ (if mx then (List.range t.mt).map (fun r => (t.saAt r ch0, nch)) else [])
    ++ (if mx then (rangeFrom ch0 nch).map (fun ch => (t.sbAt 0 ch, t.nt)) else [])
    ++ (if sp = 0 ∨ t.kt = 0 then [] else
        (rangeFrom (if sp = 1 then 64 * t.i else 32 * t.j) (if sp = 1 then t.mt else t.nt)).map
          (fun l => (t.metaAt l (t.k0 / 4), cdiv (cdiv t.kt 4) 2)))
    ++ (if t.hasBias then [(mmBiasAddr w + 128 * t.j, 4 * t.nt)] else [])
    ++ (if mmRen w then [(mmRmask w + 8 * t.i, cdiv t.mt 8)] else [])
    ++ (if mmCen w then [(mmCmask w + 4 * t.j, cdiv t.nt 8)] else [])

/-- The byte ranges of the tile's output in memory. -/
def TileJob.writes (t : TileJob) : List (Nat × Nat) :=
  if t.mt = 0 ∨ t.nt = 0 then []
  else (List.range t.mt).map (fun r => (mmOut t.mm + (64 * t.i + r) * mmOutStride t.mm + 128 * t.j, 4 * t.nt))

/-- Whether the tile itself, or the combining of its slices, writes the product's output to memory. -/
def TileJob.toMemory (t : TileJob) : Bool := mmDest t.mm == 0 || (mmDest t.mm == 2 && mmSlice t.mm == 0)

/-! ### Element values -/

/-- Stored index and validity of position k of a line of a compressed operand: none where the position is pruned. -/
def Chip.sparseIdx (c : Chip) (t : TileJob) (line k : Nat) : Option Nat :=
  let g := k / 4
  let b := c.num (opAt t.u (t.metaAt line g)) 1
  let code := if g % 2 = 0 then b % 16 else b / 16
  if code % 4 = k % 4 then some (2 * g) else if code / 4 = k % 4 then some (2 * g + 1) else none

/-- Whether every metadata code of the tile names two ascending positions (R103). -/
def Chip.metaOk (c : Chip) (t : TileJob) : Bool :=
  mmSparse t.mm == 0 ||
  (rangeFrom (if mmSparse t.mm = 1 then 64 * t.i else 32 * t.j) (if mmSparse t.mm = 1 then t.mt else t.nt)).all (fun l =>
    (rangeFrom (t.k0 / 4) (cdiv t.kt 4)).all (fun g =>
      let b := c.num (opAt t.u (t.metaAt l g)) 1
      let code := if g % 2 = 0 then b % 16 else b / 16
      decide (code % 4 < code / 4)))

/-- Value of an element of a format at a row address and index: MX elements without their scale. -/
def Chip.elemVal (c : Chip) (u f : Nat) (p : Nat × Nat) : FVal :=
  let raw := c.rawElem u p.1 f p.2
  if isMx f then decodeElem (mxOf f) raw else rawValue f raw

/-- A at tile row r, position k of K; none where 2:4 prunes it. -/
def Chip.aVal (c : Chip) (t : TileJob) (r k : Nat) : Option FVal :=
  if mmSparse t.mm = 1 then (c.sparseIdx t (64 * t.i + r) k).map (fun x => c.elemVal t.u (mmFa t.mm) (t.aAt r x))
  else some (c.elemVal t.u (mmFa t.mm) (t.aAt r k))

/-- B at tile column n, position k of K; none where 2:4 prunes it. -/
def Chip.bVal (c : Chip) (t : TileJob) (n k : Nat) : Option FVal :=
  if mmSparse t.mm = 2 then (c.sparseIdx t (32 * t.j + n) k).map (fun x => c.elemVal t.u (mmFb t.mm) (t.bAt n x))
  else some (c.elemVal t.u (mmFb t.mm) (t.bAt n k))

/-- Positions of chunk ch of the tile's slice: those below its K. -/
def TileJob.chunkPos (t : TileJob) (ch : Nat) : List Nat := rangeFrom (32 * ch) (min 32 (t.k0 + t.kt - 32 * ch))

/-- Chunk indices of the tile's slice in ascending order. -/
def TileJob.chunkIdx (t : TileJob) : List Nat := rangeFrom (t.k0 / 32) (cdiv t.kt 32)

/-- Bias of column n of the tile. -/
def Chip.biasVal (c : Chip) (t : TileJob) (n : Nat) : FVal :=
  if t.hasBias then decodeF fp32 (c.num (opAt t.u (mmBiasAddr t.mm + 128 * t.j + 4 * n)) 4) else .zero

/-- One chunk value with its overflow and whether it was set to +0 (UNF). -/
structure ChunkVal where
  v : FVal
  ovf : Bool := false
  unf : Bool := false
  deriving DecidableEq, Repr

/-- A leaf of a product: +0 where 2:4 prunes an operand. -/
def leafMul (f : Fmt) (x : Option FVal × Option FVal) : FO :=
  match x with
  | (some a, some b) => mulO f a b
  | _ => (.zero, false)

/-- BF16 chunk (R76). -/
def chunkBf (xs : List (Option FVal × Option FVal)) : ChunkVal :=
  let r := tree32 (addO fp32) (.zero, false) (xs.map (leafMul fp32))
  ⟨r.1, r.2, false⟩

/-- SPLIT chunk: the three passes and their combination (R80). -/
def chunkSplit (xs : List (Option FVal × Option FVal)) : ChunkVal :=
  let sel (f g : FVal → FVal) : FO := tree32 (addO fp32) (.zero, false)
    (xs.map (fun x => leafMul fp32 (x.1.map f, x.2.map g)))
  let hi (x : FVal) : FVal := (splitBf x).1
  let lo (x : FVal) : FVal := (splitBf x).2
  let r := addO fp32 (addO fp32 (sel hi lo) (sel lo hi)) (sel hi hi)
  ⟨r.1, r.2, false⟩

/-- Whether every element of a block is zero; a pruned position is one. -/
def blockZero (xs : List (Option FVal)) : Bool := xs.all (fun x => match x with | some v => v.isZero | none => true)

/-- Microscaled chunk under two block exponents, none for a NaN scale (R78, R79). -/
def chunkMx (sa sb : Option Int) (xs : List (Option FVal × Option FVal)) : ChunkVal :=
  match sa, sb with
  | some ea, some eb =>
    if blockZero (xs.map Prod.fst) || blockZero (xs.map Prod.snd) then ⟨.zero, false, false⟩
    else
      let prod (x : Option FVal × Option FVal) : FVal := match x with | (some a, some b) => exactMul a b | _ => .zero
      let v := (tree32 (addF chunkFmt) .zero (xs.map prod)).scale2 (ea + eb)
      if ltV v.abs (.fin 1 (-149)) ∧ ¬ v.isZero then ⟨.zero, false, true⟩
      else let r := roundF fp32 .rne v; ⟨r, ovfOf [v] r, false⟩
  | _, _ => ⟨.nan, false, false⟩

/-- The value of chunk ch of element (r, n). -/
def Chip.chunkAt (c : Chip) (t : TileJob) (r n ch : Nat) : ChunkVal :=
  let xs := (t.chunkPos ch).map (fun k => (c.aVal t r k, c.bVal t n k))
  match t.mode with
  | 0 => chunkBf xs
  | 3 => chunkSplit xs
  | _ => chunkMx (scaleExp (c.num (opAt t.u (t.saAt r ch)) 1)) (scaleExp (c.num (opAt t.u (t.sbAt n ch)) 1)) xs

/-- An output element with its overflow and the number of chunks set to +0. -/
structure OutVal where
  v : FVal
  ovf : Bool
  unf : Nat
  deriving DecidableEq, Repr

/-- Output element (r, n): bias, then the chunks in ascending order, or in descending order on an arbitration tile
(R75, R110, R119). -/
def Chip.outAt (c : Chip) (t : TileJob) (desc : Bool) (r n : Nat) : OutVal :=
  let chs := if desc then t.chunkIdx.reverse else t.chunkIdx
  chs.foldl (fun (o : OutVal) ch =>
    let x := c.chunkAt t r n ch
    let s := addO fp32 (o.v, o.ovf) (x.v, x.ovf)
    ⟨s.1, s.2, o.unf + b2n x.unf⟩) ⟨c.biasVal t n, false, 0⟩

/-- All outputs of a tile, row by row. -/
def Chip.outputs (c : Chip) (t : TileJob) (desc : Bool) : List (List OutVal) :=
  (List.range t.mt).map (fun r => (List.range t.nt).map (fun n => c.outAt t desc r n))

/-! ### Masks (R112) -/

/-- Whether element (r, n) of the tile is written. -/
def Chip.writesElem (c : Chip) (t : TileJob) (r n : Nat) : Bool :=
  (!mmRen t.mm || bit (c.num (opAt t.u (mmRmask t.mm + 8 * t.i)) 8) r)
    && (!mmCen t.mm || bit (c.num (opAt t.u (mmCmask t.mm + 4 * t.j)) 4) n)

/-! ### The checksum column (R96, R115–R117) -/

/-- Weight w_j of the weight bits (R115). -/
def weight (bits j : Nat) : FVal :=
  .fin (if bit bits (2 * j + 1) then -1 else 1) (-(b2n (bit bits (2 * j)) : Int))

/-- One step of the checksum generator (R116). -/
def ckStep (s : Nat) : Nat :=
  let s := s ^^^ ((s <<< 13) % 2 ^ 64)
  let s := s ^^^ (s >>> 7)
  s ^^^ ((s <<< 17) % 2 ^ 64)

/-- A value of an operand with its block scale applied; none where pruned. -/
def scaled (e : Option Int) (v : Option FVal) : FVal :=
  match v, e with
  | none, _ => .zero
  | some _, none => .nan
  | some x, some k => x.scale2 k

/-- Decoded and scaled A of row r at position k, as the column uses it. -/
def Chip.aCol (c : Chip) (t : TileJob) (r k : Nat) : FVal :=
  scaled (if modeMx t.mode then scaleExp (c.num (opAt t.u (t.saAt r (k / 32))) 1) else some 0) (c.aVal t r k)
/-- Decoded and scaled B of column n at position k. -/
def Chip.bCol (c : Chip) (t : TileJob) (n k : Nat) : FVal :=
  scaled (if modeMx t.mode then scaleExp (c.num (opAt t.u (t.sbAt n (k / 32))) 1) else some 0) (c.bVal t n k)

/-- Sum of products over the columns by the tree of R75. -/
def colTree (wb : Nat) (xs : List FVal) : FVal :=
  tree32 (addF fp32) .zero ((List.range xs.length).map (fun j => mulF fp32 (xs.getD j .zero) (weight wb j)))
/-- Sum of magnitudes over the columns, rounded toward +Inf. -/
def colTreeUp (wb : Nat) (xs : List FVal) : FVal :=
  tree32 addUp .zero ((List.range xs.length).map (fun j => mulUp (xs.getD j .zero).abs (weight wb j).abs))

/-- T_i for contracted length K and bound Q̂_i (R96). -/
def tolerance (split : Bool) (K : Nat) (q : FVal) : FVal :=
  let base := addUp (mulUp (gammaUp (2 * cdiv K 32 + 24)) q) (roundDy fp32 .up (2 * K + 128 : Nat) (-149))
  if split then addUp base (mulUp (.fin 1 (-13)) q) else base

/-- The column's values of row r: ĉ_r and Q̂_r. -/
def Chip.colRow (c : Chip) (t : TileJob) (wb r : Nat) : FVal × FVal :=
  let bias := (List.range t.nt).map (c.biasVal t)
  t.chunkIdx.foldl (fun (acc : FVal × FVal) ch =>
    let ps := t.chunkPos ch
    let bs (k : Nat) : List FVal := (List.range t.nt).map (fun n => c.bCol t n k)
    (addF fp32 acc.1 (tree32 (addF fp32) .zero (ps.map (fun k => mulF fp32 (c.aCol t r k) (colTree wb (bs k))))),
     addUp acc.2 (tree32 addUp .zero (ps.map (fun k => mulUp (c.aCol t r k).abs (colTreeUp wb (bs k)))))))
    (colTree wb bias, colTreeUp wb bias)

/-- The test of one row: untested by its outputs, untested by the column, or r, ĉ and T with the verdict (R117). -/
inductive RowTest where
  | skipped
  | untested
  | tested (r ch t : FVal) (ok : Bool)
  deriving DecidableEq, Repr

/-- The exact difference |x − y|. -/
def diffV (x y : FVal) : FVal := (exactAdd x y.neg).abs

/-- The test of a row of outputs against the column's values. -/
def rowTest (split : Bool) (K wb : Nat) (outs : List FVal) (col : FVal × FVal) : RowTest :=
  if outs.any (fun v => !v.isFin) then .skipped
  else if !col.1.isFin || !col.2.isFin then .untested
  else
    let r := colTree wb outs
    let t := tolerance split K col.2
    .tested r col.1 t (leV (diffV r col.1) t)

/-! ### Upsets (R138) -/

/-- The FP32 value with one bit inverted. -/
def flipBit (v : FVal) (b : Nat) : FVal := decodeF fp32 (encodeF fp32 v ^^^ 2 ^ (b % 32))

/-- Outputs with the upset's bit of one element inverted. -/
def upsetRows (up : List Upset) (rows : List (List OutVal)) : List (List OutVal) :=
  up.foldl (fun rows u =>
    if u.ckcol then rows
    else
      let row := rows.getD u.row []
      match row[u.col]? with
      | some o => listSet rows u.row (listSet row u.col { o with v := flipBit o.v u.bit })
      | none => rows) rows

/-- The column's value of a row with the upset's bit inverted. -/
def upsetCol (up : List Upset) (r : Nat) (col : FVal × FVal) : FVal × FVal :=
  up.foldl (fun col u => if u.ckcol ∧ u.row = r then (flipBit col.1 u.bit, col.2) else col) col

/-! ### The tile's outcome -/

/-- Status of a tile when it starts (R103, R107, R237): addresses, then metadata. -/
def Chip.tileStatus (c : Chip) (t : TileJob) : Nat :=
  firstBad [
    chk (t.reads.all (fun r => c.opReach t.u r.1 r.2)) stBadAddr,
    chk (!t.toMemory || t.writes.all (fun r => c.opWritable t.u r.1 r.2)) stBadAddr,
    chk (c.metaOk t) stBadSparse]

/-- Whether any word that a tile reads is poisoned (R114). -/
def Chip.tilePoison (c : Chip) (t : TileJob) : Bool := t.reads.any (fun r => c.opBad t.u r.1 r.2)

/-- First position of a row-major table that a predicate holds of. -/
def firstPos {α : Type} (p : Nat → Nat → α → Bool) (rows : List (List α)) : Option (Nat × Nat) :=
  let go := (List.range rows.length).flatMap (fun r =>
    let row := rows.getD r []
    (List.range row.length).filterMap (fun n => match row[n]? with | some x => if p r n x then some (r, n) else none | none => none))
  go.head?

/-- The flags word of R86 in the bit order of `MXE_TFLAG` [5:0]. -/
def flagsOf (nf ovf unf emp poison chkf : Bool) : Nat :=
  b2n nf + 2 * b2n ovf + 4 * b2n unf + 8 * b2n emp + 16 * b2n poison + 32 * b2n chkf

/-- A tile evaluated with weight bits wb and upsets: outputs and flags, and the row tests (R86, R87, R112–R117, R121). A tile with
K = 0 sets no flag but POISON (R89, R114). -/
def Chip.evalTile (c : Chip) (t : TileJob) (desc : Bool) (wb : Nat) (up : List Upset) : TileOut × List RowTest :=
  let rows := upsetRows up (c.outputs t desc)
  let poison := c.tilePoison t
  let tests := if poison then [] else
    (List.range t.mt).map (fun r =>
      rowTest (t.mode == 3) t.kt wb ((rows.getD r []).map OutVal.v) (upsetCol up r (c.colRow t wb r)))
  let failed : Option Nat := (List.range tests.length).find? (fun r =>
    match tests[r]? with | some (.tested _ _ _ ok) => !ok | _ => false)
  let wr := c.writesElem t
  let deep := decide (0 < t.kt)
  let nf := firstPos (fun r n (o : OutVal) => deep && wr r n && !o.v.isFin) rows
  let ovf := firstPos (fun r n (o : OutVal) => wr r n && o.ovf) rows
  let unf := firstPos (fun r n (o : OutVal) => wr r n && decide (0 < o.unf)) rows
  let under := ((List.range rows.length).map (fun r =>
    ((List.range (rows.getD r []).length).map (fun n => if wr r n then ((rows.getD r []).getD n ⟨.zero, false, 0⟩).unf else 0)).sum)).sum
  ({ rows := rows.map (fun r => r.map OutVal.v)
     flags := flagsOf nf.isSome ovf.isSome unf.isSome false poison failed.isSome
     nf := nf, ovf := ovf, unf := unf, chk := failed, under := under, deep := deep }, tests)

end Sys2Proof.Machine
end

