-- ==== Sys2Proof/Machine/Press.lean ====
section
/-! DEFINITION. The Press (R294–R320): sampling, binding, capture, absorption, EXPORT and MERGE. -/

namespace Sys2Proof.Machine

/-! ### Accessors -/

/-- The Press of a cluster. -/
def Chip.pressOf (c : Chip) (cl : Nat) : PressS := sget {} c.press cl
/-- The Press of a cluster replaced. -/
def Chip.setPress (c : Chip) (cl : Nat) (x : PressS) : Chip := { c with press := sset {} c.press cl x }
/-- A staging entry. -/
def Chip.pent (c : Chip) (cl e : Nat) : Option PEntry := ((c.pressOf cl).ents.find? (fun x => x.1 == e)).map Prod.snd
/-- A staging entry replaced, in ascending entry index. -/
def Chip.setPent (c : Chip) (cl e : Nat) (x : PEntry) : Chip :=
  let p := c.pressOf cl
  c.setPress cl { p with ents := sortBy Prod.fst ((e, x) :: p.ents.filter (fun y => y.1 != e)) }
/-- A staging entry freed. -/
def Chip.freePent (c : Chip) (cl e : Nat) : Chip :=
  let p := c.pressOf cl
  c.setPress cl { p with ents := p.ents.filter (fun y => y.1 != e) }
/-- Staging slots in use (R303). -/
def PressS.slots (p : PressS) : Nat := (p.ents.map (fun e => e.2.tcount)).sum

/-- A PRESS command ends with a status: its record, and the marks of R324. -/
def Chip.pressEnd (c : Chip) (cl id st count entry extra : Nat) (m : Part) : Chip :=
  let c := if (1 ≤ st ∧ st ≤ 11) ∨ (25 ≤ st ∧ st ≤ 28) then c.set1 .PRS_STICKY_BAD_DESC cl else c
  c.endCmd cl id { m with status := st, detail := count % 2 ^ 32 + entry * 2 ^ 32 + extra }

/-! ### Blocks (R301) -/

/-- Sub-tile (p, q) of index t of a block with P sub-tile rows. -/
def subTile (P : Nat) : Nat → Nat → Nat × Nat
  | 0, t => (P, t)
  | n + 1, t =>
    let p := P - (n + 1)
    if t < P - p then (p, p + t) else subTile P n (t - (P - p))

/-- The elements (a, b), a ≤ b < DIM, of a sub-tile, row-major, with their places u·64 + v in it. -/
def subPairs (dim t : Nat) : List (Nat × Nat × Nat) :=
  let (p, q) := subTile (subRows dim) (subRows dim) t
  (List.range (min 64 (dim - 64 * p))).flatMap (fun u =>
    ((List.range (min 64 (dim - 64 * q))).filter (fun v => decide (64 * p + u ≤ 64 * q + v))).map (fun v =>
      (64 * p + u, 64 * q + v, u * 64 + v)))

/-- Elements (a, b) of an entry's range (R320). -/
def rangePairs (dim tfirst tcount : Nat) : Nat := ((rangeFrom tfirst tcount).map (fun t => (subPairs dim t).length)).sum

/-! ### Sampling (R298, R299) -/

/-- Whether the rate and VALID let local sample l of an entry be taken. -/
def Chip.drawsSample (c : Chip) (p cl : Nat) (e : PEntry) (l : Nat) : Bool :=
  let rate := c.g .PRS_CFG_RATE cl
  let off := draw (c.rd .HUB_SEED p).toNat e.block 0 (c.step p) 0xFF % rate
  (e.sbase + l) % rate == off && decide (l < e.valid)

/-- Whether the mask of an entry, read by a unit, lets local sample l be taken. -/
def Chip.maskTakes (c : Chip) (u : Nat) (e : PEntry) (l : Nat) : Bool :=
  match e.mask with | none => true | some a => bit (c.num (opAt u (a + l / 8)) 1) (l % 8)

/-- The tapped value of position k of a line of the bound operand (R297). -/
def Chip.tapped (c : Chip) (t : TileJob) (side : Bool) (line k : Nat) : FVal :=
  let v := if side then c.bVal t line k else c.aVal t line k
  match t.mode with
  | 0 => v.getD .zero
  | 3 => (splitBf (v.getD .zero)).1
  | _ => roundF bf16 .rne (if side then c.bCol t line k else c.aCol t line k)

/-- Whether a word read for a tapped value is poisoned. -/
def Chip.tappedBad (c : Chip) (t : TileJob) (side : Bool) (line k : Nat) : Bool :=
  let w := t.mm
  let f := if side then mmFb w else mmFa w
  let comp := mmSparse w == (if side then 2 else 1)
  let at' (x : Nat) : Nat × Nat := elemByte f (if side then t.bAt line x else t.aAt line x)
  let elem : Bool :=
    if comp then [2 * (k / 4), 2 * (k / 4) + 1].any (fun x => c.opBad t.u (at' x).1 (at' x).2)
    else c.opBad t.u (at' k).1 (at' k).2
  let g := (if side then 32 * t.j else 64 * t.i) + line
  elem || (comp && c.opBad t.u (t.metaAt g (k / 4)) 1)
    || (modeMx t.mode && c.opBad t.u (if side then t.sbAt line (k / 32) else t.saAt line (k / 32)) 1)

/-- What a slice of a tile delivers of an entry's samples, read by its own unit: local index, the values of the slice's positions
of K that lie in the block, poison, and whether the mask takes the sample (R295, R296). -/
def Chip.captured (c : Chip) (p : Nat) (e : PEntry) (t : TileJob) : List PSample :=
  let n := if e.side then t.nt else t.mt
  let l0 := if e.side then 32 * t.j else 64 * t.i
  let k0 := e.doff - mmKoff t.mm
  let ks := (rangeFrom t.k0 t.kt).filter (fun k => decide (k0 ≤ k) && decide (k < k0 + e.dim))
  ((List.range n).filter (fun r => c.drawsSample p t.cl e (l0 + r))).map (fun r =>
    { idx := l0 + r, vals := ks.map (c.tapped t e.side r), bad := ks.any (c.tappedBad t e.side r), taken := c.maskTakes t.u e (l0 + r) })

/-- The taken samples of a tile assembled from its slices in K order; slice 0's unit reads the mask (R296; DESIGN CHOICE, log
entry 51). -/
def assemble (ps : List (Nat × List PSample)) : List (Nat × List FVal × Bool) :=
  let ps := sortBy Prod.fst ps
  (((ps.headD (0, [])).2).filter PSample.taken).map (fun s =>
    let own := ps.filterMap (fun q => q.2.find? (fun x => x.idx == s.idx))
    (s.idx, own.flatMap PSample.vals, own.any PSample.bad))

/-! ### Binding (R306) -/

/-- Bytes of the capture store that one tile of an ARM can fill. -/
def armBytes (rate : Nat) (e : PEntry) : Nat := e.dim * cdiv (if e.side then 32 else 64) rate * 2

/-- An ARM that cannot bind: it ends PRESS_UNBOUND and frees its entry. -/
def Chip.pressUnbound (c : Chip) (cl e : Nat) : Chip :=
  match c.pent cl e with
  | some x =>
    match x.arm with
    | some id => ((c.freePent cl e).set1 .PRS_STICKY_UNBOUND cl).pressEnd cl id 24 0 e 0 { order := 0 }
    | none => c
  | none => c

/-- The ARMs of a cluster that still wait for a MATMUL, in issue order. -/
def Chip.freeArms (c : Chip) (cl : Nat) : List (Nat × PEntry) :=
  sortBy (fun x => x.2.arm.getD 0) ((c.pressOf cl).ents.filter (fun x => x.2.arm.isSome && x.2.bound.isNone))

/-- Flags and first position of an entry, for its ARM's record (R307). -/
def PEntry.part (e : PEntry) : Part :=
  { order := 0, flags := flagsOf e.nf.isSome e.ovf.isSome false false e.poison false, nf := e.nf, ovf := e.ovf }

/-- An ARM whose tapped tiles are all absorbed ends: meter, flags, record (R307, R320). -/
def Chip.armDone (c : Chip) (cl e : Nat) : Chip :=
  match c.pent cl e with
  | none => c
  | some x =>
    match x.arm, x.bound with
    | some id, some (_, _, n) =>
      if x.next < n then c
      else
        let c := c.setPent cl e { x with arm := none }
        let c := c.meter (c.partOfCl cl) 9 (x.count * rangePairs x.dim x.tfirst x.tcount)
        c.pressEnd cl id 0 x.count e 0 x.part
    | _, _ => c

/-- The ARMs with a MATMUL's PID bound to it in issue order, or ended PRESS_UNBOUND (R306). -/
def Chip.bindArms (c : Chip) (cl id : Nat) (w : List Word) : Chip :=
  let rate := c.g .PRS_CFG_RATE cl
  let arms := (c.freeArms cl).filter (fun x => x.2.pid == mmPid w)
  (arms.foldl (fun (acc : Chip × Nat × Nat) x =>
    let (c, sum, cnt) := acc
    let e := x.2
    let b := armBytes rate e
    if mmKoff w + mmK w < e.doff + e.dim ∨ e.doff < mmKoff w ∨ mmK w = 0 ∨ 262144 < sum + b ∨ 8 ≤ cnt then
      (c.pressUnbound cl x.1, sum, cnt)
    else
      let n := if mmM w = 0 ∨ mmN w = 0 then 0 else if e.side then cdiv (mmN w) 32 else cdiv (mmM w) 64
      ((c.setPent cl x.1 { e with bound := some (id, w, n) }).armDone cl x.1, sum + b, cnt + 1)) (c, 0, 0)).1

/-! ### Capture (R296, R309) -/

/-- Index of a tile among the tapped tiles of an entry, if its command is the one bound (R294, R306). -/
def tappedIdx (e : PEntry) (t : TileJob) : Option Nat :=
  match e.bound with
  | some (id, _, _) => if id != t.id then none else if e.side then (if t.i = 0 then some t.j else none) else if t.j = 0 then some t.i else none
  | none => none

/-- Bytes of captured samples: 2 B a value. -/
def pieceBytes (ss : List PSample) : Nat := 2 * (ss.map (fun s => s.vals.length)).sum

/-- Bytes of the capture store that an entry's tiles from index i0 on use. -/
def PEntry.usedFrom (e : PEntry) (i0 : Nat) : Nat :=
  ((e.dep.filter (fun d => decide (i0 ≤ d.1))).map (fun d => 2 * (d.2.map (fun s => s.2.1.length)).sum)).sum
    + ((e.slices.filter (fun d => decide (i0 ≤ d.1))).map (fun d => pieceBytes d.2.2)).sum

/-- Bytes of the capture store in use. -/
def PressS.used (p : PressS) : Nat := (p.ents.map (fun x => x.2.usedFrom 0)).sum

/-- Bytes of the capture store that the tiles of an entry may not take: those used, with the room kept for the lowest tile not
yet absorbed (R309). -/
def PEntry.held (e : PEntry) (rate : Nat) : Nat :=
  if e.arm.isSome ∧ e.bound.isSome ∧ (e.dep.find? (fun d => d.1 == e.next)).isNone then max (e.usedFrom 0) (e.usedFrom (e.next + 1) + armBytes rate e)
  else e.usedFrom 0

/-- Whether a tapped tile can deposit its samples now: in every entry it is the lowest tile not yet absorbed, or what it deposits
in the others fits beside the room that stays kept (R309). -/
def Chip.hasRoom (c : Chip) (p : Nat) (t : TileJob) : Bool :=
  let pr := c.pressOf t.cl
  let later := pr.ents.filter (fun x => match tappedIdx x.2 t with | some i => decide (x.2.next < i) | none => false)
  later.isEmpty || decide ((pr.ents.map (fun x => x.2.held (c.g .PRS_CFG_RATE t.cl))).sum
    + (later.map (fun x => pieceBytes (c.captured p x.2 t))).sum ≤ 524288)

/-- The samples of a slice that completes captured in every entry that taps its tile, and deposited once the tile's last slice
has delivered. -/
def Chip.pressCapture (c : Chip) (p : Nat) (t : TileJob) : Chip :=
  (c.pressOf t.cl).ents.foldl (fun c x =>
    let e := x.2
    match tappedIdx e t with
    | none => c
    | some i =>
      let mine := e.slices.filter (fun d => d.1 == i) ++ [(i, t.ks, c.captured p e t)]
      let rest := e.slices.filter (fun d => d.1 != i)
      if e.arm.isNone ∨ t.redo ≠ 0 ∨ i < e.next then c
      else if mine.length < mmKsplit t.mm then c.setPent t.cl x.1 { e with slices := rest ++ mine }
      else c.setPent t.cl x.1 { e with slices := rest, dep := e.dep ++ [(i, assemble (mine.map Prod.snd))] }) c

/-- PRESS_DEPOSIT_RESUME (R309): a unit that held a tapped tile resumes once room has appeared; the engine cycles of the
hold are timing the model leaves free. -/
def execPressDepositResume (u : Nat) (s : State) : Host.Outcome State Fault Refusal :=
  nextChip s (fun c =>
    let x := c.unit u
    match x.run with
    | some r =>
      if x.hold ∧ c.hasRoom (c.partOfCl r.job.cl) r.job then
        let (n, c) := c.free 32
        (c.setUnit u { x with hold := false }).inc .PRS_CNT_COUNT (clOfU u) n 1
      else c
    | none => c)

/-! ### Absorption (R308–R311) -/

/-- One sample's outer product added into an entry's staged sub-tiles. -/
def PEntry.absorb1 (e : PEntry) (x : List FVal) : PEntry :=
  (List.range e.tcount).foldl (fun e k =>
    (subPairs e.dim (e.tfirst + k)).foldl (fun e (a, b, at') =>
      let key := k * 4096 + at'
      let old := decodeF fp32 (sget 0 e.stage key)
      let r := addO fp32 (old, false) (mulO fp32 (x.getD a .zero) (x.getD b .zero))
      { e with
        stage := sset 0 e.stage key (encodeF fp32 r.1)
        nf := if r.1.isFin then e.nf else minPos e.nf (some (a, b))
        ovf := if r.2 then minPos e.ovf (some (a, b)) else e.ovf }) e) e

/-- The next tapped tile of an entry absorbed, if its samples are in the capture store. -/
def Chip.absorb (c : Chip) (cl i : Nat) (e : PEntry) : Chip :=
  match e.arm, e.dep.find? (fun d => d.1 == e.next) with
  | some _, some (_, ss) =>
    let e' := ss.foldl (fun e s => { e.absorb1 s.2.1 with count := e.count + 1 }) e
    let bad := ss.any (fun s => s.2.2)
    let e' := { e' with next := e.next + 1, dep := e.dep.filter (fun d => d.1 != e.next), poison := e.poison || bad }
    let c := (c.setPent cl i e').inc .PRS_CNT_COUNT cl ss.length 0
    let c := if e'.nf.isSome then c.set1 .PRS_STICKY_NF cl else c
    let c := if e'.ovf.isSome then c.set1 .PRS_STICKY_OVF cl else c
    let c := if bad then (c.set1 .PRS_STICKY_POISON cl).consumePoison (c.partOfCl cl) 5 e.tag (c.regionPlace (regionOfCl cl)) cl 2
      else c
    c.armDone cl i
  | _, _ => c

/-! ### Records and slots in memory (R302, R312, R314) -/

/-- Whether engines may write n bytes at a tier address: mapped, in no valid routine (R176, R237). -/
def Chip.tierWritable (c : Chip) (p a n : Nat) : Bool :=
  (c.tierKeys p a (cdiv n 64 * 64)).isSome
    && !(bits a 63 60 == 1 && c.inRoutine (bits a 35 32) (bits a 24 0) n)

/-- Bytes written to a tier address by an engine: blocked and reported where the fence holds (R187, R361). -/
def Chip.tierWriteBy (c : Chip) (p writer a : Nat) (bs : List Byte) (poison : Bool) : Chip :=
  match c.fenceHit p a bs.length with
  | some x => c.blockedWrite p writer x
  | none => c.tierWrite p a bs poison

/-- The raw FP32 code of staged element v of sub-tile k. -/
def PEntry.staged (e : PEntry) (k v : Nat) : Nat := sget 0 e.stage (k * 4096 + v)

/-- A sub-tile of 64 × 64 raw FP32 codes as bytes. -/
def tileBytes (f : Nat → Nat) : List Byte := (List.range 4096).flatMap (fun v => leBytes 4 (f v))

/-- The header of a partial record (R312). -/
def exportHeader (e : PEntry) : List Word :=
  [Word.ofNat (e.block + e.dim * 2 ^ 24), Word.ofNat (e.count % 2 ^ 32 + e.contrib * 2 ^ 32),
   Word.ofNat (e.tfirst + e.tcount * 2 ^ 10 + b2n e.nf.isSome * 2 ^ 17 + b2n e.ovf.isSome * 2 ^ 18 + b2n e.poison * 2 ^ 19)]

/-- A 4 KiB header page with the given leading words. -/
def headerPage (ws : List Word) : List Byte := bytesOf ws ++ List.replicate (4096 - 8 * ws.length) 0

/-- EXPORT of an entry to a tier address: the partial record, then the record's end (R312). -/
def Chip.doExport (c : Chip) (cl id : Nat) (w : List Word) : Chip :=
  let p := c.partOfCl cl
  let i := prEntry w
  let a := (wordAt w 2).toNat
  match c.pent cl i with
  | none => c.pressEnd cl id 28 0 i 0 { order := 0 }
  | some e =>
    let pl := c.regionPlace (regionOfCl cl)
    let c := c.tierWriteBy p 5 a (headerPage (exportHeader e)) false
    let c := (List.range e.tcount).foldl (fun c k =>
      c.tierWriteBy p 5 (a + 4096 + 16384 * k) (tileBytes (e.staged k)) (e.badSlots.contains k)) c
    let c := if e.badSlots.isEmpty then c
      else (c.set1 .PRS_STICKY_POISON cl).consumePoison p 5 (hdrTag (wordAt w 0)) pl cl 2
    let c := c.setPent cl i { e with used := true }
    c.pressEnd cl id 0 e.count i 0 { order := 0, flags := if e.badSlots.isEmpty then 0 else 16 }

/-- The alternate slots of a partition written since the last seal (R524 `OLD_INTACT`). -/
def Chip.altWritten (c : Chip) (p : Nat) : Chip := c.put .SEAL_STAT_OLD_INTACT p 0

/-- The source of a MERGE: count, raw sums of sub-tile k, element v, NF mark, poison. -/
structure MergeSrc where
  n : Nat
  sums : List (List Nat)
  nf : Bool
  poison : Bool
  deriving DecidableEq, Repr

/-- Raw FP32 codes of a sub-tile in memory. -/
def Chip.tileWords (c : Chip) (p a : Nat) : List Nat × Bool :=
  match c.tierRead p a 16384 with
  | some (bs, b) => ((chunks 4 4097 bs).map leNat, b)
  | none => (List.replicate 4096 0, false)

/-- Words of a tier address, with poison. -/
def Chip.tierWords (c : Chip) (p a n : Nat) : List Word × Bool :=
  match c.tierRead p a (cdiv (8 * n) 64 * 64) with
  | some (bs, b) => (wordsOf n bs, b)
  | none => (List.replicate n 0, false)

/-- The source of a MERGE read (R313). -/
def Chip.mergeSrc (c : Chip) (cl : Nat) (w : List Word) : MergeSrc :=
  let p := c.partOfCl cl
  let cnt := wbits (wordAt w 6) 16 10
  match wbits (wordAt w 1) 4 3 with
  | 0 =>
    match c.pent cl (prEntry w) with
    | some e => ⟨e.count, (List.range cnt).map (fun k => (List.range 4096).map (e.staged k)), e.nf.isSome, e.poison⟩
    | none => ⟨0, [], false, false⟩
  | 1 =>
    let a := (wordAt w 2).toNat
    let (h, b) := c.tierWords p a 8
    let ts := (List.range cnt).map (fun k => c.tileWords p (a + 4096 + 16384 * k))
    ⟨wbits (wordAt h 1) 31 0, ts.map Prod.fst, wbit (wordAt h 2) 17, b || ts.any Prod.snd⟩
  | _ => ⟨0, [], false, false⟩

/-- Whether the source of a MERGE matches its command (R313). -/
def Chip.mergeMatches (c : Chip) (cl : Nat) (w : List Word) : Bool :=
  let w6 := wordAt w 6
  let dim := wbits w6 28 17
  match wbits (wordAt w 1) 4 3 with
  | 0 =>
    match c.pent cl (prEntry w) with
    | some e => e.block == prBlock w && e.dim == dim && e.tfirst == wbits w6 9 0 && e.tcount == wbits w6 16 10
    | none => false
  | 1 =>
    let (h, _) := c.tierWords (c.partOfCl cl) (wordAt w 2).toNat 8
    wbits (wordAt h 0) 23 0 == prBlock w && wbits (wordAt h 0) 35 24 == dim
      && wbits (wordAt h 2) 9 0 == wbits w6 9 0 && wbits (wordAt h 2) 16 10 == wbits w6 16 10
  | _ => true

/-- One merged value (R314). -/
def mergeVal (m n : Nat) (beta omb : FVal) (old sum : Nat) : FVal :=
  let k := divF fp32 (decodeF fp32 sum) (roundF fp32 .rne (ofNatV n))
  if m = 0 then k else fmaF fp32 beta (decodeF fp32 old) (mulF fp32 omb k)

/-- A merged sub-tile: the new values of its upper triangle with their mirrors, +0 elsewhere; none when a new value is
non-finite. -/
def mergeTile (dim t m n : Nat) (beta omb : FVal) (old sum : List Nat) : Option (List Nat) :=
  let ps := subPairs dim t
  let vs := ps.map (fun x => (x.2.2, mergeVal m n beta omb (old.getD x.2.2 0) (sum.getD x.2.2 0)))
  if vs.any (fun x => !x.2.isFin) then none
  else
    let (p, q) := subTile (subRows dim) (subRows dim) t
    let put (m : List (Nat × Nat)) (x : Nat × FVal) : List (Nat × Nat) :=
      let code := encodeF fp32 x.2
      let m := sset 0 m x.1 code
      if p = q then sset 0 m (x.1 % 64 * 64 + x.1 / 64) code else m
    let tbl := vs.foldl put []
    some ((List.range 4096).map (sget 0 tbl))

/-- MERGE of its source into the alternate slot (R314–R316). -/
def Chip.doMerge (c : Chip) (cl id : Nat) (w : List Word) : Chip :=
  let p := c.partOfCl cl
  let pl := c.regionPlace (regionOfCl cl)
  let w6 := wordAt w 6
  let tf := wbits w6 9 0
  let cnt := wbits w6 16 10
  let dim := wbits w6 28 17
  let src := wbits (wordAt w 1) 4 3
  let par := c.g .HUB_STEP_SEALED_STEP p % 2
  let vis := (wordAt w (3 + par)).toNat
  let alt := (wordAt w (4 - par)).toNat
  let beta := decodeF fp32 (wbits (wordAt w 5) 31 0)
  let omb := decodeF fp32 (wbits (wordAt w 5) 63 32)
  let (h, hb) := c.tierWords p vis 8
  let m := wbits (wordAt h 1) 31 0
  let s := c.mergeSrc cl w
  let olds := (List.range cnt).map (fun k => c.tileWords p (vis + 4096 + 16384 * (tf + k)))
  let poison := s.poison || hb || olds.any Prod.snd
  let carry := src == 2 || s.n == 0
  let news := if carry then [] else
    (List.range cnt).map (fun k => mergeTile dim (tf + k) m s.n beta omb (olds.getD k ([], false)).1 (s.sums.getD k []))
  let bad := !carry && (s.nf || news.any Option.isNone)
  let kept := carry || bad
  let tiles := if kept then olds.map Prod.fst else news.map (fun x => x.getD [])
  let c := (c.meterReads p vis 64).meterReads p (vis + 4096 + 16384 * tf) (16384 * cnt)
  let c := if src = 1 then (c.meterReads p (wordAt w 2).toNat 64).meterReads p ((wordAt w 2).toNat + 4096) (16384 * cnt) else c
  let c := (List.range cnt).foldl (fun c k =>
    c.tierWriteBy p 5 (alt + 4096 + 16384 * (tf + k)) (tileBytes (fun v => (tiles.getD k []).getD v 0)) poison) c
  let c := if tf ≠ 0 then c else
    c.tierWriteBy p 5 alt (headerPage [
      Word.ofNat (prBlock w + dim * 2 ^ 24), Word.ofNat (if kept then m else min (2 ^ 32 - 1) (m + 1)),
      Word.ofNat (c.step p % 2 ^ 48), Word.ofNat (if kept then wbits (wordAt h 3) 31 0 else s.n % 2 ^ 32)]) poison
  let c := c.altWritten p
  let c := if poison then (c.set1 .PRS_STICKY_POISON cl).consumePoison p 6 (hdrTag (wordAt w 0)) pl cl 2 else c
  let c := if bad then (c.inc .PRS_CNT_COUNT cl 1 2).set1 .PRS_STICKY_NFSKIP cl else c
  let c := if src = 0 then match c.pent cl (prEntry w) with | some e => c.setPent cl (prEntry w) { e with used := true } | none => c else c
  let c := c.inc .PRS_CNT_COUNT cl 1 4
  c.pressEnd cl id (if bad then 29 else 0) s.n (if src = 0 then prEntry w else 0)
    (b2n kept * 2 ^ 35 + b2n (!kept && m == 0) * 2 ^ 36) { order := 0, flags := if poison then 16 else 0 }

/-- The statistics slot that a MERGE writes: the alternate one (R314). -/
def Chip.mergeSlot (c : Chip) (cl : Nat) (w : List Word) : Nat :=
  (wordAt w (4 - c.g .HUB_STEP_SEALED_STEP (c.partOfCl cl) % 2)).toNat

/-- The region whose Solver loads the statistics slot at an address of a partition (R331, R344). -/
def Chip.loading (c : Chip) (p a : Nat) : Option Nat :=
  (List.range 16).find? (fun r => (sget {} c.solvers r).slots.any (fun v => v.load == some (p, a)))

/-- EXPORT or MERGE carried out; a MERGE into a slot that a Solver loads waits and is counted (R344). -/
def Chip.doPress (c : Chip) (cl id : Nat) (w : List Word) : Chip :=
  if prAct w = 1 then c.doExport cl id w
  else
    match c.loading (c.partOfCl cl) (c.mergeSlot cl w) with
    | some r =>
      ((c.inc .SOLV_CNT_COUNT r 1 5).set1 .SOLV_STICKY_MWAIT r).setPress cl
        { c.pressOf cl with mwait := (c.pressOf cl).mwait ++ [(id, w)] }
    | none => c.doMerge cl id w

/-- The MERGE commands of a cluster whose slot no Solver loads any longer, carried out in order (R344). -/
def Chip.mergeWakeOf (c : Chip) (cl : Nat) : Chip :=
  (c.pressOf cl).mwait.foldl (fun (c : Chip) x =>
    if (c.loading (c.partOfCl cl) (c.mergeSlot cl x.2)).isSome then c
    else (c.setPress cl { c.pressOf cl with mwait := (c.pressOf cl).mwait.filter (fun y => y.1 != x.1) }).doMerge cl x.1 x.2) c

/-- The MERGE commands of every cluster whose slot no Solver loads any longer (R344). -/
def Chip.mergeWake (c : Chip) : Chip := c.press.foldl (fun (c : Chip) x => c.mergeWakeOf x.1) c

/-- Whether a command acts on an entry whose ARM is outstanding (R319). -/
def Chip.armOpen (c : Chip) (cl : Nat) (w : List Word) : Bool :=
  (prAct w == 1 || (prAct w == 2 && wbits (wordAt w 1) 4 3 == 0))
    && (match c.pent cl (prEntry w) with | some e => e.arm.isSome | none => false)

/-- Commands that waited for an ARM that has ended, carried out in order. -/
def Chip.pressWake (c : Chip) (cl : Nat) : Chip :=
  let l := (c.pressOf cl).wait
  l.foldl (fun c x =>
    if c.armOpen cl x.2 then c
    else (c.setPress cl { c.pressOf cl with wait := (c.pressOf cl).wait.filter (fun y => y.1 != x.1) }).doPress cl x.1 x.2) c

/-- The ARMs with a MATMUL's PID bound to it, and the commands that waited for one that ends so carried out (R306, R319). -/
def Chip.pressBind (c : Chip) (cl id : Nat) (w : List Word) : Chip := (c.bindArms cl id w).pressWake cl

/-- PHASE or SEAL ends every ARM that found no MATMUL (R306), and the commands that waited for one are carried out. -/
def Chip.pressUnbindAll (c : Chip) (cl : Nat) : Chip :=
  ((c.freeArms cl).foldl (fun c x => c.pressUnbound cl x.1) c).pressWake cl

/-- A sequencer's next command, when it is a sound PHASE or SEAL that `want` names: it ends the ARMs that found no MATMUL as it is
reached, before it waits for earlier commands to end (R220, R306). -/
def Chip.takeMarker (c : Chip) (cl : Nat) (want : List Word → Bool) (all : Bool) (go : Chip → List Word → Chip) : Chip :=
  let sound : Bool := match c.head cl with
    | some ws =>
      let w := ws.map Prod.fst
      want w && !ws.any Prod.snd && decodeStatus w w.length (regionOfCl cl) (c.seq cl).fusedMN == stOK
    | none => false
  (if c.seqRuns cl ∧ ¬ (c.seq cl).skipSeal ∧ sound then c.pressUnbindAll cl else c).take cl want all go

/-! ### Meanings -/

/-- A PRESS command of one ACT. -/
def isPress (act : Nat) (w : List Word) : Bool := isOp 0x23 w && prAct w == act

/-- A PRESS command issued: it runs now, or waits for its entry's ARM. -/
def Chip.pressStart (c : Chip) (cl : Nat) (w : List Word) : Chip :=
  let (id, c) := c.issue cl (wordAt w 0) 1
  if c.armOpen cl w then c.setPress cl { c.pressOf cl with wait := (c.pressOf cl).wait ++ [(id, w)] }
  else c.doPress cl id w

/-- PRESS_ARM (R304–R306): an entry allocated and zeroed, waiting for its MATMUL. -/
def execPressArm (cl : Nat) (s : State) : Host.Outcome State Fault Refusal :=
  nextChip s (fun c => c.take cl (fun w => isOp 0x23 w && prAct w != 1 && prAct w != 2) false (fun c w =>
    let w4 := wordAt w 4
    let n := cdiv (wbits w4 23 0) 8
    let st := firstBad [
      chk (!(c.seq cl).gated) stBadField,
      chk (c.on .PRS_CFG_EN cl) 27,
      chk (c.pent cl (prEntry w)).isNone 25,
      chk (decide (wbits (wordAt w 3) 16 10 + (c.pressOf cl).slots ≤ 96)) 26,
      chk (!wbit w4 24 || opRange (wbits w4 63 32) n) stBadAddr]
    if st ≠ 0 then c.refuse cl w st (prEntry w * 2 ^ 32)
    else
      let (id, c) := c.issue cl (wordAt w 0) 1
      c.setPent cl (prEntry w)
        { arm := some id, tag := hdrTag (wordAt w 0), side := wbit (wordAt w 1) 3, block := prBlock w
          contrib := wbits (wordAt w 1) 55 40, pid := wbits (wordAt w 2) 15 0, doff := wbits (wordAt w 2) 39 16
          dim := wbits (wordAt w 2) 51 40, tfirst := wbits (wordAt w 3) 9 0, tcount := wbits (wordAt w 3) 16 10
          sbase := wbits (wordAt w 3) 63 24, valid := wbits w4 23 0
          mask := if wbit w4 24 then some (wbits w4 63 32) else none }))

/-- PRESS_EXPORT (R312). -/
def execPressExport (cl : Nat) (s : State) : Host.Outcome State Fault Refusal :=
  nextChip s (fun c => c.take cl (isPress 1) false (fun c w =>
    let a := (wordAt w 2).toNat
    match c.pent cl (prEntry w) with
    | none => c.refuse cl w 28 (prEntry w * 2 ^ 32)
    | some e =>
      if c.tierWritable (c.partOfCl cl) a (4096 + 16384 * e.tcount) then c.pressStart cl w
      else c.refuse cl w stBadAddr (prEntry w * 2 ^ 32)))

/-- PRESS_MERGE (R313–R316, R319). -/
def execPressMerge (cl : Nat) (s : State) : Host.Outcome State Fault Refusal :=
  nextChip s (fun c => c.take cl (isPress 2) false (fun c w =>
    let p := c.partOfCl cl
    let w6 := wordAt w 6
    let n := 16384 * wbits w6 16 10
    let off := 4096 + 16384 * wbits w6 9 0
    let src := wbits (wordAt w 1) 4 3
    let rec' := src != 1 || (c.tierKeys p (wordAt w 2).toNat (4096 + n)).isSome
    let slotOk (k : Nat) : Bool :=
      (c.tierKeys p (wordAt w k).toNat 4096).isSome && (c.tierKeys p ((wordAt w k).toNat + off) n).isSome
    let st := firstBad [
      chk (c.seq cl).gated stBadField,
      chk (rec' && slotOk 3 && slotOk 4) stBadAddr,
      chk (c.mergeMatches cl w) 28]
    if st ≠ 0 then c.refuse cl w st (if src = 0 then prEntry w * 2 ^ 32 else 0)
    else (c.noteStat p (wordAt w 3).toNat (wordAt w 4).toNat (wbits w6 28 17)).pressStart cl w))

/-- PRESS_ABSORB (R307–R311, R320): the next tapped tile of every bound entry of the cluster is absorbed if its samples
are present; an ARM whose last tile is absorbed ends, and commands that waited for it run. -/
def execPressAbsorb (cl : Nat) (s : State) : Host.Outcome State Fault Refusal :=
  nextChip s (fun c => ((c.pressOf cl).ents.foldl (fun c x => c.absorb cl x.1 x.2) c).pressWake cl)

/-! ### Ends of steps (R318) -/

/-- At a seal the entries of a cluster are freed; one neither exported nor merged is counted as left over. -/
def Chip.pressSeal (c : Chip) (cl : Nat) : Chip :=
  let n := ((c.pressOf cl).ents.filter (fun x => !x.2.used)).length
  let c := c.setPress cl { c.pressOf cl with ents := [] }
  if n = 0 then c else (c.inc .PRS_CNT_COUNT cl n 3).set1 .PRS_STICKY_LEFTOVER cl

/-- At an abandon or a fence the entries, the capture store and the waiting commands of a cluster are discarded; an ARM that so
ends has the products it formed counted (R318, R320). -/
def Chip.pressDiscard (c : Chip) (cl : Nat) : Chip :=
  ((c.pressOf cl).ents.foldl (fun c x =>
    if x.2.arm.isSome ∧ x.2.count ≠ 0 then
      c.meter (c.partOfCl cl) 9 (x.2.count * rangePairs x.2.dim x.2.tfirst x.2.tcount) else c) c).setPress cl {}

end Sys2Proof.Machine
end

