-- ==== Sys2Proof/Machine/Delivery.lean ====
section
/-! DEFINITION. Delivery of packets at their destination (R418–R424, R430–R433): the checks every packet passes, queue
pushes, remote writes and reads with their responses, and management packets. -/

namespace Sys2Proof.Machine

/-! ### The checks (R424, R431, R432, R418, R433) -/

def mwBytes (k : Pkt) : Nat := wbits (hw k 3) 12 0
def mwAtag (k : Pkt) : Nat := wbits (hw k 3) 31 16
def mwAck (k : Pkt) : Bool := wbit (hw k 3) 32
def mwAgent (k : Pkt) : Nat := wbits (hw k 3) 34 33
def wdBlocks (k : Pkt) : Nat := wbits (hw k 3) 6 0

/-- Whether the fields of a packet agree with its type (R420–R423, R481). -/
def typeFieldsOk (k : Pkt) : Bool :=
  let n := kNdata k
  match kType k with
  | 0x10 => decide (wbits (hw k 2) 23 14 ≤ 512) && n == cdiv (wbits (hw k 2) 23 14) 8
  | 0x20 => decide (1 ≤ mwBytes k) && decide (mwBytes k ≤ 4096) && n == cdiv (mwBytes k) 64 && mwAgent k != 3
  | 0x21 => decide (1 ≤ wdBlocks k) && decide (wdBlocks k ≤ 124) && n == cdiv (33 * wdBlocks k) 64 && mwAgent k != 3
  | 0x22 => decide (1 ≤ mwBytes k) && decide (mwBytes k ≤ 4096) && n == 0 && mwAgent k != 3
  | 0x28 => n == 0 && decide (wbits (hw k 2) 18 16 ≤ 5) && wbits (hw k 2) 20 19 != 3
  | 0x29 => decide (wbits (hw k 2) 18 16 ≤ 5) && wbits (hw k 2) 20 19 != 3
      && (if wbits (hw k 2) 18 16 ≤ 1 then decide (1 ≤ n) && decide (n ≤ 64) else n == 0)
  | 0x30 =>
    let ck := wbits (hw k 2) 7 0
    decide (1 ≤ ck) && decide (ck ≤ 7) && (if ck = 1 ∨ ck = 4 then decide (1 ≤ n) && decide (n ≤ 64) else n == 0)
  | 0x40 => n == 0 && decide (1 ≤ wbits (hw k 2) 7 0) && decide (wbits (hw k 2) 7 0 ≤ 7) && wbits (hw k 3) 1 0 != 3
  | 0x41 => decide (n ≤ 64)
  | _ => false

/-- Whether an arriving packet is malformed (R424). -/
def Chip.malformed (c : Chip) (k : Pkt) : Bool :=
  vcOfType (kType k) != some (kVc k) || !typeFieldsOk k || !c.inTopo (kDst k)
    || ((kType k == 0x41) != (kJtag k == 0)) || k.poison.length != kNdata k

/-- The active partition that holds a job tag. -/
def Chip.jobOf (c : Chip) (tag : Nat) : Option Nat :=
  (List.range 16).find? (fun p => c.runs p && c.g .FAB_JOB_JTAG p == tag && tag != 0)

/-- A packet refused at the fence (R431, R538): counted and recorded for the partition that holds its job tag, or in the log
alone. `form` and `target` are those of R654. -/
def Chip.permDrop (c : Chip) (k : Pkt) (form target : Nat) : Chip :=
  let c := (c.inc .FAB_CNT_COUNT 0 1 0).set1 .FAB_STICKY_PERM_DROP 0
  match (List.range 16).find? (fun p => c.g .FAB_JOB_JTAG p == kJtag k && kJtag k != 0) with
  | some p => c.xpart p 4 (kSrc k) form target
  | none => c.postFault { cls := 0x0F, action := 3, place := .nobody [], detail := [4 + kSrc k * 2 ^ 16 + form * 2 ^ 32, target] }

/-- Target of a packet as a record names it: a queue, a tier address, or this module. -/
def kTarget (k : Pkt) : Nat × Nat :=
  match kType k with
  | 0x10 => (0, wbits (hw k 2) 13 0)
  | 0x20 => (1, (hw k 2).toNat)
  | 0x21 => (1, (hw k 2).toNat)
  | 0x22 => (1, (hw k 2).toNat)
  | _ => (2, kDst k)

/-- A malformed packet discarded (R424). -/
def Chip.malformedDrop (c : Chip) : Chip := (c.inc .FAB_CNT_COUNT 0 1 3).set1 .FAB_STICKY_MALFORMED 0

/-- The checks that a job packet passes on delivery: its partition and whether its PCRC held, or none when it was
discarded. -/
def Chip.receive (c : Chip) (k : Pkt) : Chip × Option (Nat × Bool) :=
  if c.malformed k then (c.malformedDrop, none)
  else
    match c.jobOf (kJtag k) with
    | none => (c.permDrop k (kTarget k).1 (kTarget k).2, none)
    | some p =>
      if ¬ c.permits p (kSrc k) then (c.permDrop k (kTarget k).1 (kTarget k).2, none)
      else if kRepoch k ≠ c.g .FAB_JOB_REPOCH p then ((c.inc .FAB_CNT_COUNT 0 1 1).set1 .FAB_STICKY_EPOCH_DROP 0, none)
      else
        let ok := crcOk k
        let c := if ok then c else (c.inc .FAB_CNT_COUNT 0 1 4).set1 .FAB_STICKY_PCRC 0
        (c, some (p, ok))

/-- A packet delivered to its partition: its bytes are metered (R433). -/
def Chip.dlv (c : Chip) (p : Nat) (k : Pkt) : Chip := c.meter p 20 (kBytes k)

/-- Poison of flit i of a packet. -/
def kBad (k : Pkt) (i : Nat) : Bool := k.poison.getD i false

/-! ### Queue pushes (R420) -/

/-- Producer number of a source module on a channel (R195, R428). -/
def fabProducer (k : Pkt) : Nat := 2 ^ 21 + kSrc k * 4 + kVc k

/-- The words of a QPUSH: the packet, or one NULL word, poisoned when the PCRC failed. -/
def qpushWords (k : Pkt) (ok : Bool) : List QWord :=
  let n := wbits (hw k 2) 23 14
  if ¬ ok then [⟨0, 2, true⟩]
  else if n = 0 then [⟨0, 2, false⟩]
  else (List.range n).map (fun i => ⟨wordAt k.words i, b2n (i + 1 == n), kBad k (i / 8)⟩)

/-- QPUSH_RECV (R195, R416, R418, R420, R430–R433): the words go to the queue as one packet of the producer (SRC, VC); its
credit stays held while they wait for cells. -/
def execQpushRecv (k : Pkt) (s : State) : Host.Outcome State Fault Refusal :=
  nextChip s (fun c =>
    let c := c.settle
    if kType k ≠ 0x10 then c
    else
      match c.receive k with
      | (c, none) => c.leave k
      | (c, some (p, ok)) =>
        let r := wbits (hw k 2) 3 0
        let q := wbits (hw k 2) 13 4
        if ¬ c.owns p r then (c.permDrop k 0 (r + q * 16)).leave k
        else
          let c := c.dlv p k
          let c := if ok then c else c.markMalformed r q
          let c := (qpushWords k ok).foldl (fun c w => (c.qWrite r q (fabProducer k) w).1) c
          if c.waits r q (fabProducer k) then c.leaveHeld k r q (fabProducer k) else c.leave k)

/-! ### Remote writes and reads (R421, R422) -/

/-- The status of an access to n bytes at a tier address by a packet: BAD_TIER, BAD_ALIGN or BAD_ADDR, 0 when none; none at all
when it targets a region outside the partition, which the fence refuses without a response (R431). -/
def Chip.remoteStatus (c : Chip) (p a n : Nat) : Option Nat :=
  let t := bits a 63 60
  if ¬ (t = 1 ∨ t = 2 ∨ t = 3) then some 4
  else if a % 64 ≠ 0 ∨ n % 64 ≠ 0 then some 5
  else if t = 1 ∧ ¬ c.owns p (bits a 35 32) then none
  else if (c.tierKeys p a n).isNone then some 3
  else some 0

/-- A write acknowledgement returned to the source of a packet (R421). -/
def Chip.ack (c : Chip) (p : Nat) (k : Pkt) (st : Nat) : Chip :=
  if mwAck k then c.inject p (mkPkt 0x28 (kSrc k) [mwAtag k + st * 2 ^ 16 + mwAgent k * 2 ^ 19] [] []) else c

/-- Granules with their poison written for a packet at consecutive keys. -/
def Chip.fabWrite (c : Chip) (p : Nat) : List Nat → List Byte → List Bool → Chip
  | [], _, _ => c
  | key :: ks, bs, ps =>
    ((c.write key (bs.take 64) (ps.headD false)).meter p (meterOfKey key true) 64).fabWrite p ks (bs.drop 64) (ps.drop 1)

/-- A remote write of bytes with one poison mark per granule, checked and acknowledged (R361, R421, R422). -/
def Chip.remoteWrite (c : Chip) (p : Nat) (k : Pkt) (bs : List Byte) (ps : List Bool) : Chip :=
  let a := (hw k 2).toNat
  match c.remoteStatus p a bs.length with
  | none => c.permDrop k 1 a
  | some st =>
    let c := c.dlv p k
    if st ≠ 0 then c.ack p k st
    else
      match c.fenceHit p a bs.length with
      | some x => (c.blockedWrite p 10 x).ack p k 2
      | none =>
        if bits a 63 60 = 1 ∧ c.inRoutine (bits a 35 32) (bits a 24 0) bs.length then c.ack p k 3
        else (c.fabWrite p ((c.tierKeys p a bs.length).getD []) bs ps).ack p k (b2n (ps.any id))

/-- MWRITE_RECV (R418, R421, R422): granules in order, poisoned where their flit is, all of them where the PCRC failed. -/
def execMwriteRecv (k : Pkt) (s : State) : Host.Outcome State Fault Refusal :=
  nextChip s (fun c =>
    let c := c.settle
    if kType k ≠ 0x20 then c
    else
      match c.receive k with
      | (c, none) => c.leave k
      | (c, some (p, ok)) =>
        let n := kNdata k
        let c := if mwBytes k % 64 ≠ 0 then (c.dlv p k).ack p k 5
          else c.remoteWrite p k ((bytesOf k.words).take (64 * n)) ((List.range n).map (fun i => kBad k i || !ok))
        c.leave k)

/-- A census record of the receive stage posted word by word: its words wait for cells like any producer's, a queue outside
the partition is not written (R94, R195, R198, R421). -/
def Chip.wcensPost (c : Chip) (p : Nat) (e : CensEntry) : Chip :=
  let r := c.g .FAB_JOB_CENS_REG p
  let q := c.g .FAB_JOB_CENS_Q p
  if ¬ c.on .FAB_JOB_CENS_EN p then c
  else if ¬ c.owns p r then c.xpart p 1 (c.g .FAB_ID_ID 0) 0 (r + q * 16)
  else (censusWords e).zipIdx.foldl (fun c x => (c.qWrite r q (censProducer p) ⟨x.1, b2n (x.2 == 7), false⟩).1) c

/-- The widening census table of a partition. -/
def Chip.wcensOf (c : Chip) (p : Nat) : List CensEntry := sget [] c.wcens p

/-- Counts added to the widening census of a partition: a new key that finds the table full posts the entry used least
recently (R94, R421). -/
def Chip.wcensAdd (c : Chip) (p : Nat) (e : CensEntry) : Chip :=
  let l := c.wcensOf p
  let same (o : CensEntry) : Bool := o.tensor == e.tensor && o.step == e.step
  let put (l : List CensEntry) : Chip := { c with wcens := sset [] c.wcens p l }
  match l.find? same, l with
  | some o, _ => put (l.filter (fun o => !same o) ++ [{ o with cen := o.cen.add e.cen }])
  | none, old :: rest => if 16 ≤ l.length then (put (rest ++ [e])).wcensPost p old else put (l ++ [e])
  | none, [] => put [e]

/-- Every entry of the widening census posted (gate evaluation, R421). -/
def Chip.wcensPostAll (c : Chip) (p : Nat) : Chip :=
  (c.wcensOf p).foldl (fun c e => c.wcensPost p e) { c with wcens := sset [] c.wcens p [] }

/-- BF16 codes and census of widened blocks: n blocks of 32 elements of a format with their scales (R93, R153, R421). -/
def widen (fmt : Nat) (elems scales : List Byte) : List Conv :=
  (List.range elems.length).map (fun i =>
    convFloat bf16 .rne (mxValue fmt (elems.getD i 0).toNat (scales.getD (i / 32) 0).toNat))

/-- Sum of the census counts of conversions. -/
def cenSum (l : List Conv) : Census := l.foldl (fun a x => a.add x.cen) { elems := 0 }

/-- MWRITE_WIDEN_RECV (R93, R418, R421): element blocks widened to BF16 as a CVT with KIND W does, counted in the census of
their tensor; a granule is poisoned where its elements or its scale came poisoned. -/
def execMwriteWidenRecv (k : Pkt) (s : State) : Host.Outcome State Fault Refusal :=
  nextChip s (fun c =>
    let c := c.settle
    if kType k ≠ 0x21 then c
    else
      match c.receive k with
      | (c, none) => c.leave k
      | (c, some (p, ok)) =>
        let n := wdBlocks k
        let data := bytesOf k.words
        let vs := widen (if wbit (hw k 3) 7 then 3 else 2) (data.take (32 * n)) ((data.drop (32 * n)).take n)
        let bad := (List.range n).map (fun b => kBad k (b / 2) || kBad k ((32 * n + b) / 64) || !ok)
        let fine := c.remoteStatus p (hw k 2).toNat (64 * n) == some 0 && (c.fenceHit p (hw k 2).toNat (64 * n)).isNone
        let c := c.remoteWrite p k (vs.flatMap (fun v => leBytes 2 v.w)) bad
        let c := if fine then
            c.wcensAdd p { tensor := wbits (hw k 4) 23 0, step := c.step p, kind := 0, fmt := 0, cen := cenSum vs }
          else c
        c.leave k)

/-- MREAD_RECV (R422): the range is read and returned with its poison, or the status alone. -/
def execMreadRecv (k : Pkt) (s : State) : Host.Outcome State Fault Refusal :=
  nextChip s (fun c =>
    let c := c.settle
    if kType k ≠ 0x22 then c
    else
      match c.receive k with
      | (c, none) => c.leave k
      | (c, some (p, _)) =>
        let a := (hw k 2).toNat
        let n := mwBytes k
        let reply (c : Chip) (st : Nat) (ws : List Word) (ps : List Bool) : Chip :=
          c.inject p (mkPkt 0x29 (kSrc k) [mwAtag k + st * 2 ^ 16 + mwAgent k * 2 ^ 19] ws ps)
        let c := match c.remoteStatus p a n with
          | none => c.permDrop k 1 a
          | some 0 =>
            let ks := (c.tierKeys p a n).getD []
            let ps := ks.map (fun key => c.badAny key 64)
            let c := ks.foldl (fun (c : Chip) key => c.meter p (meterOfKey key false) 64) (c.dlv p k)
            reply c (b2n (ps.any id)) (wordsOf (n / 8) (ks.flatMap (fun key => c.bytes key 64))) ps
          | some st => reply (c.dlv p k) st [] []
        c.leave k)

/-- MGMT_RECV (R423, R424, R433): a management packet goes to Ringmaster's mailbox; a failed PCRC is counted. -/
def execMgmtRecv (k : Pkt) (s : State) : Host.Outcome State Fault Refusal :=
  nextChip s (fun c =>
    let c := c.settle
    if kType k ≠ 0x41 then c
    else if c.malformed k then c.malformedDrop.leave k
    else
      let c := if crcOk k then c else (c.inc .FAB_CNT_COUNT 0 1 4).set1 .FAB_STICKY_PCRC 0
      (c.emit (.mailbox k)).leave k)

end Sys2Proof.Machine
end

