-- ==== Sys2Proof/Machine/Transfer.lean ====
section
/-! DEFINITION. The transfer engines: XFER at issue, acceptance and completion (R176–R178, R190, R191, R233, R570). -/

namespace Sys2Proof.Machine

/-! ### Host windows (R567, R570) -/

/-- The port that a partition is bound to (R567). -/
def Chip.portOf (c : Chip) (p : Nat) : Nat := b2n (bit (c.g .HOSTIF_PORT_HOST1 0) p)
/-- The virtual function of a partition on its bound port. -/
def Chip.fnOf (c : Chip) (p : Nat) : Nat := 2 + 16 * c.portOf p + p

/-- Host address of an offset of window V of a function; none outside an enabled window (R570). -/
def Chip.hostAt (c : Chip) (f off : Nat) : Option Nat :=
  if c.on .HOSTIF_WIN_EN f ∧ off < 4096 * c.g .HOSTIF_WINSZ_PAGES f then some (4096 * c.g .HOSTIF_WIN_BASE f + off) else none

/-- Host address of a tier address with TIER 0x4 of a partition; none with stray bits or outside its window. -/
def Chip.hostOf (c : Chip) (p a : Nat) : Option Nat :=
  if bits a 59 57 = 0 then c.hostAt (c.fnOf p) (bits a 56 0) else none

/-- Whether every byte of an aligned 64 B granule of a tier address is mapped for a partition. -/
def Chip.granuleOk (c : Chip) (p a : Nat) : Bool :=
  if bits a 63 60 = 4 then (c.hostOf p a).isSome else (c.tierKey p a).isSome

/-- Whether n bytes (a multiple of 64) of an aligned tier address are mapped for a partition, region areas included. -/
def Chip.tierOk (c : Chip) (p a n : Nat) : Bool :=
  decide (a + n ≤ 2 ^ 64) && (List.range (n / 64)).all (fun i => c.granuleOk p (a + 64 * i))

/-- Whether the transfer engine of a region reaches a tier address: only that of its own region moves data of a scratch (R175;
R176 names scratch of any unit, so that check 4 of R177 refuses the others: DEDUCED, log entry 54). -/
def inEngineReach (r a : Nat) : Bool := bits a 63 60 != 0 || regionOfU (bits a 47 32) == r

/-! ### Checks 4 and 5 of R177 -/

/-- Rows of a transfer: source and destination address of each. -/
def xfRowList (w : List Word) : List (Nat × Nat) :=
  (List.range (xfRows w)).map (fun i => (xfSrc w + i * xfSrcStride w, xfDst w + i * xfDstStride w))

/-- Whether a row written meets a valid routine (R237). -/
def Chip.rowInRoutine (c : Chip) (a n : Nat) : Bool :=
  bits a 63 60 == 1 && c.inRoutine (bits a 35 32) (bits a 24 0) n

/-- First byte of a list of rows that the fence blocks. -/
def Chip.rowsFenced (c : Chip) (p n : Nat) : List (Nat × Nat) → Option Nat
  | [] => none
  | r :: rs => match c.fenceHit p r.2 n with | some a => some a | none => c.rowsFenced p n rs

/-- Whether a source row and a destination row share a byte. -/
def rowsOverlap (n : Nat) (rs : List (Nat × Nat)) : Bool :=
  rs.any (fun x => rs.any (fun y => (overlapAt x.1 n y.2 n).isSome))

/-! ### Meanings -/

/-- CMD_XFER (R177, R233): the zero case ends OK at once; checks 4 and 5 are made at issue; a refusal for fenced state is a
blocked write; else the transfer waits for the engine. -/
def execCmdXfer (cl : Nat) (s : State) : Host.Outcome State Fault Refusal :=
  nextChip s (fun c => c.take cl (isOp 0x12) false (fun c w =>
    let r := regionOfCl cl
    let p := c.partOfCl cl
    let n := xfRowBytes w
    if xfRows w = 0 ∨ n = 0 then c.issueEnd cl (wordAt w 0) { order := 0 }
    else
      let rows := xfRowList w
      if ¬ rows.all (fun x => c.tierOk p x.1 n && c.tierOk p x.2 n && inEngineReach r x.1 && inEngineReach r x.2) then c.refuse cl w stBadAddr
      else if rows.any (fun x => c.rowInRoutine x.2 n) then c.refuse cl w stBadAddr
      else
        match c.rowsFenced p n rows with
        | some a => (c.blockedWrite p 1 a).refuse cl w stBadAddr
        | none =>
          if rowsOverlap n rows then c.refuse cl w stBadOverlap
          else
            let (id, c) := c.issue cl (wordAt w 0) 1
            { c with xfers := sset [] c.xfers r (sget [] c.xfers r ++ [{ cl := cl, id := id, words := w, accepted := false }]) }))

/-- The Racking lane of a cluster. -/
def Chip.rackLane (c : Chip) (cl : Nat) : LaneS := sget {} c.racks cl
/-- The Racking lane of a cluster replaced. -/
def Chip.setLane (c : Chip) (cl : Nat) (x : LaneS) : Chip := { c with racks := sset {} c.racks cl x }

/-- Racking moves in flight in a region; each uses a transfer slot (R270). -/
def Chip.movesOf (c : Chip) (r : Nat) : Nat :=
  ((rangeFrom (8 * r) 8).map (fun cl =>
    ((c.rackLane cl).frames.filter (fun f => f.st == .spilling || f.st == .fetching)).length)).sum

/-- Transfer slots of a region in use, of 16: transfers in flight and Racking moves (R178, R270). -/
def Chip.slotsUsed (c : Chip) (r : Nat) : Nat := ((sget [] c.xfers r).filter (·.accepted)).length + c.movesOf r

/-- XFER_ACCEPT (R178, R233, R270): with fewer than 16 slots in use the engine of a region accepts transfer n of its list, the
first of its sequencer that waits. -/
def execXferAccept (r n : Nat) (s : State) : Host.Outcome State Fault Refusal :=
  nextChip s (fun c =>
    let l := sget [] c.xfers r
    match l[n]? with
    | none => c
    | some x =>
      if x.accepted ∨ 16 ≤ c.slotsUsed r ∨ (l.take n).any (fun y => y.cl == x.cl && !y.accepted) then c
      else { c with xfers := sset [] c.xfers r (listSet l n { x with accepted := true }) })

/-- One 64 B granule read for a partition: from memory with the poison of its eight words, or from the bytes the host
answered. -/
def Chip.readGranule (c : Chip) (p a : Nat) (host : List Byte) : List Byte × List Bool :=
  if bits a 63 60 = 4 then ((List.range 64).map (fun i => host.getD i 0), List.replicate 8 false)
  else match c.tierKey p a with
    | some k => (c.bytes k 64, c.badWords k)
    | none => (List.replicate 64 0, List.replicate 8 false)

/-- One 64 B granule written for a partition: to memory with its poison, or to the host, which receives no byte of a
poisoned granule (R191). -/
def Chip.writeGranule (c : Chip) (p a : Nat) (bs : List Byte) (ps : List Bool) : Chip :=
  if bits a 63 60 = 4 then
    match c.hostOf p a with
    | some h => (c.hostGranule (c.portOf p) h bs ps).meter p 18 (cleanBytes ps)
    | none => c
  else match c.tierKey p a with | some k => (c.write64 k bs ps).meter p (meterOfKey k true) 64 | none => c

/-- Meter of bytes read at a tier address. -/
def meterOfTier (a : Nat) (wr : Bool) : Nat :=
  (match bits a 63 60 with | 0 => 11 | 1 => 11 | 2 => 13 | 3 => 15 | _ => 17) + b2n wr

/-- Granules of a transfer copied in row order: the offset in the transfer, the host bytes still to come, the offset of the
first poisoned granule, which is an 8 B word on chip and 64 B in DRAM (R188, R191). -/
def Chip.copyGranules (c : Chip) (p : Nat) : List (Nat × Nat) → Nat → List Byte → Option Nat → Chip × Option Nat
  | [], _, _, bad => (c, bad)
  | (a, b) :: rest, o, host, bad =>
    let (bs, x) := c.readGranule p a host
    let c := match c.tierKey p a with | some k => c.touch k | none => c
    let c := (c.meter p (meterOfTier a false) 64).writeGranule p b bs x
    c.copyGranules p rest (o + 64) (if bits a 63 60 = 4 then host.drop 64 else host)
      (match bad with | some b => some b | none => (x.findIdx? (fun b => b)).map (fun i => o + 8 * i))

/-- The granules of a transfer in row order. -/
def xfGranules (w : List Word) : List (Nat × Nat) :=
  (xfRowList w).flatMap (fun x => (List.range (xfRowBytes w / 64)).map (fun i => (x.1 + 64 * i, x.2 + 64 * i)))

/-- XFER_COMPLETE (R177, R178, R190, R191): an accepted transfer, the first of its sequencer, copies its rows with their
poison and reports the first poisoned granule. -/
def execXferComplete (r n : Nat) (host : List Byte) (s : State) : Host.Outcome State Fault Refusal :=
  nextChip s (fun c =>
    let l := sget [] c.xfers r
    match l[n]? with
    | none => c
    | some x =>
      if ¬ x.accepted ∨ (l.take n).any (fun y => y.cl == x.cl) then c
      else
        let c := { c with xfers := sset [] c.xfers r (l.take n ++ l.drop (n + 1)) }
        let (c, bad) := c.copyGranules (c.partOfCl x.cl) (xfGranules x.words) 0 host none
        c.finish x.cl x.id (match bad with
          | some o => { order := 0, flags := 16, detail := 1 + o % 2 ^ 47 * 2 }
          | none => { order := 0 }))

end Sys2Proof.Machine
end

