-- ==== Sys2Proof/Machine/Mapping.lean ====
section
/-! DEFINITION. Mapping images (R450–R458): what an image holds, the checks of a load in the manual's order, slots, the
current mapping, and the division of ranges over groups. -/

namespace Sys2Proof.Machine

/-! ### Division over a group (R457) -/

/-- First element of member s's share of count elements in units, over g members. -/
def shareFirst (unit count g s : Nat) : Nat :=
  let n := cdiv count unit
  unit * (s * (n / g) + min s (n % g))

/-- Length of member s's share. -/
def shareLen (unit count g s : Nat) : Nat :=
  let n := cdiv count unit
  min (unit * (n / g + b2n (decide (s < n % g)))) (count - shareFirst unit count g s)

/-! ### Ranks and groups (R451, R452) -/

/-- Member ranks of a group; GID 0 is every rank in order. -/
def MapImg.members (m : MapImg) (gid : Nat) : Option (List Nat) :=
  if gid = 0 then some (List.range m.ids.length) else (m.groups.find? (fun g => g.gid == gid)).map Group.members

/-- Member index of this rank in a group. -/
def MapImg.index (m : MapImg) (gid : Nat) : Option Nat := (m.members gid).bind (fun l => l.findIdx? (· == m.rank))

/-- Module ID of a rank. -/
def MapImg.idOf (m : MapImg) (rank : Nat) : Nat := m.ids.getD rank 0

/-- Rank of a module ID. -/
def MapImg.rankOf (m : MapImg) (id : Nat) : Option Nat := m.ids.findIdx? (· == id)

/-! ### Reading an image (R451–R453) -/

/-- A failed check: code of R455, failing entry, tensor. -/
abbrev MapFail := Nat × Nat × Nat

/-- n 16-bit entries of a table, four to a word; none if the filling is not 0. -/
def unpack16 (ws : List Word) (n : Nat) : Option (List Nat) :=
  let v := (List.range (4 * ws.length)).map (fun i => wbits (wordAt ws (i / 4)) (16 * (i % 4) + 15) (16 * (i % 4)))
  if (v.drop n).all (· == 0) then some (v.take n) else none

/-- A piece of n words of an image, none beyond its end. -/
def piece (ws : List Word) (o n : Nat) : Option (List Word) :=
  if o + n ≤ ws.length then some ((ws.drop o).take n) else none

/-- Group entries from an offset, k of them, entry i first: the groups, or the failing entry. -/
def readGroups (ws : List Word) : Nat → Nat → Nat → Except Nat (List Group)
  | 0, _, _ => .ok []
  | k + 1, i, o =>
    match piece ws o 1 with
    | none => .error i
    | some e =>
      let h := wordAt e 0
      let g := wbits h 29 16
      if g = 0 ∨ 8192 < g ∨ wbit h 31 ∨ wbits h 63 35 ≠ 0 then .error i
      else
        match (piece ws (o + 1) (cdiv g 4)).bind (fun x => unpack16 x g) with
        | none => .error i
        | some m =>
          match readGroups ws k (i + 1) (o + 1 + cdiv g 4) with
          | .ok l => .ok (⟨wbits h 15 0, wbit h 30, wbits h 34 32, m⟩ :: l)
          | .error e => .error e

/-- One tensor entry of 8 words. -/
def tensorOf (t : List Word) : TensorEnt :=
  let w0 := wordAt t 0
  let w2 := wordAt t 2
  { tensor := wbits w0 23 0, kind := wbits w0 25 24, fmt := wbits w0 29 26, reg := wbit w0 30, classC := wbit w0 31
    depart := wbit w0 32, mxgather := wbit w0 33, uses := wbits w0 40 34 + 1, rule := wbits w0 42 41
    lrows := wbits (wordAt t 1) 31 0, lcols := wbits (wordAt t 1) 63 32, gid := wbits w2 15 0, cut := wbits w2 17 16
    lblk := wbits w2 29 18, hdr := (wordAt t 3).toNat, mom := (wordAt t 4).toNat, mst := (wordAt t 5).toNat
    wc := (wordAt t 6).toNat, urows := wbits (wordAt t 7) 31 0, ulen := wbits (wordAt t 7) 55 32 }

/-- Tensor entries from an offset. -/
def readTensors (ws : List Word) : Nat → Nat → Nat → Except Nat (List TensorEnt)
  | 0, _, _ => .ok []
  | k + 1, i, o =>
    match piece ws o 8 with
    | none => .error i
    | some t =>
      let e := tensorOf t
      if wbits (wordAt t 0) 63 43 ≠ 0 ∨ wbits (wordAt t 2) 63 30 ≠ 0 ∨ wbits (wordAt t 7) 63 56 ≠ 0
          ∨ (¬ e.reg ∧ ¬ e.depart ∧ (t.drop 3).any (· != 0)) then .error i
      else
        match readTensors ws k (i + 1) (o + 8) with
        | .ok l => .ok (e :: l)
        | .error e => .error e

/-- Placement tables from an offset. -/
def readPlaces (ws : List Word) : Nat → Nat → Nat → Except Nat (List PlaceTab)
  | 0, _, _ => .ok []
  | k + 1, i, o =>
    match piece ws o 1 with
    | none => .error i
    | some h =>
      let h := wordAt h 0
      let n := wbits h 15 4
      match piece ws (o + 1) n with
      | none => .error i
      | some es =>
        if n = 0 ∨ 4096 < n ∨ wbits h 63 32 ≠ 0 ∨ es.any (fun e => wbits e 15 13 != 0) then .error i
        else
          match readPlaces ws k (i + 1) (o + 1 + n) with
          | .ok l => .ok (⟨wbits h 3 0, wbits h 31 16, es.map (fun e => (wbits e 12 0, wbits e 31 16, wbits e 63 32))⟩ :: l)
          | .error e => .error e

/-- The image of a list of words, or the failing entry of check 1 (BAD_IMAGE). -/
def readImage (addr : Nat) (ws : List Word) : Except Nat MapImg :=
  let w (i : Nat) : Word := wordAt ws i
  let off (i : Nat) : Nat := wbits (w (3 + i)) 31 0
  let ng := wbits (w 0) 23 8
  let nt := wbits (w 0) 39 24
  let np := wbits (w 0) 44 40
  let n := wbits (w 1) 26 13
  let ns := wbits (w 2) 63 32
  if wbits (w 0) 7 0 ≠ 1 ∨ wbits (w 0) 63 45 ≠ 0 ∨ wbits (w 1) 63 27 ≠ 0 ∨ (List.range 5).any (fun i => wbits (w (3 + i)) 63 32 != 0)
      ∨ ng = 0 ∨ 4096 < ng ∨ nt = 0 ∨ 16384 < nt ∨ 16 < np ∨ n = 0 ∨ 8192 < n ∨ 65536 < ns then .error 0
  else
    match (piece ws (off 0) (cdiv n 4)).bind (fun x => unpack16 x n) with
    | none => .error 0
    | some ids =>
      match ids.findIdx? (fun x => decide (8192 ≤ x)) with
      | some k => .error k
      | none =>
        match readGroups ws ng 0 (off 1), readTensors ws nt 0 (off 2), readPlaces ws np 0 (off 3), piece ws (off 4) ns with
        | .error e, _, _, _ => .error e
        | _, .error e, _, _ => .error e
        | _, _, .error e, _ => .error e
        | _, _, _, none => .error 0
        | .ok gs, .ok ts, .ok ps, some st =>
          match st.findIdx? (fun s => wbits s 15 13 != 0 || wbits s 63 48 != 0) with
          | some k => .error k
          | none => .ok { addr := addr, words := ws.length, rank := wbits (w 1) 12 0, ids := ids, groups := gs, tensors := ts
                          places := ps, stages := st.map (fun s => (wbits s 12 0, wbits s 31 16, wbits s 47 32)) }

/-! ### The checks of a load (R455) -/

/-- First index of a list at which a test of the earlier elements and the element fails. -/
def firstFail {α : Type} (bad : List α → α → Bool) : Nat → List α → List α → Option (Nat × α)
  | _, _, [] => none
  | i, before, x :: xs => if bad before x then some (i, x) else firstFail bad (i + 1) (before ++ [x]) xs

/-- Whether a list has a repeated element. -/
def hasDup : List Nat → Bool
  | [] => false
  | x :: xs => xs.contains x || hasDup xs

/-- Check 2: ranks and module IDs. -/
def Chip.badRank (c : Chip) (m : MapImg) : Option MapFail :=
  if m.ids.length ≤ m.rank then some (2, 0, 0)
  else (firstFail (fun before x => !c.inTopo x || before.contains x) 0 [] m.ids).map (fun x => (2, x.1, 0))

/-- Check 3: groups. -/
def Chip.badGroup (c : Chip) (m : MapImg) : Option MapFail :=
  let bad (before : List Group) (g : Group) : Bool :=
    g.gid == 0 || before.any (fun h => h.gid == g.gid) || hasDup g.members
      || g.members.any (fun x => decide (m.ids.length ≤ x)) || decide (4 < g.role)
      || (g.adj && (g.members.zip (g.members.drop 1)).any (fun x => !c.neighbours (m.idOf x.1) (m.idOf x.2)))
  (firstFail bad 0 [] m.groups).map (fun x => (3, x.1, 0))

/-- Check 4: tensors. -/
def badTensor (m : MapImg) : Option MapFail :=
  let bad (before : List TensorEnt) (e : TensorEnt) : Bool :=
    before.any (fun b => b.tensor == e.tensor && b.depart == e.depart) || (e.reg && e.depart)
      || e.lrows * e.lcols == 0 || decide (2 ^ 40 < e.lrows * e.lcols) || (m.members e.gid).isNone || decide (8 ≤ e.fmt)
      || e.cut == 3 || decide (128 < e.uses) || (e.mxgather && e.lcols % 32 != 0)
  (firstFail bad 0 [] m.tensors).map (fun x => (4, x.1, x.2.tensor))

/-- Whether every page of a range lies in a partition. -/
def Chip.holds (c : Chip) (p a n : Nat) : Bool :=
  (List.range (cdiv n 4096)).all (fun i => (c.tierKey p (a + 4096 * i)).isSome)

/-- Tiers of the areas of a tensor by class (R377 check 3). -/
def areaTiersOk (e : TensorEnt) : Bool :=
  let dram := if e.classC then 3 else 2
  bits e.hdr 63 60 == dram && bits e.mom 63 60 == dram && bits e.mst 63 60 == 3
    && (if e.classC then bits e.wc 63 60 == 3 else decide (bits e.wc 63 60 ≤ 1))

/-- Whether two lists of ranges share a byte. -/
def overlaps (xs ys : List (Nat × Nat)) : Bool :=
  xs.any (fun x => ys.any (fun y => (overlapAt x.1 x.2 y.1 y.2).isSome))

/-- Whether the ranges of a list share a byte among themselves. -/
def selfOverlaps : List (Nat × Nat) → Bool
  | [] => false
  | x :: xs => overlaps [x] xs || selfOverlaps xs

/-- Whether an entry names areas. -/
def TensorEnt.homed (e : TensorEnt) : Bool := e.reg || e.depart

/-- Check 5: areas. -/
def Chip.badArea (c : Chip) (p : Nat) (m : MapImg) : Option MapFail :=
  let bad (before : List TensorEnt) (e : TensorEnt) : Bool :=
    e.homed &&
      (!(e.areas.all (fun a => a.1 % 4096 == 0)) || !areaTiersOk e || !(e.areas.all (fun a => c.holds p a.1 a.2))
        || selfOverlaps e.areas || overlaps e.areas ((before.filter TensorEnt.homed).flatMap TensorEnt.areas))
  (firstFail bad 0 [] m.tensors).map (fun x => (5, x.1, x.2.tensor))

/-- Whether a partition holds a class C grant for a tensor (R186, R537). -/
def Chip.granted (c : Chip) (p t : Nat) : Bool :=
  (List.range (Reg.info .PART_CGRANT).count).any (fun i => c.on .PART_CGRANT_VALID p i && c.g .PART_CGRANT_TENSOR p i == t)

/-- Check 6: grants. -/
def Chip.badGrant (c : Chip) (p : Nat) (m : MapImg) : Option MapFail :=
  (firstFail (fun _ e => e.classC && !c.granted p e.tensor) 0 [] m.tensors).map (fun x => (6, x.1, x.2.tensor))

/-- Check 7: placement tables. -/
def badPlace (m : MapImg) : Option MapFail :=
  let bad (before : List PlaceTab) (t : PlaceTab) : Bool :=
    before.any (fun b => b.pt == t.pt) ||
      (match m.groups.find? (fun g => g.gid == t.gid) with
        | some g => g.role != 4 || t.ents.any (fun e => decide (g.members.length ≤ e.1))
        | none => true)
  (firstFail bad 0 [] m.places).map (fun x => (7, x.1, 0))

/-- Check 8: stages. -/
def badStage (m : MapImg) : Option MapFail :=
  let bad (before : List (Nat × Nat × Nat)) (s : Nat × Nat × Nat) : Bool :=
    before.any (fun b => (overlapAt b.2.1 b.2.2 s.2.1 s.2.2).isSome) || decide (8 ≤ (before.filter (fun b => b.1 == s.1)).length)
  (firstFail bad 0 [] m.stages).map (fun x => (8, x.1, 0))

/-- Check 9: preconditioned tensors. -/
def badPrecond (m : MapImg) : Option MapFail :=
  (firstFail (fun _ e => e.rule == 3 && (e.lblk == 0 || e.cut == 2)) 0 [] m.tensors).map (fun x => (9, x.1, x.2.tensor))

/-- The image words at a near-tier address: none outside the partition, with whether any is poisoned. -/
def Chip.imageWords (c : Chip) (p a n : Nat) : Option (List Word × Bool) :=
  if ¬ c.nearWhole p a (8 * n) then none
  else
    let ks := (List.range n).map (fun i => (c.nearOf p (a + 8 * i)).getD 0)
    some (ks.map (fun k => Word.ofNat (c.num k 8)), ks.any c.bad)

/-- A load's checks in the manual's order: the image, or the first failure (R455). -/
def Chip.checkImage (c : Chip) (p addr : Nat) : Except MapFail MapImg :=
  match c.imageWords p addr 8 with
  | none => .error (11, 0, 0)
  | some (_, true) => .error (12, 0, 0)
  | some (h, false) =>
    let n := wbits (wordAt h 2) 31 0
    match c.imageWords p addr n with
    | none => .error (11, 0, 0)
    | some (_, true) => .error (12, 0, 0)
    | some (ws, false) =>
      match (if n < 8 then .error 0 else readImage (2 * 2 ^ 60 + addr) ws) with
      | .error e => .error (1, e, 0)
      | .ok m =>
        match [c.badRank m, c.badGroup m, badTensor m, c.badArea p m, c.badGrant p m, badPlace m, badStage m,
            badPrecond m].filterMap id with
        | f :: _ => .error f
        | [] => .ok m

/-! ### Slots and the current mapping (R450, R456, R491) -/

/-- The outcome of a load or clear shown: STATUS, ENTRY, TID, and GO back to 0. -/
def Chip.mapResult (c : Chip) (p code ent tid : Nat) : Chip :=
  let c := ((c.put .CAR_MAPLOAD_STATUS p code).put .CAR_MAPLOAD_ENTRY p ent).put .CAR_MAPLOAD_TID p tid
  let c := c.put .CAR_MAPLOAD_GO p (b2n (code == 15))
  if code ≠ 0 ∧ code ≠ 10 ∧ code ≠ 15 then c.set1 .CAR_STICKY_MAP_FAIL p else c

/-- A slot invalid. -/
def Chip.dropSlot (c : Chip) (p slot : Nat) : Chip :=
  let m := c.mapS p
  (c.setMapS p { m with imgs := m.imgs.filter (fun x => x.1 != slot) }).wr .CAR_MAPSLOT p 0 slot

/-- A slot becomes current with a layout epoch (R448, R456, R490); the statistics slots known of the mapping before it are forgotten. -/
def Chip.activate (c : Chip) (p slot lepoch : Nat) : Chip :=
  ((({ c with stats := c.stats.filter (fun x => x.part != p) }.setMapS p { c.mapS p with cur := some slot }).put .CAR_STAT_CUR_SLOT p slot).put .FAB_JOB_LEPOCH p lepoch).syncCoord p

/-- Whether a function may act on a partition's mapping registers now and no load runs. -/
def Chip.mapReady (c : Chip) (fn : Fn) (p : Nat) : Bool := c.reaches fn .CAR_MAPLOAD p && (c.mapS p).loading.isNone

/-- MAP_LOAD (R450, R455): GO with CLEAR = 0. The current slot is refused with IN_USE; otherwise the load runs, and the slot
is invalid until it succeeds. -/
def execMapLoad (fn : Fn) (p : Nat) (s : State) : Host.Outcome State Fault Refusal :=
  nextChip s (fun c =>
    let slot := c.g .CAR_MAPLOAD_SLOT p
    if ¬ c.mapReady fn p ∨ c.on .CAR_MAPLOAD_CLEAR p then c
    else if (c.mapS p).cur = some slot then c.mapResult p 10 0 0
    else
      let c := (c.dropSlot p slot).mapResult p 15 0 0
      c.setMapS p { c.mapS p with loading := some (slot, c.g .CAR_MAPADDR_ADDR p * 4096) })

/-- MAP_CLEAR (R450): GO with CLEAR = 1 invalidates a slot that is not current. -/
def execMapClear (fn : Fn) (p : Nat) (s : State) : Host.Outcome State Fault Refusal :=
  nextChip s (fun c =>
    let slot := c.g .CAR_MAPLOAD_SLOT p
    if ¬ c.mapReady fn p ∨ ¬ c.on .CAR_MAPLOAD_CLEAR p then c
    else if (c.mapS p).cur = some slot then c.mapResult p 10 0 0
    else (c.dropSlot p slot).mapResult p 0 0 0)

/-- MAP_LOAD_DONE (R186, R451–R455, R536): the load's checks in order; the slot becomes valid, or the first failure is shown
and a refused class C tensor is recorded. -/
def execMapLoadDone (p : Nat) (s : State) : Host.Outcome State Fault Refusal :=
  nextChip s (fun c =>
    match (c.mapS p).loading with
    | none => c
    | some (slot, addr) =>
      let c := c.setMapS p { c.mapS p with loading := none }
      match c.checkImage p addr with
      | .ok m =>
        let x := c.mapS p
        let c := c.setMapS p { x with imgs := sortBy Prod.fst ((slot, m) :: x.imgs) }
        (c.wr .CAR_MAPSLOT p (Word.ofNat (addr + 1)) slot).mapResult p 0 0 0
      | .error (code, ent, tid) =>
        let c := if code = 6 then
            ((c.set1 .PART_STAT_REFUSED p).put .PART_VIOL_REF_TID p tid).put .PART_VIOL_REF_CAUSE p 1
          else c
        c.mapResult p code ent tid)

end Sys2Proof.Machine
end

