-- ==== Sys2Proof/Machine/VecFn.lean ====
section
/-! DEFINITION. The function stages of the vector engine (R146–R148), each rounded once from its exact real value. A
value is enclosed between two fixed-point numbers of F fractional bits, and F is doubled until both ends round to one
FP32 number. -/

namespace Sys2Proof.Machine

/-! ### Fixed-point enclosures -/

/-- An enclosure: the real number lies between lo·2^−F and hi·2^−F. -/
structure Enc where
  lo : Int
  hi : Int
  deriving DecidableEq, Repr

/-- ⌊a / 2^F⌋ of an integer. -/
def fdiv2 (a : Int) (F : Nat) : Int := a.fdiv ((2 : Int) ^ F)
/-- ⌈a / 2^F⌉ of an integer. -/
def cdiv2 (a : Int) (F : Nat) : Int := -((-a).fdiv ((2 : Int) ^ F))
/-- ⌊a / b⌋ for b > 0. -/
def fdivI (a b : Int) : Int := a.fdiv b
/-- ⌈a / b⌉ for b > 0. -/
def cdivI (a b : Int) : Int := -((-a).fdiv b)

/-- An integer as an enclosure. -/
def Enc.ofInt (F : Nat) (i : Int) : Enc := ⟨i * 2 ^ F, i * 2 ^ F⟩
/-- An exact dyadic number as an enclosure. -/
def Enc.ofDy (F : Nat) (m e : Int) : Enc :=
  if 0 ≤ e + F then ⟨m * 2 ^ (e + F).toNat, m * 2 ^ (e + F).toNat⟩
  else ⟨fdiv2 m (-(e + F)).toNat, cdiv2 m (-(e + F)).toNat⟩
/-- A fraction a / b, b > 0. -/
def Enc.frac (F : Nat) (a b : Int) : Enc := ⟨fdivI (a * 2 ^ F) b, cdivI (a * 2 ^ F) b⟩
/-- Sum. -/
def Enc.add (x y : Enc) : Enc := ⟨x.lo + y.lo, x.hi + y.hi⟩
/-- Opposite. -/
def Enc.neg (x : Enc) : Enc := ⟨-x.hi, -x.lo⟩
/-- Difference. -/
def Enc.sub (x y : Enc) : Enc := x.add y.neg
/-- Product. -/
def Enc.mul (F : Nat) (x y : Enc) : Enc :=
  let a := x.lo * y.lo
  let b := x.lo * y.hi
  let k := x.hi * y.lo
  let d := x.hi * y.hi
  ⟨fdiv2 (min (min a b) (min k d)) F, cdiv2 (max (max a b) (max k d)) F⟩
/-- Product with an integer. -/
def Enc.smul (x : Enc) (k : Int) : Enc := if 0 ≤ k then ⟨x.lo * k, x.hi * k⟩ else ⟨x.hi * k, x.lo * k⟩
/-- Quotient by a positive integer. -/
def Enc.sdiv (x : Enc) (k : Int) : Enc := ⟨fdivI x.lo k, cdivI x.hi k⟩
/-- Reciprocal of a positive number. -/
def Enc.inv (F : Nat) (x : Enc) : Enc := ⟨fdivI (2 ^ (2 * F)) x.hi, cdivI (2 ^ (2 * F)) (max 1 x.lo)⟩
/-- Quotient by a positive number. -/
def Enc.div (F : Nat) (x y : Enc) : Enc := x.mul F (y.inv F)
/-- One. -/
def Enc.one (F : Nat) : Enc := Enc.ofInt F 1
/-- Square root of a number that is not negative. -/
def Enc.sqrt (F : Nat) (x : Enc) : Enc := ⟨isqrt (x.lo.toNat * 2 ^ F), isqrt (x.hi.toNat * 2 ^ F) + 1⟩

/-- The series Σ t_n with t_{n+1} = step n t_n, terms added until none exceeds one unit, then closed by twice the last
term; fuel bounds the terms. -/
def series (step : Nat → Enc → Enc) : Nat → Nat → Enc → Enc → Enc
  | 0, _, acc, _ => acc
  | fuel + 1, n, acc, t =>
    let acc := acc.add t
    if t.hi ≤ 1 then ⟨acc.lo, acc.hi + 4⟩ else series step fuel (n + 1) acc (step n t)

/-- e^x of a number 0 ≤ x, halved k times until it is at most 2^−8, then squared back. -/
def expPos (F : Nat) (x : Enc) : Enc :=
  let k := (x.hi.toNat / 2 ^ F).log2 + 9
  let r : Enc := ⟨fdiv2 x.lo k, cdiv2 x.hi k⟩
  let s := series (fun n t => (t.mul F r).sdiv ((n : Int) + 1)) (F + 8) 0 ⟨0, 0⟩ (Enc.one F)
  iter (fun y => y.mul F y) k s

/-- e^x. -/
def expE (F : Nat) (x : Enc) : Enc :=
  let one (a : Int) : Enc := if 0 ≤ a then expPos F ⟨a, a⟩ else (expPos F ⟨-a, -a⟩).inv F
  ⟨(one x.lo).lo, (one x.hi).hi⟩

/-- 2·artanh t for 0 ≤ t ≤ 1/3. -/
def atanh2 (F : Nat) (t : Enc) : Enc :=
  let t2 := t.mul F t
  let rec go : Nat → Nat → Enc → Enc → Enc
    | 0, _, acc, _ => acc
    | fuel + 1, n, acc, p =>
      let acc := acc.add (p.sdiv (2 * (n : Int) + 1))
      if p.hi ≤ 1 then ⟨acc.lo, acc.hi + 4⟩ else go fuel (n + 1) acc (p.mul F t2)
  (go (F + 8) 0 ⟨0, 0⟩ t).smul 2

/-- ln 2. -/
def ln2 (F : Nat) : Enc := atanh2 F (Enc.frac F 1 3)

/-- ln of m·2^e, m > 0. -/
def lnDy (F : Nat) (m e : Int) : Enc :=
  let q : Int := e + m.natAbs.log2
  let z := Enc.ofDy F m (e - q)
  let t := (z.sub (Enc.one F)).div F (z.add (Enc.one F))
  (atanh2 F ⟨max 0 t.lo, max 0 t.hi⟩).add ((ln2 F).smul q)

/-- ln of an enclosure of numbers ≥ 1. -/
def lnE (F : Nat) (x : Enc) : Enc := ⟨(lnDy F x.lo (-(F : Int))).lo, (lnDy F x.hi (-(F : Int))).hi⟩

/-- arctan(1/k) by its alternating series. -/
def atanInv (F : Nat) (k : Int) : Enc :=
  let rec go : Nat → Nat → Enc → Enc → Enc
    | 0, _, acc, _ => acc
    | fuel + 1, n, acc, p =>
      let d := p.sdiv (2 * (n : Int) + 1)
      let acc := if n % 2 = 0 then acc.add d else acc.sub d
      if p.hi ≤ 1 then ⟨acc.lo - 2, acc.hi + 2⟩ else go fuel (n + 1) acc (p.sdiv (k * k))
  go (F + 8) 0 ⟨0, 0⟩ (Enc.frac F 1 k)

/-- π by Machin's formula. -/
def piE (F : Nat) : Enc := ((atanInv F 5).smul 16).sub ((atanInv F 239).smul 4)

/-- Σ of c·x^(2n+1) / (1·3·…·(2n+1)) with c doubled per term when `dbl`: the positive series of the normal integrals,
for x ≥ 0. -/
def oddSeries (F : Nat) (dbl : Bool) (x : Enc) : Enc :=
  let x2 := (x.mul F x).smul (if dbl then 2 else 1)
  series (fun n t => (t.mul F x2).sdiv (2 * (n : Int) + 3)) (40 * F) 0 ⟨0, 0⟩ x

/-- erf of x ≥ 0. -/
def erfPos (F : Nat) (x : Enc) : Enc :=
  let s := oddSeries F true x
  (((s.mul F (expE F (x.mul F x).neg)).smul 2).div F ((piE F).sqrt F))

/-- φ(x), the standard normal density. -/
def phiE (F : Nat) (x : Enc) : Enc :=
  (expE F ((x.mul F x).sdiv 2).neg).div F (((piE F).smul 2).sqrt F)

/-- Φ(x), the standard normal distribution function, at a point. -/
def PhiE (F : Nat) (x : Enc) : Enc :=
  let half : Enc := Enc.frac F 1 2
  let a : Enc := if 0 ≤ x.lo then x else x.neg
  let t := (oddSeries F false a).mul F (phiE F a)
  if 0 ≤ x.lo then half.add t else half.sub t

/-- 1 / (1 + e^−x). -/
def sigE (F : Nat) (x : Enc) : Enc := ((Enc.one F).add (expE F x.neg)).inv F

/-- tanh x as 1 − 2 / (1 + e^2x). -/
def tanhE (F : Nat) (x : Enc) : Enc := (Enc.one F).sub (((sigE F (x.smul 2).neg)).smul 2)

/-- 1 − tanh² x as 4·σ(2x)·σ(−2x). -/
def sechE (F : Nat) (x : Enc) : Enc := ((sigE F (x.smul 2)).mul F (sigE F (x.smul 2).neg)).smul 4

/-- √(2/π). -/
def kE (F : Nat) : Enc := ((Enc.ofInt F 2).div F (piE F)).sqrt F
/-- 0.044715. -/
def cE (F : Nat) : Enc := Enc.frac F 44715 1000000
/-- √(2/π)(x + 0.044715 x³). -/
def uE (F : Nat) (x : Enc) : Enc := (kE F).mul F (x.add ((cE F).mul F (x.mul F (x.mul F x))))

/-- Enclosure of a function stage at the exact dyadic m·2^e. -/
def fnEnc (op F : Nat) (m e : Int) : Enc :=
  let x := Enc.ofDy F m e
  let one := Enc.one F
  match op with
  | 0x10 => expE F x
  | 0x11 => expE F (x.mul F (ln2 F))
  | 0x12 => lnDy F m e
  | 0x13 => (lnDy F m e).div F (ln2 F)
  | 0x21 => sigE F x
  | 0x22 => tanhE F x
  | 0x23 => x.mul F (sigE F x)
  | 0x24 => x.mul F (PhiE F x)
  | 0x25 => x.mul F (sigE F ((uE F x).smul 2))
  | 0x26 => lnE F (one.add (expE F x))
  | 0x27 => if 0 ≤ m then erfPos F x else (erfPos F x.neg).neg
  | 0x31 => (sigE F x).mul F (sigE F x.neg)
  | 0x32 => sechE F x
  | 0x33 => (sigE F x).mul F (one.add (x.mul F (sigE F x.neg)))
  | 0x34 => (PhiE F x).add (x.mul F (phiE F x))
  | 0x35 =>
    let u := uE F x
    let du := (kE F).mul F (one.add (((cE F).mul F (x.mul F x)).smul 3))
    (sigE F (u.smul 2)).add (((x.mul F (sechE F u)).mul F du).sdiv 2)
  | _ => sigE F x

/-- FP32 rounding of a fixed-point number. -/
def fixRound (F : Nat) (a : Int) : FVal := roundDy fp32 .rne a (-(F : Int))

/-- The function rounded once to nearest-even: F grows until both ends of the enclosure round alike. PRESUMED: no
operand needs the last, largest F, so its answer there is the rounded lower end. -/
def fnRound (op : Nat) (m e : Int) : Nat → Nat → FVal
  | 0, F => fixRound F (fnEnc op F m e).lo
  | fuel + 1, F =>
    let x := fnEnc op F m e
    if fixRound F x.lo = fixRound F x.hi then fixRound F x.lo else fnRound op m e fuel (2 * F)

/-- What a function stage returns far below and far above 0, where the result no longer depends on more than the sign
of V: a constant, or V itself. -/
def fnFar (op : Nat) (neg : Bool) (v : FVal) : FVal :=
  match op, neg with
  | 0x10, false => .inf false
  | 0x11, false => .inf false
  | 0x21, false => .one
  | 0x22, n => if n then FVal.one.neg else .one
  | 0x23, false => v
  | 0x24, false => v
  | 0x25, false => v
  | 0x26, false => v
  | 0x27, n => if n then FVal.one.neg else .one
  | 0x33, false => .one
  | 0x34, false => .one
  | 0x35, false => .one
  | 0x36, false => .one
  | _, _ => .zero

/-- The exponent from which a magnitude is far: 2^4 where the normal integrals decide, 2^8 otherwise. -/
def fnFarExp (op : Nat) : Int := if op = 0x24 ∨ op = 0x25 ∨ op = 0x27 ∨ op = 0x34 ∨ op = 0x35 then 4 else 8

/-- Whether the formula of a function stage has no value at an infinity: an infinity times a factor that tends to 0. -/
def fnOpenAtInf (op : Nat) (neg : Bool) : Bool :=
  (neg && (op == 0x23 || op == 0x24 || op == 0x25)) || op == 0x33 || op == 0x34 || op == 0x35

/-- A function or derivative stage of R146 at a value (R147): NaN gives NaN; a logarithm of a negative number is NaN and
of +0 is −Inf. -/
def fnStage (op : Nat) (v : FVal) : FVal :=
  let isLog := op == 0x12 || op == 0x13
  match v with
  | .nan => .nan
  | .inf neg =>
    if isLog then (if neg then .nan else .inf false)
    else if fnOpenAtInf op neg then decodeF fp32 (Config.fnAtInf op neg % 2 ^ 32)
    else fnFar op neg v
  | .fin m e =>
    if isLog then
      if m < 0 then .nan
      else if m = 0 then .inf true
      else fnRound op m e 3 400
    else if m ≠ 0 ∧ fnFarExp op ≤ e + m.natAbs.log2 then fnFar op (m < 0) v
    else if op = 0x11 ∧ (m = 0 ∨ 0 ≤ e ∨ m.natAbs % 2 ^ (-e).toNat = 0) then
      roundDy fp32 .rne 1 (if 0 ≤ e then m * 2 ^ e.toNat else m.tdiv (2 ^ (-e).toNat))
    else fnRound op m e 3 400

/-- 1 / √x, correctly rounded. -/
def rsqrtV (x : FVal) : FVal :=
  match x with
  | .nan => .nan
  | .inf s => if s then .nan else .zero
  | .fin m e =>
    if m < 0 then .nan
    else if m = 0 then .inf false
    else
      let N := 2 * m.natAbs.log2 + 64
      let odd := (e + N) % 2
      let n : Nat := 2 ^ (N + odd.toNat)
      let r := isqrt (n / m.natAbs)
      roundDy fp32 .rne (2 * r + b2n (r * r * m.natAbs ≠ n) : Nat) ((-e - N - odd) / 2 - 1)

end Sys2Proof.Machine
end

