-- ==== Sys2Proof/Machine/Vector.lean ====
section
/-! DEFINITION. The vector engine: lanes, stages, conversions, reductions, flags and completion of a chain (R139–R165,
R655). A chain of a fused pair works in the coordinates of the whole product: row offset 64i, column offset 32j. -/

namespace Sys2Proof.Machine

/-! ### The frame of a chain -/

/-- Row and column offset of a chain's tile within the body's coordinates, and its rows and columns. -/
structure ChainFrame where
  u : Nat
  b : List Word
  r0 : Nat
  c0 : Nat
  rows : Nat
  cols : Nat
  deriving DecidableEq, Repr

/-- The frame of a job on a unit (R231). -/
def ChainJob.frame (k : ChainJob) (u : Nat) : ChainFrame :=
  match k.tile with
  | some t => ⟨u, k.body, 64 * t.i, 32 * t.j, t.mt, t.nt⟩
  | none => ⟨u, k.body, 0, 0, chRows k.body, chCols k.body⟩

/-- Whether a lane is a padding lane (R160). -/
def ChainFrame.padding (f : ChainFrame) (r n : Nat) : Bool :=
  decide (min (chRowsValid f.b) (chRows f.b) ≤ f.r0 + r) || decide (min (chColsValid f.b) (chCols f.b) ≤ f.c0 + n)

/-- Address of the scale byte of element (r, n) of the body's stream k (R655): axis 0 by row and block, axis 1 by band and
column. -/
def scaleAt (b : List Word) (addr stride axis r n : Nat) : Nat :=
  let sb := addr + chRows b * stride
  let ss := scaleStride axis (chCols b)
  if axis = 0 then sb + r * ss + n / 32 else sb + r / 32 * ss + n

/-- The bytes of a stream of a format that a chain's frame covers: its rows, and their scale bytes (R655). -/
def ChainFrame.streamRows (f : ChainFrame) (addr stride fmt axis cols : Nat) : List (Nat × Nat) :=
  if f.rows = 0 ∨ f.cols = 0 then []
  else
    (rangeFrom f.r0 f.rows).map (fun r => (addr + r * stride + f.c0 * fmtNibbles fmt / 2, fmtBytes fmt cols))
      ++ (if ¬ isMx fmt then []
          else if axis = 0 then (rangeFrom f.r0 f.rows).map (fun r => (scaleAt f.b addr stride 0 r f.c0, cdiv f.cols 32))
          else (rangeFrom (f.r0 / 32) (cdiv f.rows 32)).map (fun d => (scaleAt f.b addr stride 1 (32 * d) f.c0, f.cols)))

/-- The bytes of stream k that a frame covers. -/
def ChainFrame.stream (f : ChainFrame) (k : Nat) : List (Nat × Nat) :=
  f.streamRows (chAddr f.b k) (chStride f.b k) (chFmt f.b k) (chAxis f.b k) f.cols

/-- The bytes of broadcast vector k that a frame covers; a chain with no element reads none (R144). -/
def ChainFrame.broadcast (f : ChainFrame) (k : Nat) : List (Nat × Nat) :=
  if chBrEn f.b k ∧ f.rows ≠ 0 ∧ f.cols ≠ 0 then
    let w := fmtNibbles (chBrFmt f.b k) / 2
    let (i, n) := if chBrAxis f.b k = 0 then (f.r0, f.rows) else (f.c0, f.cols)
    [(chAddr f.b (8 + k) + i * w, n * w)]
  else []

/-- The bytes of the mask that a frame covers. -/
def ChainFrame.mask (f : ChainFrame) : List (Nat × Nat) :=
  if chMaskEn f.b then f.streamRows (chAddr f.b 4) (chStride f.b 4) 7 0 f.cols else []

/-- The bytes a chain reads: source, second stream, mask, broadcasts (R141). -/
def ChainFrame.reads (f : ChainFrame) : List (Nat × Nat) :=
  (if chSrc f.b = 0 then [] else f.stream 1) ++ (if chSrc2En f.b then f.stream 3 else [])
    ++ f.mask ++ f.broadcast 0 ++ f.broadcast 1

/-- Value of element (r, n) of a stream as FP32, and whether its load overflowed (R68). -/
def Chip.streamVal (c : Chip) (f : ChainFrame) (k r n : Nat) : FVal × Bool :=
  let fm := chFmt f.b k
  let raw := c.rawElem f.u (chAddr f.b k + r * chStride f.b k) fm n
  if isMx fm then
    let v := mxValue fm raw (c.num (opAt f.u (scaleAt f.b (chAddr f.b k) (chStride f.b k) (chAxis f.b k) r n)) 1)
    let x := roundF fp32 .rne v
    (x, ovfOf [v] x)
  else (rawValue fm raw, false)

/-- Whether a word read for element (r, n) of a stream is poisoned. -/
def Chip.streamBad (c : Chip) (f : ChainFrame) (k r n : Nat) : Bool :=
  let fm := chFmt f.b k
  let (a, w) := elemByte fm (chAddr f.b k + r * chStride f.b k, n)
  c.opBad f.u a w
    || (isMx fm && c.opBad f.u (scaleAt f.b (chAddr f.b k) (chStride f.b k) (chAxis f.b k) r n) 1)

/-- The mask byte of element (r, n). -/
def Chip.maskByte (c : Chip) (f : ChainFrame) (r n : Nat) : Nat := c.num (opAt f.u (chAddr f.b 4 + r * chStride f.b 4 + n)) 1

/-- Element i of broadcast vector n (R150). -/
def Chip.brVal (c : Chip) (f : ChainFrame) (n i : Nat) : FVal :=
  let fm := chBrFmt f.b n
  rawValue fm (c.num (opAt f.u (chAddr f.b (8 + n) + i * (fmtNibbles fm / 2))) (fmtNibbles fm / 2))

/-- Whether the mask or a broadcast vector of the frame holds poison (R163). Broadcast words count as consumed like mask words,
also those that only excluded lanes would use; source and SRC2 words of excluded lanes do not (DEDUCED, log entry 48). -/
def Chip.sideBad (c : Chip) (f : ChainFrame) : Bool :=
  (f.mask ++ f.broadcast 0 ++ f.broadcast 1).any (fun r => c.opBad f.u r.1 r.2)

/-! ### Lanes (R141, R146–R153) -/

/-- A lane: V, P, save slots, the value at each RED stage so far, and the stage of its first overflow. -/
structure Lane where
  v : FVal
  p : Bool := true
  s0 : FVal := .zero
  s1 : FVal := .zero
  reds : List FVal := []
  ovf : Option Nat := none
  deriving DecidableEq, Repr

/-- Element index of a lane (R155). -/
def ChainFrame.index (f : ChainFrame) (r n : Nat) : Nat := chIdxBase f.b + (f.r0 + r) * chPitch f.b + f.c0 + n

/-- Operand of a stage (R145, R149–R151). -/
def Chip.stageOperand (c : Chip) (f : ChainFrame) (l : Lane) (r n sel idx : Nat) : FVal :=
  match sel with
  | 1 => chImm f.b idx
  | 2 => c.brVal f 0 (if chBrAxis f.b 0 = 0 then f.r0 + r else f.c0 + n)
  | 3 => c.brVal f 1 (if chBrAxis f.b 1 = 0 then f.r0 + r else f.c0 + n)
  | 4 => l.s0
  | 5 => l.s1
  | 6 => (c.streamVal f 3 (f.r0 + r) (f.c0 + n)).1
  | _ => .zero

/-- Whether a stage loads an MX element of the second stream that overflows FP32 (R68, R86). -/
def Chip.loadOvf (c : Chip) (f : ChainFrame) (r n : Nat) (w : Word) : Bool :=
  ((opTakesB (sgOp w) && sgB w == 6) || (opTakesC (sgOp w) && sgC w == 6)) && (c.streamVal f 3 (f.r0 + r) (f.c0 + n)).2

/-- Result of an arithmetic or function stage at V, B, C (R146–R148). -/
def stageValue (op : Nat) (v b k : FVal) : FVal :=
  match op with
  | 0x01 => addF fp32 v b
  | 0x02 => subF fp32 v b
  | 0x03 => subF fp32 b v
  | 0x04 => mulF fp32 v b
  | 0x05 => fmaF fp32 v b k
  | 0x06 => divF fp32 v b
  | 0x07 => divF fp32 .one v
  | 0x08 => sqrtF fp32 v
  | 0x09 => rsqrtV v
  | 0x0A => maxV v b
  | 0x0B => minV v b
  | 0x0C => v.abs
  | 0x0D => v.neg
  | 0x0E => minV (maxV v b) k
  | 0x20 => maxV v .zero
  | 0x30 => if v.isNan then .nan else if ltV .zero v then .one else .zero
  | o => if (0x10 ≤ o ∧ o ≤ 0x13) ∨ (0x21 ≤ o ∧ o ≤ 0x27) ∨ (0x31 ≤ o ∧ o ≤ 0x36) then fnStage o v else v

/-- One stage of a lane; `k` is the stage's number. -/
def Chip.stage (c : Chip) (p : Nat) (f : ChainFrame) (r n : Nat) (l : Lane) (k : Nat) (w : Word) : Lane :=
  let op := sgOp w
  let b := c.stageOperand f l r n (sgB w) (sgBidx w)
  let x := c.stageOperand f l r n (sgC w) (sgCidx w)
  let l' : Lane :=
    match op with
    | 0x40 => { l with p := ltV b l.v }
    | 0x41 => { l with p := leV b l.v }
    | 0x42 => { l with p := eqV l.v b }
    | 0x43 => { l with v := if l.p then l.v else b }
    | 0x50 =>
      let R := draw (c.rd .HUB_SEED p).toNat (chTensor f.b) (f.index r n) (c.step p) (sgDraw w)
      { l with v := .fin (R / 256 : Nat) (-24) }
    | 0x60 => { l with reds := l.reds ++ [l.v] }
    | 0x70 => l
    | o =>
      let y := stageValue o l.v b x
      let ins := l.v :: ((if opTakesB o then [b] else []) ++ (if opTakesC o then [x] else []))
      { l with v := y, ovf := if l.ovf.isNone && ovfOf ins y then some k else l.ovf }
  let l' := if l'.ovf.isNone && c.loadOvf f r n w then { l' with ovf := some k } else l'
  if sgSave w then (if sgSlot w = 0 then { l' with s0 := l'.v } else { l' with s1 := l'.v }) else l'

/-- A lane run through every stage of the chain. -/
def Chip.lane (c : Chip) (p : Nat) (f : ChainFrame) (src : FVal × Bool) (r n : Nat) : Lane :=
  let st := chStages f.b
  (List.range st.length).foldl (fun l k => c.stage p f r n l k (wordAt st k))
    { v := src.1, ovf := if src.2 then some 0 else none }

/-- The lanes of a chain, row by row; none where the lane is excluded (R160). -/
def Chip.lanes (c : Chip) (p : Nat) (f : ChainFrame) (tile : Option TileOut) : List (List (Option Lane)) :=
  (List.range f.rows).map (fun r => (List.range f.cols).map (fun n =>
    if f.padding r n || (chMaskEn f.b && c.maskByte f (f.r0 + r) (f.c0 + n) == 0) then none
    else
      let src : FVal × Bool := match tile with
        | some t => ((t.rows.getD r []).getD n .zero, false)
        | none => c.streamVal f 1 (f.r0 + r) (f.c0 + n)
      some (c.lane p f src r n)))

/-! ### Element output (R144, R153, R154, R160) -/

/-- An element to be written: its code, overflow, whether it is written as NaN or ±Inf, and its census counts. -/
structure OutElem where
  code : Nat
  ovf : Bool := false
  nf : Bool := false
  cen : Census := {}
  deriving DecidableEq, Repr

/-- Conversion of a lane's value to a destination format that is not MX (R68, R153). -/
def Chip.convLane (c : Chip) (p : Nat) (f : ChainFrame) (r n : Nat) (v : FVal) : OutElem :=
  match chCvt f.b with
  | none => ⟨encodeF fp32 v, false, !v.isFin, cenOf v v⟩
  | some w =>
    match sgFn w with
    | 0 =>
      let R := draw (c.rd .HUB_SEED p).toNat (chTensor f.b) (f.index r n) (c.step p) (sgDraw w)
      let x := convFloat bf16 (convRnd (Kind.ofCode (sgAxisKind w)) R) v
      ⟨x.w, x.ovf, !(decodeF bf16 x.w).isFin, x.cen⟩
    | 6 => let x := convInt v; ⟨x.w, x.ovf, false, x.cen⟩
    | _ => ⟨encodeF fp32 v, false, !v.isFin, cenOf v v⟩

/-- One MX block: the scale byte, an element per lane (+0 code where excluded), and the census (R91, R154). A block blocked
along its row that ends short is filled up with +0 codes (R66). -/
def mxBlock (k : Kind) (fm : Nat) (ls : List (Option Lane)) : Nat × List (Nat × Bool) × Census :=
  let real := ls.filterMap (fun l => l.map Lane.v)
  let (s, codes, cen) := quantBlock k (mxOf fm) real
  let fill : List Nat × List (Nat × Bool) := ls.foldl (fun acc l =>
    match l, acc.1 with
    | some _, x :: xs => (xs, acc.2 ++ [(x, s == 0xFF)])
    | _, xs => (xs, acc.2 ++ [(0, false)])) (codes, [])
  (s, fill.2, cen)

/-- The rows of a table transposed. -/
def transposeL {α : Type} (d : α) (rows : List (List α)) (cols : Nat) : List (List α) :=
  (List.range cols).map (fun n => rows.map (fun r => r.getD n d))

/-- All MX blocks of a chain's output: rows of (code, NF), the scale bytes with their addresses, and the census. -/
def mxOutput (f : ChainFrame) (w : Word) (lanes : List (List (Option Lane))) :
    List (List (Nat × Bool)) × List (Nat × Nat) × Census :=
  let fm := sgFn w
  let k := Kind.ofCode (sgAxisKind w)
  let ax := sgDst w
  let lines := if ax = 0 then lanes else transposeL none lanes f.cols
  let done := (List.range lines.length).map (fun i =>
    let line := lines.getD i []
    let line := if ax = 0 then line ++ List.replicate (32 * cdiv line.length 32 - line.length) none else line
    let bl := (chunks 32 (line.length + 1) line).map (mxBlock k fm)
    let at' (b : Nat) : Nat := if ax = 0 then scaleAt f.b (chAddr f.b 2) (chStride f.b 2) 0 (f.r0 + i) (f.c0 + 32 * b)
      else scaleAt f.b (chAddr f.b 2) (chStride f.b 2) 1 (f.r0 + 32 * b) (f.c0 + i)
    (bl.flatMap (fun x => x.2.1), (List.range bl.length).map (fun b => (at' b, ((bl.map Prod.fst).getD b 0))),
      (bl.map (fun x => x.2.2)).foldl Census.add {}))
  let rows := done.map Prod.fst
  (if ax = 0 then rows else transposeL (0, false) rows f.rows, done.flatMap (fun x => x.2.1),
    (done.map (fun x => x.2.2)).foldl Census.add {})

/-- Bytes of a row of codes of a format, MXFP4 codes two to a byte. -/
def packRow (fm : Nat) (codes : List Nat) : List Byte :=
  if fmtNibbles fm = 1 then (chunks 2 (codes.length + 1) codes).map (fun x => BitVec.ofNat 8 (x.getD 0 0 + 16 * x.getD 1 0))
  else codes.flatMap (leBytes (fmtNibbles fm / 2))

/-- What a chain writes as elements: byte runs with their operand addresses, positions of the first NF and of the first
OVF of a conversion, and the census. -/
structure ElemOut where
  runs : List (Nat × List Byte)
  nf : Option (Nat × Nat)
  ovf : Option (Nat × Nat)
  cen : Census
  deriving DecidableEq, Repr

/-- The elements of a chain that has a CVT or a destination: a CVT converts, counts and overflows whether or not its elements
are written (R164). -/
def Chip.elemAll (c : Chip) (p : Nat) (f : ChainFrame) (lanes : List (List (Option Lane))) : ElemOut :=
  let fm := chDstFmt f.b
  if f.rows = 0 ∨ f.cols = 0 then ⟨[], none, none, {}⟩
  else
    let rowAddr (r n : Nat) : Nat := chAddr f.b 2 + (f.r0 + r) * chStride f.b 2 + (f.c0 + n) * fmtNibbles fm / 2
    match chCvt f.b, isMx fm with
    | some w, true =>
      let (rows, scs, cen) := mxOutput f w lanes
      ⟨(List.range f.rows).map (fun r => (rowAddr r 0, packRow fm ((rows.getD r []).map Prod.fst)))
          ++ scs.map (fun x => (x.1, [BitVec.ofNat 8 x.2])),
        firstPos (fun _ _ (x : Nat × Bool) => x.2) rows, none, cen⟩
    | _, _ =>
      let rows := (List.range f.rows).map (fun r => (List.range f.cols).map (fun n =>
        match (lanes.getD r []).getD n none with
        | some l => some (c.convLane p f r n l.v)
        | none => if f.padding r n || wbit (wordAt f.b 0) 59 then some ⟨0, false, false, {}⟩ else none))
      ⟨(List.range f.rows).flatMap (fun r => (runsOf 0 (rows.getD r [])).map (fun x =>
          (rowAddr r x.1, packRow fm (x.2.map OutElem.code)))),
        firstPos (fun _ _ (x : Option OutElem) => match x with | some e => e.nf | none => false) rows,
        firstPos (fun _ _ (x : Option OutElem) => match x with | some e => e.ovf | none => false) rows,
        (rows.flatMap (fun r => r.filterMap (fun x => x.map OutElem.cen))).foldl Census.add {}⟩

/-- The element output of a chain: with DST_EN = 0 nothing is written, and a CVT still counts and sets OVF (R142, R164). -/
def Chip.elemOut (c : Chip) (p : Nat) (f : ChainFrame) (lanes : List (List (Option Lane))) : ElemOut :=
  if chDstEn f.b then c.elemAll p f lanes
  else if (chCvt f.b).isSome then { c.elemAll p f lanes with runs := [], nf := none }
  else ⟨[], none, none, {}⟩

/-! ### Reductions (R84, R88, R156–R159) -/

/-- Identity value of a function's accumulator. -/
def redInit (rfn : Nat) : FVal := if rfn = 3 then .one else if rfn = 4 then .inf true else if rfn = 5 then .inf false else .zero

/-- Rank order of TOPK: NaN first, then larger values, then lower indices (R159). -/
def topBefore (x y : Nat × FVal) : Bool :=
  if x.2.isNan then !y.2.isNan || decide (x.1 < y.1)
  else if y.2.isNan then false
  else if ltV y.2 x.2 then true else if ltV x.2 y.2 then false else decide (x.1 < y.1)

/-- Insertion into a TOPK list of at most k. -/
def topInsert (k : Nat) (x : Nat × FVal) (l : List (Nat × FVal)) : List (Nat × FVal) :=
  ((l.takeWhile (fun y => topBefore y x)) ++ x :: l.dropWhile (fun y => topBefore y x)).take k

/-- Whether y replaces the best x of ARGMAX or ARGMIN (R67). -/
def argBetter (mx : Bool) (x y : FVal) : Bool :=
  if x.isNan then false else if y.isNan then true else if mx then ltV x y else ltV y x

/-- A line of a reduction extended by its next elements in order, none where excluded; `base` counts positions before
them. Answers the line and whether a finite operation overflowed. -/
def RedLine.take (rfn k base : Nat) (l : RedLine) (xs : List (Option FVal)) : RedLine × Bool :=
  let inc := xs.filterMap id
  let n := l.n + inc.length
  let idx := (List.range xs.length).filterMap (fun i => (xs.getD i none).map (fun v => (base + i, v)))
  let fold (op : FO → FO → FO) (z : FVal) (leaf : FVal → FO) : RedLine × Bool :=
    let r := chunkFold op (z, false) (l.acc, false) (xs.map (fun x => match x with | some v => leaf v | none => (z, false)))
    ({ l with acc := r.1, n := n }, r.2)
  match rfn with
  | 1 => fold (addO fp32) .zero (fun v => mulO fp32 v v)
  | 2 => fold (addO fp32) .zero (fun v => mulO fp32 v v)
  | 3 => fold (fun x y => let r := mulO fp32 x.1 y.1; (r.1, r.2 || x.2 || y.2)) .one (fun v => (v, false))
  | 4 => ({ l with acc := inc.foldl maxV l.acc, n := n }, false)
  | 5 => ({ l with acc := inc.foldl minV l.acc, n := n }, false)
  | 6 => ({ l with n := n, best := idx.foldl (fun b x => match b with
      | none => some x | some y => if argBetter true y.2 x.2 then some x else some y) l.best }, false)
  | 7 => ({ l with n := n, best := idx.foldl (fun b x => match b with
      | none => some x | some y => if argBetter false y.2 x.2 then some x else some y) l.best }, false)
  | 10 => ({ l with n := n, top := idx.foldl (fun t x => topInsert k x t) l.top }, false)
  | _ => fold (addO fp32) .zero (fun v => (v, false))

/-- Population variance of a line (R84). -/
def varOf (xs : List (Option FVal)) : FVal × Bool :=
  let n := (xs.filterMap id).length
  let cnt := roundF fp32 .rne (ofNatV n)
  let sum (g : FVal → FO) : FO := chunkFold (addO fp32) (.zero, false) (.zero, false)
    (xs.map (fun x => match x with | some v => g v | none => (.zero, false)))
  let s := sum (fun v => (v, false))
  let m := divF fp32 s.1 cnt
  let q := sum (fun v => let d := addO fp32 (v, false) (m.neg, false); let r := mulO fp32 d.1 d.1; (r.1, r.2 || d.2))
  if n = 0 then (.nan, false) else (divF fp32 q.1 cnt, s.2 || q.2)

/-- The result of a closed line: value or index code, whether it is non-finite for NF, EMPTY, overflow (R84, R88). -/
def RedLine.result (rfn : Nat) (l : RedLine) : Nat × Bool × Bool × Bool :=
  let fin (v : FVal) : Nat × Bool × Bool × Bool := (encodeF fp32 v, !v.isFin && l.n != 0, false, false)
  match rfn with
  | 2 => fin (sqrtF fp32 l.acc)
  | 6 => (match l.best with | some x => x.1 % 2 ^ 32 | none => 0xFFFFFFFF, false, false, false)
  | 7 => (match l.best with | some x => x.1 % 2 ^ 32 | none => 0xFFFFFFFF, false, false, false)
  | 8 =>
    if l.n = 0 then (encodeF fp32 .nan, false, true, false)
    else fin (divF fp32 l.acc (roundF fp32 .rne (ofNatV l.n)))
  | 9 => if l.n = 0 then (encodeF fp32 .nan, false, true, false) else fin l.acc
  | _ => fin l.acc

/-- A TOPK record of 128 B (R158). -/
def topRecord (l : RedLine) : List Byte :=
  let t := l.top
  (List.range 16).flatMap (fun i => leBytes 4 (match t[i]? with | some x => x.1 % 2 ^ 32 | none => 0xFFFFFFFF))
    ++ (List.range 16).flatMap (fun i => leBytes 4 (match t[i]? with | some x => encodeF fp32 x.2 | none => encodeF fp32 (.inf true)))

/-- The group that a fused tile's reduction belongs to (R231): tile row, tile column, or one for all. -/
def redGroup (axis : Nat) (t : Option TileJob) : Nat :=
  match t, axis with
  | some x, 0 => x.i
  | some x, 1 => x.j
  | _, _ => 0

/-- Whether a tile is the first of its reduction group, and whether it is the last (R231). -/
def redFirst (axis : Nat) (t : TileJob) : Bool :=
  match axis with
  | 0 => t.j == 0
  | 1 => t.i == 0
  | _ => t.i == 0 && t.j == 0
/-- Whether a tile is the last of its reduction group. -/
def redLast (axis : Nat) (t : TileJob) : Bool :=
  let ni := cdiv (mmM t.mm) 64
  let nj := cdiv (mmN t.mm) 32
  match axis with
  | 0 => decide (nj ≤ t.j + 1)
  | 1 => decide (ni ≤ t.i + 1)
  | _ => decide (ni ≤ t.i + 1) && decide (nj ≤ t.j + 1)

/-- Effective ACC of a stage in a job. -/
def ChainJob.acc (k : ChainJob) (w : Word) : Bool :=
  match k.tile with
  | some t => if redFirst (sgAxisKind w) t then sgAcc w else true
  | none => sgAcc w
/-- Effective FIN of a stage in a job. -/
def ChainJob.fin (k : ChainJob) (w : Word) : Bool :=
  match k.tile with
  | some t => redLast (sgAxisKind w) t && sgFin w
  | none => sgFin w

/-- The open state that a stage with ACC = 1 continues (R157): its own group's, else one an earlier command left. -/
def UnitS.redOpen (x : UnitS) (k : ChainJob) (w : Word) : Option RedState :=
  let ax := sgAxisKind w
  let g := redGroup ax k.tile
  let cand := x.reds.filter (fun s => s.dst == sgDst w && s.rfn == sgFn w && s.axis == ax)
  match cand.find? (fun s => s.id == k.id && s.grp == g) with
  | some s => some s
  | none => match cand.find? (fun s => s.grp == g) with
    | some s => some s
    | none => if k.tile.isSome then none else cand.getLast?

/-- Lines of values that a stage reduces, in the order of R156. -/
def redLanes (axis : Nat) (f : ChainFrame) (vals : List (List (Option FVal))) : List (List (Option FVal)) :=
  match axis with
  | 0 => vals
  | 1 => transposeL none vals f.cols
  | _ => [vals.flatten]

/-- Where a line's result lies: operand address and position for flags (R158, R161). -/
def redPlace (f : ChainFrame) (w : Word) (i : Nat) : Nat × (Nat × Nat) :=
  let a := chRedAddr f.b (sgDst w)
  match sgAxisKind w with
  | 0 => (a + (if sgFn w = 10 then 128 else 4) * (f.r0 + i), (i, 0))
  | 1 => (a + 4 * (f.c0 + i), (0, i))
  | _ => (a, (0, 0))

/-- What a reduction stage adds to a chain: byte runs to write, poison on them, first NF, EMPTY, OVF. -/
structure RedOut where
  runs : List (Nat × List Byte) := []
  poison : Bool := false
  nf : Option (Nat × Nat) := none
  emp : Option (Nat × Nat) := none
  ovf : Option (Nat × Nat) := none
  deriving DecidableEq, Repr

/-- One RED stage of a chain: the open state after it, if it stays open, and what it writes when it closes. `j` is the
stage's place among the chain's RED stages. With ACC = 1 a line that the open state does not have starts afresh, and a line
that only the open state has goes (R157 limits no such chain; DESIGN CHOICE, log entry 48). -/
def redStage (x : UnitS) (k : ChainJob) (f : ChainFrame) (lanes : List (List (Option Lane))) (poison : Bool) (j : Nat)
    (w : Word) : Option RedState × RedOut :=
  let rfn := sgFn w
  let ax := sgAxisKind w
  let vals := lanes.map (fun r => r.map (fun l => l.map (fun y => y.reds.getD j .zero)))
  let ls := redLanes ax f vals
  let nl := redLines ax f.rows f.cols
  let zero : RedState := { dst := sgDst w, rfn := rfn, axis := ax, id := k.id, grp := redGroup ax k.tile, lines := [], base := 0
                           poison := false, dead := false, work := [] }
  let old := if k.acc w then (x.redOpen k w).getD zero else zero
  let ext := if ax = 0 then f.cols else if ax = 1 then f.rows else f.rows * f.cols
  let step (i : Nat) : RedLine × Bool :=
    let l := old.lines.getD i { acc := redInit rfn }
    let xs := ls.getD i []
    if rfn = 9 then let r := varOf xs; ({ acc := r.1, n := (xs.filterMap id).length }, r.2)
    else l.take rfn (sgK w) old.base xs
  let res := (List.range nl).map step
  let st : RedState := { old with id := k.id, lines := res.map Prod.fst, base := old.base + ext
                                  poison := old.poison || poison
                                  work := old.work ++ [.chain { k with redo := true }] }
  let pos (p : Nat → Bool) : Option (Nat × Nat) := ((List.range nl).find? p).map (fun i => (redPlace f w i).2)
  let ovf := pos (fun i => (res.getD i ({ acc := .zero }, false)).2)
  if k.fin w then
    let line (i : Nat) : RedLine := (res.getD i ({ acc := .zero }, false)).1
    let r (i : Nat) : Nat × Bool × Bool × Bool := (line i).result rfn
    let run (i : Nat) : Nat × List Byte :=
      ((redPlace f w i).1, if rfn = 10 then topRecord (line i) else leBytes 4 (r i).1)
    let nfAt (i : Nat) : Bool := if rfn = 10 then (line i).top.any (fun x => !x.2.isFin) else (r i).2.1
    (none, { runs := if st.dead then [] else (List.range nl).map run, poison := st.poison
             nf := if st.dead then none else pos nfAt, emp := if st.dead then none else pos (fun i => (r i).2.2.1), ovf := ovf })
  else (some st, { ovf := ovf })

/-! ### A chain's run -/

/-- The bytes a chain writes in its frame: elements with scales, and the reductions it closes (R158). -/
def ChainJob.writes (k : ChainJob) (f : ChainFrame) : List (Nat × Nat) :=
  let b := f.b
  (if chDstEn b then f.streamRows (chAddr b 2) (chStride b 2) (chDstFmt b) (chDstAxis b) (storedCols (chDstFmt b) (chDstAxis b) f.cols)
   else [])
    ++ ((chReds b).filter k.fin).map (fun w =>
      ((redPlace f w 0).1, (if sgFn w = 10 then 128 else 4) * redLines (sgAxisKind w) f.rows f.cols))

/-- Status of a chain when it runs: open state of its ACC stages (R157), areas of other engines (R261), routine words
(R237). -/
def Chip.chainStatus (c : Chip) (u : Nat) (k : ChainJob) : Nat :=
  let x := c.unit u
  let f := k.frame u
  firstBad [
    chk ((chReds k.body).all (fun w => !k.acc w || (x.redOpen k w).isSome)) stBadChain,
    chk (f.reads.all (fun r => c.opReach u r.1 r.2)) stBadAddr,
    chk ((k.writes f).all (fun r => c.opWritable u r.1 r.2)) stBadAddr]

/-- Earlier of two optional positions with a tag that goes with the first, the lower tag at one position (DEDUCED, log entry
48); tag 0 without a position (R170). -/
def minTag (a b : Option (Nat × Nat) × Nat) : Option (Nat × Nat) × Nat :=
  match a.1, b.1 with
  | none, none => (none, 0)
  | none, _ => b
  | _, none => a
  | some (r, n), some (r', n') => if r' < r ∨ (r' = r ∧ (n' < n ∨ (n' = n ∧ b.2 < a.2))) then b else a

/-- Stage number of RED stage j of a chain. -/
def redStageNo (b : List Word) (j : Nat) : Nat :=
  let st := chStages b
  ((List.range st.length).filter (fun k => sgOp (wordAt st k) == 0x60)).getD j 0

/-- Byte runs written to a unit's operand space in order. -/
def Chip.engRuns (c : Chip) (p writer u : Nat) (rs : List (Nat × List Byte)) (poison : Bool) (ex : List (Nat × Nat)) : Chip :=
  rs.foldl (fun c r => c.engWrite p writer u r.1 r.2 poison ex) c

/-- Marks of a finished chain in the unit's registers (R169–R172). -/
def Chip.chainMarks (c : Chip) (u flags stage elems : Nat) (nf ovf emp : Option (Nat × Nat)) : Chip :=
  let c := c.inc .VEC_CNT_CHAIN_COUNT u
  let seq := c.g .VEC_CNT_CHAIN_COUNT u % 2 ^ 48
  let c := c.wr .VEC_FLAG u (Word.ofNat (flags % 64 + stage % 8 * 2 ^ 8 + seq * 2 ^ 16))
  let c := c.orF .VEC_STICKY_FLAGS u (flags % 64)
  let c := ((c.wr .VEC_FPOS_NF u (posWord nf)).wr .VEC_FPOS_OVF u (posWord ovf)).wr .VEC_FPOS_EMPTY u (posWord emp)
  c.inc .VEC_CNT_ELEM_COUNT u elems

/-- A non-finite gradient-bearing output fails the step's gate (R45): its CVT has KIND G, or the mapping lists its tensor
with KIND G (DEDUCED, log entry 20). -/
def Chip.markNf (c : Chip) (p tensor : Nat) (kindG nf : Bool) : Chip :=
  if nf && (kindG || c.mapKindG p tensor) then c.setStep p { c.stepS p with nf := true } else c

/-- KIND of a chain's output tensor (R94). -/
def chKind (b : List Word) : Nat := match chCvt b with | some w => sgAxisKind w | none => 3

/-- The working-copy range that a chain may refresh now (R41, R361). -/
def Chip.chainExempt (c : Chip) (p cl : Nat) (b : List Word) : List (Nat × Nat) :=
  let s := c.seq cl
  if (chCvt b).isSome ∧ chKind b = 0 ∧ (s.phase = 7 ∨ s.epochMark) then
    match c.refreshSlot p (chTensor b) with | some r => [r] | none => []
  else []

/-- Bytes a chain reads from operand memory, for the meters (R165): its inputs, and the source a second time for VAR (R84). -/
def ChainFrame.readBytes (f : ChainFrame) : Nat :=
  ((f.reads ++ if (chReds f.b).any (fun w => sgFn w == 9) then f.stream 1 else []).map Prod.snd).sum

/-- Position of an element of a chain in the coordinates of the whole chain (R225). -/
def ChainFrame.whole (f : ChainFrame) (p : Nat × Nat) : Nat × Nat := (f.r0 + p.1, f.c0 + p.2)

/-- Position of a reduction's line in the coordinates of the whole chain: (i, 0), (0, j) or (0, 0) (R161, R225). -/
def ChainFrame.wholeLine (f : ChainFrame) (w : Word) (p : Nat × Nat) : Nat × Nat :=
  match sgAxisKind w with
  | 0 => (f.r0 + p.1, 0)
  | 1 => (0, f.c0 + p.2)
  | _ => (0, 0)

/-- Whether a chain would add to the census table (R164, R165). -/
def ChainJob.counts (k : ChainJob) : Bool := chDstEn k.body || (chCvt k.body).isSome

/-- A chain run on a unit, with the tile that feeds it: writes, census, reductions, flags, and its outcome for its
command (R141–R165). A chain that closes a poisoned group and reads no poison itself sets no POISON (DEDUCED, log entry
48). -/
def Chip.runChain (c : Chip) (u : Nat) (k : ChainJob) (tile : Option TileOut) : Chip :=
  let p := c.partOfCl k.cl
  let f := k.frame u
  let st := c.chainStatus u k
  let done (c : Chip) (m : Part) : Chip := if k.redo then c else c.partDone k.cl k.id m
  if st ≠ 0 then
    done (c.chainFailed u) { order := k.order, status := st }
  else
    let lanes := c.lanes p f tile
    let inc (r n : Nat) : Bool := ((lanes.getD r []).getD n none).isSome
    let srcBad := tile.isNone && (List.range f.rows).any (fun r => (List.range f.cols).any (fun n =>
      inc r n && c.streamBad f 1 (f.r0 + r) (f.c0 + n)))
    let src2Bad := chSrc2En f.b && (List.range f.rows).any (fun r => (List.range f.cols).any (fun n =>
      inc r n && c.streamBad f 3 (f.r0 + r) (f.c0 + n)))
    let memBad := c.sideBad f || srcBad || src2Bad
    let tf := match tile with | some t => t.flags | none => 0
    let poison := memBad || bit tf 4
    let e := c.elemOut p f lanes
    let x := c.unit u
    let reds := chReds f.b
    let rs := (List.range reds.length).map (fun j => redStage x k f lanes poison j (wordAt reds j))
    let nf := rs.foldl (fun a r => minPos a r.2.nf) e.nf
    let emp := rs.foldl (fun a r => minPos a r.2.emp) none
    let laneOvf : Option (Nat × Nat) × Nat :=
      match firstPos (fun _ _ (l : Option Lane) => match l with | some y => y.ovf.isSome | none => false) lanes with
      | some (r, n) => (some (r, n), match (lanes.getD r []).getD n none with | some y => y.ovf.getD 0 | none => 0)
      | none => (none, 0)
    let ovf := (List.range rs.length).foldl (fun a j => minTag a ((rs.getD j (none, {})).2.ovf, redStageNo f.b j))
      (minTag laneOvf (e.ovf, (chStages f.b).length - 1))
    let flags := flagsOf nf.isSome ovf.1.isSome false emp.isSome poison (bit tf 5)
    let elems := (lanes.map (fun r => (r.filter Option.isSome).length)).sum
    let c := (c.engRuns p 3 u e.runs poison (c.chainExempt p k.cl f.b)).meter p 11 f.readBytes
    let c := rs.foldl (fun c r => c.engRuns p 3 u r.2.runs r.2.poison []) c
    let step := c.step p
    let c := if k.counts ∧ 0 < f.rows ∧ 0 < f.cols then
        c.censAdd u { tensor := chTensor f.b, step := step, kind := chKind f.b, fmt := chDstFmt f.b, cen := e.cen } else c
    let c := match chCvt f.b with
      | some w => if sgFin w then c.censPostKey u (chTensor f.b) step else c
      | none => c
    let ax (w : Word) : Nat := redGroup (sgAxisKind w) k.tile
    let gone (s : RedState) : Bool := reds.any (fun w => s.dst == sgDst w && (
      if k.acc w then (match x.redOpen k w with | some o => s == o | none => false)
      else k.tile.isNone || s.id != k.id || s.grp == ax w))
    let c := c.setUnit u { c.unit u with
      reds := (c.unit u).reds.filter (fun s => !gone s) ++ rs.filterMap Prod.fst }
    let c := if memBad then c.consumePoison p 2 (match (c.seq k.cl).outst.find? (fun o => o.id == k.id) with
        | some o => hdrTag o.hdr | none => 0) (c.regionPlace (regionOfU u)) u 1 else c
    let c := c.markNf p (chTensor f.b) ((chCvt f.b).isSome && chKind f.b == 2) nf.isSome
    let c := c.chainMarks u flags ovf.2 elems nf ovf.1 emp
    let all (own : Option (Nat × Nat)) (g : RedOut → Option (Nat × Nat)) : Option (Nat × Nat) :=
      (List.range rs.length).foldl (fun a j => minPos a ((g (rs.getD j (none, {})).2).map (f.wholeLine (wordAt reds j)))) (own.map f.whole)
    done c { order := k.order, flags := flags, nf := all e.nf RedOut.nf, ovf := all (minTag laneOvf (e.ovf, 0)).1 RedOut.ovf
             emp := all none RedOut.emp, chk := (tile.bind TileOut.chk).map (f.r0 + ·) }

/-- The first chain of a unit's queue that no fused tile precedes. -/
def firstChain : List Job → Option ChainJob
  | [] => none
  | .chain k :: _ => some k
  | .tile t :: js => if t.fused.isSome then none else firstChain js

/-- The chain that a unit runs next with its tile, and the unit without it (R224): chains run in issue order. -/
def UnitS.nextChain (x : UnitS) : Option (ChainJob × Option TileOut × UnitS) :=
  let q := match x.run with
    | some r => if r.job.fused.isSome && r.kind == RunKind.train then none else firstChain x.queue
    | none => firstChain x.queue
  let drop (k : ChainJob) : UnitS := { x with queue := x.queue.erase (.chain k) }
  match x.vbuf, q with
  | some (o, k), some j => if j.id < k.id then some (j, none, drop j) else some (k, some o, { x with vbuf := none })
  | some (o, k), none => some (k, some o, { x with vbuf := none })
  | none, some j => some (j, none, drop j)
  | none, none => none

end Sys2Proof.Machine
end

