-- ==== Sys2Proof/Machine/Units.lean ====
section
/-! DEFINITION. Tiles and chains given to units, and units withdrawn (R120, R229–R231, R501). -/

namespace Sys2Proof.Machine

/-! ### Units available (R120, R230) -/

/-- A job put into a unit's queue at its place in issue order (R224). -/
def Chip.enqueue (c : Chip) (u : Nat) (j : Job) : Chip :=
  let x := c.unit u
  c.setUnit u { x with queue := insertBy (fun j => j.id * 2 ^ 64 + j.order) j x.queue }

/-! ### Reduction groups (R230, R231) -/

/-- Axis that binds the tiles of a fused chain to units: none without a reduction, 2 for one unit. -/
def bindAxis (b : List Word) : Option Nat :=
  match (chReds b).map sgAxisKind with
  | [] => none
  | a :: as => if as.all (· == a) then some a else some 2

/-- The group of tiles that a tile belongs to: its command and the group's number; none where nothing binds it. -/
def TileJob.group (t : TileJob) (body : List Word) : Option (Nat × Nat) :=
  (bindAxis body).map (fun a => (t.id, redGroup a (some t)))

/-- The group of a job. -/
def Job.group : Job → Option (Nat × Nat)
  | .tile t => match t.fused with | some b => t.group b | none => none
  | .chain k => match k.tile with | some t => t.group k.body | none => none

/-- Whether a RED stage of a chain leaves its destination open: none when it does not touch it. -/
def leavesOpen (b : List Word) (w : Word) : Option Bool :=
  (((chReds b).filter (fun v => sgDst v == sgDst w)).getLast?).map
    (fun v => !sgFin v && sgFn v == sgFn w && sgAxisKind v == sgAxisKind w)

/-- Chain bodies that a unit has still to run, in order. -/
def UnitS.bodies (x : UnitS) : List (List Word) :=
  (match x.vbuf with | some (_, k) => [k.body] | none => [])
    ++ (match x.run with | some r => (match r.job.fused with | some b => [b] | none => []) | none => [])
    ++ x.queue.filterMap (fun j => match j with | .tile t => t.fused | .chain k => some k.body)

/-- Whether a unit holds the open state of a stage's destination once its queued work has run (R230). -/
def UnitS.holdsOpen (x : UnitS) (w : Word) : Bool :=
  x.bodies.foldl (fun o b => (leavesOpen b w).getD o)
    (x.reds.any (fun s => s.dst == sgDst w && s.rfn == sgFn w && s.axis == sgAxisKind w))

/-- The unit of a CHAIN with a memory source: that of its open state when a RED stage has ACC = 1, none when its stages
name two or no unit; else the lightest available one. -/
def Chip.chainUnit (c : Chip) (cl : Nat) (b : List Word) : Option Nat :=
  let accs := (chReds b).filter sgAcc
  if accs.isEmpty then c.lightest (c.available cl)
  else
    match (unitsOf cl).filter (fun u => accs.any (fun w => (c.unit u).holdsOpen w)) with
    | [u] => if accs.all (fun w => (c.unit u).holdsOpen w) then some u else none
    | _ => none

/-! ### Giving jobs to units (R229, R230) -/

/-- What the placing of a list of jobs remembers: the unit of each group, and the units that hold slices of the tile it
places. -/
structure Placing where
  chip : Chip
  groups : List ((Nat × Nat) × Nat) := []
  tile : Option (Nat × Nat × Nat) := none
  used : List Nat := []

/-- A combining entry opened at a unit for a tile in intra-cluster slices, in issue order (R113, R229). -/
def Chip.openComb (c : Chip) (u : Nat) (t : TileJob) : Chip :=
  let k : Comb := { pid := t.id, i := t.i, j := t.j, ns := mmKsplit t.mm, owner := some { t with u := u } }
  let key (k : Comb) : Nat := match k.owner with | some t => t.id * 2 ^ 64 + t.order | none => 0
  { c with combs := sset [] c.combs (16 + u) (insertBy key k (sget [] c.combs (16 + u))) }

/-- The unit of a group already placed, else the one picked. -/
def Placing.unitOf (s : Placing) (g : Option (Nat × Nat)) (pick : Option Nat) : Option Nat :=
  match g with
  | some k => match s.groups.find? (fun x => x.1 == k) with | some x => some x.2 | none => pick
  | none => pick

/-- One tile given to a unit: the unit of its group, for a further slice a unit not yet used by the tile while there is
one, else the lightest. -/
def Placing.tileTo (s : Placing) (av : List Nat) (t : TileJob) : Placing :=
  let me := (t.id, t.i, t.j)
  let used := if s.tile = some me then s.used else []
  let g := if t.ks = 0 then Job.group (.tile t) else none
  let free := av.filter (fun u => !used.contains u)
  let pick := s.chip.lightest (if free.isEmpty then av else free)
  let u := s.unitOf g pick
  match u with
  | none => s
  | some u =>
    let t := { t with u := u }
    let c := s.chip.enqueue u (.tile t)
    let c := if t.ks = 0 ∧ 1 < mmKsplit t.mm then c.openComb u t else c
    { chip := c
      groups := match g with | some k => (k, u) :: s.groups | none => s.groups
      tile := some me, used := u :: (if free.isEmpty then [] else used) }

/-- One chain given to a unit: with its group, or by its open state, else the lightest. -/
def Placing.chainTo (s : Placing) (av : List Nat) (k : ChainJob) : Placing :=
  let g := Job.group (.chain k)
  let pick := if k.tile.isSome then s.chip.lightest av else
    match s.chip.chainUnit k.cl k.body with
    | some u => some u
    | none => s.chip.lightest av
  let u := s.unitOf g pick
  match u with
  | none => s
  | some u =>
    { s with
      chip := s.chip.enqueue u (.chain { k with tile := k.tile.map (fun t => { t with u := u }) })
      groups := match g with | some x => (x, u) :: s.groups | none => s.groups }

/-- Jobs of a sequencer given to its available units in order; with none available they are held and the sequencer halts
with cause NO_UNIT (R230). -/
def Chip.place (c : Chip) (cl : Nat) (js : List Job) : Chip :=
  let av := c.available cl
  if js.isEmpty then c
  else if av.isEmpty then c.setSeq cl { c.seq cl with held := (c.seq cl).held ++ js, halt := 4 }
  else (js.foldl (fun (s : Placing) j => match j with | .tile t => s.tileTo av t | .chain k => s.chainTo av k) { chip := c }).chip

/-- The held tiles of a sequencer given to units again, once one is available (R230, R250). -/
def Chip.placeHeld (c : Chip) (cl : Nat) : Chip :=
  let js := (c.seq cl).held
  if (c.available cl).isEmpty then c else (c.setSeq cl { c.seq cl with held := [] }).place cl js

/-! ### Withdrawal (R120, R230) -/

/-- All slices of the tile that a job belongs to. -/
def TileJob.slices (t : TileJob) : List TileJob :=
  (List.range (mmKsplit t.mm)).map (fun s => { t with ks := s, order := t.order + 2 * s - 2 * t.ks })

/-- Whether two jobs belong to one tile. -/
def TileJob.same (a b : TileJob) : Bool := a.cl == b.cl && a.id == b.id && a.i == b.i && a.j == b.j

/-- What is already counted of slice s of a tile that combines at unit u: of its queued or running job, of its partial
in flight, or of a partial delivered. -/
def Chip.sliceCounted (c : Chip) (u : Nat) (k : Comb) (t : TileJob) : Nat :=
  let hit (x : TileJob) : Bool := x.same t && x.ks == t.ks && !bit x.redo 4
  let q := (unitsOf t.cl).flatMap (fun v => (c.unit v).queue.filterMap (fun j => match j with
    | .tile x => if hit x then some x.redo else none | .chain _ => none))
  let r := (unitsOf t.cl).filterMap (fun v => match (c.unit v).run with
    | some x => if x.kind == RunKind.train && hit x.job then some x.job.redo else none | none => none)
  let f := (c.partials.filter (fun x => x.point == 16 + u && hit x.job)).map (fun x => x.job.redo ||| 1)
  match (q ++ r ++ f).head? with
  | some n => n
  | none => if t.ks < k.next ∨ k.held.any (fun x => x.1 == t.ks) then t.redo ||| 3 else t.redo

/-- The tiles that combine at a unit, with all their slices. -/
def Chip.combTiles (c : Chip) (u : Nat) : List TileJob :=
  (sget [] c.combs (16 + u)).flatMap (fun k => match k.owner with
    | some t => t.slices.map (fun s => { s with redo := c.sliceCounted u k s })
    | none => [])

/-- Work of the open reductions of a unit, to be done again from the first tile of each group (R157). -/
def UnitS.redWork (x : UnitS) : List Job :=
  (x.reds.flatMap RedState.work).foldl (fun acc j => if acc.any (fun a => a.id == j.id && a.order == j.order) then acc else acc ++ [j]) []

/-- A chain already run as the job that runs it again: its tile with all slices, or the chain itself. -/
def again (n : Nat) (k : ChainJob) : List Job :=
  match k.tile with
  | some t => if mmM t.mm = 0 ∨ mmN t.mm = 0 then [.chain { k with redo := true }]
    else (TileJob.slices { t with fused := some k.body }).map (fun s => .tile { s with redo := n + (if k.redo then 8 else 0) })
  | none => [.chain { k with redo := true }]

/-- A running training tile marked as discarded where the test holds. -/
def Chip.discardRuns (c : Chip) (cl : Nat) (p : TileJob → Bool) : Chip :=
  (unitsOf cl).foldl (fun c u =>
    let x := c.unit u
    match x.run with
    | some r => if r.kind = .train ∧ p r.job then
        c.setUnit u { x with run := some { r with job := { r.job with redo := r.job.redo ||| 16 } }, hold := false } else c
    | none => c) c

/-- The lowest-numbered unit in service of cluster (c + 1) mod 8 of a unit's region, then of (c + 2) mod 8, and so on,
never of the unit's own cluster (R501). -/
def Chip.arbUnit (c : Chip) (u : Nat) : Option Nat :=
  let r := regionOfU u
  let k := clOfU u % 8
  ((rangeFrom 1 7).flatMap (fun d => unitsOf (8 * r + (k + d) % 8))).find? c.inService

/-- Arbitration and rewrite work that waits on a withdrawn unit, given to the unit that R501 names now. -/
def Chip.moveAhead (c : Chip) (u : Nat) : Chip :=
  let l := (c.unit u).ahead
  l.foldl (fun c r =>
    let v := c.arbUnit r.job.u
    let move (a : Arb) : Arb :=
      if a.job ≠ r.job then a
      else if r.kind = .rewrite then (if a.rewr = some u then { a with rewr := v } else a)
      else if a.unit = some u then { a with unit := v } else a
    let c := { c with arbs := c.arbs.map move }
    match v with
    | some v => c.setUnit v { c.unit v with ahead := (c.unit v).ahead ++ [r] }
    | none => c) (c.setUnit u { c.unit u with ahead := [] })

/-- Contracted length of a Solver tile. -/
def STile.k (t : STile) : Nat := (t.rows.headD []).length

/-- A Solver tile before its first pass: three passes a chunk (R80, R328). -/
def STile.fresh (t : STile) : STile := { t with left := max 1 (3 * cdiv t.k 32), wbits := 0, seed := none }

/-- The generator step of a Solver tile that runs no test taken back, unless another tile has used the generator since
(R116; DESIGN CHOICE, log entry 50). -/
def Chip.unseed (c : Chip) (u : Nat) (t : STile) : Chip :=
  match t.seed with
  | some s => if (c.rd .MXE_CKSEED u).toNat = t.wbits then c.wr .MXE_CKSEED u (Word.ofNat s) else c
  | none => c

/-- A Solver tile of a unit given back to its solve, to run again from its start unless the solve has ended (R334, R346). -/
def Chip.returnTile (c : Chip) (u : Nat) (t : STile) : Chip :=
  let c := c.unseed u t
  let r := regionOfU u
  let x := sget {} c.solvers r
  let back (v : Solve) : Solve :=
    if v.ticket = t.ticket ∧ v.lent ≠ 0 then
      { v with lent := v.lent - 1
               todo := if v.stage = .ended ∨ v.stage = .recorded then [] else t.fresh :: v.todo }
    else v
  { c with solvers := sset {} c.solvers r { x with slots := x.slots.map back } }

/-- The Solver tile in bank S of a withdrawn unit is abandoned: it goes back to its solve (R328, R346). -/
def Chip.dropBankS (c : Chip) (u : Nat) : Chip :=
  match (c.unit u).bankS with
  | none => c
  | some t => (c.setUnit u { c.unit u with bankS := none }).returnTile u t

/-- A unit withdrawn: its queued tiles and chains move, the reduction groups begun on it and the sliced tiles that combine
on it are re-issued whole (R120, R157, R230). -/
def Chip.withdraw (c : Chip) (u : Nat) : Chip :=
  let c := (c.moveAhead u).dropBankS u
  let cl := clOfU u
  let x := c.unit u
  let combT := c.combTiles u
  let inComb (t : TileJob) : Bool := combT.any t.same
  let bufG := match x.vbuf with | some (_, k) => Job.group (.chain k) | none => none
  let runT := match x.run with
    | some r => if r.kind = .train ∧ !bit r.job.redo 4 ∧ (Job.group (.tile r.job)).isSome ∧ r.job.ks = 0 then some r.job else none
    | none => none
  let fromBuf := match x.vbuf with | some (_, k) => if bufG.isSome then again 7 k else [] | none => []
  let fromRun := match runT with | some t => if inComb t then [] else [Job.tile t] | none => []
  let js := x.queue.filter (fun j => match j with | .tile t => !inComb t | .chain _ => true)
    ++ (x.redWork.flatMap (fun j => match j with | .chain k => again 7 k | j => [j]))
    ++ fromBuf ++ fromRun ++ combT.map Job.tile
  let c := c.discardRuns cl (fun t => inComb t || (match runT with | some r => t == r | none => false))
  let c := c.setUnit u { c.unit u with
    queue := [], reds := [], vbuf := if bufG.isSome then none else x.vbuf }
  let c := (unitsOf cl).foldl (fun c v => c.setUnit v { c.unit v with
    queue := (c.unit v).queue.filter (fun j => match j with | .tile t => !inComb t | .chain _ => true) }) c
  let c := { c with
    combs := sset [] c.combs (16 + u) []
    partials := c.partials.filter (fun q => q.point != 16 + u) }
  c.place cl (sortBy (fun j => j.id * 2 ^ 64 + j.order) js)

/-- A unit's bits added to the health record (R602). -/
def Chip.recordUnit (c : Chip) (u : Nat) : Chip :=
  let h := c.flash.health.getD {}
  { c with flash := { c.flash with health := some { h with units := sset 0 h.units u ((c.rd .MXE_HEALTH u).toNat % 4) } } }

/-- A health bit set: counted, reported, the unit withdrawn (R120, R131, R497). A bit that is set stays so. -/
def Chip.setHealth (c : Chip) (u : Nat) (f : Fld) (counter : Nat) : Chip :=
  if c.on f u then c
  else
    let c := ((c.set1 f u).recordUnit u).inc .INT_CNT_COUNT 0 1 counter
    let c := c.postFault { cls := 0x15, place := c.regionPlace (regionOfU u), loc := u, lockind := 1,
                           detail := [(c.rd .MXE_HEALTH u).toNat % 4] }
    c.withdraw u

/-- HEALTH_SET (R131): Ringmaster sets QUAR (bit 0) or CKDEG (bit 1) of a unit. -/
def execHealthSet (u bits : Nat) (s : State) : Host.Outcome State Fault Refusal :=
  nextChip s (fun c =>
    let c := if bit bits 0 then c.setHealth u .MXE_HEALTH_QUAR 3 else c
    if bit bits 1 then c.setHealth u .MXE_HEALTH_CKDEG 2 else c)

end Sys2Proof.Machine
end

