-- ==== Sys2Proof/Machine/Matrix.lean ====
section
/-! DEFINITION. The matrix engine: tiles completed, partials combined, checksum failures arbitrated (R101–R138, R501,
R502, R656). -/

namespace Sys2Proof.Machine

/-! ### Starting a tile (R115, R116, R123) -/

/-- Weight bits of a tile that runs a test, with the generator advanced under W_MODE 0 and 3. -/
def Chip.weightBits (c : Chip) (u : Nat) : Nat × Chip :=
  match c.g .MXE_CTL_W_MODE u with
  | 1 => (0, c)
  | 2 => ((c.rd .MXE_CKPAT u).toNat, c)
  | _ => let s := ckStep (c.rd .MXE_CKSEED u).toNat; (s, c.wr .MXE_CKSEED u (Word.ofNat s))

/-- Whether a tile will run a checksum test: its status is OK and nothing it reads is poisoned (R114, R116). -/
def Chip.willTest (c : Chip) (t : TileJob) : Bool := c.tileStatus t == 0 && !c.tilePoison t

/-- A training tile put into the array of a unit. -/
def Chip.beginTile (c : Chip) (u : Nat) (t : TileJob) : Chip :=
  let (wb, c) := if c.willTest t then c.weightBits u else (0, c)
  c.setUnit u { c.unit u with run := some { kind := .train, job := t, wbits := wb } }

/-- The unit's next matrix work of its sequencer or of arbitration, put into the array: an arbitration tile or a rewrite
run first, then the tile at the head of the queue (R119, R123, R224). None when it has none, or is out of service (R120). -/
def Chip.startTile (c : Chip) (u : Nat) : Option Chip :=
  let x := c.unit u
  if ¬ c.inService u then none
  else match x.ahead with
  | r :: rs => some (c.setUnit u { x with ahead := rs, run := some r })
  | [] =>
    match x.queue with
    | .tile t :: js => some ((c.setUnit u { x with queue := js }).beginTile u t)
    | _ => none

/-! ### Registers of a tile that completes (R121, R132–R137) -/

/-- The `MXE_TFLAG` word of a tile. -/
def tflagWord (o : TileOut) (seq : Nat) : Word :=
  let pos (p : Option (Nat × Nat)) (a b : Nat) : Nat := match p with | some (r, n) => r % 64 * 2 ^ a + n % 32 * 2 ^ b | none => 0
  Word.ofNat (o.flags % 64 + pos o.nf 8 14 + pos o.ovf 19 25 + pos o.unf 30 36 + o.chk.getD 0 % 64 * 2 ^ 41
    + seq % 2 ^ 16 * 2 ^ 48)

/-- r, ĉ and T of a tested row. -/
def rowVals (tests : List RowTest) (r : Nat) : FVal × FVal × FVal :=
  match tests[r]? with
  | some (.tested x y t _) => (x, y, t)
  | _ => (.zero, .zero, .zero)

/-- The `MXE_CKLOG` word of a failing test. -/
def cklogWord (tests : List RowTest) (row : Nat) (solver injected : Bool) (seq : Nat) : Word :=
  let (r, ch, _) := rowVals tests row
  Word.ofNat (row % 64 + b2n solver * 2 ^ 6 + b2n injected * 2 ^ 7 + seq % 2 ^ 16 * 2 ^ 8
    + encodeF fp32 (roundF fp32 .rne (diffV r ch)) * 2 ^ 32)

/-- Rows left untested because only the column's value is non-finite. -/
def untestedRows (tests : List RowTest) : Nat := (tests.filter (fun t => t == .untested)).length

/-- Tested rows of a tile: (row, r, ĉ, T). -/
def testedRows (tests : List RowTest) : List (Nat × FVal × FVal × FVal) :=
  (List.range tests.length).filterMap (fun (i : Nat) => match tests[i]? with | some (RowTest.tested r ch t _) => some (i, r, ch, t) | _ => none)

/-- A training or arbitration tile of status OK entered in its unit's registers. -/
def Chip.tileRegs (c : Chip) (u : Nat) (o : TileOut) (tests : List RowTest) (injected : Bool) : Chip :=
  let c := c.inc .MXE_CNT_TILE_COUNT u
  let seq := c.g .MXE_CNT_TILE_COUNT u
  let c := (c.wr .MXE_TFLAG u (tflagWord o seq)).orF .MXE_STICKY_FLAGS u (o.flags % 64)
  let c := c.inc .MXE_CNT_UNTESTED_COUNT u (untestedRows tests)
  match o.chk with
  | some row => (c.inc .MXE_CNT_CHK_COUNT u).wr .MXE_CKLOG u (cklogWord tests row false injected seq)
  | none => c

/-- Meter of a tile's multiply-accumulates and their count (R127). -/
def TileJob.macs (t : TileJob) : Nat × Nat :=
  let sp := mmSparse t.mm
  let dense : Nat := match t.mode with
    | 0 => 0
    | 3 => 1
    | 2 => 4
    | _ => if mmFa t.mm = 3 then 3 else 2
  let m := if sp = 0 then dense else match dense with | 0 => 5 | 2 => 6 | 3 => 7 | _ => 8
  (m, if sp = 0 then t.mt * t.nt * t.kt else t.mt * t.nt * 2 * cdiv t.kt 4)

/-- What a tile adds to its partition's meters: multiply-accumulates and bytes read on chip (R127, R546). -/
def Chip.tileMeters (c : Chip) (t : TileJob) : Chip :=
  let p := c.partOfCl t.cl
  (c.meter p t.macs.1 t.macs.2).meter p 11 ((t.reads.map Prod.snd).sum)

/-! ### Output to memory (R111, R112, R114, R164) -/

/-- Census counts of the written elements of a tile; with K = 0 only the zeros (R89). -/
def Chip.tileCensus (c : Chip) (t : TileJob) (o : TileOut) : Census :=
  let cells := (List.range o.rows.length).flatMap (fun r =>
    (List.range (o.rows.getD r []).length).filterMap (fun n =>
      if c.writesElem t r n then some (cenOf ((o.rows.getD r []).getD n .zero) ((o.rows.getD r []).getD n .zero)) else none))
  let k := cells.foldl Census.add {}
  if o.deep then { k with under := k.under + o.under } else { zero := k.zero }

/-- A tile's output written to its FP32 tensor by a writer (2 matrix engine, 4 combining point), with its census. -/
def Chip.writeTile (c : Chip) (writer : Nat) (t : TileJob) (o : TileOut) : Chip :=
  let p := c.partOfCl t.cl
  let row (r : Nat) : List (Nat × List FVal) :=
    runsOf 0 ((List.range (o.rows.getD r []).length).map (fun n =>
      if c.writesElem t r n then some ((o.rows.getD r []).getD n .zero) else none))
  let runs := (List.range o.rows.length).flatMap (fun r => (row r).map (fun x =>
    (mmOut t.mm + (64 * t.i + r) * mmOutStride t.mm + 128 * t.j + 4 * x.1, x.2.flatMap (fun v => leBytes 4 (encodeF fp32 v)))))
  let cen := c.tileCensus t o
  let c := c.engRuns p writer t.u runs (bit o.flags 4) []
  let c := c.censAdd t.u { tensor := mmTensor t.mm, step := c.step p, kind := 3, fmt := 1, cen := cen }
  c.markNf p (mmTensor t.mm) false o.nf.isSome

/-! ### Failed tiles of a fused pair (R657) -/

/-- The reduction groups of a failed tile deliver nothing: each stays or becomes an open state that is dead, or ends with
its last tile. -/
def Chip.deadGroups (c : Chip) (u : Nat) (t : TileJob) (body : List Word) : Chip :=
  let k : ChainJob := { cl := t.cl, id := t.id, order := t.order + 1, body := body, tile := some t, redo := false }
  (chReds body).foldl (fun c w =>
    let x := c.unit u
    let g := redGroup (sgAxisKind w) (some t)
    let mine (s : RedState) : Bool := s.dst == sgDst w && s.id == t.id && s.grp == g
    let old := x.reds.find? mine
    let st : RedState := match old with
      | some s => { s with dead := true }
      | none => { dst := sgDst w, rfn := sgFn w, axis := sgAxisKind w, id := t.id, grp := g, lines := [], base := 0,
                  poison := false, dead := true, work := [] }
    let rest := x.reds.filter (fun s => !mine s)
    c.setUnit u { x with reds := if k.fin w then rest else rest ++ [{ st with work := st.work ++ t.slices.map (fun s => .tile { s with redo := 15 }) }] }) c

/-! ### Combining points (R81, R82, R113, R656) -/

/-- Sum of two partials element by element, with the flags and first positions of both and of the additions over the
elements written; additions of slices with K = 0 alone set none (R89). -/
def Chip.addTiles (c : Chip) (t : TileJob) (a b : TileOut) : TileOut :=
  let sums := (List.range a.rows.length).map (fun r => (List.range (a.rows.getD r []).length).map (fun n =>
    addO fp32 ((a.rows.getD r []).getD n .zero, false) ((b.rows.getD r []).getD n .zero, false)))
  let deep := a.deep || b.deep
  let wr (r n : Nat) : Bool := deep && c.writesElem t r n
  let nf := firstPos (fun r n (x : FO) => wr r n && !x.1.isFin) sums
  let ovf := firstPos (fun r n (x : FO) => wr r n && x.2) sums
  { rows := sums.map (fun r => r.map Prod.fst)
    flags := a.flags ||| b.flags ||| flagsOf nf.isSome ovf.isSome false false false false
    nf := minPos nf (minPos a.nf b.nf), ovf := minPos ovf (minPos a.ovf b.ovf), unf := minPos a.unf b.unf
    chk := minOpt a.chk b.chk, under := a.under + b.under, deep := deep }

/-- The next partial added to an output. -/
def Chip.combAdd (c : Chip) (k : Comb) (t : TileJob) (s : Nat) (d : Option TileOut) : Comb :=
  match d with
  | none => { k with next := k.next + 1, failed := minOpt k.failed (some s) }
  | some o => { k with next := k.next + 1, total := some (match k.total with | some x => c.addTiles t x o | none => o) }

/-- Held partials added while the next one is among them. -/
def Chip.combDrain (c : Chip) (t : TileJob) : Nat → Comb → Comb
  | 0, k => k
  | n + 1, k =>
    match k.held.find? (fun x => x.1 == k.next) with
    | some (s, d) => c.combDrain t n (c.combAdd { k with held := k.held.filter (fun x => x.1 != s) } t s d)
    | none => k

/-- The positions of a tile's flags in the coordinates of the whole product (R225). -/
def tilePart (t : TileJob) (order status : Nat) (o : Option TileOut) (detail : Nat) : Part :=
  match o with
  | none => { order := order, status := status, detail := detail }
  | some o =>
    let sh (p : Option (Nat × Nat)) : Option (Nat × Nat) := p.map (fun x => (64 * t.i + x.1, 32 * t.j + x.2))
    { order := order, status := status, flags := o.flags, nf := sh o.nf, ovf := sh o.ovf, unf := sh o.unf,
      chk := o.chk.map (64 * t.i + ·), detail := detail }

/-- A counted effect of a command, once: not when a re-issued tile has counted it already (R230). -/
def Chip.count (c : Chip) (t : TileJob) (b : Nat) (m : Part) (n : Nat := 1) : Chip :=
  if bit t.redo b ∨ bit t.redo 4 then c else c.partDone t.cl t.id m n

/-- An output that has received every partial: written, fed to its chain, or left unwritten (R82, R656). Its own BAD_ADDR
stands after its slices in tile order (R657), SLICE_FAIL after every status of the command's own (R656). -/
def Chip.combEmit (c : Chip) (k : Comb) : Chip :=
  match k.owner with
  | none => c
  | some t =>
    match k.failed, k.total with
    | none, some o =>
      let st := chk (mmDest t.mm == 1 || t.writes.all (fun r => c.opWritable t.u r.1 r.2)) stBadAddr
      if st ≠ 0 then c.count t 2 (tilePart t (t.order + 2 * mmKsplit t.mm - 2) st none 0)
      else
        match t.fused with
        | some b =>
          let job : ChainJob := { cl := t.cl, id := t.id, order := t.order + 2 * mmKsplit t.mm - 1, body := b, tile := some t, redo := bit t.redo 3 }
          (c.setUnit t.u { c.unit t.u with vbuf := some (o, job) }).count t 2 (tilePart t t.order 0 (some o) 0)
        | none => (c.writeTile 4 t o).count t 2 (tilePart t t.order 0 (some o) 0)
    | some s, _ =>
      let st := if mmDest t.mm = 2 ∧ s ≠ 0 then stSliceFail else stOK
      let c := match t.fused with
        | some b => (c.deadGroups t.u t b).count t 3 (tilePart t t.order 0 none 0)
        | none => c
      c.count t 2 (tilePart t (t.order + 2 ^ 80) st none (if st = stSliceFail then s else 0))
    | none, none => c

/-- Reorder storage of a combining point: outputs open at once, early partials held (R113). -/
def combLimits (point : Nat) : Nat × Nat := if 16 ≤ point then (1, 3) else (8, 32)

/-- Whether a partial belongs to an output. -/
def Partial.isOf (q : Partial) (k : Comb) : Bool := q.pid == k.pid && q.i == k.i && q.j == k.j

/-- Whether an output that has every partial must wait for the vector engine's input buffer (R140). -/
def Chip.combWaits (c : Chip) (k : Comb) : Bool :=
  match k.owner with
  | some t => k.failed.isNone && t.fused.isSome && (c.unit t.u).vbuf.isSome
  | none => false

/-- The first output of a unit's combining point goes out when it is complete and the input buffer is free. -/
def Chip.combWake (c : Chip) (u : Nat) : Chip :=
  match sget [] c.combs (16 + u) with
  | k :: rest =>
    if k.next < k.ns ∨ c.combWaits k then c
    else ({ c with combs := sset [] c.combs (16 + u) rest }).combEmit k
  | [] => c

/-- A partial accepted by its combining point; none when it is refused: the point works on as many other outputs as it
can, or the partial is early and the storage is full. The one an output waits for is always accepted; a complete output whose
chain cannot take it yet stays open (R113). -/
def Chip.arrive (c : Chip) (q : Partial) : Option Chip :=
  let l := sget [] c.combs q.point
  let (nopen, store) := combLimits q.point
  let unit := decide (16 ≤ q.point)
  let found := (if unit then l.take 1 else l).find? q.isOf
  let fresh : Comb := { pid := q.pid, i := q.i, j := q.j, ns := q.ns }
  let k? : Option Comb := match found with
    | some k => some k
    | none => if unit ∨ nopen ≤ l.length then none else some fresh
  match k? with
  | none => none
  | some k =>
    let heldNow := (if unit then l.take 1 else l).foldl (fun n x => n + x.held.length) 0
    let k := if q.slice = 0 then { k with owner := some q.job } else k
    if q.slice ≠ k.next ∧ store ≤ heldNow then none
    else
      let k' := if q.slice = k.next then c.combDrain q.job 256 (c.combAdd k q.job q.slice q.data)
        else { k with held := k.held ++ [(q.slice, q.data)] }
      let rest := l.filter (fun x => !q.isOf x)
      let c := c.count q.job 1 { order := q.job.order }
      if k'.ns ≤ k'.next ∧ ¬ c.combWaits k' then some (({ c with combs := sset [] c.combs q.point rest }).combEmit k')
      else
        let l' := if found.isSome then l.map (fun x => if q.isOf x then k' else x) else l ++ [k']
        some { c with combs := sset [] c.combs q.point l' }

/-- PARTIAL_ARRIVAL (R82, R113, R656): partial n in flight reaches its combining point; a refused one stays in flight. -/
def execPartialArrival (n : Nat) (s : State) : Host.Outcome State Fault Refusal :=
  nextChip s (fun c =>
    match c.partials[n]? with
    | none => c
    | some q => (({ c with partials := c.partials.eraseIdx n }).arrive q).getD c)

/-! ### Tiles that complete (R118–R121, R138) -/

/-- The upset of an armed injection that applies to a tile (R138). -/
def Chip.injection (c : Chip) (u : Nat) (t : TileJob) : Option Upset :=
  let row := c.g .MXE_INJ_ROW u
  let col := c.g .MXE_INJ_COL u
  let ck := c.on .MXE_INJ_CKCOL u
  if c.on .MXE_INJ_ARM u ∧ c.runs (c.partOfCl (clOfU u)) ∧ row < t.mt ∧ (ck ∨ col < t.nt) then
    some { row := row, col := col, ckcol := ck, bit := c.g .MXE_INJ_BIT u }
  else none

/-- ARM clears and FIRED sets once an injection has taken place (R138). -/
def Chip.injected (c : Chip) (u : Nat) (i : Option Upset) : Chip :=
  if i.isSome then (c.put .MXE_INJ_ARM u 0).set1 .MXE_INJ_FIRED u else c

/-- TAG of a command of a sequencer, 0 once it is gone. -/
def Chip.tagOf (c : Chip) (cl id : Nat) : Nat :=
  match (c.seq cl).outst.find? (fun o => o.id == id) with | some o => hdrTag o.hdr | none => 0

/-- A tile of a unit that consumed poison: its job's gate fails, with a POISON_USED record (R114, R504, R505). -/
def Chip.tileUsedPoison (c : Chip) (u : Nat) (t : TileJob) : Chip :=
  c.consumePoison (c.partOfCl t.cl) 1 (c.tagOf t.cl t.id) (c.regionPlace (regionOfU u)) u 1

/-- Arbitration begun for a tile that failed its test: its completion held, an arbitration tile ahead of the queue of the
unit that R501 names. -/
def Chip.arbitrate (c : Chip) (u : Nat) (r : Running) (o : TileOut) (tests : List RowTest) (injected : Bool) : Chip :=
  let v := c.arbUnit u
  let a : Arb := { region := regionOfU u, orig := u, job := r.job, wbits := r.wbits, injected := injected
                   rows := testedRows tests, held := o, unit := v, time := c.now, seq := c.g .MXE_CNT_TILE_COUNT u % 2 ^ 16 }
  let c := { c with arbs := c.arbs ++ [a] }
  let c := (c.inc .INT_CNT_COUNT 0 1 1).set1 .INT_STAT_ARB_OPEN (c.partOfCl r.job.cl)
  match v with
  | some v => c.setUnit v { c.unit v with ahead := (c.unit v).ahead ++ [{ r with kind := .arb }] }
  | none => c

/-- A tile's output sent where its descriptor names: memory, its chain, its combining point. -/
def Chip.tileOutput (c : Chip) (u : Nat) (t : TileJob) (o : TileOut) : Chip :=
  let s := mmKsplit t.mm
  let stop := c.isCancelled t.cl t.id || bit t.redo 4
  if mmDest t.mm = 2 ∨ 1 < s then
    if stop then c
    else
      let q : Partial :=
        if mmDest t.mm = 2 then { point := mmCreg t.mm, pid := mmPid t.mm, i := t.i, j := t.j, ns := mmNslice t.mm, slice := mmSlice t.mm, data := some o, job := t }
        else
          let point := match (unitsOf t.cl).find? (fun v => (sget [] c.combs (16 + v)).any (fun k => k.pid == t.id && k.i == t.i && k.j == t.j)) with
            | some v => 16 + v | none => 16 + u
          { point := point, pid := t.id, i := t.i, j := t.j, ns := s, slice := t.ks, data := some o, job := t }
      { c with partials := c.partials ++ [q] }
  else
    match t.fused with
    | some b =>
      if stop then c
      else c.setUnit u { c.unit u with vbuf := some (o, { cl := t.cl, id := t.id, order := t.order + 1, body := b, tile := some t, redo := bit t.redo 3 }) }
    | none => if bit t.redo 4 then c else c.writeTile 2 t o

/-- A tile that ends with a status other than OK: BAD_DESC, its status, a failed partial, a chain that does not run
(R132, R656, R657). -/
def Chip.tileFailed (c : Chip) (u : Nat) (t : TileJob) (st : Nat) : Chip :=
  let c := c.set1 .MXE_STICKY_BAD_DESC u
  let s := mmKsplit t.mm
  let c := c.count t 0 { order := t.order, status := st }
  if c.isCancelled t.cl t.id ∨ bit t.redo 4 then c
  else if mmDest t.mm = 2 then
    { c with partials := c.partials ++ [{ point := mmCreg t.mm, pid := mmPid t.mm, i := t.i, j := t.j, ns := mmNslice t.mm, slice := mmSlice t.mm, data := none, job := t }] }
  else if 1 < s then
    let point := match (unitsOf t.cl).find? (fun v => (sget [] c.combs (16 + v)).any (fun k => k.pid == t.id && k.i == t.i && k.j == t.j)) with
      | some v => 16 + v | none => 16 + u
    { c with partials := c.partials ++ [{ point := point, pid := t.id, i := t.i, j := t.j, ns := s, slice := t.ks, data := none, job := t }] }
  else
    match t.fused with
    | some b => (c.deadGroups u t b).count t 3 { order := t.order + 1 }
    | none => c

/-- A training tile that completes on a unit. -/
def Chip.trainEnd (c : Chip) (u : Nat) (r : Running) (ups : List Upset) : Chip :=
  let t := r.job
  let c := c.setUnit u { c.unit u with run := none }
  let st := c.tileStatus t
  if st ≠ 0 then c.tileFailed u t st
  else
    let inj := c.injection u t
    let (o, tests) := c.evalTile t false r.wbits (ups ++ inj.toList)
    let bad := c.tilePoison t
    let o := if bad then { o with flags := o.flags ||| 16 } else o
    let c := c.injected u inj
    let c := (c.tileRegs u o tests inj.isSome).tileMeters t
    let c := if bad then c.tileUsedPoison u t else c
    let c := (c.pressCapture (c.partOfCl t.cl) t).tileOutput u t o
    if o.chk.isSome then c.arbitrate u r o tests inj.isSome
    else c.count t 0 (tilePart t t.order 0 (some o) 0)

/-- An arbitration tile that completes on a unit: its registers, and what it found for the arbitration (R119, R501). -/
def Chip.arbEnd (c : Chip) (u : Nat) (r : Running) (ups : List Upset) : Chip :=
  let t := r.job
  let c := c.setUnit u { c.unit u with run := none }
  let upd (c : Chip) (res : Bool × List (Nat × FVal × FVal × FVal)) : Chip :=
    { c with arbs := c.arbs.map (fun a => if a.unit = some u ∧ a.job = t ∧ a.arbRows.isNone then { a with arbRows := some res } else a) }
  if c.tileStatus t ≠ 0 then upd (c.set1 .MXE_STICKY_BAD_DESC u) (false, [])
  else
    let (o, tests) := c.evalTile t true r.wbits ups
    let bad := c.tilePoison t
    let o := if bad then { o with flags := o.flags ||| 16 } else o
    let inj := (c.arbs.find? (fun a => decide (a.unit = some u ∧ a.job = t))).map Arb.injected
    let c := (c.tileRegs u o tests (inj.getD false)).tileMeters t
    let c := if bad then c.tileUsedPoison u t else c
    upd c (o.chk.isNone && !bad, testedRows tests)

/-- TILE_COMPLETE (R118–R121): the running training or arbitration tile of a unit completes. A tile that feeds a chain waits
while the vector engine's input buffer is taken, and a tapped tile while the Press has no room (R309). -/
def execTileComplete (u : Nat) (upset : Option Upset) (s : State) : Host.Outcome State Fault Refusal :=
  nextChip s (fun c =>
    let x := c.unit u
    match x.run with
    | none => c
    | some r =>
      match r.kind with
      | .train =>
        let bit4 := bit r.job.redo 4
        if x.hold ∨ (r.job.fused.isSome ∧ mmKsplit r.job.mm = 1 ∧ x.vbuf.isSome ∧ ¬ bit4) then c
        else if bit4 ∨ c.hasRoom (c.partOfCl r.job.cl) r.job then c.trainEnd u r upset.toList
        else (c.setUnit u { x with hold := true }).set1 .PRS_STICKY_STALL (clOfU u)
      | .arb => c.arbEnd u r upset.toList
      | _ => c)

/-! ### The outcome (R501, R502) -/

/-- Row of R502 for an arbitration that has run. -/
def arbRow (a : Arb) : Nat :=
  match a.unit, a.arbRows with
  | some _, some (pass, rows) =>
    let both := a.rows.filterMap (fun x => (rows.find? (fun y => y.1 == x.1)).map (fun y => (x, y)))
    let okA := both.all (fun (x, y) => leV (diffV y.2.1 x.2.1) x.2.2.2)
    let okB := both.all (fun (x, y) => leV (diffV y.2.1 x.2.2.1) x.2.2.2)
    if pass ∧ okA then 1
    else if pass ∧ okB then (if mmDest a.job.mm = 0 ∧ mmKsplit a.job.mm = 1 then 2 else 3)
    else 4
  | _, _ => 4

/-- The extension words of a TILE_CHK record (R496). -/
def arbExt (a : Arb) : List Word :=
  let row := a.held.chk.getD 0
  let v := match a.rows.find? (fun x => x.1 == row) with | some x => x.2 | none => (.zero, .zero, .zero)
  (List.range 14).map (fun k => wordAt a.job.mm k)
    ++ [Word.ofNat (a.job.i % 2 ^ 24 + a.job.j % 2 ^ 24 * 2 ^ 24 + a.job.ks % 256 * 2 ^ 48), Word.ofNat a.wbits,
        Word.ofNat (row % 64 + encodeF fp32 v.2.2 * 2 ^ 32), Word.ofNat (encodeF fp32 v.1 + encodeF fp32 v.2.1 * 2 ^ 32)]

/-- An arbitration closed: the held completion counted, the record posted, the gate failed when unresolved. -/
def Chip.arbClose (c : Chip) (a : Arb) (row : Nat) (resolved : Bool) : Chip :=
  let p := c.partOfCl a.job.cl
  let c := { c with arbs := c.arbs.erase a }
  let c := if c.arbs.any (fun b => c.partOfCl b.job.cl == p) then c else c.put .INT_STAT_ARB_OPEN p 0
  let c := if resolved then c else c.setStep p { c.stepS p with chk := true }
  let c := c.postFault { cls := 0x01, action := if row = 1 then 0 else if resolved then 1 else 2, injected := a.injected
                         loc := a.orig, lockind := 1, place := c.regionPlace a.region, time := some a.time
                         detail := [a.seq, (a.unit.getD 0x3FF) % 1024 + row * 2 ^ 10], ext := arbExt a }
  c.count a.job 0 (tilePart a.job a.job.order 0 (some a.held) 0)

/-- The units that an outcome marks (R502); none for an injected fault (R138) and none where no unit was in service. -/
def Chip.arbMarks (c : Chip) (a : Arb) (row : Nat) : Chip :=
  if a.injected then c
  else
    match row, a.unit with
    | 1, _ => c.setHealth a.orig .MXE_HEALTH_CKDEG 2
    | 4, some v => (c.setHealth a.orig .MXE_HEALTH_QUAR 3).setHealth v .MXE_HEALTH_QUAR 3
    | 4, none => c
    | _, _ => c.setHealth a.orig .MXE_HEALTH_QUAR 3

/-- The outcome entered in `INT_RGN_ARB` (R528). -/
def Chip.arbLog (c : Chip) (a : Arb) (row : Nat) : Chip :=
  c.wr .INT_RGN_ARB a.region (Word.ofNat (a.orig % 1024 + a.unit.getD 0 % 1024 * 2 ^ 10 + row % 8 * 2 ^ 20
    + b2n a.injected * 2 ^ 23 + a.seq % 2 ^ 16 * 2 ^ 32))

/-- ARBITRATION_OUTCOME (R502): the first arbitration of a unit's tiles that can be decided is decided. Row 2 sends a
rewrite run to the arbitration unit, ahead of its queue, or, where that unit has been withdrawn (R120), to the unit that R501
names now; with none left the disagreement is unresolved (DEDUCED, log entry 49). Every other row closes the arbitration. -/
def execArbitrationOutcome (r orig : Nat) (s : State) : Host.Outcome State Fault Refusal :=
  nextChip s (fun c =>
    match c.arbs.find? (fun a => a.region == r && a.orig == orig && (if a.rewriting then a.rewr.isNone else a.unit.isNone || a.arbRows.isSome)) with
    | none => c
    | some a =>
      if a.rewriting then c.arbClose a 2 false
      else
        let row := arbRow a
        let c := c.arbLog a row
        match row, a.unit with
        | 2, some v =>
          let v := if c.inService v then some v else c.arbUnit a.orig
          let a' := { a with rewriting := true, rewr := v }
          let c := { c with arbs := c.arbs.map (fun b => if b = a then a' else b) }
          let c := match v with
            | some v => c.setUnit v { c.unit v with ahead := { kind := .rewrite, job := a.job, wbits := a.wbits } :: (c.unit v).ahead }
            | none => c
          c.arbMarks a row
        | _, _ => (c.arbClose a row (decide (row ≤ 2))).arbMarks a row)

/-- REWRITE_RUN_COMPLETE (R502): the arbitration unit has run the tile again in reference order and writes it; a test that
fails makes the disagreement unresolved. -/
def execRewriteRunComplete (u : Nat) (upset : Option Upset) (s : State) : Host.Outcome State Fault Refusal :=
  nextChip s (fun c =>
    let x := c.unit u
    match x.run with
    | none => c
    | some r =>
      if r.kind ≠ .rewrite then c
      else
        let t := r.job
        let c := c.setUnit u { x with run := none }
        match c.arbs.find? (fun a => decide (a.rewr = some u ∧ a.job = t ∧ a.rewriting)) with
        | none => c
        | some a =>
          if c.tileStatus t ≠ 0 then (c.set1 .MXE_STICKY_BAD_DESC u).arbClose a 2 false
          else
            let inj := c.injection u t
            let (o, tests) := c.evalTile t false r.wbits (upset.toList ++ inj.toList)
            let bad := c.tilePoison t
            let o := if bad then { o with flags := o.flags ||| 16 } else o
            let hit := a.injected || inj.isSome
            let c := (((c.injected u inj).tileRegs u o tests hit).tileMeters t).writeTile 2 t o
            let c := if bad then c.tileUsedPoison u t else c
            let a' := { a with injected := hit }
            ({ c with arbs := c.arbs.map (fun b => if b = a then a' else b) }).arbClose a' 2 (o.chk.isNone && !bad))

/-! ### Chains that complete (R113, R162, R224) -/

/-- Whether the combined output of an earlier fused pair is still to come at a unit, so that a chain waits its turn (R224). -/
def Chip.combFirst (c : Chip) (u id : Nat) : Bool :=
  (sget [] c.combs (16 + u)).any (fun k => match k.owner with
    | some t => t.fused.isSome && decide (t.id < id)
    | none => false)

/-- The chain that a unit runs now (R224). -/
def Chip.chainNow (c : Chip) (u : Nat) : Option (ChainJob × Option TileOut × UnitS) :=
  match (c.unit u).nextChain with
  | some (k, none, x) => if c.combFirst u k.id then none else some (k, none, x)
  | o => o

/-- CHAIN_COMPLETE (R162): the unit's next chain runs to its end, and a combined output that waited for the input buffer goes
into it. While a census record is held, a chain that would add to the table stalls (R165). -/
def execChainComplete (u : Nat) (s : State) : Host.Outcome State Fault Refusal :=
  nextChip s (fun c =>
    match c.chainNow u with
    | none => c
    | some (k, t, x) =>
      if k.counts && !(c.unit u).cheld.isEmpty then c.set1 .VEC_STICKY_CENS_STALL u
      else ((c.setUnit u x).runChain u k t).combWake u)

end Sys2Proof.Machine
end

