-- ==== Sys2Proof/Machine/Products.lean ====
section
/-! DEFINITION. MATMUL and CHAIN at the sequencer: cut into tiles, paired, patched, given to units (R227–R232, R306). -/

namespace Sys2Proof.Machine

/-- The tiles of a product in row-major order, each with its intra-cluster slices (R228, R229). -/
def cutTiles (cl id : Nat) (mm : List Word) (fused : Option (List Word)) : List Job :=
  let ni := cdiv (mmM mm) 64
  let nj := cdiv (mmN mm) 32
  let S := mmKsplit mm
  if mmM mm = 0 ∨ mmN mm = 0 then []
  else
    (List.range ni).flatMap (fun i => (List.range nj).flatMap (fun j => (List.range S).map (fun s =>
      Job.tile { cl := cl, u := 8 * cl, id := id, order := ((i * nj + j) * S + s) * 2, i := i, j := j, ks := s, mm := mm,
                 fused := fused, redo := 0 })))

/-- The chains of a fused pair whose product has no tile (R231). -/
def emptyChains (cl id : Nat) (mm b : List Word) : List Job :=
  let one (i j n : Nat) : Job :=
    let t : TileJob := { cl := cl, u := 8 * cl, id := id, order := 2 * n, i := i, j := j, ks := 0, mm := mm, fused := some b, redo := 0 }
    .chain { cl := cl, id := id, order := 2 * n + 1, body := b, tile := some t, redo := false }
  if mmM mm = 0 ∧ mmN mm = 0 then [one 0 0 0]
  else if mmN mm = 0 then (List.range (cdiv (mmM mm) 64)).map (fun i => one i 0 i)
  else if mmM mm = 0 then (List.range (cdiv (mmN mm) 32)).map (fun j => one 0 j j)
  else []

/-- Effects of a product that its command counts: tiles, partials delivered, combined outputs, and chains. -/
def productLeft (mm : List Word) (fused : Bool) : Nat :=
  let T := cdiv (mmM mm) 64 * cdiv (mmN mm) 32
  let S := mmKsplit mm
  let base :=
    if mmDest mm = 2 then 2 * T + (if mmSlice mm = 0 then T else 0)
    else if S = 1 then T
    else T * (2 * S + 1)
  base + (if fused then (if mmM mm = 0 ∨ mmN mm = 0 then (emptyChains 0 0 mm []).length else T) else 0)

/-- A MATMUL issued with its chain's body, if it has one, under a header. -/
def Chip.issueProduct (c : Chip) (cl : Nat) (h : Word) (mm : List Word) (body : Option (List Word)) : Chip :=
  let (id, c) := c.issue cl h (productLeft mm body.isSome)
  let c := c.pressBind cl id mm
  let js := cutTiles cl id mm body ++ (match body with | some b => emptyChains cl id mm b | none => [])
  c.place cl js

/-- CMD_MATMUL (R227): a product with DEST = 1 waits for its CHAIN; a combining region outside the partition ends it
DENIED; every other one is cut into tiles and issued. -/
def execCmdMatmul (cl : Nat) (s : State) : Host.Outcome State Fault Refusal :=
  nextChip s (fun c => c.take cl (isOp 0x10) false (fun c w =>
    if mmDest w = 1 then c.setSeq cl { c.seq cl with fuse := some w }
    else if mmDest w = 2 ∧ ¬ c.owns (c.partOfCl cl) (mmCreg w) then c.refuse cl w stDenied
    else c.issueProduct cl (wordAt w 0) w none))

/-- The body of a CHAIN with its patches applied (R232). -/
def Chip.patched (c : Chip) (cl : Nat) (w : List Word) : List Word :=
  patchBody (wbits (wordAt w 1) 7 0) ((List.range 8).map (fun i => c.g .CLU_SEQ_SCHED_VALUE cl i)) (w.drop 2)

/-- CMD_CHAIN (R231, R232): the second command of a fused pair issues both; a chain with a memory source goes whole to one
unit, and ends with BAD_CHAIN when its ACC stages name open state on no unit or on two. -/
def execCmdChain (cl : Nat) (s : State) : Host.Outcome State Fault Refusal :=
  nextChip s (fun c => c.take cl (isOp 0x11) false (fun c w =>
    let b := c.patched cl w
    match (c.seq cl).fuse with
    | some mm => (c.setSeq cl { c.seq cl with fuse := none }).issueProduct cl (wordAt w 0) mm (some b)
    | none =>
      if (chReds b).any sgAcc ∧ (c.chainUnit cl b).isNone ∧ ¬ (c.available cl).isEmpty then c.refuse cl w stBadChain
      else
        let (id, c) := c.issue cl (wordAt w 0) 1
        c.place cl [.chain { cl := cl, id := id, order := 1, body := b, tile := none, redo := false }]))

end Sys2Proof.Machine
end

