-- ==== Sys2Proof/Machine/Sequencer.lean ====
section
/-! DEFINITION. The sequencer's own commands: NOP, waiting, signalling, routines, schedules, phase markers and epochs, halts
(R214–R216, R219–R222, R234–R250, R254). -/

namespace Sys2Proof.Machine

/-! ### Reading the stream -/

/-- SEQ_READ_NULL (R196, R203, R215): a NULL packet at the head is read as no command; a broken queue is read once as a
poisoned NULL, and the sequencer then waits for its reset. -/
def execSeqReadNull (cl : Nat) (s : State) : Host.Outcome State Fault Refusal :=
  nextChip s (fun c =>
    if ¬ c.seqRuns cl ∨ ¬ (c.seq cl).stack.isEmpty ∨ ¬ c.cmdqOk cl then c
    else
      let r := regionOfCl cl
      let q := c.g .CLU_SEQ_CTL_CMDQ cl
      let x := c.queue r q
      if x.broken then
        if x.rd = 0 then
          (((c.setQueue r q { x with rd := 1 }).markPoisonIn r q true).set1 .CLU_SEQ_STICKY_POISON_CMD cl).consumePoison (c.partOfCl cl) 3 0 (.region r) cl 2
        else c
      else match x.linked with
        | k :: _ => if k.null then c.advance cl 1 else c
        | [] => c)

/-- Every CALL of a stack ended with CMD_POISON, innermost first (R216). -/
def Chip.poisonCalls (c : Chip) (cl : Nat) : List Frame → Chip
  | [] => c
  | f :: fs => (c.endCmd cl f.callId { order := 0, status := stCmdPoison }).poisonCalls cl fs

/-- SEQ_POISON_HEADER (R215, R216): a packet with a poisoned header is discarded without a completion; a poisoned header in
a routine ends every CALL around it with CMD_POISON. -/
def execSeqPoisonHeader (cl : Nat) (s : State) : Host.Outcome State Fault Refusal :=
  nextChip s (fun c =>
    if ¬ c.seqRuns cl then c
    else
      match c.head cl with
      | some ((_, true) :: _) =>
        let c := c.dropFuse cl []
        let c := (c.poisonCmd cl).consumePoison (c.partOfCl cl) 3 0 (.region (regionOfCl cl)) cl 2
        match (c.seq cl).stack with
        | [] => c.advance cl 1
        | fs => (c.setSeq cl { c.seq cl with stack := [] }).poisonCalls cl fs
      | _ => c)

/-- CMD_NOP (R219): ends at once. A command of a reserved opcode ends here with BAD_OPCODE. -/
def execCmdNop (cl : Nat) (s : State) : Host.Outcome State Fault Refusal :=
  nextChip s (fun c => c.take cl (fun w => isOp 0x00 w || (opLen (hdrOp (wordAt w 0))).isNone) false
    (fun c w => c.issueEnd cl (wordAt w 0) { order := 0 }))

/-! ### Waiting and signalling (R234, R235) -/

/-- CMD_WAITQ (R234): the queue must be this sequencer's and not its command queue; COUNT = 0 ends at once. -/
def execCmdWaitq (cl : Nat) (s : State) : Host.Outcome State Fault Refusal :=
  nextChip s (fun c => c.take cl (isOp 0x03) false (fun c w =>
    let r := regionOfCl cl
    let q := wbits (wordAt w 1) 9 0
    let n := wbits (wordAt w 1) 25 10
    let ok := c.on .QP_QCFG_EN r q && c.g .QP_QCFG_CKIND r q == 0 && c.g .QP_QCFG_CIDX r q == cl % 8
      && q != c.g .CLU_SEQ_CTL_CMDQ cl
    if ¬ ok then c.refuse cl w stBadField
    else if n = 0 then c.issueEnd cl (wordAt w 0) { order := 0 }
    else
      let (id, c) := c.issue cl (wordAt w 0) 1
      c.setSeq cl { c.seq cl with waitqs := (c.seq cl).waitqs ++ [{ id := id, queue := q, count := n }] }))

/-- Packets of a queue consumed by a WAITQ, at most n of them: those taken, and whether one carried poison. -/
def Chip.consume (c : Chip) (r q : Nat) : Nat → Nat → Bool → Chip × Nat × Bool
  | 0, got, bad => (c, got, bad)
  | n + 1, got, bad =>
    match c.qTake r q with
    | none => (c, got, bad)
    | some (k, c) => c.consume r q n (got + 1) (bad || k.words.any Prod.snd)

/-- WAITQs of a sequencer served in order: each takes what waits in its queue and ends with OK at its COUNT, or with
STALE_END after a stale event; a later WAITQ on the same queue waits for an earlier one, and a stale event ends one.
`busy` lists queues of a WAITQ that waits on, `spent` those whose stale event is used. -/
def Chip.serveWaitqs (c : Chip) (cl : Nat) : List WaitQ → List Nat → List Nat → Chip × List WaitQ
  | [], _, _ => (c, [])
  | w :: ws, busy, spent =>
    if busy.contains w.queue then
      let (c, l) := c.serveWaitqs cl ws busy spent
      (c, { w with stale := w.stale && !spent.contains w.queue } :: l)
    else
      let r := regionOfCl cl
      let (c, got, bad) := c.consume r w.queue (w.count - w.got) w.got w.poison
      let c := if bad ∧ ¬ w.poison then
          let tag := match (c.seq cl).outst.find? (fun o => o.id == w.id) with | some o => hdrTag o.hdr | none => 0
          c.consumePoison (c.partOfCl cl) 4 tag (.region r) cl 2
        else c
      let fl := if bad then 16 else 0
      if w.count ≤ got then
        (c.endCmd cl w.id { order := 0, flags := fl, detail := got }).serveWaitqs cl ws busy spent
      else if w.stale ∧ ¬ spent.contains w.queue then
        (c.endCmd cl w.id { order := 0, status := stStaleEnd, flags := fl, detail := got }).serveWaitqs cl ws busy
          (w.queue :: spent)
      else
        let (c, l) := c.serveWaitqs cl ws (w.queue :: busy) spent
        (c, { w with got := got, poison := bad, stale := false } :: l)

/-- WAITQ_END (R199, R234): the WAITQs of a sequencer consume what has arrived and end. -/
def execWaitqEnd (cl : Nat) (s : State) : Host.Outcome State Fault Refusal :=
  nextChip s (fun c =>
    let (c, l) := c.serveWaitqs cl (c.seq cl).waitqs [] []
    c.setSeq cl { c.seq cl with waitqs := l })

/-- Words of a SIGNAL: its payload with END on the last, or one NULL word. -/
def signalWords (w : List Word) : List QWord :=
  let n := wbits (wordAt w 1) 17 14
  if n = 0 then [⟨0, 2, false⟩]
  else (List.range n).map (fun i => ⟨wordAt w (2 + i), b2n (i + 1 == n), false⟩)

/-- CMD_SIGNAL (R195, R197, R198, R235, R538): a region outside the partition is DENIED and recorded; a disabled queue and an
overlong packet give QUEUE_ERR; the packet is else written, word by word, and the command ends once it is linked. -/
def execCmdSignal (cl : Nat) (s : State) : Host.Outcome State Fault Refusal :=
  nextChip s (fun c => c.take cl (isOp 0x04) false (fun c w =>
    let r := wbits (wordAt w 1) 3 0
    let q := wbits (wordAt w 1) 13 4
    let p := c.partOfCl cl
    if ¬ c.owns p r then
      (c.xpart p 2 (c.g .FAB_ID_ID 0) 0 (r + q * 16)).refuse cl w stDenied
    else if ¬ c.on .QP_QCFG_EN r q ∨ (c.queue r q).broken then (c.markMalformed r q).refuse cl w stQueueErr 4
    else
      let ws := signalWords w
      if c.g .QP_QCFG_MAX_CELLS r q < cellsOf ws.length then
        ((c.set1 .QP_QSTAT_OVERLONG r q).set1 .QP_STICKY_OVERLONG r).refuse cl w stQueueErr 2
      else
        let (id, c) := c.issue cl (wordAt w 0) 1
        let c := ws.foldl (fun c x => (c.qWrite r q (seqProducer cl) x).1) c
        c.setSeq cl { c.seq cl with outst := (c.seq cl).outst.map (fun o => if o.id = id then { o with aux := r * 1024 + q + 1 } else o) }))

/-- Whether the packet of an open SIGNAL is linked: the packets of its sequencer that still wait at the queue are those of
later SIGNALs. -/
def Chip.signalLinked (c : Chip) (cl : Nat) (o : OutCmd) : Bool :=
  let k := o.aux - 1
  let x := c.queue (k / 1024) (k % 1024)
  let pend := (x.waiting.filter (fun y => y.1 == seqProducer cl && y.2.mark != 0)).length
  let later := ((c.seq cl).outst.filter (fun v => v.isOpen && v.aux == o.aux && decide (o.id ≤ v.id))).length
  decide (pend < later)

/-! ### Routines (R236–R238) -/

/-- Status of a command of w words at an offset of a routine of n words (R218, R236). -/
def routineStatus (w : List Word) (off n region : Nat) (fusedMN : Option (Nat × Nat)) : Nat :=
  let len := hdrLen (wordAt w 0)
  let st := decodeStatus w len region fusedMN
  if st = stBadOpcode then st
  else if n < off + len then stBadLen
  else if hdrOp (wordAt w 0) = 0x06 then firstBad [st, stBadField]
  else st

/-- The first failing command of a routine: its offset, status and opcode; `mm` is the offset and words of a MATMUL that
must form a pair with the next command. -/
def checkRoutine (ws : List Word) (region : Nat) : Nat → Nat → Option (Nat × List Word) → Option (Nat × Nat × Nat)
  | 0, _, _ => none
  | fuel + 1, off, mm =>
    let miss : Option (Nat × Nat × Nat) := mm.map (fun x => (x.1, stBadField, 0x10))
    if ws.length ≤ off then miss
    else
      let w := (ws.drop off).take (max 1 (hdrLen (wordAt ws off)))
      match mm with
      | some (_, m) =>
        if ¬ pairs m w then miss
        else
          let st := routineStatus w off ws.length region (some (mmM m, mmN m))
          if st ≠ stOK then some (off, st, hdrOp (wordAt w 0)) else checkRoutine ws region fuel (off + w.length) none
      | none =>
        let st := routineStatus w off ws.length region none
        if st ≠ stOK then some (off, st, hdrOp (wordAt w 0))
        else checkRoutine ws region fuel (off + w.length) (if isOp 0x10 w ∧ mmDest w = 1 then some (off, w) else none)

/-- CMD_INSTALL (R236, R237): accepted from the command queue only; every command of the routine is validated, and the entry
becomes valid, or keeps its content with the first failure in DETAIL. -/
def execCmdInstall (cl : Nat) (s : State) : Host.Outcome State Fault Refusal :=
  nextChip s (fun c => c.take cl (fun w => isOp 0x06 w && !wbit (wordAt w 1) 6) false (fun c w =>
    if ¬ (c.seq cl).stack.isEmpty then c.refuse cl w stBadField
    else
      let r := regionOfCl cl
      let a := wbits (wordAt w 2) 31 0
      let n := wbits (wordAt w 2) 54 32
      if c.inArea r (a - 0x01000000) (8 * n) then c.refuse cl w stBadAddr
      else
        let ws := wordsOf n (c.bytes (regionKey r (a - 0x01000000)) (8 * n))
        match checkRoutine ws r (n + 1) 0 none with
        | some (off, st, op) => c.refuse cl w stBadField (off + st * 2 ^ 24 + op * 2 ^ 29)
        | none =>
          (c.wr .CLU_SEQ_RTN cl (Word.ofNat (a + n * 2 ^ 32 + 2 ^ 63)) (wbits (wordAt w 1) 5 0)).issueEnd cl (wordAt w 0) { order := 0 }))

/-- CMD_INSTALL_REMOVE (R236): the entry is cleared. -/
def execCmdInstallRemove (cl : Nat) (s : State) : Host.Outcome State Fault Refusal :=
  nextChip s (fun c => c.take cl (fun w => isOp 0x06 w && wbit (wordAt w 1) 6) false (fun c w =>
    if ¬ (c.seq cl).stack.isEmpty then c.refuse cl w stBadField
    else (c.wr .CLU_SEQ_RTN cl 0 (wbits (wordAt w 1) 5 0)).issueEnd cl (wordAt w 0) { order := 0 }))

/-- CMD_CALL (R238): an invalid entry gives BAD_FIELD; a fifth nested CALL gives BAD_FIELD and halts the sequencer; else the
routine runs. -/
def execCmdCall (cl : Nat) (s : State) : Host.Outcome State Fault Refusal :=
  nextChip s (fun c => c.take cl (isOp 0x05) false (fun c w =>
    let n := wbits (wordAt w 1) 5 0
    if ¬ wbit (c.rd .CLU_SEQ_RTN cl n) 63 then c.refuse cl w stBadField
    else if 4 ≤ (c.seq cl).stack.length then (c.refuse cl w stBadField).haltSeq cl 3
    else
      let (id, c) := c.issue cl (wordAt w 0) 0
      let f : Frame := { rtn := n, off := 0, attempts := 1, retry := wbits (wordAt w 1) 9 6, callId := id }
      c.setSeq cl { c.seq cl with stack := f :: (c.seq cl).stack }))

/-- ROUTINE_RETURN (R238): after the routine's last word the CALL ends with the attempts made. -/
def execRoutineReturn (cl : Nat) (s : State) : Host.Outcome State Fault Refusal :=
  nextChip s (fun c =>
    let x := c.seq cl
    match x.stack with
    | [] => c
    | f :: fs =>
      if ¬ c.seqRuns cl ∨ f.off < c.routineLen cl f.rtn then c
      else (c.setSeq cl { x with stack := fs }).endCmd cl f.callId { order := 0, detail := f.attempts })

/-! ### Schedules (R239) -/

/-- Row of a schedule table for an index (R239). -/
def schedRow (index base trows : Nat) : Nat := min (index - base) (trows - 1)

/-- CMD_SCHED (R64, R239): the row of the step's index is loaded, negative zeros as +0. -/
def execCmdSched (cl : Nat) (s : State) : Host.Outcome State Fault Refusal :=
  nextChip s (fun c => c.take cl (isOp 0x07) false (fun c w =>
    let a := wbits (wordAt w 1) 31 0
    let n := wbits (wordAt w 1) 55 32
    if n = 0 then c.issueEnd cl (wordAt w 0) { order := 0 }
    else if c.inArea (regionOfCl cl) (a - 0x01000000) (32 * n) then c.refuse cl w stBadAddr
    else
      let row := schedRow (c.g .HUB_SCHED_INDEX (c.partOfCl cl)) (wbits (wordAt w 2) 47 0) n
      let key := regionKey (regionOfCl cl) (a - 0x01000000 + 32 * row)
      let c := (List.range 8).foldl (fun c i =>
        let v := c.num (key + 4 * i) 4
        c.put ⟨.CLU_SEQ_SCHED, 31, 0⟩ cl (if v = 2 ^ 31 then 0 else v) i) c
      c.issueEnd cl (wordAt w 0) { order := 0, detail := row }))

/-! ### Phases, boundaries, epochs (R241–R245) -/

/-- A phase marker takes effect (R41, R164, R241, R305): census entries are posted, the phase is set. -/
def Chip.marker (c : Chip) (cl code : Nat) : Chip :=
  let c := (unitsOf cl).foldl (fun c u => c.censPostAll u) c
  let c := c.setSeq cl { c.seq cl with phase := code, epochMark := false }
  c.showPhase (c.partOfCl cl)

/-- A sequencer starts to wait in an agreement. -/
def Chip.waitFor (c : Chip) (cl : Nat) (h : Word) (a : Agree) : Chip :=
  let (id, c) := c.issue cl h 1
  c.setSeq cl { c.seq cl with agree := a, agreeId := id, arrived := true }

/-- Fields of PHASE. -/
def phCode (w : List Word) : Nat := wbits (wordAt w 1) 2 0
def phFull (w : List Word) : Bool := wbit (wordAt w 1) 8

/-- CMD_PHASE (R241): a plain marker. -/
def execCmdPhase (cl : Nat) (s : State) : Host.Outcome State Fault Refusal :=
  nextChip s (fun c => c.takeMarker cl (fun w => isOp 0x08 w && phCode w != 4 && !phFull w) false (fun c w =>
    (c.marker cl (phCode w)).issueEnd cl (wordAt w 0) { order := 0 }))

/-- CMD_PHASE_GATE (R242, R245): the gate marker; a second one in the window gives BAD_FIELD. -/
def execCmdPhaseGate (cl : Nat) (s : State) : Host.Outcome State Fault Refusal :=
  nextChip s (fun c => c.takeMarker cl (fun w => isOp 0x08 w && phCode w == 4) true (fun c w =>
    if (c.seq cl).gated then c.refuse cl w stBadField
    else
      let c := (c.marker cl 4).waitFor cl (wordAt w 0) .gate
      c.setSeq cl { c.seq cl with gated := true }))

/-- A sequencer reaches a full boundary: BOUNDARY is set (R524). -/
def Chip.atBoundary (c : Chip) (cl : Nat) : Chip := c.set1 .SEAL_STAT_BOUNDARY (c.partOfCl cl)

/-! ### Halts, resumption (R250, R254) -/

/-- SEQ_STOP_REQUEST (R254): STOP reads 1 until it takes effect. -/
def execSeqStopRequest (fn : Fn) (cl : Nat) (s : State) : Host.Outcome State Fault Refusal :=
  nextChip s (fun c => if c.reaches fn .CLU_SEQ_CMD cl then c.set1 .CLU_SEQ_CMD_STOP cl else c)

/-- SEQ_HALT (R214, R250): at an issue decision a pending STOP halts the sequencer with cause STOP, and an invalid command
queue with cause CMDQ. -/
def execSeqHalt (cl : Nat) (s : State) : Host.Outcome State Fault Refusal :=
  nextChip s (fun c =>
    let x := c.seq cl
    if c.on .CLU_SEQ_CMD_STOP cl ∧ x.halt = 0 ∧ x.agree = .none then (c.put .CLU_SEQ_CMD_STOP cl 0).haltSeq cl 1
    else c.checkCmdq cl)

/-- A halted sequencer resumed according to its cause (R250). -/
def Chip.resumeSeq (c : Chip) (cl : Nat) : Chip :=
  match (c.seq cl).halt with
  | 1 => c.haltSeq cl 0
  | 2 => c.haltSeq cl 0
  | 3 => c.haltSeq cl 0
  | 4 => if (c.available cl).isEmpty then c else (c.haltSeq cl 0).placeHeld cl
  | 8 => if c.cmdqOk cl then c.haltSeq cl 0 else c
  | _ => c

/-- SEQ_RESUME (R250, R254): RESUME by cause; a STOP written with it wins. -/
def execSeqResume (fn : Fn) (cl : Nat) (stop : Bool) (s : State) : Host.Outcome State Fault Refusal :=
  nextChip s (fun c =>
    if ¬ c.reaches fn .CLU_SEQ_CMD cl then c
    else if stop then c.set1 .CLU_SEQ_CMD_STOP cl
    else c.resumeSeq cl)

end Sys2Proof.Machine
end

