-- ==== Sys2Proof/Machine/Racking.lean ====
section
/-! DEFINITION. The Racking stack: lanes, frames, RACK commands, spilling and fetching (R260–R277, R285). -/

namespace Sys2Proof.Machine

/-! ### Lanes and frames (R260–R262, R269) -/

/-- Bytes of a frame. -/
def RFrame.size (f : RFrame) : Nat := f.rows * f.rbytes
/-- Pages of a frame. -/
def RFrame.need (f : RFrame) : Nat := cdiv f.size 4096

/-- A frame of a lane changed. -/
def LaneS.upd (x : LaneS) (uid : Nat) (g : RFrame → RFrame) : LaneS :=
  { x with frames := x.frames.map (fun f => if f.uid = uid then g f else f) }
/-- A frame of a lane. -/
def LaneS.find (x : LaneS) (uid : Nat) : Option RFrame := x.frames.find? (fun f => f.uid == uid)
/-- Frames that no earlier POP or DROP has taken. -/
def LaneS.live (x : LaneS) : List RFrame := x.frames.filter (fun f => !f.gone)
/-- Pages that the frames of a lane hold. -/
def LaneS.held (x : LaneS) : Nat := (x.frames.map (fun f => f.pages.length)).sum

/-- Quota of a lane. -/
def Chip.quota (c : Chip) (cl : Nat) : Nat := c.g .RACK_LANE_CFG_QUOTA (cl / 8) (cl % 8)
/-- Host pages of a lane. -/
def Chip.hpages (c : Chip) (cl : Nat) : Nat := c.g .RACK_LANE_CFG_HPAGES (cl / 8) (cl % 8)
/-- Whether frames of a lane may spill (R268). -/
def Chip.maySpill (c : Chip) (cl : Nat) : Bool := c.on .RACK_CTL_SPILL_EN (cl / 8) && c.hpages cl != 0
/-- Whether a frame can leave its pages (R268, R269, R274). -/
def Chip.spillable (c : Chip) (cl : Nat) (f : RFrame) : Bool := c.maySpill cl && f.cls != 0 && !f.pinned && !f.unspill

/-- The first n free pages of a region's Racking area. -/
def Chip.freePages (c : Chip) (r n : Nat) : List Nat :=
  let used := (rangeFrom (8 * r) 8).flatMap (fun cl => (c.rackLane cl).frames.flatMap RFrame.pages)
  ((rangeFrom (c.g .RACK_AREA_BASE r) (c.g .RACK_AREA_PAGES r)).filter (fun p => !used.contains p)).take n

/-- Key of granule g of a frame's pages. -/
def frameKey (r : Nat) (pages : List Nat) (g : Nat) : Nat := regionKey r (4096 * pages.getD (g / 64) 0 + 64 * (g % 64))

/-- The bytes of a frame in row order, read from its pages. -/
def Chip.frameBytes (c : Chip) (r : Nat) (f : RFrame) : List Byte :=
  (List.range (f.size / 64)).flatMap (fun g => c.bytes (frameKey r f.pages g) 64)

/-- Whether any granule of a frame's pages carries poison. -/
def Chip.frameBad (c : Chip) (r : Nat) (f : RFrame) : Bool :=
  (List.range (f.size / 64)).any (fun g => (c.badWords (frameKey r f.pages g)).any id)

/-- Operand address of granule g of rows of n bytes with a stride. -/
def rowGranule (a stride n g : Nat) : Nat := a + g / (n / 64) * stride + 64 * (g % (n / 64))

/-! ### Records (R287) -/

/-- The marks of a RACK status (R287). -/
def Chip.rackMarks (c : Chip) (r st : Nat) : Chip :=
  if st = 24 ∨ st = 25 then c.set1 .RACK_STICKY_FULL r
  else if st = 26 ∨ st = 27 then c.set1 .RACK_STICKY_MISMATCH r
  else c

/-- A RACK command refused at issue. -/
def Chip.rackRefuse (c : Chip) (cl : Nat) (w : List Word) (st : Nat) : Chip :=
  (c.rackMarks (cl / 8) st).refuse cl w st (rackDetail (c.laneDepth cl) (rkTag w) false false false)

/-! ### Acting (R266, R273) -/

/-- Granules of a source copied into a frame's pages with their poison. -/
def Chip.copyIn (c : Chip) (p u r : Nat) (w : List Word) (pages : List Nat) (n : Nat) : Chip :=
  (List.range n).foldl (fun c g =>
    let k := opAt u (rowGranule (rkAddr w) (rkStride w) (rkRowBytes w) g)
    ((c.write64 (frameKey r pages g) (c.bytes k 64) (c.badWords k)).meter p 11 64).meter p 12 64) c

/-- One granule of a frame delivered; a granule that meets a fenced range is blocked and reported (R41, R498). -/
def Chip.deliver (c : Chip) (p u a : Nat) (bs : List Byte) (ps : List Bool) : Chip :=
  let k := opAt u a
  match c.fenceHit p k 64 with
  | some x => c.blockedWrite p 9 x
  | none => (c.write64 k bs ps).meter p 12 64

/-- Granules of a frame copied to a destination; a lost frame delivers poison everywhere. -/
def Chip.copyOut (c : Chip) (p u r : Nat) (w : List Word) (f : RFrame) : Chip :=
  (List.range (f.size / 64)).foldl (fun c g =>
    let a := rowGranule (rkAddr w) (rkStride w) (rkRowBytes w) g
    if f.st = .lost then c.deliver p u a (List.replicate 64 0) (List.replicate 8 true)
    else
      let k := frameKey r f.pages g
      (c.meter p 11 64).deliver p u a (c.bytes k 64) (c.badWords k)) c

/-! ### Host homes, and moves that stop (R268–R270, R275, R276) -/

/-- Host address of a byte offset of a frame's home through window P; none outside it (R268, R570). -/
def Chip.homeAt (c : Chip) (cl : Nat) (f : RFrame) (o : Nat) : Option Nat :=
  let p := c.partOfCl cl
  let a := 4096 * (c.g .RACK_LANE_HOST_BASE (cl / 8) (cl % 8) + f.home) + o
  if c.on .HOSTIF_RWIN_EN 0 p ∧ a < 4096 * c.g .HOSTIF_RWINSZ_PAGES 0 p then some (4096 * c.g .HOSTIF_RWIN_BASE 0 p + a) else none

/-- The first k pages of a frame written to its home, poisoned granules left out (R191, R270, R273); the bytes written are
counted. -/
def Chip.spillOut (c : Chip) (cl : Nat) (f : RFrame) (k : Nat) : Chip :=
  let r := cl / 8
  let p := c.partOfCl cl
  (List.range (min (64 * k) (f.size / 64))).foldl (fun c g =>
    let k := frameKey r f.pages g
    let ps := c.badWords k
    match c.homeAt cl f (64 * g) with
    | some a =>
      (((c.hostGranule (c.portOf p) a (c.bytes k 64) ps).meter p 18 (cleanBytes ps)).meter p 11 64).inc .RACK_CNT_COUNT r
        (cleanBytes ps) 0
    | none => c) c

/-- The bytes the host answered stored in the pages of a frame being fetched, and counted; the pages of a frame with its poison
mark set carry poison whole (R270, R271, R273). -/
def Chip.fetchIn (c : Chip) (cl : Nat) (f : RFrame) (bs : List Byte) : Chip :=
  let r := cl / 8
  let p := c.partOfCl cl
  let c := (c.meter p 17 bs.length).inc .RACK_CNT_COUNT r bs.length 1
  (List.range (bs.length / 64)).foldl (fun c g =>
    (c.write64 (frameKey r f.pages g) ((bs.drop (64 * g)).take 64) (List.replicate 8 f.poison)).meter p 12 64) c

/-- A move of a frame stopped at the next page: of its pages a number that the manual leaves open has been written to the host,
or read from it; a spill leaves the frame resident (R270, R275, R276). -/
def Chip.stopMove (c : Chip) (cl : Nat) (f : RFrame) : Chip :=
  match f.st with
  | .spilling =>
    let (n, c) := c.free 16
    let c := c.spillOut cl f (n % (f.need + 1))
    c.setLane cl ((c.rackLane cl).upd f.uid (fun f => { f with st := .resident }))
  | .fetching =>
    let (n, c) := c.free 16
    let k := min (4096 * (n % (f.need + 1))) f.size
    let (v, c) := c.free (8 * k)
    c.fetchIn cl f (leBytes k v)
  | _ => c

/-- A frame freed with its pages and its home, any move of it stopped (R266, R275). -/
def Chip.frameDrop (c : Chip) (cl : Nat) (f : RFrame) : Chip :=
  let c := c.stopMove cl f
  c.setLane cl { c.rackLane cl with frames := (c.rackLane cl).frames.filter (fun g => g.uid != f.uid) }

/-! ### Commands of a lane -/

/-- The command at the head of a lane carried out; none while it cannot be. -/
def Chip.laneAct (c : Chip) (cl : Nat) (k : LaneCmd) : Option Chip :=
  let r := cl / 8
  let p := c.partOfCl cl
  let u := 8 * cl
  let x := c.rackLane cl
  let w := k.words
  let tag := rkTag w
  match prAct w, x.find k.uid with
  | 0, some f =>
    if c.quota cl < x.held + f.need then none
    else
      let pages := c.freePages r f.need
      if pages.length < f.need then none
      else
        let c := c.copyIn p u r w pages (f.size / 64)
        let f' := { f with pages := pages, st := .resident }
        let bad := c.frameBad r f'
        let crc := crc32c (c.frameBytes r f')
        let c := c.setLane cl ((c.rackLane cl).upd k.uid (fun f => { f with pages := pages, st := .resident, crc := crc, poison := bad }))
        let pin := f.pinned && f.cls != 0
        some (c.finish cl k.id { order := 0, flags := if bad then 16 else 0
                                 detail := rackDetail (c.laneDepth cl) tag false pin bad })
  | 3, some f =>
    let c := c.frameDrop cl f
    some (c.finish cl k.id { order := 0, detail := rackDetail (c.laneDepth cl) tag false false false })
  | a, some f =>
    if f.st = .resident ∨ f.st = .lost then
      let lost := f.st == .lost
      let bad := lost || c.frameBad r f
      let c := c.copyOut p u r w f
      let x := c.rackLane cl
      let c := if a = 1 then c.setLane cl { x with frames := x.frames.filter (fun f => f.uid != k.uid) }
        else c.setLane cl (x.upd k.uid (fun f => if lost then f else { f with st := .resident }))
      some (c.finish cl k.id { order := 0, status := if lost then 28 else 0, flags := if bad then 16 else 0
                               detail := rackDetail (c.laneDepth cl) tag k.fetched false bad })
    else none
  | _, none => some c

/-- The commands of a lane carried out in issue order while the first can be; one that waits for a fetch sets STALL
(R272). -/
def Chip.laneRun (c : Chip) (cl : Nat) : Nat → Chip
  | 0 => c
  | n + 1 =>
    match (c.rackLane cl).cmds with
    | [] => c
    | k :: ks =>
      match c.laneAct cl k with
      | some c' => (c'.setLane cl { c'.rackLane cl with cmds := ks }).laneRun cl n
      | none =>
        if prAct k.words = 0 then c
        else (c.setLane cl { c.rackLane cl with cmds := { k with fetched := true } :: ks }).set1 .RACK_STICKY_STALL (cl / 8)

/-- A command appended to its lane and the lane run. -/
def Chip.laneIssue (c : Chip) (cl : Nat) (w : List Word) (uid : Nat) : Chip :=
  let (id, c) := c.issue cl (wordAt w 0) 1
  let x := c.rackLane cl
  let c := c.setLane cl { x with cmds := x.cmds ++ [{ id := id, words := w, uid := uid, fetched := false }] }
  c.laneRun cl (x.cmds.length + 1)

/-! ### RACK at issue (R264–R266, R269) -/

/-- A RACK command of one ACT. -/
def isRack (act : Nat) (w : List Word) : Bool := isOp 0x24 w && prAct w == act

/-- The rows of a PUSH, POP or PEEK with their addresses, none for size 0. -/
def rackRows (w : List Word) : List Nat :=
  if rkRows w = 0 ∨ rkRowBytes w = 0 then [] else (List.range (rkRows w)).map (fun i => rkAddr w + i * rkStride w)

/-- Check 4 of R265; a destination may not meet a valid routine (R237). -/
def Chip.rackAddrOk (c : Chip) (cl : Nat) (w : List Word) (wr : Bool) : Bool :=
  (rackRows w).all (fun a => decide (0x01000000 ≤ a)
    && (if wr then c.opWritable (8 * cl) a (rkRowBytes w) else c.opReach (8 * cl) a (rkRowBytes w)))

/-- The top frame of a lane. -/
def LaneS.top (x : LaneS) : Option RFrame := x.live.getLast?

/-- The frame of a PUSH, with its home (R269). -/
def Chip.newFrame (c : Chip) (cl : Nat) (w : List Word) : RFrame :=
  let x := c.rackLane cl
  let home := (x.live.map RFrame.need).sum
  let f : RFrame := { uid := x.next, tag := rkTag w, fmt := rkFmt w, rows := rkRows w, rbytes := rkRowBytes w
                      cls := rkSpill w, home := home }
  { f with pinned := decide (c.hpages cl < home + f.need) }

/-- RACK_PUSH (R265, R266, R269, R272): a frame placed on top; it waits for pages where the quota has none free. -/
def execRackPush (cl : Nat) (s : State) : Host.Outcome State Fault Refusal :=
  nextChip s (fun c => c.take cl (isRack 0) false (fun c w =>
    let x := c.rackLane cl
    let f := c.newFrame cl w
    let fixed := ((x.live.filter (fun g => !c.spillable cl g)).map RFrame.need).sum
    let st := firstBad [chk (c.rackAddrOk cl w false) stBadAddr, chk (c.on .RACK_CTL_EN (cl / 8)) 29,
      chk (decide (x.live.length < 64)) 25, chk (decide (f.need + fixed ≤ c.quota cl)) 24]
    if st ≠ stOK then c.rackRefuse cl w st
    else
      let c := if f.pinned ∧ f.cls ≠ 0 then c.set1 .RACK_STICKY_PINNED (cl / 8) else c
      (c.setLane cl { x with frames := x.frames ++ [f], drain := false, next := x.next + 1 }).laneIssue cl w f.uid))

/-- A POP or PEEK at issue: checks 4, 5, 7, 8 of R265. A spill of its frame in flight is cancelled (R275). -/
def Chip.rackTake (c : Chip) (cl : Nat) (w : List Word) (pop : Bool) : Chip :=
  let x := c.rackLane cl
  let same := match x.top with
    | some f => f.tag == rkTag w && f.fmt == rkFmt w && f.rows == rkRows w && f.rbytes == rkRowBytes w
    | none => false
  let st := firstBad [chk (c.rackAddrOk cl w true) stBadAddr, chk (c.on .RACK_CTL_EN (cl / 8)) 29,
    chk x.top.isSome 26, chk same 27]
  match x.top with
  | some f =>
    if st ≠ stOK then c.rackRefuse cl w st
    else
      let c := if f.st = .spilling then c.stopMove cl f else c
      let x := c.rackLane cl
      let x := if pop then { x.upd f.uid (fun f => { f with gone := true }) with drain := true } else x
      (c.setLane cl x).laneIssue cl w f.uid
  | none => c.rackRefuse cl w st

/-- RACK_POP (R265, R266, R275): the top frame copied out and freed. -/
def execRackPop (cl : Nat) (s : State) : Host.Outcome State Fault Refusal :=
  nextChip s (fun c => c.take cl (isRack 1) false (fun c w => c.rackTake cl w true))

/-- RACK_PEEK (R265, R266): the top frame copied out and kept. -/
def execRackPeek (cl : Nat) (s : State) : Host.Outcome State Fault Refusal :=
  nextChip s (fun c => c.take cl (isRack 2) false (fun c w => c.rackTake cl w false))

/-- RACK_DROP (R265, R266, R275): the top frame freed at issue, with its moves; behind an earlier command of the same frame that
still waits it takes its turn (DEDUCED, log entry 55). -/
def execRackDrop (cl : Nat) (s : State) : Host.Outcome State Fault Refusal :=
  nextChip s (fun c => c.take cl (isRack 3) false (fun c w =>
    let x := c.rackLane cl
    let st := firstBad [chk (c.on .RACK_CTL_EN (cl / 8)) 29, chk x.top.isSome 26,
      chk (match x.top with | some f => f.tag == rkTag w | none => false) 27]
    match x.top with
    | some f =>
      if st ≠ stOK then c.rackRefuse cl w st
      else if x.cmds.any (fun k => k.uid == f.uid) then
        (c.setLane cl (x.upd f.uid (fun f => { f with gone := true }))).laneIssue cl w f.uid
      else
        let (id, c) := c.issue cl (wordAt w 0) 1
        let c := c.frameDrop cl f
        (c.finish cl id { order := 0, detail := rackDetail (c.laneDepth cl) f.tag false false false }).laneRun cl x.cmds.length
    | none => c.rackRefuse cl w st))

/-- RACK_HINT (R266, R272): drain mode from its issue on. -/
def execRackHint (cl : Nat) (s : State) : Host.Outcome State Fault Refusal :=
  nextChip s (fun c => c.take cl (isRack 4) false (fun c w =>
    if ¬ c.on .RACK_CTL_EN (cl / 8) then c.rackRefuse cl w 29
    else
      let (id, c) := c.issue cl (wordAt w 0) 1
      (c.setLane cl { c.rackLane cl with drain := true }).finish cl id
        { order := 0, detail := rackDetail (c.laneDepth cl) 0 false false false }))

/-- RACK_PUSH_END (R266, R275): a PUSH that waited obtains its pages, copies and completes. -/
def execRackPushEnd (r lane : Nat) (s : State) : Host.Outcome State Fault Refusal :=
  nextChip s (fun c => let cl := 8 * r + lane; c.laneRun cl (c.rackLane cl).cmds.length)

/-- RACK_POP_END (R266, R271): a POP or PEEK that waited on a fetch copies and completes. -/
def execRackPopEnd (r lane : Nat) (s : State) : Host.Outcome State Fault Refusal :=
  nextChip s (fun c => let cl := 8 * r + lane; c.laneRun cl (c.rackLane cl).cmds.length)

/-! ### Spilling (R268–R270, R273, R274) -/

/-- Whether a region has a transfer slot for one more move: moves use at most XSLOTS of the 16 slots (R270). -/
def Chip.slotFree (c : Chip) (r : Nat) : Bool :=
  decide (c.movesOf r < max 1 (c.g .RACK_CTL_XSLOTS r)) && decide (c.slotsUsed r < 16)

/-- The next frame to spill of a lane (R270): class 2 in push order once pushed; above HIWAT, or while a PUSH waits for
pages, class 1 from the bottom, and class 2 frames that have come back. A frame that a waiting command reads stays (R275). -/
def Chip.spillNext (c : Chip) (cl : Nat) : Option RFrame :=
  let x := c.rackLane cl
  let can (f : RFrame) : Bool := f.st == .resident && decide (0 < f.need) && c.spillable cl f && x.cmds.all (fun k => k.uid != f.uid)
  let q := c.g .RACK_LANE_CFG_HIWAT (cl / 8) (cl % 8)
  let above := decide ((if q = 0 then c.quota cl else q) < x.held)
  let wait := match x.cmds with | k :: _ => prAct k.words == 0 | [] => false
  match x.frames.find? (fun f => can f && f.cls == 2 && !f.host) with
  | some f => some f
  | none => if above || wait then x.frames.find? (fun f => can f && (f.cls == 1 || f.host)) else none

/-- SPILL_START (R270): the engine starts a spill; a frame whose host copy is still valid gives up its pages at once. -/
def execSpillStart (r lane : Nat) (s : State) : Host.Outcome State Fault Refusal :=
  nextChip s (fun c =>
    let cl := 8 * r + lane
    let x := c.rackLane cl
    if x.frames.any (fun f => f.st == .spilling) ∨ ¬ c.slotFree r then c
    else
      match c.spillNext cl with
      | some f =>
        if f.host then c.setLane cl (x.upd f.uid (fun f => { f with st := .spilled, pages := [] }))
        else c.setLane cl (x.upd f.uid (fun f => { f with st := .spilling }))
      | none => c)

/-- A spill refused by the host port after k pages (R274): the frame stays resident and cannot spill. -/
def Chip.spillRefused (c : Chip) (cl : Nat) (f : RFrame) (k : Nat) : Chip :=
  let c := c.spillOut cl f k
  (c.setLane cl ((c.rackLane cl).upd f.uid (fun f => { f with st := .resident, unspill := true }))).set1 .RACK_STICKY_HOST_ERR (cl / 8)

/-- Pages of a frame before the first that meets no host window. -/
def Chip.homePages (c : Chip) (cl : Nat) (f : RFrame) : Nat :=
  ((List.range f.need).takeWhile (fun i => (c.homeAt cl f (4096 * i)).isSome && (c.homeAt cl f (min f.size (4096 * i + 4096) - 1)).isSome)).length

/-- SPILL_COMPLETE (R270, R273, R275): the host has accepted the last page; the frame's pages are freed. A home outside
the window is refused at the port. -/
def execSpillComplete (r lane : Nat) (s : State) : Host.Outcome State Fault Refusal :=
  nextChip s (fun c =>
    let cl := 8 * r + lane
    match (c.rackLane cl).frames.find? (fun f => f.st == .spilling) with
    | none => c
    | some f =>
      if c.homePages cl f < f.need then c.spillRefused cl f (c.homePages cl f)
      else
        let bad := f.poison || c.frameBad r f
        let c := c.spillOut cl f f.need
        c.setLane cl ((c.rackLane cl).upd f.uid (fun f => { f with st := .spilled, pages := [], host := true, poison := bad })))

/-- SPILL_REFUSED (R274): the host port refuses the write of a page; how many pages it took before is not fixed. -/
def execSpillRefused (r lane : Nat) (s : State) : Host.Outcome State Fault Refusal :=
  nextChip s (fun c =>
    let cl := 8 * r + lane
    match (c.rackLane cl).frames.find? (fun f => f.st == .spilling) with
    | some f =>
      let (n, c) := c.free 16
      c.spillRefused cl f (n % f.need)
    | none => c)

/-! ### Fetching (R271, R272, R274) -/

/-- The next frame to fetch of a lane: that of the POP or PEEK at the head, else in drain mode the topmost spilled frame
of the window; its pages must fit in the quota. -/
def Chip.fetchNext (c : Chip) (cl : Nat) : Option RFrame :=
  let x := c.rackLane cl
  let fits (f : RFrame) : Bool := f.st == .spilled && decide (x.held + f.need ≤ c.quota cl)
  let head := match x.cmds with
    | k :: _ => if prAct k.words = 1 ∨ prAct k.words = 2 then x.find k.uid else none
    | [] => none
  match head with
  | some f => if fits f then some f else none
  | none =>
    if ¬ x.drain then none
    else
      let w := x.live.reverse.take (c.g .RACK_LANE_CFG_PF_FRAMES (cl / 8) (cl % 8))
      match w.find? (fun f => f.st == .spilled) with
      | some f => if fits f then some f else none
      | none => none

/-- FRAME_FETCH_START (R271, R272): fresh pages for a spilled frame, one fetch at a time in a lane. -/
def execFrameFetchStart (r lane : Nat) (s : State) : Host.Outcome State Fault Refusal :=
  nextChip s (fun c =>
    let cl := 8 * r + lane
    let x := c.rackLane cl
    if x.frames.any (fun f => f.st == .fetching) ∨ ¬ c.slotFree r then c
    else
      match c.fetchNext cl with
      | some f =>
        let pages := c.freePages r f.need
        if pages.length < f.need then c
        else c.setLane cl (x.upd f.uid (fun f => { f with st := .fetching, pages := pages }))
      | none => c)

/-- A frame lost (R274): its pages and home are released, it is counted and recorded. -/
def Chip.frameLost (c : Chip) (cl : Nat) (f : RFrame) (crc : Bool) : Chip :=
  let r := cl / 8
  let c := c.setLane cl ((c.rackLane cl).upd f.uid (fun f => { f with st := .lost, pages := [], host := false }))
  let c := (c.set1 (if crc then .RACK_STICKY_CRC_ERR else .RACK_STICKY_HOST_ERR) r).set1 .RACK_STICKY_LOST r
  (c.inc .RACK_CNT_COUNT r 1 2).postFault
    { cls := 0x08, place := c.regionPlace r, loc := r, lockind := 3, detail := [r + cl % 8 * 16, f.tag] }

/-- FRAME_FETCH_COMPLETE (R271, R273, R274): the bytes the host answered are stored and their CRC compared; a frame with
its poison mark set is delivered poisoned whole. A failed read, or a CRC that differs, loses the frame. -/
def execFrameFetchComplete (r lane : Nat) (host : Option (List Byte)) (s : State) : Host.Outcome State Fault Refusal :=
  nextChip s (fun c =>
    let cl := 8 * r + lane
    match (c.rackLane cl).frames.find? (fun f => f.st == .fetching) with
    | none => c
    | some f =>
      match host with
      | none => c.frameLost cl f false
      | some bs =>
        let bs := (List.range f.size).map (fun i => bs.getD i 0)
        if (c.homeAt cl f 0).isNone ∨ (c.homeAt cl f (f.size - 1)).isNone then c.frameLost cl f false
        else
          let c := c.fetchIn cl f bs
          if ¬ f.poison ∧ crc32c bs ≠ f.crc then c.frameLost cl f true
          else c.setLane cl ((c.rackLane cl).upd f.uid (fun f => { f with st := .resident })))

/-! ### Ends of steps (R276, R277), the enable (R285) -/

/-- Every frame of a lane discarded, its moves stopped at the next page (R276). -/
def Chip.rackDiscard (c : Chip) (cl : Nat) : Chip :=
  ((c.rackLane cl).frames.foldl (fun c f => c.stopMove cl f) c).setLane cl {}

/-- Frames left at a seal discarded and counted (R277). -/
def Chip.rackSeal (c : Chip) (cl : Nat) : Chip :=
  let n := (c.rackLane cl).frames.length
  if n = 0 then c
  else ((c.rackDiscard cl).inc .RACK_CNT_COUNT (cl / 8) n 3).set1 .RACK_STICKY_LEFTOVER (cl / 8)

/-- `RACK_CTL` written: EN = 1 is dropped with CFG_BAD where the area or the quotas are invalid (R17, R285). -/
def Chip.rackCtlWrite (c : Chip) (fn : Fn) (r d : Nat) : Chip :=
  let locked := c.isLocked .RACK_CTL r
  let c := c.writeReg fn ⟨.RACK_CTL, r, 0, 0⟩ 31 0 d
  if locked then c
  else if ¬ bit d 0 then c.put .RACK_CTL_EN r 0
  else
    let pages := c.g .RACK_AREA_PAGES r
    let quotas := ((List.range 8).map (fun k => c.quota (8 * r + k))).sum
    if 8128 < c.g .RACK_AREA_BASE r + pages ∨ pages < quotas then c.set1 .RACK_STICKY_CFG_BAD r
    else c.set1 .RACK_CTL_EN r

/-- RACK_ENABLE (R285). -/
def execRackEnable (fn : Fn) (r : Nat) (data : Word) (s : State) : Host.Outcome State Fault Refusal :=
  nextChip s (fun c => if ¬ c.reaches fn .RACK_CTL r then c else c.rackCtlWrite fn r data.toNat)

end Sys2Proof.Machine
end

