-- ==== Sys2Proof/Machine/SolveMath.lean ====
section
/-! DEFINITION. The arithmetic of the Root Solver: SPLIT-mode products, the coupled Newton iteration, the blocked Cholesky
inverse, residuals and norms (R80, R327–R333, R336, R337). -/

namespace Sys2Proof.Machine

/-- A matrix of FP32 or FP64 values, row by row. -/
abbrev Mat := List (List FVal)

/-- Element (i, j); +0 outside. -/
def Mat.at (m : Mat) (i j : Nat) : FVal := (m.getD i []).getD j .zero
/-- The matrix of n rows and k columns of a function. -/
def Mat.of (n k : Nat) (f : Nat → Nat → FVal) : Mat := (List.range n).map (fun i => (List.range k).map (f i))
/-- The transpose of a matrix with k columns. -/
def Mat.tr (m : Mat) (k : Nat) : Mat := (List.range k).map (fun j => m.map (fun r => r.getD j .zero))
/-- Whether every element is finite. -/
def Mat.fin (m : Mat) : Bool := m.all (fun r => r.all FVal.isFin)
/-- The sub-matrix of nr rows from r0 and nc columns from c0. -/
def Mat.sub (m : Mat) (r0 nr c0 nc : Nat) : Mat := ((m.drop r0).take nr).map (fun r => (r.drop c0).take nc)
/-- A sub-matrix written into a matrix of n × n. -/
def Mat.put (m : Mat) (n r0 c0 : Nat) (b : Mat) : Mat :=
  Mat.of n n (fun i j => if r0 ≤ i ∧ i < r0 + b.length ∧ c0 ≤ j ∧ j < c0 + (b.headD []).length then b.at (i - r0) (j - c0) else m.at i j)

/-- One output element in SPLIT mode over its whole contracted length (R75, R80, R328). -/
def splitDot (xs ys : List FVal) : FVal :=
  (chunks 32 (xs.length + 1) (xs.zip ys)).foldl
    (fun acc ch => addF fp32 acc (chunkSplit (ch.map (fun p => (some p.1, some p.2)))).v) .zero

/-- A SPLIT-mode product of a by b, b with k columns. -/
def mulS (a b : Mat) (k : Nat) : Mat :=
  let bt := b.tr k
  a.map (fun r => bt.map (splitDot r))

/-! ### Products in order (R328)

The products of a stage of a solve, each formed from the results of those before it. -/

/-- What a stage does next: a product of a by b, b with n columns, and what follows from its result; its two matrices; or the
failure of a pivot. -/
inductive Prog where
  | mul (a b : Mat) (n : Nat) (rest : Mat → Prog)
  | done (x m : Mat)
  | fail

/-- What is left of a stage once its first products have given their results. -/
def Prog.after : Prog → List Mat → Prog
  | .mul _ _ _ rest, r :: rs => (rest r).after rs
  | p, _ => p

/-- The outcome of a stage whose products are all formed without an upset. -/
def Prog.value : Prog → Option (Mat × Mat)
  | .mul a b n rest => (rest (mulS a b n)).value
  | .done x m => some (x, m)
  | .fail => none

/-- The identity element. -/
def delta (i j : Nat) : FVal := if i = j then .one else .zero

/-! ### Residual and norms (R331, R333) -/

/-- resid(Z) over n real rows and columns: NaN when an element is non-finite. -/
def resid (n : Nat) (z : Mat) : FVal :=
  if ¬ z.fin then .nan
  else
    roundF fp32 .up ((List.range n).foldl (fun acc i =>
      maxV acc ((List.range n).foldl (fun s j => addF fp64 s (subF fp32 (z.at i j) (delta i j)).abs) .zero)) .zero)

/-- Square root in FP64 rounded toward +Inf. -/
def sqrtUp64 (x : FVal) : FVal :=
  match x with
  | .fin m e =>
    if m ≤ 0 then .zero
    else
      let k : Nat := 120
      let odd := (e - k) % 2
      let n := m.natAbs <<< (k + odd.toNat)
      let r := isqrt n
      roundDy fp64 .up (2 * r + b2n (r * r ≠ n) : Nat) ((e - k - odd) / 2 - 1)
  | v => v

/-- Frobenius norm of a symmetric matrix: FP64, row-major over the upper triangle, off-diagonal terms twice. -/
def frob (n : Nat) (a : Mat) : FVal :=
  sqrtUp64 ((List.range n).foldl (fun s i => (rangeFrom i (n - i)).foldl (fun s j =>
    let q := mulF fp64 (a.at i j) (a.at i j)
    addF fp64 s (if i = j then q else q.scale2 1)) s) .zero)

/-- ⌈log2 v⌉ of a positive value. -/
def ceilLog2 (v : FVal) : Int :=
  match v with
  | .fin m e => let a := m.natAbs; e + a.log2 + (if a = 2 ^ a.log2 then 0 else 1)
  | _ => 0

/-- x0 = 2^(−e/p) with p = 2^q, in FP64 to nearest-even and then FP32. -/
def startX (e : Int) (q : Nat) : FVal :=
  let p : Nat := 2 ^ q
  let k := (-e).fdiv p
  let j := ((-e) - k * p).toNat
  let big := 2 ^ (j + 64 * p)
  let v := iter isqrt q big
  roundF fp32 .rne (roundDy fp64 .rne (2 * v + b2n (v ^ p ≠ big) : Nat) (k - 65))

/-- λ of the damping classes (R331). -/
def lambda (dclass : Bool) (damp : FVal) (n : Nat) (s : Mat) : FVal :=
  if dclass then
    let tr := (List.range n).foldl (fun t i => addF fp64 t (s.at i i)) .zero
    roundF fp32 .rne (divF fp64 (mulF fp64 damp tr) (ofNatV n))
  else damp

/-- A = S + λI. -/
def damped (n : Nat) (l : FVal) (s : Mat) : Mat := Mat.of n n (fun i j => if i = j then addF fp32 (s.at i i) l else s.at i j)

/-- Whether A is refused as ill-posed before any iteration (R337). -/
def badInput (n : Nat) (a : Mat) (f : FVal) : Bool :=
  !a.fin || (List.range n).any (fun i => leV (a.at i i) .zero) || f.isZero

/-! ### Newton (R329) -/

/-- u raised to the power 2^q by repeated squaring. -/
def sqPow (n : Nat) : Nat → Mat → (Mat → Prog) → Prog
  | 0, u, go => go u
  | q + 1, u, go => .mul u u n (fun v => sqPow n q v go)

/-- The cold start: x0·I and A·2^(−e). -/
def newtonCold (n q : Nat) (e : Int) (a : Mat) : Mat × Mat :=
  let x0 := startX e q
  (Mat.of n n (fun i j => if i = j then x0 else .zero), a.map (fun r => r.map (fun v => roundF fp32 .rne (v.scale2 (-e)))))

/-- The warm start from a previous root: x and x^p·A. -/
def newtonWarm (n q : Nat) (a root : Mat) : Prog := sqPow n q root (fun u => .mul u a n (.done root))

/-- One Newton iteration: the next X and M, M first. -/
def newtonStep (n q : Nat) (x m : Mat) : Prog :=
  let p1 : FVal := ofNatV (2 ^ q + 1)
  let t := Mat.of n n (fun i j =>
    roundF fp32 .rne ((subF fp32 (if i = j then p1 else .zero) (m.at i j)).scale2 (-(q : Int))))
  sqPow n q t (fun u => .mul u m n (fun m' => .mul x t n (fun x' => .done x' m')))

/-! ### Cholesky (R330) -/

/-- FP64 Cholesky of a block, columns in ascending order, each operation a fused multiply-add, square root or quotient
rounded to nearest-even; none when a pivot is not positive and finite. The columns so far are given. -/
def chol64 (d : Mat) (n : Nat) : Nat → Mat → Option Mat
  | 0, cols => some (cols.tr n)
  | fuel + 1, cols =>
    let c := n - (fuel + 1)
    let s (i : Nat) : FVal := cols.foldl (fun acc col => fmaF fp64 (col.getD i .zero).neg (col.getD c .zero) acc) (d.at i c)
    let piv := s c
    if ¬ piv.isFin ∨ leV piv .zero then none
    else
      let l := sqrtF fp64 piv
      let col := (List.range n).map (fun i => if i < c then .zero else if i = c then l else divF fp64 (s i) l)
      chol64 d n fuel (cols ++ [col])

/-- The elements of a matrix rounded to FP32. -/
def Mat.to32 (m : Mat) : Mat := m.map (fun r => r.map (roundF fp32 .rne))

/-- One column of the inverse of a lower block, rows in ascending order, in FP64. -/
def invCol (l : Mat) (n c : Nat) : List FVal :=
  (List.range n).foldl (fun (col : List FVal) i =>
    col ++ [if i < c then .zero
      else if i = c then divF fp64 .one (l.at c c)
      else
        let s := (rangeFrom c (i - c)).foldl (fun acc k => fmaF fp64 (l.at i k) (col.getD k .zero) acc) .zero
        (divF fp64 s (l.at i i)).neg]) []

/-- The inverse of a lower block in FP64, rounded to FP32. -/
def inv64 (l : Mat) (n : Nat) : Mat := (Mat.tr ((List.range n).map (invCol l n)) n).to32

/-- Rows of block i of a matrix of dimension n. -/
def blk (n i : Nat) : Nat := min 64 (n - 64 * i)

/-- Difference of two blocks, element by element in FP32. -/
def subM (a b : Mat) : Mat := a.zipWith (fun x y => x.zipWith (subF fp32) y) b

/-- Block (i, j) of A less the product of the factor's rows to the left. -/
def cholRest (n : Nat) (a l : Mat) (i j : Nat) (go : Mat → Prog) : Prog :=
  let ab := a.sub (64 * i) (blk n i) (64 * j) (blk n j)
  if j = 0 then go ab
  else .mul (l.sub (64 * i) (blk n i) 0 (64 * j)) ((l.sub (64 * j) (blk n j) 0 (64 * j)).tr (64 * j)) (blk n j)
    (fun p => go (subM ab p))

/-- The blocks of block column j below the diagonal, in ascending order; `iv` is the transposed inverse of its diagonal block. -/
def cholColumn (n : Nat) (a iv : Mat) (j : Nat) : List Nat → Mat → (Mat → Prog) → Prog
  | [], l, go => go l
  | i :: is, l, go => cholRest n a l i j (fun b => .mul b iv (blk n j) (fun p => cholColumn n a iv j is (l.put n (64 * i) (64 * j) p) go))

/-- The blocked factor, block columns in ascending order; it fails when a pivot does (R337). -/
def cholFactor (n : Nat) (a : Mat) : List Nat → Mat → (Mat → Prog) → Prog
  | [], l, go => go l
  | j :: js, l, go => cholRest n a l j j (fun d =>
      match chol64 d (blk n j) (blk n j) [] with
      | none => .fail
      | some d =>
        let d := d.to32
        cholColumn n a ((inv64 d (blk n j)).tr (blk n j)) j (rangeFrom (j + 1) (cdiv n 64 - (j + 1))) (l.put n (64 * j) (64 * j) d)
          (fun l => cholFactor n a js l go))

/-- The inverse of diagonal block i of the factor. -/
def triDiag (n : Nat) (l : Mat) (i : Nat) : Mat := inv64 (l.sub (64 * i) (blk n i) (64 * i) (blk n i)) (blk n i)

/-- The blocks of block column j of the factor's inverse below the diagonal, in ascending order. -/
def triColumn (n : Nat) (l : Mat) (j : Nat) : List Nat → Mat → (Mat → Prog) → Prog
  | [], v, go => go v
  | i :: is, v, go =>
    .mul (l.sub (64 * i) (blk n i) (64 * j) (64 * (i - j))) (v.sub (64 * j) (64 * (i - j)) (64 * j) (blk n j)) (blk n j)
      (fun s => .mul (triDiag n l i) s (blk n j)
        (fun p => triColumn n l j is (v.put n (64 * i) (64 * j) (p.map (fun r => r.map FVal.neg))) go))

/-- The inverse of the lower factor, block columns in ascending order. -/
def triInverse (n : Nat) (l : Mat) : List Nat → Mat → (Mat → Prog) → Prog
  | [], v, go => go v
  | j :: js, v, go => triColumn n l j (rangeFrom (j + 1) (cdiv n 64 - (j + 1))) (v.put n (64 * j) (64 * j) (triDiag n l j))
      (fun v => triInverse n l js v go)

/-- The Cholesky start: Y = L⁻ᵀL⁻¹ and W = A·Y. -/
def cholStart (n : Nat) (a : Mat) : Prog :=
  cholFactor n a (List.range (cdiv n 64)) [] (fun l => triInverse n l (List.range (cdiv n 64)) [] (fun v =>
    .mul (v.tr n) v n (fun y => .mul a y n (.done y))))

/-- One refinement step: Y·(2I − W) and A times it. -/
def cholStep (n : Nat) (a y w : Mat) : Prog :=
  let t := Mat.of n n (fun i j => subF fp32 (if i = j then ofNatV 2 else .zero) (w.at i j))
  .mul y t n (fun y => .mul a y n (.done y))

/-! ### Tiles of a product (R328) -/

/-- The elements of a product from those of its tiles. -/
def ofTiles (m n : Nat) (ts : List (Nat × Nat × Mat)) : Mat :=
  Mat.of m n (fun r k => match ts.find? (fun t => t.1 == r / 64 && t.2.1 == k / 32) with
    | some t => t.2.2.at (r % 64) (k % 32)
    | none => .zero)

/-- The stored value of element (a, b), a ≤ b, of an iterate (R336). -/
def storedElem (z : Mat) (a b : Nat) : FVal := roundF fp32 .rne ((addF fp32 (z.at a b) (z.at b a)).scale2 (-1))

/-- Whether every stored element of an iterate of n rows is finite (R337, R343). -/
def storedFin (n : Nat) (z : Mat) : Bool :=
  (List.range n).all (fun a => (rangeFrom a (n - a)).all (fun b => (storedElem z a b).isFin))

end Sys2Proof.Machine
end

