-- ==== Sys2Proof/Machine/Solver.lean ====
section
/-! DEFINITION. The Root Solver: SOLVE commands and the input queue, solve slots, tiles on lent units, iterations,
deadlines, results, the root table and the install cut (R122–R126, R327–R353). -/

namespace Sys2Proof.Machine

/-- The Root Solver of a region. -/
def Chip.solver (c : Chip) (r : Nat) : SolverS := sget {} c.solvers r
/-- The Root Solver of a region replaced. -/
def Chip.setSolver (c : Chip) (r : Nat) (x : SolverS) : Chip := { c with solvers := sset {} c.solvers r x }
/-- The partition of a region's Solver. -/
def Chip.solvPart (c : Chip) (r : Nat) : Nat := (c.owner r).getD 0
/-- A solve found by its ticket. -/
def SolverS.find (x : SolverS) (t : Nat) : Option Solve := x.slots.find? (fun s => s.ticket == t)
/-- A solve of a region replaced. -/
def Chip.setSolve (c : Chip) (r : Nat) (s : Solve) : Chip :=
  let x := c.solver r
  c.setSolver r { x with slots := x.slots.map (fun o => if o.ticket = s.ticket then s else o) }
/-- A solve taken out of its slot. -/
def Chip.dropSolve (c : Chip) (r t : Nat) : Chip :=
  let x := c.solver r
  c.setSolver r { x with slots := x.slots.filter (fun o => o.ticket != t) }

/-! ### The root table (R341) -/

/-- Tier address of entry e of a region's root table. -/
def Chip.entryAt (c : Chip) (r e : Nat) : Nat := 2 * 2 ^ 60 + 4096 * c.g .SOLV_RTAB_ADDR r + 256 * e
/-- Static word i of entry e as read at partition start. -/
def SolverS.stat (x : SolverS) (e i : Nat) : Word := wordAt (x.table.getD e []) i
/-- Whether an entry is in use. -/
def SolverS.used (x : SolverS) (e : Nat) : Bool := wbit (x.stat e 0) 36
/-- Buffer b of an entry. -/
def SolverS.bufAt (x : SolverS) (e b : Nat) : Nat := (x.stat e (1 + b)).toNat
/-- The record of entry e in a parity slot, with poison. -/
def Chip.rootRec (c : Chip) (r e slot : Nat) : List Word × Bool :=
  c.tierWords (c.solvPart r) (c.entryAt r e + 64 + 64 * slot) 8
/-- BUF of a record: the buffer it names, none when it is not valid. -/
def recBuf (w : List Word) : Nat := if wbit (wordAt w 0) 0 then wbits (wordAt w 0) 2 1 else 3

/-- The static table read at partition start (R341). -/
def Chip.loadRootTable (c : Chip) (r : Nat) : Chip :=
  let t := (List.range (c.g .SOLV_RTAB_COUNT r)).map (fun e => (c.tierWords (c.solvPart r) (c.entryAt r e) 8).1)
  c.setSolver r { c.solver r with table := t }

/-! ### Checks at issue (R339) -/

/-- Bytes of a work area (R338). -/
def workBytes (dim : Nat) : Nat := 6 * subRows dim * subRows dim * 16384

/-- Whether n bytes of a tier address, in pages, lie in the near tier of a partition. -/
def Chip.pagesOk (c : Chip) (p a n : Nat) : Bool :=
  (List.range (cdiv n 4096)).all (fun i => bits (a + 4096 * i) 63 60 == 2 && (c.tierKey p (a + 4096 * i)).isSome)

/-- Buffers of the entry of a descriptor, when it uses one that exists. -/
def SolverS.entryBufs (x : SolverS) (w : List Word) : List Nat :=
  if svUsesEntry w ∧ x.used (svEntry w) then (List.range 3).map (x.bufAt (svEntry w)) else []

/-- Input areas of a descriptor. -/
def solveInputs (w : List Word) : List Nat := if svFixed w then [svIn w 0] else [svIn w 0, svIn w 1]

/-- Checks 5–10 of R339; with DIM = 0 none is made. -/
def Chip.solveChecks (c : Chip) (r : Nat) (w : List Word) : Nat :=
  if svDim w = 0 then stOK
  else
    let x := c.solver r
    let p := c.solvPart r
    let d := svDim w
    let e := svEntry w
    let bufs := x.entryBufs w
    let areas := solveInputs w ++ (if svInstall w then bufs else [svOut w])
    let busy := x.slots.any (fun s => svInstall s.words && svEntry s.words == e)
      || x.wait.any (fun y => svInstall y.2.2 && svEntry y.2.2 == e)
    firstBad [
      chk (c.on .SOLV_CFG_EN r) 24,
      chk (areas.all (fun a => c.pagesOk p a (blockBytes d)) && c.pagesOk p (svWork w) (workBytes d)) stBadAddr,
      chk ((solveInputs w ++ bufs ++ (if svInstall w then [] else [svOut w])).all (fun a =>
        (overlapAt a (blockBytes d) (svWork w) (workBytes d)).isNone)) stBadOverlap,
      chk (!svUsesEntry w || (decide (e < c.g .SOLV_RTAB_COUNT r) && x.used e)) 25,
      chk (!svInstall w || !busy) 26,
      chk (decide (cdiv d 4 ≤ c.g .SOLV_STAGE_PAGES r) && (!svUsesEntry w || wbits (x.stat e 0) 35 24 == d)) stBadShape]

/-! ### Acceptance and results (R340) -/

/-- The next ticket: the register's number, or the first after it that no unretired solve holds. -/
def Chip.nextTicket (c : Chip) (r : Nat) : Nat :=
  let n := c.g .SOLV_TICKET_NEXT r
  ((firstSome (fun i => if ((c.solver r).find ((n + i) % 4096)).isNone then some ((n + i) % 4096) else none) 65 0)).getD n

/-- Whether a slot is free. -/
def Chip.slotOpen (c : Chip) (r : Nat) : Bool := decide ((c.solver r).slots.length < 64)

/-- The lowest-numbered buffer of an entry that neither record names (R342). -/
def Chip.freeBuf (c : Chip) (r e : Nat) : Nat :=
  let b0 := recBuf (c.rootRec r e 0).1
  let b1 := recBuf (c.rootRec r e 1).1
  ((List.range 3).find? (fun b => b != b0 && b != b1)).getD 3

/-- A descriptor accepted into a free slot: its ticket and the chip. A trivial solve has already ended (R339). -/
def Chip.accept (c : Chip) (r : Nat) (w : List Word) : Nat × Chip :=
  let t := c.nextTicket r
  let x := c.solver r
  let triv := svDim w == 0
  let s : Solve := { ticket := t, words := w, order := x.count, accepted := c.now
                     buf := if svInstall w && !triv then c.freeBuf r (svEntry w) else 3
                     stage := if triv then .ended else .waiting, status := if triv then 5 else 0 }
  let c := c.setSolver r { x with slots := x.slots ++ [s], count := x.count + 1, recent := ((t, false) :: x.recent).take 2048 }
  let c := if svFixed w ∨ triv then c else c.noteStat (c.solvPart r) (svIn w 0) (svIn w 1) (svDim w)
  (t, c.put .SOLV_TICKET_NEXT r (t + 1))

/-- Whether a pin names a known ticket of a region's Solver (R246, R340). -/
def Chip.ticketKnown (c : Chip) (r t : Nat) : Bool := (c.solver r).recent.any (fun y => y.1 == t)
/-- Whether a pin's solve has recorded its completion. -/
def Chip.ticketDone (c : Chip) (r t : Nat) : Bool :=
  match (c.solver r).recent.find? (fun y => y.1 == t) with | some y => y.2 | none => true

/-- A result record (R340). -/
def resultWords (r : Nat) (s : Solve) (res : Nat) (wrote : Bool) (ts td : Nat) : List Word :=
  let w := s.words
  [Word.ofNat (svStag w + 0xA2 * 2 ^ 16 + s.status * 2 ^ 24 + b2n (s.warmRej != 0) * 2 ^ 27 + s.warmRej % 4 * 2 ^ 28
      + b2n s.chk * 2 ^ 30 + b2n s.hdrBad * 2 ^ 31 + s.ticket * 2 ^ 48 + r * 2 ^ 60),
   Word.ofNat (s.k + res * 2 ^ 32), Word.ofNat (s.sstep % 2 ^ 48),
   Word.ofNat (svEntry w + (if wrote && svInstall w then s.buf else 3) * 2 ^ 12),
   Word.ofNat ts, Word.ofNat td, Word.ofNat s.macs, Word.ofNat (if s.warm then 0 else unsigned 9 s.e)]

/-- A result record of a rejected packet (R339, R340). -/
def rejectWords (r : Nat) (w : List Word) (rej ts now : Nat) : List Word :=
  [Word.ofNat (svStag w + 0xA2 * 2 ^ 16 + 2 * 2 ^ 24 + rej * 2 ^ 32 + r * 2 ^ 60), 0, 0, Word.ofNat (svEntry w + 3 * 2 ^ 12),
   Word.ofNat ts, Word.ofNat now, 0, 0]

/-- A record posted to SCQ: a disabled queue discards it and sets CQ_ERR; none while the queue has no cell. -/
def Chip.postResult (c : Chip) (r q : Nat) (ws : List Word) : Option Chip :=
  match c.post r q (ws.map (·, false)) with
  | .linked c' => some c'
  | .closed c' => some (c'.set1 .SOLV_STICKY_CQ_ERR r)
  | .noCell => none

/-- The structure tag of a solve (R332). -/
def structTag (w : List Word) : Nat :=
  svDim w % 2 ^ 12 + svPexp w * 2 ^ 12 + b2n (svChol w) * 2 ^ 14 + b2n (svDclass w) * 2 ^ 15 + svPart w * 2 ^ 16

/-- FP32 code of the residual a result shows. -/
def Solve.res (s : Solve) : Nat :=
  match s.status with
  | 0 => encodeF fp32 s.rho
  | 1 => encodeF fp32 s.rho
  | 3 => encodeF fp32 s.rho
  | 4 => encodeF fp32 .nan
  | _ => 0

/-- Whether a final status writes an output (R335). -/
def writesOut (st : Nat) : Bool := st == 0 || st == 1 || st == 3 || st == 4

/-- The output page and sub-tiles written (R302, R336); writer 6 at the fence. -/
def Chip.writeRoot (c : Chip) (r : Nat) (s : Solve) (a : Nat) : Chip :=
  let w := s.words
  let p := c.solvPart r
  let d := svDim w
  let nan := s.status == 4
  let c := c.tierWriteBy p 6 a (headerPage [Word.ofNat (svBlock w + d % 2 ^ 12 * 2 ^ 24), Word.ofNat (structTag w + s.res * 2 ^ 32),
    Word.ofNat (s.status + s.k * 2 ^ 3 + b2n s.warm * 2 ^ 11), Word.ofNat (s.sstep % 2 ^ 48)]) false
  (List.range (subCount d)).foldl (fun c t =>
    let (pi, qi) := subTile (subRows d) (subRows d) t
    let v (k : Nat) : Nat :=
      let i := 64 * pi + k / 64
      let j := 64 * qi + k % 64
      if d ≤ i ∨ d ≤ j then 0
      else if nan then encodeF fp32 .nan
      else encodeF fp32 (if i ≤ j then storedElem s.x i j else storedElem s.x j i)
    c.tierWriteBy p 6 (a + 4096 + 16384 * t) (tileBytes v) false) c

/-- The sticky bit of a status (R350). -/
def Chip.solveSticky (c : Chip) (r st : Nat) : Chip :=
  match st with
  | 2 => c.set1 .SOLV_STICKY_ABANDONED r
  | 3 => c.set1 .SOLV_STICKY_CAPPED r
  | 4 => c.set1 .SOLV_STICKY_ILL r
  | 6 => c.set1 .SOLV_STICKY_POISON r
  | _ => c

/-- DROP reads 1 until every solve accepted before it has recorded its end (R351). -/
def Chip.dropDone (c : Chip) (r : Nat) : Chip :=
  let x := c.solver r
  if x.slots.any (fun s => decide (s.order < x.dropped) && s.stage != .recorded) then c else c.put .SOLV_CMD_DROP r 0

/-- Whether the install cut of a partition is taken and its SEAL_READY not yet sent: no completion is recorded then (R343). -/
def Chip.cutOpen (c : Chip) (p : Nat) : Bool := (c.stepS p).cutDone && (sget {} c.seals p).votedAt.isNone

/-- An ended solve's output written and its completion recorded, unless its result queue has no cell (R340) or an install cut
waits for its SEAL_READY (R343); SOLVE_COMPLETE tries again. -/
def Chip.record (c : Chip) (r : Nat) (s : Solve) : Chip :=
  if c.cutOpen (c.solvPart r) then c else
  let w := s.words
  let out := writesOut s.status
  let (ts, c') := match s.started with | some t => (t, c) | none => c.free 64
  let c' := if out then c'.writeRoot r s (if svInstall w then (c'.solver r).bufAt (svEntry w) s.buf else svOut w) else c'
  match c'.postResult r (svScq w) (resultWords r s s.res out ts c.now) with
  | none => c
  | some c =>
    let c := (c.solveSticky r s.status).inc .SOLV_CNT_COUNT r 1 0
    let x := c.solver r
    let c := c.setSolver r { x with recent := x.recent.map (fun y => if y.1 = s.ticket then (y.1, true) else y) }
    let c := c.put .SOLV_TICKET_LAST_DONE r s.ticket
    let c := if svInstall w && svDim w != 0 then c.setSolve r { s with stage := .recorded } else c.dropSolve r s.ticket
    c.dropDone r

/-- A solve ended with a status: its completion is recorded at once where nothing is written (R340). -/
def Chip.endSolve (c : Chip) (r : Nat) (s : Solve) (st : Nat) : Chip :=
  let s := { s with stage := .ended, status := st, todo := [], results := [], ends := [], load := none }
  let c := c.setSolve r s
  if writesOut st then c else c.record r s

/-! ### SOLVE and the input queue (R339, R340) -/

/-- CMD_SOLVE (R338–R340): checks at issue, then acceptance with the ticket in DETAIL, or a wait for a slot. A trivial solve
ends at once. -/
def execCmdSolve (cl : Nat) (s : State) : Host.Outcome State Fault Refusal :=
  nextChip s (fun c => c.take cl (isOp 0x22) false (fun c w =>
    let r := regionOfCl cl
    let st := c.solveChecks r w
    if st ≠ stOK then c.refuse cl w st
    else if ¬ c.slotOpen r ∨ ¬ (c.solver r).wait.isEmpty then
      let (id, c) := c.issue cl (wordAt w 0) 1
      let x := c.solver r
      c.setSolver r { x with wait := x.wait ++ [(cl, id, w)] }
    else
      let (t, c) := c.accept r w
      let c := c.issueEnd cl (wordAt w 0) { order := 0, detail := t }
      match (c.solver r).find t with
      | some v => if svDim w = 0 then c.record r v else c
      | none => c))

/-- SOLVE_CMD_ACCEPT (R340): the first waiting SOLVE command takes a freed slot. -/
def execSolveCmdAccept (r : Nat) (s : State) : Host.Outcome State Fault Refusal :=
  nextChip s (fun c =>
    let x := c.solver r
    match x.wait with
    | [] => c
    | (cl, id, w) :: rest =>
      if ¬ c.slotOpen r then c
      else
        let (t, c) := (c.setSolver r { x with wait := rest }).accept r w
        let c := c.finish cl id { order := 0, detail := t }
        match (c.solver r).find t with
        | some v => if svDim w = 0 then c.record r v else c
        | none => c)

/-- Checks 1–4 of R339 of a packet. -/
def packetChecks (ws : List Word) : Nat :=
  let h := wordAt ws 0
  firstBad [chk (solveFieldOk ws && h.toNat == h.toNat % 2 ^ 18) stBadField,
    chk (hdrOp h == 0x22 && hdrLen h == 16 && ws.length == 16) stBadLen, solveOwn ws]

/-- SOLVE_QUEUE_ACCEPT (R338–R340): a packet of the input queue, read only while a slot is free: discarded when its word 1
cannot be read, rejected with a result record, with SOLV_CFG.EN = 0 too, or accepted. -/
def execSolveQueueAccept (r : Nat) (s : State) : Host.Outcome State Fault Refusal :=
  nextChip s (fun c =>
    let q := c.g .SOLV_CFG_SQ r
    if ¬ c.on .SOLV_CFG_SQ_EN r ∨ c.g .QP_QCFG_CKIND r q ≠ 1 ∨ ¬ c.on .QP_QCFG_EN r q ∨ ¬ c.slotOpen r then c
    else
      match c.qTake r q with
      | none => c
      | some (k, c') =>
        let ws := k.words.map Prod.fst
        if k.null ∨ ws.length < 2 ∨ k.words.any Prod.snd then c'.set1 .SOLV_STICKY_REJECT r
        else
          let st := firstBad [packetChecks ws, c'.solveChecks r ws]
          if st ≠ stOK then
            let (ts, c') := c'.free 64
            match c'.postResult r (svScq ws) (rejectWords r ws st ts c.now) with
            | some c' => c'.set1 .SOLV_STICKY_REJECT r
            | none => c
          else
            let (t, c') := c'.accept r ws
            match (c'.solver r).find t with
            | some v => if svDim ws = 0 then c'.record r v else c'
            | none => c')

/-! ### Running a solve (R329–R337) -/

/-- A stored block read whole: its matrix, header and poison (R302). -/
def Chip.loadBlock (c : Chip) (p a d : Nat) : List (List FVal) × List Word × Bool :=
  let (h, hb) := c.tierWords p a 8
  let ts := (List.range (subCount d)).map (fun t => c.tileWords p (a + 4096 + 16384 * t))
  let P := subRows d
  let el (i j : Nat) : FVal :=
    let u := min i j
    let v := max i j
    let pi := u / 64
    let t := pi * P - pi * (pi - 1) / 2 + (v / 64 - pi)
    decodeF fp32 ((ts.getD t ([], false)).1.getD (u % 64 * 64 + v % 64) 0)
  (Mat.of d d el, h, hb || ts.any Prod.snd)

/-- The tiles of a product of a by b, b with n columns: at most 64 × 32 each, over the whole contracted length (R328). -/
def solverTiles (t : Nat) (a b : Mat) (n : Nat) : List STile :=
  let bt := b.tr n
  (List.range (cdiv a.length 64)).flatMap (fun i => (List.range (cdiv n 32)).map (fun j =>
    STile.fresh { ticket := t, i := i, j := j, rows := (a.drop (64 * i)).take 64, cols := (bt.drop (32 * j)).take 32, left := 0 }))

/-- The products of a solve's stage, in order (R329, R330). -/
def Solve.prog (s : Solve) : Prog :=
  let n := svDim s.words
  let q := svPexp s.words
  let chol := svChol s.words
  match s.stage with
  | .setup =>
    if chol then cholStart n s.a
    else if s.warm then newtonWarm n q s.a s.root
    else .done (newtonCold n q s.e s.a).1 (newtonCold n q s.e s.a).2
  | .iterating => if chol then cholStep n s.a s.x s.m else newtonStep n q s.x s.m
  | _ => .done [] []

/-- What a solve's stage does after the products it has formed. -/
def Solve.next (s : Solve) : Prog := s.prog.after s.results

/-- The tiles of the product that a solve forms next. -/
def Solve.deal (s : Solve) : Solve :=
  match s.next with
  | .mul a b n _ => { s with todo := solverTiles s.ticket a b n }
  | _ => s

/-- A solve none of whose tiles is left: the product that its tiles have formed is a result, and the next one is dealt out. -/
def Solve.advance (s : Solve) : Solve :=
  if s.lent ≠ 0 ∨ ¬ s.todo.isEmpty then s
  else
    match s.next, s.ends with
    | .mul a _ n _, _ :: _ => Solve.deal { s with results := s.results ++ [ofTiles a.length n s.ends], ends := [] }
    | _, _ => s.deal

/-- The two matrices of a stage all of whose products are formed. -/
def Solve.outcome (s : Solve) : Option (Mat × Mat) :=
  if s.lent ≠ 0 ∨ ¬ s.todo.isEmpty then none
  else match s.next with | .done x m => some (x, m) | _ => none

/-- A solve goes on with its stage; a pivot that fails ends it ILL_POSED (R337). -/
def Chip.goOn (c : Chip) (r : Nat) (s : Solve) : Chip :=
  let s := s.advance
  match s.next with
  | .fail => if s.lent = 0 ∧ s.todo.isEmpty then c.endSolve r s 4 else c.setSolve r s
  | _ => c.setSolve r s

/-- Working traffic of a stage in the near tier and the stage area: the manual states no byte count. -/
def Chip.workTraffic (c : Chip) (p : Nat) : Chip :=
  [11, 12, 13, 14].foldl (fun c i => let (n, c) := c.free 48; c.meter p i n) c

/-- FP64 fused multiply-adds of a stage, counted; the manual states no number per step (R345). -/
def Chip.countFp64 (c : Chip) (r : Nat) : Chip :=
  let (n, c) := c.free 48
  (c.inc .SOLV_CNT_COUNT r n 6).meter (c.solvPart r) 10 n

/-- The work area holds values that the manual does not state once a solve has run. -/
def Chip.fillWork (c : Chip) (p : Nat) (w : List Word) : Chip :=
  (List.range (workBytes (svDim w) / 64)).foldl (fun c i =>
    let (n, c) := c.free 512
    match c.tierKey p (svWork w + 64 * i) with
    | some k => c.putBytes k (leBytes 64 n)
    | none => c) c

/-- What a stage leaves behind beside its result: FP64 operations counted, traffic metered, the work area written. -/
def Chip.stageWork (c : Chip) (r : Nat) (w : List Word) : Chip :=
  ((c.countFp64 r).workTraffic (c.solvPart r)).fillWork (c.solvPart r) w

/-- A warm start rejected: counted, and marked (R332). -/
def Chip.warmRejected (c : Chip) (r : Nat) : Chip := (c.set1 .SOLV_STICKY_WARMREJ r).inc .SOLV_CNT_COUNT r 1 4

/-- The solve that becomes active next: PRIO first, then acceptance order. -/
def SolverS.nextActive (x : SolverS) : Option Solve :=
  let l := x.slots.filter (fun s => s.stage == .waiting)
  match l.find? (fun s => svPrio s.words) with | some s => some s | none => l.head?

/-- Active solves: activated and not yet recorded. -/
def SolverS.active (x : SolverS) : List Solve :=
  x.slots.filter (fun s => s.started.isSome && s.stage != .recorded)

/-- SOLVE_ACTIVATE (R331, R332, R337, R340): with fewer than 4 active, the next accepted solve starts and loads its input, and
its warm root where it may use one; the input is damped and scaled, and a bad one ends the solve at once. -/
def execSolveActivate (r : Nat) (s : State) : Host.Outcome State Fault Refusal :=
  nextChip s (Chip.mergeWake ∘ fun c =>
    let x := c.solver r
    match x.nextActive with
    | none => c
    | some v =>
      if 4 ≤ x.active.length then c
      else
        let w := v.words
        let p := c.solvPart r
        let d := svDim w
        let par := c.g .HUB_STEP_SEALED_STEP p % 2
        let (inp, h, bad) := c.loadBlock p (svIn w (if svFixed w then 0 else par)) d
        let (rec', rb) := c.rootRec r (svEntry w) par
        let rej := if ¬ svWarm w then 0
          else if ¬ wbit (wordAt rec' 0) 0 then 2
          else if wbits (wordAt rec' 1) 31 0 ≠ structTag w then 1 else 0
        let warm := svWarm w && rej == 0
        let (root, _, rp) := if warm then c.loadBlock p (x.bufAt (svEntry w) (recBuf rec')) d else ([], [], false)
        let hdrBad := wbits (wordAt h 0) 23 0 != svBlock w || wbits (wordAt h 0) 35 24 != d % 2 ^ 12
        let a := damped d (lambda (svDclass w) (svDamp w) d inp) inp
        let f := frob d a
        let v := { v with started := some c.now, stage := .setup, input := inp, root := root, sstep := wbits (wordAt h 2) 47 0
                          warm := warm, warmRej := rej, hdrBad := hdrBad, a := a, e := ceilLog2 f
                          load := if svFixed w then none else some (p, svIn w par) }
        let c := (c.meter p 13 (blockBytes d)).meter p 13 (if warm then blockBytes d else 0)
        let c := if rej ≠ 0 then c.warmRejected r else c
        if bad ∨ (svWarm w ∧ rb) ∨ rp then c.endSolve r v 6
        else if hdrBad then c.endSolve r v 2
        else if badInput d a f then (c.stageWork r w).endSolve r v 4
        else c.goOn r v)

/-- Whether a solve's stage has every product formed. -/
def Solve.idle (s : Solve) : Bool := s.outcome.isSome

/-- The outcome after a residual has been formed (R335, R337): the final status, none to go on. -/
def Solve.verdict (s : Solve) (iterated : Bool) : Option Nat :=
  let p1 : FVal := ofNatV (if svChol s.words then 2 else 2 ^ svPexp s.words + 1)
  if s.rho.isNan ∨ ¬ Mat.fin s.x ∨ (iterated ∧ leV p1 s.rho) ∨ 2 ≤ s.rises then some 4
  else if leV s.rho (svTol s.words) then some 0
  else if svCap s.words ≤ s.k then some 3
  else none

/-- A solve goes on to its next iteration, or ends. -/
def Chip.judge (c : Chip) (r : Nat) (s : Solve) (iterated : Bool) : Chip :=
  match s.verdict iterated with
  | some st => c.endSolve r s st
  | none => c.goOn r { s with stage := .iterating, results := [], ends := [], load := none }

/-- SOLVE_SETUP_END (R329–R333, R337): the starting point is formed, the warm start kept or rejected, and the first residual
tested; MERGE commands that waited for the load go on (R344). -/
def execSolveSetupEnd (r slot : Nat) (s : State) : Host.Outcome State Fault Refusal :=
  nextChip s (Chip.mergeWake ∘ fun c =>
    match (c.solver r).find slot with
    | none => c
    | some v =>
      match v.outcome with
      | none => c
      | some (x, m) =>
        if v.stage ≠ .setup then c
        else
          let w := v.words
          let d := svDim w
          let c := c.stageWork r w
          let rho := resid d m
          if ¬ svChol w ∧ v.warm ∧ (rho.isNan ∨ leV .one rho ∨ ¬ Mat.fin x) then
            let (x, m) := newtonCold d (svPexp w) v.e v.a
            (c.warmRejected r).judge r { v with x := x, m := m, rho := resid d m, warm := false, warmRej := 3 } false
          else c.judge r { v with x := x, m := m, rho := rho } false)

/-- SOLVE_ITERATION_END (R329, R330, R333–R337): one iteration completes and its residual is tested. -/
def execSolveIterationEnd (r slot : Nat) (s : State) : Host.Outcome State Fault Refusal :=
  nextChip s (fun c =>
    match (c.solver r).find slot with
    | none => c
    | some v =>
      match v.outcome with
      | none => c
      | some (x, m) =>
        if v.stage ≠ .iterating then c
        else
          let rho := resid (svDim v.words) m
          let c := (c.stageWork r v.words).inc .SOLV_CNT_COUNT r 1 1
          c.judge r { v with x := x, m := m, k := v.k + 1, rho := rho, rises := if ltV v.rho rho then v.rises + 1 else 0 } true)

/-- Nanoseconds a solve may take from acceptance (R334, R348). -/
def Chip.solveLimit (c : Chip) (r : Nat) (w : List Word) : Nat :=
  let m := c.g .SOLV_CFG_DMAX r * 1000000
  let d := svDeadline w * 1000
  if d = 0 ∨ m < d then m else d

/-- SOLVE_DEADLINE (R334, R335): before set-up has ended the solve ends ABANDONED; after it the last completed iterate
returns as PARTIAL. -/
def execSolveDeadline (r slot : Nat) (s : State) : Host.Outcome State Fault Refusal :=
  nextChip s (Chip.mergeWake ∘ fun c =>
    match (c.solver r).find slot with
    | none => c
    | some v =>
      if c.now < v.accepted + c.solveLimit r v.words then c
      else
        match v.stage with
        | .waiting => c.endSolve r v 2
        | .setup => c.endSolve r v 2
        | .iterating => c.endSolve r v 1
        | _ => c)

/-- SOLVE_COMPLETE (R340): an ended solve's output is written and its completion recorded. -/
def execSolveComplete (r slot : Nat) (s : State) : Host.Outcome State Fault Refusal :=
  nextChip s (fun c =>
    match (c.solver r).find slot with
    | some v => if v.stage = .ended then c.record r v else c
    | none => c)

/-- SOLVE_DROP (R346, R351): every accepted solve that has not recorded its completion ends ABANDONED, a write in flight
included; one that has ended with nothing to write keeps its status (R335). -/
def execSolveDrop (fn : Fn) (r : Nat) (s : State) : Host.Outcome State Fault Refusal :=
  nextChip s (Chip.mergeWake ∘ fun c =>
    if ¬ c.reaches fn .SOLV_CMD r then c
    else
      let x := c.solver r
      let c := (c.setSolver r { x with dropped := x.count }).set1 .SOLV_CMD_DROP r
      let c := x.slots.foldl (fun c v =>
        if v.stage = .recorded ∨ (v.stage = .ended ∧ ¬ writesOut v.status) then c else c.endSolve r v 2) c
      c.dropDone r)

/-! ### Solver tiles on lent units (R122–R126, R342, R346) -/

/-- The first tile of a region's active solves, in acceptance order, that a unit may start. -/
def Chip.solverNext (c : Chip) (r u : Nat) : Option (Solve × STile) :=
  (sortBy Solve.order (c.solver r).active).findSome? (fun s =>
    (s.todo.find? (fun t => t.avoid != u)).map (fun t => (s, t)))

/-- A tile run of the Solver as a unit's running work. -/
def solverRun (u : Nat) (t : STile) : Running :=
  { kind := .solver t, wbits := t.wbits
    job := { cl := clOfU u, u := u, id := 0, order := 0, i := 0, j := 0, ks := 0, mm := [], fused := none, redo := 0 } }

/-- Whether a unit may run a Solver tile now: idle, lending, in service (R123, R345). -/
def Chip.mayLend (c : Chip) (u : Nat) : Bool := (c.unit u).run.isNone && c.on .MXE_CTL_LEND u && c.inService u

/-- Whether the solve of a tile still runs. -/
def Chip.solveRuns (c : Chip) (r : Nat) (t : STile) : Bool :=
  match (c.solver r).find t.ticket with
  | some s => s.stage == .setup || s.stage == .iterating
  | none => false

/-- A new Solver tile started on a unit, with its weight bits (R116); its solve's load has ended (R344). -/
def Chip.newSolver (c : Chip) (u : Nat) : Chip :=
  let r := regionOfU u
  match c.solverNext r u with
  | none => c
  | some (s, t) =>
    let old := (c.rd .MXE_CKSEED u).toNat
    let drawn := c.g .MXE_CTL_W_MODE u == 0 || c.g .MXE_CTL_W_MODE u == 3
    let (wb, c) := c.weightBits u
    let c := c.setSolve r { s with todo := s.todo.erase t, lent := s.lent + 1, load := none }
    c.setUnit u { c.unit u with run := some (solverRun u { t with wbits := wb, seed := if drawn then some old else none }) }

/-- A Solver tile started or resumed on a unit; one in bank S whose solve has ended is dropped (R334). -/
def Chip.startSolver (c : Chip) (u : Nat) : Chip :=
  if ¬ c.mayLend u then c
  else
    match (c.unit u).bankS with
    | some t =>
      if c.solveRuns (regionOfU u) t then c.setUnit u { c.unit u with run := some (solverRun u t), bankS := none }
      else (c.dropBankS u).newSolver u
    | none => c.newSolver u

/-- TILE_START (R119, R122, R123, R224): an idle unit takes an arbitration tile, else the training tile at the head of its
queue, else, where it lends, a Solver tile; MERGE commands that waited for the solve's load go on (R344). -/
def execTileStart (u : Nat) (s : State) : Host.Outcome State Fault Refusal :=
  nextChip s (fun c =>
    if (c.unit u).run.isSome then c
    else match c.startTile u with
      | some c' => c'
      | none => (c.startSolver u).mergeWake)

/-- SOLVER_PASS_END (R122–R124, R137, R334, R346): a pass drains into bank S; a waiting arbitration or training tile takes the
unit, and a unit that no longer lends leaves the tile in bank S. On a unit out of service the tile goes back to its solve; the
tile of a solve that has ended is dropped. -/
def execSolverPassEnd (u : Nat) (s : State) : Host.Outcome State Fault Refusal :=
  nextChip s (fun c =>
    match (c.unit u).run with
    | some { kind := .solver t, .. } =>
      if t.left ≤ 1 then c
      else
        let t := { t with left := t.left - 1 }
        let c := (c.inc .MXE_CNT_SOLV_COUNT u).setUnit u { c.unit u with run := none }
        if ¬ c.inService u ∨ ¬ c.solveRuns (regionOfU u) t then c.returnTile u t
        else match c.startTile u with
          | some c' => (c'.setUnit u { c'.unit u with bankS := some t }).inc .MXE_CNT_PREEMPT_COUNT u
          | none =>
            if c.on .MXE_CTL_LEND u then c.setUnit u { c.unit u with run := some (solverRun u t) }
            else c.setUnit u { c.unit u with bankS := some t }
    | _ => c)

/-- The column's values of row r of a Solver tile: ĉ_r and Q̂_r, from the FP32 operands (R117). -/
def STile.colRow (t : STile) (r : Nat) : FVal × FVal :=
  let a := t.rows.getD r []
  let chs := chunks 32 (a.length + 1) (List.range a.length)
  let b (k : Nat) : List FVal := t.cols.map (fun col => col.getD k .zero)
  chs.foldl (fun (acc : FVal × FVal) ks =>
    (addF fp32 acc.1 (tree32 (addF fp32) .zero (ks.map (fun k => mulF fp32 (a.getD k .zero) (colTree t.wbits (b k))))),
     addUp acc.2 (tree32 addUp .zero (ks.map (fun k => mulUp (a.getD k .zero).abs (colTreeUp t.wbits (b k)))))))
    (.zero, .zero)

/-- A Solver tile evaluated under an upset: its elements, and its row tests with the SPLIT term (R80, R96, R126). -/
def STile.eval (t : STile) (up : Option Upset) : Mat × List RowTest :=
  let rows := upsetRows up.toList (t.rows.map (fun a => t.cols.map (fun b => ⟨splitDot a b, false, 0⟩)))
  let outs := rows.map (fun r => r.map OutVal.v)
  (outs, (List.range outs.length).map (fun r =>
    rowTest true t.k t.wbits (outs.getD r []) (upsetCol up.toList r (t.colRow r))))

/-- The first failing row of a list of row tests. -/
def failedRow (tests : List RowTest) : Option Nat :=
  (List.range tests.length).find? (fun r => match tests[r]? with | some (.tested _ _ _ ok) => !ok | _ => false)

/-- A Solver tile whose test fails on a row, entered in its unit's and its Solver's registers, with its record (R126, R133,
R136, R654). -/
def Chip.solverChk (c : Chip) (u pass : Nat) (t : STile) (tests : List RowTest) (row : Nat) : Chip :=
  let r := regionOfU u
  let c := c.wr .MXE_CKLOG u (cklogWord tests row true false (c.g .MXE_CNT_SOLV_COUNT u))
  let c := ((c.set1 .MXE_STICKY_SOLV_CHK u).inc .MXE_CNT_CHK_COUNT u).set1 .SOLV_STICKY_CHK r
  c.postFault { cls := 0x02, action := if t.second then 0 else 1, place := c.regionPlace r, loc := u, lockind := 1
                detail := [t.ticket, pass % 3 + b2n t.second * 4] }

/-- A Solver tile that consumed poison: no test, its mark and its record; the gate is not failed (R126, R504, R505). -/
def Chip.solverPoison (c : Chip) (u : Nat) (t : STile) : Chip :=
  ((c.unseed u t).set1 .MXE_STICKY_SOLV_POISON u).postFault
    { cls := 0x09, action := 0, place := c.regionPlace (regionOfU u), loc := u, lockind := 1, detail := [1, 0] }

/-- What a completed Solver tile means for its solve: poison ends it POISONED, a first failed test runs the tile again on
another unit, a second one ends it ABANDONED, and a good tile adds its elements (R342). -/
def Chip.solverTileDone (c : Chip) (r u : Nat) (t : STile) (poison failed : Bool) (outs : Mat) : Chip :=
  match (c.solver r).find t.ticket with
  | none => c
  | some v =>
    let v := { v with lent := v.lent - 1, macs := v.macs + t.rows.length * t.cols.length * t.k }
    if v.stage ≠ .setup ∧ v.stage ≠ .iterating then c.setSolve r v
    else if poison then c.endSolve r v 6
    else if failed then
      if t.second then c.endSolve r { v with chk := true } 2
      else c.setSolve r { v with todo := { t.fresh with second := true, avoid := u } :: v.todo }
    else
      (if t.second then c.inc .SOLV_CNT_COUNT r 1 3 else c).goOn r { v with ends := v.ends ++ [(t.i, t.j, outs)] }

/-- SOLVER_TILE_COMPLETE (R126, R127, R342, R345, R346): the last pass of a Solver tile ends. A unit withdrawn meanwhile gives
the tile back. Otherwise the tile is metered, tested unless it consumed poison, and its outcome goes to its solve. An upset
strikes in the pass that stands beside it. -/
def execSolverTileComplete (u : Nat) (hit : Nat × Option Upset) (poison : Bool) (s : State) : Host.Outcome State Fault Refusal :=
  nextChip s (Chip.mergeWake ∘ fun c =>
    let r := regionOfU u
    match (c.unit u).run with
    | some { kind := .solver t, .. } =>
      if 1 < t.left then c
      else
        let c := (c.setUnit u { c.unit u with run := none }).inc .MXE_CNT_SOLV_COUNT u
        if ¬ c.inService u then c.returnTile u t
        else
          let c := c.meter (c.solvPart r) 1 (t.rows.length * t.cols.length * t.k)
          if poison then (c.solverPoison u t).solverTileDone r u t true false []
          else
            let (outs, tests) := t.eval hit.2
            let c := c.inc .MXE_CNT_UNTESTED_COUNT u (untestedRows tests)
            match failedRow tests with
            | some row => (c.solverChk u hit.1 t tests row).solverTileDone r u t false true outs
            | none => c.solverTileDone r u t false false outs
    | _ => c)

/-! ### The install cut and the seal (R51, R343, R346) -/

/-- Whether a recorded solve may be installed: every element it stored is finite (R51, R337, R343). -/
def Solve.installable (s : Solve) : Bool :=
  s.stage == .recorded && (s.status == 0 || (s.status == 1 && leV s.rho (svIthr s.words))) && storedFin (svDim s.words) s.x

/-- The alternate record of an entry at a cut: the solve's, or the visible one a seal older. -/
def installWords (s : Option Solve) (old : List Word) (step : Nat) : List Word :=
  match s with
  | some s =>
    [Word.ofNat (1 + s.buf * 2 + s.status * 8), Word.ofNat (structTag s.words + encodeF fp32 s.rho * 2 ^ 32),
     Word.ofNat (s.sstep % 2 ^ 48), Word.ofNat (step % 2 ^ 48), Word.ofNat s.ticket, 0, 0, 0]
  | none =>
    wset (wordAt old 0) 39 8 (min (2 ^ 32 - 1) (wbits (wordAt old 0) 39 8 + 1)) :: old.drop 1

/-- The cut of one region: every used entry's alternate record written, and the solves it considers marked. -/
def Chip.cutRegion (c : Chip) (p r : Nat) : Chip :=
  let x := c.solver r
  let vis := c.g .HUB_STEP_SEALED_STEP p % 2
  let c := (List.range (c.g .SOLV_RTAB_COUNT r)).foldl (fun c e =>
    if ¬ x.used e then c
    else
      let s := x.slots.find? (fun s => svEntry s.words == e && svInstall s.words && s.installable)
      let (old, bad) := c.rootRec r e vis
      c.tierWriteBy p 6 (c.entryAt r e + 64 + 64 * (1 - vis)) (bytesOf (installWords s old (c.step p)))
        (bad && s.isNone)) c
  let c := if (List.range (c.g .SOLV_RTAB_COUNT r)).any x.used then c.altWritten p else c
  c.setSolver r { c.solver r with slots := (c.solver r).slots.map (fun s => { s with cut := s.cut || s.stage == .recorded }) }

/-- Roots that a seal installs in a region. -/
def SolverS.installs (x : SolverS) : Nat := (x.slots.filter (fun s => s.cut && s.installable)).length

/-- On SEAL the solves considered at the cut are retired, and the installed roots counted (R343). -/
def Chip.solverSeal (c : Chip) (r : Nat) : Chip :=
  let x := c.solver r
  (c.setSolver r { x with slots := x.slots.filter (fun s => !s.cut) }).inc .SOLV_CNT_COUNT r x.installs 2

/-- On ABANDON the record writes are discarded and no solve is retired; waiting SOLVE commands that were cancelled leave. -/
def Chip.solverAbandon (c : Chip) (r : Nat) : Chip :=
  let x := c.solver r
  c.setSolver r { x with slots := x.slots.map (fun s => { s with cut := false })
                         wait := x.wait.filter (fun y => (c.seq y.1).outst.any (fun o => o.id == y.2.1 && o.isOpen)) }

/-- At a fence every solve is discarded without a result record (R346). -/
def Chip.solverFence (c : Chip) (r : Nat) : Chip :=
  let c := (rangeFrom (64 * r) 64).foldl (fun c u =>
    let x := c.unit u
    let keep := match x.run with | some { kind := .solver _, .. } => none | o => o
    c.setUnit u { x with run := keep, bankS := none }) c
  (c.setSolver r { c.solver r with slots := [], wait := [] }).put .SOLV_CMD_DROP r 0

/-- When the partition has stopped, unretired INSTALL = 1 results are discarded, recorded or not (R346). -/
def Chip.solverStop (c : Chip) (r : Nat) : Chip :=
  let x := c.solver r
  (c.setSolver r { x with slots := x.slots.filter (fun s => s.stage != .recorded && !svInstall s.words) }).dropDone r

end Sys2Proof.Machine
end

