-- ==== Sys2Proof/Machine/Update.lean ====
section
/-! DEFINITION. The parameter update (R354–R384, R386): row headers and the visible copy, the update rules, the journal and
the void pass, fetching, the refresh, adoption, replay, withdrawn Casks and the drift auditor. -/

namespace Sys2Proof.Machine

/-! ### State and shape -/

/-- The update controller's state for a partition. -/
def Chip.upd (c : Chip) (p : Nat) : UpdS := sget {} c.upds p
/-- The update controller's state for a partition replaced. -/
def Chip.setUpd (c : Chip) (p : Nat) (x : UpdS) : Chip := { c with upds := sset {} c.upds p x }

/-- Row pitch of a descriptor (R356). -/
def upRp (w : List Word) : Nat := rowPitch (upLen w)
/-- S of R356. -/
def upS (w : List Word) : Nat := span4K (4 * upRp w * upRows w)
/-- S2 of R356. -/
def upS2 (w : List Word) : Nat := span4K (2 * upRp w * upRows w)
/-- List positions of a command. -/
def upCount (w : List Word) : Nat := if upRowsel w then upNlist w else upRows w
/-- Address of m of copy k of row i (R356). -/
def upMomAt (w : List Word) (k i : Nat) : Nat := upMom w + (if upRule w = 0 then k else 2 * k) * upS w + 4 * upRp w * i
/-- Address of v of copy k of row i. -/
def upVAt (w : List Word) (k i : Nat) : Nat := upMomAt w k i + upS w
/-- Address of the master of copy k of row i. -/
def upMstAt (w : List Word) (k i : Nat) : Nat := upMst w + k * upS w + 4 * upRp w * i
/-- Address of the class C working copy k of row i. -/
def upWcAt (w : List Word) (k i : Nat) : Nat := upWc w + k * upS2 w + 2 * upRp w * i

/-- STAMP value that is never visible (R357). -/
def stampVoid : Nat := 2 ^ 48 - 1

/-! ### Reads and writes of the update engines -/

/-- n bytes (a multiple of 32) of a tier address with whether any is poisoned; an unmapped piece reads as poison. -/
def Chip.pieces32 (c : Chip) (p a n : Nat) : List Byte × Bool :=
  let l := (List.range (n / 32)).map (fun i =>
    match c.tierKey p (a + 32 * i) with
    | some k => (c.bytes k 32, c.badAny k 32)
    | none => (List.replicate 32 0, true))
  (l.flatMap Prod.fst, l.any Prod.snd)

/-- Bytes read by the update engines, counted in the partition's tier meter (R354, R385). -/
def Chip.updRead (c : Chip) (p a n : Nat) : List Byte × Bool × Chip :=
  let (bs, bad) := c.pieces32 p a n
  (bs, bad, c.meter p (meterOfTier a false) n)

/-- Bytes written by the update engines into areas of their own, counted. -/
def Chip.updWrite (c : Chip) (p a : Nat) (bs : List Byte) : Chip :=
  let n := bs.length
  let c := (List.range (cdiv n 16)).foldl (fun c i =>
    let piece := (bs.drop (16 * i)).take 16
    match c.tierKey p (a + 16 * i) with
    | some k => c.putBytes k piece
    | none => c) c
  let c := (List.range (n / 64)).foldl (fun c i => match c.tierKey p (a + 64 * i) with
    | some k => if k % 64 = 0 then c.poisonWrite k 64 false else c
    | none => c) c
  c.meter p (meterOfTier a true) n

/-- FP32 codes of bytes. -/
def codes32 (bs : List Byte) (n : Nat) : List Nat := (List.range n).map (fun i => leNat ((bs.drop (4 * i)).take 4))
/-- BF16 codes of bytes. -/
def codes16 (bs : List Byte) (n : Nat) : List Nat := (List.range n).map (fun i => leNat ((bs.drop (2 * i)).take 2))

/-! ### The visible copy (R357, R358) -/

/-- STAMP and T of copy k in a header of 32 bytes. -/
def hdrStamp (bs : List Byte) (k : Nat) : Nat := leNat ((bs.drop (16 * k)).take 6)
def hdrT (bs : List Byte) (k : Nat) : Nat := leNat ((bs.drop (16 * k + 8)).take 4)

/-- The visible copy of a row from the stamps of its copies and the sealed step (R358). -/
def visOf (s0 s1 n : Nat) : Option Nat :=
  if s0 ≤ n ∧ s1 ≤ n then some (b2n (decide (s0 < s1)))
  else if s0 ≤ n then some 0
  else if s1 ≤ n then some 1
  else none

/-- The header of a row, whether it is poisoned, its visible copy. -/
def Chip.rowHdr (c : Chip) (p hdr i : Nat) : List Byte × Bool × Option Nat :=
  let (bs, bad) := c.pieces32 p (hdr + 32 * i) 32
  (bs, bad, visOf (hdrStamp bs 0) (hdrStamp bs 1) (c.g .HUB_STEP_SEALED_STEP p))

/-- A row with no visible copy reported as a control-path fault (R358, R498). -/
def Chip.noVisible (c : Chip) (p tensor row : Nat) : Chip :=
  c.ctrlFault [p] { cls := 0x0D, action := 2, place := .part p, detail := [tensor, row] }

/-- A header entry of copy k: STAMP and T. -/
def entryBytes (stamp t : Nat) : List Byte := leBytes 8 (stamp % 2 ^ 48) ++ leBytes 8 (t % 2 ^ 32)

/-! ### Row lists (R372) -/

/-- List positions with their rows up to the first bad entry: whether the list ended badly. -/
def goodRows (rows : Nat) : List Nat → Nat → Option Nat → List (Nat × Nat) × Bool
  | [], _, _ => ([], false)
  | x :: xs, j, prev =>
    if rows ≤ x ∨ 2 ^ 31 ≤ x ∨ (match prev with | some y => decide (x ≤ y) | none => false) = true then ([], true)
    else
      let (l, b) := goodRows rows xs (j + 1) (some x)
      ((j, x) :: l, b)

/-- Rows of a command in order, whether its LIST has a bad entry, whether it holds poison. -/
def Chip.rowsOf (c : Chip) (p : Nat) (w : List Word) : List (Nat × Nat) × Bool × Bool :=
  if ¬ upRowsel w then ((List.range (upRows w)).map (fun i => (i, i)), false, false)
  else
    let (bs, bad) := c.pieces32 p (upList w) (cdiv (4 * upNlist w) 64 * 64)
    let (l, e) := goodRows (upRows w) (codes32 bs (upNlist w)) 0 none
    (l, e, bad)

/-! ### The rules (R366, R367, R369) -/

/-- Values prepared once per APPLY (R366). -/
structure UpdK where
  rule : Nat
  eta : FVal
  b1 : FVal
  b2 : FVal
  eps : FVal
  wd : FVal
  k : FVal
  omb1 : FVal
  omb2 : FVal
  graft : FVal
  deriving DecidableEq, Repr

/-- Immediate i as a value. -/
def immV (w : List Word) (i : Nat) : FVal := decodeF fp32 (upImm w i)

/-- The set-up of an APPLY under a rule and clip factor. -/
def updK (w : List Word) (rule clipf : Nat) : UpdK :=
  { rule := rule, eta := immV w 0, b1 := immV w 1, b2 := immV w 2, eps := immV w 3, wd := immV w 4
    k := mulF fp32 (immV w 5) (decodeF fp32 clipf), omb1 := subF fp32 .one (immV w 1), omb2 := subF fp32 .one (immV w 2)
    graft := immV w 6 }

/-- β^t in FP64 by square-and-multiply from the highest set bit of t down; n bits are left to scan (R366). -/
def pow64 (b : FVal) (t : Nat) : Nat → FVal → FVal
  | 0, x => x
  | n + 1, x =>
    let x := mulF fp64 x x
    pow64 b t n (if bit t n then mulF fp64 x b else x)

/-- Bias correction 1 − β^t as FP32. -/
def biasCorr (b : FVal) (t : Nat) : FVal :=
  roundF fp32 .rne (subF fp64 .one (pow64 b t (t.log2 + 1) .one))

/-- m1, v1 and d of an element under rules 1–3; bc1 and bc2 are the row's. -/
def sharedMoments (u : UpdK) (bc1 bc2 g m v : FVal) : FVal × FVal × FVal :=
  let gh := mulF fp32 g u.k
  let m1 := fmaF fp32 u.b1 m (mulF fp32 u.omb1 gh)
  let v1 := fmaF fp32 u.b2 v (mulF fp32 u.omb2 (mulF fp32 gh gh))
  (m1, v1, divF fp32 (divF fp32 m1 bc1) (addF fp32 (sqrtF fp32 (divF fp32 v1 bc2)) u.eps))

/-- m1 and w1 of an element under rule 0. -/
def rule0 (u : UpdK) (g m w : FVal) : FVal × FVal :=
  let ge := fmaF fp32 u.wd w (mulF fp32 g u.k)
  let m1 := fmaF fp32 u.b1 m ge
  (m1, fmaF fp32 u.eta.neg m1 w)

/-- The new master of an element under rules 1–3 from its direction. -/
def newMaster (u : UpdK) (d w : FVal) : FVal :=
  fmaF fp32 u.eta.neg (if u.rule = 1 then d else fmaF fp32 u.wd w d) w

/-- Sum of squares of a row in the order of R84; excluded elements take +0. -/
def rowSquares (xs : List (Option FVal)) : FVal :=
  chunkFold (addF fp32) .zero .zero (xs.map (fun x => match x with | some v => mulF fp32 v v | none => .zero))

/-- The grafting scale of a row (R369): none when a or b is 0. -/
def graftScale (gmax a b : FVal) : Option FVal :=
  if a.isZero ∨ b.isZero then none
  else some (minV (roundF fp32 .rne (divF fp64 (sqrtF fp64 a) (sqrtF fp64 b))) gmax)

/-- One element of a row: frozen, gradient, old m, v, w codes, preconditioned direction. -/
structure UElem where
  frozen : Bool
  g : Nat
  m : Nat
  v : Nat
  w : Nat
  p : Nat
  deriving DecidableEq, Repr

/-- The new codes m, v, w of a row's elements, whether a value is non-finite, whether the row fell back for b = 0
(R367, R369, R371, R374). -/
def rowUpdate (u : UpdK) (t1 : Nat) (es : List UElem) : List (Nat × Nat × Nat) × Bool × Bool :=
  let dec (n : Nat) : FVal := decodeF fp32 n
  let enc (v : FVal) : Nat := encodeF fp32 v
  let bc1 := if u.rule = 0 then .one else biasCorr u.b1 t1
  let bc2 := if u.rule = 0 then .one else biasCorr u.b2 t1
  let mv (e : UElem) : FVal × FVal × FVal := sharedMoments u bc1 bc2 (decodeF bf16 e.g) (dec e.m) (dec e.v)
  let live (f : UElem → FVal) : List (Option FVal) := es.map (fun e => if e.frozen then none else some (f e))
  let a := if u.rule = 3 then rowSquares (live (fun e => (mv e).2.2)) else .zero
  let b := if u.rule = 3 then rowSquares (live (fun e => dec e.p)) else .zero
  let sc := if u.rule = 3 then graftScale u.graft a b else none
  let one (e : UElem) : (Nat × Nat × Nat) × Bool :=
    if e.frozen then ((e.m, e.v, e.w), ¬ ((dec e.m).isFin && (u.rule == 0 || (dec e.v).isFin) && (dec e.w).isFin))
    else if u.rule = 0 then
      let (m1, w1) := rule0 u (decodeF bf16 e.g) (dec e.m) (dec e.w)
      ((enc m1, 0, enc w1), ¬ (m1.isFin && w1.isFin))
    else
      let (m1, v1, d) := mv e
      let d := match sc with | some s => mulF fp32 (dec e.p) s | none => d
      let w1 := newMaster u d (dec e.w)
      ((enc m1, enc v1, enc w1), ¬ (m1.isFin && v1.isFin && w1.isFin && (u.rule != 3 || d.isFin)))
  let r := es.map one
  (r.map Prod.fst, r.any Prod.snd || (u.rule == 3 && !(a.isFin && b.isFin)), u.rule == 3 && b.isZero)

/-! ### APPLY: one row (R358, R359, R366–R374) -/

/-- What an APPLY has done so far: rows written, fallback rows, frozen elements, status. -/
structure ApplyOut where
  chip : Chip
  rows : Nat := 0
  fall : Nat := 0
  supp : Nat := 0
  st : Nat := 0

/-- UPD statuses (R379). -/
def stUpdUnreg : Nat := 24
def stUpdNonorm : Nat := 25
def stUpdNf : Nat := 26
def stUpdList : Nat := 27
def stUpdPoison : Nat := 28
def stUpdOff : Nat := 29
def stUpdJournal : Nat := 30

/-- Element updates counted at the Casks of the stacks that hold the written moments of a class N row (R390). -/
def Chip.countCasks (c : Chip) (p a : Nat) (frozen : List Bool) : Chip :=
  (List.range (cdiv frozen.length 16)).foldl (fun c i =>
    match c.tierKey p (a + 64 * i) with
    | some k => if 2 * 2 ^ 60 ≤ k ∧ k < 3 * 2 ^ 60 then
        c.inc .CSK_CNT_ELEM_COUNT 0 (((frozen.drop (16 * i)).take 16).filter (!·)).length ((k - 2 * 2 ^ 60) / 2 ^ 40)
      else c
    | none => c) c

/-- Codes of a row of FP32 elements, the padding filled with +0, as bytes. -/
def rowBytes32 (rp : Nat) (l : List Nat) : List Byte :=
  (l ++ List.replicate (rp - l.length) 0).flatMap (leBytes 4)

/-- One row of an APPLY: row i at list position j. A row with no visible copy, a poisoned word, or an earlier end writes
nothing; a row whose real elements are all frozen is not written. -/
def applyRow (p : Nat) (e : JEnt) (u : UpdK) (a : ApplyOut) (ji : Nat × Nat) : ApplyOut :=
  if a.st ≠ 0 then a
  else
    let w := e.words
    let (j, i) := ji
    let n := upLen w
    let rp := upRp w
    let c := a.chip
    let (hb, hbad, vis) := c.rowHdr p (upHdr w) i
    let c := c.meter p (meterOfTier (upHdr w) false) 32
    match vis with
    | none => { a with chip := if hbad then c else c.noVisible p (upTensor w) i, st := stUpdPoison }
    | some k =>
      if hbad then { a with chip := c, st := stUpdPoison }
      else
        let (fm, fbad, c) := if upFreeze w = 2 then c.updRead p (upFmask w + rp * i) rp else ([], false, c)
        if fbad then { a with chip := c, st := stUpdPoison }
        else
          let frozen := (List.range n).map (fun x => upFreeze w == 2 && fm.getD x 0 == 0)
          let a := { a with chip := c, supp := a.supp + (frozen.filter id).length }
          if frozen.all id then a
          else
            let (mb, b1, c) := c.updRead p (upMomAt w k i) (4 * rp)
            let (vb, b2, c) := if upRule w = 0 then ([], false, c) else c.updRead p (upVAt w k i) (4 * rp)
            let (wb, b3, c) := c.updRead p (upMstAt w k i) (4 * rp)
            let (gb, b4, c) := c.updRead p (upData w + 2 * rp * j) (2 * rp)
            let (pb, b5, c) := if u.rule = 3 then c.updRead p (upPdir w + 4 * rp * j) (4 * rp) else ([], false, c)
            let gbad := b4 && (List.range n).any (fun x => !frozen.getD x false
              && (match c.tierKey p (upData w + 2 * rp * j + 2 * x) with | some y => c.bad y | none => true))
            if b1 ∨ b2 ∨ b3 ∨ b5 ∨ gbad then { a with chip := c, st := stUpdPoison }
            else
              let ms := codes32 mb n
              let vs := codes32 vb n
              let ws := codes32 wb n
              let gs := codes16 gb n
              let ps := codes32 pb n
              let es := (List.range n).map (fun x => UElem.mk (frozen.getD x false) (gs.getD x 0) (ms.getD x 0) (vs.getD x 0) (ws.getD x 0) (ps.getD x 0))
              let t1 := min (hdrT hb k + 1) (2 ^ 32 - 1)
              let (r, nf, fb) := rowUpdate u t1 es
              let c := c.altWritten p
              let c := c.updWrite p (upMomAt w (1 - k) i) (rowBytes32 rp (r.map (·.1)))
              let c := if upRule w = 0 then c else c.updWrite p (upVAt w (1 - k) i) (rowBytes32 rp (r.map (·.2.1)))
              let c := if u.rule = 3 then (c.meter p (meterOfTier (upMom w) false) (8 * rp)) else c
              let c := c.updWrite p (upMstAt w (1 - k) i) (rowBytes32 rp (r.map (·.2.2)))
              let c := c.updWrite p (upHdr w + 32 * i + 16 * (1 - k)) (entryBytes (c.step p) t1)
              let c := if upClassC w then c else c.countCasks p (upMomAt w (1 - k) i) frozen
              { chip := c, rows := a.rows + 1, fall := a.fall + b2n (fb || (e.fall && upRule w == 3)), supp := a.supp
                st := if nf then stUpdNf else 0 }

/-- An APPLY run over the rows at its first `lim` list positions, with its set-up (R366–R372). -/
def Chip.applyRun (c : Chip) (p : Nat) (e : JEnt) (lim : Nat) : ApplyOut :=
  if e.bad then { chip := c, st := stUpdPoison }
  else
    let w := e.words
    let (rows, bad, pois) := c.rowsOf p w
    let c := if upRowsel w then c.meter p (meterOfTier (upList w) false) (4 * upNlist w) else c
    if pois then { chip := c, st := stUpdPoison }
    else
      let u := updK w (if e.fall then 2 else upRule w) e.clipf
      let a := (rows.filter (fun x => decide (x.1 < lim))).foldl (applyRow p e u) { chip := c }
      if bad ∧ a.st = 0 ∧ rows.length < lim then { a with st := stUpdList } else a

/-! ### Norm and clip (R363, R364) -/

/-- The clip factor of an FP64 norm: 1.0 at or below CLIP. -/
def clipFactor (clip : Nat) (norm : FVal) : Nat :=
  let c := decodeF fp32 clip
  if leV norm c then encodeF fp32 .one else encodeF fp32 (divF fp64 c norm)

/-- The per-tensor norm of a tensor in the step (R363, R480). -/
def Chip.pnorm (c : Chip) (p t : Nat) : Option Nat := ((sget [] c.pnorms p).find? (fun x => x.1 == t)).map Prod.snd

/-- The clip factor that an APPLY of a tensor uses. -/
def Chip.clipOf (c : Chip) (p t : Nat) : Nat :=
  if c.on .HUB_GATE_CTL_GLOBAL p then clipFactor (c.g .HUB_GATE_LIM_CLIP p) (decodeF fp64 (c.rd .HUB_GATE_NORM p).toNat)
  else match c.pnorm p t with
    | some n => clipFactor (c.g .HUB_GATE_LIM_CLIP p) (decodeF fp64 n)
    | none => encodeF fp32 .one

/-! ### Checks at issue (R376–R378) -/

/-- PATCH: S[i] placed in immediate slot i (R249). -/
def Chip.updPatched (c : Chip) (cl : Nat) (w : List Word) : List Word :=
  (List.range 8).foldl (fun w i =>
    if bit (upPatch w) i then
      listSet w (13 + i / 2) (wset (wordAt w (13 + i / 2)) (32 * (i % 2) + 31) (32 * (i % 2)) (c.g ⟨.CLU_SEQ_SCHED, 31, 0⟩ cl i))
    else w) w

/-- The immediates in their ranges (R376). -/
def immsOk (w : List Word) : Bool :=
  let fin0 (i : Nat) : Bool := (immV w i).isFin && !ltV (immV w i) .zero
  let pos (i : Nat) : Bool := (immV w i).isFin && ltV .zero (immV w i)
  let beta (i : Nat) : Bool := fin0 i && ltV (immV w i) .one
  let r := upRule w
  upImm w 7 == 0 && (upAct w != 0 ||
    (fin0 0 && beta 1 && pos 5 && (r == 0 || (beta 2 && pos 3)) && (r == 1 || fin0 4) && (r != 3 || ltV .zero (immV w 6))))

/-- Bytes of a raw record (R380). -/
def rawBytes (w : List Word) : Nat :=
  64 + (if upRule w = 0 then 2 else 4) * (4 * upRp w) + 2 * (4 * upRp w) + (if upClassC w then 4 * upRp w else 0)

/-- The visible record of a root entry: VALID, AGE, BUF, poison (R341, R368). -/
def Chip.rootView (c : Chip) (p r e : Nat) : Bool × Nat × Nat × Bool :=
  let x := c.solver r
  if e < c.g .SOLV_RTAB_COUNT r ∧ x.used e then
    let (ws, bad) := c.rootRec r e (c.g .HUB_STEP_SEALED_STEP p % 2)
    (wbit (wordAt ws 0) 0, wbits (wordAt ws 0) 39 8, wbits (wordAt ws 0) 2 1, bad)
  else (false, 0, 3, false)

/-- Bytes of a root buffer of an entry: header page and sub-tiles (R341). -/
def Chip.rootBytes (c : Chip) (r e : Nat) : Nat := blockBytes (wbits ((c.solver r).stat e 0) 35 24)

/-- Bytes at DATA of a command. -/
def Chip.dataBytes (c : Chip) (p : Nat) (w : List Word) : Nat :=
  let n := upCount w
  match upAct w with
  | 1 => match upArea w with
    | 0 => 4 * upRp w * n
    | 1 => 2 * upRp w * n
    | 2 => if (c.rootView p (upRreg w) (upEntryL w)).1 then c.rootBytes (upRreg w) (upEntryL w) else 0
    | _ => rawBytes w * n
  | 3 => rawBytes w * n
  | _ => 2 * upRp w * n

/-- Ranges that a command names. -/
def Chip.updRanges (c : Chip) (p : Nat) (w : List Word) : List (Nat × Nat) :=
  [(upHdr w, 32 * upRows w), (upMom w, (if upRule w = 0 then 2 else 4) * upS w), (upMst w, 2 * upS w), (upWc w, 2 * upS2 w),
   (upData w, c.dataBytes p w)]
    ++ (if upRowsel w then [(upList w, 4 * upNlist w)] else [])
    ++ (if upFreeze w = 2 then [(upFmask w, upRp w * upRows w)] else [])
    ++ (if upRule w = 3 ∧ upAct w = 0 then [(upPdir w, 4 * upRp w * upCount w)] else [])

/-- Whether the regions of the root entries that a command uses belong to the partition. -/
def Chip.rootsOwned (c : Chip) (p : Nat) (w : List Word) : Bool :=
  if upLuse w ∨ upRuse w ∨ upRoot w then c.owns p (upRreg w) else true

/-- Whether a command names its tensor as the current mapping registers it; FETCH may name an old home (R361, R484). -/
def Chip.asRegistered (c : Chip) (p : Nat) (w : List Word) : Bool :=
  (c.tensors p).any (fun e => e.tensor == upTensor w && (e.reg || (e.depart && upAct w == 1)) && e.classC == upClassC w
    && e.hdr == upHdr w && e.mom == upMom w && e.mst == upMst w && e.wc == upWc w)

/-- Check 5 of R377: the placement of R245 and R378. -/
def Chip.placedOk (c : Chip) (cl p : Nat) (w : List Word) : Bool :=
  match upAct w with
  | 0 => (c.seq cl).gated && !(c.upd p).win.contains (upTensor w)
  | 2 => (c.seq cl).phase == 7
  | 3 => (c.seq cl).epochMark
  | _ => true

/-- Checks 6–11 of R377 in order. -/
def Chip.updIssue (c : Chip) (p : Nat) (w : List Word) : Nat :=
  firstBad [chk (c.on .CEL_UPD_CTL_EN p) stUpdOff, chk (immsOk w) stBadField,
    chk ((c.updRanges p w).all (fun x => c.tierOk p x.1 (cdiv x.2 64 * 64)) && c.rootsOwned p w
      && !(upAct w == 1 && c.rowInRoutine (upData w) (c.dataBytes p w))) stBadAddr,
    chk (c.asRegistered p w) stUpdUnreg,
    chk (upAct w != 0 || c.on .HUB_GATE_CTL_GLOBAL p || (c.pnorm p (upTensor w)).isSome) stUpdNonorm,
    chk (upAct w != 0 || decide ((c.upd p).jrnl.length + (c.upd p).void.length < 4096)) stUpdJournal]

/-- The marks of a status of UPDATE (R364, R392). -/
def Chip.updMark (c : Chip) (p st : Nat) : Chip :=
  if st = stUpdUnreg then c.set1 .CEL_UPD_STICKY_UNREG p
  else if st = stUpdNonorm then (c.set1 .CEL_UPD_STICKY_NONORM p).mustVote p
  else if st = stUpdJournal then c.set1 .CEL_UPD_STICKY_JOURNAL p
  else if st = stUpdNf then (c.set1 .CEL_UPD_STICKY_NF p).mustVote p
  else if st = stUpdList then (c.set1 .CEL_UPD_STICKY_LIST p).mustVote p
  else c

/-- Poison consumed by an UPDATE (R371, R504, R505). -/
def Chip.updPoison (c : Chip) (p tag : Nat) : Chip :=
  (c.set1 .CEL_UPD_STICKY_POISON p).consumePoison p 7 tag (.part p) 0 0

/-! ### Journal, held ranges and status (R360, R362, R391) -/

/-- Ranges that an APPLY holds read-only from its issue on (R362, R373). -/
def heldBy (w : List Word) : List (Nat × Nat) :=
  [(upData w, 2 * upRp w * upCount w)] ++ (if upRowsel w then [(upList w, 4 * upNlist w)] else [])
    ++ (if upFreeze w = 2 then [(upFmask w, upRp w * upRows w)] else [])
    ++ (if upRule w = 3 then [(upPdir w, 4 * upRp w * upCount w)] else [])

/-- Held ranges and the status register follow the journal and the commands in progress (R362, R391). -/
def Chip.syncUpd (c : Chip) (p : Nat) : Chip :=
  let x := c.upd p
  let l : List JEnt := x.void ++ x.jrnl
  let new : List (Nat × Nat × Nat) := (l.map JEnt.words ++ x.frozen.map Prod.snd).flatMap (fun w => (heldBy w).map (fun r => (p, r.1, r.2)))
  let c := { c with held := c.held.filter (fun (h : Nat × Nat × Nat) => h.1 != p) ++ new }
  let c := c.put .CEL_UPD_STAT_BUSY p (b2n (x.jrnl.any JEnt.live || !x.moves.isEmpty))
  let c := c.put .CEL_UPD_STAT_VOIDING p (b2n (!x.void.isEmpty))
  let c := c.put .CEL_UPD_STAT_REPLAYING p (b2n x.replay)
  c.put .CEL_UPD_STAT_JRNL p l.length

/-- The journal entry written to the near tier: the manual gives its size and place, and leaves its content open. -/
def Chip.writeJournal (c : Chip) (p n : Nat) : Chip :=
  let (ws, c) := (List.range 8).foldl (fun (a : List Word × Chip) _ => let (v, c) := a.2.free 64; (a.1 ++ [Word.ofNat v], c)) ([], c)
  c.updWrite p (2 * 2 ^ 60 + c.g .CEL_JRNL_ADDR p * 4096 + 64 * n) (bytesOf ws)

/-- Whether the void pass still has to finish a tensor (R360). -/
def UpdS.voiding (x : UpdS) (t : Nat) : Bool := x.void.any (fun e => upTensor e.words == t)

/-! ### Meanings: APPLY -/

/-- A command that ends at issue with a status of the update controller. -/
def Chip.updRefuse (c : Chip) (cl p : Nat) (w : List Word) (st : Nat) : Chip := (c.updMark p st).refuse cl w st

/-- Whether the named root records let rule 3 run, and whether one is poisoned (R368). -/
def Chip.rule3Ok (c : Chip) (p : Nat) (w : List Word) : Bool × Bool :=
  let named := (if upLuse w then [upEntryL w] else []) ++ (if upRuse w then [upEntryR w] else [])
  let vs := named.map (c.rootView p (upRreg w))
  (vs.all (fun v => v.1 && (upMaxage w == 0 || decide (v.2.1 ≤ upMaxage w))), vs.any (fun v => v.2.2.2))

/-- UPDATE_APPLY (R245, R360, R362, R364, R368, R373, R375–R378): an APPLY issues. With FREEZE = 1 it is a no-op that counts
what it suppressed and holds its inputs until the seal; otherwise it is journaled with its clip factor and its rule-3 decision, and its inputs are held. It waits
while the void pass has not finished its tensor. -/
def execUpdateApply (cl : Nat) (s : State) : Host.Outcome State Fault Refusal :=
  nextChip s (fun c =>
    let p := c.partOfCl cl
    c.take cl (fun w => isOp 0x21 w && (upAct w == 0 || decide (4 ≤ upAct w)) && !(c.upd p).voiding (upTensor w)) false (fun c w0 =>
      let w := c.updPatched cl w0
      if upNothing w then c.issueEnd cl (wordAt w 0) { order := 0 }
      else if ¬ c.placedOk cl p w then c.refuse cl w0 stBadField
      else
        let c := c.setUpd p { c.upd p with win := upTensor w :: (c.upd p).win }
        if upFreeze w = 1 then
          let c := (c.setUpd p { c.upd p with frozen := (c.upd p).frozen ++ [(false, w)] }).syncUpd p
          (c.inc .HUB_CNT_SUPPR_COUNT p (upCount w * upLen w)).issueEnd cl (wordAt w 0) { order := 0 }
        else
          let st := c.updIssue p w
          if st ≠ stOK then c.updRefuse cl p w0 st
          else
            let (id, c) := c.issue cl (wordAt w 0) 1
            let (ok, bad) := if upRule w = 3 then c.rule3Ok p w else (true, false)
            let x := c.upd p
            let clipf := c.clipOf p (upTensor w)
            let e : JEnt := { cl := cl, id := id, tag := hdrTag (wordAt w 0), words := w, clipf := clipf, fall := !ok, bad := bad }
            let clips := if ltV (decodeF fp32 clipf) .one then upTensor w :: x.clipped else x.clipped
            let c := c.writeJournal p (x.void.length + x.jrnl.length)
            (c.setUpd p { x with jrnl := x.jrnl ++ [e], clipped := clips }).syncUpd p))

/-- Whether moments of an APPLY of class N lie on a stack. -/
def Chip.onStack (c : Chip) (p : Nat) (w : List Word) (s : Nat) : Bool :=
  !upClassC w && (List.range (cdiv ((if upRule w = 0 then 2 else 4) * upS w) 4096)).any (fun i =>
    match c.tierKey p (upMom w + 4096 * i) with
    | some k => (k - 2 * 2 ^ 60) / 2 ^ 40 == s
    | none => false)

/-- Whether every stack that an APPLY of class N needs has a working Cask (R355). -/
def Chip.casksUp (c : Chip) (p : Nat) (w : List Word) : Bool :=
  (List.range 8).all (fun s => c.g .CSK_STAT_FAULTMAP 0 s != 2 ^ 32 - 1 || !c.onStack p w s)

/-- The counters of an APPLY's work, each time it is done, and once per attempt of its outcomes (R365, R383, R393). -/
def Chip.countApply (c : Chip) (p : Nat) (e : JEnt) (a : ApplyOut) : Chip :=
  let c := c.inc .CEL_CNT_ROWS_COUNT p a.rows
  if e.counted then c
  else
    let c := (c.inc .HUB_CNT_SUPPR_COUNT p a.supp).inc .CEL_CNT_FALLBACK_COUNT p a.fall
    if a.fall ≠ 0 then c.set1 .CEL_UPD_STICKY_FALLBACK p else c

/-- An APPLY run whole: its marks, its counters, and its end if it is outstanding (R371, R372, R378, R379). -/
def Chip.finishApply (c : Chip) (p n : Nat) (e : JEnt) : Chip :=
  let a := c.applyRun p e (upCount e.words)
  let c := a.chip.countApply p e a
  let c := if a.st = stUpdPoison then c.updPoison p e.tag else c.updMark p a.st
  let x := c.upd p
  let c := c.setUpd p { x with jrnl := listSet x.jrnl n { e with live := false, stopped := false, counted := true } }
  let d := a.rows % 2 ^ 32 + min a.fall 65535 * 2 ^ 32 + b2n (ltV (decodeF fp32 e.clipf) .one) * 2 ^ 48
  let c := if e.live then c.endCmd e.cl e.id { order := 0, status := a.st, flags := if a.st = stUpdPoison then 16 else 0, detail := d } else c
  c.syncUpd p

/-- Whether no APPLY is outstanding, no void pass and no replay runs. -/
def Chip.updSettled (c : Chip) (p : Nat) : Bool :=
  let u := c.upd p
  !u.jrnl.any JEnt.live && u.void.isEmpty && !u.replay

/-- UPDATE_DONE set once all alternate-slot writes of the step have completed: the install cut writes the last (R52, R343). -/
def Chip.showDone (c : Chip) (p : Nat) : Chip :=
  if (c.stepS p).cutDone ∧ c.updSettled p then c.set1 .HUB_STEP_UPDATE_DONE p else c

/-- APPLY_END (R366–R374, R378, R379): an outstanding APPLY, entry n of the journal, runs over its rows and ends. -/
def execApplyEnd (p n : Nat) (s : State) : Host.Outcome State Fault Refusal :=
  nextChip s (fun c =>
    let x := c.upd p
    match x.jrnl[n]? with
    | none => c
    | some e => if e.live ∧ ¬ e.stopped ∧ ¬ x.replay ∧ c.casksUp p e.words then c.finishApply p n e else c)

/-- APPLY_INTERRUPT (R355, R383): a fault stops an APPLY before list position `row`; it stays outstanding and UPD_STOP is posted.
A stack whose Casks are all withdrawn has updated none of its rows. Its outcomes count when it is replayed. -/
def execApplyInterrupt (p n row : Nat) (s : State) : Host.Outcome State Fault Refusal :=
  nextChip s (fun c =>
    let x := c.upd p
    match x.jrnl[n]? with
    | none => c
    | some e =>
      if ¬ e.live ∨ e.stopped ∨ x.replay then c
      else
        let a := c.applyRun p e (if c.casksUp p e.words then row else 0)
        let c := a.chip.inc .CEL_CNT_ROWS_COUNT p a.rows
        let c := c.setUpd p { x with jrnl := listSet x.jrnl n { e with stopped := true } }
        let i := match (c.rowsOf p e.words).1.find? (fun (r : Nat × Nat) => r.1 == row) with | some r => r.2 | none => row
        (c.postFault { cls := 0x13, action := 5, place := .part p, detail := [upTensor e.words, i] }).syncUpd p)

/-- UPDATE_REPLAY (R383): REPLAY of a partition starts; APPLYs in flight stop. -/
def execUpdateReplay (fn : Fn) (p : Nat) (s : State) : Host.Outcome State Fault Refusal :=
  nextChip s (fun c =>
    if ¬ c.reaches fn .CEL_UPD_CMD p ∨ (c.upd p).replay then c
    else ((c.set1 .CEL_UPD_CMD_REPLAY p).setUpd p { c.upd p with replay := true }).syncUpd p)

/-- REPLAY_END (R355, R383): every journaled APPLY is executed again in journal order from the visible copies; each counts as
replayed and one still outstanding ends; one whose stack has no Cask stays as it is. REPLAY reads 0. -/
def execReplayEnd (p : Nat) (s : State) : Host.Outcome State Fault Refusal :=
  nextChip s (fun c =>
    if ¬ (c.upd p).replay then c
    else
      let c := (List.range (c.upd p).jrnl.length).foldl (fun c n =>
        match (c.upd p).jrnl[n]? with
        | some e => if c.casksUp p e.words then (c.finishApply p n e).inc .CEL_CNT_REPLAY_COUNT p else c
        | none => c) c
      (((c.put .CEL_UPD_CMD_REPLAY p 0).setUpd p { c.upd p with replay := false }).syncUpd p).showDone p)

/-! ### Meanings: FETCH, PLACE, ADOPT (R378–R382) -/

/-- A command of the update controller that has issued and is in progress until COMMAND_END; an abandon leaves it alone
(R386). -/
def Chip.updIssued (c : Chip) (cl p : Nat) (w : List Word) : Chip :=
  let (id, c) := c.issue cl (wordAt w 0) 1
  let c := c.setSeq cl { c.seq cl with outst := (c.seq cl).outst.map (fun o => if o.id = id then { o with aux := 1 } else o) }
  (c.setUpd p { c.upd p with moves := (c.upd p).moves ++ [{ cl := cl, id := id, words := w }] }).syncUpd p

/-- One aligned granule moved between tier addresses with its poison, counted; a fenced destination blocks it. `fence` says
whether the destination is outside the engine's own areas. -/
def Chip.moveGranule (c : Chip) (p : Nat) (src dst : Nat) (force : Bool) (fence : Bool) : Chip × Bool :=
  let (bs, ps) := c.readGranule p src []
  let ps := if force then List.replicate 8 true else ps
  let c := c.meter p (meterOfTier src false) 64
  if fence then
    match c.fenceHit p dst 64 with
    | some x => (c.blockedWrite p 8 x, ps.any id)
    | none => (c.writeGranule p dst bs ps, ps.any id)
  else (c.writeGranule p dst bs ps, ps.any id)

/-- A range of whole granules moved. -/
def Chip.moveRange (c : Chip) (p src dst n : Nat) (force fence : Bool) : Chip × Bool :=
  (List.range (n / 64)).foldl (fun (a : Chip × Bool) i =>
    let (c, b) := a.1.moveGranule p (src + 64 * i) (dst + 64 * i) force fence
    (c, a.2 || b)) (c, false)

/-- A row of poison written where a row has no visible copy. -/
def Chip.poisonRange (c : Chip) (p dst n : Nat) : Chip :=
  (List.range (n / 64)).foldl (fun c i =>
    match c.fenceHit p (dst + 64 * i) 64 with
    | some x => c.blockedWrite p 8 x
    | none => c.writeGranule p (dst + 64 * i) (List.replicate 64 0) (List.replicate 8 true)) c

/-- The pieces of a raw record after its first granule: area address of row i and length (R380). -/
def rawPieces (w : List Word) (i : Nat) : List (Nat × Nat) :=
  let r4 := 4 * upRp w
  let mom (k : Nat) : List (Nat × Nat) := (upMomAt w k i, r4) :: (if upRule w = 0 then [] else [(upVAt w k i, r4)])
  mom 0 ++ mom 1 ++ [(upMstAt w 0 i, r4), (upMstAt w 1 i, r4)]
    ++ (if upClassC w then [(upWcAt w 0 i, 2 * upRp w), (upWcAt w 1 i, 2 * upRp w)] else [])

/-- One row of FETCH written at DATA (R358, R380): a row with no visible copy is delivered poisoned whole, a raw record too, and
reported; whether a word read was poisoned. -/
def Chip.fetchRow (c : Chip) (p : Nat) (w : List Word) (j i : Nat) : Chip × Bool :=
  let r4 := 4 * upRp w
  let (hb, hbad, vis) := c.rowHdr p (upHdr w) i
  let c := c.meter p (meterOfTier (upHdr w) false) 32
  if upArea w = 3 then
    let d := upData w + rawBytes w * j
    let head := hb ++ List.replicate 32 0
    let lost := !hbad && vis.isNone
    let c := if lost then c.noVisible p (upTensor w) i else c
    let c := match c.fenceHit p d 64 with
      | some x => c.blockedWrite p 8 x
      | none => c.writeGranule p d head (List.replicate 4 (hbad || lost) ++ List.replicate 4 lost)
    let r := (rawPieces w i).foldl (fun (a : (Chip × Bool) × Nat) q =>
      let (c, b) := a.1.1.moveRange p q.1 a.2 q.2 lost true
      ((c, a.1.2 || b), a.2 + q.2)) ((c, hbad || lost), d + 64)
    r.1
  else
    let n := if upArea w = 0 then r4 else 2 * upRp w
    let d := upData w + n * j
    match vis, hbad with
    | some k, false => c.moveRange p (if upArea w = 0 then upMstAt w k i else upWcAt w k i) d n false true
    | _, true => (c.poisonRange p d n, true)
    | none, false => ((c.noVisible p (upTensor w) i).poisonRange p d n, true)

/-- One row of PLACE (R381): written into the working copy of the copy that the seal just made visible, or skipped; whether a
word read was poisoned, and whether the row was skipped. -/
def Chip.placeRow (c : Chip) (p : Nat) (w : List Word) (j i : Nat) : Chip × Bool × Bool :=
  let (hb, hbad, vis) := c.rowHdr p (upHdr w) i
  let c := c.meter p (meterOfTier (upHdr w) false) 32
  match vis, hbad with
  | some k, false =>
    if hdrStamp hb k = c.g .HUB_STEP_SEALED_STEP p then
      let (c, b) := c.moveRange p (upData w + 2 * upRp w * j) (upWcAt w k i) (2 * upRp w) false false
      (c, b, false)
    else (c, false, true)
  | _, true => (c, true, true)
  | none, false => (c.noVisible p (upTensor w) i, true, true)

/-- One row of ADOPT (R382): its raw record written as it stands; whether a word read was poisoned. -/
def Chip.adoptRow (c : Chip) (p : Nat) (w : List Word) (j i : Nat) : Chip × Bool :=
  let d := upData w + rawBytes w * j
  let (bs, ps) := c.readGranule p d []
  let c := (c.meter p (meterOfTier d false) 64).updWrite p (upHdr w + 32 * i) (bs.take 32)
  let hb := (ps.take 4).any (fun b => b)
  let c := if hb then match c.tierKey p (upHdr w + 32 * i) with | some k => c.setBad k true | none => c else c
  let r := (rawPieces w i).foldl (fun (a : (Chip × Bool) × Nat) q =>
    let (c, b) := a.1.1.moveRange p a.2 q.1 q.2 false false
    ((c, a.1.2 || b), a.2 + q.2)) ((c, hb), d + 64)
  r.1

/-- One row of a FETCH, PLACE or ADOPT, at list position j. -/
def Chip.moveRow (c : Chip) (p : Nat) (w : List Word) (j i : Nat) : Chip × Bool × Bool :=
  match upAct w with
  | 2 => c.placeRow p w j i
  | 3 => let (c, b) := c.adoptRow p w j i; (c, b, false)
  | _ => let (c, b) := c.fetchRow p w j i; (c, b, false)

/-- Whether a command fetches a root buffer: its rows are ignored (R380). -/
def isRootFetch (w : List Word) : Bool := upAct w == 1 && upArea w == 2

/-- The next k rows of a command in progress moved; each row is resolved with the sealed step as it stands then (R358, R386). -/
def Chip.moveRows (c : Chip) (p : Nat) (m : UMove) (k : Nat) : Chip × UMove :=
  let (rows, _, pois) := c.rowsOf p m.words
  let c := if upRowsel m.words ∧ ¬ m.started then c.meter p (meterOfTier (upList m.words) false) (4 * upNlist m.words) else c
  let m := { m with started := true }
  if pois then (c, m)
  else
    ((rows.drop m.pos).take k).foldl (fun (a : Chip × UMove) x =>
      let (c, b, s) := a.1.moveRow p m.words x.1 x.2
      (c, { a.2 with pos := a.2.pos + 1, poison := a.2.poison || b, skip := a.2.skip + b2n s })) (c, m)

/-- A FETCH of a root buffer (R380): nothing is written without a valid root. -/
def Chip.fetchRoot (c : Chip) (p : Nat) (m : UMove) : Chip :=
  let w := m.words
  let (valid, _, buf, bad) := c.rootView p (upRreg w) (upEntryL w)
  if ¬ valid ∨ buf = 3 then c.finish m.cl m.id { order := 0, detail := 2 ^ 49 }
  else
    let (c, b) := c.moveRange p ((c.solver (upRreg w)).bufAt (upEntryL w) buf) (upData w) (c.dataBytes p w) bad true
    c.finish m.cl m.id { order := 0, flags := if b then 16 else 0 }

/-- A command in progress run to its end: a poisoned list consumes poison, a bad entry stops it there (R371, R372, R379). -/
def Chip.moveEnd (c : Chip) (p : Nat) (m : UMove) : Chip :=
  let c := (c.setUpd p { c.upd p with moves := (c.upd p).moves.filter (fun x => !(x.cl == m.cl && x.id == m.id)) }).syncUpd p
  if isRootFetch m.words then c.fetchRoot p m
  else
    let (rows, bad, pois) := c.rowsOf p m.words
    let (c, m) := c.moveRows p m rows.length
    if pois then
      (c.updPoison p (hdrTag (wordAt m.words 0))).finish m.cl m.id { order := 0, status := stUpdPoison, flags := 16 }
    else
      let c := if bad then c.set1 .CEL_UPD_STICKY_LIST p else c
      c.finish m.cl m.id { order := 0, status := if bad then stUpdList else stOK, flags := if m.poison then 16 else 0
                           detail := (m.pos - m.skip) % 2 ^ 32 + min m.skip 65535 * 2 ^ 32 }

/-- A seal or a fence meets the commands in progress of a partition (R386): each has moved a number of its rows that the manual
leaves open. -/
def Chip.movesMet (c : Chip) (p : Nat) : Chip :=
  (c.upd p).moves.foldl (fun c m =>
    if isRootFetch m.words then c
    else
      let (n, c) := c.free 32
      let (c, m) := c.moveRows p m (n % (upCount m.words - m.pos + 1))
      c.setUpd p { c.upd p with moves := (c.upd p).moves.map (fun x => if x.cl = m.cl ∧ x.id = m.id then m else x) }) c

/-- At a fence the commands in progress stop where they are; their commands end with CANCELLED (R386). -/
def Chip.movesCut (c : Chip) (p : Nat) : Chip :=
  let c := c.movesMet p
  c.setUpd p { c.upd p with moves := [] }

/-- UPDATE_FETCH (R358, R377, R378, R380, R386): visible state is written to DATA row by row until COMMAND_END; with AREA = 2 the
visible root buffer. -/
def execUpdateFetch (cl : Nat) (s : State) : Host.Outcome State Fault Refusal :=
  nextChip s (fun c => c.take cl (fun w => isOp 0x21 w && upAct w == 1) false (fun c w0 =>
    let p := c.partOfCl cl
    let w := c.updPatched cl w0
    if upNothing w then c.issueEnd cl (wordAt w 0) { order := 0 }
    else
      let st := c.updIssue p w
      if st ≠ stOK then c.updRefuse cl p w0 st else c.updIssued cl p w))

/-- A PLACE or ADOPT at issue (R377, R378). -/
def Chip.updMove (c : Chip) (cl : Nat) (w0 : List Word) : Chip :=
  let p := c.partOfCl cl
  let w := c.updPatched cl w0
  if upNothing w then c.issueEnd cl (wordAt w 0) { order := 0 }
  else if ¬ c.placedOk cl p w then c.refuse cl w0 stBadField
  else
    let st := c.updIssue p w
    if st ≠ stOK then c.updRefuse cl p w0 st else c.updIssued cl p w

/-- UPDATE_PLACE (R377, R378, R381): until COMMAND_END each listed row whose visible stamp is the sealed step is written into that
copy's working copy; others are skipped. -/
def execUpdatePlace (cl : Nat) (s : State) : Host.Outcome State Fault Refusal :=
  nextChip s (fun c => c.take cl (fun w => isOp 0x21 w && upAct w == 2) false (fun c w => c.updMove cl w))

/-- UPDATE_ADOPT (R377, R378, R382): until COMMAND_END raw records are written into the rows named by LIST as they stand. -/
def execUpdateAdopt (cl : Nat) (s : State) : Host.Outcome State Fault Refusal :=
  nextChip s (fun c => c.take cl (fun w => isOp 0x21 w && upAct w == 3) false (fun c w => c.updMove cl w))

/-! ### Ends of commands and steps, the void pass (R221, R360, R365, R386) -/

/-- COMMAND_END (R221, R235, R386): an open command whose effects are complete ends, its outcomes merged; a FETCH, PLACE or ADOPT
moves the rest of its rows. -/
def execCommandEnd (cl id : Nat) (s : State) : Host.Outcome State Fault Refusal :=
  nextChip s (fun c =>
    let p := c.partOfCl cl
    let c := match (c.upd p).moves.find? (fun m => m.cl == cl && m.id == id) with | some m => c.moveEnd p m | none => c
    match (c.seq cl).outst.find? (fun o => o.id == id && o.isOpen && !o.isCall) with
    | none => c
    | some o =>
      if o.left = 0 then c.endCmd cl id (mergeParts o.parts)
      else if hdrOp o.hdr = 0x04 ∧ c.signalLinked cl o then c.endCmd cl id { order := 0 }
      else c)

/-- On SEAL the journal is cleared and gradients are released; with per-tensor norms, clipped tensors are counted. -/
def Chip.updSeal (c : Chip) (p : Nat) : Chip :=
  let x := c.upd p
  let c := if c.on .HUB_GATE_CTL_GLOBAL p then c else c.inc .HUB_CNT_CLIP_COUNT p x.clipped.length
  (c.setUpd p { x with jrnl := [], win := [], clipped := [], frozen := [] }).syncUpd p

/-- On ABANDON or a fence the void pass takes over the journal; APPLYs outstanding have been cancelled. Inputs of an APPLY with
FREEZE = 1 stay held until that pass ends. -/
def Chip.updAbandon (c : Chip) (p : Nat) : Chip :=
  let x := c.upd p
  let void := x.void ++ x.jrnl.map (fun e => { e with live := false })
  (c.setUpd p { x with void := void, jrnl := [], win := [], clipped := []
                       frozen := if void.isEmpty then [] else x.frozen.map (fun f => (true, f.2)) }).syncUpd p

/-- The header entries of a command's rows that carry a stamp set to VOID. -/
def Chip.voidRows (c : Chip) (p hdr stamp : Nat) (rows : List Nat) : Chip :=
  rows.foldl (fun c i =>
    (List.range 2).foldl (fun c k =>
      let (hb, _, _) := c.rowHdr p hdr i
      if hdrStamp hb k = stamp then c.updWrite p (hdr + 32 * i + 16 * k) (entryBytes stampVoid (hdrT hb k)) else c) c) c

/-- The void pass: every entry that a journaled APPLY of an abandoned attempt stamped n + 1 is stamped VOID, and the
journal and held ranges are released (R360). -/
def Chip.voidPass (c : Chip) (p : Nat) : Chip :=
  let x := c.upd p
  let c := x.void.foldl (fun c e => c.voidRows p (upHdr e.words) (c.step p) ((c.rowsOf p e.words).1.map Prod.snd)) c
  (c.setUpd p { c.upd p with void := [], frozen := x.frozen.filter (fun f => !f.1) }).syncUpd p

/-! ### Casks (R355) -/

/-- A stack's withdrawn Casks in the health record (R602). -/
def Chip.recordCasks (c : Chip) (stack : Nat) : Chip :=
  let h := c.flash.health.getD {}
  { c with flash := { c.flash with health := some { h with casks := sset 0 h.casks stack (c.g .CSK_STAT_FAULTMAP 0 stack) } } }

/-- Cask withdrawn on a stack: its granules move to the next Cask. -/
def Chip.withdrawCask (c : Chip) (stack cask : Nat) : Chip :=
  let m := c.g .CSK_STAT_FAULTMAP 0 stack
  if 8 ≤ stack ∨ 32 ≤ cask ∨ bit m cask then c
  else
    let c := (c.put .CSK_STAT_FAULTMAP 0 (m + 2 ^ cask) stack).recordCasks stack
    if m + 2 ^ cask = 2 ^ 32 - 1 then
      let ps := (List.range 16).filter (fun p => (List.range 128).any (fun i =>
        match ntxSet (c.rd .PART_NTX p i) with | some st => st.contains stack | none => false))
      c.postFault { cls := 0x14, action := 5, place := .nobody ps, loc := stack, lockind := 4, detail := [stack] }
    else c

/-- CASK_WITHDRAW (R355): a Cask that fails or is withdrawn is marked; a stack with none left posts STACK_DOWN. -/
def execCaskWithdraw (stack cask : Nat) (s : State) : Host.Outcome State Fault Refusal :=
  nextChip s (fun c => c.withdrawCask stack cask)

/-! ### The drift auditor (R384) -/

/-- First logical row and column of this module's shard of a tensor (R457, R458). -/
def Chip.shardAt (c : Chip) (p : Nat) (e : TensorEnt) : Nat × Nat :=
  match c.curMap p with
  | none => (0, 0)
  | some m =>
    match m.members e.gid, m.index e.gid with
    | some l, some k =>
      if e.cut = 1 then (shareFirst (if e.rule = 3 then max 1 e.lblk else 1) e.lrows l.length k, 0)
      else if e.cut = 2 then (0, shareFirst 32 e.lcols l.length k)
      else (0, 0)
    | _, _ => (0, 0)

/-- AUDIT_CHECK (R384, R498): a sampled element of a registered tensor, by its logical index, is compared; a mismatch is
logged, counted, reported, and votes to abandon. -/
def execAuditCheck (p tensor index : Nat) (s : State) : Host.Outcome State Fault Refusal :=
  nextChip s (fun c =>
    match c.regTensor p tensor with
    | none => c
    | some e =>
      let ph := c.g .HUB_STEP_PHASE p
      let (r0, c0) := c.shardAt p e
      let row := index / max 1 e.lcols
      let col := index % max 1 e.lcols
      let i := row - r0
      let x := col - c0
      let sh := 2 ^ c.g .CEL_UPD_CTL_AUD_SHIFT p
      if ¬ c.on .CEL_UPD_CTL_AUD_EN p ∨ ph = 0 ∨ 6 ≤ ph ∨ row < r0 ∨ col < c0 ∨ e.urows ≤ i ∨ e.ulen ≤ x
          ∨ draw (c.rd .HUB_SEED p).toNat tensor index (c.step p) 0xFE % sh ≠ 0 then c
      else
        match (c.rowHdr p e.hdr i).2.2 with
        | none => c.noVisible p tensor i
        | some k =>
          let rp := rowPitch e.ulen
          let wa := e.mst + k * e.s4 + 4 * rp * i + 4 * x
          let slot := if e.classC then k else c.g .HUB_STEP_SEALED_STEP p % 2
          let c := c.meter p (meterOfTier e.hdr false) 32
          let ca := e.wc + slot * e.s2 + 2 * rp * i + 2 * x
          match c.tierKey p wa, c.tierKey p ca with
          | some kw, some kc =>
            let c := c.meter p 15 4
            let c := if e.classC then c.meter p 15 2 else c
            let want := encodeF bf16 (roundF bf16 .rne (decodeF fp32 (c.num kw 4)))
            if want = c.num kc 2 then c
            else
              let c := (c.put .CEL_AUD_LOG_TENSOR p tensor).put .CEL_AUD_LOG_INDEX p index
              let c := (c.inc .CEL_CNT_MISMATCH_COUNT p).set1 .CEL_UPD_STICKY_AUDIT p
              c.ctrlFault [p] { cls := 0x0C, action := 2, place := .part p, detail := [tensor, index] }
          | _, _ => c)

end Sys2Proof.Machine
end

