-- ==== Sys2Proof/Machine/CollData.lean ====
section
/-! DEFINITION. The data of a collective (R457, R466–R478, R658): bytes with their poison, elements, the division of the
range, the order of additions, digests, and which segments a member expects. -/

namespace Sys2Proof.Machine

/-! ### Bytes with their poison -/

/-- Bytes, each with whether it carries poison. -/
abbrev PBytes := List (Byte × Bool)

/-- n bytes of a tier address of a partition; an unmapped byte reads as 0. -/
def Chip.tierLoad (c : Chip) (p a n : Nat) : PBytes :=
  (rangeFrom a n).map (fun x => match c.tierKey p x with | some k => (c.byte k, c.bad k) | none => (0, false))

/-- Whether n bytes from a tier address are mapped for a partition. -/
def Chip.tierHas (c : Chip) (p a n : Nat) : Bool :=
  decide (a + n ≤ 2 ^ 64) && (List.range n).all (fun i => (c.tierKey p (a + i)).isSome)

/-- A list cut at the multiples of g, with the address of each piece; fuel bounds the pieces. -/
def cutAt {α : Type} (g : Nat) : Nat → Nat → List α → List (Nat × List α)
  | 0, _, _ => []
  | fuel + 1, a, xs => if xs.isEmpty then [] else (a, xs.take (g - a % g)) :: cutAt g fuel (a + (g - a % g)) (xs.drop (g - a % g))

/-- Bytes with their poison written to a tier address by the Carousel, granule by granule; blocked and reported where the
fence holds (R187, R190, R361). -/
def Chip.tierStore (c : Chip) (p a : Nat) (bs : PBytes) : Chip :=
  match c.fenceHit p a bs.length with
  | some x => c.blockedWrite p 12 x
  | none =>
    (cutAt (if bits a 63 60 ≤ 1 then 8 else 64) bs.length a bs).foldl (fun c x =>
      match c.tierKey p x.1 with
      | some k => (c.write k (x.2.map Prod.fst) (x.2.any Prod.snd)).meter p (meterOfKey k true) x.2.length
      | none => c) c

/-- Data words and poison marks of flits that carry bytes. -/
def flitsOf (bs : PBytes) : List Word × List Bool :=
  (wordsOf (cdiv bs.length 8) (bs.map Prod.fst), (List.range (cdiv bs.length 64)).map (fun i => ((bs.drop (64 * i)).take 64).any Prod.snd))

/-- The data bytes of a packet with their poison. -/
def pktBytes (k : Pkt) : PBytes := (bytesOf k.words).zip (k.poison.flatMap (List.replicate 64))

/-! ### Elements -/

/-- Code of element e of a format among bytes. -/
def elemOf (f : Nat) (bs : PBytes) (e : Nat) : Nat × Bool :=
  let n := fmtNibbles f
  if n = 1 then
    let x := bs.getD (e / 2) (0, false)
    (x.1.toNat / 16 ^ (e % 2) % 16, x.2)
  else
    let l := (bs.drop (e * (n / 2))).take (n / 2)
    (leNat (l.map Prod.fst), l.any Prod.snd)

/-- Codes of n elements of a format. -/
def elemsOf (f n : Nat) (bs : PBytes) : List (Nat × Bool) := (List.range n).map (elemOf f bs)

/-- Elements of a format as bytes. -/
def packElems (f : Nat) (xs : List (Nat × Bool)) : PBytes :=
  let n := fmtNibbles f
  if n = 1 then
    (List.range (cdiv xs.length 2)).map (fun i =>
      let a := xs.getD (2 * i) (0, false)
      let b := xs.getD (2 * i + 1) (0, false)
      (BitVec.ofNat 8 (a.1 + 16 * b.1), a.2 || b.2))
  else xs.flatMap (fun x => (leBytes (n / 2) x.1).map (·, x.2))

/-- Elements in one segment: 1,024, and 512 of a format of eight bytes, so that a segment fits in 64 flits. -/
def segElems (f : Nat) : Nat := if fmtNibbles f = 16 then 512 else 1024

/-- The value of an element code. -/
def codeVal (f w : Nat) : FVal := if isMx f then decodeElem (mxOf f) w else rawValue f w

/-! ### Geometry of a collective -/


def CollS.op (x : CollS) : Nat := clOp x.words
/-- G. -/
def CollS.g (x : CollS) : Nat := x.mods.length
/-- Format of contributions. -/
def CollS.cfmt (x : CollS) : Nat := if x.op = 5 then 1 else clSfmt x.words
/-- Format of results: DFMT of RS and AR, SFMT of AG. -/
def CollS.rfmt (x : CollS) : Nat := if x.op = 1 then clSfmt x.words else if x.op = 5 then 1 else clDfmt x.words
/-- First element of shard s in the range (R457). -/
def CollS.sFirst (x : CollS) (s : Nat) : Nat := if x.op = 5 then 0 else shareFirst 32 (clCount x.words) x.g s
/-- Elements of shard s: of a PREDUCE the sub-tile elements as shard 0. -/
def CollS.sLen (x : CollS) (s : Nat) : Nat := if x.op = 5 then (if s = 0 then 4096 * x.tcount else 0) else shareLen 32 (clCount x.words) x.g s
/-- Shards that hold an element. -/
def CollS.shards (x : CollS) : List Nat := (List.range x.g).filter (fun s => decide (0 < x.sLen s))
/-- Segments of n elements of a format. -/
def segsOf (f n : Nat) : Nat := cdiv n (segElems f)
/-- Keys of the segments of a shard from a member. -/
def segKeys (m s n : Nat) : List (Nat × Nat × Nat) := (List.range n).map (fun k => (m, s, k))

/-- Whether a collective reduces. -/
def CollS.reduces (x : CollS) : Bool := x.op == 0 || x.op == 2 || x.op == 5
/-- Whether this member tests shard s (R472). -/
def CollS.tests (x : CollS) (s : Nat) : Bool :=
  match x.op with
  | 5 => x.me == clPeer x.words && s == 0
  | _ => (x.op == 0 || x.op == 2) && decide (0 < x.sLen s) && (if x.alg = 1 then x.me + 1 == x.g else x.me == s)

/-- Tensor and first element index of the draws of shard s (R458, R658). -/
def CollS.drawAt (x : CollS) (s : Nat) : Nat × Nat :=
  if x.op = 5 then (x.block, 4096 * x.tfirst) else (clTensor x.words, clIdx0 x.words + x.sFirst s)

/-- Position of element e of the range (R466): row and column of the tensor; of a PREDUCE sub-tile and place in it. -/
def CollS.posOf (x : CollS) (e : Nat) : Nat × Nat :=
  let i := if x.op = 5 then 4096 * x.tfirst + e else clIdx0 x.words + e
  let n := if x.op = 5 then 4096 else max 1 x.lcols
  (i / n % 2 ^ 24, i % n % 2 ^ 24)

/-! ### Placement and A2A (R453, R477) -/

/-- Experts of a placement table hosted by a member: (expert, slot, capacity), in ascending slot. -/
def expertsOf (t : PlaceTab) (d : Nat) : List (Nat × Nat × Nat) :=
  sortBy (fun e => e.2.1) (((List.range t.ents.length).map (fun e => (e, t.ents.getD e (0, 0, 0)))).filterMap (fun e =>
    if e.2.1 = d then some (e.1, e.2.2.1, e.2.2.2) else none))

/-- The placement table that an A2A names. -/
def Chip.placeOf (c : Chip) (p : Nat) (x : CollS) : PlaceTab :=
  match (c.curMap p).bind (fun m => m.places.find? (fun t => t.pt == clPt x.words)) with
  | some t => t
  | none => ⟨0, 0, []⟩

/-- Pieces of a member's counts: 1,024 experts to a packet. -/
def countPieces (n : Nat) : Nat := cdiv n 1024

/-- Count of member m for expert e. -/
def CollS.cntOf (x : CollS) (m e : Nat) : Nat :=
  match x.cnts.find? (fun d => d.frm == m && d.seg == e / 1024) with
  | some d => (d.codes.getD (e % 1024) (0, false)).1
  | none => 0

/-- Whether the counts of every member have arrived. -/
def CollS.cntsIn (x : CollS) (n : Nat) : Bool :=
  (List.range x.g).all (fun m => (List.range (countPieces n)).all (fun k => x.cnts.any (fun d => d.frm == m && d.seg == k)))

/-- Rows of member m that expert e with capacity cap accepts. -/
def CollS.quota (x : CollS) (m e cap : Nat) : Nat :=
  min (x.cntOf m e) (cap - ((List.range m).map (fun m' => x.cntOf m' e)).sum)

/-- First source row of expert e on member m. -/
def CollS.runAt (x : CollS) (m e : Nat) : Nat := ((List.range e).map (x.cntOf m)).sum

/-- Dispatched source rows of this member's expert e under RMASK (return). -/
def CollS.backRows (x : CollS) (mask : List Bool) (e : Nat) : List Nat :=
  (rangeFrom (x.runAt x.me e) (x.cntOf x.me e)).filter (fun i => mask.getD i false)

/-- RMASK read. -/
def Chip.maskOf (c : Chip) (p : Nat) (x : CollS) : List Bool :=
  (c.tierLoad p (clRmask x.words) (clSrows x.words)).map (fun b => decide (b.1.toNat % 2 = 1))

/-- RCNT of a local slot and member read. -/
def Chip.rcntOf (c : Chip) (p : Nat) (x : CollS) (slot m : Nat) : Nat :=
  leNat ((c.tierLoad p (clRcnt x.words + 4 * (slot * x.g + m)) 4).map Prod.fst)

/-- Rows that member m sends to this member. -/
def Chip.rowsFrom (c : Chip) (p : Nat) (x : CollS) (m : Nat) : Nat :=
  let t := c.placeOf p x
  if clRet x.words then ((expertsOf t m).map (fun e => (x.backRows (c.maskOf p x) e.1).length)).sum
  else ((expertsOf t x.me).map (fun e => x.quota m e.1 e.2.2)).sum

/-! ### Which segments a member expects (R470, R471, R475–R478) -/

/-- Whether the headers of every member's record have arrived at the root (R478). -/
def CollS.headersIn (x : CollS) : Bool := (List.range x.g).all (fun m => m == x.me || x.got.any (fun d => d.frm == m && d.shard == 1))

/-- Words of member m's record header, as received. -/
def CollS.headerOf (x : CollS) (own : List Word) (m : Nat) : List Word :=
  if m = x.me then own
  else match x.got.find? (fun d => d.frm == m && d.shard == 1) with
    | some d => d.codes.map (fun w => Word.ofNat w.1)
    | none => []

/-- CONTRIB of a record header. -/
def hdrContrib (h : List Word) : Nat := wbits (wordAt h 1) 47 32

/-- Header of this member's own record. -/
def Chip.ownHeader (c : Chip) (p : Nat) (x : CollS) : List Word := (c.tierWords p (clSrc x.words) 8).1

/-- Members in the order of addition: member index, or ascending CONTRIB of a PREDUCE. -/
def CollS.order (x : CollS) (own : List Word) : List Nat :=
  if x.op = 5 then sortBy (fun m => hdrContrib (x.headerOf own m)) (List.range x.g) else List.range x.g

/-- The shard whose contributions arrive under the window of R471, and whether for an arbitration. -/
def CollS.window (x : CollS) : Option (Nat × Bool) :=
  match x.first with
  | some (s, _) => some (s, true)
  | none =>
    if x.op = 5 then (if x.me = clPeer x.words ∧ x.headersIn then some (0, false) else none)
    else if (x.op = 0 ∨ x.op = 2) ∧ x.alg ≠ 1 ∧ 0 < x.sLen x.me then some (x.me, false) else none

/-- Segments that a member expects but for those under the window: whether all are granted at once, or only as far as
this member holds grants itself to pass them on, then the keys. -/
def Chip.expected (c : Chip) (p : Nat) (x : CollS) : List (Nat × Nat × Nat) :=
  let n := x.g
  let f := x.rfmt
  let shard (m s : Nat) : List (Nat × Nat × Nat) := segKeys m s (segsOf f (x.sLen s))
  let parts := if x.alg = 1 ∧ 0 < x.me then segKeys (x.me - 1) 0 (segsOf 1 (clCount x.words)) else []
  match x.op with
  | 0 => if x.alg = 1 then parts ++ (if x.me + 1 < n then shard (n - 1) x.me else []) else []
  | 1 =>
    if clWiden x.words then []
    else (x.shards.filter (· != x.me)).flatMap (fun s => shard (if x.alg = 3 then (x.me + n - 1) % n else s) s)
  | 2 =>
    if x.alg = 1 then parts ++ (if x.me + 1 < n then x.shards.flatMap (shard (x.me + 1)) else [])
    else (x.shards.filter (· != x.me)).flatMap (fun s => shard s s)
  | 3 =>
    if ¬ clRet x.words ∧ ¬ x.cntsIn (c.placeOf p x).ents.length then []
    else ((List.range n).filter (· != x.me)).flatMap (fun m =>
      segKeys m 0 (cdiv (c.rowsFrom p x m * clRowBytes x.words) 4096))
  | 5 => if x.me = clPeer x.words then ((List.range n).filter (· != x.me)).map (fun m => (m, 1, 0)) else []
  | 7 => segKeys (clPeer x.words) 0 (cdiv (clCount x.words) 64)
  | _ => []

/-- Whether a segment may be granted now: a running sum or a result that this member passes on only against a grant that
it holds for it (R470, R482). -/
def CollS.mayGrant (x : CollS) (key : Nat × Nat × Nat) : Bool :=
  let part := x.alg == 1 && key.1 + 1 == x.me
  if x.alg ≠ 1 ∨ x.op = 1 then true
  else if part then x.me + 1 == x.g || x.gin.contains (x.me + 1, key.2)
  else x.op != 2 || x.me == 0 || x.gin.contains (x.me - 1, key.2)

/-! ### The window of R471 -/

/-- Whether a contribution's segment is here. -/
def CollS.here (x : CollS) (w : Nat × Bool) (m k : Nat) : Bool :=
  m == x.me || x.got.any (fun d => d.frm == m && d.shard == w.1 && d.seg == k && d.again == w.2)

/-- Place in the order of the lowest member whose segment k has not been added; G when all have. -/
def CollS.aOf (x : CollS) (ord : List Nat) (w : Nat × Bool) (k : Nat) : Nat :=
  ((List.range ord.length).find? (fun i => !x.here w (ord.getD i 0) k)).getD ord.length

/-- Slots of reorder storage that a collective holds: pairs granted whose segment has not been added. -/
def CollS.slots (x : CollS) (ord : List Nat) : Nat :=
  match x.window with
  | none => 0
  | some w => (x.given.filter (fun g =>
      g.2.1 == w.1 && (x.op != 5 || w.1 == 0) && decide (x.aOf ord w g.2.2 ≤ (ord.findIdx? (· == g.1)).getD 0))).length

/-- Segments of the shard under the window. -/
def CollS.winSegs (x : CollS) (w : Nat × Bool) : Nat := segsOf x.cfmt (x.sLen w.1)

/-- The next pair in order that the window lets be granted, given the free slots. -/
def CollS.nextPair (x : CollS) (ord : List Nat) (gwin free : Nat) : Option (Nat × Nat × Nat) :=
  match x.window with
  | none => none
  | some w =>
    let ks := List.range (x.winSegs w)
    let pair (k : Nat) : Option (Nat × Nat × Nat) :=
      let a := x.aOf ord w k
      ((rangeFrom a (gwin + 1)).find? (fun i =>
        decide (i < ord.length) && ord.getD i 0 != x.me && !x.given.contains (ord.getD i 0, w.1, k))).map (fun i => (ord.getD i 0, w.1, k))
    match ks.findSome? pair with
    | none => none
    | some q =>
      let low := ks.find? (fun k => decide (x.aOf ord w k < ord.length))
      let next := low == some q.2.2 && ord[x.aOf ord w q.2.2]? == some q.1
      if 2 ≤ free ∨ (next ∧ 1 ≤ free) then some q else none

/-! ### Sums and digests (R83, R97, R470–R473, R658) -/

/-- A sum of one element: value, whether an addition overflowed, poison. -/
abbrev SumE := FO × Bool

/-- Contributions as sums of one. -/
def sum1 (f : Nat) (xs : List (Nat × Bool)) : List SumE := xs.map (fun y => ((codeVal f y.1, false), y.2))

/-- A contribution added to running sums, element by element. -/
def sumAdd (f : Nat) (acc : List SumE) (xs : List (Nat × Bool)) : List SumE :=
  (acc.zip xs).map (fun z => (addO fp32 z.1.1 (codeVal f z.2.1, false), z.1.2 || z.2.2))

/-- Contributions added in order. -/
def sumAll (f : Nat) : List (List (Nat × Bool)) → List SumE
  | [] => []
  | x :: xs => xs.foldl (sumAdd f) (sum1 f x)

/-- FP32 codes of sums. -/
def sumCodes (xs : List SumE) : List (Nat × Bool) := xs.map (fun z => (encodeF fp32 z.1.1, z.2))

/-- Weight g_j of the element with an index. -/
def digWeight (seed tensor step idx : Nat) : FVal :=
  let r := draw seed tensor idx step 0xFD
  .fin (if bit r 0 then -1 else 1) (-(b2n (bit r 1) : Int))

/-- Digest and magnitude digest of values under weights. -/
def digestOf (gs vs : List FVal) : FVal × FVal :=
  (chunkFold (addF fp32) .zero .zero ((gs.zip vs).map (fun z => mulF fp32 z.1 z.2)),
   chunkFold addUp .zero .zero ((gs.zip vs).map (fun z => mulUp z.1.abs z.2.abs)))

/-- Digests of contributions added in order. -/
def digestSum : List (FVal × FVal) → FVal × FVal
  | [] => (.zero, .zero)
  | x :: xs => xs.foldl (fun a b => (addF fp32 a.1 b.1, addUp a.2 b.2)) x

/-- The digest test over r contributions of l elements: the exact difference, and whether it is within the tolerance. An
infinite tolerance is met. -/
def digestTest (r l : Nat) (d : FVal) (du : FVal × FVal) : FVal × Bool :=
  let diff := (exactAdd d du.1.neg).abs
  let tol := addUp (mulUp (gammaUp (2 * r + 2 * cdiv l 32 + 10)) du.2) (roundDy fp32 .up ((r + 1) * l : Nat) (-149))
  (diff, !tol.isFin || leV diff tol)

/-- Weights of the elements of shard s. -/
def Chip.weightsOf (c : Chip) (p : Nat) (x : CollS) (s : Nat) : List FVal :=
  let at' := x.drawAt s
  (List.range (x.sLen s)).map (fun e => digWeight (c.rd .HUB_SEED p).toNat at'.1 (c.step p) (at'.2 + e))

/-- Elements a to a + n − 1 of this member's contribution to shard s. -/
def Chip.ownElems (c : Chip) (p : Nat) (x : CollS) (s a n : Nat) : List (Nat × Bool) :=
  let f := x.cfmt
  let base := clSrc x.words + (if x.op = 5 then 4096 else 0)
  elemsOf f n (c.tierLoad p (base + fmtBytes f (x.sFirst s + a)) (fmtBytes f n))

/-- Member m's contribution to shard s. -/
def Chip.contribution (c : Chip) (p : Nat) (x : CollS) (w : Nat × Bool) (m : Nat) : List (Nat × Bool) :=
  if m = x.me then c.ownElems p x w.1 0 (x.sLen w.1)
  else (List.range (x.winSegs w)).flatMap (fun k =>
    match x.got.find? (fun d => d.frm == m && d.shard == w.1 && d.seg == k && d.again == w.2) with | some d => d.codes | none => [])

/-- Digest and magnitude digest of this member's contribution to shard s. -/
def Chip.ownDigest (c : Chip) (p : Nat) (x : CollS) (s : Nat) : FVal × FVal :=
  digestOf (c.weightsOf p x s) ((c.ownElems p x s 0 (x.sLen s)).map (fun y => codeVal x.cfmt y.1))

/-- A pair of digests as VALUE (R481). -/
def digValue (d : FVal × FVal) : Nat := encodeF fp32 d.1 + encodeF fp32 d.2 * 2 ^ 32

/-- The running sums of the predecessor over the whole range (CHAIN). -/
def CollS.partials (x : CollS) : List (Nat × Bool) :=
  (List.range (segsOf 1 (clCount x.words))).flatMap (fun k =>
    match x.got.find? (fun d => d.frm + 1 == x.me && d.shard == 0 && d.seg == k && !d.again) with | some d => d.codes | none => [])

/-- The FP32 sums of shard s that this member tests. -/
def Chip.firstSum (c : Chip) (p : Nat) (x : CollS) (s : Nat) : List SumE :=
  let own := c.ownElems p x s 0 (x.sLen s)
  if x.op ≠ 5 ∧ x.alg = 1 then
    if x.me = 0 then sum1 x.cfmt own else sumAdd x.cfmt (sum1 1 ((x.partials.drop (x.sFirst s)).take (x.sLen s))) own
  else sumAll x.cfmt ((x.order (c.ownHeader p x)).map (c.contribution p x (s, false)))

/-- Whether every addend and digest of shard s has arrived. -/
def CollS.ready (x : CollS) (s : Nat) : Bool :=
  let others := (List.range x.g).filter (· != x.me)
  if x.op ≠ 5 ∧ x.alg = 1 then
    x.me == 0 || ((List.range (segsOf 1 (clCount x.words))).all (fun k =>
      x.got.any (fun d => d.frm + 1 == x.me && d.shard == 0 && d.seg == k && !d.again))
      && x.digs.any (fun d => d.1 + 1 == x.me && d.2.1 == s))
  else others.all (fun m => (List.range (x.winSegs (s, false))).all (x.here (s, false) m) && x.digs.any (fun d => d.1 == m && d.2.1 == s))

/-- The added digests of shard s. -/
def Chip.digestsOf (c : Chip) (p : Nat) (x : CollS) (s : Nat) : FVal × FVal :=
  let of (m : Nat) : FVal × FVal :=
    if m = x.me then c.ownDigest p x s
    else match x.digs.find? (fun d => d.1 == m && d.2.1 == s) with
      | some d => (decodeF fp32 d.2.2.1, decodeF fp32 d.2.2.2)
      | none => (.zero, .zero)
  if x.op ≠ 5 ∧ x.alg = 1 then (if x.me = 0 then of 0 else digestSum [of (x.me - 1), of x.me])
  else digestSum ((x.order (c.ownHeader p x)).map of)

end Sys2Proof.Machine
end

