-- ==== Sys2Proof/Machine/CarCore.lean ====
section
/-! DEFINITION. The state of the Carousel and of the seal logic of a partition, and what becomes of open collectives at
the ends of steps (R469, R483, R486). -/

namespace Sys2Proof.Machine

/-- The Carousel of a partition. -/
def Chip.car (c : Chip) (p : Nat) : CarS := sget {} c.cars p
/-- The Carousel of a partition replaced. -/
def Chip.setCar (c : Chip) (p : Nat) (x : CarS) : Chip := { c with cars := sset {} c.cars p x }
/-- The seal logic of a partition. -/
def Chip.sealOf (c : Chip) (p : Nat) : SealS := sget {} c.seals p
/-- The seal logic of a partition replaced. -/
def Chip.setSeal (c : Chip) (p : Nat) (x : SealS) : Chip := { c with seals := sset {} c.seals p x }

/-- Whether every Carousel operation of a partition has ended (R242). -/
def Chip.carQuiet (c : Chip) (p : Nat) : Bool := (c.car p).colls.isEmpty

/-- Reorder slots that a partition's collectives hold (R471). -/
def Chip.segUsed (c : Chip) (p : Nat) : Nat := ((c.car p).colls.map (fun x => x.slots (x.order (c.ownHeader p x)))).sum

/-- BUSY, OPEN and SEGUSED of `CAR_STAT` (R490). -/
def Chip.syncCar (c : Chip) (p : Nat) : Chip :=
  let x := c.car p
  ((c.put .CAR_STAT_BUSY p (b2n (!x.colls.isEmpty))).put .CAR_STAT_OPEN p x.colls.length).put .CAR_STAT_SEGUSED p (c.segUsed p)

/-- n packets discarded as stale (R483). -/
def Chip.carStale (c : Chip) (p n : Nat) : Chip := if n = 0 then c else (c.inc .CAR_CNT_COUNT p n 4).set1 .CAR_STICKY_STALE p

/-- On ABANDON, a fence or QUIESCE every open collective ends and gives up its storage, held packets are stale, and the
tables of the step are cleared (R469, R480, R486, R516). -/
def Chip.carAbandon (c : Chip) (p : Nat) : Chip :=
  let x := c.car p
  let c := (c.inc .CAR_CNT_COUNT p x.colls.length 0).carStale p x.hold.length
  ({ c.setCar p {} with pnorms := sset [] c.pnorms p [] }).syncCar p

/-- At a seal the tables of the step are cleared (R469, R480). -/
def Chip.carSeal (c : Chip) (p : Nat) : Chip :=
  let c := { c with pnorms := sset [] c.pnorms p [] }
  let x := c.car p
  c.setCar p { colls := x.colls, hold := x.hold }

/-- The open collective of a CID. -/
def Chip.coll (c : Chip) (p cid : Nat) : Option CollS := (c.car p).colls.find? (fun x => x.cid == cid)
/-- An open collective replaced. -/
def Chip.setColl (c : Chip) (p : Nat) (x : CollS) : Chip :=
  let a := c.car p
  c.setCar p { a with colls := a.colls.map (fun y => if y.cid = x.cid then x else y) }
/-- An open collective changed. -/
def Chip.onColl (c : Chip) (p cid : Nat) (f : CollS → CollS) : Chip :=
  match c.coll p cid with | some x => c.setColl p (f x) | none => c

end Sys2Proof.Machine
end

