-- ==== Sys2Proof/Machine/HostCore.lean ====
section
/-! DEFINITION. The state of the host rings and what stops an inbound ring (R571, R574, R581). -/

namespace Sys2Proof.Machine

/-- Key of a ring of a function. -/
def ringKey (f q : Nat) : Nat := f * 64 + q
/-- An inbound ring. -/
def Chip.inRing (c : Chip) (f q : Nat) : InRing := sget {} c.inRings (ringKey f q)
/-- An inbound ring replaced. -/
def Chip.setInRing (c : Chip) (f q : Nat) (x : InRing) : Chip := { c with inRings := sset {} c.inRings (ringKey f q) x }
/-- An outbound ring. -/
def Chip.outRing (c : Chip) (f q : Nat) : OutRing := sget {} c.outRings (ringKey f q)
/-- An outbound ring replaced. -/
def Chip.setOutRing (c : Chip) (f q : Nat) (x : OutRing) : Chip := { c with outRings := sset {} c.outRings (ringKey f q) x }

/-- Every ring of every function: the keys of the rings that hold something. -/
def Chip.inRingKeys (c : Chip) : List (Nat × Nat) := c.inRings.map (fun x => (x.1 / 64, x.1 % 64))

/-- Descriptors of an inbound ring (R571). -/
def Chip.hiqSize (c : Chip) (f q : Nat) : Nat := 2 ^ (c.g .HOSTIF_HIQ_BASE_LOGN f q + 4)
/-- Slots of an outbound ring (R576). -/
def Chip.hoqSize (c : Chip) (f q : Nat) : Nat := 2 ^ (c.g .HOSTIF_HOQ_BASE_LOGN f q + 7)

/-- A failing descriptor stops its ring: HEAD stays on it, HALTED and STATUS are set, the ring's vector and HIQ_HALT are
raised; nothing behind it runs (R574, R579). -/
def Chip.hiqHalt (c : Chip) (f q st : Nat) : Chip :=
  let c := c.setInRing f q { c.inRing f q with jobs := [] }
  let c := (c.set1 .HOSTIF_HIQ_STAT_HALTED f q).put .HOSTIF_HIQ_STAT_STATUS f st q
  (c.raise f (c.g .HOSTIF_HIQ_CTL_VEC f q)).cause f 6

/-- Words of a producer that a queue holds open or waiting go (R574). -/
def Chip.dropProducer (c : Chip) (r q prod : Nat) : Chip :=
  let x := c.queue r q
  c.setQueue r q { x with opens := x.opens.filter (fun o => o.prod != prod), skip := x.skip.filter (· != prod)
                          waiting := x.waiting.filter (fun w => w.1 != prod) }

/-- The queue that an inbound ring writes to. -/
def Chip.hiqTarget (c : Chip) (f q : Nat) : Nat × Nat := (c.g .HOSTIF_HIQ_CTL_REGION f q, c.g .HOSTIF_HIQ_CTL_QUEUE f q)

/-- The queues of a partition are reset while a PACKET descriptor waits: the descriptor ends with QUEUE_ERR and its ring
halts (R581). -/
def Chip.ringsReset (c : Chip) (p : Nat) : Chip :=
  c.inRingKeys.foldl (fun c x =>
    match (c.inRing x.1 x.2).jobs with
    | j :: _ => if j.kind = 0 ∧ c.owns p (c.hiqTarget x.1 x.2).1 then c.hiqHalt x.1 x.2 8 else c
    | [] => c) c

/-- An inbound ring set to its TAIL: descriptors between are discarded, nothing of the ring waits, HALTED is clear (R574). -/
def Chip.hiqReset (c : Chip) (f q : Nat) : Chip :=
  let x := c.inRing f q
  let c := match x.jobs with
    | j :: _ => if j.kind = 0 then c.dropProducer (c.hiqTarget f q).1 (c.hiqTarget f q).2 (ringProducer f q) else c
    | [] => c
  let c := c.setInRing f q { x with jobs := [] }
  (c.put .HOSTIF_HIQ_STAT_HEAD f x.tail q).put .HOSTIF_HIQ_STAT_HALTED f 0 q

end Sys2Proof.Machine
end

