-- ==== Sys2Proof/Machine/Seal.lean ====
section
/-! DEFINITION. The gate, the seal protocol and recovery (R40–R52, R242–R248, R363–R365, R507–R519, R540): votes and the
coordinator, flips and abandons, boundary agreements, the actions of `SEAL_CMD` and `INT_RCV`. -/

namespace Sys2Proof.Machine

/-! ### Sequencers in an agreement -/

def Agree.isGate : Agree → Bool
  | .gate => true
  | _ => false
def Agree.isSeal : Agree → Bool
  | .seal _ => true
  | _ => false
def Agree.isBound : Agree → Bool
  | .full => true
  | .epoch _ _ => true
  | _ => false

/-- The enrolled sequencers of a partition (R242). -/
def Chip.enrolled (c : Chip) (p : Nat) : List Nat := (c.clustersOf p).filter (fun cl => c.on .CLU_SEQ_CTL_EN cl)

/-- Whether every enrolled sequencer, and at least one, waits in an agreement of a kind, and the Carousel has drained. -/
def Chip.allWait (c : Chip) (p : Nat) (k : Agree → Bool) : Bool :=
  let l := c.enrolled p
  !l.isEmpty && l.all (fun cl => k (c.seq cl).agree) && c.carQuiet p

/-- The agreement of a sequencer ends: its command with an outcome, the sequencer free to go on. -/
def Chip.endAgree (c : Chip) (cl : Nat) (m : Part) : Chip :=
  let id := (c.seq cl).agreeId
  (c.setSeq cl { c.seq cl with agree := .none, arrived := false }).endCmd cl id m

/-! ### Messages (R423, R507) -/

/-- A seal message to a rank. -/
def Chip.sealMsg (c : Chip) (p rank kind step mark : Nat) : Chip :=
  c.inject p (mkPkt 0x40 ((c.jobIds p).getD rank 0) [kind + step % 2 ^ 48 * 2 ^ 8, mark] [] [])

/-- A seal message to every live rank but this one, in ascending order. -/
def Chip.sealCast (c : Chip) (p kind step mark : Nat) : Chip :=
  ((c.liveRanks p).filter (· != c.myRank p)).foldl (fun c r => c.sealMsg p r kind step mark) c

/-- A message of this rank to the coordinator, of a live module that is not the coordinator itself. -/
def Chip.toCoord (c : Chip) (p kind mark : Nat) : Chip :=
  match c.coord p with
  | some r => if c.amLive p ∧ r ≠ c.myRank p then c.sealMsg p r kind (c.step p) mark else c
  | none => c

/-- A SEAL_TMO record, counted (R497, R528, R654). -/
def Chip.sealTmo (c : Chip) (p rank timer action : Nat) : Chip :=
  (c.postFault { cls := 0x12, action := action, place := .part p, detail := [c.step p, rank, timer] }).inc .SEAL_CNT_COUNT p 1 2

/-- `SEAL_LOG` of a decision on a step (R525). -/
def Chip.sealLog (c : Chip) (p step kind : Nat) (loc : Bool) (att : Nat) : Chip :=
  (((c.put .SEAL_LOG_STEP p step).put .SEAL_LOG_KIND p kind).put .SEAL_LOG_LOCAL p (b2n loc)).put .SEAL_LOG_ATT p att

/-- ATT of the attempt that a decision belongs to: a rank behind the barrier has raised its own already. -/
def Chip.attOf (c : Chip) (p : Nat) : Nat := (c.g .SEAL_STAT_ATT p + 256 - b2n (c.sealOf p).barrier) % 256

/-- MISSING: the lowest live rank not among those that have answered (R524). -/
def Chip.showMissing (c : Chip) (p : Nat) (got : List Nat) : Chip :=
  c.put .SEAL_STAT_MISSING p (((c.liveRanks p).find? (fun r => !got.contains r)).getD 0)

/-! ### Boundaries (R54, R243, R244, R511, R540) -/

/-- A release reaches this rank: an EPOCH's mapping and layout epoch take effect, and its sequencers go on, or halt with
cause YIELD while YREQ is set. -/
def Chip.releaseBound (c : Chip) (p mark : Nat) : Chip :=
  if ¬ (c.sealOf p).bsent then c
  else
    let c := c.setSeal p { c.sealOf p with bsent := false }
    let c := (c.put .SEAL_STAT_BOUNDARY p 0).put .SEAL_STAT_WAIT_REL p 0
    let eps := (c.enrolled p).filterMap (fun cl => match (c.seq cl).agree with | .epoch le slot => some (le, slot) | _ => none)
    let c := match mark, eps with
      | 2, (le, slot) :: _ => c.activate p slot le
      | _, _ => c
    let yld := c.on .PART_STAT_YREQ p
    let c := if yld ∧ c.g .PART_STAT_STATE p = 3 then c.setPart p 4 else c
    (c.enrolled p).foldl (fun c cl =>
      let a := (c.seq cl).agree
      if ¬ a.isBound then c
      else
        let c := c.endAgree cl { order := 0 }
        let x := c.seq cl
        let ep := match a with | .epoch _ _ => true | _ => x.epochMark
        c.setSeq cl { x with epochMark := ep, halt := if yld then 6 else x.halt }) c

/-- Every enrolled sequencer halts with cause EPOCH_MISMATCH (R244, R250, R511). -/
def Chip.haltMismatch (c : Chip) (p : Nat) : Chip :=
  let c := c.setSeal p { c.sealOf p with bsent := false }
  let c := (c.put .SEAL_STAT_BOUNDARY p 0).put .SEAL_STAT_WAIT_REL p 0
  (c.enrolled p).foldl (fun c cl => c.setSeq cl { c.seq cl with agree := .none, arrived := false, halt := 7 }) c

/-- The coordinator releases a boundary on every rank. -/
def Chip.castRelease (c : Chip) (p step mark : Nat) : Chip := (c.sealCast p 6 step mark).releaseBound p mark

/-- The coordinator reports a mismatch found at a rank to every rank, and halts here too (R244, R511, R525). -/
def Chip.castMismatch (c : Chip) (p step r : Nat) : Chip :=
  let c := (c.setSeal p { c.sealOf p with bound := [] }).sealLog p step 3 true (c.attOf p)
  let c := c.postFault { cls := 0x19, action := 5, place := .part p, detail := [r] }
  (c.sealCast p 7 step 0).haltMismatch p

/-- The coordinator takes a boundary vote, none of a rank that still has to acknowledge an abandon; with every live rank's it releases, at once or deferred past QEND + 40 ns, or
reports a mismatch, at once where one rank's own votes differ (R511, R540). -/
def Chip.coordBound (c : Chip) (p rank step mark lepoch : Nat) : Chip :=
  let x := c.sealOf p
  let live := c.liveRanks p
  if ¬ live.contains rank ∨ (x.ack.getD []).contains rank then c
  else if x.bound.any (fun v => v.1 == rank && v.2 != (step, mark, lepoch)) then c.castMismatch p step rank
  else
    let l := x.bound.filter (fun v => v.1 != rank) ++ [(rank, step, mark, lepoch)]
    let first := x.bound.isEmpty
    let c := c.setSeal p { x with bound := l, boundAt := if first then c.up else x.boundAt, boundTmo := !first && x.boundTmo }
    let got := l.map Prod.fst
    if ¬ live.all (got.contains ·) then c.showMissing p got
    else
      let val (r : Nat) : Option (Nat × Nat × Nat) := (l.find? (fun v => v.1 == r)).map Prod.snd
      let c := c.setSeal p { c.sealOf p with bound := [] }
      match live.find? (fun r => val r != val (live.headD 0)) with
      | some r => c.castMismatch p step r
      | none =>
        let q := c.g .PART_QEND_QEND p
        if q ≠ 0 ∧ q ≤ c.now + 1000 * c.g .PART_QCFG_YGUARD p ∧ c.now < q + 40 then
          c.setSeal p { c.sealOf p with release := some (q + 40, step, mark) }
        else c.castRelease p step mark

/-- Once every enrolled sequencer waits at a boundary and the Carousel has drained, the partition is reported ready; marker
kinds or layout epochs that differ among its own sequencers are a mismatch for the whole job (R243, R244): the coordinator
reports it, and another rank halts and lets the coordinator see it by a vote of each kind (DESIGN CHOICE, log entry 56). -/
def Chip.tryBoundary (c : Chip) (p : Nat) : Chip :=
  let x := c.sealOf p
  if x.bsent ∨ x.barrier ∨ ¬ c.allWait p Agree.isBound then c
  else
    let as := (c.enrolled p).map (fun cl => (c.seq cl).agree)
    let kind : Agree → Option Nat := fun a => match a with | .epoch le _ => some le | _ => none
    let k := kind (as.headD .none)
    if as.any (fun a => kind a != k) then
      if c.isCoord p then c.castMismatch p (c.step p) (c.myRank p)
      else
        let c := c.postFault { cls := 0x19, action := 5, place := .part p, detail := [c.myRank p] }
        ((c.toCoord p 5 1).toCoord p 5 2).haltMismatch p
    else
      let mark := if k.isSome then 2 else 1
      let c := (c.setSeal p { x with bsent := true }).set1 .SEAL_STAT_WAIT_REL p
      if c.isCoord p then c.coordBound p (c.myRank p) (c.step p) mark (c.lepoch p) else c.toCoord p 5 mark

/-! ### Abandoning (R48, R248, R510) -/

/-- What the hub does for an abandoned step: alternate-slot writes, collectives, frames and staging discarded, the skip
counter and, where latched, the schedule index advanced (R48, R365). -/
def Chip.discardStep (c : Chip) (p : Nat) : Chip :=
  let c := (c.updAbandon p).carAbandon p
  let c := (c.regionsOf p).foldl (fun c r => c.solverAbandon r) c
  let c := (c.clustersOf p).foldl (fun c cl => (c.rackDiscard cl).pressDiscard cl) c
  let c := c.inc .HUB_CNT_SKIP_COUNT p
  let x := c.stepS p
  let c := if x.skipAdv then c.inc .HUB_SCHED_INDEX p else c
  let c := ((c.put .HUB_STEP_READY_SENT p 0).put .HUB_STEP_UPDATE_DONE p 0).put .SEAL_STAT_IN_DOUBT p 0
  c.setStep p { skipAdv := x.skipAdv, killed := x.killed }

/-- The barrier of an abandon falls: the retry may vote, and a boundary that its sequencers have reached meanwhile is reported
(R243, R510). -/
def Chip.relBarrier (c : Chip) (p : Nat) : Chip :=
  if ¬ (c.sealOf p).barrier then c
  else
    let c := c.setSeal p { c.sealOf p with barrier := false }
    ((c.put .HUB_STEP_GATE_FAIL p 0).put .SEAL_STAT_WAIT_REL p 0).tryBoundary p

/-- The coordinator takes a rank's acknowledgement of an abandon; the last one releases every rank (R510). -/
def Chip.coordAck (c : Chip) (p rank step : Nat) : Chip :=
  let x := c.sealOf p
  match x.ack with
  | none => c
  | some l =>
    if step ≠ x.ackStep then c
    else
      let l := l.filter (· != rank)
      if l.isEmpty then
        let c := (c.setSeal p { x with ack := none, votes := [] }).sealCast p 6 step 0
        c.relBarrier p
      else (c.setSeal p { x with ack := some l }).showMissing p ((c.liveRanks p).filter (fun r => !l.contains r))

/-- A rank applies an abandon of the step in progress (R48, R248, R510): it votes GATE_FAIL if it has not voted, raises ATT,
unwinds its sequencers, discards the step and acknowledges. -/
def Chip.applyAbandon (c : Chip) (p : Nat) (own : Bool) : Chip :=
  let x := c.sealOf p
  if x.barrier then c
  else
    let c := if x.votedAt.isNone then c.toCoord p 2 0 else c
    let c := (c.inc .SEAL_STAT_ATT p).inc .SEAL_CNT_COUNT p 1 1
    let c := (c.enrolled p).foldl (fun c cl => c.unwind cl own) c
    let c := c.discardStep p
    let c := c.setSeal p { c.sealOf p with barrier := true, votedAt := none, bsent := false }
    let c := ((c.set1 .SEAL_STAT_WAIT_REL p).put .SEAL_STAT_BOUNDARY p 0).showPhase p
    if c.isCoord p then c.coordAck p (c.myRank p) (c.step p) else c.toCoord p 5 0

/-- The coordinator decides ABANDON: logged with its cause, sent to every live rank, applied here (R508, R525). -/
def Chip.decideAbandon (c : Chip) (p reason rank : Nat) : Chip :=
  let step := c.step p
  let c := c.sealLog p step 2 true (c.attOf p)
  let c := (c.put .SEAL_CAUSE_REASON p reason).put .SEAL_CAUSE_RANK p rank
  let c := c.setSeal p { c.sealOf p with
    votes := [], ack := some (c.liveRanks p), ackStep := step, ackAt := c.up, ackTmo := false, bound := [] }
  ((c.showMissing p []).sealCast p 4 step 0).applyAbandon p (decide (reason = 4))

/-- The module's own gate fails, or it votes to abandon (R45, R48, R498, R505, R508). -/
def Chip.ownFail (c : Chip) (p : Nat) : Chip :=
  let c := c.set1 .HUB_STEP_GATE_FAIL p
  let c := c.setStep p { c.stepS p with gate := some false }
  if c.isCoord p then c.decideAbandon p 4 (c.myRank p) else c.applyAbandon p true

/-! ### Sealing (R47, R240, R247, R318, R343, R365) -/

/-- The flip: the step is sealed and its alternate slots become visible; what belonged to the step ends with it. `kind` is
1 for SEAL and 4 for FORCE. A reason to abandon that arose after the vote stays for the next step. -/
def Chip.flip (c : Chip) (p kind : Nat) : Chip :=
  let c := c.movesMet p
  let n := c.step p
  let x := c.stepS p
  let c := ((c.put .HUB_STEP_SEALED_STEP p n).put .HUB_STEP_PARITY p n).put .HUB_STEP_READY_SENT p 0
  let c := (c.put .HUB_STEP_UPDATE_DONE p 0).put .HUB_STEP_GATE_FAIL p 0
  let c := c.inc .HUB_SCHED_INDEX p
  let c := (c.set1 .SEAL_STAT_OLD_INTACT p).put .SEAL_STAT_IN_DOUBT p 0
  let c := if c.on .HUB_GATE_CTL_GLOBAL p ∧ c.on .HUB_GATE_STAT_CLIPPED p then c.inc .HUB_CNT_CLIP_COUNT p else c
  let c := if kind = 4 then (c.sealLog p n 4 false (c.attOf p)).inc .SEAL_CNT_COUNT p 1 3 else c.inc .SEAL_CNT_COUNT p 1 0
  let c := match (c.mapS p).cur with
    | some slot => ((c.put .PART_RESUME_SLOT p slot).put .PART_RESUME_LEPOCH p (c.lepoch p)).set1 .PART_RESUME_VALID p
    | none => c
  let c := (c.updSeal p).carSeal p
  let c := (c.regionsOf p).foldl (fun c r => c.solverSeal r) c
  let c := (c.clustersOf p).foldl (fun c cl => (c.rackSeal cl).pressSeal cl) c
  let c := c.setStep p { skipAdv := c.on .HUB_GATE_CTL_SKIP_ADV p, killed := x.killed, vote := x.vote, poison := x.poison }
  let c := c.setSeal p { c.sealOf p with votedAt := none, votes := [] }
  let c := (c.enrolled p).foldl (fun c cl =>
    if ¬ (c.seq cl).agree.isSeal then c
    else
      let c := c.endAgree cl { order := 0, status := stSealed, detail := n % 2 ^ 48 + x.installed % 256 * 2 ^ 48 }
      c.setSeq cl { c.seq cl with phase := 7, gated := false, sealRead := false, epochMark := false }) c
  c.showPhase p

/-- The coordinator decides SEAL: logged, sent to every live rank, applied here (R508). -/
def Chip.decideSeal (c : Chip) (p : Nat) : Chip :=
  let step := c.step p
  ((c.sealLog p step 1 true (c.attOf p)).sealCast p 3 step 0).flip p 1

/-- The coordinator takes a vote (R508): none from a rank that is not live or that still has to acknowledge an abandon; a
vote with another STEP or LEPOCH is a control-path fault and decides ABANDON, as a GATE_FAIL does; SEAL_READY from every
live rank decides SEAL. -/
def Chip.coordVote (c : Chip) (p rank : Nat) (ready : Bool) (step lepoch : Nat) : Chip :=
  let x := c.sealOf p
  if ¬ (c.liveRanks p).contains rank ∨ (x.ack.getD []).contains rank then c
  else if step ≠ c.step p ∨ lepoch ≠ c.lepoch p then
    let c := c.ctrlFault [p] { cls := 0x0E, action := 2, place := .part p
                               detail := [step % 2 ^ 48 + 2 ^ 63, (c.jobIds p).getD rank 0 + lepoch % 2 ^ 16 * 2 ^ 16] }
    c.decideAbandon p (if step ≠ c.step p then 5 else 3) rank
  else
    let c := c.setSeal p { x with votes := x.votes.filter (fun v => v.1 != rank) ++ [(rank, ready)]
                                  voteAt := if x.votes.isEmpty then c.up else x.voteAt }
    if ¬ ready then c.decideAbandon p (if rank = c.myRank p then 4 else 1) rank
    else
      let got := (c.sealOf p).votes.map Prod.fst
      if (c.liveRanks p).all (got.contains ·) then c.decideSeal p else c.showMissing p got

/-! ### The gate (R45, R242, R363–R365, R389) -/

/-- FP64 codes of the norms that the gate tests: the global norm, or the per-tensor norms of the step. -/
def Chip.gateNorms (c : Chip) (p : Nat) : List Nat :=
  if c.on .HUB_GATE_CTL_GLOBAL p then [c.g .HUB_GATE_NORM_NORM p] else (sget [] c.pnorms p).map Prod.snd

/-- The gate evaluated: its conditions, the clip factor and the norm recorded. -/
def Chip.evalGate (c : Chip) (p : Nat) : Chip :=
  let c := c.wcensPostAll p
  let glob := c.on .HUB_GATE_CTL_GLOBAL p
  let nmax := decodeF fp32 (c.g .HUB_GATE_LIM_NMAX p)
  let norms := c.gateNorms p
  let vals := norms.map (decodeF fp64)
  let bad := (glob && (c.car p).norms != 1) || vals.any (fun v => !v.isFin || !leV v nmax)
  let clips := vals.map (clipFactor (c.g .HUB_GATE_LIM_CLIP p))
  let one := encodeF fp32 .one
  let clip := if glob then clips.headD one else clips.foldl min one
  let x := c.stepS p
  let pass := !(x.nf || x.chk || x.poison || x.vote || bad)
  let c := if glob ∨ norms.isEmpty then c else c.put .HUB_GATE_NORM_NORM p (norms.foldl max 0)
  let c := (((c.put .HUB_GATE_STAT_CLIPF p clip).put .HUB_GATE_STAT_PASS p (b2n pass)).put .HUB_GATE_STAT_NF p (b2n x.nf)).put
    .HUB_GATE_STAT_CHK p (b2n x.chk)
  let c := ((c.put .HUB_GATE_STAT_POISON p (b2n x.poison)).put .HUB_GATE_STAT_NORM p (b2n bad)).put
    .HUB_GATE_STAT_CLIPPED p (b2n (decide (clip < one)))
  if ¬ pass then c.ownFail p
  else
    let c := c.setStep p { c.stepS p with gate := some true }
    (c.enrolled p).foldl (fun c cl => if (c.seq cl).agree.isGate then c.endAgree cl { order := 0 } else c) c

/-- Whether a partition may still vote in the attempt. -/
def Chip.mayVote (c : Chip) (p : Nat) : Bool := c.runs p && !(c.sealOf p).barrier && (c.sealOf p).votedAt.isNone

/-- GATE_EVALUATE (R45, R242, R363–R365, R498, R505): the gate is evaluated once every enrolled sequencer is at the gate
marker or at SEAL and the Carousel has ended the step's work; a control-path fault or another reason to abandon makes the
module vote at once. -/
def execGateEvaluate (p : Nat) (s : State) : Host.Outcome State Fault Refusal :=
  nextChip s (fun c =>
    if ¬ c.mayVote p then c
    else if (c.stepS p).vote then c.ownFail p
    else if (c.stepS p).gate.isNone ∧ c.allWait p (fun a => a.isGate || a.isSeal) then c.evalGate p
    else c)

/-- Every pinned solve of the sequencers at SEAL has recorded its completion (R247). -/
def Chip.pinsDone (c : Chip) (p : Nat) : Bool :=
  (c.enrolled p).all (fun cl => match (c.seq cl).agree with
    | .seal pins => pins.all (fun x => c.ticketDone (x / 4096) (x % 4096))
    | _ => true)

/-- INSTALL_CUT (R51, R52, R343): once every enrolled sequencer is at SEAL, the gate has passed and the pins are done, the
alternate record of every used root entry of every region is written. -/
def execInstallCut (p : Nat) (s : State) : Host.Outcome State Fault Refusal :=
  nextChip s (fun c =>
    let x := c.stepS p
    if ¬ c.mayVote p ∨ x.gate ≠ some true ∨ x.cutDone ∨ ¬ c.allWait p Agree.isSeal ∨ ¬ c.pinsDone p then c
    else
      let rs := c.regionsOf p
      let c := rs.foldl (fun c r => c.cutRegion p r) c
      let n := (rs.map (fun r => (c.solver r).installs)).sum
      (c.setStep p { c.stepS p with cutDone := true, installed := n }).showDone p)

/-- SEND_SEAL_READY (R46, R247, R343, R508): every sequencer at SEAL, the gate passed, every alternate-slot write completed and
the cut taken, a live rank votes. A reason to abandon met since the gate makes the module vote GATE_FAIL. -/
def execSendSealReady (p : Nat) (s : State) : Host.Outcome State Fault Refusal :=
  nextChip s (fun c =>
    let x := c.stepS p
    if ¬ c.mayVote p ∨ x.gate ≠ some true then c
    else if x.vote ∨ x.poison ∨ x.chk ∨ x.nf then c.ownFail p
    else if ¬ x.cutDone ∨ ¬ c.allWait p Agree.isSeal ∨ ¬ c.updSettled p ∨ ¬ c.amLive p then c
    else
      let c := (c.showDone p).set1 .HUB_STEP_READY_SENT p
      let c := (c.setSeal p { c.sealOf p with votedAt := some c.up }).showPhase p
      if c.isCoord p then c.coordVote p (c.myRank p) true (c.step p) (c.lepoch p) else c.toCoord p 1 0)

/-- CMD_SEAL (R220, R246, R305): a wrong STEP or an unknown ticket ends the command and makes the module vote to abandon;
otherwise the sequencer waits at SEAL, in phase 6. -/
def execCmdSeal (cl : Nat) (s : State) : Host.Outcome State Fault Refusal :=
  nextChip s (fun c => c.takeMarker cl (isOp 0x0A) true (fun c w =>
    let p := c.partOfCl cl
    let pins := (List.range (wbits (wordAt w 1) 51 48)).map (fun i => wbits (wordAt w (2 + i / 4)) (16 * (i % 4) + 15) (16 * (i % 4)))
    if wbits (wordAt w 1) 47 0 ≠ c.step p then (c.refuse cl w stStepMismatch (c.g .HUB_STEP_SEALED_STEP p)).mustVote p
    else if pins.any (fun x => !c.ticketKnown (x / 4096) (x % 4096)) then (c.refuse cl w stBadField).mustVote p
    else
      let c := c.waitFor cl (wordAt w 0) (.seal pins)
      c.setSeq cl { c.seq cl with phase := 6 }))

/-! ### Boundary markers (R243–R245) -/

/-- CMD_PHASE_FULL (R243, R245): a full boundary before the gate marker. -/
def execCmdPhaseFull (cl : Nat) (s : State) : Host.Outcome State Fault Refusal :=
  nextChip s (fun c => c.takeMarker cl (fun w => isOp 0x08 w && phCode w != 4 && phFull w) true (fun c w =>
    if (c.seq cl).gated then c.refuse cl w stBadField
    else (((c.marker cl (phCode w)).waitFor cl (wordAt w 0) .full).atBoundary cl).tryBoundary (c.partOfCl cl)))

/-- CMD_EPOCH (R244, R245, R456): the next layout epoch with a valid mapping slot, before the gate marker. -/
def execCmdEpoch (cl : Nat) (s : State) : Host.Outcome State Fault Refusal :=
  nextChip s (fun c => c.take cl (isOp 0x09) true (fun c w =>
    let p := c.partOfCl cl
    let le := wbits (wordAt w 1) 15 0
    let slot := wbits (wordAt w 1) 23 16
    if (c.seq cl).gated ∨ le ≠ (c.lepoch p + 1) % 2 ^ 16 ∨ ((c.mapS p).img slot).isNone then c.refuse cl w stBadField
    else ((c.waitFor cl (wordAt w 0) (.epoch le slot)).atBoundary cl).tryBoundary p))

/-! ### Messages received (R430–R433, R507–R512) -/

/-- The packet of a seal message to a partition. -/
def Chip.sealPkt (c : Chip) (p kind : Nat) (m : SealMsg) : Pkt :=
  let k := mkPkt 0x40 (c.g .FAB_ID_ID 0) [kind + m.step % 2 ^ 48 * 2 ^ 8, m.mark % 4] [] []
  (((((k.set 0 37 25 m.src).set 1 15 0 (c.g .FAB_JOB_JTAG p)).set 1 31 16 m.lepoch).set 1 47 32 m.repoch)).seal

/-- A packet without what its route changes. -/
def unrouted (k : Pkt) : Pkt := (k.set 0 11 10 0).set 0 50 45 0

/-- A packet equal to one but for its route leaves the receive buffer. -/
def Chip.leaveLike (c : Chip) (k : Pkt) : Chip :=
  match c.arrived.find? (fun a => unrouted a.2 == unrouted k) with
  | some a => c.leave a.2
  | none => c

/-- A seal message taken by a partition: the fence and its epoch as for any packet, then its meaning, by the sender's
rank. -/
def Chip.sealRecv (c : Chip) (p kind : Nat) (m : SealMsg) (f : Chip → Nat → Chip) : Chip :=
  let k := c.sealPkt p kind m
  let c := c.settle
  match c.receive k with
  | (c, none) => c.leaveLike k
  | (c, some (p', _)) =>
    let c := (c.dlv p' k).leaveLike k
    match (c.jobIds p').findIdx? (· == m.src) with
    | some r => if p' = p then f c r else c
    | none => c

/-- Whether a decision or release of a rank counts here: it is the coordinator's, and this module is live (R512). -/
def Chip.obeys (c : Chip) (p rank : Nat) : Bool := c.coord p == some rank && c.amLive p

/-- RECV_SEAL_READY (R508). -/
def execRecvSealReady (p : Nat) (m : SealMsg) (s : State) : Host.Outcome State Fault Refusal :=
  nextChip s (fun c => c.sealRecv p 1 m (fun c r => if c.isCoord p then c.coordVote p r true m.step m.lepoch else c))

/-- RECV_GATE_FAIL (R508). -/
def execRecvGateFail (p : Nat) (m : SealMsg) (s : State) : Host.Outcome State Fault Refusal :=
  nextChip s (fun c => c.sealRecv p 2 m (fun c r => if c.isCoord p then c.coordVote p r false m.step m.lepoch else c))

/-- RECV_SEAL (R47, R509): the flip, when the step is the one this rank has voted for; any other SEAL is a control-path
fault. -/
def execRecvSeal (p : Nat) (m : SealMsg) (s : State) : Host.Outcome State Fault Refusal :=
  nextChip s (fun c => c.sealRecv p 3 m (fun c r =>
    if ¬ c.obeys p r then c
    else if m.step = c.step p ∧ c.on .HUB_STEP_READY_SENT p then (c.sealLog p m.step 1 false (c.attOf p)).flip p 1
    else c.ctrlFault [p] { cls := 0x0E, action := 2, place := .part p
                           detail := [m.step % 2 ^ 48 + 2 ^ 63, m.src % 2 ^ 13 + m.lepoch % 2 ^ 16 * 2 ^ 16] }))

/-- RECV_ABANDON (R48, R248, R509, R510): the step in progress is abandoned, unless this attempt was already through the
module's own gate. -/
def execRecvAbandon (p : Nat) (m : SealMsg) (s : State) : Host.Outcome State Fault Refusal :=
  nextChip s (fun c => c.sealRecv p 4 m (fun c r =>
    if ¬ c.obeys p r ∨ m.step ≠ c.step p then c
    else (c.sealLog p m.step 2 false (c.attOf p)).applyAbandon p false))

/-- RECV_BOUND_READY (R243, R244, R510, R511): an acknowledgement of an abandon, or a boundary vote. -/
def execRecvBoundReady (p : Nat) (m : SealMsg) (s : State) : Host.Outcome State Fault Refusal :=
  nextChip s (fun c => c.sealRecv p 5 m (fun c r =>
    if ¬ c.isCoord p then c
    else if m.mark = 0 then c.coordAck p r m.step
    else c.coordBound p r m.step m.mark m.lepoch))

/-- RECV_BOUND_RELEASE (R243, R244, R510, R540). -/
def execRecvBoundRelease (p : Nat) (m : SealMsg) (s : State) : Host.Outcome State Fault Refusal :=
  nextChip s (fun c => c.sealRecv p 6 m (fun c r =>
    if ¬ c.obeys p r ∨ m.step ≠ c.step p then c
    else if m.mark = 0 then c.relBarrier p
    else c.releaseBound p m.mark))

/-- RECV_EPOCH_MISMATCH (R244, R511, R525). -/
def execRecvEpochMismatch (p : Nat) (m : SealMsg) (s : State) : Host.Outcome State Fault Refusal :=
  nextChip s (fun c => c.sealRecv p 7 m (fun c r =>
    if ¬ c.obeys p r then c else (c.sealLog p m.step 3 false (c.attOf p)).haltMismatch p))

/-! ### Timers (R508–R511, R523, R540) -/

/-- Whether n ms have passed since a time. -/
def Chip.msPassed (c : Chip) (t n : Nat) : Bool := decide (t + 1000000 * n ≤ c.up)

/-- READY_TMO_EXPIRY (R508): READY_TMO after the first vote without every vote, the coordinator decides ABANDON. -/
def execReadyTmoExpiry (p : Nat) (s : State) : Host.Outcome State Fault Refusal :=
  nextChip s (fun c =>
    let x := c.sealOf p
    if ¬ c.runs p ∨ ¬ c.isCoord p ∨ x.votes.isEmpty ∨ ¬ c.msPassed x.voteAt (c.g .SEAL_CFG_READY_TMO p) then c
    else
      let got := x.votes.map Prod.fst
      let miss := ((c.liveRanks p).find? (fun r => !got.contains r)).getD 0
      (c.sealTmo p miss 1 2).decideAbandon p 2 miss)

/-- DECIDE_TMO_EXPIRY (R509): a rank that has voted and has no decision is in doubt, and keeps waiting. -/
def execDecideTmoExpiry (p : Nat) (s : State) : Host.Outcome State Fault Refusal :=
  nextChip s (fun c =>
    match (c.sealOf p).votedAt with
    | some t =>
      if ¬ c.on .HUB_STEP_READY_SENT p ∨ c.on .SEAL_STAT_IN_DOUBT p ∨ ¬ c.msPassed t (c.g .SEAL_CFG_DECIDE_TMO p) then c
      else (c.set1 .SEAL_STAT_IN_DOUBT p).sealTmo p (c.myRank p) 2 5
    | none => c)

/-- ACK_TMO_EXPIRY (R510): acknowledgements incomplete at ACK_TMO are reported once, and nothing is released. -/
def execAckTmoExpiry (p : Nat) (s : State) : Host.Outcome State Fault Refusal :=
  nextChip s (fun c =>
    let x := c.sealOf p
    match x.ack with
    | some l =>
      if x.ackTmo ∨ ¬ c.msPassed x.ackAt (c.g .SEAL_CFG_ACK_TMO p) then c
      else (c.setSeal p { x with ackTmo := true }).sealTmo p (l.headD 0) 3 5
    | none => c)

/-- BOUND_TMO_EXPIRY (R511): a boundary without every rank at BOUND_TMO is reported once, and the coordinator keeps waiting. -/
def execBoundTmoExpiry (p : Nat) (s : State) : Host.Outcome State Fault Refusal :=
  nextChip s (fun c =>
    let x := c.sealOf p
    if x.bound.isEmpty ∨ x.boundTmo ∨ ¬ c.msPassed x.boundAt (c.g .SEAL_CFG_BOUND_TMO p) then c
    else
      let got := x.bound.map Prod.fst
      (c.setSeal p { x with boundTmo := true }).sealTmo p (((c.liveRanks p).find? (fun r => !got.contains r)).getD 0) 4 5)

/-- DEFERRED_RELEASE (R540): a deferred release is sent when system time has reached QEND + 40 ns. -/
def execDeferredRelease (p : Nat) (s : State) : Host.Outcome State Fault Refusal :=
  nextChip s (fun c =>
    match (c.sealOf p).release with
    | some (t, step, mark) =>
      if c.now < t then c else (c.setSeal p { c.sealOf p with release := none }).castRelease p step mark
    | none => c)

/-! ### Recovery actions (R515–R517) -/

/-- An action of `SEAL_CMD`: from Ringmaster's window, on a stopped partition, under its condition; else it is dropped with
CMD_REFUSED. -/
def Chip.sealAct (c : Chip) (fn : Fn) (p : Nat) (cond : Bool) (act : Chip → Chip) : Chip :=
  if ¬ c.reaches fn .SEAL_CMD p then c
  else
    let c := if fn = .rm ∧ c.runs p then c.lockViol p (Reg.SEAL_CMD.offset 0 0) else c
    if fn ≠ .rm ∨ c.runs p ∨ ¬ cond then c.set1 .INT_STAT_CMD_REFUSED p else act c

/-- Votes, acknowledgements and agreements of a partition forgotten. -/
def Chip.sealForget (c : Chip) (p : Nat) : Chip := c.setSeal p { barrier := (c.sealOf p).barrier }

/-- SEAL_LOAD (R515): the step, its parity and the schedule index set for state loaded from elsewhere. -/
def execSealLoad (fn : Fn) (p : Nat) (s : State) : Host.Outcome State Fault Refusal :=
  nextChip s (fun c => c.sealAct fn p true (fun c =>
    let n := c.g .SEAL_CMD_STEP p
    let c := ((c.put .HUB_STEP_SEALED_STEP p n).put .HUB_STEP_PARITY p n).put .HUB_SCHED_INDEX p (c.g .SEAL_LOADIDX_INDEX p)
    let c := ((c.put .HUB_STEP_READY_SENT p 0).put .HUB_STEP_UPDATE_DONE p 0).put .HUB_STEP_GATE_FAIL p 0
    let c := ((c.put .SEAL_STAT_IN_DOUBT p 0).put .SEAL_STAT_ATT p 0).put .SEAL_STAT_OLD_INTACT p 0
    ((c.setStep p { skipAdv := (c.stepS p).skipAdv }).sealForget p).showPhase p))

/-- SEAL_FORCE (R515): SEAL applied to a step this rank has voted for. -/
def execSealForce (fn : Fn) (p : Nat) (s : State) : Host.Outcome State Fault Refusal :=
  nextChip s (fun c => c.sealAct fn p
    (c.on .HUB_STEP_READY_SENT p && c.on .HUB_STEP_UPDATE_DONE p && !c.on .HUB_STEP_GATE_FAIL p) (fun c => c.flip p 4))

/-- SEAL_REVERT (R515): the last sealed step is undone; its header entries are voided until SEAL_REVERT_DONE. -/
def execSealRevert (fn : Fn) (p : Nat) (s : State) : Host.Outcome State Fault Refusal :=
  nextChip s (fun c =>
    let n := c.g .HUB_STEP_SEALED_STEP p
    c.sealAct fn p (c.on .SEAL_STAT_OLD_INTACT p && !c.on .HUB_STEP_READY_SENT p && decide (0 < n)) (fun c =>
      let c := (c.put .HUB_STEP_SEALED_STEP p (n - 1)).put .HUB_STEP_PARITY p (n - 1)
      let c := c.put .HUB_SCHED_INDEX p (c.g .HUB_SCHED_INDEX p + 2 ^ 48 - 1)
      let c := (c.sealLog p (n - 1) 5 false (c.attOf p)).put .SEAL_STAT_OLD_INTACT p 0
      (c.inc .SEAL_CNT_COUNT p 1 4).set1 .SEAL_CMD_REVERT p))

/-- SEAL_REVERT_DONE (R358, R515): every header entry of a registered area stamped with the reverted step is VOID. -/
def execSealRevertDone (p : Nat) (s : State) : Host.Outcome State Fault Refusal :=
  nextChip s (fun c =>
    if ¬ c.on .SEAL_CMD_REVERT p then c
    else
      let c := ((c.tensors p).filter (fun e => e.reg)).foldl (fun (c : Chip) e =>
        let c := c.meter p (if e.classC then 15 else 13) (32 * e.urows)
        c.voidRows p e.hdr (c.step p) (List.range e.urows)) c
      c.put .SEAL_CMD_REVERT p 0)

/-- SEAL_DISCARD (R48, R360, R515): a step in progress is discarded; the action lasts as long as its void pass. -/
def execSealDiscard (fn : Fn) (p : Nat) (s : State) : Host.Outcome State Fault Refusal :=
  nextChip s (fun c => c.sealAct fn p
    (c.on .HUB_STEP_READY_SENT p || c.on .SEAL_STAT_IN_DOUBT p || !(c.upd p).jrnl.isEmpty) (fun c =>
      let c := ((c.discardStep p).put .HUB_STEP_GATE_FAIL p 0).sealForget p
      (c.showPhase p).put .SEAL_CMD_DISCARD p (b2n (!(c.upd p).void.isEmpty))))

/-- VOID_PASS_END (R360): every entry that a journaled APPLY of the attempt stamped n + 1 is stamped VOID, the journal and
held ranges are released, and a DISCARD is done. -/
def execVoidPassEnd (p : Nat) (s : State) : Host.Outcome State Fault Refusal :=
  nextChip s (fun c =>
    if (c.upd p).void.isEmpty then c else (c.voidPass p).put .SEAL_CMD_DISCARD p 0)

/-- Everything in flight of a partition ended: commands, collectives, solves, frames, Press entries, queues (R201, R276, R318,
R346, R516). -/
def Chip.quiesce (c : Chip) (p : Nat) : Chip :=
  let c := c.movesCut p
  let c := (c.clustersOf p).foldl (fun c cl => ((c.cancelSeq cl).rackDiscard cl).pressDiscard cl) c
  let c := (c.regionsOf p).foldl (fun c r => c.solverFence r) c
  let c := (c.carAbandon p).ringsReset p
  let c := { c with queues := c.queues.filter (fun (q : Nat × QueueS) => !c.owns p (q.1 / 1024)) }
  let c := c.setStep p { c.stepS p with gate := none, nf := false, chk := false, poison := false, vote := false }
  let c := if (c.sealOf p).bsent then c.put .SEAL_STAT_WAIT_REL p 0 else c
  (c.put .SEAL_STAT_BOUNDARY p 0).sealForget p

/-- Whether a write of `INT_RCV` counts: from Ringmaster's window, on a stopped partition (R17, R522). -/
def Chip.rcvOk (c : Chip) (fn : Fn) (p : Nat) : Bool := fn == .rm && c.reaches fn .INT_RCV p && !c.runs p

/-- The lock violation of a dropped action of `INT_RCV`. -/
def Chip.rcvLock (c : Chip) (fn : Fn) (p : Nat) : Chip :=
  if fn = .rm ∧ c.reaches fn .INT_RCV p ∧ c.runs p then c.lockViol p (Reg.INT_RCV.offset 0 0) else c

/-- RCV_QUIESCE (R516): everything in flight of a stopped partition ends; QUIESCE reads 1 until a running void pass is
over. -/
def execRcvQuiesce (fn : Fn) (p : Nat) (s : State) : Host.Outcome State Fault Refusal :=
  nextChip s (fun c => if ¬ c.rcvOk fn p then c.rcvLock fn p else (c.quiesce p).set1 .INT_RCV_QUIESCE p)

/-- QUIESCE_DONE (R516): with no void pass running, QUIESCE reads 0. -/
def execQuiesceDone (p : Nat) (s : State) : Host.Outcome State Fault Refusal :=
  nextChip s (fun c => if c.on .INT_RCV_QUIESCE p ∧ (c.upd p).void.isEmpty then c.put .INT_RCV_QUIESCE p 0 else c)

/-- RCV_APPLY (R517, R528): the recovery epoch advances, ATT is 0, and no barrier stands. -/
def execRcvApply (fn : Fn) (p : Nat) (s : State) : Host.Outcome State Fault Refusal :=
  nextChip s (fun c =>
    if ¬ c.rcvOk fn p then c.rcvLock fn p
    else
      let c := c.put .FAB_JOB_REPOCH p (c.g .INT_RCV_REPOCH_NEXT p)
      let c := (c.put .SEAL_STAT_ATT p 0).put .SEAL_STAT_WAIT_REL p 0
      (c.setSeal p { c.sealOf p with barrier := false }).inc .INT_CNT_COUNT 0 1 5)

end Sys2Proof.Machine
end

