-- ==== Sys2Proof/Machine/Carousel.lean ====
section
/-! DEFINITION. The Carousel and the Taster (R462–R483): what a collective sends, adds, tests, writes and ends with. -/

namespace Sys2Proof.Machine

/-! ### Packets (R481, R482) -/

def cpKind (k : Pkt) : Nat := wbits (hw k 2) 7 0
def cpCid (k : Pkt) : Nat := wbits (hw k 2) 23 8
def cpAtt (k : Pkt) : Nat := wbits (hw k 2) 31 24
def cpStep (k : Pkt) : Nat := wbits (hw k 2) 47 32
def cpMember (k : Pkt) : Nat := wbits (hw k 2) 60 48
def cpSeg (k : Pkt) : Nat := wbits (hw k 3) 31 0
def cpShard (k : Pkt) : Nat := wbits (hw k 3) 44 32
def cpValue (k : Pkt) : Nat := (hw k 4).toNat

/-- A COLL packet of a collective of this member to a module. -/
def Chip.collTo (c : Chip) (p cid me dst kind shard seg value : Nat) (ws : List Word) (bad : List Bool) : Chip :=
  c.inject p (mkPkt 0x30 dst
    [kind + cid * 2 ^ 8 + c.g .SEAL_STAT_ATT p * 2 ^ 24 + c.step p % 2 ^ 16 * 2 ^ 32 + me * 2 ^ 48, seg + shard * 2 ^ 32, value] ws bad)

/-- A COLL packet to a member. -/
def Chip.collSend (c : Chip) (p : Nat) (x : CollS) (m kind shard seg value : Nat) (ws : List Word) (bad : List Bool) : Chip :=
  c.collTo p x.cid x.me (x.mods.getD m 0) kind shard seg value ws bad

/-- A packet without data to every other member. -/
def Chip.collCast (c : Chip) (p : Nat) (x : CollS) (kind shard value : Nat) : Chip :=
  ((List.range x.g).filter (· != x.me)).foldl (fun c m => c.collSend p x m kind shard 0 value [] []) c

/-- Segments that carry elements of a format to a member, `digs` following the segment they name. -/
def segsFor (dst shard f : Nat) (codes : List (Nat × Bool)) (value : Nat) (digs : Nat → List (Nat × Nat)) : List CSeg :=
  (List.range (segsOf f codes.length)).map (fun k =>
    let fl := flitsOf (packElems f ((codes.drop (k * segElems f)).take (segElems f)))
    { dst := dst, shard := shard, seg := k, words := fl.1, bad := fl.2, value := value, digs := digs k })

/-- Segments of 4 KiB that carry bytes. -/
def rawSegs (dst : Nat) (bs : PBytes) : List CSeg :=
  (List.range (cdiv bs.length 4096)).map (fun k =>
    let fl := flitsOf ((bs.drop (4096 * k)).take 4096)
    { dst := dst, shard := 0, seg := k, words := fl.1, bad := fl.2 })

/-- Segments added to those that wait for grants. -/
def Chip.addOut (c : Chip) (p cid : Nat) (l : List CSeg) : Chip := c.onColl p cid (fun x => { x with out := x.out ++ l })

/-- Every waiting segment that holds a grant sent, its digests after it (R472, R482). -/
def Chip.collPush (c : Chip) (p cid : Nat) : Chip :=
  match c.coll p cid with
  | none => c
  | some x =>
    let r := x.out.foldl (fun (a : Chip × List (Nat × Nat × Nat) × List CSeg) o =>
      let key := (o.dst, o.shard, o.seg)
      if a.2.1.contains key then
        let c := a.1.collSend p x o.dst 1 o.shard o.seg o.value o.words o.bad
        (o.digs.foldl (fun c d => c.collSend p x o.dst 3 d.1 0 d.2 [] []) c, a.2.1.erase key, a.2.2)
      else (a.1, a.2.1, a.2.2 ++ [o])) (c, x.gin, [])
    r.1.onColl p cid (fun x => { x with gin := r.2.1, out := r.2.2 })

/-! ### Writing results (R457, R466) -/

/-- Elements of a format written at an address from offset e of the range: counted, with their flags and first
position. -/
def Chip.writeCodes (c : Chip) (p cid f addr e : Nat) (codes : List (Nat × Bool)) : Chip :=
  (c.tierStore p addr (packElems f codes)).onColl p cid (fun x =>
    let nf := (List.range codes.length).find? (fun i => !(codeVal f (codes.getD i (0, false)).1).isFin)
    { x with
      elems := x.elems + codes.length
      nf := minPos x.nf (nf.map (fun i => x.posOf (e + i)))
      flags := x.flags ||| flagsOf nf.isSome false false false (codes.any Prod.snd) false })

/-- Address of element off of shard s in the result: the shard's own place under RS, its logical place else. -/
def CollS.resAt (x : CollS) (s off : Nat) : Nat :=
  match x.op with
  | 0 => clDst x.words + fmtBytes x.rfmt off
  | 5 => clDst x.words + 4096 + fmtBytes 1 off
  | _ => clDst x.words + fmtBytes x.rfmt (x.sFirst s + off)

/-- Elements of shard s from offset off written into the result. -/
def Chip.writeRes (c : Chip) (p : Nat) (x : CollS) (s off : Nat) (codes : List (Nat × Bool)) : Chip :=
  c.writeCodes p x.cid x.rfmt (x.resAt s off) (x.sFirst s + off) codes

/-- The outcome of an arbitration on a collective (R473). -/
def CollS.mark (x : CollS) (outcome : Nat) : CollS :=
  match outcome with
  | 1 => { x with detail := x.detail ||| 2 ^ 49 }
  | 2 => { x with detail := x.detail ||| 2 ^ 48 }
  | 3 => { x with status := 26, flags := x.flags ||| 32 }
  | _ => x

/-- An outcome marked; an unresolved shard fails the gate and makes the module vote to abandon (R45, R466, R473). -/
def Chip.collMark (c : Chip) (p cid outcome : Nat) : Chip :=
  let c := c.onColl p cid (fun x => x.mark outcome)
  if outcome = 3 then (c.setStep p { c.stepS p with chk := true }).mustVote p else c

/-! ### Norms (R469, R479, R480) -/

/-- No entry: a value that no FP64 code is. -/
def noEntry : Nat := 2 ^ 64

/-- A per-tensor norm entered in the hub's table (R363, R480). -/
def Chip.pnormPut (c : Chip) (p t v : Nat) : Chip :=
  let l := (sget [] c.pnorms p).filter (fun x => x.1 != t)
  if l.length < 4096 then { c with pnorms := sset [] c.pnorms p (l ++ [(t, v)]) } else c

/-- Sum of FP64 codes in order and its square root (R85). -/
def norm64 (l : List Nat) : Nat := encodeF fp64 (sqrtF fp64 (l.foldl (fun a v => addF fp64 a (decodeF fp64 v)) .zero))

/-- Member 0 forms a tensor's norm once every member's entry is in, and sends it to every member (R480). -/
def Chip.tryPnorm (c : Chip) (p t : Nat) : Chip :=
  let a := c.car p
  match a.lasts.find? (fun l => l.1 == t) with
  | none => c
  | some l =>
    let n := l.2.2.length
    let es := (List.range n).map (fun s => sget noEntry a.tents (t * 8192 + s))
    if es.contains noEntry then c
    else
      let v := norm64 es
      let c := c.setCar p { a with lasts := a.lasts.filter (fun y => y.1 != t), tents := sclear a.tents (t * 8192) 8192 }
      (l.2.2.drop 1).foldl (fun c m => c.collTo p l.2.1 0 m 5 0 t v [] []) (c.pnormPut p t v)

/-- An entry of a tensor's norm at member 0. -/
def Chip.entryIn (c : Chip) (p t s v : Nat) : Chip :=
  let a := c.car p
  (c.setCar p { a with tents := sset noEntry a.tents (t * 8192 + s) v }).tryPnorm p t

/-- This member's entry sent to member 0 after its last range (R480). -/
def Chip.sendEntry (c : Chip) (p : Nat) (x : CollS) : Chip :=
  if ¬ x.lastr ∨ c.on .HUB_GATE_CTL_GLOBAL p then c
  else
    let t := clTensor x.words
    let v := encodeF fp64 (decodeF fp32 (sget 0 (c.car p).ntab (t * 8192 + x.me)))
    if x.me = 0 then c.entryIn p t 0 v else c.collSend p x 0 5 x.me t v [] []

/-- This member's shard is written: padding of RS as +0, and with NORMACC its sum of squares enters the norm table (R457,
R469). -/
def Chip.finishShard (c : Chip) (p : Nat) (x : CollS) : Chip :=
  let n := x.sLen x.me
  let f := x.rfmt
  let c := if x.op = 0 then c.tierStore p (clDst x.words + fmtBytes f n) (List.replicate (fmtBytes f (x.sLen 0 - n)) (0, false)) else c
  if ¬ clNormacc x.words then c
  else
    let vs := (elemsOf f n (c.tierLoad p (x.resAt x.me 0) (fmtBytes f n))).map (fun y => some (codeVal f y.1))
    let key := clTensor x.words * 8192 + x.me
    let a := c.car p
    let v := encodeF fp32 (addF fp32 (decodeF fp32 (sget 0 a.ntab key)) (rowSquares vs))
    (c.setCar p { a with ntab := sset 0 a.ntab key v }).sendEntry p x

/-- The gate norm arrives: it is written and every open NORM may end (R479). -/
def Chip.gateNorm (c : Chip) (p v : Nat) : Chip :=
  let c := c.put .HUB_GATE_NORM_NORM p v
  let a := c.car p
  c.setCar p { a with colls := a.colls.map (fun x => if x.op = 4 then { x with dones := [0] } else x) }

/-- A rank's part arrives at the coordinator; with every live rank's part in, the norm is formed and sent (R85, R479). -/
def Chip.partIn (c : Chip) (p cid rank v : Nat) : Chip :=
  let a := c.car p
  let a := { a with parts := sset noEntry a.parts rank v }
  let ps := (c.liveRanks p).map (fun r => sget noEntry a.parts r)
  let me := c.myRank p
  if ps.contains noEntry ∨ ¬ (c.liveRanks p).contains me then c.setCar p a
  else
    let n := norm64 ps
    let c := (c.setCar p { a with parts := [] }).gateNorm p n
    ((c.liveRanks p).filter (· != me)).foldl (fun c r => c.collTo p cid me ((c.jobIds p).getD r 0) 5 0 0 n [] []) c

/-- Whether an RS or AR with NORMACC is open (R486). -/
def Chip.normaccOpen (c : Chip) (p : Nat) : Bool := (c.car p).colls.any (fun x => clNormacc x.words)

/-- A NORM starts: part[g] is the sum of the norm table in ascending key (R479). -/
def Chip.normStart (c : Chip) (p : Nat) (x : CollS) : Chip :=
  let part := (c.car p).ntab.foldl (fun a e => addF fp32 a (decodeF fp32 e.2)) .zero
  let v := encodeF fp64 part
  let r := (c.coord p).getD 0
  let c := c.onColl p x.cid (fun x => { x with started := true, seen := c.up })
  if r = c.myRank p then c.partIn p x.cid r v else c.collTo p x.cid x.me ((c.jobIds p).getD r 0) 5 0 0 v [] []

/-- NORMs that waited start once no collective with NORMACC is open (R486). -/
def Chip.normKick (c : Chip) (p : Nat) : Chip :=
  if c.normaccOpen p then c
  else ((c.car p).colls.filter (fun x => x.op == 4 && !x.started)).foldl (fun c x => c.normStart p x) c

/-! ### The Taster (R472, R473) -/

/-- Result codes of sums of shard s in the result's format, with whether an addition or the conversion overflowed (R70,
R467). -/
def Chip.resultCodes (c : Chip) (p : Nat) (x : CollS) (s : Nat) (fin : List SumE) : List ((Nat × Bool) × Bool) :=
  let (t, i) := x.drawAt s
  (List.range fin.length).map (fun e =>
    let z := fin.getD e ((.zero, false), false)
    if x.rfmt = 1 then ((encodeF fp32 z.1.1, z.2), z.1.2)
    else
      let r := draw (c.rd .HUB_SEED p).toNat t (i + e) (c.step p) (clDraw x.words)
      let v := convFloat bf16 (convRnd (Kind.ofCode x.kind) r) z.1.1
      ((v.w, z.2), z.1.2 || v.ovf))

/-- Header of a reduced record (R312, R478). -/
def CollS.reducedHeader (x : CollS) (own : List Word) : List Word :=
  let hs := (List.range x.g).map (x.headerOf own)
  let n := (hs.map (fun h => wbits (wordAt h 1) 31 0)).sum
  let fl := hs.foldl (fun a h => a ||| wbits (wordAt h 2) 19 17) 0
  [wordAt own 0, wset (wordAt own 1) 31 0 n, wset (wordAt own 2) 19 17 fl]

/-- A tested shard given to those who write it, and DONE sent to every contributor (R466, R471, R473). -/
def Chip.collDeliver (c : Chip) (p cid s : Nat) (fin : List SumE) (outcome : Nat) : Chip :=
  match c.coll p cid with
  | none => c
  | some x =>
    let rs := c.resultCodes p x s fin
    let codes := rs.map Prod.fst
    let ovf := (rs.findIdx? Prod.snd).map (fun e => x.posOf (x.sFirst s + e))
    let x := { x with
      tested := x.tested ++ [s], dones := x.dones ++ [s], first := none, ovf := minPos x.ovf ovf
      flags := x.flags ||| flagsOf false ovf.isSome false false false false }
    let c := (c.setColl p x).collMark p cid outcome
    let segs (m : Nat) : List CSeg := segsFor m s x.rfmt codes outcome (fun _ => [])
    let c := if x.op = 5 then (c.tierStore p (clDst x.words) ((headerPage (x.reducedHeader (c.ownHeader p x))).map (·, false))).writeRes p x s 0 codes
      else if x.op = 0 ∧ s ≠ x.me then c.addOut p cid (segs s)
      else
        let c := c.writeRes p x s 0 codes
        let c := if s = x.me then c.finishShard p x else c
        if x.op = 0 then c
        else if x.alg = 1 then (if x.me = 0 then c else c.addOut p cid (segs (x.me - 1)))
        else c.addOut p cid (((List.range x.g).filter (· != x.me)).flatMap segs)
    c.collCast p x 6 s 0

/-- Poison used as an addend (R504, R505). -/
def Chip.collPoison (c : Chip) (p cid : Nat) : Chip :=
  (c.consumePoison p 8 cid (.part p) 0 0).onColl p cid (fun x => { x with flags := x.flags ||| 16 })

/-- The digest test of shard s on its tester (R97, R472): a shard with poison or a non-finite sum is not tested; a failed
test asks every contributor for its contribution again. -/
def Chip.collTest (c : Chip) (p cid s : Nat) : Chip :=
  match c.coll p cid with
  | none => c
  | some x =>
    let fin := c.firstSum p x s
    if fin.any Prod.snd then (c.collPoison p cid).collDeliver p cid s fin 0
    else if fin.any (fun z => !z.1.1.isFin) then c.collDeliver p cid s fin 0
    else
      let d := (digestOf (c.weightsOf p x s) (fin.map (fun z => z.1.1))).1
      let t := digestTest x.g fin.length d (c.digestsOf p x s)
      let c := c.inc .TST_CNT_CHECK_COUNT p
      if t.2 then c.collDeliver p cid s fin 0
      else
        let c := ((c.inc .TST_CNT_FAIL_COUNT p).inc .CAR_CNT_COUNT p 1 1).set1 .CAR_STICKY_RERUN p
        let c := c.onColl p cid (fun x => { x with
          first := some (s, sumCodes fin), seen := c.up, given := x.given.filter (fun g => g.2.1 != s || (x.op == 5 && s == 1)) })
        c.collCast p x 7 s 0

/-- What a collective can do now with what has arrived: shards tested, rows and transfers finished. -/
def Chip.collGo (c : Chip) (p cid : Nat) : Chip :=
  match c.coll p cid with
  | none => c
  | some x => x.shards.foldl (fun c s =>
      match c.coll p cid with
      | some x => if x.tests s ∧ ¬ x.tested.contains s ∧ x.first.isNone ∧ ¬ x.broken ∧ x.ready s ∧ (x.op ≠ 5 ∨ x.headersIn) then c.collTest p cid s else c
      | none => c) c

/-- A collective ends early on every member with a status (R478, R477). -/
def Chip.collBreak (c : Chip) (p : Nat) (x : CollS) (st : Nat) : Chip :=
  (c.onColl p x.cid (fun x => { x with status := st, broken := true })).collCast p x 6 0 st

/-- The root compares the headers once all are in (R478). -/
def Chip.checkHeaders (c : Chip) (p cid : Nat) : Chip :=
  match c.coll p cid with
  | none => c
  | some x =>
    if ¬ x.headersIn ∨ x.me ≠ clPeer x.words then c
    else
      let own := c.ownHeader p x
      let hs := (List.range x.g).map (x.headerOf own)
      let same (h : List Word) : Bool := wbits (wordAt h 0) 35 0 == wbits (wordAt own 0) 35 0 && wbits (wordAt h 2) 16 0 == wbits (wordAt own 2) 16 0
      if hs.all same ∧ ¬ hasDup (hs.map hdrContrib) then c else c.collBreak p x 28

/-! ### A2A (R477) -/

/-- Bytes of rows of this member's source. -/
def Chip.srcRows (c : Chip) (p : Nat) (x : CollS) (rows : List Nat) : PBytes :=
  rows.flatMap (fun i => c.tierLoad p (clSrc x.words + i * clRowBytes x.words) (clRowBytes x.words))

/-- Rows of this member's source that go to member d, in order: the first quota rows of d's experts by slot, or on return
the rows that came from d. -/
def Chip.rowsTo (c : Chip) (p : Nat) (x : CollS) (d : Nat) : List Nat :=
  let t := c.placeOf p x
  if clRet x.words then
    let runs := (expertsOf t x.me).flatMap (fun e => (List.range x.g).map (fun m => (m, c.rcntOf p x e.2.1 m)))
    ((List.range runs.length).filter (fun i => (runs.getD i (0, 0)).1 == d)).flatMap (fun i =>
      rangeFrom ((runs.take i).map Prod.snd).sum (runs.getD i (0, 0)).2)
  else (expertsOf t d).flatMap (fun e => rangeFrom (x.runAt x.me e.1) (x.quota x.me e.1 e.2.2))

/-- Rows to every other member queued. -/
def Chip.a2aSend (c : Chip) (p : Nat) (x : CollS) : Chip :=
  c.addOut p x.cid (((List.range x.g).filter (· != x.me)).flatMap (fun d => rawSegs d (c.srcRows p x (c.rowsTo p x d))))

/-- The quotas are known (phase 2): RMASK, the residual rows, the rows queued, and the room at DST and RCNT of what is
accepted here. -/
def Chip.a2aRows (c : Chip) (p cid : Nat) : Chip :=
  match c.coll p cid with
  | none => c
  | some x =>
    let t := c.placeOf p x
    let n := t.ents.length
    if x.op ≠ 3 ∨ x.started ∨ clRet x.words ∨ ¬ x.cntsIn n then c
    else
      let q (m e : Nat) : Nat := x.quota m e (t.ents.getD e (0, 0, 0)).2.2
      let mask := (List.range n).flatMap (fun e => (List.range (x.cntOf x.me e)).map (fun j => decide (j < q x.me e)))
      let extra := ((List.range n).map (fun e => x.cntOf x.me e - q x.me e)).sum
      let c := c.tierStore p (clRmask x.words) ((mask.take (clSrows x.words)).map (fun b => (BitVec.ofNat 8 (b2n b), false)))
      let c := if extra = 0 then c else (c.inc .CAR_CNT_COUNT p extra 2).set1 .CAR_STICKY_OVERCAP p
      let c := c.onColl p cid (fun x => { x with started := true, detail := x.detail + min extra 65535 * 2 ^ 32 })
      let c := c.a2aSend p x
      let mine := expertsOf t x.me
      let rows := (mine.map (fun e => ((List.range x.g).map (fun m => q m e.1)).sum)).sum
      if ¬ c.tierHas p (clDst x.words) (rows * clRowBytes x.words) then c.collBreak p x 30
      else
        mine.foldl (fun c e => (List.range x.g).foldl (fun c m =>
          c.tierStore p (clRcnt x.words + 4 * (e.2.1 * x.g + m)) ((leBytes 4 (q m e.1)).map (·, false))) c) c

/-- The bytes that came from a member, or this member's own. -/
def Chip.streamOf (c : Chip) (p : Nat) (x : CollS) (m : Nat) : PBytes :=
  if m = x.me then c.srcRows p x (c.rowsTo p x m)
  else (List.range (cdiv (c.rowsFrom p x m * clRowBytes x.words) 4096)).flatMap (fun k =>
    match x.got.find? (fun d => d.frm == m && d.seg == k) with
    | some d => d.codes.map (fun b => (BitVec.ofNat 8 b.1, b.2))
    | none => [])

/-- Every segment that this member expects has been granted and has arrived. -/
def Chip.allIn (c : Chip) (p : Nat) (x : CollS) : Bool := x.gout.isEmpty && (c.expected p x).all x.given.contains

/-- The rows that arrived written: by local slot and member, or on return into the source positions (R477). -/
def Chip.a2aWrite (c : Chip) (p : Nat) (x : CollS) : Chip :=
  let t := c.placeOf p x
  let rb := clRowBytes x.words
  let ms := List.range x.g
  let n := ((ms.map (c.rowsFrom p x)).sum)
  let c := if clRet x.words then
      let mask := c.maskOf p x
      ms.foldl (fun c m =>
        let rows := (expertsOf t m).flatMap (fun e => x.backRows mask e.1)
        let bs := c.streamOf p x m
        (List.range rows.length).foldl (fun c i =>
          c.tierStore p (clDst x.words + rows.getD i 0 * rb) ((bs.drop (i * rb)).take rb)) c) c
    else
      let es := expertsOf t x.me
      let cut (m i : Nat) : PBytes :=
        let e := es.getD i (0, 0, 0)
        let before := ((es.take i).map (fun e => x.quota m e.1 e.2.2)).sum
        ((c.streamOf p x m).drop (before * rb)).take (x.quota m e.1 e.2.2 * rb)
      c.tierStore p (clDst x.words) ((List.range es.length).flatMap (fun i => ms.flatMap (fun m => cut m i)))
  (c.onColl p x.cid (fun x => { x with elems := n, dones := x.dones ++ [x.me] })).collCast p x 6 x.me 0

/-- A2A and RECV finish once everything has arrived: rows written, DONE to the senders. -/
def Chip.moveDone (c : Chip) (p cid : Nat) : Chip :=
  match c.coll p cid with
  | none => c
  | some x =>
    if x.broken ∨ ¬ c.allIn p x then c
    else if x.op = 3 ∧ (clRet x.words ∨ x.started) ∧ ¬ x.dones.contains x.me then c.a2aWrite p x
    else if x.op = 7 ∧ ¬ x.dones.contains 0 then
      (c.onColl p cid (fun x => { x with dones := [0] })).collSend p x (clPeer x.words) 6 0 0 0 [] []
    else c

/-- Everything that can happen now with what has arrived, then the segments that hold grants sent. -/
def Chip.collStep (c : Chip) (p cid : Nat) : Chip := ((((c.a2aRows p cid).collGo p cid).moveDone p cid).collPush p cid).syncCar p

/-! ### Ends (R465, R466) -/

/-- Whether a collective has done everything that R466 asks of it. -/
def Chip.collOver (c : Chip) (p : Nat) (x : CollS) : Bool :=
  let need : List Nat := match x.op with
    | 1 => if clWiden x.words then x.shards.filter (· != x.me) else []
    | 3 => List.range x.g
    | 4 => [0]
    | 5 => [0]
    | 6 => [0]
    | 7 => [0]
    | _ => x.shards
  x.broken || (x.out.isEmpty && c.allIn p x && x.acks.isEmpty && x.first.isNone && need.all x.dones.contains)

/-- A collective ended: counted, marked, its completion; NORMs that waited start, and waiting agreements go on. -/
def Chip.collEnd (c : Chip) (p : Nat) (x : CollS) : Chip :=
  let a := c.car p
  let c := (c.setCar p { a with colls := a.colls.filter (fun y => y.cid != x.cid) }).inc .CAR_CNT_COUNT p 1 0
  let c := if x.status = 26 then c.set1 .CAR_STICKY_DIGEST p else if x.status = 27 then (c.set1 .CAR_STICKY_LOST p).mustVote p
    else if x.status = 28 ∨ x.status = 30 then c.set1 .CAR_STICKY_BAD_DESC p else c
  let c := c.endCmd x.cl x.id { order := 0, status := x.status, flags := x.flags, nf := x.nf, ovf := x.ovf, detail := x.elems % 2 ^ 32 + x.detail }
  ((c.normKick p).syncCar p).tryBoundary p

end Sys2Proof.Machine
end

