-- ==== Sys2Proof/Machine/Collectives.lean ====
section
/-! DEFINITION. Collectives: issue (R462–R464, R474–R479), packets that arrive (R470–R483), grants (R471), arbitration,
timeouts and ends (R466, R468, R473), `CAR_CTL.EN` and `CAR_SEGS` (R456, R489). -/

namespace Sys2Proof.Machine

/-! ### Packets that arrive for an open collective -/

/-- Adds one arrival. -/
def CollS.take (x : CollS) (d : CData) : CollS := { x with got := x.got ++ [d] }

/-- Elements of a segment of n elements of a format. -/
def segLen (f n k : Nat) : Nat := min (segElems f) (n - k * segElems f)

/-- Elements from e of the whole range of this member's contribution (CHAIN). -/
def Chip.ownRange (c : Chip) (p : Nat) (x : CollS) (e n : Nat) : List (Nat × Bool) :=
  elemsOf x.cfmt n (c.tierLoad p (clSrc x.words + fmtBytes x.cfmt e) (fmtBytes x.cfmt n))

/-- A running sum taken on the way: this member's contribution added, the sum sent on (R470). -/
def Chip.chainOn (c : Chip) (p : Nat) (x : CollS) (seg : Nat) (codes : List (Nat × Bool)) : Chip :=
  let e := 1024 * seg
  let sums := sumAdd x.cfmt (sum1 1 codes) (c.ownRange p x e codes.length)
  let fl := flitsOf (packElems 1 (sumCodes sums))
  let ovf := (sums.findIdx? (fun z => z.1.2)).map (fun i => x.posOf (e + i))
  let c := if sums.any Prod.snd ∧ x.flags &&& 16 = 0 then c.collPoison p x.cid else c
  c.onColl p x.cid (fun x => { x with
    out := x.out ++ [{ dst := x.me + 1, shard := 0, seg := seg, words := fl.1, bad := fl.2 }]
    ovf := minPos x.ovf ovf, flags := x.flags ||| flagsOf false ovf.isSome false false false false })

/-- A segment of a result or of a gathered shard: written, passed on, and the shard finished when it is whole (R470, R471,
R473, R475). -/
def Chip.resultIn (c : Chip) (p : Nat) (x : CollS) (k : Pkt) : Chip :=
  let s := cpShard k
  let off := cpSeg k * segElems x.rfmt
  let codes := elemsOf x.rfmt (segLen x.rfmt (x.sLen s) (cpSeg k)) (pktBytes k)
  let c := (c.writeRes p x s off codes).collMark p x.cid (if x.op = 1 then 0 else cpValue k % 4)
  let seg : CSeg := { dst := 0, shard := s, seg := cpSeg k, words := k.words, bad := k.poison, value := cpValue k }
  let next := (x.me + 1) % x.g
  let c := if x.op = 1 ∧ x.alg = 3 ∧ next ≠ s then c.addOut p x.cid [{ seg with dst := next }]
    else if x.op = 2 ∧ x.alg = 1 ∧ 0 < x.me then c.addOut p x.cid [{ seg with dst := x.me - 1 }]
    else c
  match c.coll p x.cid with
  | some x =>
    let keys := (c.expected p x).filter (fun e => e.2.1 == s && !(x.alg == 1 && e.1 + 1 == x.me))
    if x.op ≠ 1 ∧ s = x.me ∧ keys.all (fun e => x.given.contains e && !x.gout.contains e) then c.finishShard p x else c
  | none => c

/-- DATA (R470, R471, R475–R478): accepted only against a grant. -/
def Chip.dataIn (c : Chip) (p : Nat) (x : CollS) (k : Pkt) : Chip :=
  let m := cpMember k
  let s := cpShard k
  let seg := cpSeg k
  if ¬ x.gout.contains (m, s, seg) then c
  else
    let x := { x with gout := x.gout.erase (m, s, seg), seen := c.up }
    let c := c.setColl p x
    let bs := pktBytes k
    let raw := bs.map (fun b => (b.1.toNat, b.2))
    let win := match x.window with | some w => w.1 == s && (x.op != 5 || s == 0) | none => false
    let data (f n : Nat) (again : Bool) : CData := { frm := m, shard := s, seg := seg, again := again, codes := elemsOf f n bs }
    if win then c.setColl p (x.take (data x.cfmt (segLen x.cfmt (x.sLen s) seg) x.first.isSome))
    else
      match x.op with
      | 3 => c.setColl p (x.take { frm := m, shard := s, seg := seg, codes := raw })
      | 5 => (c.setColl p (x.take (data 5 8 false))).checkHeaders p x.cid
      | 7 =>
        let n := min 4096 (64 * clCount x.words - 4096 * seg)
        (c.tierStore p (clDst x.words + 4096 * seg) (bs.take n)).onColl p x.cid (fun x => { x with
          elems := x.elems + n / 64, flags := x.flags ||| flagsOf false false false false (bs.any Prod.snd) false })
      | _ =>
        if x.alg = 1 ∧ x.op ≠ 1 ∧ m + 1 = x.me then
          let d := data 1 (segLen 1 (clCount x.words) seg) false
          if x.me + 1 = x.g then c.setColl p (x.take d) else c.chainOn p x seg d.codes
        else c.resultIn p x k

/-- DIGEST (R472): kept at the tester; under CHAIN a member on the way adds its own and sends the running sums on. -/
def Chip.digestIn (c : Chip) (p : Nat) (x : CollS) (k : Pkt) : Chip :=
  let s := cpShard k
  let d := bits (cpValue k) 31 0
  let u := bits (cpValue k) 63 32
  if (x.op = 0 ∨ x.op = 2) ∧ x.alg = 1 then
    if cpMember k + 1 ≠ x.me then c
    else if x.me + 1 = x.g then c.setColl p { x with digs := x.digs ++ [(cpMember k, s, d, u)] }
    else c.collSend p x (x.me + 1) 3 s 0 (digValue (digestSum [(decodeF fp32 d, decodeF fp32 u), c.ownDigest p x s])) [] []
  else if x.reduces then c.setColl p { x with digs := x.digs ++ [(cpMember k, s, d, u)] }
  else c

/-- RESEND (R473): this member's contribution to a shard is sent to its tester again, against new grants. -/
def Chip.resendIn (c : Chip) (p : Nat) (x : CollS) (k : Pkt) : Chip :=
  if ¬ x.reduces then c
  else c.addOut p x.cid (segsFor (cpMember k) (cpShard k) x.cfmt (c.ownElems p x (cpShard k) 0 (x.sLen (cpShard k))) 0 (fun _ => []))

/-- DONE (R466): a shard that this member feeds or receives is settled; a status ends the collective here too (R477, R478). -/
def CollS.doneIn (x : CollS) (k : Pkt) : CollS :=
  let v := cpValue k % 32
  if v = 28 ∨ v = 30 then { x with status := v, broken := true }
  else
    let w := x.op == 1
    { x with
      dones := x.dones ++ [cpShard k]
      elems := x.elems + (if w then x.sLen (cpShard k) else 0)
      flags := x.flags ||| (if w ∧ v = 1 then 16 else 0) }

/-- A packet for an open collective taken by its kind. -/
def Chip.collTake (c : Chip) (p : Nat) (x : CollS) (k : Pkt) : Chip :=
  let x := { x with seen := c.up }
  let c' := c.setColl p x
  let c := match cpKind k with
    | 1 => c.dataIn p x k
    | 2 =>
      let v := cpValue k
      c'.setColl p { x with gin := x.gin ++ (rangeFrom (bits v 31 0) (bits v 47 32)).map (fun i => (cpMember k, cpShard k, i)) }
    | 3 => c'.digestIn p x k
    | 4 =>
      let n := (c.placeOf p x).ents.length
      let d : CData := { frm := cpMember k, shard := 0, seg := cpSeg k, codes := elemsOf 1 (min 1024 (n - 1024 * cpSeg k)) (pktBytes k) }
      c'.setColl p { x with cnts := x.cnts ++ [d] }
    | 6 => c'.setColl p (x.doneIn k)
    | 7 => c'.resendIn p x k
    | _ => c
  c.collStep p x.cid

/-! ### The checks of an arriving packet (R483) -/

/-- NORM (R479, R480): a part or the gate norm, an entry or a tensor's norm, whatever CID holds. -/
def Chip.normIn (c : Chip) (p : Nat) (k : Pkt) : Chip :=
  let t := bits (cpSeg k) 23 0
  if t = 0 then
    if c.isCoord p then c.partIn p (cpCid k) (cpMember k) (cpValue k) else c.gateNorm p (cpValue k)
  else if cpMember k = 0 then c.pnormPut p t (cpValue k)
  else c.entryIn p t (cpShard k) (cpValue k)

/-- A COLL packet of one kind that has passed the checks of every job packet, handled by the first row of R483 that
matches. A failed PCRC poisons the data of a DATA packet; another kind is not used then. -/
def Chip.collHandle (c : Chip) (p : Nat) (k : Pkt) (ok : Bool) : Chip :=
  if cpStep k ≠ c.step p % 2 ^ 16 ∨ cpAtt k ≠ c.g .SEAL_STAT_ATT p then c.carStale p 1
  else if kLepoch k ≠ c.lepoch p then
    let c := (c.inc .CAR_CNT_COUNT p 1 3).set1 .CAR_STICKY_LEPOCH p
    c.ctrlFault [p] { cls := 0x0E, action := 2, place := .part p, detail := [cpCid k, kSrc k + kLepoch k * 2 ^ 16] }
  else if ¬ ok ∧ cpKind k ≠ 1 then c
  else
    let k := if ok then k else { k with poison := k.poison.map (fun _ => true) }
    if cpKind k = 5 then c.normIn p k
    else
      match c.coll p (cpCid k) with
      | some x => c.collTake p x k
      | none =>
        let a := c.car p
        if 64 ≤ a.hold.length then (c.inc .CAR_CNT_COUNT p 1 4).set1 .CAR_STICKY_HOLD_FULL p
        else c.setCar p { a with hold := a.hold ++ [(c.up, k)] }

/-- A COLL packet of a kind received. -/
def Chip.collRecv (c : Chip) (kinds : List Nat) (k : Pkt) : Chip :=
  let c := c.settle
  if kType k ≠ 0x30 ∨ ¬ kinds.contains (cpKind k) then c
  else
    match c.receive k with
    | (c, none) => c.leave k
    | (c, some (p, ok)) => ((c.dlv p k).collHandle p k ok).leave k

/-- COLL_DATA_RECV (R418, R431–R433, R470–R478, R482, R483). A packet with a reserved CKIND is malformed (R424) and comes by
this row as well. -/
def execCollDataRecv (k : Pkt) (s : State) : Host.Outcome State Fault Refusal :=
  nextChip s (fun c => c.collRecv (if cpKind k = 0 ∨ 7 < cpKind k then [cpKind k] else [1]) k)
/-- COLL_GRANT_RECV (R471, R481, R483): the granted segments are sent, now or when they are formed. -/
def execCollGrantRecv (k : Pkt) (s : State) : Host.Outcome State Fault Refusal := nextChip s (fun c => c.collRecv [2] k)
/-- COLL_DIGEST_RECV (R472, R483). -/
def execCollDigestRecv (k : Pkt) (s : State) : Host.Outcome State Fault Refusal := nextChip s (fun c => c.collRecv [3] k)
/-- COLL_COUNTS_RECV (R477, R483). -/
def execCollCountsRecv (k : Pkt) (s : State) : Host.Outcome State Fault Refusal := nextChip s (fun c => c.collRecv [4] k)
/-- COLL_NORM_RECV (R479, R480, R483). -/
def execCollNormRecv (k : Pkt) (s : State) : Host.Outcome State Fault Refusal := nextChip s (fun c => c.collRecv [5] k)
/-- COLL_DONE_RECV (R466, R477, R478, R483). -/
def execCollDoneRecv (k : Pkt) (s : State) : Host.Outcome State Fault Refusal := nextChip s (fun c => c.collRecv [6] k)
/-- COLL_RESEND_RECV (R473, R483). -/
def execCollResendRecv (k : Pkt) (s : State) : Host.Outcome State Fault Refusal := nextChip s (fun c => c.collRecv [7] k)

/-! ### Responses to the Carousel (R421, R422) -/

/-- A response to a request of an agent: to the Carousel's collective by `f`, to another agent's mailbox else. -/
def Chip.response (c : Chip) (type : Nat) (k : Pkt) (f : Chip → Nat → Chip) : Chip :=
  let c := c.settle
  if kType k ≠ type then c
  else
    match c.receive k with
    | (c, none) => c.leave k
    | (c, some (p, _)) =>
      let c := c.dlv p k
      (if wbits (hw k 2) 20 19 = 0 then f c p else c.emit (.mailbox k)).leave k

/-- A widened write of an AG acknowledged: OK and POISONED count; the last one sends DONE for this member's shard (R475). -/
def Chip.ackIn (c : Chip) (p : Nat) (k : Pkt) : Chip :=
  let st := wbits (hw k 2) 18 16
  match c.coll p (wbits (hw k 2) 15 0) with
  | none => c
  | some x =>
    match x.mods.findIdx? (· == kSrc k) with
    | none => c
    | some t =>
      match x.acks.find? (fun a => a.1 == t) with
      | none => c
      | some (_, n) =>
        if 2 ≤ st then c
        else
          let n := n - 1 + (if st = 1 ∧ n < 65536 then 65536 else 0)
          let rest := x.acks.filter (fun a => a.1 != t)
          if n % 65536 = 0 then
            (c.setColl p { x with acks := rest, seen := c.up }).collSend p x t 6 x.me 0 (b2n (decide (65536 ≤ n))) [] []
          else c.setColl p { x with acks := rest ++ [(t, n)], seen := c.up }

/-- MWACK_RECV (R421, R422, R475): an acknowledgement goes to the agent that asked for it. -/
def execMwackRecv (k : Pkt) (s : State) : Host.Outcome State Fault Refusal :=
  nextChip s (fun c => c.response 0x28 k (fun c p => c.ackIn p k))

/-- MRDATA_RECV (R422): read data goes to the agent that asked for it; the Carousel reads nothing remotely. -/
def execMrdataRecv (k : Pkt) (s : State) : Host.Outcome State Fault Refusal :=
  nextChip s (fun c => c.response 0x29 k (fun c _ => c))

/-! ### Grants (R471) -/

/-- Runs of consecutive segments of one member and shard: member, shard, first, count. -/
def grantRuns : List (Nat × Nat × Nat) → List (Nat × Nat × Nat × Nat)
  | [] => []
  | (m, s, k) :: rest =>
    match grantRuns rest with
    | (m', s', k', n) :: t =>
      if m' = m ∧ s' = s ∧ k' = k + 1 ∧ n < 65535 then (m, s, k, n + 1) :: t else (m, s, k, 1) :: (m', s', k', n) :: t
    | [] => [(m, s, k, 1)]

/-- Pairs granted one after another while the window and the partition's slots allow. -/
def Chip.grantPairs (c : Chip) (p cid gwin segs : Nat) (ord : List Nat) : Nat → List (Nat × Nat × Nat) → Chip × List (Nat × Nat × Nat)
  | 0, l => (c, l)
  | fuel + 1, l =>
    match c.coll p cid with
    | none => (c, l)
    | some x =>
      match x.nextPair ord gwin (segs - c.segUsed p) with
      | none => (c, l)
      | some q => (c.setColl p { x with given := x.given ++ [q], gout := x.gout ++ [q] }).grantPairs p cid gwin segs ord fuel (l ++ [q])

/-- GRANT_ISSUE (R470, R471, R476, R477, R482, R483): everything that may be granted now is granted, consecutive segments of
a member in one packet. A full hold store stops granting. -/
def execGrantIssue (p cid : Nat) (s : State) : Host.Outcome State Fault Refusal :=
  nextChip s (fun c =>
    match c.coll p cid with
    | none => c
    | some x =>
      if 64 ≤ (c.car p).hold.length ∨ x.broken then c
      else
        let l := (c.expected p x).filter (fun e => !x.given.contains e && x.mayGrant e)
        let c := c.setColl p { x with given := x.given ++ l, gout := x.gout ++ l }
        let ord := x.order (c.ownHeader p x)
        let n := match x.window with | some w => x.winSegs w * x.g | none => 0
        let (c, w) := c.grantPairs p cid (c.g .CAR_CFG_GWIN p) (c.g .CAR_SEGS_SEGS p) ord n []
        let runs := grantRuns l ++ grantRuns (sortBy (fun e => e.1 * 2 ^ 32 + e.2.2) w)
        (runs.foldl (fun c r => c.collSend p x r.1 2 r.2.1 0 (r.2.2.1 + r.2.2.2 * 2 ^ 32) [] []) c).syncCar p)

/-! ### Issue (R462–R464) -/

/-- The address ranges that a COLL of this member touches: sources, and what it writes. -/
def Chip.collRanges (c : Chip) (p : Nat) (w : List Word) (g me tcount : Nat) (mx : Bool) : List (Nat × Nat) × List (Nat × Nat) :=
  let n := clCount w
  let own := shareLen 32 n g me
  let big := shareLen 32 n g 0
  let sf := clSfmt w
  let df := clDfmt w
  match clOp w with
  | 0 => ([(clSrc w, fmtBytes sf n)], [(clDst w, fmtBytes df big)])
  | 1 =>
    if mx then ([(clSrc w, cdiv own 64 * 64 + cdiv own 32)], [(clDst w, 2 * n)])
    else ([(clSrc w, fmtBytes sf own)], [(clDst w, fmtBytes sf n)])
  | 2 => ([(clSrc w, fmtBytes sf n)], [(clDst w, fmtBytes df n)])
  | 3 =>
    let t := ((c.curMap p).bind (fun m => m.places.find? (fun t => t.pt == clPt w))).getD ⟨0, 0, []⟩
    let slots := (expertsOf t me).map (fun e => e.2.1)
    let rcnt := slots.map (fun s => (clRcnt w + 4 * (s * g), 4 * g))
    let rows := clSrows w * clRowBytes w
    let common := [(clScnt w, 4 * t.ents.length)]
    if clRet w then (common ++ [(clRmask w, clSrows w)] ++ rcnt, [(clDst w, rows)])
    else (common ++ [(clSrc w, rows)], [(clRmask w, clSrows w)] ++ rcnt)
  | 5 => ([(clSrc w, 4096 + 16384 * tcount)], if clPeer w = me then [(clDst w, 4096 + 16384 * tcount)] else [])
  | 6 => ([(clSrc w, 64 * n)], [])
  | 7 => ([], [(clDst w, 64 * n)])
  | _ => ([], [])

/-- Whether engines may write n bytes at a tier address: mapped and in no valid routine (R176, R237). -/
def Chip.collWritable (c : Chip) (p a n : Nat) : Bool :=
  c.tierHas p a n && !(bits a 63 60 == 1 && c.inRoutine (bits a 35 32) (bits a 24 0) n)

/-- AUTO resolved (R474). -/
def Chip.collAlg (c : Chip) (p : Nat) (w : List Word) (g : Nat) (adj : Bool) : Nat :=
  if clAlg w ≠ 0 then clAlg w
  else
    match clOp w with
    | 1 => if adj then 3 else 2
    | 5 => 2
    | 0 => if g ≤ c.g .CAR_CFG_DMAX p ∨ ¬ adj then 2 else 1
    | 2 => if g ≤ c.g .CAR_CFG_DMAX p ∨ ¬ adj then 2 else 1
    | _ => 2

/-- AG begins: this member's shard written here and queued for the others; widened shards go as MWRITE_WIDEN, and a
finite element that BF16 cannot hold sets OVF (R68, R475). -/
def Chip.startAg (c : Chip) (p : Nat) (x : CollS) : Chip :=
  let n := x.sLen x.me
  let w := x.words
  if ¬ clWiden w then
    let codes := elemsOf x.rfmt n (c.tierLoad p (clSrc w) (fmtBytes x.rfmt n))
    let dsts := if x.alg = 3 then (if x.g = 1 then [] else [(x.me + 1) % x.g]) else (List.range x.g).filter (· != x.me)
    if n = 0 then c
    else (c.writeRes p x x.me 0 codes).addOut p x.cid (dsts.flatMap (fun m => segsFor m x.me x.rfmt codes 0 (fun _ => [])))
  else
    let nb := cdiv n 32
    let el := c.tierLoad p (clSrc w) n ++ List.replicate (32 * nb - n) (0, false)
    let sc := c.tierLoad p (clSrc w + cdiv n 64 * 64) nb
    let dst := clDst w + 2 * x.sFirst x.me
    let vs := widen (clSfmt w) (el.map Prod.fst) (sc.map Prod.fst)
    let codes := (List.range n).map (fun i => ((vs.getD i ⟨0, false, {}⟩).w, (el.getD i (0, false)).2 || (sc.getD (i / 32) (0, false)).2))
    let c := c.onColl p x.cid (fun x => { x with detail := x.detail ||| 2 ^ 50 })
    if n = 0 then c
    else
      let ovf := ((vs.take n).findIdx? Conv.ovf).map (fun e => x.posOf (x.sFirst x.me + e))
      let c := (c.writeCodes p x.cid 0 dst (x.sFirst x.me) codes).onColl p x.cid (fun x => { x with
        ovf := minPos x.ovf ovf, flags := x.flags ||| flagsOf false ovf.isSome false false false false })
      let c := c.wcensAdd p { tensor := clTensor w, step := c.step p, kind := 0, fmt := 0, cen := cenSum (vs.take n) }
      let pieces := List.range (cdiv nb 124)
      ((List.range x.g).filter (· != x.me)).foldl (fun c m =>
        let c := pieces.foldl (fun c i =>
          let k := min 124 (nb - 124 * i)
          let fl := flitsOf ((el.drop (32 * 124 * i)).take (32 * k) ++ (sc.drop (124 * i)).take k)
          c.inject p (mkPkt 0x21 (x.mods.getD m 0)
            [dst + 64 * 124 * i, k + b2n (clSfmt w == 3) * 2 ^ 7 + x.cid * 2 ^ 16 + 2 ^ 32, clTensor w] fl.1 fl.2)) c
        c.onColl p x.cid (fun x => { x with acks := x.acks ++ [(m, pieces.length)] })) c

/-- RS and AR begin: contributions queued for their testers, or under CHAIN member 0's for its successor (R470–R472). -/
def Chip.startReduce (c : Chip) (p : Nat) (x : CollS) : Chip :=
  let dig (s : Nat) : Nat := digValue (c.ownDigest p x s)
  let segs :=
    if x.alg = 1 then
      if x.me ≠ 0 ∨ x.g = 1 then []
      else
        let digs (k : Nat) : List (Nat × Nat) :=
          (x.shards.filter (fun s => (x.sFirst s + x.sLen s - 1) / 1024 == k)).map (fun s => (s, dig s))
        segsFor 1 0 1 (sumCodes (sum1 x.cfmt (c.ownRange p x 0 (clCount x.words)))) 0 digs
    else
      (x.shards.filter (· != x.me)).flatMap (fun s =>
        segsFor s s x.cfmt (c.ownElems p x s 0 (x.sLen s)) 0 (fun k => if k + 1 = segsOf x.cfmt (x.sLen s) then [(s, dig s)] else []))
  let c := c.addOut p x.cid segs
  if x.sLen x.me = 0 ∧ clNormacc x.words then c.sendEntry p x else c

/-- PREDUCE begins: header and sub-tiles queued for the root (R478). -/
def Chip.startPreduce (c : Chip) (p : Nat) (x : CollS) : Chip :=
  let root := clPeer x.words
  if x.me = root then c.checkHeaders p x.cid
  else
    let h := { dst := root, shard := 1, seg := 0, words := headWords (c.ownHeader p x), bad := [(c.tierWords p (clSrc x.words) 8).2] }
    let n := x.sLen 0
    c.addOut p x.cid (h :: segsFor root 0 1 (c.ownElems p x 0 0 n) 0 (fun k => if k + 1 = segsOf 1 n then [(0, digValue (c.ownDigest p x 0))] else []))

/-- A2A begins: counts known here and sent to every member, or on return the rows queued (R477). -/
def Chip.startA2a (c : Chip) (p : Nat) (x : CollS) : Chip :=
  let n := (c.placeOf p x).ents.length
  let cs := elemsOf 1 n (c.tierLoad p (clScnt x.words) (4 * n))
  let piece (k : Nat) : List (Nat × Bool) := (cs.drop (1024 * k)).take 1024
  let ks := List.range (countPieces n)
  let x := { x with cnts := ks.map (fun k => { frm := x.me, shard := 0, seg := k, codes := piece k }) }
  let c := c.setColl p x
  if clRet x.words then c.a2aSend p x
  else
    ks.foldl (fun c k =>
      let fl := flitsOf (packElems 1 (piece k))
      ((List.range x.g).filter (· != x.me)).foldl (fun c m => c.collSend p x m 4 0 k 0 fl.1 fl.2) c) c

/-- A collective begins by its OP; packets held for its CID are taken (R483). -/
def Chip.collBegin (c : Chip) (p : Nat) (x : CollS) : Chip :=
  let a := c.car p
  let mine (h : Nat × Pkt) : Bool := cpCid h.2 == x.cid
  let c := c.setCar p { a with colls := a.colls ++ [x], hold := a.hold.filter (fun h => !mine h), norms := a.norms + b2n (x.op == 4) }
  let c := match x.op with
    | 1 => c.startAg p x
    | 3 => c.startA2a p x
    | 4 => c.normKick p
    | 5 => c.startPreduce p x
    | 6 => c.addOut p x.cid (rawSegs (clPeer x.words) (c.tierLoad p (clSrc x.words) (64 * clCount x.words)))
    | 7 => c
    | _ => c.startReduce p x
  let c := if x.lastr ∧ x.me = 0 ∧ ¬ c.on .HUB_GATE_CTL_GLOBAL p then
      let a := c.car p
      (c.setCar p { a with lasts := a.lasts ++ [(clTensor x.words, x.cid, x.mods)] }).tryPnorm p (clTensor x.words)
    else c
  let c := c.collStep p x.cid
  (a.hold.filter mine).foldl (fun c h => match c.coll p x.cid with | some x => c.collTake p x h.2 | none => c) c

/-- A COLL at issue: the checks of R463 in order, then the collective opens (R462–R464). -/
def Chip.collIssue (c : Chip) (cl : Nat) (w : List Word) : Chip :=
  let p := c.partOfCl cl
  let op := clOp w
  let cid := clCid w
  if ¬ c.on .CAR_CTL_EN p then c.refuse cl w 24
  else
    match (c.curMap p).bind (fun m => (m.members (clGid w)).bind (fun l => (m.index (clGid w)).map (fun me => (m, l, me)))) with
    | none => c.refuse cl w 25
    | some (m, l, me) =>
      let g := l.length
      let mods := l.map m.idOf
      let adj := (m.groups.find? (fun x => x.gid == clGid w)).any Group.adj
      let ts := m.tensors.filter (fun t => t.tensor == clTensor w)
      let t : Option TensorEnt := match ts.find? TensorEnt.reg with | some t => some t | none => ts.head?
      let bad : Bool := match op with
        | 3 => (m.places.find? (fun t => t.pt == clPt w)).isNone
        | 4 => false
        | 5 => decide (g ≤ clPeer w)
        | 6 => decide (g ≤ clPeer w)
        | 7 => decide (g ≤ clPeer w)
        | _ => (match t with | some t => decide (t.lrows * t.lcols < clIdx0 w + clCount w) | none => true)
      let hd := if op = 5 then (c.tierWords p (clSrc w) 8).1 else []
      let tcount := wbits (wordAt hd 2) 16 10
      let rs := c.collRanges p w g me tcount (clWiden w)
      if bad ∨ (clAlg w = 2 ∧ 256 < g) then c.refuse cl w 25
      else if clWiden w && !(t.any TensorEnt.mxgather && (clSfmt w == 2 || clSfmt w == 3)) then c.refuse cl w stBadFormat
      else if ¬ rs.1.all (fun r => c.tierHas p r.1 r.2) ∨ ¬ rs.2.all (fun r => c.collWritable p r.1 r.2) then c.refuse cl w stBadAddr
      else if (c.coll p cid).isSome ∨ 32 ≤ (c.car p).colls.length then c.refuse cl w 29
      else
        match mods.find? (fun d => d != mods.getD me 0 && !c.permits p d) with
        | some d => (c.xpart p 3 (c.g .FAB_ID_ID 0) 2 d).refuse cl w stDenied
        | none =>
          if op ≠ 4 ∧ clCount w = 0 then (c.inc .CAR_CNT_COUNT p 1 0).issueEnd cl (wordAt w 0) { order := 0 }
          else
            let lastr := clNormacc w && c.on .CAR_CTL_LASTR p
            let c := if clNormacc w then c.put .CAR_CTL_LASTR p 0 else c
            let (id, c) := c.issue cl (wordAt w 0) 1
            let bytes := (rs.1.map Prod.snd).sum
            let c := if op = 4 then c else c.meter p (meterOfTier (clSrc w) false) bytes
            c.collBegin p
              { cl := cl, id := id, cid := cid, words := w, alg := c.collAlg p w g adj, me := me, mods := mods
                kind := (t.map TensorEnt.kind).getD 3, lcols := (t.map TensorEnt.lcols).getD 1, lastr := lastr
                block := wbits (wordAt hd 0) 23 0, tfirst := wbits (wordAt hd 2) 9 0, tcount := tcount, seen := c.up }

/-- A COLL of one OP taken from its sequencer; behind the barrier of an abandon it waits (R510). -/
def Chip.collCmd (c : Chip) (cl op : Nat) : Chip :=
  if (c.sealOf (c.partOfCl cl)).barrier then c
  else c.take cl (fun w => isOp 0x20 w && (clOp w == op || decide (8 ≤ clOp w))) false (fun c w => c.collIssue cl w)

/-- COLL_RS (R462–R464, R467–R472, R474). -/
def execCollRs (cl : Nat) (s : State) : Host.Outcome State Fault Refusal := nextChip s (fun c => c.collCmd cl 0)
/-- COLL_AG (R462–R464, R474, R475). -/
def execCollAg (cl : Nat) (s : State) : Host.Outcome State Fault Refusal := nextChip s (fun c => c.collCmd cl 1)
/-- COLL_AR (R462–R464, R467–R472, R474). -/
def execCollAr (cl : Nat) (s : State) : Host.Outcome State Fault Refusal := nextChip s (fun c => c.collCmd cl 2)
/-- COLL_A2A (R462–R464, R477). -/
def execCollA2a (cl : Nat) (s : State) : Host.Outcome State Fault Refusal := nextChip s (fun c => c.collCmd cl 3)
/-- COLL_NORM (R462–R464, R479, R486). -/
def execCollNorm (cl : Nat) (s : State) : Host.Outcome State Fault Refusal := nextChip s (fun c => c.collCmd cl 4)
/-- COLL_PREDUCE (R462–R464, R478). -/
def execCollPreduce (cl : Nat) (s : State) : Host.Outcome State Fault Refusal := nextChip s (fun c => c.collCmd cl 5)
/-- COLL_SEND (R462–R464, R476). -/
def execCollSend (cl : Nat) (s : State) : Host.Outcome State Fault Refusal := nextChip s (fun c => c.collCmd cl 6)
/-- COLL_RECV (R462–R464, R476). -/
def execCollRecv (cl : Nat) (s : State) : Host.Outcome State Fault Refusal := nextChip s (fun c => c.collCmd cl 7)

/-! ### Arbitration, timeouts, ends -/

/-- DIGEST_ARBITRATION_END (R473, R492, R497): every contribution to the shard has come again and is added once more; the
outcome is logged, recorded and written. Poison in what came again decides without an outcome (R486). -/
def execDigestArbitrationEnd (p cid : Nat) (s : State) : Host.Outcome State Fault Refusal :=
  nextChip s (fun c =>
    match c.coll p cid with
    | none => c
    | some x =>
      match x.first with
      | none => c
      | some (sh, old) =>
        let w := (sh, true)
        let ks := List.range (x.winSegs w)
        if ¬ (List.range x.g).all (fun m => ks.all (x.here w m)) then c
        else
          let fin := sumAll x.cfmt ((x.order (c.ownHeader p x)).map (c.contribution p x w))
          let first := (old.map (fun y => ((decodeF fp32 y.1, false), y.2)))
          let gs := c.weightsOf p x sh
          let du := c.digestsOf p x sh
          let test (l : List SumE) : FVal × Bool := digestTest x.g l.length (digestOf gs (l.map (fun z => z.1.1))).1 du
          if fin.any Prod.snd then
            (((c.collPoison p cid).collDeliver p cid sh ((first.zip fin).map (fun z => (z.1.1, z.2.2))) 0).collStep p cid)
          else
            let out := if sumCodes fin = old then 1 else if fin.all (fun z => z.1.1.isFin) ∧ (test fin).2 then 2 else 3
            let diff := encodeF fp32 (roundF fp32 .rne (test first).1)
            let c := c.wr .TST_LOG p (Word.ofNat (cid + sh * 2 ^ 16 + b2n (x.op == 5 || x.alg != 1) * 2 ^ 29 + out * 2 ^ 30 + diff * 2 ^ 32))
            let c := c.postFault { cls := 0x03, action := if out = 3 then 2 else if out = 2 then 1 else 0, place := .part p, detail := [cid, sh, diff, out] }
            (c.collDeliver p cid sh (if out = 2 then fin else first) out).collStep p cid)

/-- TMO of the Carousel in nanoseconds of the module's own clock. -/
def Chip.carTmo (c : Chip) (p : Nat) : Nat := c.g .CAR_CFG_TMO p * 1000000

/-- COLL_TIMEOUT (R465, R466, R468): nothing that the collective waits for has come for TMO. -/
def execCollTimeout (p cid : Nat) (s : State) : Host.Outcome State Fault Refusal :=
  nextChip s (fun c =>
    match c.coll p cid with
    | none => c
    | some x =>
      if c.collOver p x ∨ c.up < x.seen + c.carTmo p ∨ (x.op = 4 ∧ ¬ x.started) then c else c.collEnd p { x with status := 27 })

/-- HOLD_EXPIRY (R483): packets held for TMO for a CID that has not opened are discarded as stale. -/
def execHoldExpiry (p cid : Nat) (s : State) : Host.Outcome State Fault Refusal :=
  nextChip s (fun c =>
    let a := c.car p
    let old (h : Nat × Pkt) : Bool := cpCid h.2 == cid && decide (h.1 + c.carTmo p ≤ c.up)
    (c.setCar p { a with hold := a.hold.filter (fun h => !old h) }).carStale p (a.hold.filter old).length)

/-- COLL_END (R465, R466, R490, R493). -/
def execCollEnd (p cid : Nat) (s : State) : Host.Outcome State Fault Refusal :=
  nextChip s (fun c =>
    match c.coll p cid with
    | none => c
    | some x => if c.collOver p x then c.collEnd p x else c)

/-! ### `CAR_CTL.EN` and `CAR_SEGS` (R456, R488, R489) -/

/-- `CAR_CTL` written: EN = 1 is dropped with MAP_FAIL while the start slot is invalid (R17, R456, R488). -/
def Chip.carCtlWrite (c : Chip) (fn : Fn) (p d : Nat) : Chip :=
  let c := c.writeReg fn ⟨.CAR_CTL, p, 0, 0⟩ 31 0 d
  if c.isLocked .CAR_CTL p then c
  else if ¬ bit d 0 then c.put .CAR_CTL_EN p 0
  else if ((c.mapS p).img (c.g .CAR_CTL_START_SLOT p)).isSome then c.put .CAR_CTL_EN p 1
  else c.set1 .CAR_STICKY_MAP_FAIL p

/-- CAR_ENABLE (R17, R456, R488). -/
def execCarEnable (fn : Fn) (p : Nat) (data : Word) (s : State) : Host.Outcome State Fault Refusal :=
  nextChip s (fun c => if ¬ c.reaches fn .CAR_CTL p then c else c.carCtlWrite fn p data.toNat)

/-- `CAR_SEGS` written: 0 and 1 are stored as 2; a sum over the partitions above 2,048 is refused with SEG_OVER (R17, R489). -/
def Chip.carSegsWrite (c : Chip) (p d : Nat) : Chip :=
  if c.isLocked .CAR_SEGS p then c.lockViol p (Reg.CAR_SEGS.offset p 0)
  else
    let v := max 2 (bits d 11 0)
    let sum := (((List.range 16).filter (· != p)).map (fun q => c.g .CAR_SEGS_SEGS q)).sum
    if 2048 < sum + v then c.set1 .CAR_STICKY_SEG_OVER p else c.put .CAR_SEGS_SEGS p v

/-- CAR_SEGS_WRITE (R17, R489). -/
def execCarSegsWrite (fn : Fn) (p : Nat) (data : Word) (s : State) : Host.Outcome State Fault Refusal :=
  nextChip s (fun c => if ¬ c.reaches fn .CAR_SEGS p then c else c.carSegsWrite p data.toNat)

end Sys2Proof.Machine
end

