-- ==== Sys2Proof/Machine/Links.lean ====
section
/-! DEFINITION. Bringing links up, keeping them, and the link layer (R400–R416, R434), routing tables (R425, R441) and
system time (R436–R438). -/

namespace Sys2Proof.Machine

/-! ### Enabling and detecting (R400, R403, R440) -/

/-- Number of bits set among the lowest n. -/
def popcount (n w : Nat) : Nat := ((List.range n).filter (bit w)).length

/-- BOND_MIN of a configuration word. -/
def bondMin (w : Word) : Nat := wbits w 5 4

/-- LEN bit d set brings a link up from DETECT; a link without a neighbour stays DISABLED (R400, R403). -/
def Chip.linkOn (c : Chip) (d : Nat) : Chip :=
  if bit (c.g .FAB_CTL_LEN 0) d then c
  else
    let c := c.orF .FAB_CTL_LEN 0 (2 ^ d)
    if (c.neighbour (c.g .FAB_ID_ID 0) d).isNone then c
    else (c.setLink d { retrains := (c.link' d).retrains }).toState d 1

/-- LEN bit d cleared disables the link (R400, R434). -/
def Chip.linkOff (c : Chip) (d : Nat) : Chip :=
  if bit (c.g .FAB_CTL_LEN 0) d then (c.put ⟨.FAB_CTL, d, d⟩ 0 0).linkDown d 0 11 else c

/-- LINK_ENABLE (R400, R403). -/
def execLinkEnable (fn : Fn) (d : Nat) (s : State) : Host.Outcome State Fault Refusal :=
  nextChip s (fun c => if ¬ c.reaches fn .FAB_CTL 0 ∨ 6 ≤ d then c else c.linkOn d)

/-- LINK_DISABLE (R400, R434). -/
def execLinkDisable (fn : Fn) (d : Nat) (s : State) : Host.Outcome State Fault Refusal :=
  nextChip s (fun c => if ¬ c.reaches fn .FAB_CTL 0 ∨ 6 ≤ d then c else c.linkOff d)

/-- LINK_DETECT (R400, R402, R442): signal on all four lanes of at least BOND_MIN ports starts training; transmitters start
at preset 1. -/
def execLinkDetect (d ports : Nat) (s : State) : Host.Outcome State Fault Refusal :=
  nextChip s (fun c =>
    let cfg := c.rd .FAB_LINK_CFG 0 d
    if c.linkState d ≠ 1 ∨ popcount 3 ports < bondMin cfg then c
    else (c.setLink d { c.link' d with cfg := cfg, ports := ports % 8, lanes := [] }).toState d 2)

/-! ### Training (R401, R402) -/

/-- Limits of the five taps. -/
def tapLimits : List (Int × Int) := [(-4, 4), (-8, 8), (-24, 0), (32, 64), (-16, 0)]

/-- Sum of the magnitudes of taps. -/
def tapSum (ts : List Int) : Nat := (ts.map Int.natAbs).sum

/-- One tap request applied: the taps and the status reported. -/
def tapRequest (ts : List Int) (i req : Nat) : List Int × Nat :=
  let step : Int := if req = 1 then 1 else if req = 2 then -1 else 0
  let v := ts.getD i 0 + step
  let lim := tapLimits.getD i (0, 0)
  let ts' := listSet ts i v
  if step = 0 then (ts, 0)
  else if v < lim.1 ∨ lim.2 < v ∨ 64 < tapSum ts' then (ts, 2)
  else (ts', 1)

/-- The CONTROL field applied to the transmitter: a preset, or the tap requests in order. -/
def applyControl (ts : List Int) (ctl : Nat) : List Int × Nat :=
  match bits ctl 11 10 with
  | 1 => ([0, 0, 0, 64, 0], 0x155)
  | 2 => ([0, 2, -10, 46, -6], 0x155)
  | _ => (List.range 5).foldl (fun a i =>
      let (ts, st) := tapRequest a.1 i (bits ctl (2 * i + 1) (2 * i))
      (ts, a.2 + st * 2 ^ (2 * i))) (ts, 0)

/-- A lane of a link: bond member b, lane l. -/
def LinkS.lane (x : LinkS) (b l : Nat) : LaneT := sget {} x.lanes (4 * b + l)

/-- The mask of a link's ports all four of whose lanes hold a property. -/
def LinkS.portsWith (x : LinkS) (f : Nat → Bool) : Nat :=
  ((List.range 3).map (fun b => b2n (bit x.ports b && f b) * 2 ^ b)).sum

/-- Ports on which both ends have been ready for three frames on every lane. -/
def LinkS.trained (x : LinkS) : Nat := x.portsWith (fun b => (List.range 4).all (fun l => decide (3 ≤ (x.lane b l).ready)))

/-- TRAIN_FRAME_RECV (R400–R402): requests are applied and answered; three ready frames on every lane of BOND_MIN ports end
the training. A lane that reports the wrong number never becomes ready. -/
def execTrainFrameRecv (d port lane : Nat) (f : TrainFrame) (s : State) : Host.Outcome State Fault Refusal :=
  nextChip s (fun c =>
    let x := c.link' d
    if c.linkState d ≠ 2 ∨ ¬ bit x.ports port ∨ 3 ≤ port ∨ 4 ≤ lane then c
    else
      let y := x.lane port lane
      let (taps, st) := applyControl y.taps f.ctl
      let pre := bit f.ctl 12 && wbit x.cfg 16
      let ok := f.own && bit f.sts 10 && bits f.sts 13 12 == lane
      let y := { y with taps := taps, precode := pre, ready := if ok then y.ready + 1 else 0 }
      let x := { x with lanes := sset {} x.lanes (4 * port + lane) y }
      let c := (c.setLink d x).emit (.train d port lane (b2n (wbit x.cfg 16) * 2 ^ 12)
        (st + b2n f.own * 2 ^ 10 + b2n pre * 2 ^ 11 + lane * 2 ^ 12))
      if popcount 3 x.trained < bondMin x.cfg then c
      else (c.setLink d { x with ports := x.trained }).toState d 3)

/-- Whether a link has been in a state for a time in ns. -/
def Chip.expired (c : Chip) (d st limit : Nat) : Bool :=
  decide (d < 6) && c.linkState d == st && decide ((c.link' d).since + limit ≤ c.up)

/-- TRAIN_TIMEOUT (R400): back to DETECT after 250 ms; the third expiry fails the link. -/
def execTrainTimeout (d : Nat) (s : State) : Host.Outcome State Fault Refusal :=
  nextChip s (fun c =>
    if ¬ c.expired d 2 250000000 then c
    else
      let n := (c.link' d).tries + 1
      if 3 ≤ n then c.linkDown d 8 2
      else (c.setLink d { retrains := (c.link' d).retrains, tries := n }).toState d 1)

/-! ### Alignment and bonding (R408, R409) -/

/-- The lane whose marker a received one differs from in at most 4 bits. -/
def markerLane (m : Nat) : Option Nat :=
  [0x7A12C59E, 0x85ED3A61, 0x3CE41B97, 0xC31BE468].findIdx? (fun k => decide (popcount 32 (k ^^^ m) ≤ 4))

/-- Whether CHECK of a block agrees with its PORTID and LSN. -/
def blockValid (b : AlignBlock) : Bool := b.check % 65536 == 65535 - ((b.portid ^^^ b.lsn) % 65536)

/-- A lane after an alignment block while the link aligns. -/
def LaneT.aligned (y : LaneT) (b : AlignBlock) : LaneT :=
  match markerLane b.marker with
  | none => { y with hits := 0 }
  | some m =>
    if ¬ blockValid b then { y with hits := 0 }
    else
      let port := bits b.portid 4 0
      let next := decide (0 < y.hits) && y.marker == m && y.portid == port && y.pos + 1 == b.pos
      { y with marker := m, portid := port, pos := b.pos, hits := if next then y.hits + 1 else 1 }

/-- Ports locked: four lanes with markers in two blocks in a row at one position, lanes 0–3 once each, one port number. -/
def LinkS.locked (x : LinkS) : Nat :=
  x.portsWith (fun b =>
    let ls := (List.range 4).map (x.lane b)
    ls.all (fun y => decide (2 ≤ y.hits) && y.pos == (x.lane b 0).pos && y.portid == (x.lane b 0).portid)
      && (List.range 4).all (fun m => ls.any (fun y => y.marker == m)))

/-- The HELLO of this module on a link. -/
def Chip.ownHello (c : Chip) (d : Nat) : Hello :=
  { retrain := false, id := c.g .FAB_ID_ID 0, dir := d, topo := wbits (c.rd .FAB_TOPO 0) 15 0
    ports := popcount 3 (c.link' d).ports, shared := 6144, lane := 256, stepping := 0xA2 }

/-- The bond formed (R400, R409): the members are active; at start-up LSN counting starts and HELLOs are exchanged, after
RETRAIN the link is ACTIVE again. -/
def Chip.bondFormed (c : Chip) (d : Nat) : Chip :=
  let x := c.link' d
  let c := c.put .FAB_LINK_STAT_PORTS_UP 0 x.ports d
  if c.linkState d = 7 then
    ((c.setLink d { x with flowAt := c.up, ackAt := c.up }).toState d 6).pump d
  else (c.toState d 5).emit (.hello d (c.ownHello d))

/-- Place of a member among the ports of a link. -/
def memberRank (ports b : Nat) : Nat := popcount b ports

/-- ALIGN_BLOCK_RECV (R400, R404, R409): blocks lock lanes and ports in ALIGN and RETRAIN, form the bond, and in ACTIVE keep
watch over lock and the LSN. -/
def execAlignBlockRecv (d port lane : Nat) (b : AlignBlock) (s : State) : Host.Outcome State Fault Refusal :=
  nextChip s (fun c =>
    let x := c.link' d
    let y := x.lane port lane
    let put (y : LaneT) : LinkS := { x with lanes := sset {} x.lanes (4 * port + lane) y }
    let st := c.linkState d
    if 6 ≤ d ∨ 3 ≤ port ∨ 4 ≤ lane ∨ ¬ bit x.ports port then c
    else if st = 3 then
      let x := put (y.aligned b)
      let c := c.setLink d x
      if x.locked = x.ports then c.toState d 4 else c
    else if st = 4 then
      if blockValid b ∧ (markerLane b.marker).isSome ∧ bondMin x.cfg ≤ popcount 3 x.ports then c.bondFormed d else c
    else if st = 7 then
      let x := put (y.aligned b)
      if bondMin x.cfg ≤ popcount 3 x.locked then (c.setLink d { x with ports := x.locked }).bondFormed d else c.setLink d x
    else if st = 6 then
      if markerLane b.marker = none ∨ ¬ blockValid b then
        let c := c.setLink d (put { y with miss := y.miss + 1 })
        if 4 ≤ y.miss + 1 then c.openCause (fun c v => c.toRetrain d v) else c
      else if ¬ x.nak ∧ b.lsn ≠ (x.rxCnt + memberRank x.ports port) % 65536 then c.openCause (fun c v => c.toRetrain d v)
      else c.setLink d (put { y with miss := 0 })
    else c)

/-- ALIGN_TIMEOUT (R400). -/
def execAlignTimeout (d : Nat) (s : State) : Host.Outcome State Fault Refusal :=
  nextChip s (fun c => if c.expired d 3 1000000 then c.linkDown d 8 3 else c)

/-- BOND_TIMEOUT (R400). -/
def execBondTimeout (d : Nat) (s : State) : Host.Outcome State Fault Refusal :=
  nextChip s (fun c => if c.expired d 4 100000 then c.linkDown d 8 4 else c)

/-! ### Checking (R403) -/

/-- The first of this end's own checks that fails: ID assigned, ID in range. -/
def Chip.ownCheck (c : Chip) : Option Nat :=
  if ¬ c.on .FAB_ID_VALID 0 then some 5
  else if ¬ c.inTopo (c.g .FAB_ID_ID 0) then some 10 else none

/-- The first failing check of a HELLO, as a CAUSE code. -/
def Chip.helloCheck (c : Chip) (d : Nat) (h : Hello) : Option Nat :=
  match c.ownCheck with
  | some k => some k
  | none =>
    if h.topo ≠ wbits (c.rd .FAB_TOPO 0) 15 0 then some 7
    else if h.dir ≠ d ^^^ 1 then some 6
    else if c.neighbour (c.g .FAB_ID_ID 0) d ≠ some h.id then some 6 else none

/-- HELLO_RECV (R403, R404, R412, R415): in CHECK the checks in order, and ACTIVE with the credits offered when they pass; in
ACTIVE a request for RETRAIN. -/
def execHelloRecv (d : Nat) (h : Hello) (s : State) : Host.Outcome State Fault Refusal :=
  nextChip s (fun c =>
    let st := c.linkState d
    if 6 ≤ d ∨ ¬ (st = 5 ∨ st = 6) then c
    else
      let c := (c.put .FAB_LINK_STAT_NBR_ID 0 h.id d).put .FAB_LINK_STAT_NBR_DIR 0 h.dir d
      if st = 6 then (if h.retrain then c.openCause (fun c v => c.toRetrain d v) else c)
      else
        let x := c.link' d
        match c.helloCheck d h with
        | some k => (c.setLink d { x with fail := some k }).setCause d k
        | none =>
          (c.setLink d { x with
            fail := none, credits := List.replicate 8 h.lane ++ [h.shared], owed := List.replicate 9 0
            flowAt := c.up, ackAt := c.up, tries := 0 }).toState d 6)

/-- CHECK_TIMEOUT (R400, R440): after 1 ms the link fails with the failing cause; where no check of this end failed the manual
names none. -/
def execCheckTimeout (d : Nat) (s : State) : Host.Outcome State Fault Refusal :=
  nextChip s (fun c =>
    if ¬ c.expired d 5 1000000 then c
    else
      let c := c.set1 .FAB_STICKY_CHECK_FAIL 0
      match (c.link' d).fail, c.ownCheck with
      | some k, _ => c.linkDown d 8 k
      | none, some k => c.linkDown d 8 k
      | none, none => c.openCause (fun c v => c.linkDown d 8 v))

/-- FLOW_TIMEOUT (R404): no FLOW flit for 10 µs. -/
def execFlowTimeout (d : Nat) (s : State) : Host.Outcome State Fault Refusal :=
  nextChip s (fun c => if c.linkActive d ∧ (c.link' d).flowAt + 10000 ≤ c.up then c.toRetrain d 9 else c)

/-- RETRAIN_TIMEOUT (R400, R434): after 2 ms the link fails; the manual names no cause. -/
def execRetrainTimeout (d : Nat) (s : State) : Host.Outcome State Fault Refusal :=
  nextChip s (fun c => if c.expired d 7 2000000 then c.openCause (fun c v => c.linkDown d 8 v) else c)

/-! ### Codewords (R405–R407, R410) -/

/-- A slot of a codeword (R410). A link-local flit is a HEAD whose command comes by itself. -/
inductive Flit where
  | idle
  | head (ws : List Word)
  | data (p : Bool) (ws : List Word)
  deriving DecidableEq, Repr

/-- Bit i of byte b of slot s of a message (R405). -/
def cwBit (m s b i : Nat) : Bool := bit m (20 + 512 * s + 8 * b + i)
/-- The code of slot s of a message (R405). -/
def cwCode (m s : Nat) : Nat := b2n (bit m (2 * s)) + 2 * b2n (bit m (2 * s + 1))
/-- Word j of slot s of a message: its bytes 8j to 8j + 7, least significant first (R10, R405). -/
def cwWord (m s j : Nat) : Word := Word.ofNat (m >>> (20 + 512 * s + 64 * j) % 2 ^ 64)

/-- Slot s of a message (R405, R410). -/
def cwSlot (m s : Nat) : Flit :=
  let ws := (List.range 8).map (cwWord m s)
  match cwCode m s with
  | 0 => .idle
  | 1 => .head ws
  | 2 => .data false ws
  | _ => .data true ws

/-- The ten slots of a codeword, in slot order. -/
def cwSlots (w : Codeword) : List Flit := (List.range 10).map (cwSlot w.msg)

/-- The code of a flit (R410). -/
def Flit.code : Flit → Nat
  | .idle => 0
  | .head _ => 1
  | .data false _ => 2
  | .data true _ => 3
/-- The words of a flit; those of an idle slot are not looked at. -/
def Flit.words : Flit → List Word
  | .idle => []
  | .head ws => ws
  | .data _ ws => ws

/-- A number from its digits in a base of 2^n, least significant first. -/
def digits (n : Nat) : List Nat → Nat
  | [] => 0
  | d :: ds => d % 2 ^ n + digits n ds * 2 ^ n

/-- The 512 bits of a slot: eight words, the first lowest (R405). -/
def Flit.bits (f : Flit) : Nat := digits 64 ((List.range 8).map (fun j => (wordAt f.words j).toNat))

/-- The message of the slots of a codeword sent; missing slots are idle (R405). -/
def cwMessage (fs : List Flit) : Nat :=
  let l := (List.range 10).map (fun s => fs.getD s .idle)
  digits 2 (l.map Flit.code) + digits 512 (l.map Flit.bits) * 2 ^ 20

/-- Message symbol k (R405). -/
def cwSymbol (m k : Nat) : Nat := m >>> (10 * k) % 1024

/-- Product by α in GF(2^10), x^10 + x^3 + 1 (R406). -/
def gfTimes (a : Nat) : Nat := if 1024 ≤ 2 * a then 2 * a ^^^ 0x409 else 2 * a
/-- Product in GF(2^10). -/
def gfMul (a b : Nat) : Nat :=
  (List.range 10).foldl (fun acc i => if bit b (9 - i) then gfTimes acc ^^^ a else gfTimes acc) 0
/-- Powers of α from one. -/
def gfPowers : Nat → Nat → List Nat
  | 0, _ => []
  | n + 1, a => a :: gfPowers n (gfTimes a)

/-- The generator polynomial Π(x − α^i), i = 0–29, highest coefficient first (R406). -/
def rsGen : List Nat :=
  (gfPowers 30 1).foldl (fun g a => List.zipWith (fun x y => x ^^^ y) (g ++ [0]) (0 :: g.map (gfMul a))) [1]

/-- The remainder of a message polynomial times x^30 by the generator: the 30 parity symbols, highest first (R406). -/
def rsParity (syms : List Nat) : List Nat :=
  let g := rsGen.drop 1
  syms.foldl (fun r s =>
    let f := s ^^^ r.headD 0
    List.zipWith (fun x y => x ^^^ y) (r.drop 1 ++ [0]) (g.map (gfMul f))) (List.replicate 30 0)

/-- The 544 symbols of a codeword in the order sent: the message's, then the parity (R405, R406). -/
def cwSymbols (m : Nat) : List Nat := let l := (List.range 514).map (cwSymbol m); l ++ rsParity l

/-- The PAM4 level of a bit pair, its first label bit first (R405). -/
def pamLevel : Bool → Bool → Nat
  | false, false => 0
  | false, true => 1
  | true, true => 2
  | true, false => 3
/-- The five levels of a symbol, bit 0 first (R405). -/
def symbolLevels (v : Nat) : List Nat := (List.range 5).map (fun i => pamLevel (bit v (2 * i)) (bit v (2 * i + 1)))
/-- The levels that a lane of a port carries for a codeword: symbols k with k mod 4 its number (R407). -/
def laneLevels (m lane : Nat) : List Nat :=
  (List.range 136).flatMap (fun i => symbolLevels ((cwSymbols m).getD (4 * i + lane) 0))

/-! ### The link layer (R410–R413) -/

/-- A complete packet put into the receive buffer. -/
def Chip.packetIn (c : Chip) (d : Nat) (k : Pkt) : Chip :=
  { c.setLink d { c.link' d with cur := none } with arrived := c.arrived ++ [(d, k)] }

/-- One slot processed; false when it breaks the packet rules of R413. -/
def Chip.slotIn (c : Chip) (d : Nat) : Flit → Chip × Bool
  | .idle => (c, true)
  | .head ws =>
    let k : Pkt := { hdr := headWords ws, words := [], poison := [] }
    if kType k = 1 ∨ kType k = 2 then (c, true)
    else if (c.link' d).cur.isSome ∨ 64 < kNdata k then (c, false)
    else if kNdata k = 0 then (c.packetIn d k, true)
    else (c.setLink d { c.link' d with cur := some k }, true)
  | .data p ws =>
    match (c.link' d).cur with
    | none => (c, false)
    | some k =>
      let k := { k with words := k.words ++ headWords ws, poison := k.poison ++ [p] }
      if kNdata k ≤ k.poison.length then (c.packetIn d k, true)
      else (c.setLink d { c.link' d with cur := some k }, true)

/-- The slots of a codeword processed in order, up to the first that breaks the rules. -/
def Chip.slotsIn (c : Chip) (d : Nat) : List Flit → Chip × Bool
  | [] => (c, true)
  | f :: fs =>
    match c.slotIn d f with
    | (c, true) => c.slotsIn d fs
    | (c, false) => (c, false)

/-- CODEWORD_RECV (R404, R406, R410–R413): an uncorrectable codeword is discarded with all after it and answered with a NAK; a
codeword is processed once, in LSN order; a FLOW flit goes out at least every 32. -/
def execCodewordRecv (d : Nat) (cw : Codeword) (s : State) : Host.Outcome State Fault Refusal :=
  nextChip s (fun c =>
    let x := c.link' d
    if ¬ c.linkActive d ∨ x.nak then c
    else
      let bad := match cw.corrected with | none => true | some n => decide (wbits x.cfg 3 0 < n)
      if bad then
        ((c.incSat .FAB_LINK_FEC_UNCORR 0 1 d).setLink d { x with nak := true }).sendFlow d (some x.rxCnt)
      else
        let c := (c.incSat .FAB_LINK_FEC_CORR_SYM 0 (cw.corrected.getD 0) d).settle
        let x := c.link' d
        let new := x.rxCnt == x.rxDone
        let n := (x.rxCnt + 1) % 65536
        let c := c.setLink d { x with rxCnt := n, rxDone := if new then n else x.rxDone, since32 := x.since32 + 1 }
        let (c, ok) := if new then c.slotsIn d (cwSlots cw) else (c, true)
        if ¬ ok then c.linkDown d 8 12
        else if 32 ≤ (c.link' d).since32 then c.sendFlow d none else c)

/-- REPLAY_CODEWORD_RECV (R411): the count is set to the LSN named, and the NAK is answered. -/
def execReplayCodewordRecv (d lsn : Nat) (s : State) : Host.Outcome State Fault Refusal :=
  nextChip s (fun c =>
    if c.linkActive d then c.setLink d { c.link' d with rxCnt := lsn % 65536, nak := false } else c)

/-- FLOW_RECV (R411, R412, R415): acknowledged codewords leave the replay buffer, credits return, waiting packets are sent, a
NAK starts a replay. -/
def execFlowRecv (d : Nat) (f : FlowFlit) (s : State) : Host.Outcome State Fault Refusal :=
  nextChip s (fun c =>
    if ¬ c.linkActive d then c
    else
      let c := c.settle
      let x : LinkS := { c.link' d with flowAt := c.up }
      let n := match f.ack with | some a => (a + 1 + 65536 - x.ack) % 65536 | none => 0
      let x := if 0 < n ∧ n ≤ x.unacked then
          { x with ack := (x.ack + n) % 65536, ackAt := c.up, reps := 0
                   buf := x.buf.filter (fun b => decide (n ≤ (b.1 + 65536 - x.ack) % 65536)) }
        else x
      let x := { x with credits := (List.range 9).map (fun i =>
        x.credits.getD i 0 + (if i = 8 then f.shared else f.credits.getD i 0)) }
      let c := (c.setLink d x).pump d
      if f.nak.isSome then c.replay d else c)

/-- ACK_TIMEOUT_REPLAY (R404, R411): 10 µs without an advance while codewords are unacknowledged, or a full replay buffer. -/
def execAckTimeoutReplay (d : Nat) (s : State) : Host.Outcome State Fault Refusal :=
  nextChip s (fun c =>
    let x := c.link' d
    if c.linkActive d ∧ 0 < x.unacked ∧ (x.ackAt + 10000 ≤ c.up ∨ 1024 ≤ x.unacked) then c.replay d else c)

/-- CREDIT_STALL (R416): a lane of a channel whose packet has waited for credit for more than 1 ms, counted once a packet. -/
def execCreditStall (d vc : Nat) (s : State) : Host.Outcome State Fault Refusal :=
  nextChip s (fun c =>
    let x := c.link' d
    let hit (w : Nat × Bool × Pkt) : Bool := !w.2.1 && kVc w.2.2 == vc && decide (w.1 + 1000000 < c.up) && (x.poolFor w.2.2).isNone
    if c.linkActive d ∧ x.wait.any hit then
      let c := c.setLink d { x with wait := x.wait.map (fun w => if hit w then (w.1, true, w.2.2) else w) }
      (c.set1 .FAB_STICKY_CREDIT_STALL 0).incSat .FAB_LINK_RETRY_STALLS 0 1 d
    else c)

/-! ### Packets that pass (R427, R430) -/

/-- PACKET_INJECT (R430, R433): a hub agent injects a packet for partition p, or Ringmaster a management packet (p = 16). -/
def execPacketInject (p : Nat) (k : Pkt) (s : State) : Host.Outcome State Fault Refusal :=
  nextChip s (fun c =>
    match vcOfType (kType k) with
    | none => c
    | some vc =>
      let k := { k with hdr := headWords k.hdr }.set 0 9 8 vc
      if kType k = 0x41 then (if 16 ≤ p then c.injectMgmt k else c)
      else if p < 16 then c.inject p k else c)

/-- PACKET_FORWARD (R426, R427): a packet that came on link d goes on by `FAB_RT`; one for this module waits for delivery. -/
def execPacketForward (d : Nat) (k : Pkt) (s : State) : Host.Outcome State Fault Refusal :=
  nextChip s (fun c =>
    let c := c.settle
    if c.routeOf (kDst k) = 6 then (if c.arrived.contains (d, k) then c else { c with arrived := c.arrived ++ [(d, k)] })
    else (c.leave k).route (some d) k)

/-- RT_FILL (R403, R441): the fill starts; dropped while a link is enabled. -/
def execRtFill (fn : Fn) (s : State) : Host.Outcome State Fault Refusal :=
  nextChip s (fun c =>
    if ¬ c.reaches fn .FAB_TOPO 0 then c
    else if c.g .FAB_CTL_LEN 0 ≠ 0 then c.set1 .FAB_STICKY_ID_LOCKED 0
    else c.set1 .FAB_TOPO_RT_FILL 0)

/-- RT_FILL_DONE (R425, R441): every route is written and RT_FILL reads 0. -/
def execRtFillDone (s : State) : Host.Outcome State Fault Refusal :=
  nextChip s (fun c => if c.on .FAB_TOPO_RT_FILL 0 then (c.fillRoutes.put .FAB_TOPO_RT_FILL 0 0).timeRole else c)

/-! ### System time (R436–R438) -/

/-- System time in units of 2^-16 ns. -/
def Chip.time16 (c : Chip) : Nat := c.now * 65536 + c.time.frac

/-- System time set in units of 2^-16 ns. -/
def Chip.setTime16 (c : Chip) (t : Int) : Chip :=
  { c with now := ((t / 65536) % 2 ^ 64).toNat, time := { c.time with frac := (t % 65536).toNat } }

/-- TSYNC_PERIOD (R435, R436): every PERIOD a module that is not the root sends a request on its parent link; a parent link
that is not ACTIVE makes it hold over. -/
def execTsyncPeriod (s : State) : Host.Outcome State Fault Refusal :=
  nextChip s (fun c =>
    let d := c.g .FAB_TIME_STAT_PARENT 0
    let due : Bool := match c.time.reqAt with | none => true | some t => decide (t + 1000 * c.g .FAB_TIME_CTL_PERIOD 0 ≤ c.up)
    if ¬ c.on .FAB_TIME_CTL_EN 0 ∨ 6 ≤ d ∨ ¬ due then c
    else if ¬ c.linkActive d then c.holdover
    else
      let t := c.time
      let c := { c with time := { t with pend := some (c.time16, t.seq), seq := (t.seq + 1) % 65536, reqAt := some c.up } }
      c.emit (.tsyncReq d c.time16 t.seq))

/-- TSYNC_REQ_RECV (R435, R436): the parent answers with the times of arrival and of sending; a replayed request is
ignored. `turn` is the time to the answer in 2^-16 ns. -/
def execTsyncReqRecv (d t1 seq turn : Nat) (replay : Bool) (s : State) : Host.Outcome State Fault Refusal :=
  nextChip s (fun c =>
    if replay ∨ ¬ c.linkActive d then c
    else c.emit (.tsyncRsp d { t1 := t1, t2 := c.time16, t3 := c.time16 + turn, seq := seq, pok := c.on .FAB_TIME_STAT_TIME_OK 0, replay := false }))

/-- Twice the offset from the parent, in 2^-16 ns (R436). -/
def theta2 (t1 t2 t3 t4 : Int) (asym : Int) : Int := (t4 - t3) - (t2 - t1) - asym * 4096

/-- TSYNC_RSP_RECV (R436, R437): the child computes its offset; it steps before its first TIME_OK when the offset exceeds
1 µs and slews otherwise; four exchanges in a row below 2 ns with a parent that is itself right set TIME_OK. -/
def execTsyncRspRecv (d : Nat) (r : TimeRsp) (s : State) : Host.Outcome State Fault Refusal :=
  nextChip s (fun c =>
    if r.replay ∨ c.g .FAB_TIME_STAT_PARENT 0 ≠ d ∨ 6 ≤ d ∨ c.time.pend ≠ some (r.t1, r.seq) then c
    else
      let th2 := theta2 r.t1 r.t2 r.t3 c.time16 (signed 8 (c.g .FAB_LINK_CFG_ASYM 0 d))
      let c := c.put .FAB_TIME_STAT_OFFSET 0 (unsigned 32 (th2 / 512))
      let c := (c.set1 .FAB_TIME_STAT_LOCKED 0).put .FAB_TIME_STAT_HOLDOVER 0 0
      let t : TimeS := { c.time with pend := none, holdAt := none }
      let big := decide (2 * 65536000 < th2.natAbs)
      let good := if th2.natAbs < 4 * 65536 then t.good + 1 else 0
      let c := if big ∧ ¬ t.everOk then ({ c with time := { t with corr := 0, good := good } }).setTime16 ((c.time16 : Int) - th2 / 2)
        else { c with time := { t with corr := -(th2 / 2), good := good } }
      let c := if big ∧ t.everOk then c.clearTimeOk else c
      if 4 ≤ good ∧ r.pok then
        { c.set1 .FAB_TIME_STAT_TIME_OK 0 with time := { c.time with everOk := true } }
      else c)

/-- HOLDOVER_EXPIRY (R438): TIME_OK clears after 100 ms of holdover. -/
def execHoldoverExpiry (s : State) : Host.Outcome State Fault Refusal :=
  nextChip s (fun c =>
    match c.time.holdAt with
    | some t => if t + 100000000 ≤ c.up then c.clearTimeOk else c
    | none => c)

end Sys2Proof.Machine
end

