-- ==== Sys2Proof/Machine/QueueCtl.lean ====
section
/-! DEFINITION. The queue pool's commands: words written and read, cells granted, flush, reset, enable, and the staleness
timer (R194–R203, R208, R210). -/

namespace Sys2Proof.Machine

/-! ### Words (R194–R198, R202, R203) -/

/-- QUEUE_WORD_WRITE (R194–R198, R202, R538): a word of a producer reaches the pool; a producer of one partition that names
a queue outside it is blocked at the fence and recorded. -/
def execQueueWordWrite (r q prod : Nat) (w : Word) (mark : Nat) (p : Bool) (s : State) : Host.Outcome State Fault Refusal :=
  nextChip s (fun c =>
    match c.prodPart prod with
    | some pt => if c.owns pt r then (c.qWrite r q prod ⟨w, mark % 4, p⟩).1 else c.xpart pt 1 (c.g .FAB_ID_ID 0) 0 (r + q * 16)
    | none => (c.qWrite r q prod ⟨w, mark % 4, p⟩).1)

/-- The SIGNALs whose packets a disabled or broken queue discarded end with QUEUE_ERR (R203, R235): of a producer's open
SIGNALs to the queue the last ones, as many as it had packets waiting. -/
def Chip.signalsLost (c : Chip) (r q : Nat) (lost : List (Nat × QWord)) : Chip :=
  (List.range 128).foldl (fun c cl =>
    let n := (lost.filter (fun y => y.1 == seqProducer cl && y.2.mark != 0)).length
    if n = 0 then c
    else
      let s := c.seq cl
      let mine := (s.outst.filter (fun o => o.isOpen && o.aux == r * 1024 + q + 1)).map OutCmd.id
      let hit := mine.drop (mine.length - n)
      hit.foldl (fun c id => c.finish cl id { order := 0, status := stQueueErr, detail := 4 }) c) c

/-- PACKET descriptors that wait at a queue which discarded their words end with QUEUE_ERR and halt their rings (R574). -/
def Chip.ringsLost (c : Chip) (r q : Nat) : Chip :=
  c.inRingKeys.foldl (fun c x =>
    match (c.inRing x.1 x.2).jobs with
    | j :: _ => if j.kind = 0 ∧ c.hiqTarget x.1 x.2 = (r, q) then c.hiqHalt x.1 x.2 8 else c
    | [] => c) c

/-- CELL_GRANTED (R198, R201, R203, R222): stalled producers obtain cells and resume in order, completion records of the
region's sequencers among them; a disabled or broken queue discards their words. -/
def execCellGranted (r q : Nat) (s : State) : Host.Outcome State Fault Refusal :=
  nextChip s (fun c =>
    let x := c.queue r q
    let closed := !c.on .QP_QCFG_EN r q || x.broken
    let c := c.grantAll r q x.waiting.length
    let c := if closed ∧ ¬ x.waiting.isEmpty then (c.signalsLost r q x.waiting).ringsLost r q else c
    (rangeFrom (8 * r) 8).foldl (fun c cl => c.flushRecords cl) c)

/-- QUEUE_WORD_READ (R196, R199, R202, R203, R504): the consumer reads one word; a hub agent that reads the NULL of a broken
queue consumes poison. -/
def execQueueWordRead (r q : Nat) (s : State) : Host.Outcome State Fault Refusal :=
  nextChip s (fun c =>
    match c.qRead r q with
    | some (_, c') =>
      if (c.queue r q).broken ∧ c.g .QP_QCFG_CKIND r q = 3 then
        match c'.owner r with | some p => c'.consumePoison p 9 0 (.region r) r 3 | none => c'
      else c'
    | none => c)

/-! ### Control -/

/-- QP_FLUSH (R200, R210): a request marks what is present for the flush. -/
def execQpFlush (fn : Fn) (r q : Nat) (s : State) : Host.Outcome State Fault Refusal :=
  nextChip s (fun c => if c.reaches fn .QP_QCMD r ∧ q < 1024 then c.qFlush r q else c)

/-- QP_RESET (R201, R210): a stopped partition's queue is emptied at once; while the partition runs the write is dropped
as a lock violation. -/
def execQpReset (fn : Fn) (r q : Nat) (s : State) : Host.Outcome State Fault Refusal :=
  nextChip s (fun c =>
    if ¬ c.reaches fn .QP_QCMD r ∨ 1024 ≤ q then c
    else
      match c.owner r with
      | some p => if c.runs p then c.lockViol p (Reg.QP_QCMD.offset r q) else c.qEmpty r q
      | none => c.qEmpty r q)

/-- Sum of RESERVE over the enabled queues of a region (R198, R206). -/
def Chip.reserveSum (c : Chip) (r : Nat) : Nat := ((c.enabledQueues r).map (c.reserve r)).sum

/-- A queue that was enabled is emptied and disabled; sequencers that read from it as their command queue halt (R201, R214). -/
def Chip.qClose (c : Chip) (r q : Nat) (was : Bool) : Chip :=
  if was then
    let c := (c.qEmpty r q).put .QP_QCFG_EN r 0 q
    (rangeFrom (8 * r) 8).foldl (fun c cl => c.checkCmdq cl) c
  else c

/-- Bits [hi:lo] of `QP_QCFG` written (R198, R201, R208). EN = 1 is not taken with a reserved CKIND or with reserves above the
pool: a disabled queue stays disabled with its other fields written, and a write that would leave an enabled queue so is
dropped whole (DESIGN CHOICE, log entry 58). Clearing EN empties the queue. While the partition runs only STALE is written. -/
def Chip.writeQcfg (c : Chip) (fn : Fn) (r q hi lo d : Nat) : Chip :=
  let was := c.on .QP_QCFG_EN r q
  let n := c.writeReg fn ⟨.QP_QCFG, r, q, 0⟩ hi lo d
  let refused := if was then c else n
  if c.isLocked .QP_QCFG r then n
  else if (if lo = 0 then bit d 0 else was) then
    if 5 ≤ n.g .QP_QCFG_CKIND r q then refused.set1 .QP_STICKY_BAD_CFG r
    else if 65536 < (n.put .QP_QCFG_EN r 0 q).reserveSum r + n.reserve r q then refused.set1 .QP_STICKY_RSV_OVER r
    else n.set1 .QP_QCFG_EN r q
  else n.qClose r q was

/-- QUEUE_EN_WRITE (R198, R201, R208): a write of `QP_QCFG` whole. -/
def execQueueEnWrite (fn : Fn) (r q : Nat) (data : Word) (s : State) : Host.Outcome State Fault Refusal :=
  nextChip s (fun c => if ¬ c.reaches fn .QP_QCFG r ∨ 1024 ≤ q then c else c.writeQcfg fn r q 63 0 data.toNat)

/-- The stale event at a consumer (R199): a sequencer's WAITQs on the queue are marked; an outbound ring that drains it
sets STALE and raises its vector; other consumers read at their own events. -/
def Chip.staleEvent (c : Chip) (r q : Nat) : Chip :=
  match c.g .QP_QCFG_CKIND r q with
  | 0 =>
    let cl := 8 * r + c.g .QP_QCFG_CIDX r q
    let s := c.seq cl
    c.setSeq cl { s with waitqs := s.waitqs.map (fun w => if w.queue = q then { w with stale := true } else w) }
  | 4 =>
    (List.range 34).foldl (fun c f => (List.range (ringCount f)).foldl (fun c k =>
      if c.on .HOSTIF_HOQ_BASE_EN f k ∧ c.g .HOSTIF_HOQ_SRC_REGION f k = r ∧ c.g .HOSTIF_HOQ_SRC_QUEUE f k = q then
        (c.set1 .HOSTIF_HOQ_STAT_STALE f k).raise f (c.g .HOSTIF_HOQ_SRC_VEC f k)
      else c) c) c
  | _ => c

/-- STALE_TIMER_FIRE (R199): a running timer whose time has come fires once. -/
def execStaleTimerFire (r q : Nat) (s : State) : Host.Outcome State Fault Refusal :=
  nextChip s (fun c =>
    let x := c.queue r q
    match x.timer with
    | some t =>
      if t ≤ c.up ∧ ¬ x.linked.isEmpty then
        let c := c.setQueue r q { x with timer := none }
        ((c.set1 .QP_QSTAT_STALE_FIRED r q).set1 .QP_STICKY_STALE r).staleEvent r q
      else c
    | none => c)

end Sys2Proof.Machine
end

