-- ==== Sys2Proof/Machine/Rings.lean ====
section
/-! DEFINITION. The host interface: inbound and outbound rings, vectors, windows, resets of functions and ports (R564–R587,
R600, R606). -/

namespace Sys2Proof.Machine

/-! ### Inbound rings (R571–R575) -/

/-- The function index that a window reaches for a register of the host interface, when the ring exists there. -/
def Chip.ringFn (c : Chip) (fn : Fn) (r : Reg) (q : Nat) : Option Nat :=
  match c.instOf fn r 0 with
  | some f => if idxMapped r f q ∧ q < ringCount f then some f else none
  | none => none

/-- The partition that a ring's copies and packets belong to: a virtual function's own; for a physical function the owner of
the ring's target region. -/
def Chip.ringPart (c : Chip) (f q : Nat) : Option Nat :=
  match vfPart f with
  | some p => some p
  | none => c.owner (c.hiqTarget f q).1

/-- Descriptor index that a ring starts next, none while the ring is disabled, halted, empty or in D3hot (R569, R571, R574). -/
def Chip.hiqNext (c : Chip) (f q : Nat) : Option Nat :=
  let x := c.inRing f q
  let i := (c.g .HOSTIF_HIQ_STAT_HEAD f q + x.jobs.length) % c.hiqSize f q
  if ringCount f ≤ q ∨ 34 ≤ f ∨ ¬ c.on .HOSTIF_HIQ_BASE_EN f q ∨ c.on .HOSTIF_HIQ_STAT_HALTED f q ∨ c.d3.contains f ∨ i = x.tail
    then none else some i

/-- Host address of n bytes at an offset of window V of a function; none unless all lie in the window (R570). -/
def Chip.hostRange (c : Chip) (f off n : Nat) : Option Nat :=
  if c.on .HOSTIF_WIN_EN f ∧ off + n ≤ 4096 * c.g .HOSTIF_WINSZ_PAGES f then some (4096 * c.g .HOSTIF_WIN_BASE f + off) else none

/-- Fields of a descriptor (R572). -/
def hdType (d : List Word) : Nat := wbits (wordAt d 0) 3 0
def hdLen (d : List Word) : Nat := wbits (wordAt d 0) 31 8
/-- Whether every RSVD field of a descriptor is 0. -/
def hdRsvdOk (d : List Word) : Bool := wbits (wordAt d 0) 7 5 == 0 && wbits (wordAt d 0) 63 32 == 0 && wordAt d 3 == 0

/-- Whether a byte of a tier range of a copy lies outside the partition's memory, whoever owns its region (check 6 of R573). -/
def Chip.copyBad (c : Chip) (p a n : Nat) : Bool :=
  if bits a 63 60 = 1 then
    !(bits a 59 36 == 0 && bits a 31 25 == 0 && decide (bits a 24 0 + n ≤ combBase) && !c.inArea (bits a 35 32) (bits a 24 0) n)
  else (c.tierKeys p a n).isNone

/-- First byte of a range that a host copy may not write: while the partition runs, all that the fence holds; while it is
stopped, held ranges, images and root records, but not the areas that host software loads (R58, R361, R362, R450). -/
def Chip.copyFence (c : Chip) (p a n : Nat) : Option Nat :=
  if c.runs p then c.fenceHit p a n
  else
    let rs := (c.mapS p).imgs.map (fun x => (x.2.addr, 8 * x.2.words))
      ++ (c.held.filter (fun h => h.1 == p)).map (fun h => (h.2.1, h.2.2))
    rs.foldl (fun acc r => match acc, overlapAt a n r.1 r.2 with
      | none, x => x
      | some y, some x => some (min x y)
      | some y, none => some y) none

/-- What the checks of R573 say of a descriptor: run, complete with no access, or fail with a STATUS and, for a denied or
blocked one, a report. -/
inductive HdCheck where
  | run
  | skip
  | fail (st : Nat)
  | denied
  | blocked (addr : Nat)
  deriving DecidableEq, Repr

/-- Checks 1–9 of R573 in order. -/
def Chip.hdCheck (c : Chip) (f q : Nat) (d : List Word) : HdCheck :=
  let t := hdType d
  let n := hdLen d
  let bytes := if t = 0 then 8 * n else n
  let ha := (wordAt d 1).toNat
  let ta := (wordAt d 2).toNat
  let tgt := c.hiqTarget f q
  if 3 ≤ t ∨ ¬ hdRsvdOk d then .fail 1
  else if (t = 0 ∧ 512 < n) ∨ (t ≠ 0 ∧ n % 64 ≠ 0) then .fail 2
  else if t ≠ 0 ∧ n = 0 then .skip
  else if ha % (if t = 0 then 8 else 64) ≠ 0 ∨ ta % 64 ≠ 0 then .fail 3
  else if (t ≠ 0 ∧ ¬ (1 ≤ bits ta 63 60 ∧ bits ta 63 60 ≤ 3)) ∨ (t = 0 ∧ ta ≠ 0) then .fail 5
  else if (c.hostRange f ha bytes).isNone then .fail 4
  else
    match c.ringPart f q with
    | none => if t = 0 then .denied else .fail 4
    | some p =>
      if t ≠ 0 ∧ c.copyBad p ta n then .fail 4
      else if (t = 0 ∧ ¬ c.owns p tgt.1) ∨ (t ≠ 0 ∧ bits ta 63 60 = 1 ∧ ¬ c.owns p (bits ta 35 32)) then .denied
      else if t = 1 then
        match c.copyFence p ta n with
        | some a => .blocked a
        | none => if bits ta 63 60 = 1 ∧ c.inRoutine (bits ta 35 32) (bits ta 24 0) n then .fail 6 else .run
      else if t = 0 ∧ ¬ c.on .QP_QCFG_EN tgt.1 tgt.2 then .fail 8
      else .run

/-- The report of a descriptor that ended DENIED (R538, R573): kind 5, its queue or tier address. -/
def Chip.hdDenied (c : Chip) (f q t ta : Nat) : Chip :=
  let tgt := c.hiqTarget f q
  match c.ringPart f q with
  | some p => c.xpart p 5 (c.g .FAB_ID_ID 0) (if t = 0 then 0 else 1) (if t = 0 then tgt.1 + tgt.2 * 16 else ta)
  | none => c

/-- A DMA of a function that ended with HOST_ERR (R579, R587). -/
def Chip.dmaErr (c : Chip) (f : Nat) : Chip := (c.inc .HOSTIF_CNT_COUNT f 1 3).cause f 4

/-- Words of a PACKET descriptor as offered to the queue: END on the last, one NULL word for none (R572, R575). -/
def ringWords (n : Nat) (ws : List Word) (poison : Bool) : List QWord :=
  if n = 0 then [⟨0, 2, false⟩]
  else (List.range n).map (fun i => ⟨wordAt ws i, if i + 1 = n then 1 else 0, poison⟩)

/-- Words offered one after another by a producer, and whether the queue discarded any. -/
def Chip.offerAll (c : Chip) (r q prod : Nat) : List QWord → Chip × Bool
  | [] => (c, false)
  | w :: ws =>
    let (c, res) := c.qWrite r q prod w
    let (c, bad) := c.offerAll r q prod ws
    (c, bad || res == .malformed || res == .overlong || res == .disabled)

/-- Whether two tier ranges share a byte. -/
def rangesMeet (a n b m : Nat) : Bool := (overlapAt a n b m).isSome

/-- A descriptor of a ring started (R572–R575): fetched in ring order, checked, a packet's words written, a copy begun. A
descriptor that would fail, and a PACKET, wait for the earlier ones to complete, and so does a copy whose tier range meets
that of an earlier one. Data shorter than the length asked for is an error completion. -/
def Chip.hiqStart (c : Chip) (f q : Nat) (d : List Word) (data : List Byte) (poison : Bool) : Chip :=
  match c.hiqNext f q with
  | none => c
  | some i =>
    let jobs := (c.inRing f q).jobs
    let t := hdType d
    let n := hdLen d
    let ta := (wordAt d 2).toNat
    if (c.hostRange f (4096 * c.g .HOSTIF_HIQ_BASE_ADDR f q + 32 * i) 32).isNone then
      if jobs.isEmpty then c.hiqHalt f q 4 else c
    else
      let p := (c.ringPart f q).getD 0
      let chk := c.hdCheck f q d
      let waits := !jobs.isEmpty && (t == 0 || chk != .run || jobs.any (fun j => rangesMeet ta n j.taddr j.len))
      if waits then c
      else
        let c := c.meter p 17 32
        let job : InDesc := { kind := t, notify := wbit (wordAt d 0) 4, len := n, haddr := (wordAt d 1).toNat, taddr := ta
                              part := p, data := data, poison := poison }
        let push (c : Chip) (j : InDesc) : Chip := c.setInRing f q { c.inRing f q with jobs := jobs ++ [j] }
        match chk with
        | .skip => push c { job with len := 0, data := [] }
        | .fail st => c.hiqHalt f q st
        | .denied => (c.hdDenied f q t ta).hiqHalt f q 10
        | .blocked a => (c.blockedWrite p 11 a).hiqHalt f q 6
        | .run =>
          if t ≠ 2 ∧ data.length < (if t = 0 then 8 * n else n) then (c.dmaErr f).hiqHalt f q 7
          else
            let c := if poison then c.set1 .HOSTIF_HIQ_STAT_POISON_IN f q else c
            if t = 0 then
              let tgt := c.hiqTarget f q
              let c := c.meter p 17 (8 * n)
              let (c, bad) := (push c job).offerAll tgt.1 tgt.2 (ringProducer f q) (ringWords n (wordsOf n data) poison)
              if bad then c.hiqHalt f q 8 else c
            else push c job

/-- A new TAIL of an inbound ring; one of N or above is dropped (R571). -/
def Chip.hiqTail (c : Chip) (f q tail : Nat) : Chip :=
  let t := tail % 2 ^ 16
  if c.hiqSize f q ≤ t then c.set1 .HOSTIF_HIQ_STAT_DB_ERR f q
  else c.setInRing f q { c.inRing f q with tail := t }

/-- HIQ_DOORBELL (R571). -/
def execHiqDoorbell (fn : Fn) (q tail : Nat) (s : State) : Host.Outcome State Fault Refusal :=
  nextChip s (fun c => match c.ringFn fn .HOSTIF_HIQ_DB q with | none => c | some f => c.hiqTail f q tail)

/-- HIQ_PACKET (R572–R575): the next descriptor of a ring is a PACKET, or one of reserved type. -/
def execHiqPacket (f q : Nat) (desc : List Word) (data : List Byte) (poison : Bool) (s : State) :
    Host.Outcome State Fault Refusal :=
  nextChip s (fun c => if hdType desc = 1 ∨ hdType desc = 2 then c else c.hiqStart f q desc data poison)

/-- HIQ_WRITE (R572–R575): the next descriptor of a ring is a WRITE, its data read from host memory. -/
def execHiqWrite (f q : Nat) (desc : List Word) (data : List Byte) (poison : Bool) (s : State) :
    Host.Outcome State Fault Refusal :=
  nextChip s (fun c => if hdType desc = 1 then c.hiqStart f q desc data poison else c)

/-- HIQ_READ (R572–R574): the next descriptor of a ring is a READ. -/
def execHiqRead (f q : Nat) (desc : List Word) (s : State) : Host.Outcome State Fault Refusal :=
  nextChip s (fun c => if hdType desc = 2 then c.hiqStart f q desc [] false else c)

/-- Granules read at tier addresses and written to host memory, which receives no byte of a poisoned granule (R191). -/
def Chip.toHost (c : Chip) (p port : Nat) : List Nat → Nat → Chip
  | [], _ => c
  | a :: as', h =>
    let (bs, x) := c.readGranule p a []
    let c := match c.tierKey p a with | some k => c.touch k | none => c
    let c := c.meter p (meterOfTier a false) 64
    let c := (c.hostGranule port h bs x).meter p 18 (cleanBytes x)
    c.toHost p port as' (h + 64)

/-- Granules of host data written at tier addresses. -/
def Chip.fromHost (c : Chip) (p : Nat) (poison : Bool) : List Nat → List Byte → Chip
  | [], _ => c
  | a :: as', bs =>
    ((c.writeGranule p a (bs.take 64) (List.replicate 8 poison)).meter p 17 64).fromHost p poison as' (bs.drop 64)

/-- The port of a function. -/
def fnPort (f : Nat) : Nat := if f < 2 then f else (f - 2) / 16

/-- The first k granules of a copy descriptor moved. -/
def Chip.hiqMove (c : Chip) (f : Nat) (j : InDesc) (k : Nat) : Chip :=
  let gs := (List.range k).map (fun i => j.taddr + 64 * i)
  match j.kind with
  | 1 => c.fromHost j.part j.poison gs j.data
  | 2 => c.toHost j.part (fnPort f) gs ((c.hostRange f j.haddr j.len).getD 0)
  | _ => c

/-- Whether the partition of a copy has lost the region that the copy reads or writes (R581). -/
def Chip.copyLost (c : Chip) (j : InDesc) : Bool :=
  decide (0 < j.len) && bits j.taddr 63 60 == 1 && !c.owns j.part (bits j.taddr 35 32)

/-- The first granules of a READ whose region was lost while it ran: sent before the loss, with bytes that the region held
then and holds no longer, so both their number and their bytes are open (R531, R581). -/
def Chip.readLost (c : Chip) (f : Nat) (j : InDesc) : Chip :=
  let (n, c) := c.free 18
  let k := n % (j.len / 64 + 1)
  let (v, c) := c.free (512 * k)
  let h := (c.hostRange f j.haddr j.len).getD 0
  (((List.range k).foldl (fun c i => c.emit (.hostWrite (fnPort f) (h + 64 * i) (leBytes 64 (v / 2 ^ (512 * i))))) c).meter
    j.part (meterOfTier j.taddr false) (64 * k)).meter j.part 18 (64 * k)

/-- Copies cut off while they move data: each has moved its first granules, in a number that the manual leaves open (R569,
R581). What a WRITE had put into a region lost since is cleared by the claim that took it (R531). -/
def Chip.hiqCut (c : Chip) (f : Nat) (js : List InDesc) : Chip :=
  js.foldl (fun c j =>
    if j.kind = 0 then c
    else if c.copyLost j then (if j.kind = 2 then c.readLost f j else c)
    else
      let (n, c) := c.free 18
      c.hiqMove f j (n % (j.len / 64 + 1))) c

/-- An inbound ring reset or disabled: its copies stop at the next granule and its descriptors are discarded (R574, R581). -/
def Chip.hiqStop (c : Chip) (f q : Nat) : Chip := (c.hiqCut f (c.inRing f q).jobs).hiqReset f q

/-- The first descriptor of a ring completed: its data moved, HEAD past it, NOTIFY raised (R574, R580). -/
def Chip.hiqComplete (c : Chip) (f q : Nat) (j : InDesc) : Chip :=
  let c := c.hiqMove f j (j.len / 64)
  let c := c.setInRing f q { c.inRing f q with jobs := (c.inRing f q).jobs.drop 1 }
  let c := c.put .HOSTIF_HIQ_STAT_HEAD f ((c.g .HOSTIF_HIQ_STAT_HEAD f q + 1) % c.hiqSize f q) q
  if j.notify then c.raise f (c.g .HOSTIF_HIQ_CTL_VEC f q) else c

/-- HIQ_DESC_COMPLETE (R574, R575, R579, R581): the first descriptor started completes; a packet once its words are linked; a
copy whose region the partition no longer owns ends DENIED. -/
def execHiqDescComplete (f q : Nat) (s : State) : Host.Outcome State Fault Refusal :=
  nextChip s (fun c =>
    match (c.inRing f q).jobs with
    | [] => c
    | j :: _ =>
      let tgt := c.hiqTarget f q
      if c.d3.contains f then c
      else if j.kind = 0 then
        if (c.queue tgt.1 tgt.2).waiting.any (fun w => w.1 == ringProducer f q) then c else c.hiqComplete f q j
      else if c.copyLost j then ((c.hiqCut f (c.inRing f q).jobs).hdDenied f q j.kind j.taddr).hiqHalt f q 10
      else c.hiqComplete f q j)

/-- HIQ_SKIP (R574): HEAD moves past the descriptor that halted the ring, and the ring resumes. -/
def execHiqSkip (fn : Fn) (q : Nat) (s : State) : Host.Outcome State Fault Refusal :=
  nextChip s (fun c =>
    match c.ringFn fn .HOSTIF_HIQ_CTL q with
    | none => c
    | some f =>
      if ¬ c.on .HOSTIF_HIQ_STAT_HALTED f q then c
      else (c.put .HOSTIF_HIQ_STAT_HEAD f ((c.g .HOSTIF_HIQ_STAT_HEAD f q + 1) % c.hiqSize f q) q).put
        .HOSTIF_HIQ_STAT_HALTED f 0 q)

/-- HIQ_RESET (R574, R581). -/
def execHiqReset (fn : Fn) (q : Nat) (s : State) : Host.Outcome State Fault Refusal :=
  nextChip s (fun c => match c.ringFn fn .HOSTIF_HIQ_CTL q with | some f => c.hiqStop f q | none => c)

/-- Whether a region is one of those that a function's partition names, on the port the partition is bound to (R529, R567, R584,
R585); a physical function's rings may name any region. -/
def Chip.ringReach (c : Chip) (f r : Nat) : Bool :=
  match vfPart f with
  | some p => bit (c.g .PART_TBL_REGIONS p) r && c.fnOf p == f
  | none => true

/-- A write of a ring's BASE that would enable it without a lawful queue is dropped with BAD_CFG (R567, R584, R585). -/
def Chip.ringBad (c : Chip) (f : Nat) : Chip := c.cause f 7

/-- A word with a field held at most at m. -/
def capField (hi lo m : Nat) (w : Word) : Word := if m < wbits w hi lo then wset w hi lo m else w

/-- The BASE of an inbound ring written (R567, R584): EN = 0 discards the ring's descriptors. -/
def Chip.hiqBase (c : Chip) (f q : Nat) (w : Word) : Chip :=
  if wbit w 0 ∧ ¬ c.ringReach f (c.hiqTarget f q).1 then c.ringBad f
  else
    let c := if wbit w 0 then c else c.hiqStop f q
    c.wr .HOSTIF_HIQ_BASE f (wset (capField 4 1 12 w) 11 5 0) q

/-- HIQ_BASE_WRITE (R567, R584). -/
def execHiqBaseWrite (fn : Fn) (q : Nat) (data : Word) (s : State) : Host.Outcome State Fault Refusal :=
  nextChip s (fun c => match c.ringFn fn .HOSTIF_HIQ_BASE q with | none => c | some f => c.hiqBase f q data)

/-! ### Outbound rings (R576–R578) -/

/-- Whether a function sees the queues of a region: a virtual function only while its partition owns the region (R532). -/
def Chip.sees (c : Chip) (f r : Nat) : Bool := match vfPart f with | some p => c.owns p r | none => true

/-- The queue that an outbound ring drains. -/
def Chip.hoqSource (c : Chip) (f q : Nat) : Nat × Nat := (c.g .HOSTIF_HOQ_SRC_REGION f q, c.g .HOSTIF_HOQ_SRC_QUEUE f q)

/-- The head packet of a queue without taking it: its data words, none for a NULL, and whether it carries poison (R203, R576). -/
def QueueS.headData (x : QueueS) : Option (List (Word × Bool) × Bool) :=
  if x.broken then some ([], true)
  else
    match x.linked with
    | [] => none
    | k :: _ => some (if k.null then [] else k.words, k.words.any Prod.snd)

/-- The header of a packet (R576). -/
def hoqHeader (phase w pseq : Nat) (ws : List (Word × Bool)) (bad : Bool) : Word :=
  Word.ofNat (phase + w % 2 ^ 10 * 2 ^ 8 + b2n bad * 2 ^ 18
    + (if ws.any Prod.snd then ws.findIdx Prod.snd else 0) % 2 ^ 9 * 2 ^ 19 + pseq % 2 ^ 16 * 2 ^ 32)

/-- Host writes of the words of a packet into consecutive slots from a position counted in words (R576, R577). -/
def Chip.hoqWords (c : Chip) (port base n : Nat) : Nat → List (Word × Bool) → Chip
  | _, [] => c
  | i, (w, b) :: ws =>
    (c.emit (.hostWrite port (base + i % (8 * n) * 8) (leBytes 8 (if b then 0 else w.toNat)))).hoqWords port base n (i + 1) ws

/-- The interrupt of an outbound ring (R578). -/
def Chip.hoqRaise (c : Chip) (f q : Nat) : Chip :=
  (c.setOutRing f q { c.outRing f q with cnt := 0 }).raise f (c.g .HOSTIF_HOQ_SRC_VEC f q)

/-- A packet counted by the moderation of its ring, which raises the vector when CNT is reached or TIME is 0 (R578). -/
def Chip.hoqCount (c : Chip) (f q : Nat) : Chip :=
  let x := c.outRing f q
  let first := if x.cnt = 0 then c.up else x.first
  let c := c.setOutRing f q { x with pseq := x.pseq + 1, cnt := x.cnt + 1, first := first }
  if c.g .HOSTIF_HOQ_MOD_TIME f q = 0 ∨ max 1 (c.g .HOSTIF_HOQ_MOD_CNT f q) ≤ x.cnt + 1 then c.hoqRaise f q else c

/-- A packet written to the ring at its TAIL, data words first and the header last; TAIL moves, PHASE toggles at a wrap
(R576, R577). -/
def Chip.hoqPut (c : Chip) (f q base : Nat) (ws : List (Word × Bool)) (bad : Bool) : Chip :=
  let n := c.hoqSize f q
  let w := ws.length
  let sl := cdiv (w + 1) 8
  let tail := c.g .HOSTIF_HOQ_STAT_TAIL f q
  let ph := c.g .HOSTIF_HOQ_STAT_PHASE f q
  let c := c.hoqWords (fnPort f) base n (8 * tail + 1) ws
  let c := c.emit (.hostWrite (fnPort f) (base + 64 * tail) (leBytes 8 (hoqHeader ph w (c.outRing f q).pseq ws bad).toNat))
  let c := match c.owner (c.hoqSource f q).1 with | some p => c.meter p 18 (8 * (w + 1)) | none => c
  let c := (c.put .HOSTIF_HOQ_STAT_TAIL f ((tail + sl) % n) q).put .HOSTIF_HOQ_STAT_FULL f 0 q
  if n ≤ tail + sl then c.put .HOSTIF_HOQ_STAT_PHASE f (1 - ph) q else c

/-- Slots of an outbound ring free to write: (HEAD − TAIL − 1) mod N (R577). -/
def Chip.hoqRoom (c : Chip) (f q : Nat) : Nat :=
  let n := c.hoqSize f q
  ((c.outRing f q).head + 2 * n - c.g .HOSTIF_HOQ_STAT_TAIL f q - 1) % n

/-- HOQ_PACKET_WRITE (R532, R576–R578, R580): the next packet of the drained queue, one of CKIND 4 in a region that the function's
partition owns, is written when its slots are free, data words first and the header last, and the ring's vector is raised under its moderation. -/
def execHoqPacketWrite (f q : Nat) (s : State) : Host.Outcome State Fault Refusal :=
  nextChip s (fun c =>
    let src := c.hoqSource f q
    if 34 ≤ f ∨ ringCount f ≤ q ∨ ¬ c.on .HOSTIF_HOQ_BASE_EN f q ∨ c.d3.contains f ∨ ¬ c.sees f src.1
        ∨ c.g .QP_QCFG_CKIND src.1 src.2 ≠ 4 then c
    else
      match (c.queue src.1 src.2).headData, c.qTake src.1 src.2 with
      | some (ws, bad), some (_, c') =>
        if c.hoqRoom f q < cdiv (ws.length + 1) 8 then c.set1 .HOSTIF_HOQ_STAT_FULL f q
        else
          match c.hostRange f (4096 * c.g .HOSTIF_HOQ_BASE_ADDR f q) (64 * c.hoqSize f q) with
          | none => c
          | some base => (c'.hoqPut f q base ws bad).hoqCount f q
      | _, _ => c)

/-- HOQ_MODERATION_TIMER (R578): TIME µs after the first packet since the last interrupt. -/
def execHoqModerationTimer (f q : Nat) (s : State) : Host.Outcome State Fault Refusal :=
  nextChip s (fun c =>
    let x := c.outRing f q
    let t := c.g .HOSTIF_HOQ_MOD_TIME f q
    if 34 ≤ f ∨ x.cnt = 0 ∨ t = 0 ∨ c.up < x.first + 1000 * t ∨ ¬ c.on .HOSTIF_HOQ_BASE_EN f q then c else c.hoqRaise f q)

/-- A new HEAD of an outbound ring; one of N or above is dropped (R577). -/
def Chip.hoqHead (c : Chip) (f q head : Nat) : Chip :=
  let h := head % 2 ^ 16
  if c.hoqSize f q ≤ h then c.set1 .HOSTIF_HOQ_STAT_DB_ERR f q
  else (c.setOutRing f q { c.outRing f q with head := h }).put .HOSTIF_HOQ_STAT_FULL f 0 q

/-- HOQ_DOORBELL (R577). -/
def execHoqDoorbell (fn : Fn) (q head : Nat) (s : State) : Host.Outcome State Fault Refusal :=
  nextChip s (fun c => match c.ringFn fn .HOSTIF_HOQ_DB q with | none => c | some f => c.hoqHead f q head)

/-- The BASE of an outbound ring written (R567, R576, R581, R585): enabling checks the drained queue and restarts TAIL and PHASE;
disabling leaves the queue's packets in place. -/
def Chip.hoqBase (c : Chip) (f q : Nat) (w : Word) : Chip :=
  let src := c.hoqSource f q
  if wbit w 0 ∧ ¬ (c.ringReach f src.1 ∧ c.g .QP_QCFG_CKIND src.1 src.2 = 4) then c.ringBad f
  else
    let start := wbit w 0 && !c.on .HOSTIF_HOQ_BASE_EN f q
    let c := c.wr .HOSTIF_HOQ_BASE f (wset (capField 4 1 9 w) 11 5 0) q
    if start then
      ((c.put .HOSTIF_HOQ_STAT_TAIL f 0 q).put .HOSTIF_HOQ_STAT_PHASE f 1 q).setOutRing f q { c.outRing f q with pseq := 0, cnt := 0 }
    else c

/-- HOQ_BASE_WRITE (R567, R576, R581, R585). -/
def execHoqBaseWrite (fn : Fn) (q : Nat) (data : Word) (s : State) : Host.Outcome State Fault Refusal :=
  nextChip s (fun c => match c.ringFn fn .HOSTIF_HOQ_BASE q with | none => c | some f => c.hoqBase f q data)

/-! ### Vectors and windows (R579, R583) -/

/-- MSIX_UNMASK (R579): a vector's mask is cleared, and its pending message sent. -/
def execMsixUnmask (f vec : Nat) (s : State) : Host.Outcome State Fault Refusal :=
  nextChip s (fun c =>
    if 34 ≤ f ∨ vecCount f ≤ vec ∨ ¬ c.on .MSIX_DATA_MASK f vec then c
    else (c.put .MSIX_DATA_MASK f 0 vec).sendPending f vec)

/-- Whether a ring of a function is enabled. -/
def Chip.ringOn (c : Chip) (f : Nat) : Bool :=
  (List.range (ringCount f)).any (fun q => c.on .HOSTIF_HIQ_BASE_EN f q || c.on .HOSTIF_HOQ_BASE_EN f q)

/-- Base registers of the windows. -/
def winBase (r : Reg) : Bool := r == .HOSTIF_WIN || r == .HOSTIF_RWIN
/-- Registers of window P, one for each partition. -/
def winRack (r : Reg) : Bool := r == .HOSTIF_RWIN || r == .HOSTIF_RWINSZ

/-- The window registers. -/
def winReg (r : Reg) : Bool := winBase r || winRack r || r == .HOSTIF_WINSZ

/-- A window register set to a word, unless a ring of the function is enabled or its partition runs (R583). -/
def Chip.winWrite (c : Chip) (l : Loc) (data : Word) : Chip :=
  let f := if winRack l.reg then c.portOf l.idx else l.inst
  let part := if winRack l.reg then some l.idx else vfPart l.inst
  if c.ringOn f || (match part with | some p => c.runs p | none => false) then c.ringBad f
  else c.wr l.reg l.inst (if winBase l.reg then wset data 11 1 0 else wset data 63 45 0) l.idx

/-- WINDOW_WRITE (R12, R570, R583): a write of a window register is dropped with BAD_CFG while a ring of the function is
enabled or its partition runs. At its own offset the write is one of 64 bits; 4 B above it reaches the high half alone. -/
def execWindowWrite (fn : Fn) (off : Nat) (data : Word) (s : State) : Host.Outcome State Fault Refusal :=
  nextChip s (fun c =>
    match c.locate fn off with
    | none => c
    | some l =>
      let w := if l.byte = 4 then c.merged l.reg l.inst l.idx 63 32 (data.toNat % 2 ^ 32 * 2 ^ 32) else data
      if winReg l.reg ∧ (l.byte = 0 ∨ l.byte = 4) then c.winWrite l w else c)

/-! ### Function and port resets (R569, R586, R600, R606) -/

/-- The registers that a Function Level Reset returns to reset values. -/
def flrRegs : List Reg :=
  [.HOSTIF_CTL, .HOSTIF_WIN, .HOSTIF_WINSZ, .HOSTIF_CAUSE, .HOSTIF_CVEC, .HOSTIF_CNT, .HOSTIF_HIQ_BASE, .HOSTIF_HIQ_CTL]
  ++ [.HOSTIF_HIQ_DB, .HOSTIF_HIQ_STAT, .HOSTIF_HOQ_BASE, .HOSTIF_HOQ_SRC, .HOSTIF_HOQ_DB, .HOSTIF_HOQ_MOD, .HOSTIF_HOQ_STAT]
  ++ [.MSIX_ADDR, .MSIX_DATA, .MSIX_PBA]

/-- A transfer cut off while it moves data: its first granules are copied, in a number that the manual leaves open, and so
are the bytes that the host had answered (R569). -/
def Chip.xferCut (c : Chip) (p : Nat) (x : XferJob) : Chip :=
  let gs := xfGranules x.words
  let (n, c) := c.free 48
  let k := n % (gs.length + 1)
  let (v, c) := c.free (512 * k)
  (c.copyGranules p (gs.take k) 0 (leBytes (64 * k) v) none).1

/-- Transfers of a partition through its host window are cancelled at the next granule (R569). -/
def Chip.cancelDma (c : Chip) (p : Nat) : Chip :=
  let host (x : XferJob) : Bool := c.partOfCl x.cl == p && x.accepted
    && (xfRowList x.words).any (fun r => bits r.1 63 60 == 4 || bits r.2 63 60 == 4)
  (c.regionsOf p).foldl (fun c r =>
    let l := sget [] c.xfers r
    let c := { c with xfers := sset [] c.xfers r (l.filter (fun x => !host x)) }
    (l.filter host).foldl (fun c x => (c.xferCut p x).finish x.cl x.id { order := 0, status := stCancelled }) c) c

/-- A function reset: its rings, DMA, vectors, window V and registers (R569). -/
def Chip.fnReset (c : Chip) (f : Nat) : Chip :=
  let c := (List.range (ringCount f)).foldl (fun c q => c.hiqStop f q) c
  let c := { c with
    inRings := c.inRings.filter (fun x => x.1 / 64 != f)
    outRings := c.outRings.filter (fun x => x.1 / 64 != f)
    d3 := c.d3.filter (· != f) }
  let c := match vfPart f with | some p => if c.fnOf p = f then c.cancelDma p else c | none => c
  flrRegs.foldl (fun c r => c.regResetAll r f) c

/-- A physical function reset with its virtual functions and window P of the partitions bound to its port (R569, R586). -/
def Chip.portFnReset (c : Chip) (port : Nat) : Chip :=
  let c := (rangeFrom (2 + 16 * port) 16).foldl (fun c f => c.fnReset f) (c.fnReset port)
  ((List.range 16).filter (fun p => c.portOf p == port)).foldl
    (fun c p => (c.regReset .HOSTIF_RWIN 0 p).regReset .HOSTIF_RWINSZ 0 p) c

/-- VF_FLR (R569, R581, R586). -/
def execVfFlr (port v : Nat) (s : State) : Host.Outcome State Fault Refusal :=
  nextChip s (fun c => if 2 ≤ port ∨ v < 1 ∨ 16 < v then c else c.fnReset (2 + 16 * port + (v - 1)))

/-- PF_FLR (R569, R581, R586). -/
def execPfFlr (port : Nat) (s : State) : Host.Outcome State Fault Refusal :=
  nextChip s (fun c => if 2 ≤ port then c else c.portFnReset port)

/-- PORT_RESET (R569, R600, R606): PERST#, hot reset or link-down resets the functions of one port. -/
def execPortReset (port : Nat) (s : State) : Host.Outcome State Fault Refusal :=
  nextChip s (fun c =>
    if 2 ≤ port then c
    else
      let c := c.portFnReset port
      { c with boot := { c.boot with perst := c.boot.perst.filter (· != port), ready := c.boot.ready.filter (· != port) } })

/-- D3HOT_ENTER (R569): the function issues no DMA and no interrupts; its rings hold their position. -/
def execD3hotEnter (f : Nat) (s : State) : Host.Outcome State Fault Refusal :=
  nextChip s (fun c => if 34 ≤ f ∨ c.d3.contains f then c else { c with d3 := c.d3 ++ [f] })

/-- D0_RETURN (R569): the function's rings resume, and vectors held pending are sent. -/
def execD0Return (f : Nat) (s : State) : Host.Outcome State Fault Refusal :=
  nextChip s (fun c =>
    if ¬ c.d3.contains f then c
    else (List.range (vecCount f)).foldl (fun c v => c.sendPending f v) { c with d3 := c.d3.filter (· != f) })

/-- PERST_DEASSERT (R600): the port trains its link and answers configuration requests with Retry Status. -/
def execPerstDeassert (port : Nat) (s : State) : Host.Outcome State Fault Refusal :=
  nextChip s (fun c =>
    if 2 ≤ port ∨ c.boot.perst.contains port then c
    else { c with boot := { c.boot with perst := c.boot.perst ++ [port] } })

/-- HOST_READY_SET (R600): never before Ringmaster has started, and not in RECOVERY (R594). -/
def execHostReadySet (port : Nat) (s : State) : Host.Outcome State Fault Refusal :=
  nextChip s (fun c =>
    if 2 ≤ port ∨ ¬ c.boot.perst.contains port ∨ c.boot.rmAt.isNone ∨ c.boot.ready.contains port then c
    else { c with boot := { c.boot with ready := c.boot.ready ++ [port] } })

end Sys2Proof.Machine
end

