-- ==== Sys2Proof/Machine/RegWrite.lean ====
section
/-! DEFINITION. REGISTER_WRITE (R12–R18, R37, R568), and the registers whose write is an operation of its own: grants, quantum
ends, link enables, windows, ring bases and doorbells, PLIM, queue, Racking and Carousel enables. -/

namespace Sys2Proof.Machine

/-! ### Quantum ends and grants (R536, R537, R539) -/

/-- YREQ set (R539, R579). -/
def Chip.yieldRequest (c : Chip) (p : Nat) : Chip :=
  if c.on .PART_STAT_YREQ p then c else (c.set1 .PART_STAT_YREQ p).partCause p 1

/-- Whether a running partition's quantum has ended. -/
def Chip.quantumOver (c : Chip) (p : Nat) : Bool :=
  c.g .PART_STAT_STATE p == 3 && c.g .PART_QEND_QEND p != 0 && decide (c.g .PART_QEND_QEND p ≤ c.now)

/-- `PART_QEND` written: accepted from the physical function and Ringmaster's window; one in the past sets YREQ at once (R539). -/
def Chip.qendWrite (c : Chip) (fn : Fn) (p : Nat) (w : Word) : Chip :=
  if ¬ fnPriv fn then c
  else
    let c := c.wr .PART_QEND p w
    if c.quantumOver p then c.yieldRequest p else c

/-- A grant written: Ringmaster alone writes grants, and only while the partition is stopped; a write from a function, or of
VALID at an index of CGRANT_MAX or above, is dropped and recorded (R17, R536, R537). -/
def Chip.cgrantWrite (c : Chip) (fn : Fn) (p i : Nat) (w : Word) : Chip :=
  if fn ≠ .rm ∨ (wbit w 24 ∧ c.g .PART_TBL_CGRANT_MAX p ≤ i) then
    ((c.set1 .PART_STAT_REFUSED p).put .PART_VIOL_REF_TID p (wbits w 23 0)).put .PART_VIOL_REF_CAUSE p 2
  else if c.runs p then c.lockViol p (Reg.PART_CGRANT.offset p i)
  else c.wr .PART_CGRANT p (Word.ofNat (wbits w 24 0)) i

/-! ### One place written -/

/-- LEN written: each bit that rises brings its link up, and each that falls disables it (R400, R434). -/
def Chip.lenWrite (c : Chip) (v : Nat) : Chip :=
  (List.range 6).foldl (fun c d => if bit v d then c.linkOn d else c.linkOff d) c

/-- The bits [hi:lo] of a place written (R12, R15–R18): by the register's own operation where it has one, with the rest of its
word as it is, and else field by field. -/
def Chip.writeLoc (c : Chip) (fn : Fn) (l : Loc) (hi lo d : Nat) : Chip :=
  let w := c.merged l.reg l.inst l.idx hi lo d
  if winReg l.reg then c.winWrite l w
  else match l.reg with
  | .PART_QEND => c.qendWrite fn l.inst w
  | .PART_CGRANT => c.cgrantWrite fn l.inst l.idx w
  | .FAB_CTL => c.lenWrite (wbits w 5 0)
  | .CAR_CTL => c.carCtlWrite fn l.inst d
  | .CAR_SEGS => c.carSegsWrite l.inst d
  | .HOSTIF_HIQ_BASE => c.hiqBase l.inst l.idx w
  | .HOSTIF_HIQ_DB => c.hiqTail l.inst l.idx d
  | .HOSTIF_HOQ_BASE => c.hoqBase l.inst l.idx w
  | .HOSTIF_HOQ_DB => c.hoqHead l.inst l.idx d
  | .QP_QCFG => c.writeQcfg fn l.inst l.idx hi lo d
  | .RACK_CTL => c.rackCtlWrite fn l.inst d
  | _ => c.writeReg fn l hi lo d

/-- The clock island of a place: regions 0–15, then clusters (R34, R37). -/
def islandOf (l : Loc) : Option Nat :=
  match l.reg with
  | .RGN_CLK => some l.inst
  | .CLU_CLK => some (16 + l.inst)
  | _ => none

/-- MIN, MAX and FIXED of an island written; values outside 12–40 are stored as the nearer bound (R37). -/
def Island.writeClk (x : Island) (d : Nat) : Island :=
  { x with min := clamp 12 40 (bits d 5 0), max := clamp 12 40 (bits d 13 8), fixed := bit d 30 }

/-- PLIM set, within its limits, in all three copies (R627, R634, R641). -/
def State.plimWrite (s : State) (v : Nat) : State :=
  { s with
    pwr := { s.pwr with plim := clamp 2000 3500 v }
    chip := { s.chip with upsets := s.chip.upsets.filter (fun u => u.reg != .PWR_CTL) } }

/-- The bits [hi:lo] of a place written; clocks and PLIM lie with the clocks and the limiter. -/
def State.writeLoc (s : State) (fn : Fn) (l : Loc) (hi lo d : Nat) : State :=
  match islandOf l with
  | some i => { s with pwr := s.pwr.setIsland i ((s.pwr.island i).writeClk d) }
  | none => if l.reg = .PWR_CTL then s.plimWrite (bits d 12 0) else s.onChip (fun c => c.writeLoc fn l hi lo d)

/-! ### BAR0 writes (R12, R14, R568) -/

/-- One aligned word of 4 B written, and whether the offset is mapped. -/
def State.write4 (s : State) (fn : Fn) (off d : Nat) : State × Bool :=
  match s.chip.locate fn off with
  | some l => (s.writeLoc fn l (8 * l.byte + 31) (8 * l.byte) (d % 2 ^ 32 * 2 ^ (8 * l.byte)), true)
  | none => (s, inLog fn off)

/-- A write of size bytes by a function at a BAR0 offset (R12, R14, R568): an aligned 64-bit access to a 64-bit register is one
write, any other of 8 B is two of 4 B. -/
def State.barWrite (s : State) (fn : Fn) (off size : Nat) (data : Word) : State :=
  let d := data.toNat
  let lost (s : State) : State := s.onChip (fun c => c.unmapped fn 1)
  if 0x79000 ≤ off ∧ off < 0x7A000 ∧ (fnPriv fn ∨ fn = .bmc) then s.onChip (fun c => c.writeChgBytes off (min size 8) d)
  else if off % 4 ≠ 0 ∨ ¬ (size = 4 ∨ size = 8) then s.onChip (fun c => c.badSize fn)
  else
    match s.chip.locate fn off with
    | some l =>
      if size = 8 ∧ off % 8 = 0 ∧ l.reg.info.width = 64 ∧ l.byte = 0 then s.writeLoc fn l 63 0 d
      else
        let (s, _) := s.write4 fn off d
        if size = 8 then
          let (s, ok) := s.write4 fn (off + 4) (d / 2 ^ 32)
          if ok then s else lost s
        else s
    | none =>
      let (s, ok) := if size = 8 then s.write4 fn (off + 4) (d / 2 ^ 32) else (s, true)
      if inLog fn off ∧ ok then s else lost s

/-- REGISTER_WRITE (R12–R18, R37, R568): a write by a function at a BAR0 offset takes effect field by field, a field with an
operation of its own by that operation. -/
def execRegisterWrite (fn : Fn) (off size : Nat) (data : Word) (s : State) : Host.Outcome State Fault Refusal :=
  .next (s.barWrite fn off size data)

end Sys2Proof.Machine
end

