-- ==== Sys2Proof/Machine/Partitions.lean ====
section
/-! DEFINITION. Partitions: claims, starts and stops, quanta and fences, class C grants, profiles, parked regions and
self-refresh (R529–R545, R605, R623). -/

namespace Sys2Proof.Machine

/-- Claims and fences of a partition. -/
def Chip.partS (c : Chip) (p : Nat) : PartS := sget {} c.parts p
/-- Claims and fences of a partition replaced. -/
def Chip.setPartS (c : Chip) (p : Nat) (x : PartS) : Chip := { c with parts := sset {} c.parts p x }

/-- The regions that a partition's definition names (R529). -/
def Chip.defRegions (c : Chip) (p : Nat) : List Nat :=
  (List.range 16).filter (fun r => bit (c.g .PART_TBL_REGIONS p) r)

/-- Whether a function may command a partition's `PART_CTL`: the physical function or Ringmaster's window (R534). -/
def Chip.partCmd (c : Chip) (fn : Fn) (p : Nat) : Bool := fnPriv fn && c.reaches fn .PART_CTL p

/-- A command refused: CMD_REF with its CAUSE (R531, R534). -/
def Chip.partRefuse (c : Chip) (p cause : Nat) : Chip := (c.set1 .PART_STAT_CMD_REF p).put .PART_STAT_CAUSE p cause

/-! ### Profiles (R21, R593, R605) -/

/-- A PROFILE entry that sets a field: its register and lsb and width name a B field whole, and its value fits. -/
def entrySets (r : Reg) (f : FieldInfo) (e : Word) : Bool :=
  !f.expert && Config.profileReg (wbits e 7 0) (wbits e 15 8) == r.code && wbits e 23 16 == f.lo
    && wbits e 31 24 == f.hi + 1 - f.lo && decide (wbits e 63 32 < 2 ^ (f.hi + 1 - f.lo))

/-- The value that the selected profile gives a field: the last entry that names it, else the firmware's fill; none when no
profile record is selected (R605). -/
def Chip.profileValue (c : Chip) (p : Nat) (r : Reg) (f : FieldInfo) : Option Nat :=
  let n := c.g .BOOT_PROFSEL_PROFILE p
  match c.cfg.profiles.find? (fun x => x.1 == n && n != 15) with
  | none => none
  | some (_, es) =>
    match (es.filter (entrySets r f)).getLast? with
    | some e => some (wbits e 63 32)
    | none => some (Config.profileFill n r.code f.lo)

/-- Instances of a register that belong to a partition. -/
def Chip.partInsts (c : Chip) (p : Nat) (r : Reg) : List Nat :=
  match r.info.kind with
  | .P => [p]
  | .R => c.regionsOf p
  | .C => c.clustersOf p
  | .U => (c.clustersOf p).flatMap unitsOf
  | _ => []

/-- The word that the selected profile derives for a register: its software-writable fields, and no clear of a sticky bit. -/
def Chip.profileWord (c : Chip) (p : Nat) (r : Reg) (i j : Nat) : Word :=
  r.fields.foldl (fun w f => match f.acc with
    | .RW => if f.da then w else match c.profileValue p r f with | some v => wset w f.hi f.lo v | none => w
    | .W1C => wset w f.hi f.lo 0
    | _ => w) (c.rd r i j)

/-- The selected profile applied to one register instance by a write of Ringmaster's: every software-writable field, by the
register's own operation where it has one. The clocks follow with `Power.applyProfile`. -/
def Chip.profileReg (c : Chip) (p : Nat) (r : Reg) (i j : Nat) : Chip :=
  if r.fields.any (fun f => f.acc == .RW && !f.da) then c.writeLoc .rm ⟨r, i, j, 0⟩ 63 0 (c.profileWord p r i j).toNat else c

/-- PROFILE_APPLY (R605): the selected profile applied to every block of a partition. -/
def Chip.applyProfile (c : Chip) (p : Nat) : Chip :=
  if (c.profileValue p .HUB_SEED ⟨63, 0, .RW, true, false, 0, false⟩).isNone then c
  else
    Reg.all.foldl (fun c r => (c.partInsts p r).foldl (fun c i =>
      (List.range r.info.count).foldl (fun c j => c.profileReg p r i j) c) c) c

/-- The clock bounds of a partition's islands under its selected profile (R37, R605). -/
def Power.applyProfile (pw : Power) (c : Chip) (p : Nat) : Power :=
  let field (r : Reg) (hi lo d : Nat) : Nat :=
    match r.fields.find? (fun f => f.lo == lo) with
    | some f => (c.profileValue p r f).getD d % 2 ^ (hi + 1 - lo)
    | none => d
  let apply (pw : Power) (i : Nat) (r : Reg) : Power :=
    let x := pw.island i
    pw.setIsland i (x.writeClk (field r 5 0 x.min + field r 13 8 x.max * 2 ^ 8 + field r 30 30 (b2n x.fixed) * 2 ^ 30))
  let pw := (c.regionsOf p).foldl (fun pw r => apply pw r .RGN_CLK) pw
  (c.clustersOf p).foldl (fun pw cl => apply pw (16 + cl) .CLU_CLK) pw

/-! ### START and STOP (R534, R535, R541) -/

/-- The first condition of START that fails, 0 when it is accepted (R534). -/
def Chip.startCause (c : Chip) (p : Nat) : Nat :=
  let st := c.g .PART_STAT_STATE p
  if ¬ c.on .PART_TBL_VALID p then 1
  else if ¬ (st = 1 ∨ st = 5 ∨ st = 6) ∨ (c.partS p).fencing then 2
  else if (c.defRegions p).any (fun r => !c.owns p r) then 3
  else 0

/-- A halted sequencer at the start of its partition: it resumes where its cause's condition holds (R250, R534). -/
def Chip.startSeq (c : Chip) (cl : Nat) : Chip :=
  let h := (c.seq cl).halt
  if 5 ≤ h ∧ h ≤ 7 then (c.haltSeq cl 0).checkCmdq cl else c.resumeSeq cl

/-- A partition started: profile, mapping slot, root tables, RUNNING, phase 7 on a refresh, sequencers resumed. -/
def Chip.startPart (c : Chip) (p : Nat) : Chip :=
  let st := c.g .PART_STAT_STATE p
  let c := if st = 1 then c.applyProfile p else c
  let c := if st = 5 then c else c.activate p (c.g .CAR_CTL_START_SLOT p) (c.g .CAR_CTL_START_LEPOCH p)
  let c := ((c.regionsOf p).foldl (fun c r => c.loadRootTable r) c).setPart p 3
  let c := if c.on .INT_RCV_REFRESH p
    then (c.enrolled p).foldl (fun c cl => c.setSeq cl { c.seq cl with phase := 7 }) c else c
  ((c.enrolled p).foldl (fun c cl => c.startSeq cl) c).showPhase p

/-- PART_START (R17, R534, R605): the first condition that fails is recorded; else the partition runs. -/
def execPartStart (fn : Fn) (p : Nat) (s : State) : Host.Outcome State Fault Refusal :=
  let c := s.chip
  if ¬ c.partCmd fn p then .next s
  else if c.startCause p ≠ 0 then .next (s.onChip (fun c => c.partRefuse p (c.startCause p)))
  else
    let pw := if c.g .PART_STAT_STATE p = 1 ∧ (c.cfg.profiles.any (fun x => x.1 == c.g .BOOT_PROFSEL_PROFILE p))
      then s.pwr.applyProfile c p else s.pwr
    .next { s with chip := c.startPart p, pwr := pw }

/-- PART_STOP (R535, R545): a running partition halts every sequencer with cause STOP; one that drains for a yield ends
STOPPED. -/
def execPartStop (fn : Fn) (p : Nat) (s : State) : Host.Outcome State Fault Refusal :=
  nextChip s (fun c =>
    if ¬ c.partCmd fn p then c
    else
      let st := c.g .PART_STAT_STATE p
      if st = 3 then
        let c := (c.set1 .PART_CTL_STOP p).setPart p 4
        (c.clustersOf p).foldl (fun c cl => if (c.seq cl).halt = 0 then c.haltSeq cl 1 else c) c
      else if st = 4 then c.set1 .PART_CTL_STOP p
      else c)

/-- Whether an outstanding command holds a stop: not a CALL that encloses the stream, not the SEAL of a step already voted
for, not the marker of a mismatched epoch (R535, R519). -/
def Chip.holdsStop (c : Chip) (p cl : Nat) (o : OutCmd) : Bool :=
  let s := c.seq cl
  let parked := o.id == s.agreeId && ((s.agree.isSeal && c.on .HUB_STEP_READY_SENT p) || s.halt == 7)
  o.isOpen && !o.isCall && !parked

/-- Whether nothing of a partition is under way (R535): commands, solves, Racking moves, void pass. -/
def Chip.drained (c : Chip) (p : Nat) : Bool :=
  (c.clustersOf p).all (fun cl => (c.seq cl).outst.all (fun o => !c.holdsStop p cl o)
      && (c.rackLane cl).frames.all (fun f => f.st != .spilling && f.st != .fetching))
    && (c.regionsOf p).all (fun r => (c.solver r).slots.all (fun s => s.stage == .ended || s.stage == .recorded))
    && (c.upd p).void.isEmpty

/-- A partition that leaves RUNNING and STOPPING for a stopped state: YREQ and STOP clear (R533, R539, R561). -/
def Chip.rest (c : Chip) (p st : Nat) : Chip :=
  ((c.setPart p st).put .PART_STAT_YREQ p 0).put .PART_CTL_STOP p 0

/-- STOP_COMPLETE (R346, R535). -/
def execStopComplete (p : Nat) (s : State) : Host.Outcome State Fault Refusal :=
  nextChip s (fun c =>
    if c.g .PART_STAT_STATE p = 4 ∧ c.on .PART_CTL_STOP p ∧ ¬ (c.partS p).fencing ∧ c.drained p then
      ((c.regionsOf p).foldl (fun c r => c.solverStop r) c).rest p 1
    else c)

/-- YIELD_COMPLETE (R541). -/
def execYieldComplete (p : Nat) (s : State) : Host.Outcome State Fault Refusal :=
  nextChip s (fun c =>
    if c.g .PART_STAT_STATE p = 4 ∧ ¬ c.on .PART_CTL_STOP p ∧ ¬ (c.partS p).fencing ∧ c.drained p then c.rest p 5 else c)

/-! ### Claims (R531, R545) -/

/-- Whether a register key lies in a region's unit, cluster or region registers. -/
def keyInRegion (r k : Nat) : Bool :=
  let i := k / 4096 % 2048
  match (Reg.ofCode (k / (2048 * 4096))).info.kind with
  | .R => i == r
  | .C => i / 8 == r
  | .U => i / 64 == r
  | _ => false

/-- A register word with every RW and LK field back at its reset value (R531). -/
def clearFields (r : Reg) (w : Word) : Word :=
  (r.fields.filter (fun f => f.acc == .RW || f.lk)).foldl (fun w f => wset w f.hi f.lo f.reset) w

/-- A region cleared (R531): memories zero and clean, queues reset, its engines and sequencers empty, RW and LK fields at
reset; health and counters are kept. -/
def Chip.clearRegion (c : Chip) (r : Nat) : Chip :=
  let c := (rangeFrom (64 * r) 64).foldl (fun c u => c.zero (scratchKey u 0) (2 ^ 19)) (c.zero (regionKey r 0) (2 ^ 25))
  let cls : List Nat := rangeFrom (8 * r) 8
  { c with
    queues := c.queues.filter (fun q => q.1 / 1024 != r)
    seqs := c.seqs.filter (fun x => x.1 / 8 != r)
    units := c.units.filter (fun x => x.1 / 64 != r)
    press := c.press.filter (fun x => x.1 / 8 != r)
    racks := c.racks.filter (fun x => x.1 / 8 != r)
    solvers := c.solvers.filter (fun x => x.1 != r)
    partials := c.partials.filter (fun x => !cls.contains x.job.cl)
    combs := c.combs.filter (fun x => !(x.1 == r || (decide (16 + 64 * r ≤ x.1) && decide (x.1 < 80 + 64 * r))))
    arbs := c.arbs.filter (fun x => x.region != r)
    xfers := c.xfers.filter (fun x => x.1 != r)
    regs := c.regs.foldl (fun m x =>
      if keyInRegion r x.1 then
        sset (regDefault x.1) m x.1 (clearFields (Reg.ofCode (x.1 / (2048 * 4096))) x.2)
      else m) c.regs }

/-- The clocks of a region's islands with MIN, MAX and FIXED at reset. -/
def Power.clearRegion (pw : Power) (r : Nat) : Power :=
  (r :: rangeFrom (16 + 8 * r) 8).foldl (fun pw i =>
    pw.setIsland i { pw.island i with min := 12, max := 40, fixed := false }) pw

/-- A region's owner set. -/
def Chip.setOwner (c : Chip) (r p : Nat) : Chip := (c.put .PART_OWN_OWNER 0 p r).put .PART_OWN_OWNED 0 1 r

/-- A region that belongs to no partition from now on. -/
def Chip.disown (c : Chip) (r : Nat) : Chip :=
  let c := (c.put .PART_OWN_OWNER 0 0 r).put .PART_OWN_OWNED 0 0 r
  { c with freeAt := sset 0 c.freeAt r c.up }

/-- The regions that a claim clears: those of the partition that it does not own (R531). -/
def Chip.toClear (c : Chip) (p : Nat) : List Nat := (c.defRegions p).filter (fun r => !c.owns p r)

/-- Why a claim fails, 0 when it is accepted (R531). -/
def Chip.claimCause (c : Chip) (p : Nat) : Nat :=
  if ¬ c.on .PART_TBL_VALID p then 1
  else if c.runs p ∨ (c.partS p).fencing then 2
  else if (c.toClear p).any (fun r => match c.owner r with | some o => c.runs o | none => false) then 4
  else 0

/-- A claim that takes effect: refused, or the regions not yet owned are cleared and pass to the partition, which is
CLEARING. -/
def Chip.claim (c : Chip) (p : Nat) : Chip :=
  let x := c.partS p
  if c.claimCause p ≠ 0 then ((c.setPartS p { x with waiting := false }).put .PART_CTL_CLAIM p 0).partRefuse p (c.claimCause p)
  else
    let rs := c.toClear p
    let c := rs.foldl (fun c r => ((c.clearRegion r).setOwner r p).charge 16 Config.clearEnergy) c
    let c := c.setPartS p { x with waiting := false, prior := c.g .PART_STAT_STATE p, clearing := rs }
    (c.set1 .PART_CTL_CLAIM p).setPart p 2

/-- The regions that a claim of a partition clears now, for the clocks. -/
def Chip.claimed (c : Chip) (p : Nat) : List Nat := if c.claimCause p = 0 then c.toClear p else []

/-- PART_CLAIM (R531, R534, R545, R599): before MEM_READY the claim waits. -/
def execPartClaim (fn : Fn) (p : Nat) (s : State) : Host.Outcome State Fault Refusal :=
  let c := s.chip
  if ¬ c.partCmd fn p ∨ c.on .PART_CTL_CLAIM p then .next s
  else if ¬ c.on .BOOT_STAT_MEM_READY 0 then
    .next (s.onChip (fun c => (c.setPartS p { c.partS p with waiting := true }).set1 .PART_CTL_CLAIM p))
  else .next { s with chip := c.claim p, pwr := (c.claimed p).foldl (fun pw r => pw.clearRegion r) s.pwr }

/-- CLAIM_CLEAR_DONE (R531, R623): CLEARED is set, CLAIM reads 0, and the partition is back in its stopped state; the regions
are awake. -/
def execClaimClearDone (p : Nat) (s : State) : Host.Outcome State Fault Refusal :=
  nextChip s (fun c =>
    if c.g .PART_STAT_STATE p ≠ 2 then c
    else
      let x := c.partS p
      let c := (c.defRegions p).foldl (fun c r => c.put ⟨.PWR_STAT, 32 + r, 32 + r⟩ 0 0) c
      let c := (c.set1 .PART_STAT_CLEARED p).put .PART_CTL_CLAIM p 0
      (c.setPartS p { x with clearing := [] }).setPart p x.prior)

/-! ### Quanta and fences (R539–R543) -/

/-- QUANTUM_END (R539). -/
def execQuantumEnd (p : Nat) (s : State) : Host.Outcome State Fault Refusal :=
  nextChip s (fun c => if c.quantumOver p then c.yieldRequest p else c)

/-- QEND_WRITE (R539, R545). -/
def execQendWrite (fn : Fn) (p : Nat) (data : Word) (s : State) : Host.Outcome State Fault Refusal :=
  nextChip s (fun c => if c.reaches fn .PART_QEND p then c.qendWrite fn p data else c)

/-- A partition fenced (R542): sequencers halt FENCED, the step is kept in doubt or discarded, everything in flight ends, and a
FENCE record is posted. -/
def Chip.fencePart (c : Chip) (p : Nat) : Chip :=
  let c := c.movesCut p
  let c := (c.enrolled p).foldl (fun c cl => c.fenceSeq cl) c
  let c := if c.on .HUB_STEP_READY_SENT p then c.set1 .SEAL_STAT_IN_DOUBT p else c.discardStep p
  let c := c.quiesce p
  let c := c.postFault { cls := 0x18, action := 4, place := .part p, detail := [p] }
  c.setPartS p { c.partS p with fencing := true }

/-- GRACE_FENCE (R542, R545): at GEND a RUNNING or STOPPING partition is fenced. -/
def execGraceFence (p : Nat) (s : State) : Host.Outcome State Fault Refusal :=
  nextChip s (fun c =>
    let st := c.g .PART_STAT_STATE p
    match c.gend p with
    | some t => if (st = 3 ∨ st = 4) ∧ t ≤ c.now ∧ ¬ (c.partS p).fencing then c.fencePart p else c
    | none => c)

/-- Whether every command of a partition's sequencers has ended. -/
def Chip.allQuiet (c : Chip) (p : Nat) : Bool := (c.clustersOf p).all (fun cl => (c.seq cl).outst.all (fun o => !o.isOpen))

/-- FENCE_DONE (R542, R543): the actions of a fence are complete, its void pass among them. -/
def execFenceDone (p : Nat) (s : State) : Host.Outcome State Fault Refusal :=
  nextChip s (fun c =>
    if (c.partS p).fencing ∧ (c.upd p).void.isEmpty ∧ c.allQuiet p then
      (c.setPartS p { c.partS p with fencing := false }).rest p 6
    else c)

/-! ### Grants (R536, R537) -/

/-- CGRANT_WRITE (R17, R536, R537). -/
def execCgrantWrite (fn : Fn) (p i : Nat) (data : Word) (s : State) : Host.Outcome State Fault Refusal :=
  nextChip s (fun c => if c.reaches fn .PART_CGRANT p ∧ i < 64 then c.cgrantWrite fn p i data else c)

/-! ### Power states of regions and memories (R623) -/

/-- REGION_PARK (R623): a region that no partition has owned for 1 ms loses its power and its on-chip data. -/
def execRegionPark (r : Nat) (s : State) : Host.Outcome State Fault Refusal :=
  nextChip s (fun c =>
    let f : Fld := ⟨.PWR_STAT, 32 + r, 32 + r⟩
    if 16 ≤ r ∨ (c.owner r).isSome ∨ c.on f 0 ∨ c.up < sget 0 c.freeAt r + 1000000 then c
    else
      let c := (rangeFrom (64 * r) 64).foldl (fun c u => c.zero (scratchKey u 0) (2 ^ 19)) (c.zero (regionKey r 0) (2 ^ 25))
      c.set1 f 0)

/-- REGION_WAKE (R623): an access or a claim wakes a parked region; while no partition owns it, its 1 ms starts again. -/
def execRegionWake (r : Nat) (s : State) : Host.Outcome State Fault Refusal :=
  nextChip s (fun c =>
    let f : Fld := ⟨.PWR_STAT, 32 + r, 32 + r⟩
    if 16 ≤ r ∨ ¬ c.on f 0 then c else { c.put f 0 0 with freeAt := sset 0 c.freeAt r c.up })

/-- SELF_REFRESH_ENTER (R623): a stack (0–7) or a Cellar package (8–31) without access for 1 ms. -/
def execSelfRefreshEnter (dev : Nat) (s : State) : Host.Outcome State Fault Refusal :=
  nextChip s (fun c =>
    if dev < 8 then c.set1 ⟨.PWR_STAT, 48 + dev, 48 + dev⟩ 0
    else if dev < 32 then { c with cref := setBits c.cref (dev - 8) (dev - 8) 1 }
    else c)

end Sys2Proof.Machine
end

