-- ==== Sys2Proof/Machine/Change.lean ====
section
/-! DEFINITION. Dual authorisation: change descriptors, their checks and signatures, and what an applied change does
(R18, R530, R554–R559). -/

namespace Sys2Proof.Machine

/-! ### The descriptor (R555) -/

/-- Word i of `CHG_BUF`. -/
def Chip.chgWord (c : Chip) (i : Nat) : Word := c.rd .CHG_BUF 0 i

/-- n bytes of `CHG_BUF` from a byte offset; both multiples of 8. -/
def Chip.chgBytes (c : Chip) (off n : Nat) : List Byte := bytesOf ((rangeFrom (off / 8) (n / 8)).map c.chgWord)

/-- KIND of the descriptor held. -/
def Chip.chgKind (c : Chip) : Nat := wbits (c.chgWord 0) 7 0
/-- NITEMS of the descriptor held. -/
def Chip.chgN (c : Chip) : Nat := wbits (c.chgWord 0) 31 16
/-- LEN of the descriptor held. -/
def Chip.chgLen (c : Chip) : Nat := wbits (c.chgWord 0) 63 32
/-- Whether PARTS names a partition. -/
def Chip.chgHas (c : Chip) (p : Nat) : Bool := bit (wbits (c.chgWord 3) 15 0) p
/-- The partitions that PARTS names. -/
def Chip.chgParts (c : Chip) : List Nat := (List.range 16).filter c.chgHas

/-- One item: type, partition, offset, value (R555). -/
structure ChgItem where
  ity : Nat
  part : Nat
  rsvd : Nat
  off : Nat
  val : Word
  deriving DecidableEq, Repr

/-- The items of the descriptor held. -/
def Chip.chgItems (c : Chip) : List ChgItem :=
  if c.chgKind ≠ 1 then []
  else (List.range c.chgN).map (fun i =>
    let a := c.chgWord (8 + 2 * i)
    { ity := wbits a 7 0, part := wbits a 12 8, rsvd := wbits a 31 13, off := wbits a 63 32, val := c.chgWord (9 + 2 * i) })

/-- Whether an item is well formed: a known type, reserved bits 0, and OFFSET and VALUE 0 for a key (R555, R557). -/
def ChgItem.wf (i : ChgItem) : Bool :=
  i.rsvd == 0 && (i.ity == 1 || (i.ity == 2 && i.off == 0 && i.val == 0 && decide (i.part ≤ 16)))

/-- Check 1: KIND, VERSION, LEN, NITEMS, reserved fields and item types (R557). -/
def Chip.chgFormat (c : Chip) : Bool :=
  let k := c.chgKind
  decide (1 ≤ k) && decide (k ≤ 3) && wbits (c.chgWord 0) 15 8 == 1 && decide (c.chgN ≤ 236)
    && c.chgLen == (if k = 1 then 64 + 16 * c.chgN else 256) && wbits (c.chgWord 3) 63 16 == 0
    && c.chgItems.all ChgItem.wf

/-- The digest that both signatures cover. -/
def Chip.chgHash (c : Chip) : List Byte := sha256 (c.chgBytes 0 c.chgLen)

/-- The key of a role: 0 Operator, 1 Steward (R554). -/
def Prot.key (p : Prot) (role : Nat) : Option (List Byte) := p.keys.map (fun k => if role = 0 then k.1 else k.2)

/-- Whether a signature of the buffer verifies under the key of a role; an empty slot verifies nothing (R556, R557). -/
def Chip.chgSigned (c : Chip) (off role : Nat) : Bool :=
  match c.prot.key role with
  | some k => ecdsaOk k (c.chgBytes off 96) c.chgHash
  | none => false

/-! ### States of the protocol (R556, R557) -/

/-- STATE is back at IDLE with a RESULT; the cause CHG_DONE of both physical functions (R557, R579). -/
def Chip.chgIdle (c : Chip) (res : Nat) : Chip :=
  ((((c.put .CHG_STAT_RESULT 0 res).put .CHG_STAT_STATE 0 0).cause 0 3).cause 1 3)

/-- A command in the wrong state: BUSY. A change that is being applied goes on. -/
def Chip.chgBusy (c : Chip) : Chip := if c.g .CHG_STAT_STATE 0 = 4 then c.put .CHG_STAT_RESULT 0 11 else c.chgIdle 11

/-- Whether a function reaches the change registers (R556). -/
def chgFn : Fn → Bool
  | .pf _ => true
  | .rm => true
  | .bmc => true
  | .vf _ _ => false

/-- `CHG_FP` follows the enrolled keys: the first 8 bytes of SHA-256 of each (R563). -/
def Chip.showKeys (c : Chip) : Chip :=
  match c.prot.keys with
  | some (o, s) =>
    (c.wr .CHG_FP 0 (wordAt (wordsOf 1 (sha256 o)) 0) 0).wr .CHG_FP 0 (wordAt (wordsOf 1 (sha256 s)) 0) 1
  | none => (c.wr .CHG_FP 0 0 0).wr .CHG_FP 0 0 1

/-- The protection record written to flash (R554). -/
def Chip.saveProt (c : Chip) : Chip := { c with flash := { c.flash with prot := some c.prot } }

/-- The keys of a KEYS or ENROLL descriptor installed (R554, R555). -/
def Chip.installKeys (c : Chip) : Chip :=
  ({ c with prot := { c.prot with keys := some (c.chgBytes 64 96, c.chgBytes 160 96) } }).showKeys

/-- EPOCH of a set of meters advanced (R558). -/
def Chip.nextEpoch (c : Chip) (ps : List Nat) : Chip := ps.foldl (fun c p => c.inc .MTR_EPOCH_EPOCH p) c

/-- `CHG_SEQ` advanced, and the record saved. -/
def Chip.chgCommit (c : Chip) : Chip :=
  let c := c.inc .CHG_SEQ_SEQ 0
  ({ c with prot := { c.prot with seq := c.g .CHG_SEQ_SEQ 0 } }).saveProt

/-- The result of the checks that REGISTER makes at once, 0 when they pass (R557). -/
def Chip.registerResult (c : Chip) (fn : Fn) : Nat :=
  if ¬ c.chgFormat then 1
  else if c.chgWord 1 ≠ c.rd .CHG_UID 0 then 2
  else if c.chgWord 2 ≠ c.rd .CHG_SEQ 0 then 3
  else if c.chgKind = 3 ∧ (c.prot.keys.isSome ∨ fn ≠ .bmc) then 5
  else 0

/-- CHG_REGISTER (R554–R557): an ENROLL that passes installs its keys at once; the other kinds wait for the first
signature. -/
def execChgRegister (fn : Fn) (role : Nat) (s : State) : Host.Outcome State Fault Refusal :=
  nextChip s (fun c =>
    if ¬ chgFn fn then c
    else
      let c := c.put .CHG_CMD_ROLE 0 role
      if c.g .CHG_STAT_STATE 0 ≠ 0 then c.chgBusy
      else if c.registerResult fn ≠ 0 then c.chgIdle (c.registerResult fn)
      else
        let c := (List.range 4).foldl (fun c i => c.wr .CHG_DIGEST 0 (wordAt (wordsOf 4 c.chgHash) i) i) c
        if c.chgKind = 3 then ((c.installKeys.nextEpoch c.chgParts).chgCommit).chgIdle 0
        else
          let c := (c.put .CHG_STAT_FIRST 0 role).put .CHG_STAT_STATE 0 1
          { c with chgSecond := false })

/-- CHG_APPROVE (R556): the second signature is verified against the key of the other role. -/
def execChgApprove (fn : Fn) (s : State) : Host.Outcome State Fault Refusal :=
  nextChip s (fun c =>
    if ¬ chgFn fn then c
    else if c.g .CHG_STAT_STATE 0 ≠ 2 then c.chgBusy
    else { c.put .CHG_STAT_STATE 0 1 with chgSecond := true })

/-- CHG_VERIFY_DONE (R556, R557): the first signature leads to PENDING, the second to APPROVED; a failure is BAD_SIG. -/
def execChgVerifyDone (s : State) : Host.Outcome State Fault Refusal :=
  nextChip s (fun c =>
    if c.g .CHG_STAT_STATE 0 ≠ 1 then c
    else
      let first := c.g .CHG_STAT_FIRST 0
      if c.chgSecond then
        (if c.chgSigned 3968 (1 - first) then c.put .CHG_STAT_STATE 0 3 else c.chgIdle 4)
      else if ¬ c.chgSigned 3840 first then c.chgIdle 4
      else c.put .CHG_STAT_STATE 0 2)

/-- CHG_CANCEL (R556): IDLE, with the buffer and the stage cleared; a change that is being applied is not cancelled. -/
def execChgCancel (fn : Fn) (s : State) : Host.Outcome State Fault Refusal :=
  nextChip s (fun c =>
    if ¬ chgFn fn ∨ c.g .CHG_STAT_STATE 0 = 4 then c
    else
      let c := (c.regResetAll .CHG_BUF 0).regResetAll .CHG_KEYSTAGE 0
      if c.g .CHG_STAT_STATE 0 = 0 then c else c.chgIdle (c.g .CHG_STAT_RESULT 0))

/-! ### Applying a change (R557, R558) -/

/-- Whether a register holds DA fields. -/
def Reg.hasDa (r : Reg) : Bool := r.fields.any (fun f => f.da)

/-- The DA bits of a register. -/
def Reg.daMask (r : Reg) : Word :=
  (r.fields.filter (fun f => f.da)).foldl (fun w f => wset w f.hi f.lo (2 ^ (f.hi + 1 - f.lo) - 1)) 0

/-- The DA register and index at a hub offset. -/
def daAt (off : Nat) : Option (Reg × Nat) :=
  match findReg .hub off Reg.all with
  | some (r, j, 0) => if r.hasDa then some (r, j) else none
  | _ => none

/-- Whether a field item names a DA register, DA bits only and a partition below 16 (check 6). -/
def ChgItem.isDa (i : ChgItem) : Bool :=
  match daAt i.off with
  | some (r, _) => i.val &&& ~~~r.daMask == 0 && decide (i.part < 16)
  | none => false

/-- One field item applied (R555). -/
def Chip.applyItem (c : Chip) (i : ChgItem) : Chip :=
  match i.ity, daAt i.off with
  | 1, some (r, j) => c.wr r i.part ((c.rd r i.part j &&& ~~~r.daMask) ||| i.val) j
  | _, _ => c

/-- The registers as the descriptor's field items leave them. -/
def Chip.chgTables (c : Chip) : Chip := c.chgItems.foldl Chip.applyItem c

/-- Logical ranges in GiB of a partition's valid near-tier extents (R181). -/
def Chip.ntRanges (c : Chip) (p : Nat) : List (Nat × Nat) :=
  (List.range 128).filterMap (fun i =>
    let w := c.rd .PART_NTX p i
    match ntxSet w with
    | some st => some (wbits w 24 16, st.length)
    | none => none)

/-- Near-tier frames of a partition's valid extents, numbered 64 · stack + frame. -/
def Chip.ntFrames (c : Chip) (p : Nat) : List Nat :=
  (List.range 128).flatMap (fun i =>
    let w := c.rd .PART_NTX p i
    match ntxSet w with
    | some st => st.map (fun s => 64 * s + wbits w 11 6)
    | none => [])

/-- Logical slots of a partition's Cellar extents (R183). -/
def Chip.clSlots (c : Chip) (p : Nat) : List Nat :=
  (List.range 64).filterMap (fun i => let w := c.rd .PART_CLX p i; if wbit w 0 then some (wbits w 12 7) else none)

/-- Cellar frames of a partition. -/
def Chip.clFrames (c : Chip) (p : Nat) : List Nat :=
  (List.range 64).filterMap (fun i => let w := c.rd .PART_CLX p i; if wbit w 0 then some (wbits w 6 1) else none)

/-- Whether a list of ranges has two that overlap. -/
def rangesOverlap : List (Nat × Nat) → Bool
  | [] => false
  | x :: xs => xs.any (fun y => decide (max x.1 y.1 < min (x.1 + x.2) (y.1 + y.2))) || rangesOverlap xs

/-- Whether two lists share an element. -/
def shares (a b : List Nat) : Bool := a.any b.contains

/-- Check 9 on one partition's tables: overlapping ranges, no regions, too many grants. -/
def Chip.partConflict (c : Chip) (p : Nat) : Bool :=
  rangesOverlap (c.ntRanges p) || rangesOverlap ((c.clSlots p).map (fun s => (s, 1)))
    || (c.on .PART_TBL_VALID p && c.g .PART_TBL_REGIONS p == 0) || decide (64 < c.g .PART_TBL_CGRANT_MAX p)

/-- Check 9: a conflict within a partition, or a frame in two partitions. -/
def Chip.tablesConflict (c : Chip) : Bool :=
  (List.range 16).any (fun p => c.partConflict p || (List.range p).any (fun q =>
    shares (c.ntFrames p) (c.ntFrames q) || shares (c.clFrames p) (c.clFrames q)))

/-- The staged meter key, none where nothing is staged. -/
def Chip.stagedKey (c : Chip) : Option (List Byte) :=
  let k := bytesOf ((List.range 4).map (fun i => c.rd .CHG_KEYSTAGE 0 i))
  if k.all (· == 0) then none else some k

/-- The sets whose meter key the descriptor installs. -/
def Chip.chgKeyed (c : Chip) : List Nat := (c.chgItems.filter (fun i => i.ity == 2)).map ChgItem.part

/-- Check 10: a staged key whose SHA-256 is KEYHASH. -/
def Chip.keyOk (c : Chip) : Bool :=
  match c.stagedKey with
  | some k => sha256 k == c.chgBytes 32 32
  | none => false

/-- The result of the checks of APPLY, 0 when they pass (R557); KEYS applies whatever the partitions' states. -/
def Chip.applyResult (c : Chip) : Nat :=
  if c.chgWord 2 ≠ c.rd .CHG_SEQ 0 then 3
  else if c.chgItems.any (fun i => i.ity == 1 && !i.isDa) then 6
  else if c.chgItems.any (fun i => decide (i.part < 16) && !c.chgHas i.part) then 7
  else if c.chgKind = 1 ∧ c.chgParts.any c.runs then 8
  else if c.chgKind = 1 ∧ c.chgTables.tablesConflict then 9
  else if ¬ c.chgKeyed.isEmpty ∧ ¬ c.keyOk then 10
  else 0

/-- CHG_APPLY (R557, R558). -/
def execChgApply (fn : Fn) (s : State) : Host.Outcome State Fault Refusal :=
  nextChip s (fun c =>
    if ¬ chgFn fn then c
    else if c.g .CHG_STAT_STATE 0 ≠ 3 then c.chgBusy
    else if c.applyResult ≠ 0 then c.chgIdle c.applyResult
    else c.put .CHG_STAT_STATE 0 4)

/-- The regions of a definition, none where it is not valid. -/
def Chip.liveRegions (c : Chip) (p : Nat) : List Nat := if c.on .PART_TBL_VALID p then c.defRegions p else []

/-- The regions that a change takes from the partition that owns them (R558). -/
def Chip.removed (c t : Chip) : List Nat :=
  (List.range 16).filter (fun r => match c.owner r with
    | some p => (c.liveRegions p).contains r && !(t.liveRegions p).contains r
    | none => false)

/-- The frames that a change brings into a partition's valid extents are zeroed (R558). -/
def Chip.zeroFrames (c t : Chip) (p : Nat) : Chip :=
  let nt := (t.ntFrames p).filter (fun f => !(c.ntFrames p).contains f)
  let cl := (t.clFrames p).filter (fun f => !(c.clFrames p).contains f)
  let c := nt.foldl (fun c f => c.zero (nearKey (f / 64) (f % 64 * 2 ^ 30)) (2 ^ 30)) c
  cl.foldl (fun c f => (List.range 24).foldl (fun c k => c.zero (cellarKey k (f * 2 ^ 30)) (2 ^ 30)) c) c

/-- A partition that a change defines is STOPPED with its meters at 0; one that it removes is UNDEFINED (R533, R546). -/
def Chip.redefine (c : Chip) (was : Bool) (p : Nat) : Chip :=
  let is := c.on .PART_TBL_VALID p
  if is ∧ ¬ was then
    ({ c with meters := sclear c.meters (32 * p) 32, energy := sclear c.energy p 1 }).setPart p 1
  else if was ∧ ¬ is then c.setPart p 0
  else c

/-- The DA registers that do not hold their reset values, by key. -/
def Chip.daRegs (c : Chip) : List (Nat × Word) :=
  (c.regs.map (fun x => (x.1, x.2 &&& (Reg.ofCode (x.1 / (2048 * 4096))).daMask))).filter (fun x => x.2 != 0)

/-- A meter key installed for a set (R551, R555). -/
def Chip.setMeterKey (c : Chip) (k : List Byte) (part : Nat) : Chip :=
  let keys := c.prot.mkeys.filter (fun x => x.1 != part) ++ [(part, k)]
  ({ c with prot := { c.prot with mkeys := sortBy Prod.fst keys } }).put .MTR_STAT_KEYED part 1

/-- The sets of meters that a change affects: the partitions of PARTS, and those whose key changes. -/
def Chip.chgAffects (c : Chip) : List Nat := (List.range 17).filter (fun p => c.chgHas p && p != 16 || c.chgKeyed.contains p)

/-- A PROTECT change takes effect (R558). -/
def Chip.applyProtect (c : Chip) : Chip :=
  let aff := c.chgAffects
  let keyed := c.chgKeyed
  let key := c.stagedKey.getD []
  let items := c.chgItems
  let t := c.chgTables
  let was := (List.range 16).map (fun p => c.on .PART_TBL_VALID p)
  let c := (c.mjobs.filter (fun j => aff.contains j.part)).foldl (fun c j => c.finishReading j) c
  let gone := c.removed t
  let c := (List.range 16).foldl (fun c p => c.zeroFrames t p) c
  let c := gone.foldl (fun c r => (c.clearRegion r).disown r) c
  let c := items.foldl Chip.applyItem c
  let c := (List.range 16).foldl (fun c p => c.redefine (was.getD p false) p) c
  let c := keyed.foldl (fun c p => c.setMeterKey key p) c
  let c := c.nextEpoch aff
  { c with prot := { c.prot with da := c.daRegs } }

/-- CHG_APPLY_DONE (R554, R558): frames and regions are cleared, the items take effect in one cycle, `CHG_SEQ` and EPOCH
advance, and the protection record is written. -/
def execChgApplyDone (s : State) : Host.Outcome State Fault Refusal :=
  let c := s.chip
  if c.g .CHG_STAT_STATE 0 ≠ 4 then .next s
  else if c.chgKind = 2 then .next (s.onChip (fun c => ((c.installKeys.nextEpoch c.chgParts).chgCommit).chgIdle 0))
  else
    .next { s with
      chip := (c.applyProtect.chgCommit).chgIdle 0
      pwr := (c.removed c.chgTables).foldl (fun pw r => pw.clearRegion r) s.pwr }

end Sys2Proof.Machine
end

