-- ==== Sys2Proof/Machine/Flash.lean ====
section
/-! DEFINITION. The configuration flash: records, the configuration image and its checks, firmware slots and their
checks, flash actions (R588–R598, R615). -/

namespace Sys2Proof.Machine

/-! ### Bytes and records -/

/-- n bytes of the flash from an address; an erased byte reads 0xFF (R588, R589). -/
def Flash.read (f : Flash) (a n : Nat) : List Byte := (rangeFrom a n).map (sget 0xFF f.bytes)

/-- Bytes written to the flash. -/
def Flash.write (f : Flash) (a : Nat) : List Byte → Flash
  | [] => f
  | b :: bs => ({ f with bytes := sset 0xFF f.bytes a b }).write (a + 1) bs

/-- A range of the flash erased. -/
def Flash.erase (f : Flash) (a n : Nat) : Flash := { f with bytes := sclear f.bytes a n }

/-- The boot control block, its defaults where neither copy is valid (R590). -/
def Chip.bootCtl (c : Chip) : BootCtl := c.flash.boot.getD {}

/-- The boot control block written, with the fields of `BOOT_STAT` and `BOOT_VER` that show it (R612, R613). -/
def Chip.setBootCtl (c : Chip) (b : BootCtl) : Chip :=
  let c := { c with flash := { c.flash with boot := some b } }
  (((c.put .BOOT_STAT_PREF 0 b.pref).put .BOOT_STAT_ATTEMPT_A 0 b.attA).put .BOOT_STAT_ATTEMPT_B 0 b.attB).put
    .BOOT_VER_MIN_SVN 0 b.minSvn

/-- Attempt count of a slot. -/
def BootCtl.att (b : BootCtl) (sl : Nat) : Nat := if sl = 0 then b.attA else b.attB
/-- Attempt count of a slot replaced. -/
def BootCtl.setAtt (b : BootCtl) (sl n : Nat) : BootCtl := if sl = 0 then { b with attA := n } else { b with attB := n }

/-- First flash address of a slot (R588). -/
def slotBase (sl : Nat) : Nat := if sl = 0 then 0x0800000 else 0x2000000
/-- Bytes of a slot. -/
def slotSize : Nat := 0x1800000
/-- First flash address of the configuration image. -/
def imageBase : Nat := 0x0100000

/-! ### The configuration image (R591–R594) -/

/-- Little-endian number of n bytes at an offset of a byte list. -/
def numAt (bs : List Byte) (off n : Nat) : Nat := leNat ((bs.drop off).take n)

/-- Whether a public key is Wovaldo's key of an index (R591). -/
def vendorKeyOk (key : List Byte) (idx : Nat) : Bool := decide (idx < 2) && beNat (sha256 key) == Config.vendorKeyHash idx

/-- Checks 1 to 3 of the image, 0 when they pass, and the lengths of its sections (R594). -/
def Chip.imageCheck (c : Chip) : Nat × Nat × Nat :=
  let h := c.flash.read imageBase 64
  let vlen := numAt h 8 4
  let ilen := numAt h 12 4
  let vendor := c.flash.read (imageBase + 64) vlen
  let key := Config.imageKey (h ++ vendor)
  let idx := numAt h 6 2
  if numAt h 0 4 ≠ 0x434E5254 ∨ numAt h 4 2 ≠ 1 ∨ vlen % 64 ≠ 0 ∨ ilen % 8 ≠ 0 ∨ 2 ^ 20 < 160 + vlen + ilen then (1, 0, 0)
  else if ¬ vendorKeyOk key idx ∨ c.bootCtl.revoked.contains idx then (2, vlen, ilen)
  else if ¬ ecdsaOk key (c.flash.read (imageBase + 64 + vlen) 96) (sha256 (h.take 16 ++ vendor))
      ∨ Config.vendorHubId vendor ≠ c.rd .HUB_ID 0 then (3, vlen, ilen)
  else (0, vlen, ilen)

/-- The entries of a PROFILE record after its number. -/
def profileEntries : Nat → List Byte → List Word
  | 0, _ => []
  | n + 1, bs => if bs.length < 8 then [] else Word.ofNat (leNat (bs.take 8)) :: profileEntries n (bs.drop 8)

/-- One record of the integrator section taken in (R593). -/
def Cfg.record (g : Cfg) (ty : Nat) (v : List Byte) : Cfg :=
  if ty = 1 then { g with ident := leNat (v.take 4) }
  else if ty = 2 then { g with topo := some (leNat (v.take 4)) }
  else if ty = 3 then { g with time := some (leNat (v.take 4)) }
  else if ty = 4 then
    let n := numAt v 0 1
    if v.isEmpty ∨ 14 < n then g
    else { g with profiles := g.profiles.filter (fun x => x.1 != n) ++ [(n, profileEntries v.length (v.drop 1))] }
  else g

/-- The records of an integrator section in order; fuel bounds their number. -/
def Cfg.records (g : Cfg) : Nat → List Byte → Cfg
  | 0, _ => g
  | n + 1, bs =>
    let len := numAt bs 2 2
    if bs.length < 4 ∨ bs.length < 4 + len then g
    else (g.record (numAt bs 0 2) ((bs.drop 4).take len)).records n (bs.drop (cdiv (4 + len) 8 * 8))

/-- The image read and checked: none leads to RECOVERY; a failure of IDIGEST leaves the integrator section at its defaults
and sets CFG_DEFAULTED (R594). -/
def Chip.loadImage (c : Chip) : Option Chip :=
  let (bad, vlen, ilen) := c.imageCheck
  if bad ≠ 0 then none
  else
    let h := c.flash.read imageBase 64
    let integ := c.flash.read (imageBase + 160 + vlen) ilen
    let g : Cfg := { vendor := c.flash.read (imageBase + 64) vlen }
    if sha256 integ = (h.drop 16).take 32 then
      some { c with cfg := g.records (ilen / 4) integ }
    else some { c.set1 .BOOT_STAT_CFG_DEFAULTED 0 with cfg := g }

/-! ### Firmware slots (R595, R596) -/

/-- The first check that a slot fails, 0 when it is accepted, coded as LASTFAIL (R595, R612). -/
def Chip.slotCheck (c : Chip) (sl : Nat) : Nat :=
  let a := slotBase sl
  let h := c.flash.read a 256
  let len := numAt h 16 4
  let key := (h.drop 32).take 96
  let idx := numAt h 4 2
  let b := c.bootCtl
  if numAt h 0 4 ≠ 0x57524E52 ∨ slotSize - 352 < len then 1
  else if ¬ vendorKeyOk key idx then 2
  else if b.revoked.contains idx then 5
  else if ¬ ecdsaOk key (c.flash.read (a + 256 + len) 96) (sha256 (h.take 128 ++ c.flash.read (a + 256) len)) then 3
  else if numAt h 12 2 < b.minSvn then 4
  else if 3 ≤ b.att sl then 6
  else 0

/-- Ringmaster started from a slot: its attempt is counted, its version is shown (R596, R613, R615). -/
def Chip.startSlot (c : Chip) (sl : Nat) (fallback : Bool) : Chip :=
  let h := c.flash.read (slotBase sl) 256
  let b := c.bootCtl
  let c := c.setBootCtl (b.setAtt sl (b.att sl + 1))
  let c := (c.put .BOOT_STAT_SLOT 0 sl).put .BOOT_STAT_FALLBACK 0 (b2n fallback)
  let c := (c.put .BOOT_VER_FW_VERSION 0 (numAt h 8 4)).put .BOOT_VER_FW_SVN 0 (numAt h 12 2)
  let c := c.put .BOOT_FWCTL_TARGET 0 (1 - sl)
  { c with boot := { c.boot with rmAt := some c.up, alive := false, revoke0 := bit (numAt h 6 2) 0 } }

/-- RECOVERY: no firmware and no compute (R594, R596). -/
def Chip.recovery (c : Chip) : Chip :=
  { c.put .BOOT_STAT_STAGE 0 5 with boot := { c.boot with rmAt := none, alive := false } }

/-- The boot ROM's choice of a slot: the preferred one, else the other, else RECOVERY (R596). -/
def Chip.selectSlot (c : Chip) (stage : Nat) : Chip :=
  let p := c.bootCtl.pref
  let e := c.slotCheck p
  if e = 0 then (c.startSlot p false).put .BOOT_STAT_STAGE 0 stage
  else
    let c := c.put .BOOT_STAT_LASTFAIL 0 e
    let e := c.slotCheck (1 - p)
    if e = 0 then (c.startSlot (1 - p) true).put .BOOT_STAT_STAGE 0 stage
    else (c.put .BOOT_STAT_LASTFAIL 0 e).recovery

/-! ### Flash actions (R598, R610, R615) -/

/-- The standby slot, the one that is not running. -/
def Chip.standby (c : Chip) : Nat := 1 - c.g .BOOT_STAT_SLOT 0

/-- Whether an action lies in the configuration image, which is rewritten in place. -/
def FwJob.inImage (j : FwJob) : Bool := decide (j.addr < 0x0200000)

/-- An action's effect on the flash, and whether it succeeded: only erased bytes of a slot are written. -/
def FwJob.apply (j : FwJob) (f : Flash) : Flash × Bool :=
  if j.erase then (f.erase j.addr j.len, true)
  else if j.inImage ∨ (f.read j.addr j.data.length).all (· == 0xFF) then (f.write j.addr j.data, true)
  else (f, false)

/-- An action that a reset interrupts: a page stays unwritten; a slot being erased has lost its header, so it fails its
check (R598). -/
def Chip.cutFlash (c : Chip) : Chip :=
  match c.boot.fw with
  | some j =>
    let f := if j.erase then c.flash.erase j.addr 4096 else c.flash
    { c with flash := f, boot := { c.boot with fw := none } }
  | none => c

end Sys2Proof.Machine
end

