-- ==== Sys2Proof/Machine/Resets.lean ====
section
/-! DEFINITION. Cold and warm resets of the module and what Ringmaster sets up at a start (R599–R602, R606–R608). -/

namespace Sys2Proof.Machine

/-! ### The fabric at a start (R601–R603) -/

/-- The module ID written with VALID (R403, R601). -/
def Chip.writeId (c : Chip) (id : Nat) : Chip :=
  (((c.put .FAB_ID_ID 0 id).put .FAB_ID_VALID 0 1).setDatelines).timeRole

/-- A link brought up from DETECT if it has a neighbour (R400, R403). -/
def Chip.bringUp (c : Chip) (d : Nat) : Chip :=
  if (c.neighbour (c.g .FAB_ID_ID 0) d).isNone then c else (c.setLink d {}).toState d 1

/-- Routes filled and the links that the TOPOLOGY record names enabled (R602). -/
def Chip.enableLinks (c : Chip) : Chip :=
  let c := c.fillRoutes.timeRole
  let len := bits (c.cfg.topo.getD 0) 21 16
  ((List.range 6).filter (bit len)).foldl (fun (c : Chip) d => c.bringUp d) (c.put .FAB_CTL_LEN 0 len)

/-- `FAB_TOPO`, BOND_MIN and `FAB_TIME_CTL` from the image (R593, R602). -/
def Chip.writeTopology (c : Chip) : Chip :=
  let c := match c.cfg.topo with
    | some t =>
      let c := c.wr .FAB_TOPO 0 (wset (c.rd .FAB_TOPO 0) 15 0 (bits t 15 0))
      (List.range 6).foldl (fun (c : Chip) d => c.put .FAB_LINK_CFG_BOND_MIN 0 (max 1 (bits t 24 22 % 4)) d) c
    | none => c
  match c.cfg.time with
  | some t =>
    (((c.put .FAB_TIME_CTL_ROOT 0 (bits t 12 0)).put .FAB_TIME_CTL_PERIOD 0 (max 1 (bits t 31 16))).put
      .FAB_TIME_CTL_EN 0 1).timeRole
  | none => c

/-- The cases of the module ID (R601): the image's, a wait for the baseboard controller's, or none. -/
def Chip.nameModule (c : Chip) : Chip :=
  let i := c.cfg.ident
  if bit i 14 then { c with boot := { c.boot with waitId := some (c.up + bits i 31 16 * 10 ^ 9), noId := false } }
  else if bit i 13 then (c.writeId (bits i 12 0)).enableLinks
  else { c with boot := { c.boot with noId := true } }

/-- The units and Casks that the health record lists withdrawn (R602). -/
def Chip.applyHealth (c : Chip) : Chip :=
  let h := c.flash.health.getD {}
  let c := h.units.foldl (fun c x =>
    let c := if bit x.2 0 then c.setHealth x.1 .MXE_HEALTH_QUAR 3 else c
    if bit x.2 1 then c.setHealth x.1 .MXE_HEALTH_CKDEG 2 else c) c
  h.casks.foldl (fun c x => ((List.range 32).filter (bit x.2)).foldl (fun c k => c.withdrawCask x.1 k) c) c

/-! ### Cold reset (R606, R608) -/

/-- The registers of the always-on domain (R617, R643): a trip leaves input, sensors and the trip log as they are while the input
is present (R632). -/
def alwaysOn : Reg → Bool
  | .PWR_STAT => true
  | .PWR_TRIPLOG => true
  | .THM_SENSOR => true
  | _ => false

/-- The registers of a map that a property holds of. -/
def keepRegs (p : Reg → Bool) (m : List (Nat × Word)) : List (Nat × Word) :=
  m.filter (fun x => p (Reg.ofCode (x.1 / (2048 * 4096))))

/-- The status that a reset of the limiter leaves: CAP 40, no limiting, every region parked, every memory in self-refresh
(R642). -/
def Chip.limiterReset (c : Chip) : Chip :=
  ((((c.put .PWR_STAT_CAP 0 40).put .PWR_STAT_POWER_LIMITING 0 0).put .PWR_STAT_THERMAL_LIMITING 0 0).put
    .PWR_STAT_PARKED 0 0xFFFF).put .PWR_STAT_SELFREF 0 0xFF

/-- The module without power: everything at its reset value but the flash and the registers of a set, with the source of the
reset. -/
def Chip.powerLoss (c : Chip) (kept : Reg → Bool) (source : Nat) : Chip :=
  let c := c.cutFlash
  let n : Chip := {
    regs := keepRegs kept c.regs
    flash := c.flash
    boot := { perst := c.boot.perst }
    up := c.up
    fresh := c.fresh
    out := c.out }
  n.put .BOOT_CAUSE_SOURCE 0 source

/-- A cold reset: everything but the flash, and the trip log, which survives every reset (R606, R608, R643). -/
def Chip.coldReset (c : Chip) (source : Nat) : Chip := c.powerLoss (· == .PWR_TRIPLOG) source

/-- Clocks, limiter and monitors after a cold reset; the voltage at the input and a wetted leak detector are no state of the
module's. -/
def Power.coldReset (p : Power) (sup : Supply) : Power := { supply := sup, mv := p.mv, leak := p.leak }

/-- A cold reset of the module. -/
def State.coldReset (s : State) (source : Nat) (sup : Supply) : State :=
  { s with chip := s.chip.coldReset source, pwr := s.pwr.coldReset sup }

/-! ### Warm reset (R607, R608) -/

/-- The registers that a warm reset keeps whole (R608): job and partition state, DA fields, health, fabric identity, meters,
counters, and the always-on domain. -/
def warmKept : Reg → Bool
  | .HUB_STEP => true | .HUB_SCHED => true | .HUB_SEED => true | .SEAL_LOG => true | .SEAL_LIVE => true | .PART_RESUME => true
  | .HUB_GATE_LIM => true | .HUB_GATE_CTL => true | .HUB_GATE_STAT => true | .HUB_GATE_NORM => true | .SEAL_CFG => true
  | .INT_CTL => true | .CAR_CFG => true | .CAR_SEGS => true | .PART_QEND => true | .PART_QCFG => true | .PART_CGRANT => true
  | .BOOT_PROFSEL => true | .FAB_JOB => true | .PART_TBL => true | .PART_NTX => true | .PART_CLX => true | .FAB_PERM => true
  | .CHG_SEQ => true | .CHG_UID => true | .CHG_FP => true | .MTR_EPOCH => true | .MXE_HEALTH => true | .INT_FLOG => true
  | .FAB_ID => true | .FAB_TOPO => true | .FAB_RT => true | .FAB_TIME_CTL => true | .FAB_CTL => true | .HOSTIF_PORT => true
  | .HUB_CNT_SKIP => true | .HUB_CNT_SUPPR => true | .HUB_CNT_CLIP => true | .HUB_NT_ERR => true | .CEL_ERR => true
  | .CSK_CNT_ELEM => true | .CEL_CNT_ROWS => true | .CEL_CNT_MISMATCH => true | .CEL_CNT_REPLAY => true
  | .CEL_CNT_FALLBACK => true | .PART_CNT_XPART => true | .FAB_LINK_FEC => true | .FAB_LINK_RETRY => true | .FAB_CNT => true
  | .CAR_CNT => true | .TST_CNT_CHECK => true | .TST_CNT_FAIL => true | .SEAL_CNT => true | .INT_CNT => true
  | .PWR_STAT => true | .PWR_ENERGY => true | .PWR_TRIPLOG => true | .PWR_CNT_DROPOUT => true | .THM_SENSOR => true
  | .HUB_HARD_STAT => true | .RGN_MEMERR => true | .QP_MEMERR => true | .QP_QCNT => true | .RACK_CNT => true
  | .SOLV_CNT => true | .CLU_SEQ_CNT => true | .PRS_CNT => true | .MXE_CNT_TILE => true | .MXE_CNT_SOLV => true
  | .MXE_CNT_PREEMPT => true | .MXE_CNT_CHK => true | .MXE_CNT_UNTESTED => true | .VEC_CNT_CHAIN => true
  | .VEC_CNT_ELEM => true | .VEC_CNT_CENSUS => true | .VEC_CNT_CDROP => true | .UNIT_MEMERR => true
  | _ => false

/-- The bits of a register that a warm reset keeps. -/
def warmMask (r : Reg) : Word :=
  if warmKept r then ~~~(0 : Word)
  else if r == .SEAL_STAT then wset (wset 0 15 14 3) 25 18 0xFF
  else if r == .CSK_STAT then wset 0 37 6 (2 ^ 32 - 1)
  else if r == .PART_STAT then wset 0 2 0 7
  else if r == .MTR_STAT then wset (wset 0 47 0 (2 ^ 48 - 1)) 48 48 1
  else if r == .BOOT_STAT then wset (wset 0 7 7 1) 13 13 1
  else 0

/-- The registers after a warm reset. -/
def warmRegs (m : List (Nat × Word)) : List (Nat × Word) :=
  m.foldl (fun acc x =>
    let k := warmMask (Reg.ofCode (x.1 / (2048 * 4096)))
    if k = 0 then acc
    else sset (regDefault x.1) acc x.1 ((sget (regDefault x.1) m x.1 &&& k) ||| (regDefault x.1 &&& ~~~k))) []

/-- The state of a partition after a warm reset (R607). -/
def warmPart (st : Nat) : Nat := if st = 0 then 0 else if st ≤ 2 then 1 else 6

/-- Partitions fenced by a warm reset (R607): RUNNING and STOPPING ones as under R542. -/
def Chip.warmFence (c : Chip) : Chip :=
  (List.range 16).foldl (fun c p =>
    let st := c.g .PART_STAT_STATE p
    if (st = 3 ∨ st = 4) ∧ ¬ (c.partS p).fencing then c.fencePart p else c) c

/-- The state that a warm reset keeps (R608): memories of the near tier and the Cellar with their poison, meters, the fault
log, journals, the seal logic of a step in doubt, keys, the image, and the flash. -/
def Chip.warmCut (c : Chip) : Chip :=
  let c := c.cutFlash
  { regs := warmRegs c.regs
    mem := c.mem.filter (fun x => decide (2 * 2 ^ 60 ≤ x.1))
    poison := c.poison.filter (fun x => decide (2 * 2 ^ 60 ≤ x.1))
    steps := c.steps
    flog := c.flog
    meters := c.meters
    energy := c.energy
    upds := (c.upds.filter (fun x => !x.2.jrnl.isEmpty || !x.2.void.isEmpty || !x.2.frozen.isEmpty)).map (fun x =>
      (x.1, { jrnl := x.2.jrnl, void := x.2.void, frozen := x.2.frozen }))
    held := c.held
    seals := (c.seals.filter (fun x => x.2.barrier)).map (fun x => (x.1, { barrier := true }))
    time := { frac := c.time.frac, everOk := c.time.everOk }
    flash := c.flash
    prot := c.prot
    cfg := c.cfg
    boot := { perst := c.boot.perst, eid := c.boot.eid, noId := c.boot.noId }
    freeAt := if c.up = 0 then [] else (List.range 16).map (fun r => (r, c.up))
    upsets := c.upsets.filter (fun u => warmKept u.reg)
    now := c.now
    up := c.up
    fresh := c.fresh
    out := c.out }

/-- The links of the kept LEN train again; with none, Ringmaster goes through the cases of the ID again (R601, R608). -/
def Chip.warmFabric (c : Chip) : Chip :=
  let c := c.setDatelines.timeRole
  let len := c.g .FAB_CTL_LEN 0
  if len = 0 then (if c.boot.rmAt.isSome then c.nameModule else c)
  else ((List.range 6).filter (bit len)).foldl (fun c d => c.bringUp d) c

/-- A warm reset with its source (R607, R608): partitions are fenced, compute dies and hub logic reset, a slot is selected. -/
def Chip.warmReset (c : Chip) (source : Nat) : Chip :=
  let c := c.warmFence.warmCut
  let c := (List.range 16).foldl (fun c p => (c.put .PART_STAT_STATE p (warmPart (c.g .PART_STAT_STATE p))).syncCoord p) c
  let c := (c.put .BOOT_CAUSE_SOURCE 0 source).put .BOOT_CAUSE_WARM 0 1
  let c := c.put .PWR_STAT_SELFREF 0 0xFF
  ((c.setBootCtl c.bootCtl).selectSlot 6).warmFabric

/-- The clocks and PLIM after a warm reset. -/
def Power.warmReset (p : Power) : Power := { p with plim := 3500, clk := [] }

/-- A warm reset of the module. -/
def State.warmReset (s : State) (source : Nat) : State :=
  { s with chip := s.chip.warmReset source, pwr := s.pwr.warmReset }

end Sys2Proof.Machine
end

