-- ==== Sys2Proof/Machine/Boot.lean ====
section
/-! DEFINITION. Start-up, `BOOT_CMD`, firmware writes, lockstep and the draw registers (R72, R100, R594–R603, R611–R615). -/

namespace Sys2Proof.Machine

/-! ### Cold start (R599) -/

/-- The protection record reloaded before any path can read it (R554, R590): keys, `CHG_SEQ`, DA registers, and the state of
every defined partition. -/
def Chip.loadProt (c : Chip) : Chip :=
  let lost := c.flash.prot.isNone
  let p := c.flash.prot.getD {}
  let c := { c with
    prot := p
    regs := p.da.foldl (fun (m : List (Nat × Word)) (x : Nat × Word) =>
      let k := (Reg.ofCode (x.1 / (2048 * 4096))).daMask
      sset (regDefault x.1) m x.1 ((sget (regDefault x.1) m x.1 &&& ~~~k) ||| (x.2 &&& k))) c.regs }
  let c := (c.put .BOOT_STAT_PROT_LOST 0 (b2n lost)).put .CHG_SEQ_SEQ 0 p.seq
  let c := p.mkeys.foldl (fun c x => c.put .MTR_STAT_KEYED x.1 1) c.showKeys
  (List.range 16).foldl (fun c q => if c.on .PART_TBL_VALID q then c.put .PART_STAT_STATE q 1 else c) c

/-- The cold start counted: BOOTS in the boot control block and in every reading (R553, R599). -/
def Chip.countBoot (c : Chip) : Chip :=
  let n := (c.bootCtl.boots + 1) % 2 ^ 32
  let c := c.setBootCtl { c.bootCtl with boots := n }
  (List.range 17).foldl (fun c p => c.put .MTR_EPOCH_BOOTS p n) c

/-- Ringmaster's duties at a cold start (R602, R632): health, fabric, time, and the record of a trip. -/
def Chip.ringmasterStart (c : Chip) : Chip :=
  let c := (List.range 16).foldl (fun c p => c.syncCoord p) (c.applyHealth.writeTopology.nameModule)
  if c.g .BOOT_CAUSE_SOURCE 0 = 2 ∧ c.on .PWR_TRIPLOG_VALID 0 then
    c.postFault { cls := 0x17, action := 6, place := .nobody [],
                  detail := [c.g .PWR_TRIPLOG_SENSOR 0 + c.g .PWR_TRIPLOG_CAUSE 0 * 2 ^ 8] }
  else c

/-- The sequence of a cold start (R594–R596, R599). -/
def Chip.coldStart (c : Chip) : Chip :=
  let c := c.loadProt.countBoot
  match c.loadImage with
  | none => c.recovery
  | some c =>
    let c := c.selectSlot 3
    if c.boot.rmAt.isSome then c.ringmasterStart else c

/-- COLD_START (R553, R554, R594–R602): on a supplied module that is still in its boot ROM. -/
def execColdStart (s : State) : Host.Outcome State Fault Refusal :=
  if (s.pwr.supply = .precharge ∨ s.pwr.supply = .on) ∧ s.chip.g .BOOT_STAT_STAGE 0 = 0 then .next (s.onChip Chip.coldStart)
  else .next s

/-- A claim that waited for MEM_READY takes effect (R599). -/
def State.runClaim (s : State) (p : Nat) : State :=
  if (s.chip.partS p).waiting then
    { s with chip := s.chip.claim p, pwr := (s.chip.claimed p).foldl (fun pw r => pw.clearRegion r) s.pwr }
  else s

/-- MEM_READY (R599, R607): the near tier and the Cellar hold zeros after a cold start, what they held after a warm one;
STAGE is READY, and claims that waited take effect. -/
def execMemReady (s : State) : Host.Outcome State Fault Refusal :=
  let st := s.chip.g .BOOT_STAT_STAGE 0
  if ¬ (st = 3 ∨ st = 6) ∨ s.pwr.supply ≠ .on then .next s
  else
    let s := s.onChip (fun c =>
      let c := if st = 3 then
          { c with mem := c.mem.filter (fun x => decide (x.1 < 2 * 2 ^ 60))
                   poison := c.poison.filter (fun x => decide (x.1 < 2 * 2 ^ 60)) }
        else c
      (c.set1 .BOOT_STAT_MEM_READY 0).put .BOOT_STAT_STAGE 0 4)
    .next ((List.range 16).foldl State.runClaim s)

/-! ### `BOOT_CMD` (R596, R597, R606, R614) -/

/-- Whether Ringmaster runs and a function reaches the boot commands. -/
def Chip.bootFn (c : Chip) (fn : Fn) : Bool := fnPriv fn && c.boot.rmAt.isSome

/-- BOOT_ALIVE (R596, R611): from Ringmaster alone; the running slot's attempt count is cleared. -/
def execBootAlive (fn : Fn) (s : State) : Host.Outcome State Fault Refusal :=
  nextChip s (fun c =>
    if fn ≠ .rm ∨ c.boot.rmAt.isNone then c
    else
      let c := { c with boot := { c.boot with alive := true } }
      c.setBootCtl (c.bootCtl.setAtt (c.g .BOOT_STAT_SLOT 0) 0))

/-- ALIVE_TIMEOUT (R596): no ALIVE within 10 s of Ringmaster's start is a warm reset with cause FALLBACK. -/
def execAliveTimeout (s : State) : Host.Outcome State Fault Refusal :=
  match s.chip.boot.rmAt with
  | some t => if s.chip.boot.alive ∨ s.chip.up < t + 10 ^ 10 then .next s else .next (s.warmReset 7)
  | none => .next s

/-- BOOT_COMMIT (R597, R611): MIN_SVN rises to the running image's SVN, and key 0 is revoked with REVOKE0. -/
def execBootCommit (fn : Fn) (s : State) : Host.Outcome State Fault Refusal :=
  nextChip s (fun c =>
    if fn ≠ .rm ∨ ¬ c.boot.alive then c
    else
      let b := c.bootCtl
      let rev := if c.boot.revoke0 ∧ ¬ b.revoked.contains 0 then b.revoked ++ [0] else b.revoked
      c.setBootCtl { b with minSvn := max b.minSvn (c.g .BOOT_VER_FW_SVN 0), revoked := rev })

/-- BOOT_WARM (R606, R607): ignored during a warm reset. -/
def execBootWarm (fn : Fn) (s : State) : Host.Outcome State Fault Refusal :=
  if s.chip.bootFn fn ∧ s.chip.g .BOOT_STAT_STAGE 0 ≠ 6 then .next (s.warmReset 6) else .next s

/-- BOOT_COLD (R606, R607): also during a warm reset, which it turns into a cold one. -/
def execBootCold (fn : Fn) (s : State) : Host.Outcome State Fault Refusal :=
  if s.chip.bootFn fn then .next (s.coldReset 4 s.pwr.supply) else .next s

/-- The preferred slot written (R597, R598, R614). -/
def Chip.setPref (c : Chip) (sel : Nat) : Chip := c.setBootCtl { c.bootCtl with pref := sel % 2 }

/-- BOOT_SETPREF (R598, R614). -/
def execBootSetpref (fn : Fn) (sel : Nat) (s : State) : Host.Outcome State Fault Refusal :=
  nextChip s (fun c => if ¬ c.bootFn fn then c else (c.put .BOOT_CMD_SEL 0 sel).setPref sel)

/-! ### `BOOT_FWCTL` (R598, R615) -/

/-- The 4 KiB of `BOOT_FWBUF`. -/
def Chip.fwBuf (c : Chip) : List Byte := bytesOf ((List.range 512).map (fun i => c.rd .BOOT_FWBUF 0 i))

/-- A GO of `BOOT_FWCTL`: ignored while one runs, refused while the baseboard controller writes. -/
def Chip.fwGo (c : Chip) (fn : Fn) (erase : Bool) : Chip :=
  if ¬ c.bootFn fn ∨ c.on .BOOT_FWCTL_GO 0 then c
  else
    let c := c.put .BOOT_FWCTL_ERASE 0 (b2n erase)
    let page := c.g .BOOT_FWCTL_PAGE 0
    if c.boot.fw.isSome then c.put .BOOT_FWCTL_RESULT 0 4
    else if ¬ erase ∧ 6143 < page then c.put .BOOT_FWCTL_RESULT 0 2
    else
      let base := slotBase c.standby
      let j : FwJob := if erase then { bmc := false, erase := true, addr := base, len := slotSize }
        else { bmc := false, erase := false, addr := base + 4096 * page, data := c.fwBuf }
      { c.set1 .BOOT_FWCTL_GO 0 with boot := { c.boot with fw := some j } }

/-- FWCTL_WRITE_PAGE (R598, R615). -/
def execFwctlWritePage (fn : Fn) (s : State) : Host.Outcome State Fault Refusal := nextChip s (fun c => c.fwGo fn false)

/-- FWCTL_ERASE (R615). -/
def execFwctlErase (fn : Fn) (s : State) : Host.Outcome State Fault Refusal := nextChip s (fun c => c.fwGo fn true)

/-- FWCTL_DONE (R610, R615): the flash action ends; a page that was not erased gives FLASH_ERR, to the baseboard controller
ERROR. -/
def execFwctlDone (s : State) : Host.Outcome State Fault Refusal :=
  nextChip s (fun c =>
    match c.boot.fw with
    | none => c
    | some j =>
      let (f, ok) := j.apply c.flash
      let c := { c with flash := f, boot := { c.boot with fw := none } }
      if j.bmc then c.emit (.mctp [if ok then 0 else 1])
      else (c.put .BOOT_FWCTL_GO 0 0).put .BOOT_FWCTL_RESULT 0 (if ok then 0 else 3))

/-! ### Management cores, the wait for an ID, draws (R72, R100, R601, R603) -/

/-- LOCKSTEP_MISMATCH (R497, R603): a pair stops and is reported; the waiting pair becomes active. -/
def execLockstepMismatch (pair : Nat) (s : State) : Host.Outcome State Fault Refusal :=
  nextChip s (fun c =>
    let f : Fld := if pair = 0 then .BOOT_STAT_PAIR0_OK else .BOOT_STAT_PAIR1_OK
    let o : Fld := if pair = 0 then .BOOT_STAT_PAIR1_OK else .BOOT_STAT_PAIR0_OK
    if 2 ≤ pair ∨ c.boot.rmAt.isNone ∨ ¬ c.on f 0 then c
    else
      let c := (c.put f 0 0).postFault { cls := 0x16, place := .nobody [], detail := [pair] }
      if c.g .BOOT_STAT_ACTIVE_PAIR 0 = pair ∧ c.on o 0 then c.put .BOOT_STAT_ACTIVE_PAIR 0 (1 - pair) else c)

/-- ID_WAIT_TIMEOUT (R601): the wait ends without SET_ID; links stay disabled. -/
def execIdWaitTimeout (s : State) : Host.Outcome State Fault Refusal :=
  nextChip s (fun c =>
    match c.boot.waitId with
    | some t => if c.up < t then c else { c with boot := { c.boot with waitId := none, noId := true } }
    | none => c)

/-- HUB_SRT_GO (R100): an evaluation of R72 starts. -/
def execHubSrtGo (fn : Fn) (p : Nat) (s : State) : Host.Outcome State Fault Refusal :=
  nextChip s (fun c => if c.reaches fn .HUB_SRT_STEP p then c.set1 ⟨.HUB_SRT_STEP, 63, 63⟩ p else c)

/-- HUB_SRT_DONE (R72, R100): VALUE holds the draw of the partition's seed, and GO reads 0. The rule drops writes of `HUB_SRT_IDX`
and `HUB_SRT_STEP` while GO reads 1 and is silent on `HUB_SEED`: the key is the seed at the end of the evaluation (DESIGN
CHOICE, log entry 53). -/
def execHubSrtDone (p : Nat) (s : State) : Host.Outcome State Fault Refusal :=
  nextChip s (fun c =>
    if ¬ c.on ⟨.HUB_SRT_STEP, 63, 63⟩ p then c
    else
      let i := c.rd .HUB_SRT_IDX p
      let t := c.rd .HUB_SRT_STEP p
      let v := draw (c.rd .HUB_SEED p).toNat (wbits i 63 40) (wbits i 39 0) (wbits t 47 0) (wbits t 55 48)
      (c.wr .HUB_SRT_OUT p (Word.ofNat (v % 2 ^ 32))).put ⟨.HUB_SRT_STEP, 63, 63⟩ p 0)

end Sys2Proof.Machine
end

