-- ==== Sys2Proof/Machine/Power.lean ====
section
/-! DEFINITION. Clock islands, the supply, the limiter, sensors and trips, and the scrub of hardened words (R34–R37,
R617–R636, R641–R645). -/

namespace Sys2Proof.Machine

/-! ### Clock islands (R34–R37, R623) -/

/-- Compute die of a clock island: regions 0–15, then clusters. -/
def dieOfIsland (i : Nat) : Nat := if i < 16 then i / 4 else (i - 16) / 32

/-- CAP of a compute die. -/
def Power.cap (p : Power) (die : Nat) : Nat := sget 40 p.caps die
/-- CAP of a compute die replaced. -/
def Power.setCap (p : Power) (die cap : Nat) : Power := { p with caps := sset 40 p.caps die cap }

/-- The bounds of an island: MIN (MAX where MIN > MAX), and the lesser of MAX and CAP; CAP takes precedence (R34, R36,
R37). -/
def Power.bounds (p : Power) (i : Nat) : Nat × Nat :=
  let x := p.island i
  let hi := min x.max (p.cap (dieOfIsland i))
  (min (min x.min x.max) hi, hi)

/-- The code that an island takes at the end of a 2 µs window: a step of 1 down above 50 % stalls, up below 10 %. R34 says both
that an island with outstanding work runs at its upper bound and that it reaches that bound by such steps; here the steps
alone move it, whatever work is outstanding (DESIGN CHOICE, log entry 52). -/
def Power.nextCode (p : Power) (i stalled total : Nat) : Nat :=
  let x := p.island i
  let (lo, hi) := p.bounds i
  if x.fixed then hi
  else clamp lo hi (if total < 2 * stalled then x.cur - 1 else if 10 * stalled < total then x.cur + 1 else x.cur)

/-- A command that changes nothing but clocks and limiter answers a next state. -/
def nextPower (s : State) (f : Power → Power) : Host.Outcome State Fault Refusal := .next { s with pwr := f s.pwr }

/-- CLOCK_WINDOW_END (R34): the change is made at the next boundary. -/
def execClockWindowEnd (isl stalled total : Nat) (s : State) : Host.Outcome State Fault Refusal :=
  nextPower s (fun p =>
    let x := p.island isl
    if 144 ≤ isl ∨ x.gated then p
    else
      let t := p.nextCode isl stalled total
      p.setIsland isl { x with pend := if t = x.cur then none else some t })

/-- Whether an engine island lies between two output tiles: no unit of it is in a tile (R35). A cell transfer of a region island
is one step of the model, so that a region island always lies between two of them. -/
def Chip.betweenTiles (c : Chip) (isl : Nat) : Bool :=
  decide (isl < 16) || (unitsOf (isl - 16)).all (fun u => (c.unit u).run.isNone)

/-- ISLAND_CLOCK_CHANGE (R35, R626): at a tile or transfer boundary the island takes its pending code, or a lower CAP. -/
def execIslandClockChange (isl : Nat) (s : State) : Host.Outcome State Fault Refusal :=
  nextPower s (fun p =>
    let x := p.island isl
    if 144 ≤ isl ∨ x.gated ∨ ¬ s.chip.betweenTiles isl then p
    else
      let (lo, hi) := p.bounds isl
      p.setIsland isl { x with cur := if x.fixed then hi else clamp lo hi (x.pend.getD x.cur), pend := none })

/-- Whether a unit has nothing to do: no tile ready or running, no Solver tile in bank S (R623). -/
def UnitS.idle (x : UnitS) : Bool :=
  x.queue.isEmpty && x.ahead.isEmpty && x.run.isNone && x.vbuf.isNone && x.bankS.isNone

/-- ISLAND_GATE (R623): an engine island without work stops its clock; CUR keeps its code. -/
def execIslandGate (isl : Nat) (s : State) : Host.Outcome State Fault Refusal :=
  nextPower s (fun p =>
    if isl < 16 ∨ 144 ≤ isl ∨ ¬ (unitsOf (isl - 16)).all (fun u => (s.chip.unit u).idle) then p
    else p.setIsland isl { p.island isl with gated := true })

/-- ISLAND_WAKE (R623): the clock resumes at the code it had. -/
def execIslandWake (isl : Nat) (s : State) : Host.Outcome State Fault Refusal :=
  nextPower s (fun p => if 144 ≤ isl then p else p.setIsland isl { p.island isl with gated := false })

/-- Clock in MHz of a compute die's queue network (R32): 0.6 GHz while all four regions of the die are parked. -/
def Chip.networkClock (c : Chip) (die : Nat) : Nat :=
  if bits (c.g .PWR_STAT_PARKED 0) (4 * die + 3) (4 * die) = 15 then 600 else 2000

/-- Clock in MHz of an island of the module (R32), 0 while it is gated: region and engine islands 0–143, networks 144–147, hub
islands 148–150, stack base dies from 151. -/
def State.clockOf (s : State) (isl : Nat) : Nat :=
  if isl < 144 then (if (s.pwr.island isl).gated then 0 else 50 * (s.pwr.island isl).cur)
  else if isl < 148 then s.chip.networkClock (isl - 144)
  else if isl < 151 then Config.hubClock s.chip.cfg.vendor (isl - 148)
  else Config.stackClock

/-! ### CAP (R36, R625, R626) -/

/-- `PWR_STAT.CAP` shows the lowest CAP applied. -/
def State.showCap (s : State) : State :=
  s.onChip (fun c => c.put .PWR_STAT_CAP 0 (min (min (s.pwr.cap 0) (s.pwr.cap 1)) (min (s.pwr.cap 2) (s.pwr.cap 3))))

/-- CAP of some dies changed. -/
def State.mapCap (s : State) (dies : List Nat) (f : Nat → Nat) : State :=
  { s with pwr := dies.foldl (fun p d => p.setCap d (f (p.cap d))) s.pwr }.showCap

/-- CAP lowered by n codes, to no less than 12 (R36). -/
def lowerCap (n cap : Nat) : Nat := max 12 (cap - n)

/-- The compute dies. -/
def dies4 : List Nat := [0, 1, 2, 3]

/-- Whether the module rides through a dropout. -/
def Chip.riding (c : Chip) : Bool := c.on .PWR_STAT_RIDING 0

/-- SMB_ALERT# asserted (R622). -/
def Chip.alert (c : Chip) : Chip := c.emit (.pin 3 false)

/-! ### Trips (R631, R632, R643) -/

/-- The trip logic removes power: PWR_GOOD deasserts and the cause is recorded; only the always-on domain, with the flash, keeps
its state until the module leaves the trip (R631, R632, R643). -/
def State.trip (s : State) (cause sensor value : Nat) : State :=
  if s.pwr.supply = .off ∨ s.pwr.supply = .tripped then s
  else
    let s := s.onChip (fun c => c.wr .PWR_TRIPLOG 0
      (Word.ofNat (cause + 2 ^ 4 + sensor % 256 * 2 ^ 8 + value % 2 ^ 16 * 2 ^ 16)))
    { s with
      chip := (((s.chip.powerLoss alwaysOn 2).limiterReset).emit (.pin 4 false)).alert
      pwr := { s.pwr with plim := 3500, clk := [], caps := [], hot := [], joules := 0, supply := .tripped } }

/-- Reading i of the sensors, where it is current (R644). -/
def Chip.sensor (c : Chip) (i : Nat) : Option Int :=
  if c.on .THM_SENSOR_VALID 0 i then some (signed 16 (c.g .THM_SENSOR_VALUE 0 i)) else none

/-- The worse of two readings of a coolant quantity; the lower one for flow. -/
def worse (flow : Bool) (a b : Option Int) : Option Int :=
  match a, b with
  | some x, some y => some (if flow then min x y else max x y)
  | some x, none => some x
  | none, b => b

/-- Whether a coolant sensor was found invalid: sampled, and its reading not used. -/
def Chip.sensorLost (c : Chip) (i : Nat) : Bool := !c.on .THM_SENSOR_VALID 0 i && c.on .THM_SENSOR_DEGRADED 0 i

/-- The trip level of a sensor in its own units; none for sensors without one (R629, R644). -/
def tripLevel (i : Nat) : Option Int :=
  if 4 ≤ i ∧ i < 8 then some 1100
  else if 8 ≤ i ∧ i < 18 then some 1050
  else if i = 18 ∨ i = 19 then some 450
  else if i = 20 ∨ i = 21 then some 650
  else none

/-- The warning level of a sensor; flow warns below its level. -/
def warnLevel (i : Nat) : Option Int :=
  if 4 ≤ i ∧ i < 9 then some 900
  else if 9 ≤ i ∧ i < 18 then some 850
  else if i = 18 ∨ i = 19 then some 350
  else if i = 20 ∨ i = 21 then some 550
  else if i = 22 ∨ i = 23 then some 350
  else none

/-- Whether a reading lies at or beyond the warning level. -/
def warns (i : Nat) (v : Int) : Bool :=
  match warnLevel i with
  | some l => if 22 ≤ i then decide (v < l) else decide (l ≤ v)
  | none => false

/-- Sensors of a die that are not excluded (R630). -/
def Power.validJunctions (p : Power) (die : Nat) : Nat :=
  32 - (p.junc.filter (fun x => x.1 / 32 == die && x.2.isNone)).length

/-- Whether a trip condition of the sensors or of the input holds now (R631, R632). -/
def State.tripHolds (s : State) : Bool :=
  let c := s.chip
  s.pwr.leak || decide (420000 < s.pwr.mv) || decide (10000 ≤ s.pwr.overs) || decide (2 ≤ s.pwr.amps)
    || decide (5 ≤ s.pwr.watts) || (s.pwr.slow != 0 && decide (s.pwr.slow - 1 + 500000000 ≤ c.up))
    || dies4.any (fun d => decide (s.pwr.validJunctions d < 24))
    || [18, 20, 22].any (fun i => c.sensorLost i && c.sensorLost (i + 1))
    || (List.range 24).any (fun i => match c.sensor i, tripLevel i with | some v, some l => decide (l ≤ v) | _, _ => false)

/-! ### Supply (R617, R619, R622) -/

/-- PWR_QUALIFIED (R617): the precharge starts. -/
def execPwrQualified (s : State) : Host.Outcome State Fault Refusal :=
  nextPower s (fun p => if p.supply = .off then { p with supply := .precharge } else p)

/-- PRECHARGE_DONE (R617, R622): the converters start and PWR_GOOD asserts. -/
def execPrechargeDone (s : State) : Host.Outcome State Fault Refusal :=
  if s.pwr.supply = .precharge then
    .next ({ s with pwr := { s.pwr with supply := .on } }.onChip (fun c => c.emit (.pin 4 true)))
  else .next s

/-- The rails disabled: PWR_GOOD deasserts and the module is reset (R619, R622). -/
def State.shutDown (s : State) (source : Nat) : State :=
  (s.coldReset source .off).onChip (fun c => c.emit (.pin 4 false))

/-- BULK_WARN (R619, R622). -/
def execBulkWarn (s : State) : Host.Outcome State Fault Refusal :=
  nextChip s (fun c =>
    if c.riding ∧ ¬ c.on .PWR_STAT_WARN_OUT 0 then (c.set1 .PWR_STAT_WARN_OUT 0).emit (.pin 5 false) else c)

/-- HOLDUP_SHUTDOWN (R619): what DRAM held is lost, and the next start has SOURCE 1. -/
def execHoldupShutdown (s : State) : Host.Outcome State Fault Refusal :=
  if s.pwr.supply = .on ∧ s.chip.riding then .next (s.shutDown 1) else .next s

/-- RIDING_CLEAR (R619): the bulk is back at 340 V. -/
def execRidingClear (s : State) : Host.Outcome State Fault Refusal :=
  nextChip s (fun c =>
    if ¬ c.riding then c
    else
      let c := c.put .PWR_STAT_RIDING 0 0
      if c.on .PWR_STAT_WARN_OUT 0 then (c.put .PWR_STAT_WARN_OUT 0 0).emit (.pin 5 true) else c)

/-- PWR_EN_LOW (R622). -/
def execPwrEnLow (s : State) : Host.Outcome State Fault Refusal :=
  if s.pwr.supply = .on ∨ s.pwr.supply = .precharge then .next (s.shutDown 0) else .next s

/-- TRIP_EXIT (R632): a tripped module starts again, with SOURCE 2. -/
def execTripExit (s : State) : Host.Outcome State Fault Refusal :=
  if s.pwr.supply = .tripped then
    let s := s.coldReset 2 .precharge
    .next { s with pwr := { s.pwr with leak := false } }
  else .next s

/-- LEAK_DETECTOR_WETTED (R631). -/
def execLeakDetectorWetted (s : State) : Host.Outcome State Fault Refusal :=
  let s := { s with pwr := { s.pwr with leak := true } }
  let (v, c) := s.chip.free 16
  .next ({ s with chip := c }.trip 3 0 v)

/-- RAIL_OUT_OF_RANGE (R631). -/
def execRailOutOfRange (_rail : Nat) (s : State) : Host.Outcome State Fault Refusal :=
  let (v, c) := s.chip.free 16
  .next ({ s with chip := c }.trip 2 0 v)

/-! ### The limiter (R625–R627) -/

/-- Whether the average of the newest n samples lies above a power in W. -/
def Power.avgAbove (p : Power) (n watts : Nat) : Bool :=
  let xs := p.samples.take n
  decide (watts * 10 ^ 6 * xs.length < xs.sum)

/-- Average of the newest n samples in W; 0 with no sample. -/
def Power.avg (p : Power) (n : Nat) : Nat :=
  let xs := p.samples.take n
  if xs.isEmpty then 0 else xs.sum / xs.length / 10 ^ 6

/-- A sample taken into the averages, the counts of samples in a row above the electrical limits, and the energy. -/
def Power.sample (p : Power) (mv ma : Nat) : Power :=
  let w := mv * ma
  { p with
    samples := (w :: p.samples).take 10000
    joules := (p.joules + w) % 10 ^ 8
    overs := if 400000 < mv then p.overs + 1 else 0
    amps := if 16000 < ma then p.amps + 1 else 0
    watts := if 4600 * 10 ^ 6 < w then p.watts + 1 else 0
    mv := mv }

/-- A reading shown by `THM_SENSOR[i]`. -/
def Chip.showSensor (c : Chip) (i : Nat) (v : Int) : Chip :=
  (c.put .THM_SENSOR_VALUE 0 (unsigned 16 v) i).put .THM_SENSOR_VALID 0 1 i

/-- What a sample of the input shows: readings 0–2, IN_RANGE, PIN_AVG, energy, and OV_WARN (R641–R644). `joules` is the
energy not yet shown before the sample. -/
def Chip.showInput (c : Chip) (p : Power) (joules mv ma : Nat) : Chip :=
  let c := ((c.showSensor 0 (mv / 100 : Nat)).showSensor 1 (ma / 10 : Nat)).showSensor 2 (mv * ma / 10 ^ 6 : Nat)
  let c := c.put .PWR_STAT_IN_RANGE 0 (b2n (decide (340000 ≤ mv) && decide (mv ≤ 400000)))
  let c := (c.put .PWR_STAT_PIN_AVG 0 (p.avg 100)).inc .PWR_ENERGY_ENERGY 0 ((joules + mv * ma) / 10 ^ 8)
  let c := if 400000 < mv then c.set1 .PWR_STICKY_OV_WARN 0 else c
  if mv = 0 then c.regReset .PWR_TRIPLOG 0 else c

/-- A dropout: CAP 24 in every island, RIDING, and the occurrence counted when RIDING sets (R619). -/
def State.dropout (s : State) : State :=
  let s := if s.chip.riding then s
    else s.onChip (fun c => (((c.set1 .PWR_STAT_RIDING 0).set1 .PWR_STICKY_DROPOUT 0).inc .PWR_CNT_DROPOUT_COUNT 0).alert)
  s.mapCap dies4 (fun _ => 24)

/-- The fast rule, which rests while the module rides through a dropout, and POWER_LIMITING (R619, R625). -/
def State.fastRule (s : State) (w : Nat) : State :=
  let fast := decide (4200 * 10 ^ 6 < w) && !s.chip.riding
  let s := s.onChip (fun c => c.put .PWR_STAT_POWER_LIMITING 0 (b2n (fast || s.pwr.avgAbove 1000 s.pwr.plim)))
  if fast then (s.mapCap dies4 (lowerCap 4)).onChip (fun c => c.set1 .PWR_STICKY_FAST_LIMIT 0) else s

/-- The electrical trips of a sample (R631). -/
def State.inputTrips (s : State) (mv ma : Nat) : State :=
  if 420000 < mv ∨ 10000 ≤ s.pwr.overs then s.trip 5 0 (mv / 100)
  else if 2 ≤ s.pwr.amps then s.trip 6 0 (ma / 10)
  else if 5 ≤ s.pwr.watts then s.trip 7 0 (mv * ma / 10 ^ 6)
  else s

/-- INPUT_SAMPLE (R617, R619, R625, R631, R632, R641–R644): voltage in mV and current in mA. A precharge stops below 340 V; a
tripped module without input loses its always-on domain. -/
def execInputSample (mv ma : Nat) (s : State) : Host.Outcome State Fault Refusal :=
  let joules := s.pwr.joules
  let s := { s with pwr := s.pwr.sample mv ma }
  let s := s.onChip (fun c => c.showInput s.pwr joules mv ma)
  match s.pwr.supply with
  | .off => .next s
  | .tripped => if mv = 0 then .next (s.coldReset 0 .off) else .next s
  | .precharge =>
    if mv < 340000 then .next { s with pwr := { s.pwr with supply := .off } } else .next (s.inputTrips mv ma)
  | .on =>
    let s := if mv < 320000 then s.dropout else s
    .next ((s.fastRule (mv * ma)).inputTrips mv ma)

/-- AVERAGE_RULE_TICK (R619, R625): CAP falls by 1 code while the 10 ms average lies above PLIM. -/
def execAverageRuleTick (s : State) : Host.Outcome State Fault Refusal :=
  if s.pwr.supply = .on ∧ ¬ s.chip.riding ∧ s.pwr.avgAbove 1000 s.pwr.plim then
    .next ((s.mapCap dies4 (lowerCap 1)).onChip (fun c => (c.set1 .PWR_STICKY_AVG_LIMIT 0).set1 .PWR_STAT_POWER_LIMITING 0))
  else .next s

/-- RECOVERY_RULE_TICK (R619, R625): CAP rises by 1 code, up to 40, on every die without an active thermal rule. -/
def execRecoveryRuleTick (s : State) : Host.Outcome State Fault Refusal :=
  let xs := s.pwr.samples
  if s.pwr.supply = .on ∧ ¬ s.chip.riding ∧ 100 * xs.sum < 97 * s.pwr.plim * 10 ^ 6 * xs.length then
    .next (s.mapCap (dies4.filter (fun d => !s.pwr.hot.contains d)) (fun c => min 40 (c + 1)))
  else .next s

/-- PLIM_WRITE (R627, R641): 2,000 W to the vendor-section limit of 3,500 W. -/
def execPlimWrite (fn : Fn) (data : Word) (s : State) : Host.Outcome State Fault Refusal :=
  .next (if s.chip.reaches fn .PWR_CTL 0 then s.plimWrite (wbits data 12 0) else s)

/-! ### Sensors (R629, R630, R644) -/

/-- A warning level reached: WARN of the sensor, WARN of `PWR_STICKY` and SMB_ALERT# when it sets (R622, R641). -/
def Chip.warn (c : Chip) (i : Nat) (w : Bool) : Chip :=
  let was := c.on .THM_SENSOR_WARN 0 i
  let c := c.put .THM_SENSOR_WARN 0 (b2n w) i
  if w ∧ ¬ was then (c.set1 .PWR_STICKY_WARN 0).alert else if w then c.set1 .PWR_STICKY_WARN 0 else c

/-- A limiting action on or off: LIMIT of the sensor, and the marks of `PWR_STAT` and `PWR_STICKY`. -/
def Chip.limit (c : Chip) (i : Nat) (l : Bool) : Chip :=
  let c := c.put .THM_SENSOR_LIMIT 0 (b2n l) i
  let c := if l then c.set1 .PWR_STICKY_THERM_LIMIT 0 else c
  c.put .PWR_STAT_THERMAL_LIMITING 0 (b2n ((List.range 24).any (fun k => c.on .THM_SENSOR_LIMIT 0 k)))

/-- A sensor whose reading is not used (R630). -/
def Chip.degrade (c : Chip) (i : Nat) (d : Bool) : Chip :=
  let c := c.put .THM_SENSOR_DEGRADED 0 (b2n d) i
  if d then c.set1 .PWR_STICKY_SENSOR_DEG 0 else c

/-- Whether a junction reading is out of range (R630). -/
def junctionBad (v : Int) : Bool := decide (v < -200) || decide (1500 < v)

/-- Readings of a die's sensors other than sensor k, of those not excluded. -/
def Power.others (p : Power) (die k : Nat) : List Int :=
  (p.junc.filter (fun x => x.1 / 32 == die && x.1 % 32 != k)).filterMap Prod.snd

/-- Whether a reading lies more than 15 K from the mean of the die's other sensors (R630). -/
def farOff (v : Int) (xs : List Int) : Bool :=
  !xs.isEmpty && decide (150 * (xs.length : Int) < ((v * xs.length - xs.sum).natAbs : Int))

/-- The hottest reading of a die. -/
def Power.hottest (p : Power) (die : Nat) : Option Int :=
  ((p.junc.filter (fun x => x.1 / 32 == die)).filterMap Prod.snd).foldl
    (fun a v => match a with | none => some v | some b => some (max v b)) none

/-- The thermal rule of a compute die: active from 95 °C until below 92 °C; CAP falls by 1 code per 100 µs at 95 °C or more
(R629). -/
def State.thermalRule (s : State) (die : Nat) (v : Int) : State :=
  let p := s.pwr
  let hot := decide (950 ≤ v) || (p.hot.contains die && decide (920 ≤ v))
  let p := { p with hot := if hot then (if p.hot.contains die then p.hot else p.hot ++ [die]) else p.hot.filter (· != die) }
  let s : State := { s with pwr := p }
  let s := s.onChip (fun c => c.limit (4 + die) hot)
  let last : List (Nat × Nat) := s.pwr.thermAt.filter (fun (x : Nat × Nat) => x.1 == die)
  let due : Bool := last.all (fun x => decide (x.2 + 100000 ≤ s.chip.up))
  if 950 ≤ v ∧ due then
    { s with pwr := { s.pwr with thermAt := s.pwr.thermAt.filter (fun (x : Nat × Nat) => x.1 != die) ++ [(die, s.chip.up)] } }.mapCap
      [die] (lowerCap 1)
  else s

/-- A trip if a level is reached (R631). -/
def State.levelTrip (s : State) (i : Nat) (v : Int) : State :=
  match tripLevel i with
  | some l => if l ≤ v then s.trip 1 i (unsigned 16 v) else s
  | none => s

/-- A sample of one of the 32 junction sensors of a compute die (R629, R630). -/
def State.junctionSample (s : State) (die k : Nat) (v : Int) (plausible : Bool) : State :=
  let bad := !plausible || junctionBad v || farOff v (s.pwr.others die k)
  let key := 32 * die + k
  let js := s.pwr.junc.filter (fun x => x.1 != key) ++ [(key, if bad then none else some v)]
  let s := { s with pwr := { s.pwr with junc := sortBy Prod.fst js } }
  let s := s.onChip (fun c => c.degrade (4 + die) (decide (s.pwr.validJunctions die < 32)))
  match s.pwr.hottest die with
  | none => if s.pwr.validJunctions die < 24 then s.trip 4 (4 + die) (unsigned 16 v) else s
  | some h =>
    let s := s.onChip (fun c => (c.showSensor (4 + die) h).warn (4 + die) (warns (4 + die) h))
    let s := s.thermalRule die h
    if s.pwr.validJunctions die < 24 then s.trip 4 (4 + die) (unsigned 16 v) else s.levelTrip (4 + die) h

/-- A sample of a coolant sensor (R629, R630): the worse of A and B decides; both lost is a trip; flow below 2.0 L/min trips
after 500 ms. -/
def State.coolantSample (s : State) (i : Nat) (v : Int) (plausible : Bool) : State :=
  let a := i - i % 2
  let flow := decide (22 ≤ i)
  let s := s.onChip (fun c =>
    let c := if plausible then (c.showSensor i v).warn i (warns i v) else c.put .THM_SENSOR_VALID 0 0 i
    let apart := match c.sensor a, c.sensor (a + 1) with
      | some x, some y => decide ((50 : Int) < ((x - y).natAbs : Int))
      | _, _ => false
    let c := c.degrade i (apart || !plausible)
    let o := if i = a then a + 1 else a
    if (c.sensor o).isSome then c.degrade o apart else c)
  if s.chip.sensorLost a ∧ s.chip.sensorLost (a + 1) then s.trip 4 i (unsigned 16 v)
  else
    match worse flow (s.chip.sensor a) (s.chip.sensor (a + 1)) with
    | none => s
    | some w =>
      if flow then
        let slow := if w < 200 then (if s.pwr.slow = 0 then s.chip.up + 1 else s.pwr.slow) else 0
        let s := { s with pwr := { s.pwr with slow := slow } }
        if slow ≠ 0 ∧ slow - 1 + 500000000 ≤ s.chip.up then s.trip 1 i (unsigned 16 w) else s
      else s.levelTrip i w

/-- A sample of the hub, a stack or the Cellar (R629): stacks and Cellar limit at 95 °C. -/
def State.deviceSample (s : State) (i : Nat) (v : Int) (plausible : Bool) : State :=
  let bad := !plausible || (i == 8 && junctionBad v)
  if bad then s.onChip (fun c => (c.put .THM_SENSOR_VALID 0 0 i).degrade i true)
  else
    let s := s.onChip (fun c =>
      let c := ((c.showSensor i v).degrade i false).warn i (warns i v)
      if 9 ≤ i then c.limit i (decide (950 ≤ v)) else c)
    s.levelTrip i v

/-- THERMAL_SAMPLE (R629–R631, R644): index 3 is the bulk voltage, 8–23 the sensors of R644, and 256 + 32 · die + k junction
sensor k of a compute die, in the units of R644. -/
def execThermalSample (sensor : Nat) (value : Int) (plausible : Bool) (s : State) : Host.Outcome State Fault Refusal :=
  if s.pwr.supply = .off then .next s
  else if sensor = 3 then .next (s.onChip (fun c => c.showSensor 3 value))
  else if 8 ≤ sensor ∧ sensor < 18 then .next (s.deviceSample sensor value plausible)
  else if 18 ≤ sensor ∧ sensor < 24 then .next (s.coolantSample sensor value plausible)
  else if 256 ≤ sensor ∧ sensor < 384 then .next (s.junctionSample ((sensor - 256) / 32) ((sensor - 256) % 32) value plausible)
  else .next s

/-! ### Hardened storage (R633–R636, R645) -/

/-- Whether a register holds hardened words (R633). -/
def hardened (r : Reg) : Bool :=
  r.fields.any (fun f => f.da || f.lk) || r == .PART_OWN || r == .CLU_SEQ_RTN || r == .MXE_HEALTH || r == .CSK_STAT || r == .FAB_ID
    || r == .FAB_TOPO || r == .FAB_RT || r == .FAB_TIME_CTL || r == .PWR_CTL

/-- The value that at least two valid copies of a word agree on (R634). -/
def Upset3.vote (u : Upset3) : Option Nat :=
  match u.a, u.b, u.c with
  | some x, some y, z => if x = y then some x else if z = some x then some x else if z = some y then some y else none
  | some x, none, some z => if x = z then some x else none
  | none, some y, some z => if y = z then some y else none
  | _, _, _ => none

/-- Copies that agree. -/
def Upset3.agree (u : Upset3) : Nat :=
  match u.vote with
  | some v => ([u.a, u.b, u.c].filter (· == some v)).length
  | none => if u.a.isSome || u.b.isSome || u.c.isSome then 1 else 0

/-- The safe value of a half of a register word: VALID, REGIONS, OWNED and `FAB_PERM` 0, routes DROP, health and fault map
all ones, else the last resolved value (R635). -/
def safeWord (r : Reg) (half : Nat) (w : Word) : Word :=
  match r with
  | .PART_TBL => if half = 0 then wset w 16 0 0 else w
  | .PART_NTX => if half = 0 then wset w 0 0 0 else w
  | .PART_CLX => if half = 0 then wset w 0 0 0 else w
  | .PART_CGRANT => if half = 0 then wset w 24 24 0 else w
  | .PART_OWN => wset w 4 4 0
  | .CLU_SEQ_RTN => if half = 0 then w else wset w 63 63 0
  | .FAB_PERM => wset w (32 * half + 31) (32 * half) 0
  | .FAB_RT => Word.ofNat 0x07070707
  | .MXE_HEALTH => wset w 1 0 3
  | .CSK_STAT => if half = 0 then wset w 31 6 (2 ^ 26 - 1) else wset w 37 32 (2 ^ 6 - 1)
  | _ => w

/-- The partitions that a hardened word concerns: its own, its region's owner, or every defined one (R635). -/
def Chip.wordParts (c : Chip) (u : Upset3) : List Nat :=
  let all := (List.range 16).filter (fun p => c.on .PART_TBL_VALID p)
  match u.reg.info.kind with
  | .P => [u.inst]
  | .R => (c.owner u.inst).toList
  | .C => (c.owner (u.inst / 8)).toList
  | .U => (c.owner (u.inst / 64)).toList
  | _ => if u.reg == .PART_OWN then (c.owner u.idx).toList else all

/-- What a safe value brings about: a withdrawn unit, a stack without Casks, a partition no longer defined. -/
def Chip.safeEffect (c : Chip) (u : Upset3) : Chip :=
  match u.reg with
  | .MXE_HEALTH => c.withdraw u.inst
  | .CSK_STAT =>
    if c.g .CSK_STAT_FAULTMAP 0 u.idx = 2 ^ 32 - 1 then
      let ps := (List.range 16).filter (fun p => (List.range 128).any (fun i =>
        match ntxSet (c.rd .PART_NTX p i) with | some st => st.contains u.idx | none => false))
      c.postFault { cls := 0x14, action := 5, place := .nobody ps, loc := u.idx, lockind := 4, detail := [u.idx] }
    else c
  | .PART_TBL => if c.runs u.inst then c else c.setPart u.inst 0
  | _ => c

/-- A half of a hardened word rewritten in all three copies; PLIM lies with the limiter. -/
def Chip.setHalf (c : Chip) (u : Upset3) (w : Word) : Chip :=
  if u.reg = .PWR_CTL then c else c.wrBits u.reg u.inst w (32 * u.half + 31) (32 * u.half) u.idx

/-- One hardened word read by the scrub: corrected by majority, or at its safe value as a control-path fault (R634, R635). -/
def Chip.scrubWord (c : Chip) (u : Upset3) : Chip :=
  let off := u.reg.offset u.inst u.idx + 4 * u.half
  let old := c.rd u.reg u.inst u.idx
  match u.vote with
  | some v =>
    let c := c.setHalf u (wset old (32 * u.half + 31) (32 * u.half) v)
    let c := c.incSat .HUB_HARD_STAT_CORRECTED 0
    let pl : Place := match c.wordParts u with | [p] => .part p | ps => .nobody ps
    c.postFault { cls := 0x0A, place := pl, detail := [off, u.agree] }
  | none =>
    let ps := c.wordParts u
    let c := c.setHalf u (safeWord u.reg u.half old)
    let c := c.incSat .HUB_HARD_STAT_UNRESOLVED 0
    let part := if u.reg.info.kind = .P then u.inst else 0
    let c := c.wr .HUB_HARD_ADDR 0 (Word.ofNat (off + part * 2 ^ 32 + 2 ^ 63))
    let pl : Place := match ps with | [p] => .part p | ps => .nobody ps
    (c.ctrlFault ps { cls := 0x0A, action := 2, place := pl, detail := [off, u.agree] }).safeEffect u

/-- HARDENED_SCRUB_PASS (R634–R636, R645): every hardened word is read once; an unresolved PLIM takes the vendor-section
value. -/
def execHardenedScrubPass (s : State) : Host.Outcome State Fault Refusal :=
  let us := s.chip.upsets.filter (fun u => hardened u.reg)
  let plim := us.foldl (fun p u => if u.reg = .PWR_CTL then (match u.vote with | some v => clamp 2000 3500 (bits v 12 0) | none => 3500) else p)
    s.pwr.plim
  let c := us.foldl (fun c u => c.scrubWord u) { s.chip with upsets := [] }
  .next { s with chip := c.inc .HUB_HARD_STAT_PASSES 0, pwr := { s.pwr with plim := plim } }

end Sys2Proof.Machine
end

