-- ==== Sys2Proof/Machine/Mctp.lean ====
section
/-! DEFINITION. The management bus: the module's own commands and the MCTP control messages (R601, R609, R610, R632). A
request is the list of its bytes after the command byte; a response is a completion code followed by its data. -/

namespace Sys2Proof.Machine

/-- A response sent (R609). -/
def Chip.reply (c : Chip) (code : Nat) (data : List Byte := []) : Chip := c.emit (.mctp (BitVec.ofNat 8 code :: data))

/-- A response of the module. -/
def State.answer (s : State) (code : Nat) (data : List Byte := []) : State := s.onChip (fun c => c.reply code data)

/-- Whether Ringmaster runs: it has started, and a pair is not stopped (R603). -/
def Chip.rmRuns (c : Chip) : Bool := c.boot.rmAt.isSome && (c.on .BOOT_STAT_PAIR0_OK 0 || c.on .BOOT_STAT_PAIR1_OK 0)

/-- Whether a request of the baseboard controller is in progress (R610). -/
def Chip.mctpBusy (c : Chip) : Bool := c.mjobs.any (fun j => j.path == 2) || (match c.boot.fw with | some j => j.bmc | none => false)

/-- A request served: no response without supply, BUSY while another is in progress, NOT_READY where neither Ringmaster nor
the hub answers it; `always` names the requests that a tripped module answers too, `sub` those of the RECOVERY subset (R594,
R603, R610, R632). -/
def State.serve (s : State) (always sub : Bool) (f : State → State) : Host.Outcome State Fault Refusal :=
  if s.pwr.supply = .off then .next s
  else if s.chip.mctpBusy then .next (s.answer 3)
  else if s.pwr.supply = .tripped then .next (if always then f s else s.answer 4)
  else if ¬ s.chip.rmRuns ∧ ¬ sub then .next (s.answer 4)
  else .next (f s)

/-- A request that changes the chip and is answered by it. -/
def State.serveChip (s : State) (always sub : Bool) (f : Chip → Chip) : Host.Outcome State Fault Refusal :=
  s.serve always sub (fun s => s.onChip f)

/-- MCTP_GET_STATUS (R601, R610, R622): status, version, cause, ID, NO_ID and BOOTS; SMB_ALERT# deasserts. -/
def execMctpGetStatus (req : List Byte) (s : State) : Host.Outcome State Fault Refusal :=
  s.serveChip true true (fun c =>
    if ¬ req.isEmpty then c.reply 2
    else
      (c.emit (.pin 3 true)).reply 0 (leBytes 8 (c.rd .BOOT_STAT 0).toNat ++ leBytes 8 (c.rd .BOOT_VER 0).toNat
        ++ leBytes 4 (c.rd .BOOT_CAUSE 0).toNat ++ leBytes 4 (c.rd .FAB_ID 0).toNat ++ leBytes 1 (b2n c.boot.noId)
        ++ leBytes 4 c.bootCtl.boots))

/-- MCTP_SELECT_SLOT (R610). -/
def execMctpSelectSlot (req : List Byte) (s : State) : Host.Outcome State Fault Refusal :=
  s.serveChip false false (fun c =>
    match req with
    | [b] => if b.toNat < 2 then (c.setPref b.toNat).reply 0 else c.reply 2
    | _ => c.reply 2)

/-- SET_ID accepted (R601): the ID is written; links left disabled for want of an ID are enabled. -/
def Chip.acceptId (c : Chip) (id : Nat) : Chip :=
  let wanted := c.boot.noId || c.boot.waitId.isSome
  let c := c.writeId id
  let c := { c with boot := { c.boot with noId := false, waitId := none } }
  if wanted then c.enableLinks else c

/-- MCTP_SET_ID (R601, R610): LINKS_UP while any bit of LEN is 1. -/
def execMctpSetId (req : List Byte) (s : State) : Host.Outcome State Fault Refusal :=
  s.serveChip false false (fun c =>
    if req.length ≠ 2 ∨ 8192 ≤ leNat req then c.reply 2
    else if c.g .FAB_CTL_LEN 0 ≠ 0 then c.reply 5
    else (c.acceptId (leNat req)).reply 0)

/-- MCTP_METER_READ (R550, R552, R610): the reading of PATH 2 starts; its response follows when it is complete. -/
def execMctpMeterRead (req : List Byte) (s : State) : Host.Outcome State Fault Refusal :=
  s.serveChip false false (fun c =>
    match req with
    | [b] => if b.toNat ≤ 16 then c.startReading 35 2 b.toNat (64 + b.toNat % 16) else c.reply 2
    | _ => c.reply 2)

/-- MCTP_SENSOR_READ (R610, R640): `THM_SENSOR[i]`. -/
def execMctpSensorRead (req : List Byte) (s : State) : Host.Outcome State Fault Refusal :=
  s.serveChip true false (fun c =>
    match req with
    | [b] => if b.toNat < 24 then c.reply 0 (leBytes 4 (c.rd .THM_SENSOR 0 b.toNat).toNat) else c.reply 2
    | _ => c.reply 2)

/-- A reset asked for over MCTP (R606, R607, R610, R632): SUCCESS, then the reset. A tripped module leaves the trip by a cold
reset unless a trip condition still holds. -/
def State.mctpReset (s : State) (kind : Nat) : State :=
  if 2 ≤ kind then s.answer 2
  else if kind = 0 then
    if s.pwr.supply = .tripped ∨ ¬ s.chip.rmRuns then s.answer 4
    else if s.chip.g .BOOT_STAT_STAGE 0 = 6 then s.answer 0
    else (s.answer 0).warmReset 5
  else if s.pwr.supply = .tripped then
    if s.tripHolds then s.answer 6 else (s.answer 0).coldReset 2 .precharge
  else (s.answer 0).coldReset 3 s.pwr.supply

/-- MCTP_RESET (R606, R610, R632). -/
def execMctpReset (req : List Byte) (s : State) : Host.Outcome State Fault Refusal :=
  s.serve true true (fun s =>
    match req with
    | [b] => s.mctpReset b.toNat
    | _ => s.answer 2)

/-- One byte read over CHG_ACCESS; a key stage reads 0, as does an unmapped byte (R14, R555, R610). -/
def Chip.chgByte (c : Chip) (off : Nat) : Byte :=
  match c.locate .bmc off with
  | some l => if l.reg = .CHG_KEYSTAGE then 0 else BitVec.ofNat 8 ((c.rd l.reg l.inst l.idx).toNat / 2 ^ (8 * l.byte))
  | none => 0

/-- Bytes written over CHG_ACCESS: each byte of `CHG_BUF`, each whole aligned word of a register. -/
def Chip.chgWriteBytes (c : Chip) (off : Nat) (bs : List Byte) : Chip :=
  (List.range bs.length).foldl (fun c i =>
    let a := off + i
    if 0x79000 ≤ a then c.writeChgBytes a 1 (bs.getD i 0).toNat
    else if a % 4 = 0 ∧ i + 4 ≤ bs.length then (c.write4 .bmc a (leNat ((bs.drop i).take 4))).1
    else c) c

/-- MCTP_CHG_ACCESS (R556, R610): byte 0 names a read (0) or a write (1), bytes 1–4 the offset, then the length of a read in 2
bytes or the data of a write; any place outside hub 0x0007_8000–0x0007_9FFF gives INVALID. -/
def execMctpChgAccess (req : List Byte) (s : State) : Host.Outcome State Fault Refusal :=
  s.serveChip false false (fun c =>
    let kind := numAt req 0 1
    let off := numAt req 1 4
    let data := req.drop 5
    let n := if kind = 0 then leNat data else data.length
    if req.length < 5 ∨ 2 ≤ kind ∨ (kind = 0 ∧ data.length ≠ 2) ∨ n = 0 ∨ 1024 < n ∨ off < 0x78000 ∨ 0x7A000 < off + n then
      c.reply 2
    else if kind = 0 then c.reply 0 ((List.range n).map (fun i => c.chgByte (off + i)))
    else (c.chgWriteBytes off data).reply 0)

/-- Whether a partition runs. -/
def Chip.anyRuns (c : Chip) : Bool := (List.range 16).any c.runs

/-- MCTP_FW_WRITE (R588, R598, R610): byte 0 is TARGET, bytes 1–4 the offset, the rest the data. The response follows when the
flash action is done (FWCTL_DONE). -/
def execMctpFwWrite (req : List Byte) (s : State) : Host.Outcome State Fault Refusal :=
  s.serveChip false true (fun c =>
    let tgt := numAt req 0 1
    let off := numAt req 1 4
    let data := req.drop 5
    let size := if tgt = 2 then 2 ^ 20 else slotSize
    if req.length < 5 ∨ 3 ≤ tgt ∨ (tgt ≠ 1 ∧ (data.isEmpty ∨ 1024 < data.length ∨ size < off + data.length)) then c.reply 2
    else if tgt = 2 ∧ c.g .BOOT_STAT_STAGE 0 = 4 ∧ c.anyRuns then c.reply 6
    else if c.boot.fw.isSome then c.reply 3
    else
      let j : FwJob :=
        if tgt = 1 then { bmc := true, erase := true, addr := slotBase c.standby, len := slotSize }
        else { bmc := true, erase := false, addr := (if tgt = 2 then imageBase else slotBase c.standby) + off, data := data }
      { c with boot := { c.boot with fw := some j } })

/-! ### MCTP control messages (R609) -/

/-- MCTP_SET_ENDPOINT_ID (R609; layout PRESUMED from DSP0236): operation and EID; EID 0 and 255 are invalid. -/
def execMctpSetEndpointId (req : List Byte) (s : State) : Host.Outcome State Fault Refusal :=
  s.serveChip false true (fun c =>
    match req with
    | [op, e] =>
      if 2 ≤ op.toNat % 4 ∨ e = 0 ∨ e = 0xFF then c.reply 2
      else ({ c with boot := { c.boot with eid := e.toNat } }).reply 0 [0, e, 0]
    | _ => c.reply 2)

/-- MCTP_GET_ENDPOINT_ID (R609; layout PRESUMED from DSP0236): EID, endpoint type, medium-specific byte. -/
def execMctpGetEndpointId (req : List Byte) (s : State) : Host.Outcome State Fault Refusal :=
  s.serveChip false true (fun c =>
    if req.isEmpty then c.reply 0 [BitVec.ofNat 8 c.boot.eid, 0, 0] else c.reply 2)

/-- MCTP_GET_VERSION_SUPPORT (R609; layout PRESUMED from DSP0236): MCTP 1.3.1 for the base and control messages; other
types are not supported. -/
def execMctpGetVersionSupport (req : List Byte) (s : State) : Host.Outcome State Fault Refusal :=
  s.serveChip false true (fun c =>
    match req with
    | [t] => if t = 0xFF ∨ t = 0 then c.reply 0 [1, 0xF1, 0xF3, 0xF1, 0] else c.reply 0x80
    | _ => c.reply 2)

/-- MCTP_GET_MESSAGE_TYPE_SUPPORT (R609; layout PRESUMED from DSP0236): one type besides control, 0x7E. -/
def execMctpGetMessageTypeSupport (req : List Byte) (s : State) : Host.Outcome State Fault Refusal :=
  s.serveChip false true (fun c => if req.isEmpty then c.reply 0 [1, 0x7E] else c.reply 2)

/-- MCTP_GET_VDM_SUPPORT (R609; layout PRESUMED from DSP0236): selector 0 is the only one; PCI vendor ID 0x1F4A; the version of
the command set is a value that the manual leaves open. -/
def execMctpGetVdmSupport (req : List Byte) (s : State) : Host.Outcome State Fault Refusal :=
  s.serveChip false true (fun c =>
    match req with
    | [0] =>
      let (v, c) := c.free 16
      c.reply 0 ([0xFF, 0, 0x1F, 0x4A] ++ beBytes 2 v)
    | _ => c.reply 2)

end Sys2Proof.Machine
end

