-- ==== Sys2Proof/Machine/Dispatch.lean ====
section
/-! DEFINITION. The dispatch: one arm for each command of the table, each one direct call of its meaning. -/

namespace Sys2Proof.Machine

def exec (i : Instr) (s : State) : Host.Outcome State Fault Refusal :=
  match i with
  | .registerWrite fn off size data => Sys2Proof.Machine.execRegisterWrite fn off size data s
  | .unmappedRead fn off size => Sys2Proof.Machine.execUnmappedRead fn off size s
  | .clockWindowEnd isl stalled total => Sys2Proof.Machine.execClockWindowEnd isl stalled total s
  | .islandClockChange isl => Sys2Proof.Machine.execIslandClockChange isl s
  | .islandGate isl => Sys2Proof.Machine.execIslandGate isl s
  | .islandWake isl => Sys2Proof.Machine.execIslandWake isl s
  | .gateEvaluate p => Sys2Proof.Machine.execGateEvaluate p s
  | .sendSealReady p => Sys2Proof.Machine.execSendSealReady p s
  | .installCut p => Sys2Proof.Machine.execInstallCut p s
  | .recvSealReady p m => Sys2Proof.Machine.execRecvSealReady p m s
  | .recvGateFail p m => Sys2Proof.Machine.execRecvGateFail p m s
  | .readyTmoExpiry p => Sys2Proof.Machine.execReadyTmoExpiry p s
  | .recvSeal p m => Sys2Proof.Machine.execRecvSeal p m s
  | .recvAbandon p m => Sys2Proof.Machine.execRecvAbandon p m s
  | .voidPassEnd p => Sys2Proof.Machine.execVoidPassEnd p s
  | .decideTmoExpiry p => Sys2Proof.Machine.execDecideTmoExpiry p s
  | .recvBoundReady p m => Sys2Proof.Machine.execRecvBoundReady p m s
  | .recvBoundRelease p m => Sys2Proof.Machine.execRecvBoundRelease p m s
  | .recvEpochMismatch p m => Sys2Proof.Machine.execRecvEpochMismatch p m s
  | .ackTmoExpiry p => Sys2Proof.Machine.execAckTmoExpiry p s
  | .boundTmoExpiry p => Sys2Proof.Machine.execBoundTmoExpiry p s
  | .deferredRelease p => Sys2Proof.Machine.execDeferredRelease p s
  | .seqReadNull c => Sys2Proof.Machine.execSeqReadNull c s
  | .seqPoisonHeader c => Sys2Proof.Machine.execSeqPoisonHeader c s
  | .cmdNop c => Sys2Proof.Machine.execCmdNop c s
  | .cmdWaitq c => Sys2Proof.Machine.execCmdWaitq c s
  | .waitqEnd c => Sys2Proof.Machine.execWaitqEnd c s
  | .cmdSignal c => Sys2Proof.Machine.execCmdSignal c s
  | .cmdCall c => Sys2Proof.Machine.execCmdCall c s
  | .routineReturn c => Sys2Proof.Machine.execRoutineReturn c s
  | .cmdInstall c => Sys2Proof.Machine.execCmdInstall c s
  | .cmdInstallRemove c => Sys2Proof.Machine.execCmdInstallRemove c s
  | .cmdSched c => Sys2Proof.Machine.execCmdSched c s
  | .cmdPhase c => Sys2Proof.Machine.execCmdPhase c s
  | .cmdPhaseGate c => Sys2Proof.Machine.execCmdPhaseGate c s
  | .cmdPhaseFull c => Sys2Proof.Machine.execCmdPhaseFull c s
  | .cmdEpoch c => Sys2Proof.Machine.execCmdEpoch c s
  | .cmdSeal c => Sys2Proof.Machine.execCmdSeal c s
  | .cmdMatmul c => Sys2Proof.Machine.execCmdMatmul c s
  | .cmdChain c => Sys2Proof.Machine.execCmdChain c s
  | .cmdXfer c => Sys2Proof.Machine.execCmdXfer c s
  | .xferAccept r n => Sys2Proof.Machine.execXferAccept r n s
  | .xferComplete r n host => Sys2Proof.Machine.execXferComplete r n host s
  | .commandEnd c id => Sys2Proof.Machine.execCommandEnd c id s
  | .seqStopRequest fn c => Sys2Proof.Machine.execSeqStopRequest fn c s
  | .seqHalt c => Sys2Proof.Machine.execSeqHalt c s
  | .seqResume fn c stop => Sys2Proof.Machine.execSeqResume fn c stop s
  | .tileStart u => Sys2Proof.Machine.execTileStart u s
  | .tileComplete u upset => Sys2Proof.Machine.execTileComplete u upset s
  | .arbitrationOutcome r orig => Sys2Proof.Machine.execArbitrationOutcome r orig s
  | .rewriteRunComplete u upset => Sys2Proof.Machine.execRewriteRunComplete u upset s
  | .solverPassEnd u => Sys2Proof.Machine.execSolverPassEnd u s
  | .solverTileComplete u hit poison => Sys2Proof.Machine.execSolverTileComplete u hit poison s
  | .healthSet u bits => Sys2Proof.Machine.execHealthSet u bits s
  | .partialArrival n => Sys2Proof.Machine.execPartialArrival n s
  | .chainComplete u => Sys2Proof.Machine.execChainComplete u s
  | .censusHeldPost u => Sys2Proof.Machine.execCensusHeldPost u s
  | .patrolScrubPass store loc res => Sys2Proof.Machine.execPatrolScrubPass store loc res s
  | .queueWordWrite r q prod w mark p => Sys2Proof.Machine.execQueueWordWrite r q prod w mark p s
  | .cellGranted r q => Sys2Proof.Machine.execCellGranted r q s
  | .queueWordRead r q => Sys2Proof.Machine.execQueueWordRead r q s
  | .staleTimerFire r q => Sys2Proof.Machine.execStaleTimerFire r q s
  | .qpFlush fn r q => Sys2Proof.Machine.execQpFlush fn r q s
  | .flushTakeEffect r q => Sys2Proof.Machine.execFlushTakeEffect r q s
  | .qpReset fn r q => Sys2Proof.Machine.execQpReset fn r q s
  | .queueEnWrite fn r q data => Sys2Proof.Machine.execQueueEnWrite fn r q data s
  | .rackPush c => Sys2Proof.Machine.execRackPush c s
  | .rackPushEnd r lane => Sys2Proof.Machine.execRackPushEnd r lane s
  | .rackPop c => Sys2Proof.Machine.execRackPop c s
  | .rackPeek c => Sys2Proof.Machine.execRackPeek c s
  | .rackPopEnd r lane => Sys2Proof.Machine.execRackPopEnd r lane s
  | .rackDrop c => Sys2Proof.Machine.execRackDrop c s
  | .rackHint c => Sys2Proof.Machine.execRackHint c s
  | .spillStart r lane => Sys2Proof.Machine.execSpillStart r lane s
  | .spillComplete r lane => Sys2Proof.Machine.execSpillComplete r lane s
  | .spillRefused r lane => Sys2Proof.Machine.execSpillRefused r lane s
  | .frameFetchStart r lane => Sys2Proof.Machine.execFrameFetchStart r lane s
  | .frameFetchComplete r lane host => Sys2Proof.Machine.execFrameFetchComplete r lane host s
  | .rackEnable fn r data => Sys2Proof.Machine.execRackEnable fn r data s
  | .pressArm c => Sys2Proof.Machine.execPressArm c s
  | .pressAbsorb c => Sys2Proof.Machine.execPressAbsorb c s
  | .pressDepositResume u => Sys2Proof.Machine.execPressDepositResume u s
  | .pressExport c => Sys2Proof.Machine.execPressExport c s
  | .pressMerge c => Sys2Proof.Machine.execPressMerge c s
  | .cmdSolve c => Sys2Proof.Machine.execCmdSolve c s
  | .solveCmdAccept r => Sys2Proof.Machine.execSolveCmdAccept r s
  | .solveQueueAccept r => Sys2Proof.Machine.execSolveQueueAccept r s
  | .solveActivate r => Sys2Proof.Machine.execSolveActivate r s
  | .solveSetupEnd r slot => Sys2Proof.Machine.execSolveSetupEnd r slot s
  | .solveIterationEnd r slot => Sys2Proof.Machine.execSolveIterationEnd r slot s
  | .solveDeadline r slot => Sys2Proof.Machine.execSolveDeadline r slot s
  | .solveComplete r slot => Sys2Proof.Machine.execSolveComplete r slot s
  | .solveDrop fn r => Sys2Proof.Machine.execSolveDrop fn r s
  | .updateApply c => Sys2Proof.Machine.execUpdateApply c s
  | .applyEnd p n => Sys2Proof.Machine.execApplyEnd p n s
  | .updateFetch c => Sys2Proof.Machine.execUpdateFetch c s
  | .updatePlace c => Sys2Proof.Machine.execUpdatePlace c s
  | .updateAdopt c => Sys2Proof.Machine.execUpdateAdopt c s
  | .applyInterrupt p n row => Sys2Proof.Machine.execApplyInterrupt p n row s
  | .updateReplay fn p => Sys2Proof.Machine.execUpdateReplay fn p s
  | .replayEnd p => Sys2Proof.Machine.execReplayEnd p s
  | .auditCheck p tensor index => Sys2Proof.Machine.execAuditCheck p tensor index s
  | .caskWithdraw stack cask => Sys2Proof.Machine.execCaskWithdraw stack cask s
  | .linkEnable fn d => Sys2Proof.Machine.execLinkEnable fn d s
  | .linkDisable fn d => Sys2Proof.Machine.execLinkDisable fn d s
  | .linkDetect d ports => Sys2Proof.Machine.execLinkDetect d ports s
  | .trainFrameRecv d port lane f => Sys2Proof.Machine.execTrainFrameRecv d port lane f s
  | .trainTimeout d => Sys2Proof.Machine.execTrainTimeout d s
  | .alignBlockRecv d port lane b => Sys2Proof.Machine.execAlignBlockRecv d port lane b s
  | .alignTimeout d => Sys2Proof.Machine.execAlignTimeout d s
  | .bondTimeout d => Sys2Proof.Machine.execBondTimeout d s
  | .helloRecv d h => Sys2Proof.Machine.execHelloRecv d h s
  | .checkTimeout d => Sys2Proof.Machine.execCheckTimeout d s
  | .flowTimeout d => Sys2Proof.Machine.execFlowTimeout d s
  | .retrainTimeout d => Sys2Proof.Machine.execRetrainTimeout d s
  | .codewordRecv d cw => Sys2Proof.Machine.execCodewordRecv d cw s
  | .flowRecv d f => Sys2Proof.Machine.execFlowRecv d f s
  | .replayCodewordRecv d lsn => Sys2Proof.Machine.execReplayCodewordRecv d lsn s
  | .ackTimeoutReplay d => Sys2Proof.Machine.execAckTimeoutReplay d s
  | .packetInject p k => Sys2Proof.Machine.execPacketInject p k s
  | .packetForward d k => Sys2Proof.Machine.execPacketForward d k s
  | .creditStall d vc => Sys2Proof.Machine.execCreditStall d vc s
  | .qpushRecv k => Sys2Proof.Machine.execQpushRecv k s
  | .mwriteRecv k => Sys2Proof.Machine.execMwriteRecv k s
  | .mwriteWidenRecv k => Sys2Proof.Machine.execMwriteWidenRecv k s
  | .mreadRecv k => Sys2Proof.Machine.execMreadRecv k s
  | .mwackRecv k => Sys2Proof.Machine.execMwackRecv k s
  | .mrdataRecv k => Sys2Proof.Machine.execMrdataRecv k s
  | .mgmtRecv k => Sys2Proof.Machine.execMgmtRecv k s
  | .rtFill fn => Sys2Proof.Machine.execRtFill fn s
  | .tsyncPeriod => Sys2Proof.Machine.execTsyncPeriod s
  | .tsyncReqRecv d t1 seq turn replay => Sys2Proof.Machine.execTsyncReqRecv d t1 seq turn replay s
  | .tsyncRspRecv d t => Sys2Proof.Machine.execTsyncRspRecv d t s
  | .holdoverExpiry => Sys2Proof.Machine.execHoldoverExpiry s
  | .collRs c => Sys2Proof.Machine.execCollRs c s
  | .collAg c => Sys2Proof.Machine.execCollAg c s
  | .collAr c => Sys2Proof.Machine.execCollAr c s
  | .collA2a c => Sys2Proof.Machine.execCollA2a c s
  | .collNorm c => Sys2Proof.Machine.execCollNorm c s
  | .collPreduce c => Sys2Proof.Machine.execCollPreduce c s
  | .collSend c => Sys2Proof.Machine.execCollSend c s
  | .collRecv c => Sys2Proof.Machine.execCollRecv c s
  | .collDataRecv k => Sys2Proof.Machine.execCollDataRecv k s
  | .collGrantRecv k => Sys2Proof.Machine.execCollGrantRecv k s
  | .grantIssue p cid => Sys2Proof.Machine.execGrantIssue p cid s
  | .collDigestRecv k => Sys2Proof.Machine.execCollDigestRecv k s
  | .collCountsRecv k => Sys2Proof.Machine.execCollCountsRecv k s
  | .collNormRecv k => Sys2Proof.Machine.execCollNormRecv k s
  | .collDoneRecv k => Sys2Proof.Machine.execCollDoneRecv k s
  | .collResendRecv k => Sys2Proof.Machine.execCollResendRecv k s
  | .digestArbitrationEnd p cid => Sys2Proof.Machine.execDigestArbitrationEnd p cid s
  | .collTimeout p cid => Sys2Proof.Machine.execCollTimeout p cid s
  | .holdExpiry p cid => Sys2Proof.Machine.execHoldExpiry p cid s
  | .collEnd p cid => Sys2Proof.Machine.execCollEnd p cid s
  | .mapLoad fn p => Sys2Proof.Machine.execMapLoad fn p s
  | .mapLoadDone p => Sys2Proof.Machine.execMapLoadDone p s
  | .mapClear fn p => Sys2Proof.Machine.execMapClear fn p s
  | .carEnable fn p data => Sys2Proof.Machine.execCarEnable fn p data s
  | .carSegsWrite fn p data => Sys2Proof.Machine.execCarSegsWrite fn p data s
  | .sealLoad fn p => Sys2Proof.Machine.execSealLoad fn p s
  | .sealForce fn p => Sys2Proof.Machine.execSealForce fn p s
  | .sealRevert fn p => Sys2Proof.Machine.execSealRevert fn p s
  | .sealDiscard fn p => Sys2Proof.Machine.execSealDiscard fn p s
  | .rcvQuiesce fn p => Sys2Proof.Machine.execRcvQuiesce fn p s
  | .quiesceDone p => Sys2Proof.Machine.execQuiesceDone p s
  | .rcvApply fn p => Sys2Proof.Machine.execRcvApply fn p s
  | .partStart fn p => Sys2Proof.Machine.execPartStart fn p s
  | .partStop fn p => Sys2Proof.Machine.execPartStop fn p s
  | .stopComplete p => Sys2Proof.Machine.execStopComplete p s
  | .yieldComplete p => Sys2Proof.Machine.execYieldComplete p s
  | .partClaim fn p => Sys2Proof.Machine.execPartClaim fn p s
  | .claimClearDone p => Sys2Proof.Machine.execClaimClearDone p s
  | .quantumEnd p => Sys2Proof.Machine.execQuantumEnd p s
  | .qendWrite fn p data => Sys2Proof.Machine.execQendWrite fn p data s
  | .graceFence p => Sys2Proof.Machine.execGraceFence p s
  | .fenceDone p => Sys2Proof.Machine.execFenceDone p s
  | .cgrantWrite fn p k data => Sys2Proof.Machine.execCgrantWrite fn p k data s
  | .regionPark r => Sys2Proof.Machine.execRegionPark r s
  | .regionWake r => Sys2Proof.Machine.execRegionWake r s
  | .selfRefreshEnter dev => Sys2Proof.Machine.execSelfRefreshEnter dev s
  | .mtrGo fn p => Sys2Proof.Machine.execMtrGo fn p s
  | .mtrUnattr fn => Sys2Proof.Machine.execMtrUnattr fn s
  | .meterReadingDone path p => Sys2Proof.Machine.execMeterReadingDone path p s
  | .chgRegister fn role => Sys2Proof.Machine.execChgRegister fn role s
  | .chgApprove fn => Sys2Proof.Machine.execChgApprove fn s
  | .chgVerifyDone => Sys2Proof.Machine.execChgVerifyDone s
  | .chgApply fn => Sys2Proof.Machine.execChgApply fn s
  | .chgApplyDone => Sys2Proof.Machine.execChgApplyDone s
  | .chgCancel fn => Sys2Proof.Machine.execChgCancel fn s
  | .hiqDoorbell fn q tail => Sys2Proof.Machine.execHiqDoorbell fn q tail s
  | .hiqPacket f q desc data poison => Sys2Proof.Machine.execHiqPacket f q desc data poison s
  | .hiqWrite f q desc data poison => Sys2Proof.Machine.execHiqWrite f q desc data poison s
  | .hiqRead f q desc => Sys2Proof.Machine.execHiqRead f q desc s
  | .hiqDescComplete f q => Sys2Proof.Machine.execHiqDescComplete f q s
  | .hiqSkip fn q => Sys2Proof.Machine.execHiqSkip fn q s
  | .hiqReset fn q => Sys2Proof.Machine.execHiqReset fn q s
  | .hiqBaseWrite fn q data => Sys2Proof.Machine.execHiqBaseWrite fn q data s
  | .hoqDoorbell fn q head => Sys2Proof.Machine.execHoqDoorbell fn q head s
  | .hoqPacketWrite f q => Sys2Proof.Machine.execHoqPacketWrite f q s
  | .hoqModerationTimer f q => Sys2Proof.Machine.execHoqModerationTimer f q s
  | .hoqBaseWrite fn q data => Sys2Proof.Machine.execHoqBaseWrite fn q data s
  | .msixUnmask f vec => Sys2Proof.Machine.execMsixUnmask f vec s
  | .windowWrite fn off data => Sys2Proof.Machine.execWindowWrite fn off data s
  | .vfFlr port v => Sys2Proof.Machine.execVfFlr port v s
  | .pfFlr port => Sys2Proof.Machine.execPfFlr port s
  | .portReset port => Sys2Proof.Machine.execPortReset port s
  | .d3hotEnter f => Sys2Proof.Machine.execD3hotEnter f s
  | .d0Return f => Sys2Proof.Machine.execD0Return f s
  | .hostReadySet port => Sys2Proof.Machine.execHostReadySet port s
  | .hubSrtGo fn p => Sys2Proof.Machine.execHubSrtGo fn p s
  | .hubSrtDone p => Sys2Proof.Machine.execHubSrtDone p s
  | .coldStart => Sys2Proof.Machine.execColdStart s
  | .memReady => Sys2Proof.Machine.execMemReady s
  | .bootAlive fn => Sys2Proof.Machine.execBootAlive fn s
  | .aliveTimeout => Sys2Proof.Machine.execAliveTimeout s
  | .bootCommit fn => Sys2Proof.Machine.execBootCommit fn s
  | .bootWarm fn => Sys2Proof.Machine.execBootWarm fn s
  | .bootCold fn => Sys2Proof.Machine.execBootCold fn s
  | .bootSetpref fn sel => Sys2Proof.Machine.execBootSetpref fn sel s
  | .fwctlWritePage fn => Sys2Proof.Machine.execFwctlWritePage fn s
  | .fwctlErase fn => Sys2Proof.Machine.execFwctlErase fn s
  | .fwctlDone => Sys2Proof.Machine.execFwctlDone s
  | .lockstepMismatch pair => Sys2Proof.Machine.execLockstepMismatch pair s
  | .idWaitTimeout => Sys2Proof.Machine.execIdWaitTimeout s
  | .mctpGetStatus req => Sys2Proof.Machine.execMctpGetStatus req s
  | .mctpSelectSlot req => Sys2Proof.Machine.execMctpSelectSlot req s
  | .mctpSetId req => Sys2Proof.Machine.execMctpSetId req s
  | .mctpMeterRead req => Sys2Proof.Machine.execMctpMeterRead req s
  | .mctpSensorRead req => Sys2Proof.Machine.execMctpSensorRead req s
  | .mctpReset req => Sys2Proof.Machine.execMctpReset req s
  | .mctpChgAccess req => Sys2Proof.Machine.execMctpChgAccess req s
  | .mctpFwWrite req => Sys2Proof.Machine.execMctpFwWrite req s
  | .mctpSetEndpointId req => Sys2Proof.Machine.execMctpSetEndpointId req s
  | .mctpGetEndpointId req => Sys2Proof.Machine.execMctpGetEndpointId req s
  | .mctpGetVersionSupport req => Sys2Proof.Machine.execMctpGetVersionSupport req s
  | .mctpGetMessageTypeSupport req => Sys2Proof.Machine.execMctpGetMessageTypeSupport req s
  | .mctpGetVdmSupport req => Sys2Proof.Machine.execMctpGetVdmSupport req s
  | .pwrQualified => Sys2Proof.Machine.execPwrQualified s
  | .prechargeDone => Sys2Proof.Machine.execPrechargeDone s
  | .inputSample mv ma => Sys2Proof.Machine.execInputSample mv ma s
  | .averageRuleTick => Sys2Proof.Machine.execAverageRuleTick s
  | .recoveryRuleTick => Sys2Proof.Machine.execRecoveryRuleTick s
  | .bulkWarn => Sys2Proof.Machine.execBulkWarn s
  | .holdupShutdown => Sys2Proof.Machine.execHoldupShutdown s
  | .ridingClear => Sys2Proof.Machine.execRidingClear s
  | .thermalSample sensor value plausible => Sys2Proof.Machine.execThermalSample sensor value plausible s
  | .tripExit => Sys2Proof.Machine.execTripExit s
  | .pwrEnLow => Sys2Proof.Machine.execPwrEnLow s
  | .plimWrite fn data => Sys2Proof.Machine.execPlimWrite fn data s
  | .hardenedScrubPass => Sys2Proof.Machine.execHardenedScrubPass s
  | .perstDeassert port => Sys2Proof.Machine.execPerstDeassert port s
  | .leakDetectorWetted => Sys2Proof.Machine.execLeakDetectorWetted s
  | .railOutOfRange rail => Sys2Proof.Machine.execRailOutOfRange rail s
  | .sealRevertDone p => Sys2Proof.Machine.execSealRevertDone p s
  | .rtFillDone => Sys2Proof.Machine.execRtFillDone s

end Sys2Proof.Machine
end

