-- ==== Sys2Proof/Machine/Views.lean ====
section
/-! DEFINITION. What a register reads as (R12, R15): stored fields, and the fields that show state held elsewhere: clocks,
supply, time, meters, queues, sequencers, units, lanes, the Press and the Solver. -/

namespace Sys2Proof.Machine

/-- A word with some fields set: the high and low bit of each and its value. -/
def withFields (w : Word) (fs : List (Nat × Nat × Nat)) : Word := fs.foldl (fun w f => wset w f.1 f.2.1 f.2.2) w

/-- Unit state as `MXE_STAT` shows it (R130). -/
def Chip.mxeStat (c : Chip) (u : Nat) : Word :=
  let x := c.unit u
  let mode (k : Running) : Nat := match k.kind with
    | .solver _ => 3
    | _ => (mmMode (mmFa k.job.mm) (mmFb k.job.mm)).getD 0
  let owner := match x.run with
    | some k => (match k.kind with | .solver _ => 2 | _ => 1)
    | none => 0
  withFields 0 [(1, 0, if c.inService u then owner else 3), (4, 2, (x.run.map mode).getD 0),
    (5, 5, b2n ((x.run.map (fun k => owner == 1 && mmSparse k.job.mm != 0)).getD false)),
    (6, 6, b2n (x.bankS.isSome || owner == 2)),
    (7, 7, b2n ((x.run.map (fun k => k.kind == .arb)).getD false))]

/-- Vector engine state as `VEC_STAT` shows it (R168). -/
def Chip.vecStat (c : Chip) (u : Nat) : Word :=
  let x := c.unit u
  let busy := (c.chainNow u).isSome
  withFields 0 [(0, 0, b2n busy), (5, 1, x.cens.length), (6, 6, b2n (x.reds.any (fun d => d.dst == 0))),
    (7, 7, b2n (x.reds.any (fun d => d.dst == 1))), (8, 8, b2n (!x.cheld.isEmpty))]

/-- Pool state (R206). -/
def Chip.poolStat (c : Chip) (r : Nat) : Word :=
  let qs := c.enabledQueues r
  withFields 0 [(16, 0, c.freeCells r), (33, 17, (qs.map (c.reserve r)).sum), (44, 34, qs.length)]

/-- Queue state, over the stored sticky bits (R209). -/
def Chip.queueStat (c : Chip) (r q : Nat) : Word :=
  let x := c.queue r q
  withFields (c.rd .QP_QSTAT r q) [(19, 0, x.pkts), (36, 20, x.cells), (41, 37, x.opens.length), (42, 42, b2n x.flush),
    (43, 43, b2n x.broken)]

/-- Whether a command waits until every earlier one has ended: PHASE with code 4 or FULL = 1, EPOCH, SEAL (R220). -/
def endsFirst (w : List Word) : Bool :=
  isOp 0x09 w || isOp 0x0A w || (isOp 0x08 w && (phCode w == 4 || phFull w))

/-- Sequencer state as `CLU_SEQ_STAT` shows it (R253): 4 halted, 3 in an agreement, 2 waiting, 1 issuing, 0 idle or out of
service. -/
def Chip.seqStat (c : Chip) (cl : Nat) : Word :=
  let s := c.seq cl
  let st :=
    if s.halt ≠ 0 then 4
    else if s.agree ≠ .none then 3
    else if ¬ c.seqRuns cl then 0
    else if ¬ s.waitqs.isEmpty then 2
    else match c.head cl with
      | some ((h, _) :: ws) => if s.mayIssue h ∧ (s.allEnded ∨ ¬ endsFirst (h :: ws.map Prod.fst)) then 1 else 2
      | _ => 0
  withFields 0 [(2, 0, st), (6, 3, s.halt), (9, 7, s.phase), (12, 10, s.stack.length), (18, 13, s.openCount)]

/-- Stream position as `CLU_SEQ_POS` shows it (R256). -/
def Chip.seqPos (c : Chip) (cl : Nat) : Word :=
  let s := c.seq cl
  let f := s.stack.head?
  withFields 0 [(23, 0, (f.map Frame.off).getD 0), (29, 24, (f.map Frame.rtn).getD 0), (30, 30, b2n f.isSome),
    (47, 32, s.lastTag), (63, 48, c.lepoch (c.partOfCl cl))]

/-- Outstanding commands by group (R257). -/
def Chip.seqGroups (c : Chip) (cl : Nat) : Word :=
  withFields 0 ((List.range 8).map (fun g => (6 * g + 5, 6 * g, (c.seq cl).groupCount g)))

/-- Frames on a lane: those that a PUSH has completed, and no POP or DROP has freed (R266). -/
def LaneS.onLane (x : LaneS) : List RFrame := x.frames.filter (fun f => f.st != .waiting)

/-- Lane state as `RACK_LANE_STAT` shows it (R291). -/
def Chip.laneStat (c : Chip) (cl : Nat) : Word :=
  let x := c.rackLane cl
  let n (s : FrameSt) : Nat := (x.frames.filter (fun f => f.st == s)).length
  withFields 0 [(6, 0, x.onLane.length), (7, 7, b2n x.drain), (20, 8, x.held), (27, 21, n .spilled + n .fetching), (28, 28, b2n (n .spilling != 0)),
    (29, 29, b2n (n .fetching != 0)), (63, 32, ((x.onLane.getLast?).map RFrame.tag).getD 0)]

/-- Host pages spanned by the homes of a lane's frames: a pinned frame received none, and a lost one has released its own
(R269, R274, R292). -/
def LaneS.homes (x : LaneS) : Nat := ((x.onLane.filter (fun f => !f.pinned && f.st != .lost)).map RFrame.need).sum

/-- State of a region's lanes (R286). -/
def Chip.rackStat (c : Chip) (r : Nat) : Word :=
  let ls := (rangeFrom (8 * r) 8).map c.rackLane
  let busy := ls.any (fun x => x.frames.any (fun f => f.st == .spilling || f.st == .fetching))
  withFields 0 ((0, 0, b2n busy) :: (List.range 8).map (fun k => (k + 1, k + 1, b2n ((ls.map LaneS.drain).getD k false))))

/-- Press state (R323). -/
def Chip.prsStat (c : Chip) (cl : Nat) : Word :=
  let x := c.pressOf cl
  withFields 0 [(0, 0, b2n (x.ents.any (fun e => e.2.arm.isSome && e.2.bound.isSome) || !x.mwait.isEmpty)), (4, 1, x.ents.length), (11, 5, x.slots),
    (21, 12, cdiv x.used 1024)]

/-- A staging entry as `PRS_ENTRY` shows it (R325). -/
def Chip.prsEntry (c : Chip) (cl e : Nat) : Word :=
  match c.pent cl e with
  | none => 0
  | some x => withFields 0 [(0, 0, 1), (24, 1, x.block), (40, 25, x.contrib), (50, 41, x.tfirst), (57, 51, x.tcount),
      (58, 58, b2n x.nf.isSome), (59, 59, b2n x.ovf.isSome), (60, 60, b2n x.poison), (61, 61, b2n x.arm.isSome)]

/-- Whether a unit runs or holds a Solver tile. -/
def UnitS.lends (x : UnitS) : Bool :=
  x.bankS.isSome || (match x.run with | some k => (match k.kind with | .solver _ => true | _ => false) | none => false)

/-- Casks of a stack working now: those not withdrawn while an APPLY of class N with moments on the stack is in progress (R390;
the manual gives no number at work: DESIGN CHOICE, log entry 14). -/
def Chip.casksActive (c : Chip) (s : Nat) : Nat :=
  let busy := (List.range 16).any (fun p => (c.upd p).jrnl.any (fun e => e.live && !e.stopped && c.onStack p e.words s))
  if busy then 32 - ((List.range 32).filter (bit (c.g .CSK_STAT_FAULTMAP 0 s))).length else 0

/-- Solver state (R349). -/
def Chip.solvStat (c : Chip) (r : Nat) : Word :=
  let x := c.solver r
  let n := x.active.length
  withFields 0 [(0, 0, b2n (n != 0)), (3, 1, n), (10, 4, x.slots.length),
    (17, 11, ((rangeFrom (64 * r) 64).filter (fun u => (c.unit u).lends)).length),
    (18, 18, b2n (x.active.any (fun v => v.load.isSome)))]

/-- A clock register: bounds, code, CAP, FIXED (R37). -/
def Power.clkWord (p : Power) (i : Nat) : Word :=
  let x := p.island i
  withFields 0 [(5, 0, x.min), (13, 8, x.max), (21, 16, x.cur), (29, 24, p.cap (dieOfIsland i)), (30, 30, b2n x.fixed)]

/-- What index j of instance i of a register reads as. A write-only field reads 0. -/
def State.view (s : State) (r : Reg) (i j : Nat) : Word :=
  let c := s.chip
  match r with
  | .RGN_CLK => s.pwr.clkWord i
  | .CLU_CLK => s.pwr.clkWord (16 + i)
  | .PWR_CTL => Word.ofNat s.pwr.plim
  | .FAB_TIME_NOW => Word.ofNat c.now
  | .MTR_LIVE => Word.ofNat (c.meterVal i j)
  | .MXE_STAT => c.mxeStat i
  | .VEC_STAT => c.vecStat i
  | .QP_POOL_STAT => c.poolStat i
  | .QP_QSTAT => c.queueStat i j
  | .QP_QCMD => Word.ofNat (b2n (c.queue i j).flush)
  | .CLU_SEQ_STAT => c.seqStat i
  | .CLU_SEQ_POS => c.seqPos i
  | .CLU_SEQ_GRP => c.seqGroups i
  | .RACK_STAT => c.rackStat i
  | .RACK_LANE_STAT => c.laneStat (8 * i + j)
  | .RACK_LANE_HUSE => Word.ofNat (c.rackLane (8 * i + j)).homes
  | .PRS_STAT => c.prsStat i
  | .PRS_ENTRY => c.prsEntry i j
  | .PRS_ENTRY_CNT => Word.ofNat (((c.pent i j).map PEntry.count).getD 0)
  | .SOLV_STAT => c.solvStat i
  | .CSK_STAT => wset (c.rd .CSK_STAT i j) 5 0 (c.casksActive j)
  | .CHG_KEYSTAGE => 0
  | .HOSTIF_HIQ_DB => 0
  | .HOSTIF_HOQ_DB => 0
  | _ => c.rd r i j

/-- What a function reads at a place: `BOOT_STAT.HOST_READY` is that of the function's port (R612). -/
def State.readAt (s : State) (fn : Fn) (l : Loc) : Word :=
  let w := s.view l.reg l.inst l.idx
  match l.reg, fn with
  | .BOOT_STAT, .pf p => wset w 8 8 (b2n (s.chip.boot.ready.contains (p % 2)))
  | .BOOT_STAT, .vf p _ => wset w 8 8 (b2n (s.chip.boot.ready.contains (p % 2)))
  | _, _ => w

/-- An aligned word of 4 B that a function reads at a BAR0 offset: the addressed half of a 64-bit register; an unmapped offset
reads 0 (R12, R14). -/
def State.read4 (s : State) (fn : Fn) (off : Nat) : Nat :=
  match s.chip.locate fn off with
  | some l => wbits (s.readAt fn { l with byte := 0 }) (8 * l.byte + 31) (8 * l.byte)
  | none => 0

/-- What a function reads with an aligned access of 4 or 8 B at a BAR0 offset: a 64-bit register at once (R12). -/
def State.read (s : State) (fn : Fn) (off size : Nat) : Word :=
  Word.ofNat (s.read4 fn off + (if size = 8 then s.read4 fn (off + 4) * 2 ^ 32 else 0))

/-! ### Configuration space (R566) -/

/-- Identifiers in the configuration space of a function (R566). -/
structure PciIds where
  vendor : Nat
  device : Nat
  revision : Nat
  classCode : Nat
  subVendor : Nat
  subsystem : Nat
  deriving DecidableEq, Repr

/-- SR-IOV fields of a physical function (R566). -/
structure SrIov where
  totalVFs : Nat
  firstOffset : Nat
  stride : Nat
  deriving DecidableEq, Repr

/-- The hard-wired identifiers of a function of a port; Ringmaster and the baseboard controller have no configuration space. -/
def pciIds : Fn → Option PciIds
  | .pf _ => some ⟨0x1F4A, 0x0512, 0xA2, 0x120000, 0x1F4A, 0x0001⟩
  | .vf _ _ => some ⟨0x1F4A, 0x0513, 0xA2, 0x120000, 0x1F4A, 0x0001⟩
  | .rm => none
  | .bmc => none

/-- The hard-wired SR-IOV fields of a function: only the PF of a port has them (R566). -/
def srIov : Fn → Option SrIov
  | .pf _ => some ⟨16, 1, 1⟩
  | _ => none

/-- Offset of the routing ID of VF v from that of its PF, for v from 1 to TotalVFs (R566, R567). -/
def vfOffset (v : Nat) : Option Nat :=
  match srIov (.pf 0) with
  | some x => if 1 ≤ v ∧ v ≤ x.totalVFs then some (x.firstOffset + (v - 1) * x.stride) else none
  | none => none

end Sys2Proof.Machine
end

