-- ==== Sys2Proof/Safety.lean ====
section
/-! DEFINITION. The terms in which claims speak: what a command leaves unchanged, and the invariant that every step
keeps. -/

namespace Sys2Proof.Machine

/-! ### Frames -/

/-- A field lies within a 64-bit register. -/
def Fld.ok (f : Fld) : Prop := f.lo ≤ f.hi ∧ f.hi < 64

/-- A field of index j of instance i of its register. -/
abbrev Spot := Fld × Nat × Nat

/-- Two places share a bit. -/
def Spot.meets (a b : Spot) : Prop :=
  a.1.reg = b.1.reg ∧ a.2 = b.2 ∧ a.1.lo ≤ b.1.hi ∧ b.1.lo ≤ a.1.hi

/-- Every field of the register map that shares no bit with a listed place reads in d as in c. -/
def Chip.fieldsBut (c d : Chip) (l : List Spot) : Prop :=
  ∀ (f : Fld) (i j : Nat), f.ok → i < 2048 → j < 4096 → (∀ p ∈ l, ¬ Spot.meets p (f, i, j)) → d.g f i j = c.g f i j

/-- Every register but the listed ones reads in d as in c, in every instance. -/
def Chip.regsBut (c d : Chip) (l : List Reg) : Prop := ∀ (r : Reg) (i j : Nat), r ∉ l → d.rd r i j = c.rd r i j

/-- Everything on the chip but the registers and the upsets of their words. -/
def Chip.noRegs (c : Chip) : Chip := { c with regs := [], upsets := [] }

/-- From s to t nothing changed but the chip. -/
def State.chipOnly (s t : State) : Prop := t.pwr = s.pwr ∧ t.pending = s.pending

/-- From s to t nothing changed but the listed fields; apart from registers the chip of t is c. -/
def State.effect (s t : State) (c : Chip) (l : List Spot) : Prop :=
  s.chipOnly t ∧ t.chip.noRegs = c.noRegs ∧ s.chip.fieldsBut t.chip l

/-- From s to t nothing changed but clocks, limiter and supply. -/
def State.pwrOnly (s t : State) : Prop := t.chip = s.chip ∧ t.pending = s.pending

/-- From s to t nothing changed but clock island k. -/
def State.islandOnly (s t : State) (k : Nat) : Prop :=
  s.pwrOnly t ∧ t.pwr = { s.pwr with clk := t.pwr.clk } ∧ ∀ j, j ≠ k → t.pwr.island j = s.pwr.island j

/-! ### Frames of shared operations -/

/-- The registers that the queue pool writes. -/
def qpRegs : List Reg := [.QP_QSTAT, .QP_STICKY, .QP_QCNT]

/-- Everything on the chip but registers and queues. -/
def Chip.noQueues (c : Chip) : Chip := { c with regs := [], upsets := [], queues := [] }

/-- From c to d only the queue pool changed. -/
def Chip.queueOnly (c d : Chip) : Prop := d.noQueues = c.noQueues ∧ c.regsBut d qpRegs

/-- The registers that a fault record writes. -/
def faultRegs : List Reg := [.QP_QSTAT, .QP_STICKY, .QP_QCNT, .INT_CNT, .INT_STAT, .INT_FLOG, .PART_CNT_XPART]

/-- Everything on the chip but registers, queues and the fault log. -/
def Chip.noFault (c : Chip) : Chip := { c with regs := [], upsets := [], queues := [], flog := [] }

/-- From c to d only fault records were posted. -/
def Chip.faultOnly (c d : Chip) : Prop := d.noFault = c.noFault ∧ c.regsBut d faultRegs

/-- The fault queue of partition p, if it has one, lies in a region of p (R494, R527). -/
def Chip.homeFaults (c : Chip) (p : Nat) : Prop := ∀ x, c.faultQueue (.part p) = some x → c.owns p x.1 = true

/-- The registers that ending a command writes: of `HUB_STEP` only the field PHASE (R44). -/
def seqRegs : List Reg := [.QP_QSTAT, .QP_STICKY, .QP_QCNT, .CLU_SEQ_CNT, .CLU_SEQ_STICKY, .HUB_STEP]

/-- The fields of `HUB_STEP` but PHASE. -/
def stepFlds : List Fld :=
  [.HUB_STEP_SEALED_STEP, .HUB_STEP_PARITY, .HUB_STEP_UPDATE_DONE, .HUB_STEP_READY_SENT, .HUB_STEP_GATE_FAIL]

/-- From c to d no field of `HUB_STEP` but PHASE changed. -/
def Chip.stepKept (c d : Chip) : Prop := ∀ f ∈ stepFlds, ∀ i j, d.g f i j = c.g f i j

/-- Everything on the chip but registers, queues and sequencers. -/
def Chip.noSeqs (c : Chip) : Chip := { c with regs := [], upsets := [], queues := [], seqs := [] }

/-- A sequencer without its outstanding commands. -/
def SeqS.sansOut (x : SeqS) : SeqS := { x with outst := [] }

/-- From c to d only the outstanding commands of sequencer cl, their records and the queue pool changed. -/
structure Chip.cmdOnly (cl : Nat) (c d : Chip) : Prop where
  rest : d.noSeqs = c.noSeqs
  regs : c.regsBut d seqRegs
  others : ∀ cl', cl' ≠ cl → d.seq cl' = c.seq cl'
  own : (d.seq cl).sansOut = (c.seq cl).sansOut
  step : c.stepKept d

/-- A sequencer without its stream position. -/
def SeqS.sansPos (x : SeqS) : SeqS := { x with stack := [], sealRead := false }

/-- The stream moved past a command changes the position, and the command queue it was read from. -/
structure Chip.moved (cl : Nat) (c d : Chip) : Prop where
  rest : d.noSeqs = c.noSeqs
  regs : c.regsBut d qpRegs
  others : ∀ cl', cl' ≠ cl → d.seq cl' = c.seq cl'
  own : (d.seq cl).sansPos = (c.seq cl).sansPos

/-! ### Registers -/

/-- A register that a write changes only by the access types of its fields: no row of the table, no bound on what is stored
and no other effect belongs to it. -/
def Reg.plain : Reg → Bool
  | .FAB_TIME_NOW => false | .FAB_ID => false | .FAB_TOPO => false | .FAB_TIME_CTL => false | .FAB_RT => false
  | .HOSTIF_PORT => false | .SOLV_CFG => false | .CLU_SEQ_CTL => false | .CEL_UPD_CTL => false | .RGN_CLK => false
  | .CLU_CLK => false | .MSIX_DATA => false | .SEAL_LIVE => false | .PART_QCFG => false | .HUB_GATE_LIM => false
  | .SEAL_CFG => false | .FAB_LINK_CFG => false | .CAR_CFG => false | .RACK_CTL => false | .RACK_AREA => false
  | .RACK_LANE_CFG => false | .SOLV_RTAB => false | .SOLV_STAGE => false | .PRS_CFG => false | .QP_QCFG => false
  | .MXE_CKSEED => false | .HOSTIF_HIQ_CTL => false | .HOSTIF_HOQ_SRC => false | .HOSTIF_CVEC => false | .HUB_PSEL => false
  | .HOSTIF_CNT => false | .HUB_SRT_IDX => false | .HUB_SRT_STEP => false | .CHG_BUF => false | .CHG_KEYSTAGE => false
  | .PART_QEND => false | .PART_CGRANT => false | .FAB_CTL => false | .CAR_CTL => false | .CAR_SEGS => false
  | .HOSTIF_WIN => false | .HOSTIF_WINSZ => false | .HOSTIF_RWIN => false | .HOSTIF_RWINSZ => false
  | .HOSTIF_HIQ_BASE => false | .HOSTIF_HIQ_DB => false | .HOSTIF_HOQ_BASE => false | .HOSTIF_HOQ_DB => false
  | .BOOT_FWBUF => false | .SEAL_CMD => false | .SEAL_LOADIDX => false | .INT_RCV => false | .PWR_CTL => false
  | _ => true

/-- Bit n of a register after a write of the bits from lo on, 32 or 64 of them, by the access type of its field (R15, R17,
R18). -/
def writtenBit (r : Reg) (locked : Bool) (old : Word) (lo len : Nat) (data : Word) (n : Nat) : Bool :=
  match r.fields.find? (fun f => decide (f.lo ≤ n) && decide (n ≤ f.hi)) with
  | none => old.getLsbD n
  | some f =>
    if n < lo ∨ lo + len ≤ n ∨ f.da ∨ (f.lk ∧ locked) ∨ ownRow r f.lo then old.getLsbD n
    else
      match f.acc with
      | .RW => data.getLsbD (n - lo)
      | .WO => data.getLsbD (n - lo)
      | .W1C => old.getLsbD n && !data.getLsbD (n - lo)
      | _ => old.getLsbD n

/-- Instances of a register that its window counts. -/
def Win.count : Win → Nat
  | .hub => 1
  | .region => 16
  | .cluster => 128
  | .unit => 1024

/-! ### Commands of a sequencer -/

/-- Sequencer cl runs and has command w, not poisoned and well formed, at its stream position; R220 lets it issue, and no
MATMUL waits for its CHAIN (R214–R220). -/
structure Chip.offers (c : Chip) (cl : Nat) (w : List Word) : Prop where
  runs : c.seqRuns cl = true
  noSkip : (c.seq cl).skipSeal = false
  noFuse : (c.seq cl).fuse = none
  head : c.head cl = some (w.map (fun x => (x, false)))
  ok : decodeStatus w w.length (regionOfCl cl) none = stOK
  may : (c.seq cl).mayIssue (w.headD 0) = true

/-- Command w of sequencer cl ended at issue: the command is counted and named as the last, and only the sequencer, its
record in the queue pool, its counters and marks, and the registers listed changed. -/
structure Chip.endsAtOnce (cl : Nat) (w : List Word) (l : List Reg) (c d : Chip) : Prop where
  rest : d.noSeqs = c.noSeqs
  regs : c.regsBut d (l ++ seqRegs)
  step : c.stepKept d
  others : ∀ k, k ≠ cl → d.seq k = c.seq k
  nextId : (d.seq cl).nextId = (c.seq cl).nextId + 1
  lastTag : (d.seq cl).lastTag = hdrTag (wordAt w 0)
  running : (d.seq cl).halt = (c.seq cl).halt ∧ (d.seq cl).agree = (c.seq cl).agree ∧ (d.seq cl).phase = (c.seq cl).phase
  counted : d.g .CLU_SEQ_CNT_COUNT cl = (c.g .CLU_SEQ_CNT_COUNT cl + 1) % 2 ^ 64

/-- Command w of sequencer cl was refused at issue with a status of a bad command. -/
structure Chip.refusedAtOnce (cl : Nat) (w : List Word) (c d : Chip) : Prop extends Chip.endsAtOnce cl w [] c d where
  bad : d.g .CLU_SEQ_STICKY_BAD_CMD cl = 1

/-- Command w of sequencer cl was issued: it is named as the last, and stands among the outstanding commands. -/
structure Chip.issued (cl : Nat) (w : List Word) (c d : Chip) : Prop where
  nextId : (d.seq cl).nextId = (c.seq cl).nextId + 1
  lastTag : (d.seq cl).lastTag = hdrTag (wordAt w 0)
  out : ∃ o ∈ (d.seq cl).outst, o.id = (c.seq cl).nextId ∧ o.hdr = wordAt w 0 ∧ o.ended = none
  others : ∀ k, k ≠ cl → d.seq k = c.seq k

/-! ### Solves -/

/-- From c to d the solve of ticket k of region r ended with a status: it stands in its slot with it, or its completion was
recorded and counted. -/
def Chip.solveEnded (c d : Chip) (r k st : Nat) : Prop :=
  (∃ v, (d.solver r).find k = some v ∧ v.status = st ∧ (v.stage = .ended ∨ v.stage = .recorded)) ∨
  ((d.solver r).find k = none ∧ d.g .SOLV_CNT_COUNT r 0 = (c.g .SOLV_CNT_COUNT r 0 + 1) % 2 ^ 64)

/-! ### Messages of the seal logic -/

/-- A seal message of a kind passes the checks of a packet and reaches partition p from rank r; d is the chip with the packet
received, metered and its credit returned (R430–R433). -/
def Chip.sealTakes (c : Chip) (p kind : Nat) (m : SealMsg) (d : Chip) (r : Nat) : Prop :=
  (∃ e ok, c.settle.receive (c.sealPkt p kind m) = (e, some (p, ok)) ∧
    d = (e.dlv p (c.sealPkt p kind m)).leaveLike (c.sealPkt p kind m)) ∧
  (d.jobIds p).findIdx? (· == m.src) = some r

/-! ### The invariant of clocks and limiter -/

/-- A frequency code in 12–40: 0.6 to 2.0 GHz (R36, R37). -/
def codeOk (n : Nat) : Prop := 12 ≤ n ∧ n ≤ 40

/-- An island whose bounds, frequency and pending frequency are codes. -/
def Island.ok (x : Island) : Prop :=
  codeOk x.min ∧ codeOk x.max ∧ codeOk x.cur ∧ ∀ n, x.pend = some n → codeOk n

/-- PLIM lies in 2,000–3,500 W (R627), every island and every CAP holds a frequency code (R36, R37), and no more samples
are held than the 100 ms average needs (R625). -/
def Power.ok (p : Power) : Prop :=
  2000 ≤ p.plim ∧ p.plim ≤ 3500 ∧ (∀ x ∈ p.clk, x.2.ok) ∧ (∀ x ∈ p.caps, codeOk x.2) ∧ p.samples.length ≤ 10000

/-- The invariant of the module. -/
def State.Inv (s : State) : Prop := s.pwr.ok

end Sys2Proof.Machine
end

