-- ==== Sys2Proof/Certificates/Slice0/Obligations.lean ====
section
/-! DEFINITION. The statements about the model, for the provers. -/

open Sys2Proof Sys2Proof.Machine

/-- For every clock island below 144 that is not gated, with hi the lesser of MAX and CAP and lo the lesser of hi and MIN (MAX for both bounds where MIN > MAX): a 2 µs window with more than half its cycles stalled asks for one code less, one with fewer than a tenth for one code more, and else for the code in effect, each brought within lo and hi; FIXED asks for hi (the step whatever work is outstanding: log entry 52). Between two output tiles — no unit of the island in a tile — the boundary puts the pending code, or the code in effect, brought within lo and hi into effect (hi where FIXED). Nothing else of the state changes. A gated island does neither, and an island in a tile changes no clock. An engine island (16 to 143) of whose units none has a tile queued, running or waiting and none a Solver tile in bank S is gated by ISLAND_GATE, one with work is not, and ISLAND_WAKE ends the gating of any island; bounds, code in effect and pending code stay. An island’s clock is 50 MHz times its code, 0 while gated; the queue network of a die runs at 600 MHz while all its four regions are parked, else at 2,000. Cites R32, R34, R35, R36, R37, R623. -/
def Obligations.ClockIslands : Prop :=
  ∀ (s : State) (isl : Nat), isl < 144 →
    let x := s.pwr.island isl
    let hi := min x.max (s.pwr.cap (dieOfIsland isl))
    let lo := min (min x.min x.max) hi
    (x.gated = false → ∀ stalled total : Nat, ∃ t, exec (.clockWindowEnd isl stalled total) s = .next t ∧
      s.islandOnly t isl ∧
      let n := if x.fixed then hi
        else if total < 2 * stalled then clamp lo hi (x.cur - 1)
        else if 10 * stalled < total then clamp lo hi (x.cur + 1)
        else clamp lo hi x.cur
      t.pwr.island isl = { x with pend := if n = x.cur then none else some n }) ∧
    (x.gated = false → s.chip.betweenTiles isl = true → ∃ t, exec (.islandClockChange isl) s = .next t ∧ s.islandOnly t isl ∧
      t.pwr.island isl = { x with cur := if x.fixed then hi else clamp lo hi (x.pend.getD x.cur), pend := none }) ∧
    (x.gated = true → ∀ stalled total : Nat, exec (.clockWindowEnd isl stalled total) s = .next s) ∧
    (x.gated = true ∨ s.chip.betweenTiles isl = false → exec (.islandClockChange isl) s = .next s) ∧
    (s.chip.betweenTiles isl = false ↔ 16 ≤ isl ∧ ∃ u ∈ unitsOf (isl - 16), (s.chip.unit u).run ≠ none) ∧
    s.clockOf isl = (if x.gated then 0 else 50 * x.cur) ∧
    (∀ die, die < 4 → s.clockOf (144 + die) =
      if (List.range 4).all (fun r => bit (s.chip.g .PWR_STAT_PARKED 0) (4 * die + r)) then 600 else 2000) ∧
    (16 ≤ isl → (∀ u ∈ unitsOf (isl - 16), (s.chip.unit u).idle = true) →
      ∃ t, exec (.islandGate isl) s = .next t ∧ s.islandOnly t isl ∧ t.pwr.island isl = { x with gated := true }) ∧
    (16 ≤ isl → (∃ u ∈ unitsOf (isl - 16), (s.chip.unit u).idle = false) → exec (.islandGate isl) s = .next s) ∧
    (∃ t, exec (.islandWake isl) s = .next t ∧ s.islandOnly t isl ∧ t.pwr.island isl = { x with gated := false })

/-- A qualified input starts the precharge; its end switches the rails on and asserts PWR_GOOD (pin 4). PWR_EN low, and a bulk below 260 V while riding through a dropout, switch the rails off, deassert PWR_GOOD, empty every memory and leave BOOT_CAUSE.SOURCE 0 and 1. A wetted leak detector and a rail out of range trip a powered module: PWR_TRIPLOG holds VALID and CAUSE 3 or 2, PWR_GOOD deasserts, SMB_ALERT# (pin 3) asserts, memories are lost. Leaving the trip starts the precharge with SOURCE 2. The flash, the trip log and the queue of commands survive; the trip log of a shutdown is the old one. The value a leak or rail trip records is free (log entry 31), so it is not stated. Cites R617, R619, R622, R632, R643. -/
def Obligations.SupplyComesAndGoes : Prop :=
  ∀ s : State,
    (s.pwr.supply = .off → exec .pwrQualified s = .next { s with pwr := { s.pwr with supply := .precharge } }) ∧
    (s.pwr.supply = .precharge → exec .prechargeDone s =
      .next { s with pwr := { s.pwr with supply := .on }, chip := { s.chip with out := s.chip.out ++ [.pin 4 true] } }) ∧
    (s.pwr.supply = .on ∨ s.pwr.supply = .precharge → ∃ t, exec .pwrEnLow s = .next t ∧ t.pending = s.pending ∧
      t.pwr.supply = .off ∧ t.chip.g .BOOT_CAUSE_SOURCE 0 = 0 ∧ t.chip.mem = [] ∧
      t.chip.out = s.chip.out ++ [.pin 4 false] ∧ t.chip.rd .PWR_TRIPLOG 0 = s.chip.rd .PWR_TRIPLOG 0) ∧
    (s.pwr.supply = .on → s.chip.g .PWR_STAT_RIDING 0 = 1 → ∃ t, exec .holdupShutdown s = .next t ∧ t.pending = s.pending ∧
      t.pwr.supply = .off ∧ t.chip.g .BOOT_CAUSE_SOURCE 0 = 1 ∧ t.chip.mem = [] ∧ t.chip.g .PWR_STAT_RIDING 0 = 0 ∧
      t.chip.g .PWR_STAT_WARN_OUT 0 = 0 ∧
      t.chip.out = s.chip.out ++ [.pin 4 false] ∧ t.chip.rd .PWR_TRIPLOG 0 = s.chip.rd .PWR_TRIPLOG 0) ∧
    (s.pwr.supply = .on ∨ s.pwr.supply = .precharge → ∃ t, exec .leakDetectorWetted s = .next t ∧ t.pending = s.pending ∧
      t.pwr.supply = .tripped ∧ t.pwr.leak = true ∧ t.chip.g .PWR_TRIPLOG_CAUSE 0 = 3 ∧ t.chip.g .PWR_TRIPLOG_VALID 0 = 1 ∧
      t.chip.g .BOOT_CAUSE_SOURCE 0 = 2 ∧ t.chip.mem = [] ∧ t.chip.out = s.chip.out ++ [.pin 4 false, .pin 3 false]) ∧
    (s.pwr.supply = .on ∨ s.pwr.supply = .precharge → ∀ rail, ∃ t, exec (.railOutOfRange rail) s = .next t ∧ t.pending = s.pending ∧
      t.pwr.supply = .tripped ∧ t.chip.g .PWR_TRIPLOG_CAUSE 0 = 2 ∧ t.chip.g .PWR_TRIPLOG_VALID 0 = 1 ∧
      t.chip.g .BOOT_CAUSE_SOURCE 0 = 2 ∧ t.chip.mem = [] ∧ t.chip.out = s.chip.out ++ [.pin 4 false, .pin 3 false]) ∧
    (s.pwr.supply = .tripped → ∃ t, exec .tripExit s = .next t ∧ t.pending = s.pending ∧
      t.pwr.supply = .precharge ∧ t.pwr.leak = false ∧ t.chip.g .BOOT_CAUSE_SOURCE 0 = 2 ∧ t.chip.mem = [] ∧
      t.chip.rd .PWR_TRIPLOG 0 = s.chip.rd .PWR_TRIPLOG 0)

/-- With the supply on and no dropout: while the 10 ms average lies above PLIM, AVERAGE_RULE_TICK lowers the CAP of every compute die by 1 code, not below 12, and sets AVG_LIMIT and POWER_LIMITING; while the 100 ms average lies below 0.97 PLIM, RECOVERY_RULE_TICK raises the CAP of every die on which no thermal rule acts by 1 code, up to 40. PWR_STAT.CAP shows the lowest CAP. A write of PLIM by the physical function or Ringmaster stores the value brought within 2,000 to 3,500 and changes nothing else but that a hardened PLIM is resolved. BULK_WARN while riding asserts PWR_WARN# once, and RIDING_CLEAR ends RIDING and, where asserted, the warning. Nothing else changes. Cites R36, R619, R622, R625, R627, R641, R642. -/
def Obligations.LimiterRules : Prop :=
  (∀ s : State, s.pwr.supply = .on → s.chip.g .PWR_STAT_RIDING 0 = 0 →
    (s.pwr.plim * 10 ^ 6 * (s.pwr.samples.take 1000).length < (s.pwr.samples.take 1000).sum →
      ∃ t, exec .averageRuleTick s = .next t ∧ t.pending = s.pending ∧ t.pwr = { s.pwr with caps := t.pwr.caps } ∧
        (∀ d < 4, t.pwr.cap d = max 12 (s.pwr.cap d - 1)) ∧ t.chip.noRegs = s.chip.noRegs ∧
        s.chip.fieldsBut t.chip [(.PWR_STAT_CAP, 0, 0), (.PWR_STICKY_AVG_LIMIT, 0, 0), (.PWR_STAT_POWER_LIMITING, 0, 0)] ∧
        t.chip.g .PWR_STICKY_AVG_LIMIT 0 = 1 ∧ t.chip.g .PWR_STAT_POWER_LIMITING 0 = 1 ∧
        t.chip.g .PWR_STAT_CAP 0 = min (min (t.pwr.cap 0) (t.pwr.cap 1)) (min (t.pwr.cap 2) (t.pwr.cap 3)) % 64) ∧
    (100 * s.pwr.samples.sum < 97 * s.pwr.plim * 10 ^ 6 * s.pwr.samples.length →
      ∃ t, exec .recoveryRuleTick s = .next t ∧ t.pending = s.pending ∧ t.pwr = { s.pwr with caps := t.pwr.caps } ∧
        (∀ d < 4, t.pwr.cap d = if d ∈ s.pwr.hot then s.pwr.cap d else min 40 (s.pwr.cap d + 1)) ∧
        t.chip.noRegs = s.chip.noRegs ∧ s.chip.fieldsBut t.chip [(.PWR_STAT_CAP, 0, 0)] ∧
        t.chip.g .PWR_STAT_CAP 0 = min (min (t.pwr.cap 0) (t.pwr.cap 1)) (min (t.pwr.cap 2) (t.pwr.cap 3)) % 64)) ∧
  (∀ (s : State) (fn : Fn) (data : Word), fnPriv fn = true → ∃ t, exec (.plimWrite fn data) s = .next t ∧ t.pending = s.pending ∧
      t.pwr = { s.pwr with plim := max 2000 (min 3500 (data.toNat % 8192)) } ∧
      t.chip = { s.chip with upsets := s.chip.upsets.filter (fun u => u.reg != .PWR_CTL) }) ∧
  (∀ (s : State) (fn : Fn) (data : Word), fnPriv fn = false → exec (.plimWrite fn data) s = .next s) ∧
  (∀ s : State, s.chip.g .PWR_STAT_RIDING 0 = 1 →
    (s.chip.g .PWR_STAT_WARN_OUT 0 = 0 → ∃ t, exec .bulkWarn s = .next t ∧
      s.effect t { s.chip with out := s.chip.out ++ [.pin 5 false] } [(.PWR_STAT_WARN_OUT, 0, 0)] ∧
      t.chip.g .PWR_STAT_WARN_OUT 0 = 1) ∧
    (∃ t, exec .ridingClear s = .next t ∧
      s.effect t { s.chip with out := if s.chip.g .PWR_STAT_WARN_OUT 0 = 1 then s.chip.out ++ [.pin 5 true] else s.chip.out }
        [(.PWR_STAT_RIDING, 0, 0), (.PWR_STAT_WARN_OUT, 0, 0)] ∧
      t.chip.g .PWR_STAT_RIDING 0 = 0 ∧ t.chip.g .PWR_STAT_WARN_OUT 0 = 0))

/-- INPUT_SAMPLE of mv mV and ma mA: the power in µW heads the list of at most 10,000 samples. With the supply on, within 320–400 V, at most 16 A and 4,200 W: readings 0 to 2, IN_RANGE, the energy counter and POWER_LIMITING are set, CAP and supply stay. Above 4,200 W, up to 4,600 W and not riding: CAP of every die falls by 4 codes, not below 12, FAST_LIMIT and POWER_LIMITING are set. Below 320 V, up to 16 A and 4,600 W, not riding: RIDING and DROPOUT are set, the dropout is counted, SMB_ALERT# asserts, and every CAP is 24. Above 420 V, at the second sample above 16 A, and at the fifth above 4,600 W: the module trips with CAUSE 5, 6, 7 and keeps the trip log. A precharge below 340 V stops; a tripped module at 0 V loses its supply. Cites R617, R619, R625, R631, R641, R642, R643, R644. -/
def Obligations.InputSampleActs : Prop :=
  ∀ (s : State) (mv ma : Nat),
    (s.pwr.supply = .off → ∃ t, exec (.inputSample mv ma) s = .next t ∧ t.pending = s.pending ∧
      t.pwr.samples = (mv * ma :: s.pwr.samples).take 10000 ∧ t.pwr.supply = .off) ∧
    (s.pwr.supply = .precharge → mv < 340000 → ∃ t, exec (.inputSample mv ma) s = .next t ∧ t.pending = s.pending ∧
      t.pwr.samples = (mv * ma :: s.pwr.samples).take 10000 ∧ t.pwr.supply = .off) ∧
    (s.pwr.supply = .tripped → mv = 0 → ∃ t, exec (.inputSample mv ma) s = .next t ∧ t.pending = s.pending ∧
      t.pwr.supply = .off ∧ t.chip.mem = [] ∧ t.chip.g .PWR_TRIPLOG_VALID 0 = 0) ∧
    (s.pwr.supply = .on → 320000 ≤ mv → mv ≤ 400000 → ma ≤ 16000 → mv * ma ≤ 4200 * 10 ^ 6 →
      ∃ t, exec (.inputSample mv ma) s = .next t ∧ t.pending = s.pending ∧
        t.pwr = { s.pwr with samples := (mv * ma :: s.pwr.samples).take 10000, joules := (s.pwr.joules + mv * ma) % 10 ^ 8,
                             overs := 0, amps := 0, watts := 0, mv := mv } ∧
        t.chip.noRegs = s.chip.noRegs ∧
        t.chip.g .THM_SENSOR_VALUE 0 0 = mv / 100 ∧ t.chip.g .THM_SENSOR_VALID 0 0 = 1 ∧
        t.chip.g .THM_SENSOR_VALUE 0 1 = ma / 10 ∧ t.chip.g .THM_SENSOR_VALID 0 1 = 1 ∧
        t.chip.g .THM_SENSOR_VALUE 0 2 = mv * ma / 10 ^ 6 ∧ t.chip.g .THM_SENSOR_VALID 0 2 = 1 ∧
        t.chip.g .PWR_STAT_IN_RANGE 0 = (if 340000 ≤ mv then 1 else 0) ∧
        t.chip.g .PWR_ENERGY_ENERGY 0 = (s.chip.g .PWR_ENERGY_ENERGY 0 + (s.pwr.joules + mv * ma) / 10 ^ 8) % 2 ^ 64 ∧
        t.chip.g .PWR_STAT_POWER_LIMITING 0 =
          (if s.pwr.plim * 10 ^ 6 * (t.pwr.samples.take 1000).length < (t.pwr.samples.take 1000).sum then 1 else 0) ∧
        s.chip.fieldsBut t.chip [(⟨.THM_SENSOR, 16, 0⟩, 0, 0), (⟨.THM_SENSOR, 16, 0⟩, 0, 1), (⟨.THM_SENSOR, 16, 0⟩, 0, 2),
          (.PWR_STAT_IN_RANGE, 0, 0), (.PWR_STAT_PIN_AVG, 0, 0), (.PWR_ENERGY_ENERGY, 0, 0), (.PWR_STAT_POWER_LIMITING, 0, 0)]) ∧
    (s.pwr.supply = .on → s.chip.g .PWR_STAT_RIDING 0 = 0 → 320000 ≤ mv → mv ≤ 400000 → ma ≤ 16000 →
      4200 * 10 ^ 6 < mv * ma → mv * ma ≤ 4600 * 10 ^ 6 →
      ∃ t, exec (.inputSample mv ma) s = .next t ∧ t.pending = s.pending ∧ t.pwr.supply = .on ∧
        (∀ d < 4, t.pwr.cap d = max 12 (s.pwr.cap d - 4)) ∧ t.chip.noRegs = s.chip.noRegs ∧
        t.chip.g .PWR_STICKY_FAST_LIMIT 0 = 1 ∧ t.chip.g .PWR_STAT_POWER_LIMITING 0 = 1) ∧
    (s.pwr.supply = .on → s.chip.g .PWR_STAT_RIDING 0 = 0 → mv < 320000 → ma ≤ 16000 → mv * ma ≤ 4600 * 10 ^ 6 →
      ∃ t, exec (.inputSample mv ma) s = .next t ∧ t.pending = s.pending ∧ t.pwr.supply = .on ∧
        (∀ d < 4, t.pwr.cap d = 24) ∧ t.chip.noRegs = ({ s.chip with out := s.chip.out ++ [Out.pin 3 false] } : Chip).noRegs ∧
        t.chip.g .PWR_STAT_RIDING 0 = 1 ∧ t.chip.g .PWR_STICKY_DROPOUT 0 = 1 ∧
        t.chip.g .PWR_CNT_DROPOUT_COUNT 0 = (s.chip.g .PWR_CNT_DROPOUT_COUNT 0 + 1) % 2 ^ 64) ∧
    (s.pwr.supply = .on →
      (420000 < mv ∨ (mv ≤ 400000 ∧ 16000 < ma ∧ 1 ≤ s.pwr.amps) ∨
        (mv ≤ 400000 ∧ ma ≤ 16000 ∧ 4600 * 10 ^ 6 < mv * ma ∧ 4 ≤ s.pwr.watts)) →
      ∃ t, exec (.inputSample mv ma) s = .next t ∧ t.pending = s.pending ∧ t.pwr.supply = .tripped ∧ t.chip.mem = [] ∧
        t.chip.g .PWR_TRIPLOG_VALID 0 = 1 ∧ t.chip.g .BOOT_CAUSE_SOURCE 0 = 2 ∧
        t.chip.g .PWR_TRIPLOG_CAUSE 0 = (if 420000 < mv then 5 else if 16000 < ma then 6 else 7))

/-- THERMAL_SAMPLE with the supply not off. Sensor 3 shows the bulk voltage. The hub (8), a stack (9 to 16) and the hottest Cellar package (17), plausible and below the trip level 105 °C: VALUE and VALID are shown, WARN follows the level 90 °C (hub) or 85 °C, LIMIT of 9 to 17 the level 95 °C. At 105 °C or more a powered module trips with CAUSE 1, and so does coolant at its trip level (45 °C inlet, 65 °C outlet). A junction reading is excluded when implausible, outside −20 to 150 °C, or more than 15 K from the mean of the other sensors of its die, and otherwise replaces the sensor’s last one; the other readings stay. With the supply off nothing changes. Cites R629, R630, R631, R641, R644. -/
def Obligations.ThermalSampleActs : Prop :=
  ∀ (s : State) (v : Int),
    (s.pwr.supply = .off → ∀ i ok, exec (.thermalSample i v ok) s = .next s) ∧
    (s.pwr.supply ≠ .off →
      (∀ ok, ∃ t, exec (.thermalSample 3 v ok) s = .next t ∧
        s.effect t s.chip [(.THM_SENSOR_VALUE, 0, 3), (.THM_SENSOR_VALID, 0, 3)] ∧
        (t.chip.g .THM_SENSOR_VALUE 0 3 : Int) = v % 65536 ∧ t.chip.g .THM_SENSOR_VALID 0 3 = 1) ∧
      (∀ i, 8 ≤ i → i < 18 → (-200 ≤ v ∨ 9 ≤ i) → v < 1050 → ∃ t, exec (.thermalSample i v true) s = .next t ∧ s.chipOnly t ∧
        (t.chip.g .THM_SENSOR_VALUE 0 i : Int) = v % 65536 ∧ t.chip.g .THM_SENSOR_VALID 0 i = 1 ∧
        t.chip.g .THM_SENSOR_DEGRADED 0 i = 0 ∧
        t.chip.g .THM_SENSOR_WARN 0 i = (if (if i = 8 then 900 else 850) ≤ v then 1 else 0) ∧
        (9 ≤ i → t.chip.g .THM_SENSOR_LIMIT 0 i = (if 950 ≤ v then 1 else 0))) ∧
      (∀ die k ok, die < 4 → k < 32 →
        let key := 32 * die + k
        let excluded : Bool := !ok || decide (v < -200) || decide (1500 < v) || farOff v (s.pwr.others die k)
        ∃ t, exec (.thermalSample (256 + key) v ok) s = .next t ∧ t.pending = s.pending ∧
          ∀ x, x ∈ t.pwr.junc ↔ x = (key, if excluded then none else some v) ∨ (x ∈ s.pwr.junc ∧ x.1 ≠ key))) ∧
    (s.pwr.supply = .on ∨ s.pwr.supply = .precharge →
      ∀ i, ((8 ≤ i ∧ i < 18 ∧ 1050 ≤ v ∧ (v ≤ 1500 ∨ 9 ≤ i)) ∨ (18 ≤ i ∧ i < 20 ∧ 450 ≤ v ∧ v < 32768) ∨ (20 ≤ i ∧ i < 22 ∧ 650 ≤ v ∧ v < 32768)) →
      ∃ t, exec (.thermalSample i v true) s = .next t ∧ t.pending = s.pending ∧ t.pwr.supply = .tripped ∧ t.chip.mem = [] ∧
        t.chip.g .PWR_TRIPLOG_VALID 0 = 1 ∧ t.chip.g .PWR_TRIPLOG_CAUSE 0 = 1 ∧ t.chip.g .PWR_TRIPLOG_SENSOR 0 = i ∧
        t.chip.g .BOOT_CAUSE_SOURCE 0 = 2)

/-- HARDENED_SCRUB_PASS with no disagreeing copy only counts the pass modulo 2^16. A single upset of the hardened word of PLIM: where at least two valid copies agree, PLIM takes their value within 2,000 to 3,500, else 3,500; no upset is left, no other clock or limiter state changes. Cites R634, R635, R645. -/
def Obligations.HardenedScrubVotes : Prop :=
  (∀ s : State, s.chip.upsets = [] → ∃ t, exec .hardenedScrubPass s = .next t ∧
      s.effect t s.chip [(.HUB_HARD_STAT_PASSES, 0, 0)] ∧
      t.chip.g .HUB_HARD_STAT_PASSES 0 = (s.chip.g .HUB_HARD_STAT_PASSES 0 + 1) % 2 ^ 16) ∧
  (∀ (s : State) (u : Upset3), s.chip.upsets = [u] → u.reg = .PWR_CTL → ∃ t, exec .hardenedScrubPass s = .next t ∧
      t.pending = s.pending ∧
      ((∃ v, u.vote = some v ∧ t.pwr = { s.pwr with plim := max 2000 (min 3500 (v % 8192)) }) ∨
        (u.vote = none ∧ t.pwr = { s.pwr with plim := 3500 })))

/-- For every register of the map, every instance its window counts (one hub, 16 regions, 128 clusters, 1,024 units), every index and every byte: the BAR0 offset that the layout gives decodes to the register’s window, the flat index of its region, cluster or unit, and, in the window, to that register with that index and byte. So no two registers share a byte and no byte of a register is unmapped. Cites R12, R23, R26, R646, R650, R651, R652, R653. -/
def Obligations.RegisterMapUnambiguous : Prop :=
  ∀ (r : Reg) (i j b : Nat), i < r.info.win.count → j < r.info.count → b < r.info.width / 8 →
    windowOf (r.offset i j + b) = some (r.info.win, i, r.info.base + j * r.info.stride + b) ∧
    findReg r.info.win (r.info.base + j * r.info.stride + b) Reg.all = some (r, j, b)

/-- A write of an aligned 4 B word, or of a whole 64-bit register, that decodes to a register with no special rule: every bit outside the written bits, of no field, of a DA field, of an LK field while its partition runs, of a read-only field, or of a field whose write is another row of the table keeps its value; a bit of a RW or WO field takes the data’s bit; a bit of a W1C field is cleared by a 1. While the register is not locked every other register and all other state stay. (The list of registers with a rule of their own is Reg.plain.) A 4 B write of a quantum end, a grant, a ring base or a window register is the register’s own operation on its word with the addressed half replaced. A 4 B read shows the addressed half of the register, an aligned 8 B read of a 64-bit register all of it. Cites R12, R14, R15, R16, R17, R18, R568. -/
def Obligations.RegisterWriteByAccessType : Prop :=
  (∀ (s : State) (fn : Fn) (off : Nat) (data : Word) (l : Loc), off % 4 = 0 → ¬ (0x79000 ≤ off ∧ off < 0x7A000) →
    s.chip.locate fn off = some l → l.reg.plain = true →
    let locked := s.chip.isLocked l.reg l.inst
    let old := s.chip.rd l.reg l.inst l.idx
    (∃ t, exec (.registerWrite fn off 4 data) s = .next t ∧ s.chipOnly t ∧
      (∀ n < 64, (t.chip.rd l.reg l.inst l.idx).getLsbD n = writtenBit l.reg locked old (8 * l.byte) 32 data n) ∧
      (locked = false → t.chip.noRegs = s.chip.noRegs ∧ ∀ r i j, regKey r i j ≠ regKey l.reg l.inst l.idx →
        t.chip.rd r i j = s.chip.rd r i j)) ∧
    (off % 8 = 0 → l.byte = 0 → l.reg.info.width = 64 → ∃ t, exec (.registerWrite fn off 8 data) s = .next t ∧
      t.pending = s.pending ∧
      (∀ n < 64, (t.chip.rd l.reg l.inst l.idx).getLsbD n = writtenBit l.reg locked old 0 64 data n) ∧
      (locked = false → t.chip.noRegs = s.chip.noRegs ∧ ∀ r i j, regKey r i j ≠ regKey l.reg l.inst l.idx →
        t.chip.rd r i j = s.chip.rd r i j))) ∧
  (∀ (s : State) (fn : Fn) (off : Nat) (data : Word) (l : Loc), off % 4 = 0 → ¬ (0x79000 ≤ off ∧ off < 0x7A000) →
    s.chip.locate fn off = some l → (l.byte = 0 ∨ l.byte = 4) →
    let v := wset (s.chip.rd l.reg l.inst l.idx) (8 * l.byte + 31) (8 * l.byte) (data.toNat % 2 ^ 32)
    let acts (f : Chip → Chip) : Prop := exec (.registerWrite fn off 4 data) s = .next { s with chip := f s.chip }
    (l.reg = .PART_QEND → acts (fun c => c.qendWrite fn l.inst v)) ∧
    (l.reg = .PART_CGRANT → acts (fun c => c.cgrantWrite fn l.inst l.idx v)) ∧
    (l.reg = .HOSTIF_HIQ_BASE → acts (fun c => c.hiqBase l.inst l.idx v)) ∧
    (l.reg = .HOSTIF_HOQ_BASE → acts (fun c => c.hoqBase l.inst l.idx v)) ∧
    (winReg l.reg = true → acts (fun c => c.winWrite l v))) ∧
  (∀ (s : State) (fn : Fn) (off : Nat) (l : Loc), s.chip.locate fn off = some l → (l.byte = 0 ∨ l.byte = 4) →
    let w := s.readAt fn { l with byte := 0 }
    s.read fn off 4 = Word.ofNat (wbits w (8 * l.byte + 31) (8 * l.byte)) ∧
    (∀ h, s.chip.locate fn (off + 4) = some h → h.byte = 4 → l.byte = 0 → { h with byte := 0 } = { l with byte := 0 } → s.read fn off 8 = w))

/-- For a register with no special rule whose owning partition p is CLEARING, RUNNING or STOPPING: an aligned 4 B write whose bits meet an LK field sets LOCK_VIOL of p and puts the BAR0 offset of the written word into PART_VIOL.LOCK_OFF, and every LK field of the register keeps its value. Cites R17, R536. -/
def Obligations.LockedWriteRecorded : Prop :=
  ∀ (s : State) (fn : Fn) (off : Nat) (data : Word) (l : Loc) (p : Nat), off % 4 = 0 → ¬ (0x79000 ≤ off ∧ off < 0x7A000) →
    s.chip.locate fn off = some l → l.reg.plain = true → l.reg ≠ .PART_STAT → l.reg ≠ .PART_VIOL →
    l.inst < 2048 → l.idx < 4096 → p < 16 →
    s.chip.lockPart l.reg l.inst = some p → s.chip.runs p = true →
    (∃ f ∈ l.reg.fields, f.lk = true ∧ 8 * l.byte ≤ f.hi ∧ f.lo ≤ 8 * l.byte + 31 ∧ ownRow l.reg f.lo = false) →
    ∃ t, exec (.registerWrite fn off 4 data) s = .next t ∧ s.chipOnly t ∧ t.chip.noRegs = s.chip.noRegs ∧
      t.chip.g .PART_STAT_LOCK_VIOL p = 1 ∧
      t.chip.g .PART_VIOL_LOCK_OFF p = (l.reg.offset l.inst l.idx + if 4 ≤ l.byte then 4 else 0) % 2 ^ 26 ∧
      ∀ f ∈ l.reg.fields, f.lk = true → t.chip.g ⟨l.reg, f.hi, f.lo⟩ l.inst l.idx = s.chip.g ⟨l.reg, f.hi, f.lo⟩ l.inst l.idx

/-- For a physical or virtual function: a read at an unmapped offset outside the fault log counts in HOSTIF_CNT_UNMAP_RD (index 0), an aligned 4 B write to one counts in HOSTIF_CNT_UNMAP_WR (index 1), a write outside CHG_BUF that is not an aligned 4 or 8 B access counts in HOSTIF_CNT_BADSIZE (index 2), all modulo 2^64. Both unmapped accesses leave UNMAPPED (bit 5) of HOSTIF_CAUSE set. No memory, clock or limiter state changes, and a partial write changes nothing but its count. Cites R14, R568. -/
def Obligations.UnmappedAndPartialAccesses : Prop :=
  ∀ (s : State) (fn : Fn) (off : Nat), (fn ≠ .rm ∧ fn ≠ .bmc) →
    (s.chip.locate fn off = none → inLog fn off = false →
      (∀ size, 0 < size → ∃ t, exec (.unmappedRead fn off size) s = .next t ∧ s.chipOnly t ∧ t.chip.mem = s.chip.mem ∧
        t.chip.g .HOSTIF_CNT_COUNT (fnIdx fn) 0 = (s.chip.g .HOSTIF_CNT_COUNT (fnIdx fn) 0 + 1) % 2 ^ 64 ∧
        bit (t.chip.g .HOSTIF_CAUSE_CAUSE (fnIdx fn)) 5 = true) ∧
      (off % 4 = 0 → ¬ (0x79000 ≤ off ∧ off < 0x7A000) → ∀ data, ∃ t, exec (.registerWrite fn off 4 data) s = .next t ∧
        s.chipOnly t ∧ t.chip.mem = s.chip.mem ∧
        t.chip.g .HOSTIF_CNT_COUNT (fnIdx fn) 1 = (s.chip.g .HOSTIF_CNT_COUNT (fnIdx fn) 1 + 1) % 2 ^ 64 ∧
        bit (t.chip.g .HOSTIF_CAUSE_CAUSE (fnIdx fn)) 5 = true)) ∧
    (∀ (size : Nat) (data : Word), (off % 4 ≠ 0 ∨ (size ≠ 4 ∧ size ≠ 8)) → ¬ (0x79000 ≤ off ∧ off < 0x7A000) →
      ∃ t, exec (.registerWrite fn off size data) s = .next t ∧ s.effect t s.chip [(.HOSTIF_CNT_COUNT, fnIdx fn, 2)] ∧
        t.chip.g .HOSTIF_CNT_COUNT (fnIdx fn) 2 = (s.chip.g .HOSTIF_CNT_COUNT (fnIdx fn) 2 + 1) % 2 ^ 64)

/-- An aligned 4 B write that decodes to RGN_CLK or CLU_CLK sets MIN to bits [5:0] and MAX to bits [13:8] of the data, a value below 12 stored as 12 and one above 40 as 40, and FIXED to bit 30, of the island of that region (0 to 15) or cluster (16 to 143). The code in effect, the other islands and all other state stay. Cites R37. -/
def Obligations.ClockRegisterWrite : Prop :=
  ∀ (s : State) (fn : Fn) (off : Nat) (data : Word) (l : Loc), off % 4 = 0 → ¬ (0x79000 ≤ off ∧ off < 0x7A000) →
    s.chip.locate fn off = some l → (l.reg = .RGN_CLK ∨ l.reg = .CLU_CLK) →
    let k := if l.reg = .RGN_CLK then l.inst else 16 + l.inst
    ∃ t, exec (.registerWrite fn off 4 data) s = .next t ∧ s.islandOnly t k ∧
      t.pwr.island k = { s.pwr.island k with min := max 12 (min 40 (data.toNat % 64)), max := max 12 (min 40 (data.toNat / 256 % 64)),
                                             fixed := data.getLsbD 30 }

/-- With p below 16. DECIDE_TMO_EXPIRY of a rank that has voted, has no decision and is not in doubt sets IN_DOUBT and counts one SEAL_TMO record; the vote stands. ACK_TMO_EXPIRY and BOUND_TMO_EXPIRY report once: the mark that they did is all that changes in the seal logic. READY_TMO_EXPIRY of a coordinator whose votes are incomplete logs an ABANDON (KIND 2) with REASON 2 and forgets the votes. DEFERRED_RELEASE before its time does nothing, afterwards no release is left. None of them changes clocks, limiter, supply or queue. Cites R508, R509, R510, R511, R523, R497, R540. -/
def Obligations.SealTimers : Prop :=
  ∀ (s : State) (p : Nat), p < 16 →
    let c := s.chip
    let x := c.sealOf p
    (∀ v, x.votedAt = some v → c.on .HUB_STEP_READY_SENT p = true → c.on .SEAL_STAT_IN_DOUBT p = false →
      v + 1000000 * c.g .SEAL_CFG_DECIDE_TMO p ≤ c.up →
      ∃ t, exec (.decideTmoExpiry p) s = .next t ∧ s.chipOnly t ∧ t.chip.noFault = c.noFault ∧
        c.regsBut t.chip (.SEAL_STAT :: .SEAL_CNT :: faultRegs) ∧ t.chip.g .SEAL_STAT_IN_DOUBT p = 1 ∧
        t.chip.g .SEAL_STAT_ATT p = c.g .SEAL_STAT_ATT p ∧ t.chip.g .SEAL_STAT_WAIT_REL p = c.g .SEAL_STAT_WAIT_REL p ∧
        t.chip.g .SEAL_CNT_COUNT p 2 = (c.g .SEAL_CNT_COUNT p 2 + 1) % 2 ^ 64 ∧
        (c.homeFaults p → t.chip.g .INT_CNT_COUNT 0 0 = (c.g .INT_CNT_COUNT 0 0 + 1) % 2 ^ 64)) ∧
    (∀ v, x.votedAt = some v → c.up < v + 1000000 * c.g .SEAL_CFG_DECIDE_TMO p → exec (.decideTmoExpiry p) s = .next s) ∧
    (∀ l, x.ack = some l → x.ackTmo = false → x.ackAt + 1000000 * c.g .SEAL_CFG_ACK_TMO p ≤ c.up →
      ∃ t, exec (.ackTmoExpiry p) s = .next t ∧ s.chipOnly t ∧ t.chip.sealOf p = { x with ackTmo := true } ∧
        c.regsBut t.chip (.SEAL_CNT :: faultRegs) ∧ t.chip.g .SEAL_CNT_COUNT p 2 = (c.g .SEAL_CNT_COUNT p 2 + 1) % 2 ^ 64) ∧
    (x.ackTmo = true → exec (.ackTmoExpiry p) s = .next s) ∧
    (x.bound ≠ [] → x.boundTmo = false → x.boundAt + 1000000 * c.g .SEAL_CFG_BOUND_TMO p ≤ c.up →
      ∃ t, exec (.boundTmoExpiry p) s = .next t ∧ s.chipOnly t ∧ t.chip.sealOf p = { x with boundTmo := true } ∧
        c.regsBut t.chip (.SEAL_CNT :: faultRegs) ∧ t.chip.g .SEAL_CNT_COUNT p 2 = (c.g .SEAL_CNT_COUNT p 2 + 1) % 2 ^ 64) ∧
    (x.boundTmo = true → exec (.boundTmoExpiry p) s = .next s) ∧
    (c.runs p = true → c.isCoord p = true → x.votes ≠ [] → x.voteAt + 1000000 * c.g .SEAL_CFG_READY_TMO p ≤ c.up →
      ∃ t, exec (.readyTmoExpiry p) s = .next t ∧ s.chipOnly t ∧ t.chip.g .SEAL_LOG_KIND p = 2 ∧
        t.chip.g .SEAL_LOG_LOCAL p = 1 ∧ t.chip.g .SEAL_LOG_STEP p = c.step p % 2 ^ 48 ∧
        t.chip.g .SEAL_CAUSE_REASON p = 2 ∧ (t.chip.sealOf p).votes = []) ∧
    (c.up < x.voteAt + 1000000 * c.g .SEAL_CFG_READY_TMO p → exec (.readyTmoExpiry p) s = .next s) ∧
    (∀ at_ step mark, x.release = some (at_, step, mark) → at_ ≤ c.now →
      ∃ t, exec (.deferredRelease p) s = .next t ∧ s.chipOnly t ∧ (t.chip.sealOf p).release = none ∧
        (t.chip.sealOf p).bsent = false) ∧
    (∀ at_ step mark, x.release = some (at_, step, mark) → c.now < at_ → exec (.deferredRelease p) s = .next s)

/-- With p below 16 and p the partition whose window Ringmaster has selected. On a stopped partition: SEAL_LOAD sets the sealed step, its parity and the schedule index and clears READY_SENT, UPDATE_DONE, GATE_FAIL, IN_DOUBT, ATT and OLD_INTACT; SEAL_REVERT with OLD_INTACT set, no SEAL_READY sent and a step sealed sets the sealed step back by one with its parity and the schedule index, clears OLD_INTACT, logs KIND 5 and reads 1 until SEAL_REVERT_DONE; SEAL_DISCARD with SEAL_READY sent, in doubt or with a journal empties the journal, clears READY_SENT, UPDATE_DONE, GATE_FAIL and IN_DOUBT, counts a skip, leaves the sealed step and reads 1 just while a void pass is pending; RCV_APPLY takes REPOCH_NEXT as the recovery epoch and clears ATT and WAIT_REL; RCV_QUIESCE reads 1, and QUIESCE_DONE clears it once no void pass runs. While the partition runs, SEAL_LOAD, SEAL_FORCE, SEAL_REVERT and SEAL_DISCARD set CMD_REFUSED and LOCK_VIOL and change nothing else but the offset recorded. Cites R48, R360, R515, R516, R517, R522, R528. -/
def Obligations.RecoveryActions : Prop :=
  ∀ (s : State) (p : Nat), p < 16 →
    let c := s.chip
    (c.reaches .rm .SEAL_CMD p = true → c.runs p = false →
      (∃ t, exec (.sealLoad .rm p) s = .next t ∧ s.chipOnly t ∧ c.regsBut t.chip [.HUB_STEP, .HUB_SCHED, .SEAL_STAT] ∧
        t.chip.noRegs = ({ c with steps := t.chip.steps, seals := t.chip.seals } : Chip).noRegs ∧
        t.chip.g .HUB_STEP_SEALED_STEP p = c.g .SEAL_CMD_STEP p ∧ t.chip.g .HUB_STEP_PARITY p = c.g .SEAL_CMD_STEP p % 2 ∧
        t.chip.g .HUB_SCHED_INDEX p = c.g .SEAL_LOADIDX_INDEX p ∧ t.chip.g .HUB_STEP_READY_SENT p = 0 ∧
        t.chip.g .HUB_STEP_UPDATE_DONE p = 0 ∧ t.chip.g .HUB_STEP_GATE_FAIL p = 0 ∧ t.chip.g .SEAL_STAT_IN_DOUBT p = 0 ∧
        t.chip.g .SEAL_STAT_ATT p = 0 ∧ t.chip.g .SEAL_STAT_OLD_INTACT p = 0) ∧
      (c.g .SEAL_STAT_OLD_INTACT p = 1 → c.g .HUB_STEP_READY_SENT p = 0 → 0 < c.g .HUB_STEP_SEALED_STEP p →
        ∃ t, exec (.sealRevert .rm p) s = .next t ∧
          s.effect t c [(⟨.HUB_STEP, 63, 0⟩, p, 0), (.HUB_SCHED_INDEX, p, 0), (⟨.SEAL_LOG, 63, 0⟩, p, 0), (.SEAL_STAT_OLD_INTACT, p, 0),
            (.SEAL_CNT_COUNT, p, 4), (.SEAL_CMD_REVERT, p, 0)] ∧
          t.chip.g .HUB_STEP_SEALED_STEP p + 1 = c.g .HUB_STEP_SEALED_STEP p ∧
          t.chip.g .HUB_STEP_PARITY p = t.chip.g .HUB_STEP_SEALED_STEP p % 2 ∧
          (t.chip.g .HUB_SCHED_INDEX p + 1) % 2 ^ 48 = c.g .HUB_SCHED_INDEX p ∧ t.chip.g .SEAL_STAT_OLD_INTACT p = 0 ∧
          t.chip.g .SEAL_LOG_KIND p = 5 ∧ t.chip.g .SEAL_CMD_REVERT p = 1 ∧
          t.chip.g .SEAL_CNT_COUNT p 4 = (c.g .SEAL_CNT_COUNT p 4 + 1) % 2 ^ 64) ∧
      ((c.g .HUB_STEP_READY_SENT p = 1 ∨ c.g .SEAL_STAT_IN_DOUBT p = 1 ∨ (c.upd p).jrnl ≠ []) →
        ∃ t, exec (.sealDiscard .rm p) s = .next t ∧ s.chipOnly t ∧ t.chip.g .HUB_STEP_READY_SENT p = 0 ∧
          t.chip.g .HUB_STEP_UPDATE_DONE p = 0 ∧ t.chip.g .HUB_STEP_GATE_FAIL p = 0 ∧ t.chip.g .SEAL_STAT_IN_DOUBT p = 0 ∧
          t.chip.g .HUB_STEP_SEALED_STEP p = c.g .HUB_STEP_SEALED_STEP p ∧
          t.chip.g .HUB_CNT_SKIP_COUNT p = (c.g .HUB_CNT_SKIP_COUNT p + 1) % 2 ^ 64 ∧
          (t.chip.upd p).jrnl = [] ∧ t.chip.sealOf p = { barrier := (c.sealOf p).barrier } ∧
          t.chip.g .SEAL_CMD_DISCARD p = b2n (!(t.chip.upd p).void.isEmpty))) ∧
    (c.reaches .rm .SEAL_CMD p = true → c.runs p = true → ∀ i ∈ [Instr.sealLoad .rm p, .sealForce .rm p, .sealRevert .rm p, .sealDiscard .rm p],
      ∃ t, exec i s = .next t ∧
        s.effect t c [(.PART_STAT_LOCK_VIOL, p, 0), (.PART_VIOL_LOCK_OFF, p, 0), (.INT_STAT_CMD_REFUSED, p, 0)] ∧
        t.chip.g .PART_STAT_LOCK_VIOL p = 1 ∧ t.chip.g .INT_STAT_CMD_REFUSED p = 1) ∧
    (c.g .SEAL_CMD_REVERT p = 1 → ∃ t, exec (.sealRevertDone p) s = .next t ∧ s.chipOnly t ∧ t.chip.g .SEAL_CMD_REVERT p = 0 ∧
      t.chip.g .HUB_STEP_SEALED_STEP p = c.g .HUB_STEP_SEALED_STEP p) ∧
    ((c.upd p).void ≠ [] → ∃ t, exec (.voidPassEnd p) s = .next t ∧ s.chipOnly t ∧ (t.chip.upd p).void = [] ∧
      t.chip.g .SEAL_CMD_DISCARD p = 0 ∧ t.chip.g .HUB_STEP_SEALED_STEP p = c.g .HUB_STEP_SEALED_STEP p) ∧
    (c.reaches .rm .INT_RCV p = true → c.runs p = false →
      (∃ t, exec (.rcvApply .rm p) s = .next t ∧
        s.effect t ({ c with seals := t.chip.seals } : Chip) [(.FAB_JOB_REPOCH, p, 0), (.SEAL_STAT_ATT, p, 0), (.SEAL_STAT_WAIT_REL, p, 0),
          (.INT_CNT_COUNT, 0, 5)] ∧
        t.chip.g .FAB_JOB_REPOCH p = c.g .INT_RCV_REPOCH_NEXT p ∧ t.chip.g .SEAL_STAT_ATT p = 0 ∧
        t.chip.g .SEAL_STAT_WAIT_REL p = 0 ∧ t.chip.sealOf p = { c.sealOf p with barrier := false }) ∧
      (∃ t, exec (.rcvQuiesce .rm p) s = .next t ∧ s.chipOnly t ∧ t.chip.g .INT_RCV_QUIESCE p = 1 ∧
        t.chip.g .SEAL_STAT_BOUNDARY p = 0 ∧ t.chip.sealOf p = { barrier := (c.sealOf p).barrier })) ∧
    (c.g .INT_RCV_QUIESCE p = 1 → (c.upd p).void = [] → ∃ t, exec (.quiesceDone p) s = .next t ∧
      s.effect t c [(.INT_RCV_QUIESCE, p, 0)] ∧ t.chip.g .INT_RCV_QUIESCE p = 0)

/-- With p below 16. SEAL_FORCE on a stopped partition that has voted with its update done, a SEAL received from the coordinator for the step voted for, and the SEAL_READY that completes the votes of a live coordinator all flip: SEALED_STEP becomes the step in progress, PARITY its parity, the schedule index advances by one, READY_SENT, UPDATE_DONE, GATE_FAIL and IN_DOUBT read 0, OLD_INTACT reads 1, the journal of the attempt is empty, the vote is forgotten, and SEAL_LOG holds the step and its kind (4 for FORCE, else 1, LOCAL for a coordinator). A SEAL for any other step is a control-path fault: the partition owes a vote to abandon and no step is sealed. Cites R47, R50, R52, R240, R508, R509, R515, R524, R525. -/
def Obligations.SealFlips : Prop :=
  ∀ (s : State) (p : Nat), p < 16 →
    let c := s.chip
    let flipped (d e : Chip) (kind : Nat) : Prop :=
      e.g .HUB_STEP_SEALED_STEP p = d.step p % 2 ^ 48 ∧ e.g .HUB_STEP_PARITY p = d.step p % 2 ∧
      e.g .HUB_SCHED_INDEX p = (d.g .HUB_SCHED_INDEX p + 1) % 2 ^ 48 ∧ e.g .HUB_STEP_READY_SENT p = 0 ∧
      e.g .HUB_STEP_UPDATE_DONE p = 0 ∧ e.g .HUB_STEP_GATE_FAIL p = 0 ∧ e.g .SEAL_STAT_IN_DOUBT p = 0 ∧
      e.g .SEAL_STAT_OLD_INTACT p = 1 ∧ (e.upd p).jrnl = [] ∧ (e.sealOf p).votedAt = none ∧ (e.sealOf p).votes = [] ∧
      e.g .SEAL_LOG_STEP p = d.step p % 2 ^ 48 ∧ e.g .SEAL_LOG_KIND p = kind ∧
      e.g .SEAL_CNT_COUNT p (if kind = 4 then 3 else 0) = (d.g .SEAL_CNT_COUNT p (if kind = 4 then 3 else 0) + 1) % 2 ^ 64
    (c.reaches .rm .SEAL_CMD p = true → c.runs p = false → c.g .HUB_STEP_READY_SENT p = 1 → c.g .HUB_STEP_UPDATE_DONE p = 1 →
      c.g .HUB_STEP_GATE_FAIL p = 0 →
      ∃ t, exec (.sealForce .rm p) s = .next t ∧ s.chipOnly t ∧ flipped c t.chip 4 ∧ t.chip.g .SEAL_LOG_LOCAL p = 0) ∧
    (∀ m d r, c.sealTakes p 3 m d r → d.coord p = some r → d.amLive p = true → m.step = d.step p →
      d.g .HUB_STEP_READY_SENT p = 1 →
      ∃ t, exec (.recvSeal p m) s = .next t ∧ s.chipOnly t ∧ flipped d t.chip 1 ∧ t.chip.g .SEAL_LOG_LOCAL p = 0) ∧
    (∀ m d r, c.sealTakes p 3 m d r → d.coord p = some r → d.amLive p = true → m.step ≠ d.step p →
      ∃ t, exec (.recvSeal p m) s = .next t ∧ s.chipOnly t ∧ (t.chip.stepS p).vote = true ∧
        t.chip.g .HUB_STEP_SEALED_STEP p = d.g .HUB_STEP_SEALED_STEP p ∧
        d.regsBut t.chip faultRegs) ∧
    (∀ m d r, c.sealTakes p 1 m d r → d.isCoord p = true → r ∈ d.liveRanks p → (d.sealOf p).ack = none → m.step = d.step p →
      m.lepoch = d.lepoch p → (∀ k ∈ d.liveRanks p, k = r ∨ ∃ b, (k, b) ∈ (d.sealOf p).votes) →
      ∃ t, exec (.recvSealReady p m) s = .next t ∧ s.chipOnly t ∧ flipped d t.chip 1 ∧ t.chip.g .SEAL_LOG_LOCAL p = 1) ∧
    (∀ m d r, c.sealTakes p 1 m d r → d.isCoord p = true → r ∈ d.liveRanks p → (d.sealOf p).ack = none → m.step = d.step p →
      m.lepoch = d.lepoch p → (∃ k ∈ d.liveRanks p, k ≠ r ∧ ∀ b, (k, b) ∉ (d.sealOf p).votes) →
      ∃ t, exec (.recvSealReady p m) s = .next t ∧ s.chipOnly t ∧ (r, true) ∈ (t.chip.sealOf p).votes ∧
        t.chip.noRegs = ({ d with seals := t.chip.seals } : Chip).noRegs ∧ d.regsBut t.chip [.SEAL_STAT])

/-- With p below 16. A GATE_FAIL vote from another live rank makes the coordinator log ABANDON (KIND 2, LOCAL) with REASON 1 and that rank. An ABANDON of the step in progress, from the coordinator, makes a rank that is not the coordinator and not yet behind the barrier raise ATT by one, count the abandon, log it, clear READY_SENT, UPDATE_DONE and IN_DOUBT, set WAIT_REL and stand behind the barrier with no vote given. A release with MARK 0 lets the barrier fall: GATE_FAIL and WAIT_REL read 0; where every sequencer has reached a full boundary meanwhile, the boundary is reported and WAIT_REL reads 1. The acknowledgement of one rank, with others still to come, takes that rank from those awaited. Cites R48, R243, R248, R508, R510, R512, R524, R525. -/
def Obligations.AbandonsDecided : Prop :=
  ∀ (s : State) (p : Nat), p < 16 →
    let c := s.chip
    (∀ m d r, c.sealTakes p 2 m d r → d.isCoord p = true → r ∈ d.liveRanks p → r ≠ d.myRank p → r < 256 → (d.sealOf p).ack = none →
      m.step = d.step p → m.lepoch = d.lepoch p →
      ∃ t, exec (.recvGateFail p m) s = .next t ∧ s.chipOnly t ∧ t.chip.g .SEAL_LOG_KIND p = 2 ∧ t.chip.g .SEAL_LOG_LOCAL p = 1 ∧
        t.chip.g .SEAL_LOG_STEP p = d.step p % 2 ^ 48 ∧ t.chip.g .SEAL_CAUSE_REASON p = 1 ∧ t.chip.g .SEAL_CAUSE_RANK p = r ∧
        (t.chip.sealOf p).votes = [] ∧ t.chip.g .HUB_STEP_SEALED_STEP p = d.g .HUB_STEP_SEALED_STEP p) ∧
    (∀ m d r, c.sealTakes p 4 m d r → d.coord p = some r → d.amLive p = true → d.isCoord p = false → m.step = d.step p →
      (d.sealOf p).barrier = false →
      ∃ t, exec (.recvAbandon p m) s = .next t ∧ s.chipOnly t ∧ t.chip.g .SEAL_STAT_ATT p = (d.g .SEAL_STAT_ATT p + 1) % 256 ∧
        t.chip.g .SEAL_CNT_COUNT p 1 = (d.g .SEAL_CNT_COUNT p 1 + 1) % 2 ^ 64 ∧ t.chip.g .SEAL_LOG_KIND p = 2 ∧
        t.chip.g .SEAL_LOG_LOCAL p = 0 ∧ t.chip.g .HUB_STEP_READY_SENT p = 0 ∧ t.chip.g .HUB_STEP_UPDATE_DONE p = 0 ∧
        t.chip.g .SEAL_STAT_IN_DOUBT p = 0 ∧ t.chip.g .SEAL_STAT_WAIT_REL p = 1 ∧ (t.chip.sealOf p).barrier = true ∧
        (t.chip.sealOf p).votedAt = none ∧ (t.chip.upd p).jrnl = [] ∧
        t.chip.g .HUB_CNT_SKIP_COUNT p = (d.g .HUB_CNT_SKIP_COUNT p + 1) % 2 ^ 64 ∧
        t.chip.g .HUB_STEP_SEALED_STEP p = d.g .HUB_STEP_SEALED_STEP p) ∧
    (∀ m d r, c.sealTakes p 6 m d r → d.coord p = some r → d.amLive p = true → m.step = d.step p → m.mark = 0 →
      (d.sealOf p).barrier = true → ((d.sealOf p).bsent = true ∨ d.allWait p Agree.isBound = false) →
      ∃ t, exec (.recvBoundRelease p m) s = .next t ∧ s.chipOnly t ∧ t.chip.sealOf p = { d.sealOf p with barrier := false } ∧
        t.chip.noRegs = ({ d with seals := t.chip.seals } : Chip).noRegs ∧
        d.fieldsBut t.chip [(.HUB_STEP_GATE_FAIL, p, 0), (.SEAL_STAT_WAIT_REL, p, 0)] ∧
        t.chip.g .HUB_STEP_GATE_FAIL p = 0 ∧ t.chip.g .SEAL_STAT_WAIT_REL p = 0) ∧
    (∀ m d r, c.sealTakes p 6 m d r → d.coord p = some r → d.amLive p = true → d.isCoord p = false → m.step = d.step p → m.mark = 0 →
      (d.sealOf p).barrier = true → (d.sealOf p).bsent = false → d.allWait p Agree.isBound = true →
      (∀ cl ∈ d.enrolled p, (d.seq cl).agree = .full) →
      ∃ t, exec (.recvBoundRelease p m) s = .next t ∧ s.chipOnly t ∧
        t.chip.sealOf p = { d.sealOf p with barrier := false, bsent := true } ∧
        t.chip.g .HUB_STEP_GATE_FAIL p = 0 ∧ t.chip.g .SEAL_STAT_WAIT_REL p = 1) ∧
    (∀ m d r l, c.sealTakes p 5 m d r → d.isCoord p = true → m.mark = 0 → (d.sealOf p).ack = some l → m.step = (d.sealOf p).ackStep →
      (∃ k ∈ l, k ≠ r) →
      ∃ t, exec (.recvBoundReady p m) s = .next t ∧ s.chipOnly t ∧ d.regsBut t.chip [.SEAL_STAT] ∧
        t.chip.sealOf p = { d.sealOf p with ack := some (l.filter (· != r)) }) ∧
    (∀ m d r, c.sealTakes p 7 m d r → d.coord p = some r → d.amLive p = true →
      ∃ t, exec (.recvEpochMismatch p m) s = .next t ∧ s.chipOnly t ∧ t.chip.g .SEAL_LOG_KIND p = 3 ∧ t.chip.g .SEAL_LOG_LOCAL p = 0 ∧
        t.chip.g .SEAL_LOG_STEP p = m.step % 2 ^ 48 ∧ (t.chip.sealOf p).bsent = false ∧
        ∀ cl ∈ d.enrolled p, (t.chip.seq cl).halt = 7 ∧ (t.chip.seq cl).agree = .none)

/-- With p below 16 and a partition that may vote. Once every enrolled sequencer is at the gate marker or at SEAL, Carousel quiet and the gate not yet evaluated: with no NF, no checksum disagreement, no consumed poison, no vote owed, and (GLOBAL) exactly one NORM and every norm finite and at most NMAX, PASS reads 1, NF, CHK, POISON and NORM read 0, and the gate holds as passed; otherwise PASS reads 0, NF, CHK, POISON and NORM show their tests, and on a rank that is not the coordinator GATE_FAIL reads 1, ATT rises by one and the barrier stands. A vote owed does the same without evaluation. After a passed gate, with every enrolled sequencer at SEAL and the pins done, INSTALL_CUT marks the cut taken, with UPDATE_DONE set where no APPLY, void pass or replay is outstanding; SEND_SEAL_READY, with the cut taken and none outstanding, does nothing on a rank that is not live, and on a live one sets UPDATE_DONE and READY_SENT, shows PHASE 6 and notes the time of the vote (a rank that is not the coordinator). Cites R45, R46, R242, R247, R343, R363, R364, R498, R505, R508. -/
def Obligations.GateEvaluated : Prop :=
  ∀ (s : State) (p : Nat), p < 16 → s.chip.mayVote p = true →
    let c := s.chip
    let x := c.stepS p
    let glob := c.g .HUB_GATE_CTL_GLOBAL p = 1
    let normOk := (glob → (c.car p).norms = 1) ∧
      ∀ n ∈ c.gateNorms p, (decodeF fp64 n).isFin = true ∧ leV (decodeF fp64 n) (decodeF fp32 (c.g .HUB_GATE_LIM_NMAX p)) = true
    (x.vote = false → x.gate = none → c.allWait p (fun a => a.isGate || a.isSeal) = true →
      (x.nf = false → x.chk = false → x.poison = false → normOk →
        ∃ t, exec (.gateEvaluate p) s = .next t ∧ s.chipOnly t ∧ t.chip.g .HUB_GATE_STAT_PASS p = 1 ∧
          t.chip.g .HUB_GATE_STAT_NF p = 0 ∧ t.chip.g .HUB_GATE_STAT_CHK p = 0 ∧ t.chip.g .HUB_GATE_STAT_POISON p = 0 ∧
          t.chip.g .HUB_GATE_STAT_NORM p = 0 ∧ (t.chip.stepS p).gate = some true ∧
          (∀ cl ∈ c.enrolled p, (c.seq cl).agree = .gate → (t.chip.seq cl).agree = .none) ∧
          t.chip.g .HUB_STEP_GATE_FAIL p = c.g .HUB_STEP_GATE_FAIL p) ∧
      ((x.nf = true ∨ x.chk = true ∨ x.poison = true ∨ ¬ normOk) → c.isCoord p = false →
        ∃ t, exec (.gateEvaluate p) s = .next t ∧ s.chipOnly t ∧ t.chip.g .HUB_GATE_STAT_PASS p = 0 ∧
          t.chip.g .HUB_GATE_STAT_NF p = b2n x.nf ∧ t.chip.g .HUB_GATE_STAT_CHK p = b2n x.chk ∧
          t.chip.g .HUB_GATE_STAT_POISON p = b2n x.poison ∧ (t.chip.g .HUB_GATE_STAT_NORM p = 1 ↔ ¬ normOk) ∧
          t.chip.g .HUB_STEP_GATE_FAIL p = 1 ∧ t.chip.g .SEAL_STAT_ATT p = (c.g .SEAL_STAT_ATT p + 1) % 256 ∧
          (t.chip.sealOf p).barrier = true)) ∧
    (x.vote = true → c.isCoord p = false →
      ∃ t, exec (.gateEvaluate p) s = .next t ∧ s.chipOnly t ∧ t.chip.g .HUB_STEP_GATE_FAIL p = 1 ∧
        t.chip.g .SEAL_STAT_ATT p = (c.g .SEAL_STAT_ATT p + 1) % 256 ∧ (t.chip.sealOf p).barrier = true) ∧
    (x.gate = some true → x.cutDone = false → c.allWait p Agree.isSeal = true → c.pinsDone p = true →
      ∃ t, exec (.installCut p) s = .next t ∧ s.chipOnly t ∧ (t.chip.stepS p).cutDone = true ∧ (t.chip.stepS p).gate = some true ∧
        t.chip.sealOf p = c.sealOf p ∧ t.chip.g .HUB_STEP_SEALED_STEP p = c.g .HUB_STEP_SEALED_STEP p ∧
        (c.updSettled p = true → t.chip.g .HUB_STEP_UPDATE_DONE p = 1)) ∧
    (x.gate = some true → x.vote = false → x.poison = false → x.chk = false → x.nf = false → x.cutDone = true →
      c.allWait p Agree.isSeal = true → (∀ e ∈ (c.upd p).jrnl, e.live = false) → (c.upd p).void = [] → (c.upd p).replay = false →
      (c.amLive p = false → exec (.sendSealReady p) s = .next s) ∧ (c.amLive p = true → c.isCoord p = false →
      ∃ t, exec (.sendSealReady p) s = .next t ∧ s.chipOnly t ∧ t.chip.g .HUB_STEP_UPDATE_DONE p = 1 ∧
        t.chip.g .HUB_STEP_READY_SENT p = 1 ∧ t.chip.g .HUB_STEP_PHASE p = 6 ∧
        t.chip.sealOf p = { c.sealOf p with votedAt := some c.up }))

/-- Sequencer cl below 128 has the command at its stream position, free to issue. NOP ends at once. INSTALL with REMOVE clears the routine entry it names; without, an entry takes base, length and VALID when every command of the routine passes its check, and keeps its content with BAD_CMD marked when one fails; the other entries stay. Either is refused inside a routine. SCHED without rows ends at once; with rows it loads the eight values of the row of the step’s schedule index, negative zero as +0. Each ends counted, as the last command, with its record; the memory, the other sequencers, phase and halt stay. Cites R64, R219, R221, R236, R237, R239, R255. -/
def Obligations.SequencerOwnCommands : Prop :=
  ∀ (s : State) (cl : Nat) (w : List Word), cl < 128 → s.chip.offers cl w →
    let c := s.chip
    let r := regionOfCl cl
    let idx := wbits (wordAt w 1) 5 0
    (isOp 0x00 w = true → ∃ t, exec (.cmdNop cl) s = .next t ∧ s.chipOnly t ∧ Chip.endsAtOnce cl w [] c t.chip) ∧
    (isOp 0x06 w = true → wbit (wordAt w 1) 6 = true → (c.seq cl).stack = [] →
      ∃ t, exec (.cmdInstallRemove cl) s = .next t ∧ s.chipOnly t ∧ Chip.endsAtOnce cl w [.CLU_SEQ_RTN] c t.chip ∧
        t.chip.rd .CLU_SEQ_RTN cl idx = 0 ∧ ∀ j, j < 64 → j ≠ idx → t.chip.rd .CLU_SEQ_RTN cl j = c.rd .CLU_SEQ_RTN cl j) ∧
    (isOp 0x06 w = true → (c.seq cl).stack ≠ [] → ∀ i ∈ [Instr.cmdInstall cl, .cmdInstallRemove cl],
      wbit (wordAt w 1) 6 = decide (i = .cmdInstallRemove cl) →
      ∃ t, exec i s = .next t ∧ s.chipOnly t ∧ Chip.refusedAtOnce cl w c t.chip) ∧
    (isOp 0x06 w = true → wbit (wordAt w 1) 6 = false → (c.seq cl).stack = [] →
      let a := wbits (wordAt w 2) 31 0
      let n := wbits (wordAt w 2) 54 32
      c.inArea r (a - 0x01000000) (8 * n) = false →
      (checkRoutine (wordsOf n (c.bytes (regionKey r (a - 0x01000000)) (8 * n))) r (n + 1) 0 none = none →
        ∃ t, exec (.cmdInstall cl) s = .next t ∧ s.chipOnly t ∧ Chip.endsAtOnce cl w [.CLU_SEQ_RTN] c t.chip ∧
          t.chip.rd .CLU_SEQ_RTN cl idx = Word.ofNat (a + n * 2 ^ 32 + 2 ^ 63) ∧
          ∀ j, j < 64 → j ≠ idx → t.chip.rd .CLU_SEQ_RTN cl j = c.rd .CLU_SEQ_RTN cl j) ∧
      (checkRoutine (wordsOf n (c.bytes (regionKey r (a - 0x01000000)) (8 * n))) r (n + 1) 0 none ≠ none →
        ∃ t, exec (.cmdInstall cl) s = .next t ∧ s.chipOnly t ∧ Chip.refusedAtOnce cl w c t.chip)) ∧
    (isOp 0x07 w = true →
      let a := wbits (wordAt w 1) 31 0
      let n := wbits (wordAt w 1) 55 32
      let row := min (c.g .HUB_SCHED_INDEX (c.partOfCl cl) - wbits (wordAt w 2) 47 0) (n - 1)
      (n = 0 → ∃ t, exec (.cmdSched cl) s = .next t ∧ s.chipOnly t ∧ Chip.endsAtOnce cl w [] c t.chip) ∧
      (0 < n → c.inArea r (a - 0x01000000) (32 * n) = false →
        ∃ t, exec (.cmdSched cl) s = .next t ∧ s.chipOnly t ∧ Chip.endsAtOnce cl w [.CLU_SEQ_SCHED] c t.chip ∧
          ∀ i, i < 8 → t.chip.g .CLU_SEQ_SCHED_VALUE cl i =
            let v := c.num (regionKey r (a - 0x01000000 + 32 * row) + 4 * i) 4
            if v = 2 ^ 31 then 0 else v))

/-- COMMAND_END of an open command of sequencer cl, not one that still moves rows of the update engine, whose effects have all completed changes only its sequencer’s outstanding commands, their records in the queue pool, the counters and marks of the sequencer, and PHASE; the command is open no longer and the count rises by one. When it was the only one outstanding, wants a record, and its queue is enabled and not broken, then unless the record waits for a cell it is the last packet of that queue: eight words, with TAG, OPCODE, STATUS (CANCELLED in place of OK for a cancelled command), cluster and count in word 0, and the step and layout epoch at issue in word 7. A command with effects still to complete, no SIGNAL, does not end. Cites R217, R221, R222, R225, R235. -/
def Obligations.CompletionRecord : Prop :=
  ∀ (s : State) (cl id : Nat) (o : OutCmd), cl < 128 →
    (s.chip.seq cl).outst.find? (fun o => o.id == id && o.isOpen && !o.isCall) = some o →
    let c := s.chip
    let m := mergeParts o.parts
    (c.upd (c.partOfCl cl)).moves.find? (fun v => v.cl == cl && v.id == id) = none →
    (o.left = 0 → ∃ t, exec (.commandEnd cl id) s = .next t ∧ s.chipOnly t ∧ Chip.cmdOnly cl c t.chip ∧
      (∀ v ∈ (t.chip.seq cl).outst, v.id = id → v.isOpen = false) ∧
      t.chip.g .CLU_SEQ_CNT_COUNT cl = (c.g .CLU_SEQ_CNT_COUNT cl + 1) % 2 ^ 64 ∧
      ((c.seq cl).outst = [o] → hdrCpl o.hdr = true → m.status < 32 → c.on .QP_QCFG_EN (regionOfCl cl) (hdrCq o.hdr) = true →
        (c.queue (regionOfCl cl) (hdrCq o.hdr)).broken = false → (t.chip.seq cl).outst = [] →
        ∃ ws : List Word,
          (t.chip.queue (regionOfCl cl) (hdrCq o.hdr)).linked =
            (c.queue (regionOfCl cl) (hdrCq o.hdr)).linked ++ [⟨ws.map (fun x => (x, false)), false, false⟩] ∧
          ws.length = 8 ∧ wbits (wordAt ws 0) 15 0 = hdrTag o.hdr ∧ wbits (wordAt ws 0) 23 16 = hdrOp o.hdr ∧
          wbits (wordAt ws 0) 28 24 = (if o.cancelled = true ∧ m.status = 0 then 13 else m.status) ∧
          wbits (wordAt ws 0) 34 29 = m.flags % 64 ∧ wbits (wordAt ws 0) 41 35 = cl ∧
          wbits (wordAt ws 0) 63 48 = (c.g .CLU_SEQ_CNT_COUNT cl + 1) % 2 ^ 16 ∧
          (wordAt ws 6).toNat = (if o.cancelled = true ∧ m.status = 0 then c.cancelDetail cl o else m.detail) % 2 ^ 64 ∧
          wbits (wordAt ws 7) 47 0 = o.step % 2 ^ 48 ∧ wbits (wordAt ws 7) 63 48 = o.lepoch % 2 ^ 16)) ∧
    (o.left ≠ 0 → hdrOp o.hdr ≠ 0x04 → exec (.commandEnd cl id) s = .next s)

/-- Sequencer cl below 128 with the command at its stream position. WAITQ with COUNT 0 on an enabled queue of its own, not its command queue, ends at once; with COUNT above 0 it waits with nothing consumed; on any other queue it is refused. A sequencer’s only WAITQ, on a queue that is not broken and holds no poison: with enough packets it consumes COUNT of them and ends; with fewer it consumes all of them and waits on, or ends when a stale event was marked. SIGNAL to a region of another partition is DENIED and counted; to a disabled queue it gives QUEUE_ERR and marks MALFORMED; a NULL signal to an enabled queue with a free cell and nothing open or waiting links one NULL packet, and the command is outstanding until COMMAND_END. Cites R195, R197, R198, R199, R234, R235, R538. -/
def Obligations.WaitingAndSignalling : Prop :=
  (∀ (s : State) (cl : Nat) (w : List Word), cl < 128 → s.chip.offers cl w →
    let c := s.chip
    (isOp 0x03 w = true →
      let r := regionOfCl cl
      let q := wbits (wordAt w 1) 9 0
      let n := wbits (wordAt w 1) 25 10
      let mine := c.on .QP_QCFG_EN r q = true ∧ c.g .QP_QCFG_CKIND r q = 0 ∧ c.g .QP_QCFG_CIDX r q = cl % 8 ∧ q ≠ c.g .CLU_SEQ_CTL_CMDQ cl
      (¬ mine → ∃ t, exec (.cmdWaitq cl) s = .next t ∧ s.chipOnly t ∧ Chip.refusedAtOnce cl w c t.chip) ∧
      (mine → n = 0 → ∃ t, exec (.cmdWaitq cl) s = .next t ∧ s.chipOnly t ∧ Chip.endsAtOnce cl w [] c t.chip) ∧
      (mine → 0 < n → ∃ t, exec (.cmdWaitq cl) s = .next t ∧ s.chipOnly t ∧ Chip.issued cl w c t.chip ∧
        t.chip.queue r q = c.queue r q ∧
        (t.chip.seq cl).waitqs = (c.seq cl).waitqs ++ [{ id := (c.seq cl).nextId, queue := q, count := n }])) ∧
    (isOp 0x04 w = true →
      let r := wbits (wordAt w 1) 3 0
      let q := wbits (wordAt w 1) 13 4
      let d := c.advanceCmd cl w
      (c.owns (c.partOfCl cl) r = false → ∃ t, exec (.cmdSignal cl) s = .next t ∧ s.chipOnly t ∧
        t.chip.g .CLU_SEQ_STICKY_DENIED cl = 1 ∧ (t.chip.seq cl).nextId = (c.seq cl).nextId + 1 ∧
        (c.homeFaults (c.partOfCl cl) →
          t.chip.g .PART_CNT_XPART_COUNT (c.partOfCl cl) = (c.g .PART_CNT_XPART_COUNT (c.partOfCl cl) + 1) % 2 ^ 64)) ∧
      (c.owns (c.partOfCl cl) r = true → c.on .QP_QCFG_EN r q = false → ∃ t, exec (.cmdSignal cl) s = .next t ∧ s.chipOnly t ∧
        t.chip.g .CLU_SEQ_STICKY_QUEUE_ERR cl = 1 ∧ t.chip.g .QP_QSTAT_MALFORMED r q = 1 ∧ t.chip.g .QP_STICKY_MALFORMED r = 1 ∧
        (t.chip.seq cl).nextId = (c.seq cl).nextId + 1) ∧
      (c.owns (c.partOfCl cl) r = true → c.on .QP_QCFG_EN r q = true → wbits (wordAt w 1) 17 14 = 0 →
        (d.queue r q).broken = false → (d.queue r q).opens = [] → (d.queue r q).waiting = [] → (d.queue r q).skip = [] →
        d.canCell r q = true →
        ∃ t, exec (.cmdSignal cl) s = .next t ∧ s.chipOnly t ∧ Chip.issued cl w c t.chip ∧
          (t.chip.queue r q).linked = (d.queue r q).linked ++ [⟨[(0, false)], true, false⟩]))) ∧
  (∀ (s : State) (cl : Nat) (w : WaitQ), cl < 128 → (s.chip.seq cl).waitqs = [w] → w.got < w.count →
    let c := s.chip
    let x := c.queue (regionOfCl cl) w.queue
    x.broken = false → (∀ k ∈ x.linked, ∀ y ∈ k.words, y.2 = false) → w.poison = false →
    (w.count ≤ w.got + x.linked.length → ∃ t, exec (.waitqEnd cl) s = .next t ∧ s.chipOnly t ∧ (t.chip.seq cl).waitqs = [] ∧
      (∃ l, (t.chip.queue (regionOfCl cl) w.queue).linked = x.linked.drop (w.count - w.got) ++ l) ∧
      c.regsBut t.chip seqRegs ∧ c.stepKept t.chip ∧ t.chip.noSeqs = c.noSeqs) ∧
    (w.got + x.linked.length < w.count → w.stale = false → ∃ t, exec (.waitqEnd cl) s = .next t ∧ s.chipOnly t ∧
      (t.chip.seq cl).waitqs = [{ w with got := w.got + x.linked.length }] ∧
      (t.chip.queue (regionOfCl cl) w.queue).linked = [] ∧ c.regsBut t.chip [] ∧ (t.chip.seq cl).outst = (c.seq cl).outst) ∧
    (w.got + x.linked.length < w.count → w.stale = true → ∃ t, exec (.waitqEnd cl) s = .next t ∧ s.chipOnly t ∧
      (t.chip.seq cl).waitqs = [] ∧ c.regsBut t.chip seqRegs ∧ c.stepKept t.chip ∧ t.chip.noSeqs = c.noSeqs))

/-- Sequencer cl below 128. CALL of a valid entry with fewer than four frames is outstanding and puts the routine, at its first word and first attempt, on the stack; of an invalid entry it is refused; with four frames it is refused and the sequencer halts with cause 3. A running sequencer whose routine is read to its end pops the frame; before the end, and without a routine, ROUTINE_RETURN does nothing. A poisoned header in a routine empties the stack and marks the consumed poison; at top level its packet is discarded with no command issued and POISON_CMD is marked too. Cites R216, R236, R238, R250. -/
def Obligations.CallsAndReturns : Prop :=
  (∀ (s : State) (cl : Nat) (w : List Word), cl < 128 → s.chip.offers cl w → isOp 0x05 w = true →
    let c := s.chip
    let n := wbits (wordAt w 1) 5 0
    (wbit (c.rd .CLU_SEQ_RTN cl n) 63 = false → ∃ t, exec (.cmdCall cl) s = .next t ∧ s.chipOnly t ∧ Chip.refusedAtOnce cl w c t.chip) ∧
    (wbit (c.rd .CLU_SEQ_RTN cl n) 63 = true → (c.seq cl).stack.length < 4 → ∃ t, exec (.cmdCall cl) s = .next t ∧ s.chipOnly t ∧
      Chip.issued cl w c t.chip ∧ t.chip.noSeqs = c.noSeqs ∧ c.regsBut t.chip qpRegs ∧
      (t.chip.seq cl).stack = { rtn := n, off := 0, attempts := 1, retry := wbits (wordAt w 1) 9 6, callId := (c.seq cl).nextId } ::
        ((c.advanceCmd cl w).seq cl).stack) ∧
    (wbit (c.rd .CLU_SEQ_RTN cl n) 63 = true → 4 ≤ (c.seq cl).stack.length → ∃ t, exec (.cmdCall cl) s = .next t ∧ s.chipOnly t ∧
      (t.chip.seq cl).halt = 3 ∧ t.chip.g .CLU_SEQ_STICKY_BAD_CMD cl = 1 ∧ (t.chip.seq cl).nextId = (c.seq cl).nextId + 1 ∧
      t.chip.noSeqs = c.noSeqs ∧ c.regsBut t.chip seqRegs ∧ c.stepKept t.chip)) ∧
  (∀ (s : State) (cl : Nat), cl < 128 →
    let c := s.chip
    (∀ f fs, (c.seq cl).stack = f :: fs → c.seqRuns cl = true → c.routineLen cl f.rtn ≤ f.off →
      ∃ t, exec (.routineReturn cl) s = .next t ∧ s.chipOnly t ∧ (t.chip.seq cl).stack = fs ∧ t.chip.noSeqs = c.noSeqs ∧
        c.regsBut t.chip seqRegs ∧ c.stepKept t.chip ∧ ∀ v ∈ (t.chip.seq cl).outst, v.id = f.callId → v.isOpen = false) ∧
    (∀ f fs, (c.seq cl).stack = f :: fs → f.off < c.routineLen cl f.rtn → exec (.routineReturn cl) s = .next s) ∧
    ((c.seq cl).stack = [] → exec (.routineReturn cl) s = .next s) ∧
    (c.seqRuns cl = true → (c.seq cl).fuse = none → ∀ h rest, c.head cl = some ((h, true) :: rest) →
      ∃ t, exec (.seqPoisonHeader cl) s = .next t ∧ s.chipOnly t ∧
        t.chip.g .CLU_SEQ_STICKY_POISON_CMD cl = (if (c.seq cl).stack = [] then 1 else c.g .CLU_SEQ_STICKY_POISON_CMD cl) ∧
        (t.chip.stepS (c.partOfCl cl)).poison = true ∧ (t.chip.stepS (c.partOfCl cl)).killed = true ∧
        (t.chip.seq cl).stack = [] ∧ (t.chip.seq cl).nextId = (c.seq cl).nextId ∧
        ((c.seq cl).stack = [] → t.chip.seq cl = c.seq cl)))

/-- With cl below 128 and the function reaching the cluster’s window. SEQ_STOP_REQUEST sets STOP; at an issue decision of a running sequencer in no agreement STOP halts it with cause 1 and reads 0 again; without STOP, an enabled sequencer whose command queue is invalid halts with cause 8, and every other one is left as it is. RESUME of causes 1, 2, 3 ends the halt, of cause 8 once the command queue is valid, of causes 5, 6 and 7 never; a STOP written with it wins. Nothing else changes. A NULL packet at the head of the command queue is taken; a broken command queue is read once, as poison. Cites R203, R214, R215, R216, R250, R254. -/
def Obligations.SequencerHaltsAndResumes : Prop :=
  ∀ (s : State) (fn : Fn) (cl : Nat), cl < 128 →
    let c := s.chip
    let x := c.seq cl
    (c.reaches fn .CLU_SEQ_CMD cl = true →
      (∃ t, exec (.seqStopRequest fn cl) s = .next t ∧ s.effect t c [(.CLU_SEQ_CMD_STOP, cl, 0)] ∧ t.chip.g .CLU_SEQ_CMD_STOP cl = 1) ∧
      (∃ t, exec (.seqResume fn cl true) s = .next t ∧ s.effect t c [(.CLU_SEQ_CMD_STOP, cl, 0)] ∧ t.chip.g .CLU_SEQ_CMD_STOP cl = 1) ∧
      ((x.halt = 1 ∨ x.halt = 2 ∨ x.halt = 3 ∨ (x.halt = 8 ∧ c.cmdqOk cl = true)) →
        ∃ t, exec (.seqResume fn cl false) s = .next t ∧ s.effect t { c with seqs := t.chip.seqs } [] ∧
          t.chip.seq cl = { x with halt := 0 } ∧ ∀ k, k ≠ cl → t.chip.seq k = c.seq k) ∧
      ((x.halt = 0 ∨ x.halt = 5 ∨ x.halt = 6 ∨ x.halt = 7 ∨ (x.halt = 8 ∧ c.cmdqOk cl = false) ∨ (x.halt = 4 ∧ c.available cl = [])) →
        exec (.seqResume fn cl false) s = .next s)) ∧
    (c.reaches fn .CLU_SEQ_CMD cl = false → exec (.seqStopRequest fn cl) s = .next s ∧ ∀ b, exec (.seqResume fn cl b) s = .next s) ∧
    (c.g .CLU_SEQ_CMD_STOP cl = 1 → x.halt = 0 → x.agree = .none →
      ∃ t, exec (.seqHalt cl) s = .next t ∧ s.effect t { c with seqs := t.chip.seqs } [(.CLU_SEQ_CMD_STOP, cl, 0)] ∧
        t.chip.g .CLU_SEQ_CMD_STOP cl = 0 ∧ t.chip.seq cl = { x with halt := 1 }) ∧
    (c.g .CLU_SEQ_CMD_STOP cl = 0 → x.halt = 0 → c.g .CLU_SEQ_CTL_EN cl = 1 → c.cmdqOk cl = false →
      ∃ t, exec (.seqHalt cl) s = .next t ∧ s.effect t { c with seqs := t.chip.seqs } [] ∧ t.chip.seq cl = { x with halt := 8 }) ∧
    (c.g .CLU_SEQ_CMD_STOP cl = 0 → (x.halt ≠ 0 ∨ c.g .CLU_SEQ_CTL_EN cl = 0 ∨ c.cmdqOk cl = true) → exec (.seqHalt cl) s = .next s) ∧
    (c.seqRuns cl = true → x.stack = [] → c.cmdqOk cl = true →
      let r := regionOfCl cl
      let q := c.g .CLU_SEQ_CTL_CMDQ cl
      ((c.queue r q).broken = false → ∀ k ks, (c.queue r q).linked = k :: ks → k.null = true →
        ∃ t, exec (.seqReadNull cl) s = .next t ∧ s.chipOnly t ∧ c.queueOnly t.chip ∧ (t.chip.queue r q).linked = ks) ∧
      ((c.queue r q).broken = true → (c.queue r q).rd = 0 →
        ∃ t, exec (.seqReadNull cl) s = .next t ∧ s.chipOnly t ∧ (t.chip.queue r q).rd = 1 ∧
          t.chip.g .CLU_SEQ_STICKY_POISON_CMD cl = 1 ∧ (t.chip.stepS (c.partOfCl cl)).poison = true ∧
          (t.chip.stepS (c.partOfCl cl)).killed = true ∧ t.chip.seq cl = x))

/-- Sequencer cl below 128 has the command at its stream position, every earlier command has ended, and no Press ARM stands unbound. A plain PHASE sets its code and ends; the gate marker, a first one in the window, sets phase 4 and waits for the gate, a second one is refused; a full boundary and an EPOCH (next layout epoch, valid slot), before the gate marker and while another enrolled sequencer is in no agreement, wait there with BOUNDARY set, and after the gate marker are refused; SEAL of the step in progress with known tickets waits at SEAL in phase 6 with its pins; with another STEP it ends with a bad status and the partition owes a vote to abandon. No other sequencer enters or leaves an agreement. Cites R41, R44, R220, R241, R242, R243, R244, R245, R246, R247. -/
def Obligations.PhasesAndAgreements : Prop :=
  ∀ (s : State) (cl : Nat) (w : List Word), cl < 128 → s.chip.offers cl w → (s.chip.seq cl).allEnded = true →
    s.chip.freeArms cl = [] → (s.chip.pressOf cl).wait = [] →
    let c := s.chip
    let p := c.partOfCl cl
    let x := c.seq cl
    let waits (i : Instr) (a : Agree) (P : Chip → Prop) : Prop := ∃ t, exec i s = .next t ∧ s.chipOnly t ∧
      (t.chip.seq cl).agree = a ∧ (t.chip.seq cl).agreeId = (t.chip.seq cl).nextId - 1 ∧ (t.chip.seq cl).arrived = true ∧
      (t.chip.seq cl).lastTag = hdrTag (wordAt w 0) ∧ (t.chip.seq cl).nextId = x.nextId + 1 ∧
      (∀ k, k ≠ cl → (t.chip.seq k).agree = (c.seq k).agree) ∧ P t.chip
    (isOp 0x08 w = true →
      (phCode w ≠ 4 → phFull w = false → ∃ t, exec (.cmdPhase cl) s = .next t ∧ s.chipOnly t ∧ (t.chip.seq cl).phase = phCode w ∧
        (t.chip.seq cl).agree = .none ∧ (t.chip.seq cl).lastTag = hdrTag (wordAt w 0) ∧ (t.chip.seq cl).nextId = x.nextId + 1 ∧
        ∀ k, k ≠ cl → (t.chip.seq k).phase = (c.seq k).phase) ∧
      (phCode w = 4 → x.gated = false → waits (.cmdPhaseGate cl) .gate (fun d => (d.seq cl).phase = 4 ∧ (d.seq cl).gated = true)) ∧
      (phCode w = 4 → x.gated = true → ∃ t, exec (.cmdPhaseGate cl) s = .next t ∧ s.chipOnly t ∧ Chip.refusedAtOnce cl w c t.chip) ∧
      (phCode w ≠ 4 → phFull w = true → x.gated = false →
        (∃ k ∈ c.enrolled p, k ≠ cl ∧ (c.seq k).agree = .none) →
        waits (.cmdPhaseFull cl) .full (fun d => (d.seq cl).phase = phCode w ∧ d.g .SEAL_STAT_BOUNDARY p = 1)) ∧
      (phCode w ≠ 4 → phFull w = true → x.gated = true →
        ∃ t, exec (.cmdPhaseFull cl) s = .next t ∧ s.chipOnly t ∧ Chip.refusedAtOnce cl w c t.chip)) ∧
    (isOp 0x09 w = true →
      let le := wbits (wordAt w 1) 15 0
      let slot := wbits (wordAt w 1) 23 16
      let good := x.gated = false ∧ le = (c.lepoch p + 1) % 2 ^ 16 ∧ ((c.mapS p).img slot).isSome = true
      (good → (∃ k ∈ c.enrolled p, k ≠ cl ∧ (c.seq k).agree = .none) →
        waits (.cmdEpoch cl) (.epoch le slot) (fun d => d.g .SEAL_STAT_BOUNDARY p = 1 ∧ d.lepoch p = c.lepoch p)) ∧
      (¬ good → ∃ t, exec (.cmdEpoch cl) s = .next t ∧ s.chipOnly t ∧ Chip.refusedAtOnce cl w c t.chip)) ∧
    (isOp 0x0A w = true →
      let pins := (List.range (wbits (wordAt w 1) 51 48)).map (fun i => wbits (wordAt w (2 + i / 4)) (16 * (i % 4) + 15) (16 * (i % 4)))
      (wbits (wordAt w 1) 47 0 = c.step p → (∀ k ∈ pins, c.ticketKnown (k / 4096) (k % 4096) = true) →
        waits (.cmdSeal cl) (.seal pins) (fun d => d.stepS p = c.stepS p ∧ (d.seq cl).phase = 6)) ∧
      (wbits (wordAt w 1) 47 0 ≠ c.step p → ∃ t, exec (.cmdSeal cl) s = .next t ∧ s.chipOnly t ∧ (t.chip.stepS p).vote = true ∧
        (t.chip.seq cl).agree = .none ∧ (t.chip.seq cl).nextId = x.nextId + 1))

/-- Sequencer cl below 128 with an XFER at its stream position: with no row or no byte it ends at once; with a byte that is unmapped, or in the scratch of another region, it is refused; with every check passed it is outstanding and waits last in its region’s list. XFER_ACCEPT accepts transfer n when fewer than 16 transfers and Racking moves are in flight and no earlier one of its sequencer waits, and changes nothing else; with 16 it does nothing. XFER_COMPLETE of an accepted transfer of one 64 B granule between two places in module memory, the first of its sequencer, copies the 64 bytes, leaves every other byte of memory, takes the transfer from the list and leaves clocks, limiter, supply and queue. Cites R175, R176, R177, R178, R190, R191, R233, R237. -/
def Obligations.TransfersCopy : Prop :=
  (∀ (s : State) (cl : Nat) (w : List Word), cl < 128 → s.chip.offers cl w → isOp 0x12 w = true →
    let c := s.chip
    let r := regionOfCl cl
    let p := c.partOfCl cl
    let n := xfRowBytes w
    let mapped := ∀ x ∈ xfRowList w, c.tierOk p x.1 n = true ∧ c.tierOk p x.2 n = true ∧ inEngineReach r x.1 = true ∧
      inEngineReach r x.2 = true
    (xfRows w = 0 ∨ n = 0 → ∃ t, exec (.cmdXfer cl) s = .next t ∧ s.chipOnly t ∧ Chip.endsAtOnce cl w [] c t.chip) ∧
    (xfRows w ≠ 0 → n ≠ 0 → ¬ mapped → ∃ t, exec (.cmdXfer cl) s = .next t ∧ s.chipOnly t ∧ Chip.refusedAtOnce cl w c t.chip) ∧
    (xfRows w ≠ 0 → n ≠ 0 → mapped → (∀ x ∈ xfRowList w, c.rowInRoutine x.2 n = false ∧ c.fenceHit p x.2 n = none) →
      rowsOverlap n (xfRowList w) = false → ∃ t, exec (.cmdXfer cl) s = .next t ∧ s.chipOnly t ∧ Chip.issued cl w c t.chip ∧
        sget [] t.chip.xfers r = sget [] c.xfers r ++ [{ cl := cl, id := (c.seq cl).nextId, words := w, accepted := false }] ∧
        c.regsBut t.chip qpRegs ∧ t.chip.mem = c.mem)) ∧
  (∀ (s : State) (r n : Nat) (x : XferJob), (sget [] s.chip.xfers r)[n]? = some x →
    let c := s.chip
    let l := sget [] c.xfers r
    (x.accepted = false → c.slotsUsed r < 16 → (∀ y ∈ l.take n, y.cl = x.cl → y.accepted = true) →
      ∃ t, exec (.xferAccept r n) s = .next t ∧ s.effect t { c with xfers := t.chip.xfers } [] ∧
        (sget [] t.chip.xfers r)[n]? = some { x with accepted := true } ∧
        ∀ k, k ≠ n → (sget [] t.chip.xfers r)[k]? = l[k]?) ∧
    (16 ≤ c.slotsUsed r → exec (.xferAccept r n) s = .next s) ∧
    (∀ a b k k' host, x.accepted = true → (∀ y ∈ l.take n, y.cl ≠ x.cl) → xfGranules x.words = [(a, b)] →
      bits a 63 60 < 4 → bits b 63 60 < 4 → c.tierKey (c.partOfCl x.cl) a = some k → c.tierKey (c.partOfCl x.cl) b = some k' →
      ∃ t, exec (.xferComplete r n host) s = .next t ∧ s.chipOnly t ∧ sget [] t.chip.xfers r = l.take n ++ l.drop (n + 1) ∧
        t.chip.bytes k' 64 = c.bytes k 64 ∧ ∀ y, y < k' ∨ k' + 64 ≤ y → t.chip.byte y = c.byte y))

/-- Sequencer cl below 128 with the command at its stream position; no ARM bears the identity the command will take, and no Press command waits for an ARM. A MATMUL with DEST 1 is kept until the CHAIN that follows it; with DEST 2 and a combining region outside the partition it ends DENIED; otherwise, with a unit available, it is outstanding with all its effects to come and one tile for every 64 by 32 block and slice stands in the queues of the cluster’s units, and with none available all tiles are held and the sequencer halts with cause 4. A CHAIN with no open state named goes to exactly one unit; one whose ACC stages name open state on no unit or on two is refused and marks and counts at a unit. The CHAIN that a waiting MATMUL pairs with issues both under its own header. Cites R224, R227, R228, R229, R230, R231, R232. -/
def Obligations.ProductsIssued : Prop :=
  ∀ (s : State) (cl : Nat) (w : List Word), cl < 128 →
    (∀ e ∈ (s.chip.pressOf cl).ents, e.2.arm ≠ some (s.chip.seq cl).nextId) → (s.chip.pressOf cl).wait = [] →
    let c := s.chip
    let load (d : Chip) : Nat := ((unitsOf cl).map (fun u => (d.unit u).queue.length)).sum
    let tiles := cdiv (mmM w) 64 * cdiv (mmN w) 32 * mmKsplit w
    (c.offers cl w → isOp 0x10 w = true →
      (mmDest w = 1 → ∃ t, exec (.cmdMatmul cl) s = .next t ∧ s.chipOnly t ∧ (t.chip.seq cl).fuse = some w ∧
        (t.chip.seq cl).nextId = (c.seq cl).nextId ∧ t.chip.noSeqs = c.noSeqs ∧ c.regsBut t.chip qpRegs) ∧
      (mmDest w = 2 → c.owns (c.partOfCl cl) (mmCreg w) = false → ∃ t, exec (.cmdMatmul cl) s = .next t ∧ s.chipOnly t ∧
        Chip.endsAtOnce cl w [] c t.chip ∧ t.chip.g .CLU_SEQ_STICKY_DENIED cl = 1) ∧
      ((mmDest w = 0 ∨ (mmDest w = 2 ∧ c.owns (c.partOfCl cl) (mmCreg w) = true)) → c.available cl ≠ [] →
        ∃ t, exec (.cmdMatmul cl) s = .next t ∧ s.chipOnly t ∧ Chip.issued cl w c t.chip ∧ load t.chip = load c + tiles ∧
          (t.chip.seq cl).halt = (c.seq cl).halt ∧ t.chip.mem = c.mem) ∧
      (mmDest w = 0 → c.available cl = [] → 0 < tiles → ∃ t, exec (.cmdMatmul cl) s = .next t ∧ s.chipOnly t ∧
        Chip.issued cl w c t.chip ∧ (t.chip.seq cl).halt = 4 ∧ load t.chip = load c ∧
        (t.chip.seq cl).held.length = (c.seq cl).held.length + tiles)) ∧
    (c.offers cl w → isOp 0x11 w = true →
      ((chReds (c.patched cl w)).any sgAcc = false → c.available cl ≠ [] → ∃ t, exec (.cmdChain cl) s = .next t ∧ s.chipOnly t ∧
        Chip.issued cl w c t.chip ∧ load t.chip = load c + 1 ∧ (t.chip.seq cl).halt = (c.seq cl).halt ∧ t.chip.mem = c.mem) ∧
      ((chReds (c.patched cl w)).any sgAcc = true → c.chainUnit cl (c.patched cl w) = none → c.available cl ≠ [] →
        ∃ t u, exec (.cmdChain cl) s = .next t ∧ s.chipOnly t ∧ u ∈ c.available cl ∧
          Chip.endsAtOnce cl w [.VEC_STICKY, .VEC_CNT_CHAIN, .VEC_FLAG, .VEC_FPOS_NF, .VEC_FPOS_OVF, .VEC_FPOS_EMPTY] c t.chip ∧
          t.chip.g .CLU_SEQ_STICKY_BAD_CMD cl = 1 ∧ t.chip.g .VEC_STICKY_BAD_DESC u = 1 ∧
          t.chip.g .VEC_CNT_CHAIN_COUNT u = (c.g .VEC_CNT_CHAIN_COUNT u + 1) % 2 ^ 64)) ∧
    (∀ mm, c.seqRuns cl = true → (c.seq cl).skipSeal = false → (c.seq cl).fuse = some mm → c.head cl = some (w.map (fun x => (x, false))) →
      decodeStatus w w.length (regionOfCl cl) (some (mmM mm, mmN mm)) = stOK → (c.seq cl).mayIssue (w.headD 0) = true →
      pairs mm w = true →
      ∃ t, exec (.cmdChain cl) s = .next t ∧ s.chipOnly t ∧ Chip.issued cl w c t.chip ∧ (t.chip.seq cl).fuse = none)

/-- A unit u below 1,024. TILE_START on a busy unit does nothing; on an idle one in service the work of arbitration goes first, then the tile at the head of the queue, then, with no MERGE waiting, the Solver tile in bank S of a lending unit whose solve runs; the rest of the queue stays; out of service, or with nothing to take, it does nothing. TILE_COMPLETE with nothing running does nothing. A training tile of one slice to memory that fails its address or metadata test marks BAD_DESC and writes no byte; one that passes and may complete counts one tile, leaves the array, ORs its flags into the sticky flags, and changes no byte of memory outside its output rows. SOLVER_PASS_END of a tile with passes to run counts the pass; the tile runs on, waits in bank S where the unit no longer lends, or gives way to the head of the queue and waits in bank S, counted as a preemption. Cites R114, R115, R119, R120, R122, R123, R132, R133, R224. -/
def Obligations.UnitsRunTiles : Prop :=
  ∀ (s : State) (u : Nat), u < 1024 →
    let c := s.chip
    let x := c.unit u
    let noMerge := ∀ k ∈ c.press, k.2.mwait = []
    (x.run ≠ none → exec (.tileStart u) s = .next s) ∧
    (x.run = none → c.inService u = true → ∀ a as, x.ahead = a :: as → ∃ t, exec (.tileStart u) s = .next t ∧ s.effect t { c with units := t.chip.units } [] ∧
      t.chip.unit u = { x with run := some a, ahead := as }) ∧
    (x.run = none → c.inService u = true → x.ahead = [] → ∀ j js, x.queue = .tile j :: js → ∃ t, exec (.tileStart u) s = .next t ∧
      s.effect t { c with units := t.chip.units } [(⟨.MXE_CKSEED, 63, 0⟩, u, 0)] ∧
      ∃ wb, t.chip.unit u = { x with queue := js, run := some { kind := .train, job := j, wbits := wb } }) ∧
    (x.run = none → x.ahead = [] → x.queue = [] → c.mayLend u = true → noMerge → ∀ t0, x.bankS = some t0 →
      c.solveRuns (regionOfU u) t0 = true → ∃ t, exec (.tileStart u) s = .next t ∧
      s.effect t { c with units := t.chip.units } [] ∧ t.chip.unit u = { x with run := some (solverRun u t0), bankS := none }) ∧
    (x.run = none → (c.inService u = false ∨ (x.ahead = [] ∧ x.queue = [] ∧ c.mayLend u = false)) → noMerge → exec (.tileStart u) s = .next s) ∧
    (x.run = none → ∀ up, exec (.tileComplete u up) s = .next s) ∧
    (∀ j wb up, x.run = some { kind := .train, job := j, wbits := wb } → x.hold = false → j.fused = none → j.redo = 0 →
      mmDest j.mm = 0 → mmKsplit j.mm = 1 → c.hasRoom (c.partOfCl j.cl) j = true → c.isCancelled j.cl j.id = false →
      (c.tileStatus j ≠ 0 → ∃ t, exec (.tileComplete u up) s = .next t ∧
        s.effect t { c with units := t.chip.units, seqs := t.chip.seqs } [(.MXE_STICKY_BAD_DESC, u, 0)] ∧
        t.chip.g .MXE_STICKY_BAD_DESC u = 1 ∧ t.chip.unit u = { x with run := none }) ∧
      (c.tileStatus j = 0 → ∃ t, exec (.tileComplete u up) s = .next t ∧ s.chipOnly t ∧ (t.chip.unit u).run = none ∧
        (t.chip.unit u).queue = x.queue ∧ t.chip.g .MXE_CNT_TILE_COUNT u = (c.g .MXE_CNT_TILE_COUNT u + 1) % 2 ^ 64 ∧
        (∃ fl, t.chip.g .MXE_STICKY_FLAGS u = c.g .MXE_STICKY_FLAGS u ||| fl % 64 ∧ t.chip.g ⟨.MXE_TFLAG, 5, 0⟩ u = fl % 64) ∧
        ∀ y, (∀ wr ∈ j.writes, y < opAt j.u wr.1 ∨ opAt j.u wr.1 + wr.2 ≤ y) → t.chip.byte y = c.byte y)) ∧
    (∀ t0 wb job, x.run = some { kind := .solver t0, job := job, wbits := wb } → 1 < t0.left → c.inService u = true → x.ahead = [] →
      c.solveRuns (regionOfU u) { t0 with left := t0.left - 1 } = true →
      (x.queue = [] → ∃ t, exec (.solverPassEnd u) s = .next t ∧ s.effect t { c with units := t.chip.units } [(.MXE_CNT_SOLV_COUNT, u, 0)] ∧
        t.chip.g .MXE_CNT_SOLV_COUNT u = (c.g .MXE_CNT_SOLV_COUNT u + 1) % 2 ^ 64 ∧
        t.chip.unit u = (if c.g .MXE_CTL_LEND u = 1 then { x with run := some (solverRun u { t0 with left := t0.left - 1 }) }
          else { x with run := none, bankS := some { t0 with left := t0.left - 1 } })) ∧
      (∀ j js, x.queue = .tile j :: js → ∃ t, exec (.solverPassEnd u) s = .next t ∧ s.chipOnly t ∧
        t.chip.g .MXE_CNT_SOLV_COUNT u = (c.g .MXE_CNT_SOLV_COUNT u + 1) % 2 ^ 64 ∧
        t.chip.g .MXE_CNT_PREEMPT_COUNT u = (c.g .MXE_CNT_PREEMPT_COUNT u + 1) % 2 ^ 64 ∧
        (t.chip.unit u).bankS = some { t0 with left := t0.left - 1 } ∧ (t.chip.unit u).queue = js ∧
        ∃ wb', (t.chip.unit u).run = some { kind := .train, job := j, wbits := wb' }))

/-- For the first arbitration of unit orig in region r that can be decided, not injected, whose tile belongs to partition p. Row 1 sets CKDEG of the original unit; row 2 with its arbitration unit in service queues a rewrite run ahead of that unit’s work and sets QUAR of the original; row 4 with a unit sets QUAR of both and fails the step’s checksum test; INT_RGN_ARB shows the row and the units; every row but 2 closes the arbitration; one whose rewrite run has no unit left closes as unresolved. A rewrite run that fails its addresses closes it as unresolved; any other counts a tile, leaves the array, ORs its flags into the sticky flags, changes no byte outside its output rows and closes the arbitration. HEALTH_SET of QUAR or CKDEG sets the bit, counts it, records it in the flash and leaves the unit with no queued work, reductions or arbitration work; a bit already set changes nothing. Cites R114, R120, R131, R132, R138, R501, R502, R505, R528, R602. -/
def Obligations.DisagreementsArbitrated : Prop :=
  (∀ (s : State) (r orig : Nat) (a : Arb), r < 16 → orig < 1024 →
    s.chip.arbs.find? (fun a => a.region == r && a.orig == orig && (if a.rewriting then a.rewr.isNone else a.unit.isNone || a.arbRows.isSome)) = some a →
    a.injected = false →
    let c := s.chip
    let p := c.partOfCl a.job.cl
    let row := arbRow a
    (a.rewriting = true → ∃ t, exec (.arbitrationOutcome r orig) s = .next t ∧ s.chipOnly t ∧ t.chip.arbs.length + 1 = c.arbs.length ∧
      (t.chip.stepS p).chk = true) ∧
    (a.rewriting = false → row = 1 → ∃ t, exec (.arbitrationOutcome r orig) s = .next t ∧ s.chipOnly t ∧ t.chip.g .INT_RGN_ARB_OUTCOME r = 1 ∧
      t.chip.g .INT_RGN_ARB_ORIG r = orig ∧ t.chip.g .MXE_HEALTH_CKDEG orig = 1 ∧ t.chip.arbs.length + 1 = c.arbs.length ∧
      t.chip.stepS p = c.stepS p) ∧
    (∀ v, a.rewriting = false → row = 2 → a.unit = some v → v < 1024 → v ≠ orig → c.inService v = true →
      ∃ t, exec (.arbitrationOutcome r orig) s = .next t ∧ s.chipOnly t ∧ t.chip.g .INT_RGN_ARB_OUTCOME r = 2 ∧
      t.chip.g .INT_RGN_ARB_ARBU r = v ∧ t.chip.g .MXE_HEALTH_QUAR orig = 1 ∧ t.chip.arbs.length = c.arbs.length ∧
      { kind := .rewrite, job := a.job, wbits := a.wbits } ∈ (t.chip.unit v).ahead) ∧
    (∀ v, a.rewriting = false → row = 4 → a.unit = some v → v < 1024 → ∃ t, exec (.arbitrationOutcome r orig) s = .next t ∧ s.chipOnly t ∧
      t.chip.g .INT_RGN_ARB_OUTCOME r = 4 ∧ t.chip.g .MXE_HEALTH_QUAR orig = 1 ∧ t.chip.g .MXE_HEALTH_QUAR v = 1 ∧
      (t.chip.stepS p).chk = true ∧ t.chip.arbs.length + 1 = c.arbs.length)) ∧
  (∀ (s : State) (u : Nat) (up : Option Upset), u < 1024 →
    let c := s.chip
    (∀ j wb a, (c.unit u).run = some { kind := .rewrite, job := j, wbits := wb } →
      c.arbs.find? (fun a => decide (a.rewr = some u ∧ a.job = j ∧ a.rewriting)) = some a → c.tileStatus j ≠ 0 →
      ∃ t, exec (.rewriteRunComplete u up) s = .next t ∧ s.chipOnly t ∧ (t.chip.unit u).run = none ∧
        t.chip.g .MXE_STICKY_BAD_DESC u = 1 ∧ t.chip.arbs.length + 1 = c.arbs.length ∧
        (t.chip.stepS (c.partOfCl a.job.cl)).chk = true ∧ t.chip.mem = c.mem) ∧
    (∀ j wb a, (c.unit u).run = some { kind := .rewrite, job := j, wbits := wb } →
      c.arbs.find? (fun a => decide (a.rewr = some u ∧ a.job = j ∧ a.rewriting)) = some a → c.tileStatus j = 0 →
      ∃ t, exec (.rewriteRunComplete u up) s = .next t ∧ s.chipOnly t ∧ (t.chip.unit u).run = none ∧
        (t.chip.unit u).queue = (c.unit u).queue ∧ t.chip.arbs.length + 1 = c.arbs.length ∧
        t.chip.g .MXE_CNT_TILE_COUNT u = (c.g .MXE_CNT_TILE_COUNT u + 1) % 2 ^ 64 ∧
        (∃ fl, t.chip.g .MXE_STICKY_FLAGS u = c.g .MXE_STICKY_FLAGS u ||| fl % 64 ∧ t.chip.g ⟨.MXE_TFLAG, 5, 0⟩ u = fl % 64) ∧
        ∀ y, (∀ wr ∈ j.writes, y < opAt j.u wr.1 ∨ opAt j.u wr.1 + wr.2 ≤ y) → t.chip.byte y = c.byte y) ∧
    ((c.unit u).run = none → exec (.rewriteRunComplete u up) s = .next s) ∧
    (∀ x ∈ [(Fld.MXE_HEALTH_QUAR, 1, 3), (Fld.MXE_HEALTH_CKDEG, 2, 2)],
      (c.g x.1 u = 0 → ∃ t, exec (.healthSet u x.2.1) s = .next t ∧ s.chipOnly t ∧ t.chip.g x.1 u = 1 ∧
        t.chip.g .INT_CNT_COUNT 0 x.2.2 = (c.g .INT_CNT_COUNT 0 x.2.2 + 1) % 2 ^ 64 ∧
        (t.chip.unit u).queue = [] ∧ (t.chip.unit u).reds = [] ∧ (t.chip.unit u).ahead = [] ∧ (t.chip.unit u).bankS = none ∧
        t.chip.flash.health.isSome = true ∧ t.chip.mem = c.mem) ∧
      (c.g x.1 u = 1 → exec (.healthSet u x.2.1) s = .next s)))

/-- A partial in flight that opens an output of two or more slices at a region’s combining point with no output open: slice 0 is taken in and names the owner, a later slice is held. CHAIN_COMPLETE with no chain does nothing; while a census record is held, a chain that would add to the census stalls and marks it; one that fails its checks marks BAD_DESC and writes no byte; whether it fails or runs it leaves its unit and is counted (no output combining there). CENSUS_HELD_POST with the census off drops and counts every held record; with it on, a record its queue takes is counted as posted. Cites R82, R113, R156, R158, R162, R164, R165, R169, R170, R656. -/
def Obligations.PartialsChainsCensus : Prop :=
  (∀ (s : State) (n : Nat) (q : Partial), s.chip.partials[n]? = some q → q.point < 16 → sget [] s.chip.combs q.point = [] → 2 ≤ q.ns →
    let c := s.chip
    (q.slice = 0 → ∃ t, exec (.partialArrival n) s = .next t ∧ s.effect t { c with partials := c.partials.eraseIdx n, combs := t.chip.combs, seqs := t.chip.seqs } [] ∧
      sget [] t.chip.combs q.point = [{ pid := q.pid, i := q.i, j := q.j, ns := q.ns, next := 1, total := q.data, held := []
                                        failed := if q.data.isNone then some 0 else none, owner := some q.job }]) ∧
    (q.slice ≠ 0 → ∃ t, exec (.partialArrival n) s = .next t ∧ s.effect t { c with partials := c.partials.eraseIdx n, combs := t.chip.combs, seqs := t.chip.seqs } [] ∧
      sget [] t.chip.combs q.point = [{ pid := q.pid, i := q.i, j := q.j, ns := q.ns, next := 0, held := [(q.slice, q.data)] }])) ∧
  (∀ (s : State) (n : Nat), s.chip.partials.length ≤ n → exec (.partialArrival n) s = .next s) ∧
  (∀ (s : State) (u : Nat), u < 1024 →
    let c := s.chip
    (c.chainNow u = none → exec (.chainComplete u) s = .next s) ∧
    (∀ k o x, c.chainNow u = some (k, o, x) →
      (k.counts = true → (c.unit u).cheld ≠ [] → ∃ t, exec (.chainComplete u) s = .next t ∧
        s.effect t c [(.VEC_STICKY_CENS_STALL, u, 0)] ∧ t.chip.g .VEC_STICKY_CENS_STALL u = 1) ∧
      ((k.counts = false ∨ (c.unit u).cheld = []) → sget [] c.combs (16 + u) = [] →
        ∃ t, exec (.chainComplete u) s = .next t ∧ s.chipOnly t ∧ (t.chip.unit u).queue = x.queue ∧ (t.chip.unit u).vbuf = x.vbuf ∧
          t.chip.g .VEC_CNT_CHAIN_COUNT u = (c.g .VEC_CNT_CHAIN_COUNT u + 1) % 2 ^ 64 ∧
          ((c.setUnit u x).chainStatus u k ≠ 0 → t.chip.g .VEC_STICKY_BAD_DESC u = 1 ∧ t.chip.mem = c.mem))) ∧
    (c.g .VEC_CTL_CENS_EN u = 0 → ∃ t, exec (.censusHeldPost u) s = .next t ∧
      s.effect t { c with units := t.chip.units } [(.VEC_CNT_CDROP_COUNT, u, 0)] ∧
      t.chip.unit u = { c.unit u with cheld := [] } ∧
      t.chip.g .VEC_CNT_CDROP_COUNT u = (c.g .VEC_CNT_CDROP_COUNT u + (c.unit u).cheld.length) % 2 ^ 64) ∧
    (∀ e d, c.g .VEC_CTL_CENS_EN u = 1 → (c.unit u).cheld = [e] →
      c.post (regionOfU u) (c.g .VEC_CTL_CENS_QUEUE u) ((censusWords e).map (fun x => (x, false))) = .linked d →
      ∃ t, exec (.censusHeldPost u) s = .next t ∧ s.chipOnly t ∧ (t.chip.unit u).cheld = [] ∧
        t.chip.queue (regionOfU u) (c.g .VEC_CTL_CENS_QUEUE u) = d.queue (regionOfU u) (c.g .VEC_CTL_CENS_QUEUE u) ∧
        t.chip.g .VEC_CNT_CENSUS_COUNT u = (c.g .VEC_CNT_CENSUS_COUNT u + 1) % 2 ^ 64))

/-- Cluster cl below 128 with the RACK command at its stream position and no RACK command waiting. With the lane’s engine enabled: PUSH with reachable rows, room in the lane, the quota and the free pages places a resident frame of its tag, format and shape on top, and its pages hold the source’s bytes; POP of a matching resident top frame and DROP of a top frame of its tag take it, PEEK leaves every frame; HINT and POP set drain mode, PUSH clears it. Without the enable each command leaves the lane and is counted; POP, PEEK and DROP of an empty lane or another tag mark MISMATCH; PUSH on 64 frames marks FULL. The frames of a lane have one identity each. Cites R260, R262, R264, R265, R266, R267, R272, R287. -/
def Obligations.RackCommands : Prop :=
  ∀ (s : State) (cl : Nat) (w : List Word), cl < 128 → s.chip.offers cl w → (s.chip.rackLane cl).cmds = [] →
    (∀ f ∈ (s.chip.rackLane cl).frames, f.uid ≠ (s.chip.rackLane cl).next) →
    let c := s.chip
    let r := cl / 8
    let x := c.rackLane cl
    let en := c.g .RACK_CTL_EN r = 1
    let done (d : Chip) : Prop := (d.seq cl).nextId = (c.seq cl).nextId + 1 ∧ (d.seq cl).lastTag = hdrTag (wordAt w 0) ∧
      (d.rackLane cl).cmds = [] ∧ ∀ k, k ≠ cl → d.rackLane k = c.rackLane k
    (isRack 0 w = true → en → c.rackAddrOk cl w false = true → x.live.length < 64 →
      (let n := (c.newFrame cl w).need
       n + ((x.live.filter (fun g => !c.spillable cl g)).map RFrame.need).sum ≤ c.quota cl → x.held + n ≤ c.quota cl →
       (c.freePages r n).length = n →
       ∃ t, exec (.rackPush cl) s = .next t ∧ s.chipOnly t ∧ done t.chip ∧ (t.chip.rackLane cl).drain = false ∧
        ∃ f, (t.chip.rackLane cl).frames = x.frames ++ [f] ∧ f.tag = rkTag w ∧ f.fmt = rkFmt w ∧ f.rows = rkRows w ∧
          f.rbytes = rkRowBytes w ∧ f.st = .resident ∧ f.pages = c.freePages r n ∧
          ∀ g, g < f.size / 64 →
            t.chip.bytes (frameKey r f.pages g) 64 = c.bytes (opAt (8 * cl) (rowGranule (rkAddr w) (rkStride w) (rkRowBytes w) g)) 64)) ∧
    (∀ f, x.top = some f → f.tag = rkTag w → f.fmt = rkFmt w → f.rows = rkRows w → f.rbytes = rkRowBytes w → f.st = .resident →
      (x.frames.filter (fun g => g.uid == f.uid)).length = 1 → en → c.rackAddrOk cl w true = true →
      (isRack 1 w = true → ∃ t, exec (.rackPop cl) s = .next t ∧ s.chipOnly t ∧ done t.chip ∧
        t.chip.rackLane cl = { x with frames := x.frames.filter (fun g => g.uid != f.uid), drain := true }) ∧
      (isRack 2 w = true → ∃ t, exec (.rackPeek cl) s = .next t ∧ s.chipOnly t ∧ done t.chip ∧ t.chip.rackLane cl = x)) ∧
    (isRack 3 w = true → en → ∀ f, x.top = some f → f.tag = rkTag w →
      ∃ t, exec (.rackDrop cl) s = .next t ∧ s.chipOnly t ∧ done t.chip ∧ (f.st ≠ .fetching → t.chip.mem = c.mem) ∧
        t.chip.rackLane cl = { x with frames := x.frames.filter (fun g => g.uid != f.uid) }) ∧
    (isRack 4 w = true → en → ∃ t, exec (.rackHint cl) s = .next t ∧ s.chipOnly t ∧ done t.chip ∧ t.chip.mem = c.mem ∧
      t.chip.rackLane cl = { x with drain := true }) ∧
    (∀ i ∈ [(0, Instr.rackPush cl), (1, .rackPop cl), (2, .rackPeek cl), (3, .rackDrop cl), (4, .rackHint cl)], isRack i.1 w = true →
      c.g .RACK_CTL_EN r = 0 → ∃ t, exec i.2 s = .next t ∧ s.chipOnly t ∧ done t.chip ∧ t.chip.rackLane cl = x ∧ t.chip.mem = c.mem) ∧
    (∀ i ∈ [(1, Instr.rackPop cl), (2, .rackPeek cl), (3, .rackDrop cl)], isRack i.1 w = true → en →
      (i.1 = 3 ∨ c.rackAddrOk cl w true = true) → (∀ f, x.top = some f → f.tag ≠ rkTag w) →
      ∃ t, exec i.2 s = .next t ∧ s.chipOnly t ∧ done t.chip ∧ t.chip.rackLane cl = x ∧ t.chip.g .RACK_STICKY_MISMATCH r = 1) ∧
    (isRack 0 w = true → en → c.rackAddrOk cl w false = true → 64 ≤ x.live.length →
      ∃ t, exec (.rackPush cl) s = .next t ∧ s.chipOnly t ∧ done t.chip ∧ t.chip.rackLane cl = x ∧ t.chip.g .RACK_STICKY_FULL r = 1)

/-- Region r below 16, lane below 8. A lane with no command waiting does nothing at RACK_PUSH_END and RACK_POP_END; a PUSH that still lacks pages waits; a POP or PEEK of a spilled frame notes the fetch and marks STALL; a POP of a resident frame takes it. SPILL_START, with no spill under way and a slot free, moves the next frame to spilling, or frees the pages of one whose host copy is valid; SPILL_COMPLETE frees the pages and keeps a host copy, with only host writes sent; a refused spill, or one whose home leaves the window, sends only host writes and leaves the frame resident, never to spill, and marks HOST_ERR. FRAME_FETCH_START gives the next frame fresh pages; FRAME_FETCH_COMPLETE stores the bytes of the right CRC in them, counted, and the frame is resident; a fetch the host fails, or with another CRC, loses the frame, marked LOST. RACK_ENABLE on an unlocked region sets EN when area and quotas are valid, else marks CFG_BAD; with bit 0 clear it clears EN. Cites R266, R268, R270, R271, R272, R273, R274, R275, R285. -/
def Obligations.RackMoves : Prop :=
  ∀ (s : State) (r lane : Nat), r < 16 → lane < 8 →
    let c := s.chip
    let cl := 8 * r + lane
    let x := c.rackLane cl
    let moved (t : State) (uid : Nat) (g : RFrame → RFrame) : Prop := s.effect t { c with racks := t.chip.racks } [] ∧
      t.chip.rackLane cl = x.upd uid g ∧ ∀ k, k ≠ cl → t.chip.rackLane k = c.rackLane k
    (x.cmds = [] → exec (.rackPushEnd r lane) s = .next s ∧ exec (.rackPopEnd r lane) s = .next s) ∧
    (∀ k f, x.cmds = [k] → x.find k.uid = some f → prAct k.words = 0 → (c.quota cl < x.held + f.need ∨ (c.freePages r f.need).length < f.need) →
      exec (.rackPushEnd r lane) s = .next s) ∧
    (∀ k f, x.cmds = [k] → x.find k.uid = some f → (prAct k.words = 1 ∨ prAct k.words = 2) → f.st = .spilled →
      ∃ t, exec (.rackPopEnd r lane) s = .next t ∧ s.effect t { c with racks := t.chip.racks } [(.RACK_STICKY_STALL, r, 0)] ∧
        t.chip.g .RACK_STICKY_STALL r = 1 ∧ t.chip.rackLane cl = { x with cmds := [{ k with fetched := true }] }) ∧
    (∀ k f, x.cmds = [k] → x.find k.uid = some f → prAct k.words = 1 → f.st = .resident →
      ∃ t, exec (.rackPopEnd r lane) s = .next t ∧ s.chipOnly t ∧
        t.chip.rackLane cl = { x with frames := x.frames.filter (fun g => g.uid != k.uid), cmds := [] }) ∧
    (∀ k f, x.cmds = [k] → x.find k.uid = some f → prAct k.words = 0 → x.held + f.need ≤ c.quota cl → (c.freePages r f.need).length = f.need →
      ∃ t, exec (.rackPushEnd r lane) s = .next t ∧ s.chipOnly t ∧ (t.chip.rackLane cl).cmds = [] ∧
        ∃ g, (t.chip.rackLane cl).find k.uid = some g ∧ g.st = .resident ∧ g.pages = c.freePages r f.need ∧ g.tag = f.tag) ∧
    (x.frames.any (fun f => f.st == .spilling) = false → c.slotFree r = true → ∀ f, c.spillNext cl = some f →
      ∃ t, exec (.spillStart r lane) s = .next t ∧
        moved t f.uid (fun g => if f.host then { g with st := .spilled, pages := [] } else { g with st := .spilling })) ∧
    (c.spillNext cl = none → exec (.spillStart r lane) s = .next s) ∧
    (∀ f, x.frames.find? (fun f => f.st == .spilling) = some f →
      let sent (t : State) : Prop := s.chipOnly t ∧ t.chip.mem = c.mem ∧ c.regsBut t.chip [.RACK_CNT, .RACK_STICKY] ∧
        (∀ k, k ≠ cl → t.chip.rackLane k = c.rackLane k) ∧
        ∃ l, t.chip.out = c.out ++ l ∧ l.length ≤ 8 * (f.size / 64) ∧ ∀ o ∈ l, ∃ a b, o = Out.hostWrite (c.portOf (c.partOfCl cl)) a b
      let stays (t : State) : Prop := sent t ∧ t.chip.g .RACK_STICKY_HOST_ERR r = 1 ∧
        t.chip.rackLane cl = x.upd f.uid (fun g => { g with st := .resident, unspill := true })
      (∃ t, exec (.spillRefused r lane) s = .next t ∧ stays t) ∧
      (c.homePages cl f < f.need → ∃ t, exec (.spillComplete r lane) s = .next t ∧ stays t) ∧
      (f.need ≤ c.homePages cl f → ∃ t, exec (.spillComplete r lane) s = .next t ∧ sent t ∧
        t.chip.rackLane cl = x.upd f.uid (fun g => { g with st := .spilled, pages := [], host := true, poison := f.poison || c.frameBad r f }))) ∧
    (x.frames.any (fun f => f.st == .fetching) = false → c.slotFree r = true → ∀ f, c.fetchNext cl = some f →
      (c.freePages r f.need).length = f.need →
      ∃ t, exec (.frameFetchStart r lane) s = .next t ∧ moved t f.uid (fun g => { g with st := .fetching, pages := c.freePages r f.need })) ∧
    (c.fetchNext cl = none → exec (.frameFetchStart r lane) s = .next s) ∧
    (∀ f, x.frames.find? (fun f => f.st == .fetching) = some f → ∃ t, exec (.frameFetchComplete r lane none) s = .next t ∧ s.chipOnly t ∧
      t.chip.mem = c.mem ∧ t.chip.g .RACK_STICKY_HOST_ERR r = 1 ∧ t.chip.g .RACK_STICKY_LOST r = 1 ∧
      t.chip.g .RACK_CNT_COUNT r 2 = (c.g .RACK_CNT_COUNT r 2 + 1) % 2 ^ 64 ∧
      t.chip.rackLane cl = x.upd f.uid (fun g => { g with st := .lost, pages := [], host := false })) ∧
    (∀ f bs, x.frames.find? (fun f => f.st == .fetching) = some f → bs.length = f.size →
      c.homeAt cl f 0 ≠ none → c.homeAt cl f (f.size - 1) ≠ none →
      ((f.poison = true ∨ crc32c bs = f.crc) → f.pages.Nodup → f.pages.length = f.need → (∀ k ∈ f.pages, k < 8192) →
        ∃ t, exec (.frameFetchComplete r lane (some bs)) s = .next t ∧ s.chipOnly t ∧ c.regsBut t.chip [.RACK_CNT] ∧
          t.chip.g .RACK_CNT_COUNT r 1 = (c.g .RACK_CNT_COUNT r 1 + f.size) % 2 ^ 64 ∧
          t.chip.rackLane cl = x.upd f.uid (fun g => { g with st := .resident }) ∧
          ∀ g, g < f.size / 64 → t.chip.bytes (frameKey r f.pages g) 64 = (bs.drop (64 * g)).take 64) ∧
      (f.poison = false → crc32c bs ≠ f.crc → ∃ t, exec (.frameFetchComplete r lane (some bs)) s = .next t ∧ s.chipOnly t ∧
        t.chip.g .RACK_STICKY_CRC_ERR r = 1 ∧ t.chip.g .RACK_STICKY_LOST r = 1 ∧
        t.chip.rackLane cl = x.upd f.uid (fun g => { g with st := .lost, pages := [], host := false }))) ∧
    (∀ (fn : Fn) (data : Word), c.reaches fn .RACK_CTL r = true → c.isLocked .RACK_CTL r = false →
      let pages := c.g .RACK_AREA_PAGES r
      let bad := 8128 < c.g .RACK_AREA_BASE r + pages ∨ pages < ((List.range 8).map (fun k => c.quota (8 * r + k))).sum
      ∃ t, exec (.rackEnable fn r data) s = .next t ∧ s.effect t c [(⟨.RACK_CTL, 63, 0⟩, r, 0), (.RACK_STICKY_CFG_BAD, r, 0)] ∧
        (wbit data 0 = false → t.chip.g .RACK_CTL_EN r = 0) ∧
        (wbit data 0 = true → ¬ bad → t.chip.g .RACK_CTL_EN r = 1) ∧
        (wbit data 0 = true → bad → t.chip.g .RACK_CTL_EN r = c.g .RACK_CTL_EN r ∧ t.chip.g .RACK_STICKY_CFG_BAD r = 1))

/-- Cluster cl below 128. ARM before the gate marker, with the Press enabled, the entry free, the slots and the mask in range, allocates the entry with its command outstanding; after the gate marker, or on a busy entry, it is refused and marks BAD_DESC. An entry alone in its cluster absorbs its next tapped tile when the samples are there: samples are counted and the next tile follows; without samples nothing happens. EXPORT of no entry marks BAD_DESC; of an entry whose ARM is outstanding it waits; of a clean one to an unfenced place in a region buffer it writes the header with block, DIM, count and contribution and marks the entry used. MERGE before the gate marker marks BAD_DESC; into a slot a Solver loads it waits, counted; else it is counted and OLD_INTACT reads 0. A PHASE frees the entry of every ARM that found no MATMUL and marks UNBOUND. A held unit goes on once there is room (the cycles counted are a free value, log entry 13). Cites R303, R304, R306, R307, R309, R312, R313, R319, R324, R344. -/
def Obligations.PressCommands : Prop :=
  (∀ (s : State) (cl : Nat) (w : List Word), cl < 128 → s.chip.offers cl w → isOp 0x23 w = true →
    let c := s.chip
    let x := c.pressOf cl
    let i := prEntry w
    let w4 := wordAt w 4
    let p := c.partOfCl cl
    (prAct w ≠ 1 → prAct w ≠ 2 →
      ((c.seq cl).gated = false → c.g .PRS_CFG_EN cl = 1 → c.pent cl i = none → wbits (wordAt w 3) 16 10 + x.slots ≤ 96 →
        (wbit w4 24 = true → opRange (wbits w4 63 32) (cdiv (wbits w4 23 0) 8) = true) →
        ∃ t, exec (.pressArm cl) s = .next t ∧ s.chipOnly t ∧ Chip.issued cl w c t.chip ∧ t.chip.mem = c.mem ∧ c.regsBut t.chip qpRegs ∧
          ∃ e, t.chip.pent cl i = some e ∧ e.arm = some (c.seq cl).nextId ∧ e.block = prBlock w ∧ e.dim = wbits (wordAt w 2) 51 40 ∧
            e.bound = none ∧ e.count = 0 ∧ e.stage = [] ∧ e.next = 0 ∧ e.used = false) ∧
      (((c.seq cl).gated = true ∨ (c.g .PRS_CFG_EN cl = 1 ∧ c.pent cl i ≠ none)) →
        ∃ t, exec (.pressArm cl) s = .next t ∧ s.chipOnly t ∧ t.chip.pressOf cl = x ∧ t.chip.g .PRS_STICKY_BAD_DESC cl = 1 ∧
          (t.chip.seq cl).nextId = (c.seq cl).nextId + 1)) ∧
    (prAct w = 1 → (c.pent cl i = none → ∃ t, exec (.pressExport cl) s = .next t ∧ s.chipOnly t ∧ t.chip.pressOf cl = x ∧
        t.chip.g .PRS_STICKY_BAD_DESC cl = 1 ∧ (t.chip.seq cl).nextId = (c.seq cl).nextId + 1) ∧
      (∀ e, c.pent cl i = some e → c.tierWritable p (wordAt w 2).toNat (4096 + 16384 * e.tcount) = true →
        (e.arm ≠ none → ∃ t, exec (.pressExport cl) s = .next t ∧ s.chipOnly t ∧ Chip.issued cl w c t.chip ∧ t.chip.mem = c.mem ∧
          t.chip.pressOf cl = { x with wait := x.wait ++ [((c.seq cl).nextId, w)] }) ∧
        (e.arm = none → e.badSlots = [] → wbits (wordAt w 2) 63 60 = 1 → c.fenceHit p (wordAt w 2).toNat 4096 = none →
          (∀ k, k < e.tcount → c.fenceHit p ((wordAt w 2).toNat + 4096 + 16384 * k) 16384 = none) →
          e.block < 2 ^ 24 → e.dim < 2 ^ 12 → e.contrib < 2 ^ 16 →
          ∃ t, exec (.pressExport cl) s = .next t ∧ s.chipOnly t ∧ t.chip.pent cl i = some { e with used := true } ∧
            (t.chip.seq cl).nextId = (c.seq cl).nextId + 1 ∧
            let h := (t.chip.tierWords p (wordAt w 2).toNat 8).1
            wbits (wordAt h 0) 23 0 = e.block ∧ wbits (wordAt h 0) 35 24 = e.dim ∧ wbits (wordAt h 1) 31 0 = e.count % 2 ^ 32 ∧
            wbits (wordAt h 1) 47 32 = e.contrib))) ∧
    (prAct w = 2 →
      ((c.seq cl).gated = false → ∃ t, exec (.pressMerge cl) s = .next t ∧ s.chipOnly t ∧ t.chip.pressOf cl = x ∧
        t.chip.g .PRS_STICKY_BAD_DESC cl = 1 ∧ (t.chip.seq cl).nextId = (c.seq cl).nextId + 1) ∧
      ((c.seq cl).gated = true → wbits (wordAt w 1) 4 3 = 2 →
        (let n := 16384 * wbits (wordAt w 6) 16 10
         ∀ k, k = 3 ∨ k = 4 → (c.tierKeys p (wordAt w k).toNat 4096).isSome = true ∧
           (c.tierKeys p ((wordAt w k).toNat + 4096 + 16384 * wbits (wordAt w 6) 9 0) n).isSome = true) →
        (∀ r, c.loading p (c.mergeSlot cl w) = some r → ∃ t, exec (.pressMerge cl) s = .next t ∧ s.chipOnly t ∧
          Chip.issued cl w c t.chip ∧ t.chip.mem = c.mem ∧ t.chip.g .SOLV_STICKY_MWAIT r = 1 ∧
          t.chip.g .SOLV_CNT_COUNT r 5 = (c.g .SOLV_CNT_COUNT r 5 + 1) % 2 ^ 64 ∧
          t.chip.pressOf cl = { x with mwait := x.mwait ++ [((c.seq cl).nextId, w)] }) ∧
        (c.loading p (c.mergeSlot cl w) = none → ∃ t, exec (.pressMerge cl) s = .next t ∧ s.chipOnly t ∧
          (t.chip.seq cl).nextId = (c.seq cl).nextId + 1 ∧ t.chip.g .SEAL_STAT_OLD_INTACT p = 0 ∧
          t.chip.g .PRS_CNT_COUNT cl 4 = (c.g .PRS_CNT_COUNT cl 4 + 1) % 2 ^ 64 ∧ t.chip.pressOf cl = x)))) ∧
  (∀ (s : State) (cl : Nat) (w : List Word), cl < 128 → s.chip.offers cl w → isOp 0x08 w = true → phCode w ≠ 4 → phFull w = false →
    let x := s.chip.pressOf cl
    (x.ents.map Prod.fst).Nodup → x.wait = [] →
    ∃ t, exec (.cmdPhase cl) s = .next t ∧ s.chipOnly t ∧
      (t.chip.pressOf cl).ents = x.ents.filter (fun e => !(e.2.arm.isSome && e.2.bound.isNone)) ∧
      (s.chip.freeArms cl ≠ [] → t.chip.g .PRS_STICKY_UNBOUND cl = 1)) ∧
  (∀ (s : State) (cl i : Nat) (e : PEntry), cl < 128 → (s.chip.pressOf cl).ents = [(i, e)] → (s.chip.pressOf cl).wait = [] →
    let c := s.chip
    (∀ id b wb n j ss, e.arm = some id → e.bound = some (b, wb, n) → e.next + 1 < n → e.dep.find? (fun d => d.1 == e.next) = some (j, ss) →
      (∀ v ∈ ss, v.2.2 = false) →
      ∃ t, exec (.pressAbsorb cl) s = .next t ∧ s.chipOnly t ∧ t.chip.mem = c.mem ∧
        t.chip.g .PRS_CNT_COUNT cl 0 = (c.g .PRS_CNT_COUNT cl 0 + ss.length) % 2 ^ 64 ∧
        ∃ e', t.chip.pent cl i = some e' ∧ e'.next = e.next + 1 ∧ e'.count = e.count + ss.length ∧ e'.arm = some id ∧
          e'.dep = e.dep.filter (fun d => d.1 != e.next) ∧ e'.poison = e.poison) ∧
    (e.dep.find? (fun d => d.1 == e.next) = none → exec (.pressAbsorb cl) s = .next s)) ∧
  (∀ (s : State) (u : Nat) (k : Running), u < 1024 → (s.chip.unit u).run = some k →
    let c := s.chip
    ((c.unit u).hold = true → c.hasRoom (c.partOfCl k.job.cl) k.job = true → ∃ t, exec (.pressDepositResume u) s = .next t ∧
      s.effect t { c with units := t.chip.units, fresh := c.fresh + 1 } [(.PRS_CNT_COUNT, clOfU u, 1)] ∧
      t.chip.unit u = { c.unit u with hold := false }) ∧
    ((c.unit u).hold = false → exec (.pressDepositResume u) s = .next s))

/-- Cluster cl below 128, in region r, with SOLVE at its stream position. A descriptor that fails a check leaves the Solver and is counted; with a free slot and none waiting a solve of nonzero DIM takes a slot: its ticket is the next, TICKET_NEXT follows it, its time of acceptance is now; a trivial solve whose result queue is disabled ends at once, is counted and marks CQ_ERR; without a free slot the command waits, outstanding. SOLVE_CMD_ACCEPT gives the first waiting command a freed slot and does nothing without either. A new ticket is one that no slot holds. SOLVE_QUEUE_ACCEPT does nothing while the queue is not enabled for the Solver or no slot is free; it discards a NULL, short or poisoned packet with REJECT, rejects one that fails a check (its record discarded where its result queue is disabled), also with SOLV_CFG.EN = 0, and gives a good one a slot. Cites R338, R339, R340, R350. -/
def Obligations.SolvesAccepted : Prop :=
  (∀ (s : State) (cl : Nat) (w : List Word), cl < 128 → s.chip.offers cl w → isOp 0x22 w = true →
    let c := s.chip
    let r := regionOfCl cl
    let x := c.solver r
    (c.solveChecks r w ≠ 0 → ∃ t, exec (.cmdSolve cl) s = .next t ∧ s.chipOnly t ∧ Chip.endsAtOnce cl w [] c t.chip) ∧
    (x.slots.length < 64 → ∀ y ∈ x.slots, y.ticket ≠ c.nextTicket r) ∧
    (c.solveChecks r w = 0 → x.slots.length < 64 → x.wait = [] → svDim w ≠ 0 →
      ∃ t, exec (.cmdSolve cl) s = .next t ∧ s.chipOnly t ∧ t.chip.mem = c.mem ∧ (t.chip.seq cl).nextId = (c.seq cl).nextId + 1 ∧
        t.chip.g .SOLV_TICKET_NEXT r = (c.nextTicket r + 1) % 4096 ∧
        ∃ v, (t.chip.solver r).slots = x.slots ++ [v] ∧ v.ticket = c.nextTicket r ∧ v.words = w ∧ v.accepted = c.now ∧ v.stage = .waiting) ∧
    (c.solveChecks r w = 0 → x.slots.length < 64 → x.wait = [] → svDim w = 0 → c.g .QP_QCFG_EN r (svScq w) = 0 →
      c.cutOpen (c.solvPart r) = false →
      ∃ t, exec (.cmdSolve cl) s = .next t ∧ s.chipOnly t ∧ t.chip.mem = c.mem ∧ (t.chip.solver r).slots = x.slots ∧
        t.chip.g .SOLV_STICKY_CQ_ERR r = 1 ∧ t.chip.g .SOLV_CNT_COUNT r 0 = (c.g .SOLV_CNT_COUNT r 0 + 1) % 2 ^ 64 ∧
        t.chip.g .SOLV_TICKET_LAST_DONE r = c.nextTicket r % 4096) ∧
    (c.solveChecks r w = 0 → (64 ≤ x.slots.length ∨ x.wait ≠ []) →
      ∃ t, exec (.cmdSolve cl) s = .next t ∧ s.chipOnly t ∧ Chip.issued cl w c t.chip ∧ t.chip.mem = c.mem ∧
        t.chip.solver r = { x with wait := x.wait ++ [(cl, (c.seq cl).nextId, w)] })) ∧
  (∀ (s : State) (r : Nat), r < 16 →
    let c := s.chip
    let x := c.solver r
    let q := c.g .SOLV_CFG_SQ r
    (x.wait = [] ∨ 64 ≤ x.slots.length → exec (.solveCmdAccept r) s = .next s) ∧
    (∀ cl id w rest, x.wait = (cl, id, w) :: rest → x.slots.length < 64 → svDim w ≠ 0 →
      ∃ t, exec (.solveCmdAccept r) s = .next t ∧
        s.effect t { c with solvers := t.chip.solvers, seqs := t.chip.seqs, stats := t.chip.stats } [(.SOLV_TICKET_NEXT, r, 0)] ∧ (t.chip.solver r).wait = rest ∧
        ∃ v, (t.chip.solver r).slots = x.slots ++ [v] ∧ v.words = w ∧ v.accepted = c.now ∧ v.stage = .waiting ∧ v.ticket = c.nextTicket r) ∧
    ((c.g .SOLV_CFG_SQ_EN r = 0 ∨ c.g .QP_QCFG_CKIND r q ≠ 1 ∨ c.g .QP_QCFG_EN r q = 0 ∨ 64 ≤ x.slots.length) →
      exec (.solveQueueAccept r) s = .next s) ∧
    (c.g .SOLV_CFG_SQ_EN r = 1 → c.g .QP_QCFG_CKIND r q = 1 → c.g .QP_QCFG_EN r q = 1 → x.slots.length < 64 →
      (c.queue r q).broken = false → ∀ k ks, (c.queue r q).linked = k :: ks →
      let ws := k.words.map Prod.fst
      ((k.null = true ∨ ws.length < 2 ∨ k.words.any Prod.snd = true) → ∃ t, exec (.solveQueueAccept r) s = .next t ∧ s.chipOnly t ∧
        t.chip.g .SOLV_STICKY_REJECT r = 1 ∧ (t.chip.queue r q).linked = ks ∧ t.chip.solver r = x ∧ t.chip.mem = c.mem) ∧
      (k.null = false → 2 ≤ ws.length → k.words.any Prod.snd = false → (packetChecks ws ≠ 0 ∨ c.solveChecks r ws ≠ 0) →
        c.g .QP_QCFG_EN r (svScq ws) = 0 → ∃ t, exec (.solveQueueAccept r) s = .next t ∧ s.chipOnly t ∧
        t.chip.g .SOLV_STICKY_REJECT r = 1 ∧ t.chip.g .SOLV_STICKY_CQ_ERR r = 1 ∧ (t.chip.queue r q).linked = ks ∧
        t.chip.solver r = x ∧ t.chip.mem = c.mem) ∧
      (k.null = false → 2 ≤ ws.length → k.words.any Prod.snd = false → packetChecks ws = 0 → c.solveChecks r ws = 0 → svDim ws ≠ 0 →
        ∃ t, exec (.solveQueueAccept r) s = .next t ∧ s.chipOnly t ∧ (t.chip.queue r q).linked = ks ∧ t.chip.mem = c.mem ∧
          ∃ v, (t.chip.solver r).slots = x.slots ++ [v] ∧ v.words = ws ∧ v.accepted = c.now ∧ v.stage = .waiting ∧ v.ticket = c.nextTicket r)))

/-- Region r below 16. SOLVE_ACTIVATE without an accepted solve or with four active does nothing; else the next one starts and loads: poisoned input ends it POISONED (6), a header of another block ABANDONED (2), a bad input ILL_POSED (4); else it sets up, or a pivot fails (4). SOLVE_SETUP_END and SOLVE_ITERATION_END of an idle solve in that stage go on iterating or end it with 0, 3 or 4. At its deadline an iterating solve ends with 1, an earlier one with 2; before it nothing happens. An end that writes nothing is recorded at once where a cell and the cut allow. SOLVE_COMPLETE records such an ended solve: its result packet is the last of its queue, LAST_DONE is its ticket, it is counted, and it leaves its slot unless it installs; between INSTALL_CUT and SEAL_READY it records none. After SOLVE_DROP no solve runs, and DROP reads 0 once every one is recorded, 1 before. The last pass of a Solver tile frees the unit and counts; on a unit out of service the tile goes back; poison ends the solve with 6, a second failed test with 2, a first one runs the tile again on another unit, and a good tile adds its elements; each counts its MACs. (No MERGE waits where nothing happens.) Cites R122, R126, R331, R334, R335, R337, R340, R342, R343, R345, R346, R351. -/
def Obligations.SolvesRun : Prop :=
  ∀ (s : State) (r : Nat), r < 16 →
    let c := s.chip
    let x := c.solver r
    let quiet := ∀ y ∈ c.press, (c.pressOf y.1).mwait = []
    (quiet → (x.nextActive = none ∨ 4 ≤ x.active.length) → exec (.solveActivate r) s = .next s) ∧
    (∀ v, x.nextActive = some v → x.active.length < 4 →
      let p := c.solvPart r
      let d := svDim v.words
      let b := c.loadBlock p (svIn v.words (if svFixed v.words then 0 else c.g .HUB_STEP_SEALED_STEP p % 2)) d
      let a := damped d (lambda (svDclass v.words) (svDamp v.words) d b.1) b.1
      let good := wbits (wordAt b.2.1 0) 23 0 = svBlock v.words ∧ wbits (wordAt b.2.1 0) 35 24 = d % 2 ^ 12
      ∃ t, exec (.solveActivate r) s = .next t ∧ s.chipOnly t ∧
        (b.2.2 = true → c.solveEnded t.chip r v.ticket 6) ∧
        (b.2.2 = false → svWarm v.words = false → ¬ good → c.solveEnded t.chip r v.ticket 2) ∧
        (b.2.2 = false → svWarm v.words = false → good → badInput d a (frob d a) = true →
          ∃ v', (t.chip.solver r).find v.ticket = some v' ∧ v'.words = v.words ∧ v'.stage = .ended ∧ v'.status = 4) ∧
        (b.2.2 = false → svWarm v.words = false → good → badInput d a (frob d a) = false →
          ∃ v', (t.chip.solver r).find v.ticket = some v' ∧ v'.words = v.words ∧ v'.started = some c.now ∧
            (v'.stage = .setup ∨ (v'.stage = .ended ∧ v'.status = 4)))) ∧
    (∀ k v, x.find k = some v → v.stage = .setup → v.idle = true → ∃ t v', exec (.solveSetupEnd r k) s = .next t ∧ s.chipOnly t ∧
      (t.chip.solver r).find k = some v' ∧ v'.words = v.words ∧ v'.k = v.k ∧
      (v'.stage = .iterating ∨ (v'.stage = .ended ∧ (v'.status = 0 ∨ v'.status = 3 ∨ v'.status = 4)))) ∧
    (∀ k v, x.find k = some v → v.stage = .iterating → v.idle = true → ∃ t v', exec (.solveIterationEnd r k) s = .next t ∧ s.chipOnly t ∧
      (t.chip.solver r).find k = some v' ∧ v'.words = v.words ∧ v'.k = v.k + 1 ∧
      (v'.stage = .iterating ∨ (v'.stage = .ended ∧ (v'.status = 0 ∨ v'.status = 3 ∨ v'.status = 4))) ∧
      t.chip.g .SOLV_CNT_COUNT r 1 = (c.g .SOLV_CNT_COUNT r 1 + 1) % 2 ^ 64) ∧
    (∀ k v, x.find k = some v → v.accepted + c.solveLimit r v.words ≤ c.now → ∃ t, exec (.solveDeadline r k) s = .next t ∧ s.chipOnly t ∧
      (v.stage = .waiting ∨ v.stage = .setup → c.solveEnded t.chip r k 2) ∧
      (v.stage = .iterating → ∃ v', (t.chip.solver r).find k = some v' ∧ v'.stage = .ended ∧ v'.status = 1 ∧ v'.todo = [] ∧ v'.x = v.x)) ∧
    (quiet → ∀ k v, x.find k = some v → c.now < v.accepted + c.solveLimit r v.words → exec (.solveDeadline r k) s = .next s) ∧
    (∀ k v ts d, x.find k = some v → v.stage = .ended → (v.status = 2 ∨ v.status = 6) → v.started = some ts →
      c.cutOpen (c.solvPart r) = false →
      c.post r (svScq v.words) ((resultWords r v v.res false ts c.now).map (fun y => (y, false))) = .linked d →
      ∃ t, exec (.solveComplete r k) s = .next t ∧ s.chipOnly t ∧ t.chip.mem = c.mem ∧
        t.chip.queue r (svScq v.words) = d.queue r (svScq v.words) ∧ t.chip.g .SOLV_TICKET_LAST_DONE r = v.ticket % 4096 ∧
        t.chip.g .SOLV_CNT_COUNT r 0 = (c.g .SOLV_CNT_COUNT r 0 + 1) % 2 ^ 64 ∧
        (if svInstall v.words = true ∧ svDim v.words ≠ 0 then ∃ v', (t.chip.solver r).find k = some v' ∧ v'.stage = .recorded
         else (t.chip.solver r).find k = none)) ∧
    (∀ k v, x.find k = some v → (v.stage ≠ .ended ∨ c.cutOpen (c.solvPart r) = true) → exec (.solveComplete r k) s = .next s) ∧
    (∀ fn, c.reaches fn .SOLV_CMD r = true → ∃ t, exec (.solveDrop fn r) s = .next t ∧ s.chipOnly t ∧
      (∀ v ∈ (t.chip.solver r).slots, v.stage = .recorded ∨ v.stage = .ended) ∧
      ((∀ v ∈ (t.chip.solver r).slots, v.stage = .recorded) → t.chip.g .SOLV_CMD_DROP r = 0) ∧
      (x.slots = [] → t.chip.solver r = { x with dropped := x.count }) ∧
      (∀ v, x.slots = [v] → v.order < x.count → v.stage ≠ .recorded → c.cutOpen (c.solvPart r) = true → t.chip.g .SOLV_CMD_DROP r = 1)) ∧
    (∀ u job wb t0 v pass up poison, u / 64 = r → (c.unit u).run = some { kind := .solver t0, job := job, wbits := wb } → t0.left ≤ 1 →
      x.find t0.ticket = some v → (v.stage = .setup ∨ v.stage = .iterating) →
      let e := t0.eval up
      let n := v.macs + t0.rows.length * t0.cols.length * t0.k
      ∃ t, exec (.solverTileComplete u (pass, up) poison) s = .next t ∧ s.chipOnly t ∧ (t.chip.unit u).run = none ∧
        t.chip.g .MXE_CNT_SOLV_COUNT u = (c.g .MXE_CNT_SOLV_COUNT u + 1) % 2 ^ 64 ∧
        (c.inService u = false → v.lent ≠ 0 → ∃ v', (t.chip.solver r).find t0.ticket = some v' ∧ v'.todo = t0.fresh :: v.todo ∧ v'.macs = v.macs) ∧
        (c.inService u = true → poison = true → c.solveEnded t.chip r t0.ticket 6 ∧ t.chip.g .MXE_STICKY_SOLV_POISON u = 1) ∧
        (c.inService u = true → poison = false → failedRow e.2 ≠ none → t0.second = true →
          c.solveEnded t.chip r t0.ticket 2 ∧ t.chip.g .SOLV_STICKY_CHK r = 1) ∧
        (c.inService u = true → poison = false → failedRow e.2 ≠ none → t0.second = false → t.chip.g .MXE_STICKY_SOLV_CHK u = 1 ∧
          ∃ v' z, (t.chip.solver r).find t0.ticket = some v' ∧ v'.stage = v.stage ∧ v'.macs = n ∧
            v'.todo = z :: v.todo ∧ z.second = true ∧ z.avoid = u) ∧
        (c.inService u = true → poison = false → failedRow e.2 = none → ∃ v', (t.chip.solver r).find t0.ticket = some v' ∧ v'.macs = n ∧
          (v'.stage = v.stage ∨ (v'.stage = .ended ∧ v'.status = 4)))) ∧
    (quiet → ∀ u job wb t0 pass up poison, u / 64 = r → (c.unit u).run = some { kind := .solver t0, job := job, wbits := wb } → 1 < t0.left →
      exec (.solverTileComplete u (pass, up) poison) s = .next s)

/-- Sequencer cl below 128 with UPDATE at its stream position. Each of the four actions with no row, no element or an empty list ends at once; APPLY, PLACE and ADOPT outside their place in the step are refused with BAD_CMD. APPLY waits while the void pass has not finished its tensor; in its place it counts as its tensor’s one, with FREEZE = 1 it ends at once, counts its suppressed elements and holds its inputs, with a failing check it ends and the journal stays; otherwise it is outstanding, its words after PATCH, clip factor and rule-3 decision stand last in the journal, BUSY is 1, JRNL counts it, and only its journal entry in the near tier is written (its content is a free value, log entry 15). FETCH, PLACE and ADOPT that pass are outstanding and in progress, with no byte moved. Their COMMAND_END moves their rows and ends them, counted: FETCH of the working copy of one row of at most 32 elements copies the visible copy’s 64 bytes to DATA; PLACE copies the 64 bytes at DATA to the visible working copy when the visible stamp is the sealed step, else writes nothing; a FETCH of an invalid root writes nothing; ADOPT writes only the header and the areas of its rows. Cites R245, R358, R360, R362, R373, R375, R377, R378, R380, R381, R382, R386. -/
def Obligations.UpdatesIssued : Prop :=
  (∀ (s : State) (cl : Nat) (w0 : List Word), cl < 128 → s.chip.offers cl w0 → isOp 0x21 w0 = true →
    let c := s.chip
    let p := c.partOfCl cl
    let w := c.updPatched cl w0
    let x := c.upd p
    let id := (c.seq cl).nextId
    (upAct w0 = 0 → x.voiding (upTensor w0) = true → exec (.updateApply cl) s = .next s) ∧
    (∀ i ∈ [(0, Instr.updateApply cl), (1, .updateFetch cl), (2, .updatePlace cl), (3, .updateAdopt cl)], upAct w0 = i.1 →
      (i.1 = 0 → x.voiding (upTensor w0) = false) →
      (upNothing w = true → ∃ t, exec i.2 s = .next t ∧ s.chipOnly t ∧ Chip.endsAtOnce cl w0 [] c t.chip) ∧
      (upNothing w = false → c.placedOk cl p w = false → i.1 ≠ 1 →
        ∃ t, exec i.2 s = .next t ∧ s.chipOnly t ∧ Chip.refusedAtOnce cl w0 c t.chip)) ∧
    (upAct w0 = 0 → x.voiding (upTensor w0) = false → upNothing w = false → c.placedOk cl p w = true →
      let won := { x with win := upTensor w :: x.win }
      (upFreeze w = 1 → ∃ t, exec (.updateApply cl) s = .next t ∧ s.chipOnly t ∧ t.chip.mem = c.mem ∧
        t.chip.upd p = { won with frozen := x.frozen ++ [(false, w)] } ∧
        t.chip.g .HUB_CNT_SUPPR_COUNT p = (c.g .HUB_CNT_SUPPR_COUNT p + upCount w * upLen w) % 2 ^ 64 ∧
        (t.chip.seq cl).nextId = id + 1 ∧ t.chip.g .CLU_SEQ_CNT_COUNT cl = (c.g .CLU_SEQ_CNT_COUNT cl + 1) % 2 ^ 64) ∧
      (upFreeze w ≠ 1 → c.updIssue p w ≠ 0 → ∃ t, exec (.updateApply cl) s = .next t ∧ s.chipOnly t ∧ t.chip.mem = c.mem ∧
        t.chip.upd p = won ∧ (t.chip.seq cl).nextId = id + 1 ∧
        t.chip.g .CLU_SEQ_CNT_COUNT cl = (c.g .CLU_SEQ_CNT_COUNT cl + 1) % 2 ^ 64) ∧
      (upFreeze w ≠ 1 → c.updIssue p w = 0 → ∃ t, exec (.updateApply cl) s = .next t ∧ s.chipOnly t ∧ Chip.issued cl w0 c t.chip ∧
        (t.chip.upd p).win = upTensor w :: x.win ∧ (t.chip.upd p).void = x.void ∧
        (∃ e : JEnt, (t.chip.upd p).jrnl = x.jrnl ++ [e] ∧ e.cl = cl ∧ e.id = id ∧ e.words = w ∧ e.clipf = c.clipOf p (upTensor w) ∧
          e.live = true ∧ e.stopped = false ∧ e.counted = false ∧ e.fall = (upRule w == 3 && !(c.rule3Ok p w).1)) ∧
        t.chip.g .CEL_UPD_STAT_BUSY p = 1 ∧ t.chip.g .CEL_UPD_STAT_JRNL p = x.void.length + x.jrnl.length + 1 ∧
        ∀ y, (∀ i k, i < 4 → c.tierKey p (2 * 2 ^ 60 + c.g .CEL_JRNL_ADDR p * 4096 + 64 * (x.void.length + x.jrnl.length) + 16 * i) = some k →
          y < k ∨ k + 16 ≤ y) → t.chip.byte y = c.byte y)) ∧
    (∀ i ∈ [(1, Instr.updateFetch cl), (2, .updatePlace cl), (3, .updateAdopt cl)], upAct w0 = i.1 → upNothing w = false →
      (i.1 = 1 ∨ c.placedOk cl p w = true) → c.updIssue p w ≠ 0 →
      ∃ t, exec i.2 s = .next t ∧ s.chipOnly t ∧ t.chip.mem = c.mem ∧ t.chip.upd p = x ∧ (t.chip.seq cl).nextId = id + 1 ∧
        t.chip.g .CLU_SEQ_CNT_COUNT cl = (c.g .CLU_SEQ_CNT_COUNT cl + 1) % 2 ^ 64) ∧
    (∀ i ∈ [(1, Instr.updateFetch cl), (2, .updatePlace cl), (3, .updateAdopt cl)], upAct w0 = i.1 → upNothing w = false →
      (i.1 = 1 ∨ c.placedOk cl p w = true) → c.updIssue p w = 0 →
      ∃ t, exec i.2 s = .next t ∧ s.chipOnly t ∧ Chip.issued cl w0 c t.chip ∧ t.chip.mem = c.mem ∧
        t.chip.upd p = { x with moves := x.moves ++ [{ cl := cl, id := id, words := w }] } ∧ t.chip.g .CEL_UPD_STAT_BUSY p = 1)) ∧
  (∀ (s : State) (cl id : Nat) (m : UMove) (o : OutCmd), cl < 128 →
    let c := s.chip
    let p := c.partOfCl cl
    let x := c.upd p
    let w := m.words
    let rest := x.moves.filter (fun v => !(v.cl == cl && v.id == id))
    x.moves.find? (fun v => v.cl == cl && v.id == id) = some m →
    (c.seq cl).outst.find? (fun o => o.id == id && o.isOpen && !o.isCall) = some o →
    let ran (P : Chip → Prop) : Prop := ∃ t, exec (.commandEnd cl id) s = .next t ∧ s.chipOnly t ∧ (t.chip.upd p).moves = rest ∧
      (∀ v ∈ (t.chip.seq cl).outst, v.id = id → v.isOpen = false) ∧
      t.chip.g .CLU_SEQ_CNT_COUNT cl = (c.g .CLU_SEQ_CNT_COUNT cl + 1) % 2 ^ 64 ∧ P t.chip
    (m.pos = 0 → upNothing w = false → upRowsel w = false → upRows w = 1 → upLen w ≤ 32 →
      ∀ k kd kw, (c.rowHdr p (upHdr w) 0).2 = (false, some k) → bits (upData w) 63 60 < 4 → bits (upWcAt w k 0) 63 60 < 4 →
      c.tierKey p (upData w) = some kd → c.tierKey p (upWcAt w k 0) = some kw →
      (upAct w = 1 → upArea w = 1 → ((c.setUpd p { x with moves := rest }).syncUpd p).fenceHit p (upData w) 64 = none →
        ran (fun d => d.bytes kd 64 = c.bytes kw 64 ∧ ∀ y, y < kd ∨ kd + 64 ≤ y → d.byte y = c.byte y)) ∧
      (upAct w = 2 → hdrStamp (c.rowHdr p (upHdr w) 0).1 k = c.g .HUB_STEP_SEALED_STEP p →
        ran (fun d => d.bytes kw 64 = c.bytes kd 64 ∧ ∀ y, y < kw ∨ kw + 64 ≤ y → d.byte y = c.byte y)) ∧
      (upAct w = 2 → hdrStamp (c.rowHdr p (upHdr w) 0).1 k ≠ c.g .HUB_STEP_SEALED_STEP p → ran (fun d => d.mem = c.mem))) ∧
    (upAct w = 1 → upArea w = 2 → (c.rootView p (upRreg w) (upEntryL w)).1 = false → ran (fun d => d.mem = c.mem)) ∧
    (upAct w = 3 → ran (fun d => ∀ y, (∀ a ∈ [(upHdr w, 32 * upRows w), (upMom w, (if upRule w = 0 then 2 else 4) * upS w),
        (upMst w, 2 * upS w), (upWc w, if upClassC w then 2 * upS2 w else 0)],
      ∀ i k, 16 * i < a.2 → c.tierKey p (a.1 + 16 * i) = some k → y < k ∨ k + 64 ≤ y) → d.byte y = c.byte y)))

/-- Partition p below 16, entry n of its journal. APPLY_END of an entry that is ended or stopped, or during a replay, does nothing; otherwise with its Casks working it runs: the entry is live no longer, its command is outstanding no longer, rows written are counted, and of memory only the moments, masters and headers of its rows change; one whose root record was poisoned writes nothing, marks POISON and kills the job. APPLY_INTERRUPT stops it before a row: it stays live, and a record is counted. REPLAY from a window that reaches it sets REPLAY and REPLAYING and keeps journal and memory; REPLAY_END ends every entry whose stacks have a Cask, counts each as replayed, and REPLAY reads 0; without a replay it does nothing. AUDIT_CHECK without a registered tensor or with the auditor off does nothing; a sampled element whose working copy is the rounded master changes no memory and counts nothing; a mismatch is logged, counted, marked, and makes the module vote to abandon. CASK_WITHDRAW marks the Cask in the fault map and the health record, and does nothing for one withdrawn before. Cites R355, R360, R365, R371, R378, R379, R383, R384, R393, R498. -/
def Obligations.UpdatesRun : Prop :=
  (∀ (s : State) (p n : Nat) (e : JEnt), p < 16 → (s.chip.upd p).jrnl[n]? = some e → e.cl < 128 →
    let c := s.chip
    let x := c.upd p
    let w := e.words
    let kept (d : Chip) : Prop := ∀ y, (∀ a ∈ [(upHdr w, 32 * upRows w), (upMom w, (if upRule w = 0 then 2 else 4) * upS w), (upMst w, 2 * upS w)],
      ∀ i k, 16 * i < a.2 → c.tierKey p (a.1 + 16 * i) = some k → y < k ∨ k + 16 ≤ y) → d.byte y = c.byte y
    (e.live = false ∨ e.stopped = true ∨ x.replay = true →
      exec (.applyEnd p n) s = .next s ∧ ∀ row, exec (.applyInterrupt p n row) s = .next s) ∧
    (e.live = true → e.stopped = false → x.replay = false →
      (c.casksUp p w = false → exec (.applyEnd p n) s = .next s) ∧
      (c.casksUp p w = true → ∃ t, exec (.applyEnd p n) s = .next t ∧ s.chipOnly t ∧ kept t.chip ∧
        (t.chip.upd p).jrnl = listSet x.jrnl n { e with live := false, counted := true } ∧
        (∀ o ∈ (t.chip.seq e.cl).outst, o.id = e.id → o.isOpen = false) ∧
        t.chip.g .CEL_CNT_ROWS_COUNT p = (c.g .CEL_CNT_ROWS_COUNT p + (c.applyRun p e (upCount w)).rows) % 2 ^ 64 ∧
        (e.bad = true → t.chip.mem = c.mem ∧ t.chip.g .CEL_UPD_STICKY_POISON p = 1 ∧ (t.chip.stepS p).poison = true ∧
          (t.chip.stepS p).killed = true)) ∧
      (∀ row, ∃ t, exec (.applyInterrupt p n row) s = .next t ∧ s.chipOnly t ∧ kept t.chip ∧
        (t.chip.upd p).jrnl = listSet x.jrnl n { e with stopped := true } ∧
        t.chip.g .CEL_UPD_STAT_BUSY p = 1 ∧ ∀ cl, t.chip.seq cl = c.seq cl))) ∧
  (∀ (s : State) (fn : Fn) (p : Nat), p < 16 →
    let c := s.chip
    let x := c.upd p
    (c.reaches fn .CEL_UPD_CMD p = true → x.replay = false → ∃ t, exec (.updateReplay fn p) s = .next t ∧ s.chipOnly t ∧
      t.chip.g .CEL_UPD_CMD_REPLAY p = 1 ∧ t.chip.g .CEL_UPD_STAT_REPLAYING p = 1 ∧ t.chip.upd p = { x with replay := true } ∧
      t.chip.mem = c.mem ∧ c.regsBut t.chip [.CEL_UPD_CMD, .CEL_UPD_STAT]) ∧
    (c.reaches fn .CEL_UPD_CMD p = false → exec (.updateReplay fn p) s = .next s) ∧
    (x.replay = false → exec (.replayEnd p) s = .next s) ∧
    (x.replay = true → (∀ e ∈ x.jrnl, e.cl < 128) → ∃ t, exec (.replayEnd p) s = .next t ∧ s.chipOnly t ∧ t.chip.g .CEL_UPD_CMD_REPLAY p = 0 ∧
      t.chip.g .CEL_UPD_STAT_REPLAYING p = 0 ∧ (t.chip.upd p).replay = false ∧
      (t.chip.upd p).jrnl = x.jrnl.map (fun e =>
        if c.casksUp p e.words = true then { e with live := false, stopped := false, counted := true } else e) ∧
      t.chip.g .CEL_CNT_REPLAY_COUNT p =
        (c.g .CEL_CNT_REPLAY_COUNT p + (x.jrnl.filter (fun e => c.casksUp p e.words)).length) % 2 ^ 64 ∧
      ((∀ e ∈ x.jrnl, c.casksUp p e.words = true) → x.moves = [] → t.chip.g .CEL_UPD_STAT_BUSY p = 0))) ∧
  (∀ (s : State) (p tensor index : Nat), p < 16 →
    let c := s.chip
    (c.regTensor p tensor = none ∨ c.g .CEL_UPD_CTL_AUD_EN p = 0 ∨ c.g .HUB_STEP_PHASE p = 0 ∨ 6 ≤ c.g .HUB_STEP_PHASE p →
      exec (.auditCheck p tensor index) s = .next s) ∧
    (∀ e k kw kc, c.regTensor p tensor = some e → c.g .CEL_UPD_CTL_AUD_EN p = 1 → c.g .HUB_STEP_PHASE p ≠ 0 → c.g .HUB_STEP_PHASE p < 6 →
      let at0 := c.shardAt p e
      let row := index / max 1 e.lcols
      let col := index % max 1 e.lcols
      let i := row - at0.1
      let x := col - at0.2
      at0.1 ≤ row → at0.2 ≤ col → i < e.urows → x < e.ulen →
      draw (c.rd .HUB_SEED p).toNat tensor index (c.step p) 0xFE % 2 ^ c.g .CEL_UPD_CTL_AUD_SHIFT p = 0 →
      (c.rowHdr p e.hdr i).2.2 = some k →
      c.tierKey p (e.mst + k * e.s4 + 4 * rowPitch e.ulen * i + 4 * x) = some kw →
      c.tierKey p (e.wc + (if e.classC then k else c.g .HUB_STEP_SEALED_STEP p % 2) * e.s2 + 2 * rowPitch e.ulen * i + 2 * x) = some kc →
      let want := encodeF bf16 (roundF bf16 .rne (decodeF fp32 (c.num kw 4)))
      (want = c.num kc 2 → ∃ t, exec (.auditCheck p tensor index) s = .next t ∧ s.chipOnly t ∧ t.chip.mem = c.mem ∧ c.regsBut t.chip []) ∧
      (want ≠ c.num kc 2 → ∃ t, exec (.auditCheck p tensor index) s = .next t ∧ s.chipOnly t ∧ t.chip.mem = c.mem ∧
        t.chip.g .CEL_AUD_LOG_TENSOR p = tensor % 2 ^ 24 ∧ t.chip.g .CEL_AUD_LOG_INDEX p = index % 2 ^ 40 ∧
        t.chip.g .CEL_CNT_MISMATCH_COUNT p = (c.g .CEL_CNT_MISMATCH_COUNT p + 1) % 2 ^ 64 ∧ t.chip.g .CEL_UPD_STICKY_AUDIT p = 1 ∧
        (t.chip.stepS p).vote = true))) ∧
  (∀ (s : State) (stack cask : Nat),
    let c := s.chip
    let m := c.g .CSK_STAT_FAULTMAP 0 stack
    (8 ≤ stack ∨ 32 ≤ cask ∨ bit m cask = true → exec (.caskWithdraw stack cask) s = .next s) ∧
    (stack < 8 → cask < 32 → bit m cask = false → ∃ t, exec (.caskWithdraw stack cask) s = .next t ∧ s.chipOnly t ∧
      t.chip.g .CSK_STAT_FAULTMAP 0 stack = m + 2 ^ cask ∧ t.chip.mem = c.mem ∧
      (∃ h, t.chip.flash.health = some h ∧ sget 0 h.casks stack = m + 2 ^ cask) ∧
      (m + 2 ^ cask ≠ 2 ^ 32 - 1 → s.effect t { c with flash := t.chip.flash } [(.CSK_STAT_FAULTMAP, 0, stack)])))

/-- Direction d below 6. LINK_ENABLE with its LEN bit clear sets it and, with a neighbour, enters DETECT (1); LINK_DISABLE with it set clears it and enters DISABLED (0); neither does anything else. In DETECT signal on BOND_MIN ports enters TRAIN (2). A training frame applies its requests to one lane and is answered, and ALIGN (3) follows once BOND_MIN ports are trained. Alignment blocks lock lanes; the link enters BOND (4) when every port is locked, then CHECK (5) with a HELLO sent. A HELLO that passes the checks enters ACTIVE (6) with its credits, one that fails names its CAUSE. TRAIN expires to DETECT, the third time to FAILED (8); ALIGN, BOND, CHECK and RETRAIN expire to FAILED, with the cause where the manual names one (else a free value, log entry 12). Before its time none does anything. Other links keep their state. Cites R400, R401, R402, R403, R404, R408, R409, R415, R434, R442. -/
def Obligations.LinksComeUp : Prop :=
  ∀ (s : State) (d : Nat), d < 6 →
    let c := s.chip
    let x := c.link' d
    let st := c.linkState d
    let only (t : State) (l : List Spot) (out : List Out) : Prop :=
      s.effect t { c with links := t.chip.links, out := c.out ++ out } l ∧ ∀ e, e ≠ d → t.chip.link' e = c.link' e
    let failed (t : State) : Prop := s.chipOnly t ∧ t.chip.linkState d = 8 ∧ t.chip.g .FAB_LINK_STAT_PORTS_UP 0 d = 0 ∧ t.chip.mem = c.mem ∧
      ∀ e, e < 6 → e ≠ d → t.chip.link' e = c.link' e ∧ t.chip.linkState e = c.linkState e
    (∀ fn, (c.reaches fn .FAB_CTL 0 = false ∨ bit (c.g .FAB_CTL_LEN 0) d = true → exec (.linkEnable fn d) s = .next s) ∧
      (c.reaches fn .FAB_CTL 0 = false ∨ bit (c.g .FAB_CTL_LEN 0) d = false → exec (.linkDisable fn d) s = .next s) ∧
      (c.reaches fn .FAB_CTL 0 = true → bit (c.g .FAB_CTL_LEN 0) d = false → ∃ t, exec (.linkEnable fn d) s = .next t ∧
        only t [(.FAB_CTL_LEN, 0, 0), (.FAB_LINK_STAT_STATE, 0, d)] [] ∧ t.chip.g .FAB_CTL_LEN 0 = c.g .FAB_CTL_LEN 0 + 2 ^ d ∧
        (c.neighbour (c.g .FAB_ID_ID 0) d ≠ none → t.chip.linkState d = 1 ∧ t.chip.link' d = { retrains := x.retrains, since := c.up }) ∧
        (c.neighbour (c.g .FAB_ID_ID 0) d = none → t.chip.linkState d = st ∧ t.chip.link' d = x)) ∧
      (c.reaches fn .FAB_CTL 0 = true → bit (c.g .FAB_CTL_LEN 0) d = true → ∃ t, exec (.linkDisable fn d) s = .next t ∧ s.chipOnly t ∧
        t.chip.linkState d = 0 ∧ t.chip.g .FAB_LINK_STAT_PORTS_UP 0 d = 0 ∧ t.chip.g .FAB_CTL_LEN 0 = c.g .FAB_CTL_LEN 0 - 2 ^ d ∧
        t.chip.link' d = { retrains := x.retrains, tries := x.tries, since := c.up } ∧ t.chip.mem = c.mem ∧
        (st = 6 ∨ st = 7 → t.chip.g .FAB_LINK_STAT_CAUSE 0 d = 11 ∧ t.chip.g .FAB_STICKY_LINK_DOWN 0 = 1))) ∧
    (∀ ports, (st ≠ 1 ∨ popcount 3 ports < bondMin (c.rd .FAB_LINK_CFG 0 d) → exec (.linkDetect d ports) s = .next s) ∧
      (st = 1 → bondMin (c.rd .FAB_LINK_CFG 0 d) ≤ popcount 3 ports → ∃ t, exec (.linkDetect d ports) s = .next t ∧
        only t [(.FAB_LINK_STAT_STATE, 0, d)] [] ∧ t.chip.linkState d = 2 ∧
        t.chip.link' d = { x with cfg := c.rd .FAB_LINK_CFG 0 d, ports := ports % 8, lanes := [], since := c.up })) ∧
    (∀ port lane f, port < 3 → lane < 4 → bit x.ports port = true → (st ≠ 2 → exec (.trainFrameRecv d port lane f) s = .next s) ∧
      (st = 2 → ∃ t a b, exec (.trainFrameRecv d port lane f) s = .next t ∧
        only t [(.FAB_LINK_STAT_STATE, 0, d)] [.train d port lane a b] ∧ bits b 13 12 = lane ∧ bits b 9 0 = (applyControl (x.lane port lane).taps f.ctl).2 ∧
        (let y := (t.chip.link' d).lane port lane
         y.taps = (applyControl (x.lane port lane).taps f.ctl).1 ∧
         y.ready = if f.own = true ∧ bit f.sts 10 = true ∧ bits f.sts 13 12 = lane then (x.lane port lane).ready + 1 else 0) ∧
        t.chip.linkState d = if popcount 3 (t.chip.link' d).trained < bondMin x.cfg then 2 else 3)) ∧
    (c.expired d 2 250000000 = false → exec (.trainTimeout d) s = .next s) ∧
    (c.expired d 2 250000000 = true → ∃ t, exec (.trainTimeout d) s = .next t ∧ s.chipOnly t ∧
      (x.tries < 2 → t.chip.linkState d = 1 ∧ (t.chip.link' d).tries = x.tries + 1) ∧
      (2 ≤ x.tries → failed t ∧ t.chip.g .FAB_LINK_STAT_CAUSE 0 d = 2)) ∧
    (∀ port lane b, port < 3 → lane < 4 → bit x.ports port = true →
      (st = 3 → ∃ t, exec (.alignBlockRecv d port lane b) s = .next t ∧ only t [(.FAB_LINK_STAT_STATE, 0, d)] [] ∧
        (t.chip.link' d).lane port lane = (x.lane port lane).aligned b ∧
        t.chip.linkState d = if (t.chip.link' d).locked = x.ports then 4 else 3) ∧
      (st = 4 → blockValid b = true → (markerLane b.marker).isSome = true → bondMin x.cfg ≤ popcount 3 x.ports →
        ∃ t, exec (.alignBlockRecv d port lane b) s = .next t ∧
          only t [(.FAB_LINK_STAT_STATE, 0, d), (.FAB_LINK_STAT_PORTS_UP, 0, d)] [.hello d (c.ownHello d)] ∧
          t.chip.linkState d = 5 ∧ t.chip.g .FAB_LINK_STAT_PORTS_UP 0 d = x.ports % 8) ∧
      (st = 6 → (markerLane b.marker).isSome = true → blockValid b = true → b.lsn = (x.rxCnt + memberRank x.ports port) % 65536 →
        ∃ t, exec (.alignBlockRecv d port lane b) s = .next t ∧ only t [] [] ∧ ((t.chip.link' d).lane port lane).miss = 0) ∧
      (st = 6 → markerLane b.marker = none → 3 ≤ (x.lane port lane).miss →
        ∃ t, exec (.alignBlockRecv d port lane b) s = .next t ∧ s.chipOnly t ∧ (t.chip.linkState d = 7 ∨ t.chip.linkState d = 8))) ∧
    (∀ i ∈ [(Instr.alignTimeout d, 3, 1000000, 3), (.bondTimeout d, 4, 100000, 4)],
      (c.expired d i.2.1 i.2.2.1 = false → exec i.1 s = .next s) ∧
      (c.expired d i.2.1 i.2.2.1 = true → ∃ t, exec i.1 s = .next t ∧ failed t ∧ t.chip.g .FAB_LINK_STAT_CAUSE 0 d = i.2.2.2)) ∧
    (c.expired d 5 1000000 = false → exec (.checkTimeout d) s = .next s) ∧
    (c.expired d 5 1000000 = true → ∃ t, exec (.checkTimeout d) s = .next t ∧ failed t ∧ t.chip.g .FAB_STICKY_CHECK_FAIL 0 = 1 ∧
      (∀ k, x.fail = some k → t.chip.g .FAB_LINK_STAT_CAUSE 0 d = k % 16)) ∧
    (c.expired d 7 2000000 = false → exec (.retrainTimeout d) s = .next s) ∧
    (c.expired d 7 2000000 = true → ∃ t, exec (.retrainTimeout d) s = .next t ∧ failed t ∧ t.chip.g .FAB_STICKY_LINK_DOWN 0 = 1) ∧
    (∀ h, (st ≠ 5 → st ≠ 6 → exec (.helloRecv d h) s = .next s) ∧
      (st = 5 → ∃ t, exec (.helloRecv d h) s = .next t ∧
        only t [(.FAB_LINK_STAT_STATE, 0, d), (.FAB_LINK_STAT_CAUSE, 0, d), (.FAB_LINK_STAT_NBR_ID, 0, d), (.FAB_LINK_STAT_NBR_DIR, 0, d)] [] ∧
        t.chip.g .FAB_LINK_STAT_NBR_ID 0 d = h.id % 8192 ∧ t.chip.g .FAB_LINK_STAT_NBR_DIR 0 d = h.dir % 8 ∧
        (∀ k, c.helloCheck d h = some k → t.chip.linkState d = 5 ∧ t.chip.g .FAB_LINK_STAT_CAUSE 0 d = k % 16 ∧ t.chip.link' d = { x with fail := some k }) ∧
        (c.helloCheck d h = none → t.chip.linkState d = 6 ∧ (t.chip.link' d).credits = List.replicate 8 h.lane ++ [h.shared] ∧
          (t.chip.link' d).owed = List.replicate 9 0 ∧ (t.chip.link' d).flowAt = c.up)))

/-- Slot s of a codeword’s message has the code m(2s) + 2m(2s + 1), and bit i of byte b of its words is m(20 + 512s + 8b + i); bit j of symbol k is m(10k + j); the message of ten slots reads back as those slots. Direction d below 6. On a link that is not ACTIVE none of the events does anything. An uncorrectable codeword sends a NAK and is counted; a new good one of idle slots advances the count; one processed before adds no packet; a head without data, the rest idle, puts its packet in the receive buffer; data first, without a head, fails the link with CAUSE 12. REPLAY sets the count to the LSN named. A FLOW flit adds its credits, notes its time, and an acknowledgement within range releases what it names. Without an advance for 10 µs what is unacknowledged is sent again, counted. No FLOW for 10 µs enters RETRAIN with CAUSE 9. A packet that waited 1 ms for credit is counted once. (Clauses of packets hold where no delivered packet holds its credit back.) An injected packet of a partition carries source, job tag and epochs of this module; one it may not send, or of a reserved type, is not sent. A packet for this module waits for delivery; without an ACTIVE route, or after 63 hops, it is discarded and counted; otherwise it leaves with HOPS one higher. Cites R404, R405, R410, R411, R412, R413, R415, R416, R425, R426, R427, R430. -/
def Obligations.LinkLayer : Prop :=
  ((∀ m s, s < 10 → cwCode m s = b2n (m.testBit (2 * s)) + 2 * b2n (m.testBit (2 * s + 1)) ∧
      ∀ b i, b < 64 → i < 8 → (cwWord m s (b / 8)).getLsbD (8 * (b % 8) + i) = m.testBit (20 + 512 * s + 8 * b + i)) ∧
    (∀ m k j, j < 10 → (cwSymbol m k).testBit j = m.testBit (10 * k + j)) ∧
    (∀ fs n, fs.length = 10 → (∀ f ∈ fs, f = .idle ∨ f.words.length = 8) → cwSlots ⟨n, cwMessage fs⟩ = fs) ∧
    [pamLevel false false, pamLevel false true, pamLevel true true, pamLevel true false] = [0, 1, 2, 3]) ∧
  (∀ (s : State) (d : Nat), d < 6 →
    let c := s.chip
    let x := c.link' d
    let only (t : State) (l : List Spot) (out : List Out) : Prop :=
      s.effect t { c with links := t.chip.links, out := c.out ++ out } l ∧ ∀ e, e ≠ d → t.chip.link' e = c.link' e
    (c.linkActive d = false → exec (.flowTimeout d) s = .next s ∧ exec (.ackTimeoutReplay d) s = .next s ∧
      (∀ cw, exec (.codewordRecv d cw) s = .next s) ∧ (∀ f, exec (.flowRecv d f) s = .next s) ∧
      (∀ n, exec (.replayCodewordRecv d n) s = .next s) ∧ ∀ vc, exec (.creditStall d vc) s = .next s) ∧
    (c.linkActive d = true → c.chold = [] →
      (c.up < x.flowAt + 10000 → exec (.flowTimeout d) s = .next s) ∧
      (x.flowAt + 10000 ≤ c.up → ∃ t, exec (.flowTimeout d) s = .next t ∧ s.chipOnly t ∧ t.chip.g .FAB_LINK_STAT_CAUSE 0 d = 9 ∧
        t.chip.linkState d = (if 4 ≤ (x.retrains.filter (fun a => decide (c.up < a + 1000000000))).length then 8 else 7)) ∧
      (∀ cw, x.nak = true → exec (.codewordRecv d cw) s = .next s) ∧
      (∀ cw, x.nak = false → cw.corrected = none → ∃ t f, exec (.codewordRecv d cw) s = .next t ∧
        only t [(.FAB_LINK_FEC_UNCORR, 0, d)] [.flow d f] ∧ f.nak = some x.rxCnt ∧ (t.chip.link' d).nak = true ∧
        (t.chip.link' d).rxCnt = x.rxCnt ∧ t.chip.g .FAB_LINK_FEC_UNCORR 0 d = min (2 ^ 32 - 1) (c.g .FAB_LINK_FEC_UNCORR 0 d + 1)) ∧
      (∀ cw n, x.nak = false → cw.corrected = some n → n ≤ wbits x.cfg 3 0 → x.since32 < 31 →
        (x.rxCnt ≠ x.rxDone ∨ (∀ f ∈ cwSlots cw, f = .idle) → ∃ t, exec (.codewordRecv d cw) s = .next t ∧ only t [(.FAB_LINK_FEC_CORR_SYM, 0, d)] [] ∧
          (t.chip.link' d).rxCnt = (x.rxCnt + 1) % 65536 ∧
          (t.chip.link' d).rxDone = if x.rxCnt = x.rxDone then (x.rxCnt + 1) % 65536 else x.rxDone) ∧
        (∀ ws fs, cwSlots cw = .head ws :: fs → (∀ f ∈ fs, f = .idle) → x.rxCnt = x.rxDone → x.cur = none →
          (let k : Pkt := { hdr := headWords ws, words := [], poison := [] }
           kType k ≠ 1 → kType k ≠ 2 → kNdata k = 0 → ∃ t, exec (.codewordRecv d cw) s = .next t ∧ s.chipOnly t ∧
             t.chip.arrived = c.arrived ++ [(d, k)] ∧ (t.chip.link' d).rxDone = (x.rxCnt + 1) % 65536)) ∧
        (∀ b ws fs, cwSlots cw = .data b ws :: fs → x.rxCnt = x.rxDone → x.cur = none → ∃ t, exec (.codewordRecv d cw) s = .next t ∧ s.chipOnly t ∧
          t.chip.linkState d = 8 ∧ t.chip.g .FAB_LINK_STAT_CAUSE 0 d = 12)) ∧
      (∀ n, ∃ t, exec (.replayCodewordRecv d n) s = .next t ∧ only t [] [] ∧ t.chip.link' d = { x with rxCnt := n % 65536, nak := false }) ∧
      (∀ f : FlowFlit, x.wait = [] → f.nak = none → ∃ t, exec (.flowRecv d f) s = .next t ∧ only t [] [] ∧ (t.chip.link' d).flowAt = c.up ∧
        (∀ i, i < 8 → (t.chip.link' d).credits.getD i 0 = x.credits.getD i 0 + f.credits.getD i 0) ∧
        (t.chip.link' d).credits.getD 8 0 = x.credits.getD 8 0 + f.shared ∧
        (f.ack = none → (t.chip.link' d).ack = x.ack ∧ (t.chip.link' d).buf = x.buf) ∧
        (∀ a, f.ack = some a → let n := (a + 1 + 65536 - x.ack) % 65536
          0 < n → n ≤ x.unacked → (t.chip.link' d).ack = (x.ack + n) % 65536 ∧ (t.chip.link' d).reps = 0 ∧
            (t.chip.link' d).buf = x.buf.filter (fun b => decide (n ≤ (b.1 + 65536 - x.ack) % 65536)))) ∧
      ((x.unacked = 0 ∨ (c.up < x.ackAt + 10000 ∧ x.unacked < 1024)) → exec (.ackTimeoutReplay d) s = .next s) ∧
      (0 < x.unacked → x.ackAt + 10000 ≤ c.up → x.reps < 7 → ∃ t, exec (.ackTimeoutReplay d) s = .next t ∧
        only t [(.FAB_LINK_RETRY_REPLAYS, 0, d)] (.replay d x.ack :: x.buf.map (fun b => .packet d b.2)) ∧
        t.chip.link' d = { x with reps := x.reps + 1, ackAt := c.up } ∧
        t.chip.g .FAB_LINK_RETRY_REPLAYS 0 d = min (2 ^ 32 - 1) (c.g .FAB_LINK_RETRY_REPLAYS 0 d + 1)) ∧
      (∀ vc w, x.wait = [w] → w.2.1 = false → kVc w.2.2 = vc → w.1 + 1000000 < c.up → x.poolFor w.2.2 = none →
        ∃ t, exec (.creditStall d vc) s = .next t ∧ only t [(.FAB_STICKY_CREDIT_STALL, 0, 0), (.FAB_LINK_RETRY_STALLS, 0, d)] [] ∧
          t.chip.g .FAB_STICKY_CREDIT_STALL 0 = 1 ∧ t.chip.link' d = { x with wait := [(w.1, true, w.2.2)] } ∧
          t.chip.g .FAB_LINK_RETRY_STALLS 0 d = min (2 ^ 32 - 1) (c.g .FAB_LINK_RETRY_STALLS 0 d + 1)))) ∧
  (∀ (s : State) (p : Nat) (k : Pkt),
    let c := s.chip
    (vcOfType (kType k) = none → exec (.packetInject p k) s = .next s) ∧
    (kType k ≠ 0x41 → p < 16 → c.mayInject p (kDst k) = false → exec (.packetInject p k) s = .next s) ∧
    (∀ vc, vcOfType (kType k) = some vc → kType k ≠ 0x41 → p < 16 → c.mayInject p (kDst k) = true →
      (c.routeOf (kDst k) = 6 → ∃ t k', exec (.packetInject p k) s = .next t ∧ s.chipOnly t ∧ t.chip.arrived = c.arrived ++ [(6, k')] ∧
        c.regsBut t.chip [] ∧ kType k' = kType k ∧ kDst k' = kDst k ∧ k'.words = k.words ∧ kVc k' = vc ∧ kSrc k' = c.g .FAB_ID_ID 0 ∧ kHops k' = 0 ∧
        kJtag k' = c.g .FAB_JOB_JTAG p ∧ kLepoch k' = c.g .FAB_JOB_LEPOCH p ∧ kRepoch k' = c.g .FAB_JOB_REPOCH p ∧ crcOk k' = true) ∧
      (c.routeOf (kDst k) = 7 → ∃ t, exec (.packetInject p k) s = .next t ∧ s.chipOnly t ∧ t.chip.arrived = c.arrived ∧ t.chip.out = c.out ∧
        t.chip.g .FAB_STICKY_ROUTE_DROP 0 = 1 ∧ t.chip.g .FAB_CNT_COUNT 0 2 = (c.g .FAB_CNT_COUNT 0 2 + 1) % 2 ^ 64))) ∧
  (∀ (s : State) (d : Nat) (k : Pkt), s.chip.chold = [] → k.hdr.length = 8 → (∀ a ∈ s.chip.arrived, a.2 ≠ k) →
    let c := s.chip
    let e := c.routeOf (kDst k)
    let y := c.link' e
    (e = 6 → ∃ t, exec (.packetForward d k) s = .next t ∧ s.effect t { c with arrived := c.arrived ++ [(d, k)] } []) ∧
    ((e = 7 ∨ (e < 6 ∧ (c.linkActive e = false ∨ kHops k = 63))) → ∃ t, exec (.packetForward d k) s = .next t ∧ s.chipOnly t ∧
      t.chip.out = c.out ∧ t.chip.arrived = c.arrived ∧ t.chip.g .FAB_STICKY_ROUTE_DROP 0 = 1 ∧
      t.chip.g .FAB_CNT_COUNT 0 2 = (c.g .FAB_CNT_COUNT 0 2 + 1) % 2 ^ 64) ∧
    (c.linkActive e = true → kHops k < 63 → y.wait = [] → y.unacked + kCodewords k ≤ 1024 → (∀ i, i < 9 → kFlits k ≤ y.credits.getD i 0) →
      ∃ t k', exec (.packetForward d k) s = .next t ∧ s.effect t { c with links := t.chip.links, out := c.out ++ [.packet e k'] } [] ∧
        kHops k' = kHops k + 1 ∧ kLane k' = c.laneFor (some d) e k % 2 ∧ kDst k' = kDst k ∧ kSrc k' = kSrc k ∧ k'.words = k.words ∧
        ∀ i, 0 < i → hw k' i = hw k i))

/-- No delivered packet holds its credit back. A packet of each type that is malformed counts MALFORMED, with a job tag no running partition holds or a source it does not permit counts PERM_DROP, with another routing epoch counts EPOCH_DROP; memory and queues stay. Delivered to partition p: a queue push offers its words, one NULL word for an empty packet, one poisoned NULL word when the PCRC failed; a push to a region of another partition is dropped. A 64-byte remote write writes exactly its bytes where no fence blocks it, poisoned where its flit is or the PCRC failed; a widening write of one block writes its 32 BF16 elements and adds to the census of its tensor. A 64-byte read is answered with its bytes and leaves memory. A response goes to the agent’s mailbox, or as an acknowledgement to its collective, whose count falls by one; read data for the Carousel changes no register. A management packet goes to Ringmaster’s mailbox. Cites R361, R418, R420, R421, R422, R423, R424, R431, R432. -/
def Obligations.PacketsDelivered : Prop :=
  ∀ (s : State) (k : Pkt), s.chip.chold = [] →
    let c := s.chip
    let ty := kType k
    let a := (hw k 2).toNat
    let rows := [(0x10, Instr.qpushRecv k), (0x20, .mwriteRecv k), (0x21, .mwriteWidenRecv k), (0x22, .mreadRecv k), (0x28, .mwackRecv k), (0x29, .mrdataRecv k)]
    (∀ i ∈ rows ++ [(0x41, .mgmtRecv k)], (ty ≠ i.1 → exec i.2 s = .next s) ∧
      (ty = i.1 → c.malformed k = true → ∃ t, exec i.2 s = .next t ∧ s.chipOnly t ∧ t.chip.mem = c.mem ∧ t.chip.queues = c.queues ∧
        t.chip.g .FAB_STICKY_MALFORMED 0 = 1 ∧ t.chip.g .FAB_CNT_COUNT 0 3 = (c.g .FAB_CNT_COUNT 0 3 + 1) % 2 ^ 64)) ∧
    (∀ i ∈ rows, ty = i.1 → c.malformed k = false →
      (c.jobOf (kJtag k) = none ∨ (∃ p, c.jobOf (kJtag k) = some p ∧ c.permits p (kSrc k) = false) → ∃ t, exec i.2 s = .next t ∧ s.chipOnly t ∧
        t.chip.mem = c.mem ∧ t.chip.g .FAB_STICKY_PERM_DROP 0 = 1 ∧ t.chip.g .FAB_CNT_COUNT 0 0 = (c.g .FAB_CNT_COUNT 0 0 + 1) % 2 ^ 64) ∧
      (∀ p, c.jobOf (kJtag k) = some p → c.permits p (kSrc k) = true → kRepoch k ≠ c.g .FAB_JOB_REPOCH p → ∃ t, exec i.2 s = .next t ∧
        s.effect t { c with arrived := t.chip.arrived, links := t.chip.links, out := t.chip.out } [(.FAB_CNT_COUNT, 0, 1), (.FAB_STICKY_EPOCH_DROP, 0, 0)] ∧
        t.chip.g .FAB_STICKY_EPOCH_DROP 0 = 1 ∧ t.chip.g .FAB_CNT_COUNT 0 1 = (c.g .FAB_CNT_COUNT 0 1 + 1) % 2 ^ 64)) ∧
    (ty = 0x41 → c.malformed k = false → ∃ t l, exec (.mgmtRecv k) s = .next t ∧ s.chipOnly t ∧ t.chip.out = c.out ++ [.mailbox k] ++ l ∧
      t.chip.mem = c.mem ∧ t.chip.queues = c.queues) ∧
    (∀ e p ok, c.receive k = (e, some (p, ok)) → p < 16 →
      (ty = 0x10 →
        let r := wbits (hw k 2) 3 0
        let q := wbits (hw k 2) 13 4
        (c.owns p r = true → ∃ t, exec (.qpushRecv k) s = .next t ∧ s.chipOnly t ∧ t.chip.mem = c.mem ∧
          (ok = false → t.chip.g .QP_STICKY_MALFORMED r = 1) ∧
          t.chip.queue r q = ((qpushWords k ok).foldl (fun c w => (c.qWrite r q (fabProducer k) w).1) e).queue r q ∧
          ((qpushWords k ok).length = max 1 (if ok then wbits (hw k 2) 23 14 else 1))) ∧
        (c.owns p r = false → ∃ t, exec (.qpushRecv k) s = .next t ∧ s.chipOnly t ∧ t.chip.mem = c.mem ∧
          t.chip.g .FAB_STICKY_PERM_DROP 0 = 1)) ∧
      (∀ key, k.words.length = 8 * kNdata k → e.remoteStatus p a 64 = some 0 → e.tierKeys p a 64 = some [key] →
        let open' := e.fenceHit p a 64 = none ∧ ¬ (bits a 63 60 = 1 ∧ e.inRoutine (bits a 35 32) (bits a 24 0) 64 = true)
        let kept (t : State) : Prop := s.chipOnly t ∧ ∀ y, y < key ∨ key + 64 ≤ y → t.chip.byte y = c.byte y
        (ty = 0x20 → mwBytes k = 64 → open' → ∃ t, exec (.mwriteRecv k) s = .next t ∧ kept t ∧ t.chip.bytes key 64 = bytesOf k.words ∧
          (kBad k 0 = true ∨ ok = false → t.chip.badAny key 64 = true)) ∧
        (ty = 0x20 → mwBytes k = 64 → e.fenceHit p a 64 ≠ none → ∃ t, exec (.mwriteRecv k) s = .next t ∧ s.chipOnly t ∧ t.chip.mem = c.mem ∧
          (t.chip.stepS p).vote = true) ∧
        (ty = 0x21 → wdBlocks k = 1 → open' → ∃ t, exec (.mwriteWidenRecv k) s = .next t ∧ kept t ∧
          t.chip.bytes key 64 = (widen (if wbit (hw k 3) 7 then 3 else 2) ((bytesOf k.words).take 32) (((bytesOf k.words).drop 32).take 1)).flatMap
            (fun v => leBytes 2 v.w) ∧
          ∃ n ∈ t.chip.wcensOf p, n.tensor = wbits (hw k 4) 23 0 ∧ n.step = c.step p) ∧
        (ty = 0x22 → mwBytes k = 64 → ∀ d, c.routeOf (kSrc k) = d → c.linkActive d = true → (c.link' d).wait = [] → (c.link' d).unacked < 1024 →
          (∀ i, i < 9 → 2 ≤ (c.link' d).credits.getD i 0) →
          ∃ t x l, exec (.mreadRecv k) s = .next t ∧ s.chipOnly t ∧ t.chip.mem = c.mem ∧ t.chip.queues = c.queues ∧
            t.chip.out = c.out ++ [.packet d x] ++ l ∧ kType x = 0x29 ∧ kDst x = kSrc k ∧ wbits (hw x 2) 15 0 = mwAtag k ∧
            wbits (hw x 2) 18 16 = b2n (e.badAny key 64) ∧ bytesOf x.words = e.bytes key 64 ∧ x.poison = [e.badAny key 64])) ∧
      (ty = 0x28 ∨ ty = 0x29 → wbits (hw k 2) 20 19 ≠ 0 →
        ∃ t l, exec (if ty = 0x28 then .mwackRecv k else .mrdataRecv k) s = .next t ∧ s.chipOnly t ∧ t.chip.mem = c.mem ∧
          t.chip.out = c.out ++ [.mailbox k] ++ l) ∧
      (ty = 0x29 → wbits (hw k 2) 20 19 = 0 → ∃ t, exec (.mrdataRecv k) s = .next t ∧ s.chipOnly t ∧ t.chip.mem = c.mem ∧ e.regsBut t.chip []) ∧
      (ty = 0x28 → wbits (hw k 2) 20 19 = 0 → ∀ x n m, e.coll p (wbits (hw k 2) 15 0) = some x → x.mods.findIdx? (· == kSrc k) = some m →
        x.acks = [(m, n)] → 1 < n → n < 65536 → wbits (hw k 2) 18 16 = 0 → ∃ t, exec (.mwackRecv k) s = .next t ∧ s.chipOnly t ∧
          t.chip.mem = c.mem ∧ t.chip.coll p (wbits (hw k 2) 15 0) = some { x with acks := [(m, n - 1)], seen := c.up }))

/-- RT_FILL through a window that reaches it sets RT_FILL while no link is enabled, else marks ID_LOCKED; when it is done every module’s route is its dimension-order route (6 for this module, 7 outside the topology) and RT_FILL reads 0. TSYNC_PERIOD of a module with a parent link sends a request with its own time and the next TSEQ when PERIOD has passed, or clears LOCKED and sets HOLDOVER when that link is not ACTIVE; the root, or a module without EN, does nothing. A request on an ACTIVE link is answered with the times of arrival and of sending; a replayed one is ignored. A matching answer sets OFFSET and LOCKED and clears HOLDOVER; before the first TIME_OK an offset above 1 µs steps the time, else it is slewed; the fourth in a row below 2 ns from a parent that is right sets TIME_OK. After 100 ms of holdover TIME_OK clears and TIME_LOST says so; before, nothing happens. Cites R403, R425, R435, R436, R437, R438, R440, R441. -/
def Obligations.SystemTime : Prop :=
  ∀ (s : State),
    let c := s.chip
    let par := c.g .FAB_TIME_STAT_PARENT 0
    let x := c.time
    (∀ fn, (c.reaches fn .FAB_TOPO 0 = false → exec (.rtFill fn) s = .next s) ∧
      (c.reaches fn .FAB_TOPO 0 = true → c.g .FAB_CTL_LEN 0 ≠ 0 → ∃ t, exec (.rtFill fn) s = .next t ∧
        s.effect t c [(.FAB_STICKY_ID_LOCKED, 0, 0)] ∧ t.chip.g .FAB_STICKY_ID_LOCKED 0 = 1) ∧
      (c.reaches fn .FAB_TOPO 0 = true → c.g .FAB_CTL_LEN 0 = 0 → ∃ t, exec (.rtFill fn) s = .next t ∧
        s.effect t c [(.FAB_TOPO_RT_FILL, 0, 0)] ∧ t.chip.g .FAB_TOPO_RT_FILL 0 = 1)) ∧
    (c.g .FAB_TOPO_RT_FILL 0 = 0 → exec .rtFillDone s = .next s) ∧
    (c.g .FAB_TOPO_RT_FILL 0 = 1 → ∃ t, exec .rtFillDone s = .next t ∧ s.chipOnly t ∧ t.chip.noRegs = c.noRegs ∧
      c.regsBut t.chip [.FAB_RT, .FAB_TOPO, .FAB_TIME_STAT, .FAB_STICKY] ∧ t.chip.g .FAB_TOPO_RT_FILL 0 = 0 ∧
      (∀ id, id < 8192 → t.chip.routeOf id = c.dimRoute id) ∧
      (∀ id, id < 8192 → c.inTopo id = false → t.chip.routeOf id = 7) ∧
      (c.inTopo (c.g .FAB_ID_ID 0) = true → t.chip.routeOf (c.g .FAB_ID_ID 0) = 6)) ∧
    (c.g .FAB_TIME_CTL_EN 0 = 0 ∨ 6 ≤ par → exec .tsyncPeriod s = .next s) ∧
    (∀ b, x.reqAt = some b → c.up < b + 1000 * c.g .FAB_TIME_CTL_PERIOD 0 → exec .tsyncPeriod s = .next s) ∧
    (c.g .FAB_TIME_CTL_EN 0 = 1 → par < 6 → (∀ b, x.reqAt = some b → b + 1000 * c.g .FAB_TIME_CTL_PERIOD 0 ≤ c.up) →
      (c.linkActive par = true → ∃ t, exec .tsyncPeriod s = .next t ∧ s.effect t { c with
          time := { x with pend := some (c.time16, x.seq), seq := (x.seq + 1) % 65536, reqAt := some c.up }
          out := c.out ++ [.tsyncReq par c.time16 x.seq] } []) ∧
      (c.linkActive par = false → ∃ t, exec .tsyncPeriod s = .next t ∧
        s.effect t { c with time := { x with pend := none, holdAt := some (x.holdAt.getD c.up) } } [(.FAB_TIME_STAT_LOCKED, 0, 0), (.FAB_TIME_STAT_HOLDOVER, 0, 0)] ∧
        t.chip.g .FAB_TIME_STAT_LOCKED 0 = 0 ∧ t.chip.g .FAB_TIME_STAT_HOLDOVER 0 = 1)) ∧
    (∀ d t1 seq turn replay, (replay = true ∨ c.linkActive d = false → exec (.tsyncReqRecv d t1 seq turn replay) s = .next s) ∧
      (replay = false → c.linkActive d = true → ∃ t, exec (.tsyncReqRecv d t1 seq turn replay) s = .next t ∧ s.effect t { c with out := c.out ++
        [.tsyncRsp d { t1 := t1, t2 := c.time16, t3 := c.time16 + turn, seq := seq, pok := decide (c.g .FAB_TIME_STAT_TIME_OK 0 = 1), replay := false }] } [])) ∧
    (∀ d (r : TimeRsp), (r.replay = true ∨ par ≠ d ∨ 6 ≤ d ∨ x.pend ≠ some (r.t1, r.seq) → exec (.tsyncRspRecv d r) s = .next s) ∧
      (r.replay = false → par = d → d < 6 → x.pend = some (r.t1, r.seq) →
        let th2 := theta2 r.t1 r.t2 r.t3 c.time16 (signed 8 (c.g .FAB_LINK_CFG_ASYM 0 d))
        let big := 2 * 65536000 < th2.natAbs
        ∃ t, exec (.tsyncRspRecv d r) s = .next t ∧
          s.effect t { c with now := t.chip.now, time := t.chip.time } [(.FAB_TIME_STAT_OFFSET, 0, 0), (.FAB_TIME_STAT_LOCKED, 0, 0),
            (.FAB_TIME_STAT_HOLDOVER, 0, 0), (.FAB_TIME_STAT_TIME_OK, 0, 0), (.FAB_STICKY_TIME_LOST, 0, 0)] ∧
          t.chip.g .FAB_TIME_STAT_OFFSET 0 = unsigned 32 (th2 / 512) ∧ t.chip.g .FAB_TIME_STAT_LOCKED 0 = 1 ∧ t.chip.g .FAB_TIME_STAT_HOLDOVER 0 = 0 ∧
          t.chip.time.pend = none ∧ t.chip.time.holdAt = none ∧
          (¬ big ∨ x.everOk = true → t.chip.now = c.now ∧ t.chip.time.corr = -(th2 / 2)) ∧
          (big → x.everOk = false → 0 ≤ (c.time16 : Int) - th2 / 2 → (c.time16 : Int) - th2 / 2 < 2 ^ 80 →
            (t.chip.time16 : Int) = (c.time16 : Int) - th2 / 2 ∧ t.chip.time.corr = 0) ∧
          (th2.natAbs < 4 * 65536 → t.chip.time.good = x.good + 1) ∧ (4 * 65536 ≤ th2.natAbs → t.chip.time.good = 0) ∧
          (3 ≤ x.good → th2.natAbs < 4 * 65536 → r.pok = true → t.chip.g .FAB_TIME_STAT_TIME_OK 0 = 1 ∧ t.chip.time.everOk = true) ∧
          (big → x.everOk = true → t.chip.g .FAB_TIME_STAT_TIME_OK 0 = 0))) ∧
    ((∀ b, x.holdAt = some b → c.up < b + 100000000) → exec .holdoverExpiry s = .next s) ∧
    (∀ b, x.holdAt = some b → b + 100000000 ≤ c.up → ∃ t, exec .holdoverExpiry s = .next t ∧
      s.effect t c [(.FAB_TIME_STAT_TIME_OK, 0, 0), (.FAB_STICKY_TIME_LOST, 0, 0)] ∧ t.chip.g .FAB_TIME_STAT_TIME_OK 0 = 0 ∧
      (c.g .FAB_TIME_STAT_TIME_OK 0 = 1 → t.chip.g .FAB_STICKY_TIME_LOST 0 = 1))

/-- Queue q below 1,024 of region r below 16. A producer whose partition does not own r is blocked and counted (XPART), the queue kept. Otherwise a word to a queue disabled or broken is discarded and marks MALFORMED; one that stands in line behind its producer’s waiting words, or finds no cell, waits; a stored word extends its producer’s open packet, and END links it, counted; a NULL is linked alone. Where no ended command waits to be recorded, CELL_GRANTED gives a lone waiting word its cell, or leaves it waiting. The consumer’s read moves past one word, with the last one past the packet; an empty queue stays, a broken one is read as poison and marks POISON_IN, alone but for a hub agent, whose partition’s job is then killed (R504). A staleness timer that has run out with packets linked stops and marks STALE; else nothing happens. FLUSH marks what is there once; it takes effect when no marked packet is open and the head is not partway. RESET of a running partition’s queue is a lock violation; else the queue is emptied. Enabling writes EN unless CKIND is reserved or the reserves exceed the pool; a rewrite of an enabled queue that would do so is dropped whole (the model’s choice, log entry 58), disabling empties the queue. Other queues stay. Cites R194, R196, R197, R198, R199, R200, R201, R202, R203, R208. -/
def Obligations.QueuePool : Prop :=
  ∀ (s : State) (r q : Nat), r < 16 → q < 1024 →
    let c := s.chip
    let x := c.queue r q
    let others (t : State) : Prop := s.chipOnly t ∧ t.chip.mem = c.mem ∧ ∀ r' q', q' < 1024 → (r', q') ≠ (r, q) → t.chip.queue r' q' = c.queue r' q'
    let noRecords : Prop := ∀ cl o, cl / 8 = r → o ∈ (c.seq cl).outst → o.ended = none
    let resumed (i : State) (cmd : Instr) : Prop := ∃ t, exec cmd i = .next t ∧ i.effect t { c with seqs := t.chip.seqs } [] ∧
      ∀ cl, t.chip.seq cl = c.seq cl
    let emptied (t : State) : Prop := t.chip.queue r q = {}
    (∀ prod w mark p pt, c.prodPart prod = some pt → c.owns pt r = false → ∃ t, exec (.queueWordWrite r q prod w mark p) s = .next t ∧
      s.chipOnly t ∧ c.faultOnly t.chip ∧ t.chip.queue r q = x ∧
      (c.homeFaults pt → t.chip.g .PART_CNT_XPART_COUNT pt = (c.g .PART_CNT_XPART_COUNT pt + 1) % 2 ^ 64)) ∧
    (∀ prod w mark p, (∀ pt, c.prodPart prod = some pt → c.owns pt r = true) → (x.waiting.any (fun y => y.1 == prod) = false →
        (c.g .QP_QCFG_EN r q = 0 ∨ x.broken = true → ∃ t, exec (.queueWordWrite r q prod w mark p) s = .next t ∧
          s.effect t c [(.QP_QSTAT_MALFORMED, r, q), (.QP_STICKY_MALFORMED, r, 0)] ∧
          t.chip.g .QP_QSTAT_MALFORMED r q = 1 ∧ t.chip.g .QP_STICKY_MALFORMED r = 1) ∧
        (c.g .QP_QCFG_EN r q = 1 → x.broken = false → x.skip.contains prod = false →
          let o := (x.openOf prod).getD ⟨prod, [], false⟩
          let n := o.words.length
          let rest := x.opens.filter (fun y => y.prod != prod)
          (mark = 0 ∨ mark = 1 → (mark = 0 → n = 0 → x.opens.length < 16) → n < 512 → cellsOf (n + 1) ≤ c.g .QP_QCFG_MAX_CELLS r q →
            (n % 8 = 0 → c.canCell r q = true) →
            ∃ t, exec (.queueWordWrite r q prod w mark p) s = .next t ∧ others t ∧
              (p = true → t.chip.g .QP_QSTAT_POISON_IN r q = 1) ∧
              (mark = 0 → t.chip.queue r q = { x with opens := rest ++ [{ o with words := o.words ++ [(w, p)] }] }) ∧
              (mark = 1 → (t.chip.queue r q).linked = x.linked ++ [⟨o.words ++ [(w, p)], false, o.old⟩] ∧ (t.chip.queue r q).opens = rest ∧
                t.chip.g .QP_QCNT_LINKED r q = (c.g .QP_QCNT_LINKED r q + 1) % 2 ^ 64)) ∧
          (mark = 0 ∨ mark = 1 → n < 512 → cellsOf (n + 1) ≤ c.g .QP_QCFG_MAX_CELLS r q →
            n % 8 = 0 → c.canCell r q = false → ∃ t, exec (.queueWordWrite r q prod w mark p) s = .next t ∧ others t ∧
              t.chip.queue r q = { x with waiting := x.waiting ++ [(prod, ⟨w, mark, p⟩)] }) ∧
          (mark = 2 → x.openOf prod = none → c.canCell r q = true → ∃ t, exec (.queueWordWrite r q prod w mark p) s = .next t ∧ others t ∧
            (t.chip.queue r q).linked = x.linked ++ [⟨[(0, p)], true, false⟩] ∧ (t.chip.queue r q).opens = x.opens))) ∧
      (x.waiting.any (fun y => y.1 == prod) = true → ∃ t, exec (.queueWordWrite r q prod w mark p) s = .next t ∧ others t ∧
        t.chip.queue r q = { x with waiting := x.waiting ++ [(prod, ⟨w, mark % 4, p⟩)] })) ∧
    (noRecords → x.waiting = [] → resumed s (.cellGranted r q)) ∧
    (∀ prod w p, noRecords → x.waiting = [(prod, ⟨w, 0, p⟩)] → c.g .QP_QCFG_EN r q = 1 → x.broken = false → x.skip.contains prod = false →
      x.openOf prod = none → x.opens.length < 16 → 1 ≤ c.g .QP_QCFG_MAX_CELLS r q →
      (c.canCell r q = false → resumed s (.cellGranted r q)) ∧
      (c.canCell r q = true → ∃ t, exec (.cellGranted r q) s = .next t ∧ others t ∧ (t.chip.queue r q).waiting = [] ∧
        (t.chip.queue r q).opens = x.opens.filter (fun y => y.prod != prod) ++ [⟨prod, [(w, p)], false⟩] ∧ (t.chip.queue r q).linked = x.linked)) ∧
    (x.linked = [] → x.broken = false → exec (.queueWordRead r q) s = .next s) ∧
    (x.broken = true → c.g .QP_QCFG_CKIND r q ≠ 3 → ∃ t, exec (.queueWordRead r q) s = .next t ∧ s.effect t c [(.QP_QSTAT_POISON_IN, r, q), (.QP_STICKY_POISON_IN, r, 0)] ∧
      t.chip.g .QP_QSTAT_POISON_IN r q = 1 ∧ t.chip.g .QP_STICKY_POISON_IN r = 1) ∧
    (∀ p, x.broken = true → c.g .QP_QCFG_CKIND r q = 3 → c.owner r = some p → ∃ t, exec (.queueWordRead r q) s = .next t ∧
      s.chipOnly t ∧ t.chip.mem = c.mem ∧ t.chip.g .QP_QSTAT_POISON_IN r q = 1 ∧
      t.chip.stepS p = { c.stepS p with poison := true, killed := true }) ∧
    (∀ k ks, x.broken = false → x.linked = k :: ks → ∃ t, exec (.queueWordRead r q) s = .next t ∧ others t ∧
      (k.words.length ≤ x.rd + 1 → (t.chip.queue r q).linked = ks ∧ (t.chip.queue r q).rd = 0) ∧
      (x.rd + 1 < k.words.length → (t.chip.queue r q).linked = x.linked ∧ (t.chip.queue r q).rd = x.rd + 1)) ∧
    ((x.linked = [] ∨ (∀ b, x.timer = some b → c.up < b)) → exec (.staleTimerFire r q) s = .next s) ∧
    (∀ b, x.timer = some b → b ≤ c.up → x.linked ≠ [] → ∃ t, exec (.staleTimerFire r q) s = .next t ∧ others t ∧
      t.chip.queue r q = { x with timer := none } ∧ t.chip.g .QP_QSTAT_STALE_FIRED r q = 1 ∧ t.chip.g .QP_STICKY_STALE r = 1) ∧
    (∀ fn, (c.reaches fn .QP_QCMD r = false ∨ x.flush = true → exec (.qpFlush fn r q) s = .next s) ∧
      (c.reaches fn .QP_QCMD r = true → x.flush = false → ∃ t, exec (.qpFlush fn r q) s = .next t ∧ others t ∧ c.regsBut t.chip [] ∧
        t.chip.queue r q = { x with flush := true, linked := x.linked.map (fun k => { k with old := true })
                                    opens := x.opens.map (fun o => { o with old := true }) })) ∧
    ((x.flush = false ∨ x.rd ≠ 0 ∨ ∃ o ∈ x.opens, o.old = true) → exec (.flushTakeEffect r q) s = .next s) ∧
    (x.flush = true → x.rd = 0 → (∀ o ∈ x.opens, o.old = false) → ∃ t, exec (.flushTakeEffect r q) s = .next t ∧ others t ∧
      (t.chip.queue r q).flush = false ∧ (t.chip.queue r q).linked = x.linked.filter (fun k => !k.old) ∧ (t.chip.queue r q).opens = x.opens) ∧
    (∀ fn, c.reaches fn .QP_QCMD r = true →
      (c.locked r = false → ∃ t, exec (.qpReset fn r q) s = .next t ∧ others t ∧ emptied t ∧ c.regsBut t.chip []) ∧
      (∀ p, c.owner r = some p → c.runs p = true → ∃ t, exec (.qpReset fn r q) s = .next t ∧ t.chip.queue r q = x ∧
        s.effect t c [(.PART_STAT_LOCK_VIOL, p, 0), (.PART_VIOL_LOCK_OFF, p, 0)] ∧ t.chip.g .PART_STAT_LOCK_VIOL p = 1)) ∧
    (∀ fn data, c.reaches fn .QP_QCFG r = true →
      (c.isLocked .QP_QCFG r = true → ∃ t, exec (.queueEnWrite fn r q data) s = .next t ∧ others t ∧ t.chip.queue r q = x ∧
        t.chip.g .QP_QCFG_EN r q = c.g .QP_QCFG_EN r q ∧ t.chip.g .QP_QCFG_CKIND r q = c.g .QP_QCFG_CKIND r q) ∧
      (c.isLocked .QP_QCFG r = false → c.g .QP_QCFG_EN r q = 0 → wbit data 0 = true → ∃ t, exec (.queueEnWrite fn r q data) s = .next t ∧
        others t ∧ t.chip.queue r q = x ∧ t.chip.g .QP_QCFG_CKIND r q = wbits data 3 1 ∧
        (5 ≤ wbits data 3 1 → t.chip.g .QP_STICKY_BAD_CFG r = 1 ∧ t.chip.g .QP_QCFG_EN r q = 0) ∧
        (wbits data 3 1 < 5 → t.chip.g .QP_QCFG_EN r q = 1 ∨ (t.chip.g .QP_QCFG_EN r q = 0 ∧ t.chip.g .QP_STICKY_RSV_OVER r = 1 ∧
          65536 < t.chip.reserveSum r + t.chip.reserve r q))) ∧
      (c.isLocked .QP_QCFG r = false → c.g .QP_QCFG_EN r q = 1 → wbit data 0 = true → ∃ t, exec (.queueEnWrite fn r q data) s = .next t ∧
        others t ∧ t.chip.queue r q = x ∧ t.chip.g .QP_QCFG_EN r q = 1 ∧
        (5 ≤ wbits data 3 1 → t.chip.g .QP_STICKY_BAD_CFG r = 1 ∧ t.chip.rd .QP_QCFG r q = c.rd .QP_QCFG r q) ∧
        (wbits data 3 1 < 5 → t.chip.g .QP_QCFG_CKIND r q = wbits data 3 1 ∨
          (t.chip.g .QP_STICKY_RSV_OVER r = 1 ∧ t.chip.rd .QP_QCFG r q = c.rd .QP_QCFG r q))) ∧
      (c.isLocked .QP_QCFG r = false → c.g .QP_QCFG_EN r q = 1 → wbit data 0 = false → ∃ t, exec (.queueEnWrite fn r q data) s = .next t ∧
        others t ∧ emptied t ∧ t.chip.g .QP_QCFG_EN r q = 0))

/-- PATROL_SCRUB_PASS of a store leaves memory: a corrected error is counted, an uncorrectable one is counted, logged with VALID, and its location is poisoned (a link record breaks its queue), the end of a pass is counted. A region without an owner for 1 ms parks: its bytes and its units’ read 0, the rest stays; a parked one wakes on REGION_WAKE and its time starts anew; otherwise neither does anything. SELF_REFRESH_ENTER marks the stack or package. HUB_SRT_GO sets GO; when it is done VALUE is the draw of the partition’s seed and GO reads 0. MTR_GO takes the snapshot of a partition with SEQ, time and meters, advances SEQ and sets GO and BUSY, unless its path is reading that partition; MTR_UNATTR does so for the unattributed meters from windows that may ask. METER_READING_DONE puts the words and the MAC in the reader’s buffer, or in a reply. Cites R72, R100, R189, R190, R192, R203, R546, R549, R550, R551, R623. -/
def Obligations.StoresDrawsAndMeters : Prop :=
  (∀ (s : State) (st : Store) (a : Nat),
    let c := s.chip
    let f := storeInfo st
    let ce := f.1.reg
    let ad := f.2.1
    let i := f.2.2.1
    let j := f.2.2.2.1
    i < 1024 → j < 4096 →
    (∃ t, exec (.patrolScrubPass st a .clean) s = .next t ∧ s.chipOnly t ∧ t.chip.mem = c.mem ∧ c.regsBut t.chip [.PWR_STAT]) ∧
    (∃ t, exec (.patrolScrubPass st a .corrected) s = .next t ∧ s.chipOnly t ∧ t.chip.mem = c.mem ∧ c.regsBut t.chip [.PWR_STAT, ce] ∧
      t.chip.g ⟨ce, 31, 0⟩ i j = min (2 ^ 32 - 1) (c.g ⟨ce, 31, 0⟩ i j + 1)) ∧
    (∃ t, exec (.patrolScrubPass st a .passEnd) s = .next t ∧ s.chipOnly t ∧ t.chip.mem = c.mem ∧ c.regsBut t.chip [.PWR_STAT, ce] ∧
      t.chip.g ⟨ce, 63, 48⟩ i j = (c.g ⟨ce, 63, 48⟩ i j + 1) % 2 ^ 16) ∧
    (∃ t, exec (.patrolScrubPass st a .uncorrectable) s = .next t ∧ s.chipOnly t ∧ t.chip.mem = c.mem ∧
      t.chip.g ⟨ce, 47, 32⟩ i j = min (2 ^ 16 - 1) (c.g ⟨ce, 47, 32⟩ i j + 1) ∧ t.chip.g ⟨ad.reg, 63, 63⟩ i j = 1 ∧
      (∀ k, storeKey st (match st with | .near _ => a / 64 * 64 | .cellar _ => a / 64 * 64 | _ => a / 8 * 8) = some k → t.chip.bad k = true) ∧
      (∀ r q, r < 16 → q < 1024 → st = .link r q → t.chip.g .QP_STICKY_BROKEN r = 1))) ∧
  (∀ (s : State) (r : Nat), r < 16 →
    let c := s.chip
    let parked : Fld := ⟨.PWR_STAT, 32 + r, 32 + r⟩
    let own (y : Nat) : Prop := (regionKey r 0 ≤ y ∧ y < regionKey r 0 + 2 ^ 25) ∨
      ∃ u, u / 64 = r ∧ scratchKey u 0 ≤ y ∧ y < scratchKey u 0 + 2 ^ 19
    ((c.owner r ≠ none ∨ c.g parked 0 = 1 ∨ c.up < sget 0 c.freeAt r + 1000000) → exec (.regionPark r) s = .next s) ∧
    (c.owner r = none → c.g parked 0 = 0 → sget 0 c.freeAt r + 1000000 ≤ c.up → ∃ t, exec (.regionPark r) s = .next t ∧ s.chipOnly t ∧
      c.fieldsBut t.chip [(parked, 0, 0)] ∧ t.chip.g parked 0 = 1 ∧ (∀ y, own y → t.chip.byte y = 0) ∧ ∀ y, ¬ own y → t.chip.byte y = c.byte y) ∧
    (c.g parked 0 = 0 → exec (.regionWake r) s = .next s) ∧
    (c.g parked 0 = 1 → ∃ t, exec (.regionWake r) s = .next t ∧ s.effect t { c with freeAt := sset 0 c.freeAt r c.up } [(parked, 0, 0)] ∧
      t.chip.g parked 0 = 0)) ∧
  (∀ (s : State) (dev : Nat),
    (dev < 8 → ∃ t, exec (.selfRefreshEnter dev) s = .next t ∧ s.effect t s.chip [(⟨.PWR_STAT, 48 + dev, 48 + dev⟩, 0, 0)] ∧
      t.chip.g ⟨.PWR_STAT, 48 + dev, 48 + dev⟩ 0 = 1) ∧
    (8 ≤ dev → dev < 32 → ∃ t, exec (.selfRefreshEnter dev) s = .next t ∧ bit t.chip.cref (dev - 8) = true ∧ s.effect t { s.chip with cref := t.chip.cref } [])) ∧
  (∀ (s : State) (fn : Fn) (p : Nat), p < 16 →
    let c := s.chip
    let go : Fld := ⟨.HUB_SRT_STEP, 63, 63⟩
    (c.reaches fn .HUB_SRT_STEP p = false → exec (.hubSrtGo fn p) s = .next s) ∧
    (c.reaches fn .HUB_SRT_STEP p = true → ∃ t, exec (.hubSrtGo fn p) s = .next t ∧ s.effect t c [(go, p, 0)] ∧ t.chip.g go p = 1) ∧
    (c.g go p = 0 → exec (.hubSrtDone p) s = .next s) ∧
    (c.g go p = 1 → ∃ t, exec (.hubSrtDone p) s = .next t ∧ s.effect t c [(go, p, 0), (⟨.HUB_SRT_OUT, 63, 0⟩, p, 0)] ∧ t.chip.g go p = 0 ∧
      t.chip.g .HUB_SRT_OUT_VALUE p = draw (c.rd .HUB_SEED p).toNat (c.g .HUB_SRT_IDX_TENSOR p) (c.g .HUB_SRT_IDX_INDEX p)
        (c.g .HUB_SRT_STEP_STEP p) (c.g .HUB_SRT_STEP_DRAW p) % 2 ^ 32) ∧
    (let path := fnPath fn
     let taken (t : State) (m : Nat) : Prop := s.chipOnly t ∧ t.chip.mem = c.mem ∧ c.regsBut t.chip [.MTR_STAT, .MTR_SNAP] ∧
       t.chip.g .MTR_STAT_NEXT_SEQ m = (c.g .MTR_STAT_NEXT_SEQ m + 1) % 2 ^ 48 ∧
       ∃ j : MeterJob, t.chip.mjobs = c.mjobs ++ [j] ∧ j.path = path ∧ j.part = m ∧ j.words.length = 30 ∧
         (wordAt j.words 1).toNat = c.g .MTR_STAT_NEXT_SEQ m ∧ (wordAt j.words 2).toNat = c.now % 2 ^ 64 ∧
         ∀ i, i < 24 → (wordAt j.words (4 + i)).toNat = c.meterVal m i % 2 ^ 64
     ((c.reaches fn .MTR_SNAP p = false ∨ c.reading path p = true) → exec (.mtrGo fn p) s = .next s) ∧
     (c.reaches fn .MTR_SNAP p = true → c.reading path p = false → ∃ t, exec (.mtrGo fn p) s = .next t ∧ taken t p ∧
       t.chip.g .MTR_SNAP_GO p = 1 ∧ t.chip.g .MTR_STAT_BUSY p = 1) ∧
     ((pselOf fn = none ∨ c.reading path 16 = true) → exec (.mtrUnattr fn) s = .next s) ∧
     (∀ i, pselOf fn = some i → c.reading path 16 = false → ∃ t, exec (.mtrUnattr fn) s = .next t ∧ taken t 16 ∧
       t.chip.g .MTR_SNAP_UNATTR (c.g .HUB_PSEL_PART i) = 1))) ∧
  (∀ (s : State) (path m : Nat),
    let c := s.chip
    (c.reading path m = false → exec (.meterReadingDone path m) s = .next s) ∧
    (∀ j, c.mjobs.find? (fun j => j.path == path && j.part == m) = some j → j.win < 1024 →
      ∃ t, exec (.meterReadingDone path m) s = .next t ∧ s.chipOnly t ∧ t.chip.mem = c.mem ∧
        t.chip.mjobs = c.mjobs.filter (fun k => !(k.path == path && k.part == m)) ∧
        (path ≠ 2 → ∀ i, i < 32 → t.chip.rd .MTR_RD j.win i = wordAt (j.words ++ c.readingMac m j.words) i) ∧
        (path = 2 → t.chip.out = c.out ++ [.mctp (0 :: bytesOf (j.words ++ c.readingMac m j.words))])))

/-- Sequencer cl below 128 with COLL at its stream position, of one of the eight operations. Behind the barrier of an abandon it waits. With the Carousel disabled, without a mapping that makes this module a member of the group, or with its CID open or 32 open, it ends, is counted, marks BAD_DESC and opens nothing. With every name, range and limit in order: a member that may not be sent to ends it DENIED and counts a partition violation; a COUNT of 0 (but for NORM) ends it at once, counted; otherwise it is outstanding and a collective of its CID, command and identity is open. (Poison in its header, when it is a PREDUCE, does not matter here.) Cites R463, R464, R490, R493, R510. -/
def Obligations.CollectivesIssued : Prop :=
  ∀ (s : State) (cl : Nat) (w : List Word), cl < 128 → s.chip.offers cl w → isOp 0x20 w = true →
    let c := s.chip
    let p := c.partOfCl cl
    let id := (c.seq cl).nextId
    ∀ i ∈ [(0, Instr.collRs cl), (1, .collAg cl), (2, .collAr cl), (3, .collA2a cl), (4, .collNorm cl), (5, .collPreduce cl),
      (6, .collSend cl), (7, .collRecv cl)], clOp w = i.1 →
      let member := (c.curMap p).bind (fun m => (m.members (clGid w)).bind (fun l => (m.index (clGid w)).map (fun me => (m, l, me))))
      let ended (t : State) : Prop := s.chipOnly t ∧ t.chip.mem = c.mem ∧ t.chip.cars = c.cars ∧ (t.chip.seq cl).nextId = id + 1 ∧
        t.chip.g .CLU_SEQ_CNT_COUNT cl = (c.g .CLU_SEQ_CNT_COUNT cl + 1) % 2 ^ 64 ∧
        t.chip.g .CAR_CNT_COUNT p 0 = (c.g .CAR_CNT_COUNT p 0 + 1) % 2 ^ 64
      ((c.sealOf p).barrier = true → exec i.2 s = .next s) ∧
      ((c.sealOf p).barrier = false →
        (c.g .CAR_CTL_EN p = 0 ∨ member = none → ∃ t, exec i.2 s = .next t ∧ ended t ∧ t.chip.g .CAR_STICKY_BAD_DESC p = 1) ∧
        (∀ m l me, c.g .CAR_CTL_EN p = 1 → member = some (m, l, me) →
          let ts := m.tensors.filter (fun t => t.tensor == clTensor w)
          let e : Option TensorEnt := match ts.find? TensorEnt.reg with | some t => some t | none => ts.head?
          let tcount := wbits (wordAt (if i.1 = 5 then (c.tierWords p (clSrc w) 8).1 else []) 2) 16 10
          let rs := c.collRanges p w l.length me tcount (clWiden w)
          let mods := l.map m.idOf
          (i.1 < 3 → ∃ t, e = some t ∧ clIdx0 w + clCount w ≤ t.lrows * t.lcols) →
          (i.1 = 3 → ∃ t ∈ m.places, t.pt = clPt w) → (4 < i.1 → clPeer w < l.length) → (clAlg w = 2 → l.length ≤ 256) →
          (clWiden w = true → e.any TensorEnt.mxgather = true ∧ (clSfmt w = 2 ∨ clSfmt w = 3)) →
          (∀ r ∈ rs.1, c.tierHas p r.1 r.2 = true) → (∀ r ∈ rs.2, c.collWritable p r.1 r.2 = true) →
          ((c.coll p (clCid w) ≠ none ∨ 32 ≤ (c.car p).colls.length) →
            ∃ t, exec i.2 s = .next t ∧ ended t ∧ t.chip.g .CAR_STICKY_BAD_DESC p = 1) ∧
          (c.coll p (clCid w) = none → (c.car p).colls.length < 32 →
            ((∃ d ∈ mods, d ≠ mods.getD me 0 ∧ c.permits p d = false) → ∃ t, exec i.2 s = .next t ∧ ended t ∧
              t.chip.g .CLU_SEQ_STICKY_DENIED cl = 1 ∧
              (c.homeFaults p → t.chip.g .PART_CNT_XPART_COUNT p = (c.g .PART_CNT_XPART_COUNT p + 1) % 2 ^ 64)) ∧
            ((∀ d ∈ mods, d = mods.getD me 0 ∨ c.permits p d = true) →
              (i.1 ≠ 4 → clCount w = 0 → ∃ t, exec i.2 s = .next t ∧ ended t) ∧
              (i.1 = 4 ∨ clCount w ≠ 0 → ∃ t, exec i.2 s = .next t ∧ s.chipOnly t ∧ Chip.issued cl w c t.chip ∧
                ∃ x ∈ (t.chip.car p).colls, x.cid = clCid w ∧ x.cl = cl ∧ x.id = id ∧ x.words = w ∧ x.me = me ∧ x.mods = mods)))))

/-- A COLL packet of each kind that passes the checks of a job packet, for partition p. With another step or attempt it is counted and marked stale; with another layout epoch it is counted, marked, and the module must vote to abandon; with a failed PCRC only DATA is used; of a CID not open it is held, or counted and marked HOLD_FULL. For an open collective x: a GRANT adds its segments to those that may be sent; a DIGEST or the counts of an A2A are kept with their sender; DONE settles its shard; RESEND queues this member’s contribution to the shard again; DATA against no grant is dropped, and granted DATA of a RECV of 64 bytes stands at DST. Then everything that can go on does. A NORM result of a tensor enters the norm table; the gate norm is written and every open NORM may end. Cites R361, R466, R471, R472, R473, R476, R477, R479, R480, R483. -/
def Obligations.CollectivePackets : Prop :=
  ∀ (s : State) (k : Pkt) (e : Chip) (p : Nat) (ok : Bool), s.chip.chold = [] → kType k = 0x30 → s.chip.receive k = (e, some (p, ok)) → p < 16 →
    let c := s.chip
    let e := e.dlv p k
    let rows := [(1, Instr.collDataRecv k), (2, .collGrantRecv k), (3, .collDigestRecv k), (4, .collCountsRecv k), (5, .collNormRecv k),
      (6, .collDoneRecv k), (7, .collResendRecv k)]
    let goes (i : Instr) (d : Chip) : Prop := ∃ t, exec i s = .next t ∧ s.chipOnly t ∧ t.chip.car p = d.car p ∧ t.chip.mem = d.mem
    let fits := cpStep k = c.step p % 2 ^ 16 ∧ cpAtt k = c.g .SEAL_STAT_ATT p
    (∀ i ∈ rows, (cpKind k ≠ i.1 → 1 ≤ cpKind k → cpKind k ≤ 7 → exec i.2 s = .next s) ∧ (cpKind k = i.1 →
      (¬ fits → ∃ t, exec i.2 s = .next t ∧ s.chipOnly t ∧ t.chip.cars = c.cars ∧ t.chip.mem = c.mem ∧ t.chip.g .CAR_STICKY_STALE p = 1 ∧
        t.chip.g .CAR_CNT_COUNT p 4 = (c.g .CAR_CNT_COUNT p 4 + 1) % 2 ^ 64) ∧
      (fits → kLepoch k ≠ c.lepoch p → ∃ t, exec i.2 s = .next t ∧ s.chipOnly t ∧ t.chip.cars = c.cars ∧ t.chip.mem = c.mem ∧
        t.chip.g .CAR_STICKY_LEPOCH p = 1 ∧ t.chip.g .CAR_CNT_COUNT p 3 = (c.g .CAR_CNT_COUNT p 3 + 1) % 2 ^ 64 ∧ (t.chip.stepS p).vote = true) ∧
      (fits → kLepoch k = c.lepoch p → ok = false → i.1 ≠ 1 → ∃ t, exec i.2 s = .next t ∧ s.chipOnly t ∧ t.chip.cars = c.cars ∧ t.chip.mem = c.mem) ∧
      (fits → kLepoch k = c.lepoch p → ok = true → i.1 ≠ 5 → c.coll p (cpCid k) = none →
        ((c.car p).hold.length < 64 → ∃ t, exec i.2 s = .next t ∧ s.chipOnly t ∧ t.chip.mem = c.mem ∧
          t.chip.car p = { c.car p with hold := (c.car p).hold ++ [(c.up, k)] }) ∧
        (64 ≤ (c.car p).hold.length → ∃ t, exec i.2 s = .next t ∧ s.chipOnly t ∧ t.chip.mem = c.mem ∧ t.chip.cars = c.cars ∧
          t.chip.g .CAR_STICKY_HOLD_FULL p = 1 ∧ t.chip.g .CAR_CNT_COUNT p 4 = (c.g .CAR_CNT_COUNT p 4 + 1) % 2 ^ 64)))) ∧
    (fits → kLepoch k = c.lepoch p → ok = true → ∀ x, c.coll p (cpCid k) = some x →
      let y := { x with seen := c.up }
      let into (z : CollS) : Chip := (e.setColl p z).collStep p x.cid
      let v := cpValue k
      (cpKind k = 2 → goes (.collGrantRecv k)
        (into { y with gin := x.gin ++ (rangeFrom (bits v 31 0) (bits v 47 32)).map (fun i => (cpMember k, cpShard k, i)) })) ∧
      (cpKind k = 3 → x.reduces = true → (x.op = 5 ∨ x.alg ≠ 1) → goes (.collDigestRecv k)
        (into { y with digs := x.digs ++ [(cpMember k, cpShard k, bits v 31 0, bits v 63 32)] })) ∧
      (cpKind k = 4 → let n := (c.placeOf p x).ents.length
        goes (.collCountsRecv k) (into { y with cnts := x.cnts ++
          [{ frm := cpMember k, shard := 0, seg := cpSeg k, codes := elemsOf 1 (min 1024 (n - 1024 * cpSeg k)) (pktBytes k) }] })) ∧
      (cpKind k = 6 → x.op ≠ 1 → v % 32 ≠ 28 → v % 32 ≠ 30 → goes (.collDoneRecv k) (into { y with dones := x.dones ++ [cpShard k] })) ∧
      (cpKind k = 6 → v % 32 = 28 ∨ v % 32 = 30 → goes (.collDoneRecv k) (into { y with status := v % 32, broken := true })) ∧
      (cpKind k = 7 → x.reduces = true →
        let own := segsFor (cpMember k) (cpShard k) x.cfmt (c.ownElems p x (cpShard k) 0 (x.sLen (cpShard k))) 0 (fun _ => [])
        goes (.collResendRecv k) (into { y with out := x.out ++ own })) ∧
      (cpKind k = 1 → (cpMember k, cpShard k, cpSeg k) ∉ x.gout → goes (.collDataRecv k) (e.collStep p x.cid)) ∧
      (∀ key, cpKind k = 1 → x.op = 7 → x.first = none → clCount x.words = 1 → cpSeg k = 0 → (cpMember k, cpShard k, 0) ∈ x.gout →
        k.words.length = 8 → k.poison.length = 1 → clDst x.words % 64 = 0 → bits (clDst x.words) 63 60 = 2 → c.tierKey p (clDst x.words) = some key →
        c.fenceHit p (clDst x.words) 64 = none → ∃ t, exec (.collDataRecv k) s = .next t ∧ s.chipOnly t ∧
          t.chip.bytes key 64 = bytesOf k.words ∧ (∀ a, a < key ∨ key + 64 ≤ a → t.chip.byte a = c.byte a) ∧
          ∃ z, t.chip.coll p x.cid = some z ∧ z.elems = x.elems + 1)) ∧
    (fits → kLepoch k = c.lepoch p → ok = true → cpKind k = 5 →
      (bits (cpSeg k) 23 0 = 0 → c.isCoord p = false → ∃ t, exec (.collNormRecv k) s = .next t ∧ s.chipOnly t ∧ t.chip.mem = c.mem ∧
        t.chip.g .HUB_GATE_NORM_NORM p = cpValue k ∧
        (t.chip.car p).colls = (c.car p).colls.map (fun x => if x.op = 4 then { x with dones := [0] } else x)) ∧
      (bits (cpSeg k) 23 0 ≠ 0 → cpMember k = 0 → (sget [] c.pnorms p).length < 4096 → ∃ t, exec (.collNormRecv k) s = .next t ∧ s.chipOnly t ∧
        t.chip.mem = c.mem ∧ t.chip.cars = c.cars ∧ t.chip.pnorm p (bits (cpSeg k) 23 0) = some (cpValue k)))

/-- Partition p below 16. Without an open collective of the CID none of the four does anything. GRANT_ISSUE, with room in the hold store and the collective whole, gives every segment that it expects and may grant (outside the window of R471), and nothing when hold is full. DIGEST_ARBITRATION_END without an arbitration or before every contribution has come again does nothing; else the shard is tested, and without poison TST_LOG names CID and an outcome of 1, 2 or 3, 1 exactly when the second sum equals the first. COLL_END ends a collective that is over, COLL_TIMEOUT one that has waited TMO with LOST marked; either is removed, and, while some enrolled sequencer waits at no boundary, counted, with its command outstanding no longer; otherwise nothing happens. HOLD_EXPIRY discards the packets of the CID held for TMO, counted as stale. Cites R465, R466, R468, R471, R473, R483, R490, R492. -/
def Obligations.CollectivesRun : Prop :=
  ∀ (s : State) (p cid : Nat), p < 16 →
    let c := s.chip
    let a := c.car p
    let old (h : Nat × Pkt) : Bool := cpCid h.2 == cid && decide (h.1 + c.carTmo p ≤ c.up)
    (∃ t, exec (.holdExpiry p cid) s = .next t ∧ s.chipOnly t ∧ t.chip.mem = c.mem ∧ t.chip.car p = { a with hold := a.hold.filter (fun h => !old h) } ∧
      t.chip.g .CAR_CNT_COUNT p 4 = (c.g .CAR_CNT_COUNT p 4 + (a.hold.filter old).length) % 2 ^ 64 ∧
      ((∃ h ∈ a.hold, old h = true) → t.chip.g .CAR_STICKY_STALE p = 1)) ∧
    (c.coll p cid = none → ∀ i ∈ [Instr.grantIssue p cid, .digestArbitrationEnd p cid, .collTimeout p cid, .collEnd p cid], exec i s = .next s) ∧
    (∀ x, c.coll p cid = some x →
      let w := (x.first.getD (0, [])).1
      let here := (List.range x.g).all (fun m => (List.range (x.winSegs (w, true))).all (x.here (w, true) m))
      let removed (t : State) : Prop := s.chipOnly t ∧ (∀ y ∈ (t.chip.car p).colls, y.cid ≠ cid) ∧
        ((∃ cl ∈ c.enrolled p, (c.seq cl).agree.isBound = false) → x.cl < 128 →
          t.chip.g .CAR_CNT_COUNT p 0 = (c.g .CAR_CNT_COUNT p 0 + 1) % 2 ^ 64 ∧ ∀ o ∈ (t.chip.seq x.cl).outst, o.id = x.id → o.isOpen = false)
      (64 ≤ a.hold.length ∨ x.broken = true → exec (.grantIssue p cid) s = .next s) ∧
      (a.hold.length < 64 → x.broken = false → x.window = none →
        let l := (c.expected p x).filter (fun e => !x.given.contains e && x.mayGrant e)
        ∃ t, exec (.grantIssue p cid) s = .next t ∧ s.chipOnly t ∧ t.chip.mem = c.mem ∧
          t.chip.coll p cid = some { x with given := x.given ++ l, gout := x.gout ++ l }) ∧
      (x.first = none ∨ here = false → exec (.digestArbitrationEnd p cid) s = .next s) ∧
      (∀ sh sums, x.first = some (sh, sums) → here = true → cid < 2 ^ 16 → sh < 2 ^ 13 →
        let fin := sumAll x.cfmt ((x.order (c.ownHeader p x)).map (c.contribution p x (sh, true)))
        ∃ t z, exec (.digestArbitrationEnd p cid) s = .next t ∧ s.chipOnly t ∧ t.chip.coll p cid = some z ∧ sh ∈ z.tested ∧
          (fin.any Prod.snd = true → (t.chip.stepS p).poison = true) ∧
          (fin.any Prod.snd = false → t.chip.g .TST_LOG_CID p = cid ∧
            (t.chip.g .TST_LOG_OUTCOME p = 1 ∨ t.chip.g .TST_LOG_OUTCOME p = 2 ∨ t.chip.g .TST_LOG_OUTCOME p = 3) ∧
            (t.chip.g .TST_LOG_OUTCOME p = 1 ↔ sumCodes fin = sums))) ∧
      (c.collOver p x = false → exec (.collEnd p cid) s = .next s) ∧
      (c.collOver p x = true → exec (.collTimeout p cid) s = .next s ∧ ∃ t, exec (.collEnd p cid) s = .next t ∧ removed t) ∧
      (c.collOver p x = false → (c.up < x.seen + c.carTmo p ∨ (x.op = 4 ∧ x.started = false)) → exec (.collTimeout p cid) s = .next s) ∧
      (c.collOver p x = false → x.seen + c.carTmo p ≤ c.up → (x.op = 4 → x.started = true) →
        ∃ t, exec (.collTimeout p cid) s = .next t ∧ removed t ∧ t.chip.g .CAR_STICKY_LOST p = 1))

/-- Partition p below 16. MAP_LOAD and MAP_CLEAR act only through a window that reaches the registers, with no load under way and CLEAR as each asks. The current slot is refused with STATUS 10. Otherwise a load makes the slot invalid, shows BUSY (15) and GO, and remembers its address; a clear makes it invalid with STATUS 0. A load that is done shows STATUS 0 with the slot valid and holding the image, or the code, entry and tensor of the first check that fails with MAP_FAIL, a class C tensor without grant recorded as refused; GO reads 0 either way. CAR_CTL’s EN is cleared, or set when the start slot is valid, else MAP_FAIL; a running partition keeps it. CAR_SEGS stores at least 2 unless the sum over the partitions would pass 2,048 (SEG_OVER); in a running partition the write is a lock violation. Cites R450, R455, R456, R488, R489, R491. -/
def Obligations.MappingSlots : Prop :=
  ∀ (s : State) (p : Nat), p < 16 →
    let c := s.chip
    let m := c.mapS p
    let slot := c.g .CAR_MAPLOAD_SLOT p
    let shown (t : State) (code go : Nat) : Prop := s.chipOnly t ∧ t.chip.noRegs = { c with maps := t.chip.maps }.noRegs ∧
      c.regsBut t.chip [.CAR_MAPLOAD, .CAR_MAPSLOT, .CAR_STICKY, .PART_STAT, .PART_VIOL] ∧
      t.chip.g .CAR_MAPLOAD_STATUS p = code ∧ t.chip.g .CAR_MAPLOAD_GO p = go
    (∀ fn, (c.mapReady fn p = false ∨ c.g .CAR_MAPLOAD_CLEAR p = 1 → exec (.mapLoad fn p) s = .next s) ∧
      (c.mapReady fn p = false ∨ c.g .CAR_MAPLOAD_CLEAR p = 0 → exec (.mapClear fn p) s = .next s) ∧
      (c.mapReady fn p = true →
        (m.cur = some slot → ∀ i ∈ [(0, Instr.mapLoad fn p), (1, .mapClear fn p)], c.g .CAR_MAPLOAD_CLEAR p = i.1 →
          ∃ t, exec i.2 s = .next t ∧ shown t 10 0 ∧ t.chip.maps = c.maps) ∧
        (m.cur ≠ some slot → c.g .CAR_MAPLOAD_CLEAR p = 0 → ∃ t, exec (.mapLoad fn p) s = .next t ∧ shown t 15 1 ∧
          t.chip.rd .CAR_MAPSLOT p slot = 0 ∧ t.chip.mapS p = { imgs := m.imgs.filter (fun x => x.1 != slot), cur := m.cur, loading := some (slot, c.g .CAR_MAPADDR_ADDR p * 4096) }) ∧
        (m.cur ≠ some slot → c.g .CAR_MAPLOAD_CLEAR p = 1 → ∃ t, exec (.mapClear fn p) s = .next t ∧ shown t 0 0 ∧
          t.chip.rd .CAR_MAPSLOT p slot = 0 ∧ t.chip.mapS p = { m with imgs := m.imgs.filter (fun x => x.1 != slot) }))) ∧
    (m.loading = none → exec (.mapLoadDone p) s = .next s) ∧
    (∀ k addr, m.loading = some (k, addr) → k < 16 →
      (∀ im, c.checkImage p addr = .ok im → ∃ t, exec (.mapLoadDone p) s = .next t ∧ shown t 0 0 ∧
        t.chip.mapS p = { m with loading := none, imgs := sortBy Prod.fst ((k, im) :: m.imgs) } ∧ t.chip.rd .CAR_MAPSLOT p k = Word.ofNat (addr + 1)) ∧
      (∀ code ent tid, c.checkImage p addr = .error (code, ent, tid) → 0 < code → code < 15 → code ≠ 10 → ∃ t, exec (.mapLoadDone p) s = .next t ∧
        shown t code 0 ∧ t.chip.mapS p = { m with loading := none } ∧ t.chip.g .CAR_MAPLOAD_ENTRY p = ent % 2 ^ 24 ∧
        t.chip.g .CAR_MAPLOAD_TID p = tid % 2 ^ 24 ∧ t.chip.g .CAR_STICKY_MAP_FAIL p = 1 ∧
        (code = 6 → t.chip.g .PART_STAT_REFUSED p = 1 ∧ t.chip.g .PART_VIOL_REF_TID p = tid % 2 ^ 24 ∧ t.chip.g .PART_VIOL_REF_CAUSE p = 1))) ∧
    (∀ fn data, (c.reaches fn .CAR_CTL p = false → exec (.carEnable fn p data) s = .next s) ∧
      (c.reaches fn .CAR_CTL p = true → ∃ t, exec (.carEnable fn p data) s = .next t ∧ s.chipOnly t ∧ t.chip.noRegs = c.noRegs ∧
        c.regsBut t.chip [.CAR_CTL, .CAR_STICKY, .PART_STAT, .PART_VIOL] ∧
        (c.isLocked .CAR_CTL p = true → t.chip.g .CAR_CTL_EN p = c.g .CAR_CTL_EN p ∧ t.chip.g .CAR_CTL_START_SLOT p = c.g .CAR_CTL_START_SLOT p) ∧
        (c.isLocked .CAR_CTL p = false → t.chip.g .CAR_CTL_START_SLOT p = wbits data 7 4 ∧ t.chip.g .CAR_CTL_START_LEPOCH p = wbits data 31 16 ∧
          (wbit data 0 = false → t.chip.g .CAR_CTL_EN p = 0) ∧
          (wbit data 0 = true → m.img (wbits data 7 4) ≠ none → t.chip.g .CAR_CTL_EN p = 1) ∧
          (wbit data 0 = true → m.img (wbits data 7 4) = none → t.chip.g .CAR_CTL_EN p = c.g .CAR_CTL_EN p ∧ t.chip.g .CAR_STICKY_MAP_FAIL p = 1))) ∧
      (c.reaches fn .CAR_SEGS p = false → exec (.carSegsWrite fn p data) s = .next s) ∧
      (c.reaches fn .CAR_SEGS p = true →
        let v := max 2 (wbits data 11 0)
        let sum := (((List.range 16).filter (· != p)).map (fun q => c.g .CAR_SEGS_SEGS q)).sum
        (c.isLocked .CAR_SEGS p = true → ∃ t, exec (.carSegsWrite fn p data) s = .next t ∧ t.chip.g .PART_STAT_LOCK_VIOL p = 1 ∧
          s.effect t c [(.PART_STAT_LOCK_VIOL, p, 0), (.PART_VIOL_LOCK_OFF, p, 0)]) ∧
        (c.isLocked .CAR_SEGS p = false → sum + v ≤ 2048 → ∃ t, exec (.carSegsWrite fn p data) s = .next t ∧
          s.effect t c [(.CAR_SEGS_SEGS, p, 0)] ∧ t.chip.g .CAR_SEGS_SEGS p = v) ∧
        (c.isLocked .CAR_SEGS p = false → 2048 < sum + v → ∃ t, exec (.carSegsWrite fn p data) s = .next t ∧
          s.effect t c [(.CAR_STICKY_SEG_OVER, p, 0)] ∧ t.chip.g .CAR_STICKY_SEG_OVER p = 1)))

/-- Partition p below 16. Another window’s command does nothing. START and CLAIM whose conditions fail set CMD_REF with the first failing CAUSE. START makes the partition RUNNING (3), from YIELDED with its mapping kept and its sequencers halted by STOP running again, else with the start slot current. STOP of a running partition makes it STOPPING (4) with STOP set and every sequencer not halted yet halted with cause 1; of a stopping one it sets STOP; else nothing. Once nothing of it is under way it is STOPPED (1) or, without STOP, YIELDED (5), with STOP and YREQ clear; before, nothing happens. CLAIM before MEM_READY waits; else the regions of the definition that are not owned yet are owned, their memories read 0, no other byte changes, and the state is CLEARING (2); when that is done CLEARED is set, CLAIM reads 0 and the state is the one before. Cites R531, R533, R534, R535, R541, R545. -/
def Obligations.PartitionsCommanded : Prop :=
  ∀ (s : State) (p : Nat), p < 16 →
    let c := s.chip
    let st := c.g .PART_STAT_STATE p
    let idle := (c.partS p).fencing = false ∧ c.drained p = true
    (∀ fn, (c.partCmd fn p = false → exec (.partStart fn p) s = .next s ∧ exec (.partStop fn p) s = .next s ∧ exec (.partClaim fn p) s = .next s) ∧
      (c.partCmd fn p = true →
        (c.startCause p ≠ 0 → ∃ t, exec (.partStart fn p) s = .next t ∧ s.effect t c [(.PART_STAT_CMD_REF, p, 0), (.PART_STAT_CAUSE, p, 0)] ∧
          t.chip.g .PART_STAT_CMD_REF p = 1 ∧ t.chip.g .PART_STAT_CAUSE p = c.startCause p) ∧
        (c.startCause p = 0 → ∃ t, exec (.partStart fn p) s = .next t ∧ t.pending = s.pending ∧ t.chip.mem = c.mem ∧ t.chip.g .PART_STAT_STATE p = 3 ∧
          (st = 5 → t.pwr = s.pwr ∧ t.chip.maps = c.maps ∧ ∀ cl ∈ c.enrolled p, (c.seq cl).halt = 1 → (t.chip.seq cl).halt = 0) ∧
          (st = 6 → t.pwr = s.pwr ∧ (t.chip.mapS p).cur = some (c.g .CAR_CTL_START_SLOT p) ∧
            t.chip.g .FAB_JOB_LEPOCH p = c.g .CAR_CTL_START_LEPOCH p)) ∧
        (st = 3 → ∃ t, exec (.partStop fn p) s = .next t ∧ s.chipOnly t ∧ t.chip.mem = c.mem ∧ t.chip.g .PART_STAT_STATE p = 4 ∧
          t.chip.g .PART_CTL_STOP p = 1 ∧ (∀ cl ∈ c.clustersOf p, (c.seq cl).halt = 0 → (t.chip.seq cl).halt = 1) ∧
          ∀ cl, cl ∉ c.clustersOf p ∨ (c.seq cl).halt ≠ 0 → t.chip.seq cl = c.seq cl) ∧
        (st = 4 → ∃ t, exec (.partStop fn p) s = .next t ∧ s.effect t c [(.PART_CTL_STOP, p, 0)] ∧ t.chip.g .PART_CTL_STOP p = 1) ∧
        (st ≠ 3 → st ≠ 4 → exec (.partStop fn p) s = .next s) ∧
        (c.g .PART_CTL_CLAIM p = 1 → exec (.partClaim fn p) s = .next s) ∧
        (c.g .PART_CTL_CLAIM p = 0 → c.g .BOOT_STAT_MEM_READY 0 = 0 → ∃ t, exec (.partClaim fn p) s = .next t ∧
          s.effect t { c with parts := t.chip.parts } [(.PART_CTL_CLAIM, p, 0)] ∧ t.chip.g .PART_CTL_CLAIM p = 1 ∧
          t.chip.partS p = { c.partS p with waiting := true }) ∧
        (c.g .PART_CTL_CLAIM p = 0 → c.g .BOOT_STAT_MEM_READY 0 = 1 →
          (c.claimCause p ≠ 0 → ∃ t, exec (.partClaim fn p) s = .next t ∧
            s.effect t { c with parts := t.chip.parts } [(.PART_CTL_CLAIM, p, 0), (.PART_STAT_CMD_REF, p, 0), (.PART_STAT_CAUSE, p, 0)] ∧
            t.chip.g .PART_CTL_CLAIM p = 0 ∧ t.chip.g .PART_STAT_CMD_REF p = 1 ∧ t.chip.g .PART_STAT_CAUSE p = c.claimCause p) ∧
          (c.claimCause p = 0 → ∃ t, exec (.partClaim fn p) s = .next t ∧ t.pending = s.pending ∧ t.chip.g .PART_STAT_STATE p = 2 ∧
            t.chip.g .PART_CTL_CLAIM p = 1 ∧
            let own (r y : Nat) : Prop := (regionKey r 0 ≤ y ∧ y < regionKey r 0 + 2 ^ 25) ∨
              ∃ u, u / 64 = r ∧ scratchKey u 0 ≤ y ∧ y < scratchKey u 0 + 2 ^ 19
            (∀ r ∈ c.toClear p, t.chip.owner r = some p ∧ (∀ q, q < 1024 → t.chip.queue r q = {}) ∧ ∀ y, own r y → t.chip.byte y = 0) ∧
            (∀ y, (∀ r ∈ c.toClear p, ¬ own r y) → t.chip.byte y = c.byte y))))) ∧
    (¬ (st = 4 ∧ c.g .PART_CTL_STOP p = 1 ∧ idle) → exec (.stopComplete p) s = .next s) ∧
    (¬ (st = 4 ∧ c.g .PART_CTL_STOP p = 0 ∧ idle) → exec (.yieldComplete p) s = .next s) ∧
    (∀ i ∈ [(1, Instr.stopComplete p, 1), (0, .yieldComplete p, 5)], st = 4 → c.g .PART_CTL_STOP p = i.1 → idle →
      ∃ t, exec i.2.1 s = .next t ∧ s.chipOnly t ∧ t.chip.mem = c.mem ∧ t.chip.g .PART_STAT_STATE p = i.2.2 ∧
        t.chip.g .PART_CTL_STOP p = 0 ∧ t.chip.g .PART_STAT_YREQ p = 0) ∧
    (st ≠ 2 → exec (.claimClearDone p) s = .next s) ∧
    (st = 2 → ∃ t, exec (.claimClearDone p) s = .next t ∧ s.chipOnly t ∧ t.chip.mem = c.mem ∧ t.chip.g .PART_STAT_CLEARED p = 1 ∧
      t.chip.g .PART_CTL_CLAIM p = 0 ∧ t.chip.g .PART_STAT_STATE p = (c.partS p).prior % 8 ∧ (t.chip.partS p).clearing = [] ∧
      ∀ r ∈ c.defRegions p, t.chip.g ⟨.PWR_STAT, 32 + r, 32 + r⟩ 0 = 0)

/-- Partition p below 16. QUANTUM_END of a running partition whose QEND has come sets YREQ, else does nothing; a write of QEND from a window that may make it stores it, and sets YREQ at once when it has come already. At GEND a RUNNING or STOPPING partition not being fenced is: its enrolled sequencers halt FENCED (5), its collectives end, and the fence is under way; before GEND or with QEND 0 nothing happens. The fence is done, state FENCED (6), once the void pass is through and no command is outstanding; before, nothing happens. A grant written from another function, or a valid one beyond CGRANT_MAX, is recorded as refused and changes no grant; while the partition runs it is a lock violation; otherwise entry i holds tensor and VALID as written. Cites R250, R517, R536, R537, R539, R542, R543. -/
def Obligations.QuantaFencesGrants : Prop :=
  ∀ (s : State) (p : Nat), p < 16 →
    let c := s.chip
    let st := c.g .PART_STAT_STATE p
    let q := c.g .PART_QEND_QEND p
    let kept (t : State) (l : List Reg) : Prop := s.chipOnly t ∧ t.chip.noRegs = { c with out := t.chip.out }.noRegs ∧ c.regsBut t.chip l
    (st ≠ 3 ∨ q = 0 ∨ c.now < q → exec (.quantumEnd p) s = .next s) ∧
    (st = 3 → q ≠ 0 → q ≤ c.now → ∃ t, exec (.quantumEnd p) s = .next t ∧ kept t [.PART_STAT, .HOSTIF_CAUSE, .MSIX_PBA] ∧ t.chip.g .PART_STAT_YREQ p = 1 ∧
      t.chip.g .PART_STAT_STATE p = 3) ∧
    (∀ fn data, (fnPriv fn = false ∨ c.reaches fn .PART_QEND p = false → exec (.qendWrite fn p data) s = .next s) ∧
      (fnPriv fn = true → c.reaches fn .PART_QEND p = true → ∃ t, exec (.qendWrite fn p data) s = .next t ∧
        kept t [.PART_QEND, .PART_STAT, .HOSTIF_CAUSE, .MSIX_PBA] ∧ t.chip.g .PART_QEND_QEND p = data.toNat ∧
        (st = 3 → data ≠ 0 → data.toNat ≤ c.now → t.chip.g .PART_STAT_YREQ p = 1) ∧
        (st ≠ 3 ∨ data = 0 ∨ c.now < data.toNat → s.effect t c [(.PART_QEND_QEND, p, 0)]))) ∧
    ((q = 0 ∨ (st ≠ 3 ∧ st ≠ 4) ∨ c.now < q + 1000000 * c.g .PART_QCFG_GRACE p ∨ (c.partS p).fencing = true) → exec (.graceFence p) s = .next s) ∧
    (q ≠ 0 → (st = 3 ∨ st = 4) → q + 1000000 * c.g .PART_QCFG_GRACE p ≤ c.now → (c.partS p).fencing = false →
      ∃ t, exec (.graceFence p) s = .next t ∧ s.chipOnly t ∧ (t.chip.partS p).fencing = true ∧ (t.chip.car p).colls = [] ∧
        ∀ cl ∈ c.enrolled p, (t.chip.seq cl).halt = 5) ∧
    (let quiet := (c.partS p).fencing = true ∧ (c.upd p).void = [] ∧ c.allQuiet p = true
     (¬ quiet → exec (.fenceDone p) s = .next s) ∧
     (quiet → ∃ t, exec (.fenceDone p) s = .next t ∧ s.chipOnly t ∧ t.chip.mem = c.mem ∧ t.chip.g .PART_STAT_STATE p = 6 ∧
       t.chip.g .PART_CTL_STOP p = 0 ∧ t.chip.g .PART_STAT_YREQ p = 0 ∧ t.chip.partS p = { c.partS p with fencing := false })) ∧
    (∀ fn i data, (c.reaches fn .PART_CGRANT p = false ∨ 64 ≤ i → exec (.cgrantWrite fn p i data) s = .next s) ∧
      (c.reaches fn .PART_CGRANT p = true → i < 64 →
        (fn ≠ .rm ∨ (wbit data 24 = true ∧ c.g .PART_TBL_CGRANT_MAX p ≤ i) → ∃ t, exec (.cgrantWrite fn p i data) s = .next t ∧
          s.effect t c [(.PART_STAT_REFUSED, p, 0), (.PART_VIOL_REF_TID, p, 0), (.PART_VIOL_REF_CAUSE, p, 0)] ∧
          t.chip.g .PART_STAT_REFUSED p = 1 ∧ t.chip.g .PART_VIOL_REF_TID p = wbits data 23 0 ∧ t.chip.g .PART_VIOL_REF_CAUSE p = 2) ∧
        (fn = .rm → (wbit data 24 = true → i < c.g .PART_TBL_CGRANT_MAX p) →
          (c.runs p = true → ∃ t, exec (.cgrantWrite fn p i data) s = .next t ∧ t.chip.g .PART_STAT_LOCK_VIOL p = 1 ∧
            s.effect t c [(.PART_STAT_LOCK_VIOL, p, 0), (.PART_VIOL_LOCK_OFF, p, 0)]) ∧
          (c.runs p = false → ∃ t, exec (.cgrantWrite fn p i data) s = .next t ∧ s.effect t c [(⟨.PART_CGRANT, 63, 0⟩, p, i)] ∧
            t.chip.g .PART_CGRANT_TENSOR p i = wbits data 23 0 ∧ t.chip.g .PART_CGRANT_VALID p i = b2n (wbit data 24)))))

/-- A virtual function’s command does nothing. A command in the wrong state answers RESULT 11 and goes to IDLE, while a change is being applied it goes on. REGISTER of a descriptor that fails a check answers its code and leaves keys and tables; one that passes shows its digest, keeps the role and waits for verification (1), or as ENROLL installs its keys at once. APPROVE leads from PENDING (2) back to verification with the second signature. CHG_VERIFY_DONE leads to PENDING for a first signature of the role registered, to APPROVED (3) for a second of the other role, and else answers BAD_SIG (4). APPLY of a change that fails a check answers its code, else the change is being applied (4); done, SEQ is one higher, the state is IDLE with RESULT 0, the record is in flash, and a change of one field item has set the DA bits it names (a KEYS change its keys). CANCEL clears buffer and stage unless a change is being applied. (States and codes of wrong-state commands: log entry 9.) Cites R554, R555, R556, R557, R558, R563. -/
def Obligations.ChangeProtocol : Prop :=
  ∀ (s : State),
    let c := s.chip
    let st := c.g .CHG_STAT_STATE 0
    let kept (t : State) : Prop := s.chipOnly t ∧ t.chip.mem = c.mem ∧ t.chip.prot = c.prot ∧ t.chip.flash = c.flash ∧ t.chip.g .CHG_SEQ_SEQ 0 = c.g .CHG_SEQ_SEQ 0 ∧
      c.regsBut t.chip [.CHG_CMD, .CHG_STAT, .CHG_DIGEST, .HOSTIF_CAUSE, .MSIX_PBA]
    let ends (t : State) (res : Nat) : Prop := kept t ∧ t.chip.g .CHG_STAT_STATE 0 = 0 ∧ t.chip.g .CHG_STAT_RESULT 0 = res
    let saved (t : State) : Prop := t.chip.g .CHG_SEQ_SEQ 0 = (c.g .CHG_SEQ_SEQ 0 + 1) % 2 ^ 64 ∧ t.chip.g .CHG_STAT_STATE 0 = 0 ∧
      t.chip.g .CHG_STAT_RESULT 0 = 0 ∧ t.chip.flash.prot = some t.chip.prot ∧ t.chip.prot.seq = t.chip.g .CHG_SEQ_SEQ 0 ∧ t.pending = s.pending
    let keyed (t : State) : Prop := t.chip.prot.keys = some (c.chgBytes 64 96, c.chgBytes 160 96) ∧
      ∀ p ∈ c.chgParts, t.chip.g .MTR_EPOCH_EPOCH p = (c.g .MTR_EPOCH_EPOCH p + 1) % 2 ^ 32
    (∀ port v role, ∀ i ∈ [Instr.chgRegister (.vf port v) role, .chgApprove (.vf port v), .chgApply (.vf port v), .chgCancel (.vf port v)],
      exec i s = .next s) ∧
    (∀ fn role, chgFn fn = true →
      (∀ i ∈ [(0, Instr.chgRegister fn role), (2, .chgApprove fn), (3, .chgApply fn)], st ≠ i.1 →
        (st = 4 → ∃ t, exec i.2 s = .next t ∧ kept t ∧ t.chip.g .CHG_STAT_STATE 0 = 4 ∧ t.chip.g .CHG_STAT_RESULT 0 = 11) ∧
        (st ≠ 4 → ∃ t, exec i.2 s = .next t ∧ ends t 11)) ∧
      (st = 0 → c.registerResult fn ≠ 0 → ∃ t, exec (.chgRegister fn role) s = .next t ∧ ends t (c.registerResult fn)) ∧
      (st = 0 → c.registerResult fn = 0 →
        (c.chgKind ≠ 3 → ∃ t, exec (.chgRegister fn role) s = .next t ∧ kept t ∧ t.chip.g .CHG_STAT_STATE 0 = 1 ∧
          t.chip.g .CHG_STAT_FIRST 0 = role % 2 ∧ t.chip.chgSecond = false ∧
          ∀ i, i < 4 → t.chip.rd .CHG_DIGEST 0 i = wordAt (wordsOf 4 c.chgHash) i) ∧
        (c.chgKind = 3 → ∃ t, exec (.chgRegister fn role) s = .next t ∧ s.chipOnly t ∧ saved t ∧ keyed t ∧ t.chip.mem = c.mem)) ∧
      (st = 2 → ∃ t, exec (.chgApprove fn) s = .next t ∧ kept t ∧ t.chip.g .CHG_STAT_STATE 0 = 1 ∧ t.chip.chgSecond = true) ∧
      (st = 3 → c.applyResult ≠ 0 → ∃ t, exec (.chgApply fn) s = .next t ∧ ends t c.applyResult) ∧
      (st = 3 → c.applyResult = 0 → ∃ t, exec (.chgApply fn) s = .next t ∧ s.effect t c [(.CHG_STAT_STATE, 0, 0)] ∧ t.chip.g .CHG_STAT_STATE 0 = 4) ∧
      (st = 4 → exec (.chgCancel fn) s = .next s) ∧
      (st ≠ 4 → ∃ t, exec (.chgCancel fn) s = .next t ∧ s.chipOnly t ∧ t.chip.mem = c.mem ∧ t.chip.prot = c.prot ∧ t.chip.flash = c.flash ∧
        c.regsBut t.chip [.CHG_BUF, .CHG_KEYSTAGE, .CHG_STAT, .HOSTIF_CAUSE, .MSIX_PBA] ∧ t.chip.g .CHG_STAT_STATE 0 = 0 ∧
        t.chip.g .CHG_STAT_RESULT 0 = c.g .CHG_STAT_RESULT 0 ∧
        (∀ i, i < 512 → t.chip.rd .CHG_BUF 0 i = 0) ∧ ∀ i, i < 4 → t.chip.rd .CHG_KEYSTAGE 0 i = 0)) ∧
    (st ≠ 1 → exec .chgVerifyDone s = .next s) ∧
    (st = 1 →
      let first := c.g .CHG_STAT_FIRST 0
      let ok := if c.chgSecond then c.chgSigned 3968 (1 - first) else c.chgSigned 3840 first
      (ok = true → ∃ t, exec .chgVerifyDone s = .next t ∧ s.effect t c [(.CHG_STAT_STATE, 0, 0)] ∧
        t.chip.g .CHG_STAT_STATE 0 = if c.chgSecond then 3 else 2) ∧
      (ok = false → ∃ t, exec .chgVerifyDone s = .next t ∧ ends t 4)) ∧
    (st ≠ 4 → exec .chgApplyDone s = .next s) ∧
    (st = 4 → c.chgKind = 2 → ∃ t, exec .chgApplyDone s = .next t ∧ s.chipOnly t ∧ saved t ∧ keyed t ∧ t.chip.mem = c.mem) ∧
    (st = 4 → c.chgKind = 1 → ∃ t, exec .chgApplyDone s = .next t ∧ saved t ∧ t.chip.prot.keys = c.prot.keys ∧
      (∀ p ∈ c.chgAffects, t.chip.g .MTR_EPOCH_EPOCH p = (c.g .MTR_EPOCH_EPOCH p + 1) % 2 ^ 32) ∧
      (∀ i r j, c.chgItems = [i] → i.ity = 1 → i.part < 16 → daAt i.off = some (r, j) →
        t.chip.rd r i.part j = (c.rd r i.part j &&& ~~~r.daMask) ||| i.val))

/-- Ring q below 32 of function f below 34. A doorbell stores TAIL, or marks DB_ERR when it is N or above. A descriptor starts only as the ring’s next; fetched from outside the window it halts with 4, failing a check with its code, denied with 10, blocked with 6 and a vote to abandon, with too little data with 7 and a count; a packet, or one that would fail, waits for the earlier ones. One that passes is added with its length, address and data. Complete, a 64-byte WRITE stands in memory, a 64-byte READ is sent to the host, HEAD moves by one; a copy to a region no longer owned halts with 10, a packet whose words wait is not complete. SKIP passes the descriptor that halted the ring. RESET puts HEAD at TAIL and discards the descriptors; copies it cuts off write only their ranges, in a number of granules that the spec leaves open. BASE is stored with LOGN at most 12, or the write is dropped with BAD_CFG when the target is not the function’s. A reset ring, D3hot and an empty ring start nothing. Cites R571, R572, R573, R574, R575, R581, R584. -/
def Obligations.InboundRings : Prop :=
  ∀ (s : State) (f q : Nat), f < 34 → q < 32 →
    let c := s.chip
    let x := c.inRing f q
    let head := c.g .HOSTIF_HIQ_STAT_HEAD f q
    let stopped (t : State) (st : Nat) : Prop := s.chipOnly t ∧ t.chip.g .HOSTIF_HIQ_STAT_HALTED f q = 1 ∧
      t.chip.g .HOSTIF_HIQ_STAT_STATUS f q = st ∧ t.chip.g .HOSTIF_HIQ_STAT_HEAD f q = head ∧ t.chip.inRing f q = { x with jobs := [] }
    let halted (t : State) (st : Nat) : Prop := stopped t st ∧ t.chip.mem = c.mem
    let cut (t : State) : Prop := ((∀ j ∈ x.jobs, j.kind = 0) → t.chip.mem = c.mem ∧ t.chip.out = c.out) ∧
      ∀ j key, x.jobs = [j] → j.len = 64 → bits j.taddr 63 60 < 4 → c.tierKey j.part j.taddr = some key →
        ∀ y, (j.kind ≠ 1 ∨ y < key ∨ key + 64 ≤ y) → t.chip.byte y = c.byte y
    let past (t : State) : Prop := s.chipOnly t ∧ t.chip.g .HOSTIF_HIQ_STAT_HEAD f q = (head + 1) % c.hiqSize f q % 2 ^ 16 ∧
      t.chip.inRing f q = { x with jobs := x.jobs.drop 1 }
    (∀ fn v, c.ringFn fn .HOSTIF_HIQ_DB q = some f →
      (c.hiqSize f q ≤ v % 2 ^ 16 → ∃ t, exec (.hiqDoorbell fn q v) s = .next t ∧ s.effect t c [(.HOSTIF_HIQ_STAT_DB_ERR, f, q)] ∧
        t.chip.g .HOSTIF_HIQ_STAT_DB_ERR f q = 1) ∧
      (v % 2 ^ 16 < c.hiqSize f q → ∃ t, exec (.hiqDoorbell fn q v) s = .next t ∧ s.effect t { c with inRings := t.chip.inRings } [] ∧
        t.chip.inRing f q = { x with tail := v % 2 ^ 16 })) ∧
    (∀ d data poison, ∀ i ∈ [Instr.hiqPacket f q d data poison, .hiqWrite f q d data poison, .hiqRead f q d],
      (i = .hiqPacket f q d data poison → hdType d ≠ 1 ∧ hdType d ≠ 2) → (i = .hiqWrite f q d data poison → hdType d = 1) → (i = .hiqRead f q d → hdType d = 2) →
      let n := hdLen d
      let fetched := fun k => c.hostRange f (4096 * c.g .HOSTIF_HIQ_BASE_ADDR f q + 32 * k) 32 ≠ none
      (c.hiqNext f q = none → exec i s = .next s) ∧
      (∀ k, c.hiqNext f q = some k →
        (x.jobs ≠ [] → ¬ fetched k ∨ hdType d = 0 ∨ c.hdCheck f q d ≠ .run → exec i s = .next s) ∧
        (x.jobs = [] → ¬ fetched k → ∃ t, exec i s = .next t ∧ halted t 4) ∧
        (x.jobs = [] → fetched k →
          (∀ st, c.hdCheck f q d = .fail st → ∃ t, exec i s = .next t ∧ halted t (st % 16)) ∧
          (c.hdCheck f q d = .denied → ∃ t, exec i s = .next t ∧ halted t 10) ∧
          (∀ a, c.hdCheck f q d = .blocked a → ∃ t, exec i s = .next t ∧ halted t 6 ∧ (t.chip.stepS ((c.ringPart f q).getD 0)).vote = true) ∧
          (c.hdCheck f q d = .run → hdType d ≠ 2 → data.length < (if hdType d = 0 then 8 * n else n) → hdType d ≤ 1 →
            ∃ t, exec i s = .next t ∧ halted t 7 ∧ t.chip.g .HOSTIF_CNT_COUNT f 3 = (c.g .HOSTIF_CNT_COUNT f 3 + 1) % 2 ^ 64) ∧
          (c.hdCheck f q d = .run → hdType d = 1 ∨ hdType d = 2 → (hdType d = 1 → n ≤ data.length) → ∃ t j, exec i s = .next t ∧
            s.effect t { c with inRings := t.chip.inRings, meters := t.chip.meters, energy := t.chip.energy } [(.HOSTIF_HIQ_STAT_POISON_IN, f, q)] ∧
            t.chip.inRing f q = { x with jobs := [j] } ∧ j.kind = hdType d ∧ j.len = n ∧ j.taddr = (wordAt d 2).toNat ∧
            j.haddr = (wordAt d 1).toNat ∧ j.notify = wbit (wordAt d 0) 4 ∧ j.part = (c.ringPart f q).getD 0 ∧
            j.data = (if hdType d = 1 then data else [])) ∧
          (c.hdCheck f q d = .run → hdType d = 0 → 8 * n ≤ data.length →
            let r := (c.offerAll (c.hiqTarget f q).1 (c.hiqTarget f q).2 (ringProducer f q) (ringWords n (wordsOf n data) poison))
            ∃ t, exec i s = .next t ∧ s.chipOnly t ∧ t.chip.mem = c.mem ∧
              t.chip.queue (c.hiqTarget f q).1 (c.hiqTarget f q).2 = r.1.queue (c.hiqTarget f q).1 (c.hiqTarget f q).2 ∧
              (r.2 = false → ∃ j, (t.chip.inRing f q).jobs = [j] ∧ j.kind = 0) ∧ (r.2 = true → halted t 8))))) ∧
    (x.jobs = [] ∨ f ∈ c.d3 → exec (.hiqDescComplete f q) s = .next s) ∧
    (∀ j js, x.jobs = j :: js → f ∉ c.d3 →
      (j.kind = 0 → (∃ w ∈ (c.queue (c.hiqTarget f q).1 (c.hiqTarget f q).2).waiting, w.1 = ringProducer f q) → exec (.hiqDescComplete f q) s = .next s) ∧
      (j.kind = 0 → (∀ w ∈ (c.queue (c.hiqTarget f q).1 (c.hiqTarget f q).2).waiting, w.1 ≠ ringProducer f q) →
        ∃ t, exec (.hiqDescComplete f q) s = .next t ∧ past t ∧ t.chip.mem = c.mem) ∧
      (j.kind ≠ 0 → 0 < j.len → bits j.taddr 63 60 = 1 → c.owns j.part (bits j.taddr 35 32) = false →
        ∃ t, exec (.hiqDescComplete f q) s = .next t ∧ stopped t 10 ∧ ((∀ i ∈ js, i.kind = 0) → t.chip.mem = c.mem)) ∧
      (∀ key, j.len = 64 → bits j.taddr 63 60 < 4 → (bits j.taddr 63 60 = 1 → c.owns j.part (bits j.taddr 35 32) = true) → c.tierKey j.part j.taddr = some key →
        (j.kind = 1 → j.data.length = 64 → ∃ t, exec (.hiqDescComplete f q) s = .next t ∧ past t ∧ t.chip.bytes key 64 = j.data ∧
          ∀ y, y < key ∨ key + 64 ≤ y → t.chip.byte y = c.byte y) ∧
        (j.kind = 2 → (c.badWords key).any id = false → ∃ t l, exec (.hiqDescComplete f q) s = .next t ∧ past t ∧ t.chip.mem = c.mem ∧
          t.chip.out = c.out ++ [.hostWrite (fnPort f) ((c.hostRange f j.haddr 64).getD 0) (c.bytes key 64)] ++ l))) ∧
    (∀ fn, c.ringFn fn .HOSTIF_HIQ_CTL q = some f →
      (c.g .HOSTIF_HIQ_STAT_HALTED f q = 0 → exec (.hiqSkip fn q) s = .next s) ∧
      (c.g .HOSTIF_HIQ_STAT_HALTED f q = 1 → ∃ t, exec (.hiqSkip fn q) s = .next t ∧
        s.effect t c [(.HOSTIF_HIQ_STAT_HEAD, f, q), (.HOSTIF_HIQ_STAT_HALTED, f, q)] ∧ t.chip.g .HOSTIF_HIQ_STAT_HALTED f q = 0 ∧
        t.chip.g .HOSTIF_HIQ_STAT_HEAD f q = (head + 1) % c.hiqSize f q % 2 ^ 16) ∧
      (∃ t, exec (.hiqReset fn q) s = .next t ∧ s.chipOnly t ∧ cut t ∧ c.regsBut t.chip [.HOSTIF_HIQ_STAT, .PWR_STAT] ∧
        ((∀ j ∈ x.jobs, j.kind = 0) → c.regsBut t.chip [.HOSTIF_HIQ_STAT]) ∧
        t.chip.g .HOSTIF_HIQ_STAT_HEAD f q = x.tail % 2 ^ 16 ∧ t.chip.g .HOSTIF_HIQ_STAT_HALTED f q = 0 ∧ t.chip.inRing f q = { x with jobs := [] })) ∧
    (∀ fn data, c.ringFn fn .HOSTIF_HIQ_BASE q = some f →
      (wbit data 0 = true → c.ringReach f (c.hiqTarget f q).1 = false → ∃ t, exec (.hiqBaseWrite fn q data) s = .next t ∧ s.chipOnly t ∧
        c.regsBut t.chip [.HOSTIF_CAUSE, .MSIX_PBA] ∧ bit (t.chip.g .HOSTIF_CAUSE_CAUSE f) 7 = true) ∧
      (wbit data 0 = false ∨ c.ringReach f (c.hiqTarget f q).1 = true → ∃ t, exec (.hiqBaseWrite fn q data) s = .next t ∧ s.chipOnly t ∧
        (wbit data 0 = true → t.chip.mem = c.mem ∧ t.chip.inRing f q = x) ∧ (wbit data 0 = false → cut t ∧ t.chip.inRing f q = { x with jobs := [] }) ∧
        t.chip.g .HOSTIF_HIQ_BASE_EN f q = b2n (wbit data 0) ∧ t.chip.g .HOSTIF_HIQ_BASE_LOGN f q = min 12 (wbits data 4 1) ∧
        t.chip.g .HOSTIF_HIQ_BASE_ADDR f q = wbits data 63 12))

/-- Ring q below 32 of function f below 34. A doorbell stores HEAD and clears FULL, or marks DB_ERR when it is N or above. A packet is written only while the ring is enabled, the function in D0 and the drained queue, of CKIND 4 in a region that its function sees, not empty: without free slots FULL is marked; else its words and then its header go to the host, it leaves its queue, TAIL moves by its slots, PHASE toggles at a wrap, FULL clears. The moderation timer raises the vector TIME after the first packet not yet announced, and does nothing otherwise. BASE is stored with LOGN at most 9, starting at TAIL 0 with PHASE 1 when it enables; enabling a queue that is not lawful is dropped with BAD_CFG. Unmasking a vector sends what is pending; an unmasked one stays. Cites R576, R577, R578, R579, R585. -/
def Obligations.OutboundRings : Prop :=
  ∀ (s : State) (f q : Nat), f < 34 → q < ringCount f →
    let c := s.chip
    let x := c.outRing f q
    let src := c.hoqSource f q
    let tail := c.g .HOSTIF_HOQ_STAT_TAIL f q
    let n := c.hoqSize f q
    let on := c.g .HOSTIF_HOQ_BASE_EN f q = 1 ∧ f ∉ c.d3
    let lawful := c.ringReach f src.1 = true ∧ c.g .QP_QCFG_CKIND src.1 src.2 = 4
    (∀ fn v, c.ringFn fn .HOSTIF_HOQ_DB q = some f →
      (n ≤ v % 2 ^ 16 → ∃ t, exec (.hoqDoorbell fn q v) s = .next t ∧ s.effect t c [(.HOSTIF_HOQ_STAT_DB_ERR, f, q)] ∧
        t.chip.g .HOSTIF_HOQ_STAT_DB_ERR f q = 1) ∧
      (v % 2 ^ 16 < n → ∃ t, exec (.hoqDoorbell fn q v) s = .next t ∧ s.effect t { c with outRings := t.chip.outRings } [(.HOSTIF_HOQ_STAT_FULL, f, q)] ∧
        t.chip.g .HOSTIF_HOQ_STAT_FULL f q = 0 ∧ t.chip.outRing f q = { x with head := v % 2 ^ 16 })) ∧
    (¬ on ∨ c.sees f src.1 = false ∨ c.g .QP_QCFG_CKIND src.1 src.2 ≠ 4 ∨ ((c.queue src.1 src.2).linked = [] ∧ (c.queue src.1 src.2).broken = false) → exec (.hoqPacketWrite f q) s = .next s) ∧
    (∀ k ks base, on → c.sees f src.1 = true → c.g .QP_QCFG_CKIND src.1 src.2 = 4 → (c.queue src.1 src.2).broken = false → (c.queue src.1 src.2).linked = k :: ks →
      let ws := if k.null then [] else k.words
      let sl := cdiv (ws.length + 1) 8
      (c.hoqRoom f q < sl → ∃ t, exec (.hoqPacketWrite f q) s = .next t ∧ s.effect t c [(.HOSTIF_HOQ_STAT_FULL, f, q)] ∧ t.chip.g .HOSTIF_HOQ_STAT_FULL f q = 1) ∧
      (sl ≤ c.hoqRoom f q → c.hostRange f (4096 * c.g .HOSTIF_HOQ_BASE_ADDR f q) (64 * n) = some base →
        ∃ t l m h, exec (.hoqPacketWrite f q) s = .next t ∧ s.chipOnly t ∧ t.chip.mem = c.mem ∧
          t.chip.out = c.out ++ l ++ [.hostWrite (fnPort f) (base + 64 * tail) (leBytes 8 h)] ++ m ∧ l.length = ws.length ∧
          bits h 0 0 = c.g .HOSTIF_HOQ_STAT_PHASE f q ∧ bits h 17 8 = ws.length % 2 ^ 10 ∧ bits h 47 32 = x.pseq % 2 ^ 16 ∧
          (t.chip.queue src.1 src.2).linked = ks ∧ (t.chip.outRing f q).pseq = x.pseq + 1 ∧ (t.chip.outRing f q).head = x.head ∧
          t.chip.g .HOSTIF_HOQ_STAT_FULL f q = 0 ∧ t.chip.g .HOSTIF_HOQ_STAT_TAIL f q = (tail + sl) % n % 2 ^ 16 ∧
          t.chip.g .HOSTIF_HOQ_STAT_PHASE f q = if n ≤ tail + sl then 1 - c.g .HOSTIF_HOQ_STAT_PHASE f q else c.g .HOSTIF_HOQ_STAT_PHASE f q)) ∧
    (let t1 := c.g .HOSTIF_HOQ_MOD_TIME f q
     let due := c.g .HOSTIF_HOQ_BASE_EN f q = 1 ∧ x.cnt ≠ 0 ∧ t1 ≠ 0 ∧ x.first + 1000 * t1 ≤ c.up
     let vec := min (c.g .HOSTIF_HOQ_SRC_VEC f q) (vecCount f - 1)
     (¬ due → exec (.hoqModerationTimer f q) s = .next s) ∧
     (due → ∃ t, exec (.hoqModerationTimer f q) s = .next t ∧ s.chipOnly t ∧ t.chip.outRing f q = { x with cnt := 0 } ∧ c.regsBut t.chip [.MSIX_PBA] ∧
       (c.g .MSIX_DATA_MASK f vec = 0 → f ∉ c.d3 → t.chip.out = c.out ++ [.msix f vec]) ∧
       (c.g .MSIX_DATA_MASK f vec = 1 ∨ f ∈ c.d3 → t.chip.out = c.out ∧ bit (t.chip.rd .MSIX_PBA f).toNat vec = true))) ∧
    (∀ fn data, c.ringFn fn .HOSTIF_HOQ_BASE q = some f →
      (wbit data 0 = true → ¬ lawful → ∃ t, exec (.hoqBaseWrite fn q data) s = .next t ∧ s.chipOnly t ∧
        c.regsBut t.chip [.HOSTIF_CAUSE, .MSIX_PBA] ∧ bit (t.chip.g .HOSTIF_CAUSE_CAUSE f) 7 = true) ∧
      (wbit data 0 = false ∨ lawful → ∃ t, exec (.hoqBaseWrite fn q data) s = .next t ∧ s.chipOnly t ∧ t.chip.queues = c.queues ∧
        c.regsBut t.chip [.HOSTIF_HOQ_BASE, .HOSTIF_HOQ_STAT] ∧ t.chip.g .HOSTIF_HOQ_BASE_EN f q = b2n (wbit data 0) ∧
        t.chip.g .HOSTIF_HOQ_BASE_LOGN f q = min 9 (wbits data 4 1) ∧ t.chip.g .HOSTIF_HOQ_BASE_ADDR f q = wbits data 63 12 ∧
        (wbit data 0 = true → c.g .HOSTIF_HOQ_BASE_EN f q = 0 → t.chip.g .HOSTIF_HOQ_STAT_TAIL f q = 0 ∧ t.chip.g .HOSTIF_HOQ_STAT_PHASE f q = 1 ∧
          (t.chip.outRing f q).head = x.head))) ∧
    (∀ v, v < vecCount f → (c.g .MSIX_DATA_MASK f v = 0 → exec (.msixUnmask f v) s = .next s) ∧
      (c.g .MSIX_DATA_MASK f v = 1 → ∃ t, exec (.msixUnmask f v) s = .next t ∧ s.chipOnly t ∧ c.regsBut t.chip [.MSIX_DATA, .MSIX_PBA] ∧
        t.chip.g .MSIX_DATA_MASK f v = 0 ∧ t.chip.g .MSIX_DATA_DATA f v = c.g .MSIX_DATA_DATA f v ∧
        (bit (c.rd .MSIX_PBA f).toNat v = true → f ∉ c.d3 → t.chip.out = c.out ++ [.msix f v] ∧ bit (t.chip.rd .MSIX_PBA f).toNat v = false) ∧
        (bit (c.rd .MSIX_PBA f).toNat v = false ∨ f ∈ c.d3 → t.chip.out = c.out)))

/-- A write of a window register is stored, at its upper half that half alone, and dropped with BAD_CFG while a ring of its function is enabled or its partition runs; a write of another register by this row does nothing. VF_FLR returns the function’s registers to their reset values, empties its rings and ends D3hot, and leaves memory where it cuts off no ring copy and no host transfer; PF_FLR does so for the physical function of the port and its sixteen virtual functions, with the host windows of the partitions bound to the port; a port reset also forgets PERST# and HOST_READY of the port. Ports and functions that do not exist do nothing. In D3hot a function is listed once; back in D0 it is listed no longer and no unmasked vector of it is pending. PERST# deasserted is listed once; HOST_READY needs it and a Ringmaster that has started. Cites R569, R570, R583, R586, R600, R606. -/
def Obligations.FunctionsReset : Prop :=
  (∀ (s : State) (fn : Fn) (off : Nat) (data : Word),
    let c := s.chip
    (c.locate fn off = none → exec (.windowWrite fn off data) s = .next s) ∧
    (∀ l, c.locate fn off = some l → l.inst < 1024 → l.idx < 1024 →
      let f := if winRack l.reg then c.portOf l.idx else l.inst
      let part := if winRack l.reg then some l.idx else vfPart l.inst
      let win := winBase l.reg || winRack l.reg || l.reg == .HOSTIF_WINSZ
      let used := c.ringOn f || (match part with | some p => c.runs p | none => false)
      let half := l.byte = 0 ∨ l.byte = 4
      let w := if l.byte = 4 then wset (c.rd l.reg l.inst l.idx) 63 32 (wbits data 31 0) else data
      (win = false ∨ ¬ half → exec (.windowWrite fn off data) s = .next s) ∧
      (win = true → half → used = true → ∃ t, exec (.windowWrite fn off data) s = .next t ∧ s.chipOnly t ∧ c.regsBut t.chip [.HOSTIF_CAUSE, .MSIX_PBA] ∧
        bit (t.chip.g .HOSTIF_CAUSE_CAUSE f) 7 = true) ∧
      (win = true → half → used = false → ∃ t, exec (.windowWrite fn off data) s = .next t ∧ s.effect t c [(⟨l.reg, 63, 0⟩, l.inst, l.idx)] ∧
        t.chip.rd l.reg l.inst l.idx = if winBase l.reg then wset w 11 1 0 else wset w 63 45 0))) ∧
  (∀ (s : State) (port : Nat),
    let c := s.chip
    let fresh (t : State) (f : Nat) : Prop := (∀ r ∈ flrRegs, ∀ j, j < 4096 → t.chip.rd r f j = regDefault (regKey r f j)) ∧ f ∉ t.chip.d3 ∧
      ∀ q, q < 64 → t.chip.inRing f q = {} ∧ t.chip.outRing f q = {}
    let idle (f : Nat) : Prop := (∀ q, q < 64 → ∀ j ∈ (c.inRing f q).jobs, j.kind = 0) ∧
      ∀ p r, p < 16 → c.fnOf p = f → ∀ y ∈ sget [] c.xfers r, c.partOfCl y.cl = p → y.accepted = false
    let all (t : State) : Prop := s.chipOnly t ∧ (idle port → (∀ v, v < 16 → idle (2 + 16 * port + v)) → t.chip.mem = c.mem) ∧ fresh t port ∧ (∀ v, v < 16 → fresh t (2 + 16 * port + v)) ∧
      ∀ p, p < 16 → c.portOf p = port → t.chip.g .HOSTIF_RWIN_EN 0 p = 0
    (2 ≤ port → ∀ i ∈ [Instr.pfFlr port, .portReset port, .perstDeassert port, .hostReadySet port], exec i s = .next s) ∧
    (∀ v, 2 ≤ port ∨ v < 1 ∨ 16 < v → exec (.vfFlr port v) s = .next s) ∧
    (∀ v, port < 2 → 1 ≤ v → v ≤ 16 → ∃ t, exec (.vfFlr port v) s = .next t ∧ s.chipOnly t ∧ fresh t (2 + 16 * port + (v - 1)) ∧
      (∀ r, r ≠ .PWR_STAT → ∀ i j, i < 2048 → j < 4096 → i ≠ 2 + 16 * port + (v - 1) → t.chip.rd r i j = c.rd r i j) ∧
      (idle (2 + 16 * port + (v - 1)) → t.chip.mem = c.mem ∧ ∀ j, j < 4096 → t.chip.rd .PWR_STAT 0 j = c.rd .PWR_STAT 0 j)) ∧
    (port < 2 → (∃ t, exec (.pfFlr port) s = .next t ∧ all t) ∧
      (∃ t, exec (.portReset port) s = .next t ∧ all t ∧ port ∉ t.chip.boot.perst ∧ port ∉ t.chip.boot.ready) ∧
      (port ∈ c.boot.perst → exec (.perstDeassert port) s = .next s) ∧
      (port ∉ c.boot.perst → ∃ t, exec (.perstDeassert port) s = .next t ∧
        s.effect t { c with boot := { c.boot with perst := c.boot.perst ++ [port] } } []) ∧
      (port ∉ c.boot.perst ∨ c.boot.rmAt = none ∨ port ∈ c.boot.ready → exec (.hostReadySet port) s = .next s) ∧
      (port ∈ c.boot.perst → c.boot.rmAt ≠ none → port ∉ c.boot.ready → ∃ t, exec (.hostReadySet port) s = .next t ∧
        s.effect t { c with boot := { c.boot with ready := c.boot.ready ++ [port] } } []))) ∧
  (∀ (s : State) (f : Nat),
    let c := s.chip
    (34 ≤ f ∨ f ∈ c.d3 → exec (.d3hotEnter f) s = .next s) ∧
    (f < 34 → f ∉ c.d3 → ∃ t, exec (.d3hotEnter f) s = .next t ∧ s.effect t { c with d3 := c.d3 ++ [f] } []) ∧
    (f ∉ c.d3 → exec (.d0Return f) s = .next s) ∧
    (f ∈ c.d3 → f < 34 → ∃ t, exec (.d0Return f) s = .next t ∧ s.chipOnly t ∧ t.chip.mem = c.mem ∧ c.regsBut t.chip [.MSIX_PBA] ∧ f ∉ t.chip.d3 ∧
      ∀ v, v < vecCount f → c.g .MSIX_DATA_MASK f v = 0 → bit (t.chip.rd .MSIX_PBA f).toNat v = false))

/-- COLD_START acts on a supplied module in its boot ROM, else nothing: the protection record is held, PROT_LOST shows its loss, BOOTS rises in the boot block and in every EPOCH; an image that fails a check leaves RECOVERY; else the preferred slot, if it passes, runs with its attempt counted and FALLBACK 0, the other slot runs with FALLBACK 1 and LASTFAIL of the preferred one, or neither: RECOVERY. MEM_READY after a cold start leaves every DRAM byte 0, after a warm one as it is; MEM_READY reads 1, STAGE is READY, no claim waits. ALIVE from Ringmaster clears the running slot’s count; COMMIT after ALIVE raises MIN_SVN, never lowers it, and revokes key 0 with REVOKE0. SETPREF stores SEL and the preferred slot. A lockstep mismatch stops its pair, is counted, and hands over to the other pair if that runs. The wait for an ID that has run out leaves NO_ID. Where a condition does not hold nothing changes. Cites R553, R554, R590, R594, R595, R596, R597, R598, R599, R601, R612, R614. -/
def Obligations.StartUp : Prop :=
  ∀ s : State,
    let c := s.chip
    let b := c.bootCtl
    let boot4 : List Spot := [(.BOOT_STAT_PREF, 0, 0), (.BOOT_STAT_ATTEMPT_A, 0, 0), (.BOOT_STAT_ATTEMPT_B, 0, 0), (.BOOT_VER_MIN_SVN, 0, 0)]
    let ctl (t : State) (b' : BootCtl) (x : BootS) (l : List Spot) : Prop := s.effect t { c with flash := { c.flash with boot := some b' }, boot := x } (boot4 ++ l)
    (¬ ((s.pwr.supply = .precharge ∨ s.pwr.supply = .on) ∧ c.g .BOOT_STAT_STAGE 0 = 0) → exec .coldStart s = .next s) ∧
    (s.pwr.supply = .precharge ∨ s.pwr.supply = .on → c.g .BOOT_STAT_STAGE 0 = 0 → ∃ t, exec .coldStart s = .next t ∧ s.chipOnly t ∧
      t.chip.prot = c.flash.prot.getD {} ∧ t.chip.g .BOOT_STAT_PROT_LOST 0 = b2n c.flash.prot.isNone ∧ t.chip.bootCtl.boots = (b.boots + 1) % 2 ^ 32 ∧
      (∀ p, p < 17 → t.chip.g .MTR_EPOCH_BOOTS p = (b.boots + 1) % 2 ^ 32) ∧
      (c.imageCheck.1 ≠ 0 ∨ (c.slotCheck b.pref ≠ 0 ∧ c.slotCheck (1 - b.pref) ≠ 0) → t.chip.g .BOOT_STAT_STAGE 0 = 5 ∧ t.chip.boot.rmAt = none) ∧
      (c.imageCheck.1 = 0 → c.slotCheck b.pref = 0 → t.chip.g .BOOT_STAT_STAGE 0 = 3 ∧ t.chip.g .BOOT_STAT_SLOT 0 = b.pref % 2 ∧
        t.chip.g .BOOT_STAT_FALLBACK 0 = 0 ∧ t.chip.boot.rmAt = some c.up ∧ t.chip.bootCtl.att b.pref = b.att b.pref + 1) ∧
      (c.imageCheck.1 = 0 → c.slotCheck b.pref ≠ 0 → c.slotCheck (1 - b.pref) = 0 → t.chip.g .BOOT_STAT_STAGE 0 = 3 ∧
        t.chip.g .BOOT_STAT_SLOT 0 = 1 - b.pref ∧ t.chip.g .BOOT_STAT_FALLBACK 0 = 1 ∧ t.chip.g .BOOT_STAT_LASTFAIL 0 = c.slotCheck b.pref ∧
        t.chip.boot.rmAt = some c.up)) ∧
    (let st := c.g .BOOT_STAT_STAGE 0
     (¬ (st = 3 ∨ st = 6) ∨ s.pwr.supply ≠ .on → exec .memReady s = .next s) ∧
     (st = 3 ∨ st = 6 → s.pwr.supply = .on → ∃ t, exec .memReady s = .next t ∧ t.pending = s.pending ∧
       (∀ p, p < 16 → (t.chip.partS p).waiting = false) ∧ t.chip.g .BOOT_STAT_MEM_READY 0 = 1 ∧ t.chip.g .BOOT_STAT_STAGE 0 = 4 ∧
       (∀ k, 2 * 2 ^ 60 ≤ k → t.chip.byte k = if st = 3 then 0 else c.byte k) ∧
       ((∀ p, p < 16 → (c.partS p).waiting = false) → s.effect t { c with mem := t.chip.mem, poison := t.chip.poison }
         [(.BOOT_STAT_MEM_READY, 0, 0), (.BOOT_STAT_STAGE, 0, 0)] ∧ ∀ k, k < 2 * 2 ^ 60 → t.chip.byte k = c.byte k))) ∧
    (∀ fn, (fn ≠ .rm ∨ c.boot.rmAt = none → exec (.bootAlive fn) s = .next s) ∧
      (fn = .rm → c.boot.rmAt ≠ none → ∃ t, exec (.bootAlive fn) s = .next t ∧
        ctl t (b.setAtt (c.g .BOOT_STAT_SLOT 0) 0) { c.boot with alive := true } []) ∧
      (fn ≠ .rm ∨ c.boot.alive = false → exec (.bootCommit fn) s = .next s) ∧
      (fn = .rm → c.boot.alive = true → ∃ t, exec (.bootCommit fn) s = .next t ∧
        ctl t { b with minSvn := max b.minSvn (c.g .BOOT_VER_FW_SVN 0), revoked := t.chip.bootCtl.revoked } c.boot [] ∧
        (∀ k, k ∈ t.chip.bootCtl.revoked ↔ k ∈ b.revoked ∨ (k = 0 ∧ c.boot.revoke0 = true)) ∧
        t.chip.g .BOOT_VER_MIN_SVN 0 = max b.minSvn (c.g .BOOT_VER_FW_SVN 0) % 2 ^ 16) ∧
      (∀ sel, (c.bootFn fn = false → exec (.bootSetpref fn sel) s = .next s) ∧
        (c.bootFn fn = true → ∃ t, exec (.bootSetpref fn sel) s = .next t ∧ ctl t { b with pref := sel % 2 } c.boot [(.BOOT_CMD_SEL, 0, 0)] ∧
          t.chip.g .BOOT_CMD_SEL 0 = sel % 2 ∧ t.chip.g .BOOT_STAT_PREF 0 = sel % 2))) ∧
    (∀ pair,
      let f : Fld := if pair = 0 then .BOOT_STAT_PAIR0_OK else .BOOT_STAT_PAIR1_OK
      let o : Fld := if pair = 0 then .BOOT_STAT_PAIR1_OK else .BOOT_STAT_PAIR0_OK
      (2 ≤ pair ∨ c.boot.rmAt = none ∨ c.g f 0 = 0 → exec (.lockstepMismatch pair) s = .next s) ∧
      (pair < 2 → c.boot.rmAt ≠ none → c.g f 0 = 1 → ∃ t, exec (.lockstepMismatch pair) s = .next t ∧ s.chipOnly t ∧ t.chip.mem = c.mem ∧
        t.chip.boot = c.boot ∧ c.regsBut t.chip (.BOOT_STAT :: faultRegs) ∧ t.chip.g f 0 = 0 ∧ t.chip.g o 0 = c.g o 0 ∧
        t.chip.g .INT_CNT_COUNT 0 0 = (c.g .INT_CNT_COUNT 0 0 + 1) % 2 ^ 64 ∧
        t.chip.g .BOOT_STAT_ACTIVE_PAIR 0 = if c.g .BOOT_STAT_ACTIVE_PAIR 0 = pair ∧ c.g o 0 = 1 then 1 - pair else c.g .BOOT_STAT_ACTIVE_PAIR 0)) ∧
    (c.boot.waitId = none ∨ (∃ t, c.boot.waitId = some t ∧ c.up < t) → exec .idWaitTimeout s = .next s) ∧
    (∀ t0, c.boot.waitId = some t0 → t0 ≤ c.up → ∃ t, exec .idWaitTimeout s = .next t ∧
      s.effect t { c with boot := { c.boot with waitId := none, noId := true } } [])

/-- ALIVE_TIMEOUT acts 10 s after Ringmaster’s start without ALIVE; WARM and COLD act from a window that may command while Ringmaster runs, WARM not during a warm reset; else nothing. A warm reset sets SOURCE and WARM, resets clocks and PLIM, returns `QP_QCFG` and the host windows to reset values, loses rings and on-chip bytes, leaves STOPPED and CLEARING partitions STOPPED and running, stopping or yielded ones FENCED; with no partition to fence, DRAM bytes, HUB_SEED, HUB_SCHED, PART_TBL, CHG_SEQ and MTR_EPOCH stay. A cold reset leaves every byte 0 and every register but SOURCE and the trip log at its reset value; the flash stays where no action is under way. FWCTL GO is ignored while it reads 1, refused with BUSY or RANGE, else starts; done, an erase leaves the standby slot erased, a page is written if it was erased, else RESULT is FLASH_ERR. (Registers that R608 does not name reset as log entry 10 says.) Cites R20, R588, R596, R598, R606, R607, R608, R613, R615. -/
def Obligations.ResetsAndFlash : Prop :=
  ∀ s : State,
    let c := s.chip
    let warm (t : State) (src : Nat) : Prop := t.pending = s.pending ∧ t.pwr = { s.pwr with plim := 3500, clk := [] } ∧
      t.chip.g .BOOT_CAUSE_SOURCE 0 = src ∧ t.chip.g .BOOT_CAUSE_WARM 0 = 1 ∧ (t.chip.g .BOOT_STAT_STAGE 0 = 6 ∨ t.chip.g .BOOT_STAT_STAGE 0 = 5) ∧
      t.chip.inRings = [] ∧ t.chip.outRings = [] ∧ (∀ k, k < 2 * 2 ^ 60 → t.chip.byte k = 0) ∧
      (∀ r ∈ [Reg.QP_QCFG, .HOSTIF_WIN, .HOSTIF_WINSZ], ∀ i j, t.chip.rd r i j = regDefault (regKey r i j)) ∧
      (∀ p, p < 16 → t.chip.g .PART_STAT_STATE p = if c.g .PART_STAT_STATE p = 0 then 0 else if c.g .PART_STAT_STATE p ≤ 2 then 1 else 6) ∧
      ((∀ p, p < 16 → c.g .PART_STAT_STATE p ≠ 3 ∧ c.g .PART_STAT_STATE p ≠ 4) → (∀ k, 2 * 2 ^ 60 ≤ k → t.chip.byte k = c.byte k) ∧
        ∀ r ∈ [Reg.HUB_SEED, .HUB_SCHED, .PART_TBL, .CHG_SEQ, .MTR_EPOCH], ∀ i j, t.chip.rd r i j = c.rd r i j)
    let cold (t : State) (src : Nat) : Prop := t.pending = s.pending ∧
      t.pwr = { supply := s.pwr.supply, mv := s.pwr.mv, leak := s.pwr.leak } ∧ (∀ k, t.chip.byte k = 0) ∧
      t.chip.g .BOOT_CAUSE_SOURCE 0 = src ∧ t.chip.g .BOOT_CAUSE_WARM 0 = 0 ∧ (c.boot.fw = none → t.chip.flash = c.flash) ∧ t.chip.boot.rmAt = none ∧
      (∀ r i j, r ∉ [Reg.BOOT_CAUSE, .PWR_TRIPLOG] → t.chip.rd r i j = regDefault (regKey r i j)) ∧
      ∀ i j, t.chip.rd .PWR_TRIPLOG i j = c.rd .PWR_TRIPLOG i j
    (c.boot.alive = true ∨ c.boot.rmAt = none ∨ (∃ t0, c.boot.rmAt = some t0 ∧ c.up < t0 + 10 ^ 10) → exec .aliveTimeout s = .next s) ∧
    (∀ t0, c.boot.rmAt = some t0 → c.boot.alive = false → t0 + 10 ^ 10 ≤ c.up → ∃ t, exec .aliveTimeout s = .next t ∧ warm t 7) ∧
    (∀ fn,
      (c.bootFn fn = false → exec (.bootWarm fn) s = .next s ∧ exec (.bootCold fn) s = .next s) ∧
      (c.g .BOOT_STAT_STAGE 0 = 6 → exec (.bootWarm fn) s = .next s) ∧
      (c.bootFn fn = true → (c.g .BOOT_STAT_STAGE 0 ≠ 6 → ∃ t, exec (.bootWarm fn) s = .next t ∧ warm t 6) ∧
        ∃ t, exec (.bootCold fn) s = .next t ∧ cold t 4) ∧
      (∀ x ∈ [(Instr.fwctlWritePage fn, false), (Instr.fwctlErase fn, true)],
        let page := c.g .BOOT_FWCTL_PAGE 0
        let base := slotBase (1 - c.g .BOOT_STAT_SLOT 0)
        (c.bootFn fn = false ∨ c.g .BOOT_FWCTL_GO 0 = 1 → exec x.1 s = .next s) ∧
        (c.bootFn fn = true → c.g .BOOT_FWCTL_GO 0 = 0 → c.boot.fw ≠ none ∨ (x.2 = false ∧ 6143 < page) → ∃ t, exec x.1 s = .next t ∧
          s.effect t c [(.BOOT_FWCTL_ERASE, 0, 0), (.BOOT_FWCTL_RESULT, 0, 0)] ∧ t.chip.g .BOOT_FWCTL_ERASE 0 = b2n x.2 ∧
          t.chip.g .BOOT_FWCTL_RESULT 0 = if c.boot.fw ≠ none then 4 else 2) ∧
        (c.bootFn fn = true → c.g .BOOT_FWCTL_GO 0 = 0 → c.boot.fw = none → x.2 = true ∨ page ≤ 6143 → ∃ t j, exec x.1 s = .next t ∧
          s.effect t { c with boot := { c.boot with fw := some j } } [(.BOOT_FWCTL_ERASE, 0, 0), (.BOOT_FWCTL_GO, 0, 0)] ∧
          t.chip.g .BOOT_FWCTL_ERASE 0 = b2n x.2 ∧ t.chip.g .BOOT_FWCTL_GO 0 = 1 ∧ j.bmc = false ∧ j.erase = x.2 ∧
          (x.2 = true → j.addr = base ∧ j.len = slotSize) ∧ (x.2 = false → j.addr = base + 4096 * page ∧ j.data = c.fwBuf)))) ∧
    (c.boot.fw = none → exec .fwctlDone s = .next s) ∧
    (∀ j, c.boot.fw = some j →
      let ok : Bool := j.erase || j.inImage || (c.flash.read j.addr j.data.length).all (· == 0xFF)
      ∃ t, exec .fwctlDone s = .next t ∧ s.chipOnly t ∧ t.chip.boot.fw = none ∧ t.chip.mem = c.mem ∧
        (j.bmc = false → s.effect t { c with flash := t.chip.flash, boot := { c.boot with fw := none } } [(.BOOT_FWCTL_GO, 0, 0), (.BOOT_FWCTL_RESULT, 0, 0)] ∧
          t.chip.g .BOOT_FWCTL_GO 0 = 0 ∧ t.chip.g .BOOT_FWCTL_RESULT 0 = if ok then 0 else 3) ∧
        (j.bmc = true → c.regsBut t.chip [] ∧ t.chip.out = c.out ++ [.mctp [if ok then 0 else 1]]) ∧
        (ok = false → t.chip.flash = c.flash) ∧ (j.erase = true → ∀ i, i < j.len → t.chip.flash.read (j.addr + i) 1 = [0xFF]) ∧
        (j.erase = false → ok = true → t.chip.flash.read j.addr j.data.length = j.data) ∧
        (∀ a, a < j.addr ∨ j.addr + (if j.erase then j.len else j.data.length) ≤ a → t.chip.flash.read a 1 = c.flash.read a 1))

/-- For each of the thirteen requests: with the supply off nothing happens. While a meter reading over the bus or a flash action of the bus is in progress the answer is BUSY. A tripped module answers NOT_READY but to GET_STATUS, SENSOR_READ and RESET. With no pair running, or Ringmaster not started, requests outside the RECOVERY subset (GET_STATUS, RESET, FW_WRITE, and the control messages, log entry 11) are NOT_READY. Otherwise a request of a wrong length or with an operand out of range is INVALID, and 0x80 for the versions of an unsupported message type. In all these cases nothing but the answer changes. Cites R594, R603, R609, R610, R632. -/
def Obligations.ManagementBusGate : Prop :=
  ∀ (s : State) (req : List Byte),
    let c := s.chip
    let gives (t : State) (code : Byte) : Prop := s.effect t { c with out := c.out ++ [.mctp [code]] } []
    let n := numAt req 0 1
    (∀ x ∈ [(Instr.mctpGetStatus req, true, true), (.mctpSelectSlot req, false, false), (.mctpSetId req, false, false),
        (.mctpMeterRead req, false, false), (.mctpSensorRead req, true, false), (.mctpReset req, true, true), (.mctpChgAccess req, false, false),
        (.mctpFwWrite req, false, true), (.mctpSetEndpointId req, false, true), (.mctpGetEndpointId req, false, true),
        (.mctpGetVersionSupport req, false, true), (.mctpGetMessageTypeSupport req, false, true), (.mctpGetVdmSupport req, false, true)],
      (s.pwr.supply = .off → exec x.1 s = .next s) ∧
      (s.pwr.supply ≠ .off → c.mctpBusy = true → ∃ t, exec x.1 s = .next t ∧ gives t 3) ∧
      (s.pwr.supply = .tripped → c.mctpBusy = false → x.2.1 = false → ∃ t, exec x.1 s = .next t ∧ gives t 4) ∧
      (s.pwr.supply ≠ .off → s.pwr.supply ≠ .tripped → c.mctpBusy = false → c.rmRuns = false → x.2.2 = false → ∃ t, exec x.1 s = .next t ∧ gives t 4)) ∧
    (s.pwr.supply ≠ .off → s.pwr.supply ≠ .tripped → c.mctpBusy = false → c.rmRuns = true →
      ∀ x ∈ [(Instr.mctpGetStatus req, req ≠ []), (.mctpSelectSlot req, req.length ≠ 1 ∨ 2 ≤ n), (.mctpSetId req, req.length ≠ 2 ∨ 8192 ≤ numAt req 0 2),
          (.mctpMeterRead req, req.length ≠ 1 ∨ 16 < n), (.mctpSensorRead req, req.length ≠ 1 ∨ 24 ≤ n), (.mctpReset req, req.length ≠ 1 ∨ 2 ≤ n),
          (.mctpChgAccess req, req.length < 5 ∨ 2 ≤ n ∨ numAt req 1 4 < 0x78000 ∨ 0x7A000 ≤ numAt req 1 4 ∨ 5 + 1024 < req.length),
          (.mctpFwWrite req, req.length < 5 ∨ 3 ≤ n ∨ (n ≠ 1 ∧ (req.length = 5 ∨ 5 + 1024 < req.length))),
          (.mctpSetEndpointId req, req.length ≠ 2 ∨ 2 ≤ n % 4 ∨ numAt req 1 1 = 0 ∨ numAt req 1 1 = 255),
          (.mctpGetEndpointId req, req ≠ []), (.mctpGetVersionSupport req, req.length ≠ 1), (.mctpGetMessageTypeSupport req, req ≠ []),
          (.mctpGetVdmSupport req, req ≠ [0])],
        x.2 → ∃ t, exec x.1 s = .next t ∧ gives t 2) ∧
    (s.pwr.supply ≠ .off → s.pwr.supply ≠ .tripped → c.mctpBusy = false → req.length = 1 → n ≠ 0 → n ≠ 255 →
      ∃ t, exec (.mctpGetVersionSupport req) s = .next t ∧ gives t 0x80)

/-- Served (supplied, not tripped, no request in progress, Ringmaster running): GET_STATUS answers the boot registers, FAB_ID, NO_ID and BOOTS and deasserts SMB_ALERT#; SELECT_SLOT stores the preferred slot; SET_ID gives LINKS_UP while LEN is not 0, else writes FAB_ID, and LEN becomes the TOPOLOGY record’s where links waited for an ID; METER_READ starts the reading of PATH 2; SENSOR_READ answers the register; RESET answers SUCCESS, then the reset with SOURCE 5 or 3; CHG_ACCESS reads bytes of its window, or writes CHG_BUF while the protocol is idle; FW_WRITE is refused for the image while READY and a partition runs, BUSY during another action, else starts the action. The control messages answer as in log entry 11 (PRESUMED layouts; the version of the VDM set is a free value). A tripped module’s cold RESET is REFUSED while a trip condition holds, else leaves the trip with SOURCE 2. Cites R550, R556, R598, R601, R607, R609, R610, R632, R640. -/
def Obligations.ManagementBusServes : Prop :=
  ∀ s : State,
    let c := s.chip
    let ans (code : Byte) (data : List Byte) : List Out := [.mctp (code :: data)]
    (s.pwr.supply ≠ .off → s.pwr.supply ≠ .tripped → c.mctpBusy = false → c.rmRuns = true →
      (∃ t, exec (.mctpGetStatus []) s = .next t ∧ s.effect t { c with out := c.out ++ [.pin 3 true] ++ ans 0 (leBytes 8 (c.rd .BOOT_STAT 0).toNat ++
        leBytes 8 (c.rd .BOOT_VER 0).toNat ++ leBytes 4 (c.rd .BOOT_CAUSE 0).toNat ++ leBytes 4 (c.rd .FAB_ID 0).toNat ++
        leBytes 1 (b2n c.boot.noId) ++ leBytes 4 c.bootCtl.boots) } []) ∧
      (∀ b : Byte, b.toNat < 2 → ∃ t, exec (.mctpSelectSlot [b]) s = .next t ∧
        s.effect t { c with flash := { c.flash with boot := some { c.bootCtl with pref := b.toNat } }, out := c.out ++ ans 0 [] }
          [(.BOOT_STAT_PREF, 0, 0), (.BOOT_STAT_ATTEMPT_A, 0, 0), (.BOOT_STAT_ATTEMPT_B, 0, 0), (.BOOT_VER_MIN_SVN, 0, 0)] ∧
        t.chip.g .BOOT_STAT_PREF 0 = b.toNat) ∧
      (∀ req : List Byte, req.length = 2 → leNat req < 8192 →
        (c.g .FAB_CTL_LEN 0 ≠ 0 → ∃ t, exec (.mctpSetId req) s = .next t ∧ s.effect t { c with out := c.out ++ ans 5 [] } []) ∧
        (c.g .FAB_CTL_LEN 0 = 0 → ∃ t l, exec (.mctpSetId req) s = .next t ∧ s.chipOnly t ∧ t.chip.mem = c.mem ∧ t.chip.out = c.out ++ l ++ ans 0 [] ∧
          t.chip.boot = { c.boot with noId := false, waitId := none } ∧ t.chip.g .FAB_ID_ID 0 = leNat req ∧ t.chip.g .FAB_ID_VALID 0 = 1 ∧
          t.chip.g .FAB_CTL_LEN 0 = if c.boot.noId = true ∨ c.boot.waitId ≠ none then bits (c.cfg.topo.getD 0) 21 16 else 0)) ∧
      (∀ b : Byte, b.toNat ≤ 16 → ∃ t j, exec (.mctpMeterRead [b]) s = .next t ∧
        s.effect t { c with mjobs := c.mjobs ++ [j] } [(.MTR_STAT_NEXT_SEQ, b.toNat, 0), (.MTR_SNAP_GO, b.toNat % 16, 0), (.MTR_SNAP_UNATTR, b.toNat % 16, 0),
          (.MTR_STAT_BUSY, b.toNat % 16, 0)] ∧
        j.path = 2 ∧ j.part = b.toNat ∧ t.chip.g .MTR_STAT_NEXT_SEQ b.toNat = (c.g .MTR_STAT_NEXT_SEQ b.toNat + 1) % 2 ^ 48) ∧
      (∀ b : Byte, b.toNat < 24 → ∃ t, exec (.mctpSensorRead [b]) s = .next t ∧
        s.effect t { c with out := c.out ++ ans 0 (leBytes 4 (c.rd .THM_SENSOR 0 b.toNat).toNat) } []) ∧
      (c.g .BOOT_STAT_STAGE 0 = 6 → ∃ t, exec (.mctpReset [0]) s = .next t ∧ s.effect t { c with out := c.out ++ ans 0 [] } []) ∧
      (c.g .BOOT_STAT_STAGE 0 ≠ 6 → ∃ t, exec (.mctpReset [0]) s = .next t ∧ t.pending = s.pending ∧ t.pwr = { s.pwr with plim := 3500, clk := [] } ∧
        t.chip.g .BOOT_CAUSE_SOURCE 0 = 5 ∧ t.chip.g .BOOT_CAUSE_WARM 0 = 1 ∧
        ((∀ p, p < 16 → c.g .PART_STAT_STATE p ≠ 3 ∧ c.g .PART_STAT_STATE p ≠ 4) → t.chip.out = c.out ++ ans 0 [])) ∧
      (∃ t, exec (.mctpReset [1]) s = .next t ∧ t.pending = s.pending ∧ t.pwr.supply = s.pwr.supply ∧ t.chip.mem = [] ∧ t.chip.out = c.out ++ ans 0 [] ∧
        t.chip.g .BOOT_CAUSE_SOURCE 0 = 3 ∧ t.chip.g .BOOT_CAUSE_WARM 0 = 0) ∧
      (∀ req : List Byte, 7 = req.length → numAt req 0 1 = 0 → let off := numAt req 1 4; let n := numAt req 5 2
        0 < n → n ≤ 1024 → 0x78000 ≤ off → off + n ≤ 0x7A000 → ∃ t, exec (.mctpChgAccess req) s = .next t ∧
          s.effect t { c with out := c.out ++ ans 0 ((List.range n).map (fun i => c.chgByte (off + i))) } []) ∧
      (∀ req : List Byte, numAt req 0 1 = 1 → let off := numAt req 1 4; let data := req.drop 5
        data ≠ [] → data.length ≤ 1024 → 0x79000 ≤ off → off + data.length ≤ 0x7A000 → ∃ t, exec (.mctpChgAccess req) s = .next t ∧ s.chipOnly t ∧
          t.chip.noRegs = ({ c with out := c.out ++ ans 0 [] } : Chip).noRegs ∧ c.regsBut t.chip [.CHG_BUF] ∧
          (c.g .CHG_STAT_STATE 0 ≠ 0 → c.regsBut t.chip []) ∧
          (c.g .CHG_STAT_STATE 0 = 0 → ∀ a, a < 4096 → wbits (t.chip.rd .CHG_BUF 0 (a / 8)) (8 * (a % 8) + 7) (8 * (a % 8)) =
            if off ≤ 0x79000 + a ∧ 0x79000 + a < off + data.length then (data.getD (0x79000 + a - off) 0).toNat
            else wbits (c.rd .CHG_BUF 0 (a / 8)) (8 * (a % 8) + 7) (8 * (a % 8))))) ∧
    (s.pwr.supply ≠ .off → s.pwr.supply ≠ .tripped → c.mctpBusy = false →
      (∀ req : List Byte, let tgt := numAt req 0 1; let off := numAt req 1 4; let data := req.drop 5
        5 ≤ req.length → tgt ≤ 2 → (tgt ≠ 1 → data ≠ [] ∧ data.length ≤ 1024 ∧ off + data.length ≤ (if tgt = 2 then 2 ^ 20 else slotSize)) →
        let refused := tgt = 2 ∧ c.g .BOOT_STAT_STAGE 0 = 4 ∧ c.anyRuns = true
        (refused → ∃ t, exec (.mctpFwWrite req) s = .next t ∧ s.effect t { c with out := c.out ++ ans 6 [] } []) ∧
        (¬ refused → c.boot.fw ≠ none → ∃ t, exec (.mctpFwWrite req) s = .next t ∧ s.effect t { c with out := c.out ++ ans 3 [] } []) ∧
        (¬ refused → c.boot.fw = none → ∃ t j, exec (.mctpFwWrite req) s = .next t ∧ s.effect t { c with boot := { c.boot with fw := some j } } [] ∧
          j.bmc = true ∧ j.erase = decide (tgt = 1) ∧ (tgt = 1 → j.addr = slotBase c.standby ∧ j.len = slotSize) ∧
          (tgt ≠ 1 → j.data = data ∧ j.addr = (if tgt = 2 then imageBase else slotBase c.standby) + off))) ∧
      (∀ op e : Byte, op.toNat % 4 < 2 → e ≠ 0 → e ≠ 0xFF → ∃ t, exec (.mctpSetEndpointId [op, e]) s = .next t ∧
        s.effect t { c with boot := { c.boot with eid := e.toNat }, out := c.out ++ ans 0 [0, e, 0] } []) ∧
      (∃ t, exec (.mctpGetEndpointId []) s = .next t ∧ s.effect t { c with out := c.out ++ ans 0 [BitVec.ofNat 8 c.boot.eid, 0, 0] } []) ∧
      (∀ b : Byte, b = 0 ∨ b = 0xFF → ∃ t, exec (.mctpGetVersionSupport [b]) s = .next t ∧ s.effect t { c with out := c.out ++ ans 0 [1, 0xF1, 0xF3, 0xF1, 0] } []) ∧
      (∃ t, exec (.mctpGetMessageTypeSupport []) s = .next t ∧ s.effect t { c with out := c.out ++ ans 0 [1, 0x7E] } []) ∧
      (∃ t v, exec (.mctpGetVdmSupport [0]) s = .next t ∧ v < 2 ^ 16 ∧
        s.effect t { c with fresh := c.fresh + 1, out := c.out ++ ans 0 ([0xFF, 0, 0x1F, 0x4A] ++ beBytes 2 v) } [])) ∧
    (s.pwr.supply = .tripped → c.mctpBusy = false →
      (s.tripHolds = true → ∃ t, exec (.mctpReset [1]) s = .next t ∧ s.effect t { c with out := c.out ++ ans 6 [] } []) ∧
      (s.tripHolds = false → ∃ t, exec (.mctpReset [1]) s = .next t ∧ t.pending = s.pending ∧ t.pwr.supply = .precharge ∧
        t.chip.g .BOOT_CAUSE_SOURCE 0 = 2 ∧ t.chip.out = c.out ++ ans 0 []))

/-- For every virtual function of a port, whose partition is p = v − 1, and every BAR0 offset in the window of a region that p does not own: no register is reached there; a read counts in HOSTIF_CNT_UNMAP_RD, an aligned 4 B write in HOSTIF_CNT_UNMAP_WR of that function, UNMAPPED of its HOSTIF_CAUSE is set, and nothing else changes but a pending vector of that cause and the message it sends. Cites R532. -/
def Obligations.RegionsOfOthersUnmapped : Prop :=
  ∀ (s : State) (port v off : Nat), 0x01000000 ≤ off → off < 0x03000000 →
    let c := s.chip
    let fn := Fn.vf port v
    let f := fnIdx fn
    c.owns ((v + 15) % 16) ((off - 0x01000000) / 0x00200000) = false →
    let counted (t : State) (i : Nat) : Prop := s.chipOnly t ∧ t.chip.noRegs = ({ c with out := t.chip.out } : Chip).noRegs ∧
      c.regsBut t.chip [.HOSTIF_CNT, .HOSTIF_CAUSE, .MSIX_PBA] ∧ bit (t.chip.g .HOSTIF_CAUSE_CAUSE f) 5 = true ∧
      t.chip.g .HOSTIF_CNT_COUNT f i = (c.g .HOSTIF_CNT_COUNT f i + 1) % 2 ^ 64 ∧
      ∀ f' j, f' < 2048 → j < 4096 → (f', j) ≠ (f, i) → t.chip.g .HOSTIF_CNT_COUNT f' j = c.g .HOSTIF_CNT_COUNT f' j
    c.locate fn off = none ∧
    (∀ size, 0 < size → ∃ t, exec (.unmappedRead fn off size) s = .next t ∧ counted t 0) ∧
    (off % 4 = 0 → ∀ data, ∃ t, exec (.registerWrite fn off 4 data) s = .next t ∧ counted t 1)

/-- In State.reset, for every register of the map but CHG_UID (whose number the manual does not give), every instance and index, every field of its table holds the value of the Reset column. Which fields a warm reset keeps is the statement ResetsAndFlash. Cites R20. -/
def Obligations.ResetColumnHolds : Prop :=
  ∀ (r : Reg) (i j : Nat), r ≠ .CHG_UID → ∀ f ∈ r.fields, State.reset.chip.g ⟨r, f.hi, f.lo⟩ i j = f.reset

/-- For every command i, every state s and every queue rest: the step of s with i at the front of its queue and rest behind it is exec of i on s with the queue rest. Cites 95_what_each_step_holds.md. -/
def Obligations.StepRunsFrontCommand : Prop :=
  ∀ (i : Instr) (s : State) (rest : List Instr), step { s with pending := i :: rest } = exec i { s with pending := rest }

/-- No command of the table ends in a fault or a refusal, in any state and for any operands, and none changes the queue of waiting commands, so every step from a queue of n + 1 commands leaves n. A step with no command waiting is the model’s tick (DESIGN CHOICE, log entry 2): the module’s own clock advances by 1 ns, system time by 1 ns and its share of the slew (so by 0 to 2 ns), memory, poison, registers, queues and outputs stay, and with the supply not on nothing is metered. Cites R9, R546, R547, R549. -/
def Obligations.EveryStepAnswers : Prop :=
  (∀ (i : Instr) (s : State), ∃ t, exec i s = .next t ∧ t.pending = s.pending) ∧
  (∀ s : State, s.pending = [] → ∃ t, step s = .next t ∧ s.chipOnly t ∧ t.chip.up = s.chip.up + 1 ∧
    (s.chip.time.frac < 65536 → ∃ d, d ≤ 2 ∧ t.chip.now = (s.chip.now + d) % 2 ^ 64) ∧
    (s.chip.time.corr = 0 → s.chip.time.frac < 65536 → t.chip.now = (s.chip.now + 1) % 2 ^ 64) ∧
    t.chip.mem = s.chip.mem ∧ t.chip.poison = s.chip.poison ∧ t.chip.regs = s.chip.regs ∧ t.chip.queues = s.chip.queues ∧ t.chip.out = s.chip.out ∧
    (s.pwr.supply ≠ .on → t.chip.meters = s.chip.meters ∧ t.chip.energy = s.chip.energy))

/-- State.reset holds State.Inv: PLIM lies in 2,000 to 3,500 W, every clock bound, frequency and pending frequency and every CAP is a code in 12 to 40, and no more than 10,000 input samples are held. State.reset lists no memory byte and no waiting command, and its memory has the canonical form. Cites R36, R37, R627. -/
def Obligations.ResetHoldsInvariant : Prop :=
  State.reset.Inv ∧ State.reset.chip.memWf = true ∧ State.reset.chip.mem = [] ∧ State.reset.pending = []

/-- From every state, reached from reset or not, in which PLIM lies in 2,000 to 3,500 W, every island’s MIN, MAX, code in effect and pending code and every CAP lie in 12 to 40 (0.6 to 2.0 GHz) and at most 10,000 input samples are held, whichever of the 255 commands or the tick the step runs, the next state is such a state again. So no register write, limiter rule, trip, reset, profile, claim or upset of a hardened word sets an illegal clock or power limit. Cites R34, R35, R36, R37, R607, R619, R625, R626, R627, R634. -/
def Obligations.StepKeepsInvariant : Prop :=
  ∀ s t : State, s.Inv → step s = .next t → t.Inv
end

