-- ==== Sys2Proof/Laws/Engines.lean ====
section
/-! SUPPORT. What the replacement of one engine's state leaves unchanged, and what it reads as afterwards. -/

namespace Sys2Proof.Machine

/-! ### Chip.setStep -/

@[simp] theorem Chip.setStep_regs (c : Chip) (p : Nat) (x : StepS) : (c.setStep p x).regs = c.regs := rfl
@[simp] theorem Chip.setStep_mem (c : Chip) (p : Nat) (x : StepS) : (c.setStep p x).mem = c.mem := rfl
@[simp] theorem Chip.setStep_poison (c : Chip) (p : Nat) (x : StepS) : (c.setStep p x).poison = c.poison := rfl
@[simp] theorem Chip.setStep_queues (c : Chip) (p : Nat) (x : StepS) : (c.setStep p x).queues = c.queues := rfl
@[simp] theorem Chip.setStep_seqs (c : Chip) (p : Nat) (x : StepS) : (c.setStep p x).seqs = c.seqs := rfl
@[simp] theorem Chip.setStep_units (c : Chip) (p : Nat) (x : StepS) : (c.setStep p x).units = c.units := rfl
@[simp] theorem Chip.setStep_partials (c : Chip) (p : Nat) (x : StepS) : (c.setStep p x).partials = c.partials := rfl
@[simp] theorem Chip.setStep_combs (c : Chip) (p : Nat) (x : StepS) : (c.setStep p x).combs = c.combs := rfl
@[simp] theorem Chip.setStep_arbs (c : Chip) (p : Nat) (x : StepS) : (c.setStep p x).arbs = c.arbs := rfl
@[simp] theorem Chip.setStep_xfers (c : Chip) (p : Nat) (x : StepS) : (c.setStep p x).xfers = c.xfers := rfl
@[simp] theorem Chip.setStep_flog (c : Chip) (p : Nat) (x : StepS) : (c.setStep p x).flog = c.flog := rfl
@[simp] theorem Chip.setStep_meters (c : Chip) (p : Nat) (x : StepS) : (c.setStep p x).meters = c.meters := rfl
@[simp] theorem Chip.setStep_maps (c : Chip) (p : Nat) (x : StepS) : (c.setStep p x).maps = c.maps := rfl
@[simp] theorem Chip.setStep_held (c : Chip) (p : Nat) (x : StepS) : (c.setStep p x).held = c.held := rfl
@[simp] theorem Chip.setStep_stats (c : Chip) (p : Nat) (x : StepS) : (c.setStep p x).stats = c.stats := rfl
@[simp] theorem Chip.setStep_press (c : Chip) (p : Nat) (x : StepS) : (c.setStep p x).press = c.press := rfl
@[simp] theorem Chip.setStep_d3 (c : Chip) (p : Nat) (x : StepS) : (c.setStep p x).d3 = c.d3 := rfl
@[simp] theorem Chip.setStep_racks (c : Chip) (p : Nat) (x : StepS) : (c.setStep p x).racks = c.racks := rfl
@[simp] theorem Chip.setStep_solvers (c : Chip) (p : Nat) (x : StepS) : (c.setStep p x).solvers = c.solvers := rfl
@[simp] theorem Chip.setStep_upds (c : Chip) (p : Nat) (x : StepS) : (c.setStep p x).upds = c.upds := rfl
@[simp] theorem Chip.setStep_pnorms (c : Chip) (p : Nat) (x : StepS) : (c.setStep p x).pnorms = c.pnorms := rfl
@[simp] theorem Chip.setStep_links (c : Chip) (p : Nat) (x : StepS) : (c.setStep p x).links = c.links := rfl
@[simp] theorem Chip.setStep_arrived (c : Chip) (p : Nat) (x : StepS) : (c.setStep p x).arrived = c.arrived := rfl
@[simp] theorem Chip.setStep_chold (c : Chip) (p : Nat) (x : StepS) : (c.setStep p x).chold = c.chold := rfl
@[simp] theorem Chip.setStep_wcens (c : Chip) (p : Nat) (x : StepS) : (c.setStep p x).wcens = c.wcens := rfl
@[simp] theorem Chip.setStep_time (c : Chip) (p : Nat) (x : StepS) : (c.setStep p x).time = c.time := rfl
@[simp] theorem Chip.setStep_cars (c : Chip) (p : Nat) (x : StepS) : (c.setStep p x).cars = c.cars := rfl
@[simp] theorem Chip.setStep_seals (c : Chip) (p : Nat) (x : StepS) : (c.setStep p x).seals = c.seals := rfl
@[simp] theorem Chip.setStep_parts (c : Chip) (p : Nat) (x : StepS) : (c.setStep p x).parts = c.parts := rfl
@[simp] theorem Chip.setStep_mjobs (c : Chip) (p : Nat) (x : StepS) : (c.setStep p x).mjobs = c.mjobs := rfl
@[simp] theorem Chip.setStep_energy (c : Chip) (p : Nat) (x : StepS) : (c.setStep p x).energy = c.energy := rfl
@[simp] theorem Chip.setStep_chgSecond (c : Chip) (p : Nat) (x : StepS) : (c.setStep p x).chgSecond = c.chgSecond := rfl
@[simp] theorem Chip.setStep_flash (c : Chip) (p : Nat) (x : StepS) : (c.setStep p x).flash = c.flash := rfl
@[simp] theorem Chip.setStep_prot (c : Chip) (p : Nat) (x : StepS) : (c.setStep p x).prot = c.prot := rfl
@[simp] theorem Chip.setStep_cfg (c : Chip) (p : Nat) (x : StepS) : (c.setStep p x).cfg = c.cfg := rfl
@[simp] theorem Chip.setStep_boot (c : Chip) (p : Nat) (x : StepS) : (c.setStep p x).boot = c.boot := rfl
@[simp] theorem Chip.setStep_inRings (c : Chip) (p : Nat) (x : StepS) : (c.setStep p x).inRings = c.inRings := rfl
@[simp] theorem Chip.setStep_outRings (c : Chip) (p : Nat) (x : StepS) : (c.setStep p x).outRings = c.outRings := rfl
@[simp] theorem Chip.setStep_freeAt (c : Chip) (p : Nat) (x : StepS) : (c.setStep p x).freeAt = c.freeAt := rfl
@[simp] theorem Chip.setStep_cref (c : Chip) (p : Nat) (x : StepS) : (c.setStep p x).cref = c.cref := rfl
@[simp] theorem Chip.setStep_upsets (c : Chip) (p : Nat) (x : StepS) : (c.setStep p x).upsets = c.upsets := rfl
@[simp] theorem Chip.setStep_now (c : Chip) (p : Nat) (x : StepS) : (c.setStep p x).now = c.now := rfl
@[simp] theorem Chip.setStep_up (c : Chip) (p : Nat) (x : StepS) : (c.setStep p x).up = c.up := rfl
@[simp] theorem Chip.setStep_fresh (c : Chip) (p : Nat) (x : StepS) : (c.setStep p x).fresh = c.fresh := rfl
@[simp] theorem Chip.setStep_out (c : Chip) (p : Nat) (x : StepS) : (c.setStep p x).out = c.out := rfl
@[simp] theorem Chip.setStep_rd (c : Chip) (p : Nat) (x : StepS) (r' : Reg) (i' j' : Nat) : (c.setStep p x).rd r' i' j' = c.rd r' i' j' := rfl
@[simp] theorem Chip.setStep_g (c : Chip) (p : Nat) (x : StepS) (f' : Fld) (i' j' : Nat) : (c.setStep p x).g f' i' j' = c.g f' i' j' := rfl
@[simp] theorem Chip.setStep_on (c : Chip) (p : Nat) (x : StepS) (f' : Fld) (i' j' : Nat) : (c.setStep p x).on f' i' j' = c.on f' i' j' := rfl
@[simp] theorem Chip.setStep_byte (c : Chip) (p : Nat) (x : StepS) (k' : Nat) : (c.setStep p x).byte k' = c.byte k' := rfl

/-! ### Chip.setMapS -/

@[simp] theorem Chip.setMapS_regs (c : Chip) (p : Nat) (x : MapS) : (c.setMapS p x).regs = c.regs := rfl
@[simp] theorem Chip.setMapS_mem (c : Chip) (p : Nat) (x : MapS) : (c.setMapS p x).mem = c.mem := rfl
@[simp] theorem Chip.setMapS_poison (c : Chip) (p : Nat) (x : MapS) : (c.setMapS p x).poison = c.poison := rfl
@[simp] theorem Chip.setMapS_queues (c : Chip) (p : Nat) (x : MapS) : (c.setMapS p x).queues = c.queues := rfl
@[simp] theorem Chip.setMapS_seqs (c : Chip) (p : Nat) (x : MapS) : (c.setMapS p x).seqs = c.seqs := rfl
@[simp] theorem Chip.setMapS_units (c : Chip) (p : Nat) (x : MapS) : (c.setMapS p x).units = c.units := rfl
@[simp] theorem Chip.setMapS_partials (c : Chip) (p : Nat) (x : MapS) : (c.setMapS p x).partials = c.partials := rfl
@[simp] theorem Chip.setMapS_combs (c : Chip) (p : Nat) (x : MapS) : (c.setMapS p x).combs = c.combs := rfl
@[simp] theorem Chip.setMapS_arbs (c : Chip) (p : Nat) (x : MapS) : (c.setMapS p x).arbs = c.arbs := rfl
@[simp] theorem Chip.setMapS_xfers (c : Chip) (p : Nat) (x : MapS) : (c.setMapS p x).xfers = c.xfers := rfl
@[simp] theorem Chip.setMapS_steps (c : Chip) (p : Nat) (x : MapS) : (c.setMapS p x).steps = c.steps := rfl
@[simp] theorem Chip.setMapS_flog (c : Chip) (p : Nat) (x : MapS) : (c.setMapS p x).flog = c.flog := rfl
@[simp] theorem Chip.setMapS_meters (c : Chip) (p : Nat) (x : MapS) : (c.setMapS p x).meters = c.meters := rfl
@[simp] theorem Chip.setMapS_held (c : Chip) (p : Nat) (x : MapS) : (c.setMapS p x).held = c.held := rfl
@[simp] theorem Chip.setMapS_stats (c : Chip) (p : Nat) (x : MapS) : (c.setMapS p x).stats = c.stats := rfl
@[simp] theorem Chip.setMapS_press (c : Chip) (p : Nat) (x : MapS) : (c.setMapS p x).press = c.press := rfl
@[simp] theorem Chip.setMapS_d3 (c : Chip) (p : Nat) (x : MapS) : (c.setMapS p x).d3 = c.d3 := rfl
@[simp] theorem Chip.setMapS_racks (c : Chip) (p : Nat) (x : MapS) : (c.setMapS p x).racks = c.racks := rfl
@[simp] theorem Chip.setMapS_solvers (c : Chip) (p : Nat) (x : MapS) : (c.setMapS p x).solvers = c.solvers := rfl
@[simp] theorem Chip.setMapS_upds (c : Chip) (p : Nat) (x : MapS) : (c.setMapS p x).upds = c.upds := rfl
@[simp] theorem Chip.setMapS_pnorms (c : Chip) (p : Nat) (x : MapS) : (c.setMapS p x).pnorms = c.pnorms := rfl
@[simp] theorem Chip.setMapS_links (c : Chip) (p : Nat) (x : MapS) : (c.setMapS p x).links = c.links := rfl
@[simp] theorem Chip.setMapS_arrived (c : Chip) (p : Nat) (x : MapS) : (c.setMapS p x).arrived = c.arrived := rfl
@[simp] theorem Chip.setMapS_chold (c : Chip) (p : Nat) (x : MapS) : (c.setMapS p x).chold = c.chold := rfl
@[simp] theorem Chip.setMapS_wcens (c : Chip) (p : Nat) (x : MapS) : (c.setMapS p x).wcens = c.wcens := rfl
@[simp] theorem Chip.setMapS_time (c : Chip) (p : Nat) (x : MapS) : (c.setMapS p x).time = c.time := rfl
@[simp] theorem Chip.setMapS_cars (c : Chip) (p : Nat) (x : MapS) : (c.setMapS p x).cars = c.cars := rfl
@[simp] theorem Chip.setMapS_seals (c : Chip) (p : Nat) (x : MapS) : (c.setMapS p x).seals = c.seals := rfl
@[simp] theorem Chip.setMapS_parts (c : Chip) (p : Nat) (x : MapS) : (c.setMapS p x).parts = c.parts := rfl
@[simp] theorem Chip.setMapS_mjobs (c : Chip) (p : Nat) (x : MapS) : (c.setMapS p x).mjobs = c.mjobs := rfl
@[simp] theorem Chip.setMapS_energy (c : Chip) (p : Nat) (x : MapS) : (c.setMapS p x).energy = c.energy := rfl
@[simp] theorem Chip.setMapS_chgSecond (c : Chip) (p : Nat) (x : MapS) : (c.setMapS p x).chgSecond = c.chgSecond := rfl
@[simp] theorem Chip.setMapS_flash (c : Chip) (p : Nat) (x : MapS) : (c.setMapS p x).flash = c.flash := rfl
@[simp] theorem Chip.setMapS_prot (c : Chip) (p : Nat) (x : MapS) : (c.setMapS p x).prot = c.prot := rfl
@[simp] theorem Chip.setMapS_cfg (c : Chip) (p : Nat) (x : MapS) : (c.setMapS p x).cfg = c.cfg := rfl
@[simp] theorem Chip.setMapS_boot (c : Chip) (p : Nat) (x : MapS) : (c.setMapS p x).boot = c.boot := rfl
@[simp] theorem Chip.setMapS_inRings (c : Chip) (p : Nat) (x : MapS) : (c.setMapS p x).inRings = c.inRings := rfl
@[simp] theorem Chip.setMapS_outRings (c : Chip) (p : Nat) (x : MapS) : (c.setMapS p x).outRings = c.outRings := rfl
@[simp] theorem Chip.setMapS_freeAt (c : Chip) (p : Nat) (x : MapS) : (c.setMapS p x).freeAt = c.freeAt := rfl
@[simp] theorem Chip.setMapS_cref (c : Chip) (p : Nat) (x : MapS) : (c.setMapS p x).cref = c.cref := rfl
@[simp] theorem Chip.setMapS_upsets (c : Chip) (p : Nat) (x : MapS) : (c.setMapS p x).upsets = c.upsets := rfl
@[simp] theorem Chip.setMapS_now (c : Chip) (p : Nat) (x : MapS) : (c.setMapS p x).now = c.now := rfl
@[simp] theorem Chip.setMapS_up (c : Chip) (p : Nat) (x : MapS) : (c.setMapS p x).up = c.up := rfl
@[simp] theorem Chip.setMapS_fresh (c : Chip) (p : Nat) (x : MapS) : (c.setMapS p x).fresh = c.fresh := rfl
@[simp] theorem Chip.setMapS_out (c : Chip) (p : Nat) (x : MapS) : (c.setMapS p x).out = c.out := rfl
@[simp] theorem Chip.setMapS_rd (c : Chip) (p : Nat) (x : MapS) (r' : Reg) (i' j' : Nat) : (c.setMapS p x).rd r' i' j' = c.rd r' i' j' := rfl
@[simp] theorem Chip.setMapS_g (c : Chip) (p : Nat) (x : MapS) (f' : Fld) (i' j' : Nat) : (c.setMapS p x).g f' i' j' = c.g f' i' j' := rfl
@[simp] theorem Chip.setMapS_on (c : Chip) (p : Nat) (x : MapS) (f' : Fld) (i' j' : Nat) : (c.setMapS p x).on f' i' j' = c.on f' i' j' := rfl
@[simp] theorem Chip.setMapS_byte (c : Chip) (p : Nat) (x : MapS) (k' : Nat) : (c.setMapS p x).byte k' = c.byte k' := rfl

/-! ### Chip.setInRing -/

@[simp] theorem Chip.setInRing_regs (c : Chip) (f q : Nat) (x : InRing) : (c.setInRing f q x).regs = c.regs := rfl
@[simp] theorem Chip.setInRing_mem (c : Chip) (f q : Nat) (x : InRing) : (c.setInRing f q x).mem = c.mem := rfl
@[simp] theorem Chip.setInRing_poison (c : Chip) (f q : Nat) (x : InRing) : (c.setInRing f q x).poison = c.poison := rfl
@[simp] theorem Chip.setInRing_queues (c : Chip) (f q : Nat) (x : InRing) : (c.setInRing f q x).queues = c.queues := rfl
@[simp] theorem Chip.setInRing_seqs (c : Chip) (f q : Nat) (x : InRing) : (c.setInRing f q x).seqs = c.seqs := rfl
@[simp] theorem Chip.setInRing_units (c : Chip) (f q : Nat) (x : InRing) : (c.setInRing f q x).units = c.units := rfl
@[simp] theorem Chip.setInRing_partials (c : Chip) (f q : Nat) (x : InRing) : (c.setInRing f q x).partials = c.partials := rfl
@[simp] theorem Chip.setInRing_combs (c : Chip) (f q : Nat) (x : InRing) : (c.setInRing f q x).combs = c.combs := rfl
@[simp] theorem Chip.setInRing_arbs (c : Chip) (f q : Nat) (x : InRing) : (c.setInRing f q x).arbs = c.arbs := rfl
@[simp] theorem Chip.setInRing_xfers (c : Chip) (f q : Nat) (x : InRing) : (c.setInRing f q x).xfers = c.xfers := rfl
@[simp] theorem Chip.setInRing_steps (c : Chip) (f q : Nat) (x : InRing) : (c.setInRing f q x).steps = c.steps := rfl
@[simp] theorem Chip.setInRing_flog (c : Chip) (f q : Nat) (x : InRing) : (c.setInRing f q x).flog = c.flog := rfl
@[simp] theorem Chip.setInRing_meters (c : Chip) (f q : Nat) (x : InRing) : (c.setInRing f q x).meters = c.meters := rfl
@[simp] theorem Chip.setInRing_maps (c : Chip) (f q : Nat) (x : InRing) : (c.setInRing f q x).maps = c.maps := rfl
@[simp] theorem Chip.setInRing_held (c : Chip) (f q : Nat) (x : InRing) : (c.setInRing f q x).held = c.held := rfl
@[simp] theorem Chip.setInRing_stats (c : Chip) (f q : Nat) (x : InRing) : (c.setInRing f q x).stats = c.stats := rfl
@[simp] theorem Chip.setInRing_press (c : Chip) (f q : Nat) (x : InRing) : (c.setInRing f q x).press = c.press := rfl
@[simp] theorem Chip.setInRing_d3 (c : Chip) (f q : Nat) (x : InRing) : (c.setInRing f q x).d3 = c.d3 := rfl
@[simp] theorem Chip.setInRing_racks (c : Chip) (f q : Nat) (x : InRing) : (c.setInRing f q x).racks = c.racks := rfl
@[simp] theorem Chip.setInRing_solvers (c : Chip) (f q : Nat) (x : InRing) : (c.setInRing f q x).solvers = c.solvers := rfl
@[simp] theorem Chip.setInRing_upds (c : Chip) (f q : Nat) (x : InRing) : (c.setInRing f q x).upds = c.upds := rfl
@[simp] theorem Chip.setInRing_pnorms (c : Chip) (f q : Nat) (x : InRing) : (c.setInRing f q x).pnorms = c.pnorms := rfl
@[simp] theorem Chip.setInRing_links (c : Chip) (f q : Nat) (x : InRing) : (c.setInRing f q x).links = c.links := rfl
@[simp] theorem Chip.setInRing_arrived (c : Chip) (f q : Nat) (x : InRing) : (c.setInRing f q x).arrived = c.arrived := rfl
@[simp] theorem Chip.setInRing_chold (c : Chip) (f q : Nat) (x : InRing) : (c.setInRing f q x).chold = c.chold := rfl
@[simp] theorem Chip.setInRing_wcens (c : Chip) (f q : Nat) (x : InRing) : (c.setInRing f q x).wcens = c.wcens := rfl
@[simp] theorem Chip.setInRing_time (c : Chip) (f q : Nat) (x : InRing) : (c.setInRing f q x).time = c.time := rfl
@[simp] theorem Chip.setInRing_cars (c : Chip) (f q : Nat) (x : InRing) : (c.setInRing f q x).cars = c.cars := rfl
@[simp] theorem Chip.setInRing_seals (c : Chip) (f q : Nat) (x : InRing) : (c.setInRing f q x).seals = c.seals := rfl
@[simp] theorem Chip.setInRing_parts (c : Chip) (f q : Nat) (x : InRing) : (c.setInRing f q x).parts = c.parts := rfl
@[simp] theorem Chip.setInRing_mjobs (c : Chip) (f q : Nat) (x : InRing) : (c.setInRing f q x).mjobs = c.mjobs := rfl
@[simp] theorem Chip.setInRing_energy (c : Chip) (f q : Nat) (x : InRing) : (c.setInRing f q x).energy = c.energy := rfl
@[simp] theorem Chip.setInRing_chgSecond (c : Chip) (f q : Nat) (x : InRing) : (c.setInRing f q x).chgSecond = c.chgSecond := rfl
@[simp] theorem Chip.setInRing_flash (c : Chip) (f q : Nat) (x : InRing) : (c.setInRing f q x).flash = c.flash := rfl
@[simp] theorem Chip.setInRing_prot (c : Chip) (f q : Nat) (x : InRing) : (c.setInRing f q x).prot = c.prot := rfl
@[simp] theorem Chip.setInRing_cfg (c : Chip) (f q : Nat) (x : InRing) : (c.setInRing f q x).cfg = c.cfg := rfl
@[simp] theorem Chip.setInRing_boot (c : Chip) (f q : Nat) (x : InRing) : (c.setInRing f q x).boot = c.boot := rfl
@[simp] theorem Chip.setInRing_outRings (c : Chip) (f q : Nat) (x : InRing) : (c.setInRing f q x).outRings = c.outRings := rfl
@[simp] theorem Chip.setInRing_freeAt (c : Chip) (f q : Nat) (x : InRing) : (c.setInRing f q x).freeAt = c.freeAt := rfl
@[simp] theorem Chip.setInRing_cref (c : Chip) (f q : Nat) (x : InRing) : (c.setInRing f q x).cref = c.cref := rfl
@[simp] theorem Chip.setInRing_upsets (c : Chip) (f q : Nat) (x : InRing) : (c.setInRing f q x).upsets = c.upsets := rfl
@[simp] theorem Chip.setInRing_now (c : Chip) (f q : Nat) (x : InRing) : (c.setInRing f q x).now = c.now := rfl
@[simp] theorem Chip.setInRing_up (c : Chip) (f q : Nat) (x : InRing) : (c.setInRing f q x).up = c.up := rfl
@[simp] theorem Chip.setInRing_fresh (c : Chip) (f q : Nat) (x : InRing) : (c.setInRing f q x).fresh = c.fresh := rfl
@[simp] theorem Chip.setInRing_out (c : Chip) (f q : Nat) (x : InRing) : (c.setInRing f q x).out = c.out := rfl
@[simp] theorem Chip.setInRing_rd (c : Chip) (f q : Nat) (x : InRing) (r' : Reg) (i' j' : Nat) : (c.setInRing f q x).rd r' i' j' = c.rd r' i' j' := rfl
@[simp] theorem Chip.setInRing_g (c : Chip) (f q : Nat) (x : InRing) (f' : Fld) (i' j' : Nat) : (c.setInRing f q x).g f' i' j' = c.g f' i' j' := rfl
@[simp] theorem Chip.setInRing_on (c : Chip) (f q : Nat) (x : InRing) (f' : Fld) (i' j' : Nat) : (c.setInRing f q x).on f' i' j' = c.on f' i' j' := rfl
@[simp] theorem Chip.setInRing_byte (c : Chip) (f q : Nat) (x : InRing) (k' : Nat) : (c.setInRing f q x).byte k' = c.byte k' := rfl

/-! ### Chip.setOutRing -/

@[simp] theorem Chip.setOutRing_regs (c : Chip) (f q : Nat) (x : OutRing) : (c.setOutRing f q x).regs = c.regs := rfl
@[simp] theorem Chip.setOutRing_mem (c : Chip) (f q : Nat) (x : OutRing) : (c.setOutRing f q x).mem = c.mem := rfl
@[simp] theorem Chip.setOutRing_poison (c : Chip) (f q : Nat) (x : OutRing) : (c.setOutRing f q x).poison = c.poison := rfl
@[simp] theorem Chip.setOutRing_queues (c : Chip) (f q : Nat) (x : OutRing) : (c.setOutRing f q x).queues = c.queues := rfl
@[simp] theorem Chip.setOutRing_seqs (c : Chip) (f q : Nat) (x : OutRing) : (c.setOutRing f q x).seqs = c.seqs := rfl
@[simp] theorem Chip.setOutRing_units (c : Chip) (f q : Nat) (x : OutRing) : (c.setOutRing f q x).units = c.units := rfl
@[simp] theorem Chip.setOutRing_partials (c : Chip) (f q : Nat) (x : OutRing) : (c.setOutRing f q x).partials = c.partials := rfl
@[simp] theorem Chip.setOutRing_combs (c : Chip) (f q : Nat) (x : OutRing) : (c.setOutRing f q x).combs = c.combs := rfl
@[simp] theorem Chip.setOutRing_arbs (c : Chip) (f q : Nat) (x : OutRing) : (c.setOutRing f q x).arbs = c.arbs := rfl
@[simp] theorem Chip.setOutRing_xfers (c : Chip) (f q : Nat) (x : OutRing) : (c.setOutRing f q x).xfers = c.xfers := rfl
@[simp] theorem Chip.setOutRing_steps (c : Chip) (f q : Nat) (x : OutRing) : (c.setOutRing f q x).steps = c.steps := rfl
@[simp] theorem Chip.setOutRing_flog (c : Chip) (f q : Nat) (x : OutRing) : (c.setOutRing f q x).flog = c.flog := rfl
@[simp] theorem Chip.setOutRing_meters (c : Chip) (f q : Nat) (x : OutRing) : (c.setOutRing f q x).meters = c.meters := rfl
@[simp] theorem Chip.setOutRing_maps (c : Chip) (f q : Nat) (x : OutRing) : (c.setOutRing f q x).maps = c.maps := rfl
@[simp] theorem Chip.setOutRing_held (c : Chip) (f q : Nat) (x : OutRing) : (c.setOutRing f q x).held = c.held := rfl
@[simp] theorem Chip.setOutRing_stats (c : Chip) (f q : Nat) (x : OutRing) : (c.setOutRing f q x).stats = c.stats := rfl
@[simp] theorem Chip.setOutRing_press (c : Chip) (f q : Nat) (x : OutRing) : (c.setOutRing f q x).press = c.press := rfl
@[simp] theorem Chip.setOutRing_d3 (c : Chip) (f q : Nat) (x : OutRing) : (c.setOutRing f q x).d3 = c.d3 := rfl
@[simp] theorem Chip.setOutRing_racks (c : Chip) (f q : Nat) (x : OutRing) : (c.setOutRing f q x).racks = c.racks := rfl
@[simp] theorem Chip.setOutRing_solvers (c : Chip) (f q : Nat) (x : OutRing) : (c.setOutRing f q x).solvers = c.solvers := rfl
@[simp] theorem Chip.setOutRing_upds (c : Chip) (f q : Nat) (x : OutRing) : (c.setOutRing f q x).upds = c.upds := rfl
@[simp] theorem Chip.setOutRing_pnorms (c : Chip) (f q : Nat) (x : OutRing) : (c.setOutRing f q x).pnorms = c.pnorms := rfl
@[simp] theorem Chip.setOutRing_links (c : Chip) (f q : Nat) (x : OutRing) : (c.setOutRing f q x).links = c.links := rfl
@[simp] theorem Chip.setOutRing_arrived (c : Chip) (f q : Nat) (x : OutRing) : (c.setOutRing f q x).arrived = c.arrived := rfl
@[simp] theorem Chip.setOutRing_chold (c : Chip) (f q : Nat) (x : OutRing) : (c.setOutRing f q x).chold = c.chold := rfl
@[simp] theorem Chip.setOutRing_wcens (c : Chip) (f q : Nat) (x : OutRing) : (c.setOutRing f q x).wcens = c.wcens := rfl
@[simp] theorem Chip.setOutRing_time (c : Chip) (f q : Nat) (x : OutRing) : (c.setOutRing f q x).time = c.time := rfl
@[simp] theorem Chip.setOutRing_cars (c : Chip) (f q : Nat) (x : OutRing) : (c.setOutRing f q x).cars = c.cars := rfl
@[simp] theorem Chip.setOutRing_seals (c : Chip) (f q : Nat) (x : OutRing) : (c.setOutRing f q x).seals = c.seals := rfl
@[simp] theorem Chip.setOutRing_parts (c : Chip) (f q : Nat) (x : OutRing) : (c.setOutRing f q x).parts = c.parts := rfl
@[simp] theorem Chip.setOutRing_mjobs (c : Chip) (f q : Nat) (x : OutRing) : (c.setOutRing f q x).mjobs = c.mjobs := rfl
@[simp] theorem Chip.setOutRing_energy (c : Chip) (f q : Nat) (x : OutRing) : (c.setOutRing f q x).energy = c.energy := rfl
@[simp] theorem Chip.setOutRing_chgSecond (c : Chip) (f q : Nat) (x : OutRing) : (c.setOutRing f q x).chgSecond = c.chgSecond := rfl
@[simp] theorem Chip.setOutRing_flash (c : Chip) (f q : Nat) (x : OutRing) : (c.setOutRing f q x).flash = c.flash := rfl
@[simp] theorem Chip.setOutRing_prot (c : Chip) (f q : Nat) (x : OutRing) : (c.setOutRing f q x).prot = c.prot := rfl
@[simp] theorem Chip.setOutRing_cfg (c : Chip) (f q : Nat) (x : OutRing) : (c.setOutRing f q x).cfg = c.cfg := rfl
@[simp] theorem Chip.setOutRing_boot (c : Chip) (f q : Nat) (x : OutRing) : (c.setOutRing f q x).boot = c.boot := rfl
@[simp] theorem Chip.setOutRing_inRings (c : Chip) (f q : Nat) (x : OutRing) : (c.setOutRing f q x).inRings = c.inRings := rfl
@[simp] theorem Chip.setOutRing_freeAt (c : Chip) (f q : Nat) (x : OutRing) : (c.setOutRing f q x).freeAt = c.freeAt := rfl
@[simp] theorem Chip.setOutRing_cref (c : Chip) (f q : Nat) (x : OutRing) : (c.setOutRing f q x).cref = c.cref := rfl
@[simp] theorem Chip.setOutRing_upsets (c : Chip) (f q : Nat) (x : OutRing) : (c.setOutRing f q x).upsets = c.upsets := rfl
@[simp] theorem Chip.setOutRing_now (c : Chip) (f q : Nat) (x : OutRing) : (c.setOutRing f q x).now = c.now := rfl
@[simp] theorem Chip.setOutRing_up (c : Chip) (f q : Nat) (x : OutRing) : (c.setOutRing f q x).up = c.up := rfl
@[simp] theorem Chip.setOutRing_fresh (c : Chip) (f q : Nat) (x : OutRing) : (c.setOutRing f q x).fresh = c.fresh := rfl
@[simp] theorem Chip.setOutRing_out (c : Chip) (f q : Nat) (x : OutRing) : (c.setOutRing f q x).out = c.out := rfl
@[simp] theorem Chip.setOutRing_rd (c : Chip) (f q : Nat) (x : OutRing) (r' : Reg) (i' j' : Nat) : (c.setOutRing f q x).rd r' i' j' = c.rd r' i' j' := rfl
@[simp] theorem Chip.setOutRing_g (c : Chip) (f q : Nat) (x : OutRing) (f' : Fld) (i' j' : Nat) : (c.setOutRing f q x).g f' i' j' = c.g f' i' j' := rfl
@[simp] theorem Chip.setOutRing_on (c : Chip) (f q : Nat) (x : OutRing) (f' : Fld) (i' j' : Nat) : (c.setOutRing f q x).on f' i' j' = c.on f' i' j' := rfl
@[simp] theorem Chip.setOutRing_byte (c : Chip) (f q : Nat) (x : OutRing) (k' : Nat) : (c.setOutRing f q x).byte k' = c.byte k' := rfl

/-! ### Chip.setLink -/

@[simp] theorem Chip.setLink_regs (c : Chip) (d : Nat) (x : LinkS) : (c.setLink d x).regs = c.regs := rfl
@[simp] theorem Chip.setLink_mem (c : Chip) (d : Nat) (x : LinkS) : (c.setLink d x).mem = c.mem := rfl
@[simp] theorem Chip.setLink_poison (c : Chip) (d : Nat) (x : LinkS) : (c.setLink d x).poison = c.poison := rfl
@[simp] theorem Chip.setLink_queues (c : Chip) (d : Nat) (x : LinkS) : (c.setLink d x).queues = c.queues := rfl
@[simp] theorem Chip.setLink_seqs (c : Chip) (d : Nat) (x : LinkS) : (c.setLink d x).seqs = c.seqs := rfl
@[simp] theorem Chip.setLink_units (c : Chip) (d : Nat) (x : LinkS) : (c.setLink d x).units = c.units := rfl
@[simp] theorem Chip.setLink_partials (c : Chip) (d : Nat) (x : LinkS) : (c.setLink d x).partials = c.partials := rfl
@[simp] theorem Chip.setLink_combs (c : Chip) (d : Nat) (x : LinkS) : (c.setLink d x).combs = c.combs := rfl
@[simp] theorem Chip.setLink_arbs (c : Chip) (d : Nat) (x : LinkS) : (c.setLink d x).arbs = c.arbs := rfl
@[simp] theorem Chip.setLink_xfers (c : Chip) (d : Nat) (x : LinkS) : (c.setLink d x).xfers = c.xfers := rfl
@[simp] theorem Chip.setLink_steps (c : Chip) (d : Nat) (x : LinkS) : (c.setLink d x).steps = c.steps := rfl
@[simp] theorem Chip.setLink_flog (c : Chip) (d : Nat) (x : LinkS) : (c.setLink d x).flog = c.flog := rfl
@[simp] theorem Chip.setLink_meters (c : Chip) (d : Nat) (x : LinkS) : (c.setLink d x).meters = c.meters := rfl
@[simp] theorem Chip.setLink_maps (c : Chip) (d : Nat) (x : LinkS) : (c.setLink d x).maps = c.maps := rfl
@[simp] theorem Chip.setLink_held (c : Chip) (d : Nat) (x : LinkS) : (c.setLink d x).held = c.held := rfl
@[simp] theorem Chip.setLink_stats (c : Chip) (d : Nat) (x : LinkS) : (c.setLink d x).stats = c.stats := rfl
@[simp] theorem Chip.setLink_press (c : Chip) (d : Nat) (x : LinkS) : (c.setLink d x).press = c.press := rfl
@[simp] theorem Chip.setLink_d3 (c : Chip) (d : Nat) (x : LinkS) : (c.setLink d x).d3 = c.d3 := rfl
@[simp] theorem Chip.setLink_racks (c : Chip) (d : Nat) (x : LinkS) : (c.setLink d x).racks = c.racks := rfl
@[simp] theorem Chip.setLink_solvers (c : Chip) (d : Nat) (x : LinkS) : (c.setLink d x).solvers = c.solvers := rfl
@[simp] theorem Chip.setLink_upds (c : Chip) (d : Nat) (x : LinkS) : (c.setLink d x).upds = c.upds := rfl
@[simp] theorem Chip.setLink_pnorms (c : Chip) (d : Nat) (x : LinkS) : (c.setLink d x).pnorms = c.pnorms := rfl
@[simp] theorem Chip.setLink_arrived (c : Chip) (d : Nat) (x : LinkS) : (c.setLink d x).arrived = c.arrived := rfl
@[simp] theorem Chip.setLink_chold (c : Chip) (d : Nat) (x : LinkS) : (c.setLink d x).chold = c.chold := rfl
@[simp] theorem Chip.setLink_wcens (c : Chip) (d : Nat) (x : LinkS) : (c.setLink d x).wcens = c.wcens := rfl
@[simp] theorem Chip.setLink_time (c : Chip) (d : Nat) (x : LinkS) : (c.setLink d x).time = c.time := rfl
@[simp] theorem Chip.setLink_cars (c : Chip) (d : Nat) (x : LinkS) : (c.setLink d x).cars = c.cars := rfl
@[simp] theorem Chip.setLink_seals (c : Chip) (d : Nat) (x : LinkS) : (c.setLink d x).seals = c.seals := rfl
@[simp] theorem Chip.setLink_parts (c : Chip) (d : Nat) (x : LinkS) : (c.setLink d x).parts = c.parts := rfl
@[simp] theorem Chip.setLink_mjobs (c : Chip) (d : Nat) (x : LinkS) : (c.setLink d x).mjobs = c.mjobs := rfl
@[simp] theorem Chip.setLink_energy (c : Chip) (d : Nat) (x : LinkS) : (c.setLink d x).energy = c.energy := rfl
@[simp] theorem Chip.setLink_chgSecond (c : Chip) (d : Nat) (x : LinkS) : (c.setLink d x).chgSecond = c.chgSecond := rfl
@[simp] theorem Chip.setLink_flash (c : Chip) (d : Nat) (x : LinkS) : (c.setLink d x).flash = c.flash := rfl
@[simp] theorem Chip.setLink_prot (c : Chip) (d : Nat) (x : LinkS) : (c.setLink d x).prot = c.prot := rfl
@[simp] theorem Chip.setLink_cfg (c : Chip) (d : Nat) (x : LinkS) : (c.setLink d x).cfg = c.cfg := rfl
@[simp] theorem Chip.setLink_boot (c : Chip) (d : Nat) (x : LinkS) : (c.setLink d x).boot = c.boot := rfl
@[simp] theorem Chip.setLink_inRings (c : Chip) (d : Nat) (x : LinkS) : (c.setLink d x).inRings = c.inRings := rfl
@[simp] theorem Chip.setLink_outRings (c : Chip) (d : Nat) (x : LinkS) : (c.setLink d x).outRings = c.outRings := rfl
@[simp] theorem Chip.setLink_freeAt (c : Chip) (d : Nat) (x : LinkS) : (c.setLink d x).freeAt = c.freeAt := rfl
@[simp] theorem Chip.setLink_cref (c : Chip) (d : Nat) (x : LinkS) : (c.setLink d x).cref = c.cref := rfl
@[simp] theorem Chip.setLink_upsets (c : Chip) (d : Nat) (x : LinkS) : (c.setLink d x).upsets = c.upsets := rfl
@[simp] theorem Chip.setLink_now (c : Chip) (d : Nat) (x : LinkS) : (c.setLink d x).now = c.now := rfl
@[simp] theorem Chip.setLink_up (c : Chip) (d : Nat) (x : LinkS) : (c.setLink d x).up = c.up := rfl
@[simp] theorem Chip.setLink_fresh (c : Chip) (d : Nat) (x : LinkS) : (c.setLink d x).fresh = c.fresh := rfl
@[simp] theorem Chip.setLink_out (c : Chip) (d : Nat) (x : LinkS) : (c.setLink d x).out = c.out := rfl
@[simp] theorem Chip.setLink_rd (c : Chip) (d : Nat) (x : LinkS) (r' : Reg) (i' j' : Nat) : (c.setLink d x).rd r' i' j' = c.rd r' i' j' := rfl
@[simp] theorem Chip.setLink_g (c : Chip) (d : Nat) (x : LinkS) (f' : Fld) (i' j' : Nat) : (c.setLink d x).g f' i' j' = c.g f' i' j' := rfl
@[simp] theorem Chip.setLink_on (c : Chip) (d : Nat) (x : LinkS) (f' : Fld) (i' j' : Nat) : (c.setLink d x).on f' i' j' = c.on f' i' j' := rfl
@[simp] theorem Chip.setLink_byte (c : Chip) (d : Nat) (x : LinkS) (k' : Nat) : (c.setLink d x).byte k' = c.byte k' := rfl

/-! ### Chip.setPartS -/

@[simp] theorem Chip.setPartS_regs (c : Chip) (p : Nat) (x : PartS) : (c.setPartS p x).regs = c.regs := rfl
@[simp] theorem Chip.setPartS_mem (c : Chip) (p : Nat) (x : PartS) : (c.setPartS p x).mem = c.mem := rfl
@[simp] theorem Chip.setPartS_poison (c : Chip) (p : Nat) (x : PartS) : (c.setPartS p x).poison = c.poison := rfl
@[simp] theorem Chip.setPartS_queues (c : Chip) (p : Nat) (x : PartS) : (c.setPartS p x).queues = c.queues := rfl
@[simp] theorem Chip.setPartS_seqs (c : Chip) (p : Nat) (x : PartS) : (c.setPartS p x).seqs = c.seqs := rfl
@[simp] theorem Chip.setPartS_units (c : Chip) (p : Nat) (x : PartS) : (c.setPartS p x).units = c.units := rfl
@[simp] theorem Chip.setPartS_partials (c : Chip) (p : Nat) (x : PartS) : (c.setPartS p x).partials = c.partials := rfl
@[simp] theorem Chip.setPartS_combs (c : Chip) (p : Nat) (x : PartS) : (c.setPartS p x).combs = c.combs := rfl
@[simp] theorem Chip.setPartS_arbs (c : Chip) (p : Nat) (x : PartS) : (c.setPartS p x).arbs = c.arbs := rfl
@[simp] theorem Chip.setPartS_xfers (c : Chip) (p : Nat) (x : PartS) : (c.setPartS p x).xfers = c.xfers := rfl
@[simp] theorem Chip.setPartS_steps (c : Chip) (p : Nat) (x : PartS) : (c.setPartS p x).steps = c.steps := rfl
@[simp] theorem Chip.setPartS_flog (c : Chip) (p : Nat) (x : PartS) : (c.setPartS p x).flog = c.flog := rfl
@[simp] theorem Chip.setPartS_meters (c : Chip) (p : Nat) (x : PartS) : (c.setPartS p x).meters = c.meters := rfl
@[simp] theorem Chip.setPartS_maps (c : Chip) (p : Nat) (x : PartS) : (c.setPartS p x).maps = c.maps := rfl
@[simp] theorem Chip.setPartS_held (c : Chip) (p : Nat) (x : PartS) : (c.setPartS p x).held = c.held := rfl
@[simp] theorem Chip.setPartS_stats (c : Chip) (p : Nat) (x : PartS) : (c.setPartS p x).stats = c.stats := rfl
@[simp] theorem Chip.setPartS_press (c : Chip) (p : Nat) (x : PartS) : (c.setPartS p x).press = c.press := rfl
@[simp] theorem Chip.setPartS_d3 (c : Chip) (p : Nat) (x : PartS) : (c.setPartS p x).d3 = c.d3 := rfl
@[simp] theorem Chip.setPartS_racks (c : Chip) (p : Nat) (x : PartS) : (c.setPartS p x).racks = c.racks := rfl
@[simp] theorem Chip.setPartS_solvers (c : Chip) (p : Nat) (x : PartS) : (c.setPartS p x).solvers = c.solvers := rfl
@[simp] theorem Chip.setPartS_upds (c : Chip) (p : Nat) (x : PartS) : (c.setPartS p x).upds = c.upds := rfl
@[simp] theorem Chip.setPartS_pnorms (c : Chip) (p : Nat) (x : PartS) : (c.setPartS p x).pnorms = c.pnorms := rfl
@[simp] theorem Chip.setPartS_links (c : Chip) (p : Nat) (x : PartS) : (c.setPartS p x).links = c.links := rfl
@[simp] theorem Chip.setPartS_arrived (c : Chip) (p : Nat) (x : PartS) : (c.setPartS p x).arrived = c.arrived := rfl
@[simp] theorem Chip.setPartS_chold (c : Chip) (p : Nat) (x : PartS) : (c.setPartS p x).chold = c.chold := rfl
@[simp] theorem Chip.setPartS_wcens (c : Chip) (p : Nat) (x : PartS) : (c.setPartS p x).wcens = c.wcens := rfl
@[simp] theorem Chip.setPartS_time (c : Chip) (p : Nat) (x : PartS) : (c.setPartS p x).time = c.time := rfl
@[simp] theorem Chip.setPartS_cars (c : Chip) (p : Nat) (x : PartS) : (c.setPartS p x).cars = c.cars := rfl
@[simp] theorem Chip.setPartS_seals (c : Chip) (p : Nat) (x : PartS) : (c.setPartS p x).seals = c.seals := rfl
@[simp] theorem Chip.setPartS_mjobs (c : Chip) (p : Nat) (x : PartS) : (c.setPartS p x).mjobs = c.mjobs := rfl
@[simp] theorem Chip.setPartS_energy (c : Chip) (p : Nat) (x : PartS) : (c.setPartS p x).energy = c.energy := rfl
@[simp] theorem Chip.setPartS_chgSecond (c : Chip) (p : Nat) (x : PartS) : (c.setPartS p x).chgSecond = c.chgSecond := rfl
@[simp] theorem Chip.setPartS_flash (c : Chip) (p : Nat) (x : PartS) : (c.setPartS p x).flash = c.flash := rfl
@[simp] theorem Chip.setPartS_prot (c : Chip) (p : Nat) (x : PartS) : (c.setPartS p x).prot = c.prot := rfl
@[simp] theorem Chip.setPartS_cfg (c : Chip) (p : Nat) (x : PartS) : (c.setPartS p x).cfg = c.cfg := rfl
@[simp] theorem Chip.setPartS_boot (c : Chip) (p : Nat) (x : PartS) : (c.setPartS p x).boot = c.boot := rfl
@[simp] theorem Chip.setPartS_inRings (c : Chip) (p : Nat) (x : PartS) : (c.setPartS p x).inRings = c.inRings := rfl
@[simp] theorem Chip.setPartS_outRings (c : Chip) (p : Nat) (x : PartS) : (c.setPartS p x).outRings = c.outRings := rfl
@[simp] theorem Chip.setPartS_freeAt (c : Chip) (p : Nat) (x : PartS) : (c.setPartS p x).freeAt = c.freeAt := rfl
@[simp] theorem Chip.setPartS_cref (c : Chip) (p : Nat) (x : PartS) : (c.setPartS p x).cref = c.cref := rfl
@[simp] theorem Chip.setPartS_upsets (c : Chip) (p : Nat) (x : PartS) : (c.setPartS p x).upsets = c.upsets := rfl
@[simp] theorem Chip.setPartS_now (c : Chip) (p : Nat) (x : PartS) : (c.setPartS p x).now = c.now := rfl
@[simp] theorem Chip.setPartS_up (c : Chip) (p : Nat) (x : PartS) : (c.setPartS p x).up = c.up := rfl
@[simp] theorem Chip.setPartS_fresh (c : Chip) (p : Nat) (x : PartS) : (c.setPartS p x).fresh = c.fresh := rfl
@[simp] theorem Chip.setPartS_out (c : Chip) (p : Nat) (x : PartS) : (c.setPartS p x).out = c.out := rfl
@[simp] theorem Chip.setPartS_rd (c : Chip) (p : Nat) (x : PartS) (r' : Reg) (i' j' : Nat) : (c.setPartS p x).rd r' i' j' = c.rd r' i' j' := rfl
@[simp] theorem Chip.setPartS_g (c : Chip) (p : Nat) (x : PartS) (f' : Fld) (i' j' : Nat) : (c.setPartS p x).g f' i' j' = c.g f' i' j' := rfl
@[simp] theorem Chip.setPartS_on (c : Chip) (p : Nat) (x : PartS) (f' : Fld) (i' j' : Nat) : (c.setPartS p x).on f' i' j' = c.on f' i' j' := rfl
@[simp] theorem Chip.setPartS_byte (c : Chip) (p : Nat) (x : PartS) (k' : Nat) : (c.setPartS p x).byte k' = c.byte k' := rfl

/-! ### Chip.setPress -/

@[simp] theorem Chip.setPress_regs (c : Chip) (cl : Nat) (x : PressS) : (c.setPress cl x).regs = c.regs := rfl
@[simp] theorem Chip.setPress_mem (c : Chip) (cl : Nat) (x : PressS) : (c.setPress cl x).mem = c.mem := rfl
@[simp] theorem Chip.setPress_poison (c : Chip) (cl : Nat) (x : PressS) : (c.setPress cl x).poison = c.poison := rfl
@[simp] theorem Chip.setPress_queues (c : Chip) (cl : Nat) (x : PressS) : (c.setPress cl x).queues = c.queues := rfl
@[simp] theorem Chip.setPress_seqs (c : Chip) (cl : Nat) (x : PressS) : (c.setPress cl x).seqs = c.seqs := rfl
@[simp] theorem Chip.setPress_units (c : Chip) (cl : Nat) (x : PressS) : (c.setPress cl x).units = c.units := rfl
@[simp] theorem Chip.setPress_partials (c : Chip) (cl : Nat) (x : PressS) : (c.setPress cl x).partials = c.partials := rfl
@[simp] theorem Chip.setPress_combs (c : Chip) (cl : Nat) (x : PressS) : (c.setPress cl x).combs = c.combs := rfl
@[simp] theorem Chip.setPress_arbs (c : Chip) (cl : Nat) (x : PressS) : (c.setPress cl x).arbs = c.arbs := rfl
@[simp] theorem Chip.setPress_xfers (c : Chip) (cl : Nat) (x : PressS) : (c.setPress cl x).xfers = c.xfers := rfl
@[simp] theorem Chip.setPress_steps (c : Chip) (cl : Nat) (x : PressS) : (c.setPress cl x).steps = c.steps := rfl
@[simp] theorem Chip.setPress_flog (c : Chip) (cl : Nat) (x : PressS) : (c.setPress cl x).flog = c.flog := rfl
@[simp] theorem Chip.setPress_meters (c : Chip) (cl : Nat) (x : PressS) : (c.setPress cl x).meters = c.meters := rfl
@[simp] theorem Chip.setPress_maps (c : Chip) (cl : Nat) (x : PressS) : (c.setPress cl x).maps = c.maps := rfl
@[simp] theorem Chip.setPress_held (c : Chip) (cl : Nat) (x : PressS) : (c.setPress cl x).held = c.held := rfl
@[simp] theorem Chip.setPress_stats (c : Chip) (cl : Nat) (x : PressS) : (c.setPress cl x).stats = c.stats := rfl
@[simp] theorem Chip.setPress_d3 (c : Chip) (cl : Nat) (x : PressS) : (c.setPress cl x).d3 = c.d3 := rfl
@[simp] theorem Chip.setPress_racks (c : Chip) (cl : Nat) (x : PressS) : (c.setPress cl x).racks = c.racks := rfl
@[simp] theorem Chip.setPress_solvers (c : Chip) (cl : Nat) (x : PressS) : (c.setPress cl x).solvers = c.solvers := rfl
@[simp] theorem Chip.setPress_upds (c : Chip) (cl : Nat) (x : PressS) : (c.setPress cl x).upds = c.upds := rfl
@[simp] theorem Chip.setPress_pnorms (c : Chip) (cl : Nat) (x : PressS) : (c.setPress cl x).pnorms = c.pnorms := rfl
@[simp] theorem Chip.setPress_links (c : Chip) (cl : Nat) (x : PressS) : (c.setPress cl x).links = c.links := rfl
@[simp] theorem Chip.setPress_arrived (c : Chip) (cl : Nat) (x : PressS) : (c.setPress cl x).arrived = c.arrived := rfl
@[simp] theorem Chip.setPress_chold (c : Chip) (cl : Nat) (x : PressS) : (c.setPress cl x).chold = c.chold := rfl
@[simp] theorem Chip.setPress_wcens (c : Chip) (cl : Nat) (x : PressS) : (c.setPress cl x).wcens = c.wcens := rfl
@[simp] theorem Chip.setPress_time (c : Chip) (cl : Nat) (x : PressS) : (c.setPress cl x).time = c.time := rfl
@[simp] theorem Chip.setPress_cars (c : Chip) (cl : Nat) (x : PressS) : (c.setPress cl x).cars = c.cars := rfl
@[simp] theorem Chip.setPress_seals (c : Chip) (cl : Nat) (x : PressS) : (c.setPress cl x).seals = c.seals := rfl
@[simp] theorem Chip.setPress_parts (c : Chip) (cl : Nat) (x : PressS) : (c.setPress cl x).parts = c.parts := rfl
@[simp] theorem Chip.setPress_mjobs (c : Chip) (cl : Nat) (x : PressS) : (c.setPress cl x).mjobs = c.mjobs := rfl
@[simp] theorem Chip.setPress_energy (c : Chip) (cl : Nat) (x : PressS) : (c.setPress cl x).energy = c.energy := rfl
@[simp] theorem Chip.setPress_chgSecond (c : Chip) (cl : Nat) (x : PressS) : (c.setPress cl x).chgSecond = c.chgSecond := rfl
@[simp] theorem Chip.setPress_flash (c : Chip) (cl : Nat) (x : PressS) : (c.setPress cl x).flash = c.flash := rfl
@[simp] theorem Chip.setPress_prot (c : Chip) (cl : Nat) (x : PressS) : (c.setPress cl x).prot = c.prot := rfl
@[simp] theorem Chip.setPress_cfg (c : Chip) (cl : Nat) (x : PressS) : (c.setPress cl x).cfg = c.cfg := rfl
@[simp] theorem Chip.setPress_boot (c : Chip) (cl : Nat) (x : PressS) : (c.setPress cl x).boot = c.boot := rfl
@[simp] theorem Chip.setPress_inRings (c : Chip) (cl : Nat) (x : PressS) : (c.setPress cl x).inRings = c.inRings := rfl
@[simp] theorem Chip.setPress_outRings (c : Chip) (cl : Nat) (x : PressS) : (c.setPress cl x).outRings = c.outRings := rfl
@[simp] theorem Chip.setPress_freeAt (c : Chip) (cl : Nat) (x : PressS) : (c.setPress cl x).freeAt = c.freeAt := rfl
@[simp] theorem Chip.setPress_cref (c : Chip) (cl : Nat) (x : PressS) : (c.setPress cl x).cref = c.cref := rfl
@[simp] theorem Chip.setPress_upsets (c : Chip) (cl : Nat) (x : PressS) : (c.setPress cl x).upsets = c.upsets := rfl
@[simp] theorem Chip.setPress_now (c : Chip) (cl : Nat) (x : PressS) : (c.setPress cl x).now = c.now := rfl
@[simp] theorem Chip.setPress_up (c : Chip) (cl : Nat) (x : PressS) : (c.setPress cl x).up = c.up := rfl
@[simp] theorem Chip.setPress_fresh (c : Chip) (cl : Nat) (x : PressS) : (c.setPress cl x).fresh = c.fresh := rfl
@[simp] theorem Chip.setPress_out (c : Chip) (cl : Nat) (x : PressS) : (c.setPress cl x).out = c.out := rfl
@[simp] theorem Chip.setPress_rd (c : Chip) (cl : Nat) (x : PressS) (r' : Reg) (i' j' : Nat) : (c.setPress cl x).rd r' i' j' = c.rd r' i' j' := rfl
@[simp] theorem Chip.setPress_g (c : Chip) (cl : Nat) (x : PressS) (f' : Fld) (i' j' : Nat) : (c.setPress cl x).g f' i' j' = c.g f' i' j' := rfl
@[simp] theorem Chip.setPress_on (c : Chip) (cl : Nat) (x : PressS) (f' : Fld) (i' j' : Nat) : (c.setPress cl x).on f' i' j' = c.on f' i' j' := rfl
@[simp] theorem Chip.setPress_byte (c : Chip) (cl : Nat) (x : PressS) (k' : Nat) : (c.setPress cl x).byte k' = c.byte k' := rfl

/-! ### Chip.setLane -/

@[simp] theorem Chip.setLane_regs (c : Chip) (cl : Nat) (x : LaneS) : (c.setLane cl x).regs = c.regs := rfl
@[simp] theorem Chip.setLane_mem (c : Chip) (cl : Nat) (x : LaneS) : (c.setLane cl x).mem = c.mem := rfl
@[simp] theorem Chip.setLane_poison (c : Chip) (cl : Nat) (x : LaneS) : (c.setLane cl x).poison = c.poison := rfl
@[simp] theorem Chip.setLane_queues (c : Chip) (cl : Nat) (x : LaneS) : (c.setLane cl x).queues = c.queues := rfl
@[simp] theorem Chip.setLane_seqs (c : Chip) (cl : Nat) (x : LaneS) : (c.setLane cl x).seqs = c.seqs := rfl
@[simp] theorem Chip.setLane_units (c : Chip) (cl : Nat) (x : LaneS) : (c.setLane cl x).units = c.units := rfl
@[simp] theorem Chip.setLane_partials (c : Chip) (cl : Nat) (x : LaneS) : (c.setLane cl x).partials = c.partials := rfl
@[simp] theorem Chip.setLane_combs (c : Chip) (cl : Nat) (x : LaneS) : (c.setLane cl x).combs = c.combs := rfl
@[simp] theorem Chip.setLane_arbs (c : Chip) (cl : Nat) (x : LaneS) : (c.setLane cl x).arbs = c.arbs := rfl
@[simp] theorem Chip.setLane_xfers (c : Chip) (cl : Nat) (x : LaneS) : (c.setLane cl x).xfers = c.xfers := rfl
@[simp] theorem Chip.setLane_steps (c : Chip) (cl : Nat) (x : LaneS) : (c.setLane cl x).steps = c.steps := rfl
@[simp] theorem Chip.setLane_flog (c : Chip) (cl : Nat) (x : LaneS) : (c.setLane cl x).flog = c.flog := rfl
@[simp] theorem Chip.setLane_meters (c : Chip) (cl : Nat) (x : LaneS) : (c.setLane cl x).meters = c.meters := rfl
@[simp] theorem Chip.setLane_maps (c : Chip) (cl : Nat) (x : LaneS) : (c.setLane cl x).maps = c.maps := rfl
@[simp] theorem Chip.setLane_held (c : Chip) (cl : Nat) (x : LaneS) : (c.setLane cl x).held = c.held := rfl
@[simp] theorem Chip.setLane_stats (c : Chip) (cl : Nat) (x : LaneS) : (c.setLane cl x).stats = c.stats := rfl
@[simp] theorem Chip.setLane_press (c : Chip) (cl : Nat) (x : LaneS) : (c.setLane cl x).press = c.press := rfl
@[simp] theorem Chip.setLane_d3 (c : Chip) (cl : Nat) (x : LaneS) : (c.setLane cl x).d3 = c.d3 := rfl
@[simp] theorem Chip.setLane_solvers (c : Chip) (cl : Nat) (x : LaneS) : (c.setLane cl x).solvers = c.solvers := rfl
@[simp] theorem Chip.setLane_upds (c : Chip) (cl : Nat) (x : LaneS) : (c.setLane cl x).upds = c.upds := rfl
@[simp] theorem Chip.setLane_pnorms (c : Chip) (cl : Nat) (x : LaneS) : (c.setLane cl x).pnorms = c.pnorms := rfl
@[simp] theorem Chip.setLane_links (c : Chip) (cl : Nat) (x : LaneS) : (c.setLane cl x).links = c.links := rfl
@[simp] theorem Chip.setLane_arrived (c : Chip) (cl : Nat) (x : LaneS) : (c.setLane cl x).arrived = c.arrived := rfl
@[simp] theorem Chip.setLane_chold (c : Chip) (cl : Nat) (x : LaneS) : (c.setLane cl x).chold = c.chold := rfl
@[simp] theorem Chip.setLane_wcens (c : Chip) (cl : Nat) (x : LaneS) : (c.setLane cl x).wcens = c.wcens := rfl
@[simp] theorem Chip.setLane_time (c : Chip) (cl : Nat) (x : LaneS) : (c.setLane cl x).time = c.time := rfl
@[simp] theorem Chip.setLane_cars (c : Chip) (cl : Nat) (x : LaneS) : (c.setLane cl x).cars = c.cars := rfl
@[simp] theorem Chip.setLane_seals (c : Chip) (cl : Nat) (x : LaneS) : (c.setLane cl x).seals = c.seals := rfl
@[simp] theorem Chip.setLane_parts (c : Chip) (cl : Nat) (x : LaneS) : (c.setLane cl x).parts = c.parts := rfl
@[simp] theorem Chip.setLane_mjobs (c : Chip) (cl : Nat) (x : LaneS) : (c.setLane cl x).mjobs = c.mjobs := rfl
@[simp] theorem Chip.setLane_energy (c : Chip) (cl : Nat) (x : LaneS) : (c.setLane cl x).energy = c.energy := rfl
@[simp] theorem Chip.setLane_chgSecond (c : Chip) (cl : Nat) (x : LaneS) : (c.setLane cl x).chgSecond = c.chgSecond := rfl
@[simp] theorem Chip.setLane_flash (c : Chip) (cl : Nat) (x : LaneS) : (c.setLane cl x).flash = c.flash := rfl
@[simp] theorem Chip.setLane_prot (c : Chip) (cl : Nat) (x : LaneS) : (c.setLane cl x).prot = c.prot := rfl
@[simp] theorem Chip.setLane_cfg (c : Chip) (cl : Nat) (x : LaneS) : (c.setLane cl x).cfg = c.cfg := rfl
@[simp] theorem Chip.setLane_boot (c : Chip) (cl : Nat) (x : LaneS) : (c.setLane cl x).boot = c.boot := rfl
@[simp] theorem Chip.setLane_inRings (c : Chip) (cl : Nat) (x : LaneS) : (c.setLane cl x).inRings = c.inRings := rfl
@[simp] theorem Chip.setLane_outRings (c : Chip) (cl : Nat) (x : LaneS) : (c.setLane cl x).outRings = c.outRings := rfl
@[simp] theorem Chip.setLane_freeAt (c : Chip) (cl : Nat) (x : LaneS) : (c.setLane cl x).freeAt = c.freeAt := rfl
@[simp] theorem Chip.setLane_cref (c : Chip) (cl : Nat) (x : LaneS) : (c.setLane cl x).cref = c.cref := rfl
@[simp] theorem Chip.setLane_upsets (c : Chip) (cl : Nat) (x : LaneS) : (c.setLane cl x).upsets = c.upsets := rfl
@[simp] theorem Chip.setLane_now (c : Chip) (cl : Nat) (x : LaneS) : (c.setLane cl x).now = c.now := rfl
@[simp] theorem Chip.setLane_up (c : Chip) (cl : Nat) (x : LaneS) : (c.setLane cl x).up = c.up := rfl
@[simp] theorem Chip.setLane_fresh (c : Chip) (cl : Nat) (x : LaneS) : (c.setLane cl x).fresh = c.fresh := rfl
@[simp] theorem Chip.setLane_out (c : Chip) (cl : Nat) (x : LaneS) : (c.setLane cl x).out = c.out := rfl
@[simp] theorem Chip.setLane_rd (c : Chip) (cl : Nat) (x : LaneS) (r' : Reg) (i' j' : Nat) : (c.setLane cl x).rd r' i' j' = c.rd r' i' j' := rfl
@[simp] theorem Chip.setLane_g (c : Chip) (cl : Nat) (x : LaneS) (f' : Fld) (i' j' : Nat) : (c.setLane cl x).g f' i' j' = c.g f' i' j' := rfl
@[simp] theorem Chip.setLane_on (c : Chip) (cl : Nat) (x : LaneS) (f' : Fld) (i' j' : Nat) : (c.setLane cl x).on f' i' j' = c.on f' i' j' := rfl
@[simp] theorem Chip.setLane_byte (c : Chip) (cl : Nat) (x : LaneS) (k' : Nat) : (c.setLane cl x).byte k' = c.byte k' := rfl

/-! ### Chip.setSolver -/

@[simp] theorem Chip.setSolver_regs (c : Chip) (r : Nat) (x : SolverS) : (c.setSolver r x).regs = c.regs := rfl
@[simp] theorem Chip.setSolver_mem (c : Chip) (r : Nat) (x : SolverS) : (c.setSolver r x).mem = c.mem := rfl
@[simp] theorem Chip.setSolver_poison (c : Chip) (r : Nat) (x : SolverS) : (c.setSolver r x).poison = c.poison := rfl
@[simp] theorem Chip.setSolver_queues (c : Chip) (r : Nat) (x : SolverS) : (c.setSolver r x).queues = c.queues := rfl
@[simp] theorem Chip.setSolver_seqs (c : Chip) (r : Nat) (x : SolverS) : (c.setSolver r x).seqs = c.seqs := rfl
@[simp] theorem Chip.setSolver_units (c : Chip) (r : Nat) (x : SolverS) : (c.setSolver r x).units = c.units := rfl
@[simp] theorem Chip.setSolver_partials (c : Chip) (r : Nat) (x : SolverS) : (c.setSolver r x).partials = c.partials := rfl
@[simp] theorem Chip.setSolver_combs (c : Chip) (r : Nat) (x : SolverS) : (c.setSolver r x).combs = c.combs := rfl
@[simp] theorem Chip.setSolver_arbs (c : Chip) (r : Nat) (x : SolverS) : (c.setSolver r x).arbs = c.arbs := rfl
@[simp] theorem Chip.setSolver_xfers (c : Chip) (r : Nat) (x : SolverS) : (c.setSolver r x).xfers = c.xfers := rfl
@[simp] theorem Chip.setSolver_steps (c : Chip) (r : Nat) (x : SolverS) : (c.setSolver r x).steps = c.steps := rfl
@[simp] theorem Chip.setSolver_flog (c : Chip) (r : Nat) (x : SolverS) : (c.setSolver r x).flog = c.flog := rfl
@[simp] theorem Chip.setSolver_meters (c : Chip) (r : Nat) (x : SolverS) : (c.setSolver r x).meters = c.meters := rfl
@[simp] theorem Chip.setSolver_maps (c : Chip) (r : Nat) (x : SolverS) : (c.setSolver r x).maps = c.maps := rfl
@[simp] theorem Chip.setSolver_held (c : Chip) (r : Nat) (x : SolverS) : (c.setSolver r x).held = c.held := rfl
@[simp] theorem Chip.setSolver_stats (c : Chip) (r : Nat) (x : SolverS) : (c.setSolver r x).stats = c.stats := rfl
@[simp] theorem Chip.setSolver_press (c : Chip) (r : Nat) (x : SolverS) : (c.setSolver r x).press = c.press := rfl
@[simp] theorem Chip.setSolver_d3 (c : Chip) (r : Nat) (x : SolverS) : (c.setSolver r x).d3 = c.d3 := rfl
@[simp] theorem Chip.setSolver_racks (c : Chip) (r : Nat) (x : SolverS) : (c.setSolver r x).racks = c.racks := rfl
@[simp] theorem Chip.setSolver_upds (c : Chip) (r : Nat) (x : SolverS) : (c.setSolver r x).upds = c.upds := rfl
@[simp] theorem Chip.setSolver_pnorms (c : Chip) (r : Nat) (x : SolverS) : (c.setSolver r x).pnorms = c.pnorms := rfl
@[simp] theorem Chip.setSolver_links (c : Chip) (r : Nat) (x : SolverS) : (c.setSolver r x).links = c.links := rfl
@[simp] theorem Chip.setSolver_arrived (c : Chip) (r : Nat) (x : SolverS) : (c.setSolver r x).arrived = c.arrived := rfl
@[simp] theorem Chip.setSolver_chold (c : Chip) (r : Nat) (x : SolverS) : (c.setSolver r x).chold = c.chold := rfl
@[simp] theorem Chip.setSolver_wcens (c : Chip) (r : Nat) (x : SolverS) : (c.setSolver r x).wcens = c.wcens := rfl
@[simp] theorem Chip.setSolver_time (c : Chip) (r : Nat) (x : SolverS) : (c.setSolver r x).time = c.time := rfl
@[simp] theorem Chip.setSolver_cars (c : Chip) (r : Nat) (x : SolverS) : (c.setSolver r x).cars = c.cars := rfl
@[simp] theorem Chip.setSolver_seals (c : Chip) (r : Nat) (x : SolverS) : (c.setSolver r x).seals = c.seals := rfl
@[simp] theorem Chip.setSolver_parts (c : Chip) (r : Nat) (x : SolverS) : (c.setSolver r x).parts = c.parts := rfl
@[simp] theorem Chip.setSolver_mjobs (c : Chip) (r : Nat) (x : SolverS) : (c.setSolver r x).mjobs = c.mjobs := rfl
@[simp] theorem Chip.setSolver_energy (c : Chip) (r : Nat) (x : SolverS) : (c.setSolver r x).energy = c.energy := rfl
@[simp] theorem Chip.setSolver_chgSecond (c : Chip) (r : Nat) (x : SolverS) : (c.setSolver r x).chgSecond = c.chgSecond := rfl
@[simp] theorem Chip.setSolver_flash (c : Chip) (r : Nat) (x : SolverS) : (c.setSolver r x).flash = c.flash := rfl
@[simp] theorem Chip.setSolver_prot (c : Chip) (r : Nat) (x : SolverS) : (c.setSolver r x).prot = c.prot := rfl
@[simp] theorem Chip.setSolver_cfg (c : Chip) (r : Nat) (x : SolverS) : (c.setSolver r x).cfg = c.cfg := rfl
@[simp] theorem Chip.setSolver_boot (c : Chip) (r : Nat) (x : SolverS) : (c.setSolver r x).boot = c.boot := rfl
@[simp] theorem Chip.setSolver_inRings (c : Chip) (r : Nat) (x : SolverS) : (c.setSolver r x).inRings = c.inRings := rfl
@[simp] theorem Chip.setSolver_outRings (c : Chip) (r : Nat) (x : SolverS) : (c.setSolver r x).outRings = c.outRings := rfl
@[simp] theorem Chip.setSolver_freeAt (c : Chip) (r : Nat) (x : SolverS) : (c.setSolver r x).freeAt = c.freeAt := rfl
@[simp] theorem Chip.setSolver_cref (c : Chip) (r : Nat) (x : SolverS) : (c.setSolver r x).cref = c.cref := rfl
@[simp] theorem Chip.setSolver_upsets (c : Chip) (r : Nat) (x : SolverS) : (c.setSolver r x).upsets = c.upsets := rfl
@[simp] theorem Chip.setSolver_now (c : Chip) (r : Nat) (x : SolverS) : (c.setSolver r x).now = c.now := rfl
@[simp] theorem Chip.setSolver_up (c : Chip) (r : Nat) (x : SolverS) : (c.setSolver r x).up = c.up := rfl
@[simp] theorem Chip.setSolver_fresh (c : Chip) (r : Nat) (x : SolverS) : (c.setSolver r x).fresh = c.fresh := rfl
@[simp] theorem Chip.setSolver_out (c : Chip) (r : Nat) (x : SolverS) : (c.setSolver r x).out = c.out := rfl
@[simp] theorem Chip.setSolver_rd (c : Chip) (r : Nat) (x : SolverS) (r' : Reg) (i' j' : Nat) : (c.setSolver r x).rd r' i' j' = c.rd r' i' j' := rfl
@[simp] theorem Chip.setSolver_g (c : Chip) (r : Nat) (x : SolverS) (f' : Fld) (i' j' : Nat) : (c.setSolver r x).g f' i' j' = c.g f' i' j' := rfl
@[simp] theorem Chip.setSolver_on (c : Chip) (r : Nat) (x : SolverS) (f' : Fld) (i' j' : Nat) : (c.setSolver r x).on f' i' j' = c.on f' i' j' := rfl
@[simp] theorem Chip.setSolver_byte (c : Chip) (r : Nat) (x : SolverS) (k' : Nat) : (c.setSolver r x).byte k' = c.byte k' := rfl

/-! ### Chip.setUpd -/

@[simp] theorem Chip.setUpd_regs (c : Chip) (p : Nat) (x : UpdS) : (c.setUpd p x).regs = c.regs := rfl
@[simp] theorem Chip.setUpd_mem (c : Chip) (p : Nat) (x : UpdS) : (c.setUpd p x).mem = c.mem := rfl
@[simp] theorem Chip.setUpd_poison (c : Chip) (p : Nat) (x : UpdS) : (c.setUpd p x).poison = c.poison := rfl
@[simp] theorem Chip.setUpd_queues (c : Chip) (p : Nat) (x : UpdS) : (c.setUpd p x).queues = c.queues := rfl
@[simp] theorem Chip.setUpd_seqs (c : Chip) (p : Nat) (x : UpdS) : (c.setUpd p x).seqs = c.seqs := rfl
@[simp] theorem Chip.setUpd_units (c : Chip) (p : Nat) (x : UpdS) : (c.setUpd p x).units = c.units := rfl
@[simp] theorem Chip.setUpd_partials (c : Chip) (p : Nat) (x : UpdS) : (c.setUpd p x).partials = c.partials := rfl
@[simp] theorem Chip.setUpd_combs (c : Chip) (p : Nat) (x : UpdS) : (c.setUpd p x).combs = c.combs := rfl
@[simp] theorem Chip.setUpd_arbs (c : Chip) (p : Nat) (x : UpdS) : (c.setUpd p x).arbs = c.arbs := rfl
@[simp] theorem Chip.setUpd_xfers (c : Chip) (p : Nat) (x : UpdS) : (c.setUpd p x).xfers = c.xfers := rfl
@[simp] theorem Chip.setUpd_steps (c : Chip) (p : Nat) (x : UpdS) : (c.setUpd p x).steps = c.steps := rfl
@[simp] theorem Chip.setUpd_flog (c : Chip) (p : Nat) (x : UpdS) : (c.setUpd p x).flog = c.flog := rfl
@[simp] theorem Chip.setUpd_meters (c : Chip) (p : Nat) (x : UpdS) : (c.setUpd p x).meters = c.meters := rfl
@[simp] theorem Chip.setUpd_maps (c : Chip) (p : Nat) (x : UpdS) : (c.setUpd p x).maps = c.maps := rfl
@[simp] theorem Chip.setUpd_held (c : Chip) (p : Nat) (x : UpdS) : (c.setUpd p x).held = c.held := rfl
@[simp] theorem Chip.setUpd_stats (c : Chip) (p : Nat) (x : UpdS) : (c.setUpd p x).stats = c.stats := rfl
@[simp] theorem Chip.setUpd_press (c : Chip) (p : Nat) (x : UpdS) : (c.setUpd p x).press = c.press := rfl
@[simp] theorem Chip.setUpd_d3 (c : Chip) (p : Nat) (x : UpdS) : (c.setUpd p x).d3 = c.d3 := rfl
@[simp] theorem Chip.setUpd_racks (c : Chip) (p : Nat) (x : UpdS) : (c.setUpd p x).racks = c.racks := rfl
@[simp] theorem Chip.setUpd_solvers (c : Chip) (p : Nat) (x : UpdS) : (c.setUpd p x).solvers = c.solvers := rfl
@[simp] theorem Chip.setUpd_pnorms (c : Chip) (p : Nat) (x : UpdS) : (c.setUpd p x).pnorms = c.pnorms := rfl
@[simp] theorem Chip.setUpd_links (c : Chip) (p : Nat) (x : UpdS) : (c.setUpd p x).links = c.links := rfl
@[simp] theorem Chip.setUpd_arrived (c : Chip) (p : Nat) (x : UpdS) : (c.setUpd p x).arrived = c.arrived := rfl
@[simp] theorem Chip.setUpd_chold (c : Chip) (p : Nat) (x : UpdS) : (c.setUpd p x).chold = c.chold := rfl
@[simp] theorem Chip.setUpd_wcens (c : Chip) (p : Nat) (x : UpdS) : (c.setUpd p x).wcens = c.wcens := rfl
@[simp] theorem Chip.setUpd_time (c : Chip) (p : Nat) (x : UpdS) : (c.setUpd p x).time = c.time := rfl
@[simp] theorem Chip.setUpd_cars (c : Chip) (p : Nat) (x : UpdS) : (c.setUpd p x).cars = c.cars := rfl
@[simp] theorem Chip.setUpd_seals (c : Chip) (p : Nat) (x : UpdS) : (c.setUpd p x).seals = c.seals := rfl
@[simp] theorem Chip.setUpd_parts (c : Chip) (p : Nat) (x : UpdS) : (c.setUpd p x).parts = c.parts := rfl
@[simp] theorem Chip.setUpd_mjobs (c : Chip) (p : Nat) (x : UpdS) : (c.setUpd p x).mjobs = c.mjobs := rfl
@[simp] theorem Chip.setUpd_energy (c : Chip) (p : Nat) (x : UpdS) : (c.setUpd p x).energy = c.energy := rfl
@[simp] theorem Chip.setUpd_chgSecond (c : Chip) (p : Nat) (x : UpdS) : (c.setUpd p x).chgSecond = c.chgSecond := rfl
@[simp] theorem Chip.setUpd_flash (c : Chip) (p : Nat) (x : UpdS) : (c.setUpd p x).flash = c.flash := rfl
@[simp] theorem Chip.setUpd_prot (c : Chip) (p : Nat) (x : UpdS) : (c.setUpd p x).prot = c.prot := rfl
@[simp] theorem Chip.setUpd_cfg (c : Chip) (p : Nat) (x : UpdS) : (c.setUpd p x).cfg = c.cfg := rfl
@[simp] theorem Chip.setUpd_boot (c : Chip) (p : Nat) (x : UpdS) : (c.setUpd p x).boot = c.boot := rfl
@[simp] theorem Chip.setUpd_inRings (c : Chip) (p : Nat) (x : UpdS) : (c.setUpd p x).inRings = c.inRings := rfl
@[simp] theorem Chip.setUpd_outRings (c : Chip) (p : Nat) (x : UpdS) : (c.setUpd p x).outRings = c.outRings := rfl
@[simp] theorem Chip.setUpd_freeAt (c : Chip) (p : Nat) (x : UpdS) : (c.setUpd p x).freeAt = c.freeAt := rfl
@[simp] theorem Chip.setUpd_cref (c : Chip) (p : Nat) (x : UpdS) : (c.setUpd p x).cref = c.cref := rfl
@[simp] theorem Chip.setUpd_upsets (c : Chip) (p : Nat) (x : UpdS) : (c.setUpd p x).upsets = c.upsets := rfl
@[simp] theorem Chip.setUpd_now (c : Chip) (p : Nat) (x : UpdS) : (c.setUpd p x).now = c.now := rfl
@[simp] theorem Chip.setUpd_up (c : Chip) (p : Nat) (x : UpdS) : (c.setUpd p x).up = c.up := rfl
@[simp] theorem Chip.setUpd_fresh (c : Chip) (p : Nat) (x : UpdS) : (c.setUpd p x).fresh = c.fresh := rfl
@[simp] theorem Chip.setUpd_out (c : Chip) (p : Nat) (x : UpdS) : (c.setUpd p x).out = c.out := rfl
@[simp] theorem Chip.setUpd_rd (c : Chip) (p : Nat) (x : UpdS) (r' : Reg) (i' j' : Nat) : (c.setUpd p x).rd r' i' j' = c.rd r' i' j' := rfl
@[simp] theorem Chip.setUpd_g (c : Chip) (p : Nat) (x : UpdS) (f' : Fld) (i' j' : Nat) : (c.setUpd p x).g f' i' j' = c.g f' i' j' := rfl
@[simp] theorem Chip.setUpd_on (c : Chip) (p : Nat) (x : UpdS) (f' : Fld) (i' j' : Nat) : (c.setUpd p x).on f' i' j' = c.on f' i' j' := rfl
@[simp] theorem Chip.setUpd_byte (c : Chip) (p : Nat) (x : UpdS) (k' : Nat) : (c.setUpd p x).byte k' = c.byte k' := rfl

/-! ### Chip.setCar -/

@[simp] theorem Chip.setCar_regs (c : Chip) (p : Nat) (x : CarS) : (c.setCar p x).regs = c.regs := rfl
@[simp] theorem Chip.setCar_mem (c : Chip) (p : Nat) (x : CarS) : (c.setCar p x).mem = c.mem := rfl
@[simp] theorem Chip.setCar_poison (c : Chip) (p : Nat) (x : CarS) : (c.setCar p x).poison = c.poison := rfl
@[simp] theorem Chip.setCar_queues (c : Chip) (p : Nat) (x : CarS) : (c.setCar p x).queues = c.queues := rfl
@[simp] theorem Chip.setCar_seqs (c : Chip) (p : Nat) (x : CarS) : (c.setCar p x).seqs = c.seqs := rfl
@[simp] theorem Chip.setCar_units (c : Chip) (p : Nat) (x : CarS) : (c.setCar p x).units = c.units := rfl
@[simp] theorem Chip.setCar_partials (c : Chip) (p : Nat) (x : CarS) : (c.setCar p x).partials = c.partials := rfl
@[simp] theorem Chip.setCar_combs (c : Chip) (p : Nat) (x : CarS) : (c.setCar p x).combs = c.combs := rfl
@[simp] theorem Chip.setCar_arbs (c : Chip) (p : Nat) (x : CarS) : (c.setCar p x).arbs = c.arbs := rfl
@[simp] theorem Chip.setCar_xfers (c : Chip) (p : Nat) (x : CarS) : (c.setCar p x).xfers = c.xfers := rfl
@[simp] theorem Chip.setCar_steps (c : Chip) (p : Nat) (x : CarS) : (c.setCar p x).steps = c.steps := rfl
@[simp] theorem Chip.setCar_flog (c : Chip) (p : Nat) (x : CarS) : (c.setCar p x).flog = c.flog := rfl
@[simp] theorem Chip.setCar_meters (c : Chip) (p : Nat) (x : CarS) : (c.setCar p x).meters = c.meters := rfl
@[simp] theorem Chip.setCar_maps (c : Chip) (p : Nat) (x : CarS) : (c.setCar p x).maps = c.maps := rfl
@[simp] theorem Chip.setCar_held (c : Chip) (p : Nat) (x : CarS) : (c.setCar p x).held = c.held := rfl
@[simp] theorem Chip.setCar_stats (c : Chip) (p : Nat) (x : CarS) : (c.setCar p x).stats = c.stats := rfl
@[simp] theorem Chip.setCar_press (c : Chip) (p : Nat) (x : CarS) : (c.setCar p x).press = c.press := rfl
@[simp] theorem Chip.setCar_d3 (c : Chip) (p : Nat) (x : CarS) : (c.setCar p x).d3 = c.d3 := rfl
@[simp] theorem Chip.setCar_racks (c : Chip) (p : Nat) (x : CarS) : (c.setCar p x).racks = c.racks := rfl
@[simp] theorem Chip.setCar_solvers (c : Chip) (p : Nat) (x : CarS) : (c.setCar p x).solvers = c.solvers := rfl
@[simp] theorem Chip.setCar_upds (c : Chip) (p : Nat) (x : CarS) : (c.setCar p x).upds = c.upds := rfl
@[simp] theorem Chip.setCar_pnorms (c : Chip) (p : Nat) (x : CarS) : (c.setCar p x).pnorms = c.pnorms := rfl
@[simp] theorem Chip.setCar_links (c : Chip) (p : Nat) (x : CarS) : (c.setCar p x).links = c.links := rfl
@[simp] theorem Chip.setCar_arrived (c : Chip) (p : Nat) (x : CarS) : (c.setCar p x).arrived = c.arrived := rfl
@[simp] theorem Chip.setCar_chold (c : Chip) (p : Nat) (x : CarS) : (c.setCar p x).chold = c.chold := rfl
@[simp] theorem Chip.setCar_wcens (c : Chip) (p : Nat) (x : CarS) : (c.setCar p x).wcens = c.wcens := rfl
@[simp] theorem Chip.setCar_time (c : Chip) (p : Nat) (x : CarS) : (c.setCar p x).time = c.time := rfl
@[simp] theorem Chip.setCar_seals (c : Chip) (p : Nat) (x : CarS) : (c.setCar p x).seals = c.seals := rfl
@[simp] theorem Chip.setCar_parts (c : Chip) (p : Nat) (x : CarS) : (c.setCar p x).parts = c.parts := rfl
@[simp] theorem Chip.setCar_mjobs (c : Chip) (p : Nat) (x : CarS) : (c.setCar p x).mjobs = c.mjobs := rfl
@[simp] theorem Chip.setCar_energy (c : Chip) (p : Nat) (x : CarS) : (c.setCar p x).energy = c.energy := rfl
@[simp] theorem Chip.setCar_chgSecond (c : Chip) (p : Nat) (x : CarS) : (c.setCar p x).chgSecond = c.chgSecond := rfl
@[simp] theorem Chip.setCar_flash (c : Chip) (p : Nat) (x : CarS) : (c.setCar p x).flash = c.flash := rfl
@[simp] theorem Chip.setCar_prot (c : Chip) (p : Nat) (x : CarS) : (c.setCar p x).prot = c.prot := rfl
@[simp] theorem Chip.setCar_cfg (c : Chip) (p : Nat) (x : CarS) : (c.setCar p x).cfg = c.cfg := rfl
@[simp] theorem Chip.setCar_boot (c : Chip) (p : Nat) (x : CarS) : (c.setCar p x).boot = c.boot := rfl
@[simp] theorem Chip.setCar_inRings (c : Chip) (p : Nat) (x : CarS) : (c.setCar p x).inRings = c.inRings := rfl
@[simp] theorem Chip.setCar_outRings (c : Chip) (p : Nat) (x : CarS) : (c.setCar p x).outRings = c.outRings := rfl
@[simp] theorem Chip.setCar_freeAt (c : Chip) (p : Nat) (x : CarS) : (c.setCar p x).freeAt = c.freeAt := rfl
@[simp] theorem Chip.setCar_cref (c : Chip) (p : Nat) (x : CarS) : (c.setCar p x).cref = c.cref := rfl
@[simp] theorem Chip.setCar_upsets (c : Chip) (p : Nat) (x : CarS) : (c.setCar p x).upsets = c.upsets := rfl
@[simp] theorem Chip.setCar_now (c : Chip) (p : Nat) (x : CarS) : (c.setCar p x).now = c.now := rfl
@[simp] theorem Chip.setCar_up (c : Chip) (p : Nat) (x : CarS) : (c.setCar p x).up = c.up := rfl
@[simp] theorem Chip.setCar_fresh (c : Chip) (p : Nat) (x : CarS) : (c.setCar p x).fresh = c.fresh := rfl
@[simp] theorem Chip.setCar_out (c : Chip) (p : Nat) (x : CarS) : (c.setCar p x).out = c.out := rfl
@[simp] theorem Chip.setCar_rd (c : Chip) (p : Nat) (x : CarS) (r' : Reg) (i' j' : Nat) : (c.setCar p x).rd r' i' j' = c.rd r' i' j' := rfl
@[simp] theorem Chip.setCar_g (c : Chip) (p : Nat) (x : CarS) (f' : Fld) (i' j' : Nat) : (c.setCar p x).g f' i' j' = c.g f' i' j' := rfl
@[simp] theorem Chip.setCar_on (c : Chip) (p : Nat) (x : CarS) (f' : Fld) (i' j' : Nat) : (c.setCar p x).on f' i' j' = c.on f' i' j' := rfl
@[simp] theorem Chip.setCar_byte (c : Chip) (p : Nat) (x : CarS) (k' : Nat) : (c.setCar p x).byte k' = c.byte k' := rfl

/-! ### Chip.setSeal -/

@[simp] theorem Chip.setSeal_regs (c : Chip) (p : Nat) (x : SealS) : (c.setSeal p x).regs = c.regs := rfl
@[simp] theorem Chip.setSeal_mem (c : Chip) (p : Nat) (x : SealS) : (c.setSeal p x).mem = c.mem := rfl
@[simp] theorem Chip.setSeal_poison (c : Chip) (p : Nat) (x : SealS) : (c.setSeal p x).poison = c.poison := rfl
@[simp] theorem Chip.setSeal_queues (c : Chip) (p : Nat) (x : SealS) : (c.setSeal p x).queues = c.queues := rfl
@[simp] theorem Chip.setSeal_seqs (c : Chip) (p : Nat) (x : SealS) : (c.setSeal p x).seqs = c.seqs := rfl
@[simp] theorem Chip.setSeal_units (c : Chip) (p : Nat) (x : SealS) : (c.setSeal p x).units = c.units := rfl
@[simp] theorem Chip.setSeal_partials (c : Chip) (p : Nat) (x : SealS) : (c.setSeal p x).partials = c.partials := rfl
@[simp] theorem Chip.setSeal_combs (c : Chip) (p : Nat) (x : SealS) : (c.setSeal p x).combs = c.combs := rfl
@[simp] theorem Chip.setSeal_arbs (c : Chip) (p : Nat) (x : SealS) : (c.setSeal p x).arbs = c.arbs := rfl
@[simp] theorem Chip.setSeal_xfers (c : Chip) (p : Nat) (x : SealS) : (c.setSeal p x).xfers = c.xfers := rfl
@[simp] theorem Chip.setSeal_steps (c : Chip) (p : Nat) (x : SealS) : (c.setSeal p x).steps = c.steps := rfl
@[simp] theorem Chip.setSeal_flog (c : Chip) (p : Nat) (x : SealS) : (c.setSeal p x).flog = c.flog := rfl
@[simp] theorem Chip.setSeal_meters (c : Chip) (p : Nat) (x : SealS) : (c.setSeal p x).meters = c.meters := rfl
@[simp] theorem Chip.setSeal_maps (c : Chip) (p : Nat) (x : SealS) : (c.setSeal p x).maps = c.maps := rfl
@[simp] theorem Chip.setSeal_held (c : Chip) (p : Nat) (x : SealS) : (c.setSeal p x).held = c.held := rfl
@[simp] theorem Chip.setSeal_stats (c : Chip) (p : Nat) (x : SealS) : (c.setSeal p x).stats = c.stats := rfl
@[simp] theorem Chip.setSeal_press (c : Chip) (p : Nat) (x : SealS) : (c.setSeal p x).press = c.press := rfl
@[simp] theorem Chip.setSeal_d3 (c : Chip) (p : Nat) (x : SealS) : (c.setSeal p x).d3 = c.d3 := rfl
@[simp] theorem Chip.setSeal_racks (c : Chip) (p : Nat) (x : SealS) : (c.setSeal p x).racks = c.racks := rfl
@[simp] theorem Chip.setSeal_solvers (c : Chip) (p : Nat) (x : SealS) : (c.setSeal p x).solvers = c.solvers := rfl
@[simp] theorem Chip.setSeal_upds (c : Chip) (p : Nat) (x : SealS) : (c.setSeal p x).upds = c.upds := rfl
@[simp] theorem Chip.setSeal_pnorms (c : Chip) (p : Nat) (x : SealS) : (c.setSeal p x).pnorms = c.pnorms := rfl
@[simp] theorem Chip.setSeal_links (c : Chip) (p : Nat) (x : SealS) : (c.setSeal p x).links = c.links := rfl
@[simp] theorem Chip.setSeal_arrived (c : Chip) (p : Nat) (x : SealS) : (c.setSeal p x).arrived = c.arrived := rfl
@[simp] theorem Chip.setSeal_chold (c : Chip) (p : Nat) (x : SealS) : (c.setSeal p x).chold = c.chold := rfl
@[simp] theorem Chip.setSeal_wcens (c : Chip) (p : Nat) (x : SealS) : (c.setSeal p x).wcens = c.wcens := rfl
@[simp] theorem Chip.setSeal_time (c : Chip) (p : Nat) (x : SealS) : (c.setSeal p x).time = c.time := rfl
@[simp] theorem Chip.setSeal_cars (c : Chip) (p : Nat) (x : SealS) : (c.setSeal p x).cars = c.cars := rfl
@[simp] theorem Chip.setSeal_parts (c : Chip) (p : Nat) (x : SealS) : (c.setSeal p x).parts = c.parts := rfl
@[simp] theorem Chip.setSeal_mjobs (c : Chip) (p : Nat) (x : SealS) : (c.setSeal p x).mjobs = c.mjobs := rfl
@[simp] theorem Chip.setSeal_energy (c : Chip) (p : Nat) (x : SealS) : (c.setSeal p x).energy = c.energy := rfl
@[simp] theorem Chip.setSeal_chgSecond (c : Chip) (p : Nat) (x : SealS) : (c.setSeal p x).chgSecond = c.chgSecond := rfl
@[simp] theorem Chip.setSeal_flash (c : Chip) (p : Nat) (x : SealS) : (c.setSeal p x).flash = c.flash := rfl
@[simp] theorem Chip.setSeal_prot (c : Chip) (p : Nat) (x : SealS) : (c.setSeal p x).prot = c.prot := rfl
@[simp] theorem Chip.setSeal_cfg (c : Chip) (p : Nat) (x : SealS) : (c.setSeal p x).cfg = c.cfg := rfl
@[simp] theorem Chip.setSeal_boot (c : Chip) (p : Nat) (x : SealS) : (c.setSeal p x).boot = c.boot := rfl
@[simp] theorem Chip.setSeal_inRings (c : Chip) (p : Nat) (x : SealS) : (c.setSeal p x).inRings = c.inRings := rfl
@[simp] theorem Chip.setSeal_outRings (c : Chip) (p : Nat) (x : SealS) : (c.setSeal p x).outRings = c.outRings := rfl
@[simp] theorem Chip.setSeal_freeAt (c : Chip) (p : Nat) (x : SealS) : (c.setSeal p x).freeAt = c.freeAt := rfl
@[simp] theorem Chip.setSeal_cref (c : Chip) (p : Nat) (x : SealS) : (c.setSeal p x).cref = c.cref := rfl
@[simp] theorem Chip.setSeal_upsets (c : Chip) (p : Nat) (x : SealS) : (c.setSeal p x).upsets = c.upsets := rfl
@[simp] theorem Chip.setSeal_now (c : Chip) (p : Nat) (x : SealS) : (c.setSeal p x).now = c.now := rfl
@[simp] theorem Chip.setSeal_up (c : Chip) (p : Nat) (x : SealS) : (c.setSeal p x).up = c.up := rfl
@[simp] theorem Chip.setSeal_fresh (c : Chip) (p : Nat) (x : SealS) : (c.setSeal p x).fresh = c.fresh := rfl
@[simp] theorem Chip.setSeal_out (c : Chip) (p : Nat) (x : SealS) : (c.setSeal p x).out = c.out := rfl
@[simp] theorem Chip.setSeal_rd (c : Chip) (p : Nat) (x : SealS) (r' : Reg) (i' j' : Nat) : (c.setSeal p x).rd r' i' j' = c.rd r' i' j' := rfl
@[simp] theorem Chip.setSeal_g (c : Chip) (p : Nat) (x : SealS) (f' : Fld) (i' j' : Nat) : (c.setSeal p x).g f' i' j' = c.g f' i' j' := rfl
@[simp] theorem Chip.setSeal_on (c : Chip) (p : Nat) (x : SealS) (f' : Fld) (i' j' : Nat) : (c.setSeal p x).on f' i' j' = c.on f' i' j' := rfl
@[simp] theorem Chip.setSeal_byte (c : Chip) (p : Nat) (x : SealS) (k' : Nat) : (c.setSeal p x).byte k' = c.byte k' := rfl

end Sys2Proof.Machine
end

