-- ==== Sys2Proof/Laws/Maps.lean ====
section
/-! SUPPORT. The laws of the sparse maps that hold registers, memory and every table of the state: what a read gives after
each update, and that every update keeps the canonical form. -/

namespace Sys2Proof.Machine

variable {α : Type}

/-- What every step of a fold keeps, the fold keeps. -/
theorem foldl_keeps {σ β γ : Type} (g : σ → γ) (f : σ → β → σ) (h : ∀ c i, g (f c i) = g c) (l : List β) :
    ∀ c, g (l.foldl f c) = g c := by
  induction l with
  | nil => intro c; rfl
  | cons i l ih => intro c; rw [List.foldl_cons, ih, h]

@[simp] theorem sget_nil (d : α) (k : Nat) : sget d [] k = d := rfl

theorem sget_cons (d : α) (k' : Nat) (a : α) (m : List (Nat × α)) (k : Nat) :
    sget d ((k', a) :: m) k = if k = k' then a else sget d m k := rfl

/-- A read after keys were filtered out: the unlisted value for a removed key, the old value for a kept one. -/
theorem sget_filter (d : α) (m : List (Nat × α)) (p : Nat → Bool) (k : Nat) :
    sget d (m.filter (fun x => p x.1)) k = if p k then sget d m k else d := by
  induction m with
  | nil => simp
  | cons x m ih =>
    obtain ⟨k', a⟩ := x
    by_cases hk : k = k'
    · subst hk
      by_cases hp : p k <;> simp [hp, sget_cons, ih]
    · by_cases hp : p k' <;> simp [hp, sget_cons, ih, hk]

/-- A read after an insertion of a key that was not listed. -/
theorem sget_sins (d : α) (k : Nat) (a : α) (m : List (Nat × α)) (h : ∀ x ∈ m, x.1 ≠ k) (k' : Nat) :
    sget d (sins k a m) k' = if k' = k then a else sget d m k' := by
  induction m with
  | nil => simp [sins, sget_cons]
  | cons x m ih =>
    obtain ⟨k₁, a₁⟩ := x
    have h₁ : k₁ ≠ k := h (k₁, a₁) (by simp)
    have hm : ∀ x ∈ m, x.1 ≠ k := fun x hx => h x (by simp [hx])
    by_cases hlt : k < k₁
    · simp [sins, hlt, sget_cons]
    · by_cases hk : k' = k₁
      · subst hk; simp [sins, hlt, sget_cons, h₁]
      · simp [sins, hlt, sget_cons, hk, ih hm]

/-- A read after an update: the new value at the key, the old value elsewhere. The two unlisted values may differ at
other keys (a register's own reset value). -/
theorem sget_sset' [DecidableEq α] (d d' : α) (m : List (Nat × α)) (k : Nat) (a : α) (k' : Nat) (h : k' = k → d' = d) :
    sget d' (sset d m k a) k' = if k' = k then a else sget d' m k' := by
  have hf : ∀ x ∈ m.filter (fun x => x.1 != k), x.1 ≠ k := by
    intro x hx; simpa using (List.mem_filter.mp hx).2
  have hg := sget_filter d' m (fun n => n != k) k'
  unfold sset
  split
  · next hd => by_cases hk : k' = k <;> simp_all
  · rw [sget_sins _ _ _ _ hf, hg]; by_cases hk : k' = k <;> simp [hk]

theorem sget_sset [DecidableEq α] (d : α) (m : List (Nat × α)) (k : Nat) (a : α) (k' : Nat) :
    sget d (sset d m k a) k' = if k' = k then a else sget d m k' := sget_sset' d d m k a k' (fun _ => rfl)

@[simp] theorem sget_sset_same [DecidableEq α] (d : α) (m : List (Nat × α)) (k : Nat) (a : α) :
    sget d (sset d m k a) k = a := by simp [sget_sset]

theorem sget_sset_other [DecidableEq α] (d d' : α) (m : List (Nat × α)) {k k' : Nat} (a : α) (h : k' ≠ k) :
    sget d' (sset d m k a) k' = sget d' m k' := by
  rw [sget_sset' d d' m k a k' (fun e => absurd e h)]; simp [h]

/-- A read after the keys that p holds of were removed. -/
theorem sget_sdrop (d : α) (m : List (Nat × α)) (p : Nat → Bool) (k : Nat) :
    sget d (sdrop m p) k = if p k then d else sget d m k := by
  have := sget_filter d m (fun n => !p n) k
  unfold sdrop; rw [this]; by_cases h : p k <;> simp [h]

/-- A read after a range of keys was removed. -/
theorem sget_sclear (d : α) (m : List (Nat × α)) (a n k : Nat) :
    sget d (sclear m a n) k = if a ≤ k ∧ k < a + n then d else sget d m k := by
  have := sget_filter d m (fun x => decide (x < a) || decide (a + n ≤ x)) k
  unfold sclear; rw [this]
  by_cases h1 : k < a
  · simp [h1]
  · by_cases h2 : a + n ≤ k
    · simp [h2]
    · simp [h1, h2]

/-! ### The canonical form -/

/-- Canonical form with every key at least lo. -/
def swfFrom [DecidableEq α] (d : α) (lo : Nat) : List (Nat × α) → Prop
  | [] => True
  | (k, a) :: m => lo ≤ k ∧ a ≠ d ∧ swfFrom d (k + 1) m

theorem swfFrom_mono [DecidableEq α] {d : α} {lo lo' : Nat} {m : List (Nat × α)} (h : lo' ≤ lo)
    (hm : swfFrom d lo m) : swfFrom d lo' m := by
  cases m with
  | nil => trivial
  | cons x m => exact ⟨by have := hm.1; omega, hm.2⟩

theorem swf_iff_from [DecidableEq α] (d : α) (m : List (Nat × α)) : swf d m = true ↔ swfFrom d 0 m := by
  have key : ∀ (m : List (Nat × α)) (k : Nat) (a : α), swf d ((k, a) :: m) = true ↔ a ≠ d ∧ swfFrom d (k + 1) m := by
    intro m
    induction m with
    | nil => intro k a; simp [swf, swfFrom]
    | cons x m ih =>
      obtain ⟨k', a'⟩ := x
      intro k a
      have := ih k' a'
      simp only [swf, Bool.and_eq_true, decide_eq_true_eq, this, swfFrom]
      exact ⟨fun ⟨⟨h1, h2⟩, h3⟩ => ⟨h1, h2, h3⟩, fun ⟨h1, h2, h3⟩ => ⟨⟨h1, h2⟩, h3⟩⟩
  cases m with
  | nil => simp [swf, swfFrom]
  | cons x m => obtain ⟨k, a⟩ := x; simp [key m k a, swfFrom]

theorem swfFrom_filter [DecidableEq α] (d : α) (p : Nat × α → Bool) (m : List (Nat × α)) :
    ∀ lo, swfFrom d lo m → swfFrom d lo (m.filter p) := by
  induction m with
  | nil => intro lo _; trivial
  | cons x m ih =>
    obtain ⟨k, a⟩ := x
    intro lo h
    by_cases hp : p (k, a) = true
    · simp only [List.filter_cons, hp, if_true]; exact ⟨h.1, h.2.1, ih _ h.2.2⟩
    · simp only [List.filter_cons, hp]; exact swfFrom_mono (by have := h.1; omega) (ih _ h.2.2)

theorem swfFrom_sins [DecidableEq α] (d : α) (k : Nat) (a : α) (ha : a ≠ d) (m : List (Nat × α)) :
    ∀ lo, swfFrom d lo m → (∀ x ∈ m, x.1 ≠ k) → lo ≤ k → swfFrom d lo (sins k a m) := by
  induction m with
  | nil => intro lo _ _ hk; exact ⟨hk, ha, trivial⟩
  | cons x m ih =>
    obtain ⟨k₁, a₁⟩ := x
    intro lo h hne hk
    have h₁ : k₁ ≠ k := hne (k₁, a₁) (by simp)
    by_cases hlt : k < k₁
    · simp only [sins, hlt, if_true]; exact ⟨hk, ha, by omega, h.2⟩
    · simp only [sins, hlt]
      exact ⟨h.1, h.2.1, ih _ h.2.2 (fun x hx => hne x (by simp [hx])) (by omega)⟩

/-- Removing keys keeps the canonical form. -/
theorem swf_filter [DecidableEq α] {d : α} {m : List (Nat × α)} (p : Nat × α → Bool) (h : swf d m = true) :
    swf d (m.filter p) = true :=
  (swf_iff_from _ _).mpr (swfFrom_filter d p m 0 ((swf_iff_from _ _).mp h))

/-- Setting a key keeps the canonical form. -/
theorem swf_sset [DecidableEq α] {d : α} {m : List (Nat × α)} (k : Nat) (a : α) (h : swf d m = true) :
    swf d (sset d m k a) = true := by
  unfold sset
  split
  · exact swf_filter _ h
  · next ha =>
    refine (swf_iff_from _ _).mpr (swfFrom_sins d k a ha _ 0 ((swf_iff_from _ _).mp (swf_filter _ h)) ?_ (Nat.zero_le _))
    intro x hx; simpa using (List.mem_filter.mp hx).2

theorem swf_sclear [DecidableEq α] {d : α} {m : List (Nat × α)} (a n : Nat) (h : swf d m = true) :
    swf d (sclear m a n) = true := swf_filter _ h

theorem swf_sdrop [DecidableEq α] {d : α} {m : List (Nat × α)} (p : Nat → Bool) (h : swf d m = true) :
    swf d (sdrop m p) = true := swf_filter _ h

end Sys2Proof.Machine
end

