-- ==== Sys2Proof/Laws/Registers.lean ====
section
/-! SUPPORT. The laws of registers and fields: a read after a write to the same place gives the value written, and a
write leaves every other register instance and every other field alone. -/

namespace Sys2Proof.Machine

/-! ### Register keys -/

/-- The list of registers gives each register at its number. -/
theorem Reg.ofCode_code (r : Reg) : Reg.ofCode r.code = r := by cases r <;> rfl

theorem Reg.code_inj {r r' : Reg} (h : r.code = r'.code) : r = r' := by
  rw [← Reg.ofCode_code r, ← Reg.ofCode_code r', h]

/-- Keys of different registers differ. -/
theorem regKey_reg {r r' : Reg} {i i' j j' : Nat} (h : regKey r i j = regKey r' i' j') : r = r' := by
  unfold regKey at h
  have h1 : i % 2048 < 2048 := Nat.mod_lt _ (by decide)
  have h2 : i' % 2048 < 2048 := Nat.mod_lt _ (by decide)
  have h3 : j % 4096 < 4096 := Nat.mod_lt _ (by decide)
  have h4 : j' % 4096 < 4096 := Nat.mod_lt _ (by decide)
  exact Reg.code_inj (by omega)

theorem regKey_ne_of_reg {r r' : Reg} (i i' j j' : Nat) (h : r ≠ r') : regKey r i j ≠ regKey r' i' j' :=
  fun e => h (regKey_reg e)

/-- Keys tell instances and indices apart within the ranges of the register map. -/
theorem regKey_inj {r r' : Reg} {i i' j j' : Nat} (hi : i < 2048) (hi' : i' < 2048) (hj : j < 4096) (hj' : j' < 4096)
    (h : regKey r i j = regKey r' i' j') : r = r' ∧ i = i' ∧ j = j' := by
  have hr := regKey_reg h
  unfold regKey at h
  rw [Nat.mod_eq_of_lt hi, Nat.mod_eq_of_lt hi', Nat.mod_eq_of_lt hj, Nat.mod_eq_of_lt hj'] at h
  exact ⟨hr, by omega, by omega⟩

/-- The register of a key. -/
theorem ofCode_key (r : Reg) (i j : Nat) : Reg.ofCode (regKey r i j / (2048 * 4096)) = r := by
  have h1 : i % 2048 < 2048 := Nat.mod_lt _ (by decide)
  have h3 : j % 4096 < 4096 := Nat.mod_lt _ (by decide)
  have : regKey r i j / (2048 * 4096) = r.code := by unfold regKey; omega
  rw [this, Reg.ofCode_code]

/-- The reset value of a register instance is that of its register (R20). -/
theorem regDefault_key (r : Reg) (i j : Nat) : regDefault (regKey r i j) = r.reset := by
  unfold regDefault; rw [ofCode_key]

/-! ### Whole registers -/

@[simp] theorem Chip.rd_wrBits_same (c : Chip) (r : Reg) (i : Nat) (v : Word) (hi lo j : Nat) :
    (c.wrBits r i v hi lo j).rd r i j = v := by simp [Chip.rd, Chip.wrBits]

@[simp] theorem Chip.rd_wr_same (c : Chip) (r : Reg) (i : Nat) (v : Word) (j : Nat) :
    (c.wr r i v j).rd r i j = v := by simp [Chip.wr]

/-- A write leaves every instance with another key alone. -/
theorem Chip.rd_wrBits_other (c : Chip) (r : Reg) (i : Nat) (v : Word) (hi lo j : Nat) {r' : Reg} {i' j' : Nat}
    (h : regKey r' i' j' ≠ regKey r i j) : (c.wrBits r i v hi lo j).rd r' i' j' = c.rd r' i' j' := by
  simp [Chip.rd, Chip.wrBits, sget_sset_other _ _ _ _ h]

/-- A write leaves every other register alone. -/
theorem Chip.rd_wrBits_reg (c : Chip) (r : Reg) (i : Nat) (v : Word) (hi lo j : Nat) {r' : Reg} (i' j' : Nat)
    (hr : r' ≠ r) : (c.wrBits r i v hi lo j).rd r' i' j' = c.rd r' i' j' :=
  c.rd_wrBits_other r i v hi lo j (regKey_ne_of_reg _ _ _ _ hr)

theorem Chip.rd_wr_reg (c : Chip) (r : Reg) (i : Nat) (v : Word) (j : Nat) {r' : Reg} (i' j' : Nat) (hr : r' ≠ r) :
    (c.wr r i v j).rd r' i' j' = c.rd r' i' j' := c.rd_wrBits_reg r i v 63 0 j i' j' hr

/-- A write leaves every other instance of the register alone. -/
theorem Chip.rd_wrBits_inst (c : Chip) (r : Reg) (i : Nat) (v : Word) (hi lo j : Nat) {i' j' : Nat}
    (hne : (i', j') ≠ (i, j)) (h1 : i < 2048) (h2 : i' < 2048) (h3 : j < 4096) (h4 : j' < 4096) :
    (c.wrBits r i v hi lo j).rd r i' j' = c.rd r i' j' :=
  c.rd_wrBits_other r i v hi lo j (fun h => hne (by have := regKey_inj h2 h1 h4 h3 h; simp [this.2.1, this.2.2]))

/-! ### Fields of a number -/

/-- A number cut at a field: what stands above it, the field, what stands below. -/
theorem split_field (w hi lo : Nat) (h : lo ≤ hi + 1) :
    w = (w / 2 ^ (hi + 1) * 2 ^ (hi + 1 - lo) + bits w hi lo) * 2 ^ lo + w % 2 ^ lo := by
  have e : w / 2 ^ (hi + 1) = w / 2 ^ lo / 2 ^ (hi + 1 - lo) := by
    rw [Nat.div_div_eq_div_mul, ← Nat.pow_add]; congr 2; omega
  rw [e, bits, Nat.shiftRight_eq_div_pow, Nat.div_add_mod', Nat.div_add_mod']

/-- The number with a field replaced, cut the same way. -/
theorem setBits_eq (w hi lo v : Nat) (h : lo ≤ hi + 1) :
    setBits w hi lo v = (w / 2 ^ (hi + 1) * 2 ^ (hi + 1 - lo) + v % 2 ^ (hi + 1 - lo)) * 2 ^ lo + w % 2 ^ lo := by
  have := split_field w hi lo h
  unfold setBits
  rw [Nat.add_mul] at this ⊢
  omega

theorem setBits_above (w hi lo v : Nat) (h : lo ≤ hi + 1) : setBits w hi lo v / 2 ^ (hi + 1) = w / 2 ^ (hi + 1) := by
  have e : 2 ^ (hi + 1) = 2 ^ lo * 2 ^ (hi + 1 - lo) := by rw [← Nat.pow_add]; congr 1; omega
  rw [setBits_eq w hi lo v h]
  conv_lhs => rw [e]
  rw [← Nat.div_div_eq_div_mul, Nat.mul_comm _ (2 ^ lo), Nat.mul_add_div (by positivity),
    Nat.div_eq_of_lt (Nat.mod_lt _ (by positivity)), Nat.add_zero, Nat.mul_comm _ (2 ^ (hi + 1 - lo)),
    Nat.mul_add_div (by positivity), Nat.div_eq_of_lt (Nat.mod_lt _ (by positivity)), Nat.add_zero, ← e]

theorem setBits_below (w hi lo v : Nat) (h : lo ≤ hi + 1) : setBits w hi lo v % 2 ^ lo = w % 2 ^ lo := by
  rw [setBits_eq w hi lo v h, Nat.mul_comm _ (2 ^ lo), Nat.mul_add_mod, Nat.mod_mod]

theorem bits_setBits_same (w hi lo v : Nat) (h : lo ≤ hi + 1) : bits (setBits w hi lo v) hi lo = v % 2 ^ (hi + 1 - lo) := by
  rw [bits, Nat.shiftRight_eq_div_pow, setBits_eq w hi lo v h, Nat.mul_comm _ (2 ^ lo), Nat.mul_add_div (by positivity),
    Nat.div_eq_of_lt (Nat.mod_lt _ (by positivity)), Nat.add_zero, Nat.mul_comm _ (2 ^ (hi + 1 - lo)), Nat.mul_add_mod,
    Nat.mod_mod]

/-- A field as part of the number below its top. -/
theorem bits_mod (w hi lo : Nat) (h : lo ≤ hi + 1) : bits w hi lo = w % 2 ^ (hi + 1) / 2 ^ lo := by
  have e : hi + 1 = lo + (hi + 1 - lo) := by omega
  rw [bits, Nat.shiftRight_eq_div_pow]
  conv_rhs => rw [e]
  rw [Nat.pow_add, Nat.mod_mul_right_div_self]

/-- A field that lies apart from the one replaced is unchanged. -/
theorem bits_setBits_other (w hi lo v hi' lo' : Nat) (h : lo ≤ hi + 1) (h' : lo' ≤ hi' + 1) (hd : hi' < lo ∨ hi < lo') :
    bits (setBits w hi lo v) hi' lo' = bits w hi' lo' := by
  rcases hd with hd | hd
  · have hdvd : 2 ^ (hi' + 1) ∣ 2 ^ lo := Nat.pow_dvd_pow 2 (by omega)
    rw [bits_mod _ _ _ h', bits_mod _ _ _ h', ← Nat.mod_mod_of_dvd _ hdvd, setBits_below w hi lo v h, Nat.mod_mod_of_dvd _ hdvd]
  · have e : lo' = hi + 1 + (lo' - (hi + 1)) := by omega
    rw [bits, bits, Nat.shiftRight_eq_div_pow, Nat.shiftRight_eq_div_pow, e, Nat.pow_add, ← Nat.div_div_eq_div_mul,
      ← Nat.div_div_eq_div_mul, setBits_above w hi lo v h]

theorem setBits_lt (w hi lo v : Nat) (h1 : lo ≤ hi + 1) (h2 : hi < 64) (hw : w < 2 ^ 64) : setBits w hi lo v < 2 ^ 64 := by
  have hd := setBits_above w hi lo v h1
  have : w / 2 ^ (hi + 1) < 2 ^ (63 - hi) := by
    rw [Nat.div_lt_iff_lt_mul (by positivity), ← Nat.pow_add]
    have : 63 - hi + (hi + 1) = 64 := by omega
    rwa [this]
  rw [← hd, Nat.div_lt_iff_lt_mul (by positivity), ← Nat.pow_add] at this
  have e : 63 - hi + (hi + 1) = 64 := by omega
  rwa [e] at this

theorem toNat_wset (w : Word) (hi lo v : Nat) (h1 : lo ≤ hi + 1) (h2 : hi < 64) :
    (wset w hi lo v).toNat = setBits w.toNat hi lo v := by
  simp only [wset, Word.ofNat, BitVec.toNat_ofNat]
  exact Nat.mod_eq_of_lt (setBits_lt _ _ _ _ h1 h2 w.isLt)

theorem wbits_wset_same (w : Word) (hi lo v : Nat) (h1 : lo ≤ hi + 1) (h2 : hi < 64) :
    wbits (wset w hi lo v) hi lo = v % 2 ^ (hi + 1 - lo) := by
  rw [wbits, toNat_wset w hi lo v h1 h2, bits_setBits_same _ _ _ _ h1]

theorem wbits_wset_other (w : Word) (hi lo v hi' lo' : Nat) (h1 : lo ≤ hi + 1) (h2 : hi < 64) (h' : lo' ≤ hi' + 1)
    (hd : hi' < lo ∨ hi < lo') : wbits (wset w hi lo v) hi' lo' = wbits w hi' lo' := by
  rw [wbits, wbits, toNat_wset w hi lo v h1 h2, bits_setBits_other _ _ _ _ _ _ h1 h' hd]

/-! ### Fields of registers -/

theorem Chip.g_put_same (c : Chip) (f : Fld) (i v j : Nat) (h : f.ok) : (c.put f i v j).g f i j = v % 2 ^ (f.hi + 1 - f.lo) := by
  have hw : f.lo ≤ f.hi + 1 := Nat.le_succ_of_le h.1
  simp [Chip.g, Chip.put, wbits_wset_same _ _ _ _ hw h.2]

/-- A field of the same register that lies apart is unchanged. -/
theorem Chip.g_put_apart (c : Chip) (f f' : Fld) (i v j : Nat) (h : f.ok) (h' : f'.ok) (hr : f'.reg = f.reg)
    (hd : f'.hi < f.lo ∨ f.hi < f'.lo) : (c.put f i v j).g f' i j = c.g f' i j := by
  have hw : f.lo ≤ f.hi + 1 := Nat.le_succ_of_le h.1
  have hw' : f'.lo ≤ f'.hi + 1 := Nat.le_succ_of_le h'.1
  simp [Chip.g, Chip.put, hr, wbits_wset_other _ _ _ _ _ _ hw h.2 hw' hd]

/-- A field of another register instance is unchanged. -/
theorem Chip.g_put_other (c : Chip) (f f' : Fld) (i i' v j j' : Nat) (h : regKey f'.reg i' j' ≠ regKey f.reg i j) :
    (c.put f i v j).g f' i' j' = c.g f' i' j' := by
  simp [Chip.g, Chip.put, Chip.rd_wrBits_other _ _ _ _ _ _ _ h]

theorem Chip.rd_put_other (c : Chip) (f : Fld) (i i' v j j' : Nat) (r : Reg) (h : regKey r i' j' ≠ regKey f.reg i j) :
    (c.put f i v j).rd r i' j' = c.rd r i' j' := by
  simp [Chip.put, Chip.rd_wrBits_other _ _ _ _ _ _ _ h]

/-- Fields of other registers are unchanged. -/
theorem Chip.rd_put_reg (c : Chip) (f : Fld) (i v j : Nat) {r : Reg} (i' j' : Nat) (h : r ≠ f.reg) :
    (c.put f i v j).rd r i' j' = c.rd r i' j' := c.rd_put_other f i i' v j j' r (regKey_ne_of_reg _ _ _ _ h)

theorem Chip.g_put_reg (c : Chip) (f f' : Fld) (i v j i' j' : Nat) (h : f'.reg ≠ f.reg) :
    (c.put f i v j).g f' i' j' = c.g f' i' j' := c.g_put_other f f' i i' v j j' (regKey_ne_of_reg _ _ _ _ h)

theorem Chip.g_wr_reg (c : Chip) (r : Reg) (i : Nat) (v : Word) (j : Nat) (f : Fld) (i' j' : Nat) (h : f.reg ≠ r) :
    (c.wr r i v j).g f i' j' = c.g f i' j' := by simp [Chip.g, Chip.rd_wr_reg c r i v j i' j' h]

/-- The registers kept that a property holds of, and the rest back at their reset values. -/
theorem sget_keepRegs (p : Reg → Bool) (m : List (Nat × Word)) (r : Reg) (i j : Nat) :
    sget (regDefault (regKey r i j)) (keepRegs p m) (regKey r i j)
      = if p r then sget (regDefault (regKey r i j)) m (regKey r i j) else r.reset := by
  have := sget_filter (regDefault (regKey r i j)) m (fun k => p (Reg.ofCode (k / (2048 * 4096)))) (regKey r i j)
  unfold keepRegs; rw [this, ofCode_key]; split
  · rfl
  · exact regDefault_key r i j

/-- A field holds no more than its width. -/
theorem Chip.g_lt (c : Chip) (f : Fld) (i j : Nat) : c.g f i j < 2 ^ (f.hi + 1 - f.lo) := Nat.mod_lt _ (by positivity)

theorem Chip.on_set1_same (c : Chip) (f : Fld) (i j : Nat) (h : f.ok) : (c.set1 f i j).on f i j = true := by
  have h1 : 1 < 2 ^ (f.hi + 1 - f.lo) := Nat.one_lt_two_pow (by have := h.1; omega)
  simp [Chip.on, Chip.set1, Chip.g_put_same _ _ _ _ _ h, Nat.mod_eq_of_lt h1]

end Sys2Proof.Machine
end

