-- ==== Sys2Proof/Laws/State.lean ====
section
/-! SUPPORT. What each named operation leaves unchanged: one lemma for each field of the state and each operation. -/

namespace Sys2Proof.Machine

/-! ### The state -/

@[simp] theorem State.onChip_chip (s : State) (f : Chip → Chip) : (s.onChip f).chip = f s.chip := rfl
@[simp] theorem State.onChip_pwr (s : State) (f : Chip → Chip) : (s.onChip f).pwr = s.pwr := rfl
@[simp] theorem State.onChip_pending (s : State) (f : Chip → Chip) : (s.onChip f).pending = s.pending := rfl
@[simp] theorem State.tick_pwr (s : State) : s.tick.pwr = s.pwr := rfl
@[simp] theorem State.tick_pending (s : State) : s.tick.pending = s.pending := rfl

/-! ### Chip.wrBits -/

@[simp] theorem Chip.wrBits_mem (c : Chip) (r : Reg) (i : Nat) (v : Word) (hi lo j : Nat) : (c.wrBits r i v hi lo j).mem = c.mem := rfl
@[simp] theorem Chip.wrBits_poison (c : Chip) (r : Reg) (i : Nat) (v : Word) (hi lo j : Nat) : (c.wrBits r i v hi lo j).poison = c.poison := rfl
@[simp] theorem Chip.wrBits_queues (c : Chip) (r : Reg) (i : Nat) (v : Word) (hi lo j : Nat) : (c.wrBits r i v hi lo j).queues = c.queues := rfl
@[simp] theorem Chip.wrBits_seqs (c : Chip) (r : Reg) (i : Nat) (v : Word) (hi lo j : Nat) : (c.wrBits r i v hi lo j).seqs = c.seqs := rfl
@[simp] theorem Chip.wrBits_units (c : Chip) (r : Reg) (i : Nat) (v : Word) (hi lo j : Nat) : (c.wrBits r i v hi lo j).units = c.units := rfl
@[simp] theorem Chip.wrBits_partials (c : Chip) (r : Reg) (i : Nat) (v : Word) (hi lo j : Nat) : (c.wrBits r i v hi lo j).partials = c.partials := rfl
@[simp] theorem Chip.wrBits_combs (c : Chip) (r : Reg) (i : Nat) (v : Word) (hi lo j : Nat) : (c.wrBits r i v hi lo j).combs = c.combs := rfl
@[simp] theorem Chip.wrBits_arbs (c : Chip) (r : Reg) (i : Nat) (v : Word) (hi lo j : Nat) : (c.wrBits r i v hi lo j).arbs = c.arbs := rfl
@[simp] theorem Chip.wrBits_xfers (c : Chip) (r : Reg) (i : Nat) (v : Word) (hi lo j : Nat) : (c.wrBits r i v hi lo j).xfers = c.xfers := rfl
@[simp] theorem Chip.wrBits_steps (c : Chip) (r : Reg) (i : Nat) (v : Word) (hi lo j : Nat) : (c.wrBits r i v hi lo j).steps = c.steps := rfl
@[simp] theorem Chip.wrBits_flog (c : Chip) (r : Reg) (i : Nat) (v : Word) (hi lo j : Nat) : (c.wrBits r i v hi lo j).flog = c.flog := rfl
@[simp] theorem Chip.wrBits_meters (c : Chip) (r : Reg) (i : Nat) (v : Word) (hi lo j : Nat) : (c.wrBits r i v hi lo j).meters = c.meters := rfl
@[simp] theorem Chip.wrBits_maps (c : Chip) (r : Reg) (i : Nat) (v : Word) (hi lo j : Nat) : (c.wrBits r i v hi lo j).maps = c.maps := rfl
@[simp] theorem Chip.wrBits_held (c : Chip) (r : Reg) (i : Nat) (v : Word) (hi lo j : Nat) : (c.wrBits r i v hi lo j).held = c.held := rfl
@[simp] theorem Chip.wrBits_stats (c : Chip) (r : Reg) (i : Nat) (v : Word) (hi lo j : Nat) : (c.wrBits r i v hi lo j).stats = c.stats := rfl
@[simp] theorem Chip.wrBits_press (c : Chip) (r : Reg) (i : Nat) (v : Word) (hi lo j : Nat) : (c.wrBits r i v hi lo j).press = c.press := rfl
@[simp] theorem Chip.wrBits_d3 (c : Chip) (r : Reg) (i : Nat) (v : Word) (hi lo j : Nat) : (c.wrBits r i v hi lo j).d3 = c.d3 := rfl
@[simp] theorem Chip.wrBits_racks (c : Chip) (r : Reg) (i : Nat) (v : Word) (hi lo j : Nat) : (c.wrBits r i v hi lo j).racks = c.racks := rfl
@[simp] theorem Chip.wrBits_solvers (c : Chip) (r : Reg) (i : Nat) (v : Word) (hi lo j : Nat) : (c.wrBits r i v hi lo j).solvers = c.solvers := rfl
@[simp] theorem Chip.wrBits_upds (c : Chip) (r : Reg) (i : Nat) (v : Word) (hi lo j : Nat) : (c.wrBits r i v hi lo j).upds = c.upds := rfl
@[simp] theorem Chip.wrBits_pnorms (c : Chip) (r : Reg) (i : Nat) (v : Word) (hi lo j : Nat) : (c.wrBits r i v hi lo j).pnorms = c.pnorms := rfl
@[simp] theorem Chip.wrBits_links (c : Chip) (r : Reg) (i : Nat) (v : Word) (hi lo j : Nat) : (c.wrBits r i v hi lo j).links = c.links := rfl
@[simp] theorem Chip.wrBits_arrived (c : Chip) (r : Reg) (i : Nat) (v : Word) (hi lo j : Nat) : (c.wrBits r i v hi lo j).arrived = c.arrived := rfl
@[simp] theorem Chip.wrBits_chold (c : Chip) (r : Reg) (i : Nat) (v : Word) (hi lo j : Nat) : (c.wrBits r i v hi lo j).chold = c.chold := rfl
@[simp] theorem Chip.wrBits_wcens (c : Chip) (r : Reg) (i : Nat) (v : Word) (hi lo j : Nat) : (c.wrBits r i v hi lo j).wcens = c.wcens := rfl
@[simp] theorem Chip.wrBits_time (c : Chip) (r : Reg) (i : Nat) (v : Word) (hi lo j : Nat) : (c.wrBits r i v hi lo j).time = c.time := rfl
@[simp] theorem Chip.wrBits_cars (c : Chip) (r : Reg) (i : Nat) (v : Word) (hi lo j : Nat) : (c.wrBits r i v hi lo j).cars = c.cars := rfl
@[simp] theorem Chip.wrBits_seals (c : Chip) (r : Reg) (i : Nat) (v : Word) (hi lo j : Nat) : (c.wrBits r i v hi lo j).seals = c.seals := rfl
@[simp] theorem Chip.wrBits_parts (c : Chip) (r : Reg) (i : Nat) (v : Word) (hi lo j : Nat) : (c.wrBits r i v hi lo j).parts = c.parts := rfl
@[simp] theorem Chip.wrBits_mjobs (c : Chip) (r : Reg) (i : Nat) (v : Word) (hi lo j : Nat) : (c.wrBits r i v hi lo j).mjobs = c.mjobs := rfl
@[simp] theorem Chip.wrBits_energy (c : Chip) (r : Reg) (i : Nat) (v : Word) (hi lo j : Nat) : (c.wrBits r i v hi lo j).energy = c.energy := rfl
@[simp] theorem Chip.wrBits_chgSecond (c : Chip) (r : Reg) (i : Nat) (v : Word) (hi lo j : Nat) : (c.wrBits r i v hi lo j).chgSecond = c.chgSecond := rfl
@[simp] theorem Chip.wrBits_flash (c : Chip) (r : Reg) (i : Nat) (v : Word) (hi lo j : Nat) : (c.wrBits r i v hi lo j).flash = c.flash := rfl
@[simp] theorem Chip.wrBits_prot (c : Chip) (r : Reg) (i : Nat) (v : Word) (hi lo j : Nat) : (c.wrBits r i v hi lo j).prot = c.prot := rfl
@[simp] theorem Chip.wrBits_cfg (c : Chip) (r : Reg) (i : Nat) (v : Word) (hi lo j : Nat) : (c.wrBits r i v hi lo j).cfg = c.cfg := rfl
@[simp] theorem Chip.wrBits_boot (c : Chip) (r : Reg) (i : Nat) (v : Word) (hi lo j : Nat) : (c.wrBits r i v hi lo j).boot = c.boot := rfl
@[simp] theorem Chip.wrBits_inRings (c : Chip) (r : Reg) (i : Nat) (v : Word) (hi lo j : Nat) : (c.wrBits r i v hi lo j).inRings = c.inRings := rfl
@[simp] theorem Chip.wrBits_outRings (c : Chip) (r : Reg) (i : Nat) (v : Word) (hi lo j : Nat) : (c.wrBits r i v hi lo j).outRings = c.outRings := rfl
@[simp] theorem Chip.wrBits_freeAt (c : Chip) (r : Reg) (i : Nat) (v : Word) (hi lo j : Nat) : (c.wrBits r i v hi lo j).freeAt = c.freeAt := rfl
@[simp] theorem Chip.wrBits_cref (c : Chip) (r : Reg) (i : Nat) (v : Word) (hi lo j : Nat) : (c.wrBits r i v hi lo j).cref = c.cref := rfl
@[simp] theorem Chip.wrBits_now (c : Chip) (r : Reg) (i : Nat) (v : Word) (hi lo j : Nat) : (c.wrBits r i v hi lo j).now = c.now := rfl
@[simp] theorem Chip.wrBits_up (c : Chip) (r : Reg) (i : Nat) (v : Word) (hi lo j : Nat) : (c.wrBits r i v hi lo j).up = c.up := rfl
@[simp] theorem Chip.wrBits_fresh (c : Chip) (r : Reg) (i : Nat) (v : Word) (hi lo j : Nat) : (c.wrBits r i v hi lo j).fresh = c.fresh := rfl
@[simp] theorem Chip.wrBits_out (c : Chip) (r : Reg) (i : Nat) (v : Word) (hi lo j : Nat) : (c.wrBits r i v hi lo j).out = c.out := rfl
@[simp] theorem Chip.wrBits_byte (c : Chip) (r : Reg) (i : Nat) (v : Word) (hi lo j : Nat) (k' : Nat) : (c.wrBits r i v hi lo j).byte k' = c.byte k' := rfl

/-! ### Chip.wr -/

@[simp] theorem Chip.wr_mem (c : Chip) (r : Reg) (i : Nat) (v : Word) (j : Nat) : (c.wr r i v j).mem = c.mem := rfl
@[simp] theorem Chip.wr_poison (c : Chip) (r : Reg) (i : Nat) (v : Word) (j : Nat) : (c.wr r i v j).poison = c.poison := rfl
@[simp] theorem Chip.wr_queues (c : Chip) (r : Reg) (i : Nat) (v : Word) (j : Nat) : (c.wr r i v j).queues = c.queues := rfl
@[simp] theorem Chip.wr_seqs (c : Chip) (r : Reg) (i : Nat) (v : Word) (j : Nat) : (c.wr r i v j).seqs = c.seqs := rfl
@[simp] theorem Chip.wr_units (c : Chip) (r : Reg) (i : Nat) (v : Word) (j : Nat) : (c.wr r i v j).units = c.units := rfl
@[simp] theorem Chip.wr_partials (c : Chip) (r : Reg) (i : Nat) (v : Word) (j : Nat) : (c.wr r i v j).partials = c.partials := rfl
@[simp] theorem Chip.wr_combs (c : Chip) (r : Reg) (i : Nat) (v : Word) (j : Nat) : (c.wr r i v j).combs = c.combs := rfl
@[simp] theorem Chip.wr_arbs (c : Chip) (r : Reg) (i : Nat) (v : Word) (j : Nat) : (c.wr r i v j).arbs = c.arbs := rfl
@[simp] theorem Chip.wr_xfers (c : Chip) (r : Reg) (i : Nat) (v : Word) (j : Nat) : (c.wr r i v j).xfers = c.xfers := rfl
@[simp] theorem Chip.wr_steps (c : Chip) (r : Reg) (i : Nat) (v : Word) (j : Nat) : (c.wr r i v j).steps = c.steps := rfl
@[simp] theorem Chip.wr_flog (c : Chip) (r : Reg) (i : Nat) (v : Word) (j : Nat) : (c.wr r i v j).flog = c.flog := rfl
@[simp] theorem Chip.wr_meters (c : Chip) (r : Reg) (i : Nat) (v : Word) (j : Nat) : (c.wr r i v j).meters = c.meters := rfl
@[simp] theorem Chip.wr_maps (c : Chip) (r : Reg) (i : Nat) (v : Word) (j : Nat) : (c.wr r i v j).maps = c.maps := rfl
@[simp] theorem Chip.wr_held (c : Chip) (r : Reg) (i : Nat) (v : Word) (j : Nat) : (c.wr r i v j).held = c.held := rfl
@[simp] theorem Chip.wr_stats (c : Chip) (r : Reg) (i : Nat) (v : Word) (j : Nat) : (c.wr r i v j).stats = c.stats := rfl
@[simp] theorem Chip.wr_press (c : Chip) (r : Reg) (i : Nat) (v : Word) (j : Nat) : (c.wr r i v j).press = c.press := rfl
@[simp] theorem Chip.wr_d3 (c : Chip) (r : Reg) (i : Nat) (v : Word) (j : Nat) : (c.wr r i v j).d3 = c.d3 := rfl
@[simp] theorem Chip.wr_racks (c : Chip) (r : Reg) (i : Nat) (v : Word) (j : Nat) : (c.wr r i v j).racks = c.racks := rfl
@[simp] theorem Chip.wr_solvers (c : Chip) (r : Reg) (i : Nat) (v : Word) (j : Nat) : (c.wr r i v j).solvers = c.solvers := rfl
@[simp] theorem Chip.wr_upds (c : Chip) (r : Reg) (i : Nat) (v : Word) (j : Nat) : (c.wr r i v j).upds = c.upds := rfl
@[simp] theorem Chip.wr_pnorms (c : Chip) (r : Reg) (i : Nat) (v : Word) (j : Nat) : (c.wr r i v j).pnorms = c.pnorms := rfl
@[simp] theorem Chip.wr_links (c : Chip) (r : Reg) (i : Nat) (v : Word) (j : Nat) : (c.wr r i v j).links = c.links := rfl
@[simp] theorem Chip.wr_arrived (c : Chip) (r : Reg) (i : Nat) (v : Word) (j : Nat) : (c.wr r i v j).arrived = c.arrived := rfl
@[simp] theorem Chip.wr_chold (c : Chip) (r : Reg) (i : Nat) (v : Word) (j : Nat) : (c.wr r i v j).chold = c.chold := rfl
@[simp] theorem Chip.wr_wcens (c : Chip) (r : Reg) (i : Nat) (v : Word) (j : Nat) : (c.wr r i v j).wcens = c.wcens := rfl
@[simp] theorem Chip.wr_time (c : Chip) (r : Reg) (i : Nat) (v : Word) (j : Nat) : (c.wr r i v j).time = c.time := rfl
@[simp] theorem Chip.wr_cars (c : Chip) (r : Reg) (i : Nat) (v : Word) (j : Nat) : (c.wr r i v j).cars = c.cars := rfl
@[simp] theorem Chip.wr_seals (c : Chip) (r : Reg) (i : Nat) (v : Word) (j : Nat) : (c.wr r i v j).seals = c.seals := rfl
@[simp] theorem Chip.wr_parts (c : Chip) (r : Reg) (i : Nat) (v : Word) (j : Nat) : (c.wr r i v j).parts = c.parts := rfl
@[simp] theorem Chip.wr_mjobs (c : Chip) (r : Reg) (i : Nat) (v : Word) (j : Nat) : (c.wr r i v j).mjobs = c.mjobs := rfl
@[simp] theorem Chip.wr_energy (c : Chip) (r : Reg) (i : Nat) (v : Word) (j : Nat) : (c.wr r i v j).energy = c.energy := rfl
@[simp] theorem Chip.wr_chgSecond (c : Chip) (r : Reg) (i : Nat) (v : Word) (j : Nat) : (c.wr r i v j).chgSecond = c.chgSecond := rfl
@[simp] theorem Chip.wr_flash (c : Chip) (r : Reg) (i : Nat) (v : Word) (j : Nat) : (c.wr r i v j).flash = c.flash := rfl
@[simp] theorem Chip.wr_prot (c : Chip) (r : Reg) (i : Nat) (v : Word) (j : Nat) : (c.wr r i v j).prot = c.prot := rfl
@[simp] theorem Chip.wr_cfg (c : Chip) (r : Reg) (i : Nat) (v : Word) (j : Nat) : (c.wr r i v j).cfg = c.cfg := rfl
@[simp] theorem Chip.wr_boot (c : Chip) (r : Reg) (i : Nat) (v : Word) (j : Nat) : (c.wr r i v j).boot = c.boot := rfl
@[simp] theorem Chip.wr_inRings (c : Chip) (r : Reg) (i : Nat) (v : Word) (j : Nat) : (c.wr r i v j).inRings = c.inRings := rfl
@[simp] theorem Chip.wr_outRings (c : Chip) (r : Reg) (i : Nat) (v : Word) (j : Nat) : (c.wr r i v j).outRings = c.outRings := rfl
@[simp] theorem Chip.wr_freeAt (c : Chip) (r : Reg) (i : Nat) (v : Word) (j : Nat) : (c.wr r i v j).freeAt = c.freeAt := rfl
@[simp] theorem Chip.wr_cref (c : Chip) (r : Reg) (i : Nat) (v : Word) (j : Nat) : (c.wr r i v j).cref = c.cref := rfl
@[simp] theorem Chip.wr_now (c : Chip) (r : Reg) (i : Nat) (v : Word) (j : Nat) : (c.wr r i v j).now = c.now := rfl
@[simp] theorem Chip.wr_up (c : Chip) (r : Reg) (i : Nat) (v : Word) (j : Nat) : (c.wr r i v j).up = c.up := rfl
@[simp] theorem Chip.wr_fresh (c : Chip) (r : Reg) (i : Nat) (v : Word) (j : Nat) : (c.wr r i v j).fresh = c.fresh := rfl
@[simp] theorem Chip.wr_out (c : Chip) (r : Reg) (i : Nat) (v : Word) (j : Nat) : (c.wr r i v j).out = c.out := rfl
@[simp] theorem Chip.wr_byte (c : Chip) (r : Reg) (i : Nat) (v : Word) (j : Nat) (k' : Nat) : (c.wr r i v j).byte k' = c.byte k' := rfl

/-! ### Chip.put -/

@[simp] theorem Chip.put_mem (c : Chip) (f : Fld) (i v j : Nat) : (c.put f i v j).mem = c.mem := rfl
@[simp] theorem Chip.put_poison (c : Chip) (f : Fld) (i v j : Nat) : (c.put f i v j).poison = c.poison := rfl
@[simp] theorem Chip.put_queues (c : Chip) (f : Fld) (i v j : Nat) : (c.put f i v j).queues = c.queues := rfl
@[simp] theorem Chip.put_seqs (c : Chip) (f : Fld) (i v j : Nat) : (c.put f i v j).seqs = c.seqs := rfl
@[simp] theorem Chip.put_units (c : Chip) (f : Fld) (i v j : Nat) : (c.put f i v j).units = c.units := rfl
@[simp] theorem Chip.put_partials (c : Chip) (f : Fld) (i v j : Nat) : (c.put f i v j).partials = c.partials := rfl
@[simp] theorem Chip.put_combs (c : Chip) (f : Fld) (i v j : Nat) : (c.put f i v j).combs = c.combs := rfl
@[simp] theorem Chip.put_arbs (c : Chip) (f : Fld) (i v j : Nat) : (c.put f i v j).arbs = c.arbs := rfl
@[simp] theorem Chip.put_xfers (c : Chip) (f : Fld) (i v j : Nat) : (c.put f i v j).xfers = c.xfers := rfl
@[simp] theorem Chip.put_steps (c : Chip) (f : Fld) (i v j : Nat) : (c.put f i v j).steps = c.steps := rfl
@[simp] theorem Chip.put_flog (c : Chip) (f : Fld) (i v j : Nat) : (c.put f i v j).flog = c.flog := rfl
@[simp] theorem Chip.put_meters (c : Chip) (f : Fld) (i v j : Nat) : (c.put f i v j).meters = c.meters := rfl
@[simp] theorem Chip.put_maps (c : Chip) (f : Fld) (i v j : Nat) : (c.put f i v j).maps = c.maps := rfl
@[simp] theorem Chip.put_held (c : Chip) (f : Fld) (i v j : Nat) : (c.put f i v j).held = c.held := rfl
@[simp] theorem Chip.put_stats (c : Chip) (f : Fld) (i v j : Nat) : (c.put f i v j).stats = c.stats := rfl
@[simp] theorem Chip.put_press (c : Chip) (f : Fld) (i v j : Nat) : (c.put f i v j).press = c.press := rfl
@[simp] theorem Chip.put_d3 (c : Chip) (f : Fld) (i v j : Nat) : (c.put f i v j).d3 = c.d3 := rfl
@[simp] theorem Chip.put_racks (c : Chip) (f : Fld) (i v j : Nat) : (c.put f i v j).racks = c.racks := rfl
@[simp] theorem Chip.put_solvers (c : Chip) (f : Fld) (i v j : Nat) : (c.put f i v j).solvers = c.solvers := rfl
@[simp] theorem Chip.put_upds (c : Chip) (f : Fld) (i v j : Nat) : (c.put f i v j).upds = c.upds := rfl
@[simp] theorem Chip.put_pnorms (c : Chip) (f : Fld) (i v j : Nat) : (c.put f i v j).pnorms = c.pnorms := rfl
@[simp] theorem Chip.put_links (c : Chip) (f : Fld) (i v j : Nat) : (c.put f i v j).links = c.links := rfl
@[simp] theorem Chip.put_arrived (c : Chip) (f : Fld) (i v j : Nat) : (c.put f i v j).arrived = c.arrived := rfl
@[simp] theorem Chip.put_chold (c : Chip) (f : Fld) (i v j : Nat) : (c.put f i v j).chold = c.chold := rfl
@[simp] theorem Chip.put_wcens (c : Chip) (f : Fld) (i v j : Nat) : (c.put f i v j).wcens = c.wcens := rfl
@[simp] theorem Chip.put_time (c : Chip) (f : Fld) (i v j : Nat) : (c.put f i v j).time = c.time := rfl
@[simp] theorem Chip.put_cars (c : Chip) (f : Fld) (i v j : Nat) : (c.put f i v j).cars = c.cars := rfl
@[simp] theorem Chip.put_seals (c : Chip) (f : Fld) (i v j : Nat) : (c.put f i v j).seals = c.seals := rfl
@[simp] theorem Chip.put_parts (c : Chip) (f : Fld) (i v j : Nat) : (c.put f i v j).parts = c.parts := rfl
@[simp] theorem Chip.put_mjobs (c : Chip) (f : Fld) (i v j : Nat) : (c.put f i v j).mjobs = c.mjobs := rfl
@[simp] theorem Chip.put_energy (c : Chip) (f : Fld) (i v j : Nat) : (c.put f i v j).energy = c.energy := rfl
@[simp] theorem Chip.put_chgSecond (c : Chip) (f : Fld) (i v j : Nat) : (c.put f i v j).chgSecond = c.chgSecond := rfl
@[simp] theorem Chip.put_flash (c : Chip) (f : Fld) (i v j : Nat) : (c.put f i v j).flash = c.flash := rfl
@[simp] theorem Chip.put_prot (c : Chip) (f : Fld) (i v j : Nat) : (c.put f i v j).prot = c.prot := rfl
@[simp] theorem Chip.put_cfg (c : Chip) (f : Fld) (i v j : Nat) : (c.put f i v j).cfg = c.cfg := rfl
@[simp] theorem Chip.put_boot (c : Chip) (f : Fld) (i v j : Nat) : (c.put f i v j).boot = c.boot := rfl
@[simp] theorem Chip.put_inRings (c : Chip) (f : Fld) (i v j : Nat) : (c.put f i v j).inRings = c.inRings := rfl
@[simp] theorem Chip.put_outRings (c : Chip) (f : Fld) (i v j : Nat) : (c.put f i v j).outRings = c.outRings := rfl
@[simp] theorem Chip.put_freeAt (c : Chip) (f : Fld) (i v j : Nat) : (c.put f i v j).freeAt = c.freeAt := rfl
@[simp] theorem Chip.put_cref (c : Chip) (f : Fld) (i v j : Nat) : (c.put f i v j).cref = c.cref := rfl
@[simp] theorem Chip.put_now (c : Chip) (f : Fld) (i v j : Nat) : (c.put f i v j).now = c.now := rfl
@[simp] theorem Chip.put_up (c : Chip) (f : Fld) (i v j : Nat) : (c.put f i v j).up = c.up := rfl
@[simp] theorem Chip.put_fresh (c : Chip) (f : Fld) (i v j : Nat) : (c.put f i v j).fresh = c.fresh := rfl
@[simp] theorem Chip.put_out (c : Chip) (f : Fld) (i v j : Nat) : (c.put f i v j).out = c.out := rfl
@[simp] theorem Chip.put_byte (c : Chip) (f : Fld) (i v j : Nat) (k' : Nat) : (c.put f i v j).byte k' = c.byte k' := rfl

/-! ### Chip.set1 -/

@[simp] theorem Chip.set1_mem (c : Chip) (f : Fld) (i j : Nat) : (c.set1 f i j).mem = c.mem := rfl
@[simp] theorem Chip.set1_poison (c : Chip) (f : Fld) (i j : Nat) : (c.set1 f i j).poison = c.poison := rfl
@[simp] theorem Chip.set1_queues (c : Chip) (f : Fld) (i j : Nat) : (c.set1 f i j).queues = c.queues := rfl
@[simp] theorem Chip.set1_seqs (c : Chip) (f : Fld) (i j : Nat) : (c.set1 f i j).seqs = c.seqs := rfl
@[simp] theorem Chip.set1_units (c : Chip) (f : Fld) (i j : Nat) : (c.set1 f i j).units = c.units := rfl
@[simp] theorem Chip.set1_partials (c : Chip) (f : Fld) (i j : Nat) : (c.set1 f i j).partials = c.partials := rfl
@[simp] theorem Chip.set1_combs (c : Chip) (f : Fld) (i j : Nat) : (c.set1 f i j).combs = c.combs := rfl
@[simp] theorem Chip.set1_arbs (c : Chip) (f : Fld) (i j : Nat) : (c.set1 f i j).arbs = c.arbs := rfl
@[simp] theorem Chip.set1_xfers (c : Chip) (f : Fld) (i j : Nat) : (c.set1 f i j).xfers = c.xfers := rfl
@[simp] theorem Chip.set1_steps (c : Chip) (f : Fld) (i j : Nat) : (c.set1 f i j).steps = c.steps := rfl
@[simp] theorem Chip.set1_flog (c : Chip) (f : Fld) (i j : Nat) : (c.set1 f i j).flog = c.flog := rfl
@[simp] theorem Chip.set1_meters (c : Chip) (f : Fld) (i j : Nat) : (c.set1 f i j).meters = c.meters := rfl
@[simp] theorem Chip.set1_maps (c : Chip) (f : Fld) (i j : Nat) : (c.set1 f i j).maps = c.maps := rfl
@[simp] theorem Chip.set1_held (c : Chip) (f : Fld) (i j : Nat) : (c.set1 f i j).held = c.held := rfl
@[simp] theorem Chip.set1_stats (c : Chip) (f : Fld) (i j : Nat) : (c.set1 f i j).stats = c.stats := rfl
@[simp] theorem Chip.set1_press (c : Chip) (f : Fld) (i j : Nat) : (c.set1 f i j).press = c.press := rfl
@[simp] theorem Chip.set1_d3 (c : Chip) (f : Fld) (i j : Nat) : (c.set1 f i j).d3 = c.d3 := rfl
@[simp] theorem Chip.set1_racks (c : Chip) (f : Fld) (i j : Nat) : (c.set1 f i j).racks = c.racks := rfl
@[simp] theorem Chip.set1_solvers (c : Chip) (f : Fld) (i j : Nat) : (c.set1 f i j).solvers = c.solvers := rfl
@[simp] theorem Chip.set1_upds (c : Chip) (f : Fld) (i j : Nat) : (c.set1 f i j).upds = c.upds := rfl
@[simp] theorem Chip.set1_pnorms (c : Chip) (f : Fld) (i j : Nat) : (c.set1 f i j).pnorms = c.pnorms := rfl
@[simp] theorem Chip.set1_links (c : Chip) (f : Fld) (i j : Nat) : (c.set1 f i j).links = c.links := rfl
@[simp] theorem Chip.set1_arrived (c : Chip) (f : Fld) (i j : Nat) : (c.set1 f i j).arrived = c.arrived := rfl
@[simp] theorem Chip.set1_chold (c : Chip) (f : Fld) (i j : Nat) : (c.set1 f i j).chold = c.chold := rfl
@[simp] theorem Chip.set1_wcens (c : Chip) (f : Fld) (i j : Nat) : (c.set1 f i j).wcens = c.wcens := rfl
@[simp] theorem Chip.set1_time (c : Chip) (f : Fld) (i j : Nat) : (c.set1 f i j).time = c.time := rfl
@[simp] theorem Chip.set1_cars (c : Chip) (f : Fld) (i j : Nat) : (c.set1 f i j).cars = c.cars := rfl
@[simp] theorem Chip.set1_seals (c : Chip) (f : Fld) (i j : Nat) : (c.set1 f i j).seals = c.seals := rfl
@[simp] theorem Chip.set1_parts (c : Chip) (f : Fld) (i j : Nat) : (c.set1 f i j).parts = c.parts := rfl
@[simp] theorem Chip.set1_mjobs (c : Chip) (f : Fld) (i j : Nat) : (c.set1 f i j).mjobs = c.mjobs := rfl
@[simp] theorem Chip.set1_energy (c : Chip) (f : Fld) (i j : Nat) : (c.set1 f i j).energy = c.energy := rfl
@[simp] theorem Chip.set1_chgSecond (c : Chip) (f : Fld) (i j : Nat) : (c.set1 f i j).chgSecond = c.chgSecond := rfl
@[simp] theorem Chip.set1_flash (c : Chip) (f : Fld) (i j : Nat) : (c.set1 f i j).flash = c.flash := rfl
@[simp] theorem Chip.set1_prot (c : Chip) (f : Fld) (i j : Nat) : (c.set1 f i j).prot = c.prot := rfl
@[simp] theorem Chip.set1_cfg (c : Chip) (f : Fld) (i j : Nat) : (c.set1 f i j).cfg = c.cfg := rfl
@[simp] theorem Chip.set1_boot (c : Chip) (f : Fld) (i j : Nat) : (c.set1 f i j).boot = c.boot := rfl
@[simp] theorem Chip.set1_inRings (c : Chip) (f : Fld) (i j : Nat) : (c.set1 f i j).inRings = c.inRings := rfl
@[simp] theorem Chip.set1_outRings (c : Chip) (f : Fld) (i j : Nat) : (c.set1 f i j).outRings = c.outRings := rfl
@[simp] theorem Chip.set1_freeAt (c : Chip) (f : Fld) (i j : Nat) : (c.set1 f i j).freeAt = c.freeAt := rfl
@[simp] theorem Chip.set1_cref (c : Chip) (f : Fld) (i j : Nat) : (c.set1 f i j).cref = c.cref := rfl
@[simp] theorem Chip.set1_now (c : Chip) (f : Fld) (i j : Nat) : (c.set1 f i j).now = c.now := rfl
@[simp] theorem Chip.set1_up (c : Chip) (f : Fld) (i j : Nat) : (c.set1 f i j).up = c.up := rfl
@[simp] theorem Chip.set1_fresh (c : Chip) (f : Fld) (i j : Nat) : (c.set1 f i j).fresh = c.fresh := rfl
@[simp] theorem Chip.set1_out (c : Chip) (f : Fld) (i j : Nat) : (c.set1 f i j).out = c.out := rfl
@[simp] theorem Chip.set1_byte (c : Chip) (f : Fld) (i j : Nat) (k' : Nat) : (c.set1 f i j).byte k' = c.byte k' := rfl

/-! ### Chip.orF -/

@[simp] theorem Chip.orF_mem (c : Chip) (f : Fld) (i v j : Nat) : (c.orF f i v j).mem = c.mem := rfl
@[simp] theorem Chip.orF_poison (c : Chip) (f : Fld) (i v j : Nat) : (c.orF f i v j).poison = c.poison := rfl
@[simp] theorem Chip.orF_queues (c : Chip) (f : Fld) (i v j : Nat) : (c.orF f i v j).queues = c.queues := rfl
@[simp] theorem Chip.orF_seqs (c : Chip) (f : Fld) (i v j : Nat) : (c.orF f i v j).seqs = c.seqs := rfl
@[simp] theorem Chip.orF_units (c : Chip) (f : Fld) (i v j : Nat) : (c.orF f i v j).units = c.units := rfl
@[simp] theorem Chip.orF_partials (c : Chip) (f : Fld) (i v j : Nat) : (c.orF f i v j).partials = c.partials := rfl
@[simp] theorem Chip.orF_combs (c : Chip) (f : Fld) (i v j : Nat) : (c.orF f i v j).combs = c.combs := rfl
@[simp] theorem Chip.orF_arbs (c : Chip) (f : Fld) (i v j : Nat) : (c.orF f i v j).arbs = c.arbs := rfl
@[simp] theorem Chip.orF_xfers (c : Chip) (f : Fld) (i v j : Nat) : (c.orF f i v j).xfers = c.xfers := rfl
@[simp] theorem Chip.orF_steps (c : Chip) (f : Fld) (i v j : Nat) : (c.orF f i v j).steps = c.steps := rfl
@[simp] theorem Chip.orF_flog (c : Chip) (f : Fld) (i v j : Nat) : (c.orF f i v j).flog = c.flog := rfl
@[simp] theorem Chip.orF_meters (c : Chip) (f : Fld) (i v j : Nat) : (c.orF f i v j).meters = c.meters := rfl
@[simp] theorem Chip.orF_maps (c : Chip) (f : Fld) (i v j : Nat) : (c.orF f i v j).maps = c.maps := rfl
@[simp] theorem Chip.orF_held (c : Chip) (f : Fld) (i v j : Nat) : (c.orF f i v j).held = c.held := rfl
@[simp] theorem Chip.orF_stats (c : Chip) (f : Fld) (i v j : Nat) : (c.orF f i v j).stats = c.stats := rfl
@[simp] theorem Chip.orF_press (c : Chip) (f : Fld) (i v j : Nat) : (c.orF f i v j).press = c.press := rfl
@[simp] theorem Chip.orF_d3 (c : Chip) (f : Fld) (i v j : Nat) : (c.orF f i v j).d3 = c.d3 := rfl
@[simp] theorem Chip.orF_racks (c : Chip) (f : Fld) (i v j : Nat) : (c.orF f i v j).racks = c.racks := rfl
@[simp] theorem Chip.orF_solvers (c : Chip) (f : Fld) (i v j : Nat) : (c.orF f i v j).solvers = c.solvers := rfl
@[simp] theorem Chip.orF_upds (c : Chip) (f : Fld) (i v j : Nat) : (c.orF f i v j).upds = c.upds := rfl
@[simp] theorem Chip.orF_pnorms (c : Chip) (f : Fld) (i v j : Nat) : (c.orF f i v j).pnorms = c.pnorms := rfl
@[simp] theorem Chip.orF_links (c : Chip) (f : Fld) (i v j : Nat) : (c.orF f i v j).links = c.links := rfl
@[simp] theorem Chip.orF_arrived (c : Chip) (f : Fld) (i v j : Nat) : (c.orF f i v j).arrived = c.arrived := rfl
@[simp] theorem Chip.orF_chold (c : Chip) (f : Fld) (i v j : Nat) : (c.orF f i v j).chold = c.chold := rfl
@[simp] theorem Chip.orF_wcens (c : Chip) (f : Fld) (i v j : Nat) : (c.orF f i v j).wcens = c.wcens := rfl
@[simp] theorem Chip.orF_time (c : Chip) (f : Fld) (i v j : Nat) : (c.orF f i v j).time = c.time := rfl
@[simp] theorem Chip.orF_cars (c : Chip) (f : Fld) (i v j : Nat) : (c.orF f i v j).cars = c.cars := rfl
@[simp] theorem Chip.orF_seals (c : Chip) (f : Fld) (i v j : Nat) : (c.orF f i v j).seals = c.seals := rfl
@[simp] theorem Chip.orF_parts (c : Chip) (f : Fld) (i v j : Nat) : (c.orF f i v j).parts = c.parts := rfl
@[simp] theorem Chip.orF_mjobs (c : Chip) (f : Fld) (i v j : Nat) : (c.orF f i v j).mjobs = c.mjobs := rfl
@[simp] theorem Chip.orF_energy (c : Chip) (f : Fld) (i v j : Nat) : (c.orF f i v j).energy = c.energy := rfl
@[simp] theorem Chip.orF_chgSecond (c : Chip) (f : Fld) (i v j : Nat) : (c.orF f i v j).chgSecond = c.chgSecond := rfl
@[simp] theorem Chip.orF_flash (c : Chip) (f : Fld) (i v j : Nat) : (c.orF f i v j).flash = c.flash := rfl
@[simp] theorem Chip.orF_prot (c : Chip) (f : Fld) (i v j : Nat) : (c.orF f i v j).prot = c.prot := rfl
@[simp] theorem Chip.orF_cfg (c : Chip) (f : Fld) (i v j : Nat) : (c.orF f i v j).cfg = c.cfg := rfl
@[simp] theorem Chip.orF_boot (c : Chip) (f : Fld) (i v j : Nat) : (c.orF f i v j).boot = c.boot := rfl
@[simp] theorem Chip.orF_inRings (c : Chip) (f : Fld) (i v j : Nat) : (c.orF f i v j).inRings = c.inRings := rfl
@[simp] theorem Chip.orF_outRings (c : Chip) (f : Fld) (i v j : Nat) : (c.orF f i v j).outRings = c.outRings := rfl
@[simp] theorem Chip.orF_freeAt (c : Chip) (f : Fld) (i v j : Nat) : (c.orF f i v j).freeAt = c.freeAt := rfl
@[simp] theorem Chip.orF_cref (c : Chip) (f : Fld) (i v j : Nat) : (c.orF f i v j).cref = c.cref := rfl
@[simp] theorem Chip.orF_now (c : Chip) (f : Fld) (i v j : Nat) : (c.orF f i v j).now = c.now := rfl
@[simp] theorem Chip.orF_up (c : Chip) (f : Fld) (i v j : Nat) : (c.orF f i v j).up = c.up := rfl
@[simp] theorem Chip.orF_fresh (c : Chip) (f : Fld) (i v j : Nat) : (c.orF f i v j).fresh = c.fresh := rfl
@[simp] theorem Chip.orF_out (c : Chip) (f : Fld) (i v j : Nat) : (c.orF f i v j).out = c.out := rfl
@[simp] theorem Chip.orF_byte (c : Chip) (f : Fld) (i v j : Nat) (k' : Nat) : (c.orF f i v j).byte k' = c.byte k' := rfl

/-! ### Chip.inc -/

@[simp] theorem Chip.inc_mem (c : Chip) (f : Fld) (i n j : Nat) : (c.inc f i n j).mem = c.mem := rfl
@[simp] theorem Chip.inc_poison (c : Chip) (f : Fld) (i n j : Nat) : (c.inc f i n j).poison = c.poison := rfl
@[simp] theorem Chip.inc_queues (c : Chip) (f : Fld) (i n j : Nat) : (c.inc f i n j).queues = c.queues := rfl
@[simp] theorem Chip.inc_seqs (c : Chip) (f : Fld) (i n j : Nat) : (c.inc f i n j).seqs = c.seqs := rfl
@[simp] theorem Chip.inc_units (c : Chip) (f : Fld) (i n j : Nat) : (c.inc f i n j).units = c.units := rfl
@[simp] theorem Chip.inc_partials (c : Chip) (f : Fld) (i n j : Nat) : (c.inc f i n j).partials = c.partials := rfl
@[simp] theorem Chip.inc_combs (c : Chip) (f : Fld) (i n j : Nat) : (c.inc f i n j).combs = c.combs := rfl
@[simp] theorem Chip.inc_arbs (c : Chip) (f : Fld) (i n j : Nat) : (c.inc f i n j).arbs = c.arbs := rfl
@[simp] theorem Chip.inc_xfers (c : Chip) (f : Fld) (i n j : Nat) : (c.inc f i n j).xfers = c.xfers := rfl
@[simp] theorem Chip.inc_steps (c : Chip) (f : Fld) (i n j : Nat) : (c.inc f i n j).steps = c.steps := rfl
@[simp] theorem Chip.inc_flog (c : Chip) (f : Fld) (i n j : Nat) : (c.inc f i n j).flog = c.flog := rfl
@[simp] theorem Chip.inc_meters (c : Chip) (f : Fld) (i n j : Nat) : (c.inc f i n j).meters = c.meters := rfl
@[simp] theorem Chip.inc_maps (c : Chip) (f : Fld) (i n j : Nat) : (c.inc f i n j).maps = c.maps := rfl
@[simp] theorem Chip.inc_held (c : Chip) (f : Fld) (i n j : Nat) : (c.inc f i n j).held = c.held := rfl
@[simp] theorem Chip.inc_stats (c : Chip) (f : Fld) (i n j : Nat) : (c.inc f i n j).stats = c.stats := rfl
@[simp] theorem Chip.inc_press (c : Chip) (f : Fld) (i n j : Nat) : (c.inc f i n j).press = c.press := rfl
@[simp] theorem Chip.inc_d3 (c : Chip) (f : Fld) (i n j : Nat) : (c.inc f i n j).d3 = c.d3 := rfl
@[simp] theorem Chip.inc_racks (c : Chip) (f : Fld) (i n j : Nat) : (c.inc f i n j).racks = c.racks := rfl
@[simp] theorem Chip.inc_solvers (c : Chip) (f : Fld) (i n j : Nat) : (c.inc f i n j).solvers = c.solvers := rfl
@[simp] theorem Chip.inc_upds (c : Chip) (f : Fld) (i n j : Nat) : (c.inc f i n j).upds = c.upds := rfl
@[simp] theorem Chip.inc_pnorms (c : Chip) (f : Fld) (i n j : Nat) : (c.inc f i n j).pnorms = c.pnorms := rfl
@[simp] theorem Chip.inc_links (c : Chip) (f : Fld) (i n j : Nat) : (c.inc f i n j).links = c.links := rfl
@[simp] theorem Chip.inc_arrived (c : Chip) (f : Fld) (i n j : Nat) : (c.inc f i n j).arrived = c.arrived := rfl
@[simp] theorem Chip.inc_chold (c : Chip) (f : Fld) (i n j : Nat) : (c.inc f i n j).chold = c.chold := rfl
@[simp] theorem Chip.inc_wcens (c : Chip) (f : Fld) (i n j : Nat) : (c.inc f i n j).wcens = c.wcens := rfl
@[simp] theorem Chip.inc_time (c : Chip) (f : Fld) (i n j : Nat) : (c.inc f i n j).time = c.time := rfl
@[simp] theorem Chip.inc_cars (c : Chip) (f : Fld) (i n j : Nat) : (c.inc f i n j).cars = c.cars := rfl
@[simp] theorem Chip.inc_seals (c : Chip) (f : Fld) (i n j : Nat) : (c.inc f i n j).seals = c.seals := rfl
@[simp] theorem Chip.inc_parts (c : Chip) (f : Fld) (i n j : Nat) : (c.inc f i n j).parts = c.parts := rfl
@[simp] theorem Chip.inc_mjobs (c : Chip) (f : Fld) (i n j : Nat) : (c.inc f i n j).mjobs = c.mjobs := rfl
@[simp] theorem Chip.inc_energy (c : Chip) (f : Fld) (i n j : Nat) : (c.inc f i n j).energy = c.energy := rfl
@[simp] theorem Chip.inc_chgSecond (c : Chip) (f : Fld) (i n j : Nat) : (c.inc f i n j).chgSecond = c.chgSecond := rfl
@[simp] theorem Chip.inc_flash (c : Chip) (f : Fld) (i n j : Nat) : (c.inc f i n j).flash = c.flash := rfl
@[simp] theorem Chip.inc_prot (c : Chip) (f : Fld) (i n j : Nat) : (c.inc f i n j).prot = c.prot := rfl
@[simp] theorem Chip.inc_cfg (c : Chip) (f : Fld) (i n j : Nat) : (c.inc f i n j).cfg = c.cfg := rfl
@[simp] theorem Chip.inc_boot (c : Chip) (f : Fld) (i n j : Nat) : (c.inc f i n j).boot = c.boot := rfl
@[simp] theorem Chip.inc_inRings (c : Chip) (f : Fld) (i n j : Nat) : (c.inc f i n j).inRings = c.inRings := rfl
@[simp] theorem Chip.inc_outRings (c : Chip) (f : Fld) (i n j : Nat) : (c.inc f i n j).outRings = c.outRings := rfl
@[simp] theorem Chip.inc_freeAt (c : Chip) (f : Fld) (i n j : Nat) : (c.inc f i n j).freeAt = c.freeAt := rfl
@[simp] theorem Chip.inc_cref (c : Chip) (f : Fld) (i n j : Nat) : (c.inc f i n j).cref = c.cref := rfl
@[simp] theorem Chip.inc_now (c : Chip) (f : Fld) (i n j : Nat) : (c.inc f i n j).now = c.now := rfl
@[simp] theorem Chip.inc_up (c : Chip) (f : Fld) (i n j : Nat) : (c.inc f i n j).up = c.up := rfl
@[simp] theorem Chip.inc_fresh (c : Chip) (f : Fld) (i n j : Nat) : (c.inc f i n j).fresh = c.fresh := rfl
@[simp] theorem Chip.inc_out (c : Chip) (f : Fld) (i n j : Nat) : (c.inc f i n j).out = c.out := rfl
@[simp] theorem Chip.inc_byte (c : Chip) (f : Fld) (i n j : Nat) (k' : Nat) : (c.inc f i n j).byte k' = c.byte k' := rfl

/-! ### Chip.incSat -/

@[simp] theorem Chip.incSat_mem (c : Chip) (f : Fld) (i n j : Nat) : (c.incSat f i n j).mem = c.mem := rfl
@[simp] theorem Chip.incSat_poison (c : Chip) (f : Fld) (i n j : Nat) : (c.incSat f i n j).poison = c.poison := rfl
@[simp] theorem Chip.incSat_queues (c : Chip) (f : Fld) (i n j : Nat) : (c.incSat f i n j).queues = c.queues := rfl
@[simp] theorem Chip.incSat_seqs (c : Chip) (f : Fld) (i n j : Nat) : (c.incSat f i n j).seqs = c.seqs := rfl
@[simp] theorem Chip.incSat_units (c : Chip) (f : Fld) (i n j : Nat) : (c.incSat f i n j).units = c.units := rfl
@[simp] theorem Chip.incSat_partials (c : Chip) (f : Fld) (i n j : Nat) : (c.incSat f i n j).partials = c.partials := rfl
@[simp] theorem Chip.incSat_combs (c : Chip) (f : Fld) (i n j : Nat) : (c.incSat f i n j).combs = c.combs := rfl
@[simp] theorem Chip.incSat_arbs (c : Chip) (f : Fld) (i n j : Nat) : (c.incSat f i n j).arbs = c.arbs := rfl
@[simp] theorem Chip.incSat_xfers (c : Chip) (f : Fld) (i n j : Nat) : (c.incSat f i n j).xfers = c.xfers := rfl
@[simp] theorem Chip.incSat_steps (c : Chip) (f : Fld) (i n j : Nat) : (c.incSat f i n j).steps = c.steps := rfl
@[simp] theorem Chip.incSat_flog (c : Chip) (f : Fld) (i n j : Nat) : (c.incSat f i n j).flog = c.flog := rfl
@[simp] theorem Chip.incSat_meters (c : Chip) (f : Fld) (i n j : Nat) : (c.incSat f i n j).meters = c.meters := rfl
@[simp] theorem Chip.incSat_maps (c : Chip) (f : Fld) (i n j : Nat) : (c.incSat f i n j).maps = c.maps := rfl
@[simp] theorem Chip.incSat_held (c : Chip) (f : Fld) (i n j : Nat) : (c.incSat f i n j).held = c.held := rfl
@[simp] theorem Chip.incSat_stats (c : Chip) (f : Fld) (i n j : Nat) : (c.incSat f i n j).stats = c.stats := rfl
@[simp] theorem Chip.incSat_press (c : Chip) (f : Fld) (i n j : Nat) : (c.incSat f i n j).press = c.press := rfl
@[simp] theorem Chip.incSat_d3 (c : Chip) (f : Fld) (i n j : Nat) : (c.incSat f i n j).d3 = c.d3 := rfl
@[simp] theorem Chip.incSat_racks (c : Chip) (f : Fld) (i n j : Nat) : (c.incSat f i n j).racks = c.racks := rfl
@[simp] theorem Chip.incSat_solvers (c : Chip) (f : Fld) (i n j : Nat) : (c.incSat f i n j).solvers = c.solvers := rfl
@[simp] theorem Chip.incSat_upds (c : Chip) (f : Fld) (i n j : Nat) : (c.incSat f i n j).upds = c.upds := rfl
@[simp] theorem Chip.incSat_pnorms (c : Chip) (f : Fld) (i n j : Nat) : (c.incSat f i n j).pnorms = c.pnorms := rfl
@[simp] theorem Chip.incSat_links (c : Chip) (f : Fld) (i n j : Nat) : (c.incSat f i n j).links = c.links := rfl
@[simp] theorem Chip.incSat_arrived (c : Chip) (f : Fld) (i n j : Nat) : (c.incSat f i n j).arrived = c.arrived := rfl
@[simp] theorem Chip.incSat_chold (c : Chip) (f : Fld) (i n j : Nat) : (c.incSat f i n j).chold = c.chold := rfl
@[simp] theorem Chip.incSat_wcens (c : Chip) (f : Fld) (i n j : Nat) : (c.incSat f i n j).wcens = c.wcens := rfl
@[simp] theorem Chip.incSat_time (c : Chip) (f : Fld) (i n j : Nat) : (c.incSat f i n j).time = c.time := rfl
@[simp] theorem Chip.incSat_cars (c : Chip) (f : Fld) (i n j : Nat) : (c.incSat f i n j).cars = c.cars := rfl
@[simp] theorem Chip.incSat_seals (c : Chip) (f : Fld) (i n j : Nat) : (c.incSat f i n j).seals = c.seals := rfl
@[simp] theorem Chip.incSat_parts (c : Chip) (f : Fld) (i n j : Nat) : (c.incSat f i n j).parts = c.parts := rfl
@[simp] theorem Chip.incSat_mjobs (c : Chip) (f : Fld) (i n j : Nat) : (c.incSat f i n j).mjobs = c.mjobs := rfl
@[simp] theorem Chip.incSat_energy (c : Chip) (f : Fld) (i n j : Nat) : (c.incSat f i n j).energy = c.energy := rfl
@[simp] theorem Chip.incSat_chgSecond (c : Chip) (f : Fld) (i n j : Nat) : (c.incSat f i n j).chgSecond = c.chgSecond := rfl
@[simp] theorem Chip.incSat_flash (c : Chip) (f : Fld) (i n j : Nat) : (c.incSat f i n j).flash = c.flash := rfl
@[simp] theorem Chip.incSat_prot (c : Chip) (f : Fld) (i n j : Nat) : (c.incSat f i n j).prot = c.prot := rfl
@[simp] theorem Chip.incSat_cfg (c : Chip) (f : Fld) (i n j : Nat) : (c.incSat f i n j).cfg = c.cfg := rfl
@[simp] theorem Chip.incSat_boot (c : Chip) (f : Fld) (i n j : Nat) : (c.incSat f i n j).boot = c.boot := rfl
@[simp] theorem Chip.incSat_inRings (c : Chip) (f : Fld) (i n j : Nat) : (c.incSat f i n j).inRings = c.inRings := rfl
@[simp] theorem Chip.incSat_outRings (c : Chip) (f : Fld) (i n j : Nat) : (c.incSat f i n j).outRings = c.outRings := rfl
@[simp] theorem Chip.incSat_freeAt (c : Chip) (f : Fld) (i n j : Nat) : (c.incSat f i n j).freeAt = c.freeAt := rfl
@[simp] theorem Chip.incSat_cref (c : Chip) (f : Fld) (i n j : Nat) : (c.incSat f i n j).cref = c.cref := rfl
@[simp] theorem Chip.incSat_now (c : Chip) (f : Fld) (i n j : Nat) : (c.incSat f i n j).now = c.now := rfl
@[simp] theorem Chip.incSat_up (c : Chip) (f : Fld) (i n j : Nat) : (c.incSat f i n j).up = c.up := rfl
@[simp] theorem Chip.incSat_fresh (c : Chip) (f : Fld) (i n j : Nat) : (c.incSat f i n j).fresh = c.fresh := rfl
@[simp] theorem Chip.incSat_out (c : Chip) (f : Fld) (i n j : Nat) : (c.incSat f i n j).out = c.out := rfl
@[simp] theorem Chip.incSat_byte (c : Chip) (f : Fld) (i n j : Nat) (k' : Nat) : (c.incSat f i n j).byte k' = c.byte k' := rfl

/-! ### Chip.regReset -/

@[simp] theorem Chip.regReset_mem (c : Chip) (r : Reg) (i j : Nat) : (c.regReset r i j).mem = c.mem := rfl
@[simp] theorem Chip.regReset_poison (c : Chip) (r : Reg) (i j : Nat) : (c.regReset r i j).poison = c.poison := rfl
@[simp] theorem Chip.regReset_queues (c : Chip) (r : Reg) (i j : Nat) : (c.regReset r i j).queues = c.queues := rfl
@[simp] theorem Chip.regReset_seqs (c : Chip) (r : Reg) (i j : Nat) : (c.regReset r i j).seqs = c.seqs := rfl
@[simp] theorem Chip.regReset_units (c : Chip) (r : Reg) (i j : Nat) : (c.regReset r i j).units = c.units := rfl
@[simp] theorem Chip.regReset_partials (c : Chip) (r : Reg) (i j : Nat) : (c.regReset r i j).partials = c.partials := rfl
@[simp] theorem Chip.regReset_combs (c : Chip) (r : Reg) (i j : Nat) : (c.regReset r i j).combs = c.combs := rfl
@[simp] theorem Chip.regReset_arbs (c : Chip) (r : Reg) (i j : Nat) : (c.regReset r i j).arbs = c.arbs := rfl
@[simp] theorem Chip.regReset_xfers (c : Chip) (r : Reg) (i j : Nat) : (c.regReset r i j).xfers = c.xfers := rfl
@[simp] theorem Chip.regReset_steps (c : Chip) (r : Reg) (i j : Nat) : (c.regReset r i j).steps = c.steps := rfl
@[simp] theorem Chip.regReset_flog (c : Chip) (r : Reg) (i j : Nat) : (c.regReset r i j).flog = c.flog := rfl
@[simp] theorem Chip.regReset_meters (c : Chip) (r : Reg) (i j : Nat) : (c.regReset r i j).meters = c.meters := rfl
@[simp] theorem Chip.regReset_maps (c : Chip) (r : Reg) (i j : Nat) : (c.regReset r i j).maps = c.maps := rfl
@[simp] theorem Chip.regReset_held (c : Chip) (r : Reg) (i j : Nat) : (c.regReset r i j).held = c.held := rfl
@[simp] theorem Chip.regReset_stats (c : Chip) (r : Reg) (i j : Nat) : (c.regReset r i j).stats = c.stats := rfl
@[simp] theorem Chip.regReset_press (c : Chip) (r : Reg) (i j : Nat) : (c.regReset r i j).press = c.press := rfl
@[simp] theorem Chip.regReset_d3 (c : Chip) (r : Reg) (i j : Nat) : (c.regReset r i j).d3 = c.d3 := rfl
@[simp] theorem Chip.regReset_racks (c : Chip) (r : Reg) (i j : Nat) : (c.regReset r i j).racks = c.racks := rfl
@[simp] theorem Chip.regReset_solvers (c : Chip) (r : Reg) (i j : Nat) : (c.regReset r i j).solvers = c.solvers := rfl
@[simp] theorem Chip.regReset_upds (c : Chip) (r : Reg) (i j : Nat) : (c.regReset r i j).upds = c.upds := rfl
@[simp] theorem Chip.regReset_pnorms (c : Chip) (r : Reg) (i j : Nat) : (c.regReset r i j).pnorms = c.pnorms := rfl
@[simp] theorem Chip.regReset_links (c : Chip) (r : Reg) (i j : Nat) : (c.regReset r i j).links = c.links := rfl
@[simp] theorem Chip.regReset_arrived (c : Chip) (r : Reg) (i j : Nat) : (c.regReset r i j).arrived = c.arrived := rfl
@[simp] theorem Chip.regReset_chold (c : Chip) (r : Reg) (i j : Nat) : (c.regReset r i j).chold = c.chold := rfl
@[simp] theorem Chip.regReset_wcens (c : Chip) (r : Reg) (i j : Nat) : (c.regReset r i j).wcens = c.wcens := rfl
@[simp] theorem Chip.regReset_time (c : Chip) (r : Reg) (i j : Nat) : (c.regReset r i j).time = c.time := rfl
@[simp] theorem Chip.regReset_cars (c : Chip) (r : Reg) (i j : Nat) : (c.regReset r i j).cars = c.cars := rfl
@[simp] theorem Chip.regReset_seals (c : Chip) (r : Reg) (i j : Nat) : (c.regReset r i j).seals = c.seals := rfl
@[simp] theorem Chip.regReset_parts (c : Chip) (r : Reg) (i j : Nat) : (c.regReset r i j).parts = c.parts := rfl
@[simp] theorem Chip.regReset_mjobs (c : Chip) (r : Reg) (i j : Nat) : (c.regReset r i j).mjobs = c.mjobs := rfl
@[simp] theorem Chip.regReset_energy (c : Chip) (r : Reg) (i j : Nat) : (c.regReset r i j).energy = c.energy := rfl
@[simp] theorem Chip.regReset_chgSecond (c : Chip) (r : Reg) (i j : Nat) : (c.regReset r i j).chgSecond = c.chgSecond := rfl
@[simp] theorem Chip.regReset_flash (c : Chip) (r : Reg) (i j : Nat) : (c.regReset r i j).flash = c.flash := rfl
@[simp] theorem Chip.regReset_prot (c : Chip) (r : Reg) (i j : Nat) : (c.regReset r i j).prot = c.prot := rfl
@[simp] theorem Chip.regReset_cfg (c : Chip) (r : Reg) (i j : Nat) : (c.regReset r i j).cfg = c.cfg := rfl
@[simp] theorem Chip.regReset_boot (c : Chip) (r : Reg) (i j : Nat) : (c.regReset r i j).boot = c.boot := rfl
@[simp] theorem Chip.regReset_inRings (c : Chip) (r : Reg) (i j : Nat) : (c.regReset r i j).inRings = c.inRings := rfl
@[simp] theorem Chip.regReset_outRings (c : Chip) (r : Reg) (i j : Nat) : (c.regReset r i j).outRings = c.outRings := rfl
@[simp] theorem Chip.regReset_freeAt (c : Chip) (r : Reg) (i j : Nat) : (c.regReset r i j).freeAt = c.freeAt := rfl
@[simp] theorem Chip.regReset_cref (c : Chip) (r : Reg) (i j : Nat) : (c.regReset r i j).cref = c.cref := rfl
@[simp] theorem Chip.regReset_upsets (c : Chip) (r : Reg) (i j : Nat) : (c.regReset r i j).upsets = c.upsets := rfl
@[simp] theorem Chip.regReset_now (c : Chip) (r : Reg) (i j : Nat) : (c.regReset r i j).now = c.now := rfl
@[simp] theorem Chip.regReset_up (c : Chip) (r : Reg) (i j : Nat) : (c.regReset r i j).up = c.up := rfl
@[simp] theorem Chip.regReset_fresh (c : Chip) (r : Reg) (i j : Nat) : (c.regReset r i j).fresh = c.fresh := rfl
@[simp] theorem Chip.regReset_out (c : Chip) (r : Reg) (i j : Nat) : (c.regReset r i j).out = c.out := rfl
@[simp] theorem Chip.regReset_byte (c : Chip) (r : Reg) (i j : Nat) (k' : Nat) : (c.regReset r i j).byte k' = c.byte k' := rfl

/-! ### Chip.regResetAll -/

@[simp] theorem Chip.regResetAll_mem (c : Chip) (r : Reg) (i : Nat) : (c.regResetAll r i).mem = c.mem := rfl
@[simp] theorem Chip.regResetAll_poison (c : Chip) (r : Reg) (i : Nat) : (c.regResetAll r i).poison = c.poison := rfl
@[simp] theorem Chip.regResetAll_queues (c : Chip) (r : Reg) (i : Nat) : (c.regResetAll r i).queues = c.queues := rfl
@[simp] theorem Chip.regResetAll_seqs (c : Chip) (r : Reg) (i : Nat) : (c.regResetAll r i).seqs = c.seqs := rfl
@[simp] theorem Chip.regResetAll_units (c : Chip) (r : Reg) (i : Nat) : (c.regResetAll r i).units = c.units := rfl
@[simp] theorem Chip.regResetAll_partials (c : Chip) (r : Reg) (i : Nat) : (c.regResetAll r i).partials = c.partials := rfl
@[simp] theorem Chip.regResetAll_combs (c : Chip) (r : Reg) (i : Nat) : (c.regResetAll r i).combs = c.combs := rfl
@[simp] theorem Chip.regResetAll_arbs (c : Chip) (r : Reg) (i : Nat) : (c.regResetAll r i).arbs = c.arbs := rfl
@[simp] theorem Chip.regResetAll_xfers (c : Chip) (r : Reg) (i : Nat) : (c.regResetAll r i).xfers = c.xfers := rfl
@[simp] theorem Chip.regResetAll_steps (c : Chip) (r : Reg) (i : Nat) : (c.regResetAll r i).steps = c.steps := rfl
@[simp] theorem Chip.regResetAll_flog (c : Chip) (r : Reg) (i : Nat) : (c.regResetAll r i).flog = c.flog := rfl
@[simp] theorem Chip.regResetAll_meters (c : Chip) (r : Reg) (i : Nat) : (c.regResetAll r i).meters = c.meters := rfl
@[simp] theorem Chip.regResetAll_maps (c : Chip) (r : Reg) (i : Nat) : (c.regResetAll r i).maps = c.maps := rfl
@[simp] theorem Chip.regResetAll_held (c : Chip) (r : Reg) (i : Nat) : (c.regResetAll r i).held = c.held := rfl
@[simp] theorem Chip.regResetAll_stats (c : Chip) (r : Reg) (i : Nat) : (c.regResetAll r i).stats = c.stats := rfl
@[simp] theorem Chip.regResetAll_press (c : Chip) (r : Reg) (i : Nat) : (c.regResetAll r i).press = c.press := rfl
@[simp] theorem Chip.regResetAll_d3 (c : Chip) (r : Reg) (i : Nat) : (c.regResetAll r i).d3 = c.d3 := rfl
@[simp] theorem Chip.regResetAll_racks (c : Chip) (r : Reg) (i : Nat) : (c.regResetAll r i).racks = c.racks := rfl
@[simp] theorem Chip.regResetAll_solvers (c : Chip) (r : Reg) (i : Nat) : (c.regResetAll r i).solvers = c.solvers := rfl
@[simp] theorem Chip.regResetAll_upds (c : Chip) (r : Reg) (i : Nat) : (c.regResetAll r i).upds = c.upds := rfl
@[simp] theorem Chip.regResetAll_pnorms (c : Chip) (r : Reg) (i : Nat) : (c.regResetAll r i).pnorms = c.pnorms := rfl
@[simp] theorem Chip.regResetAll_links (c : Chip) (r : Reg) (i : Nat) : (c.regResetAll r i).links = c.links := rfl
@[simp] theorem Chip.regResetAll_arrived (c : Chip) (r : Reg) (i : Nat) : (c.regResetAll r i).arrived = c.arrived := rfl
@[simp] theorem Chip.regResetAll_chold (c : Chip) (r : Reg) (i : Nat) : (c.regResetAll r i).chold = c.chold := rfl
@[simp] theorem Chip.regResetAll_wcens (c : Chip) (r : Reg) (i : Nat) : (c.regResetAll r i).wcens = c.wcens := rfl
@[simp] theorem Chip.regResetAll_time (c : Chip) (r : Reg) (i : Nat) : (c.regResetAll r i).time = c.time := rfl
@[simp] theorem Chip.regResetAll_cars (c : Chip) (r : Reg) (i : Nat) : (c.regResetAll r i).cars = c.cars := rfl
@[simp] theorem Chip.regResetAll_seals (c : Chip) (r : Reg) (i : Nat) : (c.regResetAll r i).seals = c.seals := rfl
@[simp] theorem Chip.regResetAll_parts (c : Chip) (r : Reg) (i : Nat) : (c.regResetAll r i).parts = c.parts := rfl
@[simp] theorem Chip.regResetAll_mjobs (c : Chip) (r : Reg) (i : Nat) : (c.regResetAll r i).mjobs = c.mjobs := rfl
@[simp] theorem Chip.regResetAll_energy (c : Chip) (r : Reg) (i : Nat) : (c.regResetAll r i).energy = c.energy := rfl
@[simp] theorem Chip.regResetAll_chgSecond (c : Chip) (r : Reg) (i : Nat) : (c.regResetAll r i).chgSecond = c.chgSecond := rfl
@[simp] theorem Chip.regResetAll_flash (c : Chip) (r : Reg) (i : Nat) : (c.regResetAll r i).flash = c.flash := rfl
@[simp] theorem Chip.regResetAll_prot (c : Chip) (r : Reg) (i : Nat) : (c.regResetAll r i).prot = c.prot := rfl
@[simp] theorem Chip.regResetAll_cfg (c : Chip) (r : Reg) (i : Nat) : (c.regResetAll r i).cfg = c.cfg := rfl
@[simp] theorem Chip.regResetAll_boot (c : Chip) (r : Reg) (i : Nat) : (c.regResetAll r i).boot = c.boot := rfl
@[simp] theorem Chip.regResetAll_inRings (c : Chip) (r : Reg) (i : Nat) : (c.regResetAll r i).inRings = c.inRings := rfl
@[simp] theorem Chip.regResetAll_outRings (c : Chip) (r : Reg) (i : Nat) : (c.regResetAll r i).outRings = c.outRings := rfl
@[simp] theorem Chip.regResetAll_freeAt (c : Chip) (r : Reg) (i : Nat) : (c.regResetAll r i).freeAt = c.freeAt := rfl
@[simp] theorem Chip.regResetAll_cref (c : Chip) (r : Reg) (i : Nat) : (c.regResetAll r i).cref = c.cref := rfl
@[simp] theorem Chip.regResetAll_upsets (c : Chip) (r : Reg) (i : Nat) : (c.regResetAll r i).upsets = c.upsets := rfl
@[simp] theorem Chip.regResetAll_now (c : Chip) (r : Reg) (i : Nat) : (c.regResetAll r i).now = c.now := rfl
@[simp] theorem Chip.regResetAll_up (c : Chip) (r : Reg) (i : Nat) : (c.regResetAll r i).up = c.up := rfl
@[simp] theorem Chip.regResetAll_fresh (c : Chip) (r : Reg) (i : Nat) : (c.regResetAll r i).fresh = c.fresh := rfl
@[simp] theorem Chip.regResetAll_out (c : Chip) (r : Reg) (i : Nat) : (c.regResetAll r i).out = c.out := rfl
@[simp] theorem Chip.regResetAll_byte (c : Chip) (r : Reg) (i : Nat) (k' : Nat) : (c.regResetAll r i).byte k' = c.byte k' := rfl

/-! ### Chip.free -/

@[simp] theorem Chip.free_regs (c : Chip) (w : Nat) : ((c.free w).2).regs = c.regs := rfl
@[simp] theorem Chip.free_mem (c : Chip) (w : Nat) : ((c.free w).2).mem = c.mem := rfl
@[simp] theorem Chip.free_poison (c : Chip) (w : Nat) : ((c.free w).2).poison = c.poison := rfl
@[simp] theorem Chip.free_queues (c : Chip) (w : Nat) : ((c.free w).2).queues = c.queues := rfl
@[simp] theorem Chip.free_seqs (c : Chip) (w : Nat) : ((c.free w).2).seqs = c.seqs := rfl
@[simp] theorem Chip.free_units (c : Chip) (w : Nat) : ((c.free w).2).units = c.units := rfl
@[simp] theorem Chip.free_partials (c : Chip) (w : Nat) : ((c.free w).2).partials = c.partials := rfl
@[simp] theorem Chip.free_combs (c : Chip) (w : Nat) : ((c.free w).2).combs = c.combs := rfl
@[simp] theorem Chip.free_arbs (c : Chip) (w : Nat) : ((c.free w).2).arbs = c.arbs := rfl
@[simp] theorem Chip.free_xfers (c : Chip) (w : Nat) : ((c.free w).2).xfers = c.xfers := rfl
@[simp] theorem Chip.free_steps (c : Chip) (w : Nat) : ((c.free w).2).steps = c.steps := rfl
@[simp] theorem Chip.free_flog (c : Chip) (w : Nat) : ((c.free w).2).flog = c.flog := rfl
@[simp] theorem Chip.free_meters (c : Chip) (w : Nat) : ((c.free w).2).meters = c.meters := rfl
@[simp] theorem Chip.free_maps (c : Chip) (w : Nat) : ((c.free w).2).maps = c.maps := rfl
@[simp] theorem Chip.free_held (c : Chip) (w : Nat) : ((c.free w).2).held = c.held := rfl
@[simp] theorem Chip.free_stats (c : Chip) (w : Nat) : ((c.free w).2).stats = c.stats := rfl
@[simp] theorem Chip.free_press (c : Chip) (w : Nat) : ((c.free w).2).press = c.press := rfl
@[simp] theorem Chip.free_d3 (c : Chip) (w : Nat) : ((c.free w).2).d3 = c.d3 := rfl
@[simp] theorem Chip.free_racks (c : Chip) (w : Nat) : ((c.free w).2).racks = c.racks := rfl
@[simp] theorem Chip.free_solvers (c : Chip) (w : Nat) : ((c.free w).2).solvers = c.solvers := rfl
@[simp] theorem Chip.free_upds (c : Chip) (w : Nat) : ((c.free w).2).upds = c.upds := rfl
@[simp] theorem Chip.free_pnorms (c : Chip) (w : Nat) : ((c.free w).2).pnorms = c.pnorms := rfl
@[simp] theorem Chip.free_links (c : Chip) (w : Nat) : ((c.free w).2).links = c.links := rfl
@[simp] theorem Chip.free_arrived (c : Chip) (w : Nat) : ((c.free w).2).arrived = c.arrived := rfl
@[simp] theorem Chip.free_chold (c : Chip) (w : Nat) : ((c.free w).2).chold = c.chold := rfl
@[simp] theorem Chip.free_wcens (c : Chip) (w : Nat) : ((c.free w).2).wcens = c.wcens := rfl
@[simp] theorem Chip.free_time (c : Chip) (w : Nat) : ((c.free w).2).time = c.time := rfl
@[simp] theorem Chip.free_cars (c : Chip) (w : Nat) : ((c.free w).2).cars = c.cars := rfl
@[simp] theorem Chip.free_seals (c : Chip) (w : Nat) : ((c.free w).2).seals = c.seals := rfl
@[simp] theorem Chip.free_parts (c : Chip) (w : Nat) : ((c.free w).2).parts = c.parts := rfl
@[simp] theorem Chip.free_mjobs (c : Chip) (w : Nat) : ((c.free w).2).mjobs = c.mjobs := rfl
@[simp] theorem Chip.free_energy (c : Chip) (w : Nat) : ((c.free w).2).energy = c.energy := rfl
@[simp] theorem Chip.free_chgSecond (c : Chip) (w : Nat) : ((c.free w).2).chgSecond = c.chgSecond := rfl
@[simp] theorem Chip.free_flash (c : Chip) (w : Nat) : ((c.free w).2).flash = c.flash := rfl
@[simp] theorem Chip.free_prot (c : Chip) (w : Nat) : ((c.free w).2).prot = c.prot := rfl
@[simp] theorem Chip.free_cfg (c : Chip) (w : Nat) : ((c.free w).2).cfg = c.cfg := rfl
@[simp] theorem Chip.free_boot (c : Chip) (w : Nat) : ((c.free w).2).boot = c.boot := rfl
@[simp] theorem Chip.free_inRings (c : Chip) (w : Nat) : ((c.free w).2).inRings = c.inRings := rfl
@[simp] theorem Chip.free_outRings (c : Chip) (w : Nat) : ((c.free w).2).outRings = c.outRings := rfl
@[simp] theorem Chip.free_freeAt (c : Chip) (w : Nat) : ((c.free w).2).freeAt = c.freeAt := rfl
@[simp] theorem Chip.free_cref (c : Chip) (w : Nat) : ((c.free w).2).cref = c.cref := rfl
@[simp] theorem Chip.free_upsets (c : Chip) (w : Nat) : ((c.free w).2).upsets = c.upsets := rfl
@[simp] theorem Chip.free_now (c : Chip) (w : Nat) : ((c.free w).2).now = c.now := rfl
@[simp] theorem Chip.free_up (c : Chip) (w : Nat) : ((c.free w).2).up = c.up := rfl
@[simp] theorem Chip.free_out (c : Chip) (w : Nat) : ((c.free w).2).out = c.out := rfl
@[simp] theorem Chip.free_rd (c : Chip) (w : Nat) (r' : Reg) (i' j' : Nat) : ((c.free w).2).rd r' i' j' = c.rd r' i' j' := rfl
@[simp] theorem Chip.free_g (c : Chip) (w : Nat) (f' : Fld) (i' j' : Nat) : ((c.free w).2).g f' i' j' = c.g f' i' j' := rfl
@[simp] theorem Chip.free_on (c : Chip) (w : Nat) (f' : Fld) (i' j' : Nat) : ((c.free w).2).on f' i' j' = c.on f' i' j' := rfl
@[simp] theorem Chip.free_byte (c : Chip) (w : Nat) (k' : Nat) : ((c.free w).2).byte k' = c.byte k' := rfl

/-! ### Chip.emit -/

@[simp] theorem Chip.emit_regs (c : Chip) (o : Out) : (c.emit o).regs = c.regs := rfl
@[simp] theorem Chip.emit_mem (c : Chip) (o : Out) : (c.emit o).mem = c.mem := rfl
@[simp] theorem Chip.emit_poison (c : Chip) (o : Out) : (c.emit o).poison = c.poison := rfl
@[simp] theorem Chip.emit_queues (c : Chip) (o : Out) : (c.emit o).queues = c.queues := rfl
@[simp] theorem Chip.emit_seqs (c : Chip) (o : Out) : (c.emit o).seqs = c.seqs := rfl
@[simp] theorem Chip.emit_units (c : Chip) (o : Out) : (c.emit o).units = c.units := rfl
@[simp] theorem Chip.emit_partials (c : Chip) (o : Out) : (c.emit o).partials = c.partials := rfl
@[simp] theorem Chip.emit_combs (c : Chip) (o : Out) : (c.emit o).combs = c.combs := rfl
@[simp] theorem Chip.emit_arbs (c : Chip) (o : Out) : (c.emit o).arbs = c.arbs := rfl
@[simp] theorem Chip.emit_xfers (c : Chip) (o : Out) : (c.emit o).xfers = c.xfers := rfl
@[simp] theorem Chip.emit_steps (c : Chip) (o : Out) : (c.emit o).steps = c.steps := rfl
@[simp] theorem Chip.emit_flog (c : Chip) (o : Out) : (c.emit o).flog = c.flog := rfl
@[simp] theorem Chip.emit_meters (c : Chip) (o : Out) : (c.emit o).meters = c.meters := rfl
@[simp] theorem Chip.emit_maps (c : Chip) (o : Out) : (c.emit o).maps = c.maps := rfl
@[simp] theorem Chip.emit_held (c : Chip) (o : Out) : (c.emit o).held = c.held := rfl
@[simp] theorem Chip.emit_stats (c : Chip) (o : Out) : (c.emit o).stats = c.stats := rfl
@[simp] theorem Chip.emit_press (c : Chip) (o : Out) : (c.emit o).press = c.press := rfl
@[simp] theorem Chip.emit_d3 (c : Chip) (o : Out) : (c.emit o).d3 = c.d3 := rfl
@[simp] theorem Chip.emit_racks (c : Chip) (o : Out) : (c.emit o).racks = c.racks := rfl
@[simp] theorem Chip.emit_solvers (c : Chip) (o : Out) : (c.emit o).solvers = c.solvers := rfl
@[simp] theorem Chip.emit_upds (c : Chip) (o : Out) : (c.emit o).upds = c.upds := rfl
@[simp] theorem Chip.emit_pnorms (c : Chip) (o : Out) : (c.emit o).pnorms = c.pnorms := rfl
@[simp] theorem Chip.emit_links (c : Chip) (o : Out) : (c.emit o).links = c.links := rfl
@[simp] theorem Chip.emit_arrived (c : Chip) (o : Out) : (c.emit o).arrived = c.arrived := rfl
@[simp] theorem Chip.emit_chold (c : Chip) (o : Out) : (c.emit o).chold = c.chold := rfl
@[simp] theorem Chip.emit_wcens (c : Chip) (o : Out) : (c.emit o).wcens = c.wcens := rfl
@[simp] theorem Chip.emit_time (c : Chip) (o : Out) : (c.emit o).time = c.time := rfl
@[simp] theorem Chip.emit_cars (c : Chip) (o : Out) : (c.emit o).cars = c.cars := rfl
@[simp] theorem Chip.emit_seals (c : Chip) (o : Out) : (c.emit o).seals = c.seals := rfl
@[simp] theorem Chip.emit_parts (c : Chip) (o : Out) : (c.emit o).parts = c.parts := rfl
@[simp] theorem Chip.emit_mjobs (c : Chip) (o : Out) : (c.emit o).mjobs = c.mjobs := rfl
@[simp] theorem Chip.emit_energy (c : Chip) (o : Out) : (c.emit o).energy = c.energy := rfl
@[simp] theorem Chip.emit_chgSecond (c : Chip) (o : Out) : (c.emit o).chgSecond = c.chgSecond := rfl
@[simp] theorem Chip.emit_flash (c : Chip) (o : Out) : (c.emit o).flash = c.flash := rfl
@[simp] theorem Chip.emit_prot (c : Chip) (o : Out) : (c.emit o).prot = c.prot := rfl
@[simp] theorem Chip.emit_cfg (c : Chip) (o : Out) : (c.emit o).cfg = c.cfg := rfl
@[simp] theorem Chip.emit_boot (c : Chip) (o : Out) : (c.emit o).boot = c.boot := rfl
@[simp] theorem Chip.emit_inRings (c : Chip) (o : Out) : (c.emit o).inRings = c.inRings := rfl
@[simp] theorem Chip.emit_outRings (c : Chip) (o : Out) : (c.emit o).outRings = c.outRings := rfl
@[simp] theorem Chip.emit_freeAt (c : Chip) (o : Out) : (c.emit o).freeAt = c.freeAt := rfl
@[simp] theorem Chip.emit_cref (c : Chip) (o : Out) : (c.emit o).cref = c.cref := rfl
@[simp] theorem Chip.emit_upsets (c : Chip) (o : Out) : (c.emit o).upsets = c.upsets := rfl
@[simp] theorem Chip.emit_now (c : Chip) (o : Out) : (c.emit o).now = c.now := rfl
@[simp] theorem Chip.emit_up (c : Chip) (o : Out) : (c.emit o).up = c.up := rfl
@[simp] theorem Chip.emit_fresh (c : Chip) (o : Out) : (c.emit o).fresh = c.fresh := rfl
@[simp] theorem Chip.emit_rd (c : Chip) (o : Out) (r' : Reg) (i' j' : Nat) : (c.emit o).rd r' i' j' = c.rd r' i' j' := rfl
@[simp] theorem Chip.emit_g (c : Chip) (o : Out) (f' : Fld) (i' j' : Nat) : (c.emit o).g f' i' j' = c.g f' i' j' := rfl
@[simp] theorem Chip.emit_on (c : Chip) (o : Out) (f' : Fld) (i' j' : Nat) : (c.emit o).on f' i' j' = c.on f' i' j' := rfl
@[simp] theorem Chip.emit_byte (c : Chip) (o : Out) (k' : Nat) : (c.emit o).byte k' = c.byte k' := rfl

/-! ### Chip.tally -/

@[simp] theorem Chip.tally_regs (c : Chip) (p i n : Nat) : (c.tally p i n).regs = c.regs := rfl
@[simp] theorem Chip.tally_mem (c : Chip) (p i n : Nat) : (c.tally p i n).mem = c.mem := rfl
@[simp] theorem Chip.tally_poison (c : Chip) (p i n : Nat) : (c.tally p i n).poison = c.poison := rfl
@[simp] theorem Chip.tally_queues (c : Chip) (p i n : Nat) : (c.tally p i n).queues = c.queues := rfl
@[simp] theorem Chip.tally_seqs (c : Chip) (p i n : Nat) : (c.tally p i n).seqs = c.seqs := rfl
@[simp] theorem Chip.tally_units (c : Chip) (p i n : Nat) : (c.tally p i n).units = c.units := rfl
@[simp] theorem Chip.tally_partials (c : Chip) (p i n : Nat) : (c.tally p i n).partials = c.partials := rfl
@[simp] theorem Chip.tally_combs (c : Chip) (p i n : Nat) : (c.tally p i n).combs = c.combs := rfl
@[simp] theorem Chip.tally_arbs (c : Chip) (p i n : Nat) : (c.tally p i n).arbs = c.arbs := rfl
@[simp] theorem Chip.tally_xfers (c : Chip) (p i n : Nat) : (c.tally p i n).xfers = c.xfers := rfl
@[simp] theorem Chip.tally_steps (c : Chip) (p i n : Nat) : (c.tally p i n).steps = c.steps := rfl
@[simp] theorem Chip.tally_flog (c : Chip) (p i n : Nat) : (c.tally p i n).flog = c.flog := rfl
@[simp] theorem Chip.tally_maps (c : Chip) (p i n : Nat) : (c.tally p i n).maps = c.maps := rfl
@[simp] theorem Chip.tally_held (c : Chip) (p i n : Nat) : (c.tally p i n).held = c.held := rfl
@[simp] theorem Chip.tally_stats (c : Chip) (p i n : Nat) : (c.tally p i n).stats = c.stats := rfl
@[simp] theorem Chip.tally_press (c : Chip) (p i n : Nat) : (c.tally p i n).press = c.press := rfl
@[simp] theorem Chip.tally_d3 (c : Chip) (p i n : Nat) : (c.tally p i n).d3 = c.d3 := rfl
@[simp] theorem Chip.tally_racks (c : Chip) (p i n : Nat) : (c.tally p i n).racks = c.racks := rfl
@[simp] theorem Chip.tally_solvers (c : Chip) (p i n : Nat) : (c.tally p i n).solvers = c.solvers := rfl
@[simp] theorem Chip.tally_upds (c : Chip) (p i n : Nat) : (c.tally p i n).upds = c.upds := rfl
@[simp] theorem Chip.tally_pnorms (c : Chip) (p i n : Nat) : (c.tally p i n).pnorms = c.pnorms := rfl
@[simp] theorem Chip.tally_links (c : Chip) (p i n : Nat) : (c.tally p i n).links = c.links := rfl
@[simp] theorem Chip.tally_arrived (c : Chip) (p i n : Nat) : (c.tally p i n).arrived = c.arrived := rfl
@[simp] theorem Chip.tally_chold (c : Chip) (p i n : Nat) : (c.tally p i n).chold = c.chold := rfl
@[simp] theorem Chip.tally_wcens (c : Chip) (p i n : Nat) : (c.tally p i n).wcens = c.wcens := rfl
@[simp] theorem Chip.tally_time (c : Chip) (p i n : Nat) : (c.tally p i n).time = c.time := rfl
@[simp] theorem Chip.tally_cars (c : Chip) (p i n : Nat) : (c.tally p i n).cars = c.cars := rfl
@[simp] theorem Chip.tally_seals (c : Chip) (p i n : Nat) : (c.tally p i n).seals = c.seals := rfl
@[simp] theorem Chip.tally_parts (c : Chip) (p i n : Nat) : (c.tally p i n).parts = c.parts := rfl
@[simp] theorem Chip.tally_mjobs (c : Chip) (p i n : Nat) : (c.tally p i n).mjobs = c.mjobs := rfl
@[simp] theorem Chip.tally_energy (c : Chip) (p i n : Nat) : (c.tally p i n).energy = c.energy := rfl
@[simp] theorem Chip.tally_chgSecond (c : Chip) (p i n : Nat) : (c.tally p i n).chgSecond = c.chgSecond := rfl
@[simp] theorem Chip.tally_flash (c : Chip) (p i n : Nat) : (c.tally p i n).flash = c.flash := rfl
@[simp] theorem Chip.tally_prot (c : Chip) (p i n : Nat) : (c.tally p i n).prot = c.prot := rfl
@[simp] theorem Chip.tally_cfg (c : Chip) (p i n : Nat) : (c.tally p i n).cfg = c.cfg := rfl
@[simp] theorem Chip.tally_boot (c : Chip) (p i n : Nat) : (c.tally p i n).boot = c.boot := rfl
@[simp] theorem Chip.tally_inRings (c : Chip) (p i n : Nat) : (c.tally p i n).inRings = c.inRings := rfl
@[simp] theorem Chip.tally_outRings (c : Chip) (p i n : Nat) : (c.tally p i n).outRings = c.outRings := rfl
@[simp] theorem Chip.tally_freeAt (c : Chip) (p i n : Nat) : (c.tally p i n).freeAt = c.freeAt := rfl
@[simp] theorem Chip.tally_cref (c : Chip) (p i n : Nat) : (c.tally p i n).cref = c.cref := rfl
@[simp] theorem Chip.tally_upsets (c : Chip) (p i n : Nat) : (c.tally p i n).upsets = c.upsets := rfl
@[simp] theorem Chip.tally_now (c : Chip) (p i n : Nat) : (c.tally p i n).now = c.now := rfl
@[simp] theorem Chip.tally_up (c : Chip) (p i n : Nat) : (c.tally p i n).up = c.up := rfl
@[simp] theorem Chip.tally_fresh (c : Chip) (p i n : Nat) : (c.tally p i n).fresh = c.fresh := rfl
@[simp] theorem Chip.tally_out (c : Chip) (p i n : Nat) : (c.tally p i n).out = c.out := rfl
@[simp] theorem Chip.tally_rd (c : Chip) (p i n : Nat) (r' : Reg) (i' j' : Nat) : (c.tally p i n).rd r' i' j' = c.rd r' i' j' := rfl
@[simp] theorem Chip.tally_g (c : Chip) (p i n : Nat) (f' : Fld) (i' j' : Nat) : (c.tally p i n).g f' i' j' = c.g f' i' j' := rfl
@[simp] theorem Chip.tally_on (c : Chip) (p i n : Nat) (f' : Fld) (i' j' : Nat) : (c.tally p i n).on f' i' j' = c.on f' i' j' := rfl
@[simp] theorem Chip.tally_byte (c : Chip) (p i n : Nat) (k' : Nat) : (c.tally p i n).byte k' = c.byte k' := rfl

/-! ### Chip.charge -/

@[simp] theorem Chip.charge_regs (c : Chip) (p n : Nat) : (c.charge p n).regs = c.regs := rfl
@[simp] theorem Chip.charge_mem (c : Chip) (p n : Nat) : (c.charge p n).mem = c.mem := rfl
@[simp] theorem Chip.charge_poison (c : Chip) (p n : Nat) : (c.charge p n).poison = c.poison := rfl
@[simp] theorem Chip.charge_queues (c : Chip) (p n : Nat) : (c.charge p n).queues = c.queues := rfl
@[simp] theorem Chip.charge_seqs (c : Chip) (p n : Nat) : (c.charge p n).seqs = c.seqs := rfl
@[simp] theorem Chip.charge_units (c : Chip) (p n : Nat) : (c.charge p n).units = c.units := rfl
@[simp] theorem Chip.charge_partials (c : Chip) (p n : Nat) : (c.charge p n).partials = c.partials := rfl
@[simp] theorem Chip.charge_combs (c : Chip) (p n : Nat) : (c.charge p n).combs = c.combs := rfl
@[simp] theorem Chip.charge_arbs (c : Chip) (p n : Nat) : (c.charge p n).arbs = c.arbs := rfl
@[simp] theorem Chip.charge_xfers (c : Chip) (p n : Nat) : (c.charge p n).xfers = c.xfers := rfl
@[simp] theorem Chip.charge_steps (c : Chip) (p n : Nat) : (c.charge p n).steps = c.steps := rfl
@[simp] theorem Chip.charge_flog (c : Chip) (p n : Nat) : (c.charge p n).flog = c.flog := rfl
@[simp] theorem Chip.charge_maps (c : Chip) (p n : Nat) : (c.charge p n).maps = c.maps := rfl
@[simp] theorem Chip.charge_held (c : Chip) (p n : Nat) : (c.charge p n).held = c.held := rfl
@[simp] theorem Chip.charge_stats (c : Chip) (p n : Nat) : (c.charge p n).stats = c.stats := rfl
@[simp] theorem Chip.charge_press (c : Chip) (p n : Nat) : (c.charge p n).press = c.press := rfl
@[simp] theorem Chip.charge_d3 (c : Chip) (p n : Nat) : (c.charge p n).d3 = c.d3 := rfl
@[simp] theorem Chip.charge_racks (c : Chip) (p n : Nat) : (c.charge p n).racks = c.racks := rfl
@[simp] theorem Chip.charge_solvers (c : Chip) (p n : Nat) : (c.charge p n).solvers = c.solvers := rfl
@[simp] theorem Chip.charge_upds (c : Chip) (p n : Nat) : (c.charge p n).upds = c.upds := rfl
@[simp] theorem Chip.charge_pnorms (c : Chip) (p n : Nat) : (c.charge p n).pnorms = c.pnorms := rfl
@[simp] theorem Chip.charge_links (c : Chip) (p n : Nat) : (c.charge p n).links = c.links := rfl
@[simp] theorem Chip.charge_arrived (c : Chip) (p n : Nat) : (c.charge p n).arrived = c.arrived := rfl
@[simp] theorem Chip.charge_chold (c : Chip) (p n : Nat) : (c.charge p n).chold = c.chold := rfl
@[simp] theorem Chip.charge_wcens (c : Chip) (p n : Nat) : (c.charge p n).wcens = c.wcens := rfl
@[simp] theorem Chip.charge_time (c : Chip) (p n : Nat) : (c.charge p n).time = c.time := rfl
@[simp] theorem Chip.charge_cars (c : Chip) (p n : Nat) : (c.charge p n).cars = c.cars := rfl
@[simp] theorem Chip.charge_seals (c : Chip) (p n : Nat) : (c.charge p n).seals = c.seals := rfl
@[simp] theorem Chip.charge_parts (c : Chip) (p n : Nat) : (c.charge p n).parts = c.parts := rfl
@[simp] theorem Chip.charge_mjobs (c : Chip) (p n : Nat) : (c.charge p n).mjobs = c.mjobs := rfl
@[simp] theorem Chip.charge_chgSecond (c : Chip) (p n : Nat) : (c.charge p n).chgSecond = c.chgSecond := rfl
@[simp] theorem Chip.charge_flash (c : Chip) (p n : Nat) : (c.charge p n).flash = c.flash := rfl
@[simp] theorem Chip.charge_prot (c : Chip) (p n : Nat) : (c.charge p n).prot = c.prot := rfl
@[simp] theorem Chip.charge_cfg (c : Chip) (p n : Nat) : (c.charge p n).cfg = c.cfg := rfl
@[simp] theorem Chip.charge_boot (c : Chip) (p n : Nat) : (c.charge p n).boot = c.boot := rfl
@[simp] theorem Chip.charge_inRings (c : Chip) (p n : Nat) : (c.charge p n).inRings = c.inRings := rfl
@[simp] theorem Chip.charge_outRings (c : Chip) (p n : Nat) : (c.charge p n).outRings = c.outRings := rfl
@[simp] theorem Chip.charge_freeAt (c : Chip) (p n : Nat) : (c.charge p n).freeAt = c.freeAt := rfl
@[simp] theorem Chip.charge_cref (c : Chip) (p n : Nat) : (c.charge p n).cref = c.cref := rfl
@[simp] theorem Chip.charge_upsets (c : Chip) (p n : Nat) : (c.charge p n).upsets = c.upsets := rfl
@[simp] theorem Chip.charge_now (c : Chip) (p n : Nat) : (c.charge p n).now = c.now := rfl
@[simp] theorem Chip.charge_up (c : Chip) (p n : Nat) : (c.charge p n).up = c.up := rfl
@[simp] theorem Chip.charge_fresh (c : Chip) (p n : Nat) : (c.charge p n).fresh = c.fresh := rfl
@[simp] theorem Chip.charge_out (c : Chip) (p n : Nat) : (c.charge p n).out = c.out := rfl
@[simp] theorem Chip.charge_rd (c : Chip) (p n : Nat) (r' : Reg) (i' j' : Nat) : (c.charge p n).rd r' i' j' = c.rd r' i' j' := rfl
@[simp] theorem Chip.charge_g (c : Chip) (p n : Nat) (f' : Fld) (i' j' : Nat) : (c.charge p n).g f' i' j' = c.g f' i' j' := rfl
@[simp] theorem Chip.charge_on (c : Chip) (p n : Nat) (f' : Fld) (i' j' : Nat) : (c.charge p n).on f' i' j' = c.on f' i' j' := rfl
@[simp] theorem Chip.charge_byte (c : Chip) (p n : Nat) (k' : Nat) : (c.charge p n).byte k' = c.byte k' := rfl

/-! ### Chip.meter -/

@[simp] theorem Chip.meter_regs (c : Chip) (p i n : Nat) : (c.meter p i n).regs = c.regs := rfl
@[simp] theorem Chip.meter_mem (c : Chip) (p i n : Nat) : (c.meter p i n).mem = c.mem := rfl
@[simp] theorem Chip.meter_poison (c : Chip) (p i n : Nat) : (c.meter p i n).poison = c.poison := rfl
@[simp] theorem Chip.meter_queues (c : Chip) (p i n : Nat) : (c.meter p i n).queues = c.queues := rfl
@[simp] theorem Chip.meter_seqs (c : Chip) (p i n : Nat) : (c.meter p i n).seqs = c.seqs := rfl
@[simp] theorem Chip.meter_units (c : Chip) (p i n : Nat) : (c.meter p i n).units = c.units := rfl
@[simp] theorem Chip.meter_partials (c : Chip) (p i n : Nat) : (c.meter p i n).partials = c.partials := rfl
@[simp] theorem Chip.meter_combs (c : Chip) (p i n : Nat) : (c.meter p i n).combs = c.combs := rfl
@[simp] theorem Chip.meter_arbs (c : Chip) (p i n : Nat) : (c.meter p i n).arbs = c.arbs := rfl
@[simp] theorem Chip.meter_xfers (c : Chip) (p i n : Nat) : (c.meter p i n).xfers = c.xfers := rfl
@[simp] theorem Chip.meter_steps (c : Chip) (p i n : Nat) : (c.meter p i n).steps = c.steps := rfl
@[simp] theorem Chip.meter_flog (c : Chip) (p i n : Nat) : (c.meter p i n).flog = c.flog := rfl
@[simp] theorem Chip.meter_maps (c : Chip) (p i n : Nat) : (c.meter p i n).maps = c.maps := rfl
@[simp] theorem Chip.meter_held (c : Chip) (p i n : Nat) : (c.meter p i n).held = c.held := rfl
@[simp] theorem Chip.meter_stats (c : Chip) (p i n : Nat) : (c.meter p i n).stats = c.stats := rfl
@[simp] theorem Chip.meter_press (c : Chip) (p i n : Nat) : (c.meter p i n).press = c.press := rfl
@[simp] theorem Chip.meter_d3 (c : Chip) (p i n : Nat) : (c.meter p i n).d3 = c.d3 := rfl
@[simp] theorem Chip.meter_racks (c : Chip) (p i n : Nat) : (c.meter p i n).racks = c.racks := rfl
@[simp] theorem Chip.meter_solvers (c : Chip) (p i n : Nat) : (c.meter p i n).solvers = c.solvers := rfl
@[simp] theorem Chip.meter_upds (c : Chip) (p i n : Nat) : (c.meter p i n).upds = c.upds := rfl
@[simp] theorem Chip.meter_pnorms (c : Chip) (p i n : Nat) : (c.meter p i n).pnorms = c.pnorms := rfl
@[simp] theorem Chip.meter_links (c : Chip) (p i n : Nat) : (c.meter p i n).links = c.links := rfl
@[simp] theorem Chip.meter_arrived (c : Chip) (p i n : Nat) : (c.meter p i n).arrived = c.arrived := rfl
@[simp] theorem Chip.meter_chold (c : Chip) (p i n : Nat) : (c.meter p i n).chold = c.chold := rfl
@[simp] theorem Chip.meter_wcens (c : Chip) (p i n : Nat) : (c.meter p i n).wcens = c.wcens := rfl
@[simp] theorem Chip.meter_time (c : Chip) (p i n : Nat) : (c.meter p i n).time = c.time := rfl
@[simp] theorem Chip.meter_cars (c : Chip) (p i n : Nat) : (c.meter p i n).cars = c.cars := rfl
@[simp] theorem Chip.meter_seals (c : Chip) (p i n : Nat) : (c.meter p i n).seals = c.seals := rfl
@[simp] theorem Chip.meter_parts (c : Chip) (p i n : Nat) : (c.meter p i n).parts = c.parts := rfl
@[simp] theorem Chip.meter_mjobs (c : Chip) (p i n : Nat) : (c.meter p i n).mjobs = c.mjobs := rfl
@[simp] theorem Chip.meter_chgSecond (c : Chip) (p i n : Nat) : (c.meter p i n).chgSecond = c.chgSecond := rfl
@[simp] theorem Chip.meter_flash (c : Chip) (p i n : Nat) : (c.meter p i n).flash = c.flash := rfl
@[simp] theorem Chip.meter_prot (c : Chip) (p i n : Nat) : (c.meter p i n).prot = c.prot := rfl
@[simp] theorem Chip.meter_cfg (c : Chip) (p i n : Nat) : (c.meter p i n).cfg = c.cfg := rfl
@[simp] theorem Chip.meter_boot (c : Chip) (p i n : Nat) : (c.meter p i n).boot = c.boot := rfl
@[simp] theorem Chip.meter_inRings (c : Chip) (p i n : Nat) : (c.meter p i n).inRings = c.inRings := rfl
@[simp] theorem Chip.meter_outRings (c : Chip) (p i n : Nat) : (c.meter p i n).outRings = c.outRings := rfl
@[simp] theorem Chip.meter_freeAt (c : Chip) (p i n : Nat) : (c.meter p i n).freeAt = c.freeAt := rfl
@[simp] theorem Chip.meter_cref (c : Chip) (p i n : Nat) : (c.meter p i n).cref = c.cref := rfl
@[simp] theorem Chip.meter_upsets (c : Chip) (p i n : Nat) : (c.meter p i n).upsets = c.upsets := rfl
@[simp] theorem Chip.meter_now (c : Chip) (p i n : Nat) : (c.meter p i n).now = c.now := rfl
@[simp] theorem Chip.meter_up (c : Chip) (p i n : Nat) : (c.meter p i n).up = c.up := rfl
@[simp] theorem Chip.meter_fresh (c : Chip) (p i n : Nat) : (c.meter p i n).fresh = c.fresh := rfl
@[simp] theorem Chip.meter_out (c : Chip) (p i n : Nat) : (c.meter p i n).out = c.out := rfl
@[simp] theorem Chip.meter_rd (c : Chip) (p i n : Nat) (r' : Reg) (i' j' : Nat) : (c.meter p i n).rd r' i' j' = c.rd r' i' j' := rfl
@[simp] theorem Chip.meter_g (c : Chip) (p i n : Nat) (f' : Fld) (i' j' : Nat) : (c.meter p i n).g f' i' j' = c.g f' i' j' := rfl
@[simp] theorem Chip.meter_on (c : Chip) (p i n : Nat) (f' : Fld) (i' j' : Nat) : (c.meter p i n).on f' i' j' = c.on f' i' j' := rfl
@[simp] theorem Chip.meter_byte (c : Chip) (p i n : Nat) (k' : Nat) : (c.meter p i n).byte k' = c.byte k' := rfl

/-! ### Chip.setBad -/

@[simp] theorem Chip.setBad_regs (c : Chip) (k : Nat) (b : Bool) : (c.setBad k b).regs = c.regs := rfl
@[simp] theorem Chip.setBad_mem (c : Chip) (k : Nat) (b : Bool) : (c.setBad k b).mem = c.mem := rfl
@[simp] theorem Chip.setBad_queues (c : Chip) (k : Nat) (b : Bool) : (c.setBad k b).queues = c.queues := rfl
@[simp] theorem Chip.setBad_seqs (c : Chip) (k : Nat) (b : Bool) : (c.setBad k b).seqs = c.seqs := rfl
@[simp] theorem Chip.setBad_units (c : Chip) (k : Nat) (b : Bool) : (c.setBad k b).units = c.units := rfl
@[simp] theorem Chip.setBad_partials (c : Chip) (k : Nat) (b : Bool) : (c.setBad k b).partials = c.partials := rfl
@[simp] theorem Chip.setBad_combs (c : Chip) (k : Nat) (b : Bool) : (c.setBad k b).combs = c.combs := rfl
@[simp] theorem Chip.setBad_arbs (c : Chip) (k : Nat) (b : Bool) : (c.setBad k b).arbs = c.arbs := rfl
@[simp] theorem Chip.setBad_xfers (c : Chip) (k : Nat) (b : Bool) : (c.setBad k b).xfers = c.xfers := rfl
@[simp] theorem Chip.setBad_steps (c : Chip) (k : Nat) (b : Bool) : (c.setBad k b).steps = c.steps := rfl
@[simp] theorem Chip.setBad_flog (c : Chip) (k : Nat) (b : Bool) : (c.setBad k b).flog = c.flog := rfl
@[simp] theorem Chip.setBad_meters (c : Chip) (k : Nat) (b : Bool) : (c.setBad k b).meters = c.meters := rfl
@[simp] theorem Chip.setBad_maps (c : Chip) (k : Nat) (b : Bool) : (c.setBad k b).maps = c.maps := rfl
@[simp] theorem Chip.setBad_held (c : Chip) (k : Nat) (b : Bool) : (c.setBad k b).held = c.held := rfl
@[simp] theorem Chip.setBad_stats (c : Chip) (k : Nat) (b : Bool) : (c.setBad k b).stats = c.stats := rfl
@[simp] theorem Chip.setBad_press (c : Chip) (k : Nat) (b : Bool) : (c.setBad k b).press = c.press := rfl
@[simp] theorem Chip.setBad_d3 (c : Chip) (k : Nat) (b : Bool) : (c.setBad k b).d3 = c.d3 := rfl
@[simp] theorem Chip.setBad_racks (c : Chip) (k : Nat) (b : Bool) : (c.setBad k b).racks = c.racks := rfl
@[simp] theorem Chip.setBad_solvers (c : Chip) (k : Nat) (b : Bool) : (c.setBad k b).solvers = c.solvers := rfl
@[simp] theorem Chip.setBad_upds (c : Chip) (k : Nat) (b : Bool) : (c.setBad k b).upds = c.upds := rfl
@[simp] theorem Chip.setBad_pnorms (c : Chip) (k : Nat) (b : Bool) : (c.setBad k b).pnorms = c.pnorms := rfl
@[simp] theorem Chip.setBad_links (c : Chip) (k : Nat) (b : Bool) : (c.setBad k b).links = c.links := rfl
@[simp] theorem Chip.setBad_arrived (c : Chip) (k : Nat) (b : Bool) : (c.setBad k b).arrived = c.arrived := rfl
@[simp] theorem Chip.setBad_chold (c : Chip) (k : Nat) (b : Bool) : (c.setBad k b).chold = c.chold := rfl
@[simp] theorem Chip.setBad_wcens (c : Chip) (k : Nat) (b : Bool) : (c.setBad k b).wcens = c.wcens := rfl
@[simp] theorem Chip.setBad_time (c : Chip) (k : Nat) (b : Bool) : (c.setBad k b).time = c.time := rfl
@[simp] theorem Chip.setBad_cars (c : Chip) (k : Nat) (b : Bool) : (c.setBad k b).cars = c.cars := rfl
@[simp] theorem Chip.setBad_seals (c : Chip) (k : Nat) (b : Bool) : (c.setBad k b).seals = c.seals := rfl
@[simp] theorem Chip.setBad_parts (c : Chip) (k : Nat) (b : Bool) : (c.setBad k b).parts = c.parts := rfl
@[simp] theorem Chip.setBad_mjobs (c : Chip) (k : Nat) (b : Bool) : (c.setBad k b).mjobs = c.mjobs := rfl
@[simp] theorem Chip.setBad_energy (c : Chip) (k : Nat) (b : Bool) : (c.setBad k b).energy = c.energy := rfl
@[simp] theorem Chip.setBad_chgSecond (c : Chip) (k : Nat) (b : Bool) : (c.setBad k b).chgSecond = c.chgSecond := rfl
@[simp] theorem Chip.setBad_flash (c : Chip) (k : Nat) (b : Bool) : (c.setBad k b).flash = c.flash := rfl
@[simp] theorem Chip.setBad_prot (c : Chip) (k : Nat) (b : Bool) : (c.setBad k b).prot = c.prot := rfl
@[simp] theorem Chip.setBad_cfg (c : Chip) (k : Nat) (b : Bool) : (c.setBad k b).cfg = c.cfg := rfl
@[simp] theorem Chip.setBad_boot (c : Chip) (k : Nat) (b : Bool) : (c.setBad k b).boot = c.boot := rfl
@[simp] theorem Chip.setBad_inRings (c : Chip) (k : Nat) (b : Bool) : (c.setBad k b).inRings = c.inRings := rfl
@[simp] theorem Chip.setBad_outRings (c : Chip) (k : Nat) (b : Bool) : (c.setBad k b).outRings = c.outRings := rfl
@[simp] theorem Chip.setBad_freeAt (c : Chip) (k : Nat) (b : Bool) : (c.setBad k b).freeAt = c.freeAt := rfl
@[simp] theorem Chip.setBad_cref (c : Chip) (k : Nat) (b : Bool) : (c.setBad k b).cref = c.cref := rfl
@[simp] theorem Chip.setBad_upsets (c : Chip) (k : Nat) (b : Bool) : (c.setBad k b).upsets = c.upsets := rfl
@[simp] theorem Chip.setBad_now (c : Chip) (k : Nat) (b : Bool) : (c.setBad k b).now = c.now := rfl
@[simp] theorem Chip.setBad_up (c : Chip) (k : Nat) (b : Bool) : (c.setBad k b).up = c.up := rfl
@[simp] theorem Chip.setBad_fresh (c : Chip) (k : Nat) (b : Bool) : (c.setBad k b).fresh = c.fresh := rfl
@[simp] theorem Chip.setBad_out (c : Chip) (k : Nat) (b : Bool) : (c.setBad k b).out = c.out := rfl
@[simp] theorem Chip.setBad_rd (c : Chip) (k : Nat) (b : Bool) (r' : Reg) (i' j' : Nat) : (c.setBad k b).rd r' i' j' = c.rd r' i' j' := rfl
@[simp] theorem Chip.setBad_g (c : Chip) (k : Nat) (b : Bool) (f' : Fld) (i' j' : Nat) : (c.setBad k b).g f' i' j' = c.g f' i' j' := rfl
@[simp] theorem Chip.setBad_on (c : Chip) (k : Nat) (b : Bool) (f' : Fld) (i' j' : Nat) : (c.setBad k b).on f' i' j' = c.on f' i' j' := rfl
@[simp] theorem Chip.setBad_byte (c : Chip) (k : Nat) (b : Bool) (k' : Nat) : (c.setBad k b).byte k' = c.byte k' := rfl

/-! ### Chip.putByte -/

@[simp] theorem Chip.putByte_regs (c : Chip) (k : Nat) (b : Byte) : (c.putByte k b).regs = c.regs := rfl
@[simp] theorem Chip.putByte_poison (c : Chip) (k : Nat) (b : Byte) : (c.putByte k b).poison = c.poison := rfl
@[simp] theorem Chip.putByte_queues (c : Chip) (k : Nat) (b : Byte) : (c.putByte k b).queues = c.queues := rfl
@[simp] theorem Chip.putByte_seqs (c : Chip) (k : Nat) (b : Byte) : (c.putByte k b).seqs = c.seqs := rfl
@[simp] theorem Chip.putByte_units (c : Chip) (k : Nat) (b : Byte) : (c.putByte k b).units = c.units := rfl
@[simp] theorem Chip.putByte_partials (c : Chip) (k : Nat) (b : Byte) : (c.putByte k b).partials = c.partials := rfl
@[simp] theorem Chip.putByte_combs (c : Chip) (k : Nat) (b : Byte) : (c.putByte k b).combs = c.combs := rfl
@[simp] theorem Chip.putByte_arbs (c : Chip) (k : Nat) (b : Byte) : (c.putByte k b).arbs = c.arbs := rfl
@[simp] theorem Chip.putByte_xfers (c : Chip) (k : Nat) (b : Byte) : (c.putByte k b).xfers = c.xfers := rfl
@[simp] theorem Chip.putByte_steps (c : Chip) (k : Nat) (b : Byte) : (c.putByte k b).steps = c.steps := rfl
@[simp] theorem Chip.putByte_flog (c : Chip) (k : Nat) (b : Byte) : (c.putByte k b).flog = c.flog := rfl
@[simp] theorem Chip.putByte_meters (c : Chip) (k : Nat) (b : Byte) : (c.putByte k b).meters = c.meters := rfl
@[simp] theorem Chip.putByte_maps (c : Chip) (k : Nat) (b : Byte) : (c.putByte k b).maps = c.maps := rfl
@[simp] theorem Chip.putByte_held (c : Chip) (k : Nat) (b : Byte) : (c.putByte k b).held = c.held := rfl
@[simp] theorem Chip.putByte_stats (c : Chip) (k : Nat) (b : Byte) : (c.putByte k b).stats = c.stats := rfl
@[simp] theorem Chip.putByte_press (c : Chip) (k : Nat) (b : Byte) : (c.putByte k b).press = c.press := rfl
@[simp] theorem Chip.putByte_d3 (c : Chip) (k : Nat) (b : Byte) : (c.putByte k b).d3 = c.d3 := rfl
@[simp] theorem Chip.putByte_racks (c : Chip) (k : Nat) (b : Byte) : (c.putByte k b).racks = c.racks := rfl
@[simp] theorem Chip.putByte_solvers (c : Chip) (k : Nat) (b : Byte) : (c.putByte k b).solvers = c.solvers := rfl
@[simp] theorem Chip.putByte_upds (c : Chip) (k : Nat) (b : Byte) : (c.putByte k b).upds = c.upds := rfl
@[simp] theorem Chip.putByte_pnorms (c : Chip) (k : Nat) (b : Byte) : (c.putByte k b).pnorms = c.pnorms := rfl
@[simp] theorem Chip.putByte_links (c : Chip) (k : Nat) (b : Byte) : (c.putByte k b).links = c.links := rfl
@[simp] theorem Chip.putByte_arrived (c : Chip) (k : Nat) (b : Byte) : (c.putByte k b).arrived = c.arrived := rfl
@[simp] theorem Chip.putByte_chold (c : Chip) (k : Nat) (b : Byte) : (c.putByte k b).chold = c.chold := rfl
@[simp] theorem Chip.putByte_wcens (c : Chip) (k : Nat) (b : Byte) : (c.putByte k b).wcens = c.wcens := rfl
@[simp] theorem Chip.putByte_time (c : Chip) (k : Nat) (b : Byte) : (c.putByte k b).time = c.time := rfl
@[simp] theorem Chip.putByte_cars (c : Chip) (k : Nat) (b : Byte) : (c.putByte k b).cars = c.cars := rfl
@[simp] theorem Chip.putByte_seals (c : Chip) (k : Nat) (b : Byte) : (c.putByte k b).seals = c.seals := rfl
@[simp] theorem Chip.putByte_parts (c : Chip) (k : Nat) (b : Byte) : (c.putByte k b).parts = c.parts := rfl
@[simp] theorem Chip.putByte_mjobs (c : Chip) (k : Nat) (b : Byte) : (c.putByte k b).mjobs = c.mjobs := rfl
@[simp] theorem Chip.putByte_energy (c : Chip) (k : Nat) (b : Byte) : (c.putByte k b).energy = c.energy := rfl
@[simp] theorem Chip.putByte_chgSecond (c : Chip) (k : Nat) (b : Byte) : (c.putByte k b).chgSecond = c.chgSecond := rfl
@[simp] theorem Chip.putByte_flash (c : Chip) (k : Nat) (b : Byte) : (c.putByte k b).flash = c.flash := rfl
@[simp] theorem Chip.putByte_prot (c : Chip) (k : Nat) (b : Byte) : (c.putByte k b).prot = c.prot := rfl
@[simp] theorem Chip.putByte_cfg (c : Chip) (k : Nat) (b : Byte) : (c.putByte k b).cfg = c.cfg := rfl
@[simp] theorem Chip.putByte_boot (c : Chip) (k : Nat) (b : Byte) : (c.putByte k b).boot = c.boot := rfl
@[simp] theorem Chip.putByte_inRings (c : Chip) (k : Nat) (b : Byte) : (c.putByte k b).inRings = c.inRings := rfl
@[simp] theorem Chip.putByte_outRings (c : Chip) (k : Nat) (b : Byte) : (c.putByte k b).outRings = c.outRings := rfl
@[simp] theorem Chip.putByte_freeAt (c : Chip) (k : Nat) (b : Byte) : (c.putByte k b).freeAt = c.freeAt := rfl
@[simp] theorem Chip.putByte_cref (c : Chip) (k : Nat) (b : Byte) : (c.putByte k b).cref = c.cref := rfl
@[simp] theorem Chip.putByte_upsets (c : Chip) (k : Nat) (b : Byte) : (c.putByte k b).upsets = c.upsets := rfl
@[simp] theorem Chip.putByte_now (c : Chip) (k : Nat) (b : Byte) : (c.putByte k b).now = c.now := rfl
@[simp] theorem Chip.putByte_up (c : Chip) (k : Nat) (b : Byte) : (c.putByte k b).up = c.up := rfl
@[simp] theorem Chip.putByte_fresh (c : Chip) (k : Nat) (b : Byte) : (c.putByte k b).fresh = c.fresh := rfl
@[simp] theorem Chip.putByte_out (c : Chip) (k : Nat) (b : Byte) : (c.putByte k b).out = c.out := rfl
@[simp] theorem Chip.putByte_rd (c : Chip) (k : Nat) (b : Byte) (r' : Reg) (i' j' : Nat) : (c.putByte k b).rd r' i' j' = c.rd r' i' j' := rfl
@[simp] theorem Chip.putByte_g (c : Chip) (k : Nat) (b : Byte) (f' : Fld) (i' j' : Nat) : (c.putByte k b).g f' i' j' = c.g f' i' j' := rfl
@[simp] theorem Chip.putByte_on (c : Chip) (k : Nat) (b : Byte) (f' : Fld) (i' j' : Nat) : (c.putByte k b).on f' i' j' = c.on f' i' j' := rfl

/-! ### Chip.zero -/

@[simp] theorem Chip.zero_regs (c : Chip) (k n : Nat) : (c.zero k n).regs = c.regs := rfl
@[simp] theorem Chip.zero_queues (c : Chip) (k n : Nat) : (c.zero k n).queues = c.queues := rfl
@[simp] theorem Chip.zero_seqs (c : Chip) (k n : Nat) : (c.zero k n).seqs = c.seqs := rfl
@[simp] theorem Chip.zero_units (c : Chip) (k n : Nat) : (c.zero k n).units = c.units := rfl
@[simp] theorem Chip.zero_partials (c : Chip) (k n : Nat) : (c.zero k n).partials = c.partials := rfl
@[simp] theorem Chip.zero_combs (c : Chip) (k n : Nat) : (c.zero k n).combs = c.combs := rfl
@[simp] theorem Chip.zero_arbs (c : Chip) (k n : Nat) : (c.zero k n).arbs = c.arbs := rfl
@[simp] theorem Chip.zero_xfers (c : Chip) (k n : Nat) : (c.zero k n).xfers = c.xfers := rfl
@[simp] theorem Chip.zero_steps (c : Chip) (k n : Nat) : (c.zero k n).steps = c.steps := rfl
@[simp] theorem Chip.zero_flog (c : Chip) (k n : Nat) : (c.zero k n).flog = c.flog := rfl
@[simp] theorem Chip.zero_meters (c : Chip) (k n : Nat) : (c.zero k n).meters = c.meters := rfl
@[simp] theorem Chip.zero_maps (c : Chip) (k n : Nat) : (c.zero k n).maps = c.maps := rfl
@[simp] theorem Chip.zero_held (c : Chip) (k n : Nat) : (c.zero k n).held = c.held := rfl
@[simp] theorem Chip.zero_stats (c : Chip) (k n : Nat) : (c.zero k n).stats = c.stats := rfl
@[simp] theorem Chip.zero_press (c : Chip) (k n : Nat) : (c.zero k n).press = c.press := rfl
@[simp] theorem Chip.zero_d3 (c : Chip) (k n : Nat) : (c.zero k n).d3 = c.d3 := rfl
@[simp] theorem Chip.zero_racks (c : Chip) (k n : Nat) : (c.zero k n).racks = c.racks := rfl
@[simp] theorem Chip.zero_solvers (c : Chip) (k n : Nat) : (c.zero k n).solvers = c.solvers := rfl
@[simp] theorem Chip.zero_upds (c : Chip) (k n : Nat) : (c.zero k n).upds = c.upds := rfl
@[simp] theorem Chip.zero_pnorms (c : Chip) (k n : Nat) : (c.zero k n).pnorms = c.pnorms := rfl
@[simp] theorem Chip.zero_links (c : Chip) (k n : Nat) : (c.zero k n).links = c.links := rfl
@[simp] theorem Chip.zero_arrived (c : Chip) (k n : Nat) : (c.zero k n).arrived = c.arrived := rfl
@[simp] theorem Chip.zero_chold (c : Chip) (k n : Nat) : (c.zero k n).chold = c.chold := rfl
@[simp] theorem Chip.zero_wcens (c : Chip) (k n : Nat) : (c.zero k n).wcens = c.wcens := rfl
@[simp] theorem Chip.zero_time (c : Chip) (k n : Nat) : (c.zero k n).time = c.time := rfl
@[simp] theorem Chip.zero_cars (c : Chip) (k n : Nat) : (c.zero k n).cars = c.cars := rfl
@[simp] theorem Chip.zero_seals (c : Chip) (k n : Nat) : (c.zero k n).seals = c.seals := rfl
@[simp] theorem Chip.zero_parts (c : Chip) (k n : Nat) : (c.zero k n).parts = c.parts := rfl
@[simp] theorem Chip.zero_mjobs (c : Chip) (k n : Nat) : (c.zero k n).mjobs = c.mjobs := rfl
@[simp] theorem Chip.zero_energy (c : Chip) (k n : Nat) : (c.zero k n).energy = c.energy := rfl
@[simp] theorem Chip.zero_chgSecond (c : Chip) (k n : Nat) : (c.zero k n).chgSecond = c.chgSecond := rfl
@[simp] theorem Chip.zero_flash (c : Chip) (k n : Nat) : (c.zero k n).flash = c.flash := rfl
@[simp] theorem Chip.zero_prot (c : Chip) (k n : Nat) : (c.zero k n).prot = c.prot := rfl
@[simp] theorem Chip.zero_cfg (c : Chip) (k n : Nat) : (c.zero k n).cfg = c.cfg := rfl
@[simp] theorem Chip.zero_boot (c : Chip) (k n : Nat) : (c.zero k n).boot = c.boot := rfl
@[simp] theorem Chip.zero_inRings (c : Chip) (k n : Nat) : (c.zero k n).inRings = c.inRings := rfl
@[simp] theorem Chip.zero_outRings (c : Chip) (k n : Nat) : (c.zero k n).outRings = c.outRings := rfl
@[simp] theorem Chip.zero_freeAt (c : Chip) (k n : Nat) : (c.zero k n).freeAt = c.freeAt := rfl
@[simp] theorem Chip.zero_cref (c : Chip) (k n : Nat) : (c.zero k n).cref = c.cref := rfl
@[simp] theorem Chip.zero_upsets (c : Chip) (k n : Nat) : (c.zero k n).upsets = c.upsets := rfl
@[simp] theorem Chip.zero_now (c : Chip) (k n : Nat) : (c.zero k n).now = c.now := rfl
@[simp] theorem Chip.zero_up (c : Chip) (k n : Nat) : (c.zero k n).up = c.up := rfl
@[simp] theorem Chip.zero_fresh (c : Chip) (k n : Nat) : (c.zero k n).fresh = c.fresh := rfl
@[simp] theorem Chip.zero_out (c : Chip) (k n : Nat) : (c.zero k n).out = c.out := rfl
@[simp] theorem Chip.zero_rd (c : Chip) (k n : Nat) (r' : Reg) (i' j' : Nat) : (c.zero k n).rd r' i' j' = c.rd r' i' j' := rfl
@[simp] theorem Chip.zero_g (c : Chip) (k n : Nat) (f' : Fld) (i' j' : Nat) : (c.zero k n).g f' i' j' = c.g f' i' j' := rfl
@[simp] theorem Chip.zero_on (c : Chip) (k n : Nat) (f' : Fld) (i' j' : Nat) : (c.zero k n).on f' i' j' = c.on f' i' j' := rfl

/-! ### Chip.setQueue -/

@[simp] theorem Chip.setQueue_regs (c : Chip) (r q : Nat) (x : QueueS) : (c.setQueue r q x).regs = c.regs := rfl
@[simp] theorem Chip.setQueue_mem (c : Chip) (r q : Nat) (x : QueueS) : (c.setQueue r q x).mem = c.mem := rfl
@[simp] theorem Chip.setQueue_poison (c : Chip) (r q : Nat) (x : QueueS) : (c.setQueue r q x).poison = c.poison := rfl
@[simp] theorem Chip.setQueue_seqs (c : Chip) (r q : Nat) (x : QueueS) : (c.setQueue r q x).seqs = c.seqs := rfl
@[simp] theorem Chip.setQueue_units (c : Chip) (r q : Nat) (x : QueueS) : (c.setQueue r q x).units = c.units := rfl
@[simp] theorem Chip.setQueue_partials (c : Chip) (r q : Nat) (x : QueueS) : (c.setQueue r q x).partials = c.partials := rfl
@[simp] theorem Chip.setQueue_combs (c : Chip) (r q : Nat) (x : QueueS) : (c.setQueue r q x).combs = c.combs := rfl
@[simp] theorem Chip.setQueue_arbs (c : Chip) (r q : Nat) (x : QueueS) : (c.setQueue r q x).arbs = c.arbs := rfl
@[simp] theorem Chip.setQueue_xfers (c : Chip) (r q : Nat) (x : QueueS) : (c.setQueue r q x).xfers = c.xfers := rfl
@[simp] theorem Chip.setQueue_steps (c : Chip) (r q : Nat) (x : QueueS) : (c.setQueue r q x).steps = c.steps := rfl
@[simp] theorem Chip.setQueue_flog (c : Chip) (r q : Nat) (x : QueueS) : (c.setQueue r q x).flog = c.flog := rfl
@[simp] theorem Chip.setQueue_meters (c : Chip) (r q : Nat) (x : QueueS) : (c.setQueue r q x).meters = c.meters := rfl
@[simp] theorem Chip.setQueue_maps (c : Chip) (r q : Nat) (x : QueueS) : (c.setQueue r q x).maps = c.maps := rfl
@[simp] theorem Chip.setQueue_held (c : Chip) (r q : Nat) (x : QueueS) : (c.setQueue r q x).held = c.held := rfl
@[simp] theorem Chip.setQueue_stats (c : Chip) (r q : Nat) (x : QueueS) : (c.setQueue r q x).stats = c.stats := rfl
@[simp] theorem Chip.setQueue_press (c : Chip) (r q : Nat) (x : QueueS) : (c.setQueue r q x).press = c.press := rfl
@[simp] theorem Chip.setQueue_d3 (c : Chip) (r q : Nat) (x : QueueS) : (c.setQueue r q x).d3 = c.d3 := rfl
@[simp] theorem Chip.setQueue_racks (c : Chip) (r q : Nat) (x : QueueS) : (c.setQueue r q x).racks = c.racks := rfl
@[simp] theorem Chip.setQueue_solvers (c : Chip) (r q : Nat) (x : QueueS) : (c.setQueue r q x).solvers = c.solvers := rfl
@[simp] theorem Chip.setQueue_upds (c : Chip) (r q : Nat) (x : QueueS) : (c.setQueue r q x).upds = c.upds := rfl
@[simp] theorem Chip.setQueue_pnorms (c : Chip) (r q : Nat) (x : QueueS) : (c.setQueue r q x).pnorms = c.pnorms := rfl
@[simp] theorem Chip.setQueue_links (c : Chip) (r q : Nat) (x : QueueS) : (c.setQueue r q x).links = c.links := rfl
@[simp] theorem Chip.setQueue_arrived (c : Chip) (r q : Nat) (x : QueueS) : (c.setQueue r q x).arrived = c.arrived := rfl
@[simp] theorem Chip.setQueue_chold (c : Chip) (r q : Nat) (x : QueueS) : (c.setQueue r q x).chold = c.chold := rfl
@[simp] theorem Chip.setQueue_wcens (c : Chip) (r q : Nat) (x : QueueS) : (c.setQueue r q x).wcens = c.wcens := rfl
@[simp] theorem Chip.setQueue_time (c : Chip) (r q : Nat) (x : QueueS) : (c.setQueue r q x).time = c.time := rfl
@[simp] theorem Chip.setQueue_cars (c : Chip) (r q : Nat) (x : QueueS) : (c.setQueue r q x).cars = c.cars := rfl
@[simp] theorem Chip.setQueue_seals (c : Chip) (r q : Nat) (x : QueueS) : (c.setQueue r q x).seals = c.seals := rfl
@[simp] theorem Chip.setQueue_parts (c : Chip) (r q : Nat) (x : QueueS) : (c.setQueue r q x).parts = c.parts := rfl
@[simp] theorem Chip.setQueue_mjobs (c : Chip) (r q : Nat) (x : QueueS) : (c.setQueue r q x).mjobs = c.mjobs := rfl
@[simp] theorem Chip.setQueue_energy (c : Chip) (r q : Nat) (x : QueueS) : (c.setQueue r q x).energy = c.energy := rfl
@[simp] theorem Chip.setQueue_chgSecond (c : Chip) (r q : Nat) (x : QueueS) : (c.setQueue r q x).chgSecond = c.chgSecond := rfl
@[simp] theorem Chip.setQueue_flash (c : Chip) (r q : Nat) (x : QueueS) : (c.setQueue r q x).flash = c.flash := rfl
@[simp] theorem Chip.setQueue_prot (c : Chip) (r q : Nat) (x : QueueS) : (c.setQueue r q x).prot = c.prot := rfl
@[simp] theorem Chip.setQueue_cfg (c : Chip) (r q : Nat) (x : QueueS) : (c.setQueue r q x).cfg = c.cfg := rfl
@[simp] theorem Chip.setQueue_boot (c : Chip) (r q : Nat) (x : QueueS) : (c.setQueue r q x).boot = c.boot := rfl
@[simp] theorem Chip.setQueue_inRings (c : Chip) (r q : Nat) (x : QueueS) : (c.setQueue r q x).inRings = c.inRings := rfl
@[simp] theorem Chip.setQueue_outRings (c : Chip) (r q : Nat) (x : QueueS) : (c.setQueue r q x).outRings = c.outRings := rfl
@[simp] theorem Chip.setQueue_freeAt (c : Chip) (r q : Nat) (x : QueueS) : (c.setQueue r q x).freeAt = c.freeAt := rfl
@[simp] theorem Chip.setQueue_cref (c : Chip) (r q : Nat) (x : QueueS) : (c.setQueue r q x).cref = c.cref := rfl
@[simp] theorem Chip.setQueue_upsets (c : Chip) (r q : Nat) (x : QueueS) : (c.setQueue r q x).upsets = c.upsets := rfl
@[simp] theorem Chip.setQueue_now (c : Chip) (r q : Nat) (x : QueueS) : (c.setQueue r q x).now = c.now := rfl
@[simp] theorem Chip.setQueue_up (c : Chip) (r q : Nat) (x : QueueS) : (c.setQueue r q x).up = c.up := rfl
@[simp] theorem Chip.setQueue_fresh (c : Chip) (r q : Nat) (x : QueueS) : (c.setQueue r q x).fresh = c.fresh := rfl
@[simp] theorem Chip.setQueue_out (c : Chip) (r q : Nat) (x : QueueS) : (c.setQueue r q x).out = c.out := rfl
@[simp] theorem Chip.setQueue_rd (c : Chip) (r q : Nat) (x : QueueS) (r' : Reg) (i' j' : Nat) : (c.setQueue r q x).rd r' i' j' = c.rd r' i' j' := rfl
@[simp] theorem Chip.setQueue_g (c : Chip) (r q : Nat) (x : QueueS) (f' : Fld) (i' j' : Nat) : (c.setQueue r q x).g f' i' j' = c.g f' i' j' := rfl
@[simp] theorem Chip.setQueue_on (c : Chip) (r q : Nat) (x : QueueS) (f' : Fld) (i' j' : Nat) : (c.setQueue r q x).on f' i' j' = c.on f' i' j' := rfl
@[simp] theorem Chip.setQueue_byte (c : Chip) (r q : Nat) (x : QueueS) (k' : Nat) : (c.setQueue r q x).byte k' = c.byte k' := rfl

/-! ### Chip.setSeq -/

@[simp] theorem Chip.setSeq_regs (c : Chip) (cl : Nat) (x : SeqS) : (c.setSeq cl x).regs = c.regs := rfl
@[simp] theorem Chip.setSeq_mem (c : Chip) (cl : Nat) (x : SeqS) : (c.setSeq cl x).mem = c.mem := rfl
@[simp] theorem Chip.setSeq_poison (c : Chip) (cl : Nat) (x : SeqS) : (c.setSeq cl x).poison = c.poison := rfl
@[simp] theorem Chip.setSeq_queues (c : Chip) (cl : Nat) (x : SeqS) : (c.setSeq cl x).queues = c.queues := rfl
@[simp] theorem Chip.setSeq_units (c : Chip) (cl : Nat) (x : SeqS) : (c.setSeq cl x).units = c.units := rfl
@[simp] theorem Chip.setSeq_partials (c : Chip) (cl : Nat) (x : SeqS) : (c.setSeq cl x).partials = c.partials := rfl
@[simp] theorem Chip.setSeq_combs (c : Chip) (cl : Nat) (x : SeqS) : (c.setSeq cl x).combs = c.combs := rfl
@[simp] theorem Chip.setSeq_arbs (c : Chip) (cl : Nat) (x : SeqS) : (c.setSeq cl x).arbs = c.arbs := rfl
@[simp] theorem Chip.setSeq_xfers (c : Chip) (cl : Nat) (x : SeqS) : (c.setSeq cl x).xfers = c.xfers := rfl
@[simp] theorem Chip.setSeq_steps (c : Chip) (cl : Nat) (x : SeqS) : (c.setSeq cl x).steps = c.steps := rfl
@[simp] theorem Chip.setSeq_flog (c : Chip) (cl : Nat) (x : SeqS) : (c.setSeq cl x).flog = c.flog := rfl
@[simp] theorem Chip.setSeq_meters (c : Chip) (cl : Nat) (x : SeqS) : (c.setSeq cl x).meters = c.meters := rfl
@[simp] theorem Chip.setSeq_maps (c : Chip) (cl : Nat) (x : SeqS) : (c.setSeq cl x).maps = c.maps := rfl
@[simp] theorem Chip.setSeq_held (c : Chip) (cl : Nat) (x : SeqS) : (c.setSeq cl x).held = c.held := rfl
@[simp] theorem Chip.setSeq_stats (c : Chip) (cl : Nat) (x : SeqS) : (c.setSeq cl x).stats = c.stats := rfl
@[simp] theorem Chip.setSeq_press (c : Chip) (cl : Nat) (x : SeqS) : (c.setSeq cl x).press = c.press := rfl
@[simp] theorem Chip.setSeq_d3 (c : Chip) (cl : Nat) (x : SeqS) : (c.setSeq cl x).d3 = c.d3 := rfl
@[simp] theorem Chip.setSeq_racks (c : Chip) (cl : Nat) (x : SeqS) : (c.setSeq cl x).racks = c.racks := rfl
@[simp] theorem Chip.setSeq_solvers (c : Chip) (cl : Nat) (x : SeqS) : (c.setSeq cl x).solvers = c.solvers := rfl
@[simp] theorem Chip.setSeq_upds (c : Chip) (cl : Nat) (x : SeqS) : (c.setSeq cl x).upds = c.upds := rfl
@[simp] theorem Chip.setSeq_pnorms (c : Chip) (cl : Nat) (x : SeqS) : (c.setSeq cl x).pnorms = c.pnorms := rfl
@[simp] theorem Chip.setSeq_links (c : Chip) (cl : Nat) (x : SeqS) : (c.setSeq cl x).links = c.links := rfl
@[simp] theorem Chip.setSeq_arrived (c : Chip) (cl : Nat) (x : SeqS) : (c.setSeq cl x).arrived = c.arrived := rfl
@[simp] theorem Chip.setSeq_chold (c : Chip) (cl : Nat) (x : SeqS) : (c.setSeq cl x).chold = c.chold := rfl
@[simp] theorem Chip.setSeq_wcens (c : Chip) (cl : Nat) (x : SeqS) : (c.setSeq cl x).wcens = c.wcens := rfl
@[simp] theorem Chip.setSeq_time (c : Chip) (cl : Nat) (x : SeqS) : (c.setSeq cl x).time = c.time := rfl
@[simp] theorem Chip.setSeq_cars (c : Chip) (cl : Nat) (x : SeqS) : (c.setSeq cl x).cars = c.cars := rfl
@[simp] theorem Chip.setSeq_seals (c : Chip) (cl : Nat) (x : SeqS) : (c.setSeq cl x).seals = c.seals := rfl
@[simp] theorem Chip.setSeq_parts (c : Chip) (cl : Nat) (x : SeqS) : (c.setSeq cl x).parts = c.parts := rfl
@[simp] theorem Chip.setSeq_mjobs (c : Chip) (cl : Nat) (x : SeqS) : (c.setSeq cl x).mjobs = c.mjobs := rfl
@[simp] theorem Chip.setSeq_energy (c : Chip) (cl : Nat) (x : SeqS) : (c.setSeq cl x).energy = c.energy := rfl
@[simp] theorem Chip.setSeq_chgSecond (c : Chip) (cl : Nat) (x : SeqS) : (c.setSeq cl x).chgSecond = c.chgSecond := rfl
@[simp] theorem Chip.setSeq_flash (c : Chip) (cl : Nat) (x : SeqS) : (c.setSeq cl x).flash = c.flash := rfl
@[simp] theorem Chip.setSeq_prot (c : Chip) (cl : Nat) (x : SeqS) : (c.setSeq cl x).prot = c.prot := rfl
@[simp] theorem Chip.setSeq_cfg (c : Chip) (cl : Nat) (x : SeqS) : (c.setSeq cl x).cfg = c.cfg := rfl
@[simp] theorem Chip.setSeq_boot (c : Chip) (cl : Nat) (x : SeqS) : (c.setSeq cl x).boot = c.boot := rfl
@[simp] theorem Chip.setSeq_inRings (c : Chip) (cl : Nat) (x : SeqS) : (c.setSeq cl x).inRings = c.inRings := rfl
@[simp] theorem Chip.setSeq_outRings (c : Chip) (cl : Nat) (x : SeqS) : (c.setSeq cl x).outRings = c.outRings := rfl
@[simp] theorem Chip.setSeq_freeAt (c : Chip) (cl : Nat) (x : SeqS) : (c.setSeq cl x).freeAt = c.freeAt := rfl
@[simp] theorem Chip.setSeq_cref (c : Chip) (cl : Nat) (x : SeqS) : (c.setSeq cl x).cref = c.cref := rfl
@[simp] theorem Chip.setSeq_upsets (c : Chip) (cl : Nat) (x : SeqS) : (c.setSeq cl x).upsets = c.upsets := rfl
@[simp] theorem Chip.setSeq_now (c : Chip) (cl : Nat) (x : SeqS) : (c.setSeq cl x).now = c.now := rfl
@[simp] theorem Chip.setSeq_up (c : Chip) (cl : Nat) (x : SeqS) : (c.setSeq cl x).up = c.up := rfl
@[simp] theorem Chip.setSeq_fresh (c : Chip) (cl : Nat) (x : SeqS) : (c.setSeq cl x).fresh = c.fresh := rfl
@[simp] theorem Chip.setSeq_out (c : Chip) (cl : Nat) (x : SeqS) : (c.setSeq cl x).out = c.out := rfl
@[simp] theorem Chip.setSeq_rd (c : Chip) (cl : Nat) (x : SeqS) (r' : Reg) (i' j' : Nat) : (c.setSeq cl x).rd r' i' j' = c.rd r' i' j' := rfl
@[simp] theorem Chip.setSeq_g (c : Chip) (cl : Nat) (x : SeqS) (f' : Fld) (i' j' : Nat) : (c.setSeq cl x).g f' i' j' = c.g f' i' j' := rfl
@[simp] theorem Chip.setSeq_on (c : Chip) (cl : Nat) (x : SeqS) (f' : Fld) (i' j' : Nat) : (c.setSeq cl x).on f' i' j' = c.on f' i' j' := rfl
@[simp] theorem Chip.setSeq_byte (c : Chip) (cl : Nat) (x : SeqS) (k' : Nat) : (c.setSeq cl x).byte k' = c.byte k' := rfl

/-! ### Chip.setUnit -/

@[simp] theorem Chip.setUnit_regs (c : Chip) (u : Nat) (x : UnitS) : (c.setUnit u x).regs = c.regs := rfl
@[simp] theorem Chip.setUnit_mem (c : Chip) (u : Nat) (x : UnitS) : (c.setUnit u x).mem = c.mem := rfl
@[simp] theorem Chip.setUnit_poison (c : Chip) (u : Nat) (x : UnitS) : (c.setUnit u x).poison = c.poison := rfl
@[simp] theorem Chip.setUnit_queues (c : Chip) (u : Nat) (x : UnitS) : (c.setUnit u x).queues = c.queues := rfl
@[simp] theorem Chip.setUnit_seqs (c : Chip) (u : Nat) (x : UnitS) : (c.setUnit u x).seqs = c.seqs := rfl
@[simp] theorem Chip.setUnit_partials (c : Chip) (u : Nat) (x : UnitS) : (c.setUnit u x).partials = c.partials := rfl
@[simp] theorem Chip.setUnit_combs (c : Chip) (u : Nat) (x : UnitS) : (c.setUnit u x).combs = c.combs := rfl
@[simp] theorem Chip.setUnit_arbs (c : Chip) (u : Nat) (x : UnitS) : (c.setUnit u x).arbs = c.arbs := rfl
@[simp] theorem Chip.setUnit_xfers (c : Chip) (u : Nat) (x : UnitS) : (c.setUnit u x).xfers = c.xfers := rfl
@[simp] theorem Chip.setUnit_steps (c : Chip) (u : Nat) (x : UnitS) : (c.setUnit u x).steps = c.steps := rfl
@[simp] theorem Chip.setUnit_flog (c : Chip) (u : Nat) (x : UnitS) : (c.setUnit u x).flog = c.flog := rfl
@[simp] theorem Chip.setUnit_meters (c : Chip) (u : Nat) (x : UnitS) : (c.setUnit u x).meters = c.meters := rfl
@[simp] theorem Chip.setUnit_maps (c : Chip) (u : Nat) (x : UnitS) : (c.setUnit u x).maps = c.maps := rfl
@[simp] theorem Chip.setUnit_held (c : Chip) (u : Nat) (x : UnitS) : (c.setUnit u x).held = c.held := rfl
@[simp] theorem Chip.setUnit_stats (c : Chip) (u : Nat) (x : UnitS) : (c.setUnit u x).stats = c.stats := rfl
@[simp] theorem Chip.setUnit_press (c : Chip) (u : Nat) (x : UnitS) : (c.setUnit u x).press = c.press := rfl
@[simp] theorem Chip.setUnit_d3 (c : Chip) (u : Nat) (x : UnitS) : (c.setUnit u x).d3 = c.d3 := rfl
@[simp] theorem Chip.setUnit_racks (c : Chip) (u : Nat) (x : UnitS) : (c.setUnit u x).racks = c.racks := rfl
@[simp] theorem Chip.setUnit_solvers (c : Chip) (u : Nat) (x : UnitS) : (c.setUnit u x).solvers = c.solvers := rfl
@[simp] theorem Chip.setUnit_upds (c : Chip) (u : Nat) (x : UnitS) : (c.setUnit u x).upds = c.upds := rfl
@[simp] theorem Chip.setUnit_pnorms (c : Chip) (u : Nat) (x : UnitS) : (c.setUnit u x).pnorms = c.pnorms := rfl
@[simp] theorem Chip.setUnit_links (c : Chip) (u : Nat) (x : UnitS) : (c.setUnit u x).links = c.links := rfl
@[simp] theorem Chip.setUnit_arrived (c : Chip) (u : Nat) (x : UnitS) : (c.setUnit u x).arrived = c.arrived := rfl
@[simp] theorem Chip.setUnit_chold (c : Chip) (u : Nat) (x : UnitS) : (c.setUnit u x).chold = c.chold := rfl
@[simp] theorem Chip.setUnit_wcens (c : Chip) (u : Nat) (x : UnitS) : (c.setUnit u x).wcens = c.wcens := rfl
@[simp] theorem Chip.setUnit_time (c : Chip) (u : Nat) (x : UnitS) : (c.setUnit u x).time = c.time := rfl
@[simp] theorem Chip.setUnit_cars (c : Chip) (u : Nat) (x : UnitS) : (c.setUnit u x).cars = c.cars := rfl
@[simp] theorem Chip.setUnit_seals (c : Chip) (u : Nat) (x : UnitS) : (c.setUnit u x).seals = c.seals := rfl
@[simp] theorem Chip.setUnit_parts (c : Chip) (u : Nat) (x : UnitS) : (c.setUnit u x).parts = c.parts := rfl
@[simp] theorem Chip.setUnit_mjobs (c : Chip) (u : Nat) (x : UnitS) : (c.setUnit u x).mjobs = c.mjobs := rfl
@[simp] theorem Chip.setUnit_energy (c : Chip) (u : Nat) (x : UnitS) : (c.setUnit u x).energy = c.energy := rfl
@[simp] theorem Chip.setUnit_chgSecond (c : Chip) (u : Nat) (x : UnitS) : (c.setUnit u x).chgSecond = c.chgSecond := rfl
@[simp] theorem Chip.setUnit_flash (c : Chip) (u : Nat) (x : UnitS) : (c.setUnit u x).flash = c.flash := rfl
@[simp] theorem Chip.setUnit_prot (c : Chip) (u : Nat) (x : UnitS) : (c.setUnit u x).prot = c.prot := rfl
@[simp] theorem Chip.setUnit_cfg (c : Chip) (u : Nat) (x : UnitS) : (c.setUnit u x).cfg = c.cfg := rfl
@[simp] theorem Chip.setUnit_boot (c : Chip) (u : Nat) (x : UnitS) : (c.setUnit u x).boot = c.boot := rfl
@[simp] theorem Chip.setUnit_inRings (c : Chip) (u : Nat) (x : UnitS) : (c.setUnit u x).inRings = c.inRings := rfl
@[simp] theorem Chip.setUnit_outRings (c : Chip) (u : Nat) (x : UnitS) : (c.setUnit u x).outRings = c.outRings := rfl
@[simp] theorem Chip.setUnit_freeAt (c : Chip) (u : Nat) (x : UnitS) : (c.setUnit u x).freeAt = c.freeAt := rfl
@[simp] theorem Chip.setUnit_cref (c : Chip) (u : Nat) (x : UnitS) : (c.setUnit u x).cref = c.cref := rfl
@[simp] theorem Chip.setUnit_upsets (c : Chip) (u : Nat) (x : UnitS) : (c.setUnit u x).upsets = c.upsets := rfl
@[simp] theorem Chip.setUnit_now (c : Chip) (u : Nat) (x : UnitS) : (c.setUnit u x).now = c.now := rfl
@[simp] theorem Chip.setUnit_up (c : Chip) (u : Nat) (x : UnitS) : (c.setUnit u x).up = c.up := rfl
@[simp] theorem Chip.setUnit_fresh (c : Chip) (u : Nat) (x : UnitS) : (c.setUnit u x).fresh = c.fresh := rfl
@[simp] theorem Chip.setUnit_out (c : Chip) (u : Nat) (x : UnitS) : (c.setUnit u x).out = c.out := rfl
@[simp] theorem Chip.setUnit_rd (c : Chip) (u : Nat) (x : UnitS) (r' : Reg) (i' j' : Nat) : (c.setUnit u x).rd r' i' j' = c.rd r' i' j' := rfl
@[simp] theorem Chip.setUnit_g (c : Chip) (u : Nat) (x : UnitS) (f' : Fld) (i' j' : Nat) : (c.setUnit u x).g f' i' j' = c.g f' i' j' := rfl
@[simp] theorem Chip.setUnit_on (c : Chip) (u : Nat) (x : UnitS) (f' : Fld) (i' j' : Nat) : (c.setUnit u x).on f' i' j' = c.on f' i' j' := rfl
@[simp] theorem Chip.setUnit_byte (c : Chip) (u : Nat) (x : UnitS) (k' : Nat) : (c.setUnit u x).byte k' = c.byte k' := rfl

end Sys2Proof.Machine
end

