-- ==== Sys2Proof/Laws/Frames.lean ====
section
/-! SUPPORT. Frames of the named register operations, and how they compose. -/

namespace Sys2Proof.Machine

theorem Chip.fieldsBut_refl (c : Chip) (l : List Spot) : c.fieldsBut c l := fun _ _ _ _ _ _ _ => rfl

/-- Frames compose: the places of both. -/
theorem Chip.fieldsBut_trans {c d e : Chip} {l l' : List Spot} (h : c.fieldsBut d l) (h' : d.fieldsBut e l') :
    c.fieldsBut e (l ++ l') := by
  intro f i j hf hi hj hp
  rw [h' f i j hf hi hj (fun p hm => hp p (List.mem_append_right _ hm)),
    h f i j hf hi hj (fun p hm => hp p (List.mem_append_left _ hm))]

/-- A frame with fewer places is one with more. -/
theorem Chip.fieldsBut_mono {c d : Chip} {l l' : List Spot} (h : c.fieldsBut d l) (hl : ∀ p ∈ l, p ∈ l') : c.fieldsBut d l' :=
  fun f i j hf hi hj hp => h f i j hf hi hj (fun p hm => hp p (hl p hm))

/-- Equal registers give an empty frame. -/
theorem Chip.fieldsBut_of_regs {c d : Chip} (h : d.regs = c.regs) (l : List Spot) : c.fieldsBut d l := by
  intro f i j _ _ _ _; simp only [Chip.g, Chip.rd, h]

/-- A field set changes that field alone. -/
theorem Chip.fieldsBut_put (c : Chip) (f : Fld) (i v j : Nat) (hf : f.ok) (hi : i < 2048) (hj : j < 4096) :
    c.fieldsBut (c.put f i v j) [(f, i, j)] := by
  intro g i' j' hg hi' hj' hp
  have hm := hp (f, i, j) (by simp)
  by_cases hk : regKey g.reg i' j' = regKey f.reg i j
  · obtain ⟨hr, rfl, rfl⟩ := regKey_inj hi' hi hj' hj hk
    refine c.g_put_apart f g _ v _ hf hg hr ?_
    by_contra hc
    exact hm ⟨hr.symm, rfl, by dsimp only; omega, by dsimp only; omega⟩
  · exact c.g_put_other f g _ _ v _ _ hk

/-- A register written changes that register alone. -/
theorem Chip.fieldsBut_wr (c : Chip) (r : Reg) (i : Nat) (v : Word) (j : Nat) (hi : i < 2048) (hj : j < 4096) :
    c.fieldsBut (c.wr r i v j) [(⟨r, 63, 0⟩, i, j)] := by
  intro g i' j' hg hi' hj' hp
  have hm := hp (⟨r, 63, 0⟩, i, j) (by simp)
  have hk : regKey g.reg i' j' ≠ regKey r i j := by
    intro hk
    obtain ⟨hr, rfl, rfl⟩ := regKey_inj hi' hi hj' hj hk
    exact hm ⟨hr.symm, rfl, Nat.zero_le _, by have := hg.2; have := hg.1; simp; omega⟩
  simp [Chip.g, Chip.wr, Chip.rd_wrBits_other _ _ _ _ _ _ _ hk]

/-- A frame goes on over a field set that is one of its places. -/
theorem Chip.fieldsBut.put {c d : Chip} {l : List Spot} (h : c.fieldsBut d l) (f : Fld) (i v j : Nat) (hf : f.ok)
    (hi : i < 2048) (hj : j < 4096) (hm : (f, i, j) ∈ l) : c.fieldsBut (d.put f i v j) l :=
  Chip.fieldsBut_mono (Chip.fieldsBut_trans h (d.fieldsBut_put f i v j hf hi hj)) (fun p hp => by
    rcases List.mem_append.mp hp with h | h
    · exact h
    · rw [List.mem_singleton.mp h]; exact hm)

/-- A frame goes on over a register written that is one of its places. -/
theorem Chip.fieldsBut.wr {c d : Chip} {l : List Spot} (h : c.fieldsBut d l) (r : Reg) (i : Nat) (v : Word) (j : Nat)
    (hi : i < 2048) (hj : j < 4096) (hm : (⟨r, 63, 0⟩, i, j) ∈ l) : c.fieldsBut (d.wr r i v j) l :=
  Chip.fieldsBut_mono (Chip.fieldsBut_trans h (d.fieldsBut_wr r i v j hi hj)) (fun p hp => by
    rcases List.mem_append.mp hp with h | h
    · exact h
    · rw [List.mem_singleton.mp h]; exact hm)

/-- A frame goes on over whatever leaves the registers alone. -/
theorem Chip.fieldsBut.regs {c d e : Chip} {l : List Spot} (h : c.fieldsBut d l) (he : e.regs = d.regs) : c.fieldsBut e l :=
  Chip.fieldsBut_mono (Chip.fieldsBut_trans h (Chip.fieldsBut_of_regs he [])) (fun p hp => by simpa using hp)

@[simp] theorem Chip.noRegs_put (c : Chip) (f : Fld) (i v j : Nat) : (c.put f i v j).noRegs = c.noRegs := rfl
@[simp] theorem Chip.noRegs_wr (c : Chip) (r : Reg) (i : Nat) (v : Word) (j : Nat) : (c.wr r i v j).noRegs = c.noRegs := rfl
@[simp] theorem Chip.noRegs_set1 (c : Chip) (f : Fld) (i j : Nat) : (c.set1 f i j).noRegs = c.noRegs := rfl
@[simp] theorem Chip.noRegs_orF (c : Chip) (f : Fld) (i v j : Nat) : (c.orF f i v j).noRegs = c.noRegs := rfl
@[simp] theorem Chip.noRegs_inc (c : Chip) (f : Fld) (i n j : Nat) : (c.inc f i n j).noRegs = c.noRegs := rfl
@[simp] theorem Chip.noRegs_incSat (c : Chip) (f : Fld) (i n j : Nat) : (c.incSat f i n j).noRegs = c.noRegs := rfl
@[simp] theorem Chip.noRegs_regReset (c : Chip) (r : Reg) (i j : Nat) : (c.regReset r i j).noRegs = c.noRegs := rfl

/-- A field of another register, or of another instance, after a field was set. -/
theorem Chip.g_put_ne (c : Chip) (f g : Fld) (i i' v j j' : Nat) (h : g.reg ≠ f.reg ∨ i' ≠ i ∨ j' ≠ j)
    (hi : i < 2048) (hi' : i' < 2048) (hj : j < 4096) (hj' : j' < 4096) : (c.put f i v j).g g i' j' = c.g g i' j' := by
  refine c.g_put_other f g _ _ v _ _ (fun hk => ?_)
  obtain ⟨hr, h1, h2⟩ := regKey_inj hi' hi hj' hj hk
  rcases h with h | h | h <;> contradiction

/-- A counter advanced by n, modulo its width. -/
theorem Chip.g_inc_same (c : Chip) (f : Fld) (i n j : Nat) (h : f.ok) :
    (c.inc f i n j).g f i j = (c.g f i j + n) % 2 ^ (f.hi + 1 - f.lo) := c.g_put_same f i _ j h

/-- A status bit set reads 1. -/
theorem Chip.g_set1_same (c : Chip) (f : Fld) (i j : Nat) (h : f.ok) : (c.set1 f i j).g f i j = 1 := by
  have h1 : 1 < 2 ^ (f.hi + 1 - f.lo) := Nat.one_lt_two_pow (by have := h.1; omega)
  rw [Chip.set1, Chip.g_put_same _ _ _ _ _ h, Nat.mod_eq_of_lt h1]

end Sys2Proof.Machine
end

