-- ==== Sys2Proof/Laws/Memory.lean ====
section
/-! SUPPORT. The laws of memory: a read after a write to the same byte gives the byte written, a write leaves every other
byte alone, and every memory operation keeps the canonical form. -/

namespace Sys2Proof.Machine

/-! ### Bytes -/

theorem Chip.byte_putByte (c : Chip) (k : Nat) (b : Byte) (k' : Nat) :
    (c.putByte k b).byte k' = if k' = k then b else c.byte k' := by simp [Chip.byte, Chip.putByte, sget_sset]

/-- A byte after a run of bytes was written. -/
theorem Chip.byte_putBytes (bs : List Byte) : ∀ (c : Chip) (k k' : Nat),
    (c.putBytes k bs).byte k' = if k ≤ k' ∧ k' < k + bs.length then bs.getD (k' - k) 0 else c.byte k' := by
  induction bs with
  | nil => intro c k k'; simp [Chip.putBytes]
  | cons b bs ih =>
    intro c k k'
    rw [Chip.putBytes, ih, Chip.byte_putByte]
    by_cases h : k' = k
    · subst h; simp
    · by_cases h1 : k + 1 ≤ k' ∧ k' < k + 1 + bs.length
      · have e : k' - k = (k' - (k + 1)) + 1 := by omega
        simp only [h1, and_self, if_true, List.length_cons, e, List.getD_cons_succ]
        rw [if_pos (by omega)]
      · rw [if_neg h1, if_neg h, if_neg (by simp only [List.length_cons]; omega)]

theorem Chip.byte_putBytes_outside (bs : List Byte) (c : Chip) (k k' : Nat) (h : k' < k ∨ k + bs.length ≤ k') :
    (c.putBytes k bs).byte k' = c.byte k' := by
  rw [Chip.byte_putBytes, if_neg (by omega)]

theorem Chip.byte_zero (c : Chip) (k n k' : Nat) :
    (c.zero k n).byte k' = if k ≤ k' ∧ k' < k + n then memDefault else c.byte k' := by
  simp [Chip.byte, Chip.zero, sget_sclear]

theorem Chip.bad_setBad (c : Chip) (k : Nat) (b : Bool) (k' : Nat) :
    (c.setBad k b).bad k' = if granule k' = granule k then b else c.bad k' := by
  simp [Chip.bad, Chip.setBad, sget_sset]

/-! ### A write changes memory through its bytes only -/

@[simp] theorem Chip.poisonWrite_mem (c : Chip) (k n : Nat) (b : Bool) : (c.poisonWrite k n b).mem = c.mem := by
  unfold Chip.poisonWrite
  refine foldl_keeps Chip.mem _ (fun c i => ?_) _ _
  dsimp only
  by_cases h : k + n ≤ granule k + granuleSize k * i ∨ n = 0
  · rw [if_pos h]
  · rw [if_neg h]
    split
    · rfl
    · split <;> rfl

@[simp] theorem Chip.touch_mem (c : Chip) (k : Nat) : (c.touch k).mem = c.mem := by
  unfold Chip.touch
  by_cases h : k < 2 * 2 ^ 60
  · rw [if_pos h]
  · rw [if_neg h]
    by_cases h : k < 3 * 2 ^ 60
    · rw [if_pos h]; exact Chip.put_mem _ _ _ _ _
    · rw [if_neg h]

theorem Chip.write_mem (c : Chip) (k : Nat) (bs : List Byte) (b : Bool) : (c.write k bs b).mem = (c.putBytes k bs).mem := by
  simp [Chip.write]

/-- A byte after a write. -/
theorem Chip.byte_write (c : Chip) (k : Nat) (bs : List Byte) (b : Bool) (k' : Nat) :
    (c.write k bs b).byte k' = if k ≤ k' ∧ k' < k + bs.length then bs.getD (k' - k) 0 else c.byte k' := by
  rw [← Chip.byte_putBytes]; simp [Chip.byte, Chip.write_mem]

theorem Chip.write64_mem (c : Chip) (k : Nat) (bs : List Byte) (ps : List Bool) :
    (c.write64 k bs ps).mem = (c.putBytes k bs).mem := by
  unfold Chip.write64
  split
  · exact foldl_keeps Chip.mem (fun (c : Chip) i => c.setBad (k + 8 * i) (ps.getD i false)) (fun _ _ => rfl) _ _
  · simp

/-! ### The canonical form -/

theorem Chip.memWf_putByte {c : Chip} (k : Nat) (b : Byte) (h : c.memWf = true) : (c.putByte k b).memWf = true :=
  swf_sset k b h

theorem Chip.memWf_putBytes (bs : List Byte) : ∀ {c : Chip} (k : Nat), c.memWf = true → (c.putBytes k bs).memWf = true := by
  induction bs with
  | nil => intro c k h; exact h
  | cons b bs ih => intro c k h; exact ih _ (Chip.memWf_putByte k b h)

theorem Chip.memWf_of_mem {c d : Chip} (e : d.mem = c.mem) (h : c.memWf = true) : d.memWf = true := by
  unfold Chip.memWf at *; rw [e]; exact h

theorem Chip.memWf_write {c : Chip} (k : Nat) (bs : List Byte) (b : Bool) (h : c.memWf = true) :
    (c.write k bs b).memWf = true :=
  Chip.memWf_of_mem (c.write_mem k bs b) (Chip.memWf_putBytes bs k h)

theorem Chip.memWf_write64 {c : Chip} (k : Nat) (bs : List Byte) (ps : List Bool) (h : c.memWf = true) :
    (c.write64 k bs ps).memWf = true :=
  Chip.memWf_of_mem (c.write64_mem k bs ps) (Chip.memWf_putBytes bs k h)

theorem Chip.memWf_zero {c : Chip} (k n : Nat) (h : c.memWf = true) : (c.zero k n).memWf = true := swf_sclear k n h

/-- Memory with the bytes kept that a property holds of (a cold start keeps no DRAM, a warm reset no on-chip byte). -/
theorem Chip.memWf_filter {c : Chip} (p : Nat × Byte → Bool) (h : c.memWf = true) :
    ({ c with mem := c.mem.filter p } : Chip).memWf = true := swf_filter p h

theorem Chip.memWf_writeGranules (p : Nat) (b : Bool) (ks : List Nat) : ∀ {c : Chip} (bs : List Byte), c.memWf = true →
    (c.writeGranules p ks bs b).memWf = true := by
  induction ks with
  | nil => intro c bs h; exact h
  | cons k ks ih =>
    intro c bs h
    exact ih _ (Chip.memWf_of_mem (c := c.write k (bs.take 64) b) (by simp) (Chip.memWf_write _ _ _ h))

theorem Chip.memWf_tierWrite {c : Chip} (p a : Nat) (bs : List Byte) (b : Bool) (h : c.memWf = true) :
    (c.tierWrite p a bs b).memWf = true := by
  unfold Chip.tierWrite
  split
  · exact Chip.memWf_writeGranules p b _ _ h
  · exact h

/-- The memory of the reset state is in canonical form. -/
theorem State.reset_memWf : State.reset.chip.memWf = true := rfl

end Sys2Proof.Machine
end

