-- ==== Sys2Proof/Laws/Queues.lean ====
section
/-! SUPPORT. What the operations of the queue pool and of fault records can change: once for each shared operation. -/

namespace Sys2Proof.Machine

/-! ### Frames by register -/

theorem Chip.regsBut_refl (c : Chip) (l : List Reg) : c.regsBut c l := fun _ _ _ _ => rfl

theorem Chip.regsBut.trans {c d e : Chip} {l : List Reg} (h : c.regsBut d l) (h' : d.regsBut e l) : c.regsBut e l :=
  fun r i j hr => (h' r i j hr).trans (h r i j hr)

theorem Chip.regsBut.mono {c d : Chip} {l l' : List Reg} (h : c.regsBut d l) (hl : ∀ r ∈ l, r ∈ l') : c.regsBut d l' :=
  fun r i j hr => h r i j (fun hm => hr (hl r hm))

theorem Chip.regsBut_of_regs {c d : Chip} (h : d.regs = c.regs) (l : List Reg) : c.regsBut d l :=
  fun r i j _ => by simp only [Chip.rd, h]

theorem Chip.regsBut_put (c : Chip) (f : Fld) (i v j : Nat) : c.regsBut (c.put f i v j) [f.reg] :=
  fun r i' j' hr => c.rd_put_reg f i v j i' j' (by simpa using hr)

theorem Chip.regsBut_wr (c : Chip) (q : Reg) (i : Nat) (v : Word) (j : Nat) : c.regsBut (c.wr q i v j) [q] :=
  fun r i' j' hr => c.rd_wr_reg q i v j i' j' (by simpa using hr)

/-- A frame by register goes on over a field set of a listed register. -/
theorem Chip.regsBut.put {c d : Chip} {l : List Reg} (h : c.regsBut d l) (f : Fld) (i v j : Nat) (hm : f.reg ∈ l) :
    c.regsBut (d.put f i v j) l :=
  h.trans ((d.regsBut_put f i v j).mono (fun r hr => by rw [List.mem_singleton.mp hr]; exact hm))

theorem Chip.regsBut.regs {c d e : Chip} {l : List Reg} (h : c.regsBut d l) (he : e.regs = d.regs) : c.regsBut e l :=
  h.trans (Chip.regsBut_of_regs he l)

/-- What a frame by register says of a field. -/
theorem Chip.regsBut.g {c d : Chip} {l : List Reg} (h : c.regsBut d l) (f : Fld) (i j : Nat) (hf : f.reg ∉ l) :
    d.g f i j = c.g f i j := by simp only [Chip.g, h f.reg i j hf]

/-! ### The queue pool -/

theorem Chip.queueOnly_refl (c : Chip) : c.queueOnly c := ⟨rfl, c.regsBut_refl _⟩

theorem Chip.queueOnly.trans {c d e : Chip} (h : c.queueOnly d) (h' : d.queueOnly e) : c.queueOnly e :=
  ⟨h'.1.trans h.1, h.2.trans h'.2⟩

theorem Chip.queueOnly.put {c d : Chip} (h : c.queueOnly d) (f : Fld) (i v j : Nat) (hm : f.reg ∈ qpRegs) :
    c.queueOnly (d.put f i v j) := ⟨h.1, h.2.put f i v j hm⟩

theorem Chip.queueOnly.set1 {c d : Chip} (h : c.queueOnly d) (f : Fld) (i j : Nat) (hm : f.reg ∈ qpRegs) : c.queueOnly (d.set1 f i j) :=
  h.put f i 1 j hm

theorem Chip.queueOnly.inc {c d : Chip} (h : c.queueOnly d) (f : Fld) (i n j : Nat) (hm : f.reg ∈ qpRegs) : c.queueOnly (d.inc f i n j) :=
  h.put f i (d.g f i j + n) j hm

theorem Chip.queueOnly.setQueue {c d : Chip} (h : c.queueOnly d) (r q : Nat) (x : QueueS) : c.queueOnly (d.setQueue r q x) :=
  ⟨h.1, h.2.regs rfl⟩

theorem Chip.queueOnly_markMalformed (c : Chip) (r q : Nat) : c.queueOnly (c.markMalformed r q) :=
  ((c.queueOnly_refl).set1 _ _ _ (by simp [qpRegs])).set1 _ _ _ (by simp [qpRegs])

theorem Chip.queueOnly_markPoisonIn (c : Chip) (r q : Nat) (p : Bool) : c.queueOnly (c.markPoisonIn r q p) := by
  unfold Chip.markPoisonIn; split
  · exact ((c.queueOnly_refl).set1 _ _ _ (by simp [qpRegs])).set1 _ _ _ (by simp [qpRegs])
  · exact c.queueOnly_refl

theorem Chip.queueOnly_link (c : Chip) (r q : Nat) (k : Packet) : c.queueOnly (c.link r q k) := by
  unfold Chip.link
  exact (c.queueOnly_refl.inc .QP_QCNT_LINKED r 1 q (by simp [qpRegs])).setQueue r q _

@[simp] theorem Chip.queue_setQueue_same (c : Chip) (r q : Nat) (x : QueueS) : (c.setQueue r q x).queue r q = x := by
  unfold Chip.queue Chip.setQueue; exact sget_sset_same _ _ _ _

@[simp] theorem Chip.queue_markPoisonIn (c : Chip) (r q : Nat) (p : Bool) (r' q' : Nat) :
    (c.markPoisonIn r q p).queue r' q' = c.queue r' q' := by
  unfold Chip.markPoisonIn; split
  · unfold Chip.queue; rw [Chip.set1_queues, Chip.set1_queues]
  · rfl

/-- A packet linked stands at the tail. -/
theorem Chip.linked_link (c : Chip) (r q : Nat) (k : Packet) :
    ((c.link r q k).queue r q).linked = (c.queue r q).linked ++ [k] := by
  unfold Chip.link; rw [Chip.queue_setQueue_same]

/-- What a packet posted in one piece does: it is linked, in an enabled queue that is not broken. -/
theorem Chip.post_eq {c c' : Chip} {r q : Nat} {ws : List (Word × Bool)} (h : c.post r q ws = .linked c') :
    c' = (c.markPoisonIn r q (ws.any Prod.snd)).link r q ⟨ws, false, false⟩ ∧
      c.on .QP_QCFG_EN r q = true ∧ (c.queue r q).broken = false := by
  unfold Chip.post at h
  dsimp only at h
  split at h
  · cases h
  · next hb =>
    split at h
    · cases h
    · injection h with h
      refine ⟨h.symm, ?_⟩
      revert hb; cases c.on .QP_QCFG_EN r q <;> cases (c.queue r q).broken <;> simp

/-- A packet posted links it to the queue's tail. -/
theorem Chip.post_linked {c c' : Chip} {r q : Nat} {ws : List (Word × Bool)} (h : c.post r q ws = .linked c') :
    c.queueOnly c' ∧ (c'.queue r q).linked = (c.queue r q).linked ++ [⟨ws, false, false⟩] := by
  obtain ⟨rfl, -, -⟩ := Chip.post_eq h
  refine ⟨(c.queueOnly_markPoisonIn r q _).trans (Chip.queueOnly_link _ _ _ _), ?_⟩
  rw [Chip.linked_link, Chip.queue_markPoisonIn]

theorem Chip.post_closed {c c' : Chip} {r q : Nat} {ws : List (Word × Bool)} (h : c.post r q ws = .closed c') :
    c.queueOnly c' := by
  unfold Chip.post at h
  dsimp only at h
  split at h
  · cases h; exact c.queueOnly_markMalformed r q
  · split at h <;> cases h

/-- A head packet taken. -/
theorem Chip.qTake_some {c c' : Chip} {r q : Nat} {k : Packet} (h : c.qTake r q = some (k, c')) : c.queueOnly c' := by
  unfold Chip.qTake at h
  dsimp only at h
  split at h
  · rw [← (Prod.mk.inj (Option.some.inj h)).2]; exact c.queueOnly_markPoisonIn r q true
  · split at h
    · cases h
    · cases h; exact (c.queueOnly_markPoisonIn r q _).setQueue _ _ _

/-! ### Fault records -/

theorem Chip.faultOnly_refl (c : Chip) : c.faultOnly c := ⟨rfl, c.regsBut_refl _⟩

theorem Chip.faultOnly.trans {c d e : Chip} (h : c.faultOnly d) (h' : d.faultOnly e) : c.faultOnly e :=
  ⟨h'.1.trans h.1, h.2.trans h'.2⟩

theorem Chip.faultOnly.put {c d : Chip} (h : c.faultOnly d) (f : Fld) (i v j : Nat) (hm : f.reg ∈ faultRegs) :
    c.faultOnly (d.put f i v j) := ⟨h.1, h.2.put f i v j hm⟩

theorem Chip.faultOnly.set1 {c d : Chip} (h : c.faultOnly d) (f : Fld) (i j : Nat) (hm : f.reg ∈ faultRegs) : c.faultOnly (d.set1 f i j) :=
  h.put f i 1 j hm

theorem Chip.faultOnly.inc {c d : Chip} (h : c.faultOnly d) (f : Fld) (i n j : Nat) (hm : f.reg ∈ faultRegs) : c.faultOnly (d.inc f i n j) :=
  h.put f i (d.g f i j + n) j hm

theorem Chip.queueOnly.fault {c d : Chip} (h : c.queueOnly d) : c.faultOnly d :=
  ⟨congrArg (fun x : Chip => { x with flog := [] }) h.1,
    h.2.mono (fun r hr => by simp only [qpRegs, List.mem_cons] at hr; simp only [faultRegs, List.mem_cons]; tauto)⟩

theorem Chip.faultOnly_recLost (c : Chip) (p : Option Nat) : c.faultOnly (c.recLost p) := by
  unfold Chip.recLost
  cases p with
  | none => exact c.faultOnly_refl.inc _ _ _ _ (by simp [faultRegs])
  | some p => exact (c.faultOnly_refl.inc .INT_CNT_COUNT 0 1 4 (by simp [faultRegs])).set1 _ _ _ (by simp [faultRegs])

theorem Chip.faultOnly_postRecord (c : Chip) (pl : Place) (ws : List Word) : c.faultOnly (c.postRecord pl ws) := by
  unfold Chip.postRecord
  split
  · exact c.faultOnly_recLost _
  · dsimp only
    split
    · split
      · next h => exact (Chip.post_linked h).1.fault
      · exact c.faultOnly_recLost _
    · exact c.faultOnly_recLost _

theorem Chip.faultOnly_logRecord (c : Chip) (ws : List Word) : c.faultOnly (c.logRecord ws) := by
  have h0 : c.faultOnly { c with flog := sset [] c.flog (c.g .INT_FLOG_HEAD 0) (ws.take 8) } :=
    ⟨rfl, Chip.regsBut_of_regs rfl _⟩
  unfold Chip.logRecord
  dsimp only
  split
  · exact (h0.set1 _ _ _ (by simp [faultRegs])).put _ _ _ _ (by simp [faultRegs])
  · exact h0.put _ _ _ _ (by simp [faultRegs])

theorem Chip.faultOnly_markIntStat (c : Chip) (cls p : Nat) : c.faultOnly (c.markIntStat cls p) := by
  have h0 : c.faultOnly (c.set1 .INT_STAT_FAULT p) := c.faultOnly_refl.set1 _ _ _ (by simp [faultRegs])
  have step : ∀ (d : Chip) (b : Prop) [Decidable b] (f : Fld), f.reg ∈ faultRegs → c.faultOnly d →
      c.faultOnly (if b then d.set1 f p else d) := by
    intro d b _ f hf h; split
    · exact h.set1 _ _ _ hf
    · exact h
  unfold Chip.markIntStat
  exact step _ _ _ (by simp [faultRegs]) (step _ _ _ (by simp [faultRegs]) (step _ _ _ (by simp [faultRegs]) h0))

theorem foldl_faultOnly {β : Type} (f : Chip → β → Chip) (h : ∀ (c : Chip) (i : β), c.faultOnly (f c i)) (l : List β) :
    ∀ c : Chip, c.faultOnly (l.foldl f c) := by
  induction l with
  | nil => intro c; exact c.faultOnly_refl
  | cons i l ih => intro c; exact (h c i).trans (ih _)

theorem Chip.faultOnly_foreignRecord (c : Chip) (p : Nat) : c.faultOnly (c.foreignRecord p) := by
  unfold Chip.foreignRecord
  split
  · split
    · exact c.faultOnly_refl
    · refine Chip.faultOnly.trans ?_ (Chip.faultOnly_recLost _ _)
      refine Chip.faultOnly.trans ?_ (Chip.faultOnly_markIntStat _ _ _)
      refine Chip.faultOnly.trans ?_ (Chip.faultOnly_logRecord _ _)
      exact (c.faultOnly_refl.inc _ _ _ _ (by simp [faultRegs])).inc _ _ _ _ (by simp [faultRegs])
  · exact c.faultOnly_refl

/-- A record posted for one partition does what a fault record does. -/
theorem Chip.faultOnly_postPart (c : Chip) (cls p : Nat) (ws : List Word) : c.faultOnly (c.postPart cls p ws) :=
  ((c.faultOnly_postRecord _ _).trans (Chip.faultOnly_markIntStat _ _ _)).trans (Chip.faultOnly_foreignRecord _ _)

/-- A fault record changes registers of the fault log and the queue pool, queues and the log, nothing else. -/
theorem Chip.faultOnly_postFault (c : Chip) (f : FaultSpec) : c.faultOnly (c.postFault f) := by
  have h0 : c.faultOnly (c.inc .INT_CNT_COUNT 0 1 0) := c.faultOnly_refl.inc _ _ _ _ (by simp [faultRegs])
  unfold Chip.postFault
  dsimp only
  refine h0.trans ?_
  generalize (c.inc .INT_CNT_COUNT 0 1 0) = d
  refine (d.faultOnly_logRecord (d.faultWords f)).trans ?_
  split
  · exact Chip.faultOnly_postPart _ _ _ _
  · exact foldl_faultOnly _ (fun c p => c.faultOnly_postPart _ _ _) _ _
  · generalize (d.logRecord (d.faultWords f)) = e
    have h1 := e.faultOnly_postRecord f.place (d.faultWords f)
    cases (e.postRecord f.place (d.faultWords f)).placePart f.place with
    | none => exact h1
    | some p => exact h1.trans (Chip.faultOnly_markIntStat _ _ _)

/-- Poison consumed changes the partition's step record besides. -/
theorem Chip.consumePoison_only (c : Chip) (p blk tag : Nat) (pl : Place) (loc lk : Nat) :
    (c.setStep p { c.stepS p with poison := true, killed := true }).faultOnly (c.consumePoison p blk tag pl loc lk) :=
  Chip.faultOnly_postFault _ _

/-- A vote to abandon is owed after a control-path fault by every partition it concerns. -/
theorem Chip.ctrlFault_one (c : Chip) (p : Nat) (f : FaultSpec) : c.ctrlFault [p] f = (c.postFault f).mustVote p := rfl

@[simp] theorem Chip.stepS_setStep_same (c : Chip) (p : Nat) (x : StepS) : (c.setStep p x).stepS p = x := by
  simp [Chip.stepS, Chip.setStep]

theorem Chip.stepS_setStep_other (c : Chip) {p p' : Nat} (x : StepS) (h : p' ≠ p) : (c.setStep p x).stepS p' = c.stepS p' := by
  simp [Chip.stepS, Chip.setStep, sget_sset_other _ _ _ _ h]

end Sys2Proof.Machine
end

