-- ==== Sys2Proof/Laws/Sequencer.lean ====
section
/-! SUPPORT. What issuing, ending and recording a command of a sequencer can change, and when a sequencer takes a
command. -/

namespace Sys2Proof.Machine

/-! ### Replacing a sequencer -/

@[simp] theorem Chip.seq_setSeq_same (c : Chip) (cl : Nat) (x : SeqS) : (c.setSeq cl x).seq cl = x := by
  unfold Chip.seq Chip.setSeq; exact sget_sset_same _ _ _ _

theorem Chip.seq_setSeq_other (c : Chip) {cl cl' : Nat} (x : SeqS) (h : cl' ≠ cl) : (c.setSeq cl x).seq cl' = c.seq cl' := by
  unfold Chip.seq Chip.setSeq; exact sget_sset_other _ _ _ _ h

/-! ### What the outstanding commands of one sequencer bring about -/

theorem Chip.stepKept_refl (c : Chip) : c.stepKept c := fun _ _ _ _ => rfl

theorem Chip.stepKept.trans {c d e : Chip} (h : c.stepKept d) (h' : d.stepKept e) : c.stepKept e :=
  fun f hf i j => (h' f hf i j).trans (h f hf i j)

theorem stepFlds_spec : ∀ f ∈ stepFlds, f.ok ∧ f.reg = .HUB_STEP ∧ (f.hi < 49 ∨ 51 < f.lo) := by
  simp [stepFlds, Fld.ok]

/-- Registers besides `HUB_STEP` that change leave its fields. -/
theorem Chip.regsBut.stepKept {c d : Chip} {l : List Reg} (h : c.regsBut d l) (hl : Reg.HUB_STEP ∉ l) : c.stepKept d := by
  intro f hf i j
  unfold Chip.g; rw [h f.reg i j (by rw [(stepFlds_spec f hf).2.1]; exact hl)]

/-- PHASE written leaves the other fields of `HUB_STEP`. -/
theorem Chip.stepKept_phase (c : Chip) (p v : Nat) : c.stepKept (c.put .HUB_STEP_PHASE p v) := by
  intro f hf i j
  obtain ⟨hok, hr, ha⟩ := stepFlds_spec f hf
  by_cases hk : regKey f.reg i j = regKey Reg.HUB_STEP p 0
  · have h0 : (c.put .HUB_STEP_PHASE p v).rd f.reg i j = (c.put .HUB_STEP_PHASE p v).rd .HUB_STEP p := by
      unfold Chip.rd; rw [hk]
    have h1 : c.rd f.reg i j = c.rd .HUB_STEP p := by unfold Chip.rd; rw [hk]
    have h2 := Chip.g_put_apart c .HUB_STEP_PHASE f p v 0 (by constructor <;> decide) hok hr ha
    unfold Chip.g at h2 ⊢
    rw [h0, h1]; rw [hr] at h2; exact h2
  · exact Chip.g_put_other c _ f p i v 0 j hk

theorem Chip.cmdOnly_refl (cl : Nat) (c : Chip) : Chip.cmdOnly cl c c :=
  ⟨rfl, c.regsBut_refl _, fun _ _ => rfl, rfl, c.stepKept_refl⟩

theorem Chip.cmdOnly.trans {cl : Nat} {c d e : Chip} (h : Chip.cmdOnly cl c d) (h' : Chip.cmdOnly cl d e) : Chip.cmdOnly cl c e :=
  ⟨h'.rest.trans h.rest, h.regs.trans h'.regs, fun k hk => (h'.others k hk).trans (h.others k hk), h'.own.trans h.own,
   h.step.trans h'.step⟩

theorem Chip.queueOnly.seqs {c d : Chip} (h : c.queueOnly d) : d.seqs = c.seqs := by
  have := congrArg Chip.seqs h.1; exact this

theorem Chip.queueOnly.seq {c d : Chip} (h : c.queueOnly d) (cl : Nat) : d.seq cl = c.seq cl := by
  unfold Chip.seq; rw [h.seqs]

theorem Chip.queueOnly.cmd {c d : Chip} (h : c.queueOnly d) (cl : Nat) : Chip.cmdOnly cl c d :=
  ⟨congrArg (fun x : Chip => { x with seqs := [] }) h.1,
   h.2.mono (fun r hr => by simp only [qpRegs, List.mem_cons] at hr; simp only [seqRegs, List.mem_cons]; tauto),
   fun k _ => h.seq k, by rw [h.seq cl], h.2.stepKept (by simp [qpRegs])⟩

/-- The registers besides `HUB_STEP` that ending a command writes. -/
def cmdRegs : List Reg := [.QP_QSTAT, .QP_STICKY, .QP_QCNT, .CLU_SEQ_CNT, .CLU_SEQ_STICKY]

theorem cmdRegs_seq {r : Reg} (h : r ∈ cmdRegs) : r ∈ seqRegs ∧ r ≠ .HUB_STEP := by
  simp only [cmdRegs, seqRegs, List.mem_cons, List.not_mem_nil, or_false] at h ⊢
  rcases h with h | h | h | h | h <;> subst h <;> simp

/-- A field of a register of the frame written, the fields of `HUB_STEP` but PHASE kept. -/
theorem Chip.cmdOnly.field {cl : Nat} {c d : Chip} (h : Chip.cmdOnly cl c d) (f : Fld) (i v j : Nat) (hm : f.reg ∈ seqRegs)
    (hs : d.stepKept (d.put f i v j)) : Chip.cmdOnly cl c (d.put f i v j) :=
  ⟨h.rest, h.regs.put f i v j hm, h.others, h.own, h.step.trans hs⟩

theorem Chip.cmdOnly.put {cl : Nat} {c d : Chip} (h : Chip.cmdOnly cl c d) (f : Fld) (i v j : Nat) (hm : f.reg ∈ cmdRegs) :
    Chip.cmdOnly cl c (d.put f i v j) :=
  h.field f i v j (cmdRegs_seq hm).1 (Chip.regsBut.stepKept (l := [f.reg]) ((d.regsBut_refl _).put f i v j (by simp))
    (by simpa using (cmdRegs_seq hm).2.symm))

theorem Chip.cmdOnly.set1 {cl : Nat} {c d : Chip} (h : Chip.cmdOnly cl c d) (f : Fld) (i j : Nat) (hm : f.reg ∈ cmdRegs) :
    Chip.cmdOnly cl c (d.set1 f i j) := h.put f i 1 j hm

theorem Chip.cmdOnly.inc {cl : Nat} {c d : Chip} (h : Chip.cmdOnly cl c d) (f : Fld) (i n j : Nat) (hm : f.reg ∈ cmdRegs) :
    Chip.cmdOnly cl c (d.inc f i n j) := h.put f i (d.g f i j + n) j hm

theorem Chip.cmdOnly.orF {cl : Nat} {c d : Chip} (h : Chip.cmdOnly cl c d) (f : Fld) (i v j : Nat) (hm : f.reg ∈ cmdRegs) :
    Chip.cmdOnly cl c (d.orF f i v j) := h.put f i (d.g f i j ||| v) j hm

/-- The outstanding commands of the sequencer replaced. -/
theorem Chip.cmdOnly.outst {cl : Nat} {c d : Chip} (h : Chip.cmdOnly cl c d) (os : List OutCmd) :
    Chip.cmdOnly cl c (d.setSeq cl { d.seq cl with outst := os }) :=
  ⟨h.rest, fun r i j hr => h.regs r i j hr, fun k hk => (Chip.seq_setSeq_other d _ hk).trans (h.others k hk),
   (congrArg SeqS.sansOut (Chip.seq_setSeq_same d cl _)).trans h.own, h.step⟩

/-- PHASE shown for a partition. -/
theorem Chip.cmdOnly.phase {cl : Nat} {c d : Chip} (h : Chip.cmdOnly cl c d) (p : Nat) : Chip.cmdOnly cl c (d.showPhase p) := by
  unfold Chip.showPhase
  exact h.field .HUB_STEP_PHASE p _ 0 (by simp [seqRegs]) (d.stepKept_phase p _)

theorem Chip.cmdOnly_linkRecords (cl : Nat) (os : List OutCmd) : ∀ (c : Chip) (blocked : List Nat),
    Chip.cmdOnly cl c (c.linkRecords cl blocked os).1 := by
  induction os with
  | nil => intro c _; exact Chip.cmdOnly_refl cl c
  | cons o os ih =>
    intro c blocked
    unfold Chip.linkRecords
    dsimp only
    split
    · exact ih c _
    · split
      · exact ih c _
      · split
        · exact ih c _
        · split
          · next h => exact ((Chip.post_linked h).1.cmd cl).trans (ih _ _)
          · next h => exact (((Chip.post_closed h).cmd cl).set1 _ _ _ (by simp [cmdRegs])).trans (ih _ _)
          · exact ih c _

theorem Chip.cmdOnly_flushRecords (cl : Nat) (c : Chip) : Chip.cmdOnly cl c (c.flushRecords cl) :=
  (c.cmdOnly_linkRecords cl (c.seq cl).outst []).outst _

theorem Chip.cmdOnly_seqSticky (cl : Nat) (c : Chip) (m : Part) (b : Bool) : Chip.cmdOnly cl c (c.seqSticky cl m b) := by
  unfold Chip.seqSticky
  dsimp only
  have h0 : Chip.cmdOnly cl c (if b then c.orF .CLU_SEQ_STICKY_FLAGS cl (m.flags % 64) else c) := by
    split
    · exact (Chip.cmdOnly_refl cl c).orF _ _ _ _ (by simp [cmdRegs])
    · exact Chip.cmdOnly_refl cl c
  generalize (if b then c.orF .CLU_SEQ_STICKY_FLAGS cl (m.flags % 64) else c) = d at h0 ⊢
  repeat' first
    | exact h0
    | exact h0.set1 _ _ _ (by simp [cmdRegs])
    | split

/-- A command's end changes its sequencer's outstanding commands, their records in the queue pool, and the counters and
marks of the sequencer, nothing else. -/
theorem Chip.cmdOnly_endCmd (cl id : Nat) (c : Chip) (m : Part) : Chip.cmdOnly cl c (c.endCmd cl id m) := by
  unfold Chip.endCmd
  split
  · exact Chip.cmdOnly_refl cl c
  · dsimp only
    exact (((((Chip.cmdOnly_refl cl c).inc .CLU_SEQ_CNT_COUNT cl 1 0 (by simp [cmdRegs])).trans
      (Chip.cmdOnly_seqSticky cl _ _ _)).outst _).phase _).trans (Chip.cmdOnly_flushRecords cl _)

/-! ### Issue -/

theorem Chip.issue_fst (c : Chip) (cl : Nat) (h : Word) (left : Nat) : (c.issue cl h left).1 = (c.seq cl).nextId := by
  unfold Chip.issue Chip.enlist; rw [Chip.seq_setSeq_same]

/-- A command issued stands last among the outstanding ones, with its step and layout epoch. -/
theorem Chip.issue_seq (c : Chip) (cl : Nat) (h : Word) (left : Nat) :
    (c.issue cl h left).2.seq cl = { c.seq cl with
      outst := (c.seq cl).outst ++ [{ id := (c.seq cl).nextId, hdr := h, step := c.step (c.partOfCl cl)
                                      lepoch := c.lepoch (c.partOfCl cl), phase := (c.seq cl).phase, left := left }]
      nextId := (c.seq cl).nextId + 1, lastTag := hdrTag h } := by
  unfold Chip.issue Chip.enlist; dsimp only; rw [Chip.seq_setSeq_same, Chip.seq_setSeq_same]; rfl

theorem Chip.issue_seq_other (c : Chip) (cl : Nat) (h : Word) (left : Nat) {cl' : Nat} (hne : cl' ≠ cl) :
    (c.issue cl h left).2.seq cl' = c.seq cl' := by
  unfold Chip.issue Chip.enlist; dsimp only
  rw [Chip.seq_setSeq_other _ _ hne, Chip.seq_setSeq_other _ _ hne]

/-- A command that ends at issue leaves the next identity and the last TAG. -/
theorem Chip.issueEnd_seq (c : Chip) (cl : Nat) (h : Word) (m : Part) :
    ((c.issueEnd cl h m).seq cl).sansOut = { (c.seq cl).sansOut with nextId := (c.seq cl).nextId + 1, lastTag := hdrTag h } := by
  unfold Chip.issueEnd
  dsimp only
  rw [(Chip.cmdOnly_endCmd cl _ _ m).own, Chip.issue_seq]
  rfl

/-- Nothing but the sequencer and what ending a command changes. -/
theorem Chip.issueEnd_rest (c : Chip) (cl : Nat) (h : Word) (m : Part) : (c.issueEnd cl h m).noSeqs = c.noSeqs := by
  unfold Chip.issueEnd
  dsimp only
  rw [(Chip.cmdOnly_endCmd cl _ _ m).rest]
  rfl

theorem Chip.issueEnd_regs (c : Chip) (cl : Nat) (h : Word) (m : Part) : c.regsBut (c.issueEnd cl h m) seqRegs := by
  unfold Chip.issueEnd
  dsimp only
  exact (Chip.regsBut_of_regs rfl _).trans (Chip.cmdOnly_endCmd cl _ _ m).regs

theorem Chip.issueEnd_others (c : Chip) (cl : Nat) (h : Word) (m : Part) {cl' : Nat} (hne : cl' ≠ cl) :
    (c.issueEnd cl h m).seq cl' = c.seq cl' := by
  unfold Chip.issueEnd
  dsimp only
  rw [(Chip.cmdOnly_endCmd cl _ _ m).others cl' hne, Chip.issue_seq_other c cl h 0 hne]

/-! ### Taking a command -/

/-- A sequencer that has a command it wants takes it: the stream moves past the command, and the command acts. -/
theorem Chip.take_offers {c : Chip} {cl : Nat} {w : List Word} (h : c.offers cl w) (want : List Word → Bool) (all : Bool)
    (go : Chip → List Word → Chip) (hw : want w = true) (ha : all = true → (c.seq cl).allEnded = true) :
    c.take cl want all go = go (c.advanceCmd cl w) w := by
  have h1 : (w.map (fun x => (x, false))).map Prod.fst = w := by simp [Function.comp_def]
  have h2 : ((w.map (fun x => (x, false))).map Prod.snd).headD false = false := by cases w <;> simp
  have h3 : (w.map (fun x => (x, false))).any Prod.snd = false := by
    rw [List.any_eq_false]; intro x hx; obtain ⟨y, _, rfl⟩ := List.mem_map.mp hx; simp
  have h4 : c.dropFuse cl w = c := by unfold Chip.dropFuse; simp [h.noFuse]
  have h5 : (c.seq cl).fusedMN = none := by simp [SeqS.fusedMN, h.noFuse]
  have h6 : ¬ (all = true ∧ ¬ (c.seq cl).allEnded = true) := fun ⟨x, y⟩ => y (ha x)
  unfold Chip.take
  simp only [h.runs, h.noSkip, h.head, h1, h2, h3, h4, h5, h.ok, hw, h.may, not_true, if_false, Bool.false_eq_true, or_self,
    ne_eq, h6]

theorem Chip.moved_advance (cl : Nat) (c : Chip) (n : Nat) : Chip.moved cl c (c.advance cl n) := by
  unfold Chip.advance
  dsimp only
  split
  · exact ⟨rfl, Chip.regsBut_of_regs rfl _, fun k hk => Chip.seq_setSeq_other c _ hk,
      by rw [Chip.seq_setSeq_same]; rfl⟩
  · split
    · next h =>
      have hq := Chip.qTake_some h
      exact ⟨(hq.cmd cl).rest, hq.2, fun k _ => hq.seq k, by rw [hq.seq cl]⟩
    · exact ⟨rfl, c.regsBut_refl _, fun _ _ => rfl, rfl⟩

theorem Chip.moved_advanceCmd (cl : Nat) (c : Chip) (w : List Word) : Chip.moved cl c (c.advanceCmd cl w) := by
  have h := c.moved_advance cl w.length
  unfold Chip.advanceCmd
  dsimp only
  split
  · exact ⟨h.rest, fun r i j hr => h.regs r i j hr, fun k hk => (Chip.seq_setSeq_other _ _ hk).trans (h.others k hk),
      by rw [Chip.seq_setSeq_same]; exact h.own⟩
  · exact h

end Sys2Proof.Machine
end

