-- ==== Sys2Proof/WellFormed.lean ====
section
/-! DEFINITION. Well-formed commands: every operand names something the module has, and what arrives from outside has
the shape of its message. The meanings take any operands; one that names nothing changes nothing. -/

namespace Sys2Proof

/-- An index below a bound. -/
def below (n i : Nat) : Bool := decide (i < n)
/-- A number of a virtual function: 1 to 16 (R566). -/
def vfOk (v : Nat) : Bool := decide (1 ≤ v) && decide (v ≤ 16)
/-- A descriptor of an inbound ring: four words (R572). -/
def descOk (d : List Word) : Bool := d.length == 4

/-- The functions of the module: two ports with sixteen virtual functions each (R566). -/
def Fn.wf : Fn → Bool
  | .pf port => below 2 port
  | .vf port v => below 2 port && vfOk v
  | .rm => true
  | .bmc => true

/-- A seal message from a module ID, with a 48-bit step (R423). -/
def SealMsg.wf (m : SealMsg) : Bool := below 8192 m.src && below (2 ^ 48) m.step
/-- A packet: eight header words, eight words for each data flit (R410). -/
def Pkt.wf (k : Pkt) : Bool := k.hdr.length == 8 && k.words.length == 8 * k.poison.length && below 65 k.poison.length
/-- CONTROL and STATUS of 16 bits (R401). -/
def TrainFrame.wf (f : TrainFrame) : Bool := below (2 ^ 16) f.ctl && below (2 ^ 16) f.sts
/-- The fields of an alignment block (R408). -/
def AlignBlock.wf (b : AlignBlock) : Bool := below (2 ^ 32) b.lsn
/-- A HELLO flit from a module ID and a direction (R403). -/
def Hello.wf (h : Hello) : Bool := below 8192 h.id && below 6 h.dir
/-- A FLOW flit returns credits of eight lanes (R412). -/
def FlowFlit.wf (f : FlowFlit) : Bool := f.credits.length == 8
/-- A codeword's message has 5,140 bits (R405). -/
def Codeword.wf (w : Codeword) : Bool := below (2 ^ 5140) w.msg
/-- A store of the module (R188). -/
def Store.wf : Store → Bool
  | .scratch u => below 1024 u
  | .region r => below 16 r
  | .press c => below 128 c
  | .pool r q _ => below 16 r && below 1024 q
  | .link r q => below 16 r && below 1024 q
  | .near s => below 8 s
  | .cellar p => below 24 p
/-- An upset inverts a bit of an element of an output tile, or of a checksum value of 64 bits. -/
def upsetWf : Option Upset → Bool
  | none => true
  | some x => below 64 x.row && below 64 x.col && below 64 x.bit

/-- A well-formed command. -/
def Instr.wf : Instr → Bool
  | .registerWrite fn off _ _ => fn.wf && below (2 ^ 26) off
  | .unmappedRead fn off _ => fn.wf && below (2 ^ 26) off
  | .clockWindowEnd isl _ _ => below 144 isl
  | .islandClockChange isl => below 144 isl
  | .islandGate isl => below 144 isl
  | .islandWake isl => below 144 isl
  | .gateEvaluate p => below 16 p
  | .sendSealReady p => below 16 p
  | .installCut p => below 16 p
  | .recvSealReady p m => below 16 p && m.wf
  | .recvGateFail p m => below 16 p && m.wf
  | .readyTmoExpiry p => below 16 p
  | .recvSeal p m => below 16 p && m.wf
  | .recvAbandon p m => below 16 p && m.wf
  | .voidPassEnd p => below 16 p
  | .decideTmoExpiry p => below 16 p
  | .recvBoundReady p m => below 16 p && m.wf
  | .recvBoundRelease p m => below 16 p && m.wf
  | .recvEpochMismatch p m => below 16 p && m.wf
  | .ackTmoExpiry p => below 16 p
  | .boundTmoExpiry p => below 16 p
  | .deferredRelease p => below 16 p
  | .seqReadNull c => below 128 c
  | .seqPoisonHeader c => below 128 c
  | .cmdNop c => below 128 c
  | .cmdWaitq c => below 128 c
  | .waitqEnd c => below 128 c
  | .cmdSignal c => below 128 c
  | .cmdCall c => below 128 c
  | .routineReturn c => below 128 c
  | .cmdInstall c => below 128 c
  | .cmdInstallRemove c => below 128 c
  | .cmdSched c => below 128 c
  | .cmdPhase c => below 128 c
  | .cmdPhaseGate c => below 128 c
  | .cmdPhaseFull c => below 128 c
  | .cmdEpoch c => below 128 c
  | .cmdSeal c => below 128 c
  | .cmdMatmul c => below 128 c
  | .cmdChain c => below 128 c
  | .cmdXfer c => below 128 c
  | .xferAccept r _ => below 16 r
  | .xferComplete r _ _ => below 16 r
  | .commandEnd c _ => below 128 c
  | .seqStopRequest fn c => fn.wf && below 128 c
  | .seqHalt c => below 128 c
  | .seqResume fn c _ => fn.wf && below 128 c
  | .tileStart u => below 1024 u
  | .tileComplete u upset => below 1024 u && upsetWf upset
  | .arbitrationOutcome r _ => below 16 r
  | .rewriteRunComplete u upset => below 1024 u && upsetWf upset
  | .solverPassEnd u => below 1024 u
  | .solverTileComplete u hit _ => below 1024 u && below 3 hit.1 && upsetWf hit.2
  | .healthSet u bits => below 1024 u && below 4 bits
  | .partialArrival _ => true
  | .chainComplete u => below 1024 u
  | .censusHeldPost u => below 1024 u
  | .patrolScrubPass store _ _ => store.wf
  | .queueWordWrite r q _ _ mark _ => below 16 r && below 1024 q && below 4 mark
  | .cellGranted r q => below 16 r && below 1024 q
  | .queueWordRead r q => below 16 r && below 1024 q
  | .staleTimerFire r q => below 16 r && below 1024 q
  | .qpFlush fn r q => fn.wf && below 16 r && below 1024 q
  | .flushTakeEffect r q => below 16 r && below 1024 q
  | .qpReset fn r q => fn.wf && below 16 r && below 1024 q
  | .queueEnWrite fn r q _ => fn.wf && below 16 r && below 1024 q
  | .rackPush c => below 128 c
  | .rackPushEnd r lane => below 16 r && below 8 lane
  | .rackPop c => below 128 c
  | .rackPeek c => below 128 c
  | .rackPopEnd r lane => below 16 r && below 8 lane
  | .rackDrop c => below 128 c
  | .rackHint c => below 128 c
  | .spillStart r lane => below 16 r && below 8 lane
  | .spillComplete r lane => below 16 r && below 8 lane
  | .spillRefused r lane => below 16 r && below 8 lane
  | .frameFetchStart r lane => below 16 r && below 8 lane
  | .frameFetchComplete r lane _ => below 16 r && below 8 lane
  | .rackEnable fn r _ => fn.wf && below 16 r
  | .pressArm c => below 128 c
  | .pressAbsorb c => below 128 c
  | .pressDepositResume u => below 1024 u
  | .pressExport c => below 128 c
  | .pressMerge c => below 128 c
  | .cmdSolve c => below 128 c
  | .solveCmdAccept r => below 16 r
  | .solveQueueAccept r => below 16 r
  | .solveActivate r => below 16 r
  | .solveSetupEnd r _ => below 16 r
  | .solveIterationEnd r _ => below 16 r
  | .solveDeadline r _ => below 16 r
  | .solveComplete r _ => below 16 r
  | .solveDrop fn r => fn.wf && below 16 r
  | .updateApply c => below 128 c
  | .applyEnd p _ => below 16 p
  | .updateFetch c => below 128 c
  | .updatePlace c => below 128 c
  | .updateAdopt c => below 128 c
  | .applyInterrupt p _ _ => below 16 p
  | .updateReplay fn p => fn.wf && below 16 p
  | .replayEnd p => below 16 p
  | .auditCheck p _ _ => below 16 p
  | .caskWithdraw stack cask => below 8 stack && below 32 cask
  | .linkEnable fn d => fn.wf && below 6 d
  | .linkDisable fn d => fn.wf && below 6 d
  | .linkDetect d ports => below 6 d && below 8 ports
  | .trainFrameRecv d port lane f => below 6 d && below 3 port && below 4 lane && f.wf
  | .trainTimeout d => below 6 d
  | .alignBlockRecv d port lane b => below 6 d && below 3 port && below 4 lane && b.wf
  | .alignTimeout d => below 6 d
  | .bondTimeout d => below 6 d
  | .helloRecv d h => below 6 d && h.wf
  | .checkTimeout d => below 6 d
  | .flowTimeout d => below 6 d
  | .retrainTimeout d => below 6 d
  | .codewordRecv d cw => below 6 d && cw.wf
  | .flowRecv d f => below 6 d && f.wf
  | .replayCodewordRecv d _ => below 6 d
  | .ackTimeoutReplay d => below 6 d
  | .packetInject p k => below 16 p && k.wf
  | .packetForward d k => below 6 d && k.wf
  | .creditStall d vc => below 6 d && below 4 vc
  | .qpushRecv k => k.wf
  | .mwriteRecv k => k.wf
  | .mwriteWidenRecv k => k.wf
  | .mreadRecv k => k.wf
  | .mwackRecv k => k.wf
  | .mrdataRecv k => k.wf
  | .mgmtRecv k => k.wf
  | .rtFill fn => fn.wf
  | .tsyncPeriod => true
  | .tsyncReqRecv d _ _ _ _ => below 6 d
  | .tsyncRspRecv d _ => below 6 d
  | .holdoverExpiry => true
  | .collRs c => below 128 c
  | .collAg c => below 128 c
  | .collAr c => below 128 c
  | .collA2a c => below 128 c
  | .collNorm c => below 128 c
  | .collPreduce c => below 128 c
  | .collSend c => below 128 c
  | .collRecv c => below 128 c
  | .collDataRecv k => k.wf
  | .collGrantRecv k => k.wf
  | .grantIssue p cid => below 16 p && below (2 ^ 16) cid
  | .collDigestRecv k => k.wf
  | .collCountsRecv k => k.wf
  | .collNormRecv k => k.wf
  | .collDoneRecv k => k.wf
  | .collResendRecv k => k.wf
  | .digestArbitrationEnd p cid => below 16 p && below (2 ^ 16) cid
  | .collTimeout p cid => below 16 p && below (2 ^ 16) cid
  | .holdExpiry p cid => below 16 p && below (2 ^ 16) cid
  | .collEnd p cid => below 16 p && below (2 ^ 16) cid
  | .mapLoad fn p => fn.wf && below 16 p
  | .mapLoadDone p => below 16 p
  | .mapClear fn p => fn.wf && below 16 p
  | .carEnable fn p _ => fn.wf && below 16 p
  | .carSegsWrite fn p _ => fn.wf && below 16 p
  | .sealLoad fn p => fn.wf && below 16 p
  | .sealForce fn p => fn.wf && below 16 p
  | .sealRevert fn p => fn.wf && below 16 p
  | .sealDiscard fn p => fn.wf && below 16 p
  | .rcvQuiesce fn p => fn.wf && below 16 p
  | .quiesceDone p => below 16 p
  | .rcvApply fn p => fn.wf && below 16 p
  | .partStart fn p => fn.wf && below 16 p
  | .partStop fn p => fn.wf && below 16 p
  | .stopComplete p => below 16 p
  | .yieldComplete p => below 16 p
  | .partClaim fn p => fn.wf && below 16 p
  | .claimClearDone p => below 16 p
  | .quantumEnd p => below 16 p
  | .qendWrite fn p _ => fn.wf && below 16 p
  | .graceFence p => below 16 p
  | .fenceDone p => below 16 p
  | .cgrantWrite fn p i _ => fn.wf && below 16 p && below 64 i
  | .regionPark r => below 16 r
  | .regionWake r => below 16 r
  | .selfRefreshEnter dev => below 32 dev
  | .mtrGo fn p => fn.wf && below 16 p
  | .mtrUnattr fn => fn.wf
  | .meterReadingDone path p => below 3 path && below 17 p
  | .chgRegister fn role => fn.wf && below 2 role
  | .chgApprove fn => fn.wf
  | .chgVerifyDone => true
  | .chgApply fn => fn.wf
  | .chgApplyDone => true
  | .chgCancel fn => fn.wf
  | .hiqDoorbell fn q _ => fn.wf && below 32 q
  | .hiqPacket f q desc _ _ => below 34 f && below 32 q && descOk desc
  | .hiqWrite f q desc _ _ => below 34 f && below 32 q && descOk desc
  | .hiqRead f q desc => below 34 f && below 32 q && descOk desc
  | .hiqDescComplete f q => below 34 f && below 32 q
  | .hiqSkip fn q => fn.wf && below 32 q
  | .hiqReset fn q => fn.wf && below 32 q
  | .hiqBaseWrite fn q _ => fn.wf && below 32 q
  | .hoqDoorbell fn q _ => fn.wf && below 32 q
  | .hoqPacketWrite f q => below 34 f && below 32 q
  | .hoqModerationTimer f q => below 34 f && below 32 q
  | .hoqBaseWrite fn q _ => fn.wf && below 32 q
  | .msixUnmask f vec => below 34 f && below 64 vec
  | .windowWrite fn off _ => fn.wf && below (2 ^ 26) off
  | .vfFlr port v => below 2 port && vfOk v
  | .pfFlr port => below 2 port
  | .portReset port => below 2 port
  | .d3hotEnter f => below 34 f
  | .d0Return f => below 34 f
  | .hostReadySet port => below 2 port
  | .hubSrtGo fn p => fn.wf && below 16 p
  | .hubSrtDone p => below 16 p
  | .coldStart => true
  | .memReady => true
  | .bootAlive fn => fn.wf
  | .aliveTimeout => true
  | .bootCommit fn => fn.wf
  | .bootWarm fn => fn.wf
  | .bootCold fn => fn.wf
  | .bootSetpref fn sel => fn.wf && below 2 sel
  | .fwctlWritePage fn => fn.wf
  | .fwctlErase fn => fn.wf
  | .fwctlDone => true
  | .lockstepMismatch pair => below 2 pair
  | .idWaitTimeout => true
  | .mctpGetStatus _ => true
  | .mctpSelectSlot _ => true
  | .mctpSetId _ => true
  | .mctpMeterRead _ => true
  | .mctpSensorRead _ => true
  | .mctpReset _ => true
  | .mctpChgAccess _ => true
  | .mctpFwWrite _ => true
  | .mctpSetEndpointId _ => true
  | .mctpGetEndpointId _ => true
  | .mctpGetVersionSupport _ => true
  | .mctpGetMessageTypeSupport _ => true
  | .mctpGetVdmSupport _ => true
  | .pwrQualified => true
  | .prechargeDone => true
  | .inputSample _ _ => true
  | .averageRuleTick => true
  | .recoveryRuleTick => true
  | .bulkWarn => true
  | .holdupShutdown => true
  | .ridingClear => true
  | .thermalSample _ _ _ => true
  | .tripExit => true
  | .pwrEnLow => true
  | .plimWrite fn _ => fn.wf
  | .hardenedScrubPass => true
  | .perstDeassert port => below 2 port
  | .leakDetectorWetted => true
  | .railOutOfRange _ => true
  | .sealRevertDone p => below 16 p
  | .rtFillDone => true

end Sys2Proof
end

