-- ==== Sys2Proof/Tests/Slice0.lean ====
section
/-! SUPPORT. Tests: ill-formed commands are refused by the check of commands; for every statement, states and operands that
meet its hypotheses. Each is about one step on a small state. -/

namespace Sys2Proof.Tests

open Sys2Proof Sys2Proof.Machine

/-- A chip after reset with fields set: field, instance, index, value. -/
def chip (l : List (Fld × Nat × Nat × Nat)) : Chip := l.foldl (fun c x => c.put x.1 x.2.1 x.2.2.2 x.2.2.1) {}
/-- A state with a chip and clocks, limiter and supply. -/
def st (c : Chip) (p : Power := {}) : State := ⟨c, p, []⟩
/-- A supplied module. -/
def on : Power := { supply := .on }


/-- One step of holdupShutdown, its results from the rules that its meaning cites. -/
theorem test_step_holdupShutdown :
    (let s := st (chip [(.PWR_STAT_RIDING, 0, 0, 1)]) on; match execHoldupShutdown s with | .next t => decide (t.pwr.supply = .off ∧ t.chip.g .BOOT_CAUSE_SOURCE 0 = 1 ∧ t.chip.g .PWR_STAT_RIDING 0 = 0 ∧ t.chip.out = s.chip.out ++ [.pin 4 false]) | _ => false) = true := by
  decide +kernel

/-- One step of inputSample, its results from the rules that its meaning cites. -/
theorem test_step_inputSample :
    (let s := st (chip [(.PWR_TRIPLOG_VALID, 0, 0, 1)]) { supply := .tripped }; match execInputSample 0 1 s with | .next t => decide (t.pwr.supply = .off ∧ t.chip.g .PWR_TRIPLOG_VALID 0 = 0) | _ => false) = true := by
  decide +kernel

/-- One step of thermalSample, its results from the rules that its meaning cites. -/
theorem test_step_thermalSample :
    (let s := st {} on; let v : Int := 1049; match execThermalSample 17 v true s with | .next t => decide (t.chip.g .THM_SENSOR_WARN 0 17 = 1 ∧ t.chip.g .THM_SENSOR_LIMIT 0 17 = 1) | _ => false) = true := by
  decide +kernel

/-- Operands and states that meet the hypotheses of ClockIslands, clause by clause. -/
theorem test_hyps_ClockIslands :
    (let s := st {}; decide ((0 < 144) ∧ (s.pwr.island 0).gated = false)) = true ∧
    (let s := st {} { clk := [(143, { cur := 13, min := 12 })] }; decide ((143 < 144) ∧ (s.pwr.island 143).gated = false)) = true ∧
    (let s := st {} { clk := [(20, { gated := true })] }; decide ((20 < 144) ∧ (s.pwr.island 20).gated = true)) = true ∧
    (let s := st {}; decide (16 ≤ 16 ∧ ∀ u ∈ unitsOf (16 - 16), (s.chip.unit u).idle = true)) = true ∧
    (let s := st { units := [(0, { bankS := some ⟨0, 0, 0, [], [], 0, false, 0, 0, none⟩ })] }; decide (16 ≤ 16 ∧ ∃ u ∈ unitsOf (16 - 16), (s.chip.unit u).idle = false)) = true ∧
    (let s := st {} { clk := [(20, { pend := some 30, cur := 29, max := 40, min := 12 })] }; decide ((20 < 144) ∧ (s.pwr.island 20).gated = false ∧ s.chip.betweenTiles 20 = true)) = true ∧
    (let j : TileJob := ⟨127, 1023, 0, 0, 0, 0, 0, [], none, 0⟩; let s := st { units := [(1023, { run := some { kind := .train, job := j, wbits := 0 } })] } { clk := [(143, { pend := some 30 })] }; decide (s.chip.betweenTiles 143 = false)) = true ∧
    (let s := st (chip [(.PWR_STAT_PARKED, 0, 0, 0xF0)]); decide ((List.range 4).all (fun k => bit (s.chip.g .PWR_STAT_PARKED 0) (4 * 1 + k)) = true)) = true := by
  decide +kernel

/-- Operands and states that meet the hypotheses of SupplyComesAndGoes, clause by clause. -/
theorem test_hyps_SupplyComesAndGoes :
    (let s := st {} { supply := .off }; decide (s.pwr.supply = .off)) = true ∧
    (let s := st {} { supply := .precharge }; decide (s.pwr.supply = .precharge)) = true ∧
    (let s := st {} { supply := .on }; decide (s.pwr.supply = .on)) = true ∧
    (let s := st {} { supply := .precharge }; decide (s.pwr.supply = .precharge)) = true ∧
    (let s := st {} { supply := .on }; decide (s.pwr.supply = .on)) = true ∧
    (let s := st {} { supply := .tripped }; decide (s.pwr.supply = .tripped)) = true ∧
    (let s := st (chip [(.PWR_STAT_RIDING, 0, 0, 1)]) on; decide (s.pwr.supply = .on ∧ s.chip.g .PWR_STAT_RIDING 0 = 1)) = true := by
  decide +kernel

/-- Operands and states that meet the hypotheses of LimiterRules, clause by clause. -/
theorem test_hyps_LimiterRules :
    (let s := st {} { on with samples := [3600 * 10 ^ 6], caps := [(1, 12), (2, 30)] }; decide (s.pwr.supply = .on ∧ s.chip.g .PWR_STAT_RIDING 0 = 0 ∧ s.pwr.plim * 10 ^ 6 * (s.pwr.samples.take 1000).length < (s.pwr.samples.take 1000).sum)) = true ∧
    (let s := st {} { on with samples := [3300 * 10 ^ 6], caps := [(1, 12), (2, 30)], hot := [2] }; decide (s.pwr.supply = .on ∧ s.chip.g .PWR_STAT_RIDING 0 = 0 ∧ 100 * s.pwr.samples.sum < 97 * s.pwr.plim * 10 ^ 6 * s.pwr.samples.length)) = true ∧
    (decide (fnPriv .rm = true)) = true ∧
    (decide (fnPriv (.vf 1 16) = false)) = true ∧
    (let s := st (chip [(.PWR_STAT_RIDING, 0, 0, 1)]) on; decide (s.chip.g .PWR_STAT_RIDING 0 = 1 ∧ s.chip.g .PWR_STAT_WARN_OUT 0 = 0)) = true ∧
    (let s := st (chip [(.PWR_STAT_RIDING, 0, 0, 1), (.PWR_STAT_WARN_OUT, 0, 0, 1)]) on; decide (s.chip.g .PWR_STAT_RIDING 0 = 1)) = true := by
  decide +kernel

/-- Operands and states that meet the hypotheses of InputSampleActs, clause by clause. -/
theorem test_hyps_InputSampleActs :
    (let s := st {}; decide (s.pwr.supply = .off)) = true ∧
    (let s := st {} { supply := .precharge }; decide (s.pwr.supply = .precharge ∧ 339999 < 340000)) = true ∧
    (let s := st (chip [(.PWR_TRIPLOG_VALID, 0, 0, 1)]) { supply := .tripped }; decide (s.pwr.supply = .tripped)) = true ∧
    (let s := st {} on; let mv := 320000; let ma := 13125; decide (s.pwr.supply = .on ∧ 320000 ≤ mv ∧ mv ≤ 400000 ∧ ma ≤ 16000 ∧ mv * ma ≤ 4200 * 10 ^ 6)) = true ∧
    (let s := st {} on; let mv := 400000; let ma := 10500; decide (s.pwr.supply = .on ∧ 320000 ≤ mv ∧ mv ≤ 400000 ∧ ma ≤ 16000 ∧ mv * ma ≤ 4200 * 10 ^ 6)) = true ∧
    (let s := st {} on; let mv := 400000; let ma := 11500; decide (s.pwr.supply = .on ∧ s.chip.g .PWR_STAT_RIDING 0 = 0 ∧ 320000 ≤ mv ∧ mv ≤ 400000 ∧ ma ≤ 16000 ∧ 4200 * 10 ^ 6 < mv * ma ∧ mv * ma ≤ 4600 * 10 ^ 6)) = true ∧
    (let s := st {} on; let mv := 319999; let ma := 14000; decide (s.pwr.supply = .on ∧ s.chip.g .PWR_STAT_RIDING 0 = 0 ∧ mv < 320000 ∧ ma ≤ 16000 ∧ mv * ma ≤ 4600 * 10 ^ 6)) = true ∧
    (let s := st {} on; let mv := 420001; let ma := 1; decide (s.pwr.supply = .on ∧ (420000 < mv ∨ (mv ≤ 400000 ∧ 16000 < ma ∧ 1 ≤ s.pwr.amps) ∨ (mv ≤ 400000 ∧ ma ≤ 16000 ∧ 4600 * 10 ^ 6 < mv * ma ∧ 4 ≤ s.pwr.watts)))) = true ∧
    (let s := st {} { on with amps := 1 }; let mv := 400000; let ma := 16001; decide (s.pwr.supply = .on ∧ (420000 < mv ∨ (mv ≤ 400000 ∧ 16000 < ma ∧ 1 ≤ s.pwr.amps) ∨ (mv ≤ 400000 ∧ ma ≤ 16000 ∧ 4600 * 10 ^ 6 < mv * ma ∧ 4 ≤ s.pwr.watts)))) = true ∧
    (let s := st {} { on with watts := 4 }; let mv := 400000; let ma := 11501; decide (s.pwr.supply = .on ∧ (420000 < mv ∨ (mv ≤ 400000 ∧ 16000 < ma ∧ 1 ≤ s.pwr.amps) ∨ (mv ≤ 400000 ∧ ma ≤ 16000 ∧ 4600 * 10 ^ 6 < mv * ma ∧ 4 ≤ s.pwr.watts)))) = true := by
  decide +kernel

/-- Operands and states that meet the hypotheses of ThermalSampleActs, clause by clause. -/
theorem test_hyps_ThermalSampleActs :
    (let s := st {}; decide (s.pwr.supply = .off)) = true ∧
    (let s := st {} on; let v : Int := -200; decide (s.pwr.supply ≠ .off ∧ 8 ≤ 8 ∧ -200 ≤ v ∧ v < 1050)) = true ∧
    (let s := st {} on; let v : Int := 1049; decide (s.pwr.supply ≠ .off ∧ 17 < 18 ∧ v < 1050)) = true ∧
    (let s := st {} on; decide (s.pwr.supply ≠ .off ∧ 3 < 4 ∧ 31 < 32)) = true ∧
    (let s := st {} on; let v : Int := 1050; let i := 8; decide ((s.pwr.supply = .on ∨ s.pwr.supply = .precharge) ∧ ((8 ≤ i ∧ i < 18 ∧ 1050 ≤ v ∧ (v ≤ 1500 ∨ 9 ≤ i)) ∨ (18 ≤ i ∧ i < 20 ∧ 450 ≤ v ∧ v < 32768) ∨ (20 ≤ i ∧ i < 22 ∧ 650 ≤ v ∧ v < 32768)))) = true ∧
    (let s := st {} on; let v : Int := 5000; let i := 17; decide ((s.pwr.supply = .on ∨ s.pwr.supply = .precharge) ∧ ((8 ≤ i ∧ i < 18 ∧ 1050 ≤ v ∧ (v ≤ 1500 ∨ 9 ≤ i)) ∨ (18 ≤ i ∧ i < 20 ∧ 450 ≤ v ∧ v < 32768) ∨ (20 ≤ i ∧ i < 22 ∧ 650 ≤ v ∧ v < 32768)))) = true ∧
    (let s := st {} on; let v : Int := 450; let i := 18; decide ((s.pwr.supply = .on ∨ s.pwr.supply = .precharge) ∧ ((8 ≤ i ∧ i < 18 ∧ 1050 ≤ v ∧ (v ≤ 1500 ∨ 9 ≤ i)) ∨ (18 ≤ i ∧ i < 20 ∧ 450 ≤ v ∧ v < 32768) ∨ (20 ≤ i ∧ i < 22 ∧ 650 ≤ v ∧ v < 32768)))) = true ∧
    (let s := st {} on; let v : Int := 650; let i := 21; decide ((s.pwr.supply = .on ∨ s.pwr.supply = .precharge) ∧ ((8 ≤ i ∧ i < 18 ∧ 1050 ≤ v ∧ (v ≤ 1500 ∨ 9 ≤ i)) ∨ (18 ≤ i ∧ i < 20 ∧ 450 ≤ v ∧ v < 32768) ∨ (20 ≤ i ∧ i < 22 ∧ 650 ≤ v ∧ v < 32768)))) = true := by
  decide +kernel

/-- Operands and states that meet the hypotheses of HardenedScrubVotes, clause by clause. -/
theorem test_hyps_HardenedScrubVotes :
    (let s := st {}; decide (s.chip.upsets = [])) = true ∧
    (let s := st { upsets := [{ reg := .PWR_CTL, inst := 0, idx := 0, half := 0, a := some 1, b := some 1, c := some 2 }] }; decide (∃ u ∈ s.chip.upsets, s.chip.upsets = [u] ∧ u.reg = .PWR_CTL)) = true := by
  decide +kernel

/-- One step of registerWrite, its results from the rules that its meaning cites. -/
theorem test_step_registerWrite :
    (let s := st (chip [(.PART_STAT_STATE, 15, 0, 4)]); let off := Reg.HUB_SEED.offset 15 0 + 4; match execRegisterWrite (.vf 0 16) off 4 1 s with | .next t => decide (t.chip.g .PART_STAT_LOCK_VIOL 15 = 1 ∧ t.chip.g .PART_VIOL_LOCK_OFF 15 = 44) | _ => false) = true := by
  decide +kernel

/-- Operands and states that meet the hypotheses of RegisterMapUnambiguous, clause by clause. -/
theorem test_hyps_RegisterMapUnambiguous :
    (decide (1023 < Reg.MXE_HEALTH.info.win.count ∧ 0 < Reg.MXE_HEALTH.info.count ∧ 3 < Reg.MXE_HEALTH.info.width / 8)) = true := by
  decide +kernel

/-- Operands and states that meet the hypotheses of RegisterWriteByAccessType, clause by clause. -/
theorem test_hyps_RegisterWriteByAccessType :
    (let s := st {}; let l := (⟨.HUB_GATE_CTL, 0, 0, 0⟩ : Loc); let off := Reg.HUB_GATE_CTL.offset 0 0; decide (off % 4 = 0 ∧ ¬ (0x79000 ≤ off ∧ off < 0x7A000) ∧ s.chip.locate (.vf 0 1) off = some l ∧ l.reg.plain = true)) = true ∧
    (let s := st {}; let l := (⟨.MXE_CKPAT, 1023, 0, 0⟩ : Loc); let off := Reg.MXE_CKPAT.offset 1023 0; decide (off % 4 = 0 ∧ ¬ (0x79000 ≤ off ∧ off < 0x7A000) ∧ s.chip.locate (.pf 1) off = some l ∧ l.reg.plain = true ∧ off % 8 = 0 ∧ l.byte = 0 ∧ l.reg.info.width = 64)) = true ∧
    (let s := st (chip [(.PART_QEND_QEND, 15, 0, 5), (.HUB_PSEL_PART, 2, 0, 15)]); let l := (⟨.PART_QEND, 15, 0, 4⟩ : Loc); let off := Reg.PART_QEND.offset 15 0 + 4; decide (off % 4 = 0 ∧ ¬ (0x79000 ≤ off ∧ off < 0x7A000) ∧ s.chip.locate .rm off = some l ∧ (l.byte = 0 ∨ l.byte = 4) ∧ l.reg = .PART_QEND)) = true ∧
    (let s := st (chip [(.PART_QEND_QEND, 15, 0, 5), (.HUB_PSEL_PART, 2, 0, 15)]); let l := (⟨.PART_CGRANT, 15, 63, 0⟩ : Loc); let off := Reg.PART_CGRANT.offset 15 63 + 0; decide (off % 4 = 0 ∧ ¬ (0x79000 ≤ off ∧ off < 0x7A000) ∧ s.chip.locate .rm off = some l ∧ (l.byte = 0 ∨ l.byte = 4) ∧ l.reg = .PART_CGRANT)) = true ∧
    (let s := st (chip [(.PART_QEND_QEND, 15, 0, 5), (.HUB_PSEL_PART, 2, 0, 15)]); let l := (⟨.HOSTIF_HIQ_BASE, 0, 1, 4⟩ : Loc); let off := Reg.HOSTIF_HIQ_BASE.offset 0 1 + 4; decide (off % 4 = 0 ∧ ¬ (0x79000 ≤ off ∧ off < 0x7A000) ∧ s.chip.locate (.pf 0) off = some l ∧ (l.byte = 0 ∨ l.byte = 4) ∧ l.reg = .HOSTIF_HIQ_BASE)) = true ∧
    (let s := st (chip [(.PART_QEND_QEND, 15, 0, 5), (.HUB_PSEL_PART, 2, 0, 15)]); let l := (⟨.HOSTIF_HOQ_BASE, 0, 1, 4⟩ : Loc); let off := Reg.HOSTIF_HOQ_BASE.offset 0 1 + 4; decide (off % 4 = 0 ∧ ¬ (0x79000 ≤ off ∧ off < 0x7A000) ∧ s.chip.locate (.pf 0) off = some l ∧ (l.byte = 0 ∨ l.byte = 4) ∧ l.reg = .HOSTIF_HOQ_BASE)) = true ∧
    (let s := st (chip [(.PART_QEND_QEND, 15, 0, 5), (.HUB_PSEL_PART, 2, 0, 15)]); let l := (⟨.HOSTIF_WIN, 0, 0, 4⟩ : Loc); let off := Reg.HOSTIF_WIN.offset 0 0 + 4; decide (off % 4 = 0 ∧ ¬ (0x79000 ≤ off ∧ off < 0x7A000) ∧ s.chip.locate (.pf 0) off = some l ∧ (l.byte = 0 ∨ l.byte = 4) ∧ winReg l.reg = true)) = true ∧
    (let s := st (chip [(.HUB_PSEL_PART, 2, 0, 15)]); let off := Reg.PART_QEND.offset 15 0; let l := (⟨.PART_QEND, 15, 0, 0⟩ : Loc); let h := (⟨.PART_QEND, 15, 0, 4⟩ : Loc); decide (s.chip.locate .rm off = some l ∧ s.chip.locate .rm (off + 4) = some h ∧ h.byte = 4 ∧ l.byte = 0 ∧ { h with byte := 0 } = { l with byte := 0 })) = true := by
  decide +kernel

/-- Operands and states that meet the hypotheses of LockedWriteRecorded, clause by clause. -/
theorem test_hyps_LockedWriteRecorded :
    (let s := st (chip [(.PART_STAT_STATE, 15, 0, 4)]); let l := (⟨.HUB_SEED, 15, 0, 4⟩ : Loc); let off := Reg.HUB_SEED.offset 15 0 + 4; decide (off % 4 = 0 ∧ ¬ (0x79000 ≤ off ∧ off < 0x7A000) ∧ s.chip.locate (.vf 0 16) off = some l ∧ l.reg.plain = true ∧ l.reg ≠ .PART_STAT ∧ l.reg ≠ .PART_VIOL ∧ l.inst < 2048 ∧ l.idx < 4096 ∧ 15 < 16 ∧ s.chip.lockPart l.reg l.inst = some 15 ∧ s.chip.runs 15 = true ∧ ∃ f ∈ l.reg.fields, f.lk = true ∧ 8 * l.byte ≤ f.hi ∧ f.lo ≤ 8 * l.byte + 31 ∧ ownRow l.reg f.lo = false)) = true := by
  decide +kernel

/-- Operands and states that meet the hypotheses of UnmappedAndPartialAccesses, clause by clause. -/
theorem test_hyps_UnmappedAndPartialAccesses :
    (let s := st {}; let fn := Fn.vf 1 16; let off := 0x3FFFFFC; decide (fn ≠ .rm ∧ fn ≠ .bmc ∧ s.chip.locate fn off = none ∧ inLog fn off = false ∧ off % 4 = 0 ∧ ¬ (0x79000 ≤ off ∧ off < 0x7A000))) = true ∧
    (let fn := Fn.pf 0; let off := 2; decide (fn ≠ .rm ∧ fn ≠ .bmc ∧ (off % 4 ≠ 0 ∨ (4 ≠ 4 ∧ 4 ≠ 8)) ∧ ¬ (0x79000 ≤ off ∧ off < 0x7A000))) = true := by
  decide +kernel

/-- Operands and states that meet the hypotheses of ClockRegisterWrite, clause by clause. -/
theorem test_hyps_ClockRegisterWrite :
    (let s := st {}; let l := (⟨.CLU_CLK, 127, 0, 0⟩ : Loc); let off := Reg.CLU_CLK.offset 127 0; decide (off % 4 = 0 ∧ ¬ (0x79000 ≤ off ∧ off < 0x7A000) ∧ s.chip.locate .rm off = some l ∧ (l.reg = .RGN_CLK ∨ l.reg = .CLU_CLK))) = true := by
  decide +kernel

/-- Partition 0 runs a job of two modules on region 0, this module at a rank, with more fields set. -/
def job (rank : Nat) (l : List (Fld × Nat × Nat × Nat)) : Chip :=
  { chip ([(.PART_OWN_OWNED, 0, 0, 1), (.PART_STAT_STATE, 0, 0, 3), (.FAB_JOB_JTAG, 0, 0, 1), (⟨.FAB_PERM, 63, 0⟩, 0, 0, 3), (.FAB_ID_ID, 0, 0, rank),
      (.FAB_TOPO_DXM1, 0, 0, 1), (.PART_TBL_VALID, 0, 0, 1)] ++ l) with
    maps := [(0, { imgs := [(0, { addr := 3 * 2 ^ 60, words := 0, rank := rank, ids := [0, 1], groups := [], tensors := [], places := [], stages := [] })]
                   cur := some 0 })] }
/-- The chip after a received seal message is taken by partition p, and the rank that sent it. -/
def fin (p : Nat) (m : SealMsg) (k : Pkt) : Chip × Option (Nat × Bool) → Option (Chip × Nat)
  | (e, some (q, _)) => if q = p then
      ((((e.dlv p k).leaveLike k).jobIds p).findIdx? (· == m.src)).map (fun r => ((e.dlv p k).leaveLike k, r)) else none
  | _ => none
theorem fin_of (p : Nat) (m : SealMsg) (k : Pkt) (v : Chip × Option (Nat × Bool)) (d : Chip) (r : Nat) (h : fin p m k v = some (d, r)) :
   (∃ e ok, v = (e, some (p, ok)) ∧ d = (e.dlv p k).leaveLike k) ∧ (d.jobIds p).findIdx? (· == m.src) = some r := by
  obtain ⟨e, _ | ⟨q, ok⟩⟩ := v
  · cases h
  · simp only [fin] at h
    split at h
    · next hq =>
      subst hq
      simp only [Option.map_eq_some_iff, Prod.mk.injEq] at h
      obtain ⟨a, ha, hd, hr⟩ := h
      subst hr; subst hd
      exact ⟨⟨e, ok, rfl, rfl⟩, ha⟩
    · cases h
/-- A seal message received. -/
def takes (c : Chip) (p kind : Nat) (m : SealMsg) : Option (Chip × Nat) :=
  fin p m (c.sealPkt p kind m) (c.settle.receive (c.sealPkt p kind m))
theorem sealTakes_of (c : Chip) (p kind : Nat) (m : SealMsg) (d : Chip) (r : Nat) (h : takes c p kind m = some (d, r)) :
    c.sealTakes p kind m d r := fin_of p m _ _ d r h

/-- One step of sealDiscard, its results from the rules that its meaning cites. -/
theorem test_step_sealDiscard :
    (let s := st { chip [(.HUB_PSEL_PART, 2, 0, 15), (.HUB_STEP_GATE_FAIL, 15, 0, 1), (.HUB_STEP_UPDATE_DONE, 15, 0, 1)] with upds := [(15, { jrnl := [⟨0, 0, 0, [0, 0, 0, 0, 0, 0, 0, 0], 0, false, false, false, false, false⟩] })], seals := [(15, { barrier := true, votedAt := some 5 })] }; let p := 15; match execSealDiscard .rm p s with | .next t => decide (t.chip.g .HUB_STEP_READY_SENT p = 0 ∧ t.chip.g .HUB_STEP_UPDATE_DONE p = 0 ∧ t.chip.g .HUB_STEP_GATE_FAIL p = 0 ∧ t.chip.g .HUB_STEP_SEALED_STEP p = 0 ∧ t.chip.g .HUB_CNT_SKIP_COUNT p = 1 ∧ (t.chip.upd p).jrnl = [] ∧ t.chip.g .SEAL_CMD_DISCARD p = 1) | _ => false) = true := by
  decide +kernel

/-- One step of recvAbandon, its results from the rules that its meaning cites. -/
theorem test_step_recvAbandon :
    (let s := st { job 1 [] with seals := [(0, {  })] }; let m := (⟨0, 1, 0, 0, 0⟩ : SealMsg); match execRecvAbandon 0 m s with | .next t => decide (t.chip.g .SEAL_STAT_ATT 0 = 1 ∧ t.chip.g .SEAL_CNT_COUNT 0 1 = 1 ∧ t.chip.g .SEAL_LOG_KIND 0 = 2 ∧ t.chip.g .SEAL_LOG_LOCAL 0 = 0 ∧ t.chip.g .SEAL_STAT_WAIT_REL 0 = 1 ∧ t.chip.g .HUB_CNT_SKIP_COUNT 0 = 1 ∧ t.chip.g .HUB_STEP_SEALED_STEP 0 = 0) | _ => false) = true := by
  decide +kernel

/-- One step of sealForce, its results from the rules that its meaning cites. -/
theorem test_step_sealForce :
    (let s := st (chip [(.HUB_STEP_READY_SENT, 0, 0, 1), (.HUB_STEP_UPDATE_DONE, 0, 0, 1)]); match execSealForce .rm 0 s with | .next t => decide (t.chip.g .HUB_STEP_READY_SENT 0 = 0 ∧ t.chip.g .HUB_STEP_UPDATE_DONE 0 = 0 ∧ t.chip.g .SEAL_STAT_OLD_INTACT 0 = 1 ∧ (t.chip.sealOf 0).votedAt = none ∧ (t.chip.sealOf 0).votes = [] ∧ t.chip.g .SEAL_LOG_KIND 0 = 4) | _ => false) = true := by
  decide +kernel

/-- One step of recvSeal, its results from the rules that its meaning cites. -/
theorem test_step_recvSeal :
    (let s := st { job 1 [(.HUB_STEP_READY_SENT, 0, 0, 1)] with seals := [(0, {  })] }; let m := (⟨0, 1, 0, 0, 0⟩ : SealMsg); match execRecvSeal 0 m s with | .next t => decide (t.chip.g .HUB_STEP_READY_SENT 0 = 0 ∧ t.chip.g .HUB_STEP_UPDATE_DONE 0 = 0 ∧ t.chip.g .SEAL_STAT_OLD_INTACT 0 = 1 ∧ (t.chip.sealOf 0).votedAt = none ∧ (t.chip.sealOf 0).votes = [] ∧ t.chip.g .SEAL_LOG_KIND 0 = 1) | _ => false) = true := by
  decide +kernel

/-- Operands and states that meet the hypotheses of SealTimers, clause by clause. -/
theorem test_hyps_SealTimers :
    (let s := st { job 0 [(.HUB_STEP_READY_SENT, 0, 0, 1)] with seals := [(0, { votedAt := some 0 })], up := 10 ^ 12 }; let c := s.chip; decide (0 < 16 ∧ (c.sealOf 0).votedAt = some 0 ∧ c.on .HUB_STEP_READY_SENT 0 = true ∧ c.on .SEAL_STAT_IN_DOUBT 0 = false ∧ 0 + 1000000 * c.g .SEAL_CFG_DECIDE_TMO 0 ≤ c.up ∧ c.faultQueue (.part 0) = none)) = true ∧
    (let s := st { job 0 [] with seals := [(0, { votedAt := some (10 ^ 12) })], up := 10 ^ 12 }; let c := s.chip; decide ((c.sealOf 0).votedAt = some (10 ^ 12) ∧ c.up < 10 ^ 12 + 1000000 * c.g .SEAL_CFG_DECIDE_TMO 0)) = true ∧
    (let s := st { job 0 [] with seals := [(0, { ack := some [1] })], up := 10 ^ 12 }; let c := s.chip; let x := c.sealOf 0; decide (x.ack = some [1] ∧ x.ackTmo = false ∧ x.ackAt + 1000000 * c.g .SEAL_CFG_ACK_TMO 0 ≤ c.up)) = true ∧
    (let s := st { job 0 [] with seals := [(0, { ackTmo := true })], up := 10 ^ 12 }; decide ((s.chip.sealOf 0).ackTmo = true)) = true ∧
    (let s := st { job 0 [] with seals := [(0, { bound := [(1, 0, 0, 0)] })], up := 10 ^ 12 }; let c := s.chip; let x := c.sealOf 0; decide (x.bound ≠ [] ∧ x.boundTmo = false ∧ x.boundAt + 1000000 * c.g .SEAL_CFG_BOUND_TMO 0 ≤ c.up)) = true ∧
    (let s := st { job 0 [] with seals := [(0, { boundTmo := true })], up := 10 ^ 12 }; decide ((s.chip.sealOf 0).boundTmo = true)) = true ∧
    (let s := st { job 0 [] with seals := [(0, { votes := [(1, true)] })], up := 10 ^ 12 }; let c := s.chip; let x := c.sealOf 0; decide (c.runs 0 = true ∧ c.isCoord 0 = true ∧ x.votes ≠ [] ∧ x.voteAt + 1000000 * c.g .SEAL_CFG_READY_TMO 0 ≤ c.up)) = true ∧
    (let s := st { job 0 [] with seals := [(0, { votes := [(1, true)] })] }; decide (s.chip.up < (s.chip.sealOf 0).voteAt + 1000000 * s.chip.g .SEAL_CFG_READY_TMO 0)) = true ∧
    (let s := st { job 0 [] with seals := [(0, { release := some (0, 1, 1), bsent := true })], up := 10 ^ 12 }; decide ((s.chip.sealOf 0).release = some (0, 1, 1) ∧ 0 ≤ s.chip.now)) = true ∧
    (let s := st { job 0 [] with seals := [(0, { release := some (1, 1, 1) })], up := 10 ^ 12 }; decide ((s.chip.sealOf 0).release = some (1, 1, 1) ∧ s.chip.now < 1)) = true := by
  decide +kernel

/-- Operands and states that meet the hypotheses of RecoveryActions, clause by clause. -/
theorem test_hyps_RecoveryActions :
    (let s := st (chip [(.HUB_PSEL_PART, 2, 0, 15), (.SEAL_CMD_STEP, 15, 0, 7)]); let c := s.chip; let p := 15; decide (p < 16 ∧ c.reaches .rm .SEAL_CMD p = true ∧ c.runs p = false)) = true ∧
    (let s := st (chip [(.HUB_PSEL_PART, 2, 0, 15), (.SEAL_STAT_OLD_INTACT, 15, 0, 1), (.HUB_STEP_SEALED_STEP, 15, 0, 1), (.HUB_SCHED_INDEX, 15, 0, 1)]); let c := s.chip; let p := 15; decide (c.reaches .rm .SEAL_CMD p = true ∧ c.runs p = false ∧ c.g .SEAL_STAT_OLD_INTACT p = 1 ∧ c.g .HUB_STEP_READY_SENT p = 0 ∧ 0 < c.g .HUB_STEP_SEALED_STEP p)) = true ∧
    (let s := st { chip [(.HUB_PSEL_PART, 2, 0, 15), (.HUB_STEP_GATE_FAIL, 15, 0, 1), (.HUB_STEP_UPDATE_DONE, 15, 0, 1)] with upds := [(15, { jrnl := [⟨0, 0, 0, [0, 0, 0, 0, 0, 0, 0, 0], 0, false, false, false, false, false⟩] })], seals := [(15, { barrier := true, votedAt := some 5 })] }; let c := s.chip; let p := 15; decide (c.reaches .rm .SEAL_CMD p = true ∧ c.runs p = false ∧ (c.g .HUB_STEP_READY_SENT p = 1 ∨ c.g .SEAL_STAT_IN_DOUBT p = 1 ∨ (c.upd p).jrnl ≠ []))) = true ∧
    (let s := st (chip [(.HUB_PSEL_PART, 2, 0, 15), (.PART_STAT_STATE, 15, 0, 2)]); let c := s.chip; let p := 15; decide (c.reaches .rm .SEAL_CMD p = true ∧ c.runs p = true)) = true ∧
    (let s := st (chip [(.HUB_PSEL_PART, 2, 0, 15), (.PART_STAT_STATE, 15, 0, 2)]); let c := s.chip; let p := 15; decide (c.reaches .rm .SEAL_CMD p = true ∧ c.runs p = true)) = true ∧
    (let s := st (chip [(.HUB_PSEL_PART, 2, 0, 15), (.PART_STAT_STATE, 15, 0, 2)]); let c := s.chip; let p := 15; decide (c.reaches .rm .SEAL_CMD p = true ∧ c.runs p = true)) = true ∧
    (let s := st (chip [(.HUB_PSEL_PART, 2, 0, 15), (.PART_STAT_STATE, 15, 0, 2)]); let c := s.chip; let p := 15; decide (c.reaches .rm .SEAL_CMD p = true ∧ c.runs p = true)) = true ∧
    (let s := st (chip [(.SEAL_CMD_REVERT, 15, 0, 1)]); let c := s.chip; let p := 15; decide (c.g .SEAL_CMD_REVERT p = 1)) = true ∧
    (let s := st { upds := [(15, { void := [⟨0, 0, 0, [], 0, false, false, false, false, false⟩] })] }; let c := s.chip; let p := 15; decide ((c.upd p).void ≠ [])) = true ∧
    (let s := st (chip [(.HUB_PSEL_PART, 2, 0, 15), (.INT_RCV_REPOCH_NEXT, 15, 0, 9), (.SEAL_STAT_ATT, 15, 0, 5)]); let c := s.chip; let p := 15; decide (c.reaches .rm .INT_RCV p = true ∧ c.runs p = false)) = true ∧
    (let s := st (chip [(.HUB_PSEL_PART, 2, 0, 15)]); let c := s.chip; let p := 15; decide (c.reaches .rm .INT_RCV p = true ∧ c.runs p = false)) = true ∧
    (let s := st (chip [(.INT_RCV_QUIESCE, 15, 0, 1)]); let c := s.chip; let p := 15; decide (c.g .INT_RCV_QUIESCE p = 1 ∧ (c.upd p).void = [])) = true := by
  decide +kernel

/-- Operands and states that meet the hypotheses of SealFlips, clause by clause. -/
theorem test_hyps_SealFlips :
    (let s := st (chip [(.HUB_STEP_READY_SENT, 0, 0, 1), (.HUB_STEP_UPDATE_DONE, 0, 0, 1)]); let d := s.chip; decide (d.reaches .rm .SEAL_CMD 0 = true ∧ d.runs 0 = false ∧ d.g .HUB_STEP_READY_SENT 0 = 1 ∧ d.g .HUB_STEP_UPDATE_DONE 0 = 1 ∧ d.g .HUB_STEP_GATE_FAIL 0 = 0)) = true ∧
    (let s := st { job 1 [(.HUB_STEP_READY_SENT, 0, 0, 1)] with seals := [(0, {  })] }; let m := (⟨0, 1, 0, 0, 0⟩ : SealMsg); let dr := (takes s.chip 0 3 m); let d := (dr.getD (s.chip, 0)).1; let r := (dr.getD (s.chip, 9)).2; decide (dr.isSome ∧ d.coord 0 = some r ∧ d.amLive 0 = true ∧ m.step = d.step 0 ∧ d.g .HUB_STEP_READY_SENT 0 = 1)) = true ∧
    (let s := st { job 1 [(.HUB_STEP_READY_SENT, 0, 0, 1)] with seals := [(0, {  })] }; let m := (⟨0, 2, 0, 0, 0⟩ : SealMsg); let dr := (takes s.chip 0 3 m); let d := (dr.getD (s.chip, 0)).1; let r := (dr.getD (s.chip, 9)).2; decide (dr.isSome ∧ d.coord 0 = some r ∧ d.amLive 0 = true ∧ m.step ≠ d.step 0)) = true ∧
    (let s := st { job 0 [] with seals := [(0, { votes := [(0, true)] })] }; let m := (⟨1, 1, 0, 0, 0⟩ : SealMsg); let dr := (takes s.chip 0 1 m); let d := (dr.getD (s.chip, 0)).1; let r := (dr.getD (s.chip, 9)).2; decide (dr.isSome ∧ d.isCoord 0 = true ∧ r ∈ d.liveRanks 0 ∧ (d.sealOf 0).ack = none ∧ m.step = d.step 0 ∧ m.lepoch = d.lepoch 0 ∧ ∀ k ∈ d.liveRanks 0, k = r ∨ (k, true) ∈ (d.sealOf 0).votes)) = true ∧
    (let s := st { job 0 [] with seals := [(0, {  })] }; let m := (⟨1, 1, 0, 0, 0⟩ : SealMsg); let dr := (takes s.chip 0 1 m); let d := (dr.getD (s.chip, 0)).1; let r := (dr.getD (s.chip, 9)).2; decide (dr.isSome ∧ d.isCoord 0 = true ∧ r ∈ d.liveRanks 0 ∧ (d.sealOf 0).ack = none ∧ m.step = d.step 0 ∧ m.lepoch = d.lepoch 0 ∧ ∃ k ∈ d.liveRanks 0, k ≠ r ∧ ∀ v ∈ (d.sealOf 0).votes, v.1 ≠ k)) = true := by
  decide +kernel

/-- Operands and states that meet the hypotheses of AbandonsDecided, clause by clause. -/
theorem test_hyps_AbandonsDecided :
    (let s := st { job 0 [] with seals := [(0, {  })] }; let m := (⟨1, 1, 0, 0, 0⟩ : SealMsg); let dr := (takes s.chip 0 2 m); let d := (dr.getD (s.chip, 0)).1; let r := (dr.getD (s.chip, 9)).2; decide (dr.isSome ∧ d.isCoord 0 = true ∧ r ∈ d.liveRanks 0 ∧ r ≠ d.myRank 0 ∧ r < 256 ∧ (d.sealOf 0).ack = none ∧ m.step = d.step 0 ∧ m.lepoch = d.lepoch 0)) = true ∧
    (let s := st { job 1 [] with seals := [(0, {  })] }; let m := (⟨0, 1, 0, 0, 0⟩ : SealMsg); let dr := (takes s.chip 0 4 m); let d := (dr.getD (s.chip, 0)).1; let r := (dr.getD (s.chip, 9)).2; decide (dr.isSome ∧ d.coord 0 = some r ∧ d.amLive 0 = true ∧ d.isCoord 0 = false ∧ m.step = d.step 0 ∧ (d.sealOf 0).barrier = false)) = true ∧
    (let s := st { job 1 [] with seals := [(0, { barrier := true })] }; let m := (⟨0, 1, 0, 0, 0⟩ : SealMsg); let dr := (takes s.chip 0 6 m); let d := (dr.getD (s.chip, 0)).1; let r := (dr.getD (s.chip, 9)).2; decide (dr.isSome ∧ d.coord 0 = some r ∧ d.amLive 0 = true ∧ m.step = d.step 0 ∧ m.mark = 0 ∧ (d.sealOf 0).barrier = true ∧ ((d.sealOf 0).bsent = true ∨ d.allWait 0 Agree.isBound = false))) = true ∧
    (let s := st { job 1 [(.CLU_SEQ_CTL_EN, 0, 0, 1)] with seals := [(0, { barrier := true })], seqs := [(0, { agree := .full })] }; let m := (⟨0, 1, 0, 0, 0⟩ : SealMsg); let dr := (takes s.chip 0 6 m); let d := (dr.getD (s.chip, 0)).1; let r := (dr.getD (s.chip, 9)).2; decide (dr.isSome ∧ d.coord 0 = some r ∧ d.amLive 0 = true ∧ d.isCoord 0 = false ∧ m.step = d.step 0 ∧ m.mark = 0 ∧ (d.sealOf 0).barrier = true ∧ (d.sealOf 0).bsent = false ∧ d.allWait 0 Agree.isBound = true ∧ ∀ cl ∈ d.enrolled 0, (d.seq cl).agree = .full)) = true ∧
    (let s := st { job 0 [] with seals := [(0, { ack := some [0, 1], ackStep := 1 })] }; let m := (⟨1, 1, 0, 0, 0⟩ : SealMsg); let dr := (takes s.chip 0 5 m); let d := (dr.getD (s.chip, 0)).1; let r := (dr.getD (s.chip, 9)).2; decide (dr.isSome ∧ d.isCoord 0 = true ∧ m.mark = 0 ∧ (d.sealOf 0).ack = some [0, 1] ∧ m.step = (d.sealOf 0).ackStep ∧ (([0, 1] : List Nat).any (fun k => k != r)) = true)) = true ∧
    (let s := st { job 1 [(.CLU_SEQ_CTL_EN, 0, 0, 1)] with seals := [(0, {  })] }; let m := (⟨0, 1, 0, 0, 0⟩ : SealMsg); let dr := (takes s.chip 0 7 m); let d := (dr.getD (s.chip, 0)).1; let r := (dr.getD (s.chip, 9)).2; decide (dr.isSome ∧ d.coord 0 = some r ∧ d.amLive 0 = true)) = true := by
  decide +kernel

/-- Operands and states that meet the hypotheses of GateEvaluated, clause by clause. -/
theorem test_hyps_GateEvaluated :
    (let s := st { job 1 [(.CLU_SEQ_CTL_EN, 0, 0, 1), (.HUB_GATE_CTL_GLOBAL, 0, 0, 0)] with seqs := [(0, { agree := .gate })], steps := [(0, {  })] }; let c := s.chip; let x := c.stepS 0; decide (c.mayVote 0 = true ∧ x.vote = false ∧ x.gate = none ∧ c.allWait 0 (fun a => a.isGate || a.isSeal) = true ∧ x.nf = false ∧ x.chk = false ∧ x.poison = false ∧ c.g .HUB_GATE_CTL_GLOBAL 0 = 0 ∧ (∀ n ∈ c.gateNorms 0, (decodeF fp64 n).isFin = true ∧ leV (decodeF fp64 n) (decodeF fp32 (c.g .HUB_GATE_LIM_NMAX 0)) = true))) = true ∧
    (let s := st { job 1 [(.CLU_SEQ_CTL_EN, 0, 0, 1), (.HUB_GATE_CTL_GLOBAL, 0, 0, 1)] with seqs := [(0, { agree := .gate })], steps := [(0, {  })] }; let c := s.chip; let x := c.stepS 0; decide (c.mayVote 0 = true ∧ x.vote = false ∧ x.gate = none ∧ c.allWait 0 (fun a => a.isGate || a.isSeal) = true ∧ (c.car 0).norms ≠ 1 ∧ c.isCoord 0 = false)) = true ∧
    (let s := st { job 1 [(.CLU_SEQ_CTL_EN, 0, 0, 1)] with seqs := [(0, { agree := .gate })], steps := [(0, { chk := true })] }; let c := s.chip; let x := c.stepS 0; decide (c.mayVote 0 = true ∧ x.vote = false ∧ x.gate = none ∧ c.allWait 0 (fun a => a.isGate || a.isSeal) = true ∧ x.chk = true ∧ c.isCoord 0 = false)) = true ∧
    (let s := st { job 1 [(.CLU_SEQ_CTL_EN, 0, 0, 1)] with seqs := [(0, { agree := .none })], steps := [(0, { vote := true })] }; let c := s.chip; let x := c.stepS 0; decide (c.mayVote 0 = true ∧ x.vote = true ∧ c.isCoord 0 = false)) = true ∧
    (let s := st { job 1 [(.CLU_SEQ_CTL_EN, 0, 0, 1)] with seqs := [(0, { agree := .seal [] })], steps := [(0, { gate := some true })] }; let c := s.chip; let x := c.stepS 0; decide (c.mayVote 0 = true ∧ x.gate = some true ∧ x.cutDone = false ∧ c.allWait 0 Agree.isSeal = true ∧ c.pinsDone 0 = true)) = true ∧
    (let s := st { job 5 [(.CLU_SEQ_CTL_EN, 0, 0, 1)] with seqs := [(0, { agree := .seal [] })], steps := [(0, { gate := some true, cutDone := true })] }; let c := s.chip; let x := c.stepS 0; decide (c.mayVote 0 = true ∧ x.gate = some true ∧ x.vote = false ∧ x.poison = false ∧ x.chk = false ∧ x.nf = false ∧ x.cutDone = true ∧ c.allWait 0 Agree.isSeal = true ∧ (∀ e ∈ (c.upd 0).jrnl, e.live = false) ∧ (c.upd 0).void = [] ∧ (c.upd 0).replay = false ∧ c.amLive 0 = false)) = true ∧
    (let s := st { job 1 [(.CLU_SEQ_CTL_EN, 0, 0, 1)] with seqs := [(0, { agree := .seal [] })], steps := [(0, { gate := some true, cutDone := true })] }; let c := s.chip; let x := c.stepS 0; decide (c.mayVote 0 = true ∧ x.gate = some true ∧ x.vote = false ∧ x.poison = false ∧ x.chk = false ∧ x.nf = false ∧ x.cutDone = true ∧ c.allWait 0 Agree.isSeal = true ∧ (∀ e ∈ (c.upd 0).jrnl, e.live = false) ∧ (c.upd 0).void = [] ∧ (c.upd 0).replay = false ∧ c.amLive 0 = true ∧ c.isCoord 0 = false)) = true := by
  decide +kernel

/-- Sequencer 127 of region 15, in partition 15, has one command in its command queue 1023, with more fields set. -/
def sq (w : List Word) (x : SeqS) (l : List (Fld × Nat × Nat × Nat)) : Chip :=
  { chip ([(.PART_OWN_OWNED, 0, 15, 1), (.PART_OWN_OWNER, 0, 15, 15), (.PART_STAT_STATE, 15, 0, 3), (.CLU_SEQ_CTL_EN, 127, 0, 1),
      (.CLU_SEQ_CTL_CMDQ, 127, 0, 1023), (.QP_QCFG_EN, 15, 1023, 1), (.QP_QCFG_CIDX, 15, 1023, 7), (.QP_QCFG_MAX_CELLS, 15, 1023, 8)] ++ l) with
    queues := [(15 * 1024 + 1023, { linked := [⟨w.map (·, false), false, false⟩] })], seqs := [(127, x)] }
/-- A header of an opcode and a length, with TAG 7. -/
def hd (op len : Nat) : Word := Word.ofNat (op + len * 2 ^ 8 + 7 * 2 ^ 40)
/-- The command that a sequencer is offered, read as a check. -/
def offersB (c : Chip) (cl : Nat) (w : List Word) : Bool :=
  c.seqRuns cl && !(c.seq cl).skipSeal && (c.seq cl).fuse.isNone && c.head cl == some (w.map (·, false)) &&
    decodeStatus w w.length (regionOfCl cl) none == stOK && (c.seq cl).mayIssue (w.headD 0)
theorem offers_of (c : Chip) (cl : Nat) (w : List Word) (h : offersB c cl w = true) : c.offers cl w := by
  simp only [offersB, Bool.and_eq_true, Bool.not_eq_true', beq_iff_eq, Option.isNone_iff_eq_none] at h
  obtain ⟨⟨⟨⟨⟨h1, h2⟩, h3⟩, h4⟩, h5⟩, h6⟩ := h
  exact ⟨h1, h2, h3, h4, h5, h6⟩

/-- One step of cmdPhaseFull, its results from the rules that its meaning cites. -/
theorem test_step_cmdPhaseFull :
    (let w : List Word := [hd 8 2, 0x101]; let s := st { sq w {  } [(.CLU_SEQ_CTL_EN, 120, 0, 1)] with up := 0 }; let cl := 127; match execCmdPhaseFull cl s with | .next t => decide ((t.chip.seq cl).agreeId = 0 ∧ (t.chip.seq cl).lastTag = 7 ∧ (t.chip.seq cl).nextId = 1 ∧ (t.chip.seq cl).agree = .full ∧ (t.chip.seq cl).phase = 1 ∧ t.chip.g .SEAL_STAT_BOUNDARY 15 = 1) | _ => false) = true := by
  decide +kernel

/-- One step of cmdChain, its results from the rules that its meaning cites. -/
theorem test_step_cmdChain :
    (let w : List Word := ([hd 0x11 26, 0, Word.ofNat (2 ^ 52 + 2 ^ 48)] ++ List.replicate 11 0 ++ [Word.ofNat (0x60 + 2 ^ 29)] ++ List.replicate 11 0); let s := st { sq w {  } [] with up := 0 }; let c := s.chip; let cl := 127; match execCmdChain cl s with | .next t => decide ((t.chip.seq cl).nextId = (c.seq cl).nextId + 1 ∧ (t.chip.seq cl).lastTag = 7 ∧ t.chip.g .CLU_SEQ_CNT_COUNT cl = 1 ∧ t.chip.g .CLU_SEQ_STICKY_BAD_CMD cl = 1 ∧ t.chip.g .VEC_STICKY_BAD_DESC 1016 = 1 ∧ t.chip.g .VEC_CNT_CHAIN_COUNT 1016 = 1) | _ => false) = true := by
  decide +kernel

/-- One step of cmdSched, its results from the rules that its meaning cites. -/
theorem test_step_cmdSched :
    (let w : List Word := [hd 7 3, Word.ofNat (0x01000000 + 2 ^ 32), 0]; let s := st { sq w {  } [] with up := 0, mem := (List.range 32).map (fun i => (regionKey 15 i, (bytesOf [1, 2, 3, 0x80000000]).getD i 0)) |>.filter (fun x => x.2 != 0) }; let c := s.chip; let cl := 127; match execCmdSched cl s with | .next t => decide ((t.chip.seq cl).nextId = (c.seq cl).nextId + 1 ∧ (t.chip.seq cl).lastTag = 7 ∧ t.chip.g .CLU_SEQ_CNT_COUNT cl = 1 ∧ t.chip.g .CLU_SEQ_SCHED_VALUE cl 2 = 2 ∧ t.chip.g .CLU_SEQ_SCHED_VALUE cl 6 = 0) | _ => false) = true := by
  decide +kernel

/-- One step of cmdPhaseGate, its results from the rules that its meaning cites. -/
theorem test_step_cmdPhaseGate :
    (let w : List Word := [hd 8 2, 4]; let s := st { sq w {  } [] with up := 0 }; let cl := 127; match execCmdPhaseGate cl s with | .next t => decide ((t.chip.seq cl).agreeId = 0 ∧ (t.chip.seq cl).lastTag = 7 ∧ (t.chip.seq cl).nextId = 1 ∧ (t.chip.seq cl).agree = .gate ∧ (t.chip.seq cl).phase = 4) | _ => false) = true := by
  decide +kernel

/-- Operands and states that meet the hypotheses of SequencerOwnCommands, clause by clause. -/
theorem test_hyps_SequencerOwnCommands :
    (let w : List Word := [hd 0 1]; let s := st { sq w {  } [] with up := 0 }; let c := s.chip; let cl := 127; decide (offersB c cl w = true ∧ isOp 0x00 w = true)) = true ∧
    (let w : List Word := [hd 6 3, 127, 0]; let s := st { sq w {  } [(⟨.CLU_SEQ_RTN, 63, 63⟩, 127, 63, 1)] with up := 0 }; let c := s.chip; let cl := 127; decide (offersB c cl w = true ∧ isOp 0x06 w = true ∧ wbit (wordAt w 1) 6 = true ∧ (c.seq cl).stack = [])) = true ∧
    (let w : List Word := [hd 6 3, 64, 0]; let s := st { sq w { stack := [⟨5, 0, 0, 0, 0⟩] } [(⟨.CLU_SEQ_RTN, 31, 0⟩, 127, 5, 0x01000000), (⟨.CLU_SEQ_RTN, 54, 32⟩, 127, 5, 3), (⟨.CLU_SEQ_RTN, 63, 63⟩, 127, 5, 1)] with up := 0, mem := (List.range 24).map (fun i => (regionKey 15 i, (bytesOf [hd 6 3, 64, 0]).getD i 0)) |>.filter (fun x => x.2 != 0) }; let c := s.chip; let cl := 127; decide (offersB c cl w = true ∧ isOp 0x06 w = true ∧ (c.seq cl).stack ≠ [])) = true ∧
    (let w : List Word := [hd 6 3, 63, Word.ofNat (0x01000000 + 2 ^ 32)]; let s := st { sq w {  } [] with up := 0, mem := (List.range 8).map (fun i => (regionKey 15 i, (bytesOf [hd 0 1]).getD i 0)) |>.filter (fun x => x.2 != 0) }; let c := s.chip; let cl := 127; decide (offersB c cl w = true ∧ isOp 0x06 w = true ∧ wbit (wordAt w 1) 6 = false ∧ (c.seq cl).stack = [] ∧ c.inArea 15 0 8 = false ∧ checkRoutine (wordsOf 1 (c.bytes (regionKey 15 0) 8)) 15 2 0 none = none)) = true ∧
    (let w : List Word := [hd 6 3, 63, Word.ofNat (0x01000000 + 2 ^ 32)]; let s := st { sq w {  } [] with up := 0, mem := (List.range 8).map (fun i => (regionKey 15 i, (bytesOf [hd 0xFF 1]).getD i 0)) |>.filter (fun x => x.2 != 0) }; let c := s.chip; let cl := 127; decide (offersB c cl w = true ∧ checkRoutine (wordsOf 1 (c.bytes (regionKey 15 0) 8)) 15 2 0 none ≠ none)) = true ∧
    (let w : List Word := [hd 7 3, 0, 0]; let s := st { sq w {  } [] with up := 0 }; let c := s.chip; let cl := 127; decide (offersB c cl w = true ∧ isOp 0x07 w = true ∧ wbits (wordAt w 1) 55 32 = 0)) = true ∧
    (let w : List Word := [hd 7 3, Word.ofNat (0x01000000 + 2 ^ 32), 0]; let s := st { sq w {  } [] with up := 0, mem := (List.range 32).map (fun i => (regionKey 15 i, (bytesOf [1, 2, 3, 0x80000000]).getD i 0)) |>.filter (fun x => x.2 != 0) }; let c := s.chip; let cl := 127; decide (offersB c cl w = true ∧ isOp 0x07 w = true ∧ 0 < wbits (wordAt w 1) 55 32 ∧ c.inArea 15 0 32 = false)) = true := by
  decide +kernel

/-- Operands and states that meet the hypotheses of CompletionRecord, clause by clause. -/
theorem test_hyps_CompletionRecord :
    (let o : OutCmd := { id := 3, hdr := hd 0x12 6 + 2 ^ 18 + Word.ofNat (1023 * 2 ^ 19), step := 5, lepoch := 2, left := 0, parts := [{ order := 0, status := 1, flags := 2 }] }; let s := st (sq [hd 0 1] { outst := [o], nextId := 4 } []); let c := s.chip; let cl := 127; decide ((c.seq cl).outst.find? (fun o => o.id == 3 && o.isOpen && !o.isCall) = some o ∧ (c.upd (c.partOfCl cl)).moves.find? (fun v => v.cl == cl && v.id == 3) = none ∧ o.left = 0 ∧ (c.seq cl).outst = [o] ∧ hdrCpl o.hdr = true ∧ (mergeParts o.parts).status < 32 ∧ c.on .QP_QCFG_EN 15 (hdrCq o.hdr) = true ∧ (c.queue 15 (hdrCq o.hdr)).broken = false)) = true ∧
    (let o : OutCmd := { id := 3, hdr := hd 0x12 6, step := 5, lepoch := 2, left := 1, parts := [{ order := 0, status := 1, flags := 2 }] }; let s := st (sq [hd 0 1] { outst := [o], nextId := 4 } []); let c := s.chip; let cl := 127; decide ((c.seq cl).outst.find? (fun o => o.id == 3 && o.isOpen && !o.isCall) = some o ∧ (c.upd (c.partOfCl cl)).moves.find? (fun v => v.cl == cl && v.id == 3) = none ∧ o.left ≠ 0 ∧ hdrOp o.hdr ≠ 0x04)) = true := by
  decide +kernel

/-- Operands and states that meet the hypotheses of WaitingAndSignalling, clause by clause. -/
theorem test_hyps_WaitingAndSignalling :
    (let w : List Word := [hd 3 2, 1023]; let s := st { sq w {  } [] with up := 0 }; let c := s.chip; let cl := 127; decide (offersB c cl w = true ∧ isOp 0x03 w = true ∧ ¬ (c.on .QP_QCFG_EN 15 (wbits (wordAt w 1) 9 0) = true ∧ c.g .QP_QCFG_CKIND 15 (wbits (wordAt w 1) 9 0) = 0 ∧ c.g .QP_QCFG_CIDX 15 (wbits (wordAt w 1) 9 0) = cl % 8 ∧ wbits (wordAt w 1) 9 0 ≠ c.g .CLU_SEQ_CTL_CMDQ cl))) = true ∧
    (let w : List Word := [hd 3 2, 0]; let s := st { sq w {  } [(.QP_QCFG_EN, 15, 0, 1), (.QP_QCFG_CIDX, 15, 0, 7), (.QP_QCFG_MAX_CELLS, 15, 0, 8)] with up := 0 }; let c := s.chip; let cl := 127; decide (offersB c cl w = true ∧ isOp 0x03 w = true ∧ (c.on .QP_QCFG_EN 15 (wbits (wordAt w 1) 9 0) = true ∧ c.g .QP_QCFG_CKIND 15 (wbits (wordAt w 1) 9 0) = 0 ∧ c.g .QP_QCFG_CIDX 15 (wbits (wordAt w 1) 9 0) = cl % 8 ∧ wbits (wordAt w 1) 9 0 ≠ c.g .CLU_SEQ_CTL_CMDQ cl) ∧ wbits (wordAt w 1) 25 10 = 0)) = true ∧
    (let w : List Word := [hd 3 2, 1024]; let s := st { sq w {  } [(.QP_QCFG_EN, 15, 0, 1), (.QP_QCFG_CIDX, 15, 0, 7), (.QP_QCFG_MAX_CELLS, 15, 0, 8)] with up := 0 }; let c := s.chip; let cl := 127; decide (offersB c cl w = true ∧ isOp 0x03 w = true ∧ (c.on .QP_QCFG_EN 15 (wbits (wordAt w 1) 9 0) = true ∧ c.g .QP_QCFG_CKIND 15 (wbits (wordAt w 1) 9 0) = 0 ∧ c.g .QP_QCFG_CIDX 15 (wbits (wordAt w 1) 9 0) = cl % 8 ∧ wbits (wordAt w 1) 9 0 ≠ c.g .CLU_SEQ_CTL_CMDQ cl) ∧ 0 < wbits (wordAt w 1) 25 10)) = true ∧
    (let w : List Word := [hd 4 2, 14]; let s := st { sq w {  } [] with up := 0 }; let c := s.chip; let cl := 127; decide (offersB c cl w = true ∧ isOp 0x04 w = true ∧ c.owns (c.partOfCl cl) 14 = false ∧ c.faultQueue (.part (c.partOfCl cl)) = none)) = true ∧
    (let w : List Word := [hd 4 2, 15]; let s := st { sq w {  } [] with up := 0 }; let c := s.chip; let cl := 127; decide (offersB c cl w = true ∧ isOp 0x04 w = true ∧ c.owns (c.partOfCl cl) 15 = true ∧ c.on .QP_QCFG_EN 15 0 = false)) = true ∧
    (let w : List Word := [hd 4 2, 15]; let s := st { sq w {  } [(.QP_QCFG_EN, 15, 0, 1), (.QP_QCFG_CIDX, 15, 0, 7), (.QP_QCFG_MAX_CELLS, 15, 0, 8)] with up := 0 }; let c := s.chip; let cl := 127; let d := c.advanceCmd cl w; decide (offersB c cl w = true ∧ isOp 0x04 w = true ∧ c.owns (c.partOfCl cl) 15 = true ∧ c.on .QP_QCFG_EN 15 0 = true ∧ wbits (wordAt w 1) 17 14 = 0 ∧ (d.queue 15 0).broken = false ∧ (d.queue 15 0).opens = [] ∧ (d.queue 15 0).waiting = [] ∧ (d.queue 15 0).skip = [] ∧ d.canCell 15 0 = true)) = true ∧
    (let w : WaitQ := { id := 0, queue := 0, count := 1, stale := false }; let s := st { sq [] { waitqs := [w], outst := [{ id := 0, hdr := hd 3 2, step := 1, lepoch := 0, left := 1 }] } [(.QP_QCFG_EN, 15, 0, 1), (.QP_QCFG_CIDX, 15, 0, 7), (.QP_QCFG_MAX_CELLS, 15, 0, 8)] with queues := [(15 * 1024, { linked := [⟨[(1, false)], false, false⟩] })] }; let c := s.chip; let cl := 127; let x := c.queue 15 0; decide ((c.seq cl).waitqs = [w] ∧ w.got < w.count ∧ x.broken = false ∧ (x.linked.all (fun k => k.words.all (fun y => !y.2))) = true ∧ w.poison = false ∧ w.count ≤ w.got + x.linked.length)) = true ∧
    (let w : WaitQ := { id := 0, queue := 0, count := 2, stale := false }; let s := st { sq [] { waitqs := [w], outst := [{ id := 0, hdr := hd 3 2, step := 1, lepoch := 0, left := 1 }] } [(.QP_QCFG_EN, 15, 0, 1), (.QP_QCFG_CIDX, 15, 0, 7), (.QP_QCFG_MAX_CELLS, 15, 0, 8)] with queues := [(15 * 1024, { linked := [⟨[(1, false)], false, false⟩] })] }; let c := s.chip; let cl := 127; let x := c.queue 15 0; decide ((c.seq cl).waitqs = [w] ∧ w.got < w.count ∧ x.broken = false ∧ (x.linked.all (fun k => k.words.all (fun y => !y.2))) = true ∧ w.poison = false ∧ w.got + x.linked.length < w.count ∧ w.stale = false)) = true ∧
    (let w : WaitQ := { id := 0, queue := 0, count := 2, stale := true }; let s := st { sq [] { waitqs := [w], outst := [{ id := 0, hdr := hd 3 2, step := 1, lepoch := 0, left := 1 }] } [(.QP_QCFG_EN, 15, 0, 1), (.QP_QCFG_CIDX, 15, 0, 7), (.QP_QCFG_MAX_CELLS, 15, 0, 8)] with queues := [(15 * 1024, { linked := [⟨[(1, false)], false, false⟩] })] }; let c := s.chip; let cl := 127; let x := c.queue 15 0; decide ((c.seq cl).waitqs = [w] ∧ w.got < w.count ∧ x.broken = false ∧ (x.linked.all (fun k => k.words.all (fun y => !y.2))) = true ∧ w.poison = false ∧ w.got + x.linked.length < w.count ∧ w.stale = true)) = true := by
  decide +kernel

/-- Operands and states that meet the hypotheses of CallsAndReturns, clause by clause. -/
theorem test_hyps_CallsAndReturns :
    (let w : List Word := [hd 5 2, 5]; let s := st { sq w {  } [] with up := 0 }; let c := s.chip; let cl := 127; decide (offersB c cl w = true ∧ isOp 0x05 w = true ∧ wbit (c.rd .CLU_SEQ_RTN cl 5) 63 = false)) = true ∧
    (let w : List Word := [hd 5 2, 5]; let s := st { sq w {  } [(⟨.CLU_SEQ_RTN, 31, 0⟩, 127, 5, 0x01000000), (⟨.CLU_SEQ_RTN, 54, 32⟩, 127, 5, 3), (⟨.CLU_SEQ_RTN, 63, 63⟩, 127, 5, 1)] with up := 0 }; let c := s.chip; let cl := 127; decide (offersB c cl w = true ∧ isOp 0x05 w = true ∧ wbit (c.rd .CLU_SEQ_RTN cl 5) 63 = true ∧ (c.seq cl).stack.length < 4)) = true ∧
    (let w : List Word := [hd 5 2, 5]; let s := st { sq w { stack := List.replicate 4 ⟨5, 0, 0, 0, 0⟩ } [(⟨.CLU_SEQ_RTN, 31, 0⟩, 127, 5, 0x01000000), (⟨.CLU_SEQ_RTN, 54, 32⟩, 127, 5, 3), (⟨.CLU_SEQ_RTN, 63, 63⟩, 127, 5, 1)] with up := 0, mem := (List.range 16).map (fun i => (regionKey 15 i, (bytesOf [hd 5 2, 5]).getD i 0)) |>.filter (fun x => x.2 != 0) }; let c := s.chip; let cl := 127; decide (offersB c cl w = true ∧ isOp 0x05 w = true ∧ wbit (c.rd .CLU_SEQ_RTN cl 5) 63 = true ∧ 4 ≤ (c.seq cl).stack.length)) = true ∧
    (let w : List Word := []; let s := st { sq w { stack := [⟨5, 3, 0, 0, 0⟩] } [(⟨.CLU_SEQ_RTN, 31, 0⟩, 127, 5, 0x01000000), (⟨.CLU_SEQ_RTN, 54, 32⟩, 127, 5, 3), (⟨.CLU_SEQ_RTN, 63, 63⟩, 127, 5, 1)] with up := 0 }; let c := s.chip; let cl := 127; decide (c.seqRuns cl = true ∧ c.routineLen cl 5 ≤ 3)) = true ∧
    (let w : List Word := []; let s := st { sq w { stack := [⟨5, 2, 0, 0, 0⟩] } [(⟨.CLU_SEQ_RTN, 31, 0⟩, 127, 5, 0x01000000), (⟨.CLU_SEQ_RTN, 54, 32⟩, 127, 5, 3), (⟨.CLU_SEQ_RTN, 63, 63⟩, 127, 5, 1)] with up := 0 }; let c := s.chip; let cl := 127; decide (2 < c.routineLen cl 5)) = true ∧
    (let w : List Word := []; let s := st { sq w {  } [] with up := 0 }; let c := s.chip; let cl := 127; decide ((c.seq cl).stack = [])) = true ∧
    (let s := st { sq [] { stack := [⟨5, 0, 1, 0, 0⟩] } [(⟨.CLU_SEQ_RTN, 31, 0⟩, 127, 5, 0x01000000), (⟨.CLU_SEQ_RTN, 54, 32⟩, 127, 5, 3), (⟨.CLU_SEQ_RTN, 63, 63⟩, 127, 5, 1)] with poison := [(granule (regionKey 15 0), true)] }; let c := s.chip; let cl := 127; decide (c.seqRuns cl = true ∧ (c.seq cl).fuse = none ∧ c.head cl = some ((0, true) :: []))) = true ∧
    (let s := st { sq [] {} [] with queues := [(15 * 1024 + 1023, { linked := [⟨[(0, true)], false, false⟩] })] }; let c := s.chip; let cl := 127; decide (c.seqRuns cl = true ∧ (c.seq cl).fuse = none ∧ c.head cl = some ((0, true) :: []))) = true := by
  decide +kernel

/-- Operands and states that meet the hypotheses of SequencerHaltsAndResumes, clause by clause. -/
theorem test_hyps_SequencerHaltsAndResumes_1 :
    (let w : List Word := []; let s := st { sq w {  } [] with up := 0 }; let c := s.chip; let cl := 127; decide (c.reaches .rm .CLU_SEQ_CMD cl = true)) = true ∧
    (let w : List Word := []; let s := st { sq w { halt := 1 } [] with up := 0 }; let c := s.chip; let cl := 127; let x := c.seq cl; decide (c.reaches .rm .CLU_SEQ_CMD cl = true ∧ (x.halt = 1 ∨ x.halt = 2 ∨ x.halt = 3 ∨ (x.halt = 8 ∧ c.cmdqOk cl = true)))) = true ∧
    (let w : List Word := []; let s := st { sq w { halt := 3 } [] with up := 0 }; let c := s.chip; let cl := 127; let x := c.seq cl; decide (c.reaches .rm .CLU_SEQ_CMD cl = true ∧ (x.halt = 1 ∨ x.halt = 2 ∨ x.halt = 3 ∨ (x.halt = 8 ∧ c.cmdqOk cl = true)))) = true ∧
    (let w : List Word := []; let s := st { sq w { halt := 8 } [] with up := 0 }; let c := s.chip; let cl := 127; let x := c.seq cl; decide (c.reaches .rm .CLU_SEQ_CMD cl = true ∧ (x.halt = 1 ∨ x.halt = 2 ∨ x.halt = 3 ∨ (x.halt = 8 ∧ c.cmdqOk cl = true)))) = true ∧
    (let w : List Word := []; let s := st { sq w { halt := 5 } [] with up := 0 }; let c := s.chip; let cl := 127; let x := c.seq cl; decide (c.reaches .rm .CLU_SEQ_CMD cl = true ∧ (x.halt = 0 ∨ x.halt = 5 ∨ x.halt = 6 ∨ x.halt = 7 ∨ (x.halt = 8 ∧ c.cmdqOk cl = false) ∨ (x.halt = 4 ∧ c.available cl = [])))) = true ∧
    (let w : List Word := []; let s := st { sq w { halt := 8 } [(.QP_QCFG_EN, 15, 1023, 0)] with up := 0 }; let c := s.chip; let cl := 127; let x := c.seq cl; decide (c.reaches .rm .CLU_SEQ_CMD cl = true ∧ (x.halt = 0 ∨ x.halt = 5 ∨ x.halt = 6 ∨ x.halt = 7 ∨ (x.halt = 8 ∧ c.cmdqOk cl = false) ∨ (x.halt = 4 ∧ c.available cl = [])))) = true ∧
    (let w : List Word := []; let s := st { sq w { halt := 4 } [(.CLU_SEQ_CTL_UMASK, 127, 0, 0)] with up := 0 }; let c := s.chip; let cl := 127; let x := c.seq cl; decide (c.reaches .rm .CLU_SEQ_CMD cl = true ∧ (x.halt = 0 ∨ x.halt = 5 ∨ x.halt = 6 ∨ x.halt = 7 ∨ (x.halt = 8 ∧ c.cmdqOk cl = false) ∨ (x.halt = 4 ∧ c.available cl = [])))) = true ∧
    (let w : List Word := []; let s := st { sq w {  } [] with up := 0 }; let c := s.chip; let cl := 127; decide (c.reaches (.vf 0 1) .CLU_SEQ_CMD cl = false)) = true ∧
    (let w : List Word := []; let s := st { sq w {  } [(.CLU_SEQ_CMD_STOP, 127, 0, 1)] with up := 0 }; let c := s.chip; let cl := 127; decide (c.g .CLU_SEQ_CMD_STOP cl = 1 ∧ (c.seq cl).halt = 0 ∧ (c.seq cl).agree = .none)) = true ∧
    (let w : List Word := []; let s := st { sq w {  } [(.QP_QCFG_EN, 15, 1023, 0)] with up := 0 }; let c := s.chip; let cl := 127; decide (c.g .CLU_SEQ_CMD_STOP cl = 0 ∧ (c.seq cl).halt = 0 ∧ c.g .CLU_SEQ_CTL_EN cl = 1 ∧ c.cmdqOk cl = false)) = true ∧
    (let w : List Word := []; let s := st { sq w {  } [] with up := 0 }; let c := s.chip; let cl := 127; decide (c.g .CLU_SEQ_CMD_STOP cl = 0 ∧ ((c.seq cl).halt ≠ 0 ∨ c.g .CLU_SEQ_CTL_EN cl = 0 ∨ c.cmdqOk cl = true))) = true ∧
    (let s := st { sq [] {} [] with queues := [(15 * 1024 + 1023, { linked := [⟨[(0, false)], true, false⟩] })] }; let c := s.chip; let cl := 127; decide (c.seqRuns cl = true ∧ (c.seq cl).stack = [] ∧ c.cmdqOk cl = true ∧ (c.queue 15 1023).broken = false ∧ ∃ k ∈ (c.queue 15 1023).linked, k.null = true)) = true := by
  decide +kernel

/-- Operands and states that meet the hypotheses of SequencerHaltsAndResumes, clause by clause. -/
theorem test_hyps_SequencerHaltsAndResumes_2 :
    (let s := st { sq [] {} [] with queues := [(15 * 1024 + 1023, { broken := true })] }; let c := s.chip; let cl := 127; decide (c.seqRuns cl = true ∧ (c.seq cl).stack = [] ∧ c.cmdqOk cl = true ∧ (c.queue 15 1023).broken = true ∧ (c.queue 15 1023).rd = 0)) = true := by
  decide +kernel

/-- Operands and states that meet the hypotheses of PhasesAndAgreements, clause by clause. -/
theorem test_hyps_PhasesAndAgreements :
    (let w : List Word := [hd 8 2, 5]; let s := st { sq w {  } [] with up := 0 }; let c := s.chip; let cl := 127; decide (offersB c cl w = true ∧ (c.seq cl).allEnded = true ∧ c.freeArms cl = [] ∧ (c.pressOf cl).wait = [] ∧ isOp 0x08 w = true ∧ phCode w ≠ 4 ∧ phFull w = false)) = true ∧
    (let w : List Word := [hd 8 2, 4]; let s := st { sq w {  } [] with up := 0 }; let c := s.chip; let cl := 127; decide (offersB c cl w = true ∧ (c.seq cl).allEnded = true ∧ c.freeArms cl = [] ∧ (c.pressOf cl).wait = [] ∧ isOp 0x08 w = true ∧ phCode w = 4 ∧ (c.seq cl).gated = false)) = true ∧
    (let w : List Word := [hd 8 2, 4]; let s := st { sq w { gated := true } [] with up := 0 }; let c := s.chip; let cl := 127; decide (offersB c cl w = true ∧ (c.seq cl).allEnded = true ∧ c.freeArms cl = [] ∧ (c.pressOf cl).wait = [] ∧ isOp 0x08 w = true ∧ phCode w = 4 ∧ (c.seq cl).gated = true)) = true ∧
    (let w : List Word := [hd 8 2, 0x101]; let s := st { sq w {  } [(.CLU_SEQ_CTL_EN, 120, 0, 1)] with up := 0 }; let c := s.chip; let cl := 127; decide (offersB c cl w = true ∧ (c.seq cl).allEnded = true ∧ c.freeArms cl = [] ∧ (c.pressOf cl).wait = [] ∧ isOp 0x08 w = true ∧ phCode w ≠ 4 ∧ phFull w = true ∧ (c.seq cl).gated = false ∧ ∃ k ∈ c.enrolled 15, k ≠ cl ∧ (c.seq k).agree = .none)) = true ∧
    (let w : List Word := [hd 8 2, 0x101]; let s := st { sq w { gated := true } [] with up := 0 }; let c := s.chip; let cl := 127; decide (offersB c cl w = true ∧ (c.seq cl).allEnded = true ∧ c.freeArms cl = [] ∧ (c.pressOf cl).wait = [] ∧ phCode w ≠ 4 ∧ phFull w = true ∧ (c.seq cl).gated = true)) = true ∧
    (let w : List Word := [hd 9 2, Word.ofNat (1 + 15 * 2 ^ 16)]; let s := st { sq w {  } [(.CLU_SEQ_CTL_EN, 120, 0, 1)] with up := 0, maps := [(15, { imgs := [(15, ⟨3 * 2 ^ 60, 0, 0, [0], [], [], [], []⟩)] })] }; let c := s.chip; let cl := 127; decide (offersB c cl w = true ∧ (c.seq cl).allEnded = true ∧ c.freeArms cl = [] ∧ (c.pressOf cl).wait = [] ∧ isOp 0x09 w = true ∧ (c.seq cl).gated = false ∧ 1 = (c.lepoch 15 + 1) % 2 ^ 16 ∧ ((c.mapS 15).img 15).isSome = true ∧ ∃ k ∈ c.enrolled 15, k ≠ cl ∧ (c.seq k).agree = .none)) = true ∧
    (let w : List Word := [hd 9 2, 2]; let s := st { sq w {  } [] with up := 0 }; let c := s.chip; let cl := 127; decide (offersB c cl w = true ∧ (c.seq cl).allEnded = true ∧ c.freeArms cl = [] ∧ (c.pressOf cl).wait = [] ∧ isOp 0x09 w = true ∧ 2 ≠ (c.lepoch 15 + 1) % 2 ^ 16)) = true ∧
    (let w : List Word := [hd 10 4, 1, 0, 0]; let s := st { sq w {  } [] with up := 0 }; let c := s.chip; let cl := 127; decide (offersB c cl w = true ∧ (c.seq cl).allEnded = true ∧ c.freeArms cl = [] ∧ (c.pressOf cl).wait = [] ∧ isOp 0x0A w = true ∧ wbits (wordAt w 1) 47 0 = c.step 15 ∧ wbits (wordAt w 1) 51 48 = 0)) = true ∧
    (let w : List Word := [hd 10 4, 2, 0, 0]; let s := st { sq w {  } [] with up := 0 }; let c := s.chip; let cl := 127; decide (offersB c cl w = true ∧ (c.seq cl).allEnded = true ∧ c.freeArms cl = [] ∧ (c.pressOf cl).wait = [] ∧ isOp 0x0A w = true ∧ wbits (wordAt w 1) 47 0 ≠ c.step 15)) = true := by
  decide +kernel

/-- Operands and states that meet the hypotheses of TransfersCopy, clause by clause. -/
theorem test_hyps_TransfersCopy :
    (let w : List Word := [hd 0x12 6, Word.ofNat (0), Word.ofNat (0), Word.ofNat (1 + 0 * 2 ^ 24), 0, 0]; let s := st { sq w {  } [] with up := 0 }; let c := s.chip; let cl := 127; decide (offersB c cl w = true ∧ isOp 0x12 w = true ∧ (xfRows w = 0 ∨ xfRowBytes w = 0))) = true ∧
    (let w : List Word := [hd 0x12 6, Word.ofNat (2 ^ 60), Word.ofNat ((2 ^ 60 + 15 * 2 ^ 32 + 64)), Word.ofNat (1 + 64 * 2 ^ 24), 0, 0]; let s := st { sq w {  } [] with up := 0 }; let c := s.chip; let cl := 127; decide (offersB c cl w = true ∧ isOp 0x12 w = true ∧ xfRows w ≠ 0 ∧ xfRowBytes w ≠ 0 ∧ ¬ (∀ x ∈ xfRowList w, c.tierOk 15 x.1 64 = true ∧ c.tierOk 15 x.2 64 = true ∧ inEngineReach 15 x.1 = true ∧ inEngineReach 15 x.2 = true))) = true ∧
    (let w : List Word := [hd 0x12 6, Word.ofNat ((2 ^ 60 + 15 * 2 ^ 32 + 0)), Word.ofNat ((2 ^ 60 + 15 * 2 ^ 32 + 64)), Word.ofNat (1 + 64 * 2 ^ 24), 0, 0]; let s := st { sq w {  } [] with up := 0 }; let c := s.chip; let cl := 127; decide (offersB c cl w = true ∧ isOp 0x12 w = true ∧ xfRows w ≠ 0 ∧ xfRowBytes w ≠ 0 ∧ (∀ x ∈ xfRowList w, c.tierOk 15 x.1 64 = true ∧ c.tierOk 15 x.2 64 = true ∧ inEngineReach 15 x.1 = true ∧ inEngineReach 15 x.2 = true) ∧ (∀ x ∈ xfRowList w, c.rowInRoutine x.2 64 = false ∧ c.fenceHit 15 x.2 64 = none) ∧ rowsOverlap 64 (xfRowList w) = false)) = true ∧
    (let w : List Word := [hd 0x12 6, Word.ofNat ((2 ^ 60 + 15 * 2 ^ 32 + 0)), Word.ofNat ((2 ^ 60 + 15 * 2 ^ 32 + 64)), Word.ofNat (1 + 64 * 2 ^ 24), 0, 0]; let x : XferJob := { cl := 127, id := 0, words := w, accepted := false }; let s := st { sq [] {} [] with xfers := [(15, [x])], mem := [(regionKey 15 0, 7)] }; let c := s.chip; decide ((sget [] c.xfers 15)[0]? = some x ∧ x.accepted = false ∧ c.slotsUsed 15 < 16)) = true ∧
    (let w : List Word := [hd 0x12 6, Word.ofNat ((2 ^ 60 + 15 * 2 ^ 32 + 0)), Word.ofNat ((2 ^ 60 + 15 * 2 ^ 32 + 64)), Word.ofNat (1 + 64 * 2 ^ 24), 0, 0]; let x : XferJob := { cl := 127, id := 0, words := w, accepted := false }; let s := st { sq [] {} [] with xfers := [(15, List.replicate 16 { x with accepted := true } ++ [x])], mem := [(regionKey 15 0, 7)] }; let c := s.chip; decide ((sget [] c.xfers 15)[16]? = some x ∧ 16 ≤ c.slotsUsed 15)) = true ∧
    (let w : List Word := [hd 0x12 6, Word.ofNat ((2 ^ 60 + 15 * 2 ^ 32 + 0)), Word.ofNat ((2 ^ 60 + 15 * 2 ^ 32 + 64)), Word.ofNat (1 + 64 * 2 ^ 24), 0, 0]; let x : XferJob := { cl := 127, id := 0, words := w, accepted := true }; let s := st { sq [] {} [] with xfers := [(15, [x])], mem := [(regionKey 15 0, 7)] }; let c := s.chip; let a := 2 ^ 60 + 15 * 2 ^ 32; let b := a + 64; decide ((sget [] c.xfers 15)[0]? = some x ∧ x.accepted = true ∧ xfGranules x.words = [(a, b)] ∧ bits a 63 60 < 4 ∧ bits b 63 60 < 4 ∧ c.tierKey (c.partOfCl x.cl) a = some (regionKey 15 0) ∧ c.tierKey (c.partOfCl x.cl) b = some (regionKey 15 64))) = true := by
  decide +kernel

/-- Operands and states that meet the hypotheses of ProductsIssued, clause by clause. -/
theorem test_hyps_ProductsIssued :
    (let w : List Word := ([hd 0x10 14, Word.ofNat (64 + 32 * 2 ^ 24 + 1 * 2 ^ 61), 0, Word.ofNat (15 * 2 ^ 16)] ++ List.replicate 10 0); let s := st { sq w {  } [] with up := 0 }; let c := s.chip; let cl := 127; decide ((c.pressOf cl).wait = [] ∧ (∀ e ∈ (c.pressOf cl).ents, e.2.arm ≠ some (c.seq cl).nextId) ∧ offersB c cl w = true ∧ isOp 0x10 w = true ∧ mmDest w = 1)) = true ∧
    (let w : List Word := ([hd 0x10 14, Word.ofNat (64 + 32 * 2 ^ 24 + 2 * 2 ^ 61), 0, Word.ofNat (1 + 2 ^ 8 + 3 * 2 ^ 16)] ++ List.replicate 10 0); let s := st { sq w {  } [] with up := 0 }; let c := s.chip; let cl := 127; decide ((c.pressOf cl).wait = [] ∧ (∀ e ∈ (c.pressOf cl).ents, e.2.arm ≠ some (c.seq cl).nextId) ∧ offersB c cl w = true ∧ isOp 0x10 w = true ∧ mmDest w = 2 ∧ c.owns (c.partOfCl cl) (mmCreg w) = false)) = true ∧
    (let w : List Word := ([hd 0x10 14, Word.ofNat (65 + 33 * 2 ^ 24 + 0 * 2 ^ 61), 0, Word.ofNat (15 * 2 ^ 16)] ++ List.replicate 10 0); let s := st { sq w {  } [] with up := 0 }; let c := s.chip; let cl := 127; decide ((c.pressOf cl).wait = [] ∧ (∀ e ∈ (c.pressOf cl).ents, e.2.arm ≠ some (c.seq cl).nextId) ∧ offersB c cl w = true ∧ isOp 0x10 w = true ∧ (mmDest w = 0 ∨ (mmDest w = 2 ∧ c.owns (c.partOfCl cl) (mmCreg w) = true)) ∧ c.available cl ≠ [])) = true ∧
    (let w : List Word := ([hd 0x10 14, Word.ofNat (65 + 33 * 2 ^ 24 + 2 * 2 ^ 61), 0, Word.ofNat (2 ^ 8 + 15 * 2 ^ 16)] ++ List.replicate 10 0); let s := st { sq w {  } [] with up := 0 }; let c := s.chip; let cl := 127; decide ((c.pressOf cl).wait = [] ∧ (∀ e ∈ (c.pressOf cl).ents, e.2.arm ≠ some (c.seq cl).nextId) ∧ offersB c cl w = true ∧ isOp 0x10 w = true ∧ (mmDest w = 2 ∧ c.owns (c.partOfCl cl) (mmCreg w) = true) ∧ c.available cl ≠ [])) = true ∧
    (let w : List Word := ([hd 0x10 14, Word.ofNat (65 + 33 * 2 ^ 24 + 0 * 2 ^ 61), 0, Word.ofNat (15 * 2 ^ 16)] ++ List.replicate 10 0); let s := st { sq w {  } [(.CLU_SEQ_CTL_UMASK, 127, 0, 0)] with up := 0 }; let c := s.chip; let cl := 127; decide ((c.pressOf cl).wait = [] ∧ (∀ e ∈ (c.pressOf cl).ents, e.2.arm ≠ some (c.seq cl).nextId) ∧ offersB c cl w = true ∧ isOp 0x10 w = true ∧ mmDest w = 0 ∧ c.available cl = [] ∧ 0 < cdiv (mmM w) 64 * cdiv (mmN w) 32 * mmKsplit w)) = true ∧
    (let w : List Word := ([hd 0x11 26, 0, Word.ofNat (2 ^ 52)] ++ List.replicate 11 0 ++ [0] ++ List.replicate 11 0); let s := st { sq w {  } [] with up := 0 }; let c := s.chip; let cl := 127; decide ((c.pressOf cl).wait = [] ∧ (∀ e ∈ (c.pressOf cl).ents, e.2.arm ≠ some (c.seq cl).nextId) ∧ offersB c cl w = true ∧ isOp 0x11 w = true ∧ (chReds (c.patched cl w)).any sgAcc = false ∧ c.available cl ≠ [])) = true ∧
    (let w : List Word := ([hd 0x11 26, 0, Word.ofNat (2 ^ 52 + 2 ^ 48)] ++ List.replicate 11 0 ++ [Word.ofNat (0x60 + 2 ^ 29)] ++ List.replicate 11 0); let s := st { sq w {  } [] with up := 0 }; let c := s.chip; let cl := 127; decide ((c.pressOf cl).wait = [] ∧ (∀ e ∈ (c.pressOf cl).ents, e.2.arm ≠ some (c.seq cl).nextId) ∧ offersB c cl w = true ∧ isOp 0x11 w = true ∧ (chReds (c.patched cl w)).any sgAcc = true ∧ c.chainUnit cl (c.patched cl w) = none ∧ c.available cl ≠ [])) = true ∧
    (let w : List Word := ([hd 0x11 26, 0, Word.ofNat (64 + 32 * 2 ^ 24)] ++ List.replicate 11 0 ++ [0] ++ List.replicate 11 0); let s := st { sq w { fuse := some ([hd 0x10 14, Word.ofNat (64 + 32 * 2 ^ 24 + 1 * 2 ^ 61), 0, Word.ofNat (15 * 2 ^ 16)] ++ List.replicate 10 0) } [] with up := 0 }; let c := s.chip; let cl := 127; let mm := ((c.seq cl).fuse.getD []); decide ((c.pressOf cl).wait = [] ∧ (∀ e ∈ (c.pressOf cl).ents, e.2.arm ≠ some (c.seq cl).nextId) ∧ c.seqRuns cl = true ∧ (c.seq cl).skipSeal = false ∧ (c.seq cl).fuse = some mm ∧ c.head cl = some (w.map (fun x => (x, false))) ∧ decodeStatus w w.length (regionOfCl cl) (some (mmM mm, mmN mm)) = stOK ∧ (c.seq cl).mayIssue (w.headD 0) = true ∧ pairs mm w = true)) = true := by
  decide +kernel

/-- Unit 1023 of cluster 127, in partition 15, with more fields set. -/
def un (x : UnitS) (l : List (Fld × Nat × Nat × Nat)) : Chip :=
  { chip ([(.PART_OWN_OWNED, 0, 15, 1), (.PART_OWN_OWNER, 0, 15, 15), (.PART_STAT_STATE, 15, 0, 3)] ++ l) with units := [(1023, x)] }
/-- A tile of one row and one column with no contraction, its output at an operand address. -/
def tl (out : Nat) : TileJob := ⟨127, 1023, 0, 0, 0, 0, 0, [0, 1 + 2 ^ 24] ++ List.replicate 8 0 ++ [Word.ofNat out, 0, 0, 0], none, 0⟩
/-- A chain that writes nothing, and one of one element written to an operand address. -/
def ch (en out : Nat) : ChainJob := ⟨127, 0, 0, [Word.ofNat (1 + 2 ^ 24), 0, Word.ofNat (out + en * 2 ^ 56)] ++ List.replicate 21 0, none, false⟩
/-- A Solver tile with passes to run. -/
def so (n : Nat) : STile := ⟨0, 0, 0, [[.one]], [[.one]], n, false, 0, 0, none⟩

/-- An arbitration of unit 1023 by another unit, with one tested row and what that unit found. -/
def ar (v : Option Nat) (rows : Option (Bool × List (Nat × FVal × FVal × FVal))) : Arb :=
  ⟨15, 1023, tl 64, 7, false, [(0, .zero, decodeF fp32 0x3F800000, .zero)], ⟨[], 0, none, none, none, none, 0, true⟩, v, rows, 0, 0, false, none⟩

/-- One step of healthSet, its results from the rules that its meaning cites. -/
theorem test_step_healthSet :
    (let s := st (un { queue := [.tile (tl 0)], bankS := some (so 1) } []); let u := 1023; match execHealthSet u 1 s with | .next t => decide (t.chip.g .MXE_HEALTH_QUAR u = 1 ∧ t.chip.g .INT_CNT_COUNT 0 3 = 1 ∧ (t.chip.unit u).queue = [] ∧ (t.chip.unit u).bankS = none) | _ => false) = true := by
  decide +kernel

/-- One step of tileStart, its results from the rules that its meaning cites. -/
theorem test_step_tileStart :
    (let s := st (un { ahead := [{ kind := .arb, job := tl 0, wbits := 5 }], queue := [.tile (tl 0)] } []); let c := s.chip; let u := 1023; let x := c.unit u; match execTileStart u s with | .next t => decide ((t.chip.unit u).run = x.ahead.head? ∧ (t.chip.unit u).ahead = [] ∧ (t.chip.unit u).queue = x.queue) | _ => false) = true := by
  decide +kernel

/-- One step of solverPassEnd, its results from the rules that its meaning cites. -/
theorem test_step_solverPassEnd :
    (let s := st { un { run := some { kind := .solver (so 2), job := tl 0, wbits := 0 }, queue := [.tile (tl 0)] } [] with solvers := [(15, { slots := [{ ticket := 0, words := [], order := 0, accepted := 0, stage := .iterating }] })] }; let u := 1023; match execSolverPassEnd u s with | .next t => decide (t.chip.g .MXE_CNT_SOLV_COUNT u = 1 ∧ t.chip.g .MXE_CNT_PREEMPT_COUNT u = 1 ∧ (t.chip.unit u).queue = []) | _ => false) = true := by
  decide +kernel

/-- One step of arbitrationOutcome, its results from the rules that its meaning cites. -/
theorem test_step_arbitrationOutcome :
    (let a := ar (some 1022) (some (true, [(0, decodeF fp32 0x3F800000, .zero, .zero)])); let s := st { un {  } [] with arbs := [a] }; let orig := 1023; let r := 15; match execArbitrationOutcome r orig s with | .next t => decide (t.chip.g .INT_RGN_ARB_OUTCOME r = 2 ∧ t.chip.g .INT_RGN_ARB_ARBU r = 1022 ∧ t.chip.g .MXE_HEALTH_QUAR orig = 1) | _ => false) = true := by
  decide +kernel

/-- Operands and states that meet the hypotheses of UnitsRunTiles, clause by clause. -/
theorem test_hyps_UnitsRunTiles :
    (let s := st (un { run := some { kind := .train, job := tl 0, wbits := 0 } } []); let c := s.chip; let u := 1023; let x := c.unit u; decide (x.run ≠ none)) = true ∧
    (let s := st (un { ahead := [{ kind := .arb, job := tl 0, wbits := 5 }], queue := [.tile (tl 0)] } []); let c := s.chip; let u := 1023; let x := c.unit u; decide (x.run = none ∧ c.inService u = true ∧ x.ahead.length = 1)) = true ∧
    (let s := st (un { queue := [.tile (tl 0), .chain (ch 0 0)] } []); let c := s.chip; let u := 1023; let x := c.unit u; decide (x.run = none ∧ c.inService u = true ∧ x.ahead = [] ∧ x.queue = .tile (tl 0) :: [.chain (ch 0 0)])) = true ∧
    (let s := st { un { bankS := some (so 2) } [(.MXE_CTL_LEND, 1023, 0, 1)] with solvers := [(15, { slots := [{ ticket := 0, words := [], order := 0, accepted := 0, stage := .iterating }] })] }; let c := s.chip; let u := 1023; let x := c.unit u; decide (c.solveRuns (regionOfU u) (so 2) = true ∧ ((c.press.all (fun k => k.2.mwait == [])) = true) ∧ x.run = none ∧ x.ahead = [] ∧ x.queue = [] ∧ c.mayLend u = true ∧ x.bankS = some (so 2))) = true ∧
    (let s := st (un { bankS := some (so 2) } [(.MXE_CTL_LEND, 1023, 0, 1), (.MXE_HEALTH_QUAR, 1023, 0, 1)]); let c := s.chip; let u := 1023; let x := c.unit u; decide (x.run = none ∧ (c.inService u = false ∨ (x.ahead = [] ∧ x.queue = [] ∧ c.mayLend u = false)) ∧ ((c.press.all (fun k => k.2.mwait == [])) = true))) = true ∧
    (let s := st (un {  } []); let c := s.chip; let u := 1023; let x := c.unit u; decide (x.run = none)) = true ∧
    (let s := st (un { run := some { kind := .train, job := tl (2 ^ 24 - 3), wbits := 0 } } []); let c := s.chip; let u := 1023; let x := c.unit u; let j := tl (2 ^ 24 - 3); decide (x.run = some { kind := .train, job := j, wbits := 0 } ∧ x.hold = false ∧ j.fused = none ∧ j.redo = 0 ∧ mmDest j.mm = 0 ∧ mmKsplit j.mm = 1 ∧ c.hasRoom (c.partOfCl j.cl) j = true ∧ c.isCancelled j.cl j.id = false ∧ c.tileStatus j ≠ 0)) = true ∧
    (let s := st (un { run := some { kind := .train, job := tl 64, wbits := 0 } } [(.MXE_STICKY_FLAGS, 1023, 0, 32)]); let c := s.chip; let u := 1023; let x := c.unit u; let j := tl 64; decide (x.run = some { kind := .train, job := j, wbits := 0 } ∧ x.hold = false ∧ j.fused = none ∧ j.redo = 0 ∧ mmDest j.mm = 0 ∧ mmKsplit j.mm = 1 ∧ c.hasRoom (c.partOfCl j.cl) j = true ∧ c.isCancelled j.cl j.id = false ∧ c.tileStatus j = 0)) = true ∧
    (let s := st { un { run := some { kind := .solver (so 2), job := tl 0, wbits := 0 } } [(.MXE_CTL_LEND, 1023, 0, 1)] with solvers := [(15, { slots := [{ ticket := 0, words := [], order := 0, accepted := 0, stage := .iterating }] })] }; let c := s.chip; let u := 1023; let x := c.unit u; decide (c.g .MXE_CTL_LEND u = 1 ∧ c.solveRuns (regionOfU u) (so 1) = true ∧ x.run = some { kind := .solver (so 2), job := tl 0, wbits := 0 } ∧ 1 < (so 2).left ∧ c.inService u = true ∧ x.ahead = [] ∧ x.queue = [])) = true ∧
    (let s := st { un { run := some { kind := .solver (so 2), job := tl 0, wbits := 0 }, queue := [.tile (tl 0)] } [] with solvers := [(15, { slots := [{ ticket := 0, words := [], order := 0, accepted := 0, stage := .iterating }] })] }; let c := s.chip; let u := 1023; let x := c.unit u; decide (c.solveRuns (regionOfU u) (so 1) = true ∧ x.run = some { kind := .solver (so 2), job := tl 0, wbits := 0 } ∧ 1 < (so 2).left ∧ c.inService u = true ∧ x.ahead = [] ∧ x.queue = [.tile (tl 0)])) = true := by
  decide +kernel

/-- Operands and states that meet the hypotheses of DisagreementsArbitrated, clause by clause. -/
theorem test_hyps_DisagreementsArbitrated :
    (let a := ar (some 1022) (some (true, [(0, .zero, .zero, .zero)])); let s := st { un {  } [] with arbs := [a] }; let c := s.chip; let orig := 1023; let r := 15; decide (c.arbs.find? (fun a => a.region == r && a.orig == orig && (if a.rewriting then a.rewr.isNone else a.unit.isNone || a.arbRows.isSome)) = some a ∧ a.rewriting = false ∧ a.injected = false ∧ arbRow a = 1)) = true ∧
    (let a := ar (some 1022) (some (true, [(0, decodeF fp32 0x3F800000, .zero, .zero)])); let s := st { un {  } [] with arbs := [a] }; let c := s.chip; let orig := 1023; let r := 15; decide (c.arbs.find? (fun a => a.region == r && a.orig == orig && (if a.rewriting then a.rewr.isNone else a.unit.isNone || a.arbRows.isSome)) = some a ∧ a.rewriting = false ∧ a.injected = false ∧ arbRow a = 2 ∧ a.unit = some 1022 ∧ c.inService 1022 = true)) = true ∧
    (let a := ar (some 1023) (some (false, [])); let s := st { un {  } [] with arbs := [a] }; let c := s.chip; let orig := 1023; let r := 15; decide (c.arbs.find? (fun a => a.region == r && a.orig == orig && (if a.rewriting then a.rewr.isNone else a.unit.isNone || a.arbRows.isSome)) = some a ∧ a.rewriting = false ∧ a.injected = false ∧ arbRow a = 4 ∧ a.unit = some 1023)) = true ∧
    (let a := { ar (some 1023) none with job := tl (2 ^ 24 - 3), rewriting := true, rewr := some 1023 }; let s := st { un { run := some { kind := .rewrite, job := tl (2 ^ 24 - 3), wbits := 0 } } [] with arbs := [a] }; let c := s.chip; let u := 1023; decide ((c.unit u).run = some { kind := .rewrite, job := tl (2 ^ 24 - 3), wbits := 0 } ∧ c.arbs.find? (fun a => decide (a.rewr = some u ∧ a.job = tl (2 ^ 24 - 3) ∧ a.rewriting)) = some a ∧ c.tileStatus (tl (2 ^ 24 - 3)) ≠ 0)) = true ∧
    (let a := { ar (some 1023) none with job := tl 64, rewriting := true, rewr := some 1023 }; let s := st { un { run := some { kind := .rewrite, job := tl 64, wbits := 0 } } [] with arbs := [a] }; let c := s.chip; let u := 1023; decide ((c.unit u).run = some { kind := .rewrite, job := tl 64, wbits := 0 } ∧ c.arbs.find? (fun a => decide (a.rewr = some u ∧ a.job = tl 64 ∧ a.rewriting)) = some a ∧ c.tileStatus (tl 64) = 0)) = true ∧
    (let a := { ar (some 1022) none with rewriting := true }; let s := st { un {  } [] with arbs := [a] }; let c := s.chip; let orig := 1023; let r := 15; decide (c.arbs.find? (fun a => a.region == r && a.orig == orig && (if a.rewriting then a.rewr.isNone else a.unit.isNone || a.arbRows.isSome)) = some a ∧ a.injected = false ∧ a.rewriting = true)) = true ∧
    (let s := st (un {  } []); let c := s.chip; let u := 1023; decide ((c.unit u).run = none)) = true ∧
    (let s := st (un { queue := [.tile (tl 0)], bankS := some (so 1) } []); let c := s.chip; let u := 1023; decide (c.g .MXE_HEALTH_QUAR u = 0)) = true ∧
    (let s := st (un {  } [(.MXE_HEALTH_QUAR, 1023, 0, 1)]); let c := s.chip; let u := 1023; decide (c.g .MXE_HEALTH_QUAR u = 1)) = true ∧
    (let s := st (un { queue := [.tile (tl 0)], bankS := some (so 1) } []); let c := s.chip; let u := 1023; decide (c.g .MXE_HEALTH_CKDEG u = 0)) = true ∧
    (let s := st (un {  } [(.MXE_HEALTH_CKDEG, 1023, 0, 1)]); let c := s.chip; let u := 1023; decide (c.g .MXE_HEALTH_CKDEG u = 1)) = true := by
  decide +kernel

/-- Operands and states that meet the hypotheses of PartialsChainsCensus, clause by clause. -/
theorem test_hyps_PartialsChainsCensus :
    (let q : Partial := { point := 15, pid := 3, i := 0, j := 0, ns := 2, slice := 0, data := none, job := tl 64 }; let s := st { un {} [] with partials := [q] }; let c := s.chip; decide (c.partials[0]? = some q ∧ q.point < 16 ∧ sget [] c.combs q.point = [] ∧ 2 ≤ q.ns ∧ q.slice = 0)) = true ∧
    (let q : Partial := { point := 15, pid := 3, i := 0, j := 0, ns := 2, slice := 1, data := none, job := tl 64 }; let s := st { un {} [] with partials := [q] }; let c := s.chip; decide (c.partials[0]? = some q ∧ q.point < 16 ∧ sget [] c.combs q.point = [] ∧ 2 ≤ q.ns ∧ q.slice ≠ 0)) = true ∧
    (let q : Partial := { point := 15, pid := 3, i := 0, j := 0, ns := 2, slice := 1, data := none, job := tl 64 }; let s := st { un {} [] with partials := [q] }; let c := s.chip; decide (c.partials.length ≤ 1)) = true ∧
    (let s := st (un {  } []); let c := s.chip; let u := 1023; decide (c.chainNow u = none)) = true ∧
    (let s := st (un { queue := [.chain (ch 1 64)], cheld := [⟨1, 2, 0, 5, { elems := 1, zero := 0, sat := 0, nonfin := 0, vanish := 0, under := 0 }⟩] } []); let c := s.chip; let u := 1023; let x := c.unit u; decide (sget [] c.combs (16 + u) = [] ∧ c.chainNow u = some (ch 1 64, none, { x with queue := [] }) ∧ (ch 1 64).counts = true ∧ x.cheld ≠ [])) = true ∧
    (let s := st (un { queue := [.chain (ch 1 (2 ^ 24 - 1))] } []); let c := s.chip; let u := 1023; let x := c.unit u; decide (sget [] c.combs (16 + u) = [] ∧ c.chainNow u = some (ch 1 (2 ^ 24 - 1), none, { x with queue := [] }) ∧ x.cheld = [] ∧ (c.setUnit u { x with queue := [] }).chainStatus u (ch 1 (2 ^ 24 - 1)) ≠ 0)) = true ∧
    (let s := st (un { queue := [.chain (ch 0 0)], cheld := [⟨1, 2, 0, 5, { elems := 1, zero := 0, sat := 0, nonfin := 0, vanish := 0, under := 0 }⟩] } []); let c := s.chip; let u := 1023; let x := c.unit u; decide (sget [] c.combs (16 + u) = [] ∧ c.chainNow u = some (ch 0 0, none, { x with queue := [] }) ∧ (ch 0 0).counts = false)) = true ∧
    (let s := st (un { cheld := [⟨1, 2, 0, 5, { elems := 1, zero := 0, sat := 0, nonfin := 0, vanish := 0, under := 0 }⟩] } [(.VEC_CTL_CENS_EN, 1023, 0, 0)]); let c := s.chip; let u := 1023; decide (c.g .VEC_CTL_CENS_EN u = 0)) = true ∧
    (let s := st (un { cheld := [⟨1, 2, 0, 5, { elems := 1, zero := 0, sat := 0, nonfin := 0, vanish := 0, under := 0 }⟩] } [(.VEC_CTL_CENS_EN, 1023, 0, 1), (.VEC_CTL_CENS_QUEUE, 1023, 0, 1023), (.QP_QCFG_EN, 15, 1023, 1), (.QP_QCFG_MAX_CELLS, 15, 1023, 8)]); let c := s.chip; let u := 1023; let x := c.unit u; decide (c.g .VEC_CTL_CENS_EN u = 1 ∧ x.cheld.length = 1 ∧ ((match c.post 15 1023 ((censusWords (⟨1, 2, 0, 5, { elems := 1, zero := 0, sat := 0, nonfin := 0, vanish := 0, under := 0 }⟩)).map (fun x => (x, false))) with | .linked _ => true | _ => false) = true))) = true := by
  decide +kernel

/-- Lane 127 with a Racking area of 8,128 pages whose page 0 follows every routine, and more fields set. -/
def rk (w : List Word) (x : LaneS) (l : List (Fld × Nat × Nat × Nat)) : Chip :=
  { sq w {} ([(.RACK_CTL_EN, 15, 0, 1), (.RACK_AREA_BASE, 15, 0, 4096), (.RACK_AREA_PAGES, 15, 0, 4032), (.RACK_LANE_CFG_QUOTA, 15, 7, 2),
      (.RACK_LANE_CFG_HPAGES, 15, 7, 2), (.RACK_CTL_SPILL_EN, 15, 0, 1), (.HOSTIF_RWIN_EN, 0, 15, 1), (.HOSTIF_RWINSZ_PAGES, 0, 15, 2)] ++ l) with
    racks := [(127, x)] }
/-- A frame of one row of 64 bytes with TAG 9. -/
def fr (st : FrameSt) (pages : List Nat) : RFrame := { uid := 0, tag := 9, fmt := 0, rows := 1, rbytes := 64, cls := 2, home := 0, st := st, pages := pages }
/-- A RACK command with TAG t on one row of 64 bytes of the region buffer. -/
def rc (act t : Nat) : List Word := [hd 0x24 8, Word.ofNat (act + t * 2 ^ 16), Word.ofNat (2 ^ 24), Word.ofNat (1 + 64 * 2 ^ 24), 0, 0, 0, 0]
/-- A RACK command without a row. -/
def rd (act t : Nat) : List Word := [hd 0x24 8, Word.ofNat (act + t * 2 ^ 16), 0, 0, 0, 0, 0, 0]

/-- Cluster 127 whose Press is on, with a command at its stream position, near tier pages mapped and more state set. -/
def pc (w : List Word) (x : SeqS) (p : PressS) (l : List (Fld × Nat × Nat × Nat)) : Chip :=
  { sq w x ([(.PRS_CFG_EN, 127, 0, 1), (.PART_NTX_VALID, 15, 0, 1)] ++ l) with press := [(127, p)] }
/-- An entry of one sub-tile. -/
def pe (arm : Option Nat) : PEntry :=
  { arm := arm, tag := 7, side := false, block := 5, contrib := 6, pid := 0, doff := 0, dim := 64, tfirst := 0, tcount := 1, sbase := 0
    valid := 0, mask := none }
/-- PRESS ARM of entry 7 with a sub-tile count. -/
def pa (n : Nat) : List Word := [hd 0x23 8, Word.ofNat (7 * 2 ^ 8 + 5 * 2 ^ 16 + 6 * 2 ^ 40), Word.ofNat (2048 * 2 ^ 40), Word.ofNat (n * 2 ^ 10), 0, 0, 0, 0]
/-- PRESS EXPORT of entry 7 to the region buffer. -/
def px : List Word := [hd 0x23 8, Word.ofNat (1 + 7 * 2 ^ 8), Word.ofNat (2 ^ 60 + 15 * 2 ^ 32), 0, 0, 0, 0, 0]
/-- PRESS MERGE of no source into near tier slots. -/
def pm : List Word := [hd 0x23 8, Word.ofNat (2 + 2 * 2 ^ 3), 0, Word.ofNat (2 * 2 ^ 60), Word.ofNat (2 * 2 ^ 60 + 2 ^ 16), 0, Word.ofNat (2 ^ 10 + 64 * 2 ^ 17), 0]

/-- One step of rackPush, its results from the rules that its meaning cites. -/
theorem test_step_rackPush :
    (let w := rc 0 9; let s := st { rk w { drain := true } [] with up := 0, mem := [(regionKey 15 0, 7)] }; let cl := 127; match execRackPush cl s with | .next t => decide ((t.chip.seq cl).nextId = 1 ∧ (t.chip.seq cl).lastTag = 7 ∧ (t.chip.rackLane cl).cmds = [] ∧ (t.chip.rackLane cl).drain = false ∧ t.chip.byte (regionKey 15 (4096 * 4096)) = 7) | _ => false) = true := by
  decide +kernel

/-- One step of pressMerge, its results from the rules that its meaning cites. -/
theorem test_step_pressMerge :
    (let w := pm; let s := st { pc w { gated := true } {  } [] with up := 0, solvers := [(15, { slots := [{ ticket := 0, words := [], order := 0, accepted := 0, stage := .setup, load := some (15, 2 * 2 ^ 60 + 2 ^ 16) }] })] }; let c := s.chip; let cl := 127; match execPressMerge cl s with | .next t => decide ((t.chip.seq cl).nextId = (c.seq cl).nextId + 1 ∧ (t.chip.seq cl).lastTag = 7 ∧ t.chip.g .SOLV_STICKY_MWAIT 15 = 1 ∧ t.chip.g .SOLV_CNT_COUNT 15 5 = 1 ∧ (t.chip.pressOf cl).mwait = [(0, w)]) | _ => false) = true := by
  decide +kernel

/-- One step of rackPop, its results from the rules that its meaning cites. -/
theorem test_step_rackPop :
    (let w := rc 1 9; let s := st { rk w { frames := [fr .resident [4096]], next := 1 } [] with up := 0, mem := [(regionKey 15 (4096 * 4096), 7)] }; let cl := 127; match execRackPop cl s with | .next t => decide ((t.chip.seq cl).nextId = 1 ∧ (t.chip.seq cl).lastTag = 7 ∧ (t.chip.rackLane cl).cmds = [] ∧ t.chip.byte (regionKey 15 0) = 7) | _ => false) = true := by
  decide +kernel

/-- One step of rackPeek, its results from the rules that its meaning cites. -/
theorem test_step_rackPeek :
    (let w := rc 2 9; let s := st { rk w { frames := [fr .resident [4096]], next := 1 } [] with up := 0, mem := [(regionKey 15 (4096 * 4096), 7)] }; let cl := 127; match execRackPeek cl s with | .next t => decide ((t.chip.seq cl).nextId = 1 ∧ (t.chip.seq cl).lastTag = 7 ∧ (t.chip.rackLane cl).cmds = [] ∧ t.chip.byte (regionKey 15 0) = 7) | _ => false) = true := by
  decide +kernel

/-- Operands and states that meet the hypotheses of RackCommands, clause by clause. -/
theorem test_hyps_RackCommands_1 :
    (let w := rc 0 9; let s := st { rk w { drain := true } [] with up := 0, mem := [(regionKey 15 0, 7)] }; let c := s.chip; let cl := 127; let r := 15; let x := c.rackLane cl; decide (offersB c cl w = true ∧ x.cmds = [] ∧ (∀ f ∈ x.frames, f.uid ≠ x.next) ∧ isRack 0 w = true ∧ c.g .RACK_CTL_EN r = 1 ∧ c.rackAddrOk cl w false = true ∧ x.live.length < 64 ∧ (c.newFrame cl w).need + ((x.live.filter (fun g => !c.spillable cl g)).map RFrame.need).sum ≤ c.quota cl ∧ x.held + (c.newFrame cl w).need ≤ c.quota cl ∧ (c.freePages r (c.newFrame cl w).need).length = (c.newFrame cl w).need)) = true ∧
    (let w := rc 1 9; let s := st { rk w { frames := [fr .resident [4096]], next := 1 } [] with up := 0, mem := [(regionKey 15 (4096 * 4096), 7)] }; let c := s.chip; let cl := 127; let r := 15; let x := c.rackLane cl; decide (offersB c cl w = true ∧ x.cmds = [] ∧ (∀ f ∈ x.frames, f.uid ≠ x.next) ∧ x.top = some (fr .resident [4096]) ∧ (fr .resident [4096]).tag = rkTag w ∧ rkRows w = 1 ∧ rkRowBytes w = 64 ∧ (x.frames.filter (fun g => g.uid == 0)).length = 1 ∧ c.g .RACK_CTL_EN r = 1 ∧ c.rackAddrOk cl w true = true ∧ isRack 1 w = true)) = true ∧
    (let w := rc 2 9; let s := st { rk w { frames := [fr .resident [4096]], next := 1 } [] with up := 0, mem := [(regionKey 15 (4096 * 4096), 7)] }; let c := s.chip; let cl := 127; let r := 15; let x := c.rackLane cl; decide (offersB c cl w = true ∧ x.cmds = [] ∧ (∀ f ∈ x.frames, f.uid ≠ x.next) ∧ x.top = some (fr .resident [4096]) ∧ (fr .resident [4096]).tag = rkTag w ∧ rkRows w = 1 ∧ rkRowBytes w = 64 ∧ (x.frames.filter (fun g => g.uid == 0)).length = 1 ∧ c.g .RACK_CTL_EN r = 1 ∧ c.rackAddrOk cl w true = true ∧ isRack 2 w = true)) = true ∧
    (let w := rd 3 9; let s := st { rk w { frames := [fr .resident [4096]], next := 1 } [] with up := 0 }; let c := s.chip; let cl := 127; let r := 15; let x := c.rackLane cl; decide (offersB c cl w = true ∧ x.cmds = [] ∧ (∀ f ∈ x.frames, f.uid ≠ x.next) ∧ x.top = some (fr .resident [4096]) ∧ 9 = rkTag w ∧ isRack 3 w = true ∧ c.g .RACK_CTL_EN r = 1)) = true ∧
    (let w := rd 4 0; let s := st { rk w { frames := [fr .resident [4096]], next := 1 } [] with up := 0 }; let c := s.chip; let cl := 127; let r := 15; let x := c.rackLane cl; decide (offersB c cl w = true ∧ x.cmds = [] ∧ (∀ f ∈ x.frames, f.uid ≠ x.next) ∧ isRack 4 w = true ∧ c.g .RACK_CTL_EN r = 1)) = true ∧
    (let w := rc 0 9; let s := st { rk w { frames := [fr .resident [4096]], next := 1 } [(.RACK_CTL_EN, 15, 0, 0)] with up := 0 }; let c := s.chip; let cl := 127; let r := 15; let x := c.rackLane cl; decide (offersB c cl w = true ∧ x.cmds = [] ∧ (∀ f ∈ x.frames, f.uid ≠ x.next) ∧ isRack 0 w = true ∧ c.g .RACK_CTL_EN r = 0)) = true ∧
    (let w := rc 1 9; let s := st { rk w { frames := [fr .resident [4096]], next := 1 } [(.RACK_CTL_EN, 15, 0, 0)] with up := 0 }; let c := s.chip; let cl := 127; let r := 15; let x := c.rackLane cl; decide (offersB c cl w = true ∧ x.cmds = [] ∧ (∀ f ∈ x.frames, f.uid ≠ x.next) ∧ isRack 1 w = true ∧ c.g .RACK_CTL_EN r = 0)) = true ∧
    (let w := rc 1 8; let s := st { rk w { frames := [fr .resident [4096]], next := 1 } [] with up := 0 }; let c := s.chip; let cl := 127; let r := 15; let x := c.rackLane cl; decide (offersB c cl w = true ∧ x.cmds = [] ∧ (∀ f ∈ x.frames, f.uid ≠ x.next) ∧ isRack 1 w = true ∧ c.g .RACK_CTL_EN r = 1 ∧ (1 = 3 ∨ c.rackAddrOk cl w true = true) ∧ x.top.all (fun f => f.tag != rkTag w) = true)) = true ∧
    (let w := rc 2 9; let s := st { rk w { frames := [fr .resident [4096]], next := 1 } [(.RACK_CTL_EN, 15, 0, 0)] with up := 0 }; let c := s.chip; let cl := 127; let r := 15; let x := c.rackLane cl; decide (offersB c cl w = true ∧ x.cmds = [] ∧ (∀ f ∈ x.frames, f.uid ≠ x.next) ∧ isRack 2 w = true ∧ c.g .RACK_CTL_EN r = 0)) = true ∧
    (let w := rc 2 8; let s := st { rk w {  } [] with up := 0 }; let c := s.chip; let cl := 127; let r := 15; let x := c.rackLane cl; decide (offersB c cl w = true ∧ x.cmds = [] ∧ (∀ f ∈ x.frames, f.uid ≠ x.next) ∧ isRack 2 w = true ∧ c.g .RACK_CTL_EN r = 1 ∧ (2 = 3 ∨ c.rackAddrOk cl w true = true) ∧ x.top.all (fun f => f.tag != rkTag w) = true)) = true ∧
    (let w := rd 3 9; let s := st { rk w { frames := [fr .resident [4096]], next := 1 } [(.RACK_CTL_EN, 15, 0, 0)] with up := 0 }; let c := s.chip; let cl := 127; let r := 15; let x := c.rackLane cl; decide (offersB c cl w = true ∧ x.cmds = [] ∧ (∀ f ∈ x.frames, f.uid ≠ x.next) ∧ isRack 3 w = true ∧ c.g .RACK_CTL_EN r = 0)) = true ∧
    (let w := rd 3 8; let s := st { rk w { frames := [fr .resident [4096]], next := 1 } [] with up := 0 }; let c := s.chip; let cl := 127; let r := 15; let x := c.rackLane cl; decide (offersB c cl w = true ∧ x.cmds = [] ∧ (∀ f ∈ x.frames, f.uid ≠ x.next) ∧ isRack 3 w = true ∧ c.g .RACK_CTL_EN r = 1 ∧ (3 = 3 ∨ c.rackAddrOk cl w true = true) ∧ x.top.all (fun f => f.tag != rkTag w) = true)) = true := by
  decide +kernel

/-- Operands and states that meet the hypotheses of RackCommands, clause by clause. -/
theorem test_hyps_RackCommands_2 :
    (let w := rd 4 0; let s := st { rk w { frames := [fr .resident [4096]], next := 1 } [(.RACK_CTL_EN, 15, 0, 0)] with up := 0 }; let c := s.chip; let cl := 127; let r := 15; let x := c.rackLane cl; decide (offersB c cl w = true ∧ x.cmds = [] ∧ (∀ f ∈ x.frames, f.uid ≠ x.next) ∧ isRack 4 w = true ∧ c.g .RACK_CTL_EN r = 0)) = true ∧
    (let w := rc 0 9; let s := st { rk w { frames := (List.range 64).map (fun i => { fr .resident [] with uid := i }), next := 64 } [] with up := 0 }; let c := s.chip; let cl := 127; let r := 15; let x := c.rackLane cl; decide (offersB c cl w = true ∧ x.cmds = [] ∧ (∀ f ∈ x.frames, f.uid ≠ x.next) ∧ isRack 0 w = true ∧ c.g .RACK_CTL_EN r = 1 ∧ c.rackAddrOk cl w false = true ∧ 64 ≤ x.live.length)) = true := by
  decide +kernel

/-- Operands and states that meet the hypotheses of RackMoves, clause by clause. -/
theorem test_hyps_RackMoves_1 :
    (let s := st { rk [] {  } [] with up := 0 }; let c := s.chip; let cl := 127; let x := c.rackLane cl; decide (x.cmds = [])) = true ∧
    (let s := st { rk [] {  } [] with up := 0 }; let c := s.chip; let cl := 127; let x := c.rackLane cl; decide (x.cmds = [])) = true ∧
    (let s := st { rk [] { cmds := [⟨0, rc 0 9, 0, false⟩], frames := [fr .waiting []] } [(.RACK_LANE_CFG_QUOTA, 15, 7, 0)] with up := 0 }; let c := s.chip; let cl := 127; let x := c.rackLane cl; decide (x.cmds.map (fun k => (k.uid, prAct k.words)) = [(0, 0)] ∧ (x.find 0).isSome = true ∧ c.quota cl < x.held + 1)) = true ∧
    (let s := st { rk [] { cmds := [⟨0, rc 1 9, 0, false⟩], frames := [fr .spilled []] } [] with up := 0 }; let c := s.chip; let cl := 127; let x := c.rackLane cl; decide (x.cmds.map (fun k => (k.uid, prAct k.words)) = [(0, 1)] ∧ (x.find 0).isSome = true ∧ True)) = true ∧
    (let s := st { rk [] { cmds := [⟨0, rc 1 9, 0, false⟩], frames := [fr .resident [4096]] } [] with up := 0 }; let c := s.chip; let cl := 127; let x := c.rackLane cl; decide (x.cmds.map (fun k => (k.uid, prAct k.words)) = [(0, 1)] ∧ (x.find 0).isSome = true ∧ True)) = true ∧
    (let s := st { rk [] { cmds := [⟨0, rc 0 9, 0, false⟩], frames := [fr .waiting []] } [] with up := 0 }; let c := s.chip; let cl := 127; let r := 15; let x := c.rackLane cl; decide (x.cmds.map (fun k => (k.uid, prAct k.words)) = [(0, 0)] ∧ (x.find 0).isSome = true ∧ x.held + 1 ≤ c.quota cl ∧ (c.freePages r 1).length = 1)) = true ∧
    (let s := st { rk [] { frames := [fr .resident [4096]] } [] with up := 0 }; let c := s.chip; let cl := 127; let r := 15; let x := c.rackLane cl; decide (x.frames.any (fun f => f.st == .spilling) = false ∧ c.slotFree r = true ∧ c.spillNext cl = some (fr .resident [4096]))) = true ∧
    (let s := st { rk [] { frames := [{ fr .resident [4096, 4097] with host := true }] } [(.RACK_LANE_CFG_HIWAT, 15, 7, 1), (.RACK_LANE_CFG_QUOTA, 15, 7, 2)] with up := 0 }; let c := s.chip; let cl := 127; let r := 15; let x := c.rackLane cl; decide (x.frames.any (fun f => f.st == .spilling) = false ∧ c.slotFree r = true ∧ (c.spillNext cl).isSome = true)) = true ∧
    (let s := st { rk [] {  } [] with up := 0 }; let c := s.chip; let cl := 127; decide (c.spillNext cl = none)) = true ∧
    (let s := st { rk [] { frames := [fr .spilling [4096]] } [] with up := 0 }; let c := s.chip; let cl := 127; let x := c.rackLane cl; decide (x.frames.find? (fun f => f.st == .spilling) = some (fr .spilling [4096]) ∧ True)) = true ∧
    (let s := st { rk [] { frames := [fr .spilling [4096]] } [(.HOSTIF_RWIN_EN, 0, 15, 0)] with up := 0 }; let c := s.chip; let cl := 127; let x := c.rackLane cl; decide (x.frames.find? (fun f => f.st == .spilling) = some (fr .spilling [4096]) ∧ c.homePages cl (fr .spilling [4096]) < 1)) = true ∧
    (let s := st { rk [] { frames := [fr .spilling [4096]] } [(.HOSTIF_RWINSZ_PAGES, 0, 15, 1)] with up := 0 }; let c := s.chip; let cl := 127; let x := c.rackLane cl; decide (x.frames.find? (fun f => f.st == .spilling) = some (fr .spilling [4096]) ∧ 1 ≤ c.homePages cl (fr .spilling [4096]))) = true := by
  decide +kernel

/-- Operands and states that meet the hypotheses of RackMoves, clause by clause. -/
theorem test_hyps_RackMoves_2 :
    (let s := st { rk [] { cmds := [⟨0, rc 1 9, 0, false⟩], frames := [fr .spilled []] } [] with up := 0 }; let c := s.chip; let cl := 127; let r := 15; let x := c.rackLane cl; decide (x.frames.any (fun f => f.st == .fetching) = false ∧ c.slotFree r = true ∧ c.fetchNext cl = some (fr .spilled []) ∧ (c.freePages r 1).length = 1)) = true ∧
    (let s := st { rk [] {  } [] with up := 0 }; let c := s.chip; let cl := 127; decide (c.fetchNext cl = none)) = true ∧
    (let s := st { rk [] { frames := [fr .fetching [4096]] } [] with up := 0 }; let c := s.chip; let cl := 127; let x := c.rackLane cl; decide (x.frames.find? (fun f => f.st == .fetching) = some (fr .fetching [4096]))) = true ∧
    (let s := st { rk [] { frames := [{ fr .fetching [4096] with crc := crc32c (List.replicate 64 (5 : Byte)) }] } [] with up := 0 }; let c := s.chip; let cl := 127; let x := c.rackLane cl; let f := x.frames.headD (fr .lost []); let bs := (List.replicate 64 (5 : Byte)); decide (x.frames.find? (fun f => f.st == .fetching) = some f ∧ bs.length = f.size ∧ c.homeAt cl f 0 ≠ none ∧ c.homeAt cl f (f.size - 1) ≠ none ∧ (f.poison = true ∨ crc32c bs = f.crc) ∧ f.pages.Nodup ∧ f.pages.length = f.need ∧ (∀ k ∈ f.pages, k < 8192))) = true ∧
    (let s := st { rk [] { frames := [{ fr .fetching [4096] with poison := true }] } [] with up := 0 }; let c := s.chip; let cl := 127; let x := c.rackLane cl; let f := x.frames.headD (fr .lost []); let bs := (List.replicate 64 (5 : Byte)); decide (x.frames.find? (fun f => f.st == .fetching) = some f ∧ bs.length = f.size ∧ c.homeAt cl f 0 ≠ none ∧ c.homeAt cl f (f.size - 1) ≠ none ∧ (f.poison = true ∨ crc32c bs = f.crc) ∧ f.pages.Nodup ∧ f.pages.length = f.need ∧ (∀ k ∈ f.pages, k < 8192))) = true ∧
    (let s := st { rk [] { frames := [fr .fetching [4096]] } [] with up := 0 }; let c := s.chip; let cl := 127; let x := c.rackLane cl; let f := x.frames.headD (fr .lost []); let bs := (List.replicate 64 (5 : Byte)); decide (x.frames.find? (fun f => f.st == .fetching) = some f ∧ bs.length = f.size ∧ c.homeAt cl f 0 ≠ none ∧ c.homeAt cl f (f.size - 1) ≠ none ∧ f.poison = false ∧ crc32c bs ≠ f.crc)) = true ∧
    (let s := st { rk [] {  } [(.PART_STAT_STATE, 15, 0, 1)] with up := 0 }; let c := s.chip; let r := 15; decide (c.reaches .rm .RACK_CTL r = true ∧ c.isLocked .RACK_CTL r = false ∧ wbit (0 : Word) 0 = false)) = true ∧
    (let s := st { rk [] {  } [(.PART_STAT_STATE, 15, 0, 1), (.RACK_CTL_EN, 15, 0, 0), (.RACK_LANE_CFG_QUOTA, 15, 0, 4030)] with up := 0 }; let c := s.chip; let r := 15; decide (c.reaches .rm .RACK_CTL r = true ∧ c.isLocked .RACK_CTL r = false ∧ c.g .RACK_AREA_BASE r + 4032 = 8128 ∧ ((List.range 8).map (fun k => c.quota (8 * r + k))).sum = 4032)) = true ∧
    (let s := st { rk [] {  } [(.PART_STAT_STATE, 15, 0, 1), (.RACK_CTL_EN, 15, 0, 0), (.RACK_AREA_BASE, 15, 0, 4097)] with up := 0 }; let c := s.chip; let r := 15; decide (c.reaches .rm .RACK_CTL r = true ∧ c.isLocked .RACK_CTL r = false ∧ (8128 < c.g .RACK_AREA_BASE r + 4032 ∨ 4032 < ((List.range 8).map (fun k => c.quota (8 * r + k))).sum))) = true ∧
    (let s := st { rk [] {  } [(.PART_STAT_STATE, 15, 0, 1), (.RACK_CTL_EN, 15, 0, 0), (.RACK_LANE_CFG_QUOTA, 15, 0, 4031)] with up := 0 }; let c := s.chip; let r := 15; decide (c.reaches .rm .RACK_CTL r = true ∧ c.isLocked .RACK_CTL r = false ∧ (8128 < c.g .RACK_AREA_BASE r + 4032 ∨ 4032 < ((List.range 8).map (fun k => c.quota (8 * r + k))).sum))) = true := by
  decide +kernel

/-- Operands and states that meet the hypotheses of PressCommands, clause by clause. -/
theorem test_hyps_PressCommands_1 :
    (let w := pa 95; let s := st { pc w {  } { ents := [(0, pe none)] } [] with up := 0 }; let c := s.chip; let cl := 127; let x := c.pressOf cl; decide (offersB c cl w = true ∧ isOp 0x23 w = true ∧ prAct w ≠ 1 ∧ prAct w ≠ 2 ∧ (c.seq cl).gated = false ∧ c.g .PRS_CFG_EN cl = 1 ∧ c.pent cl 7 = none ∧ wbits (wordAt w 3) 16 10 + x.slots ≤ 96 ∧ wbit (wordAt w 4) 24 = false)) = true ∧
    (let w := pa 95; let s := st { pc w { gated := true } {  } [] with up := 0 }; let c := s.chip; let cl := 127; decide (offersB c cl w = true ∧ isOp 0x23 w = true ∧ prAct w ≠ 1 ∧ prAct w ≠ 2 ∧ (c.seq cl).gated = true)) = true ∧
    (let w := pa 95; let s := st { pc w {  } { ents := [(7, pe none)] } [] with up := 0 }; let c := s.chip; let cl := 127; decide (offersB c cl w = true ∧ isOp 0x23 w = true ∧ prAct w ≠ 1 ∧ prAct w ≠ 2 ∧ c.g .PRS_CFG_EN cl = 1 ∧ c.pent cl 7 ≠ none)) = true ∧
    (let w := px; let s := st { pc w {  } {  } [] with up := 0 }; let c := s.chip; let cl := 127; decide (offersB c cl w = true ∧ isOp 0x23 w = true ∧ prAct w = 1 ∧ c.pent cl 7 = none)) = true ∧
    (let w := px; let s := st { pc w { nextId := 1 } { ents := [(7, pe (some 0))] } [] with up := 0 }; let c := s.chip; let cl := 127; decide (offersB c cl w = true ∧ isOp 0x23 w = true ∧ prAct w = 1 ∧ c.pent cl 7 = some (pe (some 0)) ∧ c.tierWritable 15 (wordAt w 2).toNat (4096 + 16384) = true ∧ (pe (some 0)).arm ≠ none)) = true ∧
    (let w := px; let s := st { pc w {  } { ents := [(7, { pe none with count := 3 })] } [] with up := 0 }; let c := s.chip; let cl := 127; decide (offersB c cl w = true ∧ isOp 0x23 w = true ∧ prAct w = 1 ∧ c.pent cl 7 = some ({ pe none with count := 3 }) ∧ c.tierWritable 15 (wordAt w 2).toNat (4096 + 16384) = true ∧ wbits (wordAt w 2) 63 60 = 1 ∧ c.fenceHit 15 (wordAt w 2).toNat 4096 = none ∧ c.fenceHit 15 ((wordAt w 2).toNat + 4096) 16384 = none)) = true ∧
    (let w := pm; let s := st { pc w {  } {  } [] with up := 0 }; let c := s.chip; let cl := 127; decide (offersB c cl w = true ∧ isOp 0x23 w = true ∧ prAct w = 2 ∧ (c.seq cl).gated = false)) = true ∧
    (let w := pm; let s := st { pc w { gated := true } {  } [] with up := 0, solvers := [(15, { slots := [{ ticket := 0, words := [], order := 0, accepted := 0, stage := .setup, load := some (15, 2 * 2 ^ 60 + 2 ^ 16) }] })] }; let c := s.chip; let cl := 127; decide (offersB c cl w = true ∧ isOp 0x23 w = true ∧ prAct w = 2 ∧ (c.seq cl).gated = true ∧ wbits (wordAt w 1) 4 3 = 2 ∧ ([3, 4].all (fun k => (c.tierKeys 15 (wordAt w k).toNat 4096).isSome && (c.tierKeys 15 ((wordAt w k).toNat + 4096) 16384).isSome)) = true ∧ c.loading 15 (c.mergeSlot cl w) = some 15)) = true ∧
    (let w := pm; let s := st { pc w { gated := true } {  } [] with up := 0 }; let c := s.chip; let cl := 127; decide (offersB c cl w = true ∧ isOp 0x23 w = true ∧ prAct w = 2 ∧ (c.seq cl).gated = true ∧ wbits (wordAt w 1) 4 3 = 2 ∧ ([3, 4].all (fun k => (c.tierKeys 15 (wordAt w k).toNat 4096).isSome && (c.tierKeys 15 ((wordAt w k).toNat + 4096) 16384).isSome)) = true ∧ c.loading 15 (c.mergeSlot cl w) = none)) = true ∧
    (let e := { pe (some 0) with bound := some (9, [], 2), dep := [(0, [(0, [], false)])] }; let s := st (pc [] {} { ents := [(7, e)] } []); let c := s.chip; let cl := 127; decide ((c.pressOf cl).ents = [(7, e)] ∧ (c.pressOf cl).wait = [] ∧ e.arm = some 0 ∧ e.bound = some (9, [], 2) ∧ e.next + 1 < 2 ∧ e.dep.find? (fun d => d.1 == e.next) = some (0, [(0, [], false)]))) = true ∧
    (let e := { pe (some 0) with bound := some (9, [], 2) }; let s := st (pc [] {} { ents := [(7, e)] } []); let c := s.chip; let cl := 127; decide ((c.pressOf cl).ents = [(7, e)] ∧ (c.pressOf cl).wait = [] ∧ e.dep.find? (fun d => d.1 == e.next) = none)) = true ∧
    (let s := st (un { run := some { kind := .train, job := tl 0, wbits := 0 }, hold := true } []); let c := s.chip; let u := 1023; let x := c.unit u; decide (x.run.isSome = true ∧ x.hold = true ∧ c.hasRoom 15 (tl 0) = true)) = true := by
  decide +kernel

/-- Operands and states that meet the hypotheses of PressCommands, clause by clause. -/
theorem test_hyps_PressCommands_2 :
    (let s := st (un { run := some { kind := .train, job := tl 0, wbits := 0 }, hold := false } []); let c := s.chip; let u := 1023; let x := c.unit u; decide (x.run.isSome = true ∧ x.hold = false ∧ c.hasRoom 15 (tl 0) = true)) = true ∧
    (let w := [hd 8 2, 5]; let s := st { pc w {  } { ents := [(3, pe none), (7, pe (some 0))] } [] with up := 0 }; let c := s.chip; let cl := 127; let x := c.pressOf cl; decide (offersB c cl w = true ∧ isOp 0x08 w = true ∧ phCode w ≠ 4 ∧ phFull w = false ∧ (x.ents.map Prod.fst).Nodup ∧ x.wait = [] ∧ c.freeArms cl ≠ [])) = true := by
  decide +kernel

/-- The Root Solver of region 15, on and with an input queue, at cluster 127 with a command at its stream position. -/
def sv (w : List Word) (x : SolverS) (l : List (Fld × Nat × Nat × Nat)) : Chip :=
  { sq w {} ([(.SOLV_CFG_EN, 15, 0, 1), (.SOLV_CFG_SQ_EN, 15, 0, 1), (.SOLV_CFG_SQ, 15, 0, 1), (.SOLV_CFG_DMAX, 15, 0, 1), (.SOLV_STAGE_PAGES, 15, 0, 1),
      (.QP_QCFG_EN, 15, 1, 1), (.QP_QCFG_CKIND, 15, 1, 1), (.QP_QCFG_EN, 15, 0, 1), (.QP_QCFG_MAX_CELLS, 15, 0, 8), (.PART_NTX_VALID, 15, 0, 1)] ++ l) with
    solvers := [(15, x)], now := 1000000 }
/-- A solve descriptor of a dimension and block 5 with its areas in the near tier, its input fixed. -/
def sd (dim : Nat) : List Word := [hd 0x22 16 - 7 * 2 ^ 40, Word.ofNat (dim * 2 ^ 4 + 2 ^ 19), 0, 0, 0, Word.ofNat (2 * 2 ^ 60), 0, Word.ofNat (2 * 2 ^ 60 + 2 ^ 17),
  Word.ofNat (2 * 2 ^ 60 + 2 ^ 18), 5, 0, 0, 0, 0, 0, 0]
/-- A solve of dimension 1 with ticket 4095. -/
def so1 (st : SolveStage) : Solve := { ticket := 4095, words := sd 1, order := 0, accepted := 0, stage := st }
/-- Sixty-four solves that hold every slot. -/
def full : List Solve := (List.range 64).map (fun i => { so1 .waiting with ticket := i })

/-- The Solver with a tile of solve 4095, one element 1 × 1, running on unit 1023. -/
def svt (left : Nat) (second : Bool) (l : List (Fld × Nat × Nat × Nat)) : Chip :=
  { sv [] { slots := [{ so1 .setup with lent := 1 }] } l with
    units := [(1023, { run := some { kind := .solver ⟨4095, 0, 0, [[.one]], [[.one]], left, second, 0, 0, none⟩, job := tl 0, wbits := 0 } })] }

/-- One step of cmdSolve, its results from the rules that its meaning cites. -/
theorem test_step_cmdSolve :
    (let w := sd 0; let s := st { sv w {  } [(.SOLV_TICKET_NEXT, 15, 0, 4095), (.QP_QCFG_EN, 15, 0, 0)] with up := 0 }; let cl := 127; let r := 15; match execCmdSolve cl s with | .next t => decide ((t.chip.solver r).slots = [] ∧ t.chip.g .SOLV_STICKY_CQ_ERR r = 1 ∧ t.chip.g .SOLV_CNT_COUNT r 0 = 1 ∧ t.chip.g .SOLV_TICKET_LAST_DONE r = 4095) | _ => false) = true := by
  decide +kernel

/-- One step of solveQueueAccept, its results from the rules that its meaning cites. -/
theorem test_step_solveQueueAccept :
    (let w := []; let s := st { sv w {  } [(.SOLV_CFG_EN, 15, 0, 0), (.QP_QCFG_EN, 15, 0, 0)] with up := 0, queues := [(15 * 1024 + 1, { linked := [⟨(sd 1).map (·, false), false, false⟩] })] }; let r := 15; match execSolveQueueAccept r s with | .next t => decide (t.chip.g .SOLV_STICKY_REJECT r = 1 ∧ t.chip.g .SOLV_STICKY_CQ_ERR r = 1 ∧ (t.chip.queue r 1).linked = []) | _ => false) = true := by
  decide +kernel

/-- One step of solveComplete, its results from the rules that its meaning cites. -/
theorem test_step_solveComplete :
    (let w := []; let s := st { sv w { slots := [{ so1 .ended with status := 2, started := some 5 }] } [] with up := 0 }; let r := 15; match execSolveComplete r 4095 s with | .next t => decide ((t.chip.queue r 0).linked.length = 1 ∧ t.chip.g .SOLV_TICKET_LAST_DONE r = 4095 ∧ t.chip.g .SOLV_CNT_COUNT r 0 = 1) | _ => false) = true := by
  decide +kernel

/-- One step of solverTileComplete, its results from the rules that its meaning cites. -/
theorem test_step_solverTileComplete :
    (let s := st (svt 1 false []); let u := 1023; match execSolverTileComplete u (0, none) true s with | .next t => decide ((t.chip.unit u).run = none ∧ t.chip.g .MXE_CNT_SOLV_COUNT u = 1 ∧ t.chip.g .MXE_STICKY_SOLV_POISON u = 1) | _ => false) = true := by
  decide +kernel

/-- Operands and states that meet the hypotheses of SolvesAccepted, clause by clause. -/
theorem test_hyps_SolvesAccepted_1 :
    (let w := sd 1; let s := st { sv w {  } [(.SOLV_CFG_EN, 15, 0, 0)] with up := 0 }; let c := s.chip; let cl := 127; let r := 15; decide (offersB c cl w = true ∧ isOp 0x22 w = true ∧ c.solveChecks r w ≠ 0)) = true ∧
    (let w := sd 1; let s := st { sv w {  } [(.SOLV_TICKET_NEXT, 15, 0, 4095)] with up := 0 }; let c := s.chip; let cl := 127; let r := 15; let x := c.solver r; decide (offersB c cl w = true ∧ isOp 0x22 w = true ∧ c.solveChecks r w = 0 ∧ x.slots.length < 64 ∧ x.wait = [] ∧ svDim w ≠ 0)) = true ∧
    (let w := sd 0; let s := st { sv w {  } [(.SOLV_TICKET_NEXT, 15, 0, 4095), (.QP_QCFG_EN, 15, 0, 0)] with up := 0 }; let c := s.chip; let cl := 127; let r := 15; let x := c.solver r; decide (offersB c cl w = true ∧ isOp 0x22 w = true ∧ c.solveChecks r w = 0 ∧ x.slots.length < 64 ∧ x.wait = [] ∧ svDim w = 0 ∧ c.g .QP_QCFG_EN r (svScq w) = 0 ∧ c.cutOpen (c.solvPart r) = false)) = true ∧
    (let w := sd 1; let s := st { sv w { slots := full } [] with up := 0 }; let c := s.chip; let cl := 127; let r := 15; let x := c.solver r; decide (offersB c cl w = true ∧ isOp 0x22 w = true ∧ c.solveChecks r w = 0 ∧ 64 ≤ x.slots.length)) = true ∧
    (let w := sd 1; let s := st { sv w { wait := [(127, 0, sd 1)] } [] with up := 0 }; let c := s.chip; let cl := 127; let r := 15; let x := c.solver r; decide (offersB c cl w = true ∧ isOp 0x22 w = true ∧ c.solveChecks r w = 0 ∧ x.wait ≠ [])) = true ∧
    (let w := []; let s := st { sv w {  } [] with up := 0 }; let c := s.chip; let r := 15; let x := c.solver r; decide (x.wait = [])) = true ∧
    (let w := []; let s := st { sv w { slots := full, wait := [(127, 0, sd 1)] } [] with up := 0 }; let c := s.chip; let r := 15; let x := c.solver r; decide (64 ≤ x.slots.length)) = true ∧
    (let w := []; let s := st { sv w { wait := [(127, 0, sd 1)] } [(.SOLV_TICKET_NEXT, 15, 0, 4095)] with up := 0 }; let c := s.chip; let r := 15; let x := c.solver r; decide (x.wait = (127, 0, sd 1) :: [] ∧ x.slots.length < 64 ∧ svDim (sd 1) ≠ 0)) = true ∧
    (let w := []; let s := st { sv w {  } [(.SOLV_CFG_SQ_EN, 15, 0, 0)] with up := 0, queues := [(15 * 1024 + 1, { linked := [⟨(sd 1).map (·, false), false, false⟩] })] }; let c := s.chip; let r := 15; decide ((c.g .SOLV_CFG_SQ_EN r = 0 ∨ c.g .QP_QCFG_CKIND r 1 ≠ 1 ∨ c.g .QP_QCFG_EN r 1 = 0))) = true ∧
    (let w := []; let s := st { sv w {  } [(.QP_QCFG_CKIND, 15, 1, 0)] with up := 0, queues := [(15 * 1024 + 1, { linked := [⟨(sd 1).map (·, false), false, false⟩] })] }; let c := s.chip; let r := 15; decide ((c.g .SOLV_CFG_SQ_EN r = 0 ∨ c.g .QP_QCFG_CKIND r 1 ≠ 1 ∨ c.g .QP_QCFG_EN r 1 = 0))) = true ∧
    (let w := []; let s := st { sv w {  } [(.QP_QCFG_EN, 15, 1, 0)] with up := 0, queues := [(15 * 1024 + 1, { linked := [⟨(sd 1).map (·, false), false, false⟩] })] }; let c := s.chip; let r := 15; decide ((c.g .SOLV_CFG_SQ_EN r = 0 ∨ c.g .QP_QCFG_CKIND r 1 ≠ 1 ∨ c.g .QP_QCFG_EN r 1 = 0))) = true ∧
    (let w := []; let s := st { sv w { slots := full } [] with up := 0, queues := [(15 * 1024 + 1, { linked := [⟨(sd 1).map (·, false), false, false⟩] })] }; let c := s.chip; let r := 15; let x := c.solver r; decide (64 ≤ x.slots.length)) = true := by
  decide +kernel

/-- Operands and states that meet the hypotheses of SolvesAccepted, clause by clause. -/
theorem test_hyps_SolvesAccepted_2 :
    (let w := []; let s := st { sv w {  } [] with up := 0, queues := [(15 * 1024 + 1, { linked := [⟨[(0, false), (0, false)], true, false⟩] })] }; let c := s.chip; let r := 15; let x := c.solver r; decide (c.g .SOLV_CFG_SQ_EN r = 1 ∧ c.g .QP_QCFG_CKIND r 1 = 1 ∧ c.g .QP_QCFG_EN r 1 = 1 ∧ x.slots.length < 64 ∧ (c.queue r 1).broken = false ∧ (c.queue r 1).linked.length = 1 ∧ (c.queue r 1).linked = [⟨[(0, false), (0, false)], true, false⟩])) = true ∧
    (let w := []; let s := st { sv w {  } [] with up := 0, queues := [(15 * 1024 + 1, { linked := [⟨[(0, false)], false, false⟩] })] }; let c := s.chip; let r := 15; let x := c.solver r; decide (c.g .SOLV_CFG_SQ_EN r = 1 ∧ c.g .QP_QCFG_CKIND r 1 = 1 ∧ c.g .QP_QCFG_EN r 1 = 1 ∧ x.slots.length < 64 ∧ (c.queue r 1).broken = false ∧ (c.queue r 1).linked.length = 1 ∧ (c.queue r 1).linked = [⟨[(0, false)], false, false⟩])) = true ∧
    (let w := []; let s := st { sv w {  } [] with up := 0, queues := [(15 * 1024 + 1, { linked := [⟨[(0, false), (0, true)], false, false⟩] })] }; let c := s.chip; let r := 15; let x := c.solver r; decide (c.g .SOLV_CFG_SQ_EN r = 1 ∧ c.g .QP_QCFG_CKIND r 1 = 1 ∧ c.g .QP_QCFG_EN r 1 = 1 ∧ x.slots.length < 64 ∧ (c.queue r 1).broken = false ∧ (c.queue r 1).linked.length = 1 ∧ (c.queue r 1).linked = [⟨[(0, false), (0, true)], false, false⟩])) = true ∧
    (let w := []; let s := st { sv w {  } [(.SOLV_TICKET_NEXT, 15, 0, 4095)] with up := 0, queues := [(15 * 1024 + 1, { linked := [⟨(sd 1).map (·, false), false, false⟩] })] }; let c := s.chip; let r := 15; let x := c.solver r; decide (c.g .SOLV_CFG_SQ_EN r = 1 ∧ c.g .QP_QCFG_CKIND r 1 = 1 ∧ c.g .QP_QCFG_EN r 1 = 1 ∧ x.slots.length < 64 ∧ (c.queue r 1).broken = false ∧ (c.queue r 1).linked.length = 1 ∧ packetChecks (sd 1) = 0 ∧ c.solveChecks r (sd 1) = 0 ∧ svDim (sd 1) ≠ 0)) = true ∧
    (let w := []; let s := st { sv w {  } [(.SOLV_CFG_EN, 15, 0, 0), (.QP_QCFG_EN, 15, 0, 0)] with up := 0, queues := [(15 * 1024 + 1, { linked := [⟨(sd 1).map (·, false), false, false⟩] })] }; let c := s.chip; let r := 15; let x := c.solver r; decide (c.g .SOLV_CFG_SQ_EN r = 1 ∧ c.g .QP_QCFG_CKIND r 1 = 1 ∧ c.g .QP_QCFG_EN r 1 = 1 ∧ x.slots.length < 64 ∧ (c.queue r 1).broken = false ∧ (c.queue r 1).linked.length = 1 ∧ c.solveChecks r (sd 1) ≠ 0 ∧ c.g .QP_QCFG_EN r (svScq (sd 1)) = 0)) = true ∧
    (let w := []; let s := st { sv w {  } [(.SOLV_STAGE_PAGES, 15, 0, 0), (.QP_QCFG_EN, 15, 0, 0)] with up := 0, queues := [(15 * 1024 + 1, { linked := [⟨(sd 1).map (·, false), false, false⟩] })] }; let c := s.chip; let r := 15; let x := c.solver r; decide (c.g .SOLV_CFG_SQ_EN r = 1 ∧ c.g .QP_QCFG_CKIND r 1 = 1 ∧ c.g .QP_QCFG_EN r 1 = 1 ∧ x.slots.length < 64 ∧ (c.queue r 1).broken = false ∧ (c.queue r 1).linked.length = 1 ∧ (packetChecks (sd 1) ≠ 0 ∨ c.solveChecks r (sd 1) ≠ 0) ∧ c.g .QP_QCFG_EN r (svScq (sd 1)) = 0)) = true ∧
    (let w := []; let s := st { sv w { slots := full.take 63 } [(.SOLV_TICKET_NEXT, 15, 0, 0)] with up := 0 }; let c := s.chip; let r := 15; let x := c.solver r; decide (x.slots.length < 64)) = true := by
  decide +kernel

/-- Operands and states that meet the hypotheses of SolvesRun, clause by clause. -/
theorem test_hyps_SolvesRun_1 :
    (let w := []; let s := st { sv w {  } [] with up := 0 }; let c := s.chip; let r := 15; let x := c.solver r; decide ((c.press.all (fun y => (c.pressOf y.1).mwait.isEmpty)) = true ∧ x.nextActive = none)) = true ∧
    (let w := []; let s := st { sv w { slots := (List.replicate 4 { so1 .setup with started := some 0 }) ++ [so1 .waiting] } [] with up := 0 }; let c := s.chip; let r := 15; let x := c.solver r; decide ((c.press.all (fun y => (c.pressOf y.1).mwait.isEmpty)) = true ∧ 4 ≤ x.active.length ∧ x.nextActive.isSome = true)) = true ∧
    (let w := []; let s := st { sv w { slots := [so1 .waiting] } [] with up := 0 }; let c := s.chip; let r := 15; let x := c.solver r; decide (x.nextActive = some (so1 .waiting) ∧ x.active.length < 4 ∧ (c.loadBlock 15 (2 * 2 ^ 60) 1).2.2 = false ∧ svWarm (sd 1) = false ∧ wbits (wordAt (c.loadBlock 15 (2 * 2 ^ 60) 1).2.1 0) 23 0 ≠ svBlock (sd 1))) = true ∧
    (let w := []; let c0 := sv [] {} []; let s := st { sv w { slots := [so1 .waiting] } [] with up := 0, mem := (([(0, 0, 5), (0, 3, 1)] : List (Nat × Nat × Byte)).foldl (fun (c : Chip) y => c.putBytes ((c0.tierKey 15 (2 * 2 ^ 60 + y.1)).getD 0 + y.2.1) [y.2.2]) c0).mem }; let c := s.chip; let r := 15; let x := c.solver r; decide (x.nextActive = some (so1 .waiting) ∧ x.active.length < 4 ∧ (c.loadBlock 15 (2 * 2 ^ 60) 1).2.2 = false ∧ svWarm (sd 1) = false ∧ svDclass (sd 1) = false ∧ wbits (wordAt (c.loadBlock 15 (2 * 2 ^ 60) 1).2.1 0) 23 0 = svBlock (sd 1) ∧ wbits (wordAt (c.loadBlock 15 (2 * 2 ^ 60) 1).2.1 0) 35 24 = 1 ∧ badInput 1 (damped 1 (lambda false (svDamp (sd 1)) 1 (c.loadBlock 15 (2 * 2 ^ 60) 1).1) (c.loadBlock 15 (2 * 2 ^ 60) 1).1) (frob 1 (damped 1 (lambda false (svDamp (sd 1)) 1 (c.loadBlock 15 (2 * 2 ^ 60) 1).1) (c.loadBlock 15 (2 * 2 ^ 60) 1).1)) = true)) = true ∧
    (let w := []; let c0 := sv [] {} []; let s := st { sv w { slots := [so1 .waiting] } [] with up := 0, mem := (([(0, 0, 5), (0, 3, 1), (4096, 2, 0x80), (4096, 3, 0x3F)] : List (Nat × Nat × Byte)).foldl (fun (c : Chip) y => c.putBytes ((c0.tierKey 15 (2 * 2 ^ 60 + y.1)).getD 0 + y.2.1) [y.2.2]) c0).mem }; let c := s.chip; let r := 15; let x := c.solver r; decide (x.nextActive = some (so1 .waiting) ∧ x.active.length < 4 ∧ (c.loadBlock 15 (2 * 2 ^ 60) 1).2.2 = false ∧ svWarm (sd 1) = false ∧ svDclass (sd 1) = false ∧ wbits (wordAt (c.loadBlock 15 (2 * 2 ^ 60) 1).2.1 0) 23 0 = svBlock (sd 1) ∧ wbits (wordAt (c.loadBlock 15 (2 * 2 ^ 60) 1).2.1 0) 35 24 = 1 ∧ badInput 1 (damped 1 (lambda false (svDamp (sd 1)) 1 (c.loadBlock 15 (2 * 2 ^ 60) 1).1) (c.loadBlock 15 (2 * 2 ^ 60) 1).1) (frob 1 (damped 1 (lambda false (svDamp (sd 1)) 1 (c.loadBlock 15 (2 * 2 ^ 60) 1).1) (c.loadBlock 15 (2 * 2 ^ 60) 1).1)) = false)) = true ∧
    (let w := []; let c0 := sv [] {} []; let s := st { sv w { slots := [so1 .waiting] } [] with up := 0, poison := [(granule ((c0.tierKey 15 (2 * 2 ^ 60)).getD 0), true)] }; let c := s.chip; let r := 15; let x := c.solver r; decide (x.nextActive = some (so1 .waiting) ∧ x.active.length < 4 ∧ (c.loadBlock 15 (2 * 2 ^ 60) 1).2.2 = true)) = true ∧
    (let w := []; let s := st { sv w { slots := [so1 .setup] } [] with up := 0 }; let c := s.chip; let r := 15; let x := c.solver r; let v := so1 .setup; decide (x.find 4095 = some v ∧ v.idle = true ∧ v.stage = .setup)) = true ∧
    (let w := []; let s := st { sv w { slots := [{ so1 .iterating with results := List.replicate (svPexp (sd 1) + 2) [[.one]] }] } [] with up := 0 }; let c := s.chip; let r := 15; let x := c.solver r; let v := { so1 .iterating with results := List.replicate (svPexp (sd 1) + 2) [[.one]] }; decide (x.find 4095 = some v ∧ v.idle = true ∧ v.stage = .iterating)) = true ∧
    (let w := []; let s := st { sv w { slots := [so1 .waiting] } [] with up := 0 }; let c := s.chip; let r := 15; let x := c.solver r; let v := so1 .waiting; decide (x.find 4095 = some v ∧ v.accepted + c.solveLimit r v.words ≤ c.now ∧ v.stage = .waiting)) = true ∧
    (let w := []; let s := st { sv w { slots := [so1 .setup] } [] with up := 0 }; let c := s.chip; let r := 15; let x := c.solver r; let v := so1 .setup; decide (x.find 4095 = some v ∧ v.accepted + c.solveLimit r v.words ≤ c.now ∧ v.stage = .setup)) = true ∧
    (let w := []; let s := st { sv w { slots := [so1 .iterating] } [] with up := 0 }; let c := s.chip; let r := 15; let x := c.solver r; let v := so1 .iterating; decide (x.find 4095 = some v ∧ v.accepted + c.solveLimit r v.words ≤ c.now ∧ v.stage = .iterating)) = true ∧
    (let w := []; let s := st { sv w { slots := [{ so1 .setup with accepted := 1 }] } [] with up := 0 }; let c := s.chip; let r := 15; let x := c.solver r; let v := { so1 .setup with accepted := 1 }; decide ((c.press.all (fun y => (c.pressOf y.1).mwait.isEmpty)) = true ∧ x.find 4095 = some v ∧ c.now < v.accepted + c.solveLimit r v.words)) = true := by
  decide +kernel

/-- Operands and states that meet the hypotheses of SolvesRun, clause by clause. -/
theorem test_hyps_SolvesRun_2 :
    (let w := []; let s := st { sv w { slots := [{ so1 .ended with status := 2, started := some 5 }] } [] with up := 0 }; let c := s.chip; let r := 15; let x := c.solver r; let v := { so1 .ended with status := 2, started := some 5 }; decide (x.find 4095 = some v ∧ c.cutOpen (c.solvPart r) = false ∧ ((match c.post r (svScq v.words) ((resultWords r v v.res false 5 c.now).map (fun y => (y, false))) with | .linked _ => true | _ => false) = true))) = true ∧
    (let w := []; let s := st { sv w { slots := [{ so1 .ended with status := 6, started := some 5 }] } [] with up := 0 }; let c := s.chip; let r := 15; let x := c.solver r; let v := { so1 .ended with status := 6, started := some 5 }; decide (x.find 4095 = some v ∧ c.cutOpen (c.solvPart r) = false ∧ ((match c.post r (svScq v.words) ((resultWords r v v.res false 5 c.now).map (fun y => (y, false))) with | .linked _ => true | _ => false) = true))) = true ∧
    (let w := []; let s := st { sv w { slots := [so1 .iterating] } [] with up := 0 }; let c := s.chip; let r := 15; let x := c.solver r; decide ((x.find 4095).isSome = true)) = true ∧
    (let w := []; let s := st { sv w { slots := [{ so1 .ended with status := 2, started := some 5 }] } [] with up := 0, steps := [(15, { cutDone := true })] }; let c := s.chip; let r := 15; let x := c.solver r; decide ((x.find 4095).isSome = true ∧ c.cutOpen (c.solvPart r) = true)) = true ∧
    (let w := []; let s := st { sv w { slots := [so1 .iterating] } [] with up := 0 }; let c := s.chip; let r := 15; decide (c.reaches .rm .SOLV_CMD r = true)) = true ∧
    (let w := []; let s := st { sv w { slots := [so1 .recorded] } [] with up := 0 }; let c := s.chip; let r := 15; decide (c.reaches .rm .SOLV_CMD r = true)) = true ∧
    (let w := []; let s := st { sv w {  } [] with up := 0 }; let c := s.chip; let r := 15; let x := c.solver r; decide (c.reaches .rm .SOLV_CMD r = true ∧ x.slots = [])) = true ∧
    (let w := []; let s := st { sv w { slots := [so1 .waiting], count := 1 } [] with up := 0, steps := [(15, { cutDone := true })] }; let c := s.chip; let r := 15; let x := c.solver r; decide (c.reaches .rm .SOLV_CMD r = true ∧ x.slots = [so1 .waiting] ∧ (so1 .waiting).order < x.count ∧ c.cutOpen (c.solvPart r) = true)) = true ∧
    (let s := st (svt 1 false []); let c := s.chip; let r := 15; let x := c.solver r; let u := 1023; decide (u / 64 = r ∧ (c.unit u).run.isSome = true ∧ (x.find 4095).map (fun v => v.stage) = some .setup ∧ c.inService u = true)) = true ∧
    (let s := st (svt 1 true []); let c := s.chip; let r := 15; let x := c.solver r; let u := 1023; let t0 : STile := ⟨4095, 0, 0, [[.one]], [[.one]], 1, true, 0, 0, none⟩; decide (u / 64 = r ∧ (c.unit u).run.isSome = true ∧ (x.find 4095).map (fun v => v.stage) = some .setup ∧ c.inService u = true ∧ failedRow (t0.eval (some ⟨0, 0, false, 29⟩)).2 ≠ none)) = true ∧
    (let s := st (svt 1 false []); let c := s.chip; let r := 15; let x := c.solver r; let u := 1023; let t0 : STile := ⟨4095, 0, 0, [[.one]], [[.one]], 1, false, 0, 0, none⟩; decide (u / 64 = r ∧ (c.unit u).run.isSome = true ∧ (x.find 4095).map (fun v => v.stage) = some .setup ∧ c.inService u = true ∧ failedRow (t0.eval (some ⟨0, 0, false, 29⟩)).2 ≠ none)) = true ∧
    (let s := st (svt 1 false []); let c := s.chip; let r := 15; let x := c.solver r; let u := 1023; let t0 : STile := ⟨4095, 0, 0, [[.one]], [[.one]], 1, false, 0, 0, none⟩; decide (u / 64 = r ∧ (c.unit u).run.isSome = true ∧ (x.find 4095).map (fun v => v.stage) = some .setup ∧ c.inService u = true ∧ failedRow (t0.eval none).2 = none)) = true := by
  decide +kernel

/-- Operands and states that meet the hypotheses of SolvesRun, clause by clause. -/
theorem test_hyps_SolvesRun_3 :
    (let s := st (svt 1 false [(.MXE_HEALTH_QUAR, 1023, 0, 1)]); let c := s.chip; let r := 15; let x := c.solver r; let u := 1023; decide (u / 64 = r ∧ (c.unit u).run.isSome = true ∧ (x.find 4095).map (fun v => v.stage) = some .setup ∧ c.inService u = false)) = true ∧
    (let s := st (svt 2 false []); let c := s.chip; let r := 15; let x := c.solver r; let u := 1023; decide ((c.press.all (fun y => (c.pressOf y.1).mwait.isEmpty)) = true ∧ u / 64 = r ∧ (c.unit u).run.isSome = true ∧ (x.find 4095).map (fun v => v.stage) = some .setup)) = true := by
  decide +kernel

/-- Partition 15 with tensor 9 registered in its mapping: class C, one row of one element, rule 0, areas in the Cellar. -/
def up (w : List Word) (x : SeqS) (j : UpdS) (l : List (Fld × Nat × Nat × Nat)) : Chip :=
  { sq w x ([(.CEL_UPD_CTL_EN, 15, 0, 1), (.PART_CLX_VALID, 15, 0, 1), (.PART_NTX_VALID, 15, 0, 1)] ++ l) with
    upds := [(15, j)]
    maps := [(15, { imgs := [(0, ⟨0, 0, 0, [0], [], [⟨9, 0, 0, true, true, false, false, 0, 0, 1, 1, 0, 0, 0, 3 * 2 ^ 60, 3 * 2 ^ 60 + 4096,
      3 * 2 ^ 60 + 2 ^ 16, 3 * 2 ^ 60 + 2 ^ 17, 1, 1⟩], [], []⟩)], cur := some 0 })] }
/-- An UPDATE of tensor t: its action and other fields of word 2, its rows, DATA. -/
def uw (act t rows data : Nat) : List Word := [hd 0x21 18 - 7 * 2 ^ 40, 0, Word.ofNat (act + t * 2 ^ 16 + 2 ^ 5), Word.ofNat (rows + 2 ^ 32), 0, Word.ofNat data, 0,
  Word.ofNat (3 * 2 ^ 60), Word.ofNat (3 * 2 ^ 60 + 4096), Word.ofNat (3 * 2 ^ 60 + 2 ^ 16), Word.ofNat (3 * 2 ^ 60 + 2 ^ 17), 0, 0, 0, 0, Word.ofNat (0x3F800000 * 2 ^ 32), 0, 0]
/-- A journal entry of tensor 9 of one row. -/
def je : JEnt := ⟨127, 3, 7, uw 0 9 1 (3 * 2 ^ 60 + 2 ^ 18), 0x3F800000, false, false, true, false, false⟩

/-- One step of updateApply, its results from the rules that its meaning cites. -/
theorem test_step_updateApply :
    (let w0 := uw 0 9 1 (3 * 2 ^ 60 + 2 ^ 18); let s := st { up w0 { gated := true } { jrnl := [je], win := [8] } [] with up := 0 }; let c := s.chip; let cl := 127; let p := 15; match execUpdateApply cl s with | .next t => decide ((t.chip.seq cl).nextId = (c.seq cl).nextId + 1 ∧ (t.chip.seq cl).lastTag = 0 ∧ (t.chip.upd p).win = [9, 8] ∧ (t.chip.upd p).jrnl = [je, { je with id := 0, tag := 0, clipf := c.clipOf p 9 }] ∧ t.chip.g .CEL_UPD_STAT_BUSY p = 1 ∧ t.chip.g .CEL_UPD_STAT_JRNL p = 2) | _ => false) = true := by
  decide +kernel

/-- One step of replayEnd, its results from the rules that its meaning cites. -/
theorem test_step_replayEnd :
    (let s := st (up [] { outst := [{ id := 3, hdr := 0, step := 1, lepoch := 0, left := 1 }] } { jrnl := [je, { je with live := false }], replay := true } []); let c := s.chip; let p := 15; let x := c.upd p; match execReplayEnd p s with | .next t => decide (t.chip.g .CEL_UPD_CMD_REPLAY p = 0 ∧ t.chip.g .CEL_UPD_STAT_REPLAYING p = 0 ∧ t.chip.g .CEL_UPD_STAT_BUSY p = 0 ∧ (t.chip.upd p).replay = false ∧ (t.chip.upd p).jrnl = x.jrnl.map (fun e => { e with live := false, stopped := false, counted := true }) ∧ t.chip.g .CEL_CNT_REPLAY_COUNT p = 2) | _ => false) = true := by
  decide +kernel

/-- One step of updatePlace, its results from the rules that its meaning cites. -/
theorem test_step_updatePlace :
    (let w0 := uw (2 ^ 11 + 2) 9 1 (2 ^ 60 + 15 * 2 ^ 32); let s := st { up w0 {  } {  } [] with up := 0 }; let c := s.chip; let cl := 127; match execUpdatePlace cl s with | .next t => decide ((t.chip.seq cl).nextId = (c.seq cl).nextId + 1 ∧ (t.chip.seq cl).lastTag = 0 ∧ t.chip.g .CLU_SEQ_CNT_COUNT cl = 1 ∧ t.chip.g .CLU_SEQ_STICKY_BAD_CMD cl = 1) | _ => false) = true := by
  decide +kernel

/-- One step of updateAdopt, its results from the rules that its meaning cites. -/
theorem test_step_updateAdopt :
    (let w0 := uw (3) 9 1 (2 ^ 60 + 15 * 2 ^ 32); let s := st { up w0 {  } {  } [] with up := 0 }; let c := s.chip; let cl := 127; match execUpdateAdopt cl s with | .next t => decide ((t.chip.seq cl).nextId = (c.seq cl).nextId + 1 ∧ (t.chip.seq cl).lastTag = 0 ∧ t.chip.g .CLU_SEQ_CNT_COUNT cl = 1 ∧ t.chip.g .CLU_SEQ_STICKY_BAD_CMD cl = 1) | _ => false) = true := by
  decide +kernel

/-- Operands and states that meet the hypotheses of UpdatesIssued, clause by clause. -/
theorem test_hyps_UpdatesIssued_1 :
    (let w0 := uw 0 9 1 (3 * 2 ^ 60 + 2 ^ 18); let s := st { up w0 { gated := true } { void := [je] } [] with up := 0 }; let c := s.chip; let cl := 127; let p := 15; let x := c.upd p; decide (offersB c cl w0 = true ∧ isOp 0x21 w0 = true ∧ upAct w0 = 0 ∧ x.voiding (upTensor w0) = true)) = true ∧
    (let w0 := uw (0) 9 0 (3 * 2 ^ 60 + 2 ^ 18); let s := st { up w0 {  } {  } [] with up := 0 }; let c := s.chip; let cl := 127; let p := 15; let x := c.upd p; let w := c.updPatched cl w0; decide (offersB c cl w0 = true ∧ isOp 0x21 w0 = true ∧ upAct w0 = 0 ∧ x.voiding (upTensor w0) = false ∧ upNothing w = true)) = true ∧
    (let w0 := uw (0) 9 1 (3 * 2 ^ 60 + 2 ^ 18); let s := st { up w0 {  } {  } [] with up := 0 }; let c := s.chip; let cl := 127; let p := 15; let x := c.upd p; let w := c.updPatched cl w0; decide (offersB c cl w0 = true ∧ isOp 0x21 w0 = true ∧ upAct w0 = 0 ∧ x.voiding (upTensor w0) = false ∧ upNothing w = false ∧ c.placedOk cl p w = false)) = true ∧
    (let w0 := uw (2 ^ 11 + 1) 9 0 (2 ^ 60 + 15 * 2 ^ 32); let s := st { up w0 {  } {  } [] with up := 0 }; let c := s.chip; let cl := 127; let p := 15; let x := c.upd p; let w := c.updPatched cl w0; decide (offersB c cl w0 = true ∧ isOp 0x21 w0 = true ∧ upAct w0 = 1 ∧ x.voiding (upTensor w0) = false ∧ upNothing w = true)) = true ∧
    (let w0 := uw (2 ^ 11 + 2) 9 0 (2 ^ 60 + 15 * 2 ^ 32); let s := st { up w0 {  } {  } [] with up := 0 }; let c := s.chip; let cl := 127; let p := 15; let x := c.upd p; let w := c.updPatched cl w0; decide (offersB c cl w0 = true ∧ isOp 0x21 w0 = true ∧ upAct w0 = 2 ∧ x.voiding (upTensor w0) = false ∧ upNothing w = true)) = true ∧
    (let w0 := uw (2 ^ 11 + 2) 9 1 (2 ^ 60 + 15 * 2 ^ 32); let s := st { up w0 {  } {  } [] with up := 0 }; let c := s.chip; let cl := 127; let p := 15; let x := c.upd p; let w := c.updPatched cl w0; decide (offersB c cl w0 = true ∧ isOp 0x21 w0 = true ∧ upAct w0 = 2 ∧ x.voiding (upTensor w0) = false ∧ upNothing w = false ∧ c.placedOk cl p w = false)) = true ∧
    (let w0 := uw (3) 9 0 (2 ^ 60 + 15 * 2 ^ 32); let s := st { up w0 {  } {  } [] with up := 0 }; let c := s.chip; let cl := 127; let p := 15; let x := c.upd p; let w := c.updPatched cl w0; decide (offersB c cl w0 = true ∧ isOp 0x21 w0 = true ∧ upAct w0 = 3 ∧ x.voiding (upTensor w0) = false ∧ upNothing w = true)) = true ∧
    (let w0 := uw (3) 9 1 (2 ^ 60 + 15 * 2 ^ 32); let s := st { up w0 {  } {  } [] with up := 0 }; let c := s.chip; let cl := 127; let p := 15; let x := c.upd p; let w := c.updPatched cl w0; decide (offersB c cl w0 = true ∧ isOp 0x21 w0 = true ∧ upAct w0 = 3 ∧ x.voiding (upTensor w0) = false ∧ upNothing w = false ∧ c.placedOk cl p w = false)) = true ∧
    (let w0 := uw (2 ^ 7) 9 1 (3 * 2 ^ 60 + 2 ^ 18); let s := st { up w0 { gated := true } {  } [] with up := 0 }; let c := s.chip; let cl := 127; let p := 15; let x := c.upd p; let w := c.updPatched cl w0; decide (offersB c cl w0 = true ∧ isOp 0x21 w0 = true ∧ upAct w0 = 0 ∧ x.voiding (upTensor w0) = false ∧ upNothing w = false ∧ c.placedOk cl p w = true ∧ upFreeze w = 1)) = true ∧
    (let w0 := uw 0 9 1 (3 * 2 ^ 60 + 2 ^ 18); let s := st { up w0 { gated := true } {  } [(.CEL_UPD_CTL_EN, 15, 0, 0)] with up := 0 }; let c := s.chip; let cl := 127; let p := 15; let x := c.upd p; let w := c.updPatched cl w0; decide (offersB c cl w0 = true ∧ isOp 0x21 w0 = true ∧ upAct w0 = 0 ∧ x.voiding (upTensor w0) = false ∧ upNothing w = false ∧ c.placedOk cl p w = true ∧ upFreeze w ≠ 1 ∧ c.updIssue p w ≠ 0)) = true ∧
    (let w0 := uw 0 9 1 (3 * 2 ^ 60 + 2 ^ 18); let s := st { up w0 { gated := true } { jrnl := [je], win := [8] } [] with up := 0 }; let c := s.chip; let cl := 127; let p := 15; let x := c.upd p; let w := c.updPatched cl w0; decide (offersB c cl w0 = true ∧ isOp 0x21 w0 = true ∧ upAct w0 = 0 ∧ x.voiding (upTensor w0) = false ∧ upNothing w = false ∧ c.placedOk cl p w = true ∧ upFreeze w ≠ 1 ∧ c.updIssue p w = 0)) = true ∧
    (let w0 := uw (2 ^ 11 + 1) 9 1 (2 ^ 60 + 15 * 2 ^ 32); let s := st { up w0 {  } {  } [(.CEL_UPD_CTL_EN, 15, 0, 0)] with up := 0 }; let c := s.chip; let cl := 127; let p := 15; let w := c.updPatched cl w0; decide (offersB c cl w0 = true ∧ isOp 0x21 w0 = true ∧ upAct w0 = 1 ∧ upNothing w = false ∧ c.placedOk cl p w = true ∧ c.updIssue p w ≠ 0)) = true := by
  decide +kernel

/-- Operands and states that meet the hypotheses of UpdatesIssued, clause by clause. -/
theorem test_hyps_UpdatesIssued_2 :
    (let w0 := uw (2 ^ 11 + 2) 9 1 (2 ^ 60 + 15 * 2 ^ 32); let s := st { up w0 { phase := 7 } {  } [(.CEL_UPD_CTL_EN, 15, 0, 0)] with up := 0 }; let c := s.chip; let cl := 127; let p := 15; let w := c.updPatched cl w0; decide (offersB c cl w0 = true ∧ isOp 0x21 w0 = true ∧ upAct w0 = 2 ∧ upNothing w = false ∧ c.placedOk cl p w = true ∧ c.updIssue p w ≠ 0)) = true ∧
    (let w0 := uw (3) 9 1 (2 ^ 60 + 15 * 2 ^ 32); let s := st { up w0 { epochMark := true } {  } [(.CEL_UPD_CTL_EN, 15, 0, 0)] with up := 0 }; let c := s.chip; let cl := 127; let p := 15; let w := c.updPatched cl w0; decide (offersB c cl w0 = true ∧ isOp 0x21 w0 = true ∧ upAct w0 = 3 ∧ upNothing w = false ∧ c.placedOk cl p w = true ∧ c.updIssue p w ≠ 0)) = true ∧
    (let w0 := uw (2 ^ 11 + 1) 9 1 (2 ^ 60 + 15 * 2 ^ 32); let s := st { up w0 {  } {  } [] with up := 0 }; let c := s.chip; let cl := 127; let p := 15; let w := c.updPatched cl w0; decide (offersB c cl w0 = true ∧ isOp 0x21 w0 = true ∧ upAct w0 = 1 ∧ upNothing w = false ∧ c.placedOk cl p w = true ∧ c.updIssue p w = 0)) = true ∧
    (let w0 := uw (2 ^ 11 + 2) 9 1 (2 ^ 60 + 15 * 2 ^ 32); let s := st { up w0 { phase := 7 } {  } [] with up := 0 }; let c := s.chip; let cl := 127; let p := 15; let w := c.updPatched cl w0; decide (offersB c cl w0 = true ∧ isOp 0x21 w0 = true ∧ upAct w0 = 2 ∧ upNothing w = false ∧ c.placedOk cl p w = true ∧ c.updIssue p w = 0)) = true ∧
    (let w0 := uw (3) 9 1 (2 ^ 60 + 15 * 2 ^ 32); let s := st { up w0 { epochMark := true } {  } [] with up := 0 }; let c := s.chip; let cl := 127; let p := 15; let w := c.updPatched cl w0; decide (offersB c cl w0 = true ∧ isOp 0x21 w0 = true ∧ upAct w0 = 3 ∧ upNothing w = false ∧ c.placedOk cl p w = true ∧ c.updIssue p w = 0)) = true ∧
    (let w := uw (2 ^ 11 + 1) 9 1 (2 ^ 60 + 15 * 2 ^ 32); let s := st { up [] { outst := [{ id := 3, hdr := wordAt w 0, step := 1, lepoch := 0, left := 1, aux := 1 }] } { moves := [{ cl := 127, id := 3, words := w }] } [] with up := 0, mem := [(regionKey 15 0, 7), (((up [] {} {} []).tierKey 15 (3 * 2 ^ 60 + 2 ^ 17)).getD 0, 8)] }; let c := s.chip; let cl := 127; let p := 15; let x := c.upd p; let kd := regionKey 15 0; let kw := (c.tierKey p (3 * 2 ^ 60 + 2 ^ 17)).getD 0; decide (c.partOfCl cl = p ∧ ((x.moves.find? (fun v => v.cl == cl && v.id == 3)).map UMove.words == some w) = true ∧ ((c.seq cl).outst.any (fun o => o.id == 3 && o.isOpen && !o.isCall)) = true ∧ upNothing w = false ∧ upRowsel w = false ∧ upRows w = 1 ∧ upLen w ≤ 32 ∧ (c.rowHdr p (upHdr w) 0).2 = (false, some 0) ∧ c.tierKey p (upData w) = some kd ∧ c.tierKey p (upWcAt w 0 0) = some kw ∧ upAct w = 1 ∧ upArea w = 1 ∧ ((c.setUpd p { x with moves := [] }).syncUpd p).fenceHit p (upData w) 64 = none)) = true ∧
    (let w := uw (2 ^ 11 + 2) 9 1 (2 ^ 60 + 15 * 2 ^ 32); let s := st { up [] { outst := [{ id := 3, hdr := wordAt w 0, step := 1, lepoch := 0, left := 1, aux := 1 }] } { moves := [{ cl := 127, id := 3, words := w }] } [] with up := 0, mem := [(regionKey 15 0, 7), (((up [] {} {} []).tierKey 15 (3 * 2 ^ 60 + 2 ^ 17)).getD 0, 8)] }; let c := s.chip; let cl := 127; let p := 15; let x := c.upd p; let kd := regionKey 15 0; let kw := (c.tierKey p (3 * 2 ^ 60 + 2 ^ 17)).getD 0; decide (c.partOfCl cl = p ∧ ((x.moves.find? (fun v => v.cl == cl && v.id == 3)).map UMove.words == some w) = true ∧ ((c.seq cl).outst.any (fun o => o.id == 3 && o.isOpen && !o.isCall)) = true ∧ upNothing w = false ∧ upRowsel w = false ∧ upRows w = 1 ∧ upLen w ≤ 32 ∧ (c.rowHdr p (upHdr w) 0).2 = (false, some 0) ∧ c.tierKey p (upData w) = some kd ∧ c.tierKey p (upWcAt w 0 0) = some kw ∧ upAct w = 2 ∧ hdrStamp (c.rowHdr p (upHdr w) 0).1 0 = c.g .HUB_STEP_SEALED_STEP p)) = true ∧
    (let w := uw (2 ^ 11 + 2) 9 1 (2 ^ 60 + 15 * 2 ^ 32); let s := st { up [] { outst := [{ id := 3, hdr := wordAt w 0, step := 1, lepoch := 0, left := 1, aux := 1 }] } { moves := [{ cl := 127, id := 3, words := w }] } [(.HUB_STEP_SEALED_STEP, 15, 0, 1)] with up := 0, mem := [(regionKey 15 0, 7), (((up [] {} {} []).tierKey 15 (3 * 2 ^ 60 + 2 ^ 17)).getD 0, 8)] }; let c := s.chip; let cl := 127; let p := 15; let x := c.upd p; let kd := regionKey 15 0; let kw := (c.tierKey p (3 * 2 ^ 60 + 2 ^ 17)).getD 0; decide (c.partOfCl cl = p ∧ ((x.moves.find? (fun v => v.cl == cl && v.id == 3)).map UMove.words == some w) = true ∧ ((c.seq cl).outst.any (fun o => o.id == 3 && o.isOpen && !o.isCall)) = true ∧ upNothing w = false ∧ upRowsel w = false ∧ upRows w = 1 ∧ upLen w ≤ 32 ∧ (c.rowHdr p (upHdr w) 0).2 = (false, some 0) ∧ c.tierKey p (upData w) = some kd ∧ c.tierKey p (upWcAt w 0 0) = some kw ∧ upAct w = 2 ∧ hdrStamp (c.rowHdr p (upHdr w) 0).1 0 ≠ c.g .HUB_STEP_SEALED_STEP p)) = true ∧
    (let w := uw (2 ^ 12 + 1) 9 1 (2 ^ 60 + 15 * 2 ^ 32); let s := st { up [] { outst := [{ id := 3, hdr := wordAt w 0, step := 1, lepoch := 0, left := 1, aux := 1 }] } { moves := [{ cl := 127, id := 3, words := w }] } [] with up := 0, mem := [(regionKey 15 0, 7), (((up [] {} {} []).tierKey 15 (3 * 2 ^ 60 + 2 ^ 17)).getD 0, 8)] }; let c := s.chip; let cl := 127; let p := 15; let x := c.upd p; decide (c.partOfCl cl = p ∧ ((x.moves.find? (fun v => v.cl == cl && v.id == 3)).map UMove.words == some w) = true ∧ ((c.seq cl).outst.any (fun o => o.id == 3 && o.isOpen && !o.isCall)) = true ∧ upAct w = 1 ∧ upArea w = 2 ∧ (c.rootView p (upRreg w) (upEntryL w)).1 = false)) = true ∧
    (let w := uw 3 9 1 (2 ^ 60 + 15 * 2 ^ 32); let s := st { up [] { outst := [{ id := 3, hdr := wordAt w 0, step := 1, lepoch := 0, left := 1, aux := 1 }] } { moves := [{ cl := 127, id := 3, words := w }] } [] with up := 0 }; let c := s.chip; let cl := 127; let p := 15; let x := c.upd p; decide (c.partOfCl cl = p ∧ ((x.moves.find? (fun v => v.cl == cl && v.id == 3)).map UMove.words == some w) = true ∧ ((c.seq cl).outst.any (fun o => o.id == 3 && o.isOpen && !o.isCall)) = true ∧ upAct w = 3)) = true := by
  decide +kernel

/-- Operands and states that meet the hypotheses of UpdatesRun, clause by clause. -/
theorem test_hyps_UpdatesRun_1 :
    (let s := st (up [] { outst := [{ id := 3, hdr := 0, step := 1, lepoch := 0, left := 1 }] } { jrnl := [{ je with live := false }] } []); let c := s.chip; let p := 15; let x := c.upd p; let e : JEnt := { je with live := false }; decide (x.jrnl[0]? = some e ∧ e.cl < 128 ∧ e.live = false)) = true ∧
    (let s := st (up [] { outst := [{ id := 3, hdr := 0, step := 1, lepoch := 0, left := 1 }] } { jrnl := [{ je with live := false }] } []); let c := s.chip; let p := 15; let x := c.upd p; let e : JEnt := { je with live := false }; decide (x.jrnl[0]? = some e ∧ e.cl < 128 ∧ e.live = false)) = true ∧
    (let s := st (up [] { outst := [{ id := 3, hdr := 0, step := 1, lepoch := 0, left := 1 }] } { jrnl := [{ je with stopped := true }] } []); let c := s.chip; let p := 15; let x := c.upd p; let e : JEnt := { je with stopped := true }; decide (x.jrnl[0]? = some e ∧ e.cl < 128 ∧ e.stopped = true)) = true ∧
    (let s := st (up [] { outst := [{ id := 3, hdr := 0, step := 1, lepoch := 0, left := 1 }] } { jrnl := [{ je with stopped := true }] } []); let c := s.chip; let p := 15; let x := c.upd p; let e : JEnt := { je with stopped := true }; decide (x.jrnl[0]? = some e ∧ e.cl < 128 ∧ e.stopped = true)) = true ∧
    (let s := st (up [] { outst := [{ id := 3, hdr := 0, step := 1, lepoch := 0, left := 1 }] } { jrnl := [je], replay := true } []); let c := s.chip; let p := 15; let x := c.upd p; let e : JEnt := je; decide (x.jrnl[0]? = some e ∧ e.cl < 128 ∧ x.replay = true)) = true ∧
    (let s := st (up [] { outst := [{ id := 3, hdr := 0, step := 1, lepoch := 0, left := 1 }] } { jrnl := [je], replay := true } []); let c := s.chip; let p := 15; let x := c.upd p; let e : JEnt := je; decide (x.jrnl[0]? = some e ∧ e.cl < 128 ∧ x.replay = true)) = true ∧
    (let e := { je with words := listSet (listSet je.words 2 (Word.ofNat (9 * 2 ^ 16))) 8 (Word.ofNat (2 * 2 ^ 60)) }; let s := st (up [] {} { jrnl := [e] } [(.CSK_STAT_FAULTMAP, 0, 0, 2 ^ 32 - 1)]); let c := s.chip; let p := 15; let x := c.upd p; decide (x.jrnl[0]? = some e ∧ e.cl < 128 ∧ e.live = true ∧ e.stopped = false ∧ x.replay = false ∧ c.casksUp p e.words = false)) = true ∧
    (let s := st (up [] { outst := [{ id := 3, hdr := 0, step := 1, lepoch := 0, left := 1 }] } { jrnl := [je] } []); let c := s.chip; let p := 15; let x := c.upd p; let e : JEnt := je; decide (x.jrnl[0]? = some e ∧ e.cl < 128 ∧ e.live = true ∧ e.stopped = false ∧ x.replay = false ∧ c.casksUp p e.words = true)) = true ∧
    (let s := st (up [] { outst := [{ id := 3, hdr := 0, step := 1, lepoch := 0, left := 1 }] } { jrnl := [{ je with bad := true }] } []); let c := s.chip; let p := 15; let x := c.upd p; let e : JEnt := { je with bad := true }; decide (x.jrnl[0]? = some e ∧ e.cl < 128 ∧ e.live = true ∧ e.stopped = false ∧ x.replay = false ∧ c.casksUp p e.words = true ∧ e.bad = true)) = true ∧
    (let s := st (up [] { outst := [{ id := 3, hdr := 0, step := 1, lepoch := 0, left := 1 }] } { jrnl := [je] } []); let c := s.chip; let p := 15; let x := c.upd p; let e : JEnt := je; decide (x.jrnl[0]? = some e ∧ e.cl < 128 ∧ e.live = true ∧ e.stopped = false ∧ x.replay = false ∧ True)) = true ∧
    (let s := st (up [] { outst := [{ id := 3, hdr := 0, step := 1, lepoch := 0, left := 1 }] } { jrnl := [je] } [(.HUB_PSEL_PART, 2, 0, 15)]); let c := s.chip; let p := 15; let x := c.upd p; decide (c.reaches .rm .CEL_UPD_CMD p = true ∧ x.replay = false)) = true ∧
    (let s := st (up [] { outst := [{ id := 3, hdr := 0, step := 1, lepoch := 0, left := 1 }] } { jrnl := [je] } []); let c := s.chip; let p := 15; decide (c.reaches (.vf 0 1) .CEL_UPD_CMD p = false)) = true := by
  decide +kernel

/-- Operands and states that meet the hypotheses of UpdatesRun, clause by clause. -/
theorem test_hyps_UpdatesRun_2 :
    (let s := st (up [] { outst := [{ id := 3, hdr := 0, step := 1, lepoch := 0, left := 1 }] } { jrnl := [je] } []); let c := s.chip; let p := 15; let x := c.upd p; decide (x.replay = false)) = true ∧
    (let s := st (up [] { outst := [{ id := 3, hdr := 0, step := 1, lepoch := 0, left := 1 }] } { jrnl := [je, { je with live := false }], replay := true } []); let c := s.chip; let p := 15; let x := c.upd p; decide (x.replay = true ∧ (∀ e ∈ x.jrnl, e.cl < 128) ∧ (∀ e ∈ x.jrnl, c.casksUp p e.words = true) ∧ x.moves = [])) = true ∧
    (let s := st { up [] {} {} [(.CEL_UPD_CTL_AUD_EN, 15, 0, 1), (.CEL_UPD_CTL_AUD_SHIFT, 15, 0, 0), (.HUB_STEP_PHASE, 15, 0, 5)] with up := 0 }; let c := s.chip; let p := 15; decide (c.regTensor p 8 = none)) = true ∧
    (let s := st { up [] {} {} [(.CEL_UPD_CTL_AUD_EN, 15, 0, 0), (.CEL_UPD_CTL_AUD_SHIFT, 15, 0, 0), (.HUB_STEP_PHASE, 15, 0, 5)] with up := 0 }; let c := s.chip; let p := 15; decide (c.g .CEL_UPD_CTL_AUD_EN p = 0)) = true ∧
    (let s := st { up [] {} {} [(.CEL_UPD_CTL_AUD_EN, 15, 0, 1), (.CEL_UPD_CTL_AUD_SHIFT, 15, 0, 0), (.HUB_STEP_PHASE, 15, 0, 0)] with up := 0 }; let c := s.chip; let p := 15; decide ((c.g .HUB_STEP_PHASE p = 0 ∨ 6 ≤ c.g .HUB_STEP_PHASE p))) = true ∧
    (let s := st { up [] {} {} [(.CEL_UPD_CTL_AUD_EN, 15, 0, 1), (.CEL_UPD_CTL_AUD_SHIFT, 15, 0, 0), (.HUB_STEP_PHASE, 15, 0, 6)] with up := 0 }; let c := s.chip; let p := 15; decide ((c.g .HUB_STEP_PHASE p = 0 ∨ 6 ≤ c.g .HUB_STEP_PHASE p))) = true ∧
    (let s := st { up [] {} {} [(.CEL_UPD_CTL_AUD_EN, 15, 0, 1), (.CEL_UPD_CTL_AUD_SHIFT, 15, 0, 0), (.HUB_STEP_PHASE, 15, 0, 1)] with up := 0 }; let c := s.chip; let p := 15; let kw := (c.tierKey p (3 * 2 ^ 60 + 2 ^ 16)).getD 0; let kc := (c.tierKey p (3 * 2 ^ 60 + 2 ^ 17)).getD 0; decide ((c.regTensor p 9).isSome = true ∧ c.g .CEL_UPD_CTL_AUD_EN p = 1 ∧ c.g .HUB_STEP_PHASE p = 1 ∧ c.shardAt p ((c.regTensor p 9).getD ⟨0, 0, 0, false, false, false, false, 0, 0, 0, 0, 0, 0, 0, 0, 0, 0, 0, 0, 0⟩) = (0, 0) ∧ draw (c.rd .HUB_SEED p).toNat 9 0 (c.step p) 0xFE % 2 ^ c.g .CEL_UPD_CTL_AUD_SHIFT p = 0 ∧ (c.rowHdr p (3 * 2 ^ 60) 0).2.2 = some 0 ∧ c.tierKey p (3 * 2 ^ 60 + 2 ^ 16) = some kw ∧ c.tierKey p (3 * 2 ^ 60 + 2 ^ 17) = some kc ∧ encodeF bf16 (roundF bf16 .rne (decodeF fp32 (c.num kw 4))) = c.num kc 2)) = true ∧
    (let s := st { up [] {} {} [(.CEL_UPD_CTL_AUD_EN, 15, 0, 1), (.CEL_UPD_CTL_AUD_SHIFT, 15, 0, 0), (.HUB_STEP_PHASE, 15, 0, 5)] with up := 0, mem := [(regionKey 15 0, 7), (((up [] {} {} []).tierKey 15 (3 * 2 ^ 60 + 2 ^ 17)).getD 0, 8)] }; let c := s.chip; let p := 15; let kw := (c.tierKey p (3 * 2 ^ 60 + 2 ^ 16)).getD 0; let kc := (c.tierKey p (3 * 2 ^ 60 + 2 ^ 17)).getD 0; decide ((c.regTensor p 9).isSome = true ∧ c.g .CEL_UPD_CTL_AUD_EN p = 1 ∧ c.g .HUB_STEP_PHASE p = 5 ∧ c.shardAt p ((c.regTensor p 9).getD ⟨0, 0, 0, false, false, false, false, 0, 0, 0, 0, 0, 0, 0, 0, 0, 0, 0, 0, 0⟩) = (0, 0) ∧ draw (c.rd .HUB_SEED p).toNat 9 0 (c.step p) 0xFE % 2 ^ c.g .CEL_UPD_CTL_AUD_SHIFT p = 0 ∧ (c.rowHdr p (3 * 2 ^ 60) 0).2.2 = some 0 ∧ c.tierKey p (3 * 2 ^ 60 + 2 ^ 16) = some kw ∧ c.tierKey p (3 * 2 ^ 60 + 2 ^ 17) = some kc ∧ encodeF bf16 (roundF bf16 .rne (decodeF fp32 (c.num kw 4))) ≠ c.num kc 2)) = true ∧
    (let s := st (chip [(.CSK_STAT_FAULTMAP, 0, 7, 2 ^ 31)]); let c := s.chip; decide ((8 ≤ 8 ∨ 32 ≤ 0 ∨ bit (c.g .CSK_STAT_FAULTMAP 0 8) 0 = true))) = true ∧
    (let s := st (chip [(.CSK_STAT_FAULTMAP, 0, 7, 2 ^ 31)]); let c := s.chip; decide ((8 ≤ 7 ∨ 32 ≤ 32 ∨ bit (c.g .CSK_STAT_FAULTMAP 0 7) 32 = true))) = true ∧
    (let s := st (chip [(.CSK_STAT_FAULTMAP, 0, 7, 2 ^ 31)]); let c := s.chip; decide ((8 ≤ 7 ∨ 32 ≤ 31 ∨ bit (c.g .CSK_STAT_FAULTMAP 0 7) 31 = true))) = true ∧
    (let s := st (chip [(.CSK_STAT_FAULTMAP, 0, 7, 0)]); let c := s.chip; decide (bit (c.g .CSK_STAT_FAULTMAP 0 7) 31 = false ∧ 2 ^ 31 ≠ 2 ^ 32 - 1)) = true := by
  decide +kernel

/-- Operands and states that meet the hypotheses of UpdatesRun, clause by clause. -/
theorem test_hyps_UpdatesRun_3 :
    (let s := st (chip [(.CSK_STAT_FAULTMAP, 0, 7, 2 ^ 32 - 2)]); let c := s.chip; decide (bit (c.g .CSK_STAT_FAULTMAP 0 7) 0 = false)) = true := by
  decide +kernel

/-- Link 5 (Z−) of module 0 in a ring of 1 × 1 × 2 modules, enabled and in a STATE, with more fields set; routes to modules 0–3: this
module, link 5, discarded, link 5. -/
def lk (st : Nat) (x : LinkS) (l : List (Fld × Nat × Nat × Nat)) : Chip :=
  { chip ([(.FAB_LINK_STAT_STATE, 0, 5, st), (.FAB_CTL_LEN, 0, 0, 32), (.FAB_TOPO_DXM1, 0, 0, 0), (.FAB_TOPO_DYM1, 0, 0, 0), (.FAB_TOPO_DZM1, 0, 0, 1), (.FAB_TOPO_WRAP, 0, 0, 7), (.FAB_ID_VALID, 0, 0, 1),
      (⟨.FAB_RT, 31, 0⟩, 0, 0, 6 + 5 * 2 ^ 8 + 7 * 2 ^ 16 + 5 * 2 ^ 24), (.FAB_JOB_JTAG, 15, 0, 9), (⟨.FAB_PERM, 63, 0⟩, 15, 0, 3),
      (⟨.FAB_PERM, 63, 0⟩, 15, 4, 1)] ++ l) with
    links := [(5, x)], up := 2000000000 }
/-- Four lanes of port 2 with readiness, or with markers found at a position. -/
def rdy (n : Nat) : List (Nat × LaneT) := (List.range 4).map (fun i => (8 + i, { ready := if i = 3 then n else 3 }))
def lck (n : Nat) : List (Nat × LaneT) :=
  (List.range 4).map (fun i => (8 + i, { marker := i, portid := 1, pos := if i = 3 ∧ n = 1 then 5 else 6, hits := if i = 3 then n else 2 }))
/-- An alignment block with the marker of lane 3. -/
def ab (lsn : Nat) : AlignBlock := ⟨0xC31BE468, 1, lsn, 65535 - (1 ^^^ lsn), 6⟩

/-- A packet of a type to a module with NDATA data flits and a virtual channel. -/
def pk (ty dst n vc hops : Nat) : Pkt :=
  { hdr := [Word.ofNat (ty + vc * 2 ^ 8 + dst * 2 ^ 12 + n * 2 ^ 38 + hops * 2 ^ 45), 0, 0, 0, 0, 0, 0, 0], words := List.replicate (8 * n) 0, poison := List.replicate n false }

/-- One step of linkDisable, its results from the rules that its meaning cites. -/
theorem test_step_linkDisable :
    (let s := st { lk 7 { tries := 2 } [] with fresh := 0 }; let d := 5; match execLinkDisable .rm d s with | .next t => decide (t.chip.g .FAB_CTL_LEN 0 = 0 ∧ t.chip.g .FAB_LINK_STAT_CAUSE 0 d = 11 ∧ t.chip.g .FAB_STICKY_LINK_DOWN 0 = 1) | _ => false) = true := by
  decide +kernel

/-- One step of checkTimeout, its results from the rules that its meaning cites. -/
theorem test_step_checkTimeout :
    (let s := st { lk 5 { since := 1999000000, fail := some 14 } [] with fresh := 0 }; let d := 5; match execCheckTimeout d s with | .next t => decide (t.chip.g .FAB_LINK_STAT_PORTS_UP 0 d = 0 ∧ t.chip.g .FAB_LINK_STAT_CAUSE 0 d = 14 ∧ t.chip.g .FAB_STICKY_CHECK_FAIL 0 = 1) | _ => false) = true := by
  decide +kernel

/-- One step of packetInject, its results from the rules that its meaning cites. -/
theorem test_step_packetInject :
    (let s := st { lk 6 {  } [(⟨.FAB_RT, 31, 0⟩, 0, 0, 7)] with fresh := 0 }; let k := pk 0x10 0 0 2 0; match execPacketInject 15 k s with | .next t => decide (t.chip.out = [] ∧ t.chip.g .FAB_STICKY_ROUTE_DROP 0 = 1 ∧ t.chip.g .FAB_CNT_COUNT 0 2 = 1) | _ => false) = true := by
  decide +kernel

/-- One step of packetForward, its results from the rules that its meaning cites. -/
theorem test_step_packetForward :
    (let s := st { lk 6 {  } [] with fresh := 0 }; let k := pk 0x10 2 0 2 0; match execPacketForward 4 k s with | .next t => decide (t.chip.out = [] ∧ t.chip.g .FAB_STICKY_ROUTE_DROP 0 = 1 ∧ t.chip.g .FAB_CNT_COUNT 0 2 = 1) | _ => false) = true := by
  decide +kernel

/-- Operands and states that meet the hypotheses of LinksComeUp, clause by clause. -/
theorem test_hyps_LinksComeUp_1 :
    (let s := st { lk 6 {  } [] with fresh := 0 }; let c := s.chip; let d := 5; decide (bit (c.g .FAB_CTL_LEN 0) d = true)) = true ∧
    (let s := st { lk 6 {  } [] with fresh := 0 }; let c := s.chip; decide (c.reaches (.vf 0 1) .FAB_CTL 0 = false)) = true ∧
    (let s := st { lk 0 {  } [(.FAB_CTL_LEN, 0, 0, 0)] with fresh := 0 }; let c := s.chip; let d := 5; decide (bit (c.g .FAB_CTL_LEN 0) d = false)) = true ∧
    (let s := st { lk 0 { retrains := [3] } [(.FAB_CTL_LEN, 0, 0, 0)] with fresh := 0 }; let c := s.chip; let d := 5; decide (c.reaches .rm .FAB_CTL 0 = true ∧ bit (c.g .FAB_CTL_LEN 0) d = false ∧ c.neighbour (c.g .FAB_ID_ID 0) d ≠ none)) = true ∧
    (let s := st { lk 0 { retrains := [3] } [(.FAB_CTL_LEN, 0, 0, 0), (.FAB_TOPO_WRAP, 0, 0, 3)] with fresh := 0 }; let c := s.chip; let d := 5; decide (c.reaches .rm .FAB_CTL 0 = true ∧ bit (c.g .FAB_CTL_LEN 0) d = false ∧ c.neighbour (c.g .FAB_ID_ID 0) d = none)) = true ∧
    (let s := st { lk 7 { tries := 2 } [] with fresh := 0 }; let c := s.chip; let d := 5; decide (c.reaches .rm .FAB_CTL 0 = true ∧ bit (c.g .FAB_CTL_LEN 0) d = true)) = true ∧
    (let s := st { lk 2 {  } [] with fresh := 0 }; let c := s.chip; let d := 5; decide (c.linkState d ≠ 1)) = true ∧
    (let s := st { lk 1 {  } [] with fresh := 0 }; let c := s.chip; let d := 5; decide (popcount 3 0 < bondMin (c.rd .FAB_LINK_CFG 0 d))) = true ∧
    (let s := st { lk 1 { lanes := rdy 3 } [] with fresh := 0 }; let c := s.chip; let d := 5; decide (c.linkState d = 1 ∧ bondMin (c.rd .FAB_LINK_CFG 0 d) ≤ popcount 3 4)) = true ∧
    (let s := st { lk 3 { ports := 4 } [] with fresh := 0 }; let c := s.chip; let d := 5; let x := c.link' d; decide (bit x.ports 2 = true ∧ c.linkState d ≠ 2)) = true ∧
    (let s := st { lk 2 { ports := 4, lanes := rdy 1 } [] with fresh := 0 }; let c := s.chip; let d := 5; let x := c.link' d; decide (bit x.ports 2 = true ∧ c.linkState d = 2 ∧ popcount 3 x.trained < bondMin x.cfg)) = true ∧
    (let s := st { lk 2 { ports := 4, lanes := rdy 2 } [] with fresh := 0 }; let c := s.chip; let d := 5; let x := c.link' d; decide (bit x.ports 2 = true ∧ c.linkState d = 2 ∧ popcount 3 x.trained < bondMin x.cfg)) = true := by
  decide +kernel

/-- Operands and states that meet the hypotheses of LinksComeUp, clause by clause. -/
theorem test_hyps_LinksComeUp_2 :
    (let s := st { lk 2 { since := 1750000001 } [] with fresh := 0 }; let c := s.chip; let d := 5; decide (c.expired d 2 250000000 = false)) = true ∧
    (let s := st { lk 2 { since := 1750000000, tries := 1 } [] with fresh := 0 }; let c := s.chip; let d := 5; let x := c.link' d; decide (c.expired d 2 250000000 = true ∧ x.tries < 2)) = true ∧
    (let s := st { lk 2 { since := 1750000000, tries := 2 } [] with fresh := 0 }; let c := s.chip; let d := 5; let x := c.link' d; decide (c.expired d 2 250000000 = true ∧ 2 ≤ x.tries)) = true ∧
    (let s := st { lk 3 { ports := 4, lanes := lck 0 } [] with fresh := 0 }; let c := s.chip; let d := 5; let x := c.link' d; decide (bit x.ports 2 = true ∧ c.linkState d = 3)) = true ∧
    (let s := st { lk 3 { ports := 4, lanes := lck 1 } [] with fresh := 0 }; let c := s.chip; let d := 5; let x := c.link' d; decide (bit x.ports 2 = true ∧ c.linkState d = 3)) = true ∧
    (let s := st { lk 4 { ports := 4 } [] with fresh := 0 }; let c := s.chip; let d := 5; let x := c.link' d; decide (bit x.ports 2 = true ∧ c.linkState d = 4 ∧ blockValid (ab 0) = true ∧ (markerLane (ab 0).marker).isSome = true ∧ bondMin x.cfg ≤ popcount 3 x.ports)) = true ∧
    (let s := st { lk 6 { ports := 4, rxCnt := 65535, lanes := [(11, { miss := 3 })] } [] with fresh := 0 }; let c := s.chip; let d := 5; let x := c.link' d; decide (bit x.ports 2 = true ∧ c.linkState d = 6 ∧ (markerLane (ab 65535).marker).isSome = true ∧ blockValid (ab 65535) = true ∧ 65535 = (x.rxCnt + memberRank x.ports 2) % 65536)) = true ∧
    (let s := st { lk 6 { ports := 4, lanes := [(11, { miss := 3 })] } [] with fresh := 0 }; let c := s.chip; let d := 5; let x := c.link' d; decide (bit x.ports 2 = true ∧ c.linkState d = 6 ∧ markerLane 0 = none ∧ 3 ≤ (x.lane 2 3).miss)) = true ∧
    (let s := st { lk 3 { since := 1999000001 } [] with fresh := 0 }; let c := s.chip; let d := 5; decide (c.expired d 3 1000000 = false)) = true ∧
    (let s := st { lk 3 { since := 1999000000 } [] with fresh := 0 }; let c := s.chip; let d := 5; decide (c.expired d 3 1000000 = true)) = true ∧
    (let s := st { lk 4 { since := 1999900001 } [] with fresh := 0 }; let c := s.chip; let d := 5; decide (c.expired d 4 100000 = false)) = true ∧
    (let s := st { lk 4 { since := 1999900000 } [] with fresh := 0 }; let c := s.chip; let d := 5; decide (c.expired d 4 100000 = true)) = true := by
  decide +kernel

/-- Operands and states that meet the hypotheses of LinksComeUp, clause by clause. -/
theorem test_hyps_LinksComeUp_3 :
    (let s := st { lk 5 { since := 1999000001 } [] with fresh := 0 }; let c := s.chip; let d := 5; decide (c.expired d 5 1000000 = false)) = true ∧
    (let s := st { lk 5 { since := 1999000000, fail := some 14 } [] with fresh := 0 }; let c := s.chip; let d := 5; decide (c.expired d 5 1000000 = true)) = true ∧
    (let s := st { lk 7 { since := 1998000001 } [] with fresh := 0 }; let c := s.chip; let d := 5; decide (c.expired d 7 2000000 = false)) = true ∧
    (let s := st { lk 7 { since := 1998000000 } [] with fresh := 0 }; let c := s.chip; let d := 5; decide (c.expired d 7 2000000 = true)) = true ∧
    (let s := st { lk 4 {  } [] with fresh := 0 }; let c := s.chip; let d := 5; decide (c.linkState d ≠ 5 ∧ c.linkState d ≠ 6)) = true ∧
    (let s := st { lk 5 {  } [] with fresh := 0 }; let c := s.chip; let d := 5; decide (c.linkState d = 5 ∧ c.helloCheck d ⟨false, 255, 4, wbits (c.rd .FAB_TOPO 0) 15 0, 1, 6144, 256, 0⟩ = some 6)) = true ∧
    (let s := st { lk 5 {  } [] with fresh := 0 }; let c := s.chip; let d := 5; decide (c.linkState d = 5 ∧ c.helloCheck d ⟨false, 256, 4, wbits (c.rd .FAB_TOPO 0) 15 0, 1, 6144, 256, 0⟩ = none)) = true := by
  decide +kernel

/-- Operands and states that meet the hypotheses of LinkLayer, clause by clause. -/
theorem test_hyps_LinkLayer_1 :
    (let s := st { lk 7 { tx := 9 } [] with fresh := 0 }; let c := s.chip; let d := 5; decide (c.linkActive d = false)) = true ∧
    (let s := st { lk 7 { tx := 9 } [] with fresh := 0 }; let c := s.chip; let d := 5; decide (c.linkActive d = false)) = true ∧
    (let s := st { lk 7 { tx := 9 } [] with fresh := 0 }; let c := s.chip; let d := 5; decide (c.linkActive d = false)) = true ∧
    (let s := st { lk 7 { tx := 9 } [] with fresh := 0 }; let c := s.chip; let d := 5; decide (c.linkActive d = false)) = true ∧
    (let s := st { lk 7 { tx := 9 } [] with fresh := 0 }; let c := s.chip; let d := 5; decide (c.linkActive d = false)) = true ∧
    (let s := st { lk 7 { tx := 9 } [] with fresh := 0 }; let c := s.chip; let d := 5; decide (c.linkActive d = false)) = true ∧
    (let s := st { lk 6 { flowAt := 1999990001 } [] with fresh := 0 }; let c := s.chip; let d := 5; let x := c.link' d; decide (c.linkActive d = true ∧ c.chold = [] ∧ c.up < x.flowAt + 10000)) = true ∧
    (let s := st { lk 6 { flowAt := 1999990000, retrains := [1000000001, 1000000001, 1000000001, 1000000000] } [] with fresh := 0 }; let c := s.chip; let d := 5; let x := c.link' d; decide (c.linkActive d = true ∧ c.chold = [] ∧ x.flowAt + 10000 ≤ c.up)) = true ∧
    (let s := st { lk 6 { flowAt := 1999990000, retrains := List.replicate 4 1000000001 } [] with fresh := 0 }; let c := s.chip; let d := 5; let x := c.link' d; decide (c.linkActive d = true ∧ c.chold = [] ∧ x.flowAt + 10000 ≤ c.up)) = true ∧
    (let s := st { lk 6 { nak := true } [] with fresh := 0 }; let c := s.chip; let d := 5; let x := c.link' d; decide (c.linkActive d = true ∧ c.chold = [] ∧ x.nak = true)) = true ∧
    (let s := st { lk 6 { rxCnt := 65535 } [(.FAB_LINK_FEC_UNCORR, 0, 5, 2 ^ 32 - 1)] with fresh := 0 }; let c := s.chip; let d := 5; let x := c.link' d; decide (c.linkActive d = true ∧ c.chold = [] ∧ x.nak = false)) = true ∧
    (let s := st { lk 6 { rxCnt := 65535, rxDone := 65535 } [] with fresh := 0 }; let c := s.chip; let d := 5; let x := c.link' d; decide (c.linkActive d = true ∧ c.chold = [] ∧ x.nak = false ∧ 15 ≤ wbits x.cfg 3 0 ∧ x.since32 < 31 ∧ (cwSlots ⟨some 15, 0⟩).all (· == .idle) = true)) = true := by
  decide +kernel

/-- Operands and states that meet the hypotheses of LinkLayer, clause by clause. -/
theorem test_hyps_LinkLayer_2 :
    (let s := st { lk 6 { rxCnt := 65534, rxDone := 65535 } [] with fresh := 0 }; let c := s.chip; let d := 5; let x := c.link' d; decide (c.linkActive d = true ∧ c.chold = [] ∧ x.nak = false ∧ 15 ≤ wbits x.cfg 3 0 ∧ x.since32 < 31 ∧ x.rxCnt ≠ x.rxDone)) = true ∧
    (let s := st { lk 6 {  } [] with fresh := 0 }; let c := s.chip; let d := 5; let x := c.link' d; decide (c.linkActive d = true ∧ c.chold = [] ∧ x.nak = false ∧ 15 ≤ wbits x.cfg 3 0 ∧ x.since32 < 31 ∧ x.rxCnt = x.rxDone ∧ x.cur = none ∧ kType (pk 0x40 0 0 0 0) ≠ 1 ∧ kType (pk 0x40 0 0 0 0) ≠ 2 ∧ kNdata (pk 0x40 0 0 0 0) = 0 ∧ cwSlots ⟨some 15, cwMessage [.head (pk 0x40 0 0 0 0).hdr]⟩ = .head (pk 0x40 0 0 0 0).hdr :: List.replicate 9 .idle)) = true ∧
    (let s := st { lk 6 {  } [] with fresh := 0 }; let c := s.chip; let d := 5; let x := c.link' d; decide (c.linkActive d = true ∧ c.chold = [] ∧ x.nak = false ∧ 15 ≤ wbits x.cfg 3 0 ∧ x.since32 < 31 ∧ x.rxCnt = x.rxDone ∧ x.cur = none ∧ (cwSlots ⟨some 15, cwMessage [.data false []]⟩).head? = some (.data false (List.replicate 8 0)))) = true ∧
    (let s := st { lk 6 { nak := true } [] with fresh := 0 }; let c := s.chip; let d := 5; decide (c.linkActive d = true ∧ c.chold = [] ∧ True)) = true ∧
    (let s := st { lk 6 { credits := List.replicate 9 1 } [] with fresh := 0 }; let c := s.chip; let d := 5; let x := c.link' d; decide (c.linkActive d = true ∧ c.chold = [] ∧ x.wait = [])) = true ∧
    (let s := st { lk 6 { ack := 65535, tx := 2, buf := [(65535, (pk 0x40 0 0 0 0)), (1, (pk 0x40 0 0 0 0))], reps := 3 } [] with fresh := 0 }; let c := s.chip; let d := 5; let x := c.link' d; decide (c.linkActive d = true ∧ c.chold = [] ∧ x.wait = [] ∧ 0 < (0 + 1 + 65536 - x.ack) % 65536 ∧ (0 + 1 + 65536 - x.ack) % 65536 ≤ x.unacked)) = true ∧
    (let s := st { lk 6 {  } [] with fresh := 0 }; let c := s.chip; let d := 5; let x := c.link' d; decide (c.linkActive d = true ∧ c.chold = [] ∧ x.unacked = 0)) = true ∧
    (let s := st { lk 6 { tx := 1023, ackAt := 1999990001 } [] with fresh := 0 }; let c := s.chip; let d := 5; let x := c.link' d; decide (c.linkActive d = true ∧ c.chold = [] ∧ c.up < x.ackAt + 10000 ∧ x.unacked < 1024)) = true ∧
    (let s := st { lk 6 { tx := 1, ackAt := 1999990000, reps := 6, buf := [(0, (pk 0x40 0 0 0 0))] } [] with fresh := 0 }; let c := s.chip; let d := 5; let x := c.link' d; decide (c.linkActive d = true ∧ c.chold = [] ∧ 0 < x.unacked ∧ x.ackAt + 10000 ≤ c.up ∧ x.reps < 7)) = true ∧
    (let s := st { lk 6 { wait := [(1998999999, false, (pk 0x40 0 0 0 0))] } [] with fresh := 0 }; let c := s.chip; let d := 5; let x := c.link' d; decide (c.linkActive d = true ∧ c.chold = [] ∧ kVc (pk 0x40 0 0 0 0) = 0 ∧ 1998999999 + 1000000 < c.up ∧ x.poolFor (pk 0x40 0 0 0 0) = none)) = true ∧
    (let k := pk 0x42 0 0 0 0; decide (vcOfType (kType k) = none)) = true ∧
    (let s := st { lk 6 {  } [] with fresh := 0 }; let c := s.chip; let k := pk 0x10 3 0 2 0; decide (kType k ≠ 0x41 ∧ c.mayInject 15 (kDst k) = false)) = true := by
  decide +kernel

/-- Operands and states that meet the hypotheses of LinkLayer, clause by clause. -/
theorem test_hyps_LinkLayer_3 :
    (let s := st { lk 6 {  } [] with fresh := 0 }; let c := s.chip; let k := pk 0x10 0 0 2 0; decide (vcOfType (kType k) = some 2 ∧ kType k ≠ 0x41 ∧ c.mayInject 15 (kDst k) = true ∧ c.routeOf (kDst k) = 6)) = true ∧
    (let s := st { lk 6 {  } [(⟨.FAB_RT, 31, 0⟩, 0, 0, 7)] with fresh := 0 }; let c := s.chip; let k := pk 0x10 0 0 2 0; decide (vcOfType (kType k) = some 2 ∧ kType k ≠ 0x41 ∧ c.mayInject 15 (kDst k) = true ∧ c.routeOf (kDst k) = 7)) = true ∧
    (let s := st { lk 6 {  } [] with fresh := 0 }; let c := s.chip; let k := pk 0x10 0 0 2 0; decide (c.chold = [] ∧ k.hdr.length = 8 ∧ c.arrived = [] ∧ c.routeOf (kDst k) = 6)) = true ∧
    (let s := st { lk 6 {  } [] with fresh := 0 }; let c := s.chip; let k := pk 0x10 2 0 2 0; decide (c.chold = [] ∧ k.hdr.length = 8 ∧ c.arrived = [] ∧ c.routeOf (kDst k) = 7)) = true ∧
    (let s := st { lk 6 {  } [] with fresh := 0 }; let c := s.chip; let k := pk 0x10 1 0 2 63; decide (c.chold = [] ∧ k.hdr.length = 8 ∧ c.arrived = [] ∧ c.routeOf (kDst k) = 5 ∧ kHops k = 63)) = true ∧
    (let s := st { lk 7 {  } [] with fresh := 0 }; let c := s.chip; let k := pk 0x10 1 0 2 0; decide (c.chold = [] ∧ k.hdr.length = 8 ∧ c.arrived = [] ∧ c.routeOf (kDst k) = 5 ∧ c.linkActive 5 = false)) = true ∧
    (let s := st { lk 6 { credits := List.replicate 9 2, tx := 1023 } [] with fresh := 0 }; let c := s.chip; let d := 5; let x := c.link' d; let k := pk 0x10 1 1 2 62; decide (c.chold = [] ∧ k.hdr.length = 8 ∧ c.arrived = [] ∧ c.routeOf (kDst k) = 5 ∧ c.linkActive 5 = true ∧ kHops k < 63 ∧ x.wait = [] ∧ x.unacked + kCodewords k ≤ 1024 ∧ (∀ i ∈ List.range 9, kFlits k ≤ x.credits.getD i 0))) = true := by
  decide +kernel

/-- A packet with a right PCRC: type, channel, source, NDATA, and header words 1 (job tag 9 or as given) to 4. -/
def pkt (ty vc src n w1 w2 w3 w4 : Nat) : Pkt :=
  let k : Pkt := { hdr := [Word.ofNat (ty + vc * 2 ^ 8 + src * 2 ^ 25 + n * 2 ^ 38), Word.ofNat w1, Word.ofNat w2, Word.ofNat w3, Word.ofNat w4, 0, 0, 0]
                   words := (List.range (8 * n)).map Word.ofNat, poison := List.replicate n false }
  { k with hdr := listSet k.hdr 7 (Word.ofNat (pcrc k)) }
/-- The module of `lk` with partition 15 running with job tag 9 in region 15. -/
def rx (x : LinkS) (l : List (Fld × Nat × Nat × Nat)) : Chip :=
  lk 6 x ([(.PART_OWN_OWNED, 0, 15, 1), (.PART_OWN_OWNER, 0, 15, 15), (.PART_STAT_STATE, 15, 0, 3), (.QP_QCFG_EN, 15, 1023, 1), (.QP_QCFG_MAX_CELLS, 15, 1023, 8)] ++ l)

/-- One step of tsyncRspRecv, its results from the rules that its meaning cites. -/
theorem test_step_tsyncRspRecv :
    (let s := st { lk 6 {} [(.FAB_TIME_CTL_EN, 0, 0, 1), (.FAB_TIME_STAT_PARENT, 0, 0, 5), (.FAB_TIME_CTL_PERIOD, 0, 0, 1000), (.FAB_TIME_STAT_HOLDOVER, 0, 0, 1)] with time := { pend := some (100, 7), good := 3, holdAt := some 5 }, now := 5 }; match execTsyncRspRecv 5 ⟨100, 327780, 100, 7, true, false⟩ s with | .next t => decide (t.chip.g .FAB_TIME_STAT_LOCKED 0 = 1 ∧ t.chip.g .FAB_TIME_STAT_HOLDOVER 0 = 0 ∧ t.chip.g .FAB_TIME_STAT_TIME_OK 0 = 1) | _ => false) = true := by
  decide +kernel

/-- One step of qpushRecv, its results from the rules that its meaning cites. -/
theorem test_step_qpushRecv :
    (let k := { pkt 0x10 2 0 1 9 (15 + 1023 * 2 ^ 4 + 8 * 2 ^ 14) 0 0 with poison := List.replicate 9 true }; let s := st { rx {  } [] with fresh := 0 }; match execQpushRecv k s with | .next t => decide (t.chip.g .FAB_STICKY_MALFORMED 0 = 1 ∧ t.chip.g .FAB_CNT_COUNT 0 3 = 1) | _ => false) = true := by
  decide +kernel

/-- One step of mwriteRecv, its results from the rules that its meaning cites. -/
theorem test_step_mwriteRecv :
    (let k := { pkt 0x20 2 0 1 9 (2 ^ 60 + 15 * 2 ^ 32) 64 0 with poison := List.replicate 9 true }; let s := st { rx {  } [] with fresh := 0 }; match execMwriteRecv k s with | .next t => decide (t.chip.g .FAB_STICKY_MALFORMED 0 = 1 ∧ t.chip.g .FAB_CNT_COUNT 0 3 = 1) | _ => false) = true := by
  decide +kernel

/-- One step of mwriteWidenRecv, its results from the rules that its meaning cites. -/
theorem test_step_mwriteWidenRecv :
    (let k := { pkt 0x21 2 0 1 9 (2 ^ 60 + 15 * 2 ^ 32) 1 77 with poison := List.replicate 9 true }; let s := st { rx {  } [] with fresh := 0 }; match execMwriteWidenRecv k s with | .next t => decide (t.chip.g .FAB_STICKY_MALFORMED 0 = 1 ∧ t.chip.g .FAB_CNT_COUNT 0 3 = 1) | _ => false) = true := by
  decide +kernel

/-- Operands and states that meet the hypotheses of PacketsDelivered, clause by clause. -/
theorem test_hyps_PacketsDelivered_1 :
    (let k := pkt 0x30 1 0 0 9 2 0 0; let ty := kType k; decide (ty ≠ 16)) = true ∧
    (let k := { pkt 0x10 2 0 1 9 (15 + 1023 * 2 ^ 4 + 8 * 2 ^ 14) 0 0 with poison := List.replicate 9 true }; let s := st { rx {  } [] with fresh := 0 }; let c := s.chip; let ty := kType k; decide (ty = 16 ∧ c.malformed k = true)) = true ∧
    (let k := pkt 0x10 2 0 1 8 (15 + 1023 * 2 ^ 4 + 8 * 2 ^ 14) 0 0; let s := st { rx {  } [] with fresh := 0 }; let c := s.chip; let ty := kType k; decide (ty = 16 ∧ c.malformed k = false ∧ c.jobOf (kJtag k) = none)) = true ∧
    (let k := pkt 0x10 2 0 1 (9 + 2 ^ 32) (15 + 1023 * 2 ^ 4 + 8 * 2 ^ 14) 0 0; let s := st { rx {  } [] with fresh := 0 }; let c := s.chip; let ty := kType k; decide (ty = 16 ∧ c.malformed k = false ∧ c.jobOf (kJtag k) = some 15 ∧ c.permits 15 (kSrc k) = true ∧ kRepoch k ≠ c.g .FAB_JOB_REPOCH 15)) = true ∧
    (let k := pkt 0x30 1 0 0 9 2 0 0; let ty := kType k; decide (ty ≠ 32)) = true ∧
    (let k := { pkt 0x20 2 0 1 9 (2 ^ 60 + 15 * 2 ^ 32) 64 0 with poison := List.replicate 9 true }; let s := st { rx {  } [] with fresh := 0 }; let c := s.chip; let ty := kType k; decide (ty = 32 ∧ c.malformed k = true)) = true ∧
    (let k := pkt 0x20 2 0 1 8 (2 ^ 60 + 15 * 2 ^ 32) 64 0; let s := st { rx {  } [] with fresh := 0 }; let c := s.chip; let ty := kType k; decide (ty = 32 ∧ c.malformed k = false ∧ c.jobOf (kJtag k) = none)) = true ∧
    (let k := pkt 0x20 2 0 1 (9 + 2 ^ 32) (2 ^ 60 + 15 * 2 ^ 32) 64 0; let s := st { rx {  } [] with fresh := 0 }; let c := s.chip; let ty := kType k; decide (ty = 32 ∧ c.malformed k = false ∧ c.jobOf (kJtag k) = some 15 ∧ c.permits 15 (kSrc k) = true ∧ kRepoch k ≠ c.g .FAB_JOB_REPOCH 15)) = true ∧
    (let k := pkt 0x30 1 0 0 9 2 0 0; let ty := kType k; decide (ty ≠ 33)) = true ∧
    (let k := { pkt 0x21 2 0 1 9 (2 ^ 60 + 15 * 2 ^ 32) 1 77 with poison := List.replicate 9 true }; let s := st { rx {  } [] with fresh := 0 }; let c := s.chip; let ty := kType k; decide (ty = 33 ∧ c.malformed k = true)) = true ∧
    (let k := pkt 0x21 2 0 1 8 (2 ^ 60 + 15 * 2 ^ 32) 1 77; let s := st { rx {  } [] with fresh := 0 }; let c := s.chip; let ty := kType k; decide (ty = 33 ∧ c.malformed k = false ∧ c.jobOf (kJtag k) = none)) = true ∧
    (let k := pkt 0x21 2 0 1 (9 + 2 ^ 32) (2 ^ 60 + 15 * 2 ^ 32) 1 77; let s := st { rx {  } [] with fresh := 0 }; let c := s.chip; let ty := kType k; decide (ty = 33 ∧ c.malformed k = false ∧ c.jobOf (kJtag k) = some 15 ∧ c.permits 15 (kSrc k) = true ∧ kRepoch k ≠ c.g .FAB_JOB_REPOCH 15)) = true := by
  decide +kernel

/-- Operands and states that meet the hypotheses of PacketsDelivered, clause by clause. -/
theorem test_hyps_PacketsDelivered_2 :
    (let k := pkt 0x30 1 0 0 9 2 0 0; let ty := kType k; decide (ty ≠ 34)) = true ∧
    (let k := { pkt 0x22 2 1 0 9 (2 ^ 60 + 15 * 2 ^ 32) (64 + 5 * 2 ^ 16) 0 with poison := List.replicate 9 true }; let s := st { rx {  } [] with fresh := 0 }; let c := s.chip; let ty := kType k; decide (ty = 34 ∧ c.malformed k = true)) = true ∧
    (let k := pkt 0x22 2 1 0 8 (2 ^ 60 + 15 * 2 ^ 32) (64 + 5 * 2 ^ 16) 0; let s := st { rx {  } [] with fresh := 0 }; let c := s.chip; let ty := kType k; decide (ty = 34 ∧ c.malformed k = false ∧ c.jobOf (kJtag k) = none)) = true ∧
    (let k := pkt 0x22 2 1 0 (9 + 2 ^ 32) (2 ^ 60 + 15 * 2 ^ 32) (64 + 5 * 2 ^ 16) 0; let s := st { rx {  } [] with fresh := 0 }; let c := s.chip; let ty := kType k; decide (ty = 34 ∧ c.malformed k = false ∧ c.jobOf (kJtag k) = some 15 ∧ c.permits 15 (kSrc k) = true ∧ kRepoch k ≠ c.g .FAB_JOB_REPOCH 15)) = true ∧
    (let k := pkt 0x30 1 0 0 9 2 0 0; let ty := kType k; decide (ty ≠ 40)) = true ∧
    (let k := { pkt 0x28 3 0 0 9 4 0 0 with poison := List.replicate 9 true }; let s := st { rx {  } [] with fresh := 0 }; let c := s.chip; let ty := kType k; decide (ty = 40 ∧ c.malformed k = true)) = true ∧
    (let k := pkt 0x28 3 0 0 8 4 0 0; let s := st { rx {  } [] with fresh := 0 }; let c := s.chip; let ty := kType k; decide (ty = 40 ∧ c.malformed k = false ∧ c.jobOf (kJtag k) = none)) = true ∧
    (let k := pkt 0x28 3 0 0 (9 + 2 ^ 32) 4 0 0; let s := st { rx {  } [] with fresh := 0 }; let c := s.chip; let ty := kType k; decide (ty = 40 ∧ c.malformed k = false ∧ c.jobOf (kJtag k) = some 15 ∧ c.permits 15 (kSrc k) = true ∧ kRepoch k ≠ c.g .FAB_JOB_REPOCH 15)) = true ∧
    (let k := pkt 0x30 1 0 0 9 2 0 0; let ty := kType k; decide (ty ≠ 41)) = true ∧
    (let k := { pkt 0x29 3 0 1 9 4 0 0 with poison := List.replicate 9 true }; let s := st { rx {  } [] with fresh := 0 }; let c := s.chip; let ty := kType k; decide (ty = 41 ∧ c.malformed k = true)) = true ∧
    (let k := pkt 0x29 3 0 1 8 4 0 0; let s := st { rx {  } [] with fresh := 0 }; let c := s.chip; let ty := kType k; decide (ty = 41 ∧ c.malformed k = false ∧ c.jobOf (kJtag k) = none)) = true ∧
    (let k := pkt 0x29 3 0 1 (9 + 2 ^ 32) 4 0 0; let s := st { rx {  } [] with fresh := 0 }; let c := s.chip; let ty := kType k; decide (ty = 41 ∧ c.malformed k = false ∧ c.jobOf (kJtag k) = some 15 ∧ c.permits 15 (kSrc k) = true ∧ kRepoch k ≠ c.g .FAB_JOB_REPOCH 15)) = true := by
  decide +kernel

/-- Operands and states that meet the hypotheses of PacketsDelivered, clause by clause. -/
theorem test_hyps_PacketsDelivered_3 :
    (let k := pkt 0x30 1 0 0 9 2 0 0; let ty := kType k; decide (ty ≠ 65)) = true ∧
    (let k := { pkt 0x41 0 0 0 9 0 0 0 with poison := List.replicate 9 true }; let s := st { rx {  } [] with fresh := 0 }; let c := s.chip; let ty := kType k; decide (ty = 65 ∧ c.malformed k = true)) = true ∧
    (let k := pkt 0x20 2 0 1 9 (2 ^ 60 + 15 * 2 ^ 32) 64 0; let s := st { rx {  } [(⟨.FAB_PERM, 63, 0⟩, 15, 0, 0)] with fresh := 0 }; let c := s.chip; let ty := kType k; decide (ty = 0x20 ∧ c.malformed k = false ∧ c.jobOf (kJtag k) = some 15 ∧ c.permits 15 (kSrc k) = false)) = true ∧
    (let k := pkt 0x41 0 0 0 0 0 0 0; let s := st { rx {  } [] with fresh := 0 }; let c := s.chip; let ty := kType k; decide (ty = 0x41 ∧ c.malformed k = false)) = true ∧
    (let k := pkt 0x10 2 0 1 9 (15 + 1023 * 2 ^ 4 + 8 * 2 ^ 14) 0 0; let s := st { rx {  } [] with fresh := 0 }; let c := s.chip; let ty := kType k; decide ((c.receive k).2 = some (15, true) ∧ ty = 0x10 ∧ c.owns 15 15 = true)) = true ∧
    (let k := { pkt 0x10 2 0 1 9 (15 + 1023 * 2 ^ 4 + 8 * 2 ^ 14) 0 0 with hdr := listSet (pkt 0x10 2 0 1 9 (15 + 1023 * 2 ^ 4 + 8 * 2 ^ 14) 0 0).hdr 7 0 }; let s := st { rx {  } [] with fresh := 0 }; let c := s.chip; let ty := kType k; decide ((c.receive k).2 = some (15, false) ∧ ty = 0x10 ∧ c.owns 15 15 = true)) = true ∧
    (let k := pkt 0x10 2 0 1 9 (14 + 1023 * 2 ^ 4 + 8 * 2 ^ 14) 0 0; let s := st { rx {  } [] with fresh := 0 }; let c := s.chip; let ty := kType k; decide ((c.receive k).2 = some (15, true) ∧ ty = 0x10 ∧ c.owns 15 14 = false)) = true ∧
    (let k := pkt 0x20 2 0 1 9 (2 ^ 60 + 15 * 2 ^ 32) 64 0; let s := st { rx {  } [] with fresh := 0 }; let c := s.chip; let ty := kType k; decide ((c.receive k).2 = some (15, true) ∧ k.words.length = 8 * kNdata k ∧ c.remoteStatus 15 (hw k 2).toNat 64 = some 0 ∧ c.tierKeys 15 (hw k 2).toNat 64 = some [regionKey 15 0] ∧ c.fenceHit 15 (hw k 2).toNat 64 = none ∧ c.inRoutine 15 0 64 = false ∧ ty = 0x20 ∧ mwBytes k = 64)) = true ∧
    (let k := { pkt 0x20 2 0 1 9 (2 ^ 60 + 15 * 2 ^ 32) 64 0 with poison := [true] }; let s := st { rx {  } [] with fresh := 0 }; let c := s.chip; let ty := kType k; decide ((c.receive k).2 = some (15, true) ∧ k.words.length = 8 * kNdata k ∧ c.remoteStatus 15 (hw k 2).toNat 64 = some 0 ∧ c.tierKeys 15 (hw k 2).toNat 64 = some [regionKey 15 0] ∧ c.fenceHit 15 (hw k 2).toNat 64 = none ∧ c.inRoutine 15 0 64 = false ∧ ty = 0x20 ∧ mwBytes k = 64 ∧ kBad k 0 = true)) = true ∧
    (let k := pkt 0x20 2 0 1 9 (2 ^ 60 + 15 * 2 ^ 32) 64 0; let s := st { rx {  } [] with fresh := 0, held := [(15, 2 ^ 60 + 15 * 2 ^ 32, 64)] }; let c := s.chip; let ty := kType k; decide ((c.receive k).2 = some (15, true) ∧ k.words.length = 8 * kNdata k ∧ c.remoteStatus 15 (hw k 2).toNat 64 = some 0 ∧ c.tierKeys 15 (hw k 2).toNat 64 = some [regionKey 15 0] ∧ ty = 0x20 ∧ mwBytes k = 64 ∧ c.fenceHit 15 (hw k 2).toNat 64 ≠ none)) = true ∧
    (let k := pkt 0x21 2 0 1 9 (2 ^ 60 + 15 * 2 ^ 32) 1 77; let s := st { rx {  } [] with fresh := 0 }; let c := s.chip; let ty := kType k; decide ((c.receive k).2 = some (15, true) ∧ k.words.length = 8 * kNdata k ∧ c.remoteStatus 15 (hw k 2).toNat 64 = some 0 ∧ c.tierKeys 15 (hw k 2).toNat 64 = some [regionKey 15 0] ∧ c.fenceHit 15 (hw k 2).toNat 64 = none ∧ c.inRoutine 15 0 64 = false ∧ ty = 0x21 ∧ wdBlocks k = 1)) = true ∧
    (let k := pkt 0x22 2 1 0 9 (2 ^ 60 + 15 * 2 ^ 32) (64 + 5 * 2 ^ 16) 0; let s := st { rx { credits := List.replicate 9 2, tx := 1023 } [] with fresh := 0, mem := [(regionKey 15 0, 7)] }; let c := s.chip; let ty := kType k; decide ((c.receive k).2 = some (15, true) ∧ k.words.length = 8 * kNdata k ∧ c.remoteStatus 15 (hw k 2).toNat 64 = some 0 ∧ c.tierKeys 15 (hw k 2).toNat 64 = some [regionKey 15 0] ∧ ty = 0x22 ∧ mwBytes k = 64 ∧ c.routeOf (kSrc k) = 5 ∧ c.linkActive 5 = true ∧ (c.link' 5).unacked < 1024)) = true := by
  decide +kernel

/-- Operands and states that meet the hypotheses of PacketsDelivered, clause by clause. -/
theorem test_hyps_PacketsDelivered_4 :
    (let k := pkt 0x28 3 0 0 9 (4 + 2 ^ 19) 0 0; let s := st { rx {  } [] with fresh := 0 }; let c := s.chip; let ty := kType k; decide ((c.receive k).2 = some (15, true) ∧ ty = 40 ∧ wbits (hw k 2) 20 19 ≠ 0)) = true ∧
    (let k := pkt 0x29 3 0 1 9 (4 + 2 ^ 19) 0 0; let s := st { rx {  } [] with fresh := 0 }; let c := s.chip; let ty := kType k; decide ((c.receive k).2 = some (15, true) ∧ ty = 41 ∧ wbits (hw k 2) 20 19 ≠ 0)) = true ∧
    (let k := pkt 0x29 3 0 1 9 4 0 0; let s := st { rx {  } [] with fresh := 0 }; let c := s.chip; let ty := kType k; decide ((c.receive k).2 = some (15, true) ∧ ty = 0x29 ∧ wbits (hw k 2) 20 19 = 0)) = true ∧
    (let x : CollS := { cl := 127, id := 0, cid := 4, words := [], alg := 1, me := 0, mods := [5, 0], kind := 0, lcols := 0, lastr := false, seen := 0, acks := [(1, 2)] }; let k := pkt 0x28 3 0 0 9 4 0 0; let s := st { rx {  } [] with fresh := 0, cars := [(15, { colls := [x] })] }; let c := s.chip; let ty := kType k; decide ((c.receive k).2 = some (15, true) ∧ ty = 0x28 ∧ wbits (hw k 2) 20 19 = 0 ∧ c.coll 15 (wbits (hw k 2) 15 0) = some x ∧ x.mods.findIdx? (· == kSrc k) = some 1 ∧ wbits (hw k 2) 18 16 = 0)) = true := by
  decide +kernel

/-- Operands and states that meet the hypotheses of SystemTime, clause by clause. -/
theorem test_hyps_SystemTime_1 :
    (let s := st { lk 6 {} [] with time := {  }, now := 5 }; let c := s.chip; decide (c.reaches (.vf 0 1) .FAB_TOPO 0 = false)) = true ∧
    (let s := st { lk 6 {} [] with time := {  }, now := 5 }; let c := s.chip; decide (c.reaches .rm .FAB_TOPO 0 = true ∧ c.g .FAB_CTL_LEN 0 ≠ 0)) = true ∧
    (let s := st { lk 0 {} [(.FAB_CTL_LEN, 0, 0, 0)] with time := {  }, now := 5 }; let c := s.chip; decide (c.reaches .rm .FAB_TOPO 0 = true ∧ c.g .FAB_CTL_LEN 0 = 0)) = true ∧
    (let s := st { lk 6 {} [] with time := {  }, now := 5 }; let c := s.chip; decide (c.g .FAB_TOPO_RT_FILL 0 = 0)) = true ∧
    (let s := st { lk 6 {} [(.FAB_TOPO_RT_FILL, 0, 0, 1)] with time := {  }, now := 5 }; let c := s.chip; decide (c.g .FAB_TOPO_RT_FILL 0 = 1 ∧ c.inTopo 1 = false ∧ c.inTopo (c.g .FAB_ID_ID 0) = true)) = true ∧
    (let s := st { lk 6 {} [(.FAB_TIME_CTL_EN, 0, 0, 1), (.FAB_TIME_STAT_PARENT, 0, 0, 6), (.FAB_TIME_CTL_PERIOD, 0, 0, 1000)] with time := {  }, now := 5 }; let c := s.chip; decide ((c.g .FAB_TIME_CTL_EN 0 = 0 ∨ 6 ≤ c.g .FAB_TIME_STAT_PARENT 0))) = true ∧
    (let s := st { lk 6 {} [(.FAB_TIME_CTL_EN, 0, 0, 1), (.FAB_TIME_STAT_PARENT, 0, 0, 5), (.FAB_TIME_CTL_PERIOD, 0, 0, 1000)] with time := { reqAt := some 1999000001 }, now := 5 }; let c := s.chip; decide (1999000001 + 1000 * c.g .FAB_TIME_CTL_PERIOD 0 = c.up + 1)) = true ∧
    (let s := st { lk 6 {} [(.FAB_TIME_CTL_EN, 0, 0, 1), (.FAB_TIME_STAT_PARENT, 0, 0, 5), (.FAB_TIME_CTL_PERIOD, 0, 0, 1000)] with time := { reqAt := some 1999000000, seq := 65535 }, now := 5 }; let c := s.chip; decide (c.g .FAB_TIME_CTL_EN 0 = 1 ∧ c.g .FAB_TIME_STAT_PARENT 0 = 5 ∧ 1999000000 + 1000 * c.g .FAB_TIME_CTL_PERIOD 0 ≤ c.up ∧ c.linkActive 5 = true)) = true ∧
    (let s := st { lk 7 {} [(.FAB_TIME_CTL_EN, 0, 0, 1), (.FAB_TIME_STAT_PARENT, 0, 0, 5), (.FAB_TIME_CTL_PERIOD, 0, 0, 1000), (.FAB_TIME_STAT_LOCKED, 0, 0, 1)] with time := {  }, now := 5 }; let c := s.chip; decide (c.g .FAB_TIME_CTL_EN 0 = 1 ∧ c.g .FAB_TIME_STAT_PARENT 0 = 5 ∧ c.time.reqAt = none ∧ c.linkActive 5 = false)) = true ∧
    (let s := st { lk 6 {} [] with time := {  }, now := 5 }; let c := s.chip; decide (c.linkActive 5 = true)) = true ∧
    (let s := st { lk 6 {} [] with time := {  }, now := 5 }; let c := s.chip; decide (c.linkActive 5 = true)) = true ∧
    (let s := st { lk 6 {} [(.FAB_TIME_CTL_EN, 0, 0, 1), (.FAB_TIME_STAT_PARENT, 0, 0, 4), (.FAB_TIME_CTL_PERIOD, 0, 0, 1000)] with time := { pend := some (100, 7) }, now := 5 }; let c := s.chip; decide (c.g .FAB_TIME_STAT_PARENT 0 ≠ 5)) = true := by
  decide +kernel

/-- Operands and states that meet the hypotheses of SystemTime, clause by clause. -/
theorem test_hyps_SystemTime_2 :
    (let s := st { lk 6 {} [(.FAB_TIME_CTL_EN, 0, 0, 1), (.FAB_TIME_STAT_PARENT, 0, 0, 5), (.FAB_TIME_CTL_PERIOD, 0, 0, 1000)] with time := { pend := some (100, 7) }, now := 5 }; let c := s.chip; let x := c.time; decide (x.pend ≠ some (101, 7))) = true ∧
    (let s := st { lk 6 {} [(.FAB_TIME_CTL_EN, 0, 0, 1), (.FAB_TIME_STAT_PARENT, 0, 0, 5), (.FAB_TIME_CTL_PERIOD, 0, 0, 1000), (.FAB_TIME_STAT_HOLDOVER, 0, 0, 1)] with time := { pend := some (100, 7), good := 3, holdAt := some 5 }, now := 5 }; let c := s.chip; let x := c.time; decide (c.g .FAB_TIME_STAT_PARENT 0 = 5 ∧ x.pend = some (100, 7) ∧ (theta2 100 327780 100 c.time16 (signed 8 (c.g .FAB_LINK_CFG_ASYM 0 5))).natAbs < 4 * 65536 ∧ 3 ≤ x.good)) = true ∧
    (let s := st { lk 6 {} [(.FAB_TIME_CTL_EN, 0, 0, 1), (.FAB_TIME_STAT_PARENT, 0, 0, 5), (.FAB_TIME_CTL_PERIOD, 0, 0, 1000)] with time := { pend := some (100, 7), good := 3 }, now := 5 }; let c := s.chip; let x := c.time; decide (c.g .FAB_TIME_STAT_PARENT 0 = 5 ∧ x.pend = some (100, 7) ∧ 2 * 65536000 < (theta2 100 (2 ^ 50) (2 ^ 50) c.time16 (signed 8 (c.g .FAB_LINK_CFG_ASYM 0 5))).natAbs ∧ x.everOk = false ∧ 0 ≤ (c.time16 : Int) - (theta2 100 (2 ^ 50) (2 ^ 50) c.time16 (signed 8 (c.g .FAB_LINK_CFG_ASYM 0 5))) / 2 ∧ (c.time16 : Int) - (theta2 100 (2 ^ 50) (2 ^ 50) c.time16 (signed 8 (c.g .FAB_LINK_CFG_ASYM 0 5))) / 2 < 2 ^ 80)) = true ∧
    (let s := st { lk 6 {} [(.FAB_TIME_CTL_EN, 0, 0, 1), (.FAB_TIME_STAT_PARENT, 0, 0, 5), (.FAB_TIME_CTL_PERIOD, 0, 0, 1000), (.FAB_TIME_STAT_TIME_OK, 0, 0, 1)] with time := { pend := some (100, 7), everOk := true }, now := 5 }; let c := s.chip; let x := c.time; decide (c.g .FAB_TIME_STAT_PARENT 0 = 5 ∧ x.pend = some (100, 7) ∧ 2 * 65536000 < (theta2 100 (2 ^ 50) (2 ^ 50) c.time16 (signed 8 (c.g .FAB_LINK_CFG_ASYM 0 5))).natAbs ∧ x.everOk = true)) = true ∧
    (let s := st { lk 7 {} [] with time := { holdAt := some 1900000001 }, now := 5 }; let c := s.chip; decide (1900000001 + 100000000 = c.up + 1)) = true ∧
    (let s := st { lk 7 {} [(.FAB_TIME_STAT_TIME_OK, 0, 0, 1)] with time := { holdAt := some 1900000000 }, now := 5 }; let c := s.chip; decide (1900000000 + 100000000 ≤ c.up ∧ c.g .FAB_TIME_STAT_TIME_OK 0 = 1)) = true := by
  decide +kernel

/-- Queue 1023 of region 15 (of partition 15, stopped), on with eight cells, with more fields set. -/
def qu (x : QueueS) (l : List (Fld × Nat × Nat × Nat)) : Chip :=
  { chip ([(.QP_QCFG_EN, 15, 1023, 1), (.QP_QCFG_MAX_CELLS, 15, 1023, 8), (.PART_OWN_OWNED, 0, 15, 1), (.PART_OWN_OWNER, 0, 15, 15),
      (.HUB_PSEL_PART, 2, 0, 15), (.HUB_PSEL_PART, 1, 0, 7)] ++ l) with queues := [(15 * 1024 + 1023, x)], up := 5000000 }
/-- An open packet of producer 1 with n words, and a linked packet of two words. -/
def op1 (n : Nat) : OpenPkt := ⟨1, List.replicate n (3, false), false⟩
def lp (old : Bool) : Packet := ⟨[(1, false), (2, true)], false, old⟩

/-- One step of queueWordWrite, its results from the rules that its meaning cites. -/
theorem test_step_queueWordWrite :
    (let s := st { qu { opens := [op1 63] } [] with fresh := 0 }; let r := 15; let q := 1023; match execQueueWordWrite r q 1 9 1 false s with | .next t => decide ((t.chip.queue r q).linked = [⟨List.replicate 63 (3, false) ++ [(9, false)], false, false⟩] ∧ (t.chip.queue r q).opens = [] ∧ t.chip.g .QP_QCNT_LINKED r q = 1) | _ => false) = true := by
  decide +kernel

/-- One step of flushTakeEffect, its results from the rules that its meaning cites. -/
theorem test_step_flushTakeEffect :
    (let s := st { qu { flush := true, linked := [lp true, lp false], opens := [op1 1] } [] with fresh := 0 }; let c := s.chip; let r := 15; let q := 1023; let x := c.queue r q; match execFlushTakeEffect r q s with | .next t => decide ((t.chip.queue r q).flush = false ∧ (t.chip.queue r q).linked = [lp false] ∧ (t.chip.queue r q).opens = x.opens) | _ => false) = true := by
  decide +kernel

/-- One step of queueEnWrite, its results from the rules that its meaning cites. -/
theorem test_step_queueEnWrite :
    (let s := st { qu {  } [(.QP_QCFG_EN, 15, 1023, 0)] with fresh := 0 }; let r := 15; let q := 1023; match execQueueEnWrite .rm r q 11 s with | .next t => decide (t.chip.g .QP_STICKY_BAD_CFG r = 1 ∧ t.chip.g .QP_QCFG_EN r q = 0 ∧ t.chip.g .QP_QCFG_CKIND r q = 5) | _ => false) = true := by
  decide +kernel

/-- One step of mtrGo, its results from the rules that its meaning cites. -/
theorem test_step_mtrGo :
    (let s := st { qu {  } [(.MTR_STAT_NEXT_SEQ, 15, 0, 2 ^ 48 - 1)] with fresh := 0, meters := [(480, 5)] }; match execMtrGo .rm 15 s with | .next t => decide (t.chip.g .MTR_STAT_NEXT_SEQ 15 = 0 ∧ t.chip.g .MTR_SNAP_GO 15 = 1 ∧ t.chip.g .MTR_STAT_BUSY 15 = 1) | _ => false) = true := by
  decide +kernel

/-- Operands and states that meet the hypotheses of QueuePool, clause by clause. -/
theorem test_hyps_QueuePool_1 :
    (let s := st { qu { linked := [lp false] } [(.PART_OWN_OWNER, 0, 15, 14)] with fresh := 0 }; let c := s.chip; let r := 15; decide (c.prodPart (2 ^ 22 + 17 * 64) = some 15 ∧ c.owns 15 r = false ∧ c.faultQueue (.part 15) = none)) = true ∧
    (let s := st { qu {  } [(.QP_QCFG_EN, 15, 1023, 0)] with fresh := 0 }; let c := s.chip; let r := 15; let q := 1023; let x := c.queue r q; decide (c.prodPart 1 = none ∧ x.waiting.any (fun y => y.1 == 1) = false ∧ c.g .QP_QCFG_EN r q = 0)) = true ∧
    (let s := st { qu { broken := true } [] with fresh := 0 }; let c := s.chip; let r := 15; let q := 1023; let x := c.queue r q; decide (c.prodPart 1 = none ∧ x.waiting.any (fun y => y.1 == 1) = false ∧ x.broken = true)) = true ∧
    (let s := st { qu {  } [] with fresh := 0 }; let c := s.chip; let r := 15; let q := 1023; let x := c.queue r q; decide (c.prodPart 1 = none ∧ x.waiting.any (fun y => y.1 == 1) = false ∧ c.g .QP_QCFG_EN r q = 1 ∧ x.broken = false ∧ x.skip.contains 1 = false ∧ x.opens.length < 16 ∧ cellsOf 1 ≤ c.g .QP_QCFG_MAX_CELLS r q ∧ c.canCell r q = true)) = true ∧
    (let s := st { qu { opens := [op1 63] } [] with fresh := 0 }; let c := s.chip; let r := 15; let q := 1023; let x := c.queue r q; decide (c.prodPart 1 = none ∧ x.waiting.any (fun y => y.1 == 1) = false ∧ c.g .QP_QCFG_EN r q = 1 ∧ x.broken = false ∧ x.skip.contains 1 = false ∧ x.openOf 1 = some (op1 63) ∧ cellsOf 64 ≤ c.g .QP_QCFG_MAX_CELLS r q)) = true ∧
    (let s := st { qu { opens := [⟨2, List.replicate 64 (0, false), false⟩] } [] with fresh := 0 }; let c := s.chip; let r := 15; let q := 1023; let x := c.queue r q; decide (c.prodPart 1 = none ∧ x.waiting.any (fun y => y.1 == 1) = false ∧ c.g .QP_QCFG_EN r q = 1 ∧ x.broken = false ∧ x.skip.contains 1 = false ∧ x.openOf 1 = none ∧ cellsOf 1 ≤ c.g .QP_QCFG_MAX_CELLS r q ∧ c.canCell r q = false)) = true ∧
    (let s := st { qu {  } [] with fresh := 0 }; let c := s.chip; let r := 15; let q := 1023; let x := c.queue r q; decide (c.prodPart 1 = none ∧ x.waiting.any (fun y => y.1 == 1) = false ∧ c.g .QP_QCFG_EN r q = 1 ∧ x.broken = false ∧ x.skip.contains 1 = false ∧ x.openOf 1 = none ∧ c.canCell r q = true)) = true ∧
    (let s := st { qu { opens := (List.range 16).map (fun i => (⟨i + 2, [(0, false)], false⟩ : OpenPkt)) } [(.QP_QCFG_MAX_CELLS, 15, 1023, 20)] with fresh := 0 }; let c := s.chip; let r := 15; let q := 1023; let x := c.queue r q; decide (c.prodPart 1 = none ∧ x.waiting.any (fun y => y.1 == 1) = false ∧ c.g .QP_QCFG_EN r q = 1 ∧ x.broken = false ∧ x.skip.contains 1 = false ∧ x.openOf 1 = none ∧ x.opens.length = 16 ∧ cellsOf 1 ≤ c.g .QP_QCFG_MAX_CELLS r q ∧ c.canCell r q = true)) = true ∧
    (let s := st { qu { waiting := [(1, ⟨5, 0, false⟩)] } [] with fresh := 0 }; let c := s.chip; let r := 15; let q := 1023; let x := c.queue r q; decide (x.waiting.any (fun y => y.1 == 1) = true)) = true ∧
    (let s := st { qu {  } [] with fresh := 0 }; let c := s.chip; let r := 15; let q := 1023; let x := c.queue r q; decide ((List.range 128).all (fun cl => (c.seq cl).outst.isEmpty) = true ∧ x.waiting = [])) = true ∧
    (let s := st { qu { waiting := [(1, ⟨5, 0, false⟩)], opens := [⟨2, List.replicate 64 (0, false), false⟩] } [] with fresh := 0 }; let c := s.chip; let r := 15; let q := 1023; let x := c.queue r q; decide ((List.range 128).all (fun cl => (c.seq cl).outst.isEmpty) = true ∧ x.waiting = [(1, ⟨5, 0, false⟩)] ∧ c.g .QP_QCFG_EN r q = 1 ∧ x.broken = false ∧ x.skip.contains 1 = false ∧ x.openOf 1 = none ∧ x.opens.length < 16 ∧ 1 ≤ c.g .QP_QCFG_MAX_CELLS r q ∧ c.canCell r q = false)) = true ∧
    (let s := st { qu { waiting := [(1, ⟨5, 0, false⟩)] } [] with fresh := 0 }; let c := s.chip; let r := 15; let q := 1023; let x := c.queue r q; decide ((List.range 128).all (fun cl => (c.seq cl).outst.isEmpty) = true ∧ x.waiting = [(1, ⟨5, 0, false⟩)] ∧ c.g .QP_QCFG_EN r q = 1 ∧ x.broken = false ∧ x.skip.contains 1 = false ∧ x.openOf 1 = none ∧ x.opens.length < 16 ∧ 1 ≤ c.g .QP_QCFG_MAX_CELLS r q ∧ c.canCell r q = true)) = true := by
  decide +kernel

/-- Operands and states that meet the hypotheses of QueuePool, clause by clause. -/
theorem test_hyps_QueuePool_2 :
    (let s := st { qu {  } [] with fresh := 0 }; let c := s.chip; let r := 15; let q := 1023; let x := c.queue r q; decide (x.linked = [] ∧ x.broken = false)) = true ∧
    (let s := st { qu { linked := [lp false], broken := true } [(.QP_QCFG_CKIND, 15, 1023, 3)] with fresh := 0 }; let c := s.chip; let r := 15; let q := 1023; let x := c.queue r q; decide (x.broken = true ∧ c.g .QP_QCFG_CKIND r q = 3 ∧ c.owner r = some 15)) = true ∧
    (let s := st { qu { linked := [lp false], broken := true } [] with fresh := 0 }; let c := s.chip; let r := 15; let q := 1023; let x := c.queue r q; decide (x.broken = true ∧ c.g .QP_QCFG_CKIND r q ≠ 3)) = true ∧
    (let s := st { qu { linked := [lp false, lp true] } [] with fresh := 0 }; let c := s.chip; let r := 15; let q := 1023; let x := c.queue r q; decide (x.broken = false ∧ x.linked = [lp false, lp true] ∧ x.rd + 1 < (lp false).words.length)) = true ∧
    (let s := st { qu { linked := [lp false, lp true], rd := 1 } [] with fresh := 0 }; let c := s.chip; let r := 15; let q := 1023; let x := c.queue r q; decide (x.broken = false ∧ x.linked = [lp false, lp true] ∧ (lp false).words.length ≤ x.rd + 1)) = true ∧
    (let s := st { qu { timer := some 5 } [] with fresh := 0 }; let c := s.chip; let r := 15; let q := 1023; let x := c.queue r q; decide (x.linked = [])) = true ∧
    (let s := st { qu { timer := some 5000001, linked := [lp false] } [] with fresh := 0 }; let c := s.chip; decide (c.up < 5000001)) = true ∧
    (let s := st { qu { timer := some 5000000, linked := [lp false] } [] with fresh := 0 }; let c := s.chip; let r := 15; let q := 1023; let x := c.queue r q; decide (x.timer = some 5000000 ∧ 5000000 ≤ c.up ∧ x.linked ≠ [])) = true ∧
    (let s := st { qu { flush := true } [] with fresh := 0 }; let c := s.chip; let r := 15; let q := 1023; let x := c.queue r q; decide (x.flush = true)) = true ∧
    (let s := st { qu {  } [] with fresh := 0 }; let c := s.chip; let r := 15; decide (c.reaches (.vf 0 1) .QP_QCMD r = false)) = true ∧
    (let s := st { qu { linked := [lp false], opens := [op1 1] } [] with fresh := 0 }; let c := s.chip; let r := 15; let q := 1023; let x := c.queue r q; decide (c.reaches .rm .QP_QCMD r = true ∧ x.flush = false)) = true ∧
    (let s := st { qu {  } [] with fresh := 0 }; let c := s.chip; let r := 15; let q := 1023; let x := c.queue r q; decide ((x.flush = false ∨ x.rd ≠ 0 ∨ ∃ o ∈ x.opens, o.old = true))) = true := by
  decide +kernel

/-- Operands and states that meet the hypotheses of QueuePool, clause by clause. -/
theorem test_hyps_QueuePool_3 :
    (let s := st { qu { flush := true, linked := [lp true], rd := 1 } [] with fresh := 0 }; let c := s.chip; let r := 15; let q := 1023; let x := c.queue r q; decide ((x.flush = false ∨ x.rd ≠ 0 ∨ ∃ o ∈ x.opens, o.old = true))) = true ∧
    (let s := st { qu { flush := true, opens := [{ op1 1 with old := true }] } [] with fresh := 0 }; let c := s.chip; let r := 15; let q := 1023; let x := c.queue r q; decide ((x.flush = false ∨ x.rd ≠ 0 ∨ ∃ o ∈ x.opens, o.old = true))) = true ∧
    (let s := st { qu { flush := true, linked := [lp true, lp false], opens := [op1 1] } [] with fresh := 0 }; let c := s.chip; let r := 15; let q := 1023; let x := c.queue r q; decide (x.flush = true ∧ x.rd = 0 ∧ (∀ o ∈ x.opens, o.old = false))) = true ∧
    (let s := st { qu { linked := [lp true] } [] with fresh := 0 }; let c := s.chip; let r := 15; decide (c.reaches .rm .QP_QCMD r = true ∧ c.locked r = false)) = true ∧
    (let s := st { qu { linked := [lp true] } [(.PART_STAT_STATE, 15, 0, 3)] with fresh := 0 }; let c := s.chip; let r := 15; decide (c.reaches .rm .QP_QCMD r = true ∧ c.owner r = some 15 ∧ c.runs 15 = true)) = true ∧
    (let s := st { qu { linked := [lp true] } [(.PART_STAT_STATE, 15, 0, 3)] with fresh := 0 }; let c := s.chip; let r := 15; decide (c.reaches .rm .QP_QCFG r = true ∧ c.isLocked .QP_QCFG r = true)) = true ∧
    (let s := st { qu {  } [(.QP_QCFG_EN, 15, 1023, 0)] with fresh := 0 }; let c := s.chip; let r := 15; let q := 1023; decide (c.reaches .rm .QP_QCFG r = true ∧ c.isLocked .QP_QCFG r = false ∧ c.g .QP_QCFG_EN r q = 0 ∧ wbit (11 : Word) 0 = true ∧ 5 ≤ wbits 11 3 1)) = true ∧
    (let s := st { qu {  } [(.QP_QCFG_EN, 15, 1023, 0)] with fresh := 0 }; let c := s.chip; let r := 15; let q := 1023; decide (c.reaches .rm .QP_QCFG r = true ∧ c.isLocked .QP_QCFG r = false ∧ c.g .QP_QCFG_EN r q = 0 ∧ wbit (9 : Word) 0 = true ∧ wbits 9 3 1 < 5)) = true ∧
    (let s := st { qu { linked := [lp true] } [] with fresh := 0 }; let c := s.chip; let r := 15; let q := 1023; decide (c.reaches .rm .QP_QCFG r = true ∧ c.isLocked .QP_QCFG r = false ∧ c.g .QP_QCFG_EN r q = 1 ∧ wbit (11 : Word) 0 = true ∧ 5 ≤ wbits 11 3 1)) = true ∧
    (let s := st { qu { linked := [lp true] } [] with fresh := 0 }; let c := s.chip; let r := 15; let q := 1023; decide (c.reaches .rm .QP_QCFG r = true ∧ c.isLocked .QP_QCFG r = false ∧ c.g .QP_QCFG_EN r q = 1 ∧ wbit (5 : Word) 0 = true ∧ wbits 5 3 1 < 5)) = true ∧
    (let s := st { qu { linked := [lp true] } [] with fresh := 0 }; let c := s.chip; let r := 15; let q := 1023; decide (c.reaches .rm .QP_QCFG r = true ∧ c.isLocked .QP_QCFG r = false ∧ c.g .QP_QCFG_EN r q = 1 ∧ wbit (0 : Word) 0 = false)) = true := by
  decide +kernel

/-- Operands and states that meet the hypotheses of StoresDrawsAndMeters, clause by clause. -/
theorem test_hyps_StoresDrawsAndMeters_1 :
    (decide ((storeInfo (.scratch 1023)).2.2.1 = 1023 ∧ (storeInfo (.scratch 1023)).2.2.2.1 = 0)) = true ∧
    (decide ((storeInfo (.scratch 1023)).2.2.1 = 1023 ∧ (storeInfo (.scratch 1023)).2.2.2.1 = 0)) = true ∧
    (decide ((storeInfo (.scratch 1023)).2.2.1 = 1023 ∧ (storeInfo (.scratch 1023)).2.2.2.1 = 0)) = true ∧
    (decide ((storeInfo (.scratch 1023)).2.2.1 = 1023 ∧ (storeInfo (.scratch 1023)).2.2.2.1 = 0)) = true ∧
    (decide ((storeInfo (.near 7)).2.2.1 = 0 ∧ (storeInfo (.near 7)).2.2.2.1 = 7)) = true ∧
    (decide ((storeInfo (.near 7)).2.2.1 = 0 ∧ (storeInfo (.near 7)).2.2.2.1 = 7)) = true ∧
    (decide ((storeInfo (.near 7)).2.2.1 = 0 ∧ (storeInfo (.near 7)).2.2.2.1 = 7)) = true ∧
    (decide ((storeInfo (.near 7)).2.2.1 = 0 ∧ (storeInfo (.near 7)).2.2.2.1 = 7)) = true ∧
    (decide ((storeInfo (.link 15 1023)).2.2.1 = 15 ∧ (storeInfo (.link 15 1023)).2.2.2.1 = 0)) = true ∧
    (decide ((storeInfo (.link 15 1023)).2.2.1 = 15 ∧ (storeInfo (.link 15 1023)).2.2.2.1 = 0)) = true ∧
    (decide ((storeInfo (.link 15 1023)).2.2.1 = 15 ∧ (storeInfo (.link 15 1023)).2.2.2.1 = 0)) = true ∧
    (decide ((storeInfo (.link 15 1023)).2.2.1 = 15 ∧ (storeInfo (.link 15 1023)).2.2.2.1 = 0)) = true := by
  decide +kernel

/-- Operands and states that meet the hypotheses of StoresDrawsAndMeters, clause by clause. -/
theorem test_hyps_StoresDrawsAndMeters_2 :
    (let s := st { chip [(⟨.PWR_STAT, 47, 47⟩, 0, 0, 0), (.PART_OWN_OWNED, 0, 15, 1)] with up := 5000000, freeAt := [], mem := [(scratchKey 960 0, 3), (regionKey 15 7, 4)] }; let c := s.chip; decide (c.owner 15 ≠ none)) = true ∧
    (let s := st { chip [(⟨.PWR_STAT, 47, 47⟩, 0, 0, 0), (⟨.PWR_STAT, 47, 47⟩, 0, 0, 1)] with up := 5000000, freeAt := [], mem := [(scratchKey 960 0, 3), (regionKey 15 7, 4)] }; let c := s.chip; decide (c.g ⟨.PWR_STAT, 47, 47⟩ 0 = 1)) = true ∧
    (let s := st { chip [(⟨.PWR_STAT, 47, 47⟩, 0, 0, 0), ] with up := 5000000, freeAt := [(15, 4000001)], mem := [(scratchKey 960 0, 3), (regionKey 15 7, 4)] }; let c := s.chip; decide (c.up < sget 0 c.freeAt 15 + 1000000)) = true ∧
    (let s := st { chip [(⟨.PWR_STAT, 47, 47⟩, 0, 0, 0), ] with up := 5000000, freeAt := [(15, 4000000)], mem := [(scratchKey 960 0, 3), (regionKey 15 7, 4)] }; let c := s.chip; decide (c.owner 15 = none ∧ c.g ⟨.PWR_STAT, 47, 47⟩ 0 = 0 ∧ sget 0 c.freeAt 15 + 1000000 ≤ c.up)) = true ∧
    (let s := st { chip [(⟨.PWR_STAT, 47, 47⟩, 0, 0, 0), ] with up := 5000000, freeAt := [], mem := [(scratchKey 960 0, 3), (regionKey 15 7, 4)] }; let c := s.chip; decide (c.g ⟨.PWR_STAT, 47, 47⟩ 0 = 0)) = true ∧
    (let s := st { chip [(⟨.PWR_STAT, 47, 47⟩, 0, 0, 0), (⟨.PWR_STAT, 47, 47⟩, 0, 0, 1)] with up := 5000000, freeAt := [], mem := [(scratchKey 960 0, 3), (regionKey 15 7, 4)] }; let c := s.chip; decide (c.g ⟨.PWR_STAT, 47, 47⟩ 0 = 1)) = true ∧
    (decide (7 < 8)) = true ∧
    (decide (8 ≤ 8 ∧ 8 < 32)) = true ∧
    (decide (8 ≤ 31 ∧ 31 < 32)) = true ∧
    (let s := st { qu {  } [] with fresh := 0 }; let c := s.chip; decide (c.reaches (.vf 0 1) .HUB_SRT_STEP 15 = false)) = true ∧
    (let s := st { qu {  } [] with fresh := 0 }; let c := s.chip; decide (c.reaches .rm .HUB_SRT_STEP 15 = true)) = true ∧
    (let s := st { qu {  } [] with fresh := 0 }; let c := s.chip; decide (c.g ⟨.HUB_SRT_STEP, 63, 63⟩ 15 = 0)) = true := by
  decide +kernel

/-- Operands and states that meet the hypotheses of StoresDrawsAndMeters, clause by clause. -/
theorem test_hyps_StoresDrawsAndMeters_3 :
    (let s := st { qu {  } [(⟨.HUB_SRT_STEP, 63, 63⟩, 15, 0, 1), (.HUB_SRT_IDX_INDEX, 15, 0, 2 ^ 40 - 1)] with fresh := 0 }; let c := s.chip; decide (c.g ⟨.HUB_SRT_STEP, 63, 63⟩ 15 = 1)) = true ∧
    (let s := st { qu {  } [] with fresh := 0 }; let c := s.chip; decide (c.reaches .rm .MTR_SNAP 14 = false)) = true ∧
    (let s := st { qu {  } [] with fresh := 0, mjobs := [{ fn := 34, path := 1, part := 15, win := 47, words := (List.range 30).map Word.ofNat }] }; let c := s.chip; decide (c.reading 1 15 = true)) = true ∧
    (let s := st { qu {  } [(.MTR_STAT_NEXT_SEQ, 15, 0, 2 ^ 48 - 1)] with fresh := 0, meters := [(480, 5)] }; let c := s.chip; decide (c.reaches .rm .MTR_SNAP 15 = true ∧ c.reading 1 15 = false)) = true ∧
    (let s := st { qu {  } [(.MTR_STAT_NEXT_SEQ, 16, 0, 2 ^ 48 - 1)] with fresh := 0, meters := [(512, 5)] }; let c := s.chip; decide (pselOf .rm = some 2 ∧ c.reading 1 16 = false)) = true ∧
    (decide (pselOf (.vf 0 1) = none)) = true ∧
    (let s := st { qu {  } [] with fresh := 0, mjobs := [{ fn := 34, path := 1, part := 16, win := 47, words := (List.range 30).map Word.ofNat }] }; let c := s.chip; decide (c.reading 1 16 = true)) = true ∧
    (let s := st { qu {  } [] with fresh := 0 }; let c := s.chip; decide (c.reading 1 15 = false)) = true ∧
    (let j : MeterJob := { fn := 34, path := 1, part := 15, win := 47, words := (List.range 30).map Word.ofNat }; let s := st { qu {  } [] with fresh := 0, mjobs := [j] }; let c := s.chip; decide (c.mjobs.find? (fun j => j.path == 1 && j.part == 15) = some j ∧ j.win < 1024)) = true ∧
    (let j : MeterJob := { fn := 34, path := 2, part := 15, win := 47, words := (List.range 30).map Word.ofNat }; let s := st { qu {  } [] with fresh := 0, mjobs := [j] }; let c := s.chip; decide (c.mjobs.find? (fun j => j.path == 2 && j.part == 15) = some j ∧ j.win < 1024)) = true := by
  decide +kernel

/-- Partition 15 on a 1 × 1 × 2 torus of modules 0 and 256, with tensor 9 of 64 elements and an empty placement table in its
mapping, the Carousel on, its open collectives, and more fields set. -/
def cr (w : List Word) (a : CarS) (l : List (Fld × Nat × Nat × Nat)) : Chip :=
  { sq w {} ([(.CAR_CTL_EN, 15, 0, 1), (.CAR_CFG_TMO, 15, 0, 1), (.FAB_TOPO_DXM1, 0, 0, 0), (.FAB_TOPO_DYM1, 0, 0, 0), (.FAB_TOPO_DZM1, 0, 0, 1),
      (⟨.FAB_RT, 31, 0⟩, 0, 0, 0x07070706), (⟨.FAB_RT, 31, 0⟩, 0, 64, 0x07070705), (.FAB_JOB_JTAG, 15, 0, 9), (⟨.FAB_PERM, 63, 0⟩, 15, 0, 1),
      (⟨.FAB_PERM, 63, 0⟩, 15, 4, 1), (.PART_NTX_VALID, 15, 0, 1)] ++ l) with
    cars := [(15, a)], up := 5000000
    maps := [(15, { imgs := [(0, ⟨0, 0, 0, [0, 256], [], [⟨9, 0, 0, true, true, false, false, 0, 0, 1, 64, 0, 0, 0, 3 * 2 ^ 60, 3 * 2 ^ 60 + 4096,
      3 * 2 ^ 60 + 2 ^ 16, 3 * 2 ^ 60 + 2 ^ 17, 1, 1⟩], [⟨0, 0, []⟩], []⟩)], cur := some 0 })] }
/-- A COLL of an operation on n elements of tensor 9, CID 4, from and to the region buffer, peer 1. -/
def cw (op n : Nat) : List Word := [hd 0x20 12, Word.ofNat (op + 4 * 2 ^ 16 + (if op = 1 then 2 ^ 48 else 0)), if op < 3 then Word.ofNat (9 * 2 ^ 40) else 0,
  Word.ofNat (if op = 4 then 0 else n), if op = 4 then 0 else Word.ofNat (2 ^ 60 + 15 * 2 ^ 32), if op = 4 then 0 else Word.ofNat (2 ^ 60 + 15 * 2 ^ 32 + 64),
  if op < 5 then 0 else 1, 0, 0, 0, 0, 0]
/-- The open collective of such a command. -/
def cs (op n : Nat) : CollS := { cl := 127, id := 0, cid := 4, words := cw op n, alg := 2, me := 0, mods := [0, 256], kind := 0, lcols := 64, lastr := false, seen := 0 }
/-- A COLL packet from module 256, member 1, for CID 4: kind, attempt, layout epoch, header words 3 and 4, data flits. -/
def cp (kind att le w3 w4 n : Nat) : Pkt := pkt 0x30 1 256 n (9 + le * 2 ^ 16) (kind + 4 * 2 ^ 8 + att * 2 ^ 24 + 2 ^ 32 + 2 ^ 48) w3 w4

/-- One step of collRs, its results from the rules that its meaning cites. -/
theorem test_step_collRs :
    (let w := cw 0 1; let s := st { cr w {  } [(⟨.FAB_PERM, 63, 0⟩, 15, 4, 0)] with fresh := 0 }; let cl := 127; let p := 15; match execCollRs cl s with | .next t => decide ((t.chip.seq cl).nextId = 1 ∧ t.chip.g .CLU_SEQ_CNT_COUNT cl = 1 ∧ t.chip.g .CAR_CNT_COUNT p 0 = 1 ∧ t.chip.g .CLU_SEQ_STICKY_DENIED cl = 1 ∧ t.chip.g .PART_CNT_XPART_COUNT p = 1) | _ => false) = true := by
  decide +kernel

/-- One step of collAg, its results from the rules that its meaning cites. -/
theorem test_step_collAg :
    (let w := cw 1 1; let s := st { cr w {  } [(⟨.FAB_PERM, 63, 0⟩, 15, 4, 0)] with fresh := 0 }; let cl := 127; let p := 15; match execCollAg cl s with | .next t => decide ((t.chip.seq cl).nextId = 1 ∧ t.chip.g .CLU_SEQ_CNT_COUNT cl = 1 ∧ t.chip.g .CAR_CNT_COUNT p 0 = 1 ∧ t.chip.g .CLU_SEQ_STICKY_DENIED cl = 1 ∧ t.chip.g .PART_CNT_XPART_COUNT p = 1) | _ => false) = true := by
  decide +kernel

/-- One step of collAr, its results from the rules that its meaning cites. -/
theorem test_step_collAr :
    (let w := cw 2 1; let s := st { cr w {  } [(⟨.FAB_PERM, 63, 0⟩, 15, 4, 0)] with fresh := 0 }; let cl := 127; let p := 15; match execCollAr cl s with | .next t => decide ((t.chip.seq cl).nextId = 1 ∧ t.chip.g .CLU_SEQ_CNT_COUNT cl = 1 ∧ t.chip.g .CAR_CNT_COUNT p 0 = 1 ∧ t.chip.g .CLU_SEQ_STICKY_DENIED cl = 1 ∧ t.chip.g .PART_CNT_XPART_COUNT p = 1) | _ => false) = true := by
  decide +kernel

/-- One step of collA2a, its results from the rules that its meaning cites. -/
theorem test_step_collA2a :
    (let w := cw 3 1; let s := st { cr w {  } [(⟨.FAB_PERM, 63, 0⟩, 15, 4, 0)] with fresh := 0 }; let cl := 127; let p := 15; match execCollA2a cl s with | .next t => decide ((t.chip.seq cl).nextId = 1 ∧ t.chip.g .CLU_SEQ_CNT_COUNT cl = 1 ∧ t.chip.g .CAR_CNT_COUNT p 0 = 1 ∧ t.chip.g .CLU_SEQ_STICKY_DENIED cl = 1 ∧ t.chip.g .PART_CNT_XPART_COUNT p = 1) | _ => false) = true := by
  decide +kernel

/-- Operands and states that meet the hypotheses of CollectivesIssued, clause by clause. -/
theorem test_hyps_CollectivesIssued_1 :
    (let w := cw 0 1; let s := st { cr w {  } [] with fresh := 0, seals := [(15, { barrier := true })] }; let c := s.chip; let cl := 127; let p := 15; decide (offersB c cl w = true ∧ isOp 0x20 w = true ∧ clOp w = 0 ∧ (c.sealOf p).barrier = true)) = true ∧
    (let w := cw 0 1; let s := st { cr w {  } [(.CAR_CTL_EN, 15, 0, 0)] with fresh := 0 }; let c := s.chip; let cl := 127; let p := 15; decide (offersB c cl w = true ∧ isOp 0x20 w = true ∧ clOp w = 0 ∧ (c.sealOf p).barrier = false ∧ c.g .CAR_CTL_EN p = 0)) = true ∧
    (let w := cw 0 1; let s := st { cr w { colls := [cs 6 1] } [] with fresh := 0 }; let c := s.chip; let cl := 127; let p := 15; decide (offersB c cl w = true ∧ isOp 0x20 w = true ∧ clOp w = 0 ∧ (c.sealOf p).barrier = false ∧ c.g .CAR_CTL_EN p = 1 ∧ ((c.curMap p).bind (fun m => (m.members (clGid w)).bind (fun l => (m.index (clGid w)).map (fun me => (l.map m.idOf, me))))) = some ([0, 256], 0) ∧ (((c.collRanges p w 2 0 0 (clWiden w)).1.all (fun r => c.tierHas p r.1 r.2)) && ((c.collRanges p w 2 0 0 (clWiden w)).2.all (fun r => c.collWritable p r.1 r.2))) = true ∧ (clWiden w = false) ∧ (c.coll p (clCid w)).isSome = true)) = true ∧
    (let w := cw 0 1; let s := st { cr w {  } [(⟨.FAB_PERM, 63, 0⟩, 15, 4, 0)] with fresh := 0 }; let c := s.chip; let cl := 127; let p := 15; decide (offersB c cl w = true ∧ isOp 0x20 w = true ∧ clOp w = 0 ∧ (c.sealOf p).barrier = false ∧ c.g .CAR_CTL_EN p = 1 ∧ ((c.curMap p).bind (fun m => (m.members (clGid w)).bind (fun l => (m.index (clGid w)).map (fun me => (l.map m.idOf, me))))) = some ([0, 256], 0) ∧ (((c.collRanges p w 2 0 0 (clWiden w)).1.all (fun r => c.tierHas p r.1 r.2)) && ((c.collRanges p w 2 0 0 (clWiden w)).2.all (fun r => c.collWritable p r.1 r.2))) = true ∧ (clWiden w = false) ∧ c.coll p (clCid w) = none ∧ c.permits p 256 = false ∧ c.faultQueue (.part p) = none)) = true ∧
    (let w := cw 0 0; let s := st { cr w {  } [] with fresh := 0 }; let c := s.chip; let cl := 127; let p := 15; decide (offersB c cl w = true ∧ isOp 0x20 w = true ∧ clOp w = 0 ∧ (c.sealOf p).barrier = false ∧ c.g .CAR_CTL_EN p = 1 ∧ ((c.curMap p).bind (fun m => (m.members (clGid w)).bind (fun l => (m.index (clGid w)).map (fun me => (l.map m.idOf, me))))) = some ([0, 256], 0) ∧ (((c.collRanges p w 2 0 0 (clWiden w)).1.all (fun r => c.tierHas p r.1 r.2)) && ((c.collRanges p w 2 0 0 (clWiden w)).2.all (fun r => c.collWritable p r.1 r.2))) = true ∧ (clWiden w = false) ∧ c.coll p (clCid w) = none ∧ c.permits p 256 = true ∧ clCount w = 0)) = true ∧
    (let w := cw 0 1; let s := st { cr w {  } [] with fresh := 0 }; let c := s.chip; let cl := 127; let p := 15; decide (offersB c cl w = true ∧ isOp 0x20 w = true ∧ clOp w = 0 ∧ (c.sealOf p).barrier = false ∧ c.g .CAR_CTL_EN p = 1 ∧ ((c.curMap p).bind (fun m => (m.members (clGid w)).bind (fun l => (m.index (clGid w)).map (fun me => (l.map m.idOf, me))))) = some ([0, 256], 0) ∧ (((c.collRanges p w 2 0 0 (clWiden w)).1.all (fun r => c.tierHas p r.1 r.2)) && ((c.collRanges p w 2 0 0 (clWiden w)).2.all (fun r => c.collWritable p r.1 r.2))) = true ∧ (clWiden w = false) ∧ c.coll p (clCid w) = none ∧ c.permits p 256 = true)) = true ∧
    (let w := cw 1 1; let s := st { cr w {  } [] with fresh := 0, seals := [(15, { barrier := true })] }; let c := s.chip; let cl := 127; let p := 15; decide (offersB c cl w = true ∧ isOp 0x20 w = true ∧ clOp w = 1 ∧ (c.sealOf p).barrier = true)) = true ∧
    (let w := cw 1 1; let s := st { cr w {  } [(.CAR_CTL_EN, 15, 0, 0)] with fresh := 0 }; let c := s.chip; let cl := 127; let p := 15; decide (offersB c cl w = true ∧ isOp 0x20 w = true ∧ clOp w = 1 ∧ (c.sealOf p).barrier = false ∧ c.g .CAR_CTL_EN p = 0)) = true ∧
    (let w := cw 1 1; let s := st { cr w { colls := [cs 6 1] } [] with fresh := 0 }; let c := s.chip; let cl := 127; let p := 15; decide (offersB c cl w = true ∧ isOp 0x20 w = true ∧ clOp w = 1 ∧ (c.sealOf p).barrier = false ∧ c.g .CAR_CTL_EN p = 1 ∧ ((c.curMap p).bind (fun m => (m.members (clGid w)).bind (fun l => (m.index (clGid w)).map (fun me => (l.map m.idOf, me))))) = some ([0, 256], 0) ∧ (((c.collRanges p w 2 0 0 (clWiden w)).1.all (fun r => c.tierHas p r.1 r.2)) && ((c.collRanges p w 2 0 0 (clWiden w)).2.all (fun r => c.collWritable p r.1 r.2))) = true ∧ (clWiden w = false) ∧ (c.coll p (clCid w)).isSome = true)) = true ∧
    (let w := cw 1 1; let s := st { cr w {  } [(⟨.FAB_PERM, 63, 0⟩, 15, 4, 0)] with fresh := 0 }; let c := s.chip; let cl := 127; let p := 15; decide (offersB c cl w = true ∧ isOp 0x20 w = true ∧ clOp w = 1 ∧ (c.sealOf p).barrier = false ∧ c.g .CAR_CTL_EN p = 1 ∧ ((c.curMap p).bind (fun m => (m.members (clGid w)).bind (fun l => (m.index (clGid w)).map (fun me => (l.map m.idOf, me))))) = some ([0, 256], 0) ∧ (((c.collRanges p w 2 0 0 (clWiden w)).1.all (fun r => c.tierHas p r.1 r.2)) && ((c.collRanges p w 2 0 0 (clWiden w)).2.all (fun r => c.collWritable p r.1 r.2))) = true ∧ (clWiden w = false) ∧ c.coll p (clCid w) = none ∧ c.permits p 256 = false ∧ c.faultQueue (.part p) = none)) = true ∧
    (let w := cw 1 0; let s := st { cr w {  } [] with fresh := 0 }; let c := s.chip; let cl := 127; let p := 15; decide (offersB c cl w = true ∧ isOp 0x20 w = true ∧ clOp w = 1 ∧ (c.sealOf p).barrier = false ∧ c.g .CAR_CTL_EN p = 1 ∧ ((c.curMap p).bind (fun m => (m.members (clGid w)).bind (fun l => (m.index (clGid w)).map (fun me => (l.map m.idOf, me))))) = some ([0, 256], 0) ∧ (((c.collRanges p w 2 0 0 (clWiden w)).1.all (fun r => c.tierHas p r.1 r.2)) && ((c.collRanges p w 2 0 0 (clWiden w)).2.all (fun r => c.collWritable p r.1 r.2))) = true ∧ (clWiden w = false) ∧ c.coll p (clCid w) = none ∧ c.permits p 256 = true ∧ clCount w = 0)) = true ∧
    (let w := cw 1 1; let s := st { cr w {  } [] with fresh := 0 }; let c := s.chip; let cl := 127; let p := 15; decide (offersB c cl w = true ∧ isOp 0x20 w = true ∧ clOp w = 1 ∧ (c.sealOf p).barrier = false ∧ c.g .CAR_CTL_EN p = 1 ∧ ((c.curMap p).bind (fun m => (m.members (clGid w)).bind (fun l => (m.index (clGid w)).map (fun me => (l.map m.idOf, me))))) = some ([0, 256], 0) ∧ (((c.collRanges p w 2 0 0 (clWiden w)).1.all (fun r => c.tierHas p r.1 r.2)) && ((c.collRanges p w 2 0 0 (clWiden w)).2.all (fun r => c.collWritable p r.1 r.2))) = true ∧ (clWiden w = false) ∧ c.coll p (clCid w) = none ∧ c.permits p 256 = true)) = true := by
  decide +kernel

/-- Operands and states that meet the hypotheses of CollectivesIssued, clause by clause. -/
theorem test_hyps_CollectivesIssued_2 :
    (let w := cw 2 1; let s := st { cr w {  } [] with fresh := 0, seals := [(15, { barrier := true })] }; let c := s.chip; let cl := 127; let p := 15; decide (offersB c cl w = true ∧ isOp 0x20 w = true ∧ clOp w = 2 ∧ (c.sealOf p).barrier = true)) = true ∧
    (let w := cw 2 1; let s := st { cr w {  } [(.CAR_CTL_EN, 15, 0, 0)] with fresh := 0 }; let c := s.chip; let cl := 127; let p := 15; decide (offersB c cl w = true ∧ isOp 0x20 w = true ∧ clOp w = 2 ∧ (c.sealOf p).barrier = false ∧ c.g .CAR_CTL_EN p = 0)) = true ∧
    (let w := cw 2 1; let s := st { cr w { colls := [cs 6 1] } [] with fresh := 0 }; let c := s.chip; let cl := 127; let p := 15; decide (offersB c cl w = true ∧ isOp 0x20 w = true ∧ clOp w = 2 ∧ (c.sealOf p).barrier = false ∧ c.g .CAR_CTL_EN p = 1 ∧ ((c.curMap p).bind (fun m => (m.members (clGid w)).bind (fun l => (m.index (clGid w)).map (fun me => (l.map m.idOf, me))))) = some ([0, 256], 0) ∧ (((c.collRanges p w 2 0 0 (clWiden w)).1.all (fun r => c.tierHas p r.1 r.2)) && ((c.collRanges p w 2 0 0 (clWiden w)).2.all (fun r => c.collWritable p r.1 r.2))) = true ∧ (clWiden w = false) ∧ (c.coll p (clCid w)).isSome = true)) = true ∧
    (let w := cw 2 1; let s := st { cr w {  } [(⟨.FAB_PERM, 63, 0⟩, 15, 4, 0)] with fresh := 0 }; let c := s.chip; let cl := 127; let p := 15; decide (offersB c cl w = true ∧ isOp 0x20 w = true ∧ clOp w = 2 ∧ (c.sealOf p).barrier = false ∧ c.g .CAR_CTL_EN p = 1 ∧ ((c.curMap p).bind (fun m => (m.members (clGid w)).bind (fun l => (m.index (clGid w)).map (fun me => (l.map m.idOf, me))))) = some ([0, 256], 0) ∧ (((c.collRanges p w 2 0 0 (clWiden w)).1.all (fun r => c.tierHas p r.1 r.2)) && ((c.collRanges p w 2 0 0 (clWiden w)).2.all (fun r => c.collWritable p r.1 r.2))) = true ∧ (clWiden w = false) ∧ c.coll p (clCid w) = none ∧ c.permits p 256 = false ∧ c.faultQueue (.part p) = none)) = true ∧
    (let w := cw 2 0; let s := st { cr w {  } [] with fresh := 0 }; let c := s.chip; let cl := 127; let p := 15; decide (offersB c cl w = true ∧ isOp 0x20 w = true ∧ clOp w = 2 ∧ (c.sealOf p).barrier = false ∧ c.g .CAR_CTL_EN p = 1 ∧ ((c.curMap p).bind (fun m => (m.members (clGid w)).bind (fun l => (m.index (clGid w)).map (fun me => (l.map m.idOf, me))))) = some ([0, 256], 0) ∧ (((c.collRanges p w 2 0 0 (clWiden w)).1.all (fun r => c.tierHas p r.1 r.2)) && ((c.collRanges p w 2 0 0 (clWiden w)).2.all (fun r => c.collWritable p r.1 r.2))) = true ∧ (clWiden w = false) ∧ c.coll p (clCid w) = none ∧ c.permits p 256 = true ∧ clCount w = 0)) = true ∧
    (let w := cw 2 1; let s := st { cr w {  } [] with fresh := 0 }; let c := s.chip; let cl := 127; let p := 15; decide (offersB c cl w = true ∧ isOp 0x20 w = true ∧ clOp w = 2 ∧ (c.sealOf p).barrier = false ∧ c.g .CAR_CTL_EN p = 1 ∧ ((c.curMap p).bind (fun m => (m.members (clGid w)).bind (fun l => (m.index (clGid w)).map (fun me => (l.map m.idOf, me))))) = some ([0, 256], 0) ∧ (((c.collRanges p w 2 0 0 (clWiden w)).1.all (fun r => c.tierHas p r.1 r.2)) && ((c.collRanges p w 2 0 0 (clWiden w)).2.all (fun r => c.collWritable p r.1 r.2))) = true ∧ (clWiden w = false) ∧ c.coll p (clCid w) = none ∧ c.permits p 256 = true)) = true ∧
    (let w := cw 3 1; let s := st { cr w {  } [] with fresh := 0, seals := [(15, { barrier := true })] }; let c := s.chip; let cl := 127; let p := 15; decide (offersB c cl w = true ∧ isOp 0x20 w = true ∧ clOp w = 3 ∧ (c.sealOf p).barrier = true)) = true ∧
    (let w := cw 3 1; let s := st { cr w {  } [(.CAR_CTL_EN, 15, 0, 0)] with fresh := 0 }; let c := s.chip; let cl := 127; let p := 15; decide (offersB c cl w = true ∧ isOp 0x20 w = true ∧ clOp w = 3 ∧ (c.sealOf p).barrier = false ∧ c.g .CAR_CTL_EN p = 0)) = true ∧
    (let w := cw 3 1; let s := st { cr w { colls := [cs 6 1] } [] with fresh := 0 }; let c := s.chip; let cl := 127; let p := 15; decide (offersB c cl w = true ∧ isOp 0x20 w = true ∧ clOp w = 3 ∧ (c.sealOf p).barrier = false ∧ c.g .CAR_CTL_EN p = 1 ∧ ((c.curMap p).bind (fun m => (m.members (clGid w)).bind (fun l => (m.index (clGid w)).map (fun me => (l.map m.idOf, me))))) = some ([0, 256], 0) ∧ (((c.collRanges p w 2 0 0 (clWiden w)).1.all (fun r => c.tierHas p r.1 r.2)) && ((c.collRanges p w 2 0 0 (clWiden w)).2.all (fun r => c.collWritable p r.1 r.2))) = true ∧ (clWiden w = false) ∧ (c.coll p (clCid w)).isSome = true)) = true ∧
    (let w := cw 3 1; let s := st { cr w {  } [(⟨.FAB_PERM, 63, 0⟩, 15, 4, 0)] with fresh := 0 }; let c := s.chip; let cl := 127; let p := 15; decide (offersB c cl w = true ∧ isOp 0x20 w = true ∧ clOp w = 3 ∧ (c.sealOf p).barrier = false ∧ c.g .CAR_CTL_EN p = 1 ∧ ((c.curMap p).bind (fun m => (m.members (clGid w)).bind (fun l => (m.index (clGid w)).map (fun me => (l.map m.idOf, me))))) = some ([0, 256], 0) ∧ (((c.collRanges p w 2 0 0 (clWiden w)).1.all (fun r => c.tierHas p r.1 r.2)) && ((c.collRanges p w 2 0 0 (clWiden w)).2.all (fun r => c.collWritable p r.1 r.2))) = true ∧ (clWiden w = false) ∧ c.coll p (clCid w) = none ∧ c.permits p 256 = false ∧ c.faultQueue (.part p) = none)) = true ∧
    (let w := cw 3 0; let s := st { cr w {  } [] with fresh := 0 }; let c := s.chip; let cl := 127; let p := 15; decide (offersB c cl w = true ∧ isOp 0x20 w = true ∧ clOp w = 3 ∧ (c.sealOf p).barrier = false ∧ c.g .CAR_CTL_EN p = 1 ∧ ((c.curMap p).bind (fun m => (m.members (clGid w)).bind (fun l => (m.index (clGid w)).map (fun me => (l.map m.idOf, me))))) = some ([0, 256], 0) ∧ (((c.collRanges p w 2 0 0 (clWiden w)).1.all (fun r => c.tierHas p r.1 r.2)) && ((c.collRanges p w 2 0 0 (clWiden w)).2.all (fun r => c.collWritable p r.1 r.2))) = true ∧ (clWiden w = false) ∧ c.coll p (clCid w) = none ∧ c.permits p 256 = true ∧ clCount w = 0)) = true ∧
    (let w := cw 3 1; let s := st { cr w {  } [] with fresh := 0 }; let c := s.chip; let cl := 127; let p := 15; decide (offersB c cl w = true ∧ isOp 0x20 w = true ∧ clOp w = 3 ∧ (c.sealOf p).barrier = false ∧ c.g .CAR_CTL_EN p = 1 ∧ ((c.curMap p).bind (fun m => (m.members (clGid w)).bind (fun l => (m.index (clGid w)).map (fun me => (l.map m.idOf, me))))) = some ([0, 256], 0) ∧ (((c.collRanges p w 2 0 0 (clWiden w)).1.all (fun r => c.tierHas p r.1 r.2)) && ((c.collRanges p w 2 0 0 (clWiden w)).2.all (fun r => c.collWritable p r.1 r.2))) = true ∧ (clWiden w = false) ∧ c.coll p (clCid w) = none ∧ c.permits p 256 = true)) = true := by
  decide +kernel

/-- Operands and states that meet the hypotheses of CollectivesIssued, clause by clause. -/
theorem test_hyps_CollectivesIssued_3 :
    (let w := cw 4 1; let s := st { cr w {  } [] with fresh := 0, seals := [(15, { barrier := true })] }; let c := s.chip; let cl := 127; let p := 15; decide (offersB c cl w = true ∧ isOp 0x20 w = true ∧ clOp w = 4 ∧ (c.sealOf p).barrier = true)) = true ∧
    (let w := cw 4 1; let s := st { cr w {  } [(.CAR_CTL_EN, 15, 0, 0)] with fresh := 0 }; let c := s.chip; let cl := 127; let p := 15; decide (offersB c cl w = true ∧ isOp 0x20 w = true ∧ clOp w = 4 ∧ (c.sealOf p).barrier = false ∧ c.g .CAR_CTL_EN p = 0)) = true ∧
    (let w := cw 4 1; let s := st { cr w { colls := [cs 6 1] } [] with fresh := 0 }; let c := s.chip; let cl := 127; let p := 15; decide (offersB c cl w = true ∧ isOp 0x20 w = true ∧ clOp w = 4 ∧ (c.sealOf p).barrier = false ∧ c.g .CAR_CTL_EN p = 1 ∧ ((c.curMap p).bind (fun m => (m.members (clGid w)).bind (fun l => (m.index (clGid w)).map (fun me => (l.map m.idOf, me))))) = some ([0, 256], 0) ∧ (((c.collRanges p w 2 0 0 (clWiden w)).1.all (fun r => c.tierHas p r.1 r.2)) && ((c.collRanges p w 2 0 0 (clWiden w)).2.all (fun r => c.collWritable p r.1 r.2))) = true ∧ (clWiden w = false) ∧ (c.coll p (clCid w)).isSome = true)) = true ∧
    (let w := cw 4 1; let s := st { cr w {  } [(⟨.FAB_PERM, 63, 0⟩, 15, 4, 0)] with fresh := 0 }; let c := s.chip; let cl := 127; let p := 15; decide (offersB c cl w = true ∧ isOp 0x20 w = true ∧ clOp w = 4 ∧ (c.sealOf p).barrier = false ∧ c.g .CAR_CTL_EN p = 1 ∧ ((c.curMap p).bind (fun m => (m.members (clGid w)).bind (fun l => (m.index (clGid w)).map (fun me => (l.map m.idOf, me))))) = some ([0, 256], 0) ∧ (((c.collRanges p w 2 0 0 (clWiden w)).1.all (fun r => c.tierHas p r.1 r.2)) && ((c.collRanges p w 2 0 0 (clWiden w)).2.all (fun r => c.collWritable p r.1 r.2))) = true ∧ (clWiden w = false) ∧ c.coll p (clCid w) = none ∧ c.permits p 256 = false ∧ c.faultQueue (.part p) = none)) = true ∧
    (let w := cw 4 1; let s := st { cr w {  } [] with fresh := 0 }; let c := s.chip; let cl := 127; let p := 15; decide (offersB c cl w = true ∧ isOp 0x20 w = true ∧ clOp w = 4 ∧ (c.sealOf p).barrier = false ∧ c.g .CAR_CTL_EN p = 1 ∧ ((c.curMap p).bind (fun m => (m.members (clGid w)).bind (fun l => (m.index (clGid w)).map (fun me => (l.map m.idOf, me))))) = some ([0, 256], 0) ∧ (((c.collRanges p w 2 0 0 (clWiden w)).1.all (fun r => c.tierHas p r.1 r.2)) && ((c.collRanges p w 2 0 0 (clWiden w)).2.all (fun r => c.collWritable p r.1 r.2))) = true ∧ (clWiden w = false) ∧ c.coll p (clCid w) = none ∧ c.permits p 256 = true)) = true ∧
    (let w := cw 5 1; let s := st { cr w {  } [] with fresh := 0, seals := [(15, { barrier := true })] }; let c := s.chip; let cl := 127; let p := 15; decide (offersB c cl w = true ∧ isOp 0x20 w = true ∧ clOp w = 5 ∧ (c.sealOf p).barrier = true)) = true ∧
    (let w := cw 5 1; let s := st { cr w {  } [(.CAR_CTL_EN, 15, 0, 0)] with fresh := 0 }; let c := s.chip; let cl := 127; let p := 15; decide (offersB c cl w = true ∧ isOp 0x20 w = true ∧ clOp w = 5 ∧ (c.sealOf p).barrier = false ∧ c.g .CAR_CTL_EN p = 0)) = true ∧
    (let w := cw 5 1; let s := st { cr w {  } [] with fresh := 0 }; let c := s.chip; let cl := 127; let p := 15; decide (offersB c cl w = true ∧ isOp 0x20 w = true ∧ clOp w = 5 ∧ (c.sealOf p).barrier = false ∧ c.g .CAR_CTL_EN p = 1 ∧ ((c.curMap p).bind (fun m => (m.members (clGid w)).bind (fun l => (m.index (clGid w)).map (fun me => (l.map m.idOf, me))))) = some ([0, 256], 0) ∧ (((c.collRanges p w 2 0 0 (clWiden w)).1.all (fun r => c.tierHas p r.1 r.2)) && ((c.collRanges p w 2 0 0 (clWiden w)).2.all (fun r => c.collWritable p r.1 r.2))) = true ∧ (clWiden w = false) ∧ c.coll p (clCid w) = none ∧ c.permits p 256 = true)) = true ∧
    (let w := cw 6 1; let s := st { cr w {  } [] with fresh := 0, seals := [(15, { barrier := true })] }; let c := s.chip; let cl := 127; let p := 15; decide (offersB c cl w = true ∧ isOp 0x20 w = true ∧ clOp w = 6 ∧ (c.sealOf p).barrier = true)) = true ∧
    (let w := cw 6 1; let s := st { cr w {  } [(.CAR_CTL_EN, 15, 0, 0)] with fresh := 0 }; let c := s.chip; let cl := 127; let p := 15; decide (offersB c cl w = true ∧ isOp 0x20 w = true ∧ clOp w = 6 ∧ (c.sealOf p).barrier = false ∧ c.g .CAR_CTL_EN p = 0)) = true ∧
    (let w := cw 6 1; let s := st { cr w { colls := [cs 6 1] } [] with fresh := 0 }; let c := s.chip; let cl := 127; let p := 15; decide (offersB c cl w = true ∧ isOp 0x20 w = true ∧ clOp w = 6 ∧ (c.sealOf p).barrier = false ∧ c.g .CAR_CTL_EN p = 1 ∧ ((c.curMap p).bind (fun m => (m.members (clGid w)).bind (fun l => (m.index (clGid w)).map (fun me => (l.map m.idOf, me))))) = some ([0, 256], 0) ∧ (((c.collRanges p w 2 0 0 (clWiden w)).1.all (fun r => c.tierHas p r.1 r.2)) && ((c.collRanges p w 2 0 0 (clWiden w)).2.all (fun r => c.collWritable p r.1 r.2))) = true ∧ (clWiden w = false) ∧ (c.coll p (clCid w)).isSome = true)) = true ∧
    (let w := cw 6 1; let s := st { cr w {  } [(⟨.FAB_PERM, 63, 0⟩, 15, 4, 0)] with fresh := 0 }; let c := s.chip; let cl := 127; let p := 15; decide (offersB c cl w = true ∧ isOp 0x20 w = true ∧ clOp w = 6 ∧ (c.sealOf p).barrier = false ∧ c.g .CAR_CTL_EN p = 1 ∧ ((c.curMap p).bind (fun m => (m.members (clGid w)).bind (fun l => (m.index (clGid w)).map (fun me => (l.map m.idOf, me))))) = some ([0, 256], 0) ∧ (((c.collRanges p w 2 0 0 (clWiden w)).1.all (fun r => c.tierHas p r.1 r.2)) && ((c.collRanges p w 2 0 0 (clWiden w)).2.all (fun r => c.collWritable p r.1 r.2))) = true ∧ (clWiden w = false) ∧ c.coll p (clCid w) = none ∧ c.permits p 256 = false ∧ c.faultQueue (.part p) = none)) = true := by
  decide +kernel

/-- Operands and states that meet the hypotheses of CollectivesIssued, clause by clause. -/
theorem test_hyps_CollectivesIssued_4 :
    (let w := cw 6 0; let s := st { cr w {  } [] with fresh := 0 }; let c := s.chip; let cl := 127; let p := 15; decide (offersB c cl w = true ∧ isOp 0x20 w = true ∧ clOp w = 6 ∧ (c.sealOf p).barrier = false ∧ c.g .CAR_CTL_EN p = 1 ∧ ((c.curMap p).bind (fun m => (m.members (clGid w)).bind (fun l => (m.index (clGid w)).map (fun me => (l.map m.idOf, me))))) = some ([0, 256], 0) ∧ (((c.collRanges p w 2 0 0 (clWiden w)).1.all (fun r => c.tierHas p r.1 r.2)) && ((c.collRanges p w 2 0 0 (clWiden w)).2.all (fun r => c.collWritable p r.1 r.2))) = true ∧ (clWiden w = false) ∧ c.coll p (clCid w) = none ∧ c.permits p 256 = true ∧ clCount w = 0)) = true ∧
    (let w := cw 6 1; let s := st { cr w {  } [] with fresh := 0 }; let c := s.chip; let cl := 127; let p := 15; decide (offersB c cl w = true ∧ isOp 0x20 w = true ∧ clOp w = 6 ∧ (c.sealOf p).barrier = false ∧ c.g .CAR_CTL_EN p = 1 ∧ ((c.curMap p).bind (fun m => (m.members (clGid w)).bind (fun l => (m.index (clGid w)).map (fun me => (l.map m.idOf, me))))) = some ([0, 256], 0) ∧ (((c.collRanges p w 2 0 0 (clWiden w)).1.all (fun r => c.tierHas p r.1 r.2)) && ((c.collRanges p w 2 0 0 (clWiden w)).2.all (fun r => c.collWritable p r.1 r.2))) = true ∧ (clWiden w = false) ∧ c.coll p (clCid w) = none ∧ c.permits p 256 = true)) = true ∧
    (let w := cw 7 1; let s := st { cr w {  } [] with fresh := 0, seals := [(15, { barrier := true })] }; let c := s.chip; let cl := 127; let p := 15; decide (offersB c cl w = true ∧ isOp 0x20 w = true ∧ clOp w = 7 ∧ (c.sealOf p).barrier = true)) = true ∧
    (let w := cw 7 1; let s := st { cr w {  } [(.CAR_CTL_EN, 15, 0, 0)] with fresh := 0 }; let c := s.chip; let cl := 127; let p := 15; decide (offersB c cl w = true ∧ isOp 0x20 w = true ∧ clOp w = 7 ∧ (c.sealOf p).barrier = false ∧ c.g .CAR_CTL_EN p = 0)) = true ∧
    (let w := cw 7 1; let s := st { cr w { colls := [cs 6 1] } [] with fresh := 0 }; let c := s.chip; let cl := 127; let p := 15; decide (offersB c cl w = true ∧ isOp 0x20 w = true ∧ clOp w = 7 ∧ (c.sealOf p).barrier = false ∧ c.g .CAR_CTL_EN p = 1 ∧ ((c.curMap p).bind (fun m => (m.members (clGid w)).bind (fun l => (m.index (clGid w)).map (fun me => (l.map m.idOf, me))))) = some ([0, 256], 0) ∧ (((c.collRanges p w 2 0 0 (clWiden w)).1.all (fun r => c.tierHas p r.1 r.2)) && ((c.collRanges p w 2 0 0 (clWiden w)).2.all (fun r => c.collWritable p r.1 r.2))) = true ∧ (clWiden w = false) ∧ (c.coll p (clCid w)).isSome = true)) = true ∧
    (let w := cw 7 1; let s := st { cr w {  } [(⟨.FAB_PERM, 63, 0⟩, 15, 4, 0)] with fresh := 0 }; let c := s.chip; let cl := 127; let p := 15; decide (offersB c cl w = true ∧ isOp 0x20 w = true ∧ clOp w = 7 ∧ (c.sealOf p).barrier = false ∧ c.g .CAR_CTL_EN p = 1 ∧ ((c.curMap p).bind (fun m => (m.members (clGid w)).bind (fun l => (m.index (clGid w)).map (fun me => (l.map m.idOf, me))))) = some ([0, 256], 0) ∧ (((c.collRanges p w 2 0 0 (clWiden w)).1.all (fun r => c.tierHas p r.1 r.2)) && ((c.collRanges p w 2 0 0 (clWiden w)).2.all (fun r => c.collWritable p r.1 r.2))) = true ∧ (clWiden w = false) ∧ c.coll p (clCid w) = none ∧ c.permits p 256 = false ∧ c.faultQueue (.part p) = none)) = true ∧
    (let w := cw 7 0; let s := st { cr w {  } [] with fresh := 0 }; let c := s.chip; let cl := 127; let p := 15; decide (offersB c cl w = true ∧ isOp 0x20 w = true ∧ clOp w = 7 ∧ (c.sealOf p).barrier = false ∧ c.g .CAR_CTL_EN p = 1 ∧ ((c.curMap p).bind (fun m => (m.members (clGid w)).bind (fun l => (m.index (clGid w)).map (fun me => (l.map m.idOf, me))))) = some ([0, 256], 0) ∧ (((c.collRanges p w 2 0 0 (clWiden w)).1.all (fun r => c.tierHas p r.1 r.2)) && ((c.collRanges p w 2 0 0 (clWiden w)).2.all (fun r => c.collWritable p r.1 r.2))) = true ∧ (clWiden w = false) ∧ c.coll p (clCid w) = none ∧ c.permits p 256 = true ∧ clCount w = 0)) = true ∧
    (let w := cw 7 1; let s := st { cr w {  } [] with fresh := 0 }; let c := s.chip; let cl := 127; let p := 15; decide (offersB c cl w = true ∧ isOp 0x20 w = true ∧ clOp w = 7 ∧ (c.sealOf p).barrier = false ∧ c.g .CAR_CTL_EN p = 1 ∧ ((c.curMap p).bind (fun m => (m.members (clGid w)).bind (fun l => (m.index (clGid w)).map (fun me => (l.map m.idOf, me))))) = some ([0, 256], 0) ∧ (((c.collRanges p w 2 0 0 (clWiden w)).1.all (fun r => c.tierHas p r.1 r.2)) && ((c.collRanges p w 2 0 0 (clWiden w)).2.all (fun r => c.collWritable p r.1 r.2))) = true ∧ (clWiden w = false) ∧ c.coll p (clCid w) = none ∧ c.permits p 256 = true)) = true ∧
    (let w := cw 6 1; let s := st { cr w { colls := (List.range 32).map (fun i => { cs 6 1 with cid := 100 + i }) } [] with fresh := 0 }; let c := s.chip; let cl := 127; let p := 15; decide (offersB c cl w = true ∧ isOp 0x20 w = true ∧ (c.sealOf p).barrier = false ∧ c.g .CAR_CTL_EN p = 1 ∧ ((c.curMap p).bind (fun m => (m.members (clGid w)).bind (fun l => (m.index (clGid w)).map (fun me => (l.map m.idOf, me))))) = some ([0, 256], 0) ∧ (((c.collRanges p w 2 0 0 (clWiden w)).1.all (fun r => c.tierHas p r.1 r.2)) && ((c.collRanges p w 2 0 0 (clWiden w)).2.all (fun r => c.collWritable p r.1 r.2))) = true ∧ (clWiden w = false) ∧ c.coll p (clCid w) = none ∧ 32 ≤ (c.car p).colls.length)) = true := by
  decide +kernel

/-- Operands and states that meet the hypotheses of CollectivePackets, clause by clause. -/
theorem test_hyps_CollectivePackets_1 :
    (let k := cp 2 0 0 0 0 0; let s := st { cr [] {  } [] with fresh := 0 }; let c := s.chip; decide (kType k = 0x30 ∧ (c.receive k).2 = some (15, true) ∧ cpKind k ≠ 1 ∧ 1 ≤ cpKind k ∧ cpKind k ≤ 7)) = true ∧
    (let k := cp 1 1 0 0 0 1; let s := st { cr [] {  } [] with fresh := 0 }; let c := s.chip; let p := 15; decide (kType k = 0x30 ∧ (c.receive k).2 = some (15, true) ∧ cpKind k = 1 ∧ cpAtt k ≠ c.g .SEAL_STAT_ATT p)) = true ∧
    (let k := cp 1 0 1 0 0 1; let s := st { cr [] {  } [] with fresh := 0 }; let c := s.chip; let p := 15; decide (kType k = 0x30 ∧ (c.receive k).2 = some (15, true) ∧ cpStep k = c.step p % 2 ^ 16 ∧ cpAtt k = c.g .SEAL_STAT_ATT p ∧ cpKind k = 1 ∧ kLepoch k ≠ c.lepoch p)) = true ∧
    (let k := cp 1 0 0 0 0 1; let s := st { cr [] {  } [] with fresh := 0 }; let c := s.chip; let p := 15; decide (kType k = 0x30 ∧ (c.receive k).2 = some (15, true) ∧ cpStep k = c.step p % 2 ^ 16 ∧ cpAtt k = c.g .SEAL_STAT_ATT p ∧ cpKind k = 1 ∧ kLepoch k = c.lepoch p ∧ c.coll p (cpCid k) = none ∧ (c.car p).hold.length < 64)) = true ∧
    (let k := cp 1 0 0 0 0 1; let s := st { cr [] { hold := List.replicate 64 (0, (pk 0x40 0 0 0 0)) } [] with fresh := 0 }; let c := s.chip; let p := 15; decide (kType k = 0x30 ∧ (c.receive k).2 = some (15, true) ∧ cpStep k = c.step p % 2 ^ 16 ∧ cpAtt k = c.g .SEAL_STAT_ATT p ∧ cpKind k = 1 ∧ kLepoch k = c.lepoch p ∧ c.coll p (cpCid k) = none ∧ 64 ≤ (c.car p).hold.length)) = true ∧
    (let k := cp 3 0 0 0 0 0; let s := st { cr [] {  } [] with fresh := 0 }; let c := s.chip; decide (kType k = 0x30 ∧ (c.receive k).2 = some (15, true) ∧ cpKind k ≠ 2 ∧ 1 ≤ cpKind k ∧ cpKind k ≤ 7)) = true ∧
    (let k := cp 2 1 0 0 0 0; let s := st { cr [] {  } [] with fresh := 0 }; let c := s.chip; let p := 15; decide (kType k = 0x30 ∧ (c.receive k).2 = some (15, true) ∧ cpKind k = 2 ∧ cpAtt k ≠ c.g .SEAL_STAT_ATT p)) = true ∧
    (let k := cp 2 0 1 0 0 0; let s := st { cr [] {  } [] with fresh := 0 }; let c := s.chip; let p := 15; decide (kType k = 0x30 ∧ (c.receive k).2 = some (15, true) ∧ cpStep k = c.step p % 2 ^ 16 ∧ cpAtt k = c.g .SEAL_STAT_ATT p ∧ cpKind k = 2 ∧ kLepoch k ≠ c.lepoch p)) = true ∧
    (let k := { cp 2 0 0 0 0 0 with hdr := listSet (cp 2 0 0 0 0 0).hdr 7 0 }; let s := st { cr [] {  } [] with fresh := 0 }; let c := s.chip; let p := 15; decide (kType k = 0x30 ∧ (c.receive k).2 = some (15, false) ∧ cpStep k = c.step p % 2 ^ 16 ∧ cpAtt k = c.g .SEAL_STAT_ATT p ∧ cpKind k = 2 ∧ kLepoch k = c.lepoch p)) = true ∧
    (let k := cp 2 0 0 0 0 0; let s := st { cr [] { hold := List.replicate 63 (0, cp 2 0 0 0 0 0) } [] with fresh := 0 }; let c := s.chip; let p := 15; decide (kType k = 0x30 ∧ (c.receive k).2 = some (15, true) ∧ cpStep k = c.step p % 2 ^ 16 ∧ cpAtt k = c.g .SEAL_STAT_ATT p ∧ cpKind k = 2 ∧ kLepoch k = c.lepoch p ∧ c.coll p (cpCid k) = none ∧ (c.car p).hold.length < 64)) = true ∧
    (let k := cp 2 0 0 0 0 0; let s := st { cr [] { hold := List.replicate 64 (0, (pk 0x40 0 0 0 0)) } [] with fresh := 0 }; let c := s.chip; let p := 15; decide (kType k = 0x30 ∧ (c.receive k).2 = some (15, true) ∧ cpStep k = c.step p % 2 ^ 16 ∧ cpAtt k = c.g .SEAL_STAT_ATT p ∧ cpKind k = 2 ∧ kLepoch k = c.lepoch p ∧ c.coll p (cpCid k) = none ∧ 64 ≤ (c.car p).hold.length)) = true ∧
    (let k := cp 4 0 0 0 0 1; let s := st { cr [] {  } [] with fresh := 0 }; let c := s.chip; decide (kType k = 0x30 ∧ (c.receive k).2 = some (15, true) ∧ cpKind k ≠ 3 ∧ 1 ≤ cpKind k ∧ cpKind k ≤ 7)) = true := by
  decide +kernel

/-- Operands and states that meet the hypotheses of CollectivePackets, clause by clause. -/
theorem test_hyps_CollectivePackets_2 :
    (let k := cp 3 1 0 0 0 0; let s := st { cr [] {  } [] with fresh := 0 }; let c := s.chip; let p := 15; decide (kType k = 0x30 ∧ (c.receive k).2 = some (15, true) ∧ cpKind k = 3 ∧ cpAtt k ≠ c.g .SEAL_STAT_ATT p)) = true ∧
    (let k := cp 3 0 1 0 0 0; let s := st { cr [] {  } [] with fresh := 0 }; let c := s.chip; let p := 15; decide (kType k = 0x30 ∧ (c.receive k).2 = some (15, true) ∧ cpStep k = c.step p % 2 ^ 16 ∧ cpAtt k = c.g .SEAL_STAT_ATT p ∧ cpKind k = 3 ∧ kLepoch k ≠ c.lepoch p)) = true ∧
    (let k := { cp 3 0 0 0 0 0 with hdr := listSet (cp 3 0 0 0 0 0).hdr 7 0 }; let s := st { cr [] {  } [] with fresh := 0 }; let c := s.chip; let p := 15; decide (kType k = 0x30 ∧ (c.receive k).2 = some (15, false) ∧ cpStep k = c.step p % 2 ^ 16 ∧ cpAtt k = c.g .SEAL_STAT_ATT p ∧ cpKind k = 3 ∧ kLepoch k = c.lepoch p)) = true ∧
    (let k := cp 3 0 0 0 0 0; let s := st { cr [] {  } [] with fresh := 0 }; let c := s.chip; let p := 15; decide (kType k = 0x30 ∧ (c.receive k).2 = some (15, true) ∧ cpStep k = c.step p % 2 ^ 16 ∧ cpAtt k = c.g .SEAL_STAT_ATT p ∧ cpKind k = 3 ∧ kLepoch k = c.lepoch p ∧ c.coll p (cpCid k) = none ∧ (c.car p).hold.length < 64)) = true ∧
    (let k := cp 3 0 0 0 0 0; let s := st { cr [] { hold := List.replicate 64 (0, (pk 0x40 0 0 0 0)) } [] with fresh := 0 }; let c := s.chip; let p := 15; decide (kType k = 0x30 ∧ (c.receive k).2 = some (15, true) ∧ cpStep k = c.step p % 2 ^ 16 ∧ cpAtt k = c.g .SEAL_STAT_ATT p ∧ cpKind k = 3 ∧ kLepoch k = c.lepoch p ∧ c.coll p (cpCid k) = none ∧ 64 ≤ (c.car p).hold.length)) = true ∧
    (let k := cp 5 0 0 0 0 0; let s := st { cr [] {  } [] with fresh := 0 }; let c := s.chip; decide (kType k = 0x30 ∧ (c.receive k).2 = some (15, true) ∧ cpKind k ≠ 4 ∧ 1 ≤ cpKind k ∧ cpKind k ≤ 7)) = true ∧
    (let k := cp 4 1 0 0 0 1; let s := st { cr [] {  } [] with fresh := 0 }; let c := s.chip; let p := 15; decide (kType k = 0x30 ∧ (c.receive k).2 = some (15, true) ∧ cpKind k = 4 ∧ cpAtt k ≠ c.g .SEAL_STAT_ATT p)) = true ∧
    (let k := cp 4 0 1 0 0 1; let s := st { cr [] {  } [] with fresh := 0 }; let c := s.chip; let p := 15; decide (kType k = 0x30 ∧ (c.receive k).2 = some (15, true) ∧ cpStep k = c.step p % 2 ^ 16 ∧ cpAtt k = c.g .SEAL_STAT_ATT p ∧ cpKind k = 4 ∧ kLepoch k ≠ c.lepoch p)) = true ∧
    (let k := { cp 4 0 0 0 0 1 with hdr := listSet (cp 4 0 0 0 0 1).hdr 7 0 }; let s := st { cr [] {  } [] with fresh := 0 }; let c := s.chip; let p := 15; decide (kType k = 0x30 ∧ (c.receive k).2 = some (15, false) ∧ cpStep k = c.step p % 2 ^ 16 ∧ cpAtt k = c.g .SEAL_STAT_ATT p ∧ cpKind k = 4 ∧ kLepoch k = c.lepoch p)) = true ∧
    (let k := cp 4 0 0 0 0 1; let s := st { cr [] {  } [] with fresh := 0 }; let c := s.chip; let p := 15; decide (kType k = 0x30 ∧ (c.receive k).2 = some (15, true) ∧ cpStep k = c.step p % 2 ^ 16 ∧ cpAtt k = c.g .SEAL_STAT_ATT p ∧ cpKind k = 4 ∧ kLepoch k = c.lepoch p ∧ c.coll p (cpCid k) = none ∧ (c.car p).hold.length < 64)) = true ∧
    (let k := cp 4 0 0 0 0 1; let s := st { cr [] { hold := List.replicate 64 (0, (pk 0x40 0 0 0 0)) } [] with fresh := 0 }; let c := s.chip; let p := 15; decide (kType k = 0x30 ∧ (c.receive k).2 = some (15, true) ∧ cpStep k = c.step p % 2 ^ 16 ∧ cpAtt k = c.g .SEAL_STAT_ATT p ∧ cpKind k = 4 ∧ kLepoch k = c.lepoch p ∧ c.coll p (cpCid k) = none ∧ 64 ≤ (c.car p).hold.length)) = true ∧
    (let k := cp 6 0 0 0 0 0; let s := st { cr [] {  } [] with fresh := 0 }; let c := s.chip; decide (kType k = 0x30 ∧ (c.receive k).2 = some (15, true) ∧ cpKind k ≠ 5 ∧ 1 ≤ cpKind k ∧ cpKind k ≤ 7)) = true := by
  decide +kernel

/-- Operands and states that meet the hypotheses of CollectivePackets, clause by clause. -/
theorem test_hyps_CollectivePackets_3 :
    (let k := cp 5 1 0 0 0 0; let s := st { cr [] {  } [] with fresh := 0 }; let c := s.chip; let p := 15; decide (kType k = 0x30 ∧ (c.receive k).2 = some (15, true) ∧ cpKind k = 5 ∧ cpAtt k ≠ c.g .SEAL_STAT_ATT p)) = true ∧
    (let k := cp 5 0 1 0 0 0; let s := st { cr [] {  } [] with fresh := 0 }; let c := s.chip; let p := 15; decide (kType k = 0x30 ∧ (c.receive k).2 = some (15, true) ∧ cpStep k = c.step p % 2 ^ 16 ∧ cpAtt k = c.g .SEAL_STAT_ATT p ∧ cpKind k = 5 ∧ kLepoch k ≠ c.lepoch p)) = true ∧
    (let k := { cp 5 0 0 0 0 0 with hdr := listSet (cp 5 0 0 0 0 0).hdr 7 0 }; let s := st { cr [] {  } [] with fresh := 0 }; let c := s.chip; let p := 15; decide (kType k = 0x30 ∧ (c.receive k).2 = some (15, false) ∧ cpStep k = c.step p % 2 ^ 16 ∧ cpAtt k = c.g .SEAL_STAT_ATT p ∧ cpKind k = 5 ∧ kLepoch k = c.lepoch p)) = true ∧
    (let k := cp 7 0 0 0 0 0; let s := st { cr [] {  } [] with fresh := 0 }; let c := s.chip; decide (kType k = 0x30 ∧ (c.receive k).2 = some (15, true) ∧ cpKind k ≠ 6 ∧ 1 ≤ cpKind k ∧ cpKind k ≤ 7)) = true ∧
    (let k := cp 6 1 0 0 0 0; let s := st { cr [] {  } [] with fresh := 0 }; let c := s.chip; let p := 15; decide (kType k = 0x30 ∧ (c.receive k).2 = some (15, true) ∧ cpKind k = 6 ∧ cpAtt k ≠ c.g .SEAL_STAT_ATT p)) = true ∧
    (let k := cp 6 0 1 0 0 0; let s := st { cr [] {  } [] with fresh := 0 }; let c := s.chip; let p := 15; decide (kType k = 0x30 ∧ (c.receive k).2 = some (15, true) ∧ cpStep k = c.step p % 2 ^ 16 ∧ cpAtt k = c.g .SEAL_STAT_ATT p ∧ cpKind k = 6 ∧ kLepoch k ≠ c.lepoch p)) = true ∧
    (let k := { cp 6 0 0 0 0 0 with hdr := listSet (cp 6 0 0 0 0 0).hdr 7 0 }; let s := st { cr [] {  } [] with fresh := 0 }; let c := s.chip; let p := 15; decide (kType k = 0x30 ∧ (c.receive k).2 = some (15, false) ∧ cpStep k = c.step p % 2 ^ 16 ∧ cpAtt k = c.g .SEAL_STAT_ATT p ∧ cpKind k = 6 ∧ kLepoch k = c.lepoch p)) = true ∧
    (let k := cp 6 0 0 0 0 0; let s := st { cr [] {  } [] with fresh := 0 }; let c := s.chip; let p := 15; decide (kType k = 0x30 ∧ (c.receive k).2 = some (15, true) ∧ cpStep k = c.step p % 2 ^ 16 ∧ cpAtt k = c.g .SEAL_STAT_ATT p ∧ cpKind k = 6 ∧ kLepoch k = c.lepoch p ∧ c.coll p (cpCid k) = none ∧ (c.car p).hold.length < 64)) = true ∧
    (let k := cp 6 0 0 0 0 0; let s := st { cr [] { hold := List.replicate 64 (0, (pk 0x40 0 0 0 0)) } [] with fresh := 0 }; let c := s.chip; let p := 15; decide (kType k = 0x30 ∧ (c.receive k).2 = some (15, true) ∧ cpStep k = c.step p % 2 ^ 16 ∧ cpAtt k = c.g .SEAL_STAT_ATT p ∧ cpKind k = 6 ∧ kLepoch k = c.lepoch p ∧ c.coll p (cpCid k) = none ∧ 64 ≤ (c.car p).hold.length)) = true ∧
    (let k := cp 1 0 0 0 0 1; let s := st { cr [] {  } [] with fresh := 0 }; let c := s.chip; decide (kType k = 0x30 ∧ (c.receive k).2 = some (15, true) ∧ cpKind k ≠ 7 ∧ 1 ≤ cpKind k ∧ cpKind k ≤ 7)) = true ∧
    (let k := cp 7 1 0 0 0 0; let s := st { cr [] {  } [] with fresh := 0 }; let c := s.chip; let p := 15; decide (kType k = 0x30 ∧ (c.receive k).2 = some (15, true) ∧ cpKind k = 7 ∧ cpAtt k ≠ c.g .SEAL_STAT_ATT p)) = true ∧
    (let k := cp 7 0 1 0 0 0; let s := st { cr [] {  } [] with fresh := 0 }; let c := s.chip; let p := 15; decide (kType k = 0x30 ∧ (c.receive k).2 = some (15, true) ∧ cpStep k = c.step p % 2 ^ 16 ∧ cpAtt k = c.g .SEAL_STAT_ATT p ∧ cpKind k = 7 ∧ kLepoch k ≠ c.lepoch p)) = true := by
  decide +kernel

/-- Operands and states that meet the hypotheses of CollectivePackets, clause by clause. -/
theorem test_hyps_CollectivePackets_4 :
    (let k := { cp 7 0 0 0 0 0 with hdr := listSet (cp 7 0 0 0 0 0).hdr 7 0 }; let s := st { cr [] {  } [] with fresh := 0 }; let c := s.chip; let p := 15; decide (kType k = 0x30 ∧ (c.receive k).2 = some (15, false) ∧ cpStep k = c.step p % 2 ^ 16 ∧ cpAtt k = c.g .SEAL_STAT_ATT p ∧ cpKind k = 7 ∧ kLepoch k = c.lepoch p)) = true ∧
    (let k := cp 7 0 0 0 0 0; let s := st { cr [] {  } [] with fresh := 0 }; let c := s.chip; let p := 15; decide (kType k = 0x30 ∧ (c.receive k).2 = some (15, true) ∧ cpStep k = c.step p % 2 ^ 16 ∧ cpAtt k = c.g .SEAL_STAT_ATT p ∧ cpKind k = 7 ∧ kLepoch k = c.lepoch p ∧ c.coll p (cpCid k) = none ∧ (c.car p).hold.length < 64)) = true ∧
    (let k := cp 7 0 0 0 0 0; let s := st { cr [] { hold := List.replicate 64 (0, (pk 0x40 0 0 0 0)) } [] with fresh := 0 }; let c := s.chip; let p := 15; decide (kType k = 0x30 ∧ (c.receive k).2 = some (15, true) ∧ cpStep k = c.step p % 2 ^ 16 ∧ cpAtt k = c.g .SEAL_STAT_ATT p ∧ cpKind k = 7 ∧ kLepoch k = c.lepoch p ∧ c.coll p (cpCid k) = none ∧ 64 ≤ (c.car p).hold.length)) = true ∧
    (let x : CollS := cs 6 1; let k := cp 2 0 0 0 (2 ^ 32) 0; let s := st { cr [] { colls := [x] } [] with fresh := 0 }; let c := s.chip; let p := 15; decide (kType k = 0x30 ∧ (c.receive k).2 = some (15, true) ∧ cpStep k = c.step p % 2 ^ 16 ∧ cpAtt k = c.g .SEAL_STAT_ATT p ∧ kLepoch k = c.lepoch p ∧ c.coll p (cpCid k) = some x ∧ cpKind k = 2)) = true ∧
    (let x : CollS := cs 0 64; let k := cp 3 0 0 0 (5 + 6 * 2 ^ 32) 0; let s := st { cr [] { colls := [x] } [] with fresh := 0 }; let c := s.chip; let p := 15; decide (kType k = 0x30 ∧ (c.receive k).2 = some (15, true) ∧ cpStep k = c.step p % 2 ^ 16 ∧ cpAtt k = c.g .SEAL_STAT_ATT p ∧ kLepoch k = c.lepoch p ∧ c.coll p (cpCid k) = some x ∧ cpKind k = 3 ∧ x.reduces = true ∧ x.alg ≠ 1)) = true ∧
    (let x : CollS := cs 3 1; let k := cp 4 0 0 0 0 1; let s := st { cr [] { colls := [x] } [] with fresh := 0 }; let c := s.chip; let p := 15; decide (kType k = 0x30 ∧ (c.receive k).2 = some (15, true) ∧ cpStep k = c.step p % 2 ^ 16 ∧ cpAtt k = c.g .SEAL_STAT_ATT p ∧ kLepoch k = c.lepoch p ∧ c.coll p (cpCid k) = some x ∧ cpKind k = 4)) = true ∧
    (let x : CollS := cs 6 1; let k := cp 6 0 0 0 0 0; let s := st { cr [] { colls := [x] } [] with fresh := 0 }; let c := s.chip; let p := 15; decide (kType k = 0x30 ∧ (c.receive k).2 = some (15, true) ∧ cpStep k = c.step p % 2 ^ 16 ∧ cpAtt k = c.g .SEAL_STAT_ATT p ∧ kLepoch k = c.lepoch p ∧ c.coll p (cpCid k) = some x ∧ cpKind k = 6 ∧ x.op ≠ 1 ∧ cpValue k % 32 ≠ 28 ∧ cpValue k % 32 ≠ 30)) = true ∧
    (let x : CollS := cs 6 1; let k := cp 6 0 0 0 28 0; let s := st { cr [] { colls := [x] } [] with fresh := 0 }; let c := s.chip; let p := 15; decide (kType k = 0x30 ∧ (c.receive k).2 = some (15, true) ∧ cpStep k = c.step p % 2 ^ 16 ∧ cpAtt k = c.g .SEAL_STAT_ATT p ∧ kLepoch k = c.lepoch p ∧ c.coll p (cpCid k) = some x ∧ cpKind k = 6 ∧ cpValue k % 32 = 28)) = true ∧
    (let x : CollS := cs 6 1; let k := cp 6 0 0 0 30 0; let s := st { cr [] { colls := [x] } [] with fresh := 0 }; let c := s.chip; let p := 15; decide (kType k = 0x30 ∧ (c.receive k).2 = some (15, true) ∧ cpStep k = c.step p % 2 ^ 16 ∧ cpAtt k = c.g .SEAL_STAT_ATT p ∧ kLepoch k = c.lepoch p ∧ c.coll p (cpCid k) = some x ∧ cpKind k = 6 ∧ cpValue k % 32 = 30)) = true ∧
    (let x : CollS := cs 0 64; let k := cp 7 0 0 (2 ^ 32) 0 0; let s := st { cr [] { colls := [x] } [] with fresh := 0 }; let c := s.chip; let p := 15; decide (kType k = 0x30 ∧ (c.receive k).2 = some (15, true) ∧ cpStep k = c.step p % 2 ^ 16 ∧ cpAtt k = c.g .SEAL_STAT_ATT p ∧ kLepoch k = c.lepoch p ∧ c.coll p (cpCid k) = some x ∧ cpKind k = 7 ∧ x.reduces = true)) = true ∧
    (let x : CollS := cs 7 1; let k := cp 1 0 0 0 0 1; let s := st { cr [] { colls := [x] } [] with fresh := 0 }; let c := s.chip; let p := 15; decide (kType k = 0x30 ∧ (c.receive k).2 = some (15, true) ∧ cpStep k = c.step p % 2 ^ 16 ∧ cpAtt k = c.g .SEAL_STAT_ATT p ∧ kLepoch k = c.lepoch p ∧ c.coll p (cpCid k) = some x ∧ cpKind k = 1 ∧ (cpMember k, cpShard k, cpSeg k) ∉ x.gout)) = true ∧
    (let x : CollS := { cs 7 1 with words := listSet (cw 7 1) 5 (Word.ofNat (2 * 2 ^ 60)), gout := [(1, 0, 0)] }; let k := cp 1 0 0 0 0 1; let s := st { cr [] { colls := [x] } [] with fresh := 0 }; let c := s.chip; let p := 15; let key := (c.tierKey p (clDst x.words)).getD 0; decide (kType k = 0x30 ∧ (c.receive k).2 = some (15, true) ∧ cpStep k = c.step p % 2 ^ 16 ∧ cpAtt k = c.g .SEAL_STAT_ATT p ∧ kLepoch k = c.lepoch p ∧ c.coll p (cpCid k) = some x ∧ cpKind k = 1 ∧ x.op = 7 ∧ x.first = none ∧ clCount x.words = 1 ∧ cpSeg k = 0 ∧ (cpMember k, cpShard k, 0) ∈ x.gout ∧ k.words.length = 8 ∧ k.poison.length = 1 ∧ clDst x.words % 64 = 0 ∧ bits (clDst x.words) 63 60 = 2 ∧ c.tierKey p (clDst x.words) = some key ∧ c.fenceHit p (clDst x.words) 64 = none)) = true := by
  decide +kernel

/-- Operands and states that meet the hypotheses of CollectivePackets, clause by clause. -/
theorem test_hyps_CollectivePackets_5 :
    (let k := cp 5 0 0 0 77 0; let s := st { cr [] { colls := [cs 4 0] } [] with fresh := 0, maps := [(15, { imgs := [(0, ⟨0, 0, 1, [256, 0], [], [], [], []⟩)], cur := some 0 })] }; let c := s.chip; let p := 15; decide (kType k = 0x30 ∧ (c.receive k).2 = some (15, true) ∧ cpStep k = c.step p % 2 ^ 16 ∧ cpAtt k = c.g .SEAL_STAT_ATT p ∧ kLepoch k = c.lepoch p ∧ cpKind k = 5 ∧ bits (cpSeg k) 23 0 = 0 ∧ c.isCoord p = false)) = true ∧
    (let k0 := pkt 0x30 1 256 0 9 (5 + 4 * 2 ^ 8 + 2 ^ 32) 9 77; let k := k0; let s := st { cr [] {  } [] with fresh := 0 }; let c := s.chip; let p := 15; decide (kType k = 0x30 ∧ (c.receive k).2 = some (15, true) ∧ cpStep k = c.step p % 2 ^ 16 ∧ cpAtt k = c.g .SEAL_STAT_ATT p ∧ kLepoch k = c.lepoch p ∧ cpKind k = 5 ∧ bits (cpSeg k) 23 0 = 9 ∧ cpMember k = 0 ∧ (sget [] c.pnorms p).length < 4096)) = true := by
  decide +kernel

/-- Operands and states that meet the hypotheses of CollectivesRun, clause by clause. -/
theorem test_hyps_CollectivesRun_1 :
    (let s := st { cr [] { hold := [(4000000, cp 2 0 0 0 0 0), (4000001, cp 2 0 0 0 0 0)] } [] with fresh := 0 }; let c := s.chip; let p := 15; let cid := 4; let a := c.car p; decide ((a.hold.filter (fun h => cpCid h.2 == cid && decide (h.1 + c.carTmo p ≤ c.up))).length = 1)) = true ∧
    (let s := st { cr [] {  } [] with fresh := 0 }; let c := s.chip; let p := 15; let cid := 4; decide (c.coll p cid = none)) = true ∧
    (let s := st { cr [] {  } [] with fresh := 0 }; let c := s.chip; let p := 15; let cid := 4; decide (c.coll p cid = none)) = true ∧
    (let s := st { cr [] {  } [] with fresh := 0 }; let c := s.chip; let p := 15; let cid := 4; decide (c.coll p cid = none)) = true ∧
    (let s := st { cr [] {  } [] with fresh := 0 }; let c := s.chip; let p := 15; let cid := 4; decide (c.coll p cid = none)) = true ∧
    (let x : CollS := cs 7 1; let s := st { cr [] { colls := [x], hold := List.replicate 64 (0, (pk 0x40 0 0 0 0)) } [] with fresh := 0 }; let c := s.chip; let p := 15; let cid := 4; let a := c.car p; decide (c.coll p cid = some x ∧ 64 ≤ a.hold.length)) = true ∧
    (let x : CollS := { cs 7 1 with broken := true }; let s := st { cr [] { colls := [x] } [] with fresh := 0 }; let c := s.chip; let p := 15; let cid := 4; decide (c.coll p cid = some x ∧ x.broken = true)) = true ∧
    (let x : CollS := cs 7 1; let s := st { cr [] { colls := [x], hold := List.replicate 63 (0, (pk 0x40 0 0 0 0)) } [] with fresh := 0 }; let c := s.chip; let p := 15; let cid := 4; let a := c.car p; decide (c.coll p cid = some x ∧ a.hold.length < 64 ∧ x.broken = false ∧ x.window = none)) = true ∧
    (let x : CollS := cs 0 64; let s := st { cr [] { colls := [x] } [] with fresh := 0 }; let c := s.chip; let p := 15; let cid := 4; decide (c.coll p cid = some x ∧ x.first = none)) = true ∧
    (let x : CollS := { cs 0 64 with first := some (0, []) }; let s := st { cr [] { colls := [x] } [] with fresh := 0 }; let c := s.chip; let p := 15; let cid := 4; decide (c.coll p cid = some x ∧ (List.range x.g).all (fun m => (List.range (x.winSegs (0, true))).all (x.here (0, true) m)) = false)) = true ∧
    (let x : CollS := { cs 0 64 with first := some (0, List.replicate 32 (0, false)), got := [{ frm := 1, shard := 0, seg := 0, again := true, codes := List.replicate 32 (0, false) }] }; let s := st { cr [] { colls := [x] } [] with fresh := 0 }; let c := s.chip; let p := 15; let cid := 4; decide (c.coll p cid = some x ∧ (List.range x.g).all (fun m => (List.range (x.winSegs (0, true))).all (x.here (0, true) m)) = true ∧ (sumAll x.cfmt ((x.order (c.ownHeader p x)).map (c.contribution p x (0, true)))).any Prod.snd = false)) = true ∧
    (let x : CollS := { cs 0 64 with first := some (0, List.replicate 32 (0, false)), got := [{ frm := 1, shard := 0, seg := 0, again := true, codes := List.replicate 32 (0, true) }] }; let s := st { cr [] { colls := [x] } [] with fresh := 0 }; let c := s.chip; let p := 15; let cid := 4; decide (c.coll p cid = some x ∧ (List.range x.g).all (fun m => (List.range (x.winSegs (0, true))).all (x.here (0, true) m)) = true ∧ (sumAll x.cfmt ((x.order (c.ownHeader p x)).map (c.contribution p x (0, true)))).any Prod.snd = true)) = true := by
  decide +kernel

/-- Operands and states that meet the hypotheses of CollectivesRun, clause by clause. -/
theorem test_hyps_CollectivesRun_2 :
    (let x : CollS := cs 6 1; let s := st { cr [] { colls := [x] } [] with fresh := 0 }; let c := s.chip; let p := 15; let cid := 4; decide (c.coll p cid = some x ∧ c.collOver p x = false)) = true ∧
    (let x : CollS := { cs 6 1 with dones := [0] }; let s := st { cr [] { colls := [x] } [] with fresh := 0 }; let c := s.chip; let p := 15; let cid := 4; decide (c.coll p cid = some x ∧ c.collOver p x = true)) = true ∧
    (let x : CollS := { cs 6 1 with dones := [0] }; let s := st { cr [] { colls := [x] } [] with fresh := 0 }; let c := s.chip; let p := 15; let cid := 4; decide (c.coll p cid = some x ∧ c.collOver p x = true ∧ (∃ cl ∈ c.enrolled p, (c.seq cl).agree.isBound = false))) = true ∧
    (let x : CollS := { cs 6 1 with seen := 4000001 }; let s := st { cr [] { colls := [x] } [] with fresh := 0 }; let c := s.chip; let p := 15; let cid := 4; decide (c.coll p cid = some x ∧ c.collOver p x = false ∧ c.up < x.seen + c.carTmo p)) = true ∧
    (let x : CollS := cs 4 0; let s := st { cr [] { colls := [x] } [] with fresh := 0 }; let c := s.chip; let p := 15; let cid := 4; decide (c.coll p cid = some x ∧ c.collOver p x = false ∧ x.op = 4 ∧ x.started = false)) = true ∧
    (let x : CollS := { cs 6 1 with seen := 4000000 }; let s := st { cr [] { colls := [x] } [] with fresh := 0 }; let c := s.chip; let p := 15; let cid := 4; decide (c.coll p cid = some x ∧ c.collOver p x = false ∧ x.seen + c.carTmo p ≤ c.up ∧ x.op ≠ 4 ∧ (∃ cl ∈ c.enrolled p, (c.seq cl).agree.isBound = false))) = true := by
  decide +kernel

/-- Partition 15 with START_SLOT, ring window and near tier set, its mapping slots, and more fields set; the image of a
mapping of one rank, one group and one tensor 9 (class C or not) stands at near-tier address 4096. -/
def mp (w : List Word) (m : MapS) (l : List (Fld × Nat × Nat × Nat)) : Chip :=
  let c := { sq w {} ([(.PART_NTX_VALID, 15, 0, 1), (.HUB_PSEL_PART, 2, 0, 15), (.PART_STAT_STATE, 15, 0, 1), (.CAR_MAPLOAD_SLOT, 15, 0, 15),
    (.PART_TBL_VALID, 15, 0, 1), (.PART_TBL_REGIONS, 15, 0, 2 ^ 15)] ++ l) with maps := [(15, m)] }
  c
def im (cls : Nat) : List Word := [Word.ofNat (1 + 2 ^ 8 + 2 ^ 24), Word.ofNat (2 ^ 13), 19, 8, 9, 11, 19, 19, 0, Word.ofNat (1 + 2 ^ 16), 0,
  Word.ofNat (9 + cls * 2 ^ 31), Word.ofNat (1 + 2 ^ 32), 1, 0, 0, 0, 0, 0]
/-- The same with the image in memory. -/
def mi (cls : Nat) : Chip :=
  let c := mp [] { loading := some (15, 4096) } []
  { c with mem := ((List.range 152).map (fun i => ((c.nearOf 15 (4096 + i)).getD 0, (bytesOf (im cls)).getD i 0))).filter (fun x => x.2 != 0) }
/-- A mapping image without group or tensor. -/
def mg : MapImg := ⟨0, 0, 0, [0], [], [], [], []⟩

/-- One step of mapLoadDone, its results from the rules that its meaning cites. -/
theorem test_step_mapLoadDone :
    (let s := st (mi 1); let p := 15; match execMapLoadDone p s with | .next t => decide (t.chip.g .CAR_MAPLOAD_STATUS p = 6 ∧ t.chip.g .CAR_MAPLOAD_GO p = 0 ∧ t.chip.g .CAR_MAPLOAD_TID p = 9 ∧ t.chip.g .CAR_STICKY_MAP_FAIL p = 1 ∧ t.chip.g .PART_STAT_REFUSED p = 1 ∧ t.chip.g .PART_VIOL_REF_TID p = 9 ∧ t.chip.g .PART_VIOL_REF_CAUSE p = 1) | _ => false) = true := by
  decide +kernel

/-- One step of mapClear, its results from the rules that its meaning cites. -/
theorem test_step_mapClear :
    (let s := st { mp [] { imgs := [(14, mg), (15, mg)], cur := some 14 } [(.CAR_MAPLOAD_CLEAR, 15, 0, 1)] with fresh := 0 }; let p := 15; match execMapClear .rm p s with | .next t => decide (t.chip.g .CAR_MAPLOAD_STATUS p = 0 ∧ t.chip.g .CAR_MAPLOAD_GO p = 0 ∧ (t.chip.mapS p).imgs = [(14, mg)] ∧ (t.chip.mapS p).loading.isSome = false) | _ => false) = true := by
  decide +kernel

/-- One step of carEnable, its results from the rules that its meaning cites. -/
theorem test_step_carEnable :
    (let s := st { mp [] { imgs := [(15, mg)] } [] with fresh := 0 }; let p := 15; match execCarEnable .rm p (Word.ofNat (15 * 2 ^ 4 + 5 * 2 ^ 16 + 0)) s with | .next t => decide (t.chip.g .CAR_CTL_EN p = 0 ∧ t.chip.g .CAR_CTL_START_SLOT p = 15 ∧ t.chip.g .CAR_CTL_START_LEPOCH p = 5 ∧ t.chip.g .CAR_STICKY_MAP_FAIL p = 0) | _ => false) = true := by
  decide +kernel

/-- One step of claimClearDone, its results from the rules that its meaning cites. -/
theorem test_step_claimClearDone :
    (let s := st { mp [] {  } [(.PART_STAT_STATE, 15, 0, 2), (.PART_CTL_CLAIM, 15, 0, 1)] with fresh := 0, parts := [(15, { prior := 6, clearing := [15] })] }; let p := 15; match execClaimClearDone p s with | .next t => decide (t.chip.g .PART_STAT_CLEARED p = 1 ∧ t.chip.g .PART_CTL_CLAIM p = 0 ∧ t.chip.g .PART_STAT_STATE p = 6 ∧ (t.chip.partS p).clearing = []) | _ => false) = true := by
  decide +kernel

/-- Operands and states that meet the hypotheses of MappingSlots, clause by clause. -/
theorem test_hyps_MappingSlots_1 :
    (let s := st { mp [] { loading := some (1, 0) } [] with fresh := 0 }; let c := s.chip; let p := 15; decide (c.mapReady .rm p = false)) = true ∧
    (let s := st { mp [] {  } [(.CAR_MAPLOAD_CLEAR, 15, 0, 1)] with fresh := 0 }; let c := s.chip; let p := 15; decide (c.g .CAR_MAPLOAD_CLEAR p = 1)) = true ∧
    (let s := st { mp [] { loading := some (1, 0) } [(.CAR_MAPLOAD_CLEAR, 15, 0, 1)] with fresh := 0 }; let c := s.chip; let p := 15; decide (c.mapReady .rm p = false)) = true ∧
    (let s := st { mp [] {  } [] with fresh := 0 }; let c := s.chip; let p := 15; decide (c.g .CAR_MAPLOAD_CLEAR p = 0)) = true ∧
    (let s := st { mp [] { imgs := [(15, mg)], cur := some 15 } [] with fresh := 0 }; let c := s.chip; let p := 15; let m := c.mapS p; decide (c.mapReady .rm p = true ∧ m.cur = some (c.g .CAR_MAPLOAD_SLOT p) ∧ c.g .CAR_MAPLOAD_CLEAR p = 0)) = true ∧
    (let s := st { mp [] { imgs := [(14, mg), (15, mg)], cur := some 14 } [] with fresh := 0 }; let c := s.chip; let p := 15; let m := c.mapS p; decide (c.mapReady .rm p = true ∧ m.cur ≠ some (c.g .CAR_MAPLOAD_SLOT p) ∧ c.g .CAR_MAPLOAD_CLEAR p = 0)) = true ∧
    (let s := st { mp [] { imgs := [(15, mg)], cur := some 15 } [(.CAR_MAPLOAD_CLEAR, 15, 0, 1)] with fresh := 0 }; let c := s.chip; let p := 15; let m := c.mapS p; decide (c.mapReady .rm p = true ∧ m.cur = some (c.g .CAR_MAPLOAD_SLOT p) ∧ c.g .CAR_MAPLOAD_CLEAR p = 1)) = true ∧
    (let s := st { mp [] { imgs := [(14, mg), (15, mg)], cur := some 14 } [(.CAR_MAPLOAD_CLEAR, 15, 0, 1)] with fresh := 0 }; let c := s.chip; let p := 15; let m := c.mapS p; decide (c.mapReady .rm p = true ∧ m.cur ≠ some (c.g .CAR_MAPLOAD_SLOT p) ∧ c.g .CAR_MAPLOAD_CLEAR p = 1)) = true ∧
    (let s := st { mp [] {  } [] with fresh := 0 }; let c := s.chip; let p := 15; let m := c.mapS p; decide (m.loading = none)) = true ∧
    (let s := st (mi 0); let c := s.chip; let p := 15; let m := c.mapS p; decide (m.loading = some (15, 4096) ∧ ((match c.checkImage p 4096 with | .ok _ => true | .error _ => false) = true))) = true ∧
    (let s := st (mi 1); let c := s.chip; let p := 15; let m := c.mapS p; decide (m.loading = some (15, 4096) ∧ ((match c.checkImage p 4096 with | .ok _ => false | .error e => e == (6, 0, 9)) = true))) = true ∧
    (let s := st { mp [] { loading := some (15, 4096) } [] with fresh := 0 }; let c := s.chip; let p := 15; let m := c.mapS p; decide (m.loading = some (15, 4096) ∧ ((match c.checkImage p 4096 with | .ok _ => false | .error e => e == (1, 0, 0)) = true))) = true := by
  decide +kernel

/-- Operands and states that meet the hypotheses of MappingSlots, clause by clause. -/
theorem test_hyps_MappingSlots_2 :
    (let s := st { mp [] {  } [] with fresh := 0 }; let c := s.chip; decide (c.reaches .rm .CAR_CTL 14 = false)) = true ∧
    (let s := st { mp [] { imgs := [(15, mg)] } [(.PART_STAT_STATE, 15, 0, 3)] with fresh := 0 }; let c := s.chip; let p := 15; decide (c.reaches .rm .CAR_CTL p = true ∧ c.isLocked .CAR_CTL p = true)) = true ∧
    (let s := st { mp [] { imgs := [(15, mg)] } [] with fresh := 0 }; let c := s.chip; let p := 15; let m := c.mapS p; decide (c.reaches .rm .CAR_CTL p = true ∧ c.isLocked .CAR_CTL p = false ∧ (m.img 15).isSome = true)) = true ∧
    (let s := st { mp [] { imgs := [(15, mg)] } [] with fresh := 0 }; let c := s.chip; let p := 15; let m := c.mapS p; decide (c.reaches .rm .CAR_CTL p = true ∧ c.isLocked .CAR_CTL p = false ∧ (m.img 15).isSome = true)) = true ∧
    (let s := st { mp [] { imgs := [(14, mg)] } [] with fresh := 0 }; let c := s.chip; let p := 15; let m := c.mapS p; decide (c.reaches .rm .CAR_CTL p = true ∧ c.isLocked .CAR_CTL p = false ∧ (m.img 15).isSome = false)) = true ∧
    (let s := st { mp [] {  } [] with fresh := 0 }; let c := s.chip; decide (c.reaches .rm .CAR_SEGS 14 = false)) = true ∧
    (let s := st { mp [] {  } [(.PART_STAT_STATE, 15, 0, 3)] with fresh := 0 }; let c := s.chip; let p := 15; decide (c.reaches .rm .CAR_SEGS p = true ∧ c.isLocked .CAR_SEGS p = true)) = true ∧
    (let s := st { mp [] {  } [(.CAR_SEGS_SEGS, 0, 0, 0), (.CAR_SEGS_SEGS, 1, 0, 0), (.CAR_SEGS_SEGS, 2, 0, 0), (.CAR_SEGS_SEGS, 3, 0, 0), (.CAR_SEGS_SEGS, 4, 0, 0), (.CAR_SEGS_SEGS, 5, 0, 0), (.CAR_SEGS_SEGS, 6, 0, 0), (.CAR_SEGS_SEGS, 7, 0, 0), (.CAR_SEGS_SEGS, 8, 0, 0), (.CAR_SEGS_SEGS, 9, 0, 0), (.CAR_SEGS_SEGS, 10, 0, 0), (.CAR_SEGS_SEGS, 11, 0, 0), (.CAR_SEGS_SEGS, 12, 0, 0), (.CAR_SEGS_SEGS, 13, 0, 0), (.CAR_SEGS_SEGS, 14, 0, 48)] with fresh := 0 }; let c := s.chip; let p := 15; decide (c.reaches .rm .CAR_SEGS p = true ∧ c.isLocked .CAR_SEGS p = false ∧ (((List.range 16).filter (· != p)).map (fun q => c.g .CAR_SEGS_SEGS q)).sum + 2000 ≤ 2048)) = true ∧
    (let s := st { mp [] {  } [(.CAR_SEGS_SEGS, 0, 0, 0), (.CAR_SEGS_SEGS, 1, 0, 0), (.CAR_SEGS_SEGS, 2, 0, 0), (.CAR_SEGS_SEGS, 3, 0, 0), (.CAR_SEGS_SEGS, 4, 0, 0), (.CAR_SEGS_SEGS, 5, 0, 0), (.CAR_SEGS_SEGS, 6, 0, 0), (.CAR_SEGS_SEGS, 7, 0, 0), (.CAR_SEGS_SEGS, 8, 0, 0), (.CAR_SEGS_SEGS, 9, 0, 0), (.CAR_SEGS_SEGS, 10, 0, 0), (.CAR_SEGS_SEGS, 11, 0, 0), (.CAR_SEGS_SEGS, 12, 0, 0), (.CAR_SEGS_SEGS, 13, 0, 0), (.CAR_SEGS_SEGS, 14, 0, 49)] with fresh := 0 }; let c := s.chip; let p := 15; decide (c.reaches .rm .CAR_SEGS p = true ∧ c.isLocked .CAR_SEGS p = false ∧ 2048 < (((List.range 16).filter (· != p)).map (fun q => c.g .CAR_SEGS_SEGS q)).sum + 2000)) = true := by
  decide +kernel

/-- Operands and states that meet the hypotheses of PartitionsCommanded, clause by clause. -/
theorem test_hyps_PartitionsCommanded_1 :
    (let s := st { mp [] {  } [] with fresh := 0 }; let c := s.chip; let p := 15; decide (c.partCmd (.vf 0 16) p = false)) = true ∧
    (let s := st { mp [] {  } [] with fresh := 0 }; let c := s.chip; let p := 15; decide (c.partCmd (.vf 0 16) p = false)) = true ∧
    (let s := st { mp [] {  } [] with fresh := 0 }; let c := s.chip; let p := 15; decide (c.partCmd (.vf 0 16) p = false)) = true ∧
    (let s := st { mp [] {  } [(.PART_TBL_VALID, 15, 0, 0)] with fresh := 0 }; let c := s.chip; let p := 15; decide (c.partCmd .rm p = true ∧ c.startCause p = 1)) = true ∧
    (let s := st { mp [] {  } [(.PART_STAT_STATE, 15, 0, 3)] with fresh := 0 }; let c := s.chip; let p := 15; decide (c.partCmd .rm p = true ∧ c.startCause p = 2)) = true ∧
    (let s := st { mp [] {  } [(.PART_OWN_OWNED, 0, 15, 0)] with fresh := 0 }; let c := s.chip; let p := 15; decide (c.partCmd .rm p = true ∧ c.startCause p = 3)) = true ∧
    (let s := st { mp [] {} [(.PART_STAT_STATE, 15, 0, 5)] with seqs := [(127, { halt := 1 })] }; let c := s.chip; let p := 15; decide (c.partCmd .rm p = true ∧ c.startCause p = 0 ∧ c.g .PART_STAT_STATE p = 5 ∧ (∃ cl ∈ c.enrolled p, (c.seq cl).halt = 1))) = true ∧
    (let s := st { mp [] {  } [(.PART_STAT_STATE, 15, 0, 6), (.CAR_CTL_START_SLOT, 15, 0, 14), (.CAR_CTL_START_LEPOCH, 15, 0, 5)] with fresh := 0 }; let c := s.chip; let p := 15; let st := c.g .PART_STAT_STATE p; decide (c.partCmd .rm p = true ∧ c.startCause p = 0 ∧ st = 6)) = true ∧
    (let s := st { mp [] {  } [] with fresh := 0 }; let c := s.chip; let p := 15; decide (c.partCmd .rm p = true ∧ c.startCause p = 0)) = true ∧
    (let s := st { mp [] {  } [(.PART_STAT_STATE, 15, 0, 3)] with fresh := 0 }; let c := s.chip; let p := 15; let st := c.g .PART_STAT_STATE p; decide (c.partCmd .rm p = true ∧ st = 3)) = true ∧
    (let s := st { mp [] {  } [(.PART_STAT_STATE, 15, 0, 4)] with fresh := 0 }; let c := s.chip; let p := 15; let st := c.g .PART_STAT_STATE p; decide (c.partCmd .rm p = true ∧ st = 4)) = true ∧
    (let s := st { mp [] {  } [(.PART_STAT_STATE, 15, 0, 2)] with fresh := 0 }; let c := s.chip; let p := 15; let st := c.g .PART_STAT_STATE p; decide (c.partCmd .rm p = true ∧ st ≠ 3 ∧ st ≠ 4)) = true := by
  decide +kernel

/-- Operands and states that meet the hypotheses of PartitionsCommanded, clause by clause. -/
theorem test_hyps_PartitionsCommanded_2 :
    (let s := st { mp [] {  } [(.PART_STAT_STATE, 15, 0, 5)] with fresh := 0 }; let c := s.chip; let p := 15; let st := c.g .PART_STAT_STATE p; decide (c.partCmd .rm p = true ∧ st ≠ 3 ∧ st ≠ 4)) = true ∧
    (let s := st { mp [] {  } [(.PART_CTL_CLAIM, 15, 0, 1)] with fresh := 0 }; let c := s.chip; let p := 15; decide (c.partCmd .rm p = true ∧ c.g .PART_CTL_CLAIM p = 1)) = true ∧
    (let s := st { mp [] {  } [(.BOOT_STAT_MEM_READY, 0, 0, 0)] with fresh := 0 }; let c := s.chip; let p := 15; decide (c.partCmd .rm p = true ∧ c.g .PART_CTL_CLAIM p = 0 ∧ c.g .BOOT_STAT_MEM_READY 0 = 0)) = true ∧
    (let s := st { mp [] {  } [(.BOOT_STAT_MEM_READY, 0, 0, 1), (.PART_OWN_OWNED, 0, 15, 1), (.PART_OWN_OWNER, 0, 15, 14), (.PART_TBL_VALID, 15, 0, 0)] with fresh := 0 }; let c := s.chip; let p := 15; decide (c.partCmd .rm p = true ∧ c.g .PART_CTL_CLAIM p = 0 ∧ c.g .BOOT_STAT_MEM_READY 0 = 1 ∧ c.claimCause p = 1)) = true ∧
    (let s := st { mp [] {  } [(.BOOT_STAT_MEM_READY, 0, 0, 1), (.PART_OWN_OWNED, 0, 15, 1), (.PART_OWN_OWNER, 0, 15, 14), (.PART_STAT_STATE, 15, 0, 4)] with fresh := 0 }; let c := s.chip; let p := 15; decide (c.partCmd .rm p = true ∧ c.g .PART_CTL_CLAIM p = 0 ∧ c.g .BOOT_STAT_MEM_READY 0 = 1 ∧ c.claimCause p = 2)) = true ∧
    (let s := st { mp [] {  } [(.BOOT_STAT_MEM_READY, 0, 0, 1), (.PART_OWN_OWNED, 0, 15, 1), (.PART_OWN_OWNER, 0, 15, 14), (.PART_STAT_STATE, 14, 0, 3)] with fresh := 0 }; let c := s.chip; let p := 15; decide (c.partCmd .rm p = true ∧ c.g .PART_CTL_CLAIM p = 0 ∧ c.g .BOOT_STAT_MEM_READY 0 = 1 ∧ c.claimCause p = 4)) = true ∧
    (let s := st { mp [] {  } [(.BOOT_STAT_MEM_READY, 0, 0, 1), (.PART_OWN_OWNED, 0, 15, 1), (.PART_OWN_OWNER, 0, 15, 14), (.PART_STAT_STATE, 14, 0, 1)] with fresh := 0, mem := [(scratchKey 959 0, 9), (scratchKey 960 0, 3), (regionKey 15 7, 4)] }; let c := s.chip; let p := 15; decide (c.partCmd .rm p = true ∧ c.g .PART_CTL_CLAIM p = 0 ∧ c.g .BOOT_STAT_MEM_READY 0 = 1 ∧ c.claimCause p = 0 ∧ c.toClear p = [15])) = true ∧
    (let s := st { mp [] {  } [(.PART_STAT_STATE, 15, 0, 4), (.PART_CTL_STOP, 15, 0, 0), (.PART_STAT_YREQ, 15, 0, 1)] with fresh := 0 }; let c := s.chip; let p := 15; let st := c.g .PART_STAT_STATE p; decide (¬ (st = 4 ∧ c.g .PART_CTL_STOP p = 1 ∧ (c.partS p).fencing = false ∧ c.drained p = true))) = true ∧
    (let s := st { mp [] {  } [(.PART_STAT_STATE, 15, 0, 4), (.PART_CTL_STOP, 15, 0, 1), (.PART_STAT_YREQ, 15, 0, 1)] with fresh := 0 }; let c := s.chip; let p := 15; let st := c.g .PART_STAT_STATE p; decide (¬ (st = 4 ∧ c.g .PART_CTL_STOP p = 0 ∧ (c.partS p).fencing = false ∧ c.drained p = true))) = true ∧
    (let s := st { mp [] {  } [(.PART_STAT_STATE, 15, 0, 4), (.PART_CTL_STOP, 15, 0, 1), (.PART_STAT_YREQ, 15, 0, 1)] with fresh := 0 }; let c := s.chip; let p := 15; let st := c.g .PART_STAT_STATE p; decide (st = 4 ∧ c.g .PART_CTL_STOP p = 1 ∧ (c.partS p).fencing = false ∧ c.drained p = true)) = true ∧
    (let s := st { mp [] {  } [(.PART_STAT_STATE, 15, 0, 4), (.PART_CTL_STOP, 15, 0, 0), (.PART_STAT_YREQ, 15, 0, 1)] with fresh := 0 }; let c := s.chip; let p := 15; let st := c.g .PART_STAT_STATE p; decide (st = 4 ∧ c.g .PART_CTL_STOP p = 0 ∧ (c.partS p).fencing = false ∧ c.drained p = true)) = true ∧
    (let s := st { mp [] {  } [] with fresh := 0 }; let c := s.chip; let p := 15; let st := c.g .PART_STAT_STATE p; decide (st ≠ 2)) = true := by
  decide +kernel

/-- Operands and states that meet the hypotheses of PartitionsCommanded, clause by clause. -/
theorem test_hyps_PartitionsCommanded_3 :
    (let s := st { mp [] {  } [(.PART_STAT_STATE, 15, 0, 2), (.PART_CTL_CLAIM, 15, 0, 1)] with fresh := 0, parts := [(15, { prior := 6, clearing := [15] })] }; let c := s.chip; let p := 15; let st := c.g .PART_STAT_STATE p; decide (st = 2)) = true := by
  decide +kernel

/-- Operands and states that meet the hypotheses of QuantaFencesGrants, clause by clause. -/
theorem test_hyps_QuantaFencesGrants_1 :
    (let s := st { mp [] {  } [(.PART_STAT_STATE, 15, 0, 4), (.PART_QEND_QEND, 15, 0, 5), (.PART_QCFG_GRACE, 15, 0, 1)] with fresh := 0, now := 5 }; let c := s.chip; let p := 15; let st := c.g .PART_STAT_STATE p; let q := c.g .PART_QEND_QEND p; decide ((st ≠ 3 ∨ q = 0 ∨ c.now < q))) = true ∧
    (let s := st { mp [] {  } [(.PART_STAT_STATE, 15, 0, 3), (.PART_QEND_QEND, 15, 0, 0), (.PART_QCFG_GRACE, 15, 0, 1)] with fresh := 0, now := 5 }; let c := s.chip; let p := 15; let st := c.g .PART_STAT_STATE p; let q := c.g .PART_QEND_QEND p; decide ((st ≠ 3 ∨ q = 0 ∨ c.now < q))) = true ∧
    (let s := st { mp [] {  } [(.PART_STAT_STATE, 15, 0, 3), (.PART_QEND_QEND, 15, 0, 6), (.PART_QCFG_GRACE, 15, 0, 1)] with fresh := 0, now := 5 }; let c := s.chip; let p := 15; let st := c.g .PART_STAT_STATE p; let q := c.g .PART_QEND_QEND p; decide ((st ≠ 3 ∨ q = 0 ∨ c.now < q))) = true ∧
    (let s := st { mp [] {  } [(.PART_STAT_STATE, 15, 0, 3), (.PART_QEND_QEND, 15, 0, 5), (.PART_QCFG_GRACE, 15, 0, 1)] with fresh := 0, now := 5 }; let c := s.chip; let p := 15; let st := c.g .PART_STAT_STATE p; let q := c.g .PART_QEND_QEND p; decide (st = 3 ∧ q ≠ 0 ∧ q ≤ c.now)) = true ∧
    (decide (fnPriv (.vf 0 16) = false)) = true ∧
    (let s := st { mp [] {  } [(.PART_STAT_STATE, 15, 0, 3), (.PART_QEND_QEND, 15, 0, 0), (.PART_QCFG_GRACE, 15, 0, 1)] with fresh := 0, now := 5 }; let c := s.chip; let p := 15; let st := c.g .PART_STAT_STATE p; decide (fnPriv .rm = true ∧ c.reaches .rm .PART_QEND p = true ∧ st = 3 ∧ (5 : Word) ≠ 0 ∧ (5 : Word).toNat ≤ c.now)) = true ∧
    (let s := st { mp [] {  } [(.PART_STAT_STATE, 15, 0, 1), (.PART_QEND_QEND, 15, 0, 0), (.PART_QCFG_GRACE, 15, 0, 1)] with fresh := 0, now := 5 }; let c := s.chip; let p := 15; let st := c.g .PART_STAT_STATE p; decide (fnPriv .rm = true ∧ c.reaches .rm .PART_QEND p = true ∧ (st ≠ 3 ∨ (5 : Word) = 0 ∨ c.now < (5 : Word).toNat))) = true ∧
    (let s := st { mp [] {  } [(.PART_STAT_STATE, 15, 0, 3), (.PART_QEND_QEND, 15, 0, 7), (.PART_QCFG_GRACE, 15, 0, 1)] with fresh := 0, now := 5 }; let c := s.chip; let p := 15; let st := c.g .PART_STAT_STATE p; decide (fnPriv .rm = true ∧ c.reaches .rm .PART_QEND p = true ∧ (st ≠ 3 ∨ (0 : Word) = 0 ∨ c.now < (0 : Word).toNat))) = true ∧
    (let s := st { mp [] {  } [(.PART_STAT_STATE, 15, 0, 3), (.PART_QEND_QEND, 15, 0, 0), (.PART_QCFG_GRACE, 15, 0, 1)] with fresh := 0, now := 5 }; let c := s.chip; let p := 15; let st := c.g .PART_STAT_STATE p; decide (fnPriv .rm = true ∧ c.reaches .rm .PART_QEND p = true ∧ (st ≠ 3 ∨ (6 : Word) = 0 ∨ c.now < (6 : Word).toNat))) = true ∧
    (let s := st { mp [] {  } [(.PART_STAT_STATE, 15, 0, 3), (.PART_QEND_QEND, 15, 0, 0), (.PART_QCFG_GRACE, 15, 0, 1)] with fresh := 0, now := 5 }; let c := s.chip; let p := 15; let st := c.g .PART_STAT_STATE p; let q := c.g .PART_QEND_QEND p; decide ((q = 0 ∨ (st ≠ 3 ∧ st ≠ 4) ∨ c.now < q + 1000000 * c.g .PART_QCFG_GRACE p ∨ (c.partS p).fencing = true))) = true ∧
    (let s := st { mp [] {  } [(.PART_STAT_STATE, 15, 0, 2), (.PART_QEND_QEND, 15, 0, 5), (.PART_QCFG_GRACE, 15, 0, 1)] with fresh := 0, now := 1000005 }; let c := s.chip; let p := 15; let st := c.g .PART_STAT_STATE p; let q := c.g .PART_QEND_QEND p; decide ((q = 0 ∨ (st ≠ 3 ∧ st ≠ 4) ∨ c.now < q + 1000000 * c.g .PART_QCFG_GRACE p ∨ (c.partS p).fencing = true))) = true ∧
    (let s := st { mp [] {  } [(.PART_STAT_STATE, 15, 0, 3), (.PART_QEND_QEND, 15, 0, 5), (.PART_QCFG_GRACE, 15, 0, 1)] with fresh := 0, now := 1000004 }; let c := s.chip; let p := 15; let st := c.g .PART_STAT_STATE p; let q := c.g .PART_QEND_QEND p; decide ((q = 0 ∨ (st ≠ 3 ∧ st ≠ 4) ∨ c.now < q + 1000000 * c.g .PART_QCFG_GRACE p ∨ (c.partS p).fencing = true))) = true := by
  decide +kernel

/-- Operands and states that meet the hypotheses of QuantaFencesGrants, clause by clause. -/
theorem test_hyps_QuantaFencesGrants_2 :
    (let s := st { mp [] {  } [(.PART_STAT_STATE, 15, 0, 3), (.PART_QEND_QEND, 15, 0, 5), (.PART_QCFG_GRACE, 15, 0, 1)] with fresh := 0, now := 1000005, parts := [(15, { fencing := true })] }; let c := s.chip; let p := 15; let st := c.g .PART_STAT_STATE p; let q := c.g .PART_QEND_QEND p; decide ((q = 0 ∨ (st ≠ 3 ∧ st ≠ 4) ∨ c.now < q + 1000000 * c.g .PART_QCFG_GRACE p ∨ (c.partS p).fencing = true))) = true ∧
    (let s := st { mp [] {  } [(.PART_STAT_STATE, 15, 0, 3), (.PART_QEND_QEND, 15, 0, 5), (.PART_QCFG_GRACE, 15, 0, 1)] with fresh := 0, now := 1000005 }; let c := s.chip; let p := 15; let st := c.g .PART_STAT_STATE p; let q := c.g .PART_QEND_QEND p; decide (q ≠ 0 ∧ (st = 3 ∨ st = 4) ∧ ¬ c.now < q + 1000000 * c.g .PART_QCFG_GRACE p ∧ (c.partS p).fencing = false ∧ c.enrolled p = [127])) = true ∧
    (let s := st { mp [] {  } [(.PART_STAT_STATE, 15, 0, 4), (.PART_QEND_QEND, 15, 0, 5), (.PART_QCFG_GRACE, 15, 0, 1)] with fresh := 0, now := 1000005 }; let c := s.chip; let p := 15; let st := c.g .PART_STAT_STATE p; let q := c.g .PART_QEND_QEND p; decide (q ≠ 0 ∧ (st = 3 ∨ st = 4) ∧ ¬ c.now < q + 1000000 * c.g .PART_QCFG_GRACE p ∧ (c.partS p).fencing = false ∧ c.enrolled p = [127])) = true ∧
    (let s := st { mp [] {  } [(.PART_STAT_STATE, 15, 0, 3), (.PART_QEND_QEND, 15, 0, 5), (.PART_QCFG_GRACE, 15, 0, 1)] with fresh := 0, now := 5 }; let c := s.chip; let p := 15; decide (¬ ((c.partS p).fencing = true ∧ (c.upd p).void = [] ∧ c.allQuiet p = true))) = true ∧
    (let s := st { mp [] {  } [(.PART_STAT_STATE, 15, 0, 4), (.PART_QEND_QEND, 15, 0, 5), (.PART_QCFG_GRACE, 15, 0, 1)] with fresh := 0, now := 5, parts := [(15, { fencing := true })] }; let c := s.chip; let p := 15; decide (((c.partS p).fencing = true ∧ (c.upd p).void = [] ∧ c.allQuiet p = true))) = true ∧
    (let s := st { mp [] {  } [(.PART_TBL_CGRANT_MAX, 15, 0, 63)] with fresh := 0 }; let c := s.chip; decide (c.reaches .rm .PART_CGRANT 14 = false)) = true ∧
    (decide (64 ≤ 64)) = true ∧
    (let s := st { mp [] {  } [(.PART_TBL_CGRANT_MAX, 15, 0, 63)] with fresh := 0 }; let c := s.chip; let p := 15; decide (c.reaches (.vf 0 16) .PART_CGRANT p = true)) = true ∧
    (let s := st { mp [] {  } [(.PART_TBL_CGRANT_MAX, 15, 0, 63)] with fresh := 0 }; let c := s.chip; let p := 15; decide (c.reaches .rm .PART_CGRANT p = true ∧ wbit (Word.ofNat (9 + 2 ^ 24)) 24 = true ∧ c.g .PART_TBL_CGRANT_MAX p ≤ 63)) = true ∧
    (let s := st { mp [] {  } [(.PART_TBL_CGRANT_MAX, 15, 0, 63), (.PART_STAT_STATE, 15, 0, 3)] with fresh := 0 }; let c := s.chip; let p := 15; decide (c.reaches .rm .PART_CGRANT p = true ∧ 62 < c.g .PART_TBL_CGRANT_MAX p ∧ c.runs p = true)) = true ∧
    (let s := st { mp [] {  } [(.PART_TBL_CGRANT_MAX, 15, 0, 63)] with fresh := 0 }; let c := s.chip; let p := 15; decide (c.reaches .rm .PART_CGRANT p = true ∧ (1 = 0 ∨ 62 < c.g .PART_TBL_CGRANT_MAX p) ∧ c.runs p = false)) = true ∧
    (let s := st { mp [] {  } [(.PART_TBL_CGRANT_MAX, 15, 0, 63)] with fresh := 0 }; let c := s.chip; let p := 15; decide (c.reaches .rm .PART_CGRANT p = true ∧ (0 = 0 ∨ 63 < c.g .PART_TBL_CGRANT_MAX p) ∧ c.runs p = false)) = true := by
  decide +kernel

/-- The public key, as 96 bytes, under which the signature below verifies for the descriptor below. -/
def key : List Byte := (List.range 96).map (fun i => BitVec.ofNat 8 (0x986fac662702a32ba8169560df905ef8fbfe8d19c42672308faeb1c9ccb5f5d204c3d04cc769df03523670443fecb55d923a9477aeafefe623675ec230ff78ccd397add35fb45d461093164274cf71c49a3cf7ed1620dde794c69656d5dc239b / 256 ^ (95 - i)))
/-- The signature's twelve words. -/
def sig : List Nat := [12297829382473034410, 12297829382473034410, 14865586508165601014, 12522183705598595262, 13784853458686397199, 5899051456329562599,
  12297829382473034410, 12297829382473034410, 14865586508165601014, 12522183705598595262, 13784853458686397199, 5899051456329562599]
/-- The change registers: STATE, words 0, 3, 8 and 9 of a descriptor that sets `PART_TBL` of partition 15, both signatures (twice the same),
keys of both roles, the module UID 0, and more fields set. -/
def cg (st kind : Nat) (l : List (Fld × Nat × Nat × Nat)) : Chip :=
  let c := chip ([(.CHG_STAT_STATE, 0, 0, st), (⟨.CHG_BUF, 63, 0⟩, 0, 0, kind + 2 ^ 8 + (if kind = 1 then 2 ^ 16 + 80 * 2 ^ 32 else 256 * 2 ^ 32)),
      (⟨.CHG_BUF, 63, 0⟩, 0, 3, 2 ^ 15), (⟨.CHG_BUF, 63, 0⟩, 0, 8, 1 + 15 * 256 + 0x20800 * 2 ^ 32), (⟨.CHG_BUF, 63, 0⟩, 0, 9, 65537)]
      ++ (sig.zipIdx.map (fun x => (⟨.CHG_BUF, 63, 0⟩, 0, 480 + x.2, x.1))) ++ (sig.zipIdx.map (fun x => (⟨.CHG_BUF, 63, 0⟩, 0, 496 + x.2, x.1))) ++ l)
  { c with
    regs := (regKey .CHG_UID 0 0, 0) :: c.regs, prot := { keys := if kind = 3 then none else some (key, key) } }

/-- One step of chgRegister, its results from the rules that its meaning cites. -/
theorem test_step_chgRegister :
    (let s := st { cg 0 3 [] with up := 0 }; match execChgRegister .bmc 0 s with | .next t => decide (t.chip.g .CHG_SEQ_SEQ 0 = 1 ∧ t.chip.g .CHG_STAT_STATE 0 = 0 ∧ t.chip.g .CHG_STAT_RESULT 0 = 0 ∧ t.chip.g .MTR_EPOCH_EPOCH 15 = 1) | _ => false) = true := by
  decide +kernel

/-- One step of chgApplyDone, its results from the rules that its meaning cites. -/
theorem test_step_chgApplyDone :
    (let s := st { cg 4 2 [] with up := 0 }; match execChgApplyDone s with | .next t => decide (t.chip.g .CHG_SEQ_SEQ 0 = 1 ∧ t.chip.g .CHG_STAT_STATE 0 = 0 ∧ t.chip.g .CHG_STAT_RESULT 0 = 0 ∧ t.chip.g .MTR_EPOCH_EPOCH 15 = 1) | _ => false) = true := by
  decide +kernel

/-- One step of chgApprove, its results from the rules that its meaning cites. -/
theorem test_step_chgApprove :
    (let s := st { cg 4 1 [] with up := 0 }; match execChgApprove .rm s with | .next t => decide (t.chip.g .CHG_STAT_STATE 0 = 4 ∧ t.chip.g .CHG_STAT_RESULT 0 = 11) | _ => false) = true := by
  decide +kernel

/-- One step of chgApply, its results from the rules that its meaning cites. -/
theorem test_step_chgApply :
    (let s := st { cg 4 1 [] with up := 0 }; match execChgApply .rm s with | .next t => decide (t.chip.g .CHG_STAT_STATE 0 = 4 ∧ t.chip.g .CHG_STAT_RESULT 0 = 11) | _ => false) = true := by
  decide +kernel

/-- Operands and states that meet the hypotheses of ChangeProtocol, clause by clause. -/
theorem test_hyps_ChangeProtocol_1 :
    (decide (True)) = true ∧
    (decide (True)) = true ∧
    (decide (True)) = true ∧
    (decide (True)) = true ∧
    (let s := st { cg 4 1 [] with up := 0 }; let c := s.chip; let st := c.g .CHG_STAT_STATE 0; decide (chgFn .rm = true ∧ st ≠ 0 ∧ st = 4)) = true ∧
    (let s := st { cg 1 1 [] with up := 0 }; let c := s.chip; let st := c.g .CHG_STAT_STATE 0; decide (chgFn .rm = true ∧ st ≠ 0 ∧ st ≠ 4)) = true ∧
    (let s := st { cg 4 1 [] with up := 0 }; let c := s.chip; let st := c.g .CHG_STAT_STATE 0; decide (chgFn .rm = true ∧ st ≠ 2 ∧ st = 4)) = true ∧
    (let s := st { cg 1 1 [] with up := 0 }; let c := s.chip; let st := c.g .CHG_STAT_STATE 0; decide (chgFn .rm = true ∧ st ≠ 2 ∧ st ≠ 4)) = true ∧
    (let s := st { cg 4 1 [] with up := 0 }; let c := s.chip; let st := c.g .CHG_STAT_STATE 0; decide (chgFn .rm = true ∧ st ≠ 3 ∧ st = 4)) = true ∧
    (let s := st { cg 1 1 [] with up := 0 }; let c := s.chip; let st := c.g .CHG_STAT_STATE 0; decide (chgFn .rm = true ∧ st ≠ 3 ∧ st ≠ 4)) = true ∧
    (let s := st { cg 0 1 [(⟨.CHG_BUF, 63, 0⟩, 0, 3, 2 ^ 16)] with up := 0 }; let c := s.chip; let st := c.g .CHG_STAT_STATE 0; decide (st = 0 ∧ c.registerResult .rm = 1)) = true ∧
    (let s := st { cg 0 1 [(⟨.CHG_BUF, 63, 0⟩, 0, 1, 1)] with up := 0 }; let c := s.chip; let st := c.g .CHG_STAT_STATE 0; decide (st = 0 ∧ c.registerResult .rm = 2)) = true := by
  decide +kernel

/-- Operands and states that meet the hypotheses of ChangeProtocol, clause by clause. -/
theorem test_hyps_ChangeProtocol_2 :
    (let s := st { cg 0 1 [(⟨.CHG_BUF, 63, 0⟩, 0, 2, 1)] with up := 0 }; let c := s.chip; let st := c.g .CHG_STAT_STATE 0; decide (st = 0 ∧ c.registerResult .rm = 3)) = true ∧
    (let s := st { cg 0 3 [] with up := 0 }; let c := s.chip; let st := c.g .CHG_STAT_STATE 0; decide (st = 0 ∧ c.registerResult .rm = 5)) = true ∧
    (let s := st { cg 0 1 [] with up := 0 }; let c := s.chip; let st := c.g .CHG_STAT_STATE 0; decide (st = 0 ∧ c.registerResult .rm = 0 ∧ c.chgKind ≠ 3)) = true ∧
    (let s := st { cg 0 3 [] with up := 0 }; let c := s.chip; let st := c.g .CHG_STAT_STATE 0; decide (st = 0 ∧ c.registerResult .bmc = 0 ∧ c.chgKind = 3 ∧ c.chgParts = [15])) = true ∧
    (let s := st { cg 2 1 [] with up := 0 }; let c := s.chip; let st := c.g .CHG_STAT_STATE 0; decide (st = 2)) = true ∧
    (let s := st { cg 3 1 [(⟨.CHG_BUF, 63, 0⟩, 0, 2, 1)] with up := 0 }; let c := s.chip; let st := c.g .CHG_STAT_STATE 0; decide (st = 3 ∧ c.applyResult = 3)) = true ∧
    (let s := st { cg 3 1 [(⟨.CHG_BUF, 63, 0⟩, 0, 9, 2 ^ 63)] with up := 0 }; let c := s.chip; let st := c.g .CHG_STAT_STATE 0; decide (st = 3 ∧ c.applyResult = 6)) = true ∧
    (let s := st { cg 3 1 [(⟨.CHG_BUF, 63, 0⟩, 0, 3, 0)] with up := 0 }; let c := s.chip; let st := c.g .CHG_STAT_STATE 0; decide (st = 3 ∧ c.applyResult = 7)) = true ∧
    (let s := st { cg 3 1 [(.PART_STAT_STATE, 15, 0, 3)] with up := 0 }; let c := s.chip; let st := c.g .CHG_STAT_STATE 0; decide (st = 3 ∧ c.applyResult = 8)) = true ∧
    (let s := st { cg 3 1 [(⟨.CHG_BUF, 63, 0⟩, 0, 8, 2 + 16 * 256)] with up := 0 }; let c := s.chip; let st := c.g .CHG_STAT_STATE 0; decide (st = 3 ∧ c.applyResult = 10)) = true ∧
    (let s := st { cg 3 1 [] with up := 0 }; let c := s.chip; let st := c.g .CHG_STAT_STATE 0; decide (st = 3 ∧ c.applyResult = 0)) = true ∧
    (let s := st { cg 4 1 [] with up := 0 }; let c := s.chip; let st := c.g .CHG_STAT_STATE 0; decide (st = 4)) = true := by
  decide +kernel

/-- Operands and states that meet the hypotheses of ChangeProtocol, clause by clause. -/
theorem test_hyps_ChangeProtocol_3 :
    (let s := st { cg 3 1 [(.CHG_STAT_RESULT, 0, 0, 4), (⟨.CHG_KEYSTAGE, 63, 0⟩, 0, 3, 1)] with up := 0 }; let c := s.chip; let st := c.g .CHG_STAT_STATE 0; decide (st ≠ 4)) = true ∧
    (let s := st { cg 2 1 [] with up := 0 }; let c := s.chip; let st := c.g .CHG_STAT_STATE 0; decide (st ≠ 1)) = true ∧
    (let s := st { cg 1 1 [] with up := 0 }; let c := s.chip; let st := c.g .CHG_STAT_STATE 0; decide (st = 1 ∧ c.chgSecond = false ∧ c.chgSigned 3840 0 = true)) = true ∧
    (let s := st { cg 1 1 [] with up := 0, chgSecond := true }; let c := s.chip; let st := c.g .CHG_STAT_STATE 0; decide (st = 1 ∧ c.chgSecond = true ∧ c.chgSigned 3968 1 = true)) = true ∧
    (let s := st { cg 1 1 [(⟨.CHG_BUF, 63, 0⟩, 0, 480, 0)] with up := 0 }; let c := s.chip; let st := c.g .CHG_STAT_STATE 0; decide (st = 1 ∧ c.chgSecond = false ∧ c.prot.keys.isSome = true)) = true ∧
    (let s := st { cg 1 1 [] with up := 0, prot := {} }; let c := s.chip; let st := c.g .CHG_STAT_STATE 0; decide (st = 1 ∧ c.chgSecond = false ∧ c.chgSigned 3840 (c.g .CHG_STAT_FIRST 0) = false)) = true ∧
    (let s := st { cg 3 1 [] with up := 0 }; let c := s.chip; let st := c.g .CHG_STAT_STATE 0; decide (st ≠ 4)) = true ∧
    (let s := st { cg 4 2 [] with up := 0 }; let c := s.chip; let st := c.g .CHG_STAT_STATE 0; decide (st = 4 ∧ c.chgKind = 2 ∧ c.chgParts = [15])) = true ∧
    (let s := st { cg 4 1 [] with up := 0 }; let c := s.chip; let st := c.g .CHG_STAT_STATE 0; decide (st = 4 ∧ c.chgKind = 1 ∧ c.chgAffects = [15] ∧ c.chgItems = [⟨1, 15, 0, 0x20800, 65537⟩] ∧ daAt 0x20800 = some (.PART_TBL, 0))) = true := by
  decide +kernel

/-- Ring 15 of VF 16 of port 1 (function 33, partition 15, region 15): enabled with 16 descriptors, HEAD 15 and TAIL 0, into
queue 1023; an outbound ring of 128 slots from that queue; a window of two pages; more fields set. -/
def rg (x : InRing) (y : OutRing) (l : List (Fld × Nat × Nat × Nat)) : Chip :=
  { chip ([(.PART_OWN_OWNED, 0, 15, 1), (.PART_OWN_OWNER, 0, 15, 15), (.PART_STAT_STATE, 15, 0, 1), (.PART_TBL_REGIONS, 15, 0, 2 ^ 15), (.HOSTIF_PORT_HOST1, 0, 0, 2 ^ 15), (.HOSTIF_WIN_EN, 33, 0, 1), (.HOSTIF_WINSZ_PAGES, 33, 0, 2),
      (.HOSTIF_HIQ_BASE_EN, 33, 15, 1), (.HOSTIF_HIQ_CTL_REGION, 33, 15, 15), (.HOSTIF_HIQ_CTL_QUEUE, 33, 15, 1023), (.HOSTIF_HIQ_STAT_HEAD, 33, 15, 15),
      (.HOSTIF_HOQ_BASE_EN, 33, 15, 1), (.HOSTIF_HOQ_SRC_REGION, 33, 15, 15), (.HOSTIF_HOQ_SRC_QUEUE, 33, 15, 1023),
      (.QP_QCFG_EN, 15, 1023, 1), (.QP_QCFG_CKIND, 15, 1023, 4), (.QP_QCFG_MAX_CELLS, 15, 1023, 8)] ++ l) with
    inRings := [(ringKey 33 15, x)], outRings := [(ringKey 33 15, y)], up := 5000000 }
/-- A descriptor: type and length in word 0, host offset, tier address. -/
def ds (ty n ha ta : Nat) : List Word := [Word.ofNat (ty + n * 2 ^ 8 + 2 ^ 4), Word.ofNat ha, Word.ofNat ta, 0]
/-- A started descriptor of 64 bytes in the region buffer of region r. -/
def jb (ty r : Nat) : InDesc := ⟨ty, false, if ty = 0 then 1 else 64, 0, 2 ^ 60 + r * 2 ^ 32, 15, [], List.replicate 64 7, false⟩

/-- One step of hoqBaseWrite, its results from the rules that its meaning cites. -/
theorem test_step_hoqBaseWrite :
    (let s := st { rg {  } { head := 5 } [(.HOSTIF_HOQ_BASE_EN, 33, 15, 0), (.HOSTIF_HOQ_STAT_TAIL, 33, 15, 9)] with fresh := 0 }; let f := 33; let q := 15; match execHoqBaseWrite (.vf 1 16) q (Word.ofNat (1 + 10 * 2 + 2 ^ 12)) s with | .next t => decide (t.chip.g .HOSTIF_HOQ_BASE_EN f q = 1 ∧ t.chip.g .HOSTIF_HOQ_BASE_LOGN f q = 9 ∧ t.chip.g .HOSTIF_HOQ_BASE_ADDR f q = 1 ∧ t.chip.g .HOSTIF_HOQ_STAT_TAIL f q = 0 ∧ t.chip.g .HOSTIF_HOQ_STAT_PHASE f q = 1 ∧ (t.chip.outRing f q).head = 5) | _ => false) = true := by
  decide +kernel

/-- One step of hoqPacketWrite, its results from the rules that its meaning cites. -/
theorem test_step_hoqPacketWrite :
    (let s := st { rg {  } { head := 1, pseq := 65535 } [(.HOSTIF_HOQ_STAT_TAIL, 33, 15, 126), (.HOSTIF_HOQ_STAT_PHASE, 33, 15, 1)] with fresh := 0, queues := [(15 * 1024 + 1023, { linked := [⟨List.replicate 8 (7, false), false, false⟩] })] }; let f := 33; let q := 15; match execHoqPacketWrite f q s with | .next t => decide ((t.chip.queue 15 1023).linked = [] ∧ (t.chip.outRing f q).pseq = 65536 ∧ (t.chip.outRing f q).head = 1 ∧ t.chip.g .HOSTIF_HOQ_STAT_TAIL f q = 0 ∧ t.chip.g .HOSTIF_HOQ_STAT_PHASE f q = 0) | _ => false) = true := by
  decide +kernel

/-- One step of hiqPacket, its results from the rules that its meaning cites. -/
theorem test_step_hiqPacket :
    (let s := st { rg {  } {  } [] with fresh := 0 }; let f := 33; let q := 15; match execHiqPacket f q (ds 0 1 0 0) (List.replicate 7 7) false s with | .next t => decide (t.chip.g .HOSTIF_HIQ_STAT_HALTED f q = 1 ∧ t.chip.g .HOSTIF_HIQ_STAT_STATUS f q = 7 ∧ t.chip.g .HOSTIF_HIQ_STAT_HEAD f q = 15 ∧ t.chip.g .HOSTIF_CNT_COUNT f 3 = 1) | _ => false) = true := by
  decide +kernel

/-- One step of hiqWrite, its results from the rules that its meaning cites. -/
theorem test_step_hiqWrite :
    (let s := st { rg {  } {  } [] with fresh := 0 }; let f := 33; let q := 15; match execHiqWrite f q (ds 1 64 0 (2 ^ 60 + 15 * 2 ^ 32)) (List.replicate 63 7) false s with | .next t => decide (t.chip.g .HOSTIF_HIQ_STAT_HALTED f q = 1 ∧ t.chip.g .HOSTIF_HIQ_STAT_STATUS f q = 7 ∧ t.chip.g .HOSTIF_HIQ_STAT_HEAD f q = 15 ∧ t.chip.g .HOSTIF_CNT_COUNT f 3 = 1) | _ => false) = true := by
  decide +kernel

/-- Operands and states that meet the hypotheses of InboundRings, clause by clause. -/
theorem test_hyps_InboundRings_1 :
    (let s := st { rg {  } {  } [] with fresh := 0 }; let c := s.chip; let f := 33; let q := 15; decide (c.ringFn (.vf 1 16) .HOSTIF_HIQ_DB q = some f ∧ c.hiqSize f q ≤ 16 % 2 ^ 16)) = true ∧
    (let s := st { rg {  } {  } [] with fresh := 0 }; let c := s.chip; let f := 33; let q := 15; decide (c.ringFn (.vf 1 16) .HOSTIF_HIQ_DB q = some f ∧ 15 % 2 ^ 16 < c.hiqSize f q)) = true ∧
    (let s := st { rg { tail := 15 } {  } [] with fresh := 0 }; let c := s.chip; let f := 33; let q := 15; decide (c.hiqNext f q = none)) = true ∧
    (let s := st { rg { tail := 1, jobs := [jb 1 15] } {  } [] with fresh := 0 }; let c := s.chip; let f := 33; let q := 15; let x := c.inRing f q; decide (c.hiqNext f q = some 0 ∧ x.jobs ≠ [] ∧ (hdType (ds 0 513 0 0) = 0 ∨ c.hdCheck f q (ds 0 513 0 0) ≠ .run))) = true ∧
    (let s := st { rg {  } {  } [(.HOSTIF_HIQ_BASE_ADDR, 33, 15, 2)] with fresh := 0 }; let c := s.chip; let f := 33; let q := 15; let x := c.inRing f q; decide (c.hiqNext f q = some 15 ∧ x.jobs = [] ∧ c.hostRange f (4096 * c.g .HOSTIF_HIQ_BASE_ADDR f q + 32 * 15) 32 = none)) = true ∧
    (let s := st { rg {  } {  } [] with fresh := 0 }; let c := s.chip; let f := 33; let q := 15; let x := c.inRing f q; decide (c.hiqNext f q = some 15 ∧ c.hostRange f (4096 * c.g .HOSTIF_HIQ_BASE_ADDR f q + 32 * 15) 32 ≠ none ∧ x.jobs = [] ∧ c.hdCheck f q (ds 0 513 0 0) = .fail 2)) = true ∧
    (let s := st { rg { tail := 15 } {  } [] with fresh := 0 }; let c := s.chip; let f := 33; let q := 15; decide (c.hiqNext f q = none)) = true ∧
    (let s := st { rg { tail := 1, jobs := [jb 1 15] } {  } [] with fresh := 0 }; let c := s.chip; let f := 33; let q := 15; let x := c.inRing f q; decide (c.hiqNext f q = some 0 ∧ x.jobs ≠ [] ∧ (hdType (ds 1 65 0 (2 ^ 60 + 15 * 2 ^ 32)) = 0 ∨ c.hdCheck f q (ds 1 65 0 (2 ^ 60 + 15 * 2 ^ 32)) ≠ .run))) = true ∧
    (let s := st { rg {  } {  } [(.HOSTIF_HIQ_BASE_ADDR, 33, 15, 2)] with fresh := 0 }; let c := s.chip; let f := 33; let q := 15; let x := c.inRing f q; decide (c.hiqNext f q = some 15 ∧ x.jobs = [] ∧ c.hostRange f (4096 * c.g .HOSTIF_HIQ_BASE_ADDR f q + 32 * 15) 32 = none)) = true ∧
    (let s := st { rg {  } {  } [] with fresh := 0 }; let c := s.chip; let f := 33; let q := 15; let x := c.inRing f q; decide (c.hiqNext f q = some 15 ∧ c.hostRange f (4096 * c.g .HOSTIF_HIQ_BASE_ADDR f q + 32 * 15) 32 ≠ none ∧ x.jobs = [] ∧ c.hdCheck f q (ds 1 65 0 (2 ^ 60 + 15 * 2 ^ 32)) = .fail 2)) = true ∧
    (let s := st { rg { tail := 15 } {  } [] with fresh := 0 }; let c := s.chip; let f := 33; let q := 15; decide (c.hiqNext f q = none)) = true ∧
    (let s := st { rg { tail := 1, jobs := [jb 1 15] } {  } [] with fresh := 0 }; let c := s.chip; let f := 33; let q := 15; let x := c.inRing f q; decide (c.hiqNext f q = some 0 ∧ x.jobs ≠ [] ∧ (hdType (ds 2 65 0 (2 ^ 60 + 15 * 2 ^ 32)) = 0 ∨ c.hdCheck f q (ds 2 65 0 (2 ^ 60 + 15 * 2 ^ 32)) ≠ .run))) = true := by
  decide +kernel

/-- Operands and states that meet the hypotheses of InboundRings, clause by clause. -/
theorem test_hyps_InboundRings_2 :
    (let s := st { rg {  } {  } [(.HOSTIF_HIQ_BASE_ADDR, 33, 15, 2)] with fresh := 0 }; let c := s.chip; let f := 33; let q := 15; let x := c.inRing f q; decide (c.hiqNext f q = some 15 ∧ x.jobs = [] ∧ c.hostRange f (4096 * c.g .HOSTIF_HIQ_BASE_ADDR f q + 32 * 15) 32 = none)) = true ∧
    (let s := st { rg {  } {  } [] with fresh := 0 }; let c := s.chip; let f := 33; let q := 15; let x := c.inRing f q; decide (c.hiqNext f q = some 15 ∧ c.hostRange f (4096 * c.g .HOSTIF_HIQ_BASE_ADDR f q + 32 * 15) 32 ≠ none ∧ x.jobs = [] ∧ c.hdCheck f q (ds 2 65 0 (2 ^ 60 + 15 * 2 ^ 32)) = .fail 2)) = true ∧
    (let s := st { rg {  } {  } [(.PART_OWN_OWNED, 0, 15, 0)] with fresh := 0 }; let c := s.chip; let f := 33; let q := 15; let x := c.inRing f q; decide (c.hiqNext f q = some 15 ∧ c.hostRange f (4096 * c.g .HOSTIF_HIQ_BASE_ADDR f q + 32 * 15) 32 ≠ none ∧ x.jobs = [] ∧ c.hdCheck f q (ds 0 1 0 0) = .denied)) = true ∧
    (let s := st { rg {  } {  } [] with fresh := 0, held := [(15, (2 ^ 60 + 15 * 2 ^ 32), 64)] }; let c := s.chip; let f := 33; let q := 15; let x := c.inRing f q; decide (c.hiqNext f q = some 15 ∧ c.hostRange f (4096 * c.g .HOSTIF_HIQ_BASE_ADDR f q + 32 * 15) 32 ≠ none ∧ x.jobs = [] ∧ c.hdCheck f q (ds 1 64 0 (2 ^ 60 + 15 * 2 ^ 32)) = .blocked (2 ^ 60 + 15 * 2 ^ 32))) = true ∧
    (let s := st { rg {  } {  } [] with fresh := 0 }; let c := s.chip; let f := 33; let q := 15; let x := c.inRing f q; decide (c.hiqNext f q = some 15 ∧ c.hostRange f (4096 * c.g .HOSTIF_HIQ_BASE_ADDR f q + 32 * 15) 32 ≠ none ∧ x.jobs = [] ∧ c.hdCheck f q (ds 0 1 0 0) = .run)) = true ∧
    (let s := st { rg {  } {  } [] with fresh := 0 }; let c := s.chip; let f := 33; let q := 15; let x := c.inRing f q; decide (c.hiqNext f q = some 15 ∧ c.hostRange f (4096 * c.g .HOSTIF_HIQ_BASE_ADDR f q + 32 * 15) 32 ≠ none ∧ x.jobs = [] ∧ c.hdCheck f q (ds 1 64 0 (2 ^ 60 + 15 * 2 ^ 32)) = .run)) = true ∧
    (let s := st { rg {  } {  } [] with fresh := 0 }; let c := s.chip; let f := 33; let q := 15; let x := c.inRing f q; decide (c.hiqNext f q = some 15 ∧ c.hostRange f (4096 * c.g .HOSTIF_HIQ_BASE_ADDR f q + 32 * 15) 32 ≠ none ∧ x.jobs = [] ∧ c.hdCheck f q (ds 1 64 8128 (2 ^ 60 + 15 * 2 ^ 32)) = .run)) = true ∧
    (let s := st { rg {  } {  } [] with fresh := 0 }; let c := s.chip; let f := 33; let q := 15; let x := c.inRing f q; decide (c.hiqNext f q = some 15 ∧ c.hostRange f (4096 * c.g .HOSTIF_HIQ_BASE_ADDR f q + 32 * 15) 32 ≠ none ∧ x.jobs = [] ∧ c.hdCheck f q (ds 2 64 8128 (2 ^ 60 + 15 * 2 ^ 32)) = .run)) = true ∧
    (let s := st { rg {  } {  } [] with fresh := 0 }; let c := s.chip; let f := 33; let q := 15; let x := c.inRing f q; decide (c.hiqNext f q = some 15 ∧ c.hostRange f (4096 * c.g .HOSTIF_HIQ_BASE_ADDR f q + 32 * 15) 32 ≠ none ∧ x.jobs = [] ∧ c.hdCheck f q (ds 0 1 0 0) = .run ∧ (c.offerAll 15 1023 (ringProducer f q) (ringWords 1 (wordsOf 1 (List.replicate 8 7)) false)).2 = false)) = true ∧
    (let s := st { rg {  } {  } [] with fresh := 0, queues := [(15 * 1024 + 1023, { broken := true })] }; let c := s.chip; let f := 33; let q := 15; let x := c.inRing f q; decide (c.hiqNext f q = some 15 ∧ c.hostRange f (4096 * c.g .HOSTIF_HIQ_BASE_ADDR f q + 32 * 15) 32 ≠ none ∧ x.jobs = [] ∧ c.hdCheck f q (ds 0 1 0 0) = .run ∧ (c.offerAll 15 1023 (ringProducer f q) (ringWords 1 (wordsOf 1 (List.replicate 8 7)) false)).2 = true)) = true ∧
    (let s := st { rg {  } {  } [] with fresh := 0 }; let c := s.chip; let f := 33; let q := 15; let x := c.inRing f q; decide (x.jobs = [])) = true ∧
    (let s := st { rg { jobs := [jb 0 15] } {  } [] with fresh := 0, d3 := [33] }; let c := s.chip; let f := 33; decide (f ∈ c.d3)) = true := by
  decide +kernel

/-- Operands and states that meet the hypotheses of InboundRings, clause by clause. -/
theorem test_hyps_InboundRings_3 :
    (let s := st { rg { jobs := [jb 0 15] } {  } [] with fresh := 0, queues := [(15 * 1024 + 1023, { waiting := [(ringProducer 33 15, ⟨0, 0, false⟩)] })] }; let c := s.chip; let f := 33; let q := 15; let x := c.inRing f q; decide (x.jobs = [jb 0 15] ∧ f ∉ c.d3 ∧ (∃ w ∈ (c.queue 15 1023).waiting, w.1 = ringProducer f q))) = true ∧
    (let s := st { rg { jobs := [jb 0 15, jb 1 15] } {  } [] with fresh := 0 }; let c := s.chip; let f := 33; let q := 15; let x := c.inRing f q; decide (x.jobs = [jb 0 15, jb 1 15] ∧ f ∉ c.d3 ∧ (c.queue 15 1023).waiting = [])) = true ∧
    (let s := st { rg { jobs := [jb 1 14] } {  } [] with fresh := 0 }; let c := s.chip; let f := 33; let q := 15; let x := c.inRing f q; decide (x.jobs = [jb 1 14] ∧ f ∉ c.d3 ∧ c.owns 15 14 = false)) = true ∧
    (let s := st { rg { jobs := [jb 1 14, jb 0 15] } {  } [] with fresh := 0 }; let c := s.chip; let f := 33; let q := 15; let x := c.inRing f q; decide (x.jobs = [jb 1 14, jb 0 15] ∧ f ∉ c.d3 ∧ c.owns 15 14 = false ∧ (jb 0 15).kind = 0)) = true ∧
    (let s := st { rg { jobs := [jb 1 15] } {  } [] with fresh := 0, mem := [(regionKey 15 1, 9)] }; let c := s.chip; let f := 33; let q := 15; let x := c.inRing f q; decide (x.jobs = [jb 1 15] ∧ f ∉ c.d3 ∧ c.tierKey 15 (2 ^ 60 + 15 * 2 ^ 32) = some (regionKey 15 0))) = true ∧
    (let s := st { rg { jobs := [jb 2 15] } {  } [] with fresh := 0, mem := [(regionKey 15 1, 9)] }; let c := s.chip; let f := 33; let q := 15; let x := c.inRing f q; decide (x.jobs = [jb 2 15] ∧ f ∉ c.d3 ∧ c.tierKey 15 (2 ^ 60 + 15 * 2 ^ 32) = some (regionKey 15 0) ∧ (c.badWords (regionKey 15 0)).any id = false)) = true ∧
    (let s := st { rg {  } {  } [] with fresh := 0 }; let c := s.chip; let f := 33; let q := 15; decide (c.ringFn (.vf 1 16) .HOSTIF_HIQ_CTL q = some f ∧ c.g .HOSTIF_HIQ_STAT_HALTED f q = 0)) = true ∧
    (let s := st { rg {  } {  } [(.HOSTIF_HIQ_STAT_HALTED, 33, 15, 1)] with fresh := 0 }; let c := s.chip; let f := 33; let q := 15; decide (c.ringFn (.vf 1 16) .HOSTIF_HIQ_CTL q = some f ∧ c.g .HOSTIF_HIQ_STAT_HALTED f q = 1)) = true ∧
    (let s := st { rg { tail := 3, jobs := [jb 0 15] } {  } [(.HOSTIF_HIQ_STAT_HALTED, 33, 15, 1)] with fresh := 0 }; let c := s.chip; let f := 33; let q := 15; let x := c.inRing f q; decide (c.ringFn (.vf 1 16) .HOSTIF_HIQ_CTL q = some f ∧ (∀ j ∈ x.jobs, j.kind = 0))) = true ∧
    (let s := st { rg { tail := 3, jobs := [jb 1 15] } {  } [(.HOSTIF_HIQ_STAT_HALTED, 33, 15, 1)] with fresh := 0 }; let c := s.chip; let f := 33; let q := 15; let x := c.inRing f q; decide (c.ringFn (.vf 1 16) .HOSTIF_HIQ_CTL q = some f ∧ x.jobs = [jb 1 15] ∧ (jb 1 15).len = 64 ∧ bits (jb 1 15).taddr 63 60 < 4 ∧ c.tierKey 15 (jb 1 15).taddr = some (regionKey 15 0) ∧ (regionKey 15 0 + 64 ≤ regionKey 15 64))) = true ∧
    (let s := st { rg { tail := 3, jobs := [jb 1 15] } {  } [(.HOSTIF_HIQ_STAT_HALTED, 33, 15, 1)] with fresh := 0 }; let c := s.chip; let f := 33; let q := 15; decide (c.ringFn (.vf 1 16) .HOSTIF_HIQ_CTL q = some f ∧ True)) = true ∧
    (let s := st { rg {  } {  } [(.HOSTIF_HIQ_CTL_REGION, 33, 15, 14)] with fresh := 0 }; let c := s.chip; let f := 33; let q := 15; decide (c.ringFn (.vf 1 16) .HOSTIF_HIQ_BASE q = some f ∧ c.ringReach f 14 = false)) = true := by
  decide +kernel

/-- Operands and states that meet the hypotheses of InboundRings, clause by clause. -/
theorem test_hyps_InboundRings_4 :
    (let s := st { rg { jobs := [jb 0 15] } {  } [] with fresh := 0 }; let c := s.chip; let f := 33; let q := 15; let x := c.inRing f q; decide (c.ringFn (.vf 1 16) .HOSTIF_HIQ_BASE q = some f ∧ wbit (0 : Word) 0 = false ∧ (∀ j ∈ x.jobs, j.kind = 0))) = true ∧
    (let s := st { rg {  } {  } [] with fresh := 0 }; let c := s.chip; let f := 33; let q := 15; decide (c.ringFn (.vf 1 16) .HOSTIF_HIQ_BASE q = some f ∧ c.ringReach f 15 = true)) = true := by
  decide +kernel

/-- Operands and states that meet the hypotheses of OutboundRings, clause by clause. -/
theorem test_hyps_OutboundRings_1 :
    (let s := st { rg {  } {  } [] with fresh := 0 }; let c := s.chip; let f := 33; let q := 15; decide (c.ringFn (.vf 1 16) .HOSTIF_HOQ_DB q = some f ∧ c.hoqSize f q ≤ 128 % 2 ^ 16)) = true ∧
    (let s := st { rg {  } {  } [(.HOSTIF_HOQ_STAT_FULL, 33, 15, 1)] with fresh := 0 }; let c := s.chip; let f := 33; let q := 15; decide (c.ringFn (.vf 1 16) .HOSTIF_HOQ_DB q = some f ∧ 127 % 2 ^ 16 < c.hoqSize f q)) = true ∧
    (let s := st { rg {  } {  } [(.HOSTIF_HOQ_BASE_EN, 33, 15, 0)] with fresh := 0, queues := [(15 * 1024 + 1023, { linked := [⟨List.replicate 8 (7, false), false, false⟩] })] }; let c := s.chip; let f := 33; let q := 15; decide (c.g .HOSTIF_HOQ_BASE_EN f q = 0)) = true ∧
    (let s := st { rg {  } {  } [] with fresh := 0, queues := [(15 * 1024 + 1023, { linked := [⟨List.replicate 8 (7, false), false, false⟩] })], d3 := [33] }; let c := s.chip; let f := 33; decide (f ∈ c.d3)) = true ∧
    (let s := st { rg {  } {  } [(.PART_OWN_OWNED, 0, 15, 0)] with fresh := 0, queues := [(15 * 1024 + 1023, { linked := [⟨List.replicate 8 (7, false), false, false⟩] })] }; let c := s.chip; let f := 33; decide (c.sees f 15 = false)) = true ∧
    (let s := st { rg {  } {  } [(.QP_QCFG_CKIND, 15, 1023, 3)] with fresh := 0, queues := [(15 * 1024 + 1023, { linked := [⟨List.replicate 8 (7, false), false, false⟩] })] }; let c := s.chip; decide (c.g .QP_QCFG_CKIND 15 1023 ≠ 4)) = true ∧
    (let s := st { rg {  } {  } [] with fresh := 0 }; let c := s.chip; decide ((c.queue 15 1023).linked = [] ∧ (c.queue 15 1023).broken = false)) = true ∧
    (let s := st { rg {  } { head := 2 } [] with fresh := 0, queues := [(15 * 1024 + 1023, { linked := [⟨List.replicate 8 (7, false), false, false⟩] })] }; let c := s.chip; let f := 33; let q := 15; decide (c.g .HOSTIF_HOQ_BASE_EN f q = 1 ∧ f ∉ c.d3 ∧ c.sees f 15 = true ∧ c.g .QP_QCFG_CKIND 15 1023 = 4 ∧ (c.queue 15 1023).broken = false ∧ (c.queue 15 1023).linked.length = 1 ∧ c.hoqRoom f q < 2)) = true ∧
    (let s := st { rg {  } { head := 1, pseq := 65535 } [(.HOSTIF_HOQ_STAT_TAIL, 33, 15, 126), (.HOSTIF_HOQ_STAT_PHASE, 33, 15, 1)] with fresh := 0, queues := [(15 * 1024 + 1023, { linked := [⟨List.replicate 8 (7, false), false, false⟩] })] }; let c := s.chip; let f := 33; let q := 15; decide (c.g .HOSTIF_HOQ_BASE_EN f q = 1 ∧ f ∉ c.d3 ∧ c.sees f 15 = true ∧ c.g .QP_QCFG_CKIND 15 1023 = 4 ∧ (c.queue 15 1023).broken = false ∧ (c.queue 15 1023).linked.length = 1 ∧ 2 ≤ c.hoqRoom f q ∧ (c.hostRange f (4096 * c.g .HOSTIF_HOQ_BASE_ADDR f q) (64 * c.hoqSize f q)).isSome = true)) = true ∧
    (let s := st { rg {  } { cnt := 1, first := 4999001 } [(.HOSTIF_HOQ_MOD_TIME, 33, 15, 1), (.HOSTIF_HOQ_SRC_VEC, 33, 15, 31)] with fresh := 0 }; let c := s.chip; let f := 33; let q := 15; let x := c.outRing f q; decide (¬ (x.first + 1000 * c.g .HOSTIF_HOQ_MOD_TIME f q ≤ c.up))) = true ∧
    (let s := st { rg {  } { cnt := 1, first := 4999000 } [(.HOSTIF_HOQ_MOD_TIME, 33, 15, 1), (.HOSTIF_HOQ_SRC_VEC, 33, 15, 31), (.MSIX_DATA_MASK, 33, 15, 0)] with fresh := 0 }; let c := s.chip; let f := 33; let q := 15; let x := c.outRing f q; decide (c.g .HOSTIF_HOQ_BASE_EN f q = 1 ∧ x.cnt ≠ 0 ∧ c.g .HOSTIF_HOQ_MOD_TIME f q ≠ 0 ∧ x.first + 1000 * c.g .HOSTIF_HOQ_MOD_TIME f q ≤ c.up ∧ min (c.g .HOSTIF_HOQ_SRC_VEC f q) (vecCount f - 1) = 15 ∧ c.g .MSIX_DATA_MASK f 15 = 0 ∧ f ∉ c.d3)) = true ∧
    (let s := st { rg {  } { cnt := 1, first := 4999000 } [(.HOSTIF_HOQ_MOD_TIME, 33, 15, 1), (.HOSTIF_HOQ_SRC_VEC, 33, 15, 31), (.MSIX_DATA_MASK, 33, 15, 1)] with fresh := 0 }; let c := s.chip; let f := 33; let q := 15; let x := c.outRing f q; decide (c.g .HOSTIF_HOQ_BASE_EN f q = 1 ∧ x.cnt ≠ 0 ∧ c.g .HOSTIF_HOQ_MOD_TIME f q ≠ 0 ∧ x.first + 1000 * c.g .HOSTIF_HOQ_MOD_TIME f q ≤ c.up ∧ min (c.g .HOSTIF_HOQ_SRC_VEC f q) (vecCount f - 1) = 15 ∧ c.g .MSIX_DATA_MASK f 15 = 1 ∧ f ∉ c.d3)) = true := by
  decide +kernel

/-- Operands and states that meet the hypotheses of OutboundRings, clause by clause. -/
theorem test_hyps_OutboundRings_2 :
    (let s := st { rg {  } {  } [(.QP_QCFG_CKIND, 15, 1023, 3)] with fresh := 0 }; let c := s.chip; let f := 33; let q := 15; decide (c.ringFn (.vf 1 16) .HOSTIF_HOQ_BASE q = some f ∧ ¬ (c.ringReach f 15 = true ∧ c.g .QP_QCFG_CKIND 15 1023 = 4))) = true ∧
    (let s := st { rg {  } { head := 5 } [(.HOSTIF_HOQ_BASE_EN, 33, 15, 0), (.HOSTIF_HOQ_STAT_TAIL, 33, 15, 9)] with fresh := 0 }; let c := s.chip; let f := 33; let q := 15; decide (c.ringFn (.vf 1 16) .HOSTIF_HOQ_BASE q = some f ∧ c.ringReach f 15 = true ∧ c.g .QP_QCFG_CKIND 15 1023 = 4 ∧ c.g .HOSTIF_HOQ_BASE_EN f q = 0)) = true ∧
    (let s := st { rg {  } {  } [(.MSIX_DATA_MASK, 33, 15, 0), (⟨.MSIX_PBA, 63, 0⟩, 33, 0, 0)] with fresh := 0 }; let c := s.chip; let f := 33; decide (15 < vecCount f ∧ c.g .MSIX_DATA_MASK f 15 = 0)) = true ∧
    (let s := st { rg {  } {  } [(.MSIX_DATA_MASK, 33, 15, 1), (⟨.MSIX_PBA, 63, 0⟩, 33, 0, 0)] with fresh := 0 }; let c := s.chip; let f := 33; decide (c.g .MSIX_DATA_MASK f 15 = 1 ∧ bit (c.rd .MSIX_PBA f).toNat 15 = false ∧ f ∉ c.d3)) = true ∧
    (let s := st { rg {  } {  } [(.MSIX_DATA_MASK, 33, 15, 1), (⟨.MSIX_PBA, 63, 0⟩, 33, 0, 32768)] with fresh := 0 }; let c := s.chip; let f := 33; decide (c.g .MSIX_DATA_MASK f 15 = 1 ∧ bit (c.rd .MSIX_PBA f).toNat 15 = true ∧ f ∉ c.d3)) = true := by
  decide +kernel

/-- Operands and states that meet the hypotheses of FunctionsReset, clause by clause. -/
theorem test_hyps_FunctionsReset_1 :
    (let s := st { rg {  } {  } [] with fresh := 0 }; let c := s.chip; decide (c.locate (.vf 1 16) 0x90050 = c.locate (.vf 1 16) 0x90050 ∧ c.locate (.vf 1 16) 0xFFFFF8 = none)) = true ∧
    (let s := st { rg {  } {  } [] with fresh := 0 }; let c := s.chip; decide ((match c.locate (.vf 1 16) 0x90000 with | some l => l.reg == .HOSTIF_CTL && l.inst == 33 | none => false) = true ∧ True)) = true ∧
    (let s := st { rg {  } {  } [(.HOSTIF_HIQ_BASE_EN, 33, 15, 1), (.HOSTIF_HOQ_BASE_EN, 33, 15, 0)] with fresh := 0 }; let c := s.chip; let f := 33; decide ((match c.locate (.vf 1 16) 0x90008 with | some l => l.reg == .HOSTIF_WIN && l.inst == 33 | none => false) = true ∧ c.ringOn f = true)) = true ∧
    (let s := st { rg {  } {  } [(.HOSTIF_HIQ_BASE_EN, 33, 15, 0), (.HOSTIF_HOQ_BASE_EN, 33, 15, 0), (⟨.HOSTIF_WIN, 63, 0⟩, 33, 0, 2 ^ 63 + 1)] with fresh := 0 }; let c := s.chip; decide (c.locate (.vf 1 16) 0x9000C = some ⟨.HOSTIF_WIN, 33, 0, 4⟩ ∧ c.ringOn 33 = false ∧ c.runs 15 = false)) = true ∧
    (let s := st { rg {  } {  } [(.HOSTIF_HIQ_BASE_EN, 33, 15, 0), (.HOSTIF_HOQ_BASE_EN, 33, 15, 0)] with fresh := 0 }; let c := s.chip; let f := 33; decide ((match c.locate (.vf 1 16) 0x90008 with | some l => l.reg == .HOSTIF_WIN && l.inst == 33 | none => false) = true ∧ c.ringOn f = false ∧ c.runs 15 = false)) = true ∧
    (decide (2 ≤ 2)) = true ∧
    (decide (2 ≤ 2)) = true ∧
    (decide (2 ≤ 2)) = true ∧
    (decide (2 ≤ 2)) = true ∧
    (decide (2 ≤ 2 ∨ 1 < 1 ∨ 16 < 1)) = true ∧
    (decide (2 ≤ 1 ∨ 0 < 1 ∨ 16 < 0)) = true ∧
    (decide (2 ≤ 1 ∨ 17 < 1 ∨ 16 < 17)) = true := by
  decide +kernel

/-- Operands and states that meet the hypotheses of FunctionsReset, clause by clause. -/
theorem test_hyps_FunctionsReset_2 :
    (let s := st { rg { jobs := [jb 0 15] } {  } [(.HOSTIF_RWIN_EN, 0, 15, 1)] with fresh := 0, d3 := [33] }; let c := s.chip; let q := 15; decide (1 < 2 ∧ 1 ≤ 16 ∧ (∀ q ∈ List.range 64, ∀ j ∈ (c.inRing 33 q).jobs, j.kind = 0) ∧ c.xfers = [])) = true ∧
    (decide (1 < 2 ∧ 1 ≤ 16)) = true ∧
    (let s := st { rg { jobs := [jb 0 15] } {  } [(.HOSTIF_RWIN_EN, 0, 15, 1)] with fresh := 0, d3 := [33] }; let c := s.chip; let q := 15; decide (1 < 2 ∧ c.inRings.map Prod.fst = [ringKey 33 15] ∧ (∀ q ∈ List.range 64, ∀ j ∈ (c.inRing 33 q).jobs, j.kind = 0) ∧ c.xfers = [])) = true ∧
    (decide (1 < 2)) = true ∧
    (decide (1 < 2)) = true ∧
    (let s := st { rg { jobs := [jb 1 15] } {  } [(.HOSTIF_RWIN_EN, 0, 15, 1)] with fresh := 0, d3 := [33], boot := { perst := [1, 0], ready := [1] } }; let c := s.chip; decide (1 ∈ c.boot.perst)) = true ∧
    (let s := st { rg {  } {  } [] with fresh := 0 }; let c := s.chip; decide (1 ∉ c.boot.perst)) = true ∧
    (let s := st { rg {  } {  } [] with fresh := 0, boot := {  } }; let c := s.chip; decide (1 ∉ c.boot.perst ∨ c.boot.rmAt = none ∨ 1 ∈ c.boot.ready)) = true ∧
    (let s := st { rg {  } {  } [] with fresh := 0, boot := { perst := [1] } }; let c := s.chip; decide (1 ∉ c.boot.perst ∨ c.boot.rmAt = none ∨ 1 ∈ c.boot.ready)) = true ∧
    (let s := st { rg {  } {  } [] with fresh := 0, boot := { perst := [1], rmAt := some 0, ready := [1] } }; let c := s.chip; decide (1 ∉ c.boot.perst ∨ c.boot.rmAt = none ∨ 1 ∈ c.boot.ready)) = true ∧
    (let s := st { rg {  } {  } [] with fresh := 0, boot := { perst := [1], rmAt := some 0 } }; let c := s.chip; decide (1 ∈ c.boot.perst ∧ c.boot.rmAt ≠ none ∧ 1 ∉ c.boot.ready)) = true ∧
    (decide (34 ≤ 34)) = true := by
  decide +kernel

/-- Operands and states that meet the hypotheses of FunctionsReset, clause by clause. -/
theorem test_hyps_FunctionsReset_3 :
    (let s := st { rg { jobs := [jb 1 15] } {  } [(.HOSTIF_RWIN_EN, 0, 15, 1)] with fresh := 0, d3 := [33], boot := { perst := [1, 0], ready := [1] } }; let c := s.chip; decide (33 ∈ c.d3)) = true ∧
    (let s := st { rg {  } {  } [] with fresh := 0 }; let c := s.chip; decide (33 ∉ c.d3)) = true ∧
    (let s := st { rg {  } {  } [] with fresh := 0 }; let c := s.chip; decide (33 ∉ c.d3)) = true ∧
    (let s := st { rg {  } {  } [(⟨.MSIX_PBA, 63, 0⟩, 33, 0, 2 ^ 15), (.MSIX_DATA_MASK, 33, 15, 0)] with fresh := 0, d3 := [33] }; let c := s.chip; decide (33 ∈ c.d3 ∧ c.g .MSIX_DATA_MASK 33 15 = 0)) = true := by
  decide +kernel

/-- A chip whose hub has started: Ringmaster at 0, both pairs running, fields, start-up state. -/
def hb (l : List (Fld × Nat × Nat × Nat)) (b : BootS := { rmAt := some 0 }) : Chip :=
  { chip ([(.BOOT_STAT_PAIR0_OK, 0, 0, 1), (.BOOT_STAT_PAIR1_OK, 0, 0, 1)] ++ l) with boot := b }

/-- One step of memReady, its results from the rules that its meaning cites. -/
theorem test_step_memReady :
    (let s := st { hb [(.BOOT_STAT_STAGE, 0, 0, 3)] { rmAt := some 0 } with fresh := 0, mem := [(5, 3), (2 * 2 ^ 60 + 7, 9)] } on; match execMemReady s with | .next t => decide (t.chip.g .BOOT_STAT_MEM_READY 0 = 1 ∧ t.chip.g .BOOT_STAT_STAGE 0 = 4 ∧ t.chip.byte (2 * 2 ^ 60 + 7) = 0 ∧ t.chip.byte 5 = 3) | _ => false) = true := by
  decide +kernel

/-- One step of lockstepMismatch, its results from the rules that its meaning cites. -/
theorem test_step_lockstepMismatch :
    (let s := st { hb [(.BOOT_STAT_ACTIVE_PAIR, 0, 0, 0), (.BOOT_STAT_PAIR1_OK, 0, 0, 1), (.INT_CNT_COUNT, 0, 0, 2 ^ 64 - 1)] { rmAt := some 0 } with fresh := 0 } on; match execLockstepMismatch 0 s with | .next t => decide (t.chip.g .BOOT_STAT_PAIR0_OK 0 = 0 ∧ t.chip.g .BOOT_STAT_PAIR1_OK 0 = 1 ∧ t.chip.g .INT_CNT_COUNT 0 0 = 0 ∧ t.chip.g .BOOT_STAT_ACTIVE_PAIR 0 = 1) | _ => false) = true := by
  decide +kernel

/-- One step of coldStart, its results from the rules that its meaning cites. -/
theorem test_step_coldStart :
    (let s := st { hb [] {} with fresh := 0, flash := { prot := none, boot := some { boots := 2 ^ 32 - 1 } } } { supply := .precharge }; match execColdStart s with | .next t => decide (t.chip.g .BOOT_STAT_PROT_LOST 0 = 1 ∧ t.chip.g .BOOT_STAT_STAGE 0 = 5) | _ => false) = true := by
  decide +kernel

/-- One step of bootSetpref, its results from the rules that its meaning cites. -/
theorem test_step_bootSetpref :
    (let s := st { hb [] { rmAt := some 0 } with fresh := 0 } on; match execBootSetpref .rm 3 s with | .next t => decide (t.chip.g .BOOT_CMD_SEL 0 = 1 ∧ t.chip.g .BOOT_STAT_PREF 0 = 1) | _ => false) = true := by
  decide +kernel

/-- Operands and states that meet the hypotheses of StartUp, clause by clause. -/
theorem test_hyps_StartUp_1 :
    (let s := st { hb [] {} with fresh := 0 } { supply := .off }; let c := s.chip; decide (¬ ((s.pwr.supply = .precharge ∨ s.pwr.supply = .on) ∧ c.g .BOOT_STAT_STAGE 0 = 0))) = true ∧
    (let s := st { hb [] {} with fresh := 0 } { supply := .tripped }; let c := s.chip; decide (¬ ((s.pwr.supply = .precharge ∨ s.pwr.supply = .on) ∧ c.g .BOOT_STAT_STAGE 0 = 0))) = true ∧
    (let s := st { hb [(.BOOT_STAT_STAGE, 0, 0, 1)] {} with fresh := 0 } { supply := .on }; let c := s.chip; decide (¬ ((s.pwr.supply = .precharge ∨ s.pwr.supply = .on) ∧ c.g .BOOT_STAT_STAGE 0 = 0))) = true ∧
    (let s := st { hb [(.BOOT_STAT_STAGE, 0, 0, 5)] {} with fresh := 0 } { supply := .precharge }; let c := s.chip; decide (¬ ((s.pwr.supply = .precharge ∨ s.pwr.supply = .on) ∧ c.g .BOOT_STAT_STAGE 0 = 0))) = true ∧
    (let s := st { hb [] {} with fresh := 0, flash := { prot := none, boot := some { boots := 2 ^ 32 - 1 } } } { supply := .precharge }; let c := s.chip; decide ((s.pwr.supply = .precharge ∨ s.pwr.supply = .on) ∧ c.g .BOOT_STAT_STAGE 0 = 0 ∧ c.imageCheck.1 ≠ 0)) = true ∧
    (let s := st { hb [] {} with fresh := 0, flash := { prot := none, boot := some { boots := 2 ^ 32 - 1 } } } { supply := .on }; let c := s.chip; decide ((s.pwr.supply = .precharge ∨ s.pwr.supply = .on) ∧ c.g .BOOT_STAT_STAGE 0 = 0 ∧ c.imageCheck.1 ≠ 0)) = true ∧
    (let s := st { hb [] {} with fresh := 0, flash := { prot := some {}, boot := some { boots := 7 } } } on; let c := s.chip; let b := c.bootCtl; decide (s.pwr.supply = .on ∧ c.g .BOOT_STAT_STAGE 0 = 0 ∧ c.slotCheck b.pref ≠ 0 ∧ c.slotCheck (1 - b.pref) ≠ 0)) = true ∧
    (let s := st { hb [(.BOOT_STAT_STAGE, 0, 0, 2)] { rmAt := some 0 } with fresh := 0 } { supply := .on }; let c := s.chip; decide (let st := c.g .BOOT_STAT_STAGE 0; ¬ (st = 3 ∨ st = 6) ∨ s.pwr.supply ≠ .on)) = true ∧
    (let s := st { hb [(.BOOT_STAT_STAGE, 0, 0, 4)] { rmAt := some 0 } with fresh := 0 } { supply := .on }; let c := s.chip; decide (let st := c.g .BOOT_STAT_STAGE 0; ¬ (st = 3 ∨ st = 6) ∨ s.pwr.supply ≠ .on)) = true ∧
    (let s := st { hb [(.BOOT_STAT_STAGE, 0, 0, 3)] { rmAt := some 0 } with fresh := 0 } { supply := .precharge }; let c := s.chip; decide (let st := c.g .BOOT_STAT_STAGE 0; ¬ (st = 3 ∨ st = 6) ∨ s.pwr.supply ≠ .on)) = true ∧
    (let s := st { hb [(.BOOT_STAT_STAGE, 0, 0, 3)] { rmAt := some 0 } with fresh := 0, mem := [(5, 3), (2 * 2 ^ 60 + 7, 9)] } on; let c := s.chip; decide ((c.g .BOOT_STAT_STAGE 0 = 3 ∨ c.g .BOOT_STAT_STAGE 0 = 6) ∧ s.pwr.supply = .on ∧ (∀ p ∈ List.range 16, (c.partS p).waiting = false))) = true ∧
    (let s := st { hb [(.BOOT_STAT_STAGE, 0, 0, 6)] { rmAt := some 0 } with fresh := 0, mem := [(5, 3), (2 * 2 ^ 60 + 7, 9)] } on; let c := s.chip; decide ((c.g .BOOT_STAT_STAGE 0 = 3 ∨ c.g .BOOT_STAT_STAGE 0 = 6) ∧ s.pwr.supply = .on ∧ (∀ p ∈ List.range 16, (c.partS p).waiting = false))) = true := by
  decide +kernel

/-- Operands and states that meet the hypotheses of StartUp, clause by clause. -/
theorem test_hyps_StartUp_2 :
    (let s := st { hb [] {} with fresh := 0 } on; let c := s.chip; decide (Fn.rm ≠ .rm ∨ c.boot.rmAt = none)) = true ∧
    (let s := st { hb [] { rmAt := some 0 } with fresh := 0 } on; let c := s.chip; decide (Fn.pf 1 ≠ .rm ∨ c.boot.rmAt = none)) = true ∧
    (let s := st { hb [(.BOOT_STAT_SLOT, 0, 0, 1)] { rmAt := some 0 } with fresh := 0, flash := { boot := some { attA := 3, attB := 2, minSvn := 5, revoked := [4] } } } on; let c := s.chip; decide (c.boot.rmAt ≠ none)) = true ∧
    (let s := st { hb [] { rmAt := some 0 } with fresh := 0 } on; let c := s.chip; decide (Fn.rm ≠ .rm ∨ c.boot.alive = false)) = true ∧
    (let s := st { hb [] { rmAt := some 0, alive := true } with fresh := 0 } on; let c := s.chip; decide (Fn.pf 0 ≠ .rm ∨ c.boot.alive = false)) = true ∧
    (let s := st { hb [(.BOOT_VER_FW_SVN, 0, 0, 65535)] { rmAt := some 0, alive := true, revoke0 := true } with fresh := 0, flash := { boot := some { attA := 3, attB := 2, minSvn := 5, revoked := [4] } } } on; let c := s.chip; decide (c.boot.alive = true)) = true ∧
    (let s := st { hb [(.BOOT_VER_FW_SVN, 0, 0, 4)] { rmAt := some 0, alive := true, revoke0 := false } with fresh := 0, flash := { boot := some { attA := 3, attB := 2, minSvn := 5, revoked := [4] } } } on; let c := s.chip; decide (c.boot.alive = true)) = true ∧
    (let s := st { hb [] {} with fresh := 0 } on; let c := s.chip; decide (c.bootFn .rm = false)) = true ∧
    (let s := st { hb [] { rmAt := some 0 } with fresh := 0 } on; let c := s.chip; decide (c.bootFn (.vf 0 16) = false)) = true ∧
    (let s := st { hb [] { rmAt := some 0 } with fresh := 0 } on; let c := s.chip; decide (c.bootFn .rm = true)) = true ∧
    (let s := st { hb [] { rmAt := some 0 } with fresh := 0 } on; let c := s.chip; decide (c.bootFn (.pf 1) = true)) = true ∧
    (decide (2 ≤ 2)) = true := by
  decide +kernel

/-- Operands and states that meet the hypotheses of StartUp, clause by clause. -/
theorem test_hyps_StartUp_3 :
    (let s := st { hb [] {} with fresh := 0 } on; let c := s.chip; decide (c.boot.rmAt = none)) = true ∧
    (let s := st { hb [(.BOOT_STAT_PAIR1_OK, 0, 0, 0)] { rmAt := some 0 } with fresh := 0 } on; let c := s.chip; decide (c.boot.rmAt ≠ none ∧ c.g .BOOT_STAT_PAIR1_OK 0 = 0)) = true ∧
    (let s := st { hb [(.BOOT_STAT_ACTIVE_PAIR, 0, 0, 0), (.BOOT_STAT_PAIR1_OK, 0, 0, 1), (.INT_CNT_COUNT, 0, 0, 2 ^ 64 - 1)] { rmAt := some 0 } with fresh := 0 } on; let c := s.chip; decide (c.boot.rmAt ≠ none ∧ c.g .BOOT_STAT_PAIR0_OK 0 = 1)) = true ∧
    (let s := st { hb [(.BOOT_STAT_ACTIVE_PAIR, 0, 0, 0), (.BOOT_STAT_PAIR1_OK, 0, 0, 0), (.INT_CNT_COUNT, 0, 0, 2 ^ 64 - 1)] { rmAt := some 0 } with fresh := 0 } on; let c := s.chip; decide (c.boot.rmAt ≠ none ∧ c.g .BOOT_STAT_PAIR0_OK 0 = 1)) = true ∧
    (let s := st { hb [(.BOOT_STAT_ACTIVE_PAIR, 0, 0, 1), (.BOOT_STAT_PAIR1_OK, 0, 0, 1), (.INT_CNT_COUNT, 0, 0, 2 ^ 64 - 1)] { rmAt := some 0 } with fresh := 0 } on; let c := s.chip; decide (c.boot.rmAt ≠ none ∧ c.g .BOOT_STAT_PAIR0_OK 0 = 1)) = true ∧
    (let s := st { hb [(.BOOT_STAT_ACTIVE_PAIR, 0, 0, 1), (.BOOT_STAT_PAIR0_OK, 0, 0, 1), (.INT_CNT_COUNT, 0, 0, 2 ^ 64 - 1)] { rmAt := some 0 } with fresh := 0 } on; let c := s.chip; decide (c.boot.rmAt ≠ none ∧ c.g .BOOT_STAT_PAIR1_OK 0 = 1)) = true ∧
    (let s := st { hb [(.BOOT_STAT_ACTIVE_PAIR, 0, 0, 0), (.BOOT_STAT_PAIR0_OK, 0, 0, 1), (.INT_CNT_COUNT, 0, 0, 2 ^ 64 - 1)] { rmAt := some 0 } with fresh := 0 } on; let c := s.chip; decide (c.boot.rmAt ≠ none ∧ c.g .BOOT_STAT_PAIR1_OK 0 = 1)) = true ∧
    (let s := st { hb [] { rmAt := some 0 } with fresh := 0 } on; let c := s.chip; decide (c.boot.waitId = none)) = true ∧
    (let s := st { hb [] { waitId := some 8 } with fresh := 0, up := 7 } on; let c := s.chip; decide (c.up < 8)) = true ∧
    (let s := st { hb [] { waitId := some 7 } with fresh := 0, up := 7 } on; let c := s.chip; decide (7 ≤ c.up)) = true := by
  decide +kernel

/-- Operands and states that meet the hypotheses of ResetsAndFlash, clause by clause. -/
theorem test_hyps_ResetsAndFlash_1 :
    (let s := st { hb [] { rmAt := some 0, alive := true } with fresh := 0, up := 10000000000 } on; let c := s.chip; decide (c.boot.alive = true ∨ c.boot.rmAt = none ∨ c.boot.rmAt = some 1 ∧ c.up < 1 + 10 ^ 10)) = true ∧
    (let s := st { hb [] {} with fresh := 0, up := 10000000000 } on; let c := s.chip; decide (c.boot.alive = true ∨ c.boot.rmAt = none ∨ c.boot.rmAt = some 1 ∧ c.up < 1 + 10 ^ 10)) = true ∧
    (let s := st { hb [] { rmAt := some 1 } with fresh := 0, up := 10000000000 } on; let c := s.chip; decide (c.boot.alive = true ∨ c.boot.rmAt = none ∨ c.boot.rmAt = some 1 ∧ c.up < 1 + 10 ^ 10)) = true ∧
    (let s := st { hb [(.QP_QCFG_EN, 0, 1023, 1), (.HOSTIF_WIN_EN, 33, 0, 1), (.HOSTIF_WINSZ_PAGES, 1, 0, 4), (.HUB_SEED_SEED, 3, 0, 77), (.PART_TBL_VALID, 15, 0, 1), (⟨.CHG_SEQ, 63, 0⟩, 0, 0, 9), (.MTR_EPOCH_BOOTS, 16, 0, 5), (.PART_STAT_STATE, 0, 0, 1), (.PART_STAT_STATE, 1, 0, 2), (.PART_STAT_STATE, 2, 0, 5), (.PART_STAT_STATE, 3, 0, 6), (.PART_STAT_STATE, 15, 0, 1)] { rmAt := some 0 } with fresh := 0, mem := [(5, 6), (2 * 2 ^ 60, 4)], inRings := [(0, {})], outRings := [(0, {})], up := 10 ^ 10 } { on with plim := 2000, clk := [(0, { cur := 13 })] }; let c := s.chip; decide (c.boot.rmAt = some 0 ∧ c.boot.alive = false ∧ 0 + 10 ^ 10 ≤ c.up ∧ (∀ p ∈ List.range 16, c.g .PART_STAT_STATE p ≠ 3 ∧ c.g .PART_STAT_STATE p ≠ 4))) = true ∧
    (let s := st { hb [(.QP_QCFG_EN, 0, 1023, 1), (.HOSTIF_WIN_EN, 33, 0, 1), (.HOSTIF_WINSZ_PAGES, 1, 0, 4), (.HUB_SEED_SEED, 3, 0, 77), (.PART_TBL_VALID, 15, 0, 1), (⟨.CHG_SEQ, 63, 0⟩, 0, 0, 9), (.MTR_EPOCH_BOOTS, 16, 0, 5), (.PART_STAT_STATE, 0, 0, 1), (.PART_STAT_STATE, 1, 0, 2), (.PART_STAT_STATE, 2, 0, 5), (.PART_STAT_STATE, 3, 0, 6), (.PART_STAT_STATE, 15, 0, 1), (.BOOT_STAT_STAGE, 0, 0, 4)] { rmAt := some 0 } with fresh := 0, mem := [(5, 6), (2 * 2 ^ 60, 4)], inRings := [(0, {})], outRings := [(0, {})], up := 10 ^ 10 } { on with plim := 2000, clk := [(0, { cur := 13 })] }; let c := s.chip; decide (c.bootFn .rm = true ∧ c.g .BOOT_STAT_STAGE 0 ≠ 6)) = true ∧
    (let s := st { hb [(.QP_QCFG_EN, 0, 1023, 1), (.HOSTIF_WIN_EN, 33, 0, 1), (.HOSTIF_WINSZ_PAGES, 1, 0, 4), (.HUB_SEED_SEED, 3, 0, 77), (.PART_TBL_VALID, 15, 0, 1), (⟨.CHG_SEQ, 63, 0⟩, 0, 0, 9), (.MTR_EPOCH_BOOTS, 16, 0, 5), (.PART_STAT_STATE, 0, 0, 1), (.PART_STAT_STATE, 1, 0, 2), (.PART_STAT_STATE, 2, 0, 5), (.PART_STAT_STATE, 3, 0, 6), (.PART_STAT_STATE, 15, 0, 1), (.BOOT_STAT_STAGE, 0, 0, 4)] { rmAt := some 0 } with fresh := 0, mem := [(5, 6), (2 * 2 ^ 60, 4)], inRings := [(0, {})], outRings := [(0, {})], up := 10 ^ 10 } { on with plim := 2000, clk := [(0, { cur := 13 })] }; let c := s.chip; decide (c.bootFn (.pf 0) = true ∧ c.g .BOOT_STAT_STAGE 0 ≠ 6)) = true ∧
    (let s := st { hb [(.QP_QCFG_EN, 0, 1023, 1), (.HOSTIF_WIN_EN, 33, 0, 1), (.HOSTIF_WINSZ_PAGES, 1, 0, 4), (.HUB_SEED_SEED, 3, 0, 77), (.PART_TBL_VALID, 15, 0, 1), (⟨.CHG_SEQ, 63, 0⟩, 0, 0, 9), (.MTR_EPOCH_BOOTS, 16, 0, 5), (.PART_STAT_STATE, 0, 0, 3), (.PART_STAT_STATE, 15, 0, 4)] { rmAt := some 0 } with fresh := 0, mem := [(5, 6), (2 * 2 ^ 60, 4)], inRings := [(0, {})], outRings := [(0, {})], up := 10 ^ 10 } { on with plim := 2000, clk := [(0, { cur := 13 })] }; let c := s.chip; decide (c.boot.rmAt = some 0 ∧ c.boot.alive = false ∧ 0 + 10 ^ 10 ≤ c.up)) = true ∧
    (let s := st { hb [(.QP_QCFG_EN, 0, 1023, 1), (.HOSTIF_WIN_EN, 33, 0, 1), (.HOSTIF_WINSZ_PAGES, 1, 0, 4), (.HUB_SEED_SEED, 3, 0, 77), (.PART_TBL_VALID, 15, 0, 1), (⟨.CHG_SEQ, 63, 0⟩, 0, 0, 9), (.MTR_EPOCH_BOOTS, 16, 0, 5), (.PART_STAT_STATE, 0, 0, 3), (.PART_STAT_STATE, 15, 0, 4), (.BOOT_STAT_STAGE, 0, 0, 4)] { rmAt := some 0 } with fresh := 0, mem := [(5, 6), (2 * 2 ^ 60, 4)], inRings := [(0, {})], outRings := [(0, {})], up := 10 ^ 10 } { on with plim := 2000, clk := [(0, { cur := 13 })] }; let c := s.chip; decide (c.bootFn .rm = true ∧ c.g .BOOT_STAT_STAGE 0 ≠ 6)) = true ∧
    (let s := st { hb [(.QP_QCFG_EN, 0, 1023, 1), (.HOSTIF_WIN_EN, 33, 0, 1), (.HOSTIF_WINSZ_PAGES, 1, 0, 4), (.HUB_SEED_SEED, 3, 0, 77), (.PART_TBL_VALID, 15, 0, 1), (⟨.CHG_SEQ, 63, 0⟩, 0, 0, 9), (.MTR_EPOCH_BOOTS, 16, 0, 5), (.PART_STAT_STATE, 0, 0, 3), (.PART_STAT_STATE, 15, 0, 4), (.BOOT_STAT_STAGE, 0, 0, 4)] { rmAt := some 0 } with fresh := 0, mem := [(5, 6), (2 * 2 ^ 60, 4)], inRings := [(0, {})], outRings := [(0, {})], up := 10 ^ 10 } { on with plim := 2000, clk := [(0, { cur := 13 })] }; let c := s.chip; decide (c.bootFn (.pf 0) = true ∧ c.g .BOOT_STAT_STAGE 0 ≠ 6)) = true ∧
    (let s := st { hb [] {} with fresh := 0 } on; let c := s.chip; decide (c.bootFn .rm = false)) = true ∧
    (let s := st { hb [] { rmAt := some 0 } with fresh := 0 } on; let c := s.chip; decide (c.bootFn (.vf 1 1) = false)) = true ∧
    (let s := st { hb [(.BOOT_STAT_STAGE, 0, 0, 6)] { rmAt := some 0 } with fresh := 0 } on; let c := s.chip; decide (c.g .BOOT_STAT_STAGE 0 = 6)) = true := by
  decide +kernel

/-- Operands and states that meet the hypotheses of ResetsAndFlash, clause by clause. -/
theorem test_hyps_ResetsAndFlash_2 :
    (let s := st { hb [(.QP_QCFG_EN, 0, 1023, 1), (.HOSTIF_WIN_EN, 33, 0, 1), (.HOSTIF_WINSZ_PAGES, 1, 0, 4), (.HUB_SEED_SEED, 3, 0, 77), (.PART_TBL_VALID, 15, 0, 1), (⟨.CHG_SEQ, 63, 0⟩, 0, 0, 9), (.MTR_EPOCH_BOOTS, 16, 0, 5), (.PART_STAT_STATE, 0, 0, 3), (⟨.THM_SENSOR, 15, 0⟩, 0, 23, 99), (.PWR_TRIPLOG_CAUSE, 0, 0, 3)] { rmAt := some 0 } with fresh := 0, mem := [(5, 6), (2 * 2 ^ 60, 4)], inRings := [(0, {})], outRings := [(0, {})], up := 10 ^ 10, flash := { boot := some { pref := 1 } } } { on with plim := 2000, caps := [(0, 12)], hot := [1], joules := 4, mv := 5 }; let c := s.chip; decide (c.bootFn (.pf 1) = true ∧ c.boot.fw = none)) = true ∧
    (let s := st { hb [] {} with fresh := 0 } on; let c := s.chip; decide (c.bootFn .rm = false ∨ c.g .BOOT_FWCTL_GO 0 = 1)) = true ∧
    (let s := st { hb [(.BOOT_FWCTL_PAGE, 0, 0, 1), (.BOOT_FWCTL_ERASE, 0, 0, 0), (.BOOT_FWCTL_GO, 0, 0, 1), (.BOOT_STAT_SLOT, 0, 0, 0)] { rmAt := some 0 } with fresh := 0 } on; let c := s.chip; decide (c.bootFn .rm = false ∨ c.g .BOOT_FWCTL_GO 0 = 1)) = true ∧
    (let s := st { hb [(.BOOT_FWCTL_PAGE, 0, 0, 6143), (.BOOT_FWCTL_ERASE, 0, 0, 1), (.BOOT_FWCTL_GO, 0, 0, 0), (.BOOT_STAT_SLOT, 0, 0, 0)] { rmAt := some 0, fw := some { bmc := true, erase := true, addr := 0, len := 4096 } } with fresh := 0 } on; let c := s.chip; decide (c.bootFn .rm = true ∧ c.g .BOOT_FWCTL_GO 0 = 0 ∧ c.boot.fw ≠ none)) = true ∧
    (let s := st { hb [(.BOOT_FWCTL_PAGE, 0, 0, 6144), (.BOOT_FWCTL_ERASE, 0, 0, 1), (.BOOT_FWCTL_GO, 0, 0, 0), (.BOOT_STAT_SLOT, 0, 0, 0)] { rmAt := some 0 } with fresh := 0 } on; let c := s.chip; decide (c.bootFn .rm = true ∧ c.g .BOOT_FWCTL_GO 0 = 0 ∧ c.boot.fw = none ∧ 6143 < c.g .BOOT_FWCTL_PAGE 0)) = true ∧
    (let s := st { hb [(.BOOT_FWCTL_PAGE, 0, 0, 6143), (.BOOT_FWCTL_ERASE, 0, 0, 1), (.BOOT_FWCTL_GO, 0, 0, 0), (.BOOT_STAT_SLOT, 0, 0, 0), (⟨.BOOT_FWBUF, 63, 0⟩, 0, 511, 5)] { rmAt := some 0 } with fresh := 0 } on; let c := s.chip; decide (c.bootFn .rm = true ∧ c.g .BOOT_FWCTL_GO 0 = 0 ∧ c.boot.fw = none ∧ (false = true ∨ c.g .BOOT_FWCTL_PAGE 0 ≤ 6143))) = true ∧
    (let s := st { hb [(.BOOT_FWCTL_PAGE, 0, 0, 0), (.BOOT_FWCTL_ERASE, 0, 0, 1), (.BOOT_FWCTL_GO, 0, 0, 0), (.BOOT_STAT_SLOT, 0, 0, 1), (⟨.BOOT_FWBUF, 63, 0⟩, 0, 511, 5)] { rmAt := some 0 } with fresh := 0 } on; let c := s.chip; decide (c.bootFn .rm = true ∧ c.g .BOOT_FWCTL_GO 0 = 0 ∧ c.boot.fw = none ∧ (false = true ∨ c.g .BOOT_FWCTL_PAGE 0 ≤ 6143))) = true ∧
    (let s := st { hb [] {} with fresh := 0 } on; let c := s.chip; decide (c.bootFn .rm = false ∨ c.g .BOOT_FWCTL_GO 0 = 1)) = true ∧
    (let s := st { hb [(.BOOT_FWCTL_PAGE, 0, 0, 1), (.BOOT_FWCTL_ERASE, 0, 0, 0), (.BOOT_FWCTL_GO, 0, 0, 1), (.BOOT_STAT_SLOT, 0, 0, 0)] { rmAt := some 0 } with fresh := 0 } on; let c := s.chip; decide (c.bootFn .rm = false ∨ c.g .BOOT_FWCTL_GO 0 = 1)) = true ∧
    (let s := st { hb [(.BOOT_FWCTL_PAGE, 0, 0, 6143), (.BOOT_FWCTL_ERASE, 0, 0, 0), (.BOOT_FWCTL_GO, 0, 0, 0), (.BOOT_STAT_SLOT, 0, 0, 0)] { rmAt := some 0, fw := some { bmc := true, erase := true, addr := 0, len := 4096 } } with fresh := 0 } on; let c := s.chip; decide (c.bootFn .rm = true ∧ c.g .BOOT_FWCTL_GO 0 = 0 ∧ c.boot.fw ≠ none)) = true ∧
    (let s := st { hb [(.BOOT_FWCTL_PAGE, 0, 0, 6144), (.BOOT_FWCTL_ERASE, 0, 0, 0), (.BOOT_FWCTL_GO, 0, 0, 0), (.BOOT_STAT_SLOT, 0, 0, 0), (⟨.BOOT_FWBUF, 63, 0⟩, 0, 511, 5)] { rmAt := some 0 } with fresh := 0 } on; let c := s.chip; decide (c.bootFn .rm = true ∧ c.g .BOOT_FWCTL_GO 0 = 0 ∧ c.boot.fw = none ∧ (true = true ∨ c.g .BOOT_FWCTL_PAGE 0 ≤ 6143))) = true ∧
    (let s := st { hb [(.BOOT_FWCTL_PAGE, 0, 0, 0), (.BOOT_FWCTL_ERASE, 0, 0, 0), (.BOOT_FWCTL_GO, 0, 0, 0), (.BOOT_STAT_SLOT, 0, 0, 1), (⟨.BOOT_FWBUF, 63, 0⟩, 0, 511, 5)] { rmAt := some 0 } with fresh := 0 } on; let c := s.chip; decide (c.bootFn .rm = true ∧ c.g .BOOT_FWCTL_GO 0 = 0 ∧ c.boot.fw = none ∧ (true = true ∨ c.g .BOOT_FWCTL_PAGE 0 ≤ 6143))) = true := by
  decide +kernel

/-- Operands and states that meet the hypotheses of ResetsAndFlash, clause by clause. -/
theorem test_hyps_ResetsAndFlash_3 :
    (let s := st { hb [] { rmAt := some 0 } with fresh := 0 } on; let c := s.chip; decide (c.boot.fw = none)) = true ∧
    (let j : FwJob := { bmc := true, erase := true, addr := 33558528, len := 4096, data := [] }; let s := st { hb [] { rmAt := some 0, fw := some j } with fresh := 0, flash := { bytes := [(0x2001001, 9)], boot := some {} } } on; let c := s.chip; decide (c.boot.fw = some j ∧ (j.erase || j.inImage || (c.flash.read j.addr j.data.length).all (· == 0xFF)) = true)) = true ∧
    (let j : FwJob := { bmc := true, erase := false, addr := imageBase, len := 0, data := [1, 2] }; let s := st { hb [] { rmAt := some 0, fw := some j } with fresh := 0, flash := { bytes := [(0x2001001, 9)], boot := some {} } } on; let c := s.chip; decide (c.boot.fw = some j ∧ (j.erase || j.inImage || (c.flash.read j.addr j.data.length).all (· == 0xFF)) = true)) = true ∧
    (let j : FwJob := { bmc := true, erase := false, addr := 33558528, len := 0, data := [1, 2] }; let s := st { hb [] { rmAt := some 0, fw := some j } with fresh := 0, flash := { bytes := [(0x2001001, 9)], boot := some {} } } on; let c := s.chip; decide (c.boot.fw = some j ∧ (j.erase || j.inImage || (c.flash.read j.addr j.data.length).all (· == 0xFF)) = false)) = true ∧
    (let j : FwJob := { bmc := true, erase := false, addr := 33562624, len := 0, data := [1, 2] }; let s := st { hb [] { rmAt := some 0, fw := some j } with fresh := 0, flash := { bytes := [(0x2001001, 9)], boot := some {} } } on; let c := s.chip; decide (c.boot.fw = some j ∧ (j.erase || j.inImage || (c.flash.read j.addr j.data.length).all (· == 0xFF)) = true)) = true ∧
    (let j : FwJob := { bmc := false, erase := true, addr := 33558528, len := 4096, data := [] }; let s := st { hb [] { rmAt := some 0, fw := some j } with fresh := 0, flash := { bytes := [(0x2001001, 9)], boot := some {} } } on; let c := s.chip; decide (c.boot.fw = some j ∧ (j.erase || j.inImage || (c.flash.read j.addr j.data.length).all (· == 0xFF)) = true)) = true ∧
    (let j : FwJob := { bmc := false, erase := false, addr := imageBase, len := 0, data := [1, 2] }; let s := st { hb [] { rmAt := some 0, fw := some j } with fresh := 0, flash := { bytes := [(0x2001001, 9)], boot := some {} } } on; let c := s.chip; decide (c.boot.fw = some j ∧ (j.erase || j.inImage || (c.flash.read j.addr j.data.length).all (· == 0xFF)) = true)) = true ∧
    (let j : FwJob := { bmc := false, erase := false, addr := 33558528, len := 0, data := [1, 2] }; let s := st { hb [] { rmAt := some 0, fw := some j } with fresh := 0, flash := { bytes := [(0x2001001, 9)], boot := some {} } } on; let c := s.chip; decide (c.boot.fw = some j ∧ (j.erase || j.inImage || (c.flash.read j.addr j.data.length).all (· == 0xFF)) = false)) = true ∧
    (let j : FwJob := { bmc := false, erase := false, addr := 33562624, len := 0, data := [1, 2] }; let s := st { hb [] { rmAt := some 0, fw := some j } with fresh := 0, flash := { bytes := [(0x2001001, 9)], boot := some {} } } on; let c := s.chip; decide (c.boot.fw = some j ∧ (j.erase || j.inImage || (c.flash.read j.addr j.data.length).all (· == 0xFF)) = true)) = true := by
  decide +kernel

/-- One step of mctpSetId, its results from the rules that its meaning cites. -/
theorem test_step_mctpSetId :
    (let req : List Byte := [255, 31]; let s := st { hb [] { rmAt := some 0 } with out := [.pin 1 true], cfg := { topo := some (2 * 2 ^ 16) } } on; match execMctpSetId req s with | .next t => decide (t.chip.g .FAB_ID_ID 0 = 8191 ∧ t.chip.g .FAB_ID_VALID 0 = 1 ∧ t.chip.g .FAB_CTL_LEN 0 = 0) | _ => false) = true := by
  decide +kernel

/-- One step of mctpReset, its results from the rules that its meaning cites. -/
theorem test_step_mctpReset :
    (let s := st { hb [] { rmAt := some 0 } with out := [.pin 1 true], mem := [(1, 1)] } on; match execMctpReset [1] s with | .next t => decide (t.pwr.supply = .on ∧ t.chip.g .BOOT_CAUSE_SOURCE 0 = 3 ∧ t.chip.g .BOOT_CAUSE_WARM 0 = 0) | _ => false) = true := by
  decide +kernel

/-- Operands and states that meet the hypotheses of ManagementBusGate, clause by clause. -/
theorem test_hyps_ManagementBusGate_1 :
    (let s := st { hb [] { rmAt := some 0 } with out := [.pin 1 true] } { supply := .off }; decide (s.pwr.supply = .off)) = true ∧
    (let s := st { hb [] { rmAt := some 0, fw := some { bmc := true, erase := true, addr := 0 } } with out := [.pin 1 true] } on; let c := s.chip; decide (s.pwr.supply ≠ .off ∧ c.mctpBusy = true)) = true ∧
    (let s := st { hb [] { rmAt := some 0 } with out := [.pin 1 true] } { supply := .off }; decide (s.pwr.supply = .off)) = true ∧
    (let s := st { hb [] { rmAt := some 0, fw := some { bmc := true, erase := true, addr := 0 } } with out := [.pin 1 true] } on; let c := s.chip; decide (s.pwr.supply ≠ .off ∧ c.mctpBusy = true)) = true ∧
    (let s := st { hb [] { rmAt := some 0 } with out := [.pin 1 true] } { supply := .tripped }; let c := s.chip; decide (s.pwr.supply = .tripped ∧ c.mctpBusy = false)) = true ∧
    (let s := st { hb [] {} with out := [.pin 1 true] } on; let c := s.chip; decide (s.pwr.supply ≠ .off ∧ s.pwr.supply ≠ .tripped ∧ c.mctpBusy = false ∧ c.rmRuns = false)) = true ∧
    (let s := st { hb [] { rmAt := some 0 } with out := [.pin 1 true] } { supply := .off }; decide (s.pwr.supply = .off)) = true ∧
    (let s := st { hb [] { rmAt := some 0, fw := some { bmc := true, erase := true, addr := 0 } } with out := [.pin 1 true] } on; let c := s.chip; decide (s.pwr.supply ≠ .off ∧ c.mctpBusy = true)) = true ∧
    (let s := st { hb [] { rmAt := some 0 } with out := [.pin 1 true] } { supply := .tripped }; let c := s.chip; decide (s.pwr.supply = .tripped ∧ c.mctpBusy = false)) = true ∧
    (let s := st { hb [] {} with out := [.pin 1 true] } on; let c := s.chip; decide (s.pwr.supply ≠ .off ∧ s.pwr.supply ≠ .tripped ∧ c.mctpBusy = false ∧ c.rmRuns = false)) = true ∧
    (let s := st { hb [] { rmAt := some 0 } with out := [.pin 1 true] } { supply := .off }; decide (s.pwr.supply = .off)) = true ∧
    (let s := st { hb [] { rmAt := some 0, fw := some { bmc := true, erase := true, addr := 0 } } with out := [.pin 1 true] } on; let c := s.chip; decide (s.pwr.supply ≠ .off ∧ c.mctpBusy = true)) = true := by
  decide +kernel

/-- Operands and states that meet the hypotheses of ManagementBusGate, clause by clause. -/
theorem test_hyps_ManagementBusGate_2 :
    (let s := st { hb [] { rmAt := some 0 } with out := [.pin 1 true] } { supply := .tripped }; let c := s.chip; decide (s.pwr.supply = .tripped ∧ c.mctpBusy = false)) = true ∧
    (let s := st { hb [] {} with out := [.pin 1 true] } on; let c := s.chip; decide (s.pwr.supply ≠ .off ∧ s.pwr.supply ≠ .tripped ∧ c.mctpBusy = false ∧ c.rmRuns = false)) = true ∧
    (let s := st { hb [] { rmAt := some 0 } with out := [.pin 1 true] } { supply := .off }; decide (s.pwr.supply = .off)) = true ∧
    (let s := st { hb [] { rmAt := some 0, fw := some { bmc := true, erase := true, addr := 0 } } with out := [.pin 1 true] } on; let c := s.chip; decide (s.pwr.supply ≠ .off ∧ c.mctpBusy = true)) = true ∧
    (let s := st { hb [] {} with out := [.pin 1 true] } on; let c := s.chip; decide (s.pwr.supply ≠ .off ∧ s.pwr.supply ≠ .tripped ∧ c.mctpBusy = false ∧ c.rmRuns = false)) = true ∧
    (let s := st { hb [] { rmAt := some 0 } with out := [.pin 1 true] } { supply := .off }; decide (s.pwr.supply = .off)) = true ∧
    (let s := st { hb [] { rmAt := some 0, fw := some { bmc := true, erase := true, addr := 0 } } with out := [.pin 1 true] } on; let c := s.chip; decide (s.pwr.supply ≠ .off ∧ c.mctpBusy = true)) = true ∧
    (let s := st { hb [] { rmAt := some 0 } with out := [.pin 1 true] } { supply := .off }; decide (s.pwr.supply = .off)) = true ∧
    (let s := st { hb [] { rmAt := some 0, fw := some { bmc := true, erase := true, addr := 0 } } with out := [.pin 1 true] } on; let c := s.chip; decide (s.pwr.supply ≠ .off ∧ c.mctpBusy = true)) = true ∧
    (let s := st { hb [] { rmAt := some 0 } with out := [.pin 1 true] } { supply := .tripped }; let c := s.chip; decide (s.pwr.supply = .tripped ∧ c.mctpBusy = false)) = true ∧
    (let s := st { hb [] {} with out := [.pin 1 true] } on; let c := s.chip; decide (s.pwr.supply ≠ .off ∧ s.pwr.supply ≠ .tripped ∧ c.mctpBusy = false ∧ c.rmRuns = false)) = true ∧
    (let s := st { hb [] { rmAt := some 0 } with out := [.pin 1 true] } { supply := .off }; decide (s.pwr.supply = .off)) = true := by
  decide +kernel

/-- Operands and states that meet the hypotheses of ManagementBusGate, clause by clause. -/
theorem test_hyps_ManagementBusGate_3 :
    (let s := st { hb [] { rmAt := some 0, fw := some { bmc := true, erase := true, addr := 0 } } with out := [.pin 1 true] } on; let c := s.chip; decide (s.pwr.supply ≠ .off ∧ c.mctpBusy = true)) = true ∧
    (let s := st { hb [] { rmAt := some 0 } with out := [.pin 1 true] } { supply := .tripped }; let c := s.chip; decide (s.pwr.supply = .tripped ∧ c.mctpBusy = false)) = true ∧
    (let s := st { hb [] { rmAt := some 0 } with out := [.pin 1 true] } { supply := .off }; decide (s.pwr.supply = .off)) = true ∧
    (let s := st { hb [] { rmAt := some 0, fw := some { bmc := true, erase := true, addr := 0 } } with out := [.pin 1 true] } on; let c := s.chip; decide (s.pwr.supply ≠ .off ∧ c.mctpBusy = true)) = true ∧
    (let s := st { hb [] { rmAt := some 0 } with out := [.pin 1 true] } { supply := .tripped }; let c := s.chip; decide (s.pwr.supply = .tripped ∧ c.mctpBusy = false)) = true ∧
    (let s := st { hb [] { rmAt := some 0 } with out := [.pin 1 true] } { supply := .off }; decide (s.pwr.supply = .off)) = true ∧
    (let s := st { hb [] { rmAt := some 0, fw := some { bmc := true, erase := true, addr := 0 } } with out := [.pin 1 true] } on; let c := s.chip; decide (s.pwr.supply ≠ .off ∧ c.mctpBusy = true)) = true ∧
    (let s := st { hb [] { rmAt := some 0 } with out := [.pin 1 true] } { supply := .tripped }; let c := s.chip; decide (s.pwr.supply = .tripped ∧ c.mctpBusy = false)) = true ∧
    (let s := st { hb [] { rmAt := some 0 } with out := [.pin 1 true] } { supply := .off }; decide (s.pwr.supply = .off)) = true ∧
    (let s := st { hb [] { rmAt := some 0, fw := some { bmc := true, erase := true, addr := 0 } } with out := [.pin 1 true] } on; let c := s.chip; decide (s.pwr.supply ≠ .off ∧ c.mctpBusy = true)) = true ∧
    (let s := st { hb [] { rmAt := some 0 } with out := [.pin 1 true] } { supply := .tripped }; let c := s.chip; decide (s.pwr.supply = .tripped ∧ c.mctpBusy = false)) = true ∧
    (let s := st { hb [] { rmAt := some 0 } with out := [.pin 1 true] } { supply := .off }; decide (s.pwr.supply = .off)) = true := by
  decide +kernel

/-- Operands and states that meet the hypotheses of ManagementBusGate, clause by clause. -/
theorem test_hyps_ManagementBusGate_4 :
    (let s := st { hb [] { rmAt := some 0, fw := some { bmc := true, erase := true, addr := 0 } } with out := [.pin 1 true] } on; let c := s.chip; decide (s.pwr.supply ≠ .off ∧ c.mctpBusy = true)) = true ∧
    (let s := st { hb [] { rmAt := some 0 } with out := [.pin 1 true] } { supply := .tripped }; let c := s.chip; decide (s.pwr.supply = .tripped ∧ c.mctpBusy = false)) = true ∧
    (let s := st { hb [] { rmAt := some 0 } with out := [.pin 1 true] } { supply := .off }; decide (s.pwr.supply = .off)) = true ∧
    (let s := st { hb [] { rmAt := some 0, fw := some { bmc := true, erase := true, addr := 0 } } with out := [.pin 1 true] } on; let c := s.chip; decide (s.pwr.supply ≠ .off ∧ c.mctpBusy = true)) = true ∧
    (let s := st { hb [] { rmAt := some 0 } with out := [.pin 1 true] } { supply := .tripped }; let c := s.chip; decide (s.pwr.supply = .tripped ∧ c.mctpBusy = false)) = true ∧
    (let req : List Byte := [0]; let s := st { hb [] { rmAt := some 0 } with out := [.pin 1 true] } on; let c := s.chip; decide (s.pwr.supply ≠ .off ∧ s.pwr.supply ≠ .tripped ∧ c.mctpBusy = false ∧ c.rmRuns = true ∧ req ≠ [])) = true ∧
    (let req : List Byte := [2]; let s := st { hb [] { rmAt := some 0 } with out := [.pin 1 true] } on; let c := s.chip; decide (s.pwr.supply ≠ .off ∧ s.pwr.supply ≠ .tripped ∧ c.mctpBusy = false ∧ c.rmRuns = true ∧ 2 ≤ numAt req 0 1)) = true ∧
    (let req : List Byte := [0, 0]; let s := st { hb [] { rmAt := some 0 } with out := [.pin 1 true] } on; let c := s.chip; decide (s.pwr.supply ≠ .off ∧ s.pwr.supply ≠ .tripped ∧ c.mctpBusy = false ∧ c.rmRuns = true ∧ req.length ≠ 1)) = true ∧
    (let req : List Byte := [0]; let s := st { hb [] { rmAt := some 0 } with out := [.pin 1 true] } on; let c := s.chip; decide (s.pwr.supply ≠ .off ∧ s.pwr.supply ≠ .tripped ∧ c.mctpBusy = false ∧ c.rmRuns = true ∧ req.length ≠ 2)) = true ∧
    (let req : List Byte := [0, 32]; let s := st { hb [] { rmAt := some 0 } with out := [.pin 1 true] } on; let c := s.chip; decide (s.pwr.supply ≠ .off ∧ s.pwr.supply ≠ .tripped ∧ c.mctpBusy = false ∧ c.rmRuns = true ∧ 8192 ≤ numAt req 0 2)) = true ∧
    (let req : List Byte := [17]; let s := st { hb [] { rmAt := some 0 } with out := [.pin 1 true] } on; let c := s.chip; decide (s.pwr.supply ≠ .off ∧ s.pwr.supply ≠ .tripped ∧ c.mctpBusy = false ∧ c.rmRuns = true ∧ 16 < numAt req 0 1)) = true ∧
    (let req : List Byte := []; let s := st { hb [] { rmAt := some 0 } with out := [.pin 1 true] } on; let c := s.chip; decide (s.pwr.supply ≠ .off ∧ s.pwr.supply ≠ .tripped ∧ c.mctpBusy = false ∧ c.rmRuns = true ∧ req.length ≠ 1)) = true := by
  decide +kernel

/-- Operands and states that meet the hypotheses of ManagementBusGate, clause by clause. -/
theorem test_hyps_ManagementBusGate_5 :
    (let req : List Byte := [24]; let s := st { hb [] { rmAt := some 0 } with out := [.pin 1 true] } on; let c := s.chip; decide (s.pwr.supply ≠ .off ∧ s.pwr.supply ≠ .tripped ∧ c.mctpBusy = false ∧ c.rmRuns = true ∧ 24 ≤ numAt req 0 1)) = true ∧
    (let req : List Byte := [1, 1]; let s := st { hb [] { rmAt := some 0 } with out := [.pin 1 true] } on; let c := s.chip; decide (s.pwr.supply ≠ .off ∧ s.pwr.supply ≠ .tripped ∧ c.mctpBusy = false ∧ c.rmRuns = true ∧ req.length ≠ 1)) = true ∧
    (let req : List Byte := [2]; let s := st { hb [] { rmAt := some 0 } with out := [.pin 1 true] } on; let c := s.chip; decide (s.pwr.supply ≠ .off ∧ s.pwr.supply ≠ .tripped ∧ c.mctpBusy = false ∧ c.rmRuns = true ∧ 2 ≤ numAt req 0 1)) = true ∧
    (let req : List Byte := []; let s := st { hb [] { rmAt := some 0 } with out := [.pin 1 true] } on; let c := s.chip; decide (s.pwr.supply ≠ .off ∧ s.pwr.supply ≠ .tripped ∧ c.mctpBusy = false ∧ c.rmRuns = true ∧ req.length ≠ 1)) = true ∧
    (let req : List Byte := [1, 0, 144, 7]; let s := st { hb [] { rmAt := some 0 } with out := [.pin 1 true] } on; let c := s.chip; decide (s.pwr.supply ≠ .off ∧ s.pwr.supply ≠ .tripped ∧ c.mctpBusy = false ∧ c.rmRuns = true ∧ req.length < 5)) = true ∧
    (let req : List Byte := [2, 0, 144, 7, 0, 0, 0]; let s := st { hb [] { rmAt := some 0 } with out := [.pin 1 true] } on; let c := s.chip; decide (s.pwr.supply ≠ .off ∧ s.pwr.supply ≠ .tripped ∧ c.mctpBusy = false ∧ c.rmRuns = true ∧ 2 ≤ numAt req 0 1)) = true ∧
    (let req : List Byte := [0, 255, 127, 7, 0, 1, 0]; let s := st { hb [] { rmAt := some 0 } with out := [.pin 1 true] } on; let c := s.chip; decide (s.pwr.supply ≠ .off ∧ s.pwr.supply ≠ .tripped ∧ c.mctpBusy = false ∧ c.rmRuns = true ∧ numAt req 1 4 < 0x78000)) = true ∧
    (let req : List Byte := [1, 0, 160, 7, 0, 1]; let s := st { hb [] { rmAt := some 0 } with out := [.pin 1 true] } on; let c := s.chip; decide (s.pwr.supply ≠ .off ∧ s.pwr.supply ≠ .tripped ∧ c.mctpBusy = false ∧ c.rmRuns = true ∧ 0x7A000 ≤ numAt req 1 4)) = true ∧
    (let req : List Byte := [1, 0, 0, 0]; let s := st { hb [] { rmAt := some 0 } with out := [.pin 1 true] } on; let c := s.chip; decide (s.pwr.supply ≠ .off ∧ s.pwr.supply ≠ .tripped ∧ c.mctpBusy = false ∧ c.rmRuns = true ∧ req.length < 5)) = true ∧
    (let req : List Byte := [3, 0, 0, 0, 0, 1]; let s := st { hb [] { rmAt := some 0 } with out := [.pin 1 true] } on; let c := s.chip; decide (s.pwr.supply ≠ .off ∧ s.pwr.supply ≠ .tripped ∧ c.mctpBusy = false ∧ c.rmRuns = true ∧ 3 ≤ numAt req 0 1)) = true ∧
    (let req : List Byte := [2, 0, 0, 0, 0]; let s := st { hb [] { rmAt := some 0 } with out := [.pin 1 true] } on; let c := s.chip; decide (s.pwr.supply ≠ .off ∧ s.pwr.supply ≠ .tripped ∧ c.mctpBusy = false ∧ c.rmRuns = true ∧ numAt req 0 1 ≠ 1 ∧ req.length = 5)) = true ∧
    (let req : List Byte := [0]; let s := st { hb [] { rmAt := some 0 } with out := [.pin 1 true] } on; let c := s.chip; decide (s.pwr.supply ≠ .off ∧ s.pwr.supply ≠ .tripped ∧ c.mctpBusy = false ∧ c.rmRuns = true ∧ req.length ≠ 2)) = true := by
  decide +kernel

/-- Operands and states that meet the hypotheses of ManagementBusGate, clause by clause. -/
theorem test_hyps_ManagementBusGate_6 :
    (let req : List Byte := [6, 9]; let s := st { hb [] { rmAt := some 0 } with out := [.pin 1 true] } on; let c := s.chip; decide (s.pwr.supply ≠ .off ∧ s.pwr.supply ≠ .tripped ∧ c.mctpBusy = false ∧ c.rmRuns = true ∧ 2 ≤ numAt req 0 1 % 4)) = true ∧
    (let req : List Byte := [0, 0]; let s := st { hb [] { rmAt := some 0 } with out := [.pin 1 true] } on; let c := s.chip; decide (s.pwr.supply ≠ .off ∧ s.pwr.supply ≠ .tripped ∧ c.mctpBusy = false ∧ c.rmRuns = true ∧ numAt req 1 1 = 0)) = true ∧
    (let req : List Byte := [1, 255]; let s := st { hb [] { rmAt := some 0 } with out := [.pin 1 true] } on; let c := s.chip; decide (s.pwr.supply ≠ .off ∧ s.pwr.supply ≠ .tripped ∧ c.mctpBusy = false ∧ c.rmRuns = true ∧ numAt req 1 1 = 255)) = true ∧
    (let req : List Byte := [0]; let s := st { hb [] { rmAt := some 0 } with out := [.pin 1 true] } on; let c := s.chip; decide (s.pwr.supply ≠ .off ∧ s.pwr.supply ≠ .tripped ∧ c.mctpBusy = false ∧ c.rmRuns = true ∧ req ≠ [])) = true ∧
    (let req : List Byte := []; let s := st { hb [] { rmAt := some 0 } with out := [.pin 1 true] } on; let c := s.chip; decide (s.pwr.supply ≠ .off ∧ s.pwr.supply ≠ .tripped ∧ c.mctpBusy = false ∧ c.rmRuns = true ∧ req.length ≠ 1)) = true ∧
    (let req : List Byte := [1]; let s := st { hb [] { rmAt := some 0 } with out := [.pin 1 true] } on; let c := s.chip; decide (s.pwr.supply ≠ .off ∧ s.pwr.supply ≠ .tripped ∧ c.mctpBusy = false ∧ c.rmRuns = true ∧ req ≠ [])) = true ∧
    (let req : List Byte := [1]; let s := st { hb [] { rmAt := some 0 } with out := [.pin 1 true] } on; let c := s.chip; decide (s.pwr.supply ≠ .off ∧ s.pwr.supply ≠ .tripped ∧ c.mctpBusy = false ∧ c.rmRuns = true ∧ req ≠ [0])) = true ∧
    (let req : List Byte := []; let s := st { hb [] { rmAt := some 0 } with out := [.pin 1 true] } on; let c := s.chip; decide (s.pwr.supply ≠ .off ∧ s.pwr.supply ≠ .tripped ∧ c.mctpBusy = false ∧ c.rmRuns = true ∧ req ≠ [0])) = true ∧
    (let req : List Byte := [1, 0, 144, 7, 0] ++ List.replicate 1025 3; let s := st { hb [] { rmAt := some 0 } with out := [.pin 1 true] } on; let c := s.chip; decide (s.pwr.supply ≠ .off ∧ s.pwr.supply ≠ .tripped ∧ c.mctpBusy = false ∧ c.rmRuns = true ∧ 5 + 1024 < req.length)) = true ∧
    (let req : List Byte := [0, 0, 0, 0, 0] ++ List.replicate 1025 3; let s := st { hb [] { rmAt := some 0 } with out := [.pin 1 true] } on; let c := s.chip; decide (s.pwr.supply ≠ .off ∧ s.pwr.supply ≠ .tripped ∧ c.mctpBusy = false ∧ c.rmRuns = true ∧ 5 + 1024 < req.length)) = true ∧
    (let req : List Byte := [1]; let s := st { hb [] {} with out := [.pin 1 true] } on; let c := s.chip; decide (s.pwr.supply ≠ .off ∧ s.pwr.supply ≠ .tripped ∧ c.mctpBusy = false ∧ req.length = 1 ∧ numAt req 0 1 ≠ 0 ∧ numAt req 0 1 ≠ 255)) = true ∧
    (let req : List Byte := [254]; let s := st { hb [] {} with out := [.pin 1 true] } on; let c := s.chip; decide (s.pwr.supply ≠ .off ∧ s.pwr.supply ≠ .tripped ∧ c.mctpBusy = false ∧ req.length = 1 ∧ numAt req 0 1 ≠ 0 ∧ numAt req 0 1 ≠ 255)) = true := by
  decide +kernel

/-- Operands and states that meet the hypotheses of ManagementBusServes, clause by clause. -/
theorem test_hyps_ManagementBusServes_1 :
    (let s := st { hb [] { rmAt := some 0 } with out := [.pin 1 true], flash := { boot := some { boots := 258 } } } on; let c := s.chip; decide (s.pwr.supply ≠ .off ∧ s.pwr.supply ≠ .tripped ∧ c.mctpBusy = false ∧ c.rmRuns = true ∧ True)) = true ∧
    (let s := st { hb [] { rmAt := some 0 } with out := [.pin 1 true] } on; let c := s.chip; decide (s.pwr.supply ≠ .off ∧ s.pwr.supply ≠ .tripped ∧ c.mctpBusy = false ∧ c.rmRuns = true ∧ (0 : Byte).toNat < 2)) = true ∧
    (let s := st { hb [] { rmAt := some 0 } with out := [.pin 1 true] } on; let c := s.chip; decide (s.pwr.supply ≠ .off ∧ s.pwr.supply ≠ .tripped ∧ c.mctpBusy = false ∧ c.rmRuns = true ∧ (1 : Byte).toNat < 2)) = true ∧
    (let req : List Byte := [255, 31]; let s := st { hb [(.FAB_CTL_LEN, 0, 0, 1)] { rmAt := some 0 } with out := [.pin 1 true] } on; let c := s.chip; decide (s.pwr.supply ≠ .off ∧ s.pwr.supply ≠ .tripped ∧ c.mctpBusy = false ∧ c.rmRuns = true ∧ req.length = 2 ∧ leNat req < 8192 ∧ c.g .FAB_CTL_LEN 0 ≠ 0)) = true ∧
    (let req : List Byte := [255, 31]; let s := st { hb [] { rmAt := some 0 } with out := [.pin 1 true], cfg := { topo := some (2 * 2 ^ 16) } } on; let c := s.chip; decide (s.pwr.supply ≠ .off ∧ s.pwr.supply ≠ .tripped ∧ c.mctpBusy = false ∧ c.rmRuns = true ∧ req.length = 2 ∧ leNat req < 8192 ∧ c.g .FAB_CTL_LEN 0 = 0)) = true ∧
    (let req : List Byte := [255, 31]; let s := st { hb [] { rmAt := some 0, noId := true } with out := [.pin 1 true], cfg := { topo := some (2 * 2 ^ 16) } } on; let c := s.chip; decide (s.pwr.supply ≠ .off ∧ s.pwr.supply ≠ .tripped ∧ c.mctpBusy = false ∧ c.rmRuns = true ∧ req.length = 2 ∧ leNat req < 8192 ∧ c.g .FAB_CTL_LEN 0 = 0)) = true ∧
    (let req : List Byte := [255, 31]; let s := st { hb [] { rmAt := some 0, waitId := some 9 } with out := [.pin 1 true], cfg := { topo := some (2 * 2 ^ 16) } } on; let c := s.chip; decide (s.pwr.supply ≠ .off ∧ s.pwr.supply ≠ .tripped ∧ c.mctpBusy = false ∧ c.rmRuns = true ∧ req.length = 2 ∧ leNat req < 8192 ∧ c.g .FAB_CTL_LEN 0 = 0)) = true ∧
    (let s := st { hb [(.MTR_STAT_NEXT_SEQ, 0, 0, 2 ^ 48 - 1)] { rmAt := some 0 } with out := [.pin 1 true] } on; let c := s.chip; decide (s.pwr.supply ≠ .off ∧ s.pwr.supply ≠ .tripped ∧ c.mctpBusy = false ∧ c.rmRuns = true ∧ (0 : Byte).toNat ≤ 16)) = true ∧
    (let s := st { hb [(.MTR_STAT_NEXT_SEQ, 16, 0, 2 ^ 48 - 1)] { rmAt := some 0 } with out := [.pin 1 true] } on; let c := s.chip; decide (s.pwr.supply ≠ .off ∧ s.pwr.supply ≠ .tripped ∧ c.mctpBusy = false ∧ c.rmRuns = true ∧ (16 : Byte).toNat ≤ 16)) = true ∧
    (let s := st { hb [(⟨.THM_SENSOR, 15, 0⟩, 0, 0, 258)] { rmAt := some 0 } with out := [.pin 1 true] } on; let c := s.chip; decide (s.pwr.supply ≠ .off ∧ s.pwr.supply ≠ .tripped ∧ c.mctpBusy = false ∧ c.rmRuns = true ∧ (0 : Byte).toNat < 24)) = true ∧
    (let s := st { hb [(⟨.THM_SENSOR, 15, 0⟩, 0, 23, 258)] { rmAt := some 0 } with out := [.pin 1 true] } on; let c := s.chip; decide (s.pwr.supply ≠ .off ∧ s.pwr.supply ≠ .tripped ∧ c.mctpBusy = false ∧ c.rmRuns = true ∧ (23 : Byte).toNat < 24)) = true ∧
    (let s := st { hb [(.BOOT_STAT_STAGE, 0, 0, 6)] { rmAt := some 0 } with out := [.pin 1 true] } on; let c := s.chip; decide (s.pwr.supply ≠ .off ∧ s.pwr.supply ≠ .tripped ∧ c.mctpBusy = false ∧ c.rmRuns = true ∧ c.g .BOOT_STAT_STAGE 0 = 6)) = true := by
  decide +kernel

/-- Operands and states that meet the hypotheses of ManagementBusServes, clause by clause. -/
theorem test_hyps_ManagementBusServes_2 :
    (let s := st { hb [(.PART_STAT_STATE, 15, 0, 0), (.BOOT_STAT_STAGE, 0, 0, 4)] { rmAt := some 0 } with out := [.pin 1 true] } { on with plim := 2000, clk := [(0, {})] }; let c := s.chip; decide (s.pwr.supply ≠ .off ∧ s.pwr.supply ≠ .tripped ∧ c.mctpBusy = false ∧ c.rmRuns = true ∧ c.g .BOOT_STAT_STAGE 0 ≠ 6 ∧ (∀ p ∈ List.range 16, c.g .PART_STAT_STATE p ≠ 3 ∧ c.g .PART_STAT_STATE p ≠ 4))) = true ∧
    (let s := st { hb [(.PART_STAT_STATE, 15, 0, 3), (.BOOT_STAT_STAGE, 0, 0, 4)] { rmAt := some 0 } with out := [.pin 1 true] } { on with plim := 2000, clk := [(0, {})] }; let c := s.chip; decide (s.pwr.supply ≠ .off ∧ s.pwr.supply ≠ .tripped ∧ c.mctpBusy = false ∧ c.rmRuns = true ∧ c.g .BOOT_STAT_STAGE 0 ≠ 6)) = true ∧
    (let s := st { hb [] { rmAt := some 0 } with out := [.pin 1 true], mem := [(1, 1)] } on; let c := s.chip; decide (s.pwr.supply ≠ .off ∧ s.pwr.supply ≠ .tripped ∧ c.mctpBusy = false ∧ c.rmRuns = true ∧ True)) = true ∧
    (let req : List Byte := [0, 0, 128, 7, 0, 16, 0]; let off := numAt req 1 4; let n := numAt req 5 2; let s := st { hb [(⟨.CHG_BUF, 63, 0⟩, 0, 511, 2 ^ 63)] { rmAt := some 0 } with out := [.pin 1 true] } on; let c := s.chip; decide (s.pwr.supply ≠ .off ∧ s.pwr.supply ≠ .tripped ∧ c.mctpBusy = false ∧ c.rmRuns = true ∧ 7 = req.length ∧ numAt req 0 1 = 0 ∧ 0 < n ∧ n ≤ 1024 ∧ 0x78000 ≤ off ∧ off + n ≤ 0x7A000)) = true ∧
    (let req : List Byte := [0, 255, 159, 7, 0, 1, 0]; let off := numAt req 1 4; let n := numAt req 5 2; let s := st { hb [(⟨.CHG_BUF, 63, 0⟩, 0, 511, 2 ^ 63)] { rmAt := some 0 } with out := [.pin 1 true] } on; let c := s.chip; decide (s.pwr.supply ≠ .off ∧ s.pwr.supply ≠ .tripped ∧ c.mctpBusy = false ∧ c.rmRuns = true ∧ 7 = req.length ∧ numAt req 0 1 = 0 ∧ 0 < n ∧ n ≤ 1024 ∧ 0x78000 ≤ off ∧ off + n ≤ 0x7A000)) = true ∧
    (let req : List Byte := [1, 0, 144, 7, 0, 5, 6]; let off := numAt req 1 4; let data := req.drop 5; let s := st { hb [(.CHG_STAT_STATE, 0, 0, 0)] { rmAt := some 0 } with out := [.pin 1 true] } on; let c := s.chip; decide (s.pwr.supply ≠ .off ∧ s.pwr.supply ≠ .tripped ∧ c.mctpBusy = false ∧ c.rmRuns = true ∧ numAt req 0 1 = 1 ∧ data ≠ [] ∧ data.length ≤ 1024 ∧ 0x79000 ≤ off ∧ off + data.length ≤ 0x7A000)) = true ∧
    (let req : List Byte := [1, 254, 159, 7, 0, 5, 6]; let off := numAt req 1 4; let data := req.drop 5; let s := st { hb [(.CHG_STAT_STATE, 0, 0, 0)] { rmAt := some 0 } with out := [.pin 1 true] } on; let c := s.chip; decide (s.pwr.supply ≠ .off ∧ s.pwr.supply ≠ .tripped ∧ c.mctpBusy = false ∧ c.rmRuns = true ∧ numAt req 0 1 = 1 ∧ data ≠ [] ∧ data.length ≤ 1024 ∧ 0x79000 ≤ off ∧ off + data.length ≤ 0x7A000)) = true ∧
    (let req : List Byte := [1, 254, 159, 7, 0, 5, 6]; let off := numAt req 1 4; let data := req.drop 5; let s := st { hb [(.CHG_STAT_STATE, 0, 0, 2)] { rmAt := some 0 } with out := [.pin 1 true] } on; let c := s.chip; decide (s.pwr.supply ≠ .off ∧ s.pwr.supply ≠ .tripped ∧ c.mctpBusy = false ∧ c.rmRuns = true ∧ numAt req 0 1 = 1 ∧ data ≠ [] ∧ data.length ≤ 1024 ∧ 0x79000 ≤ off ∧ off + data.length ≤ 0x7A000)) = true ∧
    (let req : List Byte := [2, 255, 255, 15, 0, 7]; let tgt := numAt req 0 1; let off := numAt req 1 4; let data := req.drop 5; let s := st { hb [(.BOOT_STAT_STAGE, 0, 0, 4), (.PART_STAT_STATE, 15, 0, 3)] { rmAt := some 0 } with out := [.pin 1 true] } on; let c := s.chip; let refused : Bool := decide (tgt = 2 ∧ c.g .BOOT_STAT_STAGE 0 = 4 ∧ c.anyRuns = true); decide (s.pwr.supply ≠ .off ∧ s.pwr.supply ≠ .tripped ∧ c.mctpBusy = false ∧ 5 ≤ req.length ∧ tgt ≤ 2 ∧ (tgt ≠ 1 → data ≠ [] ∧ data.length ≤ 1024 ∧ off + data.length ≤ (if tgt = 2 then 2 ^ 20 else slotSize)) ∧ refused = true)) = true ∧
    (let req : List Byte := [0, 0, 0, 0, 0, 7]; let tgt := numAt req 0 1; let off := numAt req 1 4; let data := req.drop 5; let s := st { hb [] { fw := some { bmc := false, erase := true, addr := 0 } } with out := [.pin 1 true] } on; let c := s.chip; let refused : Bool := decide (tgt = 2 ∧ c.g .BOOT_STAT_STAGE 0 = 4 ∧ c.anyRuns = true); decide (s.pwr.supply ≠ .off ∧ s.pwr.supply ≠ .tripped ∧ c.mctpBusy = false ∧ 5 ≤ req.length ∧ tgt ≤ 2 ∧ (tgt ≠ 1 → data ≠ [] ∧ data.length ≤ 1024 ∧ off + data.length ≤ (if tgt = 2 then 2 ^ 20 else slotSize)) ∧ refused = false ∧ c.boot.fw ≠ none)) = true ∧
    (let req : List Byte := [0, 255, 255, 127, 1, 7]; let tgt := numAt req 0 1; let off := numAt req 1 4; let data := req.drop 5; let s := st { hb [(.BOOT_STAT_STAGE, 0, 0, 4), (.PART_STAT_STATE, 15, 0, 3)] {} with out := [.pin 1 true] } on; let c := s.chip; let refused : Bool := decide (tgt = 2 ∧ c.g .BOOT_STAT_STAGE 0 = 4 ∧ c.anyRuns = true); decide (s.pwr.supply ≠ .off ∧ s.pwr.supply ≠ .tripped ∧ c.mctpBusy = false ∧ 5 ≤ req.length ∧ tgt ≤ 2 ∧ (tgt ≠ 1 → data ≠ [] ∧ data.length ≤ 1024 ∧ off + data.length ≤ (if tgt = 2 then 2 ^ 20 else slotSize)) ∧ refused = false ∧ c.boot.fw = none)) = true ∧
    (let req : List Byte := [0, 255, 255, 127, 1, 7]; let tgt := numAt req 0 1; let off := numAt req 1 4; let data := req.drop 5; let s := st { hb [(.BOOT_STAT_STAGE, 0, 0, 4), (.PART_STAT_STATE, 15, 0, 3)] { rmAt := some 0 } with out := [.pin 1 true] } on; let c := s.chip; let refused : Bool := decide (tgt = 2 ∧ c.g .BOOT_STAT_STAGE 0 = 4 ∧ c.anyRuns = true); decide (s.pwr.supply ≠ .off ∧ s.pwr.supply ≠ .tripped ∧ c.mctpBusy = false ∧ 5 ≤ req.length ∧ tgt ≤ 2 ∧ (tgt ≠ 1 → data ≠ [] ∧ data.length ≤ 1024 ∧ off + data.length ≤ (if tgt = 2 then 2 ^ 20 else slotSize)) ∧ refused = false ∧ c.boot.fw = none)) = true := by
  decide +kernel

/-- Operands and states that meet the hypotheses of ManagementBusServes, clause by clause. -/
theorem test_hyps_ManagementBusServes_3 :
    (let req : List Byte := [1, 0, 0, 0, 0, 7]; let tgt := numAt req 0 1; let off := numAt req 1 4; let data := req.drop 5; let s := st { hb [] { fw := some { bmc := false, erase := true, addr := 0 } } with out := [.pin 1 true] } on; let c := s.chip; let refused : Bool := decide (tgt = 2 ∧ c.g .BOOT_STAT_STAGE 0 = 4 ∧ c.anyRuns = true); decide (s.pwr.supply ≠ .off ∧ s.pwr.supply ≠ .tripped ∧ c.mctpBusy = false ∧ 5 ≤ req.length ∧ tgt ≤ 2 ∧ (tgt ≠ 1 → data ≠ [] ∧ data.length ≤ 1024 ∧ off + data.length ≤ (if tgt = 2 then 2 ^ 20 else slotSize)) ∧ refused = false ∧ c.boot.fw ≠ none)) = true ∧
    (let req : List Byte := [1, 255, 255, 15, 0, 7]; let tgt := numAt req 0 1; let off := numAt req 1 4; let data := req.drop 5; let s := st { hb [(.BOOT_STAT_STAGE, 0, 0, 4), (.PART_STAT_STATE, 15, 0, 3)] {} with out := [.pin 1 true] } on; let c := s.chip; let refused : Bool := decide (tgt = 2 ∧ c.g .BOOT_STAT_STAGE 0 = 4 ∧ c.anyRuns = true); decide (s.pwr.supply ≠ .off ∧ s.pwr.supply ≠ .tripped ∧ c.mctpBusy = false ∧ 5 ≤ req.length ∧ tgt ≤ 2 ∧ (tgt ≠ 1 → data ≠ [] ∧ data.length ≤ 1024 ∧ off + data.length ≤ (if tgt = 2 then 2 ^ 20 else slotSize)) ∧ refused = false ∧ c.boot.fw = none)) = true ∧
    (let req : List Byte := [1, 255, 255, 15, 0, 7]; let tgt := numAt req 0 1; let off := numAt req 1 4; let data := req.drop 5; let s := st { hb [(.BOOT_STAT_STAGE, 0, 0, 4), (.PART_STAT_STATE, 15, 0, 3)] { rmAt := some 0 } with out := [.pin 1 true] } on; let c := s.chip; let refused : Bool := decide (tgt = 2 ∧ c.g .BOOT_STAT_STAGE 0 = 4 ∧ c.anyRuns = true); decide (s.pwr.supply ≠ .off ∧ s.pwr.supply ≠ .tripped ∧ c.mctpBusy = false ∧ 5 ≤ req.length ∧ tgt ≤ 2 ∧ (tgt ≠ 1 → data ≠ [] ∧ data.length ≤ 1024 ∧ off + data.length ≤ (if tgt = 2 then 2 ^ 20 else slotSize)) ∧ refused = false ∧ c.boot.fw = none)) = true ∧
    (let req : List Byte := [2, 0, 0, 0, 0, 7]; let tgt := numAt req 0 1; let off := numAt req 1 4; let data := req.drop 5; let s := st { hb [] { fw := some { bmc := false, erase := true, addr := 0 } } with out := [.pin 1 true] } on; let c := s.chip; let refused : Bool := decide (tgt = 2 ∧ c.g .BOOT_STAT_STAGE 0 = 4 ∧ c.anyRuns = true); decide (s.pwr.supply ≠ .off ∧ s.pwr.supply ≠ .tripped ∧ c.mctpBusy = false ∧ 5 ≤ req.length ∧ tgt ≤ 2 ∧ (tgt ≠ 1 → data ≠ [] ∧ data.length ≤ 1024 ∧ off + data.length ≤ (if tgt = 2 then 2 ^ 20 else slotSize)) ∧ refused = false ∧ c.boot.fw ≠ none)) = true ∧
    (let req : List Byte := [2, 255, 255, 15, 0, 7]; let tgt := numAt req 0 1; let off := numAt req 1 4; let data := req.drop 5; let s := st { hb [(.BOOT_STAT_STAGE, 0, 0, 4)] {} with out := [.pin 1 true] } on; let c := s.chip; let refused : Bool := decide (tgt = 2 ∧ c.g .BOOT_STAT_STAGE 0 = 4 ∧ c.anyRuns = true); decide (s.pwr.supply ≠ .off ∧ s.pwr.supply ≠ .tripped ∧ c.mctpBusy = false ∧ 5 ≤ req.length ∧ tgt ≤ 2 ∧ (tgt ≠ 1 → data ≠ [] ∧ data.length ≤ 1024 ∧ off + data.length ≤ (if tgt = 2 then 2 ^ 20 else slotSize)) ∧ refused = false ∧ c.boot.fw = none)) = true ∧
    (let req : List Byte := [2, 255, 255, 15, 0, 7]; let tgt := numAt req 0 1; let off := numAt req 1 4; let data := req.drop 5; let s := st { hb [(.BOOT_STAT_STAGE, 0, 0, 4)] { rmAt := some 0 } with out := [.pin 1 true] } on; let c := s.chip; let refused : Bool := decide (tgt = 2 ∧ c.g .BOOT_STAT_STAGE 0 = 4 ∧ c.anyRuns = true); decide (s.pwr.supply ≠ .off ∧ s.pwr.supply ≠ .tripped ∧ c.mctpBusy = false ∧ 5 ≤ req.length ∧ tgt ≤ 2 ∧ (tgt ≠ 1 → data ≠ [] ∧ data.length ≤ 1024 ∧ off + data.length ≤ (if tgt = 2 then 2 ^ 20 else slotSize)) ∧ refused = false ∧ c.boot.fw = none)) = true ∧
    (let s := st { hb [] {} with out := [.pin 1 true] } on; let c := s.chip; decide (s.pwr.supply ≠ .off ∧ s.pwr.supply ≠ .tripped ∧ c.mctpBusy = false ∧ (0 : Byte).toNat % 4 < 2 ∧ (1 : Byte) ≠ 0 ∧ (1 : Byte) ≠ 0xFF)) = true ∧
    (let s := st { hb [] {} with out := [.pin 1 true] } on; let c := s.chip; decide (s.pwr.supply ≠ .off ∧ s.pwr.supply ≠ .tripped ∧ c.mctpBusy = false ∧ (5 : Byte).toNat % 4 < 2 ∧ (254 : Byte) ≠ 0 ∧ (254 : Byte) ≠ 0xFF)) = true ∧
    (let s := st { hb [] { eid := 9 } with out := [.pin 1 true] } on; let c := s.chip; decide (s.pwr.supply ≠ .off ∧ s.pwr.supply ≠ .tripped ∧ c.mctpBusy = false ∧ True)) = true ∧
    (let s := st { hb [] {} with out := [.pin 1 true] } on; let c := s.chip; decide (s.pwr.supply ≠ .off ∧ s.pwr.supply ≠ .tripped ∧ c.mctpBusy = false ∧ ((0 : Byte) = 0 ∨ (0 : Byte) = 0xFF))) = true ∧
    (let s := st { hb [] {} with out := [.pin 1 true] } on; let c := s.chip; decide (s.pwr.supply ≠ .off ∧ s.pwr.supply ≠ .tripped ∧ c.mctpBusy = false ∧ ((255 : Byte) = 0 ∨ (255 : Byte) = 0xFF))) = true ∧
    (let s := st { hb [] {} with out := [.pin 1 true] } on; let c := s.chip; decide (s.pwr.supply ≠ .off ∧ s.pwr.supply ≠ .tripped ∧ c.mctpBusy = false ∧ True)) = true := by
  decide +kernel

/-- Operands and states that meet the hypotheses of ManagementBusServes, clause by clause. -/
theorem test_hyps_ManagementBusServes_4 :
    (let s := st { hb [] {} with out := [.pin 1 true] } on; let c := s.chip; decide (s.pwr.supply ≠ .off ∧ s.pwr.supply ≠ .tripped ∧ c.mctpBusy = false ∧ True)) = true ∧
    (let s := st { hb [(.THM_SENSOR_VALID, 0, 18, 1), (⟨.THM_SENSOR, 15, 0⟩, 0, 18, 200), (.THM_SENSOR_VALID, 0, 19, 1), (⟨.THM_SENSOR, 15, 0⟩, 0, 19, 200), (.THM_SENSOR_VALID, 0, 20, 1), (⟨.THM_SENSOR, 15, 0⟩, 0, 20, 200), (.THM_SENSOR_VALID, 0, 21, 1), (⟨.THM_SENSOR, 15, 0⟩, 0, 21, 200), (.THM_SENSOR_VALID, 0, 22, 1), (⟨.THM_SENSOR, 15, 0⟩, 0, 22, 200), (.THM_SENSOR_VALID, 0, 23, 1), (⟨.THM_SENSOR, 15, 0⟩, 0, 23, 200)] { rmAt := some 0 } with out := [.pin 1 true] } { supply := .tripped, leak := true, junc := [0, 32, 64, 96].flatMap (fun b => (List.range 24).map (fun k => (b + k, some 300))) }; let c := s.chip; decide (s.pwr.supply = .tripped ∧ c.mctpBusy = false ∧ s.tripHolds = true)) = true ∧
    (let s := st { hb [(.THM_SENSOR_VALID, 0, 18, 1), (⟨.THM_SENSOR, 15, 0⟩, 0, 18, 200), (.THM_SENSOR_VALID, 0, 19, 1), (⟨.THM_SENSOR, 15, 0⟩, 0, 19, 200), (.THM_SENSOR_VALID, 0, 20, 1), (⟨.THM_SENSOR, 15, 0⟩, 0, 20, 200), (.THM_SENSOR_VALID, 0, 21, 1), (⟨.THM_SENSOR, 15, 0⟩, 0, 21, 200), (.THM_SENSOR_VALID, 0, 22, 1), (⟨.THM_SENSOR, 15, 0⟩, 0, 22, 200), (.THM_SENSOR_VALID, 0, 23, 1), (⟨.THM_SENSOR, 15, 0⟩, 0, 23, 200)] { rmAt := some 0 } with out := [.pin 1 true] } { supply := .tripped, leak := false, junc := [0, 32, 64, 96].flatMap (fun b => (List.range 24).map (fun k => (b + k, some 300))) }; let c := s.chip; decide (s.pwr.supply = .tripped ∧ c.mctpBusy = false ∧ s.tripHolds = false)) = true := by
  decide +kernel

/-- Operands and states that meet the hypotheses of RegionsOfOthersUnmapped, clause by clause. -/
theorem test_hyps_RegionsOfOthersUnmapped :
    (let s := st (chip [(.PART_OWN_OWNED, 0, 1, 1), (.PART_OWN_OWNER, 0, 1, 7), (.HOSTIF_CNT_COUNT, 33, 0, 2 ^ 64 - 1)]); let c := s.chip; let off := 16777216; decide (0x01000000 ≤ off ∧ off < 0x03000000 ∧ c.owns ((16 + 15) % 16) ((off - 0x01000000) / 0x00200000) = false ∧ 0 < 1)) = true ∧
    (let s := st (chip [(.PART_OWN_OWNED, 0, 1, 1), (.PART_OWN_OWNER, 0, 1, 7), (.HOSTIF_CNT_COUNT, 33, 0, 2 ^ 64 - 1)]); let c := s.chip; let off := 16777216; decide (0x01000000 ≤ off ∧ off < 0x03000000 ∧ c.owns ((16 + 15) % 16) ((off - 0x01000000) / 0x00200000) = false ∧ off % 4 = 0)) = true ∧
    (let s := st (chip [(.PART_OWN_OWNED, 0, 1, 1), (.PART_OWN_OWNER, 0, 1, 7), (.HOSTIF_CNT_COUNT, 2, 0, 2 ^ 64 - 1)]); let c := s.chip; let off := 50331644; decide (0x01000000 ≤ off ∧ off < 0x03000000 ∧ c.owns ((1 + 15) % 16) ((off - 0x01000000) / 0x00200000) = false ∧ 0 < 1)) = true ∧
    (let s := st (chip [(.PART_OWN_OWNED, 0, 1, 1), (.PART_OWN_OWNER, 0, 1, 7), (.HOSTIF_CNT_COUNT, 2, 0, 2 ^ 64 - 1)]); let c := s.chip; let off := 50331644; decide (0x01000000 ≤ off ∧ off < 0x03000000 ∧ c.owns ((1 + 15) % 16) ((off - 0x01000000) / 0x00200000) = false ∧ off % 4 = 0)) = true ∧
    (let s := st (chip [(.PART_OWN_OWNED, 0, 1, 1), (.PART_OWN_OWNER, 0, 1, 7), (.HOSTIF_CNT_COUNT, 18, 0, 2 ^ 64 - 1)]); let c := s.chip; let off := 18874368; decide (0x01000000 ≤ off ∧ off < 0x03000000 ∧ c.owns ((1 + 15) % 16) ((off - 0x01000000) / 0x00200000) = false ∧ 0 < 1)) = true ∧
    (let s := st (chip [(.PART_OWN_OWNED, 0, 1, 1), (.PART_OWN_OWNER, 0, 1, 7), (.HOSTIF_CNT_COUNT, 18, 0, 2 ^ 64 - 1)]); let c := s.chip; let off := 18874368; decide (0x01000000 ≤ off ∧ off < 0x03000000 ∧ c.owns ((1 + 15) % 16) ((off - 0x01000000) / 0x00200000) = false ∧ off % 4 = 0)) = true ∧
    (let s := st (chip [(.PART_OWN_OWNED, 0, 1, 1), (.PART_OWN_OWNER, 0, 1, 7), (.HOSTIF_CNT_COUNT, 17, 0, 2 ^ 64 - 1)]); let c := s.chip; let off := 18874368; decide (0x01000000 ≤ off ∧ off < 0x03000000 ∧ c.owns ((16 + 15) % 16) ((off - 0x01000000) / 0x00200000) = false ∧ 0 < 1)) = true ∧
    (let s := st (chip [(.PART_OWN_OWNED, 0, 1, 1), (.PART_OWN_OWNER, 0, 1, 7), (.HOSTIF_CNT_COUNT, 17, 0, 2 ^ 64 - 1)]); let c := s.chip; let off := 18874368; decide (0x01000000 ≤ off ∧ off < 0x03000000 ∧ c.owns ((16 + 15) % 16) ((off - 0x01000000) / 0x00200000) = false ∧ off % 4 = 0)) = true := by
  decide +kernel

/-- Operands and states that meet the hypotheses of ResetColumnHolds, clause by clause. -/
theorem test_hyps_ResetColumnHolds :
    (decide (Reg.HUB_SEED ≠ .CHG_UID ∧ (Reg.HUB_SEED.fields ≠ []))) = true := by
  decide +kernel

/-- Operands and states that meet the hypotheses of EveryStepAnswers, clause by clause. -/
theorem test_hyps_EveryStepAnswers :
    (let s := st {}; decide (s.pending = [] ∧ s.pwr.supply ≠ .on ∧ s.chip.time.frac < 65536 ∧ s.chip.time.corr = 0)) = true ∧
    (let s := st { time := { corr := 5, frac := 65535 } } on; decide (s.pending = [] ∧ s.chip.time.frac < 65536)) = true := by
  decide +kernel

/-- A state that holds the invariant and steps. -/
theorem test_hyps_StepKeepsInvariant : ∃ s t : State, s.Inv ∧ step s = .next t :=
  ⟨{ State.reset with pending := [.perstDeassert 2] }, State.reset,
    ⟨by decide, by decide, fun x hx => (List.not_mem_nil hx).elim, fun x hx => (List.not_mem_nil hx).elim, by decide⟩, rfl⟩

/-! ### Ill-formed commands: one for each check of WellFormed. -/

theorem test_ill_island : (Instr.clockWindowEnd 144 6 10).wf = false := by decide
theorem test_ill_partition : (Instr.gateEvaluate 16).wf = false := by decide
theorem test_ill_cluster : (Instr.cmdNop 128).wf = false := by decide
theorem test_ill_unit : (Instr.tileStart 1024).wf = false := by decide
theorem test_ill_region : (Instr.cellGranted 16 0).wf = false := by decide
theorem test_ill_queue : (Instr.cellGranted 15 1024).wf = false := by decide
theorem test_ill_lane : (Instr.spillStart 15 8).wf = false := by decide
theorem test_ill_direction : (Instr.linkDetect 6 7).wf = false := by decide
theorem test_ill_port_vf : (Instr.vfFlr 1 17).wf = false := by decide
theorem test_ill_vf_zero : (Fn.vf 1 0).wf = false := by decide
theorem test_ill_pf : (Fn.pf 2).wf = false := by decide
theorem test_ill_window : (Instr.registerWrite .rm (2 ^ 26) 4 0).wf = false := by decide
theorem test_ill_function : (Instr.d3hotEnter 34).wf = false := by decide
theorem test_ill_descriptor : (Instr.hiqRead 33 31 [0, 0, 0]).wf = false := by decide
theorem test_ill_ring : (Instr.hiqDescComplete 33 32).wf = false := by decide
theorem test_ill_vector : (Instr.msixUnmask 33 64).wf = false := by decide
theorem test_ill_pair : (Instr.lockstepMismatch 2).wf = false := by decide
theorem test_ill_message_source : (SealMsg.mk 8192 0 0 0 0).wf = false := by decide
theorem test_ill_message_step : (Instr.recvSeal 15 (SealMsg.mk 8191 (2 ^ 48) 0 0 0)).wf = false := by decide
theorem test_ill_packet_header : (Instr.qpushRecv ⟨[0], [], []⟩).wf = false := by decide
theorem test_ill_packet_flits : (Pkt.mk (List.replicate 8 0) [0] [false]).wf = false := by decide
theorem test_ill_packet_length : (Pkt.mk (List.replicate 8 0) (List.replicate 520 0) (List.replicate 65 false)).wf = false := by decide +kernel
theorem test_ill_frame_control : (TrainFrame.mk (2 ^ 16) 0 true).wf = false := by decide
theorem test_ill_frame_status : (Instr.trainFrameRecv 5 2 3 ⟨0, 2 ^ 16, true⟩).wf = false := by decide
theorem test_ill_block : (Instr.alignBlockRecv 5 2 3 ⟨0, 0, 2 ^ 32, 0, 0⟩).wf = false := by decide
theorem test_ill_hello_id : (Instr.helloRecv 5 ⟨false, 8192, 0, 0, 0, 0, 0, 0⟩).wf = false := by decide
theorem test_ill_hello_direction : (Hello.mk false 8191 6 0 0 0 0 0).wf = false := by decide
theorem test_ill_flow : (Instr.flowRecv 5 ⟨none, none, [0], 0⟩).wf = false := by decide
theorem test_ill_codeword_message : (Instr.codewordRecv 5 ⟨none, 2 ^ 5140⟩).wf = false := by decide +kernel
theorem test_ill_solver_pass : (Instr.solverTileComplete 1023 (3, none) false).wf = false := by decide
theorem test_ill_store : (Instr.patrolScrubPass (.cellar 24) 0 .clean).wf = false := by decide
theorem test_ill_upset : (Instr.tileComplete 1023 (some ⟨0, 0, false, 64⟩)).wf = false := by decide
theorem test_ill_health : (Instr.healthSet 1023 4).wf = false := by decide

/-! ### Well-formed commands at the last value of their operands. -/

theorem test_well_formed : ((Instr.vfFlr 1 16).wf && (Instr.cmdNop 127).wf && (Instr.tileStart 1023).wf && (Instr.hiqRead 33 31 [0, 0, 0, 0]).wf
    && (Instr.patrolScrubPass (.cellar 23) 0 .passEnd).wf && (Instr.trainFrameRecv 5 2 3 ⟨65535, 65535, true⟩).wf
    && (Instr.qpushRecv ⟨List.replicate 8 0, List.replicate 512 0, List.replicate 64 false⟩).wf
    && (Instr.recvSeal 15 ⟨8191, 2 ^ 48 - 1, 0, 0, 0⟩).wf && (Instr.codewordRecv 5 ⟨some 15, 2 ^ 5140 - 1⟩).wf
    && (Instr.solverTileComplete 1023 (2, some ⟨63, 63, true, 63⟩) true).wf) = true := by decide +kernel

/-- The table gives its rows no bits: no word spells a command (opcode_table.json). -/
theorem test_no_word_decodes : decodeTableWord 64 0 = none := by decide

end Sys2Proof.Tests
end

section
/-! The register map as a table: every register lies in its window, and no two registers share a byte (R26,
R646–R653). -/

namespace Sys2Proof.Machine

/-! ### Facts about every register -/

theorem Reg.mem_all (r : Reg) : r ∈ Reg.all := by cases r <;> decide

/-- What is checked of every entry of the register table holds of every register. -/
theorem Reg.forall_of_all {p : Reg → Bool} (h : Reg.all.all p = true) (r : Reg) : p r = true :=
  List.all_eq_true.mp h r r.mem_all

/-! ### Where registers lie -/

/-- One more than the last offset in its window that a register takes. -/
def Reg.blockEnd (r : Reg) : Nat := r.info.base + (r.info.count - 1) * r.info.stride + r.info.width / 8

/-- Bytes of a window that hold its own registers, before a window inside it or the next one begins. -/
def Win.size : Win → Nat
  | .hub => 0x01000000
  | .region => 0x40000
  | .cluster => 0x8000
  | .unit => 0x2000

/-- A register lies in its window, and none of its indices runs into the next. -/
def Reg.placed (r : Reg) : Bool :=
  decide (r.blockEnd ≤ r.info.win.size) &&
    if r.info.stride = 0 then decide (r.info.count = 1) else decide (r.info.width / 8 ≤ r.info.stride)

theorem Reg.placed_all (r : Reg) : r.placed = true := Reg.forall_of_all (by decide +kernel) r

/-- In one window, a's block ends before b's begins, or b lies in the gaps between the indices of a. -/
def Reg.clears (a b : Reg) : Bool :=
  decide (a.blockEnd ≤ b.info.base) ||
    (decide (a.info.stride = b.info.stride) && decide (a.info.base + a.info.width / 8 ≤ b.info.base) &&
      decide (b.info.base + b.info.width / 8 ≤ a.info.base + a.info.stride))

/-- Two registers share no byte of a window. -/
def Reg.apart (a b : Reg) : Bool := decide (a.info.win ≠ b.info.win) || a.clears b || b.clears a

theorem Reg.apart_symm {a b : Reg} (h : a.apart b = true) : b.apart a = true := by
  simp only [Reg.apart, Bool.or_eq_true, decide_eq_true_eq, ne_comm (a := b.info.win)] at h ⊢
  tauto

theorem Reg.all_pairwise_apart : Reg.all.Pairwise (fun a b => a.apart b = true) := by decide +kernel

theorem Reg.apart_of_ne {a b : Reg} (h : a ≠ b) : a.apart b = true :=
  have : Std.Symm (fun a b : Reg => a.apart b = true) := ⟨fun _ _ => Reg.apart_symm⟩
  Reg.all_pairwise_apart.forall a.mem_all b.mem_all h

/-! ### An offset of a window -/

/-- What the placement check says of the distance between indices. -/
theorem Reg.stride_spec (r : Reg) :
    (r.info.stride = 0 ∧ r.info.count = 1) ∨ (r.info.stride ≠ 0 ∧ r.info.width / 8 ≤ r.info.stride) := by
  have hp := r.placed_all
  simp only [Reg.placed, Bool.and_eq_true] at hp
  by_cases h0 : r.info.stride = 0 <;> simpa [h0] using hp.2

/-- The last byte of an index lies before the end of the block. -/
theorem Reg.byte_lt_blockEnd (r : Reg) {j b : Nat} (hj : j < r.info.count) (hb : b < r.info.width / 8) :
    r.info.base + j * r.info.stride + b < r.blockEnd := by
  have := Nat.mul_le_mul_right r.info.stride (Nat.le_sub_one_of_lt hj)
  unfold Reg.blockEnd; omega

/-- A register holds the offset of each of its bytes, and gives its index and byte. -/
theorem Reg.within_offset (r : Reg) {j b : Nat} (hj : j < r.info.count) (hb : b < r.info.width / 8) :
    r.within r.info.win (r.info.base + j * r.info.stride + b) = some (j, b) := by
  have hd : r.info.base + j * r.info.stride + b - r.info.base = b + j * r.info.stride := by omega
  rcases r.stride_spec with ⟨h0, h1⟩ | ⟨h0, h1⟩
  · obtain rfl : j = 0 := by omega
    simp [Reg.within, h0, h1, hb]
  · have hq : (b + j * r.info.stride) / r.info.stride = j := by
      rw [Nat.add_mul_div_right _ _ (by omega), Nat.div_eq_of_lt (by omega), Nat.zero_add]
    have hm : (b + j * r.info.stride) % r.info.stride = b := by
      rw [Nat.add_mul_mod_self_right, Nat.mod_eq_of_lt (by omega)]
    have hlo : ¬ r.info.base + j * r.info.stride + b < r.info.base := by omega
    simp [Reg.within, h0, hlo, hd, hq, hm, hj, hb]

/-- An offset that a register holds is that of one of its bytes. -/
theorem Reg.within_some {r : Reg} {w : Win} {o : Nat} {x : Nat × Nat} (h : r.within w o = some x) :
    r.info.win = w ∧ x.1 < r.info.count ∧ x.2 < r.info.width / 8 ∧ o = r.info.base + x.1 * r.info.stride + x.2 := by
  by_cases hw : r.info.win ≠ w ∨ o < r.info.base
  · simp only [Reg.within, hw, if_true] at h; cases h
  simp only [Reg.within, hw, if_false, Option.ite_none_right_eq_some, Option.some.injEq] at h
  obtain ⟨hx, rfl⟩ := h
  rw [not_or, not_not, Nat.not_lt] at hw
  refine ⟨hw.1, hx.1, hx.2, ?_⟩
  by_cases h0 : r.info.stride = 0
  · simp [h0]; omega
  · have := Nat.div_add_mod' (o - r.info.base) r.info.stride
    simp only [h0, if_false]; omega

/-- Where one register lies clear of another, no offset belongs to both. -/
theorem Reg.not_within_of_clears {a b : Reg} {w : Win} {o : Nat} {x y : Nat × Nat} (h : a.clears b = true)
    (ha : a.within w o = some x) (hb : b.within w o = some y) : False := by
  obtain ⟨-, hxj, hxb, hxo⟩ := Reg.within_some ha
  obtain ⟨-, hyj, hyb, hyo⟩ := Reg.within_some hb
  simp only [Reg.clears, Bool.or_eq_true, Bool.and_eq_true, decide_eq_true_eq] at h
  rcases h with h | ⟨⟨hs, h1⟩, h2⟩
  · have := a.byte_lt_blockEnd hxj hxb; omega
  · -- both offsets lie in stride steps from a's base: a's byte below b's, b's below the next step
    rw [← hs] at hyo
    rcases Nat.lt_trichotomy x.1 y.1 with hl | he | hl
    · have := Nat.mul_le_mul_right a.info.stride (Nat.succ_le_of_lt hl)
      rw [Nat.succ_mul] at this; omega
    · rw [he] at hxo; omega
    · have := Nat.mul_le_mul_right a.info.stride (Nat.succ_le_of_lt hl)
      rw [Nat.succ_mul] at this; omega

/-- Different registers do not hold the same offset of a window. -/
theorem Reg.eq_of_within {a b : Reg} {w : Win} {o : Nat} {x y : Nat × Nat} (ha : a.within w o = some x)
    (hb : b.within w o = some y) : a = b := by
  by_contra hne
  have h := Reg.apart_of_ne hne
  simp only [Reg.apart, Bool.or_eq_true, decide_eq_true_eq] at h
  rcases h with (h | h) | h
  · exact h ((Reg.within_some ha).1.trans (Reg.within_some hb).1.symm)
  · exact Reg.not_within_of_clears h ha hb
  · exact Reg.not_within_of_clears h hb ha

/-- The one register of a list that holds an offset is found there. -/
theorem findReg_of_within {w : Win} {o : Nat} {r : Reg} {x : Nat × Nat} (hr : r.within w o = some x) (l : List Reg) (hm : r ∈ l) :
    findReg w o l = some (r, x.1, x.2) := by
  induction l with
  | nil => cases hm
  | cons r' rs ih =>
    by_cases h : r' = r
    · subst h; simp [findReg, hr]
    · have hn : r'.within w o = none := Option.eq_none_iff_forall_ne_some.mpr (fun y hy => h (Reg.eq_of_within hy hr))
      have hm' : r ∈ rs := by simpa [Ne.symm h] using hm
      simp [findReg, hn, ih hm']

/-! ### A BAR0 offset (R23, R26) -/

theorem windowOf_hub {o : Nat} (h : o < Win.size .hub) : windowOf o = some (.hub, 0, o) := by
  simp only [Win.size] at h
  simp [windowOf, h]

theorem windowOf_region {i o : Nat} (hi : i < 16) (h : o < Win.size .region) :
    windowOf (0x01000000 + i * 0x00200000 + o) = some (.region, i, o) := by
  simp only [Win.size] at h
  have h1 : ¬ 0x01000000 + i * 0x00200000 + o < 0x01000000 := by omega
  have h2 : 0x01000000 + i * 0x00200000 + o < 0x03000000 := by omega
  have hd : (0x01000000 + i * 0x00200000 + o - 0x01000000) / 0x00200000 = i := by omega
  have hm : (0x01000000 + i * 0x00200000 + o - 0x01000000) % 0x00200000 = o := by omega
  simp only [windowOf, h1, h2, hd, hm, h, if_true, if_false]

/-- An offset in the clusters of a region: cluster k of it and the offset there. -/
theorem windowOf_inRegion {r k o : Nat} (hr : r < 16) (hk : k < 8) (h : o < 0x20000) :
    windowOf (0x01000000 + r * 0x00200000 + 0x40000 + k * 0x20000 + o) =
      if o < 0x8000 then some (.cluster, 8 * r + k, o)
      else if 8 ≤ (o - 0x8000) / 0x2000 then none
      else some (.unit, 64 * r + 8 * k + (o - 0x8000) / 0x2000, (o - 0x8000) % 0x2000) := by
  have h1 : ¬ 0x01000000 + r * 0x00200000 + 0x40000 + k * 0x20000 + o < 0x01000000 := by omega
  have h2 : 0x01000000 + r * 0x00200000 + 0x40000 + k * 0x20000 + o < 0x03000000 := by omega
  have hd : (0x01000000 + r * 0x00200000 + 0x40000 + k * 0x20000 + o - 0x01000000) / 0x00200000 = r := by omega
  have hm : (0x01000000 + r * 0x00200000 + 0x40000 + k * 0x20000 + o - 0x01000000) % 0x00200000 = 0x40000 + k * 0x20000 + o := by
    omega
  have h3 : ¬ 0x40000 + k * 0x20000 + o < 0x40000 := by omega
  have hk0 : 0x40000 + k * 0x20000 + o - 0x40000 = k * 0x20000 + o := by omega
  have hkd : (k * 0x20000 + o) / 0x20000 = k := by omega
  have hkm : (k * 0x20000 + o) % 0x20000 = o := by omega
  have h4 : ¬ 8 ≤ k := by omega
  simp only [windowOf, h1, h2, hd, hm, h3, hk0, hkd, hkm, h4, if_true, if_false]

theorem windowOf_cluster {i o : Nat} (hi : i < 128) (h : o < Win.size .cluster) :
    windowOf (0x01000000 + i / 8 * 0x00200000 + 0x40000 + i % 8 * 0x20000 + o) = some (.cluster, i, o) := by
  simp only [Win.size] at h
  rw [windowOf_inRegion (by omega) (by omega) (by omega), if_pos h, Nat.div_add_mod]

theorem windowOf_unit {i o : Nat} (hi : i < 1024) (h : o < Win.size .unit) :
    windowOf (0x01000000 + i / 64 * 0x00200000 + 0x40000 + i / 8 % 8 * 0x20000 + 0x8000 + i % 8 * 0x2000 + o)
      = some (.unit, i, o) := by
  simp only [Win.size] at h
  have hs : 0x8000 + i % 8 * 0x2000 + o - 0x8000 = i % 8 * 0x2000 + o := by omega
  have hu : (i % 8 * 0x2000 + o) / 0x2000 = i % 8 := by omega
  have hm : (i % 8 * 0x2000 + o) % 0x2000 = o := by omega
  have hi' : 64 * (i / 64) + 8 * (i / 8 % 8) + i % 8 = i := by omega
  rw [Nat.add_assoc _ 0x8000, Nat.add_assoc _ (0x8000 + _), windowOf_inRegion (by omega) (by omega) (by omega), if_neg (by omega),
    hs, hu, hm, hi', if_neg (by omega)]

/-- The BAR0 offset of a place of a window decodes to that window, the flat index there, and the place. -/
theorem Reg.windowOf_offset (r : Reg) {i j b : Nat} (hi : i < r.info.win.count) (hj : j < r.info.count) (hb : b < r.info.width / 8) :
    windowOf (r.offset i j + b) = some (r.info.win, i, r.info.base + j * r.info.stride + b) := by
  have hp := r.placed_all
  simp only [Reg.placed, Bool.and_eq_true, decide_eq_true_eq] at hp
  have ho := Nat.lt_of_lt_of_le (r.byte_lt_blockEnd hj hb) hp.1
  unfold Reg.offset
  cases hw : r.info.win <;> simp only [hw, Win.count] at hi ho ⊢
  case hub =>
    obtain rfl : i = 0 := by omega
    rw [Nat.zero_add, windowOf_hub ho]
  case region => simpa only [Nat.add_assoc] using windowOf_region hi ho
  case cluster => simpa only [Nat.add_assoc] using windowOf_cluster hi ho
  case unit => simpa only [Nat.add_assoc] using windowOf_unit hi ho

end Sys2Proof.Machine

/-- Settles O7: blocks lie in their windows, and different registers hold different offsets. -/
theorem registerMapUnambiguous : Obligations.RegisterMapUnambiguous := by
  intro r i j b hi hj hb
  exact ⟨r.windowOf_offset hi hj hb, Sys2Proof.Machine.findReg_of_within (r.within_offset hj hb) _ r.mem_all⟩
end

section
/-! The Reset column (R20). -/

namespace Sys2Proof.Machine

/-- A register of the reset state reads its reset value. -/
theorem State.reset_rd (r : Reg) (i j : Nat) : State.reset.chip.rd r i j = r.reset := regDefault_key r i j

/-- Every field of the register's table reads in the reset word as its Reset column says. -/
def Reg.resetColumn (r : Reg) : Bool :=
  decide (r = .CHG_UID) || r.fields.all (fun f => decide (wbits r.reset f.hi f.lo = f.reset))

theorem Reg.resetColumn_all (r : Reg) : r.resetColumn = true := Reg.forall_of_all (by decide +kernel) r

end Sys2Proof.Machine

open Sys2Proof.Machine in
/-- Settles O56: a register that nothing has written reads its reset word, which the field table fills column by column. -/
theorem resetColumnHolds : Obligations.ResetColumnHolds := by
  intro r i j hr f hf
  have h := r.resetColumn_all
  simp only [Reg.resetColumn, hr, decide_false, Bool.false_or, List.all_eq_true, decide_eq_true_eq] at h
  rw [Chip.g, State.reset_rd, h f hf]
end

section
/-! Every command answers a next state and leaves the queue of waiting commands alone (log entry 2). -/

namespace Sys2Proof.Machine

/-! ### Operations of the whole state leave the queue alone -/

@[simp] theorem State.plimWrite_pending (s : State) (v : Nat) : (s.plimWrite v).pending = s.pending := rfl
@[simp] theorem State.coldReset_pending (s : State) (n : Nat) (x : Supply) : (s.coldReset n x).pending = s.pending := rfl
@[simp] theorem State.warmReset_pending (s : State) (n : Nat) : (s.warmReset n).pending = s.pending := rfl
@[simp] theorem State.shutDown_pending (s : State) (n : Nat) : (s.shutDown n).pending = s.pending := rfl
@[simp] theorem State.mapCap_pending (s : State) (ds : List Nat) (f : Nat → Nat) : (s.mapCap ds f).pending = s.pending := rfl
@[simp] theorem State.answer_pending (s : State) (n : Nat) (d : List Byte) : (s.answer n d).pending = s.pending := rfl

@[simp] theorem State.writeLoc_pending (s : State) (fn : Fn) (l : Loc) (hi lo d : Nat) :
    (s.writeLoc fn l hi lo d).pending = s.pending := by
  unfold State.writeLoc
  split
  · rfl
  · split <;> rfl

@[simp] theorem State.write4_pending (s : State) (fn : Fn) (off d : Nat) : (s.write4 fn off d).1.pending = s.pending := by
  unfold State.write4
  split
  · exact State.writeLoc_pending ..
  · rfl

@[simp] theorem State.barWrite_pending (s : State) (fn : Fn) (off size : Nat) (data : Word) :
    (s.barWrite fn off size data).pending = s.pending := by
  unfold State.barWrite
  dsimp only
  split
  · rfl
  · split
    · rfl
    · split
      · split_ifs <;> simp
      · split_ifs <;> simp

@[simp] theorem State.runClaim_pending (s : State) (p : Nat) : (s.runClaim p).pending = s.pending := by
  unfold State.runClaim; split <;> rfl

@[simp] theorem State.trip_pending (s : State) (cause sensor value : Nat) : (s.trip cause sensor value).pending = s.pending := by
  unfold State.trip; split <;> rfl

@[simp] theorem State.levelTrip_pending (s : State) (i : Nat) (v : Int) : (s.levelTrip i v).pending = s.pending := by
  unfold State.levelTrip
  split
  · split <;> simp
  · rfl

/-- Either branch leaves the queue alone. -/
theorem State.ite_pending {p : Prop} [Decidable p] {a b s : State} (ha : a.pending = s.pending) (hb : b.pending = s.pending) :
    (if p then a else b).pending = s.pending := by
  split
  · exact ha
  · exact hb

@[simp] theorem State.dropout_pending (s : State) : s.dropout.pending = s.pending := by
  unfold State.dropout
  extract_lets s₁
  rw [State.mapCap_pending]
  exact State.ite_pending rfl (State.onChip_pending ..)

@[simp] theorem State.fastRule_pending (s : State) (w : Nat) : (s.fastRule w).pending = s.pending := by
  unfold State.fastRule
  extract_lets fast s₁
  refine State.ite_pending ?_ (State.onChip_pending ..)
  rw [State.onChip_pending, State.mapCap_pending, State.onChip_pending]

@[simp] theorem State.inputTrips_pending (s : State) (mv ma : Nat) : (s.inputTrips mv ma).pending = s.pending := by
  unfold State.inputTrips
  exact State.ite_pending (State.trip_pending ..) (State.ite_pending (State.trip_pending ..)
    (State.ite_pending (State.trip_pending ..) rfl))

@[simp] theorem State.thermalRule_pending (s : State) (die : Nat) (v : Int) : (s.thermalRule die v).pending = s.pending := by
  unfold State.thermalRule
  extract_lets p hot p₁ s₁ s₂ last due
  have h : s₂.pending = s.pending := State.onChip_pending s₁ _
  exact State.ite_pending ((State.mapCap_pending ..).trans h) h

@[simp] theorem State.junctionSample_pending (s : State) (die k : Nat) (v : Int) (ok : Bool) :
    (s.junctionSample die k v ok).pending = s.pending := by
  unfold State.junctionSample
  extract_lets bad key js pw s₁ s₂
  have h : s₂.pending = s.pending := State.onChip_pending s₁ _
  split
  · exact State.ite_pending ((State.trip_pending ..).trans h) h
  · extract_lets s₃ s₄
    have h : s₄.pending = s.pending := (State.thermalRule_pending ..).trans ((State.onChip_pending ..).trans h)
    exact State.ite_pending ((State.trip_pending ..).trans h) ((State.levelTrip_pending ..).trans h)

@[simp] theorem State.coolantSample_pending (s : State) (i : Nat) (v : Int) (ok : Bool) :
    (s.coolantSample i v ok).pending = s.pending := by
  unfold State.coolantSample
  extract_lets a flow o s₁ pw
  have h : s₁.pending = s.pending := State.onChip_pending s _
  refine State.ite_pending ((State.trip_pending ..).trans h) ?_
  split
  · exact h
  · refine State.ite_pending (State.ite_pending ((State.trip_pending ..).trans h) h) ((State.levelTrip_pending ..).trans h)

@[simp] theorem State.deviceSample_pending (s : State) (i : Nat) (v : Int) (ok : Bool) :
    (s.deviceSample i v ok).pending = s.pending := by
  unfold State.deviceSample
  extract_lets bad s₁
  exact State.ite_pending (State.onChip_pending ..) ((State.levelTrip_pending ..).trans (State.onChip_pending ..))

@[simp] theorem State.mctpReset_pending (s : State) (kind : Nat) : (s.mctpReset kind).pending = s.pending := by
  unfold State.mctpReset; split_ifs <;> simp

/-! ### Answering -/

/-- An outcome is a next state with the queue of s. -/
def State.answers (s : State) (o : Host.Outcome State Fault Refusal) : Prop := ∃ t, o = .next t ∧ t.pending = s.pending

theorem State.answers.next {s t : State} (h : t.pending = s.pending) : s.answers (.next t) := ⟨t, rfl, h⟩

theorem State.answers.ite {s : State} {p : Prop} [Decidable p] {a b : Host.Outcome State Fault Refusal} (ha : s.answers a)
    (hb : s.answers b) : s.answers (if p then a else b) := by
  split
  · exact ha
  · exact hb

/-- Every branch of a request over the management bus answers. -/
theorem State.answers_serve (s : State) (always sub : Bool) (f : State → State) (h : (f s).pending = s.pending) :
    s.answers (s.serve always sub f) := by
  unfold State.serve
  refine .ite (.next rfl) (.ite (.next rfl) (.ite ?_ ?_))
  · exact .next (State.ite_pending h rfl)
  · exact .ite (.next rfl) (.next h)

theorem State.answers_serveChip (s : State) (always sub : Bool) (f : Chip → Chip) : s.answers (s.serveChip always sub f) :=
  s.answers_serve always sub _ rfl

end Sys2Proof.Machine
end

section
namespace Sys2Proof.Machine

theorem State.answers_nextChip (s : State) (f : Chip → Chip) : s.answers (nextChip s f) := .next rfl

/-! ### Commands that touch more than the chip, or the chip in some states only -/

theorem execPartStart_answers (fn : Fn) (p : Nat) (s : State) : s.answers (execPartStart fn p s) := by
  unfold execPartStart
  exact .ite (.next rfl) (.ite (.next (State.onChip_pending ..)) (.next rfl))

theorem execPartClaim_answers (fn : Fn) (p : Nat) (s : State) : s.answers (execPartClaim fn p s) := by
  unfold execPartClaim
  exact .ite (.next rfl) (.ite (.next (State.onChip_pending ..)) (.next rfl))

theorem execChgApplyDone_answers (s : State) : s.answers (execChgApplyDone s) := by
  unfold execChgApplyDone
  exact .ite (.next rfl) (.ite (.next (State.onChip_pending ..)) (.next rfl))

theorem execMemReady_answers (s : State) : s.answers (execMemReady s) := by
  unfold execMemReady
  extract_lets st s₁
  refine .ite (.next rfl) (.next ?_)
  rw [foldl_keeps State.pending State.runClaim State.runClaim_pending]
  exact State.onChip_pending ..

theorem execAliveTimeout_answers (s : State) : s.answers (execAliveTimeout s) := by
  unfold execAliveTimeout
  split
  · exact .ite (.next rfl) (.next (State.warmReset_pending ..))
  · exact .next rfl

theorem execLeakDetectorWetted_answers (s : State) : s.answers (execLeakDetectorWetted s) := by
  unfold execLeakDetectorWetted
  exact .next (State.trip_pending ..)

theorem execInputSample_answers (mv ma : Nat) (s : State) : s.answers (execInputSample mv ma s) := by
  unfold execInputSample
  extract_lets joules s₁ s₂ s₃
  have h : s₂.pending = s.pending := State.onChip_pending s₁ _
  split
  · exact .next h
  · exact .ite (.next ((State.coldReset_pending ..).trans h)) (.next h)
  · exact .ite (.next h) (.next ((State.inputTrips_pending ..).trans h))
  · refine .next ?_
    rw [State.inputTrips_pending, State.fastRule_pending]
    exact State.ite_pending ((State.dropout_pending _).trans h) h

theorem execThermalSample_answers (sensor : Nat) (value : Int) (ok : Bool) (s : State) :
    s.answers (execThermalSample sensor value ok s) := by
  unfold execThermalSample
  exact .ite (.next rfl) (.ite (.next (State.onChip_pending ..)) (.ite (.next (State.deviceSample_pending ..))
    (.ite (.next (State.coolantSample_pending ..)) (.ite (.next (State.junctionSample_pending ..)) (.next rfl)))))

theorem execMctpReset_answers (req : List Byte) (s : State) : s.answers (execMctpReset req s) := by
  refine s.answers_serve true true _ ?_
  split
  · exact State.mctpReset_pending ..
  · exact State.answer_pending ..

/-- Every command of the table answers a next state with the queue it found (R1, log entry 4). -/
theorem exec_answers (i : Instr) (s : State) : s.answers (exec i s) := by
  cases i
  case registerWrite fn off size data => exact .next (State.barWrite_pending ..)
  case partStart fn p => exact execPartStart_answers fn p s
  case partClaim fn p => exact execPartClaim_answers fn p s
  case chgApplyDone => exact execChgApplyDone_answers s
  case coldStart => exact .ite (.next (State.onChip_pending ..)) (.next rfl)
  case memReady => exact execMemReady_answers s
  case aliveTimeout => exact execAliveTimeout_answers s
  case bootWarm fn => exact .ite (.next (State.warmReset_pending ..)) (.next rfl)
  case bootCold fn => exact .ite (.next (State.coldReset_pending ..)) (.next rfl)
  case clockWindowEnd | islandClockChange | islandGate | islandWake | pwrQualified => exact .next rfl
  case prechargeDone => exact .ite (.next (State.onChip_pending ..)) (.next rfl)
  case holdupShutdown => exact .ite (.next (State.shutDown_pending ..)) (.next rfl)
  case pwrEnLow => exact .ite (.next (State.shutDown_pending ..)) (.next rfl)
  case tripExit => exact .ite (.next (State.coldReset_pending s 2 .precharge)) (.next rfl)
  case leakDetectorWetted => exact execLeakDetectorWetted_answers s
  case railOutOfRange rail => exact .next (State.trip_pending ..)
  case inputSample mv ma => exact execInputSample_answers mv ma s
  case averageRuleTick => exact .ite (.next ((State.onChip_pending ..).trans (State.mapCap_pending ..))) (.next rfl)
  case recoveryRuleTick => exact .ite (.next (State.mapCap_pending ..)) (.next rfl)
  case plimWrite fn data => exact .next (State.ite_pending (State.plimWrite_pending ..) rfl)
  case thermalSample sensor value ok => exact execThermalSample_answers sensor value ok s
  case hardenedScrubPass => exact .next rfl
  case mctpReset req => exact execMctpReset_answers req s
  case mctpGetStatus | mctpSelectSlot | mctpSetId | mctpMeterRead | mctpSensorRead | mctpChgAccess | mctpFwWrite |
      mctpSetEndpointId | mctpGetEndpointId | mctpGetVersionSupport | mctpGetMessageTypeSupport | mctpGetVdmSupport =>
    exact s.answers_serveChip _ _ _
  all_goals exact s.answers_nextChip _

/-! ### The tick (R9, R436, R437, R546–R549) -/

/-- The chip without what a nanosecond meters. -/
def Chip.sansMeters (c : Chip) : Chip := { c with meters := [], energy := [] }

theorem Chip.occupy_sansMeters (c : Chip) (p n : Nat) : (c.occupy p n).sansMeters = c.sansMeters := by
  simp only [Chip.sansMeters, Chip.occupy, Chip.charge, Chip.tally]

/-- Metering a nanosecond changes meters and energy alone. -/
theorem Chip.tickMeters_sansMeters (c : Chip) : c.tickMeters.sansMeters = c.sansMeters := by
  unfold Chip.tickMeters
  rw [Chip.occupy_sansMeters, foldl_keeps Chip.sansMeters _ (fun c p => c.occupy_sansMeters p _)]

/-- The chip that a tick starts from: metered where the module is supplied. -/
def State.metered (s : State) : Chip := if s.pwr.supply = .on then s.chip.tickMeters else s.chip

/-- Whatever is read of the chip but meters and energy is as before metering. -/
theorem State.metered_keeps {α : Type} (s : State) (g : Chip → α) (hg : ∀ c, g c.sansMeters = g c) : g s.metered = g s.chip := by
  unfold State.metered
  split
  · rw [← hg, s.chip.tickMeters_sansMeters, hg]
  · rfl

/-- System time and the module's own clock after a tick. -/
theorem State.tick_chip (s : State) : s.tick.chip =
    let c := s.metered
    let f := (c.time.frac : Int) + 65536 + slewOf c.time.corr
    { c with now := (c.now + (f / 65536).toNat) % 2 ^ 64, up := c.up + 1
             time := { c.time with frac := (f % 65536).toNat, corr := c.time.corr - slewOf c.time.corr } } := rfl

/-- A nanosecond and its share of the slew are 0 to 2 ns. -/
theorem slew_advance_le (frac : Nat) (corr : Int) (h : frac < 65536) :
    (((frac : Int) + 65536 + slewOf corr) / 65536).toNat ≤ 2 := by
  unfold slewOf; omega

theorem slew_advance_zero (frac : Nat) (h : frac < 65536) : (((frac : Int) + 65536 + slewOf 0) / 65536).toNat = 1 := by
  have : slewOf 0 = 0 := by decide
  omega

end Sys2Proof.Machine

open Sys2Proof.Machine in
/-- Settles O58: every meaning answers, a nanosecond moves the clocks, and metering touches meters and energy alone. -/
theorem everyStepAnswers : Obligations.EveryStepAnswers := by
  refine ⟨fun i s => exec_answers i s, fun s hs => ?_⟩
  have hnow := s.metered_keeps Chip.now (fun _ => rfl)
  have htime := s.metered_keeps Chip.time (fun _ => rfl)
  have hup := s.metered_keeps Chip.up (fun _ => rfl)
  refine ⟨s.tick, by simp only [step, hs], ⟨rfl, rfl⟩, congrArg (· + 1) hup, fun hf => ⟨_, slew_advance_le _ s.chip.time.corr hf, ?_⟩,
    fun h0 hf => ?_, s.metered_keeps Chip.mem (fun _ => rfl), s.metered_keeps Chip.poison (fun _ => rfl),
    s.metered_keeps Chip.regs (fun _ => rfl), s.metered_keeps Chip.queues (fun _ => rfl),
    s.metered_keeps Chip.out (fun _ => rfl), fun hon => ?_⟩
  · rw [s.tick_chip]; simp only [hnow, htime]
  · rw [s.tick_chip]; simp only [hnow, htime, h0, slew_advance_zero _ hf]
  · rw [s.tick_chip]; simp only [State.metered, hon, if_false, and_self]
end

section
/-! Accesses to unmapped offsets and writes of part of a word (R14, R568), and the causes of a function (R579). -/

namespace Sys2Proof.Machine

/-! ### Bits -/

theorem bit_eq_testBit (w n : Nat) : bit w n = w.testBit n := by
  rw [bit, Nat.shiftRight_eq_div_pow, Nat.testBit_eq_decide_div_mod_eq]; rfl

/-- A bit ORed into a field that holds it reads 1. -/
theorem bit_or_mod {n k : Nat} (w : Nat) (h : k < n) : bit ((w ||| 2 ^ k) % 2 ^ n) k = true := by
  rw [bit_eq_testBit, Nat.testBit_mod_two_pow, Nat.testBit_or, Nat.testBit_two_pow_self]
  simp [h]

/-! ### Causes and vectors -/

theorem fnIdx_lt (fn : Fn) : fnIdx fn < 2048 := by cases fn <;> simp only [fnIdx] <;> omega

theorem Chip.regsBut_raise (c : Chip) (f v : Nat) : c.regsBut (c.raise f v) [.MSIX_PBA] := by
  unfold Chip.raise
  dsimp only
  split
  · exact c.regsBut_wr _ _ _ _
  · exact Chip.regsBut_of_regs rfl _

theorem Chip.regsBut_cause (c : Chip) (f k : Nat) : c.regsBut (c.cause f k) [.HOSTIF_CAUSE, .MSIX_PBA] := by
  unfold Chip.cause
  have h : c.regsBut (c.orF .HOSTIF_CAUSE_CAUSE f (2 ^ k)) [.HOSTIF_CAUSE, .MSIX_PBA] :=
    (c.regsBut_put _ _ _ _).mono (by simp)
  dsimp only
  split
  · exact c.regsBut_refl _
  · split
    · exact h.trans ((Chip.regsBut_raise _ _ _).mono (by simp))
    · exact h

/-- Raising a vector changes a pending bit or sends a message. -/
theorem Chip.noRegs_raise (c : Chip) (f v : Nat) : (c.raise f v).noRegs = ({ c with out := (c.raise f v).out } : Chip).noRegs := by
  unfold Chip.raise
  dsimp only
  split <;> rfl

/-- A cause set changes its bit, and raises a vector or not. -/
theorem Chip.noRegs_cause (c : Chip) (f k : Nat) : (c.cause f k).noRegs = ({ c with out := (c.cause f k).out } : Chip).noRegs := by
  unfold Chip.cause
  dsimp only
  split
  · rfl
  · split
    · exact Chip.noRegs_raise ..
    · rfl

@[simp] theorem Chip.cause_mem (c : Chip) (f k : Nat) : (c.cause f k).mem = c.mem := (congrArg Chip.mem (c.noRegs_cause f k) :)

/-- A cause that was set stays set, whatever vector it raises. -/
theorem Chip.bit_cause (c : Chip) (f : Nat) {k : Nat} (h : k < 8) : bit ((c.cause f k).g .HOSTIF_CAUSE_CAUSE f) k = true := by
  have hs : bit ((c.orF .HOSTIF_CAUSE_CAUSE f (2 ^ k)).g .HOSTIF_CAUSE_CAUSE f) k = true := by
    rw [Chip.orF, Chip.g_put_same _ _ _ _ _ ⟨by decide, by decide⟩]
    exact bit_or_mod _ h
  unfold Chip.cause
  dsimp only
  split
  · assumption
  · split
    · exact (congrArg (bit · k) ((Chip.regsBut_raise _ _ _).g .HOSTIF_CAUSE_CAUSE f 0 (by decide))).trans hs
    · exact hs

/-! ### Accesses that reach nothing -/

/-- A function other than Ringmaster's window and the baseboard controller has its unmapped accesses counted. -/
theorem Chip.unmapped_eq (c : Chip) {fn : Fn} (h : fn ≠ .rm ∧ fn ≠ .bmc) (i : Nat) :
    c.unmapped fn i = (c.inc .HOSTIF_CNT_COUNT (fnIdx fn) 1 i).cause (fnIdx fn) 5 := by
  cases fn <;> simp_all [Chip.unmapped]

theorem Chip.badSize_eq (c : Chip) {fn : Fn} (h : fn ≠ .rm ∧ fn ≠ .bmc) :
    c.badSize fn = c.inc .HOSTIF_CNT_COUNT (fnIdx fn) 1 2 := by
  cases fn <;> simp_all [Chip.badSize]

@[simp] theorem Chip.unmapped_mem (c : Chip) (fn : Fn) (i : Nat) : (c.unmapped fn i).mem = c.mem := by
  cases fn <;> simp [Chip.unmapped]

/-- The count of the unmapped accesses of one kind, modulo its width. -/
theorem Chip.unmapped_count (c : Chip) {fn : Fn} (h : fn ≠ .rm ∧ fn ≠ .bmc) (i : Nat) :
    (c.unmapped fn i).g .HOSTIF_CNT_COUNT (fnIdx fn) i = (c.g .HOSTIF_CNT_COUNT (fnIdx fn) i + 1) % 2 ^ 64 := by
  rw [c.unmapped_eq h, (Chip.regsBut_cause _ _ _).g .HOSTIF_CNT_COUNT (fnIdx fn) i (by decide)]
  exact Chip.g_inc_same _ .HOSTIF_CNT_COUNT _ _ _ ⟨by decide, by decide⟩

theorem Chip.unmapped_cause (c : Chip) {fn : Fn} (h : fn ≠ .rm ∧ fn ≠ .bmc) (i : Nat) :
    bit ((c.unmapped fn i).g .HOSTIF_CAUSE_CAUSE (fnIdx fn)) 5 = true := by
  rw [c.unmapped_eq h]; exact Chip.bit_cause _ _ (by decide)

/-- A read of an unmapped offset outside the fault log. -/
theorem exec_unmappedRead (s : State) (fn : Fn) (off : Nat) {size : Nat} (h : s.chip.locate fn off = none) (hl : inLog fn off = false)
    (hs : 0 < size) : exec (.unmappedRead fn off size) s = .next (s.onChip (fun c => c.unmapped fn 0)) := by
  have hc : (if 0 < size ∧ (s.chip.locate fn off).isNone ∧ ¬ inLog fn off then s.chip.unmapped fn 0 else s.chip)
      = s.chip.unmapped fn 0 := if_pos ⟨hs, by simp [h], by simp [hl]⟩
  exact congrArg (fun c => Host.Outcome.next { s with chip := c }) hc

/-- A write of an aligned word of 4 B at an unmapped offset outside the fault log and `CHG_BUF`. -/
theorem exec_registerWrite_unmapped (s : State) (fn : Fn) (off : Nat) (data : Word) (h : s.chip.locate fn off = none)
    (hl : inLog fn off = false) (ha : off % 4 = 0) (hb : ¬ (0x79000 ≤ off ∧ off < 0x7A000)) :
    exec (.registerWrite fn off 4 data) s = .next (s.onChip (fun c => c.unmapped fn 1)) := by
  have hb' : ¬ (0x79000 ≤ off ∧ off < 0x7A000 ∧ (fnPriv fn ∨ fn = .bmc)) := fun hc => hb ⟨hc.1, hc.2.1⟩
  refine congrArg Host.Outcome.next ?_
  simp [State.barWrite, hb', ha, h, hl]

/-- A write of part of a word, or of a size that R568 does not name, outside `CHG_BUF`. -/
theorem exec_registerWrite_partial (s : State) (fn : Fn) (off size : Nat) (data : Word)
    (ha : off % 4 ≠ 0 ∨ (size ≠ 4 ∧ size ≠ 8)) (hb : ¬ (0x79000 ≤ off ∧ off < 0x7A000)) :
    exec (.registerWrite fn off size data) s = .next (s.onChip (fun c => c.badSize fn)) := by
  have hb' : ¬ (0x79000 ≤ off ∧ off < 0x7A000 ∧ (fnPriv fn ∨ fn = .bmc)) := fun hc => hb ⟨hc.1, hc.2.1⟩
  have ha' : off % 4 ≠ 0 ∨ ¬ (size = 4 ∨ size = 8) := ha.imp_right not_or.mpr
  refine congrArg Host.Outcome.next ?_
  unfold State.barWrite
  dsimp only
  rw [if_neg hb', if_pos ha']

end Sys2Proof.Machine

open Sys2Proof.Machine in
/-- Settles O10: the three accesses come down to a count, and for the unmapped ones the cause UNMAPPED. -/
theorem unmappedAndPartialAccesses : Obligations.UnmappedAndPartialAccesses := by
  intro s fn off hfn
  refine ⟨fun h hl => ⟨fun size hs => ?_, fun ha hb data => ?_⟩, fun size data ha hb => ?_⟩
  · exact ⟨_, exec_unmappedRead s fn off h hl hs, ⟨rfl, rfl⟩, s.chip.unmapped_mem fn 0, s.chip.unmapped_count hfn 0,
      s.chip.unmapped_cause hfn 0⟩
  · exact ⟨_, exec_registerWrite_unmapped s fn off data h hl ha hb, ⟨rfl, rfl⟩, s.chip.unmapped_mem fn 1,
      s.chip.unmapped_count hfn 1, s.chip.unmapped_cause hfn 1⟩
  · refine ⟨_, exec_registerWrite_partial s fn off size data ha hb, ⟨⟨rfl, rfl⟩, ?_, ?_⟩, ?_⟩ <;>
      rw [State.onChip_chip, s.chip.badSize_eq hfn]
    · exact Chip.noRegs_inc ..
    · exact s.chip.fieldsBut_put _ _ _ _ ⟨by decide, by decide⟩ (fnIdx_lt fn) (by decide)
    · exact Chip.g_inc_same _ _ _ _ _ ⟨by decide, by decide⟩
end

section
/-! What a register write does to each bit by the access type of its field (R12, R15–R18). -/

namespace Sys2Proof.Machine

/-! ### Bits of a word with a field replaced -/

theorem wset_getLsbD (w : Word) {hi lo : Nat} (v n : Nat) (h : lo ≤ hi) (hh : hi < 64) :
    (wset w hi lo v).getLsbD n = if lo ≤ n ∧ n ≤ hi then v.testBit (n - lo) else w.getLsbD n := by
  have hk : hi + 1 = lo + (hi + 1 - lo) := by omega
  simp only [BitVec.getLsbD, toNat_wset w hi lo v (by omega) hh, setBits_eq _ _ _ _ (show lo ≤ hi + 1 by omega)]
  rw [Nat.mul_comm _ (2 ^ lo), Nat.testBit_two_pow_mul_add _ (Nat.mod_lt _ (by positivity))]
  by_cases h1 : n < lo
  · simp [h1, Nat.testBit_mod_two_pow, Nat.not_le.mpr h1]
  · rw [if_neg h1, Nat.mul_comm _ (2 ^ _), Nat.testBit_two_pow_mul_add _ (Nat.mod_lt _ (by positivity))]
    by_cases h2 : n ≤ hi
    · rw [if_pos (by omega), if_pos (by omega), Nat.testBit_mod_two_pow]
      simp; omega
    · rw [if_neg (by omega), if_neg (by omega), Nat.testBit_div_two_pow]
      congr 1; omega

theorem bits_testBit (w hi lo n : Nat) : (bits w hi lo).testBit n = (decide (n < hi + 1 - lo) && w.testBit (n + lo)) := by
  rw [bits, Nat.testBit_mod_two_pow, Nat.testBit_shiftRight, Nat.add_comm lo]

/-- Words that agree on the bits of a field hold the same there. -/
theorem wbits_congr {w w' : Word} {hi lo : Nat} (h : ∀ n, lo ≤ n → n ≤ hi → w.getLsbD n = w'.getLsbD n) :
    wbits w hi lo = wbits w' hi lo := by
  refine Nat.eq_of_testBit_eq (fun n => ?_)
  rw [wbits, wbits, bits_testBit, bits_testBit]
  by_cases hn : n < hi + 1 - lo
  · have := h (n + lo) (by omega) (by omega)
    simp only [BitVec.getLsbD] at this
    rw [this]
  · simp [hn]

/-! ### The field tables -/

/-- The fields of a register lie within 64 bits and share none. -/
def Reg.fieldsApart (r : Reg) : Bool :=
  r.fields.all (fun f => decide (f.lo ≤ f.hi) && decide (f.hi < 64)) &&
    decide (r.fields.Pairwise (fun f g => f.hi < g.lo ∨ g.hi < f.lo))

theorem Reg.fieldsApart_all (r : Reg) : r.fieldsApart = true := Reg.forall_of_all (by decide +kernel) r

theorem Reg.field_bounds {r : Reg} {f : FieldInfo} (hf : f ∈ r.fields) : f.lo ≤ f.hi ∧ f.hi < 64 := by
  have h := r.fieldsApart_all
  simp only [Reg.fieldsApart, Bool.and_eq_true, List.all_eq_true, decide_eq_true_eq] at h
  exact h.1 f hf

theorem Reg.fields_pairwise (r : Reg) : r.fields.Pairwise (fun f g => f.hi < g.lo ∨ g.hi < f.lo) := by
  have h := r.fieldsApart_all
  simp only [Reg.fieldsApart, Bool.and_eq_true, decide_eq_true_eq] at h
  exact h.2

/-- A field holds a bit. -/
def FieldInfo.has (f : FieldInfo) (n : Nat) : Bool := decide (f.lo ≤ n) && decide (n ≤ f.hi)

theorem FieldInfo.has_iff (f : FieldInfo) (n : Nat) : f.has n = true ↔ f.lo ≤ n ∧ n ≤ f.hi := by simp [FieldInfo.has]

/-- A bit lies in one field of a register at most. -/
theorem Reg.field_unique {r : Reg} {f g : FieldInfo} {n : Nat} (hf : f ∈ r.fields) (hg : g ∈ r.fields) (hfn : f.has n = true)
    (hgn : g.has n = true) : f = g := by
  by_contra hne
  have : Std.Symm (fun f g : FieldInfo => f.hi < g.lo ∨ g.hi < f.lo) := ⟨fun _ _ => Or.symm⟩
  have := r.fields_pairwise.forall hf hg hne
  rw [FieldInfo.has_iff] at hfn hgn
  omega

/-- The field that holds a bit is the first that does. -/
theorem Reg.find_field {r : Reg} {f : FieldInfo} {n : Nat} (hf : f ∈ r.fields) (hn : f.has n = true) :
    r.fields.find? (fun f => decide (f.lo ≤ n) && decide (n ≤ f.hi)) = some f := by
  cases h : r.fields.find? (fun f => decide (f.lo ≤ n) && decide (n ≤ f.hi)) with
  | none => exact absurd hn (List.find?_eq_none.mp h f hf)
  | some g => rw [Reg.field_unique (List.mem_of_find?_eq_some h) hf (List.find?_some (p := fun f : FieldInfo => f.has n) h) hn]

/-! ### One field written -/

theorem bits_testBit_sub (w : Nat) {hi lo n : Nat} (h : lo ≤ n ∧ n ≤ hi) : (bits w hi lo).testBit (n - lo) = w.testBit n := by
  rw [bits_testBit, Nat.sub_add_cancel h.1]
  simp; omega

/-- A bit of a field after a write of the bits from lo to hi, by the access type (R15, R17, R18). -/
def FieldInfo.bitAfter (f : FieldInfo) (locked : Bool) (r : Reg) (lo hi d : Nat) (old : Bool) (n : Nat) : Bool :=
  if f.da ∨ n < lo ∨ hi < n ∨ (f.lk ∧ locked) ∨ ownRow r f.lo then old
  else match f.acc with
    | .RW => d.testBit n
    | .WO => d.testBit n
    | .W1C => old && !d.testBit n
    | _ => old

theorem FieldInfo.bitAfter_kept {f : FieldInfo} {locked : Bool} {r : Reg} {lo hi : Nat} (d : Nat) (old : Bool) {n : Nat}
    (h : f.da ∨ n < lo ∨ hi < n ∨ (f.lk ∧ locked) ∨ ownRow r f.lo) : f.bitAfter locked r lo hi d old n = old := if_pos h

/-- One field written: bit by bit by its access type, and nothing outside it. -/
theorem writeField_getLsbD (locked : Bool) (r : Reg) {lo hi : Nat} (d : Nat) (w : Word) {f : FieldInfo} (n : Nat) (hl : lo ≤ hi)
    (hh : hi < 64) (hf : f.lo ≤ f.hi) :
    (writeField locked r lo hi d w f).getLsbD n = if f.has n then f.bitAfter locked r lo hi d (w.getLsbD n) n else w.getLsbD n := by
  unfold writeField
  by_cases hs : f.da ∨ f.hi < lo ∨ hi < f.lo ∨ (f.lk ∧ locked) ∨ ownRow r f.lo
  · -- the field is not written: its bits are DA, locked, another row's, or outside the written bits
    rw [if_pos hs]
    split
    · next hn =>
      rw [FieldInfo.has_iff] at hn
      refine (FieldInfo.bitAfter_kept d _ ?_).symm
      rcases hs with h | h | h | h
      · exact .inl h
      · exact .inr (.inl (by omega))
      · exact .inr (.inr (.inl (by omega)))
      · exact .inr (.inr (.inr h))
    · rfl
  rw [if_neg hs]
  simp only [not_or, Nat.not_lt] at hs
  obtain ⟨hda, h1, h2, hlk, hown⟩ := hs
  by_cases hn : max lo f.lo ≤ n ∧ n ≤ min hi f.hi
  · -- a written bit of the field
    have hb : ∀ v, (wset w (min hi f.hi) (max lo f.lo) v).getLsbD n = v.testBit (n - max lo f.lo) := fun v => by
      rw [wset_getLsbD w v n (by omega) (by omega), if_pos hn]
    have hw : ¬ (f.da ∨ n < lo ∨ hi < n ∨ (f.lk ∧ locked) ∨ ownRow r f.lo) := by
      simp only [not_or, Nat.not_lt]; exact ⟨hda, by omega, by omega, hlk, hown⟩
    rw [if_pos ((f.has_iff n).mpr (by omega)), FieldInfo.bitAfter, if_neg hw]
    cases f.acc <;> dsimp only
    case RW | WO => rw [hb, bits_testBit_sub _ hn]
    case W1C =>
      have : n - max lo f.lo < min hi f.hi + 1 - max lo f.lo := by omega
      rw [hb, Nat.testBit_and, Nat.testBit_xor, bits_testBit_sub _ hn, wbits, bits_testBit_sub _ hn, Nat.testBit_two_pow_sub_one]
      simp [this, BitVec.getLsbD]
  · -- a bit outside the field or outside the written bits
    have hb : ∀ v, (wset w (min hi f.hi) (max lo f.lo) v).getLsbD n = w.getLsbD n := fun v => by
      rw [wset_getLsbD w v n (by omega) (by omega), if_neg hn]
    have hr : (if f.has n then f.bitAfter locked r lo hi d (w.getLsbD n) n else w.getLsbD n) = w.getLsbD n := by
      split
      · next hf => rw [FieldInfo.has_iff] at hf; exact FieldInfo.bitAfter_kept d _ (by omega)
      · rfl
    rw [hr]
    cases f.acc <;> simp only [hb]

/-! ### The fields of a register written -/

section
variable {locked : Bool} {r : Reg} {lo hi d : Nat}

/-- Fields that do not hold a bit leave it as it is. -/
theorem foldl_writeField_outside (hl : lo ≤ hi) (hh : hi < 64) (l : List FieldInfo) (hb : ∀ f ∈ l, f.lo ≤ f.hi) {n : Nat}
    (hn : ∀ f ∈ l, f.has n = false) (w : Word) : (l.foldl (writeField locked r lo hi d) w).getLsbD n = w.getLsbD n := by
  induction l generalizing w with
  | nil => rfl
  | cons f l ih =>
    rw [List.foldl_cons, ih (fun g hg => hb g (.tail _ hg)) (fun g hg => hn g (.tail _ hg)),
      writeField_getLsbD locked r d w n hl hh (hb f (.head _)), hn f (.head _)]
    rfl

/-- Of fields that share no bit, the one that holds a bit decides it. -/
theorem foldl_writeField_inside (hl : lo ≤ hi) (hh : hi < 64) (l : List FieldInfo) (hb : ∀ f ∈ l, f.lo ≤ f.hi)
    (hp : l.Pairwise (fun f g => f.hi < g.lo ∨ g.hi < f.lo)) {f : FieldInfo} (hf : f ∈ l) {n : Nat} (hn : f.has n = true) (w : Word) :
    (l.foldl (writeField locked r lo hi d) w).getLsbD n = f.bitAfter locked r lo hi d (w.getLsbD n) n := by
  induction l generalizing w with
  | nil => cases hf
  | cons g l ih =>
    obtain ⟨hg, hp⟩ := List.pairwise_cons.mp hp
    have hbl : ∀ f ∈ l, f.lo ≤ f.hi := fun f hf => hb f (.tail _ hf)
    have hw := writeField_getLsbD locked r d w n hl hh (hb g (.head _))
    rw [List.foldl_cons]
    rw [FieldInfo.has_iff] at hn
    rcases List.mem_cons.mp hf with rfl | hf
    · have hout : ∀ g ∈ l, g.has n = false := fun g hgl => by
        have := hg g hgl
        simp only [FieldInfo.has, Bool.and_eq_false_iff, decide_eq_false_iff_not]; omega
      rw [foldl_writeField_outside hl hh l hbl hout, hw, if_pos ((f.has_iff n).mpr hn)]
    · have hg := hg f hf
      rw [ih hbl hp hf, hw, if_neg (by rw [FieldInfo.has_iff]; omega)]

end

/-- The fields of a register that a write of the bits from lo to hi meets, and that have no operation of their own. -/
def Reg.touched (r : Reg) (hi lo : Nat) : List FieldInfo :=
  r.fields.filter (fun f => decide (lo ≤ f.hi) && decide (f.lo ≤ hi) && !ownRow r f.lo)

theorem Reg.mem_touched {r : Reg} {hi lo : Nat} {f : FieldInfo} :
    f ∈ r.touched hi lo ↔ f ∈ r.fields ∧ lo ≤ f.hi ∧ f.lo ≤ hi ∧ ownRow r f.lo = false := by
  simp [Reg.touched, and_assoc]

theorem Reg.touched_bounds {r : Reg} {hi lo : Nat} (f : FieldInfo) (hf : f ∈ r.touched hi lo) : f.lo ≤ f.hi :=
  (Reg.field_bounds (Reg.mem_touched.mp hf).1).1

/-- Where the field of a bit is not written, no written field holds the bit. -/
theorem Reg.touched_not_has {r : Reg} {hi lo n : Nat} {f : FieldInfo} (hf : f ∈ r.fields) (hn : f.has n = true)
    (ht : f ∉ r.touched hi lo) : ∀ g ∈ r.touched hi lo, g.has n = false := fun g hg => by
  by_contra hgn
  exact ht (Reg.field_unique hf (Reg.mem_touched.mp hg).1 hn (by simpa using hgn) ▸ hg)

/-- The word of a register after a write of its bits from lo to hi by access types, bit by bit. -/
theorem Reg.touched_getLsbD (r : Reg) (locked : Bool) {lo hi : Nat} (d : Nat) (old data : Word) (hl : lo ≤ hi) (hh : hi < 64)
    (hd : ∀ n, lo ≤ n → n ≤ hi → d.testBit n = data.getLsbD (n - lo)) (n : Nat) :
    ((r.touched hi lo).foldl (writeField locked r lo hi d) old).getLsbD n = writtenBit r locked old lo (hi + 1 - lo) data n := by
  unfold writtenBit
  split
  · next hnone =>
    refine foldl_writeField_outside hl hh _ Reg.touched_bounds (fun f hf => ?_) old
    exact Bool.eq_false_iff.mpr (List.find?_eq_none.mp hnone f (Reg.mem_touched.mp hf).1)
  · next f hsome =>
    have hf := List.mem_of_find?_eq_some hsome
    have hn : f.has n = true := List.find?_some (p := fun f : FieldInfo => f.has n) hsome
    have hn' := (f.has_iff n).mp hn
    by_cases ht : f ∈ r.touched hi lo
    · rw [foldl_writeField_inside hl hh _ Reg.touched_bounds (r.fields_pairwise.filter _) ht hn, FieldInfo.bitAfter]
      by_cases hk : f.da ∨ n < lo ∨ hi < n ∨ (f.lk ∧ locked) ∨ ownRow r f.lo
      · rw [if_pos hk, if_pos]
        rcases hk with h | h | h | h
        · exact .inr (.inr (.inl h))
        · exact .inl h
        · exact .inr (.inl (by omega))
        · exact .inr (.inr (.inr h))
      · have hk' := hk
        simp only [not_or, Nat.not_lt] at hk'
        obtain ⟨hda, h1, h2, hrest⟩ := hk'
        have hw : ¬ (n < lo ∨ lo + (hi + 1 - lo) ≤ n ∨ f.da ∨ (f.lk ∧ locked) ∨ ownRow r f.lo) := by
          simp only [not_or, Nat.not_lt, Nat.not_le]; exact ⟨h1, by omega, hda, hrest⟩
        rw [if_neg hk, if_neg hw, hd n h1 h2] <;> cases f.acc <;> rfl
    · rw [foldl_writeField_outside hl hh _ Reg.touched_bounds (Reg.touched_not_has hf hn ht), if_pos]
      by_cases ho : ownRow r f.lo
      · exact .inr (.inr (.inr (.inr ho)))
      · have : ¬ (lo ≤ f.hi ∧ f.lo ≤ hi) := fun hc => ht (Reg.mem_touched.mpr ⟨hf, hc.1, hc.2, by simpa using ho⟩)
        omega

end Sys2Proof.Machine
end

section
/-! Register writes and reads at a BAR0 offset (R12, R15–R18, R536). -/

namespace Sys2Proof.Machine

/-! ### Where an aligned offset lies -/

/-- Registers lie at multiples of 4 B and are 32 or 64 bits wide. -/
def Reg.aligned (r : Reg) : Bool :=
  decide (r.info.base % 4 = 0) && decide (r.info.stride % 4 = 0) && (decide (r.info.width = 32) || decide (r.info.width = 64))

theorem Reg.aligned_all (r : Reg) : r.aligned = true := Reg.forall_of_all (by decide +kernel) r

theorem findReg_some {w : Win} {o : Nat} {l : List Reg} {r : Reg} {j b : Nat} (h : findReg w o l = some (r, j, b)) :
    r.within w o = some (j, b) := by
  induction l with
  | nil => cases h
  | cons q l ih =>
    unfold findReg at h
    split at h
    · next hq => cases h; exact hq
    · exact ih h

/-- The place that a function reaches lies in the window of its offset. -/
theorem Chip.locate_some {c : Chip} {fn : Fn} {off : Nat} {l : Loc} (h : c.locate fn off = some l) :
    ∃ w i o, windowOf off = some (w, i, o) ∧ l.reg.within w o = some (l.idx, l.byte) := by
  unfold Chip.locate at h
  split at h
  · cases h
  · next w i o hw =>
    refine ⟨w, i, o, hw, ?_⟩
    split at h
    · cases h
    · next r j b hf =>
      split at h
      · cases h
      · split at h
        · cases h; exact findReg_some hf
        · cases h

theorem windowOf_mod4 {off : Nat} {w : Win} {i o : Nat} (h : windowOf off = some (w, i, o)) (ha : off % 4 = 0) : o % 4 = 0 := by
  simp only [windowOf] at h
  split_ifs at h <;> simp only [Option.some.injEq, Prod.mk.injEq] at h <;> omega

/-- An aligned offset reaches the low or the high half of a register. -/
theorem Chip.locate_half {c : Chip} {fn : Fn} {off : Nat} {l : Loc} (h : c.locate fn off = some l) (ha : off % 4 = 0) :
    l.byte = 0 ∨ l.byte = 4 := by
  obtain ⟨w, i, o, hw, hin⟩ := Chip.locate_some h
  obtain ⟨-, -, hb, ho⟩ := Reg.within_some hin
  have hmod := windowOf_mod4 hw ha
  have hal := l.reg.aligned_all
  simp only [Reg.aligned, Bool.and_eq_true, Bool.or_eq_true, decide_eq_true_eq] at hal
  obtain ⟨⟨hbase, hstride⟩, hwidth⟩ := hal
  have : l.idx * l.reg.info.stride % 4 = 0 := by rw [Nat.mul_mod, hstride, Nat.mul_zero, Nat.zero_mod]
  dsimp only at hb ho
  omega

/-! ### Registers with no rule of their own -/

theorem Reg.plain_ne {r q : Reg} (h : r.plain = true) (hq : q.plain = false) : r ≠ q := by
  rintro rfl; rw [h] at hq; cases hq

/-- Registers that windows and Ringmaster alone write have rules of their own. -/
theorem Reg.plain_rules {r : Reg} (h : r.plain = true) : winReg r = false ∧ rmOnly r = false := by
  have : (!r.plain || (!winReg r && !rmOnly r)) = true :=
    Reg.forall_of_all (p := fun r => !r.plain || (!winReg r && !rmOnly r)) (by decide +kernel) r
  simpa [h] using this

theorem Chip.writeDropped_plain (c : Chip) (fn : Fn) {l : Loc} (h : l.reg.plain = true) : c.writeDropped fn l = (false, none) := by
  unfold Chip.writeDropped
  split
  case h_9 => simp [(Reg.plain_rules h).2]
  all_goals next hr => exact absurd hr (Reg.plain_ne h rfl)

theorem stored_plain {r : Reg} (h : r.plain = true) (f : Nat) (w : Word) : stored r f w = w := by
  unfold stored
  dsimp only
  split
  case h_21 => rfl
  all_goals next hr => exact absurd rfl (Reg.plain_ne h rfl)

/-- The word of a register after a write of its bits from lo to hi by access types. -/
def Chip.newWord (c : Chip) (r : Reg) (i j hi lo d : Nat) : Word :=
  (r.touched hi lo).foldl (writeField (c.isLocked r i) r lo hi d) (c.rd r i j)

/-- The chip with the lock violation of a write recorded, if it is one (R17, R536). -/
def Chip.violated (c : Chip) (l : Loc) (hi lo : Nat) : Chip :=
  if c.isLocked l.reg l.inst && (l.reg.touched hi lo).any (fun f => f.lk) then
    match c.lockPart l.reg l.inst with
    | some p => c.lockViol p (l.reg.offset l.inst l.idx + (if 32 ≤ lo then 4 else 0))
    | none => c
  else c

/-- A register with no rule of its own is written by the access types of its fields, and a lock violation is recorded. -/
theorem Chip.writeReg_plain (c : Chip) (fn : Fn) {l : Loc} (h : l.reg.plain = true) (hi lo d : Nat) :
    c.writeReg fn l hi lo d = (c.violated l hi lo).wrBits l.reg l.inst (c.newWord l.reg l.inst l.idx hi lo d) hi lo l.idx := by
  unfold Chip.writeReg
  rw [c.writeDropped_plain fn h]
  simp only [stored_plain h, Bool.false_eq_true, if_false]
  split
  case h_14 => rfl
  all_goals next hr => exact absurd hr (Reg.plain_ne h rfl)

theorem Chip.writeLoc_plain (c : Chip) (fn : Fn) {l : Loc} (h : l.reg.plain = true) (hi lo d : Nat) :
    c.writeLoc fn l hi lo d = c.writeReg fn l hi lo d := by
  unfold Chip.writeLoc
  rw [(Reg.plain_rules h).1]
  simp only [Bool.false_eq_true, if_false]
  split
  case h_12 => rfl
  all_goals next hr => exact absurd hr (Reg.plain_ne h rfl)

/-- Registers but clocks and PLIM lie on the chip. -/
theorem State.writeLoc_chip (s : State) (fn : Fn) {l : Loc} (hc : islandOf l = none) (hp : l.reg ≠ .PWR_CTL) (hi lo d : Nat) :
    s.writeLoc fn l hi lo d = s.onChip (fun c => c.writeLoc fn l hi lo d) := by
  unfold State.writeLoc
  rw [hc]
  exact if_neg hp

theorem islandOf_none {l : Loc} (h1 : l.reg ≠ .RGN_CLK) (h2 : l.reg ≠ .CLU_CLK) : islandOf l = none := by
  unfold islandOf
  split
  · next hr => exact absurd hr h1
  · next hr => exact absurd hr h2
  · rfl

theorem State.writeLoc_plain (s : State) (fn : Fn) {l : Loc} (h : l.reg.plain = true) (hi lo d : Nat) :
    s.writeLoc fn l hi lo d = s.onChip (fun c => c.writeReg fn l hi lo d) := by
  rw [s.writeLoc_chip fn (islandOf_none (Reg.plain_ne h rfl) (Reg.plain_ne h rfl)) (Reg.plain_ne h rfl)]
  simp only [State.onChip, Chip.writeLoc_plain _ _ h]

/-! ### Writes through BAR0 -/

/-- A write of an aligned word of 4 B to a place. -/
theorem exec_registerWrite_word (s : State) {fn : Fn} {off : Nat} {l : Loc} (data : Word) (ha : off % 4 = 0)
    (hb : ¬ (0x79000 ≤ off ∧ off < 0x7A000)) (h : s.chip.locate fn off = some l) :
    exec (.registerWrite fn off 4 data) s =
      .next (s.writeLoc fn l (8 * l.byte + 31) (8 * l.byte) (data.toNat % 2 ^ 32 * 2 ^ (8 * l.byte))) := by
  have hb' : ¬ (0x79000 ≤ off ∧ off < 0x7A000 ∧ (fnPriv fn ∨ fn = .bmc)) := fun hc => hb ⟨hc.1, hc.2.1⟩
  refine congrArg Host.Outcome.next ?_
  unfold State.barWrite
  dsimp only
  rw [if_neg hb', if_neg (by omega), h]
  simp [State.write4, h]

/-- A write of a whole 64-bit register at its place. -/
theorem exec_registerWrite_whole (s : State) {fn : Fn} {off : Nat} {l : Loc} (data : Word) (ha : off % 8 = 0)
    (hb : ¬ (0x79000 ≤ off ∧ off < 0x7A000)) (h : s.chip.locate fn off = some l) (hl : l.byte = 0) (hw : l.reg.info.width = 64) :
    exec (.registerWrite fn off 8 data) s = .next (s.writeLoc fn l 63 0 data.toNat) := by
  have hb' : ¬ (0x79000 ≤ off ∧ off < 0x7A000 ∧ (fnPriv fn ∨ fn = .bmc)) := fun hc => hb ⟨hc.1, hc.2.1⟩
  refine congrArg Host.Outcome.next ?_
  unfold State.barWrite
  dsimp only
  rw [if_neg hb', if_neg (by omega), h]
  simp [ha, hl, hw]

/-! ### What a written place reads as -/

/-- Bits of a 4 B word put in its place in the register. -/
theorem shifted_testBit (data : Word) (lo n : Nat) (h1 : lo ≤ n) (h2 : n ≤ lo + 31) :
    (data.toNat % 2 ^ 32 * 2 ^ lo).testBit n = data.getLsbD (n - lo) := by
  rw [Nat.testBit_mul_two_pow, Nat.testBit_mod_two_pow, BitVec.getLsbD]
  simp [h1]; omega

/-- Every bit of a written register, for a write of some of its bits. -/
theorem Chip.writeReg_bit (c : Chip) (fn : Fn) {l : Loc} (h : l.reg.plain = true) {hi lo d : Nat} (data : Word) (hl : lo ≤ hi)
    (hh : hi < 64) (hd : ∀ n, lo ≤ n → n ≤ hi → d.testBit n = data.getLsbD (n - lo)) (n : Nat) :
    ((c.writeReg fn l hi lo d).rd l.reg l.inst l.idx).getLsbD n =
      writtenBit l.reg (c.isLocked l.reg l.inst) (c.rd l.reg l.inst l.idx) lo (hi + 1 - lo) data n := by
  rw [c.writeReg_plain fn h, Chip.rd_wrBits_same]
  exact l.reg.touched_getLsbD _ d _ data hl hh hd n

theorem Chip.violated_unlocked (c : Chip) {l : Loc} (h : c.isLocked l.reg l.inst = false) (hi lo : Nat) : c.violated l hi lo = c := by
  simp [Chip.violated, h]

/-- Of an unlocked register nothing but the register changes. -/
theorem Chip.writeReg_unlocked (c : Chip) (fn : Fn) {l : Loc} (h : l.reg.plain = true) (hk : c.isLocked l.reg l.inst = false)
    (hi lo d : Nat) : (c.writeReg fn l hi lo d).noRegs = c.noRegs ∧ ∀ r i j, regKey r i j ≠ regKey l.reg l.inst l.idx →
      (c.writeReg fn l hi lo d).rd r i j = c.rd r i j := by
  rw [c.writeReg_plain fn h, c.violated_unlocked hk]
  exact ⟨rfl, fun r i j hne => c.rd_wrBits_other _ _ _ _ _ _ hne⟩

/-! ### Reads -/

theorem wbits_halves (w : Word) : wbits w 31 0 + wbits w 63 32 * 2 ^ 32 = w.toNat := by
  have := w.isLt
  simp only [wbits, bits, Nat.shiftRight_eq_div_pow]; omega

/-! ### Registers whose 4 B write is their own operation -/

/-- The bits of the addressed half that a 4 B write replaces. -/
theorem Chip.merged_word (c : Chip) (r : Reg) (i j lo : Nat) (data : Word) :
    c.merged r i j (lo + 31) lo (data.toNat % 2 ^ 32 * 2 ^ lo) = wset (c.rd r i j) (lo + 31) lo (data.toNat % 2 ^ 32) := by
  have : bits (data.toNat % 2 ^ 32 * 2 ^ lo) (lo + 31) lo = data.toNat % 2 ^ 32 := by
    rw [bits, Nat.shiftRight_eq_div_pow, Nat.mul_div_cancel _ (by positivity), show lo + 31 + 1 - lo = 32 by omega, Nat.mod_mod]
  rw [Chip.merged, this]

/-- A 4 B write of a place of the chip whose operation takes the register's word with the addressed half replaced. -/
theorem exec_registerWrite_own (s : State) {fn : Fn} {off : Nat} {l : Loc} (data : Word) (ha : off % 4 = 0)
    (hb : ¬ (0x79000 ≤ off ∧ off < 0x7A000)) (h : s.chip.locate fn off = some l) (hi : islandOf l = none) (hp : l.reg ≠ .PWR_CTL)
    (f : Chip → Word → Chip) (hf : ∀ c hi lo d, Chip.writeLoc c fn l hi lo d = f c (c.merged l.reg l.inst l.idx hi lo d)) :
    exec (.registerWrite fn off 4 data) s = .next (s.onChip (fun c => f c
      (wset (c.rd l.reg l.inst l.idx) (8 * l.byte + 31) (8 * l.byte) (data.toNat % 2 ^ 32)))) := by
  rw [exec_registerWrite_word s data ha hb h, s.writeLoc_chip fn hi hp]
  simp only [State.onChip, hf, Chip.merged_word]

end Sys2Proof.Machine

open Sys2Proof.Machine in
/-- Settles O8: the write of a plain register is a fold over its fields, of which one at most holds each bit. -/
theorem registerWriteByAccessType : Obligations.RegisterWriteByAccessType := by
  refine ⟨fun s fn off data l ha hb h hp => ⟨?_, fun h8 hl hw => ?_⟩, fun s fn off data l ha hb h _ => ?_, fun s fn off l h hbyte => ?_⟩
  · have hhalf := Chip.locate_half h ha
    refine ⟨_, exec_registerWrite_word s data ha hb h, ?_⟩
    rw [s.writeLoc_plain fn hp]
    refine ⟨⟨rfl, rfl⟩, fun n _ => ?_, fun hk => s.chip.writeReg_unlocked fn hp hk _ _ _⟩
    rw [State.onChip_chip, s.chip.writeReg_bit fn hp data (by omega) (by omega) (fun n h1 h2 => shifted_testBit data _ n h1 h2),
      show 8 * l.byte + 31 + 1 - 8 * l.byte = 32 by omega]
  · refine ⟨_, exec_registerWrite_whole s data h8 hb h hl hw, ?_⟩
    rw [s.writeLoc_plain fn hp]
    refine ⟨rfl, fun n _ => ?_, fun hk => s.chip.writeReg_unlocked fn hp hk _ _ _⟩
    rw [State.onChip_chip, s.chip.writeReg_bit fn hp data (by omega) (by omega) (fun n _ _ => rfl)]
  · have own := exec_registerWrite_own s data ha hb h
    refine ⟨fun hr => ?_, fun hr => ?_, fun hr => ?_, fun hr => ?_, fun hr => ?_⟩
    · exact own (by simp [islandOf, hr]) (by simp [hr]) (fun c w => c.qendWrite fn l.inst w) (fun _ _ _ _ => by
        simp [Chip.writeLoc, hr, winReg, winBase, winRack])
    · exact own (by simp [islandOf, hr]) (by simp [hr]) (fun c w => c.cgrantWrite fn l.inst l.idx w) (fun _ _ _ _ => by
        simp [Chip.writeLoc, hr, winReg, winBase, winRack])
    · exact own (by simp [islandOf, hr]) (by simp [hr]) (fun c w => c.hiqBase l.inst l.idx w) (fun _ _ _ _ => by
        simp [Chip.writeLoc, hr, winReg, winBase, winRack])
    · exact own (by simp [islandOf, hr]) (by simp [hr]) (fun c w => c.hoqBase l.inst l.idx w) (fun _ _ _ _ => by
        simp [Chip.writeLoc, hr, winReg, winBase, winRack])
    · have hne : ∀ q, winReg q = false → l.reg ≠ q := fun q hq e => by rw [e, hq] at hr; cases hr
      exact own (islandOf_none (hne _ rfl) (hne _ rfl)) (hne _ rfl) (fun c w => c.winWrite l w) (fun _ _ _ _ => by
        simp [Chip.writeLoc, hr])
  · have hr4 : s.read4 fn off = wbits (s.readAt fn { l with byte := 0 }) (8 * l.byte + 31) (8 * l.byte) := by
      simp only [State.read4, h]
    refine ⟨by simp [State.read, hr4], fun h' hh hb' hl he => ?_⟩
    have hr4' : s.read4 fn (off + 4) = wbits (s.readAt fn { l with byte := 0 }) 63 32 := by
      simp only [State.read4, hh, hb', he]
    rw [State.read, if_pos rfl, hr4, hr4', hl, wbits_halves, Sys2Proof.Word.ofNat, BitVec.ofNat_toNat, BitVec.setWidth_eq]
end

section
/-! A write that meets a locked field (R17, R536). -/

namespace Sys2Proof.Machine

/-- A write that meets an LK field of a locked register records it for the partition that locks it. -/
theorem Chip.violated_locked (c : Chip) {l : Loc} {p hi lo : Nat} {f : FieldInfo} (hp : c.lockPart l.reg l.inst = some p)
    (hr : c.runs p = true) (hf : f ∈ l.reg.touched hi lo) (hlk : f.lk = true) :
    c.violated l hi lo = c.lockViol p (l.reg.offset l.inst l.idx + if 32 ≤ lo then 4 else 0) := by
  have hk : c.isLocked l.reg l.inst = true := by simp only [Chip.isLocked, hp, hr]
  have hany : (l.reg.touched hi lo).any (fun f => f.lk) = true := List.any_eq_true.mpr ⟨f, hf, hlk⟩
  simp [Chip.violated, hk, hany, hp]

theorem Chip.lockViol_marked (c : Chip) (p off : Nat) : (c.lockViol p off).g .PART_STAT_LOCK_VIOL p = 1 := by
  unfold Chip.lockViol
  rw [Chip.g_put_reg _ _ _ _ _ _ _ _ (by decide)]
  exact c.g_set1_same _ _ _ ⟨by decide, by decide⟩

theorem Chip.lockViol_lockOff (c : Chip) (p off : Nat) : (c.lockViol p off).g .PART_VIOL_LOCK_OFF p = off % 2 ^ 26 :=
  Chip.g_put_same _ .PART_VIOL_LOCK_OFF p off 0 ⟨by decide, by decide⟩

/-- A locked LK field keeps its value through a write of its register. -/
theorem Chip.newWord_lk (c : Chip) {r : Reg} {i j hi lo d : Nat} (hk : c.isLocked r i = true) (hl : lo ≤ hi) (hh : hi < 64)
    {f : FieldInfo} (hf : f ∈ r.fields) (hlk : f.lk = true) :
    wbits (c.newWord r i j hi lo d) f.hi f.lo = wbits (c.rd r i j) f.hi f.lo := by
  refine wbits_congr (fun n h1 h2 => ?_)
  have hn : f.has n = true := (f.has_iff n).mpr ⟨h1, h2⟩
  by_cases ht : f ∈ r.touched hi lo
  · rw [Chip.newWord, foldl_writeField_inside hl hh _ Reg.touched_bounds (r.fields_pairwise.filter _) ht hn]
    exact FieldInfo.bitAfter_kept d _ (by simp [hlk, hk])
  · exact foldl_writeField_outside hl hh _ Reg.touched_bounds (Reg.touched_not_has hf hn ht) _

end Sys2Proof.Machine

open Sys2Proof.Machine in
/-- Settles O9: the violation is recorded before the register's word, which keeps every LK field, is stored. -/
theorem lockedWriteRecorded : Obligations.LockedWriteRecorded := by
  intro s fn off data l p ha hb h hpl hstat hviol hi hj hp hlp hrun ⟨f, hf, hlk, h1, h2, hown⟩
  have hhalf := Chip.locate_half h ha
  have hk : s.chip.isLocked l.reg l.inst = true := by simp only [Chip.isLocked, hlp, hrun]
  have hv := s.chip.violated_locked (hi := 8 * l.byte + 31) hlp hrun (Reg.mem_touched.mpr ⟨hf, h1, h2, hown⟩) hlk
  have hoff : (32 ≤ 8 * l.byte) = (4 ≤ l.byte) := by rw [eq_iff_iff]; omega
  refine ⟨_, exec_registerWrite_word s data ha hb h, ?_⟩
  rw [s.writeLoc_plain fn hpl]
  refine ⟨⟨rfl, rfl⟩, ?_⟩
  simp only [State.onChip_chip, s.chip.writeReg_plain fn hpl, hv, hoff]
  refine ⟨rfl, ?_, ?_, fun g hg hglk => ?_⟩
  · rw [Chip.g, Chip.rd_wrBits_reg _ _ _ _ _ _ _ _ _ (Ne.symm hstat)]
    exact s.chip.lockViol_marked p _
  · rw [Chip.g, Chip.rd_wrBits_reg _ _ _ _ _ _ _ _ _ (Ne.symm hviol)]
    exact s.chip.lockViol_lockOff p _
  · rw [Chip.g, Chip.rd_wrBits_same]
    exact s.chip.newWord_lk hk (by omega) (by omega) hg hglk
end

section
/-! A fence leaves `PART_STAT` alone: what each operation that ends a partition's work does to that register (R536, R542). -/

namespace Sys2Proof.Machine

/-- What `PART_STAT` reads in a register map. -/
def partStat (m : List (Nat × Word)) (i j : Nat) : Word := sget (regDefault (regKey .PART_STAT i j)) m (regKey .PART_STAT i j)

theorem Chip.rd_partStat (c : Chip) (i j : Nat) : c.rd .PART_STAT i j = partStat c.regs i j := rfl

theorem partStat_of_regsBut {c d : Chip} {l : List Reg} (h : c.regsBut d l) (hl : Reg.PART_STAT ∉ l) :
    partStat d.regs = partStat c.regs := funext fun i => funext fun j => h .PART_STAT i j hl

theorem Chip.put_partStat (c : Chip) (f : Fld) (i v j : Nat) (h : f.reg ≠ .PART_STAT) :
    partStat (c.put f i v j).regs = partStat c.regs :=
  partStat_of_regsBut (c.regsBut_put f i v j) (by simpa using h.symm)

theorem Chip.set1_partStat (c : Chip) (f : Fld) (i j : Nat) (h : f.reg ≠ .PART_STAT) :
    partStat (c.set1 f i j).regs = partStat c.regs := c.put_partStat f i 1 j h

theorem Chip.inc_partStat (c : Chip) (f : Fld) (i n j : Nat) (h : f.reg ≠ .PART_STAT) :
    partStat (c.inc f i n j).regs = partStat c.regs := c.put_partStat f i _ j h

theorem foldl_partStat {β : Type} (f : Chip → β → Chip) (h : ∀ c x, partStat (f c x).regs = partStat c.regs) (l : List β) (c : Chip) :
    partStat (l.foldl f c).regs = partStat c.regs := foldl_keeps (fun c : Chip => partStat c.regs) f h l c

theorem foldl_fst_partStat {β γ : Type} (f : Chip × γ → β → Chip × γ) (h : ∀ a x, partStat (f a x).1.regs = partStat a.1.regs)
    (l : List β) (a : Chip × γ) : partStat (l.foldl f a).1.regs = partStat a.1.regs :=
  foldl_keeps (fun a : Chip × γ => partStat a.1.regs) f h l a

/-! ### Operations that write no register -/

@[simp] theorem Chip.mustVote_regs (c : Chip) (p : Nat) : (c.mustVote p).regs = c.regs := by simp [Chip.mustVote]

@[simp] theorem Chip.sealForget_regs (c : Chip) (p : Nat) : (c.sealForget p).regs = c.regs := by simp [Chip.sealForget]

@[simp] theorem Chip.putBytes_regs (bs : List Byte) : ∀ (c : Chip) (k : Nat), (c.putBytes k bs).regs = c.regs := by
  induction bs with
  | nil => intro c k; rfl
  | cons b bs ih => intro c k; exact ih _ _

@[simp] theorem Chip.poisonWrite_regs (c : Chip) (k n : Nat) (b : Bool) : (c.poisonWrite k n b).regs = c.regs := by
  unfold Chip.poisonWrite
  refine foldl_keeps Chip.regs _ (fun c i => ?_) _ _
  dsimp only
  split_ifs <;> simp

@[simp] theorem Chip.hostGranule_regs (c : Chip) (port h : Nat) (bs : List Byte) (ps : List Bool) :
    (c.hostGranule port h bs ps).regs = c.regs := by
  unfold Chip.hostGranule
  split
  · exact foldl_keeps Chip.regs _ (fun c i => by split <;> simp) _ _
  · simp

@[simp] theorem Chip.updWrite_regs (c : Chip) (p a : Nat) (bs : List Byte) : (c.updWrite p a bs).regs = c.regs := by
  unfold Chip.updWrite
  dsimp only
  rw [Chip.meter_regs, foldl_keeps Chip.regs, foldl_keeps Chip.regs]
  · intro c i; split <;> simp
  · intro c i; split
    · split <;> simp
    · rfl

/-! ### Memory writes and faults -/

@[simp] theorem Chip.postFault_partStat (c : Chip) (f : FaultSpec) : partStat (c.postFault f).regs = partStat c.regs :=
  partStat_of_regsBut (c.faultOnly_postFault f).2 (by decide)

@[simp] theorem Chip.ctrlFault_partStat (c : Chip) (ps : List Nat) (f : FaultSpec) :
    partStat (c.ctrlFault ps f).regs = partStat c.regs := by
  unfold Chip.ctrlFault
  rw [foldl_partStat _ (fun c p => by simp), Chip.postFault_partStat]

@[simp] theorem Chip.noVisible_partStat (c : Chip) (p tensor row : Nat) : partStat (c.noVisible p tensor row).regs = partStat c.regs :=
  c.ctrlFault_partStat _ _

@[simp] theorem Chip.blockedWrite_partStat (c : Chip) (p writer addr : Nat) :
    partStat (c.blockedWrite p writer addr).regs = partStat c.regs := by
  unfold Chip.blockedWrite
  dsimp only
  rw [Chip.ctrlFault_partStat]
  split
  · exact c.set1_partStat _ _ _ (by decide)
  · rfl

@[simp] theorem Chip.touch_partStat (c : Chip) (k : Nat) : partStat (c.touch k).regs = partStat c.regs := by
  unfold Chip.touch
  split
  · rfl
  · split
    · exact c.put_partStat _ _ _ _ (show Reg.PWR_STAT ≠ .PART_STAT by decide)
    · rfl

@[simp] theorem Chip.write64_partStat (c : Chip) (k : Nat) (bs : List Byte) (ps : List Bool) :
    partStat (c.write64 k bs ps).regs = partStat c.regs := by
  unfold Chip.write64
  split
  · rw [foldl_partStat _ (fun c i => by simp), Chip.putBytes_regs]
  · simp

@[simp] theorem Chip.writeGranule_partStat (c : Chip) (p a : Nat) (bs : List Byte) (ps : List Bool) :
    partStat (c.writeGranule p a bs ps).regs = partStat c.regs := by
  unfold Chip.writeGranule
  split <;> split <;> simp

@[simp] theorem Chip.poisonRange_partStat (c : Chip) (p dst n : Nat) : partStat (c.poisonRange p dst n).regs = partStat c.regs := by
  unfold Chip.poisonRange
  exact foldl_partStat _ (fun c i => by split <;> simp) _ _

/-! ### Rows that an update unit moves -/

@[simp] theorem Chip.moveGranule_partStat (c : Chip) (p src dst : Nat) (force fence : Bool) :
    partStat (c.moveGranule p src dst force fence).1.regs = partStat c.regs := by
  unfold Chip.moveGranule
  dsimp only
  split
  · split <;> simp
  · simp

@[simp] theorem Chip.moveRange_partStat (c : Chip) (p src dst n : Nat) (force fence : Bool) :
    partStat (c.moveRange p src dst n force fence).1.regs = partStat c.regs := by
  unfold Chip.moveRange
  exact foldl_fst_partStat _ (fun a i => by simp) _ _

@[simp] theorem Chip.placeRow_partStat (c : Chip) (p : Nat) (w : List Word) (j i : Nat) :
    partStat (c.placeRow p w j i).1.regs = partStat c.regs := by
  unfold Chip.placeRow
  dsimp only
  split
  · split <;> simp
  · simp
  · simp

@[simp] theorem Chip.adoptRow_partStat (c : Chip) (p : Nat) (w : List Word) (j i : Nat) :
    partStat (c.adoptRow p w j i).1.regs = partStat c.regs := by
  unfold Chip.adoptRow
  dsimp only
  rw [foldl_keeps (fun a : (Chip × Bool) × Nat => partStat a.1.1.regs) _ (fun a q => by simp)]
  dsimp only
  split
  · split <;> simp
  · simp

@[simp] theorem Chip.fetchRow_partStat (c : Chip) (p : Nat) (w : List Word) (j i : Nat) :
    partStat (c.fetchRow p w j i).1.regs = partStat c.regs := by
  unfold Chip.fetchRow
  dsimp only
  split
  · rw [foldl_keeps (fun a : (Chip × Bool) × Nat => partStat a.1.1.regs) _ (fun a q => by simp)]
    dsimp only
    split <;> split <;> simp
  · split <;> simp

@[simp] theorem Chip.moveRow_partStat (c : Chip) (p : Nat) (w : List Word) (j i : Nat) :
    partStat (c.moveRow p w j i).1.regs = partStat c.regs := by
  unfold Chip.moveRow
  split <;> simp

@[simp] theorem Chip.moveRows_partStat (c : Chip) (p : Nat) (m : UMove) (k : Nat) :
    partStat (c.moveRows p m k).1.regs = partStat c.regs := by
  unfold Chip.moveRows
  dsimp only
  split
  · split <;> simp
  · rw [foldl_fst_partStat _ (fun a x => by simp)]
    dsimp only
    split <;> simp

@[simp] theorem Chip.movesMet_partStat (c : Chip) (p : Nat) : partStat (c.movesMet p).regs = partStat c.regs := by
  unfold Chip.movesMet
  refine foldl_partStat _ (fun c m => ?_) _ _
  split <;> simp

@[simp] theorem Chip.movesCut_partStat (c : Chip) (p : Nat) : partStat (c.movesCut p).regs = partStat c.regs := by
  simp [Chip.movesCut]

/-! ### Sequencers -/

@[simp] theorem Chip.endCmd_partStat (c : Chip) (cl id : Nat) (m : Part) : partStat (c.endCmd cl id m).regs = partStat c.regs :=
  partStat_of_regsBut (c.cmdOnly_endCmd cl id m).regs (by decide)

@[simp] theorem Chip.cancelWaitqs_partStat (c : Chip) (cl : Nat) : partStat (c.cancelWaitqs cl).regs = partStat c.regs := by
  unfold Chip.cancelWaitqs
  rw [foldl_partStat _ (fun c w => by simp), Chip.setSeq_regs]

@[simp] theorem Chip.dropQueued_regs (c : Chip) (cl : Nat) : (c.dropQueued cl).regs = c.regs := by
  unfold Chip.dropQueued
  dsimp only
  rw [Chip.setSeq_regs]
  exact foldl_keeps Chip.regs _ (fun c u => by simp) _ _

@[simp] theorem Chip.cancelAll_partStat (c : Chip) (cl : Nat) (keep : OutCmd → Bool) :
    partStat (c.cancelAll cl keep).regs = partStat c.regs := by
  unfold Chip.cancelAll
  dsimp only
  rw [foldl_partStat]
  · simp
  · intro c id
    split
    · split <;> simp
    · rfl

@[simp] theorem Chip.cancelSeq_partStat (c : Chip) (cl : Nat) : partStat (c.cancelSeq cl).regs = partStat c.regs := by
  unfold Chip.cancelSeq
  dsimp only
  rw [Chip.setSeq_regs, foldl_partStat _ (fun c f => by simp)]
  simp

@[simp] theorem Chip.fenceSeq_partStat (c : Chip) (cl : Nat) : partStat (c.fenceSeq cl).regs = partStat c.regs := by
  simp [Chip.fenceSeq, Chip.haltSeq]

/-! ### Updates, collectives, Solver, RACK and Press -/

@[simp] theorem Chip.syncUpd_partStat (c : Chip) (p : Nat) : partStat (c.syncUpd p).regs = partStat c.regs := by
  unfold Chip.syncUpd
  simp (disch := decide) only [Chip.put_partStat]

@[simp] theorem Chip.updAbandon_partStat (c : Chip) (p : Nat) : partStat (c.updAbandon p).regs = partStat c.regs := by
  simp [Chip.updAbandon]

@[simp] theorem Chip.carStale_partStat (c : Chip) (p n : Nat) : partStat (c.carStale p n).regs = partStat c.regs := by
  unfold Chip.carStale
  split
  · rfl
  · simp (disch := decide) only [Chip.set1_partStat, Chip.inc_partStat]

@[simp] theorem Chip.syncCar_partStat (c : Chip) (p : Nat) : partStat (c.syncCar p).regs = partStat c.regs := by
  unfold Chip.syncCar
  simp (disch := decide) only [Chip.put_partStat]

@[simp] theorem Chip.carAbandon_partStat (c : Chip) (p : Nat) : partStat (c.carAbandon p).regs = partStat c.regs := by
  unfold Chip.carAbandon
  simp (disch := decide) [Chip.inc_partStat]

@[simp] theorem Chip.solverAbandon_regs (c : Chip) (r : Nat) : (c.solverAbandon r).regs = c.regs := by simp [Chip.solverAbandon]

@[simp] theorem Chip.spillOut_partStat (c : Chip) (cl : Nat) (f : RFrame) (k : Nat) :
    partStat (c.spillOut cl f k).regs = partStat c.regs := by
  unfold Chip.spillOut
  refine foldl_partStat _ (fun c g => ?_) _ _
  dsimp only
  split
  · simp (disch := decide) [Chip.inc_partStat]
  · rfl

@[simp] theorem Chip.fetchIn_partStat (c : Chip) (cl : Nat) (f : RFrame) (bs : List Byte) :
    partStat (c.fetchIn cl f bs).regs = partStat c.regs := by
  unfold Chip.fetchIn
  extract_lets r p c₁
  have h₁ : partStat c₁.regs = partStat (c.meter p 17 bs.length).regs := Chip.inc_partStat _ _ _ _ _ (by decide)
  rw [foldl_partStat _ (fun c g => by rw [Chip.meter_regs, Chip.write64_partStat]), h₁, Chip.meter_regs]

@[simp] theorem Chip.stopMove_partStat (c : Chip) (cl : Nat) (f : RFrame) : partStat (c.stopMove cl f).regs = partStat c.regs := by
  unfold Chip.stopMove
  split <;> simp

@[simp] theorem Chip.rackDiscard_partStat (c : Chip) (cl : Nat) : partStat (c.rackDiscard cl).regs = partStat c.regs := by
  unfold Chip.rackDiscard
  rw [Chip.setLane_regs, foldl_partStat _ (fun c f => by simp)]

@[simp] theorem Chip.pressDiscard_regs (c : Chip) (cl : Nat) : (c.pressDiscard cl).regs = c.regs := by
  unfold Chip.pressDiscard
  rw [Chip.setPress_regs]
  exact foldl_keeps Chip.regs _ (fun c x => by split <;> simp) _ _

@[simp] theorem Chip.discardStep_partStat (c : Chip) (p : Nat) : partStat (c.discardStep p).regs = partStat c.regs := by
  unfold Chip.discardStep
  dsimp only
  simp (disch := decide) only [Chip.setStep_regs, Chip.put_partStat]
  split
  all_goals
    simp (disch := decide) only [Chip.inc_partStat]
    rw [foldl_partStat _ (fun c cl => by simp), foldl_partStat _ (fun c r => by simp)]
    simp

/-! ### The fence -/

@[simp] theorem Chip.solverFence_partStat (c : Chip) (r : Nat) : partStat (c.solverFence r).regs = partStat c.regs := by
  unfold Chip.solverFence
  dsimp only
  rw [Chip.put_partStat _ _ _ _ _ (by decide), Chip.setSolver_regs]
  exact foldl_partStat _ (fun c u => by simp) _ _

@[simp] theorem Chip.raise_partStat (c : Chip) (f v : Nat) : partStat (c.raise f v).regs = partStat c.regs := by
  unfold Chip.raise
  dsimp only
  split
  · exact partStat_of_regsBut (c.regsBut_wr .MSIX_PBA f _ 0) (by decide)
  · rfl

@[simp] theorem Chip.cause_partStat (c : Chip) (f k : Nat) : partStat (c.cause f k).regs = partStat c.regs := by
  have h : partStat (c.orF .HOSTIF_CAUSE_CAUSE f (2 ^ k)).regs = partStat c.regs := c.put_partStat _ _ _ _ (by decide)
  unfold Chip.cause
  dsimp only
  split
  · rfl
  · split
    · rw [Chip.raise_partStat, h]
    · exact h

@[simp] theorem Chip.hiqHalt_partStat (c : Chip) (f q st : Nat) : partStat (c.hiqHalt f q st).regs = partStat c.regs := by
  unfold Chip.hiqHalt
  simp (disch := decide) [Chip.put_partStat, Chip.set1_partStat]

@[simp] theorem Chip.ringsReset_partStat (c : Chip) (p : Nat) : partStat (c.ringsReset p).regs = partStat c.regs := by
  unfold Chip.ringsReset
  refine foldl_partStat _ (fun c x => ?_) _ _
  split
  · split <;> simp
  · rfl

@[simp] theorem Chip.quiesce_partStat (c : Chip) (p : Nat) : partStat (c.quiesce p).regs = partStat c.regs := by
  unfold Chip.quiesce
  extract_lets c₁ c₂ c₃ c₄ c₅ _ c₆ c₇
  have h₂ : partStat c₂.regs = partStat c₁.regs := foldl_partStat _ (fun c cl => by simp) _ _
  have h₃ : partStat c₃.regs = partStat c₂.regs := foldl_partStat _ (fun c r => by simp) _ _
  have h₄ : partStat c₄.regs = partStat c₃.regs := by simp [c₄]
  have h₇ : partStat c₇.regs = partStat c₄.regs := by
    simp only [c₇]
    split
    · rw [Chip.put_partStat _ _ _ _ _ (by decide)]; simp only [c₆, c₅, Chip.setStep_regs]
    · simp only [c₆, c₅, Chip.setStep_regs]
  rw [Chip.sealForget_regs, Chip.put_partStat _ _ _ _ _ (by decide), h₇, h₄, h₃, h₂]
  exact c.movesCut_partStat p

/-- Fencing a partition leaves what `PART_STAT` reads alone: the state FENCED is entered later. -/
@[simp] theorem Chip.fencePart_partStat (c : Chip) (p : Nat) : partStat (c.fencePart p).regs = partStat c.regs := by
  unfold Chip.fencePart
  extract_lets c₁ c₂ c₃ c₄ c₅
  have h₂ : partStat c₂.regs = partStat c₁.regs := foldl_partStat _ (fun c cl => by simp) _ _
  have h₃ : partStat c₃.regs = partStat c₂.regs := by
    simp only [c₃]
    split
    · exact c₂.set1_partStat _ _ _ (by decide)
    · simp
  rw [Chip.setPartS_regs, Chip.postFault_partStat, Chip.quiesce_partStat, h₃, h₂]
  exact c.movesCut_partStat p

theorem Chip.warmFence_partStat (c : Chip) : partStat c.warmFence.regs = partStat c.regs := by
  unfold Chip.warmFence
  refine foldl_partStat _ (fun c p => ?_) _ _
  dsimp only
  split <;> simp

end Sys2Proof.Machine
end

section
/-! What a warm reset keeps, and what the start after it writes (R596, R601, R607, R608). -/

namespace Sys2Proof.Machine

/-! ### Frames of a start -/

/-- From c to d the listed registers and no byte and no ring changed. -/
structure Chip.startsOnly (l : List Reg) (c d : Chip) : Prop where
  regs : c.regsBut d l
  mem : d.mem = c.mem
  inRings : d.inRings = c.inRings
  outRings : d.outRings = c.outRings

theorem Chip.startsOnly_refl (l : List Reg) (c : Chip) : Chip.startsOnly l c c := ⟨c.regsBut_refl l, rfl, rfl, rfl⟩

section
variable {l : List Reg} {c d e : Chip}

theorem Chip.startsOnly.trans (h : Chip.startsOnly l c d) (h' : Chip.startsOnly l d e) : Chip.startsOnly l c e :=
  ⟨h.regs.trans h'.regs, h'.mem.trans h.mem, h'.inRings.trans h.inRings, h'.outRings.trans h.outRings⟩

theorem Chip.startsOnly.mono {l' : List Reg} (h : Chip.startsOnly l c d) (hl : ∀ r ∈ l, r ∈ l') : Chip.startsOnly l' c d :=
  ⟨h.regs.mono hl, h.mem, h.inRings, h.outRings⟩

theorem Chip.startsOnly.put (h : Chip.startsOnly l c d) (f : Fld) (i v j : Nat) (hm : f.reg ∈ l) :
    Chip.startsOnly l c (d.put f i v j) := ⟨h.regs.put f i v j hm, h.mem, h.inRings, h.outRings⟩

theorem Chip.startsOnly_put (c : Chip) (f : Fld) (i v j : Nat) (hm : f.reg ∈ l) : Chip.startsOnly l c (c.put f i v j) :=
  (Chip.startsOnly_refl l c).put f i v j hm

theorem Chip.startsOnly_wr (c : Chip) (r : Reg) (i : Nat) (v : Word) (j : Nat) (hm : r ∈ l) : Chip.startsOnly l c (c.wr r i v j) :=
  ⟨(c.regsBut_wr r i v j).mono (fun q hq => by rw [List.mem_singleton.mp hq]; exact hm), rfl, rfl, rfl⟩

theorem foldl_startsOnly {β : Type} (f : Chip → β → Chip) (h : ∀ c x, Chip.startsOnly l c (f c x)) (xs : List β) :
    ∀ c, Chip.startsOnly l c (xs.foldl f c) := by
  induction xs with
  | nil => exact Chip.startsOnly_refl l
  | cons x xs ih => exact fun c => (h c x).trans (ih _)

end

/-! ### The fabric -/

/-- The registers that naming the module and training its links write. -/
def fabRegs : List Reg := [.FAB_ID, .FAB_RT, .FAB_CTL, .FAB_LINK_STAT, .FAB_TIME_STAT, .FAB_STICKY]

theorem Chip.setDatelines_only (c : Chip) : Chip.startsOnly fabRegs c c.setDatelines :=
  foldl_startsOnly _ (fun c _ => c.startsOnly_put _ _ _ _ (by decide)) _ c

theorem Chip.clearTimeOk_only (c : Chip) : Chip.startsOnly fabRegs c c.clearTimeOk := by
  unfold Chip.clearTimeOk
  split
  · exact (c.startsOnly_put _ _ _ _ (by decide)).put _ _ _ _ (by decide)
  · exact Chip.startsOnly_refl _ c

theorem Chip.timeRole_only (c : Chip) : Chip.startsOnly fabRegs c c.timeRole := by
  have parent (v : Nat) : Chip.startsOnly fabRegs c (c.put .FAB_TIME_STAT_PARENT 0 v) := c.startsOnly_put _ _ _ _ (by decide)
  unfold Chip.timeRole
  dsimp only
  split
  · split
    · exact (parent 7).trans (Chip.clearTimeOk_only _)
    · exact parent 7
  · split
    · exact (parent 6).put _ _ _ _ (by decide)
    · exact parent _

theorem Chip.writeId_only (c : Chip) (id : Nat) : Chip.startsOnly fabRegs c (c.writeId id) :=
  (((c.startsOnly_put .FAB_ID_ID 0 id 0 (by decide)).put .FAB_ID_VALID 0 1 0 (by decide)).trans (Chip.setDatelines_only _)).trans
    (Chip.timeRole_only _)

theorem Chip.bringUp_only (c : Chip) (d : Nat) : Chip.startsOnly fabRegs c (c.bringUp d) := by
  have h (c : Chip) (x : LinkS) : Chip.startsOnly fabRegs c (c.setLink d x) := ⟨Chip.regsBut_of_regs rfl _, rfl, rfl, rfl⟩
  unfold Chip.bringUp
  split
  · exact Chip.startsOnly_refl _ c
  · exact ((h c {}).put _ _ _ _ (by decide)).trans (h _ _)

theorem Chip.enableLinks_only (c : Chip) : Chip.startsOnly fabRegs c c.enableLinks := by
  have routes : Chip.startsOnly fabRegs c c.fillRoutes := foldl_startsOnly _ (fun d i => d.startsOnly_wr _ _ _ _ (by decide)) _ c
  exact ((routes.trans (Chip.timeRole_only _)).put _ _ _ _ (by decide)).trans (foldl_startsOnly _ Chip.bringUp_only _ _)

theorem Chip.nameModule_only (c : Chip) : Chip.startsOnly fabRegs c c.nameModule := by
  have h (b : BootS) : Chip.startsOnly fabRegs c { c with boot := b } := ⟨Chip.regsBut_of_regs rfl _, rfl, rfl, rfl⟩
  unfold Chip.nameModule
  dsimp only
  split
  · exact h _
  · split
    · exact (c.writeId_only _).trans (Chip.enableLinks_only _)
    · exact h _

theorem Chip.warmFabric_only (c : Chip) : Chip.startsOnly fabRegs c c.warmFabric := by
  have h₁ : Chip.startsOnly fabRegs c c.setDatelines.timeRole := c.setDatelines_only.trans (Chip.timeRole_only _)
  unfold Chip.warmFabric
  dsimp only
  split
  · split
    · exact h₁.trans (Chip.nameModule_only _)
    · exact h₁
  · exact h₁.trans (foldl_startsOnly _ Chip.bringUp_only _ _)

/-! ### The choice of a slot -/

/-- The registers that the choice of a slot writes. -/
def slotRegs : List Reg := [.BOOT_STAT, .BOOT_VER, .BOOT_FWCTL]

theorem Chip.setBootCtl_only (c : Chip) (b : BootCtl) : Chip.startsOnly slotRegs c (c.setBootCtl b) := by
  have h (f : Flash) : Chip.startsOnly slotRegs c { c with flash := f } := ⟨Chip.regsBut_of_regs rfl _, rfl, rfl, rfl⟩
  exact ((((h _).put _ _ _ _ (by decide)).put _ _ _ _ (by decide)).put _ _ _ _ (by decide)).put _ _ _ _ (by decide)

theorem Chip.setBoot_only (c : Chip) (b : BootS) : Chip.startsOnly slotRegs c { c with boot := b } :=
  ⟨Chip.regsBut_of_regs rfl _, rfl, rfl, rfl⟩

theorem Chip.startSlot_only (c : Chip) (sl : Nat) (fallback : Bool) : Chip.startsOnly slotRegs c (c.startSlot sl fallback) :=
  ((((((c.setBootCtl_only _).put _ _ _ _ (by decide)).put _ _ _ _ (by decide)).put _ _ _ _ (by decide)).put _ _ _ _ (by decide)).put
    _ _ _ _ (by decide)).trans (Chip.setBoot_only _ _)

theorem Chip.recovery_only (c : Chip) : Chip.startsOnly slotRegs c c.recovery :=
  (c.startsOnly_put _ _ _ _ (by decide)).trans (Chip.setBoot_only _ _)

theorem Chip.recovery_stage (c : Chip) : c.recovery.g .BOOT_STAT_STAGE 0 = 5 :=
  c.g_put_same .BOOT_STAT_STAGE 0 5 0 ⟨by decide, by decide⟩

/-- The choice of a slot ends in the stage of a start, or in RECOVERY. -/
theorem Chip.selectSlot_only (c : Chip) (stage : Nat) : Chip.startsOnly slotRegs c (c.selectSlot stage) ∧
    ((c.selectSlot stage).g .BOOT_STAT_STAGE 0 = stage % 16 ∨ (c.selectSlot stage).g .BOOT_STAT_STAGE 0 = 5) := by
  have fail (d : Chip) (e : Nat) : Chip.startsOnly slotRegs d (d.put .BOOT_STAT_LASTFAIL 0 e) := d.startsOnly_put _ _ _ _ (by decide)
  have start (d : Chip) (sl : Nat) (b : Bool) : Chip.startsOnly slotRegs d ((d.startSlot sl b).put .BOOT_STAT_STAGE 0 stage) :=
    (d.startSlot_only sl b).put _ _ _ _ (by decide)
  have stage_put (d : Chip) : (d.put .BOOT_STAT_STAGE 0 stage).g .BOOT_STAT_STAGE 0 = stage % 16 :=
    d.g_put_same .BOOT_STAT_STAGE 0 stage 0 ⟨by decide, by decide⟩
  unfold Chip.selectSlot
  extract_lets p e c₁ e₁
  split
  · exact ⟨start c p false, .inl (stage_put _)⟩
  · split
    · exact ⟨(fail c e).trans (start c₁ (1 - p) true), .inl (stage_put _)⟩
    · exact ⟨((fail c e).trans (fail c₁ e₁)).trans (Chip.recovery_only _), .inr (Chip.recovery_stage _)⟩

/-! ### The registers that a warm reset keeps -/

/-- The bits that a warm reset keeps of the word at a key. -/
def keyMask (k : Nat) : Word := warmMask (Reg.ofCode (k / (2048 * 4096)))

theorem keyMask_key (r : Reg) (i j : Nat) : keyMask (regKey r i j) = warmMask r := by rw [keyMask, ofCode_key]

/-- What a warm reset makes of the word at a key: its kept bits, and the reset value's elsewhere. -/
def warmWord (m : List (Nat × Word)) (k : Nat) : Word := (sget (regDefault k) m k &&& keyMask k) ||| (regDefault k &&& ~~~keyMask k)

/-- One word of `warmRegs`. -/
def warmStep (m acc : List (Nat × Word)) (x : Nat × Word) : List (Nat × Word) :=
  if keyMask x.1 = 0 then acc else sset (regDefault x.1) acc x.1 (warmWord m x.1)

theorem warmRegs_eq (m : List (Nat × Word)) : warmRegs m = m.foldl (warmStep m) [] := rfl

/-- A word of which nothing is kept, or that stood at its reset value, is at its reset value. -/
theorem warmWord_eq_default {m : List (Nat × Word)} {k : Nat} (h : keyMask k = 0 ∨ sget (regDefault k) m k = regDefault k) :
    warmWord m k = regDefault k := by
  rw [warmWord]
  rcases h with h | h
  · rw [h]
    exact (congrArg₂ _ BitVec.and_zero BitVec.and_allOnes).trans BitVec.zero_or
  · rw [h, ← BitVec.and_or_distrib_left, BitVec.or_not_self, BitVec.and_allOnes]

/-- A word that is kept whole. -/
theorem warmWord_eq_self {m : List (Nat × Word)} {k : Nat} (h : keyMask k = ~~~(0 : Word)) : warmWord m k = sget (regDefault k) m k := by
  rw [warmWord, h, BitVec.not_not]
  exact (congrArg₂ _ BitVec.and_allOnes BitVec.and_zero).trans BitVec.or_zero

theorem sget_warmStep (m acc : List (Nat × Word)) (x : Nat × Word) (k : Nat) :
    sget (regDefault k) (warmStep m acc x) k = if k = x.1 ∧ keyMask k ≠ 0 then warmWord m k else sget (regDefault k) acc k := by
  unfold warmStep
  by_cases hk : k = x.1
  · subst hk
    by_cases h : keyMask x.1 = 0
    · rw [if_pos h, if_neg (fun e => e.2 h)]
    · rw [if_neg h, if_pos ⟨rfl, h⟩, sget_sset_same]
  · rw [if_neg (c := k = x.1 ∧ _) (fun e => hk e.1)]
    split
    · rfl
    · exact sget_sset_other _ _ _ _ hk

/-- The words listed are replaced by what is kept of them. -/
theorem sget_foldl_warmStep (m : List (Nat × Word)) (k : Nat) (l : List (Nat × Word)) : ∀ acc,
    sget (regDefault k) (l.foldl (warmStep m) acc) k =
      if (∃ x ∈ l, k = x.1) ∧ keyMask k ≠ 0 then warmWord m k else sget (regDefault k) acc k := by
  induction l with
  | nil => intro acc; simp
  | cons x l ih =>
    intro acc
    rw [List.foldl_cons, ih, sget_warmStep, ← ite_or]
    refine if_congr ?_ rfl rfl
    rw [List.exists_mem_cons_iff, ← or_and_right, or_comm]

theorem sget_of_not_mem {α : Type} (d : α) {m : List (Nat × α)} {k : Nat} (h : ¬ ∃ x ∈ m, k = x.1) : sget d m k = d := by
  induction m with
  | nil => rfl
  | cons x m ih =>
    rw [List.exists_mem_cons_iff, not_or] at h
    rw [sget_cons, if_neg h.1, ih h.2]

/-- Every word reads after a warm reset what is kept of it. -/
theorem sget_warmRegs (m : List (Nat × Word)) (k : Nat) : sget (regDefault k) (warmRegs m) k = warmWord m k := by
  rw [warmRegs_eq, sget_foldl_warmStep]
  split
  · rfl
  · next h =>
    refine (warmWord_eq_default ?_).symm
    by_cases hm : keyMask k = 0
    · exact .inl hm
    · exact .inr (sget_of_not_mem _ (fun hx => h ⟨hx, hm⟩))

/-! ### The state that a warm reset keeps -/

@[simp] theorem Chip.cutFlash_regs (c : Chip) : c.cutFlash.regs = c.regs := by unfold Chip.cutFlash; split <;> rfl
@[simp] theorem Chip.cutFlash_mem (c : Chip) : c.cutFlash.mem = c.mem := by unfold Chip.cutFlash; split <;> rfl

theorem Chip.rd_warmCut (c : Chip) (r : Reg) (i j : Nat) : c.warmCut.rd r i j = warmWord c.regs (regKey r i j) := by
  rw [← c.cutFlash_regs]; exact sget_warmRegs _ _

theorem Chip.byte_warmCut (c : Chip) (k : Nat) : c.warmCut.byte k = if 2 * 2 ^ 60 ≤ k then c.byte k else 0 := by
  have h := sget_filter memDefault c.cutFlash.mem (fun k => decide (2 * 2 ^ 60 ≤ k)) k
  simp only [decide_eq_true_eq] at h
  refine Eq.trans (b := sget memDefault (c.cutFlash.mem.filter (fun x => decide (2 * 2 ^ 60 ≤ x.1))) k) rfl (h.trans ?_)
  rw [c.cutFlash_mem]; rfl

/-- A register that a warm reset resets. -/
theorem Chip.rd_warmCut_lost (c : Chip) (r : Reg) (i j : Nat) (h : warmMask r = 0) : c.warmCut.rd r i j = regDefault (regKey r i j) := by
  rw [Chip.rd_warmCut, warmWord_eq_default (.inl ((keyMask_key r i j).trans h))]

/-- A register that a warm reset keeps. -/
theorem Chip.rd_warmCut_kept (c : Chip) (r : Reg) (i j : Nat) (h : warmMask r = ~~~(0 : Word)) : c.warmCut.rd r i j = c.rd r i j := by
  rw [Chip.rd_warmCut, warmWord_eq_self ((keyMask_key r i j).trans h)]; rfl

/-- The state of a partition is kept. -/
theorem Chip.state_warmCut (c : Chip) (p : Nat) : c.warmCut.g .PART_STAT_STATE p = c.g .PART_STAT_STATE p := by
  refine wbits_congr (fun n _ hn => ?_)
  rw [Chip.rd_warmCut, warmWord, keyMask_key]
  have hm : (warmMask .PART_STAT).getLsbD n = true := by
    have : n ≤ 2 := hn
    interval_cases n <;> decide
  simp only [BitVec.getLsbD_or, BitVec.getLsbD_and, BitVec.getLsbD_not, hm]
  simp [Chip.rd]

/-! ### Partitions -/

theorem warmPart_lt (st : Nat) : warmPart st < 8 := by unfold warmPart; split_ifs <;> omega

/-- One partition's state after a warm reset. -/
def Chip.warmState (c : Chip) (p : Nat) : Chip := (c.put .PART_STAT_STATE p (warmPart (c.g .PART_STAT_STATE p))).syncCoord p

theorem Chip.warmState_only (c : Chip) (p : Nat) : Chip.startsOnly [.PART_STAT, .SEAL_STAT] c (c.warmState p) :=
  (((c.startsOnly_put _ _ _ _ (by decide)).put _ _ _ _ (by decide)).put _ _ _ _ (by decide)).put _ _ _ _ (by decide)

theorem Chip.g_warmState (c : Chip) {p q : Nat} (hp : p < 16) (hq : q < 16) : (c.warmState p).g .PART_STAT_STATE q =
    if q = p then warmPart (c.g .PART_STAT_STATE p) else c.g .PART_STAT_STATE q := by
  unfold Chip.warmState Chip.syncCoord
  rw [Chip.g_put_reg _ _ _ _ _ _ _ _ (by decide), Chip.g_put_reg _ _ _ _ _ _ _ _ (by decide), Chip.g_put_reg _ _ _ _ _ _ _ _ (by decide)]
  split
  · next h =>
    rw [h, Chip.g_put_same _ _ _ _ _ ⟨by decide, by decide⟩]
    exact Nat.mod_eq_of_lt (warmPart_lt _)
  · next h =>
    refine Chip.g_put_other _ _ _ _ _ _ _ _ (fun e => h ?_)
    exact (regKey_inj (by omega) (by omega) (by omega) (by omega) e).2.1

theorem Chip.g_foldl_warmState (c : Chip) {n : Nat} (hn : n ≤ 16) : ∀ q < 16,
    ((List.range n).foldl Chip.warmState c).g .PART_STAT_STATE q =
      if q < n then warmPart (c.g .PART_STAT_STATE q) else c.g .PART_STAT_STATE q := by
  induction n with
  | zero => intro q _; rfl
  | succ n ih =>
    intro q hq
    rw [List.range_succ, List.foldl_append, List.foldl_cons, List.foldl_nil, Chip.g_warmState _ hn hq, ih (by omega) n hn, ih (by omega) q hq,
      if_neg (lt_irrefl n)]
    by_cases h : q = n
    · subst h; simp
    · rw [if_neg h]
      exact if_congr (by omega) rfl rfl

/-- With no partition running or stopping there is nothing to fence. -/
theorem Chip.warmFence_idle {c : Chip} (h : ∀ p < 16, c.g .PART_STAT_STATE p ≠ 3 ∧ c.g .PART_STAT_STATE p ≠ 4) : c.warmFence = c := by
  have fold (l : List Nat) (hl : ∀ p ∈ l, p < 16) : l.foldl (fun c p =>
      let st := c.g .PART_STAT_STATE p
      if (st = 3 ∨ st = 4) ∧ ¬ (c.partS p).fencing then c.fencePart p else c) c = c := by
    induction l with
    | nil => rfl
    | cons p l ih =>
      have hp := h p (hl p (by simp))
      rw [List.foldl_cons]
      dsimp only
      rw [if_neg (fun e => e.1.elim hp.1 hp.2)]
      exact ih (fun q hq => hl q (by simp [hq]))
  exact fold _ (fun p hp => List.mem_range.mp hp)

end Sys2Proof.Machine
end

section
/-! A warm reset as a whole (R596, R606–R608). -/

namespace Sys2Proof.Machine

/-- The chip of a warm reset before a slot is selected. -/
def Chip.warmMarked (c : Chip) (source : Nat) : Chip :=
  ((((List.range 16).foldl Chip.warmState c.warmFence.warmCut).put .BOOT_CAUSE_SOURCE 0 source).put .BOOT_CAUSE_WARM 0 1).put
    .PWR_STAT_SELFREF 0 0xFF

theorem Chip.warmReset_eq (c : Chip) (source : Nat) : c.warmReset source =
    (((c.warmMarked source).setBootCtl (c.warmMarked source).bootCtl).selectSlot 6).warmFabric := rfl

/-- The registers written between what a warm reset keeps and the choice of a slot. -/
def markRegs : List Reg := [.PART_STAT, .SEAL_STAT, .BOOT_CAUSE, .PWR_STAT]

theorem Chip.warmMarked_only (c : Chip) (source : Nat) : Chip.startsOnly markRegs c.warmFence.warmCut (c.warmMarked source) := by
  have h : Chip.startsOnly markRegs c.warmFence.warmCut ((List.range 16).foldl Chip.warmState c.warmFence.warmCut) :=
    foldl_startsOnly _ (fun c p => (c.warmState_only p).mono (by decide)) _ _
  exact ((h.put _ _ _ _ (by decide)).put _ _ _ _ (by decide)).put _ _ _ _ (by decide)

theorem Chip.warmReset_only (c : Chip) (source : Nat) :
    Chip.startsOnly (slotRegs ++ fabRegs) (c.warmMarked source) (c.warmReset source) := by
  rw [Chip.warmReset_eq]
  exact (((Chip.setBootCtl_only _ _).trans (Chip.selectSlot_only _ 6).1).mono (by decide)).trans
    ((Chip.warmFabric_only _).mono (by decide))

/-- From what is kept to the end of the warm reset. -/
theorem Chip.warmReset_from_cut (c : Chip) (source : Nat) :
    Chip.startsOnly (markRegs ++ slotRegs ++ fabRegs) c.warmFence.warmCut (c.warmReset source) :=
  ((c.warmMarked_only source).mono (by decide)).trans ((c.warmReset_only source).mono (by decide))

theorem Chip.warmReset_stage (c : Chip) (source : Nat) :
    (c.warmReset source).g .BOOT_STAT_STAGE 0 = 6 ∨ (c.warmReset source).g .BOOT_STAT_STAGE 0 = 5 := by
  rw [Chip.warmReset_eq, (Chip.warmFabric_only _).regs.g .BOOT_STAT_STAGE 0 0 (by decide)]
  exact (Chip.selectSlot_only _ 6).2

theorem Chip.warmReset_cause (c : Chip) {source : Nat} (h : source < 16) :
    (c.warmReset source).g .BOOT_CAUSE_SOURCE 0 = source ∧ (c.warmReset source).g .BOOT_CAUSE_WARM 0 = 1 := by
  have hs : Fld.BOOT_CAUSE_SOURCE.ok := ⟨by decide, by decide⟩
  have hw : Fld.BOOT_CAUSE_WARM.ok := ⟨by decide, by decide⟩
  have frame := (c.warmReset_only source).regs
  rw [frame.g .BOOT_CAUSE_SOURCE 0 0 (by decide), frame.g .BOOT_CAUSE_WARM 0 0 (by decide)]
  unfold Chip.warmMarked
  rw [Chip.g_put_reg _ _ .BOOT_CAUSE_SOURCE _ _ _ _ _ (by decide), Chip.g_put_reg _ _ .BOOT_CAUSE_WARM _ _ _ _ _ (by decide),
    Chip.g_put_apart _ _ .BOOT_CAUSE_SOURCE _ _ _ hw hs rfl (by decide), Chip.g_put_same _ _ _ _ _ hs, Chip.g_put_same _ _ _ _ _ hw]
  exact ⟨Nat.mod_eq_of_lt h, rfl⟩

theorem Chip.byte_warmReset (c : Chip) (source k : Nat) :
    (c.warmReset source).byte k = if 2 * 2 ^ 60 ≤ k then c.warmFence.byte k else 0 := by
  rw [← Chip.byte_warmCut, Chip.byte, Chip.byte, (c.warmReset_from_cut source).mem]

/-- The state of every partition after a warm reset (R607). -/
theorem Chip.warmReset_part (c : Chip) (source : Nat) {p : Nat} (hp : p < 16) :
    (c.warmReset source).g .PART_STAT_STATE p = warmPart (c.g .PART_STAT_STATE p) := by
  have fence : c.warmFence.g .PART_STAT_STATE p = c.g .PART_STAT_STATE p := by
    simp only [Chip.g, Chip.rd_partStat, c.warmFence_partStat]
  rw [(c.warmReset_only source).regs.g .PART_STAT_STATE p 0 (by decide), Chip.warmMarked,
    Chip.g_put_reg _ _ _ _ _ _ _ _ (by decide), Chip.g_put_reg _ _ _ _ _ _ _ _ (by decide), Chip.g_put_reg _ _ _ _ _ _ _ _ (by decide),
    Chip.g_foldl_warmState _ le_rfl p hp, if_pos hp, Chip.state_warmCut, fence]

/-- The chip after a warm reset (R607, R608). -/
theorem Chip.warmReset_spec (c : Chip) {source : Nat} (h : source < 16) :
    let d := c.warmReset source
    d.g .BOOT_CAUSE_SOURCE 0 = source ∧ d.g .BOOT_CAUSE_WARM 0 = 1 ∧ (d.g .BOOT_STAT_STAGE 0 = 6 ∨ d.g .BOOT_STAT_STAGE 0 = 5) ∧
      d.inRings = [] ∧ d.outRings = [] ∧ (∀ k, k < 2 * 2 ^ 60 → d.byte k = 0) ∧
      (∀ r ∈ [Reg.QP_QCFG, .HOSTIF_WIN, .HOSTIF_WINSZ], ∀ i j, d.rd r i j = regDefault (regKey r i j)) ∧
      (∀ p, p < 16 → d.g .PART_STAT_STATE p = warmPart (c.g .PART_STAT_STATE p)) ∧
      ((∀ p, p < 16 → c.g .PART_STAT_STATE p ≠ 3 ∧ c.g .PART_STAT_STATE p ≠ 4) → (∀ k, 2 * 2 ^ 60 ≤ k → d.byte k = c.byte k) ∧
        ∀ r ∈ [Reg.HUB_SEED, .HUB_SCHED, .PART_TBL, .CHG_SEQ, .MTR_EPOCH], ∀ i j, d.rd r i j = c.rd r i j) := by
  have frame := c.warmReset_from_cut source
  refine ⟨(c.warmReset_cause h).1, (c.warmReset_cause h).2, c.warmReset_stage source, frame.inRings, frame.outRings, ?_, ?_,
    fun p hp => c.warmReset_part source hp, fun idle => ⟨?_, ?_⟩⟩
  · intro k hk
    rw [Chip.byte_warmReset, if_neg (Nat.not_le.mpr hk)]
  · intro r hr i j
    have hm : r ∉ markRegs ++ slotRegs ++ fabRegs ∧ warmMask r = 0 := by revert r; decide
    rw [frame.regs r i j hm.1, Chip.rd_warmCut_lost _ _ _ _ hm.2]
  · intro k hk
    rw [Chip.byte_warmReset, if_pos hk, Chip.warmFence_idle idle]
  · intro r hr i j
    have hm : r ∉ markRegs ++ slotRegs ++ fabRegs ∧ warmMask r = ~~~(0 : Word) := by revert r; decide
    rw [frame.regs r i j hm.1, Chip.rd_warmCut_kept _ _ _ _ hm.2, Chip.warmFence_idle idle]

end Sys2Proof.Machine
end

section
/-! Flash actions and `BOOT_FWCTL` (R588, R598, R610, R615), and a cold reset (R20, R606, R608). -/

namespace Sys2Proof.Machine

/-! ### Bytes of the flash -/

theorem Flash.read_one (f : Flash) (a : Nat) : f.read a 1 = [sget 0xFF f.bytes a] := rfl

/-- A byte after a write. -/
theorem Flash.sget_write (bs : List Byte) : ∀ (f : Flash) (a k : Nat), sget 0xFF (f.write a bs).bytes k =
    if a ≤ k ∧ k < a + bs.length then bs.getD (k - a) 0 else sget 0xFF f.bytes k := by
  induction bs with
  | nil => intro f a k; rw [if_neg (by simp)]; rfl
  | cons b bs ih =>
    intro f a k
    rw [Flash.write, ih, sget_sset]
    by_cases hk : k = a
    · subst hk; simp
    · have he : (a + 1 ≤ k ∧ k < a + 1 + bs.length) ↔ (a ≤ k ∧ k < a + (b :: bs).length) := by
        rw [List.length_cons]; omega
      rw [if_neg hk]
      by_cases h : a ≤ k ∧ k < a + (b :: bs).length
      · rw [if_pos h, if_pos (he.mpr h), show k - a = (k - (a + 1)) + 1 by omega, List.getD_cons_succ]
      · rw [if_neg h, if_neg (fun h' => h (he.mp h'))]

/-- What was written reads back. -/
theorem Flash.read_write (f : Flash) (a : Nat) (bs : List Byte) : (f.write a bs).read a bs.length = bs := by
  refine List.ext_getElem (by simp [Flash.read, rangeFrom]) (fun i _ hi => ?_)
  simp only [Flash.read, rangeFrom, List.getElem_map, List.getElem_range, Flash.sget_write]
  rw [if_pos ⟨by omega, by omega⟩, Nat.add_sub_cancel_left, List.getD_eq_getElem _ _ hi]

theorem Flash.read_write_outside (f : Flash) {a k : Nat} {bs : List Byte} (h : k < a ∨ a + bs.length ≤ k) :
    (f.write a bs).read k 1 = f.read k 1 := by
  rw [Flash.read_one, Flash.read_one, Flash.sget_write, if_neg (by omega)]

theorem Flash.read_erase (f : Flash) (a : Nat) {i n : Nat} (h : i < n) : (f.erase a n).read (a + i) 1 = [0xFF] := by
  rw [Flash.read_one, Flash.erase, sget_sclear, if_pos (by omega)]

theorem Flash.read_erase_outside (f : Flash) {a n k : Nat} (h : k < a ∨ a + n ≤ k) : (f.erase a n).read k 1 = f.read k 1 := by
  rw [Flash.read_one, Flash.read_one, Flash.erase, sget_sclear, if_neg (by omega)]

/-! ### An action and its end -/

/-- An erase succeeds, and a write into the image or over erased bytes. -/
def FwJob.ok (j : FwJob) (f : Flash) : Bool := j.erase || j.inImage || (f.read j.addr j.data.length).all (· == 0xFF)

theorem FwJob.apply_eq (j : FwJob) (f : Flash) :
    j.apply f = (if j.erase then f.erase j.addr j.len else if j.ok f then f.write j.addr j.data else f, j.ok f) := by
  unfold FwJob.apply FwJob.ok
  cases j.erase <;> cases j.inImage <;> cases (f.read j.addr j.data.length).all (· == 0xFF) <;> rfl

/-- The flash after an action. -/
def FwJob.result (j : FwJob) (f : Flash) : Flash := (j.apply f).1

theorem FwJob.result_refused {j : FwJob} {f : Flash} (h : j.ok f = false) : j.result f = f := by
  have he : j.erase = false := by cases hj : j.erase <;> simp_all [FwJob.ok]
  simp [FwJob.result, FwJob.apply_eq, h, he]

theorem FwJob.result_erase {j : FwJob} (f : Flash) (h : j.erase = true) : j.result f = f.erase j.addr j.len := by
  simp [FwJob.result, FwJob.apply_eq, h]

theorem FwJob.result_write {j : FwJob} {f : Flash} (he : j.erase = false) (h : j.ok f = true) : j.result f = f.write j.addr j.data := by
  simp [FwJob.result, FwJob.apply_eq, h, he]

theorem FwJob.result_outside (j : FwJob) (f : Flash) {a : Nat}
    (h : a < j.addr ∨ j.addr + (if j.erase then j.len else j.data.length) ≤ a) : (j.result f).read a 1 = f.read a 1 := by
  cases he : j.erase with
  | true => rw [he, if_pos rfl] at h; rw [FwJob.result_erase f he, Flash.read_erase_outside f h]
  | false =>
    rw [he, if_neg Bool.false_ne_true] at h
    cases hk : j.ok f with
    | true => rw [FwJob.result_write he hk, Flash.read_write_outside f h]
    | false => rw [FwJob.result_refused hk]

/-- The chip with an action carried out and none in progress. -/
def Chip.fwClosed (c : Chip) (j : FwJob) : Chip := { c with flash := j.result c.flash, boot := { c.boot with fw := none } }

/-- The end of an action: the answer on the management bus, or GO and RESULT. -/
def Chip.fwEnd (c : Chip) (j : FwJob) : Chip :=
  if j.bmc then (c.fwClosed j).emit (.mctp [if j.ok c.flash then 0 else 1])
  else ((c.fwClosed j).put .BOOT_FWCTL_GO 0 0).put .BOOT_FWCTL_RESULT 0 (if j.ok c.flash then 0 else 3)

theorem exec_fwctlDone_none {s : State} (h : s.chip.boot.fw = none) : exec .fwctlDone s = .next s := by
  change execFwctlDone s = .next s
  unfold execFwctlDone nextChip State.onChip
  simp only [h]

theorem exec_fwctlDone_some {s : State} {j : FwJob} (h : s.chip.boot.fw = some j) :
    exec .fwctlDone s = .next (s.onChip (fun c => c.fwEnd j)) := by
  have ha : (j.apply s.chip.flash).2 = j.ok s.chip.flash := by rw [FwJob.apply_eq]
  change execFwctlDone s = _
  unfold execFwctlDone nextChip State.onChip Chip.fwEnd
  simp only [h, ha]
  rfl

/-- What the end of an action leaves, whoever asked for it. -/
theorem Chip.fwEnd_rest (c : Chip) (j : FwJob) :
    (c.fwEnd j).boot.fw = none ∧ (c.fwEnd j).mem = c.mem ∧ (c.fwEnd j).flash = j.result c.flash := by
  unfold Chip.fwEnd
  split <;> exact ⟨rfl, rfl, rfl⟩

/-- The end of an action of `BOOT_FWCTL`. -/
theorem State.fwEnd_fwctl (s : State) {j : FwJob} (h : j.bmc = false) :
    let t := s.onChip (fun c => c.fwEnd j)
    s.effect t { s.chip with flash := t.chip.flash, boot := { s.chip.boot with fw := none } } [(.BOOT_FWCTL_GO, 0, 0), (.BOOT_FWCTL_RESULT, 0, 0)] ∧
      t.chip.g .BOOT_FWCTL_GO 0 = 0 ∧ t.chip.g .BOOT_FWCTL_RESULT 0 = if j.ok s.chip.flash then 0 else 3 := by
  have hg : Fld.BOOT_FWCTL_GO.ok := ⟨by decide, by decide⟩
  have hr : Fld.BOOT_FWCTL_RESULT.ok := ⟨by decide, by decide⟩
  have he : s.chip.fwEnd j = ((s.chip.fwClosed j).put .BOOT_FWCTL_GO 0 0).put .BOOT_FWCTL_RESULT 0 (if j.ok s.chip.flash then 0 else 3) :=
    if_neg (by simp [h])
  have hf : (s.chip.fwEnd j).flash = j.result s.chip.flash := (s.chip.fwEnd_rest j).2.2
  dsimp only [State.onChip_chip]
  rw [hf, he]
  refine ⟨⟨⟨rfl, rfl⟩, ?_, ?_⟩, ?_, ?_⟩
  · rw [State.onChip_chip, he, Chip.noRegs_put, Chip.noRegs_put]; rfl
  · rw [State.onChip_chip, he]
    exact ((Chip.fieldsBut_of_regs rfl _).put _ _ _ _ hg (by decide) (by decide) (by simp)).put _ _ _ _ hr (by decide) (by decide) (by simp)
  · rw [Chip.g_put_apart _ _ _ _ _ _ hr hg rfl (by decide)]
    exact Chip.g_put_same _ _ _ _ _ hg
  · refine (Chip.g_put_same _ _ _ _ _ hr).trans ?_
    split <;> rfl

/-- The end of an action of the management bus. -/
theorem Chip.fwEnd_bmc (c : Chip) {j : FwJob} (h : j.bmc = true) :
    c.regsBut (c.fwEnd j) [] ∧ (c.fwEnd j).out = c.out ++ [.mctp [if j.ok c.flash then 0 else 1]] := by
  rw [Chip.fwEnd, if_pos h]
  exact ⟨Chip.regsBut_of_regs rfl _, rfl⟩

/-! ### GO -/

/-- The action that a GO starts. -/
def Chip.fwJob (c : Chip) (erase : Bool) : FwJob :=
  if erase then { bmc := false, erase := true, addr := slotBase c.standby, len := slotSize }
  else { bmc := false, erase := false, addr := slotBase c.standby + 4096 * c.g .BOOT_FWCTL_PAGE 0, data := c.fwBuf }

theorem Chip.fwJob_erase (c : Chip) :
    (c.fwJob true).addr = slotBase (1 - c.g .BOOT_STAT_SLOT 0) ∧ (c.fwJob true).len = slotSize := ⟨rfl, rfl⟩

theorem Chip.fwJob_write (c : Chip) : (c.fwJob false).addr = slotBase (1 - c.g .BOOT_STAT_SLOT 0) + 4096 * c.g .BOOT_FWCTL_PAGE 0 ∧
    (c.fwJob false).data = c.fwBuf := by
  simp only [Chip.fwJob, Bool.false_eq_true, if_false, Chip.standby, and_self]

theorem exec_fwctl {s : State} {fn : Fn} {x : Instr × Bool} (h : x ∈ [(Instr.fwctlWritePage fn, false), (Instr.fwctlErase fn, true)]) :
    exec x.1 s = .next (s.onChip (fun c => c.fwGo fn x.2)) := by
  simp only [List.mem_cons, List.not_mem_nil, or_false] at h
  rcases h with rfl | rfl <;> rfl

theorem Chip.fwGo_ignored {c : Chip} {fn : Fn} (h : c.bootFn fn = false ∨ c.g .BOOT_FWCTL_GO 0 = 1) (erase : Bool) :
    c.fwGo fn erase = c := by
  have hc : ¬ c.bootFn fn = true ∨ c.on .BOOT_FWCTL_GO 0 = true := by
    rcases h with h | h
    · exact .inl (by simp [h])
    · exact .inr (by simp [Chip.on, h])
  rw [Chip.fwGo, if_pos hc]

/-- The chip with an action in progress. -/
def Chip.withFw (c : Chip) (j : FwJob) : Chip := { c with boot := { c.boot with fw := some j } }

theorem Chip.withFw_regs (c : Chip) (j : FwJob) : (c.withFw j).regs = c.regs := rfl

theorem Chip.withFw_noRegs (c : Chip) (j : FwJob) : (c.withFw j).noRegs = c.noRegs.withFw j := rfl

/-- The chip with an action begun by a GO. -/
def Chip.fwBegun (c : Chip) (erase : Bool) (j : FwJob) : Chip :=
  ((c.put .BOOT_FWCTL_ERASE 0 (b2n erase)).put .BOOT_FWCTL_GO 0 1).withFw j

section
variable {c : Chip} {fn : Fn} {erase : Bool}

/-- GO writes ERASE first, which changes nothing that the action is made of. -/
theorem Chip.fwGo_eq (hb : c.bootFn fn = true) (hg : c.g .BOOT_FWCTL_GO 0 = 0) : c.fwGo fn erase =
    if c.boot.fw.isSome then (c.put .BOOT_FWCTL_ERASE 0 (b2n erase)).put .BOOT_FWCTL_RESULT 0 4
    else if erase = false ∧ 6143 < c.g .BOOT_FWCTL_PAGE 0 then (c.put .BOOT_FWCTL_ERASE 0 (b2n erase)).put .BOOT_FWCTL_RESULT 0 2
    else c.fwBegun erase (c.fwJob erase) := by
  have hc : ¬ (¬ c.bootFn fn = true ∨ c.on .BOOT_FWCTL_GO 0 = true) := by simp [hb, Chip.on, hg]
  have hpage : (c.put .BOOT_FWCTL_ERASE 0 (b2n erase)).g .BOOT_FWCTL_PAGE 0 = c.g .BOOT_FWCTL_PAGE 0 :=
    c.g_put_apart _ _ _ _ _ ⟨by decide, by decide⟩ ⟨by decide, by decide⟩ rfl (by decide)
  have hstandby : (c.put .BOOT_FWCTL_ERASE 0 (b2n erase)).standby = c.standby := by
    unfold Chip.standby; rw [Chip.g_put_reg _ _ _ _ _ _ _ _ (by decide)]
  have hbuf : (c.put .BOOT_FWCTL_ERASE 0 (b2n erase)).fwBuf = c.fwBuf := by
    unfold Chip.fwBuf
    exact congrArg bytesOf (List.map_congr_left (fun i _ => c.rd_put_reg _ _ _ _ _ _ (by decide)))
  rw [Chip.fwGo, if_neg hc]
  dsimp only
  rw [hpage, hstandby, hbuf, Chip.put_boot, ← Chip.fwJob]
  simp only [Bool.not_eq_true]
  rfl

theorem Chip.fwGo_refused (hb : c.bootFn fn = true) (hg : c.g .BOOT_FWCTL_GO 0 = 0)
    (h : c.boot.fw ≠ none ∨ (erase = false ∧ 6143 < c.g .BOOT_FWCTL_PAGE 0)) : c.fwGo fn erase =
      (c.put .BOOT_FWCTL_ERASE 0 (b2n erase)).put .BOOT_FWCTL_RESULT 0 (if c.boot.fw ≠ none then 4 else 2) := by
  rw [Chip.fwGo_eq hb hg]
  cases hfw : c.boot.fw with
  | some j => rfl
  | none => rw [if_neg (by simp), if_pos (h.resolve_left (fun e => e hfw)), if_neg (fun e => e rfl)]

theorem Chip.fwGo_starts (hb : c.bootFn fn = true) (hg : c.g .BOOT_FWCTL_GO 0 = 0) (hfw : c.boot.fw = none)
    (h : erase = true ∨ c.g .BOOT_FWCTL_PAGE 0 ≤ 6143) : c.fwGo fn erase = c.fwBegun erase (c.fwJob erase) := by
  have hpage : ¬ (erase = false ∧ 6143 < c.g .BOOT_FWCTL_PAGE 0) := by
    rintro ⟨rfl, hp⟩
    exact absurd (h.resolve_left Bool.false_ne_true) (Nat.not_le.mpr hp)
  rw [Chip.fwGo_eq hb hg, if_neg (by simp [hfw]), if_neg hpage]

end

theorem b2n_mod_two (b : Bool) : b2n b % 2 = b2n b := by cases b <;> rfl

/-- The fields that a refused GO leaves. -/
theorem State.fwRefused_effect (s : State) (erase : Bool) (v : Nat) (hv : v < 8) {t : State}
    (ht : t = s.onChip (fun c => (c.put .BOOT_FWCTL_ERASE 0 (b2n erase)).put .BOOT_FWCTL_RESULT 0 v)) :
    s.effect t s.chip [(.BOOT_FWCTL_ERASE, 0, 0), (.BOOT_FWCTL_RESULT, 0, 0)] ∧ t.chip.g .BOOT_FWCTL_ERASE 0 = b2n erase ∧
      t.chip.g .BOOT_FWCTL_RESULT 0 = v := by
  have he : Fld.BOOT_FWCTL_ERASE.ok := ⟨by decide, by decide⟩
  have hr : Fld.BOOT_FWCTL_RESULT.ok := ⟨by decide, by decide⟩
  subst ht
  refine ⟨⟨⟨rfl, rfl⟩, rfl, ?_⟩, ?_, ?_⟩
  · exact ((s.chip.fieldsBut_refl _).put _ _ _ _ he (by decide) (by decide) (by simp)).put _ _ _ _ hr (by decide) (by decide) (by simp)
  · rw [State.onChip_chip, Chip.g_put_apart _ _ _ _ _ _ hr he rfl (by decide), Chip.g_put_same _ _ _ _ _ he]
    exact b2n_mod_two erase
  · rw [State.onChip_chip, Chip.g_put_same _ _ _ _ _ hr]
    exact Nat.mod_eq_of_lt hv

/-- The fields that a GO leaves that starts an action. -/
theorem State.fwBegun_effect (s : State) (erase : Bool) (j : FwJob) :
    let t := s.onChip (fun c => c.fwBegun erase j)
    s.effect t { s.chip with boot := { s.chip.boot with fw := some j } } [(.BOOT_FWCTL_ERASE, 0, 0), (.BOOT_FWCTL_GO, 0, 0)] ∧
      t.chip.g .BOOT_FWCTL_ERASE 0 = b2n erase ∧ t.chip.g .BOOT_FWCTL_GO 0 = 1 := by
  have he : Fld.BOOT_FWCTL_ERASE.ok := ⟨by decide, by decide⟩
  have hg : Fld.BOOT_FWCTL_GO.ok := ⟨by decide, by decide⟩
  have keep (f : Fld) : (s.chip.fwBegun erase j).g f 0 = ((s.chip.put .BOOT_FWCTL_ERASE 0 (b2n erase)).put .BOOT_FWCTL_GO 0 1).g f 0 :=
    (Chip.regsBut_of_regs (Chip.withFw_regs _ j) []).g f 0 0 List.not_mem_nil
  refine ⟨⟨⟨State.onChip_pwr s _, State.onChip_pending s _⟩, ?_, ?_⟩, ?_, ?_⟩
  · rw [State.onChip_chip, Chip.fwBegun, Chip.withFw_noRegs, Chip.noRegs_put, Chip.noRegs_put]
    exact (s.chip.withFw_noRegs j).symm
  · exact (((s.chip.fieldsBut_refl _).put .BOOT_FWCTL_ERASE 0 (b2n erase) 0 he (by decide) (by decide) (by simp)).put .BOOT_FWCTL_GO 0 1 0
      hg (by decide) (by decide) (by simp)).regs (Chip.withFw_regs _ j)
  · rw [State.onChip_chip, keep, Chip.g_put_apart _ _ _ _ _ _ hg he rfl (by decide), Chip.g_put_same _ _ _ _ _ he]
    exact b2n_mod_two erase
  · rw [State.onChip_chip, keep]
    exact Chip.g_put_same _ _ _ _ _ hg

/-! ### Cold reset -/

/-- A cold reset leaves every byte 0 and, but for the source and the trip log, every register at its reset value (R606, R608). -/
theorem Chip.coldReset_spec (c : Chip) {source : Nat} (h : source < 16) :
    let d := c.coldReset source
    (∀ k, d.byte k = 0) ∧ d.g .BOOT_CAUSE_SOURCE 0 = source ∧ d.g .BOOT_CAUSE_WARM 0 = 0 ∧
      (c.boot.fw = none → d.flash = c.flash) ∧ d.boot.rmAt = none ∧
      (∀ r i j, r ∉ [Reg.BOOT_CAUSE, .PWR_TRIPLOG] → d.rd r i j = regDefault (regKey r i j)) ∧
      ∀ i j, d.rd .PWR_TRIPLOG i j = c.rd .PWR_TRIPLOG i j := by
  have hs : Fld.BOOT_CAUSE_SOURCE.ok := ⟨by decide, by decide⟩
  have hw : Fld.BOOT_CAUSE_WARM.ok := ⟨by decide, by decide⟩
  have kept (r : Reg) (i j : Nat) : sget (regDefault (regKey r i j)) (keepRegs (· == .PWR_TRIPLOG) c.cutFlash.regs) (regKey r i j) =
      if r = .PWR_TRIPLOG then c.rd r i j else regDefault (regKey r i j) := by
    rw [sget_keepRegs, c.cutFlash_regs, ← regDefault_key r i j]
    exact if_congr beq_iff_eq rfl rfl
  have other (r : Reg) (i j : Nat) (hr : r ≠ .BOOT_CAUSE) : (c.coldReset source).rd r i j =
      if r = .PWR_TRIPLOG then c.rd r i j else regDefault (regKey r i j) := by
    rw [← kept]; exact Chip.rd_put_reg _ .BOOT_CAUSE_SOURCE 0 source 0 i j hr
  refine ⟨fun k => rfl, ?_, ?_, fun hfw => ?_, rfl, fun r i j hr => ?_, fun i j => ?_⟩
  · exact (Chip.g_put_same _ _ _ _ _ hs).trans (Nat.mod_eq_of_lt h)
  · refine (Chip.g_put_apart _ _ _ _ _ _ hs hw rfl (by decide)).trans ?_
    have := kept .BOOT_CAUSE 0 0
    rw [if_neg (by decide)] at this
    exact (congrArg (fun w => wbits w 4 4) this).trans (by decide)
  · change c.cutFlash.flash = c.flash
    unfold Chip.cutFlash; rw [hfw]
  · simp only [List.mem_cons, List.not_mem_nil, or_false, not_or] at hr
    rw [other r i j hr.1, if_neg hr.2]
  · rw [other .PWR_TRIPLOG i j (by decide), if_pos rfl]

end Sys2Proof.Machine
end

section
/-! Resets and `BOOT_FWCTL` as commands (R588, R596, R598, R606–R608, R615). -/

namespace Sys2Proof.Machine

theorem exec_bootWarm (fn : Fn) (s : State) : exec (.bootWarm fn) s =
    if s.chip.bootFn fn ∧ s.chip.g .BOOT_STAT_STAGE 0 ≠ 6 then .next (s.warmReset 6) else .next s := rfl

theorem exec_bootCold (fn : Fn) (s : State) : exec (.bootCold fn) s =
    if s.chip.bootFn fn then .next (s.coldReset 4 s.pwr.supply) else .next s := rfl

theorem exec_aliveTimeout_ignored {s : State} (h : s.chip.boot.alive = true ∨ s.chip.boot.rmAt = none ∨
    ∃ t, s.chip.boot.rmAt = some t ∧ s.chip.up < t + 10 ^ 10) : exec .aliveTimeout s = .next s := by
  change execAliveTimeout s = _
  unfold execAliveTimeout
  cases hr : s.chip.boot.rmAt with
  | none => rfl
  | some t =>
    refine if_pos ?_
    rcases h with h | h | ⟨t', h, hup⟩
    · exact .inl h
    · exact absurd (hr.symm.trans h) (by simp)
    · exact .inr (Option.some.inj (hr.symm.trans h) ▸ hup)

theorem exec_aliveTimeout_acts {s : State} {t : Nat} (hr : s.chip.boot.rmAt = some t) (ha : s.chip.boot.alive = false)
    (hup : t + 10 ^ 10 ≤ s.chip.up) : exec .aliveTimeout s = .next (s.warmReset 7) := by
  change execAliveTimeout s = _
  unfold execAliveTimeout
  rw [hr]
  exact if_neg (not_or.mpr ⟨by simp [ha], Nat.not_lt.mpr hup⟩)

end Sys2Proof.Machine

open Sys2Proof.Machine in
/-- Settles O52: a fence never writes `PART_STAT`, so the states of the partitions before a warm reset decide those after it;
the rest is what `warmCut` keeps, which the start that follows does not touch. -/
theorem resetsAndFlash : Obligations.ResetsAndFlash := by
  intro s c warm cold
  have hwarm (source : Nat) (h : source < 16) : warm (s.warmReset source) source :=
    ⟨s.warmReset_pending source, rfl, c.warmReset_spec h⟩
  have hcold : cold (s.coldReset 4 s.pwr.supply) 4 := ⟨s.coldReset_pending _ _, rfl, c.coldReset_spec (by decide)⟩
  refine ⟨exec_aliveTimeout_ignored, fun t hr ha hup => ⟨_, exec_aliveTimeout_acts hr ha hup, hwarm 7 (by decide)⟩,
    fun fn => ⟨fun hb => ⟨?_, ?_⟩, fun hstage => ?_, fun hb => ⟨fun hstage => ⟨_, ?_, hwarm 6 (by decide)⟩, _, ?_, hcold⟩,
      fun x hx => ?_⟩, exec_fwctlDone_none, fun j hj => ?_⟩
  · exact (exec_bootWarm fn s).trans (if_neg (fun e => absurd e.1 (by simp [c, hb])))
  · exact (exec_bootCold fn s).trans (if_neg (by simp [c, hb]))
  · exact (exec_bootWarm fn s).trans (if_neg (fun e => e.2 hstage))
  · exact (exec_bootWarm fn s).trans (if_pos ⟨hb, hstage⟩)
  · exact (exec_bootCold fn s).trans (if_pos hb)
  · have hgo := exec_fwctl (s := s) hx
    refine ⟨fun h => ?_, fun hb hg h => ?_, fun hb hg hfw h => ?_⟩
    · rw [hgo, State.onChip, Chip.fwGo_ignored h]
    · have hv : (if c.boot.fw ≠ none then 4 else 2) < 8 := by split <;> decide
      refine ⟨_, hgo, State.fwRefused_effect s x.2 _ hv ?_⟩
      rw [State.onChip, State.onChip, Chip.fwGo_refused hb hg h]
    · refine ⟨s.onChip (fun c => c.fwBegun x.2 (s.chip.fwJob x.2)), s.chip.fwJob x.2, ?_, ?_⟩
      · rw [hgo, State.onChip, State.onChip, Chip.fwGo_starts hb hg hfw h]
      · obtain ⟨heff, herase, hgo1⟩ := s.fwBegun_effect x.2 (s.chip.fwJob x.2)
        refine ⟨heff, herase, hgo1, ?_⟩
        cases x.2 with
        | true => exact ⟨rfl, rfl, fun _ => s.chip.fwJob_erase, fun e => absurd e (by decide)⟩
        | false => exact ⟨rfl, rfl, fun e => absurd e (by decide), fun _ => s.chip.fwJob_write⟩
  · obtain ⟨hfw, hmem, hflash⟩ := c.fwEnd_rest j
    refine ⟨_, exec_fwctlDone_some hj, ⟨State.onChip_pwr s _, State.onChip_pending s _⟩, hfw, hmem, s.fwEnd_fwctl, c.fwEnd_bmc,
      fun hok => ?_, fun he i hi => ?_, fun he hok => ?_, fun a ha => ?_⟩
    · rw [State.onChip_chip, hflash]; exact FwJob.result_refused hok
    · rw [State.onChip_chip, hflash, FwJob.result_erase _ he, Flash.read_erase _ _ hi]
    · rw [State.onChip_chip, hflash, FwJob.result_write he hok, Flash.read_write]
    · rw [State.onChip_chip, hflash, j.result_outside _ ha]
end

section
/-! The commands of a sequencer that end at issue: NOP, INSTALL and SCHED (R219, R236, R237, R239). -/

namespace Sys2Proof.Machine

/-! ### Fields that lie apart -/

/-- Two fields share no bit of a register. -/
def Fld.clear (f g : Fld) : Prop := f.reg ≠ g.reg ∨ f.hi < g.lo ∨ g.hi < f.lo

/-- A field set leaves every field that lies apart, wherever it stands. -/
theorem Chip.g_put_clear (c : Chip) {f f' : Fld} (i v j i' j' : Nat) (hf : f.ok) (hf' : f'.ok) (h : f'.clear f) :
    (c.put f i v j).g f' i' j' = c.g f' i' j' := by
  by_cases hk : regKey f'.reg i' j' = regKey f.reg i j
  · have hr := regKey_reg hk
    have h1 : ∀ d : Chip, d.rd f'.reg i' j' = d.rd f'.reg i j := fun d => by unfold Chip.rd; rw [hk, hr]
    have h2 := c.g_put_apart f f' i v j hf hf' hr (h.resolve_left (fun e => e hr))
    unfold Chip.g at h2 ⊢
    rwa [h1, h1]
  · exact c.g_put_other f f' i i' v j j' hk

/-- A field that linking records does not write: of no register of the queue pool, and apart from QUEUE_ERR. -/
def Fld.recordFree (f : Fld) : Prop := f.ok ∧ f.reg ∉ qpRegs ∧ f.clear .CLU_SEQ_STICKY_QUEUE_ERR

theorem Chip.g_linkRecords {f : Fld} (hf : f.recordFree) (cl i j : Nat) (os : List OutCmd) : ∀ (c : Chip) (blocked : List Nat),
    (c.linkRecords cl blocked os).1.g f i j = c.g f i j := by
  obtain ⟨hok, hqp, hclear⟩ := hf
  induction os with
  | nil => intro c _; rfl
  | cons o os ih =>
    intro c blocked
    unfold Chip.linkRecords
    dsimp only
    split
    · exact ih c _
    · split
      · exact ih c _
      · split
        · exact ih c _
        · split
          · next h => rw [ih, (Chip.post_linked h).1.2.g f i j hqp]
          · next h =>
            rw [ih, Chip.set1, Chip.g_put_clear _ _ _ _ _ _ ⟨by decide, by decide⟩ hok hclear, (Chip.post_closed h).2.g f i j hqp]
          · exact ih c _

theorem Chip.g_flushRecords {f : Fld} (hf : f.recordFree) (c : Chip) (cl i j : Nat) : (c.flushRecords cl).g f i j = c.g f i j := by
  unfold Chip.flushRecords
  exact Chip.g_linkRecords hf cl i j _ c []

/-! ### The end of a command -/

/-- The command that an identity names while it is open. -/
def Chip.openCmd (c : Chip) (cl id : Nat) : Option OutCmd := (c.seq cl).outst.find? (fun o => o.id == id && o.isOpen)

/-- The outcome that an open command ends with: CANCELLED in place of OK for a cancelled one (R226, R248). -/
def Chip.outcome (c : Chip) (cl : Nat) (o : OutCmd) (m : Part) : Part :=
  if o.cancelled ∧ m.status = 0 then { m with status := stCancelled, detail := c.cancelDetail cl o } else m

/-- A field that the marks of the outcome do not reach after a command's end reads as the count and the marks left it. -/
theorem Chip.g_endCmd {c : Chip} {cl id : Nat} {o : OutCmd} (ho : c.openCmd cl id = some o) (m : Part) {f : Fld} (hf : f.recordFree)
    (hs : f.reg ≠ .HUB_STEP) (i j : Nat) : (c.endCmd cl id m).g f i j =
      ((c.inc .CLU_SEQ_CNT_COUNT cl).seqSticky cl (c.outcome cl o m) (hdrCpl o.hdr)).g f i j := by
  unfold Chip.openCmd at ho
  unfold Chip.endCmd Chip.outcome
  rw [ho]
  dsimp only
  rw [Chip.g_flushRecords hf, Chip.showPhase, Chip.g_put_reg _ _ _ _ _ _ _ _ hs]
  rfl

theorem Chip.regsBut.ite {c d e : Chip} {l : List Reg} {p : Prop} [Decidable p] (hd : c.regsBut d l) (he : c.regsBut e l) :
    c.regsBut (if p then d else e) l := by split <;> assumption

/-- The marks of an outcome stand in `CLU_SEQ_STICKY` (R255). -/
theorem Chip.regsBut_seqSticky (c : Chip) (cl : Nat) (m : Part) (b : Bool) : c.regsBut (c.seqSticky cl m b) [.CLU_SEQ_STICKY] := by
  have h0 : c.regsBut (if b then c.orF .CLU_SEQ_STICKY_FLAGS cl (m.flags % 64) else c) [.CLU_SEQ_STICKY] :=
    .ite (c.regsBut_put _ _ _ _) (c.regsBut_refl _)
  have mark : ∀ f : Fld, f.reg = .CLU_SEQ_STICKY → ∀ d, c.regsBut d [.CLU_SEQ_STICKY] → c.regsBut (d.set1 f cl) [.CLU_SEQ_STICKY] :=
    fun f hf d hd => hd.put f cl 1 0 (List.mem_singleton.mpr hf)
  exact .ite (mark _ rfl _ h0) (.ite (mark _ rfl _ h0) (.ite (mark _ rfl _ h0) (.ite (mark _ rfl _ h0) (.ite (mark _ rfl _ h0) h0))))

theorem Chip.seqSticky_bad (c : Chip) (cl : Nat) {m : Part} (b : Bool) (h : 1 ≤ m.status ∧ m.status ≤ 11) :
    (c.seqSticky cl m b).g .CLU_SEQ_STICKY_BAD_CMD cl = 1 := by
  unfold Chip.seqSticky
  dsimp only
  rw [if_pos h]
  exact Chip.g_set1_same _ _ _ _ ⟨by decide, by decide⟩

theorem Chip.g_endCmd_count {c : Chip} {cl id : Nat} {o : OutCmd} (ho : c.openCmd cl id = some o) (m : Part) :
    (c.endCmd cl id m).g .CLU_SEQ_CNT_COUNT cl = (c.g .CLU_SEQ_CNT_COUNT cl + 1) % 2 ^ 64 := by
  rw [Chip.g_endCmd ho m ⟨⟨by decide, by decide⟩, by decide, .inl (by decide)⟩ (by decide),
    (Chip.regsBut_seqSticky _ _ _ _).g _ _ _ (by decide)]
  exact c.g_inc_same _ _ _ _ ⟨by decide, by decide⟩

theorem Chip.g_endCmd_bad {c : Chip} {cl id : Nat} {o : OutCmd} (ho : c.openCmd cl id = some o) {m : Part}
    (h : 1 ≤ m.status ∧ m.status ≤ 11) : (c.endCmd cl id m).g .CLU_SEQ_STICKY_BAD_CMD cl = 1 := by
  have hm : c.outcome cl o m = m := if_neg (fun hc => by omega)
  rw [Chip.g_endCmd ho m ⟨⟨by decide, by decide⟩, by decide, .inr (.inl (by decide))⟩ (by decide), hm]
  exact Chip.seqSticky_bad _ _ _ h

/-! ### Commands that end at issue -/

/-- A command issued is open until it ends. -/
theorem Chip.openCmd_issue (c : Chip) (cl : Nat) (h : Word) (left : Nat) :
    ∃ o, (c.issue cl h left).2.openCmd cl (c.issue cl h left).1 = some o := by
  rw [← Option.isSome_iff_exists, Chip.openCmd, List.find?_isSome, Chip.issue_fst, Chip.issue_seq]
  exact ⟨_, List.mem_append_right _ (List.mem_singleton.mpr rfl), by simp [OutCmd.isOpen]⟩

theorem Chip.issueEnd_count (c : Chip) (cl : Nat) (h : Word) (m : Part) :
    (c.issueEnd cl h m).g .CLU_SEQ_CNT_COUNT cl = (c.g .CLU_SEQ_CNT_COUNT cl + 1) % 2 ^ 64 := by
  obtain ⟨o, ho⟩ := c.openCmd_issue cl h 0
  exact Chip.g_endCmd_count ho m

theorem Chip.issueEnd_bad (c : Chip) (cl : Nat) (h : Word) {m : Part} (hm : 1 ≤ m.status ∧ m.status ≤ 11) :
    (c.issueEnd cl h m).g .CLU_SEQ_STICKY_BAD_CMD cl = 1 := by
  obtain ⟨o, ho⟩ := c.openCmd_issue cl h 0
  exact Chip.g_endCmd_bad ho hm

theorem Chip.issueEnd_stepKept (c : Chip) (cl : Nat) (h : Word) (m : Part) : c.stepKept (c.issueEnd cl h m) :=
  Chip.stepKept.trans (d := (c.issue cl h 0).2) (fun _ _ _ _ => rfl) (Chip.cmdOnly_endCmd cl _ _ m).step

/-- From c to d the stream moved past a command and the registers listed were written. -/
structure Chip.prepared (cl : Nat) (l : List Reg) (c d : Chip) : Prop where
  rest : d.noSeqs = c.noSeqs
  regs : c.regsBut d (l ++ qpRegs)
  others : ∀ k, k ≠ cl → d.seq k = c.seq k
  own : (d.seq cl).sansPos = (c.seq cl).sansPos

theorem Chip.prepared_advanceCmd (cl : Nat) (c : Chip) (w : List Word) : Chip.prepared cl [] c (c.advanceCmd cl w) := by
  obtain ⟨rest, regs, others, own⟩ := c.moved_advanceCmd cl w
  exact ⟨rest, regs, others, own⟩

/-- Registers written after the stream moved. -/
theorem Chip.prepared.written {cl : Nat} {l : List Reg} {c d e : Chip} (h : Chip.prepared cl [] c d) (he : e.noRegs = d.noRegs)
    (hr : d.regsBut e l) : Chip.prepared cl l c e := by
  have hs : e.seqs = d.seqs := (congrArg Chip.seqs he :)
  have hq : ∀ k, e.seq k = d.seq k := fun k => by unfold Chip.seq; rw [hs]
  exact ⟨(congrArg Chip.noSeqs he :).trans h.rest,
    (h.regs.mono (fun r hr => List.mem_append_right l (by simpa using hr))).trans (hr.mono (fun r hr => List.mem_append_left _ hr)),
    fun k hk => (hq k).trans (h.others k hk), by rw [hq]; exact h.own⟩

theorem qpRegs_seqRegs : ∀ r ∈ qpRegs, r ∈ seqRegs := by decide

/-- What a sequencer holds besides its outstanding commands. -/
theorem SeqS.of_sansOut {x y : SeqS} (h : x.sansOut = y) :
    x.nextId = y.nextId ∧ x.lastTag = y.lastTag ∧ x.halt = y.halt ∧ x.agree = y.agree ∧ x.phase = y.phase := by
  subst h; exact ⟨rfl, rfl, rfl, rfl, rfl⟩

/-- What a sequencer holds besides its stream position. -/
theorem SeqS.of_sansPos {x y : SeqS} (h : x.sansPos = y.sansPos) :
    x.nextId = y.nextId ∧ x.halt = y.halt ∧ x.agree = y.agree ∧ x.phase = y.phase :=
  ⟨(congrArg SeqS.nextId h :), (congrArg SeqS.halt h :), (congrArg SeqS.agree h :), (congrArg SeqS.phase h :)⟩

/-- What a command does that ends at issue once the stream moved and its registers are written. -/
theorem Chip.prepared.endsAtOnce {cl : Nat} {l : List Reg} {c d : Chip} (h : Chip.prepared cl l c d) (w : List Word) (m : Part)
    (hl : Reg.HUB_STEP ∉ l ∧ Reg.CLU_SEQ_CNT ∉ l) : Chip.endsAtOnce cl w l c (d.issueEnd cl (wordAt w 0) m) := by
  obtain ⟨hid, htag, hhalt, hagree, hphase⟩ := SeqS.of_sansOut (d.issueEnd_seq cl (wordAt w 0) m)
  obtain ⟨hid', hhalt', hagree', hphase'⟩ := SeqS.of_sansPos h.own
  exact {
    rest := (d.issueEnd_rest cl _ m).trans h.rest
    regs := (h.regs.mono (fun _ hr => List.mem_append.mpr ((List.mem_append.mp hr).imp_right (qpRegs_seqRegs _)))).trans
      ((d.issueEnd_regs cl _ m).mono (fun _ hr => List.mem_append_right _ hr))
    step := (h.regs.stepKept (by simpa [qpRegs] using hl.1)).trans (d.issueEnd_stepKept cl _ m)
    others := fun k hk => (d.issueEnd_others cl _ m hk).trans (h.others k hk)
    nextId := by rw [hid, ← hid']
    lastTag := htag
    running := ⟨hhalt.trans hhalt', hagree.trans hagree', hphase.trans hphase'⟩
    counted := by rw [d.issueEnd_count, h.regs.g _ _ _ (by simpa [qpRegs] using hl.2)] }

/-- A command whose engine leaves no marks, refused with a status of a bad command. -/
theorem Chip.prepared.refused {cl : Nat} {c d : Chip} (h : Chip.prepared cl [] c d) {w : List Word} {st detail : Nat}
    (hst : 1 ≤ st ∧ st ≤ 11) (hop : hdrOp (wordAt w 0) = 0x06) : Chip.refusedAtOnce cl w c (d.refuse cl w st detail) := by
  have hr : d.refuse cl w st detail = d.issueEnd cl (wordAt w 0) { order := 0, status := st, detail := detail } := by
    simp [Chip.refuse, Chip.refusedMarks, hop]
  rw [hr]
  exact { h.endsAtOnce w _ ⟨List.not_mem_nil, List.not_mem_nil⟩ with bad := d.issueEnd_bad cl _ hst }

/-! ### What a moved stream leaves -/

theorem Chip.prepared.mem {cl : Nat} {l : List Reg} {c d : Chip} (h : Chip.prepared cl l c d) : d.mem = c.mem :=
  (congrArg Chip.mem h.rest :)

theorem Chip.num_of_mem {c d : Chip} (h : d.mem = c.mem) (k n : Nat) : d.num k n = c.num k n := by
  unfold Chip.num Chip.bytes Chip.byte; rw [h]

theorem Chip.bytes_of_mem {c d : Chip} (h : d.mem = c.mem) (k n : Nat) : d.bytes k n = c.bytes k n := by
  unfold Chip.bytes Chip.byte; rw [h]

/-- The areas of other engines are those of the registers `RACK_AREA` and `SOLV_STAGE` (R261, R352). -/
theorem Chip.regsBut.inArea {c d : Chip} {l : List Reg} (h : c.regsBut d l) (h1 : Reg.RACK_AREA ∉ l) (h2 : Reg.SOLV_STAGE ∉ l)
    (r off n : Nat) : d.inArea r off n = c.inArea r off n := by
  unfold Chip.inArea Chip.rackPages Chip.stagePages
  rw [h.g _ _ _ h1, h.g _ _ _ h1, h.g _ _ _ h2, h.g _ _ _ h2]

theorem Chip.regsBut.partOfCl {c d : Chip} {l : List Reg} (h : c.regsBut d l) (hl : Reg.PART_OWN ∉ l) (cl : Nat) :
    d.partOfCl cl = c.partOfCl cl := by
  unfold Chip.partOfCl Chip.owner Chip.on
  rw [h.g _ _ _ hl, h.g _ _ _ hl]

/-- A sequencer enters or leaves no routine as its stream moves past a command. -/
theorem Chip.stack_advanceCmd (c : Chip) (cl : Nat) (w : List Word) :
    ((c.advanceCmd cl w).seq cl).stack = [] ↔ (c.seq cl).stack = [] := by
  have h : ((c.advance cl w.length).seq cl).stack = [] ↔ (c.seq cl).stack = [] := by
    unfold Chip.advance
    dsimp only
    split
    · next hs => rw [Chip.seq_setSeq_same, hs]; simp
    · split
      · next hq => rw [(Chip.qTake_some hq).seq]
      · rfl
  unfold Chip.advanceCmd
  dsimp only
  split
  · rw [Chip.seq_setSeq_same]; exact h
  · exact h

/-! ### INSTALL (R236, R237) -/

section
variable {c : Chip} {cl : Nat} {w : List Word}

/-- INSTALL inside a routine, or of a routine that fails its checks. -/
theorem Chip.refusedAtOnce_install (hop : isOp 0x06 w = true) (detail : Nat) :
    Chip.refusedAtOnce cl w c ((c.advanceCmd cl w).refuse cl w stBadField detail) :=
  (c.prepared_advanceCmd cl w).refused (by decide) (by simpa [isOp] using hop)

/-- A routine entry written: it reads as written, and the other entries of the sequencer stay. -/
theorem Chip.endsAtOnce_entry (hcl : cl < 128) (v : Word) {j : Nat} (hj : j < 64) :
    let d := ((c.advanceCmd cl w).wr .CLU_SEQ_RTN cl v j).issueEnd cl (wordAt w 0) { order := 0 }
    Chip.endsAtOnce cl w [.CLU_SEQ_RTN] c d ∧ d.rd .CLU_SEQ_RTN cl j = v ∧
      ∀ k, k < 64 → k ≠ j → d.rd .CLU_SEQ_RTN cl k = c.rd .CLU_SEQ_RTN cl k := by
  have hp := c.prepared_advanceCmd cl w
  have hw := hp.written (e := (c.advanceCmd cl w).wr .CLU_SEQ_RTN cl v j) (Chip.noRegs_wr _ _ _ _ _) (Chip.regsBut_wr _ _ _ _ _)
  refine ⟨hw.endsAtOnce w _ (by decide), ?_, fun k hk hne => ?_⟩
  · rw [Chip.issueEnd_regs _ _ _ _ _ _ _ (by decide), Chip.rd_wr_same]
  · rw [Chip.issueEnd_regs _ _ _ _ _ _ _ (by decide), Chip.wr,
      Chip.rd_wrBits_inst _ _ _ _ _ _ _ (by simpa using hne) (by omega) (by omega) (by omega) (by omega), hp.regs _ _ _ (by decide)]

end

/-! ### SCHED (R239) -/

theorem leNat_lt (bs : List Byte) : leNat bs < 256 ^ bs.length := by
  induction bs with
  | nil => simp [leNat]
  | cons b bs ih =>
    have := b.isLt
    rw [leNat, List.length_cons, Nat.pow_succ]; omega

theorem length_rangeFrom (k n : Nat) : (rangeFrom k n).length = n := by simp [rangeFrom]

theorem Chip.num_lt (c : Chip) (k n : Nat) : c.num k n < 256 ^ n := by
  have := leNat_lt (c.bytes k n)
  rwa [Chip.bytes, List.length_map, length_rangeFrom] at this

/-- A schedule value: a negative zero counts as +0 (R64). -/
def schedValue (v : Nat) : Nat := if v = 2 ^ 31 then 0 else v

/-- The first n values of a schedule row loaded from a key (R239). -/
def Chip.loadRow (c : Chip) (cl key n : Nat) : Chip :=
  (List.range n).foldl (fun c i => c.put ⟨.CLU_SEQ_SCHED, 31, 0⟩ cl (schedValue (c.num (key + 4 * i) 4)) i) c

theorem Chip.loadRow_succ (c : Chip) (cl key n : Nat) : c.loadRow cl key (n + 1) =
    (c.loadRow cl key n).put ⟨.CLU_SEQ_SCHED, 31, 0⟩ cl (schedValue ((c.loadRow cl key n).num (key + 4 * n) 4)) n := by
  simp [Chip.loadRow, List.range_succ]

theorem Chip.noRegs_loadRow (c : Chip) (cl key n : Nat) : (c.loadRow cl key n).noRegs = c.noRegs := by
  induction n with
  | zero => rfl
  | succ n ih => rw [Chip.loadRow_succ, Chip.noRegs_put, ih]

theorem Chip.regsBut_loadRow (c : Chip) (cl key n : Nat) : c.regsBut (c.loadRow cl key n) [.CLU_SEQ_SCHED] := by
  induction n with
  | zero => exact c.regsBut_refl _
  | succ n ih => rw [Chip.loadRow_succ]; exact ih.put _ _ _ _ (by decide)

/-- Each loaded value reads as the four bytes of its place in the row. -/
theorem Chip.g_loadRow (c : Chip) {cl : Nat} (hcl : cl < 128) (key : Nat) {n : Nat} (hn : n ≤ 8) : ∀ i < n,
    (c.loadRow cl key n).g .CLU_SEQ_SCHED_VALUE cl i = schedValue (c.num (key + 4 * i) 4) := by
  induction n with
  | zero => intro i hi; omega
  | succ n ih =>
    intro i hi
    have hmem : (c.loadRow cl key n).mem = c.mem := (congrArg Chip.mem (c.noRegs_loadRow cl key n) :)
    rw [Chip.loadRow_succ]
    by_cases hin : i = n
    · subst hin
      have hlt : schedValue (c.num (key + 4 * i) 4) < 2 ^ 32 := by
        have := c.num_lt (key + 4 * i) 4
        unfold schedValue; split <;> omega
      rw [Chip.g_put_same _ _ _ _ _ ⟨by decide, by decide⟩, Chip.num_of_mem hmem]
      exact Nat.mod_eq_of_lt hlt
    · rw [Chip.g_put_ne _ _ _ _ _ _ _ _ (.inr (.inr hin)) (by omega) (by omega) (by omega) (by omega)]
      exact ih (by omega) i (by omega)

end Sys2Proof.Machine

open Sys2Proof.Machine in
/-- Settles O17: each command is taken as the stream moves past it, and the values it reads are none that the move changes. -/
theorem sequencerOwnCommands : Obligations.SequencerOwnCommands := by
  intro s cl w hcl h
  have hp := s.chip.prepared_advanceCmd cl w
  have hstack := s.chip.stack_advanceCmd cl w
  refine ⟨fun hop => ?_, fun hop h6 hs => ?_, fun hop hs i hi hi6 => ?_, fun hop h6 hs => ?_, fun hop => ?_⟩
  · refine ⟨_, rfl, ⟨rfl, rfl⟩, ?_⟩
    rw [State.onChip_chip, Chip.take_offers h _ _ _ (by simp [hop]) (by simp)]
    exact hp.endsAtOnce w _ (by decide)
  · refine ⟨_, rfl, ⟨rfl, rfl⟩, ?_⟩
    rw [State.onChip_chip, Chip.take_offers h _ _ _ (by simp [hop, h6]) (by simp), if_neg (by simp [hstack.mpr hs])]
    exact Chip.endsAtOnce_entry hcl 0 (Nat.mod_lt _ (by decide))
  · have hs' : ((s.chip.advanceCmd cl w).seq cl).stack ≠ [] := fun e => hs (hstack.mp e)
    simp only [List.mem_cons, List.not_mem_nil, or_false] at hi
    rcases hi with rfl | rfl
    all_goals
      refine ⟨_, rfl, ⟨rfl, rfl⟩, ?_⟩
      rw [State.onChip_chip, Chip.take_offers h _ _ _ (by simp [hop, hi6]) (by simp), if_pos (by simpa using hs')]
      exact Chip.refusedAtOnce_install hop 0
  · intro a n harea
    have harea' : ¬ (s.chip.advanceCmd cl w).inArea (regionOfCl cl) (a - 0x01000000) (8 * n) = true := by
      rw [hp.regs.inArea (by decide) (by decide), harea]; decide
    refine ⟨fun hc => ⟨_, rfl, ⟨rfl, rfl⟩, ?_⟩, fun hc => ⟨_, rfl, ⟨rfl, rfl⟩, ?_⟩⟩
    all_goals
      rw [State.onChip_chip, Chip.take_offers h _ _ _ (by simp [hop, h6]) (by simp), if_neg (by simp [hstack.mpr hs])]
      dsimp only
      rw [if_neg harea', Chip.bytes_of_mem hp.mem]
    · rw [hc]
      exact Chip.endsAtOnce_entry hcl _ (Nat.mod_lt _ (by decide))
    · obtain ⟨⟨off, st, op⟩, ho⟩ := Option.ne_none_iff_exists'.mp hc
      rw [ho]
      exact Chip.refusedAtOnce_install hop _
  · intro a n row
    refine ⟨fun hn => ⟨_, rfl, ⟨rfl, rfl⟩, ?_⟩, fun hn harea => ⟨_, rfl, ⟨rfl, rfl⟩, ?_⟩⟩
    all_goals rw [State.onChip_chip, Chip.take_offers h _ _ _ hop (by simp)]
    · rw [if_pos hn]
      exact hp.endsAtOnce w _ (by decide)
    · have harea' : ¬ (s.chip.advanceCmd cl w).inArea (regionOfCl cl) (a - 0x01000000) (32 * n) = true := by
        rw [hp.regs.inArea (by decide) (by decide), harea]; decide
      dsimp only
      rw [if_neg (by omega), if_neg harea', hp.regs.partOfCl (by decide), hp.regs.g _ _ _ (by decide)]
      have hload := hp.written (Chip.noRegs_loadRow _ cl (regionKey (regionOfCl cl) (a - 0x01000000 + 32 * row)) 8)
        (Chip.regsBut_loadRow _ cl _ 8)
      refine ⟨hload.endsAtOnce w _ (by decide), fun i hi => ?_⟩
      rw [(Chip.issueEnd_regs _ _ _ _).g _ _ _ (by decide)]
      exact (Chip.g_loadRow _ hcl _ le_rfl i hi).trans (by rw [Chip.num_of_mem hp.mem]; rfl)
end

section
/-! A read or scrub of a store (R188–R192, R203). -/

namespace Sys2Proof.Machine

/-! ### A field that fault records leave -/

/-- From c to d a field reads the same wherever it stands. -/
def Chip.keepsFld (f : Fld) (c d : Chip) : Prop := ∀ i j, d.g f i j = c.g f i j

theorem Chip.keepsFld_refl (f : Fld) (c : Chip) : Chip.keepsFld f c c := fun _ _ => rfl

theorem Chip.keepsFld.trans {f : Fld} {c d e : Chip} (h : Chip.keepsFld f c d) (h' : Chip.keepsFld f d e) : Chip.keepsFld f c e :=
  fun i j => (h' i j).trans (h i j)

theorem Chip.regsBut.keepsFld {f : Fld} {c d : Chip} {l : List Reg} (h : c.regsBut d l) (hf : f.reg ∉ l) : Chip.keepsFld f c d :=
  fun i j => h.g f i j hf

/-- A field that fault records do not write: of no register of theirs, but for the pool's marks other than POISON_IN. -/
def Fld.faultFree (f : Fld) : Prop :=
  f.ok ∧ f.reg ∉ [.QP_QSTAT, .QP_QCNT, .INT_CNT, .INT_STAT, .INT_FLOG, .PART_CNT_XPART] ∧ f.clear .QP_STICKY_POISON_IN

section
variable {f : Fld} (hf : f.faultFree) {c d : Chip}
include hf

theorem Chip.keepsFld.put (h : Chip.keepsFld f c d) (g : Fld) (i v j : Nat)
    (hg : g.reg ∈ [.QP_QSTAT, .QP_QCNT, .INT_CNT, .INT_STAT, .INT_FLOG, .PART_CNT_XPART]) : Chip.keepsFld f c (d.put g i v j) :=
  h.trans (fun i' j' => d.g_put_reg g f i v j i' j' (fun e => hf.2.1 (e ▸ hg)))

theorem Chip.keepsFld.set1 (h : Chip.keepsFld f c d) (g : Fld) (i j : Nat)
    (hg : g.reg ∈ [.QP_QSTAT, .QP_QCNT, .INT_CNT, .INT_STAT, .INT_FLOG, .PART_CNT_XPART]) : Chip.keepsFld f c (d.set1 g i j) :=
  h.put hf g i 1 j hg

theorem Chip.keepsFld_link (r q : Nat) (k : Packet) (p : Bool) : Chip.keepsFld f c ((c.markPoisonIn r q p).link r q k) := by
  have hmark : Chip.keepsFld f c (c.markPoisonIn r q p) := by
    unfold Chip.markPoisonIn
    split
    · exact ((c.keepsFld_refl f).set1 hf .QP_QSTAT_POISON_IN r q (by decide)).trans
        (fun i j => Chip.g_put_clear _ _ _ _ _ _ ⟨by decide, by decide⟩ hf.1 hf.2.2)
    · exact c.keepsFld_refl f
  exact hmark.put hf .QP_QCNT_LINKED r _ q (by decide)

theorem Chip.keepsFld.recLost (h : Chip.keepsFld f c d) (p : Option Nat) : Chip.keepsFld f c (d.recLost p) := by
  have h0 : Chip.keepsFld f c (d.inc .INT_CNT_COUNT 0 1 4) := h.put hf .INT_CNT_COUNT 0 _ 4 (by decide)
  unfold Chip.recLost
  cases p with
  | none => exact h0
  | some p => exact h0.set1 hf .INT_STAT_REC_LOST p 0 (by decide)

theorem Chip.keepsFld.postRecord (h : Chip.keepsFld f c d) (pl : Place) (ws : List Word) : Chip.keepsFld f c (d.postRecord pl ws) := by
  unfold Chip.postRecord
  split
  · exact h.recLost hf _
  · dsimp only
    split
    · split
      · next hp => rw [(Chip.post_eq hp).1]; exact h.trans (Chip.keepsFld_link hf _ _ _ _)
      · exact h.recLost hf _
    · exact h.recLost hf _

theorem Chip.keepsFld.logRecord (h : Chip.keepsFld f c d) (ws : List Word) : Chip.keepsFld f c (d.logRecord ws) := by
  unfold Chip.logRecord
  dsimp only
  split
  · exact Chip.keepsFld.put hf (Chip.keepsFld.set1 hf h .INT_FLOG_WRAPPED 0 0 (by decide)) .INT_FLOG_HEAD 0 _ 0 (by decide)
  · exact Chip.keepsFld.put hf h .INT_FLOG_HEAD 0 _ 0 (by decide)

theorem Chip.keepsFld.markIntStat (h : Chip.keepsFld f c d) (cls p : Nat) : Chip.keepsFld f c (d.markIntStat cls p) := by
  have mark : ∀ (e : Chip) (b : Prop) [Decidable b] (g : Fld), g.reg = .INT_STAT → Chip.keepsFld f c e →
      Chip.keepsFld f c (if b then e.set1 g p else e) := by
    intro e b _ g hg he; split
    · exact he.set1 hf g p 0 (by rw [hg]; decide)
    · exact he
  exact mark _ _ _ rfl (mark _ _ _ rfl (mark _ _ _ rfl (h.set1 hf .INT_STAT_FAULT p 0 (by decide))))

theorem Chip.keepsFld.foreignRecord (h : Chip.keepsFld f c d) (p : Nat) : Chip.keepsFld f c (d.foreignRecord p) := by
  unfold Chip.foreignRecord
  split
  · split
    · exact h
    · have h0 := (h.put hf .PART_CNT_XPART_COUNT p (d.g .PART_CNT_XPART_COUNT p + 1) 0 (by decide))
      exact (((h0.put hf .INT_CNT_COUNT 0 _ 0 (by decide)).logRecord hf _).markIntStat hf _ _).recLost hf _
  · exact h

theorem Chip.keepsFld.postPart (h : Chip.keepsFld f c d) (cls p : Nat) (ws : List Word) : Chip.keepsFld f c (d.postPart cls p ws) :=
  ((h.postRecord hf _ _).markIntStat hf _ _).foreignRecord hf _

/-- A fault record leaves every field but those of the fault log, the counts and marks of faults, and POISON_IN. -/
theorem Chip.keepsFld_postFault (c : Chip) (x : FaultSpec) : Chip.keepsFld f c (c.postFault x) := by
  have h0 := ((c.keepsFld_refl f).put hf .INT_CNT_COUNT 0 (c.g .INT_CNT_COUNT 0 + 1) 0 (by decide)).logRecord hf
    ((c.inc .INT_CNT_COUNT 0 1 0).faultWords x)
  unfold Chip.postFault
  dsimp only
  split
  · exact h0.postPart hf _ _ _
  · next ps _ =>
    exact h0.trans (fun i j => foldl_keeps (fun e : Chip => e.g f i j) _
      (fun e p => (e.keepsFld_refl f).postPart hf x.cls p _ i j) ps _)
  · have h1 := h0.postRecord hf x.place ((c.inc .INT_CNT_COUNT 0 1 0).faultWords x)
    split
    · exact h1.markIntStat hf _ _
    · exact h1

end

end Sys2Proof.Machine
end

section
/-! A read or scrub of a store (R188–R192, R203). -/

namespace Sys2Proof.Machine

/-! ### The location read -/

/-- The memory of a location wakes for the access (R623). -/
def Chip.touchStore (c : Chip) (st : Store) (a : Nat) : Chip := match storeKey st a with | some k => c.touch k | none => c

theorem Chip.cref_regs (c : Chip) (x : Nat) : ({ c with cref := x } : Chip).regs = c.regs := rfl

theorem Chip.regsBut_touch (c : Chip) (k : Nat) : c.regsBut (c.touch k) [.PWR_STAT] :=
  .ite (c.regsBut_refl _) (.ite (c.regsBut_put ⟨.PWR_STAT, _, _⟩ 0 0 0) (Chip.regsBut_of_regs (c.cref_regs _) _))

theorem Chip.regsBut_touchStore (c : Chip) (st : Store) (a : Nat) : c.regsBut (c.touchStore st a) [.PWR_STAT] := by
  unfold Chip.touchStore
  split
  · exact c.regsBut_touch _
  · exact c.regsBut_refl _

@[simp] theorem Chip.touchStore_mem (c : Chip) (st : Store) (a : Nat) : (c.touchStore st a).mem = c.mem := by
  unfold Chip.touchStore
  split
  · exact c.touch_mem _
  · rfl

/-! ### The error registers of a store (R205) -/

/-- Where a store counts its errors and logs their address. -/
theorem storeInfo_regs (st : Store) :
    (storeInfo st).1 = ⟨(storeInfo st).1.reg, 31, 0⟩ ∧ (storeInfo st).1.reg ≠ .PWR_STAT ∧
      (storeInfo st).2.1.reg ≠ (storeInfo st).1.reg ∧ (storeInfo st).1.reg ∉ faultRegs ∧ (storeInfo st).2.1.reg ∉ faultRegs := by
  cases st <;> simp [storeInfo, faultRegs]

/-- A count that saturates at its width. -/
theorem Chip.g_incSat_same (c : Chip) (f : Fld) (i n j : Nat) (h : f.ok) :
    (c.incSat f i n j).g f i j = min (2 ^ (f.hi + 1 - f.lo) - 1) (c.g f i j + n) := by
  have hpos : 0 < 2 ^ (f.hi + 1 - f.lo) := by positivity
  rw [Chip.incSat, Chip.g_put_same _ _ _ _ _ h, Nat.mod_eq_of_lt]
  · unfold satAdd; omega
  · unfold satAdd; omega

/-- An uncorrectable error counted, and its address logged with VALID (R189, R205). -/
def Chip.logError (c : Chip) (st : Store) (a : Nat) : Chip :=
  let x := storeInfo st
  ((c.incSat ⟨x.1.reg, 47, 32⟩ x.2.2.1 1 x.2.2.2.1).put x.2.1 x.2.2.1 a x.2.2.2.1).set1 ⟨x.2.1.reg, 63, 63⟩ x.2.2.1 x.2.2.2.1

/-- The location marked, or its queue broken, and the error reported (R192, R203). -/
def Chip.reportError (c : Chip) (st : Store) (a : Nat) : Chip :=
  match st with
  | .link r q => c.breakQueue r q
  | .pool r q n => (c.setQueue r q ((c.queue r q).markWord n).2).postFault
      { cls := 0x04, place := (c.setQueue r q ((c.queue r q).markWord n).2).storePlace st a, loc := (storeInfo st).2.2.2.2.1
        lockind := (storeInfo st).2.2.2.2.2.1, detail := [a, 4] }
  | _ =>
    let c := match storeKey st a with | some k => c.setBad k true | none => c
    let c := match st with | .press cl => c.pressBad cl a | _ => c
    c.postFault { cls := (ueDetail st a).1, place := c.storePlace st a, loc := (storeInfo st).2.2.2.2.1
                  lockind := (storeInfo st).2.2.2.2.2.1, detail := (ueDetail st a).2 }

theorem Chip.readResult_uncorrectable (c : Chip) (st : Store) (a : Nat) : c.readResult st a .uncorrectable =
    ((c.touchStore st a).logError st ((c.touchStore st a).errLoc st a)).reportError st ((c.touchStore st a).errLoc st a) := by
  cases st <;> rfl

theorem Chip.logError_mem (c : Chip) (st : Store) (a : Nat) : (c.logError st a).mem = c.mem := by
  unfold Chip.logError
  rw [Chip.set1, Chip.put_mem, Chip.put_mem, Chip.incSat, Chip.put_mem]

/-- The count rises, saturating, and VALID is set. -/
theorem Chip.logError_spec (c : Chip) (st : Store) (a : Nat) :
    let x := storeInfo st
    (c.logError st a).g ⟨x.1.reg, 47, 32⟩ x.2.2.1 x.2.2.2.1 = min (2 ^ 16 - 1) (c.g ⟨x.1.reg, 47, 32⟩ x.2.2.1 x.2.2.2.1 + 1) ∧
      (c.logError st a).g ⟨x.2.1.reg, 63, 63⟩ x.2.2.1 x.2.2.2.1 = 1 := by
  obtain ⟨-, -, hne, -, -⟩ := storeInfo_regs st
  refine ⟨?_, Chip.g_set1_same _ ⟨_, 63, 63⟩ _ _ ⟨le_rfl, Nat.lt_succ_self _⟩⟩
  exact (Chip.g_put_reg _ ⟨_, 63, 63⟩ ⟨_, 47, 32⟩ _ _ _ _ _ hne.symm).trans
    ((Chip.g_put_reg _ _ ⟨_, 47, 32⟩ _ _ _ _ _ hne.symm).trans (c.g_incSat_same ⟨_, 47, 32⟩ _ _ _ ⟨by norm_num, by norm_num⟩))

/-! ### The report of an uncorrectable error -/

theorem Chip.postFault_poison (c : Chip) (x : FaultSpec) : (c.postFault x).poison = c.poison :=
  (congrArg Chip.poison (c.faultOnly_postFault x).1 :)

@[simp] theorem Chip.postFault_mem (c : Chip) (x : FaultSpec) : (c.postFault x).mem = c.mem :=
  (congrArg Chip.mem (c.faultOnly_postFault x).1 :)

theorem Chip.reportError_mem (c : Chip) (st : Store) (a : Nat) : (c.reportError st a).mem = c.mem := by
  cases st <;> exact (Chip.postFault_mem _ _)

theorem Chip.breakQueue_regs (c : Chip) (r q : Nat) : c.regsBut (c.breakQueue r q) faultRegs :=
  Chip.regsBut.trans (d := (c.setQueue r q { broken := true, waiting := (c.queue r q).waiting }).set1 .QP_STICKY_BROKEN r)
    ((Chip.regsBut_of_regs rfl _).put _ _ _ _ (by decide)) (Chip.faultOnly_postFault _ _).2

/-- The report writes registers of fault records and of the queue pool. -/
theorem Chip.reportError_regs (c : Chip) (st : Store) (a : Nat) : c.regsBut (c.reportError st a) faultRegs := by
  have report : ∀ (d : Chip) (x : FaultSpec), d.regs = c.regs → c.regsBut (d.postFault x) faultRegs :=
    fun d x hd => (Chip.regsBut_of_regs hd _).trans (d.faultOnly_postFault x).2
  cases st with
  | link r q => exact c.breakQueue_regs r q
  | _ => exact report _ _ rfl

/-- The location of a byte-addressed store is poisoned (R188). -/
theorem Chip.reportError_bad (c : Chip) {st : Store} {a k : Nat} (h : storeKey st a = some k) : (c.reportError st a).bad k = true := by
  have mark : ∀ x : FaultSpec, ((c.setBad k true).postFault x).bad k = true := by
    intro x
    unfold Chip.bad
    rw [Chip.postFault_poison]
    exact (c.bad_setBad k true k).trans (if_pos rfl)
  cases st with
  | scratch u => cases h; exact mark _
  | region r => cases h; exact mark _
  | near s => cases h; exact mark _
  | cellar p => cases h; exact mark _
  | press cl => cases h
  | pool r q n => cases h
  | link r q => cases h

/-- A broken link record stands in the sticky mark of its pool (R203). -/
theorem Chip.reportError_broken (c : Chip) (r q a : Nat) : (c.reportError (.link r q) a).g .QP_STICKY_BROKEN r = 1 :=
  (Chip.keepsFld_postFault (f := .QP_STICKY_BROKEN) ⟨⟨by decide, by decide⟩, by decide, .inr (.inl (by decide))⟩ _ _ r 0).trans
    (Chip.g_set1_same _ _ _ _ ⟨by decide, by decide⟩)

/-! ### What a scrub finds -/

theorem Chip.readResult_clean (c : Chip) (st : Store) (a : Nat) : c.readResult st a .clean = c.touchStore st a := rfl

theorem Chip.readResult_corrected (c : Chip) (st : Store) (a : Nat) : c.readResult st a .corrected =
    (c.touchStore st a).incSat (storeInfo st).1 (storeInfo st).2.2.1 1 (storeInfo st).2.2.2.1 := rfl

theorem Chip.readResult_passEnd (c : Chip) (st : Store) (a : Nat) : c.readResult st a .passEnd =
    (c.touchStore st a).inc ⟨(storeInfo st).1.reg, 63, 48⟩ (storeInfo st).2.2.1 1 (storeInfo st).2.2.2.1 := rfl

theorem Chip.readResult_clean_spec (c : Chip) (st : Store) (a : Nat) :
    (c.readResult st a .clean).mem = c.mem ∧ c.regsBut (c.readResult st a .clean) [.PWR_STAT] := by
  rw [Chip.readResult_clean]
  exact ⟨c.touchStore_mem st a, c.regsBut_touchStore st a⟩

/-- A corrected error is counted, saturating (R188). -/
theorem Chip.readResult_corrected_spec (c : Chip) (st : Store) (a : Nat) :
    let x := storeInfo st
    (c.readResult st a .corrected).mem = c.mem ∧ c.regsBut (c.readResult st a .corrected) [.PWR_STAT, x.1.reg] ∧
      (c.readResult st a .corrected).g ⟨x.1.reg, 31, 0⟩ x.2.2.1 x.2.2.2.1 =
        min (2 ^ 32 - 1) (c.g ⟨x.1.reg, 31, 0⟩ x.2.2.1 x.2.2.2.1 + 1) := by
  obtain ⟨hce, hpwr, -, -, -⟩ := storeInfo_regs st
  have htouch := c.regsBut_touchStore st a
  rw [Chip.readResult_corrected]
  refine ⟨?_, ?_, ?_⟩
  · rw [Chip.incSat, Chip.put_mem, Chip.touchStore_mem]
  · exact (htouch.mono (by simp)).put _ _ _ _ (by simp)
  · rw [← htouch.g ⟨(storeInfo st).1.reg, 31, 0⟩ _ _ (by simpa using hpwr), ← hce]
    refine (Chip.g_incSat_same _ _ _ _ _ ?_).trans ?_
    · rw [hce]; exact ⟨Nat.zero_le _, by norm_num⟩
    · rw [hce]; rfl

/-- The end of a pass is counted (R192). -/
theorem Chip.readResult_passEnd_spec (c : Chip) (st : Store) (a : Nat) :
    let x := storeInfo st
    (c.readResult st a .passEnd).mem = c.mem ∧ c.regsBut (c.readResult st a .passEnd) [.PWR_STAT, x.1.reg] ∧
      (c.readResult st a .passEnd).g ⟨x.1.reg, 63, 48⟩ x.2.2.1 x.2.2.2.1 =
        (c.g ⟨x.1.reg, 63, 48⟩ x.2.2.1 x.2.2.2.1 + 1) % 2 ^ 16 := by
  obtain ⟨-, hpwr, -, -, -⟩ := storeInfo_regs st
  have htouch := c.regsBut_touchStore st a
  rw [Chip.readResult_passEnd]
  refine ⟨?_, ?_, ?_⟩
  · rw [Chip.inc, Chip.put_mem, Chip.touchStore_mem]
  · exact (htouch.mono (by simp)).put ⟨(storeInfo st).1.reg, 63, 48⟩ _ _ _ (by simp)
  · rw [← htouch.g ⟨(storeInfo st).1.reg, 63, 48⟩ _ _ (by simpa using hpwr)]
    exact Chip.g_inc_same _ ⟨(storeInfo st).1.reg, 63, 48⟩ _ _ _ ⟨by norm_num, by norm_num⟩

/-- An uncorrectable error is counted and logged, its location poisoned, or its queue broken (R189, R192, R203). -/
theorem Chip.readResult_uncorrectable_spec (c : Chip) (st : Store) (a : Nat) :
    let x := storeInfo st
    let d := c.readResult st a .uncorrectable
    d.mem = c.mem ∧ d.g ⟨x.1.reg, 47, 32⟩ x.2.2.1 x.2.2.2.1 = min (2 ^ 16 - 1) (c.g ⟨x.1.reg, 47, 32⟩ x.2.2.1 x.2.2.2.1 + 1) ∧
      d.g ⟨x.2.1.reg, 63, 63⟩ x.2.2.1 x.2.2.2.1 = 1 ∧
      (∀ k, storeKey st ((c.touchStore st a).errLoc st a) = some k → d.bad k = true) ∧
      (∀ r q, st = .link r q → d.g .QP_STICKY_BROKEN r = 1) := by
  obtain ⟨-, hpwr, -, hcef, hadf⟩ := storeInfo_regs st
  have htouch := c.regsBut_touchStore st a
  dsimp only
  rw [Chip.readResult_uncorrectable]
  generalize (c.touchStore st a).errLoc st a = b
  obtain ⟨hcount, hvalid⟩ := (c.touchStore st a).logError_spec st b
  have hreport := ((c.touchStore st a).logError st b).reportError_regs st b
  refine ⟨?_, ?_, ?_, fun k hk => Chip.reportError_bad _ hk, ?_⟩
  · rw [Chip.reportError_mem, Chip.logError_mem, Chip.touchStore_mem]
  · rw [hreport.g ⟨(storeInfo st).1.reg, 47, 32⟩ _ _ hcef, hcount, htouch.g ⟨(storeInfo st).1.reg, 47, 32⟩ _ _ (by simpa using hpwr)]
  · rw [hreport.g ⟨(storeInfo st).2.1.reg, 63, 63⟩ _ _ hadf, hvalid]
  · rintro r q rfl
    exact Chip.reportError_broken _ r q b

/-- The address at which the error of a byte-addressed store is logged is that of its poison granule (R188). -/
theorem Chip.errLoc_key (c : Chip) (st : Store) (a : Nat) : storeKey st (c.errLoc st a) =
    storeKey st (match st with | .near _ => a / 64 * 64 | .cellar _ => a / 64 * 64 | _ => a / 8 * 8) := by
  cases st <;> rfl

end Sys2Proof.Machine
end

section
/-! Regions that park and wake, memories at rest, draws and meter readings (R72, R100, R550–R552, R623). -/

namespace Sys2Proof.Machine

/-- A command whose condition does not hold leaves the state. -/
theorem State.onChip_same {s : State} {f : Chip → Chip} (h : f s.chip = s.chip) : s.onChip f = s := by
  unfold State.onChip; rw [h]

theorem nextChip_same {s : State} {f : Chip → Chip} (h : f s.chip = s.chip) : nextChip s f = .next s :=
  congrArg Host.Outcome.next (State.onChip_same h)

/-- A one-bit field is 0 or 1. -/
theorem Chip.on_iff (c : Chip) {f : Fld} (hf : f.hi = f.lo) (i j : Nat) : c.on f i j = true ↔ c.g f i j = 1 := by
  have := c.g_lt f i j
  rw [hf, Nat.add_sub_cancel_left] at this
  simp only [Chip.on, bne_iff_ne]; omega

theorem Chip.on_eq_false (c : Chip) {f : Fld} {i j : Nat} (h : c.g f i j = 0) : c.on f i j = false := by simp [Chip.on, h]

/-! ### Regions that park (R623) -/

/-- The field of a region's power state. -/
abbrev parkedFld (r : Nat) : Fld := ⟨.PWR_STAT, 32 + r, 32 + r⟩

/-- The on-chip bytes of some units cleared. -/
def Chip.zeroUnits (c : Chip) (us : List Nat) : Chip := us.foldl (fun c u => c.zero (scratchKey u 0) (2 ^ 19)) c

theorem Chip.byte_zeroUnits (us : List Nat) : ∀ (c : Chip) (y : Nat), (c.zeroUnits us).byte y =
    if ∃ u ∈ us, scratchKey u 0 ≤ y ∧ y < scratchKey u 0 + 2 ^ 19 then 0 else c.byte y := by
  induction us with
  | nil => intro c y; simp [Chip.zeroUnits]
  | cons u us ih =>
    intro c y
    refine (ih (c.zero (scratchKey u 0) (2 ^ 19)) y).trans ?_
    rw [Chip.byte_zero]
    by_cases h : ∃ v ∈ us, scratchKey v 0 ≤ y ∧ y < scratchKey v 0 + 2 ^ 19
    · rw [if_pos h, if_pos]; exact h.imp (fun v hv => ⟨List.mem_cons_of_mem _ hv.1, hv.2⟩)
    · rw [if_neg h]
      refine if_congr ⟨fun hu => ⟨u, List.mem_cons_self, hu⟩, fun ⟨v, hv, hy⟩ => ?_⟩ rfl rfl
      rcases List.mem_cons.mp hv with rfl | hv
      · exact hy
      · exact absurd ⟨v, hv, hy⟩ h

theorem Chip.zeroUnits_regs (c : Chip) (us : List Nat) : (c.zeroUnits us).regs = c.regs :=
  foldl_keeps Chip.regs (fun (c : Chip) u => c.zero (scratchKey u 0) (2 ^ 19)) (fun _ _ => rfl) us c

/-- A region's buffer and its units' scratch cleared. -/
def Chip.zeroRegion (c : Chip) (r : Nat) : Chip := (c.zero (regionKey r 0) (2 ^ 25)).zeroUnits (rangeFrom (64 * r) 64)

theorem Chip.zeroRegion_regs (c : Chip) (r : Nat) : (c.zeroRegion r).regs = c.regs := Chip.zeroUnits_regs _ _

theorem mem_rangeFrom_units {r u : Nat} : u ∈ rangeFrom (64 * r) 64 ↔ u / 64 = r := by
  simp only [rangeFrom, List.mem_map, List.mem_range]
  exact ⟨fun ⟨k, hk, he⟩ => by omega, fun h => ⟨u % 64, by omega, by omega⟩⟩

/-- The bytes of a region. -/
def regionByte (r y : Nat) : Prop := (regionKey r 0 ≤ y ∧ y < regionKey r 0 + 2 ^ 25) ∨
  ∃ u, u / 64 = r ∧ scratchKey u 0 ≤ y ∧ y < scratchKey u 0 + 2 ^ 19

theorem Chip.byte_zeroRegion (c : Chip) (r y : Nat) :
    (regionByte r y → (c.zeroRegion r).byte y = 0) ∧ (¬ regionByte r y → (c.zeroRegion r).byte y = c.byte y) := by
  have hu : (∃ u ∈ rangeFrom (64 * r) 64, scratchKey u 0 ≤ y ∧ y < scratchKey u 0 + 2 ^ 19) ↔
      ∃ u, u / 64 = r ∧ scratchKey u 0 ≤ y ∧ y < scratchKey u 0 + 2 ^ 19 := by simp only [mem_rangeFrom_units]
  unfold Chip.zeroRegion regionByte
  rw [Chip.byte_zeroUnits, Chip.byte_zero]
  refine ⟨fun hy => ?_, fun hy => ?_⟩
  · split
    · rfl
    · next hn => rw [if_pos (hy.resolve_right (fun h => hn (hu.mpr h)))]; rfl
  · rw [not_or] at hy
    rw [if_neg (fun h => hy.2 (hu.mp h)), if_neg hy.1]

theorem execRegionPark_eq (r : Nat) (s : State) : exec (.regionPark r) s = nextChip s (fun c =>
    if 16 ≤ r ∨ (c.owner r).isSome ∨ c.on (parkedFld r) 0 ∨ c.up < sget 0 c.freeAt r + 1000000 then c
    else (c.zeroRegion r).set1 (parkedFld r) 0) := rfl

/-! ### Memories at rest (R623) -/

theorem bit_setBits_one (w n : Nat) : bit (setBits w n n 1) n = true := by
  have h := bits_setBits_same w n n 1 (Nat.le_succ n)
  rw [bits, Nat.add_sub_cancel_left] at h
  simpa [bit] using h

/-! ### A bank of a register -/

/-- Values written to the places of a register from 0 on. -/
theorem Chip.rd_foldl_wr (c : Chip) (r : Reg) {i : Nat} (hi : i < 2048) (v : Nat → Word) {n : Nat} (hn : n ≤ 4096) : ∀ k < n,
    ((List.range n).foldl (fun c k => c.wr r i (v k) k) c).rd r i k = v k := by
  induction n with
  | zero => intro k hk; omega
  | succ n ih =>
    intro k hk
    rw [List.range_succ, List.foldl_append, List.foldl_cons, List.foldl_nil]
    by_cases hkn : k = n
    · subst hkn; exact Chip.rd_wr_same _ _ _ _ _
    · rw [Chip.wr, Chip.rd_wrBits_inst _ _ _ _ _ _ _ (by simpa using hkn) hi hi (by omega) (by omega)]
      exact ih (by omega) k (by omega)

/-! ### Meter readings (R550–R552) -/

theorem Chip.noRegs_showReadings (c : Chip) (p : Nat) : (c.showReadings p).noRegs = c.noRegs := by
  unfold Chip.showReadings
  rw [Chip.noRegs_put, Chip.noRegs_put, Chip.noRegs_put]

theorem Chip.regsBut_showReadings (c : Chip) (p : Nat) : c.regsBut (c.showReadings p) [.MTR_STAT, .MTR_SNAP] :=
  (((c.regsBut_refl _).put .MTR_SNAP_GO _ _ _ (by decide)).put .MTR_SNAP_UNATTR _ _ _ (by decide)).put .MTR_STAT_BUSY _ _ _ (by decide)

/-- The next sequence number is no mark of a reading in progress. -/
theorem Chip.nextSeq_showReadings (c : Chip) (p m : Nat) :
    (c.showReadings p).g .MTR_STAT_NEXT_SEQ m = c.g .MTR_STAT_NEXT_SEQ m := by
  unfold Chip.showReadings
  rw [Chip.g_put_clear _ _ _ _ _ _ ⟨by decide, by decide⟩ ⟨by decide, by decide⟩ (.inr (.inl (by decide))),
    Chip.g_put_reg _ _ _ _ _ _ _ _ (by decide), Chip.g_put_reg _ _ _ _ _ _ _ _ (by decide)]

end Sys2Proof.Machine
end

section
/-! Meter readings (R550–R552). -/

namespace Sys2Proof.Machine

/-! ### The words of a reading -/

theorem Word.toNat_ofNat (n : Nat) : (Sys2Proof.Word.ofNat n).toNat = n % 2 ^ 64 := by simp [Sys2Proof.Word.ofNat]

theorem Chip.readingWords_length (c : Chip) (path m : Nat) : (c.readingWords path m).length = 30 := by
  simp [Chip.readingWords]

/-- Sequence number, time and meters stand in words 1, 2 and 4 to 27 of a reading (R550). -/
theorem Chip.readingWords_spec (c : Chip) (path m : Nat) :
    (wordAt (c.readingWords path m) 1).toNat = c.g .MTR_STAT_NEXT_SEQ m ∧ (wordAt (c.readingWords path m) 2).toNat = c.now % 2 ^ 64 ∧
      ∀ i, i < 24 → (wordAt (c.readingWords path m) (4 + i)).toNat = c.meterVal m i % 2 ^ 64 := by
  refine ⟨?_, Word.toNat_ofNat _, fun i hi => ?_⟩
  · refine (Word.toNat_ofNat _).trans (Nat.mod_eq_of_lt ?_)
    have := c.g_lt .MTR_STAT_NEXT_SEQ m 0
    exact this.trans (by decide)
  · have : wordAt (c.readingWords path m) (4 + i) = Sys2Proof.Word.ofNat (c.meterVal m i) := by
      unfold wordAt Chip.readingWords
      simp [Nat.add_comm 4 i, List.getElem?_append_left, hi]
    rw [this, Word.toNat_ofNat]

/-! ### A reading begun -/

/-- The reading of a set that a path asks for now. -/
def Chip.newJob (c : Chip) (f path m win : Nat) : MeterJob := { fn := f, path := path, part := m, win := win, words := c.readingWords path m }

theorem Chip.startReading_ignored {c : Chip} {path m : Nat} (h : c.reading path m = true) (f win : Nat) : c.startReading f path m win = c :=
  if_pos h

/-- The readings in progress replaced. -/
def Chip.withJobs (c : Chip) (l : List MeterJob) : Chip := { c with mjobs := l }

theorem Chip.withJobs_regs (c : Chip) (l : List MeterJob) : (c.withJobs l).regs = c.regs := rfl
theorem Chip.withJobs_mem (c : Chip) (l : List MeterJob) : (c.withJobs l).mem = c.mem := rfl
theorem Chip.withJobs_mjobs (c : Chip) (l : List MeterJob) : (c.withJobs l).mjobs = l := rfl
theorem Chip.withJobs_out (c : Chip) (l : List MeterJob) : (c.withJobs l).out = c.out := rfl
theorem Chip.withJobs_g (c : Chip) (l : List MeterJob) (f : Fld) (i j : Nat) : (c.withJobs l).g f i j = c.g f i j := rfl

/-- Memory, readings and what was sent are no registers. -/
theorem Chip.of_noRegs {c d : Chip} (h : d.noRegs = c.noRegs) : d.mem = c.mem ∧ d.mjobs = c.mjobs ∧ d.out = c.out :=
  ⟨(congrArg Chip.mem h :), (congrArg Chip.mjobs h :), (congrArg Chip.out h :)⟩

theorem Chip.showReadings_rest (c : Chip) (p : Nat) :
    (c.showReadings p).mem = c.mem ∧ (c.showReadings p).mjobs = c.mjobs ∧ (c.showReadings p).out = c.out :=
  Chip.of_noRegs (c.noRegs_showReadings p)

theorem Chip.startReading_eq {c : Chip} {path m : Nat} (h : c.reading path m = false) (f win : Nat) : c.startReading f path m win =
    ((c.inc .MTR_STAT_NEXT_SEQ m).withJobs (c.mjobs ++ [c.newJob f path m win])).showReadings (win % 32) :=
  if_neg (by simp [h])

/-- The snapshot taken with the next sequence number. -/
theorem Chip.startReading_spec {c : Chip} {path m : Nat} (h : c.reading path m = false) (f win : Nat) :
    (c.startReading f path m win).mem = c.mem ∧ c.regsBut (c.startReading f path m win) [.MTR_STAT, .MTR_SNAP] ∧
      (c.startReading f path m win).g .MTR_STAT_NEXT_SEQ m = (c.g .MTR_STAT_NEXT_SEQ m + 1) % 2 ^ 48 ∧
      (c.startReading f path m win).mjobs = c.mjobs ++ [c.newJob f path m win] := by
  rw [Chip.startReading_eq h]
  refine ⟨?_, ?_, ?_, (Chip.showReadings_rest _ _).2.1⟩
  · rw [(Chip.showReadings_rest _ _).1, Chip.withJobs_mem, Chip.inc, Chip.put_mem]
  · exact (((c.regsBut_refl _).put .MTR_STAT_NEXT_SEQ m _ 0 (by decide)).regs (Chip.withJobs_regs _ _)).trans (Chip.regsBut_showReadings _ _)
  · rw [Chip.nextSeq_showReadings, Chip.withJobs_g]
    exact c.g_inc_same .MTR_STAT_NEXT_SEQ m 1 0 ⟨by decide, by decide⟩

/-- GO and BUSY show a reading of a partition, UNATTR one of the unattributed meters (R550, R562). -/
theorem Chip.showReadings_marks (c : Chip) (p : Nat) {j : MeterJob} (hj : j ∈ c.mjobs) (hpath : j.path ≠ 2) :
    (j.part = p → (c.showReadings p).g .MTR_SNAP_GO p = 1 ∧ (c.showReadings p).g .MTR_STAT_BUSY p = 1) ∧
      (j.part = 16 → j.win % 32 = p → (c.showReadings p).g .MTR_SNAP_UNATTR p = 1) := by
  refine ⟨fun hp => ?_, fun hm hp => ?_⟩
  · have hown : j ∈ c.mjobs.filter (fun j => j.part == p) := List.mem_filter.mpr ⟨hj, by simp [hp]⟩
    have hgo : (c.mjobs.filter (fun j => j.part == p)).any (fun j => j.path != 2) = true :=
      List.any_eq_true.mpr ⟨j, hown, by simp [hpath]⟩
    have hbusy : (c.mjobs.filter (fun j => j.part == p)).isEmpty = false := by
      rw [List.isEmpty_eq_false_iff]; exact List.ne_nil_of_mem hown
    unfold Chip.showReadings
    dsimp only
    rw [hgo, hbusy]
    refine ⟨?_, Chip.g_put_same _ _ _ _ _ ⟨by decide, by decide⟩⟩
    rw [Chip.g_put_reg _ _ _ _ _ _ _ _ (by decide),
      Chip.g_put_clear _ _ _ _ _ _ ⟨by decide, by decide⟩ ⟨by decide, by decide⟩ (.inr (.inl (by decide)))]
    exact Chip.g_put_same _ _ _ _ _ ⟨by decide, by decide⟩
  · have hun : j ∈ c.mjobs.filter (fun j => j.part == 16 && j.path != 2 && j.win % 32 == p) :=
      List.mem_filter.mpr ⟨hj, by simp [hm, hpath, hp]⟩
    have hne : (c.mjobs.filter (fun j => j.part == 16 && j.path != 2 && j.win % 32 == p)).isEmpty = false := by
      rw [List.isEmpty_eq_false_iff]; exact List.ne_nil_of_mem hun
    unfold Chip.showReadings
    dsimp only
    rw [hne, Chip.g_put_reg _ _ _ _ _ _ _ _ (by decide)]
    exact Chip.g_put_same _ _ _ _ _ ⟨by decide, by decide⟩

/-- A reading begun shows in the window that asked for it. -/
theorem Chip.startReading_marks {c : Chip} {path m : Nat} (h : c.reading path m = false) (f : Nat) {win p : Nat} (hw : win % 32 = p)
    (hpath : path ≠ 2) :
    (m = p → (c.startReading f path m win).g .MTR_SNAP_GO p = 1 ∧ (c.startReading f path m win).g .MTR_STAT_BUSY p = 1) ∧
      (m = 16 → (c.startReading f path m win).g .MTR_SNAP_UNATTR p = 1) := by
  have hj : c.newJob f path m win ∈ ((c.inc .MTR_STAT_NEXT_SEQ m).withJobs (c.mjobs ++ [c.newJob f path m win])).mjobs := by
    rw [Chip.withJobs_mjobs]; exact List.mem_append_right _ (List.mem_singleton_self _)
  rw [Chip.startReading_eq h, hw]
  obtain ⟨hown, hun⟩ := Chip.showReadings_marks _ p hj hpath
  exact ⟨hown, fun hm => hun hm hw⟩

/-! ### A reading completed -/

theorem Chip.find_reading {c : Chip} {path m : Nat} (h : c.reading path m = false) :
    c.mjobs.find? (fun j => j.path == path && j.part == m) = none :=
  List.find?_eq_none.mpr (List.any_eq_false.mp h)

/-- The words in the buffer of the reader's window. -/
def Chip.fillBuffer (c : Chip) (win : Nat) (ws : List Word) : Chip := (List.range 32).foldl (fun c i => c.wr .MTR_RD win (wordAt ws i) i) c

/-- The words of a reading with its MAC (R551). -/
def Chip.finished (c : Chip) (j : MeterJob) : List Word := j.words ++ c.readingMac j.part j.words

/-- The chip without a reading in progress. -/
def Chip.endJob (c : Chip) (j : MeterJob) : Chip :=
  (c.withJobs (c.mjobs.filter (fun k => !(k.path == j.path && k.part == j.part)))).showReadings (j.win % 32)

theorem Chip.finishReading_eq (c : Chip) (j : MeterJob) : c.finishReading j =
    if j.path = 2 then (c.endJob j).emit (.mctp (0 :: bytesOf (c.finished j)))
    else if j.fn < 34 then ((c.endJob j).fillBuffer j.win (c.finished j)).cause j.fn 2
    else (c.endJob j).fillBuffer j.win (c.finished j) := rfl

theorem Chip.endJob_spec (c : Chip) (j : MeterJob) : (c.endJob j).mem = c.mem ∧ (c.endJob j).out = c.out ∧
    (c.endJob j).mjobs = c.mjobs.filter (fun k => !(k.path == j.path && k.part == j.part)) :=
  have ⟨hmem, hjobs, hout⟩ := Chip.showReadings_rest
    (c.withJobs (c.mjobs.filter (fun k => !(k.path == j.path && k.part == j.part)))) (j.win % 32)
  ⟨hmem.trans (c.withJobs_mem _), hout.trans (c.withJobs_out _), hjobs⟩

theorem Chip.noRegs_fillBuffer (c : Chip) (win : Nat) (ws : List Word) : (c.fillBuffer win ws).noRegs = c.noRegs :=
  foldl_keeps Chip.noRegs (fun (c : Chip) i => c.wr .MTR_RD win (wordAt ws i) i) (fun c i => c.noRegs_wr .MTR_RD win (wordAt ws i) i) _ c

theorem Chip.rd_fillBuffer (c : Chip) {win : Nat} (hw : win < 1024) (ws : List Word) {i : Nat} (hi : i < 32) :
    (c.fillBuffer win ws).rd .MTR_RD win i = wordAt ws i :=
  c.rd_foldl_wr .MTR_RD (by omega) (wordAt ws) (by omega) i hi

theorem Chip.cause_mjobs (c : Chip) (f k : Nat) : (c.cause f k).mjobs = c.mjobs :=
  (congrArg Chip.mjobs (c.noRegs_cause f k) :)

/-- A completed reading is no longer in progress, and stands in the reader's buffer, or in a reply (R550, R551). -/
theorem Chip.finishReading_spec (c : Chip) {j : MeterJob} (hw : j.win < 1024) :
    (c.finishReading j).mem = c.mem ∧ (c.finishReading j).mjobs = c.mjobs.filter (fun k => !(k.path == j.path && k.part == j.part)) ∧
      (j.path ≠ 2 → ∀ i, i < 32 → (c.finishReading j).rd .MTR_RD j.win i = wordAt (c.finished j) i) ∧
      (j.path = 2 → (c.finishReading j).out = c.out ++ [.mctp (0 :: bytesOf (c.finished j))]) := by
  obtain ⟨hmem, hout, hjobs⟩ := c.endJob_spec j
  have hfill := (c.endJob j).noRegs_fillBuffer j.win (c.finished j)
  have hfmem : ((c.endJob j).fillBuffer j.win (c.finished j)).mem = c.mem := (Chip.of_noRegs hfill).1.trans hmem
  have hfjobs : ((c.endJob j).fillBuffer j.win (c.finished j)).mjobs = _ := (Chip.of_noRegs hfill).2.1.trans hjobs
  rw [Chip.finishReading_eq]
  by_cases hp : j.path = 2
  · rw [if_pos hp]
    exact ⟨hmem, hjobs, fun h => absurd hp h, fun _ => congrArg (· ++ _) hout⟩
  · rw [if_neg hp]
    split
    · refine ⟨(Chip.cause_mem _ _ _).trans hfmem, (Chip.cause_mjobs _ _ _).trans hfjobs, fun _ i hi => ?_, fun h => absurd h hp⟩
      rw [Chip.regsBut_cause _ _ _ _ _ _ (by decide), Chip.rd_fillBuffer _ hw _ hi]
    · exact ⟨hfmem, hfjobs, fun _ i hi => Chip.rd_fillBuffer _ hw _ hi, fun h => absurd h hp⟩

end Sys2Proof.Machine
end

section
/-! The commands of stores, idle regions, memories at rest, draws and meters (R72, R100, R188–R192, R550–R552, R623). -/

namespace Sys2Proof.Machine

theorem State.chipOnly_onChip (s : State) (f : Chip → Chip) : s.chipOnly (s.onChip f) := ⟨rfl, rfl⟩

theorem nextChip_eq {s : State} {f g : Chip → Chip} (h : f s.chip = g s.chip) : nextChip s f = .next (s.onChip g) := by
  unfold nextChip State.onChip; rw [h]

theorem exec_patrolScrubPass (s : State) (st : Store) (a : Nat) (res : ScrubResult) :
    exec (.patrolScrubPass st a res) s = .next (s.onChip (fun c => c.readResult st a res)) := rfl

theorem exec_regionPark_ignored {s : State} {r : Nat}
    (h : s.chip.owner r ≠ none ∨ s.chip.g (parkedFld r) 0 = 1 ∨ s.chip.up < sget 0 s.chip.freeAt r + 1000000) :
    exec (.regionPark r) s = .next s := by
  refine nextChip_same (if_pos (.inr ?_))
  rwa [Chip.on_iff _ rfl, Option.isSome_iff_ne_none]

theorem exec_regionPark_parks {s : State} {r : Nat} (hr : r < 16) (ho : s.chip.owner r = none)
    (hp : s.chip.g (parkedFld r) 0 = 0) (hup : sget 0 s.chip.freeAt r + 1000000 ≤ s.chip.up) :
    exec (.regionPark r) s = .next (s.onChip (fun c => (c.zeroRegion r).set1 (parkedFld r) 0)) := by
  refine nextChip_eq (if_neg ?_)
  have hon := s.chip.on_eq_false hp
  rw [ho, hon]
  simp; omega

theorem exec_regionWake_ignored {s : State} {r : Nat} (h : s.chip.g (parkedFld r) 0 = 0) : exec (.regionWake r) s = .next s :=
  nextChip_same (if_pos (.inr (by rw [s.chip.on_eq_false h]; decide)))

theorem exec_regionWake_wakes {s : State} {r : Nat} (hr : r < 16) (h : s.chip.g (parkedFld r) 0 = 1) : exec (.regionWake r) s =
    .next (s.onChip (fun c => { c.put (parkedFld r) 0 0 with freeAt := sset 0 c.freeAt r c.up })) := by
  refine nextChip_eq (if_neg ?_)
  have hon := (s.chip.on_iff (f := parkedFld r) rfl 0 0).mpr h
  rw [hon]
  simp; omega

theorem exec_selfRefreshEnter_stack (s : State) {dev : Nat} (h : dev < 8) :
    exec (.selfRefreshEnter dev) s = .next (s.onChip (fun c => c.set1 ⟨.PWR_STAT, 48 + dev, 48 + dev⟩ 0)) :=
  nextChip_eq (if_pos h)

theorem exec_selfRefreshEnter_package (s : State) {dev : Nat} (h : 8 ≤ dev) (h' : dev < 32) :
    exec (.selfRefreshEnter dev) s = .next (s.onChip (fun c => { c with cref := setBits c.cref (dev - 8) (dev - 8) 1 })) :=
  nextChip_eq ((if_neg (by omega)).trans (if_pos h'))

theorem exec_hubSrtGo {s : State} {fn : Fn} {p : Nat} (h : s.chip.reaches fn .HUB_SRT_STEP p = true) :
    exec (.hubSrtGo fn p) s = .next (s.onChip (fun c => c.set1 ⟨.HUB_SRT_STEP, 63, 63⟩ p)) := nextChip_eq (if_pos h)

/-- The draw that the registers of a partition ask for (R72, R100). -/
def Chip.askedDraw (c : Chip) (p : Nat) : Nat :=
  draw (c.rd .HUB_SEED p).toNat (c.g .HUB_SRT_IDX_TENSOR p) (c.g .HUB_SRT_IDX_INDEX p) (c.g .HUB_SRT_STEP_STEP p) (c.g .HUB_SRT_STEP_DRAW p)

theorem exec_hubSrtDone {s : State} {p : Nat} (h : s.chip.g ⟨.HUB_SRT_STEP, 63, 63⟩ p = 1) : exec (.hubSrtDone p) s =
    .next (s.onChip (fun c => (c.wr .HUB_SRT_OUT p (Sys2Proof.Word.ofNat (c.askedDraw p % 2 ^ 32))).put ⟨.HUB_SRT_STEP, 63, 63⟩ p 0)) := by
  refine nextChip_eq (if_neg ?_)
  rw [(s.chip.on_iff rfl p 0).mpr h]; decide

/-- A draw's 32 bits stand in VALUE. -/
theorem Chip.g_drawn (c : Chip) (p v : Nat) :
    (c.wr .HUB_SRT_OUT p (Sys2Proof.Word.ofNat (v % 2 ^ 32))).g .HUB_SRT_OUT_VALUE p = v % 2 ^ 32 := by
  rw [Chip.g, Chip.rd_wr_same, wbits, bits, Word.toNat_ofNat, Nat.shiftRight_zero]
  norm_num

theorem exec_mtrGo (s : State) {fn : Fn} {p : Nat} (hp : p < 16) (h : s.chip.reaches fn .MTR_SNAP p = true) : exec (.mtrGo fn p) s =
    .next (s.onChip (fun c => c.startReading (fnIdx fn) (fnPath fn) p (fnPath fn * 32 + p))) := by
  refine nextChip_eq (if_neg ?_)
  rw [h]; simp; omega

theorem exec_mtrUnattr (s : State) {fn : Fn} {i : Nat} (h : pselOf fn = some i) : exec (.mtrUnattr fn) s =
    .next (s.onChip (fun c => c.startReading (fnIdx fn) (fnPath fn) 16 (fnPath fn * 32 + s.chip.g .HUB_PSEL_PART i))) := by
  refine nextChip_eq ?_
  rw [h]

theorem exec_meterReadingDone {s : State} {path m : Nat} {j : MeterJob}
    (h : s.chip.mjobs.find? (fun j => j.path == path && j.part == m) = some j) :
    exec (.meterReadingDone path m) s = .next (s.onChip (fun c => c.finishReading j)) := by
  refine nextChip_eq ?_
  rw [h]

theorem fnPath_lt (fn : Fn) : fnPath fn < 2 := by unfold fnPath; split <;> decide

end Sys2Proof.Machine
end

open Sys2Proof.Machine in
/-- Settles O40: each command is one operation on its own registers, its own memory or its own list of readings. -/
theorem storesDrawsAndMeters : Obligations.StoresDrawsAndMeters := by
  refine ⟨fun s st a => ?_, fun s r hr => ?_, fun s dev => ?_, fun s fn p hp => ?_, fun s path m => ?_⟩
  · intro c f ce ad i j hi hj
    obtain ⟨hmem, hcount, hvalid, hbad, hbroken⟩ := c.readResult_uncorrectable_spec st a
    have runs := exec_patrolScrubPass s st a
    refine ⟨⟨_, runs _, s.chipOnly_onChip _, ?_⟩, ⟨_, runs _, s.chipOnly_onChip _, ?_⟩, ⟨_, runs _, s.chipOnly_onChip _, ?_⟩,
      ⟨_, runs _, s.chipOnly_onChip _, ?_⟩⟩
    all_goals rw [State.onChip_chip]
    · exact c.readResult_clean_spec st a
    · exact c.readResult_corrected_spec st a
    · exact c.readResult_passEnd_spec st a
    · exact ⟨hmem, hcount, hvalid, fun k hk => hbad k ((congrArg (· = some k) (Chip.errLoc_key _ st a)).mpr hk), fun r q _ _ => hbroken r q⟩
  · intro c parked own
    have hpark : ∀ r < 16, (parkedFld r).ok := fun r hr => ⟨le_rfl, by dsimp only; omega⟩
    refine ⟨exec_regionPark_ignored, fun how hon hup => ⟨_, exec_regionPark_parks hr how hon hup, s.chipOnly_onChip _, ?_⟩,
      exec_regionWake_ignored, fun h => ⟨_, exec_regionWake_wakes hr h, ⟨s.chipOnly_onChip _, ?_⟩, ?_⟩⟩
    · rw [State.onChip_chip]
      refine ⟨((Chip.fieldsBut_of_regs (c.zeroRegion_regs r) _).put _ _ _ _ (hpark r hr) (by omega) (by omega) (List.mem_singleton_self _)),
        Chip.g_set1_same _ _ _ _ (hpark r hr), fun y hy => ?_, fun y hy => ?_⟩
      · rw [Chip.set1_byte]; exact (c.byte_zeroRegion r y).1 hy
      · rw [Chip.set1_byte]; exact (c.byte_zeroRegion r y).2 hy
    · exact ⟨rfl, (c.fieldsBut_put (parkedFld r) 0 0 0 (hpark r hr) (by omega) (by omega)).regs rfl⟩
    · exact c.g_put_same (parkedFld r) 0 0 0 (hpark r hr)
  · refine ⟨fun h => ⟨_, exec_selfRefreshEnter_stack s h, ⟨s.chipOnly_onChip _, rfl, ?_⟩, ?_⟩,
      fun h h' => ⟨_, exec_selfRefreshEnter_package s h h', bit_setBits_one _ _, s.chipOnly_onChip _, rfl, Chip.fieldsBut_of_regs rfl _⟩⟩
    · exact s.chip.fieldsBut_put _ _ _ _ ⟨le_rfl, by dsimp only; omega⟩ (by omega) (by omega)
    · exact s.chip.g_set1_same _ _ _ ⟨le_rfl, by dsimp only; omega⟩
  · intro c go
    have hgo : go.ok := ⟨by decide, by decide⟩
    refine ⟨fun h => nextChip_same (if_neg (by rw [h]; decide)), fun h => ⟨_, exec_hubSrtGo h, ⟨s.chipOnly_onChip _, ?_, ?_⟩, ?_⟩,
      fun h => nextChip_same (if_pos (by rw [s.chip.on_eq_false h]; decide)),
      fun h => ⟨_, exec_hubSrtDone h, ⟨s.chipOnly_onChip _, ?_, ?_⟩, ?_, ?_⟩, ?_⟩
    · exact Chip.noRegs_set1 _ _ _ _
    · exact c.fieldsBut_put go p 1 0 hgo (by omega) (by omega)
    · exact c.g_set1_same go p 0 hgo
    · exact (Chip.noRegs_put _ _ _ _ _).trans (Chip.noRegs_wr _ _ _ _ _)
    · exact Chip.fieldsBut.put (Chip.fieldsBut.wr (c.fieldsBut_refl _) .HUB_SRT_OUT p _ 0 (by omega) (by omega) (by simp)) go p 0 0 hgo
        (by omega) (by omega) (by simp)
    · exact Chip.g_put_same _ go p 0 0 hgo
    · rw [State.onChip_chip, Chip.g_put_reg _ _ _ _ _ _ _ _ (by decide)]
      exact Chip.g_drawn _ _ _
    · intro path taken
      have hpath := fnPath_lt fn
      have takes : ∀ (f m win : Nat), c.reading path m = false → taken (s.onChip (fun c => c.startReading f path m win)) m := by
        intro f m win h
        obtain ⟨hmem, hregs, hseq, hjobs⟩ := Chip.startReading_spec h f win
        obtain ⟨hw1, hw2, hw4⟩ := c.readingWords_spec path m
        exact ⟨s.chipOnly_onChip _, hmem, hregs, hseq, _, hjobs, rfl, rfl, c.readingWords_length path m, hw1, hw2, hw4⟩
      refine ⟨fun h => ?_, fun hr h => ⟨_, exec_mtrGo s hp hr, takes _ _ _ h, ?_⟩,
        fun h => ?_, fun i hi h => ⟨_, exec_mtrUnattr s hi, takes _ _ _ h, ?_⟩⟩
      · cases hr : c.reaches fn .MTR_SNAP p with
        | false => exact nextChip_same (if_pos (.inr (by rw [hr]; decide)))
        | true =>
          rw [exec_mtrGo s hp hr, State.onChip_same]
          exact Chip.startReading_ignored (h.resolve_left (by rw [hr]; decide)) _ _
      · exact (Chip.startReading_marks h _ (by omega) hpath.ne).1 rfl
      · cases hi : pselOf fn with
        | none => exact nextChip_same (by rw [hi])
        | some i =>
          rw [exec_mtrUnattr s hi, State.onChip_same]
          exact Chip.startReading_ignored (h.resolve_left (by rw [hi]; exact Option.some_ne_none i)) _ _
      · have hpart : s.chip.g .HUB_PSEL_PART i < 16 := s.chip.g_lt .HUB_PSEL_PART i 0
        exact (Chip.startReading_marks h _ (show _ = s.chip.g .HUB_PSEL_PART i by omega) hpath.ne).2 rfl
  · intro c
    refine ⟨fun h => nextChip_same ?_, fun j hj hw => ⟨_, exec_meterReadingDone hj, s.chipOnly_onChip _, ?_⟩⟩
    · rw [Chip.find_reading h]
    · obtain ⟨hpath, hpart⟩ : j.path = path ∧ j.part = m := by simpa using List.find?_some hj
      obtain ⟨hmem, hjobs, hbuf, hout⟩ := c.finishReading_spec hw
      subst hpath hpart
      exact ⟨hmem, hjobs, hbuf, hout⟩

section
/-! Chains of the vector engine: what the work of a chain leaves of the unit's queue, its input buffer and the combining points
(R141–R165). -/

namespace Sys2Proof.Machine

/-! ### Units and combining points -/

/-- The units and the combining points of a chip. -/
def Chip.work (c : Chip) : List (Nat × UnitS) × List (Nat × List Comb) := (c.units, c.combs)

theorem Chip.work_putBytes (bs : List Byte) : ∀ (c : Chip) (k : Nat), (c.putBytes k bs).work = c.work := by
  induction bs with
  | nil => exact fun _ _ => rfl
  | cons b bs ih => exact fun c k => ih (c.putByte k b) (k + 1)

theorem Chip.work_poisonWrite (c : Chip) (k n : Nat) (b : Bool) : (c.poisonWrite k n b).work = c.work := by
  unfold Chip.poisonWrite
  refine foldl_keeps Chip.work _ (fun c i => ?_) _ _
  dsimp only
  split_ifs <;> rfl

theorem Chip.cref_work (c : Chip) (x : Nat) : ({ c with cref := x } : Chip).work = c.work := rfl

theorem Chip.work_put (c : Chip) (f : Fld) (i v j : Nat) : (c.put f i v j).work = c.work := rfl

theorem Chip.work_touch (c : Chip) (k : Nat) : (c.touch k).work = c.work := by
  unfold Chip.touch
  split
  · rfl
  · split
    · exact c.work_put _ _ _ _
    · exact c.cref_work _

theorem Chip.work_write (c : Chip) (k : Nat) (bs : List Byte) (b : Bool) : (c.write k bs b).work = c.work := by
  rw [Chip.write, Chip.work_touch, Chip.work_poisonWrite, Chip.work_putBytes]

theorem Chip.work_meter (c : Chip) (p i n : Nat) : (c.meter p i n).work = c.work := by
  rw [Chip.work, Chip.work, Chip.meter_units, Chip.meter_combs]

theorem Chip.queueOnly.work {c d : Chip} (h : c.queueOnly d) : d.work = c.work := (congrArg Chip.work h.1 :)

theorem Chip.faultOnly.work {c d : Chip} (h : c.faultOnly d) : d.work = c.work := (congrArg Chip.work h.1 :)

theorem Chip.work_mustVote (c : Chip) (p : Nat) : (c.mustVote p).work = c.work := rfl

theorem Chip.work_ctrlFault (c : Chip) (ps : List Nat) (x : FaultSpec) : (c.ctrlFault ps x).work = c.work :=
  (foldl_keeps Chip.work (fun (c : Chip) p => c.mustVote p) (fun c p => c.work_mustVote p) ps _).trans (c.faultOnly_postFault x).work

/-! ### What a chain spares -/

/-- From c to d the queue and the input buffer of unit u, the combining points and the count of the unit's chains stay. -/
structure Chip.spares (u : Nat) (c d : Chip) : Prop where
  queue : (d.unit u).queue = (c.unit u).queue
  vbuf : (d.unit u).vbuf = (c.unit u).vbuf
  combs : d.combs = c.combs
  count : d.rd .VEC_CNT_CHAIN u = c.rd .VEC_CNT_CHAIN u

theorem Chip.spares_refl (u : Nat) (c : Chip) : Chip.spares u c c := ⟨rfl, rfl, rfl, rfl⟩

theorem Chip.spares.trans {u : Nat} {c d e : Chip} (h : Chip.spares u c d) (h' : Chip.spares u d e) : Chip.spares u c e :=
  ⟨h'.queue.trans h.queue, h'.vbuf.trans h.vbuf, h'.combs.trans h.combs, h'.count.trans h.count⟩

theorem Chip.spares_of_work {u : Nat} {c d : Chip} {l : List Reg} (h : d.work = c.work) (hr : c.regsBut d l)
    (hl : Reg.VEC_CNT_CHAIN ∉ l) : Chip.spares u c d := by
  have hu : d.unit u = c.unit u := by unfold Chip.unit; rw [show d.units = c.units from congrArg Prod.fst h]
  exact ⟨by rw [hu], by rw [hu], congrArg Prod.snd h, hr _ _ _ hl⟩

@[simp] theorem Chip.unit_setUnit_same (c : Chip) (u : Nat) (x : UnitS) : (c.setUnit u x).unit u = x := by
  unfold Chip.unit Chip.setUnit; exact sget_sset_same _ _ _ _

/-- A unit's census and reductions replaced. -/
theorem Chip.spares_setUnit {u : Nat} (c : Chip) {x : UnitS} (hq : x.queue = (c.unit u).queue) (hv : x.vbuf = (c.unit u).vbuf) :
    Chip.spares u c (c.setUnit u x) :=
  ⟨by rw [Chip.unit_setUnit_same, hq], by rw [Chip.unit_setUnit_same, hv], rfl, rfl⟩

theorem Chip.spares_put {u : Nat} (c : Chip) (f : Fld) (i v j : Nat) (hf : f.reg ≠ .VEC_CNT_CHAIN) : Chip.spares u c (c.put f i v j) :=
  Chip.spares_of_work (c.work_put f i v j) (c.regsBut_put f i v j) (by simpa using hf.symm)

/-! ### Writes of engines -/

theorem Chip.regsBut_write (c : Chip) (k : Nat) (bs : List Byte) (b : Bool) : c.regsBut (c.write k bs b) [.PWR_STAT] := by
  refine Chip.regsBut.trans (d := (c.putBytes k bs).poisonWrite k bs.length b) (Chip.regsBut_of_regs ?_ _) (Chip.regsBut_touch _ _)
  rw [Chip.poisonWrite_regs, Chip.putBytes_regs]

theorem Chip.spares_meter {u : Nat} (c : Chip) (p i n : Nat) : Chip.spares u c (c.meter p i n) :=
  Chip.spares_of_work (c.work_meter p i n) (Chip.regsBut_of_regs (c.meter_regs p i n) []) (by decide)

theorem Chip.spares_write {u : Nat} (c : Chip) (k : Nat) (bs : List Byte) (b : Bool) : Chip.spares u c (c.write k bs b) :=
  Chip.spares_of_work (c.work_write k bs b) (c.regsBut_write k bs b) (by decide)

theorem Chip.spares_ctrlFault {u : Nat} (c : Chip) (ps : List Nat) (x : FaultSpec) : Chip.spares u c (c.ctrlFault ps x) := by
  refine Chip.spares_of_work (c.work_ctrlFault ps x) (l := faultRegs) ((c.faultOnly_postFault x).2.regs ?_) (by decide)
  exact foldl_keeps Chip.regs (fun (c : Chip) p => c.mustVote p) (fun c p => c.mustVote_regs p) ps _

theorem Chip.spares_blockedWrite {u : Nat} (c : Chip) (p writer addr : Nat) : Chip.spares u c (c.blockedWrite p writer addr) := by
  unfold Chip.blockedWrite
  dsimp only
  split
  · exact (c.spares_put .CEL_UPD_STICKY_BLOCKED p 1 0 (by decide)).trans (Chip.spares_ctrlFault _ _ _)
  · exact c.spares_ctrlFault _ _

theorem Chip.spares_engWrite {u : Nat} (c : Chip) (p writer v addr : Nat) (bs : List Byte) (poison : Bool) (ex : List (Nat × Nat)) :
    Chip.spares u c (c.engWrite p writer v addr bs poison ex) := by
  have hw : Chip.spares u c ((c.write (opAt v addr) bs poison).meter p 12 bs.length) :=
    (c.spares_write _ _ _).trans (Chip.spares_meter _ _ _ _)
  unfold Chip.engWrite
  dsimp only
  split
  · split
    · exact hw
    · exact c.spares_blockedWrite _ _ _
  · exact hw

theorem foldl_spares {β : Type} {u : Nat} (f : Chip → β → Chip) (h : ∀ c x, Chip.spares u c (f c x)) (l : List β) :
    ∀ c, Chip.spares u c (l.foldl f c) := by
  induction l with
  | nil => exact fun c => c.spares_refl u
  | cons x l ih => exact fun c => (h c x).trans (ih _)

theorem Chip.spares_engRuns {u : Nat} (c : Chip) (p writer v : Nat) (rs : List (Nat × List Byte)) (poison : Bool) (ex : List (Nat × Nat)) :
    Chip.spares u c (c.engRuns p writer v rs poison ex) :=
  foldl_spares _ (fun c r => c.spares_engWrite p writer v r.1 r.2 poison ex) rs c

/-! ### The census -/

theorem Chip.spares_censPost (c : Chip) (u : Nat) (e : CensEntry) : Chip.spares u c (c.censPost u e) := by
  unfold Chip.censPost
  split
  · exact c.spares_put .VEC_CNT_CDROP_COUNT u _ 0 (by decide)
  · split
    · next h =>
      obtain ⟨hq, -⟩ := Chip.post_linked h
      exact (Chip.spares_of_work hq.work hq.2 (by decide)).trans (Chip.spares_put _ .VEC_CNT_CENSUS_COUNT u _ 0 (by decide))
    · exact c.spares_setUnit rfl rfl
    · exact (c.spares_put .VEC_CNT_CDROP_COUNT u _ 0 (by decide)).trans (Chip.spares_put _ .VEC_STICKY_CENS_DROP u 1 0 (by decide))

theorem Chip.spares.censPost {u : Nat} {c d : Chip} (h : Chip.spares u c d) (e : CensEntry) : Chip.spares u c (d.censPost u e) :=
  h.trans (d.spares_censPost u e)

theorem Chip.spares_censAdd (c : Chip) (u : Nat) (e : CensEntry) : Chip.spares u c (c.censAdd u e) := by
  unfold Chip.censAdd
  dsimp only
  split
  · exact c.spares_setUnit rfl rfl
  · split
    · split
      · refine Chip.spares.censPost (c.spares_setUnit ?_ ?_) _ <;> rfl
      · exact c.spares_setUnit rfl rfl
    · exact c.spares_setUnit rfl rfl

theorem Chip.spares_censPostKey (c : Chip) (u tensor step : Nat) : Chip.spares u c (c.censPostKey u tensor step) := by
  unfold Chip.censPostKey
  dsimp only
  split
  · refine Chip.spares.censPost (c.spares_setUnit ?_ ?_) _ <;> rfl
  · exact c.spares_refl u

/-! ### Poison and non-finite outputs -/

theorem Chip.spares_consumePoison {u : Nat} (c : Chip) (p blk tag : Nat) (pl : Place) (loc lk : Nat) :
    Chip.spares u c (c.consumePoison p blk tag pl loc lk) := by
  have h := c.consumePoison_only p blk tag pl loc lk
  exact Chip.spares_of_work (h.work.trans rfl) ((Chip.regsBut_of_regs rfl _).trans h.2) (by decide)

theorem Chip.spares_markNf {u : Nat} (c : Chip) (p tensor : Nat) (kindG nf : Bool) : Chip.spares u c (c.markNf p tensor kindG nf) := by
  unfold Chip.markNf
  split
  · exact ⟨rfl, rfl, rfl, rfl⟩
  · exact c.spares_refl u

/-! ### A chain's end (R162, R169–R172) -/

/-- From c to d a chain of unit u ended: it is counted, and the unit's queue, its input buffer and the combining points stay. -/
structure Chip.chainEnded (u : Nat) (c d : Chip) : Prop where
  queue : (d.unit u).queue = (c.unit u).queue
  vbuf : (d.unit u).vbuf = (c.unit u).vbuf
  combs : d.combs = c.combs
  count : d.g .VEC_CNT_CHAIN_COUNT u = (c.g .VEC_CNT_CHAIN_COUNT u + 1) % 2 ^ 64

/-- A chain counted on a chip that its work spared. -/
theorem Chip.spares.counted {u : Nat} {c d e : Chip} (h : Chip.spares u c d) (h' : Chip.spares u (d.inc .VEC_CNT_CHAIN_COUNT u) e) :
    Chip.chainEnded u c e := by
  refine ⟨h'.queue.trans h.queue, h'.vbuf.trans h.vbuf, h'.combs.trans h.combs, ?_⟩
  have hcount : e.g .VEC_CNT_CHAIN_COUNT u = (d.inc .VEC_CNT_CHAIN_COUNT u).g .VEC_CNT_CHAIN_COUNT u := by
    rw [Chip.g, Chip.g, h'.count]
  have hold : d.g .VEC_CNT_CHAIN_COUNT u = c.g .VEC_CNT_CHAIN_COUNT u := by rw [Chip.g, Chip.g, h.count]
  rw [hcount, Chip.g_inc_same _ _ _ _ _ ⟨by decide, by decide⟩, hold]
  rfl

theorem Chip.spares.put {u : Nat} {c d : Chip} (h : Chip.spares u c d) (f : Fld) (i v j : Nat) (hf : f.reg ≠ .VEC_CNT_CHAIN) :
    Chip.spares u c (d.put f i v j) := h.trans (d.spares_put f i v j hf)

theorem Chip.spares.wr {u : Nat} {c d : Chip} (h : Chip.spares u c d) (r : Reg) (i : Nat) (v : Word) (j : Nat) (hr : r ≠ .VEC_CNT_CHAIN) :
    Chip.spares u c (d.wr r i v j) :=
  h.trans (Chip.spares_of_work rfl (d.regsBut_wr r i v j) (by simpa using hr.symm))

/-- A chain that runs leaves its marks after its work. -/
theorem Chip.spares.chainMarks {u : Nat} {c d : Chip} (h : Chip.spares u c d) (flags stage elems : Nat) (nf ovf emp : Option (Nat × Nat)) :
    Chip.chainEnded u c (d.chainMarks u flags stage elems nf ovf emp) := by
  refine h.counted ?_
  have h0 := (d.inc .VEC_CNT_CHAIN_COUNT u).spares_refl u
  exact Chip.spares.put (Chip.spares.wr (Chip.spares.wr (Chip.spares.wr (Chip.spares.put (Chip.spares.wr h0 .VEC_FLAG u _ 0 (by decide))
    .VEC_STICKY_FLAGS u _ 0 (by decide)) .VEC_FPOS_NF u _ 0 (by decide)) .VEC_FPOS_OVF u _ 0 (by decide)) .VEC_FPOS_EMPTY u _ 0 (by decide))
    .VEC_CNT_ELEM_COUNT u _ 0 (by decide)

/-- A chain that fails its checks writes no byte and marks BAD_DESC (R143, R169). -/
theorem Chip.chainFailed_spec (c : Chip) (u : Nat) : Chip.chainEnded u c (c.chainFailed u) ∧ (c.chainFailed u).mem = c.mem ∧
    (c.chainFailed u).g .VEC_STICKY_BAD_DESC u = 1 := by
  refine ⟨?_, rfl, ?_⟩
  · have h0 := (c.inc .VEC_CNT_CHAIN_COUNT u).spares_refl u
    have h1 := (h0.put .VEC_STICKY_BAD_DESC u 1 0 (by decide)).wr .VEC_FLAG u
      (Sys2Proof.Word.ofNat (((c.inc .VEC_CNT_CHAIN_COUNT u).set1 .VEC_STICKY_BAD_DESC u).g .VEC_CNT_CHAIN_COUNT u % 2 ^ 48 * 2 ^ 16))
      0 (by decide)
    exact (c.spares_refl u).counted
      (((h1.wr .VEC_FPOS_NF u 0 0 (by decide)).wr .VEC_FPOS_OVF u 0 0 (by decide)).wr .VEC_FPOS_EMPTY u 0 0 (by decide))
  · unfold Chip.chainFailed
    dsimp only
    rw [Chip.g_wr_reg _ _ _ _ _ _ _ _ (by decide), Chip.g_wr_reg _ _ _ _ _ _ _ _ (by decide), Chip.g_wr_reg _ _ _ _ _ _ _ _ (by decide),
      Chip.g_wr_reg _ _ _ _ _ _ _ _ (by decide)]
    exact Chip.g_set1_same _ _ _ _ ⟨by decide, by decide⟩

/-- The outcome of a chain entered for its command, once. -/
def Chip.chainDone (c : Chip) (k : ChainJob) (m : Part) : Chip := if k.redo then c else c.partDone k.cl k.id m

theorem Chip.chainDone_rest (c : Chip) (k : ChainJob) (m : Part) :
    (c.chainDone k m).units = c.units ∧ (c.chainDone k m).combs = c.combs ∧ (c.chainDone k m).mem = c.mem ∧
      (c.chainDone k m).regs = c.regs := by
  unfold Chip.chainDone
  split <;> exact ⟨rfl, rfl, rfl, rfl⟩

theorem Chip.chainEnded.done {u : Nat} {c d : Chip} (h : Chip.chainEnded u c d) (k : ChainJob) (m : Part) :
    Chip.chainEnded u c (d.chainDone k m) := by
  obtain ⟨hu, hc, -, hr⟩ := d.chainDone_rest k m
  have hunit : (d.chainDone k m).unit u = d.unit u := by unfold Chip.unit; rw [hu]
  exact ⟨by rw [hunit, h.queue], by rw [hunit, h.vbuf], by rw [hc, h.combs], by rw [← h.count, Chip.g, Chip.rd, hr]; rfl⟩

theorem Chip.runChain_failed {c : Chip} {u : Nat} {k : ChainJob} (h : c.chainStatus u k ≠ 0) (tile : Option TileOut) :
    c.runChain u k tile = (c.chainFailed u).chainDone k { order := k.order, status := c.chainStatus u k } := by
  unfold Chip.runChain
  dsimp only
  rw [if_pos h]
  rfl

theorem Chip.runChain_runs {c : Chip} {u : Nat} {k : ChainJob} (h : c.chainStatus u k = 0) (tile : Option TileOut) :
    Chip.chainEnded u c (c.runChain u k tile) := by
  unfold Chip.runChain
  rw [if_neg (by simp [h])]
  extract_lets lanes inc srcBad src2Bad memBad tf poison e x reds rs nf emp laneOvf ovf flags elems
    c1 c2 step c3 c4 ax gone src c5 c6 c7 c8 all
  have h2 : Chip.spares u c c2 :=
    ((c.spares_engRuns _ _ _ _ _ _).trans (Chip.spares_meter _ _ _ _)).trans (foldl_spares _ (fun d r => d.spares_engRuns _ _ _ _ _ _) rs _)
  have h3 : Chip.spares u c c3 := by
    dsimp only [c3]
    split
    · exact h2.trans (c2.spares_censAdd u _)
    · exact h2
  have h4 : Chip.spares u c c4 := by
    dsimp only [c4]
    split
    · split
      · exact h3.trans (c3.spares_censPostKey u _ _)
      · exact h3
    · exact h3
  have h5 : Chip.spares u c c5 := h4.trans (c4.spares_setUnit rfl rfl)
  have h6 : Chip.spares u c c6 := by
    dsimp only [c6]
    split
    · exact h5.trans (c5.spares_consumePoison _ _ _ _ _ _)
    · exact h5
  have h7 : Chip.spares u c c7 := h6.trans (c6.spares_markNf _ _ _ _)
  exact (h7.chainMarks _ _ _ _ _ _).done k _

end Sys2Proof.Machine
end

section
/-! The first partial of an output at a region's combining point, and census records that were held (R82, R113, R164, R165). -/

namespace Sys2Proof.Machine

/-! ### A combining point with no output open (R82, R113) -/

/-- What the first partial of an output leaves at its combining point: slice 0 taken in and naming the owner, a later slice held. -/
def Partial.opened (q : Partial) : Comb :=
  if q.slice = 0 then { pid := q.pid, i := q.i, j := q.j, ns := q.ns, next := 1, total := q.data, held := []
                        failed := if q.data.isNone then some 0 else none, owner := some q.job }
  else { pid := q.pid, i := q.i, j := q.j, ns := q.ns, next := 0, held := [(q.slice, q.data)] }

theorem Chip.combDrain_of_none_held (c : Chip) (t : TileJob) (n : Nat) {k : Comb} (h : k.held = []) : c.combDrain t n k = k := by
  cases n with
  | zero => rfl
  | succ n => simp [Chip.combDrain, h]

/-- Slice 0 is the one that a new output waits for. -/
theorem Chip.combAdd_first (c : Chip) {q : Partial} (h : q.slice = 0) :
    c.combDrain q.job 256 (c.combAdd { pid := q.pid, i := q.i, j := q.j, ns := q.ns, owner := some q.job } q.job 0 q.data) = q.opened := by
  have hadd : c.combAdd { pid := q.pid, i := q.i, j := q.j, ns := q.ns, owner := some q.job } q.job 0 q.data = q.opened := by
    unfold Chip.combAdd Partial.opened
    rw [if_pos h]
    cases q.data <;> rfl
  rw [hadd, Chip.combDrain_of_none_held]
  unfold Partial.opened
  rw [if_pos h]

theorem Partial.opened_later {q : Partial} (h : q.slice ≠ 0) : q.opened =
    { pid := q.pid, i := q.i, j := q.j, ns := q.ns, held := [] ++ [(q.slice, q.data)] } := if_neg h

theorem Partial.opened_open {q : Partial} (h : 2 ≤ q.ns) : ¬ q.opened.ns ≤ q.opened.next := by
  unfold Partial.opened
  split <;> dsimp only <;> omega

theorem Chip.count_seqs (c : Chip) (t : TileJob) (b : Nat) (m : Part) (n : Nat) :
    c.count t b m n = { c with seqs := (c.count t b m n).seqs } := by
  unfold Chip.count
  split <;> rfl

/-- A partial that opens an output of two or more slices is never the last: the output stays open. -/
theorem Chip.arrive_opens {c : Chip} {q : Partial} (hp : q.point < 16) (hc : sget [] c.combs q.point = []) (hns : 2 ≤ q.ns) :
    c.arrive q = some { c.count q.job 1 { order := q.job.order } with combs := sset [] c.combs q.point [q.opened] } := by
  have hlim : combLimits q.point = (8, 32) := if_neg (by omega)
  have hunit : decide (16 ≤ q.point) = false := decide_eq_false (by omega)
  have hcount : (c.count q.job 1 { order := q.job.order }).combs = c.combs := by rw [Chip.count_seqs]
  unfold Chip.arrive
  by_cases hs : q.slice = 0
  · simp [hc, hlim, hunit, hs, c.combAdd_first hs, hcount, Partial.opened_open hns]
  · have hlater := Partial.opened_later hs
    have hpos : q.ns ≠ 0 := by omega
    simp [hc, hlim, hunit, hs, hlater, hcount, hpos]

/-- The chip after partial n, the first of its output, has left its way for the combining point. -/
def Chip.opens (c : Chip) (n : Nat) (q : Partial) : Chip :=
  { c with partials := c.partials.eraseIdx n, combs := sset [] c.combs q.point [q.opened]
           seqs := (({ c with partials := c.partials.eraseIdx n } : Chip).count q.job 1 { order := q.job.order }).seqs }

theorem Chip.combs_opens (c : Chip) (n : Nat) (q : Partial) : sget [] (c.opens n q).combs q.point = [q.opened] := by
  unfold Chip.opens
  exact sget_sset_same [] c.combs q.point [q.opened]

theorem exec_partialArrival_opens {s : State} {n : Nat} {q : Partial} (hq : s.chip.partials[n]? = some q) (hp : q.point < 16)
    (hc : sget [] s.chip.combs q.point = []) (hns : 2 ≤ q.ns) :
    exec (.partialArrival n) s = .next (s.onChip (fun c => c.opens n q)) := by
  refine nextChip_eq ?_
  rw [hq]
  dsimp only
  rw [Chip.arrive_opens (c := { s.chip with partials := s.chip.partials.eraseIdx n }) hp hc hns, Option.getD_some, Chip.count_seqs]
  rfl

/-- A first partial changes the partials in flight, its combining point and the command that counts it. -/
theorem State.effect_opens (s : State) (n : Nat) (q : Partial) : let t := s.onChip (fun c => c.opens n q)
    s.effect t { s.chip with partials := s.chip.partials.eraseIdx n, combs := t.chip.combs, seqs := t.chip.seqs } [] :=
  ⟨⟨rfl, rfl⟩, rfl, Chip.fieldsBut_of_regs rfl []⟩

theorem exec_partialArrival_ignored {s : State} {n : Nat} (h : s.chip.partials.length ≤ n) : exec (.partialArrival n) s = .next s := by
  refine nextChip_same ?_
  rw [List.getElem?_eq_none h]

/-! ### Held census records (R164, R165) -/

theorem Chip.units_of_noRegs {c d : Chip} (h : d.noRegs = c.noRegs) : d.units = c.units := (congrArg Chip.units h :)

/-- Records posted while the census is off are dropped and counted. -/
theorem Chip.dropRecords_spec {u : Nat} (hu : u < 1024) (l : List CensEntry) : ∀ c : Chip, c.g .VEC_CTL_CENS_EN u = 0 →
    (l.foldl (fun c e => c.censPost u e) c).noRegs = c.noRegs ∧
    c.fieldsBut (l.foldl (fun c e => c.censPost u e) c) [(.VEC_CNT_CDROP_COUNT, u, 0)] ∧
    (l.foldl (fun c e => c.censPost u e) c).g .VEC_CNT_CDROP_COUNT u = (c.g .VEC_CNT_CDROP_COUNT u + l.length) % 2 ^ 64 := by
  induction l with
  | nil =>
    intro c _
    rw [List.foldl_nil]
    exact ⟨rfl, c.fieldsBut_refl _, (Nat.mod_eq_of_lt (c.g_lt .VEC_CNT_CDROP_COUNT u 0)).symm⟩
  | cons e l ih =>
    intro c hen
    have hpost : c.censPost u e = c.inc .VEC_CNT_CDROP_COUNT u := if_pos (by rw [c.on_eq_false hen]; decide)
    have hen' : (c.inc .VEC_CNT_CDROP_COUNT u).g .VEC_CTL_CENS_EN u = 0 :=
      (c.g_put_reg .VEC_CNT_CDROP_COUNT .VEC_CTL_CENS_EN u (c.g .VEC_CNT_CDROP_COUNT u + 1) 0 u 0 (by decide)).trans hen
    obtain ⟨hrest, hfields, hcount⟩ := ih _ hen'
    rw [List.foldl_cons, hpost]
    refine ⟨hrest.trans (c.noRegs_inc _ _ _ _), ?_, ?_⟩
    · have h0 : c.fieldsBut (c.inc .VEC_CNT_CDROP_COUNT u) [(.VEC_CNT_CDROP_COUNT, u, 0)] :=
        (c.fieldsBut_refl _).put .VEC_CNT_CDROP_COUNT u _ 0 ⟨by decide, by decide⟩ (by omega) (by decide) (List.mem_singleton_self _)
      exact Chip.fieldsBut_mono (Chip.fieldsBut_trans h0 hfields) (fun p hp => by simpa using hp)
    · rw [hcount, Chip.g_inc_same _ _ _ _ _ ⟨by decide, by decide⟩, List.length_cons]
      show (_ % 2 ^ 64 + _) % 2 ^ 64 = _
      omega

/-- The records held at a unit taken out of it, before they are posted. -/
def Chip.takeHeld (c : Chip) (u : Nat) : Chip := c.setUnit u { c.unit u with cheld := [] }

theorem exec_censusHeldPost (s : State) (u : Nat) : exec (.censusHeldPost u) s = .next (s.onChip (fun c =>
    (c.unit u).cheld.foldl (fun c e => c.censPost u e) (c.takeHeld u))) := by
  refine nextChip_eq ?_
  dsimp only [Chip.takeHeld]

theorem Chip.put_setUnit (c : Chip) (u : Nat) (x : UnitS) (f : Fld) (i v j : Nat) :
    (c.setUnit u x).put f i v j = (c.put f i v j).setUnit u x := rfl

theorem Chip.set1_setUnit (c : Chip) (u : Nat) (x : UnitS) (f : Fld) (i j : Nat) :
    (c.setUnit u x).set1 f i j = (c.set1 f i j).setUnit u x := rfl

theorem Chip.inc_setUnit (c : Chip) (u : Nat) (x : UnitS) (f : Fld) (i n j : Nat) :
    (c.setUnit u x).inc f i n j = (c.inc f i n j).setUnit u x := rfl

theorem Chip.markPoisonIn_setUnit (c : Chip) (u : Nat) (x : UnitS) (r q : Nat) (p : Bool) :
    (c.setUnit u x).markPoisonIn r q p = (c.markPoisonIn r q p).setUnit u x := by
  unfold Chip.markPoisonIn
  rw [Chip.set1_setUnit, Chip.set1_setUnit]
  exact (apply_ite (Chip.setUnit · u x) _ _ _).symm

theorem Chip.link_setUnit (c : Chip) (u : Nat) (x : UnitS) (r q : Nat) (k : Packet) :
    (c.setUnit u x).link r q k = (c.link r q k).setUnit u x := rfl

/-- A queue takes a packet whatever the units hold. -/
theorem Chip.post_setUnit {c d : Chip} {r q : Nat} {ws : List (Word × Bool)} (h : c.post r q ws = .linked d) (u : Nat) (x : UnitS) :
    (c.setUnit u x).post r q ws = .linked (d.setUnit u x) := by
  obtain ⟨rfl, -, -⟩ := Chip.post_eq h
  unfold Chip.post at h
  dsimp only at h
  split at h
  · cases h
  · next hopen =>
    split at h
    · cases h
    · next hroom =>
      refine (if_neg hopen).trans ((if_neg hroom).trans ?_)
      rw [Chip.markPoisonIn_setUnit, Chip.link_setUnit]

/-- A record that its queue takes is posted and counted. -/
theorem Chip.censPost_takeHeld {c d : Chip} {u : Nat} {e : CensEntry} (hen : c.g .VEC_CTL_CENS_EN u = 1)
    (h : c.post (regionOfU u) (c.g .VEC_CTL_CENS_QUEUE u) ((censusWords e).map (·, false)) = .linked d) :
    (c.takeHeld u).censPost u e = (d.setUnit u { c.unit u with cheld := [] }).inc .VEC_CNT_CENSUS_COUNT u := by
  have hon : (c.takeHeld u).on .VEC_CTL_CENS_EN u = true := (c.on_iff (f := .VEC_CTL_CENS_EN) rfl u 0).mpr hen
  have hpost : (c.takeHeld u).post (regionOfU u) ((c.takeHeld u).g .VEC_CTL_CENS_QUEUE u) ((censusWords e).map (·, false)) =
    .linked (d.setUnit u { c.unit u with cheld := [] }) := Chip.post_setUnit h u _
  unfold Chip.censPost
  rw [if_neg (by rw [hon]; decide), hpost]

end Sys2Proof.Machine
end

section
/-! CHAIN_COMPLETE of a unit (R113, R162, R165). -/

namespace Sys2Proof.Machine

theorem exec_chainComplete_ignored {s : State} {u : Nat} (h : s.chip.chainNow u = none) : exec (.chainComplete u) s = .next s := by
  refine nextChip_same ?_
  rw [h]

theorem exec_chainComplete_stalls {s : State} {u : Nat} {k : ChainJob} {o : Option TileOut} {x : UnitS}
    (h : s.chip.chainNow u = some (k, o, x)) (hk : k.counts = true) (hh : (s.chip.unit u).cheld ≠ []) :
    exec (.chainComplete u) s = .next (s.onChip (fun c => c.set1 .VEC_STICKY_CENS_STALL u)) := by
  refine nextChip_eq ?_
  rw [h]
  exact if_pos (by simp [hk, hh])

theorem exec_chainComplete_runs {s : State} {u : Nat} {k : ChainJob} {o : Option TileOut} {x : UnitS}
    (h : s.chip.chainNow u = some (k, o, x)) (hk : k.counts = false ∨ (s.chip.unit u).cheld = []) :
    exec (.chainComplete u) s = .next (s.onChip (fun c => ((c.setUnit u x).runChain u k o).combWake u)) := by
  refine nextChip_eq ?_
  rw [h]
  refine if_neg ?_
  rcases hk with hk | hk <;> simp [hk]

/-- Without an open output at a unit's combining point nothing waits for its input buffer. -/
theorem Chip.combWake_of_none {c : Chip} {u : Nat} (h : sget [] c.combs (16 + u) = []) : c.combWake u = c := by
  unfold Chip.combWake
  rw [h]

/-- A chain that fails its checks is counted, marks BAD_DESC and writes no byte (R143, R162, R169). -/
theorem Chip.runChain_failed_spec {c : Chip} {u : Nat} {k : ChainJob} (h : c.chainStatus u k ≠ 0) (tile : Option TileOut) :
    Chip.chainEnded u c (c.runChain u k tile) ∧ (c.runChain u k tile).mem = c.mem ∧
      (c.runChain u k tile).g .VEC_STICKY_BAD_DESC u = 1 := by
  obtain ⟨hend, hmem, hbad⟩ := c.chainFailed_spec u
  obtain ⟨-, -, hm, hr⟩ := (c.chainFailed u).chainDone_rest k { order := k.order, status := c.chainStatus u k }
  rw [Chip.runChain_failed h]
  exact ⟨hend.done k _, hm.trans hmem, by rw [← hbad, Chip.g, Chip.g, Chip.rd, Chip.rd, hr]⟩

theorem Chip.runChain_ended (c : Chip) (u : Nat) (k : ChainJob) (tile : Option TileOut) : Chip.chainEnded u c (c.runChain u k tile) := by
  by_cases h : c.chainStatus u k = 0
  · exact Chip.runChain_runs h tile
  · exact (Chip.runChain_failed_spec h tile).1

end Sys2Proof.Machine
end

open Sys2Proof.Machine in
/-- Settles O27: a first partial finds no output of its own and the output it opens stays open; what a chain's run writes (its
bytes, its census, its marks, its count) spares the unit's queue, its input buffer and the combining points, so the unit is left as
the chain's choice left it; held records are posted one by one. -/
theorem partialsChainsCensus : Obligations.PartialsChainsCensus := by
  unfold Obligations.PartialsChainsCensus
  refine ⟨fun s n q hq hp hc hns => ?_, fun s n h => exec_partialArrival_ignored h, fun s u hu => ⟨exec_chainComplete_ignored,
    fun k o x hnow => ⟨fun hk hh => ?_, fun hk hcomb => ?_⟩, fun hen => ?_, fun e d hen hheld hpost => ?_⟩⟩
  · dsimp only
    have hopen : sget [] (s.onChip (fun c => c.opens n q)).chip.combs q.point = [q.opened] := s.chip.combs_opens n q
    refine ⟨fun hs => ⟨_, exec_partialArrival_opens hq hp hc hns, s.effect_opens n q, hopen.trans ?_⟩,
      fun hs => ⟨_, exec_partialArrival_opens hq hp hc hns, s.effect_opens n q, hopen.trans ?_⟩⟩
    · exact congrArg ([·]) (if_pos hs)
    · exact congrArg ([·]) (if_neg hs)
  · refine ⟨_, exec_chainComplete_stalls hnow hk hh, ⟨State.chipOnly_onChip _ _, Chip.noRegs_set1 _ _ _ _, ?_⟩,
      Chip.g_set1_same _ _ _ _ ⟨by decide, by decide⟩⟩
    exact s.chip.fieldsBut_put .VEC_STICKY_CENS_STALL u 1 0 ⟨by decide, by decide⟩ (by omega) (by decide)
  · have hend := (s.chip.setUnit u x).runChain_ended u k o
    refine ⟨_, exec_chainComplete_runs hnow hk, State.chipOnly_onChip _ _, ?_⟩
    have hwake : ((s.chip.setUnit u x).runChain u k o).combWake u = (s.chip.setUnit u x).runChain u k o :=
      Chip.combWake_of_none (by rw [hend.combs]; exact hcomb)
    rw [State.onChip_chip, hwake]
    refine ⟨by rw [hend.queue, Chip.unit_setUnit_same], by rw [hend.vbuf, Chip.unit_setUnit_same], hend.count, fun hst => ?_⟩
    obtain ⟨-, hmem, hbad⟩ := Chip.runChain_failed_spec hst o
    exact ⟨hbad, hmem⟩
  · obtain ⟨hrest, hfields, hcount⟩ := Chip.dropRecords_spec hu (s.chip.unit u).cheld (s.chip.takeHeld u) hen
    have hunits := Chip.units_of_noRegs hrest
    refine ⟨_, exec_censusHeldPost s u, ⟨State.chipOnly_onChip _ _, ?_, hfields⟩, ?_, hcount⟩
    · rw [State.onChip_chip, hrest]
      exact congrArg (fun l => ({ s.chip with units := l } : Chip).noRegs) hunits.symm
    · exact (congrArg (sget ({} : UnitS) · u) hunits).trans (s.chip.unit_setUnit_same u _)
  · refine ⟨_, exec_censusHeldPost s u, State.chipOnly_onChip _ _, ?_⟩
    rw [State.onChip_chip, hheld, List.foldl_cons, List.foldl_nil, Chip.censPost_takeHeld hen hpost]
    refine ⟨congrArg UnitS.cheld (d.unit_setUnit_same u _), rfl, ?_⟩
    rw [Chip.g_inc_same _ _ _ _ _ ⟨by decide, by decide⟩]
    have hold : d.g .VEC_CNT_CENSUS_COUNT u = s.chip.g .VEC_CNT_CENSUS_COUNT u := (Chip.post_linked hpost).1.2.g _ _ _ (by decide)
    exact congrArg (fun n => (n + 1) % 2 ^ 64) hold

section
/-! A unit that is withdrawn while it runs an arbitration tile can keep a chain (R120, R131, R230): a state in which HEALTH_SET leaves
work queued on the unit it withdraws. -/

namespace Sys2Proof.Machine

/-- The body of a chain with one RED stage that leaves its destination open; with acc the stage goes on with an open state. -/
def redBody (acc : Bool) : List Word :=
  Sys2Proof.Word.ofNat (2 ^ 48) :: List.replicate 11 0 ++ [Sys2Proof.Word.ofNat (0x60 + b2n acc * 2 ^ 29)]

/-- A tile of cluster 1 that feeds such a chain, as unit 0 runs it for arbitration. -/
def arbitratedTile : TileJob :=
  { cl := 1, u := 8, id := 0, order := 0, i := 0, j := 0, ks := 0, mm := [], fused := some (redBody false), redo := 0 }

/-- A chain of cluster 0 that goes on with an open state. -/
def accChain : ChainJob := { cl := 0, id := 0, order := 0, body := redBody true, tile := none, redo := false }

/-- Unit 0 with that chain queued while it runs the arbitration tile. -/
def arbitratingUnit : UnitS := { queue := [.chain accChain], run := some { kind := .arb, job := arbitratedTile, wbits := 0 } }

/-- The module after reset, with that unit. -/
def arbitratingState : State := { State.reset with chip := { State.reset.chip with units := [(0, arbitratingUnit)] } }

/-- The queue of unit 0 once Ringmaster has set its QUAR: the fused body of the arbitration tile counts as open state that the unit will
hold, so the chain is given back to the unit withdrawn. -/
theorem queue_healthSet_arbitrating : ∀ t, exec (.healthSet 0 1) arbitratingState = .next t → (t.chip.unit 0).queue = [.chain accChain] := by
  have hq : ((arbitratingState.chip.setHealth 0 .MXE_HEALTH_QUAR 3).unit 0).queue = [.chain accChain] := by decide +kernel
  intro t ht
  have hchip : t.chip = arbitratingState.chip.setHealth 0 .MXE_HEALTH_QUAR 3 := by
    injection ht with ht
    rw [← ht]
    rfl
  rw [hchip, hq]

end Sys2Proof.Machine
end

open Sys2Proof.Machine in
/-- Refutes O26: unit 0 runs an arbitration tile whose body leaves a reduction open, and a chain that goes on with an open state is
queued on it. Setting QUAR withdraws the unit and places the chain on the unit that holds the open state, which is the withdrawn one. -/
theorem not_disagreementsArbitrated : ¬ Obligations.DisagreementsArbitrated := by
  unfold Obligations.DisagreementsArbitrated
  rintro ⟨-, h⟩
  obtain ⟨-, -, -, hset⟩ := h arbitratingState 0 none (by decide)
  obtain ⟨t, ht, -, -, -, hqueue, -⟩ := (hset (.MXE_HEALTH_QUAR, 1, 3) (by simp)).1 (by decide +kernel)
  rw [queue_healthSet_arbitrating t ht] at hqueue
  cases hqueue

section
/-! Starting the work of a unit: its own tiles, the Solver's tile in bank S, and the MERGE commands that wait beside them (R115, R119,
R122, R123, R224, R344). -/

namespace Sys2Proof.Machine

/-! ### MERGE commands that do not wait -/

/-- A property of the default and of every listed value holds of what a read gives. -/
theorem sget_induct {α : Type} {P : α → Prop} {d : α} (hd : P d) {m : List (Nat × α)} (h : ∀ x ∈ m, P x.2) (k : Nat) :
    P (sget d m k) := by
  induction m with
  | nil => exact hd
  | cons x m ih =>
    obtain ⟨k', a⟩ := x
    rw [sget_cons]
    split
    · exact h (k', a) (by simp)
    · exact ih (fun x hx => h x (by simp [hx]))

theorem foldl_fixed_mem {σ β : Type} {f : σ → β → σ} {c : σ} {l : List β} (h : ∀ x ∈ l, f c x = c) : l.foldl f c = c := by
  induction l with
  | nil => rfl
  | cons x l ih => rw [List.foldl_cons, h x (by simp), ih (fun y hy => h y (by simp [hy]))]

/-- Without a waiting MERGE nothing is carried out (R344). -/
theorem Chip.mergeWake_idle {c : Chip} (h : ∀ x ∈ c.press, (c.pressOf x.1).mwait = []) : c.mergeWake = c :=
  foldl_fixed_mem fun x hx => by rw [Chip.mergeWakeOf, h x hx]; rfl

theorem Chip.pressOf_mwait {c : Chip} (h : ∀ x ∈ c.press, x.2.mwait = []) (cl : Nat) : (c.pressOf cl).mwait = [] :=
  sget_induct (P := fun p : PressS => p.mwait = []) rfl h cl

/-! ### Replacing a unit -/

theorem Chip.unit_setUnit_other (c : Chip) {u v : Nat} (x : UnitS) (h : v ≠ u) : (c.setUnit u x).unit v = c.unit v := by
  unfold Chip.unit Chip.setUnit; exact sget_sset_other _ _ _ _ h

/-- From s to its chip after f nothing changed but the units and the listed fields. -/
theorem State.effect_units {s : State} {f : Chip → Chip} {l : List Spot}
    (hrest : (f s.chip).noRegs = ({ s.chip with units := (f s.chip).units } : Chip).noRegs) (hf : s.chip.fieldsBut (f s.chip) l) :
    s.effect (s.onChip f) { s.chip with units := (f s.chip).units } l := ⟨s.chipOnly_onChip f, hrest, hf⟩

/-- What a unit replaced leaves of the rest of the chip. -/
theorem Chip.noRegs_setUnit {c d : Chip} (h : d.noRegs = c.noRegs) (u : Nat) (x : UnitS) :
    (d.setUnit u x).noRegs = ({ c with units := (d.setUnit u x).units } : Chip).noRegs :=
  congrArg (fun e : Chip => { e with units := (d.setUnit u x).units }) h

/-! ### The unit's own work (R119, R123, R224) -/

theorem Chip.startTile_outOfService {c : Chip} {u : Nat} (h : c.inService u = false) : c.startTile u = none := by
  simp [Chip.startTile, h]

theorem Chip.startTile_ahead {c : Chip} {u : Nat} {a : Running} {as : List Running} (h : c.inService u = true)
    (ha : (c.unit u).ahead = a :: as) : c.startTile u = some (c.setUnit u { c.unit u with run := some a, ahead := as }) := by
  simp [Chip.startTile, h, ha]

theorem Chip.startTile_queue {c : Chip} {u : Nat} {j : TileJob} {js : List Job} (h : c.inService u = true)
    (ha : (c.unit u).ahead = []) (hq : (c.unit u).queue = .tile j :: js) :
    c.startTile u = some ((c.setUnit u { c.unit u with queue := js }).beginTile u j) := by
  simp [Chip.startTile, h, ha, hq]

theorem Chip.startTile_empty {c : Chip} {u : Nat} (ha : (c.unit u).ahead = []) (hq : (c.unit u).queue = []) : c.startTile u = none := by
  simp [Chip.startTile, ha, hq]

/-- Drawing the weight bits of a test writes `MXE_CKSEED` of the unit at most (R116). -/
theorem Chip.weightBits_spec (c : Chip) {u : Nat} (hu : u < 1024) : (c.weightBits u).2.noRegs = c.noRegs ∧
    c.fieldsBut (c.weightBits u).2 [(⟨.MXE_CKSEED, 63, 0⟩, u, 0)] := by
  unfold Chip.weightBits
  split
  · exact ⟨rfl, c.fieldsBut_refl _⟩
  · exact ⟨rfl, c.fieldsBut_refl _⟩
  · exact ⟨rfl, c.fieldsBut_wr .MXE_CKSEED u _ 0 (by omega) (by decide)⟩

/-- The weight bits of a training tile, with the generator advanced where it runs a test. -/
def Chip.tileBits (c : Chip) (u : Nat) (t : TileJob) : Nat × Chip := if c.willTest t then c.weightBits u else (0, c)

theorem Chip.beginTile_eq (c : Chip) (u : Nat) (t : TileJob) : c.beginTile u t = (c.tileBits u t).2.setUnit u
    { (c.tileBits u t).2.unit u with run := some { kind := .train, job := t, wbits := (c.tileBits u t).1 } } := rfl

theorem Chip.tileBits_spec (c : Chip) {u : Nat} (hu : u < 1024) (t : TileJob) : (c.tileBits u t).2.noRegs = c.noRegs ∧
    c.fieldsBut (c.tileBits u t).2 [(⟨.MXE_CKSEED, 63, 0⟩, u, 0)] := by
  unfold Chip.tileBits
  split
  · exact c.weightBits_spec hu
  · exact ⟨rfl, c.fieldsBut_refl _⟩

/-- A training tile begun: it runs on its unit, and the generator of the unit may have moved on. -/
theorem Chip.beginTile_spec (c : Chip) {u : Nat} (hu : u < 1024) (t : TileJob) :
    (∃ wb, (c.beginTile u t).unit u = { c.unit u with run := some { kind := .train, job := t, wbits := wb } }) ∧
    (c.beginTile u t).noRegs = ({ c with units := (c.beginTile u t).units } : Chip).noRegs ∧
    c.fieldsBut (c.beginTile u t) [(⟨.MXE_CKSEED, 63, 0⟩, u, 0)] := by
  obtain ⟨hrest, hf⟩ := c.tileBits_spec hu t
  have hunit : (c.tileBits u t).2.unit u = c.unit u := congrArg (sget ({} : UnitS) · u) (Chip.units_of_noRegs hrest)
  rw [Chip.beginTile_eq]
  refine ⟨⟨(c.tileBits u t).1, by rw [Chip.unit_setUnit_same, hunit]⟩, ?_, hf.regs rfl⟩
  exact Chip.noRegs_setUnit hrest u _

/-! ### The Solver's tile (R122, R123) -/

theorem Chip.startSolver_unlent {c : Chip} {u : Nat} (h : c.mayLend u = false) : c.startSolver u = c := by
  simp [Chip.startSolver, h]

theorem Chip.startSolver_resumes {c : Chip} {u : Nat} {t : STile} (h : c.mayLend u = true) (hb : (c.unit u).bankS = some t)
    (hr : c.solveRuns (regionOfU u) t = true) :
    c.startSolver u = c.setUnit u { c.unit u with run := some (solverRun u t), bankS := none } := by
  simp [Chip.startSolver, h, hb, hr]

theorem Chip.mayLend_outOfService {c : Chip} {u : Nat} (h : c.inService u = false) : c.mayLend u = false := by
  simp [Chip.mayLend, h]

/-! ### TILE_START -/

theorem exec_tileStart_busy {s : State} {u : Nat} (h : (s.chip.unit u).run ≠ none) : exec (.tileStart u) s = .next s :=
  nextChip_same (if_pos (Option.isSome_iff_ne_none.mpr h))

theorem exec_tileStart_tile {s : State} {u : Nat} {f : Chip → Chip} (h : (s.chip.unit u).run = none)
    (hf : s.chip.startTile u = some (f s.chip)) : exec (.tileStart u) s = .next (s.onChip f) :=
  nextChip_eq (by rw [h, hf]; rfl)

theorem exec_tileStart_solver {s : State} {u : Nat} (h : (s.chip.unit u).run = none) (hf : s.chip.startTile u = none) :
    exec (.tileStart u) s = .next (s.onChip (fun c => (c.startSolver u).mergeWake)) :=
  nextChip_eq (by rw [h, hf]; rfl)

/-! ### SOLVER_PASS_END (R122–R124, R346) -/

/-- A unit with the pass that has ended counted and its tile out of the array. -/
def Chip.passEnded (c : Chip) (u : Nat) : Chip := (c.inc .MXE_CNT_SOLV_COUNT u).setUnit u { c.unit u with run := none }

theorem Chip.unit_passEnded (c : Chip) (u : Nat) : (c.passEnded u).unit u = { c.unit u with run := none } := Chip.unit_setUnit_same _ _ _

theorem Chip.g_passEnded (c : Chip) (u : Nat) : (c.passEnded u).g .MXE_CNT_SOLV_COUNT u = (c.g .MXE_CNT_SOLV_COUNT u + 1) % 2 ^ 64 :=
  Chip.g_inc_same _ _ _ _ _ ⟨by decide, by decide⟩

theorem Chip.passEnded_fields (c : Chip) {u : Nat} (hu : u < 1024) : c.fieldsBut (c.passEnded u) [(.MXE_CNT_SOLV_COUNT, u, 0)] :=
  Chip.fieldsBut.regs (c.fieldsBut_put .MXE_CNT_SOLV_COUNT u _ 0 ⟨by decide, by decide⟩ (by omega) (by decide)) rfl

theorem Chip.regsBut_passEnded (c : Chip) (u : Nat) : c.regsBut (c.passEnded u) [.MXE_CNT_SOLV] :=
  (c.regsBut_put .MXE_CNT_SOLV_COUNT u _ 0).regs rfl

theorem Chip.regsBut.inService {c d : Chip} {l : List Reg} (h : c.regsBut d l) (hl : Reg.MXE_HEALTH ∉ l) (u : Nat) :
    d.inService u = c.inService u := by
  unfold Chip.inService Chip.on
  rw [h.g _ _ _ hl, h.g _ _ _ hl]

/-- The unit whose tile runs on with another pass, or waits in bank S where it no longer lends (R123). -/
def Chip.passGoesOn (c : Chip) (u : Nat) (t : STile) : Chip :=
  if (c.passEnded u).on .MXE_CTL_LEND u then (c.passEnded u).setUnit u { (c.passEnded u).unit u with run := some (solverRun u t) }
  else (c.passEnded u).setUnit u { (c.passEnded u).unit u with bankS := some t }

theorem Chip.passGoesOn_spec (c : Chip) {u : Nat} (hu : u < 1024) (t : STile) :
    (c.passGoesOn u t).noRegs = ({ c with units := (c.passGoesOn u t).units } : Chip).noRegs ∧
    c.fieldsBut (c.passGoesOn u t) [(.MXE_CNT_SOLV_COUNT, u, 0)] ∧
    (c.passGoesOn u t).g .MXE_CNT_SOLV_COUNT u = (c.g .MXE_CNT_SOLV_COUNT u + 1) % 2 ^ 64 ∧
    (c.passGoesOn u t).unit u = (if c.g .MXE_CTL_LEND u = 1 then { c.unit u with run := some (solverRun u t) }
      else { c.unit u with run := none, bankS := some t }) := by
  have hset : ∀ x, ((c.passEnded u).setUnit u x).noRegs = ({ c with units := ((c.passEnded u).setUnit u x).units } : Chip).noRegs := fun x => rfl
  have hlend : ((c.passEnded u).on .MXE_CTL_LEND u = true) = (c.g .MXE_CTL_LEND u = 1) := by
    rw [Chip.on_iff _ rfl, (c.regsBut_passEnded u).g _ _ _ (by decide)]
  unfold Chip.passGoesOn
  simp only [hlend]
  split
  · refine ⟨hset _, (c.passEnded_fields hu).regs rfl, c.g_passEnded u, ?_⟩
    rw [Chip.unit_setUnit_same, Chip.unit_passEnded]
  · refine ⟨hset _, (c.passEnded_fields hu).regs rfl, c.g_passEnded u, ?_⟩
    rw [Chip.unit_setUnit_same, Chip.unit_passEnded]

/-- The pass of a unit ended and the head of its queue begun (R123). -/
def Chip.gaveWay (c : Chip) (u : Nat) (j : TileJob) (js : List Job) : Chip :=
  ((c.passEnded u).setUnit u { (c.passEnded u).unit u with queue := js }).beginTile u j

/-- A preempted tile in bank S of its unit, and counted (R123). -/
def Chip.banked (c : Chip) (u : Nat) (t : STile) : Chip :=
  (c.setUnit u { c.unit u with bankS := some t }).inc .MXE_CNT_PREEMPT_COUNT u

theorem Chip.gaveWay_spec (c : Chip) {u : Nat} (hu : u < 1024) (j : TileJob) (js : List Job) :
    (c.gaveWay u j js).g .MXE_CNT_SOLV_COUNT u = (c.g .MXE_CNT_SOLV_COUNT u + 1) % 2 ^ 64 ∧
    (c.gaveWay u j js).g .MXE_CNT_PREEMPT_COUNT u = c.g .MXE_CNT_PREEMPT_COUNT u ∧
    ∃ wb, (c.gaveWay u j js).unit u = { c.unit u with run := some { kind := .train, job := j, wbits := wb }, queue := js } := by
  obtain ⟨⟨wb, hunit⟩, -, hf⟩ := ((c.passEnded u).setUnit u { (c.passEnded u).unit u with queue := js }).beginTile_spec hu j
  have hsolv := hf .MXE_CNT_SOLV_COUNT u 0 ⟨by decide, by decide⟩ (by omega) (by decide) (by simp [Spot.meets])
  have hpre := hf .MXE_CNT_PREEMPT_COUNT u 0 ⟨by decide, by decide⟩ (by omega) (by decide) (by simp [Spot.meets])
  refine ⟨hsolv.trans (c.g_passEnded u), hpre.trans ((c.regsBut_passEnded u).g .MXE_CNT_PREEMPT_COUNT u 0 (by decide)), wb, ?_⟩
  rw [Chip.gaveWay, hunit, Chip.unit_setUnit_same, Chip.unit_passEnded]

theorem Chip.banked_spec (c : Chip) (u : Nat) (t : STile) :
    (c.banked u t).g .MXE_CNT_SOLV_COUNT u = c.g .MXE_CNT_SOLV_COUNT u ∧
    (c.banked u t).g .MXE_CNT_PREEMPT_COUNT u = (c.g .MXE_CNT_PREEMPT_COUNT u + 1) % 2 ^ 64 ∧
    (c.banked u t).unit u = { c.unit u with bankS := some t } := by
  refine ⟨?_, Chip.g_inc_same _ _ _ _ _ ⟨by decide, by decide⟩, ?_⟩
  · rw [Chip.banked, Chip.inc, Chip.g_put_reg _ _ _ _ _ _ _ _ (by decide)]
    rfl
  · rw [Chip.banked, Chip.unit, Chip.inc_units]
    exact c.unit_setUnit_same u _

section
variable {s : State} {u : Nat} {t : STile} {wb : Nat} {job : TileJob}

/-- A pass that ends with passes to run, on a unit in service whose solve runs. -/
theorem exec_solverPassEnd_runs (hrun : (s.chip.unit u).run = some { kind := .solver t, job := job, wbits := wb }) (hleft : 1 < t.left)
    (hs : s.chip.inService u = true) (hr : s.chip.solveRuns (regionOfU u) { t with left := t.left - 1 } = true) :
    exec (.solverPassEnd u) s = .next (s.onChip (fun c => (match (c.passEnded u).startTile u with
      | some c' => (c'.setUnit u { c'.unit u with bankS := some { t with left := t.left - 1 } }).inc .MXE_CNT_PREEMPT_COUNT u
      | none => c.passGoesOn u { t with left := t.left - 1 }))) := by
  have hs' : (s.chip.passEnded u).inService u = true := by rw [(s.chip.regsBut_passEnded u).inService (by decide), hs]
  have hr' : (s.chip.passEnded u).solveRuns (regionOfU u) { t with left := t.left - 1 } = true := hr
  refine nextChip_eq ?_
  rw [hrun]
  dsimp only
  rw [if_neg (by omega), if_neg]
  · rfl
  · exact not_or.mpr ⟨not_not.mpr hs', not_not.mpr hr'⟩

theorem exec_solverPassEnd_goesOn (hrun : (s.chip.unit u).run = some { kind := .solver t, job := job, wbits := wb }) (hleft : 1 < t.left)
    (hs : s.chip.inService u = true) (hr : s.chip.solveRuns (regionOfU u) { t with left := t.left - 1 } = true)
    (ha : (s.chip.unit u).ahead = []) (hq : (s.chip.unit u).queue = []) :
    exec (.solverPassEnd u) s = .next (s.onChip (fun c => c.passGoesOn u { t with left := t.left - 1 })) := by
  have hnone : (s.chip.passEnded u).startTile u = none := by
    apply Chip.startTile_empty <;> rw [Chip.unit_passEnded] <;> assumption
  rw [exec_solverPassEnd_runs hrun hleft hs hr, State.onChip, hnone]
  rfl

theorem exec_solverPassEnd_preempts (hrun : (s.chip.unit u).run = some { kind := .solver t, job := job, wbits := wb }) (hleft : 1 < t.left)
    (hs : s.chip.inService u = true) (hr : s.chip.solveRuns (regionOfU u) { t with left := t.left - 1 } = true)
    (ha : (s.chip.unit u).ahead = []) {j : TileJob} {js : List Job} (hq : (s.chip.unit u).queue = .tile j :: js) :
    exec (.solverPassEnd u) s = .next (s.onChip (fun c => (c.gaveWay u j js).banked u { t with left := t.left - 1 })) := by
  have hsome := Chip.startTile_queue (c := s.chip.passEnded u) (u := u) (j := j) (js := js)
    (by rw [(s.chip.regsBut_passEnded u).inService (by decide), hs]) (by rw [Chip.unit_passEnded]; exact ha) (by rw [Chip.unit_passEnded]; exact hq)
  rw [exec_solverPassEnd_runs hrun hleft hs hr, State.onChip, hsome]
  rfl

end

end Sys2Proof.Machine
end

section
/-! Tiles that complete (R111–R121, R132, R133): the place of a tile's output in memory, the marks of its unit, and what the work of a
tile leaves alone. -/

namespace Sys2Proof.Machine

/-! ### Where the output of a tile lies (R111, R174) -/

theorem firstBad_eq_zero {l : List Nat} : firstBad l = 0 ↔ ∀ s ∈ l, s = 0 := by
  induction l with
  | nil => simp [firstBad, stOK]
  | cons s l ih =>
    rw [firstBad]
    split
    · next h => rw [ih]; simpa [stOK] using fun _ => h
    · next h => simp only [stOK] at h; simp [h]

theorem chk_eq_zero {b : Bool} {st : Nat} (hst : st ≠ 0) : chk b st = 0 ↔ b = true := by
  cases b <;> simp [chk, stOK, hst]

/-- A tile to memory that passes its checks may write each of its output rows (R107, R237). -/
theorem Chip.tileStatus_writes {c : Chip} {t : TileJob} (h : c.tileStatus t = 0) (hd : mmDest t.mm = 0) :
    ∀ r ∈ t.writes, opRange r.1 r.2 = true := by
  have hw := (chk_eq_zero (by decide)).mp (firstBad_eq_zero.mp h _ (List.mem_cons_of_mem _ List.mem_cons_self))
  have hm : t.toMemory = true := by simp [TileJob.toMemory, hd]
  rw [hm, Bool.not_true, Bool.false_or, List.all_eq_true] at hw
  intro r hr
  have h1 := hw r hr
  simp only [Chip.opWritable, Chip.opReach, Bool.and_eq_true] at h1
  exact h1.1.1

theorem opAt_scratch (u : Nat) {a : Nat} (h : a < 0x00080000) : opAt u a = scratchKey u a := by
  rw [opAt, opKey, if_pos h, Option.getD_some]

theorem opAt_region (u : Nat) {a : Nat} (h : 0x01000000 ≤ a) (h' : a < 0x02FC0000) : opAt u a = regionKey (regionOfU u) (a - 0x01000000) := by
  rw [opAt, opKey, if_neg (by omega), if_pos ⟨h, h'⟩, Option.getD_some]

/-- Within one memory the bytes of an operand range follow each other. -/
theorem opAt_add {a n x m : Nat} (u : Nat) (h : opRange a n = true) (hm : 0 < m) (hx : x + m ≤ n) : opAt u (a + x) = opAt u a + x := by
  simp only [opRange, Bool.or_eq_true, beq_iff_eq, decide_eq_true_eq, Bool.and_eq_true] at h
  rcases h with (h | h) | ⟨h1, h2⟩
  · omega
  · rw [opAt_scratch u (show a + x < _ by omega), opAt_scratch u (show a < _ by omega)]
    exact (Nat.add_assoc _ _ _).symm
  · rw [opAt_region u (show _ ≤ a + x by omega) (by omega), opAt_region u h1 (by omega), Nat.sub_add_comm h1]
    exact (Nat.add_assoc _ _ _).symm

/-- Every run of a row lies within the row. -/
theorem runsOf_within {α : Type} (l : List (Option α)) : ∀ i, ∀ x ∈ runsOf i l, i ≤ x.1 ∧ x.1 + x.2.length ≤ i + l.length := by
  induction l with
  | nil => intro i x hx; cases hx
  | cons a l ih =>
    intro i x hx
    cases a with
    | none =>
      have := ih (i + 1) x hx
      simp only [List.length_cons]; omega
    | some a =>
      rw [runsOf] at hx
      split at hx
      · next j as rest h =>
        have hrest : ∀ y ∈ rest, i + 1 ≤ y.1 ∧ y.1 + y.2.length ≤ i + 1 + l.length := fun y hy => ih (i + 1) y (by rw [h]; simp [hy])
        have hhead := ih (i + 1) (j, as) (by rw [h]; simp)
        dsimp only at hhead
        split at hx
        · rcases List.mem_cons.mp hx with rfl | hx
          · simp only [List.length_cons]; omega
          · have := hrest x hx; simp only [List.length_cons]; omega
        · rcases List.mem_cons.mp hx with rfl | hx
          · simp only [List.length_cons, List.length_nil]; omega
          · rcases List.mem_cons.mp hx with rfl | hx
            · simp only [List.length_cons]; omega
            · have := hrest x hx; simp only [List.length_cons]; omega
      · rw [List.mem_singleton.mp hx]
        simp only [List.length_cons, List.length_nil]; omega

theorem length_leBytes (n : Nat) : ∀ w, (leBytes n w).length = n := by
  induction n with
  | zero => exact fun _ => rfl
  | succ n ih => exact fun w => congrArg (· + 1) (ih _)

/-! ### The size of a tile's output -/

/-- A table of m rows of n values. -/
def isTable {α : Type} (m n : Nat) (rows : List (List α)) : Prop := rows.length = m ∧ ∀ row ∈ rows, row.length = n

theorem length_listSet {α : Type} (l : List α) : ∀ (i : Nat) (a : α), (listSet l i a).length = l.length := by
  induction l with
  | nil => exact fun _ _ => rfl
  | cons x l ih =>
    intro i a
    cases i with
    | zero => rfl
    | succ i => exact congrArg (· + 1) (ih i a)

theorem mem_listSet {α : Type} (l : List α) : ∀ {i : Nat} {a x : α}, x ∈ listSet l i a → x ∈ l ∨ x = a := by
  induction l with
  | nil => intro i a x h; cases h
  | cons y l ih =>
    intro i a x h
    cases i with
    | zero =>
      rcases List.mem_cons.mp h with h | h
      · exact .inr h
      · exact .inl (List.mem_cons_of_mem _ h)
    | succ i =>
      rcases List.mem_cons.mp h with rfl | h
      · exact .inl List.mem_cons_self
      · exact (ih h).imp_left (List.mem_cons_of_mem _)

theorem isTable.getD_length {α : Type} {m n : Nat} {rows : List (List α)} (h : isTable m n rows) {r : Nat} (hr : r < m) :
    (rows.getD r []).length = n := by
  have hr' : r < rows.length := by rw [h.1]; exact hr
  rw [List.getD_eq_getElem _ _ hr']
  exact h.2 _ (List.getElem_mem hr')

/-- An upset changes the value of an element, not the size of the table (R138). -/
theorem isTable.upsetRows {m n : Nat} (up : List Upset) : ∀ {rows : List (List OutVal)}, isTable m n rows → isTable m n (upsetRows up rows) := by
  induction up with
  | nil => exact fun h => h
  | cons u up ih =>
    intro rows h
    refine ih ?_
    dsimp only
    split
    · exact h
    · split
      · next o ho =>
        refine ⟨(length_listSet _ _ _).trans h.1, fun row hrow => ?_⟩
        rcases mem_listSet _ hrow with hrow | rfl
        · exact h.2 row hrow
        · have hin : u.row < rows.length := by
            by_contra hge
            rw [List.getD_eq_default _ _ (by omega)] at ho
            cases ho
          rw [length_listSet]
          exact h.getD_length (by rw [← h.1]; exact hin)
      · exact h

theorem Chip.outputs_table (c : Chip) (t : TileJob) (desc : Bool) : isTable t.mt t.nt (c.outputs t desc) := by
  refine ⟨by simp [Chip.outputs], fun row hrow => ?_⟩
  obtain ⟨r, -, rfl⟩ := List.mem_map.mp hrow
  simp

theorem Chip.evalTile_table (c : Chip) (t : TileJob) (desc : Bool) (wb : Nat) (up : List Upset) :
    isTable t.mt t.nt (c.evalTile t desc wb up).1.rows := by
  have h := (c.outputs_table t desc).upsetRows up
  refine ⟨(List.length_map _).trans h.1, fun row hrow => ?_⟩
  obtain ⟨x, hx, rfl⟩ := List.mem_map.mp hrow
  rw [List.length_map]
  exact h.2 x hx

/-! ### What the work of a tile leaves -/

/-- The registers that the work of a tile writes beside the count, the flags and the sticky bits of its unit. -/
def tileWorkRegs : List Reg :=
  [.MXE_INJ, .MXE_CNT_UNTESTED, .MXE_CNT_CHK, .MXE_CKLOG, .PWR_STAT, .CEL_UPD_STICKY, .VEC_CNT_CDROP, .VEC_CNT_CENSUS, .VEC_STICKY] ++ faultRegs

/-- From c to d the running work and the queue of unit u stay, every register besides those of a tile's work, and every byte outside
a set. -/
structure Chip.tileWork (u : Nat) (w : Nat → Prop) (c d : Chip) : Prop where
  run : (d.unit u).run = (c.unit u).run
  queue : (d.unit u).queue = (c.unit u).queue
  regs : c.regsBut d tileWorkRegs
  bytes : ∀ y, ¬ w y → d.byte y = c.byte y

section
variable {u : Nat} {w : Nat → Prop} {c d e : Chip}

theorem Chip.tileWork_refl (u : Nat) (w : Nat → Prop) (c : Chip) : Chip.tileWork u w c c := ⟨rfl, rfl, c.regsBut_refl _, fun _ _ => rfl⟩

theorem Chip.tileWork.trans (h : Chip.tileWork u w c d) (h' : Chip.tileWork u w d e) : Chip.tileWork u w c e :=
  ⟨h'.run.trans h.run, h'.queue.trans h.queue, h.regs.trans h'.regs, fun y hy => (h'.bytes y hy).trans (h.bytes y hy)⟩

/-- What leaves the units and the memory alone, and writes registers of a tile's work only. -/
theorem Chip.tileWork_of {l : List Reg} (hu : d.units = c.units) (hm : d.mem = c.mem) (hr : c.regsBut d l) (hl : ∀ r ∈ l, r ∈ tileWorkRegs) :
    Chip.tileWork u w c d := by
  have h : d.unit u = c.unit u := congrArg (sget ({} : UnitS) · u) hu
  exact ⟨by rw [h], by rw [h], hr.mono hl, fun y _ => by rw [Chip.byte, Chip.byte, hm]⟩

theorem Chip.tileWork_put (c : Chip) (f : Fld) (i v j : Nat) (hf : f.reg ∈ tileWorkRegs) : Chip.tileWork u w c (c.put f i v j) :=
  Chip.tileWork_of rfl rfl (c.regsBut_put f i v j) (by simpa using hf)

theorem Chip.tileWork.put (h : Chip.tileWork u w c d) (f : Fld) (i v j : Nat) (hf : f.reg ∈ tileWorkRegs) :
    Chip.tileWork u w c (d.put f i v j) := h.trans (d.tileWork_put f i v j hf)

theorem foldl_tileWork {β : Type} {f : Chip → β → Chip} {l : List β} (h : ∀ c, ∀ x ∈ l, Chip.tileWork u w c (f c x)) :
    ∀ c, Chip.tileWork u w c (l.foldl f c) := by
  induction l with
  | nil => exact fun c => c.tileWork_refl u w
  | cons x l ih => exact fun c => (h c x (by simp)).trans (ih (fun c y hy => h c y (by simp [hy])) _)

/-- A unit replaced that keeps its running work and its queue. -/
theorem Chip.tileWork_setUnit (c : Chip) {v : Nat} {x : UnitS} (hr : x.run = (c.unit v).run) (hq : x.queue = (c.unit v).queue) :
    Chip.tileWork u w c (c.setUnit v x) := by
  refine ⟨?_, ?_, Chip.regsBut_of_regs rfl _, fun _ _ => rfl⟩ <;>
  · by_cases h : u = v
    · subst h; rw [Chip.unit_setUnit_same]; assumption
    · rw [Chip.unit_setUnit_other _ _ h]

theorem faultRegs_tileWork : ∀ r ∈ faultRegs, r ∈ tileWorkRegs := fun _ h => List.mem_append_right _ h

theorem Chip.faultOnly.tileWork (h : c.faultOnly d) : Chip.tileWork u w c d :=
  Chip.tileWork_of (congrArg Chip.units h.1 :) (congrArg Chip.mem h.1 :) h.2 faultRegs_tileWork

theorem Chip.tileWork_meter (c : Chip) (p i n : Nat) : Chip.tileWork u w c (c.meter p i n) :=
  Chip.tileWork_of (c.meter_units p i n) (c.meter_mem p i n) (Chip.regsBut_of_regs (c.meter_regs p i n) []) (by simp)

/-! ### Writes to memory -/

theorem Chip.units_write (c : Chip) (k : Nat) (bs : List Byte) (b : Bool) : (c.write k bs b).units = c.units :=
  congrArg Prod.fst (c.work_write k bs b)

theorem Chip.tileWork_write (c : Chip) {k : Nat} {bs : List Byte} (b : Bool) (h : ∀ y, k ≤ y → y < k + bs.length → w y) :
    Chip.tileWork u w c (c.write k bs b) := by
  have hu : (c.write k bs b).unit u = c.unit u := congrArg (sget ({} : UnitS) · u) (c.units_write k bs b)
  refine ⟨by rw [hu], by rw [hu], (c.regsBut_write k bs b).mono (by decide), fun y hy => ?_⟩
  rw [Chip.byte_write, if_neg (fun hin => hy (h y hin.1 hin.2))]

theorem Chip.tileWork_ctrlFault (c : Chip) (p : Nat) (x : FaultSpec) : Chip.tileWork u w c (c.ctrlFault [p] x) := by
  rw [Chip.ctrlFault_one]
  exact (c.faultOnly_postFault x).tileWork.trans (Chip.tileWork_of rfl rfl (Chip.regsBut_of_regs rfl []) (by simp))

theorem Chip.tileWork_blockedWrite (c : Chip) (p writer addr : Nat) : Chip.tileWork u w c (c.blockedWrite p writer addr) := by
  unfold Chip.blockedWrite
  dsimp only
  split
  · exact (c.tileWork_put .CEL_UPD_STICKY_BLOCKED p 1 0 (by decide)).trans (Chip.tileWork_ctrlFault _ _ _)
  · exact c.tileWork_ctrlFault _ _

theorem Chip.tileWork_engWrite (c : Chip) (p writer v addr : Nat) {bs : List Byte} (b : Bool) (ex : List (Nat × Nat))
    (h : ∀ y, opAt v addr ≤ y → y < opAt v addr + bs.length → w y) : Chip.tileWork u w c (c.engWrite p writer v addr bs b ex) := by
  have hw : Chip.tileWork u w c ((c.write (opAt v addr) bs b).meter p 12 bs.length) := (c.tileWork_write b h).trans (Chip.tileWork_meter _ _ _ _)
  unfold Chip.engWrite
  dsimp only
  split
  · split
    · exact hw
    · exact c.tileWork_blockedWrite _ _ _
  · exact hw

/-! ### The census, poison, the Press -/

theorem Chip.tileWork_censPost (c : Chip) (v : Nat) (x : CensEntry) : Chip.tileWork u w c (c.censPost v x) := by
  unfold Chip.censPost
  split
  · exact c.tileWork_put .VEC_CNT_CDROP_COUNT v _ 0 (by decide)
  · split
    · next h =>
      have hq := (Chip.post_linked h).1
      exact (hq.fault.tileWork).trans (Chip.tileWork_put _ .VEC_CNT_CENSUS_COUNT v _ 0 (by decide))
    · exact c.tileWork_setUnit rfl rfl
    · exact (c.tileWork_put .VEC_CNT_CDROP_COUNT v _ 0 (by decide)).put .VEC_STICKY_CENS_DROP v 1 0 (by decide)

theorem Chip.tileWork_censAdd (c : Chip) (v : Nat) (x : CensEntry) : Chip.tileWork u w c (c.censAdd v x) := by
  unfold Chip.censAdd
  dsimp only
  split
  · exact c.tileWork_setUnit rfl rfl
  · split
    · split
      · refine Chip.tileWork.trans (c.tileWork_setUnit ?_ ?_) (Chip.tileWork_censPost _ _ _) <;> rfl
      · exact c.tileWork_setUnit rfl rfl
    · exact c.tileWork_setUnit rfl rfl

theorem Chip.tileWork_markNf (c : Chip) (p tensor : Nat) (kindG nf : Bool) : Chip.tileWork u w c (c.markNf p tensor kindG nf) := by
  unfold Chip.markNf
  split
  · exact Chip.tileWork_of rfl rfl (Chip.regsBut_of_regs rfl []) (by simp)
  · exact c.tileWork_refl u w

theorem Chip.tileWork_consumePoison (c : Chip) (p blk tag : Nat) (pl : Place) (loc lk : Nat) :
    Chip.tileWork u w c (c.consumePoison p blk tag pl loc lk) :=
  Chip.tileWork.trans (d := c.setStep p { c.stepS p with poison := true, killed := true })
    (Chip.tileWork_of rfl rfl (Chip.regsBut_of_regs rfl []) (by simp)) (c.consumePoison_only p blk tag pl loc lk).tileWork

theorem Chip.tileWork_pressCapture (c : Chip) (p : Nat) (t : TileJob) : Chip.tileWork u w c (c.pressCapture p t) := by
  unfold Chip.pressCapture
  refine foldl_tileWork (fun c x _ => ?_) c
  have hset : ∀ (cl e : Nat) (x : PEntry), Chip.tileWork u w c (c.setPent cl e x) :=
    fun cl e x => Chip.tileWork_of rfl rfl (Chip.regsBut_of_regs rfl []) (by simp)
  dsimp only
  split
  · exact c.tileWork_refl u w
  · split_ifs
    · exact c.tileWork_refl u w
    · exact hset _ _ _
    · exact hset _ _ _

theorem Chip.tileWork_count (c : Chip) (t : TileJob) (b : Nat) (m : Part) (n : Nat) : Chip.tileWork u w c (c.count t b m n) := by
  unfold Chip.count
  split
  · exact c.tileWork_refl u w
  · exact Chip.tileWork_of rfl rfl (Chip.regsBut_of_regs rfl []) (by simp)

/-! ### A tile's output (R111, R112, R164) -/

/-- The runs of bytes that a tile writes to its output rows (R112). -/
def Chip.tileRuns (c : Chip) (t : TileJob) (o : TileOut) : List (Nat × List Byte) :=
  (List.range o.rows.length).flatMap (fun r =>
    (runsOf 0 ((List.range (o.rows.getD r []).length).map (fun n =>
      if c.writesElem t r n then some ((o.rows.getD r []).getD n .zero) else none))).map (fun x =>
    (mmOut t.mm + (64 * t.i + r) * mmOutStride t.mm + 128 * t.j + 4 * x.1, x.2.flatMap (fun v => leBytes 4 (encodeF fp32 v)))))

/-- The bytes of the output rows of a tile, as keys of memory. -/
def TileJob.outByte (t : TileJob) (y : Nat) : Prop := ∃ r ∈ t.writes, opAt t.u r.1 ≤ y ∧ y < opAt t.u r.1 + r.2

theorem length_flatMap_leBytes (l : List FVal) : (l.flatMap (fun v => leBytes 4 (encodeF fp32 v))).length = 4 * l.length := by
  induction l with
  | nil => rfl
  | cons v l ih => rw [List.flatMap_cons, List.length_append, ih, length_leBytes, List.length_cons]; omega

/-- Every run lies in an output row of the tile. -/
theorem Chip.tileRuns_outByte (c : Chip) {t : TileJob} {o : TileOut} (ht : isTable t.mt t.nt o.rows)
    (hr : ∀ r ∈ t.writes, opRange r.1 r.2 = true) :
    ∀ x ∈ c.tileRuns t o, ∀ y, opAt t.u x.1 ≤ y → y < opAt t.u x.1 + x.2.length → t.outByte y := by
  intro x hx y h1 h2
  obtain ⟨r, hrow, hx⟩ := List.mem_flatMap.mp hx
  obtain ⟨z, hz, rfl⟩ := List.mem_map.mp hx
  have hlt : r < t.mt := by rw [← ht.1]; exact List.mem_range.mp hrow
  have hz := (runsOf_within _ 0 z hz).2
  rw [List.length_map, List.length_range, ht.getD_length hlt] at hz
  dsimp only at h1 h2
  rw [length_flatMap_leBytes] at h2
  have hmem : (mmOut t.mm + (64 * t.i + r) * mmOutStride t.mm + 128 * t.j, 4 * t.nt) ∈ t.writes := by
    rw [TileJob.writes, if_neg (by omega)]
    exact List.mem_map.mpr ⟨r, List.mem_range.mpr hlt, rfl⟩
  have hadd := opAt_add (x := 4 * z.1) (m := 4 * z.2.length) t.u (hr _ hmem) (by omega) (by dsimp only; omega)
  dsimp only at hadd
  rw [hadd] at h1 h2
  exact ⟨_, hmem, by dsimp only; omega, by dsimp only; omega⟩

theorem Chip.tileWork_writeTile (c : Chip) (writer : Nat) {t : TileJob} {o : TileOut} (ht : isTable t.mt t.nt o.rows)
    (hr : ∀ r ∈ t.writes, opRange r.1 r.2 = true) : Chip.tileWork u t.outByte c (c.writeTile writer t o) := by
  have hruns : Chip.tileWork u t.outByte c (c.engRuns (c.partOfCl t.cl) writer t.u (c.tileRuns t o) (bit o.flags 4) []) :=
    foldl_tileWork (fun d x hx => d.tileWork_engWrite _ _ _ _ _ _ (c.tileRuns_outByte ht hr x hx)) c
  exact (hruns.trans (Chip.tileWork_censAdd _ _ _)).trans (Chip.tileWork_markNf _ _ _ _ _)

/-! ### Arbitration begun (R501) -/

theorem Chip.tileWork_arbitrate (c : Chip) (v : Nat) (r : Running) (o : TileOut) (tests : List RowTest) (injected : Bool) :
    Chip.tileWork u w c (c.arbitrate v r o tests injected) := by
  unfold Chip.arbitrate
  extract_lets v' a c1 c2
  have h2 : Chip.tileWork u w c c2 :=
    (Chip.tileWork.put (Chip.tileWork.trans (c := c) (d := c1) (Chip.tileWork_of rfl rfl (Chip.regsBut_of_regs rfl []) (by simp))
      (c1.tileWork_put .INT_CNT_COUNT 0 _ 1 (by decide))) .INT_STAT_ARB_OPEN _ 1 0 (by decide))
  clear_value c2 c1 a v'
  cases v' with
  | none => exact h2
  | some v' => exact h2.trans (c2.tileWork_setUnit rfl rfl)

end

end Sys2Proof.Machine
end

section
/-! TILE_COMPLETE of a training tile: failing its checks it marks BAD_DESC, passing them it is counted and leaves its flags (R118, R120,
R121, R132, R133). -/

namespace Sys2Proof.Machine

/-! ### The marks of a tile -/

/-- A tile counted, its flags shown and ORed into the sticky flags (R132, R133). -/
def Chip.tileMarked (c : Chip) (u : Nat) (o : TileOut) : Chip :=
  ((c.inc .MXE_CNT_TILE_COUNT u).wr .MXE_TFLAG u (tflagWord o ((c.inc .MXE_CNT_TILE_COUNT u).g .MXE_CNT_TILE_COUNT u))).orF
    .MXE_STICKY_FLAGS u (o.flags % 64)

/-- The place of a tile's first event of one kind, in its fields of `MXE_TFLAG` (R132). -/
def eventPlace (p : Option (Nat × Nat)) (i j : Nat) : Nat := match p with | some (r, n) => r % 64 * 2 ^ i + n % 32 * 2 ^ j | none => 0

/-- The places lie above the flags. -/
theorem eventPlace_above (p : Option (Nat × Nat)) (i j : Nat) : ∃ b, eventPlace p (8 + i) (8 + j) = 256 * b := by
  cases p with
  | none => exact ⟨0, rfl⟩
  | some x => exact ⟨x.1 % 64 * 2 ^ i + x.2 % 32 * 2 ^ j, by dsimp only [eventPlace]; rw [pow_add, pow_add]; ring⟩

theorem tflagWord_eq (o : TileOut) (seq : Nat) : tflagWord o seq = Word.ofNat (o.flags % 64 + eventPlace o.nf (8 + 0) (8 + 6)
    + eventPlace o.ovf (8 + 11) (8 + 17) + eventPlace o.unf (8 + 22) (8 + 28) + o.chk.getD 0 % 64 * 2 ^ 41 + seq % 2 ^ 16 * 2 ^ 48) := rfl

theorem tflagWord_flags (o : TileOut) (seq : Nat) : wbits (tflagWord o seq) 5 0 = o.flags % 64 := by
  have key : ∀ a b c d e f : Nat, (a % 64 + 256 * b + 256 * c + 256 * d + e % 64 * 2 ^ 41 + f % 2 ^ 16 * 2 ^ 48) % 2 ^ 64 / 2 ^ 0 % 2 ^ 6 = a % 64 := by
    intro a b c d e f; omega
  obtain ⟨b, hb⟩ := eventPlace_above o.nf 0 6
  obtain ⟨c, hc⟩ := eventPlace_above o.ovf 11 17
  obtain ⟨d, hd⟩ := eventPlace_above o.unf 22 28
  rw [tflagWord_eq, hb, hc, hd, wbits, bits, Nat.shiftRight_eq_div_pow, Word.toNat_ofNat]
  exact key _ _ _ _ _ _

theorem Chip.units_tileMarked (c : Chip) (u : Nat) (o : TileOut) : (c.tileMarked u o).units = c.units := by
  rw [Chip.tileMarked, Chip.orF_units, Chip.wr_units, Chip.inc_units]

theorem Chip.mem_tileMarked (c : Chip) (u : Nat) (o : TileOut) : (c.tileMarked u o).mem = c.mem := by
  rw [Chip.tileMarked, Chip.orF_mem, Chip.wr_mem, Chip.inc_mem]

theorem Chip.tileMarked_spec (c : Chip) (u : Nat) (o : TileOut) :
    (c.tileMarked u o).g .MXE_CNT_TILE_COUNT u = (c.g .MXE_CNT_TILE_COUNT u + 1) % 2 ^ 64 ∧
    (c.tileMarked u o).g .MXE_STICKY_FLAGS u = c.g .MXE_STICKY_FLAGS u ||| o.flags % 64 ∧
    (c.tileMarked u o).g ⟨.MXE_TFLAG, 5, 0⟩ u = o.flags % 64 := by
  unfold Chip.tileMarked
  refine ⟨?_, ?_, ?_⟩
  · rw [Chip.orF, Chip.g_put_reg _ _ _ _ _ _ _ _ (by decide), Chip.g_wr_reg _ _ _ _ _ _ _ _ (by decide),
      Chip.g_inc_same _ _ _ _ _ ⟨by decide, by decide⟩]
    rfl
  · have hold : ∀ v, ((c.inc .MXE_CNT_TILE_COUNT u).wr .MXE_TFLAG u v).g .MXE_STICKY_FLAGS u = c.g .MXE_STICKY_FLAGS u := fun v => by
      rw [Chip.g_wr_reg _ _ _ _ _ _ _ _ (by decide), Chip.inc, Chip.g_put_reg _ _ _ _ _ _ _ _ (by decide)]
    have hlt : c.g .MXE_STICKY_FLAGS u < 2 ^ 6 := c.g_lt _ _ _
    rw [Chip.orF, Chip.g_put_same _ _ _ _ _ ⟨by decide, by decide⟩, hold]
    exact Nat.mod_eq_of_lt (Nat.or_lt_two_pow hlt (Nat.mod_lt _ (by decide)))
  · rw [Chip.orF, Chip.g_put_reg _ _ _ _ _ _ _ _ (by decide), Chip.g, Chip.rd_wr_same]
    exact tflagWord_flags o _

/-- From c to d unit u has completed a tile: it is counted and its flags are shown, the unit's running work and queue stay, and no byte
outside a set changes. -/
structure Chip.tileCounted (u : Nat) (w : Nat → Prop) (c d : Chip) : Prop where
  run : (d.unit u).run = (c.unit u).run
  queue : (d.unit u).queue = (c.unit u).queue
  count : d.g .MXE_CNT_TILE_COUNT u = (c.g .MXE_CNT_TILE_COUNT u + 1) % 2 ^ 64
  flags : ∃ fl, d.g .MXE_STICKY_FLAGS u = c.g .MXE_STICKY_FLAGS u ||| fl % 64 ∧ d.g ⟨.MXE_TFLAG, 5, 0⟩ u = fl % 64
  bytes : ∀ y, ¬ w y → d.byte y = c.byte y

section
variable {u : Nat} {w : Nat → Prop} {c d e : Chip}

/-- Work before and after the marks of a tile. -/
theorem Chip.tileWork.counted (h : Chip.tileWork u w c d) (o : TileOut) (h' : Chip.tileWork u w (d.tileMarked u o) e) :
    Chip.tileCounted u w c e := by
  obtain ⟨hcount, hsticky, hflag⟩ := d.tileMarked_spec u o
  have hold : ∀ f : Fld, f.reg ∉ tileWorkRegs → d.g f u = c.g f u := fun f hf => h.regs.g f u 0 hf
  have hunit : (d.tileMarked u o).unit u = d.unit u := congrArg (sget ({} : UnitS) · u) (d.units_tileMarked u o)
  have hbyte : ∀ y, (d.tileMarked u o).byte y = d.byte y := fun y => by rw [Chip.byte, Chip.byte, d.mem_tileMarked]
  refine ⟨?_, ?_, ?_, ⟨o.flags, ?_, ?_⟩, fun y hy => by rw [h'.bytes y hy, hbyte, h.bytes y hy]⟩
  · rw [h'.run, hunit, h.run]
  · rw [h'.queue, hunit, h.queue]
  · rw [h'.regs.g _ _ _ (by decide), hcount, hold _ (by decide)]
  · rw [h'.regs.g _ _ _ (by decide), hsticky, hold _ (by decide)]
  · rw [h'.regs.g _ _ _ (by decide), hflag]

theorem Chip.tileCounted.work (h : Chip.tileCounted u w c d) (h' : Chip.tileWork u w d e) : Chip.tileCounted u w c e := by
  obtain ⟨fl, hsticky, hflag⟩ := h.flags
  refine ⟨h'.run.trans h.run, h'.queue.trans h.queue, ?_, ⟨fl, ?_, ?_⟩, fun y hy => (h'.bytes y hy).trans (h.bytes y hy)⟩
  · rw [h'.regs.g _ _ _ (by decide), h.count]
  · rw [h'.regs.g _ _ _ (by decide), hsticky]
  · rw [h'.regs.g _ _ _ (by decide), hflag]

theorem Chip.tileWork_injected (c : Chip) (v : Nat) (i : Option Upset) : Chip.tileWork u w c (c.injected v i) := by
  unfold Chip.injected
  split
  · exact (c.tileWork_put .MXE_INJ_ARM v 0 0 (by decide)).put .MXE_INJ_FIRED v 1 0 (by decide)
  · exact c.tileWork_refl u w

theorem Chip.tileWork_wr (c : Chip) (r : Reg) (i : Nat) (v : Word) (j : Nat) (hr : r ∈ tileWorkRegs) : Chip.tileWork u w c (c.wr r i v j) :=
  Chip.tileWork_of rfl rfl (c.regsBut_wr r i v j) (by simpa using hr)

/-- A tile entered in its unit's registers: its marks, and the rest of the registers of its test (R134–R136). -/
theorem Chip.tileWork.tileRegs (h : Chip.tileWork u w c d) (o : TileOut) (tests : List RowTest) (injected : Bool) :
    Chip.tileCounted u w c (d.tileRegs u o tests injected) := by
  refine h.counted o ?_
  have h1 : Chip.tileWork u w (d.tileMarked u o) ((d.tileMarked u o).inc .MXE_CNT_UNTESTED_COUNT u (untestedRows tests)) :=
    Chip.tileWork_put _ .MXE_CNT_UNTESTED_COUNT u _ 0 (by decide)
  unfold Chip.tileRegs
  dsimp only
  split
  · exact (h1.put .MXE_CNT_CHK_COUNT u _ 0 (by decide)).trans (Chip.tileWork_wr _ .MXE_CKLOG u _ 0 (by decide))
  · exact h1

theorem Chip.tileWork_tileMeters (c : Chip) (t : TileJob) : Chip.tileWork u w c (c.tileMeters t) :=
  (c.tileWork_meter _ _ _).trans (Chip.tileWork_meter _ _ _ _)

theorem Chip.tileWork_tileUsedPoison (c : Chip) (v : Nat) (t : TileJob) : Chip.tileWork u w c (c.tileUsedPoison v t) :=
  c.tileWork_consumePoison _ _ _ _ _ _

theorem Chip.tileCounted.ite {p : Prop} [Decidable p] {a b : Chip} (ha : Chip.tileCounted u w c a) (hb : Chip.tileCounted u w c b) :
    Chip.tileCounted u w c (if p then a else b) := by
  split
  · exact ha
  · exact hb

end

/-! ### A training tile -/

/-- A tile of a whole output that goes to memory, neither redone nor feeding a chain (R111). -/
structure TileJob.toRows (j : TileJob) : Prop where
  fused : j.fused = none
  redo : j.redo = 0
  dest : mmDest j.mm = 0
  slices : mmKsplit j.mm = 1

theorem bit_zero (n : Nat) : bit 0 n = false := by simp [bit_eq_testBit]

theorem Chip.tileOutput_toRows (c : Chip) {j : TileJob} (h : j.toRows) (u : Nat) (o : TileOut) : c.tileOutput u j o = c.writeTile 2 j o := by
  unfold Chip.tileOutput
  dsimp only
  rw [if_neg (by rw [h.dest, h.slices]; decide), h.fused, h.redo, bit_zero]
  rfl

theorem Chip.count_toRows (c : Chip) {j : TileJob} (h : j.toRows) (b : Nat) (m : Part) : c.count j b m = c.partDone j.cl j.id m := by
  rw [Chip.count, h.redo, bit_zero, bit_zero]
  exact if_neg (by decide)

theorem Chip.isCancelled_partDone (c : Chip) (cl id : Nat) (m : Part) : (c.partDone cl id m).isCancelled cl id = c.isCancelled cl id := by
  unfold Chip.isCancelled Chip.partDone
  dsimp only
  rw [Chip.seq_setSeq_same, List.any_map]
  congr 1
  funext o
  dsimp only [Function.comp]
  split <;> rfl

/-- A tile that fails its checks marks BAD_DESC and enters its status for its command (R132, R133). -/
theorem Chip.tileFailed_toRows (c : Chip) {j : TileJob} (h : j.toRows) (u st : Nat) (hc : c.isCancelled j.cl j.id = false) :
    c.tileFailed u j st = (c.set1 .MXE_STICKY_BAD_DESC u).partDone j.cl j.id { order := j.order, status := st } := by
  unfold Chip.tileFailed
  dsimp only
  rw [Chip.count_toRows _ h, Chip.isCancelled_partDone]
  have hc' : (c.set1 .MXE_STICKY_BAD_DESC u).isCancelled j.cl j.id = false := hc
  rw [hc', if_neg (by rw [h.redo, bit_zero]; decide), if_neg (by rw [h.dest]; decide), if_neg (by rw [h.slices]; decide), h.fused]

/-- A training tile out of the array of its unit. -/
def Chip.tileOut (c : Chip) (u : Nat) : Chip := c.setUnit u { c.unit u with run := none }

theorem Chip.unit_tileOut (c : Chip) (u : Nat) : (c.tileOut u).unit u = { c.unit u with run := none } := Chip.unit_setUnit_same _ _ _

theorem Chip.noRegs_partDone (c : Chip) (cl id : Nat) (m : Part) :
    (c.partDone cl id m).noRegs = ({ c with seqs := (c.partDone cl id m).seqs } : Chip).noRegs := rfl

theorem Chip.units_partDone (c : Chip) (cl id : Nat) (m : Part) : (c.partDone cl id m).units = c.units := rfl

theorem Chip.regs_partDone (c : Chip) (cl id : Nat) (m : Part) : (c.partDone cl id m).regs = c.regs := rfl

theorem Chip.trainEnd_failed {c : Chip} {r : Running} (h : c.tileStatus r.job ≠ 0) (u : Nat) (ups : List Upset) :
    c.trainEnd u r ups = (c.tileOut u).tileFailed u r.job (c.tileStatus r.job) := if_pos h

/-- A tile that fails its checks leaves the array and marks BAD_DESC; beside that only its command changes (R132, R133). -/
theorem Chip.trainEnd_failed_spec {c : Chip} {r : Running} (hj : r.job.toRows) (hst : c.tileStatus r.job ≠ 0)
    (hc : c.isCancelled r.job.cl r.job.id = false) {u : Nat} (hu : u < 1024) (ups : List Upset) :
    (c.trainEnd u r ups).noRegs = ({ c with units := (c.trainEnd u r ups).units, seqs := (c.trainEnd u r ups).seqs } : Chip).noRegs ∧
    c.fieldsBut (c.trainEnd u r ups) [(.MXE_STICKY_BAD_DESC, u, 0)] ∧ (c.trainEnd u r ups).g .MXE_STICKY_BAD_DESC u = 1 ∧
    (c.trainEnd u r ups).unit u = { c.unit u with run := none } := by
  have hend := (Chip.trainEnd_failed hst u ups).trans (Chip.tileFailed_toRows (c.tileOut u) hj u _ hc)
  generalize c.trainEnd u r ups = d at hend ⊢
  subst hend
  have hunit := (c.tileOut u).set1_units .MXE_STICKY_BAD_DESC u 0
  refine ⟨?_, ?_, ?_, ?_⟩
  · rw [Chip.noRegs_partDone, Chip.units_partDone, hunit]
    generalize Chip.seqs _ = x
    exact congrArg (fun e : Chip => { e with seqs := x }) ((c.tileOut u).noRegs_set1 .MXE_STICKY_BAD_DESC u 0)
  · exact Chip.fieldsBut.regs (c.fieldsBut_put .MXE_STICKY_BAD_DESC u 1 0 ⟨by decide, by decide⟩ (by omega) (by decide))
      (Chip.regs_partDone _ _ _ _)
  · rw [Chip.g, Chip.rd, Chip.regs_partDone]
    exact Chip.g_set1_same c .MXE_STICKY_BAD_DESC u 0 ⟨by decide, by decide⟩
  · rw [Chip.unit, Chip.units_partDone, hunit]
    exact c.unit_tileOut u

/-- What a tile of status OK does with its output and its tests. -/
def Chip.tileEnds (c : Chip) (u : Nat) (r : Running) (inj : Option Upset) (x : TileOut × List RowTest) : Chip :=
  let t := r.job
  let o := if c.tilePoison t then { x.1 with flags := x.1.flags ||| 16 } else x.1
  let d := ((c.injected u inj).tileRegs u o x.2 inj.isSome).tileMeters t
  let d := if c.tilePoison t then d.tileUsedPoison u t else d
  let d := (d.pressCapture (d.partOfCl t.cl) t).tileOutput u t o
  if o.chk.isSome then d.arbitrate u r o x.2 inj.isSome else d.count t 0 (tilePart t t.order 0 (some o) 0)

theorem Chip.trainEnd_passes {c : Chip} {r : Running} (h : c.tileStatus r.job = 0) (u : Nat) (ups : List Upset) :
    c.trainEnd u r ups = (c.tileOut u).tileEnds u r ((c.tileOut u).injection u r.job)
      ((c.tileOut u).evalTile r.job false r.wbits (ups ++ ((c.tileOut u).injection u r.job).toList)) := if_neg (not_not.mpr h)

theorem Chip.tileEnds_counted (c : Chip) {r : Running} (h : r.job.toRows) (hw : ∀ x ∈ r.job.writes, opRange x.1 x.2 = true) (u : Nat)
    (inj : Option Upset) {x : TileOut × List RowTest} (hx : isTable r.job.mt r.job.nt x.1.rows) :
    Chip.tileCounted u r.job.outByte c (c.tileEnds u r inj x) := by
  unfold Chip.tileEnds
  extract_lets t o' o d1 d2
  have hrows : isTable t.mt t.nt o.rows := by
    dsimp only [o]
    split <;> exact hx
  have h1 : Chip.tileCounted u t.outByte c d1 := ((c.tileWork_injected u inj).tileRegs o x.2 inj.isSome).work (Chip.tileWork_tileMeters _ _)
  have h2 : Chip.tileCounted u t.outByte c d2 := Chip.tileCounted.ite (h1.work (d1.tileWork_tileUsedPoison u t)) h1
  have h3 : Chip.tileCounted u t.outByte c ((d2.pressCapture (d2.partOfCl t.cl) t).tileOutput u t o) := by
    rw [Chip.tileOutput_toRows _ h]
    exact (h2.work (d2.tileWork_pressCapture _ _)).work (Chip.tileWork_writeTile _ 2 hrows hw)
  exact Chip.tileCounted.ite (h3.work (Chip.tileWork_arbitrate _ u r o x.2 inj.isSome)) (h3.work (Chip.tileWork_count _ _ _ _ _))

theorem Chip.trainEnd_counted {c : Chip} {r : Running} (hj : r.job.toRows) (hst : c.tileStatus r.job = 0) (u : Nat) (ups : List Upset) :
    Chip.tileCounted u r.job.outByte (c.tileOut u) (c.trainEnd u r ups) := by
  rw [Chip.trainEnd_passes hst]
  exact Chip.tileEnds_counted _ hj (Chip.tileStatus_writes hst hj.dest) u _ (Chip.evalTile_table _ _ _ _ _)

/-- The bytes that no output row of a tile covers. -/
theorem TileJob.not_outByte {t : TileJob} {y : Nat} (h : ∀ wr ∈ t.writes, y < opAt t.u wr.1 ∨ opAt t.u wr.1 + wr.2 ≤ y) : ¬ t.outByte y := by
  rintro ⟨wr, hwr, h1, h2⟩
  have := h wr hwr
  omega

/-- TILE_COMPLETE of a training tile that need not wait (R118, R309). -/
theorem exec_tileComplete_trains {s : State} {u : Nat} {r : Running} (hrun : (s.chip.unit u).run = some r) (hk : r.kind = .train)
    (hh : (s.chip.unit u).hold = false) (hj : r.job.toRows) (hroom : s.chip.hasRoom (s.chip.partOfCl r.job.cl) r.job = true)
    (up : Option Upset) : exec (.tileComplete u up) s = .next (s.onChip (fun c => c.trainEnd u r up.toList)) := by
  refine nextChip_eq ?_
  dsimp only
  rw [hrun]
  dsimp only
  rw [hk]
  dsimp only
  rw [if_neg (by simp [hh, hj.fused]), if_pos (.inr hroom)]

theorem exec_tileComplete_idle {s : State} {u : Nat} (h : (s.chip.unit u).run = none) (up : Option Upset) :
    exec (.tileComplete u up) s = .next s := nextChip_same (by dsimp only; rw [h])

/-! ### The clauses of O25 -/

section
variable {s : State} {u : Nat}

theorem tileStart_ahead {a : Running} {as : List Running} (hr : (s.chip.unit u).run = none) (hs : s.chip.inService u = true)
    (ha : (s.chip.unit u).ahead = a :: as) : ∃ t, exec (.tileStart u) s = .next t ∧
      s.effect t { s.chip with units := t.chip.units } [] ∧ t.chip.unit u = { s.chip.unit u with run := some a, ahead := as } :=
  ⟨_, exec_tileStart_tile (f := fun c => c.setUnit u { c.unit u with run := some a, ahead := as }) hr (Chip.startTile_ahead hs ha),
    State.effect_units rfl (Chip.fieldsBut_of_regs rfl _), Chip.unit_setUnit_same _ _ _⟩

theorem tileStart_queue {j : TileJob} {js : List Job} (hu : u < 1024) (hr : (s.chip.unit u).run = none) (hs : s.chip.inService u = true)
    (ha : (s.chip.unit u).ahead = []) (hq : (s.chip.unit u).queue = .tile j :: js) : ∃ t, exec (.tileStart u) s = .next t ∧
      s.effect t { s.chip with units := t.chip.units } [(⟨.MXE_CKSEED, 63, 0⟩, u, 0)] ∧
      ∃ wb, t.chip.unit u = { s.chip.unit u with queue := js, run := some { kind := .train, job := j, wbits := wb } } := by
  obtain ⟨⟨wb, hunit⟩, hrest, hf⟩ := (s.chip.setUnit u { s.chip.unit u with queue := js }).beginTile_spec hu j
  rw [Chip.unit_setUnit_same] at hunit
  exact ⟨_, exec_tileStart_tile (f := fun c => (c.setUnit u { c.unit u with queue := js }).beginTile u j) hr (Chip.startTile_queue hs ha hq),
    State.effect_units hrest (Chip.fieldsBut_trans (l := []) (Chip.fieldsBut_of_regs rfl []) hf), wb, hunit⟩

theorem tileStart_bankS {t : STile} (hr : (s.chip.unit u).run = none) (ha : (s.chip.unit u).ahead = []) (hq : (s.chip.unit u).queue = [])
    (hl : s.chip.mayLend u = true) (hm : ∀ k ∈ s.chip.press, k.2.mwait = []) (hb : (s.chip.unit u).bankS = some t)
    (hv : s.chip.solveRuns (regionOfU u) t = true) : ∃ t', exec (.tileStart u) s = .next t' ∧
      s.effect t' { s.chip with units := t'.chip.units } [] ∧
      t'.chip.unit u = { s.chip.unit u with run := some (solverRun u t), bankS := none } := by
  have hwake : (s.chip.startSolver u).mergeWake = s.chip.setUnit u { s.chip.unit u with run := some (solverRun u t), bankS := none } := by
    rw [Chip.startSolver_resumes hl hb hv]
    exact Chip.mergeWake_idle fun y _ => Chip.pressOf_mwait hm y.1
  refine ⟨_, exec_tileStart_solver hr (Chip.startTile_empty ha hq), State.effect_units ?_ ?_,
    (congrArg (Chip.unit · u) hwake).trans (Chip.unit_setUnit_same _ _ _)⟩
  · rw [hwake]; rfl
  · rw [hwake]; exact Chip.fieldsBut_of_regs rfl _

theorem exec_tileStart_nothing (hr : (s.chip.unit u).run = none)
    (hw : s.chip.inService u = false ∨ ((s.chip.unit u).ahead = [] ∧ (s.chip.unit u).queue = [] ∧ s.chip.mayLend u = false))
    (hm : ∀ k ∈ s.chip.press, k.2.mwait = []) : exec (.tileStart u) s = .next s := by
  have hnone : s.chip.startTile u = none := hw.elim Chip.startTile_outOfService fun h => Chip.startTile_empty h.1 h.2.1
  have hunlent : s.chip.mayLend u = false := hw.elim Chip.mayLend_outOfService fun h => h.2.2
  rw [exec_tileStart_solver hr hnone, State.onChip_same]
  rw [Chip.startSolver_unlent hunlent]
  exact Chip.mergeWake_idle fun y _ => Chip.pressOf_mwait hm y.1

theorem tileComplete_fails {r : Running} (hu : u < 1024) (hr : (s.chip.unit u).run = some r) (hk : r.kind = .train)
    (hh : (s.chip.unit u).hold = false) (hj : r.job.toRows) (hroom : s.chip.hasRoom (s.chip.partOfCl r.job.cl) r.job = true)
    (hc : s.chip.isCancelled r.job.cl r.job.id = false) (hst : s.chip.tileStatus r.job ≠ 0) (up : Option Upset) :
    ∃ t, exec (.tileComplete u up) s = .next t ∧
      s.effect t { s.chip with units := t.chip.units, seqs := t.chip.seqs } [(.MXE_STICKY_BAD_DESC, u, 0)] ∧
      t.chip.g .MXE_STICKY_BAD_DESC u = 1 ∧ t.chip.unit u = { s.chip.unit u with run := none } := by
  obtain ⟨hrest, hf, hbad, hunit⟩ := Chip.trainEnd_failed_spec hj hst hc hu up.toList
  exact ⟨_, exec_tileComplete_trains hr hk hh hj hroom up, ⟨s.chipOnly_onChip _, hrest, hf⟩, hbad, hunit⟩

theorem tileComplete_passes {r : Running} (hr : (s.chip.unit u).run = some r) (hk : r.kind = .train)
    (hh : (s.chip.unit u).hold = false) (hj : r.job.toRows) (hroom : s.chip.hasRoom (s.chip.partOfCl r.job.cl) r.job = true)
    (hst : s.chip.tileStatus r.job = 0) (up : Option Upset) :
    ∃ t, exec (.tileComplete u up) s = .next t ∧ s.chipOnly t ∧ (t.chip.unit u).run = none ∧
      (t.chip.unit u).queue = (s.chip.unit u).queue ∧
      t.chip.g .MXE_CNT_TILE_COUNT u = (s.chip.g .MXE_CNT_TILE_COUNT u + 1) % 2 ^ 64 ∧
      (∃ fl, t.chip.g .MXE_STICKY_FLAGS u = s.chip.g .MXE_STICKY_FLAGS u ||| fl % 64 ∧ t.chip.g ⟨.MXE_TFLAG, 5, 0⟩ u = fl % 64) ∧
      ∀ y, (∀ wr ∈ r.job.writes, y < opAt r.job.u wr.1 ∨ opAt r.job.u wr.1 + wr.2 ≤ y) → t.chip.byte y = s.chip.byte y := by
  obtain ⟨hrun, hqueue, hcount, hflags, hbytes⟩ := Chip.trainEnd_counted hj hst u up.toList
  rw [Chip.unit_tileOut] at hrun hqueue
  exact ⟨_, exec_tileComplete_trains hr hk hh hj hroom up, s.chipOnly_onChip _, hrun, hqueue, hcount, hflags,
    fun y hy => hbytes y (TileJob.not_outByte hy)⟩

section
variable {t : STile} {wb : Nat} {job : TileJob} (hu : u < 1024)
  (hrun : (s.chip.unit u).run = some { kind := .solver t, job := job, wbits := wb }) (hleft : 1 < t.left) (hs : s.chip.inService u = true)
  (ha : (s.chip.unit u).ahead = []) (hv : s.chip.solveRuns (regionOfU u) { t with left := t.left - 1 } = true)
include hu hrun hleft hs ha hv

theorem solverPassEnd_goesOn (hq : (s.chip.unit u).queue = []) : ∃ t', exec (.solverPassEnd u) s = .next t' ∧
    s.effect t' { s.chip with units := t'.chip.units } [(.MXE_CNT_SOLV_COUNT, u, 0)] ∧
    t'.chip.g .MXE_CNT_SOLV_COUNT u = (s.chip.g .MXE_CNT_SOLV_COUNT u + 1) % 2 ^ 64 ∧
    t'.chip.unit u = (if s.chip.g .MXE_CTL_LEND u = 1 then { s.chip.unit u with run := some (solverRun u { t with left := t.left - 1 }) }
      else { s.chip.unit u with run := none, bankS := some { t with left := t.left - 1 } }) := by
  obtain ⟨hrest, hf, hcount, hunit⟩ := s.chip.passGoesOn_spec hu { t with left := t.left - 1 }
  exact ⟨_, exec_solverPassEnd_goesOn hrun hleft hs hv ha hq, ⟨s.chipOnly_onChip _, hrest, hf⟩, hcount, hunit⟩

theorem solverPassEnd_preempts {j : TileJob} {js : List Job} (hq : (s.chip.unit u).queue = .tile j :: js) :
    ∃ t', exec (.solverPassEnd u) s = .next t' ∧ s.chipOnly t' ∧
      t'.chip.g .MXE_CNT_SOLV_COUNT u = (s.chip.g .MXE_CNT_SOLV_COUNT u + 1) % 2 ^ 64 ∧
      t'.chip.g .MXE_CNT_PREEMPT_COUNT u = (s.chip.g .MXE_CNT_PREEMPT_COUNT u + 1) % 2 ^ 64 ∧
      (t'.chip.unit u).bankS = some { t with left := t.left - 1 } ∧ (t'.chip.unit u).queue = js ∧
      ∃ wb', (t'.chip.unit u).run = some { kind := .train, job := j, wbits := wb' } := by
  obtain ⟨hsolv, hpre, wb', hunit⟩ := s.chip.gaveWay_spec hu j js
  obtain ⟨hsolv', hpre', hunit'⟩ := (s.chip.gaveWay u j js).banked_spec u { t with left := t.left - 1 }
  rw [hsolv] at hsolv'
  rw [hpre] at hpre'
  rw [hunit] at hunit'
  exact ⟨_, exec_solverPassEnd_preempts hrun hleft hs hv ha hq, s.chipOnly_onChip _, hsolv', hpre', congrArg UnitS.bankS hunit',
    congrArg UnitS.queue hunit', wb', congrArg UnitS.run hunit'⟩

end

end

end Sys2Proof.Machine
end

open Sys2Proof.Machine in
/-- Settles O25: the start of a unit is split by what it finds (work of arbitration, its queue, bank S, nothing), a training tile's
completion by its status. Beside its marks the work of a tile keeps the unit's queue, the counters and flags, and writes its output
rows only. -/
theorem unitsRunTiles : Obligations.UnitsRunTiles := by
  unfold Obligations.UnitsRunTiles
  intro s u hu c x noMerge
  exact ⟨exec_tileStart_busy, fun hr hs _ _ ha => tileStart_ahead hr hs ha, fun hr hs ha _ _ hq => tileStart_queue hu hr hs ha hq,
    fun hr ha hq hl hm _ hb hv => tileStart_bankS hr ha hq hl hm hb hv, fun hr hw hm => exec_tileStart_nothing hr hw hm,
    fun hr up => exec_tileComplete_idle hr up,
    fun j wb up hr hh hf hredo hd hk hroom hc => ⟨fun hst => tileComplete_fails hu hr rfl hh ⟨hf, hredo, hd, hk⟩ hroom hc hst up,
      fun hst => tileComplete_passes hr rfl hh ⟨hf, hredo, hd, hk⟩ hroom hst up⟩,
    fun _ _ _ hr hleft hs ha hv => ⟨fun hq => solverPassEnd_goesOn hu hr hleft hs ha hv hq,
      fun _ _ hq => solverPassEnd_preempts hu hr hleft hs ha hv hq⟩⟩

section
/-! What the waiting MERGE commands leave of the Root Solvers and of the units (R314, R324, R344). -/

namespace Sys2Proof.Machine

/-! ### Solvers and units -/

/-- The Root Solvers and the units of a chip. -/
def Chip.solving (c : Chip) : List (Nat × SolverS) × List (Nat × UnitS) := (c.solvers, c.units)

/-- From c to d the Root Solvers and the units stay, and every register but the listed ones. -/
structure Chip.solverKept (l : List Reg) (c d : Chip) : Prop where
  solving : d.solving = c.solving
  regs : c.regsBut d l

section
variable {l : List Reg} {c d e : Chip}

theorem Chip.solverKept_refl (l : List Reg) (c : Chip) : Chip.solverKept l c c := ⟨rfl, c.regsBut_refl l⟩

theorem Chip.solverKept.trans (h : Chip.solverKept l c d) (h' : Chip.solverKept l d e) : Chip.solverKept l c e :=
  ⟨h'.solving.trans h.solving, h.regs.trans h'.regs⟩

theorem Chip.solverKept.mono (h : Chip.solverKept l c d) {l' : List Reg} (hl : ∀ r ∈ l, r ∈ l') : Chip.solverKept l' c d :=
  ⟨h.solving, h.regs.mono hl⟩

theorem Chip.solverKept.ite {p : Prop} [Decidable p] (hd : Chip.solverKept l c d) (he : Chip.solverKept l c e) :
    Chip.solverKept l c (if p then d else e) := by
  split
  · exact hd
  · exact he

theorem Chip.solverKept_of_regs (l : List Reg) (h : d.solving = c.solving) (hr : d.regs = c.regs) : Chip.solverKept l c d :=
  ⟨h, Chip.regsBut_of_regs hr l⟩

theorem Chip.solverKept_put (c : Chip) (f : Fld) (i v j : Nat) : Chip.solverKept [f.reg] c (c.put f i v j) := ⟨rfl, c.regsBut_put f i v j⟩

theorem Chip.solverKept.put (h : Chip.solverKept l c d) (f : Fld) (i v j : Nat) (hf : f.reg ∈ l) : Chip.solverKept l c (d.put f i v j) :=
  h.trans ((d.solverKept_put f i v j).mono (by simpa using hf))

theorem Chip.solverKept.set1 (h : Chip.solverKept l c d) (f : Fld) (i j : Nat) (hf : f.reg ∈ l) : Chip.solverKept l c (d.set1 f i j) :=
  h.put f i 1 j hf

theorem Chip.solverKept.inc (h : Chip.solverKept l c d) (f : Fld) (i n j : Nat) (hf : f.reg ∈ l) : Chip.solverKept l c (d.inc f i n j) :=
  h.put f i _ j hf

theorem Chip.solverKept_meter (l : List Reg) (c : Chip) (p i n : Nat) : Chip.solverKept l c (c.meter p i n) :=
  Chip.solverKept_of_regs l (congrArg₂ Prod.mk (c.meter_solvers p i n) (c.meter_units p i n)) (c.meter_regs p i n)

theorem foldl_solverKept {β : Type} {f : Chip → β → Chip} (h : ∀ c x, Chip.solverKept l c (f c x)) (xs : List β) :
    ∀ c, Chip.solverKept l c (xs.foldl f c) := by
  induction xs with
  | nil => exact fun c => c.solverKept_refl l
  | cons x xs ih => exact fun c => (h c x).trans (ih _)

theorem Chip.solverKept.solver (h : Chip.solverKept l c d) (r : Nat) : d.solver r = c.solver r :=
  congrArg (fun x : List (Nat × SolverS) × List (Nat × UnitS) => sget ({} : SolverS) x.1 r) h.solving

theorem Chip.solverKept.unit (h : Chip.solverKept l c d) (u : Nat) : d.unit u = c.unit u :=
  congrArg (fun x : List (Nat × SolverS) × List (Nat × UnitS) => sget ({} : UnitS) x.2 u) h.solving

theorem Chip.queueOnly.solverKept (h : c.queueOnly d) : Chip.solverKept qpRegs c d := ⟨(congrArg Chip.solving h.1 :), h.2⟩

theorem Chip.faultOnly.solverKept (h : c.faultOnly d) : Chip.solverKept faultRegs c d := ⟨(congrArg Chip.solving h.1 :), h.2⟩

theorem Chip.cmdOnly.solverKept {cl : Nat} (h : Chip.cmdOnly cl c d) : Chip.solverKept seqRegs c d := ⟨(congrArg Chip.solving h.rest :), h.regs⟩

/-! ### Writes to the tiers (R187, R361) -/

theorem Chip.solving_putBytes (bs : List Byte) : ∀ (c : Chip) (k : Nat), (c.putBytes k bs).solving = c.solving := by
  induction bs with
  | nil => exact fun _ _ => rfl
  | cons b bs ih => exact fun c k => ih (c.putByte k b) (k + 1)

theorem Chip.solving_poisonWrite (c : Chip) (k n : Nat) (b : Bool) : (c.poisonWrite k n b).solving = c.solving := by
  unfold Chip.poisonWrite
  refine foldl_keeps Chip.solving _ (fun c i => ?_) _ _
  dsimp only
  split_ifs <;> rfl

theorem Chip.cref_solving (c : Chip) (x : Nat) : ({ c with cref := x } : Chip).solving = c.solving := rfl

theorem Chip.solving_put (c : Chip) (f : Fld) (i v j : Nat) : (c.put f i v j).solving = c.solving := rfl

theorem Chip.solving_touch (c : Chip) (k : Nat) : (c.touch k).solving = c.solving := by
  unfold Chip.touch
  split
  · rfl
  · split
    · exact c.solving_put _ _ _ _
    · exact c.cref_solving _

theorem Chip.solverKept_write (c : Chip) (k : Nat) (bs : List Byte) (b : Bool) : Chip.solverKept [.PWR_STAT] c (c.write k bs b) := by
  refine ⟨?_, c.regsBut_write k bs b⟩
  rw [Chip.write, Chip.solving_touch, Chip.solving_poisonWrite, Chip.solving_putBytes]

/-- The registers that a write of an engine to a tier may change. -/
def tierRegs : List Reg := [.PWR_STAT, .CEL_UPD_STICKY] ++ faultRegs

theorem Chip.solverKept_writeGranules (p : Nat) (b : Bool) (ks : List Nat) : ∀ (c : Chip) (bs : List Byte),
    Chip.solverKept tierRegs c (c.writeGranules p ks bs b) := by
  induction ks with
  | nil => exact fun c _ => c.solverKept_refl _
  | cons k ks ih =>
    exact fun c bs => (((c.solverKept_write k (bs.take 64) b).mono (by decide)).trans (Chip.solverKept_meter _ _ _ _ _)).trans (ih _ _)

theorem Chip.solverKept_tierWrite (c : Chip) (p a : Nat) (bs : List Byte) (b : Bool) : Chip.solverKept tierRegs c (c.tierWrite p a bs b) := by
  unfold Chip.tierWrite
  split
  · exact Chip.solverKept_writeGranules _ _ _ _ _
  · exact c.solverKept_refl _

theorem Chip.solverKept_ctrlFault (c : Chip) (p : Nat) (x : FaultSpec) : Chip.solverKept faultRegs c (c.ctrlFault [p] x) := by
  rw [Chip.ctrlFault_one]
  exact (c.faultOnly_postFault x).solverKept.trans (Chip.solverKept_of_regs _ rfl rfl)

theorem Chip.solverKept_blockedWrite (c : Chip) (p writer addr : Nat) : Chip.solverKept tierRegs c (c.blockedWrite p writer addr) := by
  have hf : ∀ d x, Chip.solverKept tierRegs d (d.ctrlFault [p] x) := fun d x => (d.solverKept_ctrlFault p x).mono (by decide)
  unfold Chip.blockedWrite
  dsimp only
  split
  · exact ((c.solverKept_refl _).set1 .CEL_UPD_STICKY_BLOCKED p 0 (by decide)).trans (hf _ _)
  · exact hf _ _

theorem Chip.solverKept_tierWriteBy (c : Chip) (p writer a : Nat) (bs : List Byte) (b : Bool) :
    Chip.solverKept tierRegs c (c.tierWriteBy p writer a bs b) := by
  unfold Chip.tierWriteBy
  split
  · exact c.solverKept_blockedWrite _ _ _
  · exact c.solverKept_tierWrite _ _ _ _

/-! ### MERGE (R314, R344) -/

/-- The registers that a MERGE may change. -/
def mergeRegs : List Reg := [.SEAL_STAT, .PRS_STICKY, .PRS_CNT, .CLU_SEQ_CNT, .CLU_SEQ_STICKY, .HUB_STEP] ++ tierRegs

theorem Chip.solverKept_meterReads (l : List Reg) (c : Chip) (p a n : Nat) : Chip.solverKept l c (c.meterReads p a n) :=
  foldl_solverKept (fun c _ => .ite (c.solverKept_refl l) (c.solverKept_meter l _ _ _)) _ c

theorem Chip.solverKept_consumePoison (c : Chip) (p blk tag : Nat) (pl : Place) (loc lk : Nat) :
    Chip.solverKept faultRegs c (c.consumePoison p blk tag pl loc lk) :=
  Chip.solverKept.trans (d := c.setStep p { c.stepS p with poison := true, killed := true })
    (Chip.solverKept_of_regs _ rfl rfl) (c.consumePoison_only p blk tag pl loc lk).solverKept

theorem Chip.solverKept_pressEnd (c : Chip) (cl id st count entry extra : Nat) (m : Part) :
    Chip.solverKept mergeRegs c (c.pressEnd cl id st count entry extra m) := by
  unfold Chip.pressEnd
  dsimp only
  refine Chip.solverKept.trans ?_ ((Chip.cmdOnly_endCmd _ _ _ _).solverKept.mono (by decide))
  exact .ite ((c.solverKept_refl _).set1 .PRS_STICKY_BAD_DESC cl 0 (by decide)) (c.solverKept_refl _)

theorem Chip.solverKept_setPress (l : List Reg) (c : Chip) (cl : Nat) (x : PressS) : Chip.solverKept l c (c.setPress cl x) :=
  Chip.solverKept_of_regs l rfl rfl

theorem Chip.solverKept_doMerge (c : Chip) (cl id : Nat) (w : List Word) : Chip.solverKept mergeRegs c (c.doMerge cl id w) := by
  have reads : ∀ d p a n, Chip.solverKept mergeRegs d (d.meterReads p a n) := fun d p a n => d.solverKept_meterReads _ p a n
  have writes : ∀ d p a bs b, Chip.solverKept mergeRegs d (d.tierWriteBy p 5 a bs b) := fun d p a bs b =>
    (d.solverKept_tierWriteBy p 5 a bs b).mono (by decide)
  unfold Chip.doMerge
  extract_lets p pl w6 tf cnt dim src par vis alt beta omb sums olds carry c1 c2
  have h1 : Chip.solverKept mergeRegs c c1 := (reads _ _ _ _).trans (reads _ _ _ _)
  have h2 : Chip.solverKept mergeRegs c c2 := .ite ((h1.trans (reads _ _ _ _)).trans (reads _ _ _ _)) h1
  split
  extract_lets m poison news bad kept tiles c3 c4 c5 c6 c7 c8 c9
  have h3 : Chip.solverKept mergeRegs c c3 := h2.trans (foldl_solverKept (fun d k => writes d p _ _ _) _ c2)
  have h4 : Chip.solverKept mergeRegs c c4 := .ite h3 (h3.trans (writes _ _ _ _ _))
  have h5 : Chip.solverKept mergeRegs c c5 := h4.put .SEAL_STAT_OLD_INTACT p 0 0 (by decide)
  have h6 : Chip.solverKept mergeRegs c c6 :=
    .ite ((h5.set1 .PRS_STICKY_POISON cl 0 (by decide)).trans ((Chip.solverKept_consumePoison _ _ _ _ _ _ _).mono (by decide))) h5
  have h7 : Chip.solverKept mergeRegs c c7 :=
    .ite ((h6.inc .PRS_CNT_COUNT cl 1 2 (by decide)).set1 .PRS_STICKY_NFSKIP cl 0 (by decide)) h6
  have h8 : Chip.solverKept mergeRegs c c8 := by
    refine .ite ?_ h7
    split
    · exact h7.trans (Chip.solverKept_setPress _ _ _ _)
    · exact h7
  exact (h8.inc .PRS_CNT_COUNT cl 1 4 (by decide)).trans (Chip.solverKept_pressEnd _ _ _ _ _ _ _ _)

theorem Chip.solverKept_mergeWakeOf (c : Chip) (cl : Nat) : Chip.solverKept mergeRegs c (c.mergeWakeOf cl) :=
  foldl_solverKept (fun d _ => .ite (d.solverKept_refl _)
    ((d.solverKept_setPress _ _ _).trans (Chip.solverKept_doMerge _ _ _ _))) _ c

/-- The MERGE commands carried out leave the Solvers and the units alone. -/
theorem Chip.solverKept_mergeWake (c : Chip) : Chip.solverKept mergeRegs c c.mergeWake := by
  unfold Chip.mergeWake
  refine foldl_solverKept (fun d x => ?_) c.press c
  have h := d.solverKept_mergeWakeOf x.1
  exact h

theorem Chip.solver_mergeWake (c : Chip) (r : Nat) : c.mergeWake.solver r = c.solver r := c.solverKept_mergeWake.solver r

theorem Chip.unit_mergeWake (c : Chip) (u : Nat) : c.mergeWake.unit u = c.unit u := c.solverKept_mergeWake.unit u

theorem Chip.g_mergeWake (c : Chip) (f : Fld) (i j : Nat) (hf : f.reg ∉ mergeRegs) : c.mergeWake.g f i j = c.g f i j :=
  c.solverKept_mergeWake.regs.g f i j hf

end

end Sys2Proof.Machine
end

section
/-! The slots of a Root Solver, and the end of a solve: its status in its slot and its completion recorded (R335, R340, R350, R351). -/

namespace Sys2Proof.Machine

/-! ### Slots -/

theorem Chip.solver_setSolver_same (c : Chip) (r : Nat) (x : SolverS) : (c.setSolver r x).solver r = x := sget_sset_same _ _ _ _

theorem SolverS.mem_of_find {x : SolverS} {k : Nat} {v : Solve} (h : x.find k = some v) : v ∈ x.slots ∧ v.ticket = k :=
  ⟨List.mem_of_find?_eq_some h, by simpa using List.find?_some h⟩

theorem Chip.solver_setSolve (c : Chip) (r : Nat) (s : Solve) : (c.setSolve r s).solver r =
    { c.solver r with slots := (c.solver r).slots.map (fun o => if o.ticket = s.ticket then s else o) } := c.solver_setSolver_same r _

theorem Chip.solver_dropSolve (c : Chip) (r k : Nat) : (c.dropSolve r k).solver r =
    { c.solver r with slots := (c.solver r).slots.filter (fun o => o.ticket != k) } := c.solver_setSolver_same r _

/-- A solve replaced is found by its ticket. -/
theorem Chip.find_setSolve {c : Chip} {r : Nat} {s : Solve} (h : ∃ o ∈ (c.solver r).slots, o.ticket = s.ticket) :
    ((c.setSolve r s).solver r).find s.ticket = some s := by
  obtain ⟨o, ho, hk⟩ := h
  rw [Chip.solver_setSolve, SolverS.find]
  dsimp only
  generalize (c.solver r).slots = l at ho
  induction l with
  | nil => cases ho
  | cons a l ih =>
    rw [List.map_cons, List.find?_cons]
    by_cases ha : a.ticket = s.ticket
    · simp [ha]
    · have hmem : o ∈ l := by
        rcases List.mem_cons.mp ho with rfl | ho
        · exact absurd hk ha
        · exact ho
      simp only [if_neg ha, beq_eq_false_iff_ne.mpr ha]
      exact ih hmem

theorem Chip.find_dropSolve (c : Chip) (r k : Nat) : ((c.dropSolve r k).solver r).find k = none := by
  rw [Chip.solver_dropSolve, SolverS.find, List.find?_eq_none]
  intro o ho
  have := (List.mem_filter.mp ho).2
  simpa using this

theorem Chip.mem_setSolve {c : Chip} {r : Nat} {s o : Solve} (h : o ∈ ((c.setSolve r s).solver r).slots) :
    o = s ∨ (o ∈ (c.solver r).slots ∧ o.ticket ≠ s.ticket) := by
  rw [Chip.solver_setSolve] at h
  obtain ⟨a, ha, rfl⟩ := List.mem_map.mp h
  by_cases hk : a.ticket = s.ticket
  · exact .inl (if_pos hk)
  · rw [if_neg hk]; exact .inr ⟨ha, hk⟩

theorem Chip.mem_dropSolve {c : Chip} {r k : Nat} {o : Solve} (h : o ∈ ((c.dropSolve r k).solver r).slots) :
    o ∈ (c.solver r).slots ∧ o.ticket ≠ k := by
  rw [Chip.solver_dropSolve] at h
  obtain ⟨h1, h2⟩ := List.mem_filter.mp h
  exact ⟨h1, by simpa using h2⟩

/-! ### A completion recorded (R340, R351) -/

theorem Chip.dropDone_cases (c : Chip) (r : Nat) : c.dropDone r = c ∨ c.dropDone r = c.put .SOLV_CMD_DROP r 0 := by
  unfold Chip.dropDone
  dsimp only
  split
  · exact .inl rfl
  · exact .inr rfl

theorem Chip.solverKept_dropDone (c : Chip) (r : Nat) : Chip.solverKept [.SOLV_CMD] c (c.dropDone r) := by
  rcases c.dropDone_cases r with h | h <;> rw [h]
  · exact c.solverKept_refl _
  · exact c.solverKept_put .SOLV_CMD_DROP r 0 0

/-- The sticky bit of a status leaves the one of a failed test alone (R350). -/
theorem Chip.solveSticky_spec (c : Chip) (r st : Nat) :
    Chip.solverKept [.SOLV_STICKY] c (c.solveSticky r st) ∧ (c.solveSticky r st).noRegs = c.noRegs ∧
    (c.solveSticky r st).g .SOLV_STICKY_CHK r = c.g .SOLV_STICKY_CHK r := by
  have mark : ∀ f : Fld, f.reg = .SOLV_STICKY → f.ok → (Fld.SOLV_STICKY_CHK.hi < f.lo ∨ f.hi < Fld.SOLV_STICKY_CHK.lo) →
      Chip.solverKept [.SOLV_STICKY] c (c.set1 f r) ∧ (c.set1 f r).noRegs = c.noRegs ∧
      (c.set1 f r).g .SOLV_STICKY_CHK r = c.g .SOLV_STICKY_CHK r := fun f hr hf ha =>
    ⟨(c.solverKept_put f r 1 0).mono (by simp [hr]), rfl, c.g_put_apart f _ _ _ _ hf ⟨by decide, by decide⟩ hr.symm ha⟩
  unfold Chip.solveSticky
  split
  · exact mark _ rfl ⟨by decide, by decide⟩ (by decide)
  · exact mark _ rfl ⟨by decide, by decide⟩ (by decide)
  · exact mark _ rfl ⟨by decide, by decide⟩ (by decide)
  · exact mark _ rfl ⟨by decide, by decide⟩ (by decide)
  · exact ⟨c.solverKept_refl _, rfl, rfl⟩

/-- A completion entered in the Solver's registers (R340). -/
def Chip.solveCounted (c : Chip) (r : Nat) (s : Solve) : Chip :=
  let d := (c.solveSticky r s.status).inc .SOLV_CNT_COUNT r 1 0
  (d.setSolver r { d.solver r with recent := (d.solver r).recent.map (fun y => if y.1 = s.ticket then (y.1, true) else y) }).put
    .SOLV_TICKET_LAST_DONE r s.ticket

/-- A solve whose completion is recorded leaves its slot, unless it installs (R343). -/
def Chip.leavesSlot (c : Chip) (r : Nat) (s : Solve) : Chip :=
  if svInstall s.words && svDim s.words != 0 then c.setSolve r { s with stage := .recorded } else c.dropSolve r s.ticket

/-- A completion whose record stands in the result queue (R340, R351). -/
def Chip.recorded (c : Chip) (r : Nat) (s : Solve) : Chip := ((c.solveCounted r s).leavesSlot r s).dropDone r

theorem Chip.slots_solveCounted (c : Chip) (r : Nat) (s : Solve) : ((c.solveCounted r s).solver r).slots = (c.solver r).slots := by
  obtain ⟨h, -, -⟩ := c.solveSticky_spec r s.status
  unfold Chip.solveCounted
  rw [Chip.solver, Chip.put_solvers]
  refine (congrArg SolverS.slots (Chip.solver_setSolver_same _ r _)).trans ?_
  exact (congrArg SolverS.slots (h.solver r) :)

/-- The registers that a completion recorded may change. -/
def recordRegs : List Reg := [.SOLV_STICKY, .SOLV_CNT, .SOLV_TICKET, .SOLV_CMD]

/-- From c to d nothing changed but the Solvers, and registers of completions; a failed test stays marked. -/
structure Chip.recordOnly (r : Nat) (c d : Chip) : Prop where
  rest : d.noRegs = ({ c with solvers := d.solvers } : Chip).noRegs
  regs : c.regsBut d recordRegs
  chk : d.g .SOLV_STICKY_CHK r = c.g .SOLV_STICKY_CHK r

theorem Chip.recordOnly.trans {r : Nat} {c d e : Chip} (h : Chip.recordOnly r c d) (h' : Chip.recordOnly r d e) : Chip.recordOnly r c e :=
  ⟨h'.rest.trans (congrArg (fun x : Chip => { x with solvers := e.solvers }) h.rest), h.regs.trans h'.regs, h'.chk.trans h.chk⟩

theorem Chip.recordOnly_setSolver (r : Nat) (c : Chip) (x : SolverS) : Chip.recordOnly r c (c.setSolver r x) :=
  ⟨rfl, Chip.regsBut_of_regs rfl _, rfl⟩

theorem Chip.recordOnly_put (r : Nat) (c : Chip) (f : Fld) (v j : Nat) (hf : f.reg ∈ recordRegs) (hn : f.reg ≠ .SOLV_STICKY) :
    Chip.recordOnly r c (c.put f r v j) :=
  ⟨rfl, (c.regsBut_put f r v j).mono (by simpa using hf), c.g_put_reg _ _ _ _ _ _ _ hn.symm⟩

theorem Chip.recordOnly_solveCounted (c : Chip) (r : Nat) (s : Solve) : Chip.recordOnly r c (c.solveCounted r s) := by
  obtain ⟨h, hrest, hchk⟩ := c.solveSticky_spec r s.status
  have h1 : Chip.recordOnly r c (c.solveSticky r s.status) :=
    ⟨hrest.trans (congrArg (fun x => ({ c with solvers := x } : Chip).noRegs) (congrArg Prod.fst h.solving).symm), h.regs.mono (by decide), hchk⟩
  unfold Chip.solveCounted
  exact ((h1.trans (Chip.recordOnly_put r _ .SOLV_CNT_COUNT _ 0 (by decide) (by decide))).trans (Chip.recordOnly_setSolver r _ _)).trans
    (Chip.recordOnly_put r _ .SOLV_TICKET_LAST_DONE _ 0 (by decide) (by decide))

theorem Chip.recordOnly_leavesSlot (c : Chip) (r : Nat) (s : Solve) : Chip.recordOnly r c (c.leavesSlot r s) := by
  unfold Chip.leavesSlot
  split
  · exact Chip.recordOnly_setSolver r c _
  · exact Chip.recordOnly_setSolver r c _

theorem Chip.recordOnly_recorded (c : Chip) (r : Nat) (s : Solve) : Chip.recordOnly r c (c.recorded r s) := by
  refine ((c.recordOnly_solveCounted r s).trans (Chip.recordOnly_leavesSlot _ r s)).trans ?_
  unfold Chip.recorded
  rcases Chip.dropDone_cases ((c.solveCounted r s).leavesSlot r s) r with h | h <;> rw [h]
  · exact ⟨rfl, Chip.regsBut_refl _ _, rfl⟩
  · exact Chip.recordOnly_put r _ .SOLV_CMD_DROP 0 0 (by decide) (by decide)

/-- What a completion recorded shows: it is counted, and LAST_DONE is its ticket. -/
theorem Chip.g_recorded (c : Chip) (r : Nat) (s : Solve) :
    (c.recorded r s).g .SOLV_CNT_COUNT r 0 = (c.g .SOLV_CNT_COUNT r 0 + 1) % 2 ^ 64 ∧
    (c.recorded r s).g .SOLV_TICKET_LAST_DONE r = s.ticket % 4096 := by
  obtain ⟨h, -, -⟩ := c.solveSticky_spec r s.status
  have hleave : ∀ f : Fld, f.reg ≠ .SOLV_CMD → (c.recorded r s).g f r = (c.solveCounted r s).g f r := fun f hf => by
    rw [Chip.recorded, (Chip.solverKept_dropDone _ r).regs.g _ _ _ (by simpa using hf)]
    unfold Chip.leavesSlot
    split <;> rfl
  rw [hleave _ (by decide), hleave _ (by decide)]
  unfold Chip.solveCounted
  constructor
  · rw [Chip.g_put_reg _ _ _ _ _ _ _ _ (by decide)]
    refine (Chip.g_inc_same _ .SOLV_CNT_COUNT r 1 0 ⟨by decide, by decide⟩).trans ?_
    exact congrArg (fun n => (n + 1) % 2 ^ 64) (h.regs.g .SOLV_CNT_COUNT r 0 (by decide))
  · exact Chip.g_put_same _ .SOLV_TICKET_LAST_DONE r _ 0 ⟨by decide, by decide⟩

theorem Chip.slots_recorded (c : Chip) (r : Nat) (s : Solve) :
    ((c.recorded r s).solver r).slots = (((c.solveCounted r s).leavesSlot r s).solver r).slots :=
  congrArg SolverS.slots ((Chip.solverKept_dropDone _ r).solver r)

/-- A completion recorded takes the solve out of its slot, unless it installs: then it stands there as recorded. -/
theorem Chip.find_recorded {c : Chip} {r : Nat} {s : Solve} (h : ∃ o ∈ (c.solver r).slots, o.ticket = s.ticket) :
    if svInstall s.words = true ∧ svDim s.words ≠ 0
    then ((c.recorded r s).solver r).find s.ticket = some { s with stage := .recorded }
    else ((c.recorded r s).solver r).find s.ticket = none := by
  have hfind : ((c.recorded r s).solver r).find s.ticket = (((c.solveCounted r s).leavesSlot r s).solver r).find s.ticket :=
    congrArg (List.find? _) (c.slots_recorded r s)
  rw [hfind, Chip.leavesSlot]
  by_cases hi : svInstall s.words = true ∧ svDim s.words ≠ 0
  · rw [if_pos hi, if_pos (by simpa using hi)]
    exact Chip.find_setSolve (s := { s with stage := .recorded }) (by rw [Chip.slots_solveCounted]; exact h)
  · rw [if_neg hi, if_neg (by simpa using hi)]
    exact Chip.find_dropSolve _ _ _

theorem Chip.mem_recorded {c : Chip} {r : Nat} {s o : Solve} (h : o ∈ ((c.recorded r s).solver r).slots) :
    o.stage = .recorded ∨ (o ∈ (c.solver r).slots ∧ o.ticket ≠ s.ticket) := by
  rw [Chip.slots_recorded, Chip.leavesSlot] at h
  split at h
  · rcases Chip.mem_setSolve h with rfl | h
    · exact .inl rfl
    · rw [Chip.slots_solveCounted] at h; exact .inr h
  · have h := Chip.mem_dropSolve h
    rw [Chip.slots_solveCounted] at h; exact .inr h

/-! ### An ended solve that writes no output (R335, R340, R343) -/

theorem Chip.record_cutOpen {c : Chip} {r : Nat} (h : c.cutOpen (c.solvPart r) = true) (s : Solve) : c.record r s = c := if_pos h

/-- The time a record of a completion shows as its start: an unstarted solve shows a free value (R340). -/
def Chip.startTime (c : Chip) (s : Solve) : Nat × Chip := match s.started with | some t => (t, c) | none => c.free 64

theorem Chip.record_plain {c : Chip} {r : Nat} {s : Solve} (h : c.cutOpen (c.solvPart r) = false) (hw : writesOut s.status = false) :
    c.record r s = match (c.startTime s).2.postResult r (svScq s.words) (resultWords r s s.res false (c.startTime s).1 c.now) with
      | none => c
      | some d => d.recorded r s := by
  unfold Chip.record
  rw [if_neg (by simp [h]), hw]
  rfl

theorem Chip.startTime_solving (c : Chip) (s : Solve) : (c.startTime s).2.solving = c.solving ∧ (c.startTime s).2.regs = c.regs := by
  unfold Chip.startTime
  split <;> exact ⟨rfl, rfl⟩

/-- What a result posted changes: the queue pool, and CQ_ERR of a Solver whose queue is disabled. -/
theorem Chip.postResult_some {c d : Chip} {r q : Nat} {ws : List Word} (h : c.postResult r q ws = some d) :
    Chip.solverKept (.SOLV_STICKY :: qpRegs) c d ∧ d.g .SOLV_STICKY_CHK r = c.g .SOLV_STICKY_CHK r := by
  unfold Chip.postResult at h
  split at h
  · next e he =>
    cases h
    have hq := (Chip.post_linked he).1
    exact ⟨hq.solverKept.mono (by decide), hq.2.g _ _ _ (by decide)⟩
  · next e he =>
    rw [← Option.some.inj h]
    have hq := Chip.post_closed he
    refine ⟨(hq.solverKept.mono (by decide)).set1 .SOLV_STICKY_CQ_ERR r 0 (by decide), ?_⟩
    exact (e.g_put_apart .SOLV_STICKY_CQ_ERR .SOLV_STICKY_CHK r 1 0 ⟨by decide, by decide⟩ ⟨by decide, by decide⟩ rfl (by decide)).trans
      (hq.2.g .SOLV_STICKY_CHK r 0 (by decide))
  · cases h

/-- An end that writes nothing stays in its slot, or its completion is recorded after its result was posted. -/
theorem Chip.record_cases {c : Chip} {r : Nat} {s : Solve} (hw : writesOut s.status = false) :
    c.record r s = c ∨ ∃ d, Chip.solverKept (.SOLV_STICKY :: qpRegs) c d ∧ d.g .SOLV_STICKY_CHK r = c.g .SOLV_STICKY_CHK r ∧
      c.record r s = d.recorded r s := by
  cases hc : c.cutOpen (c.solvPart r) with
  | true => exact .inl (Chip.record_cutOpen hc s)
  | false =>
    rw [Chip.record_plain hc hw]
    obtain ⟨hs, hr⟩ := c.startTime_solving s
    split
    · exact .inl rfl
    · next d hd =>
      obtain ⟨hk, hchk⟩ := Chip.postResult_some hd
      refine .inr ⟨d, (Chip.solverKept_of_regs _ hs hr).trans hk, hchk.trans ?_, rfl⟩
      rw [Chip.g, Chip.g, Chip.rd, Chip.rd, hr]

end Sys2Proof.Machine
end

section
/-! The stages of a solve: how it ends, how it goes on, and what its stages leave alone (R329–R337, R345). -/

namespace Sys2Proof.Machine

/-! ### A solve ended (R335) -/

/-- A solve in its slot with its final status. -/
def Solve.endedWith (s : Solve) (st : Nat) : Solve :=
  { s with stage := .ended, status := st, todo := [], results := [], ends := [], load := none }

theorem Chip.endSolve_writes {st : Nat} (h : writesOut st = true) (c : Chip) (r : Nat) (s : Solve) :
    c.endSolve r s st = c.setSolve r (s.endedWith st) := if_pos h

theorem Chip.endSolve_plain {st : Nat} (h : writesOut st = false) (c : Chip) (r : Nat) (s : Solve) :
    c.endSolve r s st = (c.setSolve r (s.endedWith st)).record r (s.endedWith st) := if_neg (by simp [h])

/-- From c to d a solve of region r may have ended: the units stay, every register but those of a completion, and the mark of a failed
test. -/
structure Chip.endOnly (r : Nat) (c d : Chip) : Prop where
  units : d.units = c.units
  regs : c.regsBut d (recordRegs ++ qpRegs)
  chk : d.g .SOLV_STICKY_CHK r = c.g .SOLV_STICKY_CHK r

section
variable {r : Nat} {c d e : Chip}

theorem Chip.endOnly.trans (h : Chip.endOnly r c d) (h' : Chip.endOnly r d e) : Chip.endOnly r c e :=
  ⟨h'.units.trans h.units, h.regs.trans h'.regs, h'.chk.trans h.chk⟩

theorem Chip.recordOnly.endOnly (h : Chip.recordOnly r c d) : Chip.endOnly r c d :=
  ⟨(congrArg Chip.units h.rest :), h.regs.mono (by decide), h.chk⟩

theorem Chip.solverKept.endOnly (h : Chip.solverKept (.SOLV_STICKY :: qpRegs) c d) (hc : d.g .SOLV_STICKY_CHK r = c.g .SOLV_STICKY_CHK r) :
    Chip.endOnly r c d :=
  ⟨congrArg Prod.snd h.solving, h.regs.mono (by decide), hc⟩

theorem Chip.endOnly_setSolve (r : Nat) (c : Chip) (s : Solve) : Chip.endOnly r c (c.setSolve r s) := ⟨rfl, Chip.regsBut_of_regs rfl _, rfl⟩

theorem Chip.endOnly.unit (h : Chip.endOnly r c d) (u : Nat) : d.unit u = c.unit u := congrArg (sget ({} : UnitS) · u) h.units

theorem Chip.endOnly_record {s : Solve} (hw : writesOut s.status = false) (c : Chip) : Chip.endOnly r c (c.record r s) := by
  rcases Chip.record_cases (c := c) (r := r) hw with h | ⟨d, hd, hchk, h⟩ <;> rw [h]
  · exact ⟨rfl, c.regsBut_refl _, rfl⟩
  · exact (hd.endOnly hchk).trans (d.recordOnly_recorded r s).endOnly

theorem Chip.endOnly_endSolve (c : Chip) (r : Nat) (s : Solve) (st : Nat) : Chip.endOnly r c (c.endSolve r s st) := by
  cases h : writesOut st with
  | true => rw [Chip.endSolve_writes h]; exact c.endOnly_setSolve r _
  | false => rw [Chip.endSolve_plain h]; exact (Chip.endOnly_setSolve r c _).trans (Chip.endOnly_record h _)

/-- A solve whose end writes nothing has ended with its status, in its slot or recorded (R340). -/
theorem Chip.solveEnded_endSolve {s : Solve} {st : Nat} (h : ∃ o ∈ (c.solver r).slots, o.ticket = s.ticket) (hst : writesOut st = false) :
    c.solveEnded (c.endSolve r s st) r s.ticket st := by
  have hset : ((c.setSolve r (s.endedWith st)).solver r).find s.ticket = some (s.endedWith st) := Chip.find_setSolve (s := s.endedWith st) h
  rw [Chip.endSolve_plain hst]
  rcases Chip.record_cases (c := c.setSolve r (s.endedWith st)) (r := r) (s := s.endedWith st) hst with hr | ⟨d, hd, -, hr⟩ <;> rw [hr]
  · exact .inl ⟨_, hset, rfl, .inl rfl⟩
  · have hmem : ∃ o ∈ (d.solver r).slots, o.ticket = (s.endedWith st).ticket := by
      rw [hd.solver r]
      exact ⟨_, SolverS.mem_of_find hset⟩
    have hfind := Chip.find_recorded hmem
    split at hfind
    · exact .inl ⟨_, hfind, rfl, .inr rfl⟩
    · refine .inr ⟨hfind, (d.g_recorded r _).1.trans (congrArg (fun n => (n + 1) % 2 ^ 64) ?_)⟩
      exact hd.regs.g .SOLV_CNT_COUNT r 0 (by decide)

/-- A solve's end seen from a chip with the same count of completions. -/
theorem Chip.solveEnded.of_count {k st : Nat} (h : d.solveEnded e r k st) (hc : d.g .SOLV_CNT_COUNT r 0 = c.g .SOLV_CNT_COUNT r 0) :
    c.solveEnded e r k st := by
  unfold Chip.solveEnded at h ⊢
  rwa [hc] at h

theorem Chip.solveEnded.mergeWake {k st : Nat} (h : c.solveEnded d r k st) : c.solveEnded d.mergeWake r k st := by
  unfold Chip.solveEnded at h ⊢
  rwa [Chip.solver_mergeWake, Chip.g_mergeWake _ _ _ _ (by decide)]

end

/-! ### A solve that goes on (R329, R333, R337) -/

/-- Of the one solve v is what its stage has made of it: its ticket, descriptor, start, iteration and count of operations stay. -/
structure Solve.sameWork (s v : Solve) : Prop where
  ticket : v.ticket = s.ticket
  words : v.words = s.words
  started : v.started = s.started
  k : v.k = s.k
  macs : v.macs = s.macs

theorem Solve.deal_spec (s : Solve) : s.sameWork s.deal ∧ s.deal.stage = s.stage := by
  unfold Solve.deal
  split <;> exact ⟨⟨rfl, rfl, rfl, rfl, rfl⟩, rfl⟩

theorem Solve.advance_spec (s : Solve) : s.sameWork s.advance ∧ s.advance.stage = s.stage := by
  unfold Solve.advance
  split
  · exact ⟨⟨rfl, rfl, rfl, rfl, rfl⟩, rfl⟩
  · split
    · exact ⟨⟨(Solve.deal_spec _).1.ticket, (Solve.deal_spec _).1.words, (Solve.deal_spec _).1.started, (Solve.deal_spec _).1.k,
        (Solve.deal_spec _).1.macs⟩, (Solve.deal_spec _).2⟩
    · exact s.deal_spec

/-- A solve that goes on stays in its stage, or a failing pivot ends it ILL_POSED (R337). -/
theorem Chip.goOn_spec (c : Chip) (r : Nat) (s : Solve) : ∃ v, c.goOn r s = c.setSolve r v ∧ s.sameWork v ∧
    (v.stage = s.stage ∨ (v.stage = .ended ∧ v.status = 4)) := by
  obtain ⟨hs, hstage⟩ := s.advance_spec
  unfold Chip.goOn
  dsimp only
  split
  · split
    · exact ⟨s.advance.endedWith 4, Chip.endSolve_writes rfl _ _ _, ⟨hs.ticket, hs.words, hs.started, hs.k, hs.macs⟩, .inr ⟨rfl, rfl⟩⟩
    · exact ⟨_, rfl, hs, .inl hstage⟩
  · exact ⟨_, rfl, hs, .inl hstage⟩

/-- The final statuses that a residual gives (R335, R337). -/
theorem Solve.verdict_cases {s : Solve} {b : Bool} {st : Nat} (h : s.verdict b = some st) : st = 0 ∨ st = 3 ∨ st = 4 := by
  unfold Solve.verdict at h
  dsimp only at h
  split_ifs at h <;> cases h <;> simp

theorem Chip.judge_spec (c : Chip) (r : Nat) (s : Solve) (b : Bool) : ∃ v, c.judge r s b = c.setSolve r v ∧ s.sameWork v ∧
    (v.stage = .iterating ∨ (v.stage = .ended ∧ (v.status = 0 ∨ v.status = 3 ∨ v.status = 4))) := by
  unfold Chip.judge
  split
  · next st h =>
    have hst := Solve.verdict_cases h
    have hw : writesOut st = true := by rcases hst with rfl | rfl | rfl <;> rfl
    exact ⟨s.endedWith st, Chip.endSolve_writes hw _ _ _, ⟨rfl, rfl, rfl, rfl, rfl⟩, .inr ⟨rfl, hst⟩⟩
  · obtain ⟨v, hv, hs, hstage⟩ := c.goOn_spec r { s with stage := .iterating, results := [], ends := [], load := none }
    refine ⟨v, hv, ⟨hs.ticket, hs.words, hs.started, hs.k, hs.macs⟩, ?_⟩
    rcases hstage with hstage | ⟨h1, h2⟩
    · exact .inl hstage
    · exact .inr ⟨h1, .inr (.inr h2)⟩

/-! ### The work of a stage (R345) -/

theorem Chip.workTraffic_kept (c : Chip) (p : Nat) : (c.workTraffic p).solving = c.solving ∧ (c.workTraffic p).regs = c.regs := by
  unfold Chip.workTraffic
  constructor
  · refine foldl_keeps Chip.solving _ (fun d i => ?_) _ c
    rfl
  · refine foldl_keeps Chip.regs _ (fun d i => ?_) _ c
    exact Chip.meter_regs _ _ _ _

theorem Chip.fillWork_kept (c : Chip) (p : Nat) (w : List Word) : (c.fillWork p w).solving = c.solving ∧ (c.fillWork p w).regs = c.regs := by
  unfold Chip.fillWork
  constructor
  · refine foldl_keeps Chip.solving _ (fun d i => ?_) _ c
    dsimp only
    split
    · rw [Chip.solving_putBytes]; rfl
    · rfl
  · refine foldl_keeps Chip.regs _ (fun d i => ?_) _ c
    dsimp only
    split
    · rw [Chip.putBytes_regs]; rfl
    · rfl

/-- A stage counts its operations and leaves the Solvers, the units and every other register alone. -/
theorem Chip.stageWork_spec (c : Chip) (r : Nat) (w : List Word) :
    (c.stageWork r w).solving = c.solving ∧ ∃ n, (c.stageWork r w).regs = (c.inc .SOLV_CNT_COUNT r n 6).regs := by
  obtain ⟨h1, h2⟩ := ((c.countFp64 r).workTraffic (c.solvPart r)).fillWork_kept (c.solvPart r) w
  obtain ⟨h3, h4⟩ := (c.countFp64 r).workTraffic_kept (c.solvPart r)
  refine ⟨h1.trans (h3.trans rfl), (c.free 48).1, h2.trans (h4.trans ?_)⟩
  rfl

end Sys2Proof.Machine
end

section
/-! The instructions of a solve's course: its stages' ends, its deadline, its completion (R329–R337, R340, R343). -/

namespace Sys2Proof.Machine

/-! ### Instructions after which the waiting MERGE commands go on (R344) -/

theorem nextChip_wakes {s : State} {f g : Chip → Chip} (h : f s.chip = g s.chip) :
    nextChip s (Chip.mergeWake ∘ f) = .next (s.onChip (fun c => (g c).mergeWake)) := nextChip_eq (congrArg Chip.mergeWake h)

theorem nextChip_quiet {s : State} {f : Chip → Chip} (h : f s.chip = s.chip) (hq : ∀ y ∈ s.chip.press, (s.chip.pressOf y.1).mwait = []) :
    nextChip s (Chip.mergeWake ∘ f) = .next s := nextChip_same ((congrArg Chip.mergeWake h).trans (Chip.mergeWake_idle hq))

section
variable {s : State} {r k : Nat} {v : Solve}

/-! ### SOLVE_SETUP_END (R329–R333) -/

theorem Solve.idle_outcome (h : v.idle = true) : ∃ x m, v.outcome = some (x, m) := by
  obtain ⟨y, hy⟩ := Option.isSome_iff_exists.mp h
  exact ⟨y.1, y.2, hy⟩

/-- A solve replaced, after work that leaves the Solvers alone. -/
theorem Chip.find_setSolve_kept {c d : Chip} {v' : Solve} (hf : (c.solver r).find k = some v) (hd : d.solver r = c.solver r)
    (hv : v'.ticket = v.ticket) : ((d.setSolve r v').solver r).find k = some v' := by
  obtain ⟨hmem, hk⟩ := SolverS.mem_of_find hf
  rw [← hk, ← hv]
  exact Chip.find_setSolve ⟨v, by rw [hd]; exact hmem, hv.symm⟩

theorem Chip.solver_stageWork (c : Chip) (r : Nat) (w : List Word) (i : Nat) : (c.stageWork r w).solver i = c.solver i :=
  congrArg (fun x : List (Nat × SolverS) × List (Nat × UnitS) => sget ({} : SolverS) x.1 i) (c.stageWork_spec r w).1

theorem Chip.solver_warmRejected (c : Chip) (r i : Nat) : (c.warmRejected r).solver i = c.solver i := rfl

theorem exec_solveSetupEnd_judges (hf : (s.chip.solver r).find k = some v) (hst : v.stage = .setup) (hi : v.idle = true) :
    ∃ (d : Chip) (v1 : Solve), exec (.solveSetupEnd r k) s = .next (s.onChip (fun _ => (d.judge r v1 false).mergeWake)) ∧
      d.solver r = s.chip.solver r ∧ v.sameWork v1 := by
  obtain ⟨x, m, ho⟩ := Solve.idle_outcome hi
  have hjudge : ∃ (d : Chip) (v1 : Solve), (if ¬ svChol v.words ∧ v.warm ∧ ((resid (svDim v.words) m).isNan ∨ leV .one (resid (svDim v.words) m) ∨ ¬ Mat.fin x) then
        ((s.chip.stageWork r v.words).warmRejected r).judge r { v with
          x := (newtonCold (svDim v.words) (svPexp v.words) v.e v.a).1, m := (newtonCold (svDim v.words) (svPexp v.words) v.e v.a).2
          rho := resid (svDim v.words) (newtonCold (svDim v.words) (svPexp v.words) v.e v.a).2, warm := false, warmRej := 3 } false
      else (s.chip.stageWork r v.words).judge r { v with x := x, m := m, rho := resid (svDim v.words) m } false) = d.judge r v1 false ∧
      d.solver r = s.chip.solver r ∧ v.sameWork v1 := by
    split
    · exact ⟨_, _, rfl, (Chip.solver_warmRejected _ r r).trans (s.chip.solver_stageWork r _ r), ⟨rfl, rfl, rfl, rfl, rfl⟩⟩
    · exact ⟨_, _, rfl, s.chip.solver_stageWork r _ r, ⟨rfl, rfl, rfl, rfl, rfl⟩⟩
  obtain ⟨d, v1, heq, hd, hv⟩ := hjudge
  refine ⟨d, v1, nextChip_wakes (g := fun _ => d.judge r v1 false) (Eq.trans ?_ heq), hd, hv⟩
  dsimp only
  rw [hf]
  dsimp only
  rw [ho]
  dsimp only
  rw [if_neg (not_not.mpr hst)]

theorem solveSetupEnd_goesOn (hf : (s.chip.solver r).find k = some v) (hst : v.stage = .setup) (hi : v.idle = true) :
    ∃ t v', exec (.solveSetupEnd r k) s = .next t ∧ s.chipOnly t ∧ (t.chip.solver r).find k = some v' ∧ v'.words = v.words ∧ v'.k = v.k ∧
      (v'.stage = .iterating ∨ (v'.stage = .ended ∧ (v'.status = 0 ∨ v'.status = 3 ∨ v'.status = 4))) := by
  obtain ⟨d, v1, hexec, hd, hv1⟩ := exec_solveSetupEnd_judges hf hst hi
  obtain ⟨v', hjudge, hv', hstage⟩ := d.judge_spec r v1 false
  rw [hjudge] at hexec
  refine ⟨_, v', hexec, s.chipOnly_onChip _, ?_, hv'.words.trans hv1.words, hv'.k.trans hv1.k, hstage⟩
  rw [State.onChip_chip, Chip.solver_mergeWake]
  exact Chip.find_setSolve_kept hf hd (hv'.ticket.trans hv1.ticket)

/-! ### SOLVE_ITERATION_END (R330, R333) -/

/-- A solve after an iteration, with its residual (R333, R335). -/
def Solve.iterated (v : Solve) (x m : Mat) : Solve :=
  { v with x := x, m := m, k := v.k + 1, rho := resid (svDim v.words) m
           rises := if ltV v.rho (resid (svDim v.words) m) then v.rises + 1 else 0 }

theorem exec_solveIterationEnd_judges (hf : (s.chip.solver r).find k = some v) (hst : v.stage = .iterating) {x m : Mat}
    (ho : v.outcome = some (x, m)) : exec (.solveIterationEnd r k) s =
      .next (s.onChip (fun c => ((c.stageWork r v.words).inc .SOLV_CNT_COUNT r 1 1).judge r (v.iterated x m) true)) := by
  refine nextChip_eq ?_
  dsimp only
  rw [hf]
  dsimp only
  rw [ho]
  dsimp only
  rw [if_neg (not_not.mpr hst)]
  rfl

/-- A stage's work leaves the count of iterations alone. -/
theorem Chip.iterations_stageWork (c : Chip) {r : Nat} (hr : r < 16) (w : List Word) :
    (c.stageWork r w).g .SOLV_CNT_COUNT r 1 = c.g .SOLV_CNT_COUNT r 1 := by
  obtain ⟨-, n, hregs⟩ := c.stageWork_spec r w
  rw [Chip.g, Chip.rd, hregs]
  exact c.fieldsBut_put .SOLV_CNT_COUNT r _ 6 ⟨by decide, by decide⟩ (by omega) (by decide) .SOLV_CNT_COUNT r 1 ⟨by decide, by decide⟩
    (by omega) (by decide) (by simp [Spot.meets])

theorem solveIterationEnd_goesOn (hr : r < 16) (hf : (s.chip.solver r).find k = some v) (hst : v.stage = .iterating) (hi : v.idle = true) :
    ∃ t v', exec (.solveIterationEnd r k) s = .next t ∧ s.chipOnly t ∧ (t.chip.solver r).find k = some v' ∧ v'.words = v.words ∧
      v'.k = v.k + 1 ∧ (v'.stage = .iterating ∨ (v'.stage = .ended ∧ (v'.status = 0 ∨ v'.status = 3 ∨ v'.status = 4))) ∧
      t.chip.g .SOLV_CNT_COUNT r 1 = (s.chip.g .SOLV_CNT_COUNT r 1 + 1) % 2 ^ 64 := by
  obtain ⟨x, m, ho⟩ := Solve.idle_outcome hi
  obtain ⟨v', hjudge, hv', hstage⟩ := ((s.chip.stageWork r v.words).inc .SOLV_CNT_COUNT r 1 1).judge_spec r (v.iterated x m) true
  refine ⟨_, v', exec_solveIterationEnd_judges hf hst ho, s.chipOnly_onChip _, ?_, hv'.words, hv'.k, hstage, ?_⟩
  · rw [State.onChip_chip, hjudge]
    exact Chip.find_setSolve_kept hf (s.chip.solver_stageWork r _ r) hv'.ticket
  · rw [State.onChip_chip, hjudge]
    refine (Chip.g_inc_same _ .SOLV_CNT_COUNT r 1 1 ⟨by decide, by decide⟩).trans ?_
    exact congrArg (fun n => (n + 1) % 2 ^ 64) (s.chip.iterations_stageWork hr v.words)

/-! ### SOLVE_DEADLINE (R334, R335) -/

theorem solveDeadline_ends (hf : (s.chip.solver r).find k = some v) (hnow : v.accepted + s.chip.solveLimit r v.words ≤ s.chip.now) :
    ∃ t, exec (.solveDeadline r k) s = .next t ∧ s.chipOnly t ∧
      (v.stage = .waiting ∨ v.stage = .setup → s.chip.solveEnded t.chip r k 2) ∧
      (v.stage = .iterating → ∃ v', (t.chip.solver r).find k = some v' ∧ v'.stage = .ended ∧ v'.status = 1 ∧ v'.todo = [] ∧ v'.x = v.x) := by
  obtain ⟨hmem, hk⟩ := SolverS.mem_of_find hf
  refine ⟨_, rfl, s.chipOnly_onChip _, fun hst => ?_, fun hst => ?_⟩
  · have hend : s.chip.solveEnded (s.chip.endSolve r v 2).mergeWake r k 2 := by
      rw [← hk]
      exact (Chip.solveEnded_endSolve ⟨v, hmem, rfl⟩ rfl).mergeWake
    rw [State.onChip_chip, Function.comp_apply, hf]
    dsimp only
    rw [if_neg (by omega)]
    rcases hst with hst | hst <;> rw [hst] <;> exact hend
  · refine ⟨v.endedWith 1, ?_, rfl, rfl, rfl, rfl⟩
    rw [State.onChip_chip, Function.comp_apply, hf, Chip.solver_mergeWake]
    dsimp only
    rw [if_neg (by omega), hst]
    dsimp only
    rw [Chip.endSolve_writes rfl]
    exact Chip.find_setSolve_kept hf rfl rfl

theorem exec_solveDeadline_early (hq : ∀ y ∈ s.chip.press, (s.chip.pressOf y.1).mwait = []) (hf : (s.chip.solver r).find k = some v)
    (hnow : s.chip.now < v.accepted + s.chip.solveLimit r v.words) : exec (.solveDeadline r k) s = .next s := by
  refine nextChip_quiet ?_ hq
  rw [hf]
  exact if_pos hnow

/-! ### SOLVE_COMPLETE (R340, R343) -/

theorem exec_solveComplete_nothing (hf : (s.chip.solver r).find k = some v)
    (h : v.stage ≠ .ended ∨ s.chip.cutOpen (s.chip.solvPart r) = true) : exec (.solveComplete r k) s = .next s := by
  refine nextChip_same ?_
  rw [hf]
  dsimp only
  split
  · next hst => exact Chip.record_cutOpen (h.resolve_left (not_not.mpr hst)) v
  · rfl

theorem solveComplete_records {ts : Nat} {d : Chip} (hf : (s.chip.solver r).find k = some v) (hst : v.stage = .ended)
    (hstatus : v.status = 2 ∨ v.status = 6) (hts : v.started = some ts) (hcut : s.chip.cutOpen (s.chip.solvPart r) = false)
    (hpost : s.chip.post r (svScq v.words) ((resultWords r v v.res false ts s.chip.now).map (fun y => (y, false))) = .linked d) :
    ∃ t, exec (.solveComplete r k) s = .next t ∧ s.chipOnly t ∧ t.chip.mem = s.chip.mem ∧
      t.chip.queue r (svScq v.words) = d.queue r (svScq v.words) ∧ t.chip.g .SOLV_TICKET_LAST_DONE r = v.ticket % 4096 ∧
      t.chip.g .SOLV_CNT_COUNT r 0 = (s.chip.g .SOLV_CNT_COUNT r 0 + 1) % 2 ^ 64 ∧
      (if svInstall v.words = true ∧ svDim v.words ≠ 0 then ∃ v', (t.chip.solver r).find k = some v' ∧ v'.stage = .recorded
       else (t.chip.solver r).find k = none) := by
  obtain ⟨hmem, hk⟩ := SolverS.mem_of_find hf
  have hq := (Chip.post_linked hpost).1
  have hw : writesOut v.status = false := by rcases hstatus with h | h <;> rw [h] <;> rfl
  have hrecord : s.chip.record r v = d.recorded r v := by
    rw [Chip.record_plain hcut hw, Chip.startTime, hts]
    dsimp only
    rw [Chip.postResult, hpost]
  have hexec : exec (.solveComplete r k) s = .next (s.onChip (fun _ => d.recorded r v)) := by
    refine nextChip_eq ?_
    rw [hf]
    dsimp only
    rw [if_pos hst, hrecord]
  have hmem' : (d.recorded r v).mem = d.mem := (congrArg Chip.mem (d.recordOnly_recorded r v).rest :)
  have hqueues : (d.recorded r v).queues = d.queues := (congrArg Chip.queues (d.recordOnly_recorded r v).rest :)
  obtain ⟨hcount, hlast⟩ := d.g_recorded r v
  have hfind := Chip.find_recorded (c := d) (r := r) (s := v) ⟨v, by rw [hq.solverKept.solver r]; exact hmem, rfl⟩
  rw [hk] at hfind
  refine ⟨_, hexec, s.chipOnly_onChip _, ?_, ?_, hlast, ?_, ?_⟩
  · exact hmem'.trans (congrArg Chip.mem hq.1 :)
  · exact congrArg (fun x : List (Nat × QueueS) => sget ({} : QueueS) x _) hqueues
  · rw [State.onChip_chip, hcount, hq.2.g .SOLV_CNT_COUNT r 0 (by decide)]
  · split at hfind
    · next h => rw [if_pos h]; exact ⟨_, hfind, rfl⟩
    · next h => rw [if_neg h]; exact hfind

end

end Sys2Proof.Machine
end

section
/-! A solve that starts (R331, R332, R337, R340), and the solves that a DROP ends (R346, R351). -/

namespace Sys2Proof.Machine

/-! ### SOLVE_ACTIVATE -/

/-- The input of a solve as loaded: its block, header and poison (R331). -/
def Chip.solveInput (c : Chip) (r : Nat) (w : List Word) : Mat × List Word × Bool :=
  c.loadBlock (c.solvPart r) (svIn w (if svFixed w then 0 else c.g .HUB_STEP_SEALED_STEP (c.solvPart r) % 2)) (svDim w)

/-- The visible root record of a solve's entry. -/
def Chip.solveRecord (c : Chip) (r : Nat) (w : List Word) : List Word × Bool :=
  c.rootRec r (svEntry w) (c.g .HUB_STEP_SEALED_STEP (c.solvPart r) % 2)

/-- Why a warm start is rejected at the load: 0 where it is not (R332). -/
def Chip.warmReject (c : Chip) (r : Nat) (w : List Word) : Nat :=
  if ¬ svWarm w then 0
  else if ¬ wbit (wordAt (c.solveRecord r w).1 0) 0 then 2
  else if wbits (wordAt (c.solveRecord r w).1 1) 31 0 ≠ structTag w then 1 else 0

/-- Whether a solve starts from its warm root. -/
def Chip.startsWarm (c : Chip) (r : Nat) (w : List Word) : Bool := svWarm w && c.warmReject r w == 0

/-- The warm root as loaded. -/
def Chip.solveRoot (c : Chip) (r : Nat) (w : List Word) : Mat × List Word × Bool :=
  if c.startsWarm r w then c.loadBlock (c.solvPart r) ((c.solver r).bufAt (svEntry w) (recBuf (c.solveRecord r w).1)) (svDim w)
  else ([], [], false)

/-- Whether the header of an input names another block or dimension (R331). -/
def Chip.wrongHeader (c : Chip) (r : Nat) (w : List Word) : Bool :=
  wbits (wordAt (c.solveInput r w).2.1 0) 23 0 != svBlock w || wbits (wordAt (c.solveInput r w).2.1 0) 35 24 != svDim w % 2 ^ 12

/-- The input of a solve, damped (R331). -/
def Chip.solveDamped (c : Chip) (r : Nat) (w : List Word) : Mat :=
  damped (svDim w) (lambda (svDclass w) (svDamp w) (svDim w) (c.solveInput r w).1) (c.solveInput r w).1

/-- A solve started, its input loaded. -/
def Chip.loaded (c : Chip) (r : Nat) (v : Solve) : Solve :=
  let w := v.words
  { v with started := some c.now, stage := .setup, input := (c.solveInput r w).1, root := (c.solveRoot r w).1
           sstep := wbits (wordAt (c.solveInput r w).2.1 2) 47 0, warm := c.startsWarm r w, warmRej := c.warmReject r w
           hdrBad := c.wrongHeader r w, a := c.solveDamped r w, e := ceilLog2 (frob (svDim w) (c.solveDamped r w))
           load := if svFixed w then none else some (c.solvPart r, svIn w (c.g .HUB_STEP_SEALED_STEP (c.solvPart r) % 2)) }

/-- The reads of a load metered, and a warm start rejected marked. -/
def Chip.loadMetered (c : Chip) (r : Nat) (w : List Word) : Chip :=
  let d := (c.meter (c.solvPart r) 13 (blockBytes (svDim w))).meter (c.solvPart r) 13 (if c.startsWarm r w then blockBytes (svDim w) else 0)
  if c.warmReject r w ≠ 0 then d.warmRejected r else d

/-- A solve started: poisoned input, another block's header or a bad input ends it, else it sets up (R331, R337, R340). -/
def Chip.activateSolve (c : Chip) (r : Nat) (v : Solve) : Chip :=
  let w := v.words
  let d := c.loadMetered r w
  if (c.solveInput r w).2.2 ∨ (svWarm w ∧ (c.solveRecord r w).2) ∨ (c.solveRoot r w).2.2 then d.endSolve r (c.loaded r v) 6
  else if c.wrongHeader r w then d.endSolve r (c.loaded r v) 2
  else if badInput (svDim w) (c.solveDamped r w) (frob (svDim w) (c.solveDamped r w)) then (d.stageWork r w).endSolve r (c.loaded r v) 4
  else d.goOn r (c.loaded r v)

section
variable {s : State} {c : Chip} {r k : Nat} {v : Solve}

theorem exec_solveActivate_starts (hn : (s.chip.solver r).nextActive = some v) (ha : (s.chip.solver r).active.length < 4) :
    exec (.solveActivate r) s = .next (s.onChip (fun c => (c.activateSolve r v).mergeWake)) := by
  refine nextChip_wakes (g := fun c => c.activateSolve r v) ?_
  dsimp only
  rw [hn]
  dsimp only
  rw [if_neg (by omega)]
  rfl

theorem exec_solveActivate_nothing (hq : ∀ y ∈ s.chip.press, (s.chip.pressOf y.1).mwait = [])
    (h : (s.chip.solver r).nextActive = none ∨ 4 ≤ (s.chip.solver r).active.length) : exec (.solveActivate r) s = .next s := by
  refine nextChip_quiet ?_ hq
  dsimp only
  split
  · rfl
  · next v hn => exact if_pos (h.resolve_left (by simp [hn]))

theorem SolverS.mem_of_nextActive {x : SolverS} (h : x.nextActive = some v) : v ∈ x.slots := by
  unfold SolverS.nextActive at h
  dsimp only at h
  split at h
  · next s hs =>
    cases h
    exact (List.mem_filter.mp (List.mem_of_find?_eq_some hs)).1
  · exact (List.mem_filter.mp (List.mem_of_head? h)).1

theorem Chip.g_warmRejected (c : Chip) {r : Nat} (hr : r < 16) : (c.warmRejected r).g .SOLV_CNT_COUNT r 0 = c.g .SOLV_CNT_COUNT r 0 := by
  unfold Chip.warmRejected
  have hput := (c.set1 .SOLV_STICKY_WARMREJ r).fieldsBut_put .SOLV_CNT_COUNT r ((c.set1 .SOLV_STICKY_WARMREJ r).g .SOLV_CNT_COUNT r 4 + 1) 4
    ⟨by decide, by decide⟩ (by omega) (by decide)
  exact (hput .SOLV_CNT_COUNT r 0 ⟨by decide, by decide⟩ (by omega) (by decide) (by simp [Spot.meets])).trans
    (c.g_put_reg _ _ _ _ _ _ _ (by decide))

/-- A load leaves the Solvers and the count of completions alone. -/
theorem Chip.loadMetered_kept (c : Chip) {r : Nat} (hr : r < 16) (w : List Word) :
    (c.loadMetered r w).solver r = c.solver r ∧ (c.loadMetered r w).g .SOLV_CNT_COUNT r 0 = c.g .SOLV_CNT_COUNT r 0 := by
  have hmeters : ∀ n m, Chip.solverKept [] c ((c.meter (c.solvPart r) 13 n).meter (c.solvPart r) 13 m) := fun n m =>
    (c.solverKept_meter [] _ _ _).trans (Chip.solverKept_meter [] _ _ _ _)
  unfold Chip.loadMetered
  extract_lets d
  have hd : Chip.solverKept [] c d := hmeters _ _
  clear_value d
  split
  · exact ⟨hd.solver r, (Chip.g_warmRejected d hr).trans (hd.regs.g _ _ _ (by simp))⟩
  · exact ⟨hd.solver r, hd.regs.g _ _ _ (by simp)⟩

theorem Chip.wrongHeader_iff (c : Chip) (r : Nat) (w : List Word) : c.wrongHeader r w = false ↔
    wbits (wordAt (c.solveInput r w).2.1 0) 23 0 = svBlock w ∧ wbits (wordAt (c.solveInput r w).2.1 0) 35 24 = svDim w % 2 ^ 12 := by
  unfold Chip.wrongHeader
  rw [Bool.or_eq_false_iff, bne_eq_false_iff_eq, bne_eq_false_iff_eq]

/-- A cold start reads no root. -/
theorem Chip.solveRoot_cold (c : Chip) (r : Nat) {w : List Word} (hw : svWarm w = false) : (c.solveRoot r w).2.2 = false := by
  simp [Chip.solveRoot, Chip.startsWarm, hw]

theorem Chip.activateSolve_cold (c : Chip) (r : Nat) (v : Solve) (hw : svWarm v.words = false) (hp : (c.solveInput r v.words).2.2 = false) :
    c.activateSolve r v = if c.wrongHeader r v.words then (c.loadMetered r v.words).endSolve r (c.loaded r v) 2
      else if badInput (svDim v.words) (c.solveDamped r v.words) (frob (svDim v.words) (c.solveDamped r v.words))
      then ((c.loadMetered r v.words).stageWork r v.words).endSolve r (c.loaded r v) 4
      else (c.loadMetered r v.words).goOn r (c.loaded r v) := by
  unfold Chip.activateSolve
  dsimp only
  rw [if_neg (by simp [hw, hp, c.solveRoot_cold r hw])]

theorem Chip.solveEnded_activate (hr : r < 16) (hmem : v ∈ (c.solver r).slots) {st : Nat} (hst : writesOut st = false) :
    c.solveEnded ((c.loadMetered r v.words).endSolve r (c.loaded r v) st) r v.ticket st := by
  obtain ⟨hsolver, hcount⟩ := c.loadMetered_kept hr v.words
  exact (Chip.solveEnded_endSolve (s := c.loaded r v) ⟨v, by rw [hsolver]; exact hmem, rfl⟩ hst).of_count hcount

/-- A started solve replaced in its slot. -/
theorem Chip.find_started {d : Chip} {v' : Solve} (hmem : v ∈ (c.solver r).slots) (hd : d.solver r = c.solver r) (hv : v'.ticket = v.ticket) :
    ((d.setSolve r v').solver r).find v.ticket = some v' := by
  rw [← hv]
  exact Chip.find_setSolve ⟨v, by rw [hd]; exact hmem, hv.symm⟩

theorem solveActivate_starts (hr : r < 16) (hn : (s.chip.solver r).nextActive = some v) (ha : (s.chip.solver r).active.length < 4) :
    ∃ t, exec (.solveActivate r) s = .next t ∧ s.chipOnly t ∧
      ((s.chip.solveInput r v.words).2.2 = true → s.chip.solveEnded t.chip r v.ticket 6) ∧
      ((s.chip.solveInput r v.words).2.2 = false → svWarm v.words = false → s.chip.wrongHeader r v.words = true →
        s.chip.solveEnded t.chip r v.ticket 2) ∧
      ((s.chip.solveInput r v.words).2.2 = false → svWarm v.words = false → s.chip.wrongHeader r v.words = false →
        badInput (svDim v.words) (s.chip.solveDamped r v.words) (frob (svDim v.words) (s.chip.solveDamped r v.words)) = true →
        ∃ v', (t.chip.solver r).find v.ticket = some v' ∧ v'.words = v.words ∧ v'.stage = .ended ∧ v'.status = 4) ∧
      ((s.chip.solveInput r v.words).2.2 = false → svWarm v.words = false → s.chip.wrongHeader r v.words = false →
        badInput (svDim v.words) (s.chip.solveDamped r v.words) (frob (svDim v.words) (s.chip.solveDamped r v.words)) = false →
        ∃ v', (t.chip.solver r).find v.ticket = some v' ∧ v'.words = v.words ∧ v'.started = some s.chip.now ∧
          (v'.stage = .setup ∨ (v'.stage = .ended ∧ v'.status = 4))) := by
  have hmem := SolverS.mem_of_nextActive hn
  have hload := (s.chip.loadMetered_kept hr v.words).1
  refine ⟨_, exec_solveActivate_starts hn ha, s.chipOnly_onChip _, fun hp => ?_, fun hp hw hh => ?_, fun hp hw hh hb => ?_, fun hp hw hh hb => ?_⟩
  · have hact : s.chip.activateSolve r v = (s.chip.loadMetered r v.words).endSolve r (s.chip.loaded r v) 6 := if_pos (.inl hp)
    rw [State.onChip_chip, hact]
    exact (Chip.solveEnded_activate hr hmem rfl).mergeWake
  · rw [State.onChip_chip, Chip.activateSolve_cold _ _ _ hw hp, if_pos hh]
    exact (Chip.solveEnded_activate hr hmem rfl).mergeWake
  · rw [State.onChip_chip, Chip.activateSolve_cold _ _ _ hw hp, if_neg (by simp [hh]), if_pos hb, Chip.solver_mergeWake, Chip.endSolve_writes rfl]
    exact ⟨_, Chip.find_started hmem ((Chip.solver_stageWork _ r _ r).trans hload) rfl, rfl, rfl, rfl⟩
  · obtain ⟨v', hgo, hv', hstage⟩ := (s.chip.loadMetered r v.words).goOn_spec r (s.chip.loaded r v)
    rw [State.onChip_chip, Chip.activateSolve_cold _ _ _ hw hp, if_neg (by simp [hh]), if_neg (by simp [hb]), Chip.solver_mergeWake, hgo]
    exact ⟨v', Chip.find_started hmem hload hv'.ticket, hv'.words, hv'.started, hstage⟩

/-! ### SOLVE_DROP (R346, R351) -/

/-- A solve that has ended, its completion recorded or still to record. -/
def Solve.isOver (v : Solve) : Prop := v.stage = .recorded ∨ v.stage = .ended

theorem Chip.mem_record {o : Solve} (hw : writesOut v.status = false) (h : o ∈ ((c.record r v).solver r).slots) :
    o.stage = .recorded ∨ o ∈ (c.solver r).slots := by
  rcases Chip.record_cases (c := c) (r := r) hw with hr | ⟨d, hd, -, hr⟩ <;> rw [hr] at h
  · exact .inr h
  · have h := Chip.mem_recorded h
    rw [hd.solver r] at h
    exact h.imp_right And.left

/-- An abandoned solve is over, and the other solves stay. -/
theorem Chip.mem_abandoned {o : Solve} (h : o ∈ ((c.endSolve r v 2).solver r).slots) :
    o.isOver ∨ (o ∈ (c.solver r).slots ∧ o.ticket ≠ v.ticket) := by
  rw [Chip.endSolve_plain rfl] at h
  rcases Chip.mem_record rfl h with h | h
  · exact .inl (.inl h)
  · rcases Chip.mem_setSolve h with rfl | h
    · exact .inl (.inr rfl)
    · exact .inr h

/-- What a DROP does to one solve. -/
def Chip.dropsSolve (c : Chip) (r : Nat) (v : Solve) : Chip :=
  if v.stage = .recorded ∨ (v.stage = .ended ∧ ¬ writesOut v.status) then c else c.endSolve r v 2

theorem Chip.mem_dropsSolve {o : Solve} (h : o ∈ ((c.dropsSolve r v).solver r).slots) : o.isOver ∨ (o ∈ (c.solver r).slots ∧ o ≠ v) := by
  unfold Chip.dropsSolve at h
  split at h
  · next hv =>
    by_cases ho : o = v
    · rw [ho]; exact .inl (hv.imp_right And.left)
    · exact .inr ⟨h, ho⟩
  · exact (Chip.mem_abandoned h).imp_right fun ⟨hmem, hne⟩ => ⟨hmem, fun heq => hne (by rw [heq])⟩

/-- A DROP over a list of solves leaves a solve that is not on it only where it is over. -/
theorem Chip.isOver_dropsSolves (l : List Solve) : ∀ c : Chip, (∀ o ∈ (c.solver r).slots, o.isOver ∨ o ∈ l) →
    ∀ o ∈ ((l.foldl (fun c v => c.dropsSolve r v) c).solver r).slots, o.isOver := by
  induction l with
  | nil => exact fun c h o ho => (h o ho).resolve_right (by simp)
  | cons v l ih =>
    intro c h
    refine ih _ fun o ho => ?_
    rcases Chip.mem_dropsSolve ho with ho | ⟨ho, hne⟩
    · exact .inl ho
    · exact (h o ho).imp_right fun hl => (List.mem_cons.mp hl).resolve_left hne

/-- A DROP begun: it covers every solve accepted so far (R351). -/
def Chip.dropBegun (c : Chip) (r : Nat) : Chip := (c.setSolver r { c.solver r with dropped := (c.solver r).count }).set1 .SOLV_CMD_DROP r

/-- A DROP carried out. -/
def Chip.dropsAll (c : Chip) (r : Nat) : Chip := ((c.solver r).slots.foldl (fun c v => c.dropsSolve r v) (c.dropBegun r)).dropDone r

theorem Chip.solver_dropBegun (c : Chip) (r : Nat) : (c.dropBegun r).solver r = { c.solver r with dropped := (c.solver r).count } :=
  c.solver_setSolver_same r _

theorem Chip.solver_dropDone (c : Chip) (r : Nat) : (c.dropDone r).solver r = c.solver r := (c.solverKept_dropDone r).solver r

theorem Chip.dropDone_recorded (h : ∀ o ∈ (c.solver r).slots, o.stage = .recorded) : (c.dropDone r).g .SOLV_CMD_DROP r = 0 := by
  have hnone : (c.solver r).slots.any (fun s => decide (s.order < (c.solver r).dropped) && s.stage != .recorded) = false := by
    rw [List.any_eq_false]
    intro o ho
    simp [h o ho]
  have hput : c.dropDone r = c.put .SOLV_CMD_DROP r 0 := if_neg (by rw [hnone]; decide)
  rw [hput, Chip.g_put_same _ _ _ _ _ ⟨by decide, by decide⟩, Nat.zero_mod]

theorem Chip.dropDone_waits {o : Solve} (h : o ∈ (c.solver r).slots) (ho : o.order < (c.solver r).dropped) (hs : o.stage ≠ .recorded) :
    c.dropDone r = c :=
  if_pos (List.any_eq_true.mpr ⟨o, h, by simp [ho, hs]⟩)

theorem exec_solveDrop_reaches {fn : Fn} (h : s.chip.reaches fn .SOLV_CMD r = true) :
    exec (.solveDrop fn r) s = .next (s.onChip (fun c => (c.dropsAll r).mergeWake)) := by
  refine nextChip_wakes (g := fun c => c.dropsAll r) ?_
  dsimp only
  rw [if_neg (not_not.mpr h)]
  rfl

theorem Chip.isOver_dropsAll (c : Chip) (r : Nat) : ∀ o ∈ ((c.dropsAll r).solver r).slots, o.isOver := by
  unfold Chip.dropsAll
  rw [Chip.solver_dropDone]
  exact Chip.isOver_dropsSolves _ _ fun o ho => .inr (by rwa [Chip.solver_dropBegun] at ho)

theorem Chip.dropsAll_recorded (h : ∀ o ∈ ((c.dropsAll r).solver r).slots, o.stage = .recorded) : (c.dropsAll r).g .SOLV_CMD_DROP r = 0 := by
  unfold Chip.dropsAll at h ⊢
  rw [Chip.solver_dropDone] at h
  exact Chip.dropDone_recorded h

theorem Chip.solver_dropsAll_empty (h : (c.solver r).slots = []) : (c.dropsAll r).solver r = { c.solver r with dropped := (c.solver r).count } := by
  unfold Chip.dropsAll
  rw [Chip.solver_dropDone, h]
  exact c.solver_dropBegun r

/-- A DROP begun reads 1, and keeps the partition of the Solver and its install cut. -/
theorem Chip.dropBegun_spec (c : Chip) (r : Nat) : (c.dropBegun r).g .SOLV_CMD_DROP r = 1 ∧
    (c.dropBegun r).cutOpen ((c.dropBegun r).solvPart r) = c.cutOpen (c.solvPart r) := by
  have hregs : c.regsBut (c.dropBegun r) [.SOLV_CMD] := c.regsBut_put .SOLV_CMD_DROP r 1 0
  have howner : (c.dropBegun r).solvPart r = c.solvPart r := by
    unfold Chip.solvPart Chip.owner Chip.on
    rw [hregs.g .PART_OWN_OWNED _ _ (by decide), hregs.g .PART_OWN_OWNER _ _ (by decide)]
  exact ⟨Chip.g_set1_same _ _ _ _ ⟨by decide, by decide⟩, by rw [howner]; rfl⟩

/-- While an install cut is open the DROP of one solve waits for its completion (R343, R351). -/
theorem Chip.g_dropsAll_cut (hs : (c.solver r).slots = [v]) (ho : v.order < (c.solver r).count) (hv : v.stage ≠ .recorded)
    (hc : c.cutOpen (c.solvPart r) = true) : (c.dropsAll r).g .SOLV_CMD_DROP r = 1 := by
  obtain ⟨hdrop, hcut⟩ := c.dropBegun_spec r
  have hslots : ((c.dropBegun r).solver r).slots = [v] := by rw [Chip.solver_dropBegun]; exact hs
  have hdropped : ((c.dropBegun r).solver r).dropped = (c.solver r).count := by rw [Chip.solver_dropBegun]
  unfold Chip.dropsAll
  rw [hs, List.foldl_cons, List.foldl_nil, Chip.dropsSolve]
  split
  · rw [Chip.dropDone_waits (by rw [hslots]; exact List.mem_singleton_self v) (by rw [hdropped]; exact ho) hv]
    exact hdrop
  · rw [Chip.endSolve_plain rfl, Chip.record_cutOpen (c := (c.dropBegun r).setSolve r (v.endedWith 2)) (hcut.trans hc)]
    have hset := (c.dropBegun r).solver_setSolve r (v.endedWith 2)
    rw [Chip.dropDone_waits (o := v.endedWith 2)]
    · exact hdrop
    · rw [hset, hslots]; simp [Solve.endedWith]
    · rw [hset]; exact hdropped ▸ ho
    · simp [Solve.endedWith]

theorem solveDrop_drops {fn : Fn} (h : s.chip.reaches fn .SOLV_CMD r = true) : ∃ t, exec (.solveDrop fn r) s = .next t ∧ s.chipOnly t ∧
    (∀ v ∈ (t.chip.solver r).slots, v.stage = .recorded ∨ v.stage = .ended) ∧
    ((∀ v ∈ (t.chip.solver r).slots, v.stage = .recorded) → t.chip.g .SOLV_CMD_DROP r = 0) ∧
    ((s.chip.solver r).slots = [] → t.chip.solver r = { s.chip.solver r with dropped := (s.chip.solver r).count }) ∧
    (∀ v, (s.chip.solver r).slots = [v] → v.order < (s.chip.solver r).count → v.stage ≠ .recorded →
      s.chip.cutOpen (s.chip.solvPart r) = true → t.chip.g .SOLV_CMD_DROP r = 1) := by
  refine ⟨_, exec_solveDrop_reaches h, s.chipOnly_onChip _, ?_⟩
  rw [State.onChip_chip, Chip.solver_mergeWake, Chip.g_mergeWake _ _ _ _ (by decide)]
  exact ⟨s.chip.isOver_dropsAll r, Chip.dropsAll_recorded, Chip.solver_dropsAll_empty, fun _ => Chip.g_dropsAll_cut⟩

end

end Sys2Proof.Machine
end

section
/-! The last pass of a Solver tile (R122, R126, R342, R345, R346): its unit freed and the pass counted, and what it means for its solve. -/

namespace Sys2Proof.Machine

/-! ### The pass that has ended -/

/-- From c to d the running work of unit u has ended and its pass is counted; the Solvers and their counts stay. -/
structure Chip.passDone (u : Nat) (c d : Chip) : Prop where
  solver : ∀ r, d.solver r = c.solver r
  run : (d.unit u).run = none
  count : d.g .MXE_CNT_SOLV_COUNT u = (c.g .MXE_CNT_SOLV_COUNT u + 1) % 2 ^ 64
  solves : ∀ r, d.g .SOLV_CNT_COUNT r 0 = c.g .SOLV_CNT_COUNT r 0

/-- The pass of a unit in service ended and metered (R127). -/
def Chip.passMetered (c : Chip) (u : Nat) (t : STile) : Chip :=
  (c.passEnded u).meter ((c.passEnded u).solvPart (regionOfU u)) 1 (t.rows.length * t.cols.length * t.k)

/-- The last pass of a Solver tile ended: a unit out of service gives the tile back, else its outcome goes to its solve. -/
def Chip.lastPass (c : Chip) (u : Nat) (t : STile) (pass : Nat) (up : Option Upset) (poison : Bool) : Chip :=
  if ¬ (c.passEnded u).inService u then (c.passEnded u).returnTile u t
  else if poison then ((c.passMetered u t).solverPoison u t).solverTileDone (regionOfU u) u t true false []
  else
    let d := (c.passMetered u t).inc .MXE_CNT_UNTESTED_COUNT u (untestedRows (t.eval up).2)
    match failedRow (t.eval up).2 with
    | some row => (d.solverChk u pass t (t.eval up).2 row).solverTileDone (regionOfU u) u t false true (t.eval up).1
    | none => d.solverTileDone (regionOfU u) u t false false (t.eval up).1

section
variable {s : State} {c d e : Chip} {u : Nat} {t : STile} {wb pass : Nat} {job : TileJob} {up : Option Upset} {poison : Bool} {v : Solve}

theorem exec_solverTileComplete_last (hrun : (s.chip.unit u).run = some { kind := .solver t, job := job, wbits := wb }) (hl : t.left ≤ 1) :
    exec (.solverTileComplete u (pass, up) poison) s = .next (s.onChip (fun c => (c.lastPass u t pass up poison).mergeWake)) := by
  refine nextChip_wakes (g := fun c => c.lastPass u t pass up poison) ?_
  dsimp only
  rw [hrun]
  dsimp only
  rw [if_neg (by omega)]
  rfl

theorem exec_solverTileComplete_more (hq : ∀ y ∈ s.chip.press, (s.chip.pressOf y.1).mwait = [])
    (hrun : (s.chip.unit u).run = some { kind := .solver t, job := job, wbits := wb }) (hl : 1 < t.left) :
    exec (.solverTileComplete u (pass, up) poison) s = .next s := by
  refine nextChip_quiet ?_ hq
  dsimp only
  rw [hrun]
  exact if_pos hl

theorem Chip.passDone_passEnded (c : Chip) (u : Nat) : Chip.passDone u c (c.passEnded u) :=
  ⟨fun _ => rfl, by rw [Chip.unit_passEnded], c.g_passEnded u, fun r => (c.regsBut_passEnded u).g .SOLV_CNT_COUNT r 0 (by decide)⟩

theorem Chip.passDone.kept {l : List Reg} (h : Chip.passDone u c d) (h' : Chip.solverKept l d e) (hu : Reg.MXE_CNT_SOLV ∉ l)
    (hr : Reg.SOLV_CNT ∉ l) : Chip.passDone u c e :=
  ⟨fun r => (h'.solver r).trans (h.solver r), by rw [h'.unit u, h.run], (h'.regs.g _ _ _ hu).trans h.count,
    fun r => (h'.regs.g _ _ _ hr).trans (h.solves r)⟩

theorem Chip.passDone_passMetered (c : Chip) (u : Nat) (t : STile) : Chip.passDone u c (c.passMetered u t) :=
  (c.passDone_passEnded u).kept (Chip.solverKept_meter [] _ _ _ _) (by simp) (by simp)

/-! ### The marks of the unit and its Solver (R126, R133, R136) -/

theorem Chip.solverKept_wr (c : Chip) (r : Reg) (i : Nat) (v : Word) (j : Nat) : Chip.solverKept [r] c (c.wr r i v j) :=
  ⟨rfl, c.regsBut_wr r i v j⟩

theorem Chip.unseed_kept (c : Chip) (u : Nat) (t : STile) : Chip.solverKept [.MXE_CKSEED] c (c.unseed u t) := by
  unfold Chip.unseed
  split
  · exact .ite (c.solverKept_wr _ _ _ _) (c.solverKept_refl _)
  · exact c.solverKept_refl _

/-- The registers that the marks of a Solver tile change. -/
def solverMarkRegs : List Reg := [.MXE_CKSEED, .MXE_CKLOG, .MXE_STICKY, .MXE_CNT_CHK, .MXE_CNT_UNTESTED, .SOLV_STICKY] ++ faultRegs

theorem Chip.solverPoison_spec (c : Chip) (u : Nat) (t : STile) :
    Chip.solverKept solverMarkRegs c (c.solverPoison u t) ∧ (c.solverPoison u t).g .MXE_STICKY_SOLV_POISON u = 1 := by
  unfold Chip.solverPoison
  have hf := fun x => Chip.faultOnly_postFault ((c.unseed u t).set1 .MXE_STICKY_SOLV_POISON u) x
  refine ⟨(((c.unseed_kept u t).mono (by decide)).set1 .MXE_STICKY_SOLV_POISON u 0 (by decide)).trans ((hf _).solverKept.mono (by decide)), ?_⟩
  exact ((hf _).2.g .MXE_STICKY_SOLV_POISON u 0 (by decide)).trans (Chip.g_set1_same _ _ _ _ ⟨by decide, by decide⟩)

theorem Chip.solverChk_spec (c : Chip) (u pass : Nat) (t : STile) (tests : List RowTest) (row : Nat) :
    Chip.solverKept solverMarkRegs c (c.solverChk u pass t tests row) ∧ (c.solverChk u pass t tests row).g .MXE_STICKY_SOLV_CHK u = 1 ∧
    (c.solverChk u pass t tests row).g .SOLV_STICKY_CHK (regionOfU u) = 1 := by
  unfold Chip.solverChk
  extract_lets r d e
  have hd : Chip.solverKept solverMarkRegs c d := (c.solverKept_wr .MXE_CKLOG u _ 0).mono (by decide)
  clear_value d
  have he : Chip.solverKept solverMarkRegs c e := ((hd.set1 .MXE_STICKY_SOLV_CHK u 0 (by decide)).inc .MXE_CNT_CHK_COUNT u 1 0 (by decide)).set1
    .SOLV_STICKY_CHK r 0 (by decide)
  have hunit : e.g .MXE_STICKY_SOLV_CHK u = 1 := by
    dsimp only [e]
    rw [Chip.set1, Chip.g_put_reg _ _ _ _ _ _ _ _ (by decide), Chip.inc, Chip.g_put_reg _ _ _ _ _ _ _ _ (by decide)]
    exact Chip.g_set1_same _ _ _ _ ⟨by decide, by decide⟩
  have hsolver : e.g .SOLV_STICKY_CHK r = 1 := Chip.g_set1_same _ _ _ _ ⟨by decide, by decide⟩
  clear_value e
  have hf := fun x => Chip.faultOnly_postFault e x
  exact ⟨he.trans ((hf _).solverKept.mono (by decide)), ((hf _).2.g .MXE_STICKY_SOLV_CHK u 0 (by decide)).trans hunit,
    ((hf _).2.g .SOLV_STICKY_CHK r 0 (by decide)).trans hsolver⟩

/-! ### What it means for its solve (R342) -/

/-- A solve one of whose tiles has come back, its operations counted (R127, R345). -/
def Solve.spent (v : Solve) (t : STile) : Solve := { v with lent := v.lent - 1, macs := v.macs + t.rows.length * t.cols.length * t.k }

section
variable {r : Nat} (hf : (c.solver r).find t.ticket = some v) (hst : v.stage = .setup ∨ v.stage = .iterating)
include hf hst

theorem Chip.solverTileDone_poison (u : Nat) (failed : Bool) (outs : Mat) :
    c.solverTileDone r u t true failed outs = c.endSolve r (v.spent t) 6 := by
  unfold Chip.solverTileDone
  rw [hf]
  dsimp only
  rw [if_neg (by rcases hst with h | h <;> simp [h]), if_pos rfl]
  rfl

theorem Chip.solverTileDone_failedTwice (ht : t.second = true) (u : Nat) (outs : Mat) :
    c.solverTileDone r u t false true outs = c.endSolve r { v.spent t with chk := true } 2 := by
  unfold Chip.solverTileDone
  rw [hf]
  dsimp only
  rw [if_neg (by rcases hst with h | h <;> simp [h]), if_neg (by decide), if_pos rfl, if_pos ht]
  rfl

theorem Chip.solverTileDone_failedOnce (ht : t.second = false) (u : Nat) (outs : Mat) :
    c.solverTileDone r u t false true outs = c.setSolve r { v.spent t with todo := { t.fresh with second := true, avoid := u } :: v.todo } := by
  unfold Chip.solverTileDone
  rw [hf]
  dsimp only
  rw [if_neg (by rcases hst with h | h <;> simp [h]), if_neg (by decide), if_pos rfl, if_neg (by simp [ht])]
  rfl

theorem Chip.solverTileDone_good (u : Nat) (outs : Mat) : c.solverTileDone r u t false false outs =
    (if t.second then c.inc .SOLV_CNT_COUNT r 1 3 else c).goOn r { v.spent t with ends := v.ends ++ [(t.i, t.j, outs)] } := by
  unfold Chip.solverTileDone
  rw [hf]
  dsimp only
  rw [if_neg (by rcases hst with h | h <;> simp [h]), if_neg (by decide), if_neg (by decide)]
  rfl

end

theorem Chip.endOnly_refl (r : Nat) (c : Chip) : Chip.endOnly r c c := ⟨rfl, c.regsBut_refl _, rfl⟩

theorem Chip.endOnly_goOn (c : Chip) (r : Nat) (v : Solve) : Chip.endOnly r c (c.goOn r v) := by
  obtain ⟨v', hgo, -, -⟩ := c.goOn_spec r v
  rw [hgo]
  exact c.endOnly_setSolve r v'

/-- What a tile means for its solve may end it, nothing else. -/
theorem Chip.endOnly_solverTileDone (c : Chip) (r u : Nat) (t : STile) (poison failed : Bool) (outs : Mat) :
    Chip.endOnly r c (c.solverTileDone r u t poison failed outs) := by
  have hagain : Chip.endOnly r c (c.inc .SOLV_CNT_COUNT r 1 3) :=
    ⟨rfl, (c.regsBut_put .SOLV_CNT_COUNT r _ 3).mono (by decide), c.g_put_reg _ _ _ _ _ _ _ (by decide)⟩
  unfold Chip.solverTileDone
  split
  · exact c.endOnly_refl r
  · dsimp only
    split
    · exact c.endOnly_setSolve r _
    · split
      · exact c.endOnly_endSolve r _ _
      · split
        · split
          · exact c.endOnly_endSolve r _ _
          · exact c.endOnly_setSolve r _
        · split
          · exact hagain.trans (Chip.endOnly_goOn _ r _)
          · exact c.endOnly_goOn r _

/-! ### A tile given back (R334, R346) -/

/-- A solve to which a tile is given back. -/
def Solve.takenBack (t : STile) (v : Solve) : Solve :=
  if v.ticket = t.ticket ∧ v.lent ≠ 0 then
    { v with lent := v.lent - 1, todo := if v.stage = .ended ∨ v.stage = .recorded then [] else t.fresh :: v.todo }
  else v

theorem Solve.ticket_takenBack (t : STile) (v : Solve) : (v.takenBack t).ticket = v.ticket := by
  unfold Solve.takenBack
  split <;> rfl

theorem Chip.solver_returnTile (c : Chip) (u : Nat) (t : STile) : (c.returnTile u t).solver (regionOfU u) =
    { c.solver (regionOfU u) with slots := (c.solver (regionOfU u)).slots.map (Solve.takenBack t) } := by
  rw [← (c.unseed_kept u t).solver (regionOfU u)]
  exact (c.unseed u t).solver_setSolver_same (regionOfU u) _

/-- The tile stands first among those that its solve has still to run. -/
theorem Chip.find_returnTile (hf : (c.solver (regionOfU u)).find t.ticket = some v) (hst : v.stage = .setup ∨ v.stage = .iterating)
    (hl : v.lent ≠ 0) : ((c.returnTile u t).solver (regionOfU u)).find t.ticket = some { v with lent := v.lent - 1, todo := t.fresh :: v.todo } := by
  have hp : ((fun s : Solve => s.ticket == t.ticket) ∘ Solve.takenBack t) = fun s => s.ticket == t.ticket := by
    funext w
    simp [Solve.ticket_takenBack]
  have hback : v.takenBack t = { v with lent := v.lent - 1, todo := t.fresh :: v.todo } := by
    rw [Solve.takenBack, if_pos ⟨(SolverS.mem_of_find hf).2, hl⟩, if_neg (by rcases hst with h | h <;> simp [h])]
  rw [SolverS.find] at hf
  rw [Chip.solver_returnTile, SolverS.find, List.find?_map, hp, hf, Option.map_some, hback]

theorem Chip.returnTile_kept (c : Chip) (u : Nat) (t : STile) :
    (c.returnTile u t).unit u = c.unit u ∧ c.regsBut (c.returnTile u t) [.MXE_CKSEED] :=
  ⟨(c.unseed_kept u t).unit u, (c.unseed_kept u t).regs⟩

end

end Sys2Proof.Machine
end

section
/-! The last pass of a Solver tile by its outcome (R126, R342, R345, R346), and the statement about the course of a solve. -/

namespace Sys2Proof.Machine

section
variable {s : State} {c d e : Chip} {u : Nat} {t : STile} {pass row : Nat} {up : Option Upset} {poison : Bool} {v : Solve}

theorem Chip.passDone.ends {r : Nat} (h : Chip.passDone u c d) (h' : Chip.endOnly r d e) :
    (e.unit u).run = none ∧ e.g .MXE_CNT_SOLV_COUNT u = (c.g .MXE_CNT_SOLV_COUNT u + 1) % 2 ^ 64 :=
  ⟨by rw [h'.unit u, h.run], (h'.regs.g _ _ _ (by decide)).trans h.count⟩

theorem Chip.g_setSolve (c : Chip) (r : Nat) (v : Solve) (f : Fld) (i j : Nat) : (c.setSolve r v).g f i j = c.g f i j := rfl

theorem Chip.solver_inc (c : Chip) (f : Fld) (i n j r : Nat) : (c.inc f i n j).solver r = c.solver r := rfl

/-- The chip whose unit in service has evaluated its tile (R126). -/
def Chip.passTested (c : Chip) (u : Nat) (t : STile) (up : Option Upset) : Chip :=
  (c.passMetered u t).inc .MXE_CNT_UNTESTED_COUNT u (untestedRows (t.eval up).2)

theorem Chip.passDone_passTested (c : Chip) (u : Nat) (t : STile) (up : Option Upset) : Chip.passDone u c (c.passTested u t up) :=
  (c.passDone_passMetered u t).kept (Chip.solverKept_put _ .MXE_CNT_UNTESTED_COUNT u _ 0) (by decide) (by decide)

theorem Chip.passDone_poison (c : Chip) (u : Nat) (t : STile) : Chip.passDone u c ((c.passMetered u t).solverPoison u t) :=
  (c.passDone_passMetered u t).kept (Chip.solverPoison_spec _ u t).1 (by decide) (by decide)

theorem Chip.passDone_chk (c : Chip) (u pass : Nat) (t : STile) (up : Option Upset) (row : Nat) :
    Chip.passDone u c ((c.passTested u t up).solverChk u pass t (t.eval up).2 row) :=
  (c.passDone_passTested u t up).kept (Chip.solverChk_spec _ u pass t _ row).1 (by decide) (by decide)

theorem Chip.inService_passEnded (c : Chip) (u : Nat) : (c.passEnded u).inService u = c.inService u :=
  (c.regsBut_passEnded u).inService (by decide) u

theorem Chip.lastPass_outOfService (h : c.inService u = false) (t : STile) (pass : Nat) (up : Option Upset) (poison : Bool) :
    c.lastPass u t pass up poison = (c.passEnded u).returnTile u t := if_pos (by rw [Chip.inService_passEnded, h]; decide)

theorem Chip.lastPass_poison (h : c.inService u = true) (t : STile) (pass : Nat) (up : Option Upset) :
    c.lastPass u t pass up true = ((c.passMetered u t).solverPoison u t).solverTileDone (regionOfU u) u t true false [] := by
  unfold Chip.lastPass
  rw [if_neg (by rw [Chip.inService_passEnded, h]; decide), if_pos rfl]

theorem Chip.lastPass_failed (h : c.inService u = true) (hrow : failedRow (t.eval up).2 = some row) (pass : Nat) :
    c.lastPass u t pass up false = ((c.passTested u t up).solverChk u pass t (t.eval up).2 row).solverTileDone (regionOfU u) u t false true
      (t.eval up).1 := by
  unfold Chip.lastPass
  rw [if_neg (by rw [Chip.inService_passEnded, h]; decide), if_neg (by decide)]
  dsimp only
  rw [hrow]
  rfl

theorem Chip.lastPass_good (h : c.inService u = true) (hrow : failedRow (t.eval up).2 = none) (pass : Nat) :
    c.lastPass u t pass up false = (c.passTested u t up).solverTileDone (regionOfU u) u t false false (t.eval up).1 := by
  unfold Chip.lastPass
  rw [if_neg (by rw [Chip.inService_passEnded, h]; decide), if_neg (by decide)]
  dsimp only
  rw [hrow]
  rfl

/-- The last pass frees the unit and is counted. -/
theorem Chip.lastPass_frees (c : Chip) (u : Nat) (t : STile) (pass : Nat) (up : Option Upset) (poison : Bool) :
    ((c.lastPass u t pass up poison).unit u).run = none ∧
    (c.lastPass u t pass up poison).g .MXE_CNT_SOLV_COUNT u = (c.g .MXE_CNT_SOLV_COUNT u + 1) % 2 ^ 64 := by
  cases h : c.inService u with
  | false =>
    rw [Chip.lastPass_outOfService h]
    obtain ⟨hunit, hregs⟩ := (c.passEnded u).returnTile_kept u t
    exact ⟨by rw [hunit, Chip.unit_passEnded], (hregs.g _ _ _ (by decide)).trans (c.g_passEnded u)⟩
  | true =>
    cases poison with
    | true =>
      rw [Chip.lastPass_poison h]
      exact (c.passDone_poison u t).ends (Chip.endOnly_solverTileDone _ _ u t _ _ _)
    | false =>
      cases hrow : failedRow (t.eval up).2 with
      | none =>
        rw [Chip.lastPass_good h hrow]
        exact (c.passDone_passTested u t up).ends (Chip.endOnly_solverTileDone _ _ u t _ _ _)
      | some row =>
        rw [Chip.lastPass_failed h hrow]
        exact (c.passDone_chk u pass t up row).ends (Chip.endOnly_solverTileDone _ _ u t _ _ _)

section
variable (hf : (c.solver (regionOfU u)).find t.ticket = some v) (hst : v.stage = .setup ∨ v.stage = .iterating)
include hf

theorem Chip.passDone.find (h : Chip.passDone u c d) : (d.solver (regionOfU u)).find t.ticket = some v := by rw [h.solver, hf]

/-- The solve of a tile ends with a status that writes no output. -/
theorem Chip.passDone.solveEnded (h : Chip.passDone u c d) {v' : Solve} (hv : v'.ticket = v.ticket) {st : Nat} (hw : writesOut st = false) :
    c.solveEnded (d.endSolve (regionOfU u) v' st) (regionOfU u) t.ticket st := by
  obtain ⟨hmem, hk⟩ := SolverS.mem_of_find hf
  rw [← hk, ← hv]
  exact (Chip.solveEnded_endSolve ⟨v, by rw [h.solver]; exact hmem, hv.symm⟩ hw).of_count (h.solves _)

include hst

theorem Chip.lastPass_returns (hs : c.inService u = false) (hl : v.lent ≠ 0) (pass : Nat) (up : Option Upset) (poison : Bool) :
    ((c.lastPass u t pass up poison).solver (regionOfU u)).find t.ticket = some { v with lent := v.lent - 1, todo := t.fresh :: v.todo } := by
  rw [Chip.lastPass_outOfService hs]
  exact Chip.find_returnTile hf hst hl

theorem Chip.lastPass_poisoned (hs : c.inService u = true) (pass : Nat) (up : Option Upset) :
    c.solveEnded (c.lastPass u t pass up true) (regionOfU u) t.ticket 6 ∧ (c.lastPass u t pass up true).g .MXE_STICKY_SOLV_POISON u = 1 := by
  have hdone := c.passDone_poison u t
  rw [Chip.lastPass_poison hs, Chip.solverTileDone_poison (hdone.find hf) hst]
  refine ⟨hdone.solveEnded hf (v' := v.spent t) (st := 6) rfl rfl, ?_⟩
  rw [(Chip.endOnly_endSolve _ _ _ _).regs.g _ _ _ (by decide)]
  exact (Chip.solverPoison_spec _ u t).2

theorem Chip.lastPass_failedTwice (hs : c.inService u = true) (hrow : failedRow (t.eval up).2 = some row) (ht : t.second = true) (pass : Nat) :
    c.solveEnded (c.lastPass u t pass up false) (regionOfU u) t.ticket 2 ∧
    (c.lastPass u t pass up false).g .SOLV_STICKY_CHK (regionOfU u) = 1 := by
  have hdone := c.passDone_chk u pass t up row
  rw [Chip.lastPass_failed hs hrow, Chip.solverTileDone_failedTwice (hdone.find hf) hst ht]
  refine ⟨hdone.solveEnded hf (v' := { v.spent t with chk := true }) (st := 2) rfl rfl, ?_⟩
  rw [(Chip.endOnly_endSolve _ _ _ _).chk]
  exact (Chip.solverChk_spec _ u pass t _ row).2.2

theorem Chip.lastPass_failedOnce (hs : c.inService u = true) (hrow : failedRow (t.eval up).2 = some row) (ht : t.second = false) (pass : Nat) :
    (c.lastPass u t pass up false).g .MXE_STICKY_SOLV_CHK u = 1 ∧
    ((c.lastPass u t pass up false).solver (regionOfU u)).find t.ticket =
      some { v.spent t with todo := { t.fresh with second := true, avoid := u } :: v.todo } := by
  have hdone := c.passDone_chk u pass t up row
  rw [Chip.lastPass_failed hs hrow, Chip.solverTileDone_failedOnce (hdone.find hf) hst ht, Chip.g_setSolve]
  exact ⟨(Chip.solverChk_spec _ u pass t _ row).2.1, Chip.find_setSolve_kept hf (hdone.solver _) rfl⟩

theorem Chip.lastPass_adds (hs : c.inService u = true) (hrow : failedRow (t.eval up).2 = none) (pass : Nat) :
    ∃ v', ((c.lastPass u t pass up false).solver (regionOfU u)).find t.ticket = some v' ∧
      v'.macs = v.macs + t.rows.length * t.cols.length * t.k ∧ (v'.stage = v.stage ∨ (v'.stage = .ended ∧ v'.status = 4)) := by
  have hdone := c.passDone_passTested u t up
  have hkept : ∀ p : Prop, ∀ [Decidable p], (if p then (c.passTested u t up).inc .SOLV_CNT_COUNT (regionOfU u) 1 3 else c.passTested u t up).solver
      (regionOfU u) = c.solver (regionOfU u) := by
    intro p _
    split
    · exact (Chip.solver_inc _ _ _ _ _ _).trans (hdone.solver _)
    · exact hdone.solver _
  rw [Chip.lastPass_good hs hrow, Chip.solverTileDone_good (hdone.find hf) hst]
  obtain ⟨v', hgo, hv', hstage⟩ := Chip.goOn_spec (if t.second then (c.passTested u t up).inc .SOLV_CNT_COUNT (regionOfU u) 1 3 else c.passTested u t up)
    (regionOfU u) { v.spent t with ends := v.ends ++ [(t.i, t.j, (t.eval up).1)] }
  rw [hgo]
  exact ⟨v', Chip.find_setSolve_kept hf (hkept _) hv'.ticket, hv'.macs, hstage⟩

end

theorem solverTileComplete_last {r wb : Nat} {job : TileJob} (hu : u / 64 = r)
    (hrun : (s.chip.unit u).run = some { kind := .solver t, job := job, wbits := wb }) (hl : t.left ≤ 1)
    (hf : (s.chip.solver r).find t.ticket = some v) (hst : v.stage = .setup ∨ v.stage = .iterating) :
    ∃ t', exec (.solverTileComplete u (pass, up) poison) s = .next t' ∧ s.chipOnly t' ∧ (t'.chip.unit u).run = none ∧
      t'.chip.g .MXE_CNT_SOLV_COUNT u = (s.chip.g .MXE_CNT_SOLV_COUNT u + 1) % 2 ^ 64 ∧
      (s.chip.inService u = false → v.lent ≠ 0 → ∃ v', (t'.chip.solver r).find t.ticket = some v' ∧ v'.todo = t.fresh :: v.todo ∧ v'.macs = v.macs) ∧
      (s.chip.inService u = true → poison = true → s.chip.solveEnded t'.chip r t.ticket 6 ∧ t'.chip.g .MXE_STICKY_SOLV_POISON u = 1) ∧
      (s.chip.inService u = true → poison = false → failedRow (t.eval up).2 ≠ none → t.second = true →
        s.chip.solveEnded t'.chip r t.ticket 2 ∧ t'.chip.g .SOLV_STICKY_CHK r = 1) ∧
      (s.chip.inService u = true → poison = false → failedRow (t.eval up).2 ≠ none → t.second = false → t'.chip.g .MXE_STICKY_SOLV_CHK u = 1 ∧
        ∃ v' z, (t'.chip.solver r).find t.ticket = some v' ∧ v'.stage = v.stage ∧ v'.macs = v.macs + t.rows.length * t.cols.length * t.k ∧
          v'.todo = z :: v.todo ∧ z.second = true ∧ z.avoid = u) ∧
      (s.chip.inService u = true → poison = false → failedRow (t.eval up).2 = none → ∃ v', (t'.chip.solver r).find t.ticket = some v' ∧
        v'.macs = v.macs + t.rows.length * t.cols.length * t.k ∧ (v'.stage = v.stage ∨ (v'.stage = .ended ∧ v'.status = 4))) := by
  subst hu
  obtain ⟨hfree, hcount⟩ := s.chip.lastPass_frees u t pass up poison
  refine ⟨_, exec_solverTileComplete_last hrun hl, s.chipOnly_onChip _, ?_⟩
  rw [State.onChip_chip, Chip.unit_mergeWake, Chip.solver_mergeWake, Chip.g_mergeWake _ _ _ _ (by decide), Chip.g_mergeWake _ _ _ _ (by decide),
    Chip.g_mergeWake _ _ _ _ (by decide), Chip.g_mergeWake _ _ _ _ (by decide)]
  refine ⟨hfree, hcount, fun hs hlent => ⟨_, Chip.lastPass_returns hf hst hs hlent pass up poison, rfl, rfl⟩, fun hs hp => ?_, fun hs hp hrow ht => ?_,
    fun hs hp hrow ht => ?_, fun hs hp hrow => ?_⟩
  · subst hp
    exact (Chip.lastPass_poisoned hf hst hs pass up).imp_left Chip.solveEnded.mergeWake
  · subst hp
    obtain ⟨row, hrow⟩ := Option.ne_none_iff_exists'.mp hrow
    exact (Chip.lastPass_failedTwice hf hst hs hrow ht pass).imp_left Chip.solveEnded.mergeWake
  · subst hp
    obtain ⟨row, hrow⟩ := Option.ne_none_iff_exists'.mp hrow
    obtain ⟨hchk, hfind⟩ := Chip.lastPass_failedOnce hf hst hs hrow ht pass
    exact ⟨hchk, _, _, hfind, rfl, rfl, rfl, rfl, rfl⟩
  · subst hp
    exact Chip.lastPass_adds hf hst hs hrow pass

end

end Sys2Proof.Machine
end

open Sys2Proof.Machine in
/-- Settles O32, by the instructions of a solve's course: each is reduced to a solve replaced in its slot or to its completion recorded, and
the MERGE commands that then go on leave Solvers, units and counts alone. -/
theorem solvesRun : Obligations.SolvesRun := by
  unfold Obligations.SolvesRun
  intro s r hr c x quiet
  refine ⟨exec_solveActivate_nothing, fun v hn ha => ?_, fun _ _ hf hst hi => solveSetupEnd_goesOn hf hst hi,
    fun _ _ hf hst hi => solveIterationEnd_goesOn hr hf hst hi, fun _ _ hf hnow => solveDeadline_ends hf hnow,
    fun hq _ _ hf hnow => exec_solveDeadline_early hq hf hnow,
    fun _ _ _ _ hf hst hstatus hts hcut hpost => solveComplete_records hf hst hstatus hts hcut hpost,
    fun _ _ hf h => exec_solveComplete_nothing hf h, fun _ h => solveDrop_drops h,
    fun _ _ _ _ _ _ _ _ hu hrun hl hf hst => solverTileComplete_last hu hrun hl hf hst,
    fun hq _ _ _ _ _ _ _ _ hrun hl => exec_solverTileComplete_more hq hrun hl⟩
  obtain ⟨t, hexec, honly, hpoison, hheader, hbad, hgood⟩ := solveActivate_starts hr hn ha
  refine ⟨t, hexec, honly, hpoison, fun hp hw h => hheader hp hw ?_, fun hp hw h hb => hbad hp hw ((c.wrongHeader_iff r v.words).mpr h) hb,
    fun hp hw h hb => hgood hp hw ((c.wrongHeader_iff r v.words).mpr h) hb⟩
  exact Bool.eq_true_of_not_eq_false fun hn => h ((c.wrongHeader_iff r v.words).mp hn)

section
/-! What the operations of the queue pool and of fault records leave of a queue (R194–R203, R494). -/

namespace Sys2Proof.Machine

/-! ### Reading a queue after an operation -/

theorem Chip.queue_of_queues {c d : Chip} (h : d.queues = c.queues) (r q : Nat) : d.queue r q = c.queue r q := by
  unfold Chip.queue; rw [h]

@[simp] theorem Chip.queue_put (c : Chip) (f : Fld) (i v j r q : Nat) : (c.put f i v j).queue r q = c.queue r q := rfl
@[simp] theorem Chip.queue_set1 (c : Chip) (f : Fld) (i j r q : Nat) : (c.set1 f i j).queue r q = c.queue r q := rfl
@[simp] theorem Chip.queue_inc (c : Chip) (f : Fld) (i n j r q : Nat) : (c.inc f i n j).queue r q = c.queue r q := rfl
@[simp] theorem Chip.queue_setSeq (c : Chip) (cl : Nat) (x : SeqS) (r q : Nat) : (c.setSeq cl x).queue r q = c.queue r q := rfl
@[simp] theorem Chip.markMalformed_queues (c : Chip) (r q : Nat) : (c.markMalformed r q).queues = c.queues := by
  unfold Chip.markMalformed; rw [Chip.set1_queues, Chip.set1_queues]
@[simp] theorem Chip.queue_markMalformed (c : Chip) (r q r' q' : Nat) : (c.markMalformed r q).queue r' q' = c.queue r' q' :=
  Chip.queue_of_queues (c.markMalformed_queues r q) r' q'

/-- A queue with another key is unchanged. -/
theorem Chip.queue_setQueue_other (c : Chip) {r q r' q' : Nat} (x : QueueS) (h : r' * 1024 + q' ≠ r * 1024 + q) :
    (c.setQueue r q x).queue r' q' = c.queue r' q' := by
  unfold Chip.queue Chip.setQueue; exact sget_sset_other _ _ _ _ h

theorem Chip.queue_setQueue (c : Chip) (r q r' q' : Nat) (x : QueueS) :
    (c.setQueue r q x).queue r' q' = if r' * 1024 + q' = r * 1024 + q then x else c.queue r' q' := by
  unfold Chip.queue Chip.setQueue; exact sget_sset _ _ _ _ _

/-- Queues of one pool, or of two, have keys of their own (R193). -/
theorem queueKey_ne {r q r' q' : Nat} (hq : q < 1024) (hq' : q' < 1024) (h : (r', q') ≠ (r, q)) : r' * 1024 + q' ≠ r * 1024 + q :=
  fun e => h (Prod.ext (show r' = r by omega) (show q' = q by omega))

/-- Where the keys agree the queue is the same. -/
theorem Chip.queue_key (c : Chip) {r q r' q' : Nat} (h : r' * 1024 + q' = r * 1024 + q) : c.queue r' q' = c.queue r q := by
  unfold Chip.queue; rw [h]

theorem Chip.queue_link (c : Chip) (r q r' q' : Nat) (k : Packet) : (c.link r q k).queue r' q' =
    if r' * 1024 + q' = r * 1024 + q then
      { c.queue r q with linked := (c.queue r q).linked ++ [k]
                         timer := if (c.queue r q).linked.isEmpty then (c.inc .QP_QCNT_LINKED r 1 q).newTimer r q else (c.queue r q).timer }
    else c.queue r' q' := Chip.queue_setQueue _ _ _ _ _ _

/-! ### Free cells (R198) -/

/-- Whether a queue obtains a cell depends on the registers and the queues alone. -/
theorem Chip.canCell_of {c d : Chip} (hr : d.regs = c.regs) (hq : d.queues = c.queues) (r q : Nat) : d.canCell r q = c.canCell r q := by
  unfold Chip.canCell Chip.freeCells Chip.unusedReserves Chip.reserve Chip.enabledQueues Chip.queue Chip.g Chip.rd
  rw [hr, hq]

/-- A queue that obtains a cell has a quota. -/
theorem Chip.one_le_maxCells {c : Chip} {r q : Nat} (h : c.canCell r q = true) : 1 ≤ c.g .QP_QCFG_MAX_CELLS r q := by
  unfold Chip.canCell at h
  dsimp only at h
  split at h
  · cases h
  · next hn => rw [not_or, Nat.not_le] at hn; omega

/-! ### A packet linked -/

@[simp] theorem Chip.markPoisonIn_clean (c : Chip) (r q : Nat) : c.markPoisonIn r q false = c := rfl

@[simp] theorem Chip.markPoisonIn_queues (c : Chip) (r q : Nat) (p : Bool) : (c.markPoisonIn r q p).queues = c.queues := by
  unfold Chip.markPoisonIn; split
  · rw [Chip.set1_queues, Chip.set1_queues]
  · rfl

@[simp] theorem Chip.markPoisonIn_seqs (c : Chip) (r q : Nat) (p : Bool) : (c.markPoisonIn r q p).seqs = c.seqs := by
  unfold Chip.markPoisonIn; split
  · rw [Chip.set1_seqs, Chip.set1_seqs]
  · rfl

@[simp] theorem Chip.noRegs_markPoisonIn (c : Chip) (r q : Nat) (p : Bool) : (c.markPoisonIn r q p).noRegs = c.noRegs := by
  unfold Chip.markPoisonIn; split
  · rw [Chip.noRegs_set1, Chip.noRegs_set1]
  · rfl

/-- A poisoned word marks its queue. -/
theorem Chip.g_markPoisonIn (c : Chip) (r q : Nat) : (c.markPoisonIn r q true).g .QP_QSTAT_POISON_IN r q = 1 ∧
    (c.markPoisonIn r q true).g .QP_STICKY_POISON_IN r = 1 := by
  refine ⟨?_, Chip.g_set1_same _ _ _ _ ⟨by decide, by decide⟩⟩
  exact (Chip.g_put_reg _ .QP_STICKY_POISON_IN .QP_QSTAT_POISON_IN _ _ _ _ _ (by decide)).trans
    (c.g_set1_same .QP_QSTAT_POISON_IN r q ⟨by decide, by decide⟩)

/-- A malformed event marks its queue and its pool. -/
theorem Chip.g_markMalformed (c : Chip) (r q : Nat) : (c.markMalformed r q).g .QP_QSTAT_MALFORMED r q = 1 ∧
    (c.markMalformed r q).g .QP_STICKY_MALFORMED r = 1 := by
  refine ⟨?_, Chip.g_set1_same _ _ _ _ ⟨by decide, by decide⟩⟩
  exact (Chip.g_put_reg _ .QP_STICKY_MALFORMED .QP_QSTAT_MALFORMED _ _ _ _ _ (by decide)).trans
    (c.g_set1_same .QP_QSTAT_MALFORMED r q ⟨by decide, by decide⟩)

theorem Chip.g_link (c : Chip) (r q : Nat) (k : Packet) :
    (c.link r q k).g .QP_QCNT_LINKED r q = (c.g .QP_QCNT_LINKED r q + 1) % 2 ^ 64 :=
  c.g_inc_same .QP_QCNT_LINKED r 1 q ⟨by decide, by decide⟩

theorem Chip.regsBut_link (c : Chip) (r q : Nat) (k : Packet) : c.regsBut (c.link r q k) [.QP_QCNT] :=
  (c.regsBut_put .QP_QCNT_LINKED r _ q).regs rfl

/-- A packet without poison posted is linked, and marks nothing. -/
theorem Chip.post_clean {c d : Chip} {r q : Nat} {ws : List Word} (h : c.post r q (ws.map (·, false)) = .linked d) :
    d = c.link r q ⟨ws.map (·, false), false, false⟩ ∧ (c.queue r q).broken = false := by
  obtain ⟨rfl, -, hb⟩ := Chip.post_eq h
  have hclean : (ws.map (·, false)).any Prod.snd = false := by simp [List.any_map]
  exact ⟨by rw [hclean]; rfl, hb⟩

/-! ### The place of a fault record (R494) -/

/-- The registers that a record written to a fault queue and to the log writes: none of a queue's marks. -/
def logRegs : List Reg := [.QP_QCNT, .INT_CNT, .INT_STAT, .INT_FLOG]

/-- From c to d records were written: packets may have been linked to the queues that `may` holds of. -/
structure Chip.logged (may : Nat → Nat → Prop) (c d : Chip) : Prop where
  regs : c.regsBut d logRegs
  queue : ∀ r q, ¬ may r q → d.queue r q = c.queue r q
  rd : ∀ r q, (d.queue r q).rd = (c.queue r q).rd

section
variable {may may' : Nat → Nat → Prop} {c d e : Chip}

theorem Chip.logged.trans (h : Chip.logged may c d) (h' : Chip.logged may d e) : Chip.logged may c e :=
  ⟨h.regs.trans h'.regs, fun r q hn => (h'.queue r q hn).trans (h.queue r q hn), fun r q => (h'.rd r q).trans (h.rd r q)⟩

theorem Chip.logged.mono (h : Chip.logged may c d) (hm : ∀ r q, may r q → may' r q) : Chip.logged may' c d :=
  ⟨h.regs, fun r q hn => h.queue r q (fun hr => hn (hm r q hr)), h.rd⟩

/-- Registers of counts, marks and the log written, no queue changed. -/
theorem Chip.logged_of_queues (hq : d.queues = c.queues) (hr : c.regsBut d logRegs) : Chip.logged may c d :=
  ⟨hr, fun r q _ => Chip.queue_of_queues hq r q, fun r q => by rw [Chip.queue_of_queues hq r q]⟩

theorem Chip.logged_recLost (c : Chip) (p : Option Nat) : Chip.logged may c (c.recLost p) := by
  have h0 : Chip.logged may c (c.inc .INT_CNT_COUNT 0 1 4) :=
    Chip.logged_of_queues rfl ((c.regsBut_refl _).put .INT_CNT_COUNT 0 (c.g .INT_CNT_COUNT 0 4 + 1) 4 (by decide))
  cases p with
  | none => exact h0
  | some p => exact h0.trans (Chip.logged_of_queues rfl ((Chip.regsBut_refl _ _).put .INT_STAT_REC_LOST p 1 0 (by decide)))

theorem Chip.logged_put (c : Chip) (f : Fld) (i v j : Nat) (hf : f.reg ∈ logRegs) : Chip.logged may c (c.put f i v j) :=
  Chip.logged_of_queues rfl ((c.regsBut_refl _).put f i v j hf)

theorem Chip.logged_logRecord (c : Chip) (ws : List Word) : Chip.logged may c (c.logRecord ws) := by
  have h0 : Chip.logged may c { c with flog := sset [] c.flog (c.g .INT_FLOG_HEAD 0) (ws.take 8) } :=
    Chip.logged_of_queues rfl (Chip.regsBut_of_regs rfl _)
  unfold Chip.logRecord
  dsimp only
  refine Chip.logged.trans ?_ (Chip.logged_put _ .INT_FLOG_HEAD 0 _ 0 (by decide))
  split
  · exact h0.trans (Chip.logged_put _ .INT_FLOG_WRAPPED 0 1 0 (by decide))
  · exact h0

theorem Chip.logged_markIntStat (c : Chip) (cls p : Nat) : Chip.logged may c (c.markIntStat cls p) := by
  have mark : ∀ (d : Chip) (b : Prop) [Decidable b] (f : Fld), f.reg = .INT_STAT → Chip.logged may c d →
      Chip.logged may c (if b then d.set1 f p else d) := by
    intro d b _ f hf h; split
    · exact h.trans (Chip.logged_of_queues rfl ((d.regsBut_refl _).put f p 1 0 (by rw [hf]; decide)))
    · exact h
  have h0 : Chip.logged may c (c.set1 .INT_STAT_FAULT p) :=
    Chip.logged_of_queues rfl ((c.regsBut_refl _).put .INT_STAT_FAULT p 1 0 (by decide))
  exact mark _ _ _ rfl (mark _ _ _ rfl (mark _ _ _ rfl h0))

/-- A packet linked to a queue: the words already read of it stay. -/
theorem Chip.logged_link (c : Chip) (r q : Nat) (k : Packet) :
    Chip.logged (fun r' q' => r' * 1024 + q' = r * 1024 + q) c (c.link r q k) := by
  refine ⟨(c.regsBut_link r q k).mono (by decide), fun r' q' hn => ?_, fun r' q' => ?_⟩
  · rw [Chip.queue_link, if_neg hn]
  · rw [Chip.queue_link]
    split
    · next he => rw [c.queue_key he]
    · rfl

end

/-- Whether a record of a place may go to queue (r, q). -/
def Chip.mayRecord (c : Chip) (pl : Place) (r q : Nat) : Prop :=
  ∃ x, c.faultQueue pl = some x ∧ c.foreignRegion pl x.1 = false ∧ r * 1024 + q = x.1 * 1024 + x.2

theorem Chip.logged_postRecord (c : Chip) (pl : Place) (ws : List Word) : Chip.logged (c.mayRecord pl) c (c.postRecord pl ws) := by
  unfold Chip.postRecord
  split
  · exact c.logged_recLost _
  · next r q hfq =>
    dsimp only
    split
    · next hk =>
      split
      · next d hp =>
        rw [(Chip.post_clean hp).1]
        exact (c.logged_link r q _).mono (fun r' q' he => ⟨(r, q), hfq, by simpa using hk.2, he⟩)
      · exact c.logged_recLost _
    · exact c.logged_recLost _

theorem Chip.regsBut.on {c d : Chip} {l : List Reg} (h : c.regsBut d l) (f : Fld) (i j : Nat) (hf : f.reg ∉ l) :
    d.on f i j = c.on f i j := by unfold Chip.on; rw [h.g f i j hf]

/-- Who owns a region is written in `PART_OWN` (R561). -/
theorem Chip.regsBut.owner {c d : Chip} {l : List Reg} (h : c.regsBut d l) (hl : Reg.PART_OWN ∉ l) (r : Nat) : d.owner r = c.owner r := by
  unfold Chip.owner; rw [h.on _ _ _ hl, h.g _ _ _ hl]

theorem Chip.regsBut.owns {c d : Chip} {l : List Reg} (h : c.regsBut d l) (hl : Reg.PART_OWN ∉ l) (p r : Nat) : d.owns p r = c.owns p r := by
  unfold Chip.owns; rw [h.owner hl]

/-- Where the fault queue of a place lies is written in `INT_RGN_FQ` and `INT_CTL` (R527, R528). -/
theorem Chip.regsBut.faultQueue {c d : Chip} {l : List Reg} (h : c.regsBut d l) (hl : Reg.INT_RGN_FQ ∉ l ∧ Reg.INT_CTL ∉ l) (pl : Place) :
    d.faultQueue pl = c.faultQueue pl := by
  cases pl with
  | region r => unfold Chip.faultQueue; dsimp only; rw [h.on .INT_RGN_FQ_EN r 0 hl.1, h.g .INT_RGN_FQ_QUEUE r 0 hl.1]
  | part p =>
    unfold Chip.faultQueue
    dsimp only
    rw [h.on .INT_CTL_FQ_EN p 0 hl.2, h.g .INT_CTL_FQ_REG p 0 hl.2, h.g .INT_CTL_FQ_Q p 0 hl.2]
  | nobody l => rfl

theorem Chip.regsBut.homeFaults {c d : Chip} {l : List Reg} (h : c.regsBut d l)
    (hl : Reg.INT_RGN_FQ ∉ l ∧ Reg.INT_CTL ∉ l ∧ Reg.PART_OWN ∉ l) {p : Nat} (hc : c.homeFaults p) : d.homeFaults p := by
  intro x hx
  rw [h.faultQueue ⟨hl.1, hl.2.1⟩] at hx
  rw [h.owns hl.2.2]
  exact hc x hx

/-- Registers that say where records go decide it. -/
theorem Chip.mayRecord_of_regsBut {c d : Chip} {l : List Reg} (h : c.regsBut d l)
    (hl : Reg.INT_RGN_FQ ∉ l ∧ Reg.INT_CTL ∉ l ∧ Reg.PART_OWN ∉ l) (pl : Place) (r q : Nat) : d.mayRecord pl r q ↔ c.mayRecord pl r q := by
  have hf : ∀ r, d.foreignRegion pl r = c.foreignRegion pl r := by
    intro r
    unfold Chip.foreignRegion
    split
    · rw [h.owns hl.2.2]
    · rfl
  unfold Chip.mayRecord
  simp only [h.faultQueue ⟨hl.1, hl.2.1⟩, hf]

/-- The fault counted and its record written to the log (R494). -/
def Chip.faultLogged (c : Chip) (f : FaultSpec) : Chip :=
  (c.inc .INT_CNT_COUNT 0 1 0).logRecord ((c.inc .INT_CNT_COUNT 0 1 0).faultWords f)

theorem Chip.logged_faultLogged {may : Nat → Nat → Prop} (c : Chip) (f : FaultSpec) : Chip.logged may c (c.faultLogged f) :=
  Chip.logged.trans (d := c.inc .INT_CNT_COUNT 0 1 0)
    (Chip.logged_of_queues rfl ((c.regsBut_refl _).put .INT_CNT_COUNT 0 (c.g .INT_CNT_COUNT 0 + 1) 0 (by decide))) (Chip.logged_logRecord _ _)

theorem Chip.logged_faultPosted (c : Chip) (f : FaultSpec) (ws : List Word) :
    Chip.logged (c.mayRecord f.place) c ((c.faultLogged f).postRecord f.place ws) := by
  have h0 := c.logged_faultLogged (may := c.mayRecord f.place) f
  refine h0.trans (((c.faultLogged f).logged_postRecord f.place ws).mono (fun r q h => ?_))
  exact (Chip.mayRecord_of_regsBut h0.regs (by decide) _ _ _).mp h

/-- A fault of a region writes its record to the log and to the region's fault queue. -/
theorem Chip.logged_postFault_region (c : Chip) {f : FaultSpec} {r : Nat} (hf : f.place = .region r) :
    Chip.logged (c.mayRecord (.region r)) c (c.postFault f) := by
  have h := c.logged_faultPosted f ((c.inc .INT_CNT_COUNT 0 1 0).faultWords f)
  unfold Chip.faultLogged at h
  rw [hf] at h
  unfold Chip.postFault
  dsimp only
  rw [hf]
  dsimp only
  split
  · exact h.trans (Chip.logged_markIntStat _ _ _)
  · exact h

/-- A partition's record whose queue lies in the partition goes nowhere else. -/
theorem Chip.foreignRecord_home {c : Chip} {p : Nat} (h : c.homeFaults p) : c.foreignRecord p = c := by
  unfold Chip.foreignRecord
  split
  · next r q hfq => rw [if_pos (h _ hfq)]
  · rfl

/-- The record of a partition's foreign fault queue is linked to no queue. -/
theorem Chip.foreignRecord_queues (c : Chip) (p r q : Nat) : (c.foreignRecord p).queue r q = c.queue r q := by
  unfold Chip.foreignRecord
  split
  · split
    · rfl
    · have hrest := fun d : Chip => fun ws cls p =>
        ((d.logged_logRecord (may := fun _ _ => False) ws).trans (Chip.logged_markIntStat _ cls p)).trans (Chip.logged_recLost _ (some p))
      exact (hrest _ _ _ _).queue r q id
  · rfl

/-- A record posted for a partition goes to no queue outside it (R195). -/
theorem Chip.queue_postPart (c : Chip) (cls : Nat) {p r q : Nat} (ws : List Word) (h : ¬ c.mayRecord (.part p) r q) :
    (c.postPart cls p ws).queue r q = c.queue r q := by
  unfold Chip.postPart
  rw [Chip.foreignRecord_queues]
  exact ((c.logged_postRecord (.part p) ws).trans (Chip.logged_markIntStat _ cls p)).queue r q h

/-- A partition whose fault queue is its own writes no count of crossings with its record. -/
theorem Chip.logged_postPart {c : Chip} {p : Nat} (h : c.homeFaults p) (cls : Nat) (ws : List Word) :
    Chip.logged (c.mayRecord (.part p)) c (c.postPart cls p ws) := by
  have h0 := (c.logged_postRecord (.part p) ws).trans (Chip.logged_markIntStat _ cls p)
  unfold Chip.postPart
  rwa [Chip.foreignRecord_home (h0.regs.homeFaults (by decide) h)]

/-- A queue outside a partition receives no record of it. -/
theorem Chip.not_mayRecord {c : Chip} {p r q : Nat} (hq : q < 1024) (h : c.owns p r = false) : ¬ c.mayRecord (.part p) r q := by
  rintro ⟨⟨r', q'⟩, hfq, hown, hkey⟩
  have hq' : q' < 1024 := by
    unfold Chip.faultQueue at hfq
    dsimp only at hfq
    split at hfq
    · obtain ⟨-, rfl⟩ := Prod.mk.inj (Option.some.inj hfq)
      exact c.g_lt .INT_CTL_FQ_Q p 0
    · cases hfq
  obtain rfl : r = r' := by omega
  simp [Chip.foreignRegion, h] at hown

/-! ### An access across a partition boundary (R538) -/

/-- A crossing is counted; its record goes to no queue outside the partition. -/
theorem Chip.queue_xpart (c : Chip) {p r q : Nat} (kind src form target : Nat) (hq : q < 1024) (h : c.owns p r = false) :
    (c.xpart p kind src form target).queue r q = c.queue r q := by
  have h0 : c.regsBut (c.inc .PART_CNT_XPART_COUNT p) [.PART_CNT_XPART] := c.regsBut_put .PART_CNT_XPART_COUNT p _ 0
  have h1 := (c.inc .PART_CNT_XPART_COUNT p).logged_faultLogged (may := fun _ _ => False) (xpartSpec p kind src form target)
  refine (Chip.queue_postPart _ _ _ (Chip.not_mayRecord hq ?_)).trans (h1.queue r q id)
  exact (h1.regs.owns (by decide) p r).trans ((h0.owns (by decide) p r).trans h)

theorem Chip.g_xpart {c : Chip} {p : Nat} (kind src form target : Nat) (h : c.homeFaults p) :
    (c.xpart p kind src form target).g .PART_CNT_XPART_COUNT p = (c.g .PART_CNT_XPART_COUNT p + 1) % 2 ^ 64 := by
  have h0 : c.regsBut (c.inc .PART_CNT_XPART_COUNT p) [.PART_CNT_XPART] := c.regsBut_put .PART_CNT_XPART_COUNT p _ 0
  have h1 := (c.inc .PART_CNT_XPART_COUNT p).logged_faultLogged (may := fun _ _ => False) (xpartSpec p kind src form target)
  have h2 := Chip.logged_postPart (h1.regs.homeFaults (by decide) (h0.homeFaults (by decide) h)) 0x0F
    ((c.inc .PART_CNT_XPART_COUNT p |>.inc .INT_CNT_COUNT 0 1 0).faultWords (xpartSpec p kind src form target))
  exact (h2.regs.g .PART_CNT_XPART_COUNT p 0 (by decide)).trans ((h1.regs.g .PART_CNT_XPART_COUNT p 0 (by decide)).trans
    (c.g_inc_same .PART_CNT_XPART_COUNT p 1 0 ⟨by decide, by decide⟩))

end Sys2Proof.Machine
end

section
/-! Halts of a sequencer, and what it reads of its command queue that is no command (R196, R203, R214, R250, R254). -/

namespace Sys2Proof.Machine

/-! ### Effects on fields and on sequencers alone -/

/-- A one-bit field written is all that changes. -/
theorem State.effect_put (s : State) (f : Fld) (i v j : Nat) (hf : f.ok) (hi : i < 2048) (hj : j < 4096) :
    s.effect (s.onChip (fun c => c.put f i v j)) s.chip [(f, i, j)] :=
  ⟨⟨rfl, rfl⟩, rfl, s.chip.fieldsBut_put f i v j hf hi hj⟩

/-! ### RESUME (R250, R254) -/

variable {s : State} {fn : Fn} {cl : Nat}

theorem exec_seqStopRequest_reaches (h : s.chip.reaches fn .CLU_SEQ_CMD cl = true) :
    exec (.seqStopRequest fn cl) s = .next (s.onChip (fun c => c.set1 .CLU_SEQ_CMD_STOP cl)) :=
  nextChip_eq (if_pos h)

theorem exec_seqResume_stop (h : s.chip.reaches fn .CLU_SEQ_CMD cl = true) :
    exec (.seqResume fn cl true) s = .next (s.onChip (fun c => c.set1 .CLU_SEQ_CMD_STOP cl)) :=
  nextChip_eq ((if_neg (not_not.mpr h)).trans (if_pos rfl))

theorem exec_seqResume_resumes (h : s.chip.reaches fn .CLU_SEQ_CMD cl = true) :
    exec (.seqResume fn cl false) s = .next (s.onChip (fun c => c.resumeSeq cl)) :=
  nextChip_eq ((if_neg (not_not.mpr h)).trans (if_neg (by decide)))

/-- The causes that RESUME ends: STOP, ABANDON, a refused CALL, and CMDQ once the command queue is valid. -/
theorem Chip.resumeSeq_ends {c : Chip} (h : (c.seq cl).halt = 1 ∨ (c.seq cl).halt = 2 ∨ (c.seq cl).halt = 3 ∨
    ((c.seq cl).halt = 8 ∧ c.cmdqOk cl = true)) : c.resumeSeq cl = c.haltSeq cl 0 := by
  unfold Chip.resumeSeq
  rcases h with h | h | h | ⟨h, hq⟩ <;> rw [h]
  · rfl
  · rfl
  · rfl
  · exact if_pos hq

/-- The causes that RESUME leaves. -/
theorem Chip.resumeSeq_leaves {c : Chip} (h : (c.seq cl).halt = 0 ∨ (c.seq cl).halt = 5 ∨ (c.seq cl).halt = 6 ∨ (c.seq cl).halt = 7 ∨
    ((c.seq cl).halt = 8 ∧ c.cmdqOk cl = false) ∨ ((c.seq cl).halt = 4 ∧ c.available cl = [])) : c.resumeSeq cl = c := by
  unfold Chip.resumeSeq
  rcases h with h | h | h | h | ⟨h, hq⟩ | ⟨h, ha⟩ <;> rw [h]
  · rfl
  · rfl
  · rfl
  · rfl
  · exact if_neg (by rw [hq]; decide)
  · exact if_pos (by rw [ha]; rfl)

/-! ### SEQ_HALT (R214, R250) -/

theorem exec_seqHalt_stops (hs : s.chip.g .CLU_SEQ_CMD_STOP cl = 1) (hh : (s.chip.seq cl).halt = 0) (ha : (s.chip.seq cl).agree = .none) :
    exec (.seqHalt cl) s = .next (s.onChip (fun c => (c.put .CLU_SEQ_CMD_STOP cl 0).haltSeq cl 1)) :=
  nextChip_eq (if_pos ⟨(s.chip.on_iff rfl cl 0).mpr hs, hh, ha⟩)

theorem exec_seqHalt_checks (hs : s.chip.g .CLU_SEQ_CMD_STOP cl = 0) :
    exec (.seqHalt cl) s = .next (s.onChip (fun c => c.checkCmdq cl)) :=
  nextChip_eq (if_neg (fun h => by rw [s.chip.on_eq_false hs] at h; exact Bool.false_ne_true h.1))

theorem Chip.checkCmdq_halts {c : Chip} (hh : (c.seq cl).halt = 0) (he : c.g .CLU_SEQ_CTL_EN cl = 1) (hq : c.cmdqOk cl = false) :
    c.checkCmdq cl = c.haltSeq cl 8 :=
  if_pos ⟨(c.on_iff rfl cl 0).mpr he, hh, by rw [hq]; decide⟩

theorem Chip.checkCmdq_leaves {c : Chip} (h : (c.seq cl).halt ≠ 0 ∨ c.g .CLU_SEQ_CTL_EN cl = 0 ∨ c.cmdqOk cl = true) :
    c.checkCmdq cl = c := by
  refine if_neg (fun ⟨he, hh, hq⟩ => ?_)
  rcases h with h | h | h
  · exact h hh
  · rw [c.on_eq_false h] at he; exact Bool.false_ne_true he
  · exact hq h

/-! ### SEQ_READ_NULL (R196, R203) -/

/-- A sequencer that runs at top level on a valid command queue. -/
structure Chip.readsQueue (c : Chip) (cl : Nat) : Prop where
  runs : c.seqRuns cl = true
  top : (c.seq cl).stack = []
  valid : c.cmdqOk cl = true

/-- The head packet of a command queue taken. -/
theorem Chip.advance_top {c d : Chip} {k : Packet} (n : Nat) (ht : (c.seq cl).stack = [])
    (h : c.qTake (regionOfCl cl) (c.g .CLU_SEQ_CTL_CMDQ cl) = some (k, d)) : c.advance cl n = d := by
  unfold Chip.advance
  dsimp only
  rw [ht]
  dsimp only
  rw [h]

/-- What taking the head packet of a queue that is not broken leaves. -/
theorem Chip.qTake_cons {c : Chip} {r q : Nat} {k : Packet} {ks : List Packet} (hb : (c.queue r q).broken = false)
    (hl : (c.queue r q).linked = k :: ks) : c.qTake r q = some (k, (c.markPoisonIn r q (k.words.any Prod.snd)).setQueue r q
      { c.queue r q with linked := ks, rd := 0, timer := if ks.isEmpty then none else c.newTimer r q }) := by
  unfold Chip.qTake
  dsimp only
  rw [if_neg (by rw [hb]; decide), hl]

theorem exec_seqReadNull_null {k : Packet} {ks : List Packet} (h : s.chip.readsQueue cl)
    (hb : (s.chip.queue (regionOfCl cl) (s.chip.g .CLU_SEQ_CTL_CMDQ cl)).broken = false)
    (hl : (s.chip.queue (regionOfCl cl) (s.chip.g .CLU_SEQ_CTL_CMDQ cl)).linked = k :: ks) (hk : k.null = true) :
    exec (.seqReadNull cl) s = .next (s.onChip (fun c => c.advance cl 1)) := by
  refine nextChip_eq ?_
  rw [if_neg (by simp [h.runs, h.top, h.valid])]
  dsimp only
  rw [if_neg (by rw [hb]; decide), hl]
  exact if_pos hk

/-- A broken command queue read once: it gives poison, and is read no more (R203). -/
def Chip.readBroken (c : Chip) (cl : Nat) : Chip :=
  let r := regionOfCl cl
  let q := c.g .CLU_SEQ_CTL_CMDQ cl
  ((c.setQueue r q { c.queue r q with rd := 1 }).markPoisonIn r q true).set1 .CLU_SEQ_STICKY_POISON_CMD cl

theorem Chip.rd_readBroken (c : Chip) (cl : Nat) : ((c.readBroken cl).queue (regionOfCl cl) (c.g .CLU_SEQ_CTL_CMDQ cl)).rd = 1 := by
  unfold Chip.readBroken
  dsimp only
  rw [Chip.queue_set1, Chip.queue_markPoisonIn, Chip.queue_setQueue_same]

theorem Chip.g_readBroken (c : Chip) (cl : Nat) : (c.readBroken cl).g .CLU_SEQ_STICKY_POISON_CMD cl = 1 := by
  unfold Chip.readBroken
  exact Chip.g_set1_same _ _ _ _ ⟨by decide, by decide⟩

theorem Chip.seqs_readBroken (c : Chip) (cl : Nat) : (c.readBroken cl).seqs = c.seqs := by
  unfold Chip.readBroken
  dsimp only
  rw [Chip.set1_seqs, Chip.markPoisonIn_seqs, Chip.setQueue_seqs]

theorem exec_seqReadNull_broken (h : s.chip.readsQueue cl)
    (hb : (s.chip.queue (regionOfCl cl) (s.chip.g .CLU_SEQ_CTL_CMDQ cl)).broken = true)
    (hr : (s.chip.queue (regionOfCl cl) (s.chip.g .CLU_SEQ_CTL_CMDQ cl)).rd = 0) :
    exec (.seqReadNull cl) s = .next (s.onChip (fun c => (c.readBroken cl).consumePoison (c.partOfCl cl) 3 0 (.region (regionOfCl cl)) cl 2)) := by
  refine nextChip_eq ?_
  rw [if_neg (by simp [h.runs, h.top, h.valid])]
  dsimp only
  rw [if_pos hb, if_pos hr]
  rfl

/-- Poison consumed in a region: the step of the partition bears it, and the record leaves what was read of a queue. -/
theorem Chip.consumePoison_region (c : Chip) (p blk tag r loc lk : Nat) : let d := c.consumePoison p blk tag (.region r) loc lk
    Chip.logged (fun _ _ => True) c d ∧ d.stepS p = { c.stepS p with poison := true, killed := true } ∧ d.mem = c.mem ∧ d.seqs = c.seqs := by
  have hl := (c.setStep p { c.stepS p with poison := true, killed := true }).logged_postFault_region
    (f := { cls := 0x09, action := 2, place := .region r, loc := loc, lockind := lk, detail := [blk, tag] }) rfl
  have hf := c.consumePoison_only p blk tag (.region r) loc lk
  refine ⟨⟨hl.regs, fun _ _ hn => absurd trivial hn, hl.rd⟩, ?_, (congrArg Chip.mem hf.1 :), (congrArg Chip.seqs hf.1 :)⟩
  have hs : (c.consumePoison p blk tag (.region r) loc lk).steps = (c.setStep p { c.stepS p with poison := true, killed := true }).steps :=
    (congrArg Chip.steps hf.1 :)
  unfold Chip.stepS
  rw [hs]
  exact c.stepS_setStep_same p _

/-- A broken command queue is read once, as poison of the partition's step (R203, R504). -/
theorem seqReadNull_broken (h : s.chip.readsQueue cl)
    (hb : (s.chip.queue (regionOfCl cl) (s.chip.g .CLU_SEQ_CTL_CMDQ cl)).broken = true)
    (hr : (s.chip.queue (regionOfCl cl) (s.chip.g .CLU_SEQ_CTL_CMDQ cl)).rd = 0) :
    ∃ t, exec (.seqReadNull cl) s = .next t ∧ s.chipOnly t ∧ (t.chip.queue (regionOfCl cl) (s.chip.g .CLU_SEQ_CTL_CMDQ cl)).rd = 1 ∧
      t.chip.g .CLU_SEQ_STICKY_POISON_CMD cl = 1 ∧
      t.chip.stepS (s.chip.partOfCl cl) = { (s.chip.readBroken cl).stepS (s.chip.partOfCl cl) with poison := true, killed := true } ∧
      t.chip.seq cl = s.chip.seq cl := by
  have hrd := s.chip.rd_readBroken cl
  have hmark := s.chip.g_readBroken cl
  have hseqs := s.chip.seqs_readBroken cl
  refine ⟨_, exec_seqReadNull_broken h hb hr, State.chipOnly_onChip _ _, ?_⟩
  rw [State.onChip_chip]
  generalize s.chip.readBroken cl = d at hrd hmark hseqs ⊢
  obtain ⟨hlog, hstep, -, hsame⟩ := d.consumePoison_region (s.chip.partOfCl cl) 3 0 (regionOfCl cl) cl 2
  exact ⟨(hlog.rd _ _).trans hrd, (hlog.regs.g .CLU_SEQ_STICKY_POISON_CMD cl 0 (by decide)).trans hmark, hstep,
    congrArg (sget ({} : SeqS) · cl) (hsame.trans hseqs)⟩

end Sys2Proof.Machine
end

open Sys2Proof.Machine in
/-- Settles O21: RESUME and the issue decision by the cause they find, and what SEQ_READ_NULL takes from the command queue. -/
theorem sequencerHaltsAndResumes : Obligations.SequencerHaltsAndResumes := by
  intro s fn cl hcl c x
  have hstop : s.effect (s.onChip (fun c => c.set1 .CLU_SEQ_CMD_STOP cl)) c [(.CLU_SEQ_CMD_STOP, cl, 0)] ∧
      (c.set1 .CLU_SEQ_CMD_STOP cl).g .CLU_SEQ_CMD_STOP cl = 1 :=
    ⟨s.effect_put _ _ _ _ ⟨by decide, by decide⟩ (by omega) (by decide), c.g_set1_same _ _ _ ⟨by decide, by decide⟩⟩
  refine ⟨fun h => ⟨⟨_, exec_seqStopRequest_reaches h, hstop⟩, ⟨_, exec_seqResume_stop h, hstop⟩, fun hx => ?_, fun hx => ?_⟩,
    fun h => ?_, fun hs hh ha => ?_, fun hs hh he hq => ?_, fun hs hx => ?_, fun hruns htop hvalid => ?_⟩
  rotate_right
  · intro r q
    refine ⟨fun hb k ks hl hk => ?_, fun hb hr => ?_⟩
    · have htake := Chip.qTake_cons hb hl
      refine ⟨_, exec_seqReadNull_null ⟨hruns, htop, hvalid⟩ hb hl hk, ⟨rfl, rfl⟩, ?_⟩
      rw [State.onChip_chip, Chip.advance_top 1 htop htake]
      exact ⟨Chip.qTake_some htake, congrArg QueueS.linked (Chip.queue_setQueue_same _ _ _ _)⟩
    · obtain ⟨t, hexec, honly, hrd, hmark, hstep, hseq⟩ := seqReadNull_broken ⟨hruns, htop, hvalid⟩ hb hr
      exact ⟨t, hexec, honly, hrd, hmark, by rw [hstep], by rw [hstep], hseq⟩
  · refine ⟨_, exec_seqResume_resumes h, ?_⟩
    rw [State.onChip, Chip.resumeSeq_ends hx]
    exact ⟨⟨⟨rfl, rfl⟩, rfl, Chip.fieldsBut_of_regs rfl _⟩, c.seq_setSeq_same cl _, fun k hk => c.seq_setSeq_other _ hk⟩
  · rw [exec_seqResume_resumes h, State.onChip, Chip.resumeSeq_leaves hx]
  · have hn : ¬ c.reaches fn .CLU_SEQ_CMD cl = true := by rw [h]; decide
    exact ⟨nextChip_same (if_neg hn), fun b => nextChip_same (if_pos hn)⟩
  · refine ⟨_, exec_seqHalt_stops hs hh ha, ⟨⟨rfl, rfl⟩, rfl, ?_⟩, ?_, Chip.seq_setSeq_same _ cl _⟩
    · exact (c.fieldsBut_put .CLU_SEQ_CMD_STOP cl 0 0 ⟨by decide, by decide⟩ (by omega) (by decide)).regs rfl
    · exact c.g_put_same .CLU_SEQ_CMD_STOP cl 0 0 ⟨by decide, by decide⟩
  · refine ⟨_, exec_seqHalt_checks hs, ?_⟩
    rw [State.onChip, Chip.checkCmdq_halts hh he hq]
    exact ⟨⟨⟨rfl, rfl⟩, rfl, Chip.fieldsBut_of_regs rfl _⟩, c.seq_setSeq_same cl _⟩
  · rw [exec_seqHalt_checks hs, State.onChip, Chip.checkCmdq_leaves hx]

section
/-! What a queue does with a word offered, granted or read, and with FLUSH, RESET and EN (R194–R203, R208). -/

namespace Sys2Proof.Machine

/-! ### One queue of the pools changed -/

/-- From c to d memory stays, and so does every queue but (r, q). -/
structure Chip.oneQueue (r q : Nat) (c d : Chip) : Prop where
  mem : d.mem = c.mem
  queue : ∀ r' q', q' < 1024 → (r', q') ≠ (r, q) → d.queue r' q' = c.queue r' q'

section
variable {c d e : Chip} {r q : Nat}

theorem Chip.oneQueue_of_queues (hm : d.mem = c.mem) (hq : d.queues = c.queues) : Chip.oneQueue r q c d :=
  ⟨hm, fun r' q' _ _ => Chip.queue_of_queues hq r' q'⟩

theorem Chip.oneQueue.trans (h : Chip.oneQueue r q c d) (h' : Chip.oneQueue r q d e) : Chip.oneQueue r q c e :=
  ⟨h'.mem.trans h.mem, fun r' q' hq hn => (h'.queue r' q' hq hn).trans (h.queue r' q' hq hn)⟩

theorem Chip.oneQueue_setQueue (c : Chip) (hq : q < 1024) (x : QueueS) : Chip.oneQueue r q c (c.setQueue r q x) :=
  ⟨rfl, fun _ _ hq' hn => c.queue_setQueue_other x (queueKey_ne hq hq' hn)⟩

theorem Chip.oneQueue_put (c : Chip) (f : Fld) (i v j : Nat) : Chip.oneQueue r q c (c.put f i v j) := Chip.oneQueue_of_queues rfl rfl

theorem Chip.oneQueue_link (c : Chip) (hq : q < 1024) (k : Packet) : Chip.oneQueue r q c (c.link r q k) :=
  (c.oneQueue_put .QP_QCNT_LINKED r _ q).trans (Chip.oneQueue_setQueue _ hq _)

theorem Chip.oneQueue_markPoisonIn (c : Chip) (r' q' : Nat) (p : Bool) : Chip.oneQueue r q c (c.markPoisonIn r' q' p) :=
  Chip.oneQueue_of_queues (congrArg Chip.mem (c.noRegs_markPoisonIn r' q' p) :) (c.markPoisonIn_queues r' q' p)

end

/-! ### A word offered (R194, R197, R198) -/

theorem Chip.regsBut_markPoisonIn (c : Chip) (r q : Nat) (p : Bool) : c.regsBut (c.markPoisonIn r q p) [.QP_QSTAT, .QP_STICKY] := by
  unfold Chip.markPoisonIn
  split
  · exact ((c.regsBut_refl _).put .QP_QSTAT_POISON_IN r 1 q (by decide)).put .QP_STICKY_POISON_IN r 1 0 (by decide)
  · exact c.regsBut_refl _

/-- The open packet of a producer, one without words when it has none. -/
def QueueS.packetOf (x : QueueS) (prod : Nat) : OpenPkt := (x.openOf prod).getD ⟨prod, [], false⟩

theorem QueueS.packetOf_none {x : QueueS} {prod : Nat} (h : x.openOf prod = none) : x.packetOf prod = ⟨prod, [], false⟩ := by
  unfold QueueS.packetOf; rw [h]; rfl

/-- The open packets of the other producers. -/
def QueueS.opensBut (x : QueueS) (prod : Nat) : List OpenPkt := x.opens.filter (fun o => o.prod != prod)

/-- An enabled queue, not broken, that discards no packet of a producer. -/
structure Chip.admits (c : Chip) (r q prod : Nat) : Prop where
  enabled : c.g .QP_QCFG_EN r q = 1
  sound : (c.queue r q).broken = false
  unskipped : (c.queue r q).skip.contains prod = false

/-- The lengths of a producer's packet with one word more are allowed: 512 words, and the queue's quota of cells. -/
structure Chip.fits (c : Chip) (r q prod : Nat) : Prop where
  words : ((c.queue r q).packetOf prod).words.length < 512
  quota : cellsOf (((c.queue r q).packetOf prod).words.length + 1) ≤ c.g .QP_QCFG_MAX_CELLS r q

/-- A word stored: it extends its producer's packet, which END links. -/
def Chip.storeWord (c : Chip) (r q prod : Nat) (w : QWord) : Chip :=
  let x := c.queue r q
  let ws := (x.packetOf prod).words ++ [(w.w, w.p)]
  let d := c.markPoisonIn r q w.p
  if w.mark = 1 then (d.setQueue r q { x with opens := x.opensBut prod }).link r q ⟨ws, false, (x.packetOf prod).old⟩
  else d.setQueue r q { x with opens := x.opensBut prod ++ [{ x.packetOf prod with words := ws }] }

section
variable {c : Chip} {r q prod : Nat} {w : QWord}

theorem Chip.qAccept_closed (h : c.g .QP_QCFG_EN r q = 0 ∨ (c.queue r q).broken = true) :
    c.qAccept r q prod w = (c.markMalformed r q, .disabled) :=
  if_pos (h.imp_left (fun h => by rw [c.on_eq_false h]; decide))

/-- What an admitted word does not meet: the closed queue and the rest of an overlong packet. -/
theorem Chip.admits.branches (h : c.admits r q prod) :
    ¬ ((¬ c.on .QP_QCFG_EN r q = true) ∨ (c.queue r q).broken = true) ∧ ¬ (c.queue r q).skip.contains prod = true := by
  have hon : c.on .QP_QCFG_EN r q = true := (c.on_iff rfl r q).mpr h.enabled
  simp only [hon, h.sound, h.unskipped]
  decide

theorem Chip.qAccept_null (h : c.admits r q prod) (hm : w.mark = 2) (ho : (c.queue r q).openOf prod = none) (hc : c.canCell r q = true) :
    c.qAccept r q prod w = ((c.markPoisonIn r q w.p).link r q ⟨[(0, w.p)], true, false⟩, .ok) := by
  unfold Chip.qAccept
  dsimp only
  rw [if_neg h.branches.1, if_neg h.branches.2, if_neg (by rw [hm, ho]; decide), if_pos hm, if_pos hc]

theorem Chip.qAccept_stores (h : c.admits r q prod) (hm : w.mark = 0 ∨ w.mark = 1)
    (ho : w.mark = 0 → ((c.queue r q).packetOf prod).words.length = 0 → (c.queue r q).opens.length < 16) (hf : c.fits r q prod)
    (hc : ((c.queue r q).packetOf prod).words.length % 8 = 0 → c.canCell r q = true) :
    c.qAccept r q prod w = (c.storeWord r q prod w, .ok) := by
  obtain ⟨hwords, hquota⟩ := hf
  unfold Chip.qAccept Chip.storeWord
  unfold QueueS.packetOf at *
  dsimp only
  rw [if_neg h.branches.1, if_neg h.branches.2, if_neg (by omega), if_neg (by omega), if_neg (by omega), if_neg (by omega),
    if_neg (fun hn => hn.2 (hc hn.1))]
  split <;> rfl

theorem Chip.qAccept_stalls (h : c.admits r q prod) (hm : w.mark = 0 ∨ w.mark = 1) (hf : c.fits r q prod)
    (h8 : ((c.queue r q).packetOf prod).words.length % 8 = 0) (hc : c.canCell r q = false) :
    c.qAccept r q prod w = (c, .stalled) := by
  obtain ⟨hwords, hquota⟩ := hf
  unfold Chip.qAccept
  unfold QueueS.packetOf at *
  dsimp only
  rw [if_neg h.branches.1, if_neg h.branches.2, if_neg (by omega), if_neg (by omega)]
  split
  · rfl
  · rw [if_neg (by omega), if_pos ⟨h8, by rw [hc]; decide⟩]

/-- A word of a producer with none waiting is offered to the queue. -/
theorem Chip.qWrite_accepted {d : Chip} {res : QRes} (hw : (c.queue r q).waiting.any (fun y => y.1 == prod) = false)
    (h : c.qAccept r q prod w = (d, res)) (hres : res ≠ .stalled) : c.qWrite r q prod w = (d, res) := by
  unfold Chip.qWrite
  dsimp only
  rw [if_neg (by rw [hw]; decide), h]
  cases res with
  | stalled => exact absurd rfl hres
  | ok | malformed | overlong | disabled => rfl

/-- A word that is refused a cell, or follows one that waits, waits. -/
theorem Chip.qWrite_waits (h : (c.queue r q).waiting.any (fun y => y.1 == prod) = true ∨ c.qAccept r q prod w = (c, .stalled)) :
    c.qWrite r q prod w = (c.setQueue r q { c.queue r q with waiting := (c.queue r q).waiting ++ [(prod, w)] }, .stalled) := by
  unfold Chip.qWrite
  dsimp only
  split
  · rfl
  · next hn => rw [h.resolve_left hn]

theorem Chip.oneQueue_storeWord (hq : q < 1024) : Chip.oneQueue r q c (c.storeWord r q prod w) := by
  have h0 := c.oneQueue_markPoisonIn (r := r) (q := q) r q w.p
  unfold Chip.storeWord
  dsimp only
  split
  · exact (h0.trans (Chip.oneQueue_setQueue _ hq _)).trans (Chip.oneQueue_link _ hq _)
  · exact h0.trans (Chip.oneQueue_setQueue _ hq _)

theorem Chip.queue_storeWord_open (hm : w.mark = 0) : (c.storeWord r q prod w).queue r q = { c.queue r q with
    opens := (c.queue r q).opensBut prod ++ [{ (c.queue r q).packetOf prod with words := ((c.queue r q).packetOf prod).words ++ [(w.w, w.p)] }] } := by
  unfold Chip.storeWord
  dsimp only
  rw [if_neg (by rw [hm]; decide), Chip.queue_setQueue_same]

theorem Chip.storeWord_seqs (hm : w.mark = 0) : (c.storeWord r q prod w).seqs = c.seqs := by
  unfold Chip.storeWord
  dsimp only
  rw [if_neg (by rw [hm]; decide), Chip.setQueue_seqs, Chip.markPoisonIn_seqs]

/-- END links its packet at the tail. -/
theorem Chip.storeWord_end (hm : w.mark = 1) :
    ((c.storeWord r q prod w).queue r q).linked =
      (c.queue r q).linked ++ [⟨((c.queue r q).packetOf prod).words ++ [(w.w, w.p)], false, ((c.queue r q).packetOf prod).old⟩] ∧
    ((c.storeWord r q prod w).queue r q).opens = (c.queue r q).opensBut prod ∧
    (c.storeWord r q prod w).g .QP_QCNT_LINKED r q = (c.g .QP_QCNT_LINKED r q + 1) % 2 ^ 64 := by
  have hcount : (c.markPoisonIn r q w.p).g .QP_QCNT_LINKED r q = c.g .QP_QCNT_LINKED r q :=
    (c.regsBut_markPoisonIn r q w.p).g .QP_QCNT_LINKED r q (by decide)
  unfold Chip.storeWord
  dsimp only
  rw [if_pos hm, Chip.g_link, Chip.queue_link, if_pos rfl, Chip.queue_setQueue_same]
  exact ⟨rfl, rfl, by rw [Chip.setQueue_g, hcount]⟩

/-- A poisoned word stored marks its queue (R202). -/
theorem Chip.g_storeWord_poison (hp : w.p = true) : (c.storeWord r q prod w).g .QP_QSTAT_POISON_IN r q = 1 := by
  have hmark := (c.g_markPoisonIn r q).1
  unfold Chip.storeWord
  dsimp only
  rw [hp]
  split
  · rw [(Chip.regsBut_link _ r q _).g .QP_QSTAT_POISON_IN r q (by decide), Chip.setQueue_g, hmark]
  · rw [Chip.setQueue_g, hmark]

end

/-- A mark of a queue and the mark of its pool are all that changes. -/
theorem State.effect_marks (s : State) {f g : Fld} {r q : Nat} (hf : f.ok) (hg : g.ok) (hr : r < 2048) (hq : q < 4096) {d : Chip}
    (hd : d = (s.chip.set1 f r q).set1 g r) : s.effect (s.onChip (fun _ => d)) s.chip [(f, r, q), (g, r, 0)] := by
  subst hd
  refine ⟨State.chipOnly_onChip _ _, ?_, ?_⟩
  · rw [State.onChip_chip, Chip.noRegs_set1, Chip.noRegs_set1]
  · exact ((s.chip.fieldsBut_refl _).put f r 1 q hf hr hq (by simp)).put g r 1 0 hg hr (by decide) (by simp)

/-! ### QUEUE_WORD_WRITE (R538) -/

section
variable {s : State} {r q prod mark : Nat} {w : Word} {p : Bool}

/-- A producer of no partition, or of the one that owns the pool, offers its word. -/
theorem exec_queueWordWrite_offers {d : Chip} {res : QRes} (h : ∀ pt, s.chip.prodPart prod = some pt → s.chip.owns pt r = true)
    (hd : s.chip.qWrite r q prod ⟨w, mark % 4, p⟩ = (d, res)) : exec (.queueWordWrite r q prod w mark p) s = .next (s.onChip (fun _ => d)) := by
  refine nextChip_eq ?_
  cases hp : s.chip.prodPart prod with
  | none => exact congrArg Prod.fst hd
  | some pt => exact (if_pos (h pt hp)).trans (congrArg Prod.fst hd)

/-- A producer of another partition is blocked at the fence. -/
theorem exec_queueWordWrite_blocked {pt : Nat} (hp : s.chip.prodPart prod = some pt) (ho : s.chip.owns pt r = false) :
    exec (.queueWordWrite r q prod w mark p) s =
      .next (s.onChip (fun c => c.xpart pt 1 (c.g .FAB_ID_ID 0) 0 (r + q * 16))) := by
  refine nextChip_eq ?_
  rw [hp]
  exact if_neg (by rw [ho]; decide)

end

end Sys2Proof.Machine
end

section
/-! Cells granted, words read, staleness and FLUSH (R196, R198, R199, R200, R202, R203). -/

namespace Sys2Proof.Machine

/-! ### Records where no command has ended (R222) -/

/-- No command of sequencer cl has ended. -/
def Chip.noneEnded (c : Chip) (cl : Nat) : Prop := ∀ o ∈ (c.seq cl).outst, o.ended = none

/-- From c to d only the list of sequencers may be written anew, with the same sequencers. -/
structure Chip.sameSeqs (c d : Chip) : Prop where
  eq : d = { c with seqs := d.seqs }
  seq : ∀ cl, d.seq cl = c.seq cl

section
variable {c d e : Chip}

theorem Chip.sameSeqs_refl (c : Chip) : c.sameSeqs c := ⟨rfl, fun _ => rfl⟩

theorem Chip.sameSeqs.trans (h : c.sameSeqs d) (h' : d.sameSeqs e) : c.sameSeqs e := by
  refine ⟨?_, fun cl => (h'.seq cl).trans (h.seq cl)⟩
  have hd := h'.eq
  rw [h.eq] at hd
  exact hd

theorem Chip.sameSeqs.oneQueue {r q : Nat} (h : c.sameSeqs d) : Chip.oneQueue r q c d := by
  rw [h.eq]; exact Chip.oneQueue_of_queues rfl rfl

theorem Chip.sameSeqs.queue (h : c.sameSeqs d) (r q : Nat) : d.queue r q = c.queue r q := by rw [h.eq]; rfl

theorem Chip.linkRecords_open (c : Chip) (cl : Nat) (os : List OutCmd) (h : ∀ o ∈ os, o.ended = none) :
    ∀ blocked, c.linkRecords cl blocked os = (c, os) := by
  induction os with
  | nil => intro blocked; rfl
  | cons o os ih =>
    intro blocked
    unfold Chip.linkRecords
    rw [h o List.mem_cons_self]
    dsimp only
    rw [ih (fun o' ho' => h o' (List.mem_cons_of_mem _ ho'))]

theorem Chip.sameSeqs_flushRecords {cl : Nat} (h : c.noneEnded cl) : c.sameSeqs (c.flushRecords cl) := by
  unfold Chip.flushRecords
  rw [c.linkRecords_open cl _ h]
  refine ⟨rfl, fun k => ?_⟩
  by_cases hk : k = cl
  · rw [hk]; exact c.seq_setSeq_same cl _
  · exact c.seq_setSeq_other _ hk

theorem Chip.sameSeqs_flushAll (l : List Nat) : ∀ c : Chip, (∀ cl ∈ l, c.noneEnded cl) →
    c.sameSeqs (l.foldl (fun c cl => c.flushRecords cl) c) := by
  induction l with
  | nil => intro c _; exact c.sameSeqs_refl
  | cons cl l ih =>
    intro c h
    have h1 := c.sameSeqs_flushRecords (h cl List.mem_cons_self)
    refine h1.trans (ih _ (fun k hk o ho => h k (List.mem_cons_of_mem _ hk) o ?_))
    rwa [← h1.seq k]

theorem mem_rangeFrom_clusters {r cl : Nat} : cl ∈ rangeFrom (8 * r) 8 ↔ cl / 8 = r := by
  simp only [rangeFrom, List.mem_map, List.mem_range]
  exact ⟨fun ⟨k, hk, e⟩ => by omega, fun h => ⟨cl - 8 * r, by omega, by omega⟩⟩

end

/-! ### CELL_GRANTED (R198) -/

/-- The records of a region's sequencers linked. -/
def Chip.flushRegion (c : Chip) (r : Nat) : Chip := (rangeFrom (8 * r) 8).foldl (fun c cl => c.flushRecords cl) c

theorem Chip.sameSeqs_flushRegion {c : Chip} {r : Nat} (h : ∀ cl, cl / 8 = r → c.noneEnded cl) : c.sameSeqs (c.flushRegion r) :=
  Chip.sameSeqs_flushAll _ c (fun cl hcl => h cl (mem_rangeFrom_clusters.mp hcl))

section
variable {c : Chip} {r q prod : Nat} {w : QWord}

/-- A lone waiting word that finds no cell waits on. -/
theorem Chip.grantAll_stalled (hx : (c.queue r q).waiting = [(prod, w)]) (h : c.qAccept r q prod w = (c, .stalled)) :
    c.grantAll r q 1 = c := by
  simp [Chip.grantAll, Chip.grantOne, hx, h]

/-- A lone waiting word that the queue takes waits no more. -/
theorem Chip.grantAll_taken {d : Chip} (hx : (c.queue r q).waiting = [(prod, w)]) (h : c.qAccept r q prod w = (d, .ok)) :
    c.grantAll r q 1 = d.setQueue r q { d.queue r q with waiting := [] } := by
  simp [Chip.grantAll, Chip.grantOne, hx, h]

/-- A lone waiting word that opens a packet: it obtains its cell, or waits on. -/
theorem Chip.grantAll_opens {p : Bool} {w : Word} (hx : (c.queue r q).waiting = [(prod, ⟨w, 0, p⟩)]) (h : c.admits r q prod)
    (ho : (c.queue r q).openOf prod = none) (h16 : (c.queue r q).opens.length < 16) (hmax : 1 ≤ c.g .QP_QCFG_MAX_CELLS r q) :
    (c.canCell r q = false → c.grantAll r q 1 = c) ∧
    (c.canCell r q = true → c.grantAll r q 1 = (c.storeWord r q prod ⟨w, 0, p⟩).setQueue r q
      { c.queue r q with opens := (c.queue r q).opensBut prod ++ [⟨prod, [(w, p)], false⟩], waiting := [] }) := by
  have hpk := QueueS.packetOf_none ho
  have hfits : c.fits r q prod := ⟨by rw [hpk]; simp, by rw [hpk]; simpa [cellsOf, cdiv] using hmax⟩
  refine ⟨fun hc => Chip.grantAll_stalled hx (Chip.qAccept_stalls h (.inl rfl) hfits (by rw [hpk]; rfl) hc), fun hc => ?_⟩
  rw [Chip.grantAll_taken hx (Chip.qAccept_stores h (.inl rfl) (fun _ _ => h16) hfits (fun _ => hc)), Chip.queue_storeWord_open rfl, hpk]
  rfl

end

section
variable {s : State} {r q : Nat}

theorem exec_cellGranted_none (h : (s.chip.queue r q).waiting = []) :
    exec (.cellGranted r q) s = .next (s.onChip (fun _ => s.chip.flushRegion r)) := by
  refine nextChip_eq ?_
  dsimp only
  rw [h, if_neg (by simp)]
  rfl

/-- An open queue with one word waiting. -/
theorem exec_cellGranted_one {y : Nat × QWord} (h : (s.chip.queue r q).waiting = [y]) (he : s.chip.g .QP_QCFG_EN r q = 1)
    (hb : (s.chip.queue r q).broken = false) :
    exec (.cellGranted r q) s = .next (s.onChip (fun _ => (s.chip.grantAll r q 1).flushRegion r)) := by
  refine nextChip_eq ?_
  dsimp only
  rw [h, if_neg (by simp [hb, (s.chip.on_iff rfl r q).mpr he])]
  rfl

/-- Where no command has ended, linking the records of the region changes nothing. -/
theorem Chip.sameSeqs.resumed {cmd : Instr} {d : Chip} (h : s.chip.sameSeqs d) (hd : exec cmd s = .next (s.onChip (fun _ => d))) :
    ∃ t, exec cmd s = .next t ∧ s.effect t { s.chip with seqs := t.chip.seqs } [] ∧ ∀ cl, t.chip.seq cl = s.chip.seq cl := by
  refine ⟨_, hd, ⟨State.chipOnly_onChip _ _, congrArg Chip.noRegs h.eq, ?_⟩, h.seq⟩
  rw [State.onChip_chip, h.eq]
  exact Chip.fieldsBut_of_regs rfl _

end

/-! ### QUEUE_WORD_READ (R196, R202, R203, R504) -/

section
variable {s : State} {r q : Nat}

theorem Chip.qRead_broken {c : Chip} (hb : (c.queue r q).broken = true) : c.qRead r q = some (⟨0, 2, true⟩, c.markPoisonIn r q true) := by
  unfold Chip.qRead; dsimp only; rw [if_pos hb]

/-- The queue after its consumer read one word: the next word of the packet, or past it. -/
def Chip.pastWord (c : Chip) (r q : Nat) (k : Packet) (ks : List Packet) : QueueS :=
  let x := c.queue r q
  if k.words.length ≤ x.rd + 1 then { x with linked := ks, rd := 0, timer := if ks.isEmpty then none else c.newTimer r q }
  else { x with rd := x.rd + 1, timer := c.newTimer r q }

theorem exec_queueWordRead_empty (hb : (s.chip.queue r q).broken = false) (hl : (s.chip.queue r q).linked = []) :
    exec (.queueWordRead r q) s = .next s := by
  refine nextChip_same ?_
  simp [Chip.qRead, hb, hl]

theorem exec_queueWordRead_cons {k : Packet} {ks : List Packet} (hb : (s.chip.queue r q).broken = false)
    (hl : (s.chip.queue r q).linked = k :: ks) :
    exec (.queueWordRead r q) s = .next (s.onChip (fun _ =>
      (s.chip.markPoisonIn r q (k.words.getD (s.chip.queue r q).rd (0, false)).2).setQueue r q (s.chip.pastWord r q k ks))) := by
  refine nextChip_eq ?_
  have hread : s.chip.qRead r q = some (⟨(k.words.getD (s.chip.queue r q).rd (0, false)).1,
      if k.null then 2 else if decide (k.words.length ≤ (s.chip.queue r q).rd + 1) then 1 else 0,
      (k.words.getD (s.chip.queue r q).rd (0, false)).2⟩,
      (s.chip.markPoisonIn r q (k.words.getD (s.chip.queue r q).rd (0, false)).2).setQueue r q (s.chip.pastWord r q k ks)) := by
    unfold Chip.qRead Chip.pastWord
    dsimp only
    rw [if_neg (by rw [hb]; decide), hl]
    simp only [decide_eq_true_eq]
  rw [hread]
  dsimp only
  rw [if_neg (by rw [hb]; simp)]

theorem exec_queueWordRead_broken (hb : (s.chip.queue r q).broken = true) (hk : s.chip.g .QP_QCFG_CKIND r q ≠ 3) :
    exec (.queueWordRead r q) s = .next (s.onChip (fun _ => s.chip.markPoisonIn r q true)) := by
  refine nextChip_eq ?_
  rw [Chip.qRead_broken hb]
  exact if_neg (fun h => hk h.2)

/-- A hub agent that reads a broken queue consumes poison of the partition that owns the pool. -/
theorem exec_queueWordRead_hub {p : Nat} (hb : (s.chip.queue r q).broken = true) (hk : s.chip.g .QP_QCFG_CKIND r q = 3)
    (ho : s.chip.owner r = some p) :
    exec (.queueWordRead r q) s = .next (s.onChip (fun c => (c.markPoisonIn r q true).consumePoison p 9 0 (.region r) r 3)) := by
  refine nextChip_eq ?_
  rw [Chip.qRead_broken hb]
  dsimp only
  rw [if_pos ⟨hb, hk⟩, (s.chip.regsBut_markPoisonIn r q true).owner (by decide), ho]

/-- The mark that the queue has stays, and the step of the partition bears the poison. -/
theorem Chip.consumePoison_hub {c e : Chip} (p : Nat) (hsame : e.noRegs = c.noRegs) (hmark : e.g .QP_QSTAT_POISON_IN r q = 1) :
    (e.consumePoison p 9 0 (.region r) r 3).mem = c.mem ∧ (e.consumePoison p 9 0 (.region r) r 3).g .QP_QSTAT_POISON_IN r q = 1 ∧
    (e.consumePoison p 9 0 (.region r) r 3).stepS p = { c.stepS p with poison := true, killed := true } := by
  obtain ⟨hlog, hstep, hmem, -⟩ := e.consumePoison_region p 9 0 r r 3
  have hm : e.noRegs.mem = c.noRegs.mem := congrArg Chip.mem hsame
  have hs : e.noRegs.steps = c.noRegs.steps := congrArg Chip.steps hsame
  refine ⟨hmem.trans hm, (hlog.regs.g .QP_QSTAT_POISON_IN r q (by decide)).trans hmark, hstep.trans ?_⟩
  rw [show e.stepS p = c.stepS p from congrArg (sget ({} : StepS) · p) hs]

end

end Sys2Proof.Machine
end

section
/-! The commands of a queue's control: staleness, FLUSH, RESET and EN (R198–R201, R208). -/

namespace Sys2Proof.Machine

/-! ### Queues and memory kept -/

/-- From c to d memory and every queue stay, and every register but the listed ones. -/
structure Chip.queuesKept (l : List Reg) (c d : Chip) : Prop where
  mem : d.mem = c.mem
  queues : d.queues = c.queues
  regs : c.regsBut d l

section
variable {c d e : Chip} {l : List Reg}

theorem Chip.queuesKept_refl (l : List Reg) (c : Chip) : Chip.queuesKept l c c := ⟨rfl, rfl, c.regsBut_refl l⟩

theorem Chip.queuesKept.trans (h : Chip.queuesKept l c d) (h' : Chip.queuesKept l d e) : Chip.queuesKept l c e :=
  ⟨h'.mem.trans h.mem, h'.queues.trans h.queues, h.regs.trans h'.regs⟩

theorem Chip.queuesKept.oneQueue {r q : Nat} (h : Chip.queuesKept l c d) : Chip.oneQueue r q c d :=
  Chip.oneQueue_of_queues h.mem h.queues

theorem Chip.queuesKept_put (c : Chip) (f : Fld) (i v j : Nat) (hf : f.reg ∈ l) : Chip.queuesKept l c (c.put f i v j) :=
  ⟨rfl, rfl, (c.regsBut_refl l).put f i v j hf⟩

theorem foldl_queuesKept {β : Type} {f : Chip → β → Chip} (h : ∀ c x, Chip.queuesKept l c (f c x)) (xs : List β) :
    ∀ c, Chip.queuesKept l c (xs.foldl f c) := by
  induction xs with
  | nil => exact Chip.queuesKept_refl l
  | cons x xs ih => exact fun c => (h c x).trans (ih _)

end

/-! ### STALE_TIMER_FIRE (R199) -/

theorem Chip.queuesKept_raise (c : Chip) (f v : Nat) : Chip.queuesKept [.HOSTIF_HOQ_STAT, .MSIX_PBA] c (c.raise f v) :=
  ⟨(congrArg Chip.mem (c.noRegs_raise f v) :), (congrArg Chip.queues (c.noRegs_raise f v) :), (c.regsBut_raise f v).mono (by decide)⟩

/-- The stale event reaches the consumer, and no queue. -/
theorem Chip.queuesKept_staleEvent (c : Chip) (r q : Nat) : Chip.queuesKept [.HOSTIF_HOQ_STAT, .MSIX_PBA] c (c.staleEvent r q) := by
  unfold Chip.staleEvent
  split
  · exact ⟨rfl, rfl, Chip.regsBut_of_regs rfl _⟩
  · refine foldl_queuesKept (fun c f => foldl_queuesKept (fun c k => ?_) _ c) _ c
    split
    · exact (c.queuesKept_put .HOSTIF_HOQ_STAT_STALE f 1 k (by decide)).trans (Chip.queuesKept_raise _ _ _)
    · exact Chip.queuesKept_refl _ _
  · exact Chip.queuesKept_refl _ _

/-- A staleness timer that fired: it stands no more, the queue is marked, and its consumer is told. -/
def Chip.fireStale (c : Chip) (r q : Nat) : Chip :=
  (((c.setQueue r q { c.queue r q with timer := none }).set1 .QP_QSTAT_STALE_FIRED r q).set1 .QP_STICKY_STALE r).staleEvent r q

section
variable {s : State} {r q : Nat}

theorem exec_staleTimerFire_idle (h : (s.chip.queue r q).linked = [] ∨ ∀ b, (s.chip.queue r q).timer = some b → s.chip.up < b) :
    exec (.staleTimerFire r q) s = .next s := by
  refine nextChip_same ?_
  dsimp only
  split
  · next b hb =>
    refine if_neg (fun ⟨hup, hne⟩ => ?_)
    rcases h with h | h
    · rw [h] at hne; exact hne rfl
    · have := h b hb; omega
  · rfl

theorem exec_staleTimerFire_fires {b : Nat} (hb : (s.chip.queue r q).timer = some b) (hup : b ≤ s.chip.up)
    (hl : (s.chip.queue r q).linked ≠ []) : exec (.staleTimerFire r q) s = .next (s.onChip (fun _ => s.chip.fireStale r q)) := by
  refine nextChip_eq ?_
  dsimp only
  rw [hb]
  exact if_pos ⟨hup, by simpa using hl⟩

end

theorem Chip.fireStale_marks (c : Chip) (r q : Nat) (hq : q < 1024) : let d := c.fireStale r q
    Chip.oneQueue r q c d ∧ d.queue r q = { c.queue r q with timer := none } ∧
    d.g .QP_QSTAT_STALE_FIRED r q = 1 ∧ d.g .QP_STICKY_STALE r = 1 := by
  have h0 := c.oneQueue_setQueue (r := r) hq { c.queue r q with timer := none }
  have hx : (c.setQueue r q { c.queue r q with timer := none }).queue r q = { c.queue r q with timer := none } := Chip.queue_setQueue_same _ _ _ _
  unfold Chip.fireStale
  dsimp only
  generalize c.setQueue r q { c.queue r q with timer := none } = e at h0 hx ⊢
  have h1 := ((e.queuesKept_put (l := [.QP_QSTAT, .QP_STICKY]) .QP_QSTAT_STALE_FIRED r 1 q (by decide)).trans
    (Chip.queuesKept_put _ .QP_STICKY_STALE r 1 0 (by decide)))
  have h2 := Chip.queuesKept_staleEvent ((e.set1 .QP_QSTAT_STALE_FIRED r q).set1 .QP_STICKY_STALE r) r q
  refine ⟨h0.trans (h1.oneQueue.trans h2.oneQueue), ?_, ?_, ?_⟩
  · rw [Chip.queue_of_queues h2.queues, Chip.queue_set1, Chip.queue_set1, hx]
  · refine (h2.regs.g .QP_QSTAT_STALE_FIRED r q (by decide)).trans ?_
    exact (Chip.g_put_reg _ .QP_STICKY_STALE .QP_QSTAT_STALE_FIRED _ _ _ _ _ (by decide)).trans (e.g_set1_same _ r q ⟨by decide, by decide⟩)
  · exact (h2.regs.g .QP_STICKY_STALE r 0 (by decide)).trans (Chip.g_set1_same _ _ _ _ ⟨by decide, by decide⟩)

/-! ### QP_FLUSH, FLUSH_TAKE_EFFECT and QP_RESET (R200, R201) -/

section
variable {s : State} {fn : Fn} {r q : Nat}

theorem exec_qpFlush_idle (h : s.chip.reaches fn .QP_QCMD r = false ∨ (s.chip.queue r q).flush = true) :
    exec (.qpFlush fn r q) s = .next s := by
  refine nextChip_same ?_
  split
  · next hn =>
    rcases h with h | h
    · rw [h] at hn; exact absurd hn.1 (by decide)
    · exact if_pos h
  · rfl

theorem exec_qpFlush_marks (h : s.chip.reaches fn .QP_QCMD r = true) (hq : q < 1024) (hf : (s.chip.queue r q).flush = false) :
    exec (.qpFlush fn r q) s = .next (s.onChip (fun _ => s.chip.setQueue r q { s.chip.queue r q with
      flush := true, linked := (s.chip.queue r q).linked.map (fun k => { k with old := true })
      opens := (s.chip.queue r q).opens.map (fun o => { o with old := true }) })) :=
  nextChip_eq ((if_pos ⟨h, hq⟩).trans (if_neg (by rw [hf]; decide)))

theorem exec_flushTakeEffect_waits (h : (s.chip.queue r q).flush = false ∨ (s.chip.queue r q).rd ≠ 0 ∨
    ∃ o ∈ (s.chip.queue r q).opens, o.old = true) : exec (.flushTakeEffect r q) s = .next s := by
  refine nextChip_same (if_neg (fun ⟨hf, hrd, ho⟩ => ?_))
  rcases h with h | h | ⟨o, hm, h⟩
  · rw [h] at hf; cases hf
  · exact h hrd
  · have := List.all_eq_true.mp ho o hm
    rw [h] at this
    cases this

theorem exec_flushTakeEffect_drops (hf : (s.chip.queue r q).flush = true) (hrd : (s.chip.queue r q).rd = 0)
    (ho : ∀ o ∈ (s.chip.queue r q).opens, o.old = false) :
    exec (.flushTakeEffect r q) s = .next (s.onChip (fun _ => s.chip.setQueue r q { s.chip.queue r q with
      linked := (s.chip.queue r q).linked.filter (fun k => !k.old), flush := false
      timer := if ((s.chip.queue r q).linked.filter (fun k => !k.old)).isEmpty then none else (s.chip.queue r q).timer })) :=
  nextChip_eq (if_pos ⟨hf, hrd, List.all_eq_true.mpr (fun o hm => by rw [ho o hm]; rfl)⟩)

theorem exec_qpReset_empties (h : s.chip.reaches fn .QP_QCMD r = true) (hq : q < 1024) (hk : s.chip.locked r = false) :
    exec (.qpReset fn r q) s = .next (s.onChip (fun _ => s.chip.setQueue r q {})) := by
  refine nextChip_eq ?_
  rw [if_neg (not_or.mpr ⟨not_not.mpr h, by omega⟩)]
  unfold Chip.locked at hk
  cases ho : s.chip.owner r with
  | none => rfl
  | some p => rw [ho] at hk; exact if_neg (by dsimp only at hk; rw [hk]; decide)

/-- RESET of a running partition's queue is dropped as a lock violation. -/
theorem exec_qpReset_locked {p : Nat} (h : s.chip.reaches fn .QP_QCMD r = true) (hq : q < 1024) (ho : s.chip.owner r = some p)
    (hr : s.chip.runs p = true) : exec (.qpReset fn r q) s = .next (s.onChip (fun c => c.lockViol p (Reg.QP_QCMD.offset r q))) := by
  refine nextChip_eq ?_
  rw [if_neg (not_or.mpr ⟨not_not.mpr h, by omega⟩), ho]
  exact if_pos hr

/-- A lock violation writes the two fields that record it. -/
theorem State.effect_lockViol (s : State) {p : Nat} (off : Nat) (hp : p < 2048) :
    s.effect (s.onChip (fun c => c.lockViol p off)) s.chip [(.PART_STAT_LOCK_VIOL, p, 0), (.PART_VIOL_LOCK_OFF, p, 0)] :=
  ⟨⟨rfl, rfl⟩, rfl, ((s.chip.fieldsBut_refl _).put .PART_STAT_LOCK_VIOL p 1 0 ⟨by decide, by decide⟩ hp (by decide) (by simp)).put
    .PART_VIOL_LOCK_OFF p off 0 ⟨by decide, by decide⟩ hp (by decide) (by simp)⟩

theorem Chip.queue_lockViol (c : Chip) (p off r q : Nat) : (c.lockViol p off).queue r q = c.queue r q := by
  rw [Chip.lockViol, Chip.queue_put, Chip.queue_set1]

theorem Chip.owner_lt {c : Chip} {r p : Nat} (h : c.owner r = some p) : p < 16 := by
  unfold Chip.owner at h
  split at h
  · rw [← Option.some.inj h]; exact c.g_lt .PART_OWN_OWNER 0 r
  · cases h

end

end Sys2Proof.Machine
end

section
/-! QUEUE_EN_WRITE (R198, R201, R208). -/

namespace Sys2Proof.Machine

/-! ### The word of `QP_QCFG` written -/

/-- The word that a write of `QP_QCFG` whole stores. -/
def Chip.qcfgWord (c : Chip) (r q d : Nat) : Word := stored .QP_QCFG r (c.newWord .QP_QCFG r q 63 0 d)

/-- The chip after the access types of a write of `QP_QCFG`, before EN is decided. -/
def Chip.qcfgWritten (c : Chip) (r q d : Nat) : Chip :=
  (c.violated ⟨.QP_QCFG, r, q, 0⟩ 63 0).wrBits .QP_QCFG r (c.qcfgWord r q d) 63 0 q

theorem Chip.writeReg_qcfg (c : Chip) (fn : Fn) (r q d : Nat) : c.writeReg fn ⟨.QP_QCFG, r, q, 0⟩ 63 0 d = c.qcfgWritten r q d := rfl

/-- The bounds of the stored values lie above EN and CKIND. -/
theorem stored_qcfg_low (f : Nat) (w : Word) {n : Nat} (hn : n < 8) : (stored .QP_QCFG f w).getLsbD n = w.getLsbD n := by
  have hset : ∀ (w : Word) (b : Prop) [Decidable b] (hi lo v : Nat), 8 ≤ lo → lo ≤ hi → hi < 64 →
      (if b then wset w hi lo v else w).getLsbD n = w.getLsbD n := by
    intro w b _ hi lo v hlo hle hhi
    split
    · rw [wset_getLsbD w v n hle hhi, if_neg (by omega)]
    · rfl
  unfold stored
  dsimp only
  rw [hset _ _ _ _ _ (by decide) (by decide) (by decide), hset _ _ _ _ _ (by decide) (by decide) (by decide),
    hset _ _ _ _ _ (by decide) (by decide) (by decide), hset _ _ _ _ _ (by decide) (by decide) (by decide)]

theorem Chip.qcfgWord_low (c : Chip) (r q : Nat) (data : Word) {n : Nat} (hn : n < 8) : (c.qcfgWord r q data.toNat).getLsbD n =
    writtenBit .QP_QCFG (c.isLocked .QP_QCFG r) (c.rd .QP_QCFG r q) 0 64 data n := by
  unfold Chip.qcfgWord
  rw [stored_qcfg_low r _ hn]
  exact Reg.touched_getLsbD .QP_QCFG _ data.toNat _ data (by decide) (by decide) (fun n _ _ => rfl) n

section
variable (c : Chip) (r q : Nat) (data : Word)

theorem writtenBit_en (locked : Bool) (old data : Word) : writtenBit .QP_QCFG locked old 0 64 data 0 = old.getLsbD 0 := by
  cases locked <;> rfl

/-- EN is written by an operation of its own. -/
theorem Chip.g_qcfgWritten_en : (c.qcfgWritten r q data.toNat).g .QP_QCFG_EN r q = c.g .QP_QCFG_EN r q := by
  refine (congrArg (wbits · 0 0) (Chip.rd_wrBits_same _ .QP_QCFG r _ 63 0 q)).trans (wbits_congr (fun n _ hn => ?_))
  obtain rfl : n = 0 := by omega
  exact (c.qcfgWord_low r q data (by decide)).trans (writtenBit_en _ _ data)

/-- The bits of CKIND are one field, locked while the partition runs. -/
theorem writtenBit_ckind (locked : Bool) (old data : Word) {n : Nat} (h1 : 1 ≤ n) (h3 : n ≤ 3) :
    writtenBit .QP_QCFG locked old 0 64 data n = if locked then old.getLsbD n else data.getLsbD n := by
  have hn : n = 1 ∨ n = 2 ∨ n = 3 := by omega
  cases locked <;> rcases hn with rfl | rfl | rfl <;> rfl

theorem Chip.g_qcfgWritten_ckind : (c.qcfgWritten r q data.toNat).g .QP_QCFG_CKIND r q =
    if c.isLocked .QP_QCFG r then c.g .QP_QCFG_CKIND r q else wbits data 3 1 := by
  have hbit : ∀ n, 1 ≤ n → n ≤ 3 → (c.qcfgWord r q data.toNat).getLsbD n =
      if c.isLocked .QP_QCFG r then (c.rd .QP_QCFG r q).getLsbD n else data.getLsbD n := fun n h1 h3 => by
    rw [c.qcfgWord_low r q data (by omega), writtenBit_ckind _ _ _ h1 h3]
  refine (congrArg (wbits · 3 1) (Chip.rd_wrBits_same _ .QP_QCFG r _ 63 0 q)).trans ?_
  split
  · next hk => exact wbits_congr (fun n h1 h3 => by rw [hbit n h1 h3, if_pos hk])
  · next hk => exact wbits_congr (fun n h1 h3 => by rw [hbit n h1 h3, if_neg hk])

end

theorem Chip.queuesKept_wrBits {l : List Reg} (c : Chip) (r : Reg) (i : Nat) (v : Word) (hi lo j : Nat) (hr : r ∈ l) :
    Chip.queuesKept l c (c.wrBits r i v hi lo j) :=
  ⟨rfl, rfl, fun _ i' j' hn => c.rd_wrBits_reg r i v hi lo j i' j' (fun e => hn (e ▸ hr))⟩

/-- The write changes `QP_QCFG`, and the marks of a lock violation if it is one. -/
theorem Chip.queuesKept_qcfgWritten (c : Chip) (r q d : Nat) :
    Chip.queuesKept [.QP_QCFG, .PART_STAT, .PART_VIOL] c (c.qcfgWritten r q d) := by
  have hv : Chip.queuesKept [.QP_QCFG, .PART_STAT, .PART_VIOL] c (c.violated ⟨.QP_QCFG, r, q, 0⟩ 63 0) := by
    unfold Chip.violated
    split
    · split
      · next p _ =>
        exact (c.queuesKept_put .PART_STAT_LOCK_VIOL p 1 0 (by decide)).trans (Chip.queuesKept_put _ .PART_VIOL_LOCK_OFF p _ 0 (by decide))
      · exact Chip.queuesKept_refl _ c
    · exact Chip.queuesKept_refl _ c
  exact hv.trans (Chip.queuesKept_wrBits _ _ _ _ _ _ _ (by decide))

/-! ### The sum of the reserves (R198) -/

theorem filter_sins {α : Type} (k : Nat) (a : α) (m : List (Nat × α)) :
    (sins k a m).filter (fun x => x.1 != k) = m.filter (fun x => x.1 != k) := by
  induction m with
  | nil => simp [sins]
  | cons x m ih =>
    unfold sins
    split
    · simp
    · rw [List.filter_cons, List.filter_cons, ih]

/-- A key set again to its value. -/
theorem sset_sset_same {α : Type} [DecidableEq α] (d : α) (m : List (Nat × α)) (k : Nat) (a : α) :
    sset d (sset d m k a) k a = sset d m k a := by
  unfold sset
  split
  · rw [List.filter_filter]; simp
  · dsimp only; rw [filter_sins, List.filter_filter]; simp

theorem filterMap_sins {α β : Type} (f : Nat × α → Option β) (k : Nat) (a : α) (hf : f (k, a) = none) (m : List (Nat × α)) :
    (sins k a m).filterMap f = m.filterMap f := by
  induction m with
  | nil => simp [sins, hf]
  | cons x m ih =>
    unfold sins
    split
    · rw [List.filterMap_cons, hf]
    · rw [List.filterMap_cons, List.filterMap_cons, ih]

/-- Where a key does not count, its value does not. -/
theorem filterMap_sset {α β : Type} [DecidableEq α] (f : Nat × α → Option β) (d : α) (m : List (Nat × α)) (k : Nat) (a : α)
    (hf : ∀ v, f (k, v) = none) : (sset d m k a).filterMap f = m.filterMap f := by
  have hdrop : (m.filter (fun x => x.1 != k)).filterMap f = m.filterMap f := by
    induction m with
    | nil => rfl
    | cons x m ih =>
      rw [List.filter_cons]
      split
      · rw [List.filterMap_cons, List.filterMap_cons, ih]
      · next hk =>
        have hx : f x = none := by
          have : x.1 = k := by simpa using hk
          rw [← Prod.mk.eta (p := x), this]; exact hf _
        rw [ih, List.filterMap_cons, hx]
  unfold sset
  split
  · exact hdrop
  · dsimp only; rw [filterMap_sins f k a (hf a), hdrop]

/-- A register outside `QP_QCFG` enables no queue. -/
theorem Chip.enabledQueues_put (c : Chip) (f : Fld) (i v j r : Nat) (hf : f.reg ≠ .QP_QCFG) :
    (c.put f i v j).enabledQueues r = c.enabledQueues r := by
  refine filterMap_sset _ _ _ _ _ (fun w => if_neg (fun ⟨hlo, hhi, _⟩ => ?_))
  refine regKey_ne_of_reg i r j (regKey f.reg i j - regKey .QP_QCFG r 0) hf ?_
  unfold regKey at *
  omega

theorem Chip.reserveSum_put (c : Chip) (f : Fld) (i v j r : Nat) (hf : f.reg ≠ .QP_QCFG) : (c.put f i v j).reserveSum r = c.reserveSum r := by
  have hres : (c.put f i v j).reserve r = c.reserve r := by
    funext q
    unfold Chip.reserve
    rw [Chip.g_put_reg _ f .QP_QCFG_RESERVE _ _ _ _ _ hf.symm, Chip.g_put_reg _ f .QP_QCFG_MAX_CELLS _ _ _ _ _ hf.symm]
  unfold Chip.reserveSum
  rw [c.enabledQueues_put f i v j r hf, hres]

theorem Chip.reserveSum_of_regs {c d : Chip} (h : d.regs = c.regs) (r : Nat) : d.reserveSum r = c.reserveSum r := by
  unfold Chip.reserveSum Chip.enabledQueues Chip.reserve Chip.g Chip.rd; rw [h]

/-- A field set to the value that it has. -/
theorem wset_wbits (w : Word) {hi lo : Nat} (hl : lo ≤ hi) (hh : hi < 64) : wset w hi lo (wbits w hi lo) = w := by
  refine BitVec.eq_of_getLsbD_eq (fun n _ => ?_)
  rw [wset_getLsbD w _ n hl hh]
  split
  · next hn => rw [wbits, bits_testBit_sub _ hn]; rfl
  · rfl

/-- The sum of the reserves that a write of EN is checked against is that of the queues enabled before it. -/
theorem Chip.reserveSum_qcfgWritten (c : Chip) (r q : Nat) (data : Word) (h : c.g .QP_QCFG_EN r q = 0) :
    ((c.qcfgWritten r q data.toNat).put .QP_QCFG_EN r 0 q).reserveSum r = (c.qcfgWritten r q data.toNat).reserveSum r := by
  have hen := (c.g_qcfgWritten_en r q data).trans h
  have hw : wset (c.qcfgWord r q data.toNat) 0 0 0 = c.qcfgWord r q data.toNat := by
    have h0 : wbits (c.qcfgWord r q data.toNat) 0 0 = 0 := (congrArg (wbits · 0 0) (Chip.rd_wrBits_same _ .QP_QCFG r _ 63 0 q)).symm.trans hen
    have := wset_wbits (c.qcfgWord r q data.toNat) (hi := 0) (lo := 0) (by decide) (by decide)
    rwa [h0] at this
  refine Chip.reserveSum_of_regs ?_ r
  unfold Chip.put
  rw [show (c.qcfgWritten r q data.toNat).rd Fld.QP_QCFG_EN.reg r q = _ from Chip.rd_wrBits_same _ .QP_QCFG r _ 63 0 q]
  rw [show wset (c.qcfgWord r q data.toNat) Fld.QP_QCFG_EN.hi Fld.QP_QCFG_EN.lo 0 = _ from hw]
  exact sset_sset_same _ _ _ _

/-! ### EN decided -/

section
variable {c : Chip} {fn : Fn} {r q : Nat} {data : Word}

theorem Chip.writeQcfg_locked (hk : c.isLocked .QP_QCFG r = true) : c.writeQcfg fn r q 63 0 data.toNat = c.qcfgWritten r q data.toNat := by
  unfold Chip.writeQcfg
  dsimp only
  rw [Chip.writeReg_qcfg]
  exact if_pos hk

/-- EN = 1 written: refused for a reserved CKIND or for reserves above the pool, else taken. -/
theorem Chip.writeQcfg_wanted (hk : c.isLocked .QP_QCFG r = false) (hd : wbit data 0 = true) :
    c.writeQcfg fn r q 63 0 data.toNat =
      let n := c.qcfgWritten r q data.toNat
      let refused := if c.on .QP_QCFG_EN r q then c else n
      if 5 ≤ n.g .QP_QCFG_CKIND r q then refused.set1 .QP_STICKY_BAD_CFG r
      else if 65536 < (n.put .QP_QCFG_EN r 0 q).reserveSum r + n.reserve r q then refused.set1 .QP_STICKY_RSV_OVER r
      else n.set1 .QP_QCFG_EN r q := by
  unfold Chip.writeQcfg
  dsimp only
  rw [Chip.writeReg_qcfg, if_neg (by rw [hk]; decide), if_pos (by rw [if_pos rfl]; exact hd)]

theorem Chip.writeQcfg_off (hk : c.isLocked .QP_QCFG r = false) (hd : wbit data 0 = false) :
    c.writeQcfg fn r q 63 0 data.toNat = (c.qcfgWritten r q data.toNat).qClose r q (c.on .QP_QCFG_EN r q) := by
  have hd : bit data.toNat 0 = false := hd
  unfold Chip.writeQcfg
  dsimp only
  rw [Chip.writeReg_qcfg, if_neg (by rw [hk]; decide), if_neg (by rw [if_pos rfl, hd]; decide)]

/-- What a refused or accepted EN = 1 leaves. -/
def qcfgRegs : List Reg := [.QP_QCFG, .PART_STAT, .PART_VIOL, .QP_STICKY]

theorem Chip.queuesKept_wanted (hk : c.isLocked .QP_QCFG r = false) (hd : wbit data 0 = true) :
    Chip.queuesKept qcfgRegs c (c.writeQcfg fn r q 63 0 data.toNat) := by
  have hn : Chip.queuesKept qcfgRegs c (c.qcfgWritten r q data.toNat) := by
    obtain ⟨hm, hq, hr⟩ := c.queuesKept_qcfgWritten r q data.toNat
    exact ⟨hm, hq, hr.mono (by decide)⟩
  have hrefused : Chip.queuesKept qcfgRegs c (if c.on .QP_QCFG_EN r q then c else c.qcfgWritten r q data.toNat) := by
    split
    · exact Chip.queuesKept_refl _ c
    · exact hn
  rw [c.writeQcfg_wanted hk hd]
  dsimp only
  split
  · exact hrefused.trans (Chip.queuesKept_put _ .QP_STICKY_BAD_CFG r 1 0 (by decide))
  · split
    · exact hrefused.trans (Chip.queuesKept_put _ .QP_STICKY_RSV_OVER r 1 0 (by decide))
    · exact hn.trans (Chip.queuesKept_put _ .QP_QCFG_EN r 1 q (by decide))

/-- EN = 1 written to a disabled queue. -/
theorem Chip.writeQcfg_enables (hk : c.isLocked .QP_QCFG r = false) (he : c.g .QP_QCFG_EN r q = 0) (hd : wbit data 0 = true) :
    let d := c.writeQcfg fn r q 63 0 data.toNat
    d.g .QP_QCFG_CKIND r q = wbits data 3 1 ∧
    (5 ≤ wbits data 3 1 → d.g .QP_STICKY_BAD_CFG r = 1 ∧ d.g .QP_QCFG_EN r q = 0) ∧
    (wbits data 3 1 < 5 → d.g .QP_QCFG_EN r q = 1 ∨ (d.g .QP_QCFG_EN r q = 0 ∧ d.g .QP_STICKY_RSV_OVER r = 1 ∧
      65536 < d.reserveSum r + d.reserve r q)) := by
  have hkind := c.g_qcfgWritten_ckind r q data
  rw [if_neg (by rw [hk]; decide)] at hkind
  have hen := (c.g_qcfgWritten_en r q data).trans he
  have hsum := c.reserveSum_qcfgWritten r q data he
  rw [c.writeQcfg_wanted hk hd]
  dsimp only
  rw [c.on_eq_false he, if_neg Bool.false_ne_true]
  generalize c.qcfgWritten r q data.toNat = n at hkind hen hsum ⊢
  rw [hsum, hkind]
  have hq : ∀ (f g : Fld) (i : Nat), f.reg ≠ .QP_QCFG → g.reg = .QP_QCFG → (n.set1 f i).g g r q = n.g g r q :=
    fun f g i hf hg => n.g_put_reg f g _ _ _ _ _ (by rw [hg]; exact hf.symm)
  by_cases h5 : 5 ≤ wbits data 3 1
  · rw [if_pos h5, hq _ _ _ (by decide) rfl, hq _ _ _ (by decide) rfl]
    exact ⟨hkind, fun _ => ⟨n.g_set1_same _ _ _ ⟨by decide, by decide⟩, hen⟩, fun h => absurd h5 (by omega)⟩
  · rw [if_neg h5]
    split
    · next hover =>
      have hres : (n.set1 .QP_STICKY_RSV_OVER r).reserveSum r = n.reserveSum r := n.reserveSum_put _ _ _ _ _ (by decide)
      rw [hq _ _ _ (by decide) rfl, hq _ _ _ (by decide) rfl, hres]
      refine ⟨hkind, fun h => absurd h h5, fun _ => .inr ⟨hen, n.g_set1_same _ _ _ ⟨by decide, by decide⟩, ?_⟩⟩
      unfold Chip.reserve
      rwa [hq _ _ _ (by decide) rfl, hq _ _ _ (by decide) rfl]
    · refine ⟨?_, fun h => absurd h h5, fun _ => .inl (n.g_set1_same _ _ _ ⟨by decide, by decide⟩)⟩
      exact (n.g_put_clear r 1 q r q ⟨by decide, by decide⟩ ⟨by decide, by decide⟩ (by unfold Fld.clear; decide)).trans hkind

/-- EN = 1 written to an enabled queue. -/
theorem Chip.writeQcfg_rewrites (hk : c.isLocked .QP_QCFG r = false) (he : c.g .QP_QCFG_EN r q = 1) (hd : wbit data 0 = true) :
    let d := c.writeQcfg fn r q 63 0 data.toNat
    d.g .QP_QCFG_EN r q = 1 ∧
    (5 ≤ wbits data 3 1 → d.g .QP_STICKY_BAD_CFG r = 1 ∧ d.rd .QP_QCFG r q = c.rd .QP_QCFG r q) ∧
    (wbits data 3 1 < 5 → d.g .QP_QCFG_CKIND r q = wbits data 3 1 ∨
      (d.g .QP_STICKY_RSV_OVER r = 1 ∧ d.rd .QP_QCFG r q = c.rd .QP_QCFG r q)) := by
  have hkind := c.g_qcfgWritten_ckind r q data
  rw [if_neg (by rw [hk]; decide)] at hkind
  rw [c.writeQcfg_wanted hk hd]
  dsimp only
  rw [(c.on_iff rfl r q).mpr he, if_pos rfl]
  generalize c.qcfgWritten r q data.toNat = n at hkind ⊢
  rw [hkind]
  have hrd : ∀ (f : Fld) (i : Nat), f.reg ≠ .QP_QCFG → (c.set1 f i).rd .QP_QCFG r q = c.rd .QP_QCFG r q :=
    fun f i hf => (c.regsBut_put f i 1 0) .QP_QCFG r q (by simpa using hf.symm)
  have hen : ∀ (f : Fld) (i : Nat), f.reg ≠ .QP_QCFG → (c.set1 f i).g .QP_QCFG_EN r q = 1 :=
    fun f i hf => (congrArg (wbits · 0 0) (hrd f i hf)).trans he
  by_cases h5 : 5 ≤ wbits data 3 1
  · rw [if_pos h5]
    exact ⟨hen _ _ (by decide), fun _ => ⟨c.g_set1_same _ _ _ ⟨by decide, by decide⟩, hrd _ _ (by decide)⟩, fun h => absurd h5 (by omega)⟩
  · rw [if_neg h5]
    split
    · exact ⟨hen _ _ (by decide), fun h => absurd h h5, fun _ => .inr ⟨c.g_set1_same _ _ _ ⟨by decide, by decide⟩, hrd _ _ (by decide)⟩⟩
    · refine ⟨n.g_set1_same _ _ _ ⟨by decide, by decide⟩, fun h => absurd h h5, fun _ => .inl ?_⟩
      exact (n.g_put_clear r 1 q r q ⟨by decide, by decide⟩ ⟨by decide, by decide⟩ (by unfold Fld.clear; decide)).trans hkind

/-- Clearing EN empties the queue. -/
theorem Chip.writeQcfg_closes (hk : c.isLocked .QP_QCFG r = false) (he : c.g .QP_QCFG_EN r q = 1) (hd : wbit data 0 = false) (hq : q < 1024) :
    let d := c.writeQcfg fn r q 63 0 data.toNat
    Chip.oneQueue r q c d ∧ d.queue r q = {} ∧ d.g .QP_QCFG_EN r q = 0 := by
  have hn := (c.queuesKept_qcfgWritten r q data.toNat).oneQueue (r := r) (q := q)
  rw [c.writeQcfg_off hk hd, (c.on_iff rfl r q).mpr he]
  generalize c.qcfgWritten r q data.toNat = n at hn ⊢
  have hchecks : ∀ d, Chip.queuesKept [] d ((rangeFrom (8 * r) 8).foldl (fun c cl => c.checkCmdq cl) d) := by
    refine foldl_queuesKept (fun d cl => ?_) _
    unfold Chip.checkCmdq Chip.haltSeq
    split
    · exact ⟨rfl, rfl, Chip.regsBut_of_regs rfl _⟩
    · exact Chip.queuesKept_refl _ d
  have hlast := hchecks ((n.setQueue r q {}).put .QP_QCFG_EN r 0 q)
  refine ⟨hn.trans ((n.oneQueue_setQueue hq {}).trans ((Chip.oneQueue_put _ _ _ _ _).trans hlast.oneQueue)), ?_, ?_⟩
  · refine (Chip.queue_of_queues hlast.queues r q).trans ?_
    rw [Chip.queue_put, Chip.queue_setQueue_same]
  · exact (hlast.regs.g .QP_QCFG_EN r q (by simp)).trans (Chip.g_put_same _ .QP_QCFG_EN r 0 q ⟨by decide, by decide⟩)

theorem exec_queueEnWrite {s : State} (h : s.chip.reaches fn .QP_QCFG r = true) (hq : q < 1024) :
    exec (.queueEnWrite fn r q data) s = .next (s.onChip (fun _ => s.chip.writeQcfg fn r q 63 0 data.toNat)) :=
  nextChip_eq (if_neg (not_or.mpr ⟨not_not.mpr h, by omega⟩))

end

end Sys2Proof.Machine
end

open Sys2Proof.Machine in
/-- Settles O39: each command of the pool by what its queue is, over the rules of one word and of one queue. -/
theorem queuePool : Obligations.QueuePool := by
  intro s r q hr hq c x others noRecords resumed emptied
  have hothers : ∀ d : Chip, Chip.oneQueue r q c d → others (s.onChip (fun _ => d)) :=
    fun d h => ⟨State.chipOnly_onChip s _, h.mem, h.queue⟩
  refine ⟨fun prod w mark p pt hp ho => ?_,
    fun prod w mark p hown => ⟨fun hw => ⟨fun hclosed => ?_, fun he hb hs => ⟨?_, ?_, ?_⟩⟩, fun hw => ?_⟩,
    fun hnone hw => ?_, fun prod w p hnone hw he hb hs ho h16 hmax => ⟨fun hcell => ?_, fun hcell => ?_⟩,
    fun hl hb => ?_, fun hb hk => ?_, fun p hb hk ho => ?_, fun k ks hb hl => ?_,
    exec_staleTimerFire_idle, fun b hb hup hl => ?_, fun fn => ⟨exec_qpFlush_idle, fun h hf => ?_⟩,
    exec_flushTakeEffect_waits, fun hf hrd ho => ?_, fun fn h => ⟨fun hk => ?_, fun p ho hrun => ?_⟩,
    fun fn data h => ⟨fun hk => ?_, fun hk he hd => ?_, fun hk he hd => ?_, fun hk he hd => ?_⟩⟩
  -- QUEUE_WORD_WRITE
  · have h0 : c.faultOnly (c.inc .PART_CNT_XPART_COUNT pt) := c.faultOnly_refl.inc .PART_CNT_XPART_COUNT pt 1 0 (by decide)
    exact ⟨_, exec_queueWordWrite_blocked hp ho, State.chipOnly_onChip _ _, h0.trans (Chip.faultOnly_postFault _ _),
      c.queue_xpart _ _ _ _ hq ho, c.g_xpart _ _ _ _⟩
  · have hwrite := Chip.qWrite_accepted (w := ⟨w, mark % 4, p⟩) hw (Chip.qAccept_closed hclosed) (by decide)
    exact ⟨_, exec_queueWordWrite_offers hown hwrite,
      s.effect_marks ⟨by decide, by decide⟩ ⟨by decide, by decide⟩ (by omega) (by omega) rfl, c.g_markMalformed r q⟩
  · intro hmark h16 h512 hquota hcell
    have hm4 : mark % 4 = mark := by omega
    have hstore := Chip.qAccept_stores (w := ⟨w, mark, p⟩) ⟨he, hb, hs⟩ hmark h16 ⟨h512, hquota⟩ hcell
    have hwrite := Chip.qWrite_accepted hw hstore (by decide)
    refine ⟨_, exec_queueWordWrite_offers hown (by rw [hm4]; exact hwrite), hothers _ (Chip.oneQueue_storeWord hq),
      fun hp => ?_, fun h0 => ?_, fun h1 => ?_⟩
    · exact Chip.g_storeWord_poison hp
    · exact Chip.queue_storeWord_open h0
    · exact Chip.storeWord_end h1
  · intro hmark h512 hquota h8 hcell
    have hm4 : mark % 4 = mark := by omega
    have hwrite := Chip.qWrite_waits (w := ⟨w, mark, p⟩) (.inr (Chip.qAccept_stalls ⟨he, hb, hs⟩ hmark ⟨h512, hquota⟩ h8 hcell))
    exact ⟨_, exec_queueWordWrite_offers hown (by rw [hm4]; exact hwrite), hothers _ (c.oneQueue_setQueue hq _),
      Chip.queue_setQueue_same _ _ _ _⟩
  · intro hmark ho hcell
    have hnull := Chip.qAccept_null (w := ⟨w, mark % 4, p⟩) ⟨he, hb, hs⟩ (by dsimp only; omega) ho hcell
    have hone := (c.oneQueue_markPoisonIn r q p).trans (Chip.oneQueue_link (r := r) _ hq ⟨[(0, p)], true, false⟩)
    refine ⟨_, exec_queueWordWrite_offers hown (Chip.qWrite_accepted hw hnull (by decide)), hothers _ hone, ?_⟩
    rw [State.onChip_chip, Chip.queue_link, if_pos rfl, Chip.queue_of_queues (c.markPoisonIn_queues r q p)]
    exact ⟨rfl, rfl⟩
  · exact ⟨_, exec_queueWordWrite_offers hown (Chip.qWrite_waits (.inl hw)), hothers _ (c.oneQueue_setQueue hq _),
      Chip.queue_setQueue_same _ _ _ _⟩
  -- CELL_GRANTED
  · have hsame := Chip.sameSeqs_flushRegion (c := s.chip) (r := r) (fun cl hcl o ho => hnone cl o hcl ho)
    exact hsame.resumed (exec_cellGranted_none hw)
  · have hsame := Chip.sameSeqs_flushRegion (c := s.chip) (r := r) (fun cl hcl o ho => hnone cl o hcl ho)
    have hstay := (Chip.grantAll_opens hw ⟨he, hb, hs⟩ ho h16 hmax).1 hcell
    exact hsame.resumed ((exec_cellGranted_one hw he hb).trans (by rw [hstay]))
  · have hgrant := (Chip.grantAll_opens hw ⟨he, hb, hs⟩ ho h16 hmax).2 hcell
    have hone : Chip.oneQueue r q c (c.grantAll r q 1) := by
      rw [hgrant]; exact (Chip.oneQueue_storeWord hq).trans (Chip.oneQueue_setQueue _ hq _)
    have hseqs : (c.grantAll r q 1).seqs = c.seqs := by
      rw [hgrant, Chip.setQueue_seqs, Chip.storeWord_seqs rfl]
    have hqueue := congrArg (Chip.queue · r q) hgrant
    simp only [Chip.queue_setQueue_same] at hqueue
    generalize hd : c.grantAll r q 1 = d at hone hseqs hqueue
    have hsame := d.sameSeqs_flushRegion (r := r) (fun cl hcl o ho => hnone cl o hcl (by rwa [Chip.seq, hseqs] at ho))
    refine ⟨_, (exec_cellGranted_one hw he hb).trans (by rw [hd]), hothers _ (hone.trans hsame.oneQueue), ?_⟩
    rw [State.onChip_chip, hsame.queue, hqueue]
    exact ⟨rfl, rfl, rfl⟩
  -- QUEUE_WORD_READ
  · exact exec_queueWordRead_empty hb hl
  · exact ⟨_, exec_queueWordRead_broken hb hk, s.effect_marks ⟨by decide, by decide⟩ ⟨by decide, by decide⟩ (by omega) (by omega) rfl,
      c.g_markPoisonIn r q⟩
  · obtain ⟨hmem, hmark, hstep⟩ := Chip.consumePoison_hub (r := r) (q := q) p (c.noRegs_markPoisonIn r q true) (c.g_markPoisonIn r q).1
    exact ⟨_, exec_queueWordRead_hub hb hk ho, State.chipOnly_onChip _ _, hmem, hmark, hstep⟩
  · refine ⟨_, exec_queueWordRead_cons hb hl, hothers _ ((c.oneQueue_markPoisonIn r q _).trans (Chip.oneQueue_setQueue _ hq _)), ?_⟩
    rw [State.onChip_chip, Chip.queue_setQueue_same, Chip.pastWord]
    refine ⟨fun hlast => ?_, fun hmore => ?_⟩
    · rw [if_pos hlast]; exact ⟨rfl, rfl⟩
    · rw [if_neg (Nat.not_le.mpr hmore)]; exact ⟨rfl, rfl⟩
  -- the staleness timer, FLUSH and RESET
  · exact ⟨_, exec_staleTimerFire_fires hb hup hl, hothers _ (c.fireStale_marks r q hq).1, (c.fireStale_marks r q hq).2⟩
  · exact ⟨_, exec_qpFlush_marks h hq hf, hothers _ (c.oneQueue_setQueue hq _), Chip.regsBut_of_regs rfl _, Chip.queue_setQueue_same _ _ _ _⟩
  · refine ⟨_, exec_flushTakeEffect_drops hf hrd ho, hothers _ (c.oneQueue_setQueue hq _), ?_⟩
    rw [State.onChip_chip, Chip.queue_setQueue_same]
    exact ⟨rfl, rfl, rfl⟩
  · exact ⟨_, exec_qpReset_empties h hq hk, hothers _ (c.oneQueue_setQueue hq _), Chip.queue_setQueue_same _ _ _ _, Chip.regsBut_of_regs rfl _⟩
  · have hp := Chip.owner_lt ho
    exact ⟨_, exec_qpReset_locked h hq ho hrun, c.queue_lockViol _ _ r q, s.effect_lockViol _ (by omega), c.lockViol_marked p _⟩
  -- QUEUE_EN_WRITE
  · have hn := c.queuesKept_qcfgWritten r q data.toNat
    have hkind := c.g_qcfgWritten_ckind r q data
    rw [if_pos hk] at hkind
    exact ⟨_, (exec_queueEnWrite h hq).trans (by rw [Chip.writeQcfg_locked hk]), hothers _ hn.oneQueue,
      Chip.queue_of_queues hn.queues r q, c.g_qcfgWritten_en r q data, hkind⟩
  · have hn := c.queuesKept_wanted (fn := fn) (q := q) hk hd
    exact ⟨_, exec_queueEnWrite h hq, hothers _ hn.oneQueue, Chip.queue_of_queues hn.queues r q, Chip.writeQcfg_enables hk he hd⟩
  · have hn := c.queuesKept_wanted (fn := fn) (q := q) hk hd
    exact ⟨_, exec_queueEnWrite h hq, hothers _ hn.oneQueue, Chip.queue_of_queues hn.queues r q, Chip.writeQcfg_rewrites hk he hd⟩
  · obtain ⟨hone, hempty, hen⟩ := Chip.writeQcfg_closes (fn := fn) hk he hd hq
    exact ⟨_, exec_queueEnWrite h hq, hothers _ hone, hempty, hen⟩

section
/-! WAITQ and SIGNAL (R199, R234, R235, R538). -/

namespace Sys2Proof.Machine

/-! ### Commands refused or issued -/

/-- The opcodes whose refusal leaves marks in their engine. -/
def markedOps : List Nat := [0x10, 0x11, 0x20, 0x23]

/-- A command of no such engine that is refused ends at issue. -/
theorem Chip.refuse_plain (c : Chip) (cl : Nat) {w : List Word} (st detail : Nat) (hop : hdrOp (wordAt w 0) ∉ markedOps) :
    c.refuse cl w st detail = c.issueEnd cl (wordAt w 0) { order := 0, status := st, detail := detail } := by
  simp only [markedOps, List.mem_cons, List.not_mem_nil, or_false, not_or] at hop
  obtain ⟨h10, h11, h20, h23⟩ := hop
  unfold Chip.refuse Chip.refusedMarks
  split
  · next h => exact absurd h h10
  · next h => exact absurd h h11
  · next h => exact absurd h h20
  · next h => exact absurd h h23
  · rfl

section
variable {c d e : Chip} {cl : Nat} {w : List Word} {l : List Reg}

theorem Chip.prepared.refusedPlain (h : Chip.prepared cl [] c d) {st detail : Nat} (hst : 1 ≤ st ∧ st ≤ 11)
    (hop : hdrOp (wordAt w 0) ∉ markedOps) : Chip.refusedAtOnce cl w c (d.refuse cl w st detail) := by
  rw [d.refuse_plain cl st detail hop]
  exact { h.endsAtOnce w _ ⟨List.not_mem_nil, List.not_mem_nil⟩ with bad := d.issueEnd_bad cl _ hst }

/-- A command issued once the stream moved past it. -/
theorem Chip.prepared.issued (h : Chip.prepared cl l c d) (left : Nat) : Chip.issued cl w c (d.issue cl (wordAt w 0) left).2 := by
  have hid : (d.seq cl).nextId = (c.seq cl).nextId := (SeqS.of_sansPos h.own).1
  refine ⟨?_, ?_, ?_, fun k hk => (d.issue_seq_other cl _ left hk).trans (h.others k hk)⟩
  · rw [Chip.issue_seq, hid]
  · rw [Chip.issue_seq]
  · rw [Chip.issue_seq, ← hid]
    exact ⟨_, List.mem_append_right _ (List.mem_singleton.mpr rfl), rfl, rfl, rfl⟩

/-- What became of the sequencer after the issue names the command still. -/
theorem Chip.issued.kept (h : Chip.issued cl w c d) (hid : (e.seq cl).nextId = (d.seq cl).nextId) (htag : (e.seq cl).lastTag = (d.seq cl).lastTag)
    (hout : ∀ o ∈ (d.seq cl).outst, ∃ v ∈ (e.seq cl).outst, v.id = o.id ∧ v.hdr = o.hdr ∧ v.ended = o.ended)
    (hothers : ∀ k, k ≠ cl → e.seq k = d.seq k) : Chip.issued cl w c e := by
  obtain ⟨o, ho, hoid, hohdr, hoend⟩ := h.out
  obtain ⟨v, hv, hvid, hvhdr, hvend⟩ := hout o ho
  exact ⟨hid.trans h.nextId, htag.trans h.lastTag, ⟨v, hv, hvid.trans hoid, hvhdr.trans hohdr, hvend.trans hoend⟩,
    fun k hk => (hothers k hk).trans (h.others k hk)⟩

/-- The stream of a sequencer moves past the head packet of its command queue: the other queues stay. -/
theorem Chip.queue_advanceCmd (c : Chip) (cl : Nat) (w : List Word) {q : Nat} (hne : q ≠ c.g .CLU_SEQ_CTL_CMDQ cl) :
    (c.advanceCmd cl w).queue (regionOfCl cl) q = c.queue (regionOfCl cl) q := by
  have hadv : (c.advance cl w.length).queue (regionOfCl cl) q = c.queue (regionOfCl cl) q := by
    unfold Chip.advance
    dsimp only
    split
    · rfl
    · split
      · next k d hd =>
        unfold Chip.qTake at hd
        dsimp only at hd
        split at hd
        · rw [← (Prod.mk.inj (Option.some.inj hd)).2]
          exact Chip.queue_of_queues (c.markPoisonIn_queues _ _ _) _ _
        · split at hd
          · cases hd
          · rw [← (Prod.mk.inj (Option.some.inj hd)).2, Chip.queue_setQueue_other _ _ (by omega)]
            exact Chip.queue_of_queues (c.markPoisonIn_queues _ _ _) _ _
      · rfl
  unfold Chip.advanceCmd
  dsimp only
  split
  · exact hadv
  · exact hadv

end

/-! ### CMD_WAITQ (R234) -/

/-- Queue q is a queue of sequencer cl, enabled and not its command queue. -/
def Chip.waitsOn (c : Chip) (cl q : Nat) : Prop :=
  c.on .QP_QCFG_EN (regionOfCl cl) q = true ∧ c.g .QP_QCFG_CKIND (regionOfCl cl) q = 0 ∧
    c.g .QP_QCFG_CIDX (regionOfCl cl) q = cl % 8 ∧ q ≠ c.g .CLU_SEQ_CTL_CMDQ cl

theorem Chip.regsBut.waitsOn {c d : Chip} {l : List Reg} (h : c.regsBut d l) (hl : Reg.QP_QCFG ∉ l ∧ Reg.CLU_SEQ_CTL ∉ l) (cl q : Nat) :
    d.waitsOn cl q ↔ c.waitsOn cl q := by
  unfold Chip.waitsOn
  rw [h.on .QP_QCFG_EN _ _ hl.1, h.g .QP_QCFG_CKIND _ _ hl.1, h.g .QP_QCFG_CIDX _ _ hl.1, h.g .CLU_SEQ_CTL_CMDQ _ _ hl.2]

/-- The effect of a WAITQ taken from the stream. -/
def Chip.waitq (d : Chip) (cl : Nat) (w : List Word) : Chip :=
  (d.issue cl (wordAt w 0) 1).2.setSeq cl { (d.issue cl (wordAt w 0) 1).2.seq cl with
    waitqs := ((d.issue cl (wordAt w 0) 1).2.seq cl).waitqs ++
      [{ id := (d.issue cl (wordAt w 0) 1).1, queue := wbits (wordAt w 1) 9 0, count := wbits (wordAt w 1) 25 10 }] }

section
variable {s : State} {cl : Nat} {w : List Word}

theorem exec_cmdWaitq (h : s.chip.offers cl w) (hop : isOp 0x03 w = true) {d : Chip} (hd : d = s.chip.advanceCmd cl w) :
    (¬ d.waitsOn cl (wbits (wordAt w 1) 9 0) → exec (.cmdWaitq cl) s = .next (s.onChip (fun _ => d.refuse cl w stBadField))) ∧
    (d.waitsOn cl (wbits (wordAt w 1) 9 0) → wbits (wordAt w 1) 25 10 = 0 →
      exec (.cmdWaitq cl) s = .next (s.onChip (fun _ => d.issueEnd cl (wordAt w 0) { order := 0 }))) ∧
    (d.waitsOn cl (wbits (wordAt w 1) 9 0) → 0 < wbits (wordAt w 1) 25 10 →
      exec (.cmdWaitq cl) s = .next (s.onChip (fun _ => d.waitq cl w))) := by
  have hok : (d.on .QP_QCFG_EN (regionOfCl cl) (wbits (wordAt w 1) 9 0) && d.g .QP_QCFG_CKIND (regionOfCl cl) (wbits (wordAt w 1) 9 0) == 0 &&
      d.g .QP_QCFG_CIDX (regionOfCl cl) (wbits (wordAt w 1) 9 0) == cl % 8 && wbits (wordAt w 1) 9 0 != d.g .CLU_SEQ_CTL_CMDQ cl) = true ↔
      d.waitsOn cl (wbits (wordAt w 1) 9 0) := by
    simp [Chip.waitsOn, and_assoc]
  have htake := Chip.take_offers h (isOp 0x03) false
  refine ⟨fun hn => nextChip_eq ?_, fun hm h0 => nextChip_eq ?_, fun hm h0 => nextChip_eq ?_⟩ <;> rw [htake _ hop nofun, ← hd]
  · exact if_pos (by rwa [hok])
  · exact (if_neg (by rwa [not_not, hok])).trans (if_pos h0)
  · exact (if_neg (by rwa [not_not, hok])).trans (if_neg (by omega))

end

/-- A WAITQ consumes nothing as it issues. -/
theorem Chip.queue_waitq (d : Chip) (cl : Nat) (w : List Word) (r q : Nat) : (d.waitq cl w).queue r q = d.queue r q := rfl

/-- A WAITQ that waits is issued, and stands last among its sequencer's WAITQs. -/
theorem Chip.prepared.waitq {c d : Chip} {cl : Nat} {l : List Reg} (h : Chip.prepared cl l c d) (w : List Word) :
    Chip.issued cl w c (d.waitq cl w) ∧ ((d.waitq cl w).seq cl).waitqs = (c.seq cl).waitqs ++
      [{ id := (c.seq cl).nextId, queue := wbits (wordAt w 1) 9 0, count := wbits (wordAt w 1) 25 10 }] := by
  have hseq : (d.waitq cl w).seq cl = { (d.issue cl (wordAt w 0) 1).2.seq cl with
      waitqs := ((d.issue cl (wordAt w 0) 1).2.seq cl).waitqs ++
        [{ id := (d.issue cl (wordAt w 0) 1).1, queue := wbits (wordAt w 1) 9 0, count := wbits (wordAt w 1) 25 10 }] } :=
    Chip.seq_setSeq_same _ _ _
  have hwait : (d.seq cl).waitqs = (c.seq cl).waitqs := (congrArg SeqS.waitqs h.own :)
  refine ⟨(h.issued (w := w) 1).kept ?_ ?_ ?_ (fun k hk => Chip.seq_setSeq_other _ _ hk), ?_⟩
  · rw [hseq]
  · rw [hseq]
  · rw [hseq]; exact fun o ho => ⟨o, ho, rfl, rfl, rfl⟩
  · rw [hseq, Chip.issue_fst, Chip.issue_seq, hwait, (SeqS.of_sansPos h.own).1]

/-! ### Marks that stay (R255) -/

/-- A one-bit field set stays set while it, or a field apart from it, is set. -/
theorem Chip.mark_set1 (c : Chip) {f g : Fld} (hf : f.ok) (hg : g.ok) (h : f = g ∨ f.clear g) (i j i' j' : Nat) (hm : c.g f i j = 1) :
    (c.set1 g i' j').g f i j = 1 := by
  rcases h with rfl | h
  · by_cases hk : regKey f.reg i j = regKey f.reg i' j'
    · have hrd : (c.set1 f i' j').rd f.reg i j = (c.set1 f i' j').rd f.reg i' j' := by unfold Chip.rd; rw [hk]
      exact (congrArg (wbits · f.hi f.lo) hrd).trans (c.g_set1_same f i' j' hf)
    · exact (c.g_put_other f f i' i 1 j' j hk).trans hm
  · exact (c.g_put_clear i' 1 j' i j hg hf h).trans hm

/-- A mark that linking records may set, but never clears. -/
structure Fld.recordMark (f : Fld) : Prop where
  ok : f.ok
  count : f.reg ≠ .QP_QCNT
  phase : f.reg ≠ .HUB_STEP
  queue : f = .QP_QSTAT_MALFORMED ∨ f.clear .QP_QSTAT_MALFORMED
  pool : f = .QP_STICKY_MALFORMED ∨ f.clear .QP_STICKY_MALFORMED
  seq : f = .CLU_SEQ_STICKY_QUEUE_ERR ∨ f.clear .CLU_SEQ_STICKY_QUEUE_ERR

/-- A queue that is disabled or broken marks what is posted to it as malformed. -/
theorem Chip.post_closed_eq {c d : Chip} {r q : Nat} {ws : List (Word × Bool)} (h : c.post r q ws = .closed d) : d = c.markMalformed r q := by
  unfold Chip.post at h
  dsimp only at h
  split at h
  · exact (Post.closed.inj h).symm
  · split at h <;> cases h

section
variable {f : Fld} {i j : Nat}

theorem Chip.mark_linkRecords (hf : f.recordMark) (cl : Nat) (os : List OutCmd) : ∀ (c : Chip) (blocked : List Nat),
    c.g f i j = 1 → (c.linkRecords cl blocked os).1.g f i j = 1 := by
  induction os with
  | nil => exact fun c _ h => h
  | cons o os ih =>
    intro c blocked h
    unfold Chip.linkRecords
    dsimp only
    split
    · exact ih c _ h
    · split
      · exact ih c _ h
      · split
        · exact ih c _ h
        · split
          · next hp =>
            rw [(Chip.post_clean hp).1]
            refine ih _ _ ((Chip.regsBut_link _ _ _ _).g f i j ?_ |>.trans h)
            simpa using hf.count
          · next hp =>
            rw [Chip.post_closed_eq hp]
            have hq := c.mark_set1 hf.ok ⟨by decide, by decide⟩ hf.queue i j (regionOfCl cl) (hdrCq o.hdr) h
            have hpool := Chip.mark_set1 _ hf.ok ⟨by decide, by decide⟩ hf.pool i j (regionOfCl cl) 0 hq
            exact ih _ _ (Chip.mark_set1 _ hf.ok ⟨by decide, by decide⟩ hf.seq i j cl 0 hpool)
          · exact ih c _ h

/-- The end of a command leaves a mark set that its outcome leaves set. -/
theorem Chip.mark_endCmd {c : Chip} {cl id : Nat} {o : OutCmd} (hf : f.recordMark) (ho : c.openCmd cl id = some o) {m : Part}
    (h : ((c.inc .CLU_SEQ_CNT_COUNT cl).seqSticky cl (c.outcome cl o m) (hdrCpl o.hdr)).g f i j = 1) :
    (c.endCmd cl id m).g f i j = 1 := by
  unfold Chip.openCmd at ho
  unfold Chip.endCmd
  rw [ho]
  dsimp only
  unfold Chip.flushRecords
  refine Chip.mark_linkRecords hf cl _ _ [] ?_
  rw [Chip.showPhase, Chip.g_put_reg _ _ _ _ _ _ _ _ hf.phase]
  exact h

/-- A mark outside a sequencer's counters and marks that is set before a command ends at issue stays set. -/
theorem Chip.mark_issueEnd {c : Chip} (cl : Nat) (h : Word) (m : Part) (hf : f.recordMark)
    (hreg : f.reg ≠ .CLU_SEQ_CNT ∧ f.reg ≠ .CLU_SEQ_STICKY) (hm : c.g f i j = 1) : (c.issueEnd cl h m).g f i j = 1 := by
  obtain ⟨o, ho⟩ := c.openCmd_issue cl h 0
  refine Chip.mark_endCmd hf ho ?_
  rw [(Chip.regsBut_seqSticky _ _ _ _).g f i j (by simpa using hreg.2), Chip.inc, Chip.g_put_reg _ _ _ _ _ _ _ _ hreg.1]
  exact hm

end

/-- A command that ends at issue with DENIED marks its sequencer. -/
theorem Chip.issueEnd_denied (c : Chip) (cl : Nat) (h : Word) {m : Part} (hm : m.status = stDenied) :
    (c.issueEnd cl h m).g .CLU_SEQ_STICKY_DENIED cl = 1 := by
  obtain ⟨o, ho⟩ := c.openCmd_issue cl h 0
  have hout : Chip.outcome (c.issue cl h 0).2 cl o m = m := if_neg (fun hc => by rw [hm] at hc; exact absurd hc.2 (by decide))
  refine (Chip.g_endCmd ho m ⟨⟨by decide, by decide⟩, by decide, .inr (.inl (by decide))⟩ (by decide) cl 0).trans ?_
  rw [hout, Chip.seqSticky, hm]
  exact Chip.g_set1_same _ _ _ _ ⟨by decide, by decide⟩

/-- A command that ends at issue with QUEUE_ERR marks its sequencer. -/
theorem Chip.issueEnd_queueErr (c : Chip) (cl : Nat) (h : Word) {m : Part} (hm : m.status = stQueueErr) :
    (c.issueEnd cl h m).g .CLU_SEQ_STICKY_QUEUE_ERR cl = 1 := by
  obtain ⟨o, ho⟩ := c.openCmd_issue cl h 0
  have hout : Chip.outcome (c.issue cl h 0).2 cl o m = m := if_neg (fun hc => by rw [hm] at hc; exact absurd hc.2 (by decide))
  refine Chip.mark_endCmd ⟨⟨by decide, by decide⟩, by decide, by decide, .inr (.inl (by decide)), .inr (.inl (by decide)), .inl rfl⟩ ho ?_
  rw [hout, Chip.seqSticky, hm]
  exact Chip.g_set1_same _ _ _ _ ⟨by decide, by decide⟩

end Sys2Proof.Machine
end

section
/-! CMD_SIGNAL and WAITQ_END (R198, R199, R234, R235, R538). -/

namespace Sys2Proof.Machine

/-! ### CMD_SIGNAL (R235) -/

/-- A crossing recorded leaves the sequencers. -/
theorem Chip.seq_xpart (c : Chip) (p kind src form target cl : Nat) : (c.xpart p kind src form target).seq cl = c.seq cl := by
  have h : (c.xpart p kind src form target).seqs = c.seqs :=
    (congrArg Chip.seqs (Chip.faultOnly_postFault (c.inc .PART_CNT_XPART_COUNT p) (xpartSpec p kind src form target)).1 :)
  unfold Chip.seq
  rw [h]

/-- The identity of a command that ended at issue is used. -/
theorem Chip.issueEnd_nextId (c : Chip) (cl : Nat) (h : Word) (m : Part) : ((c.issueEnd cl h m).seq cl).nextId = (c.seq cl).nextId + 1 :=
  (SeqS.of_sansOut (c.issueEnd_seq cl h m)).1

/-- A NULL packet signalled to queue (r, q): issued, offered to the queue, and outstanding. -/
def Chip.signalNull (d : Chip) (cl r q : Nat) (w : List Word) : Chip :=
  let e := ((d.issue cl (wordAt w 0) 1).2.qWrite r q (seqProducer cl) ⟨0, 2, false⟩).1
  e.setSeq cl { e.seq cl with outst := (e.seq cl).outst.map (fun o =>
    if o.id = (d.issue cl (wordAt w 0) 1).1 then { o with aux := r * 1024 + q + 1 } else o) }

section
variable {s : State} {cl : Nat} {w : List Word} {d : Chip}

theorem exec_cmdSignal_denied (h : s.chip.offers cl w) (hop : isOp 0x04 w = true) (hd : d = s.chip.advanceCmd cl w)
    (ho : d.owns (d.partOfCl cl) (wbits (wordAt w 1) 3 0) = false) : exec (.cmdSignal cl) s = .next (s.onChip (fun _ =>
      (d.xpart (d.partOfCl cl) 2 (d.g .FAB_ID_ID 0) 0 (wbits (wordAt w 1) 3 0 + wbits (wordAt w 1) 13 4 * 16)).refuse cl w stDenied)) := by
  refine nextChip_eq ?_
  rw [Chip.take_offers h (isOp 0x04) false _ hop nofun, ← hd]
  exact if_pos (by rw [ho]; decide)

theorem exec_cmdSignal_disabled (h : s.chip.offers cl w) (hop : isOp 0x04 w = true) (hd : d = s.chip.advanceCmd cl w)
    (ho : d.owns (d.partOfCl cl) (wbits (wordAt w 1) 3 0) = true)
    (he : d.on .QP_QCFG_EN (wbits (wordAt w 1) 3 0) (wbits (wordAt w 1) 13 4) = false) :
    exec (.cmdSignal cl) s = .next (s.onChip (fun _ =>
      (d.markMalformed (wbits (wordAt w 1) 3 0) (wbits (wordAt w 1) 13 4)).refuse cl w stQueueErr 4)) := by
  refine nextChip_eq ?_
  rw [Chip.take_offers h (isOp 0x04) false _ hop nofun, ← hd]
  exact (if_neg (not_not.mpr ho)).trans (if_pos (.inl (by rw [he]; decide)))

theorem exec_cmdSignal_null (h : s.chip.offers cl w) (hop : isOp 0x04 w = true) (hd : d = s.chip.advanceCmd cl w)
    (ho : d.owns (d.partOfCl cl) (wbits (wordAt w 1) 3 0) = true)
    (he : d.on .QP_QCFG_EN (wbits (wordAt w 1) 3 0) (wbits (wordAt w 1) 13 4) = true)
    (hb : (d.queue (wbits (wordAt w 1) 3 0) (wbits (wordAt w 1) 13 4)).broken = false)
    (hmax : 1 ≤ d.g .QP_QCFG_MAX_CELLS (wbits (wordAt w 1) 3 0) (wbits (wordAt w 1) 13 4)) (hn : wbits (wordAt w 1) 17 14 = 0) :
    exec (.cmdSignal cl) s = .next (s.onChip (fun _ => d.signalNull cl (wbits (wordAt w 1) 3 0) (wbits (wordAt w 1) 13 4) w)) := by
  have hws : signalWords w = [⟨0, 2, false⟩] := if_pos hn
  have hone : cellsOf (signalWords w).length = 1 := by rw [hws]; rfl
  refine nextChip_eq ?_
  rw [Chip.take_offers h (isOp 0x04) false _ hop nofun, ← hd]
  dsimp only
  rw [if_neg (not_not.mpr ho), if_neg (by rw [he, hb]; decide), hone, if_neg (by omega), hws]
  rfl

end

section
variable {c d : Chip} {cl r q : Nat} {l : List Reg}

/-- A NULL signalled to an enabled queue with a free cell is linked at once. -/
theorem Chip.prepared.signalNull (h : Chip.prepared cl l c d) (w : List Word) (he : d.g .QP_QCFG_EN r q = 1) (hb : (d.queue r q).broken = false)
    (hopen : (d.queue r q).opens = []) (hw : (d.queue r q).waiting = []) (hs : (d.queue r q).skip = []) (hc : d.canCell r q = true) :
    Chip.issued cl w c (d.signalNull cl r q w) ∧
      ((d.signalNull cl r q w).queue r q).linked = (d.queue r q).linked ++ [⟨[(0, false)], true, false⟩] := by
  have hissued := h.issued (w := w) 1
  have hq : (d.issue cl (wordAt w 0) 1).2.queue r q = d.queue r q := rfl
  have hcell : (d.issue cl (wordAt w 0) 1).2.canCell r q = true := (Chip.canCell_of rfl rfl r q).trans hc
  have hen : (d.issue cl (wordAt w 0) 1).2.g .QP_QCFG_EN r q = 1 := he
  unfold Chip.signalNull
  generalize (d.issue cl (wordAt w 0) 1).1 = id
  generalize (d.issue cl (wordAt w 0) 1).2 = e at hissued hq hcell hen ⊢
  have hnull := Chip.qAccept_null (w := ⟨0, 2, false⟩) (prod := seqProducer cl) ⟨hen, by rw [hq, hb], by rw [hq, hs]; rfl⟩ rfl
    (by rw [QueueS.openOf, hq, hopen]; rfl) hcell
  rw [Chip.qWrite_accepted (by rw [hq, hw]; rfl) hnull (by decide)]
  dsimp only
  rw [Chip.markPoisonIn_clean]
  have hseq : ∀ k, (e.link r q ⟨[(0, false)], true, false⟩).seq k = e.seq k := (e.queueOnly_link r q _).seq
  refine ⟨hissued.kept ?_ ?_ ?_ (fun k hk => (Chip.seq_setSeq_other _ _ hk).trans (hseq k)), ?_⟩
  · rw [Chip.seq_setSeq_same, hseq]
  · rw [Chip.seq_setSeq_same, hseq]
  · rw [Chip.seq_setSeq_same, hseq]
    refine fun o ho => ⟨_, List.mem_map_of_mem ho, ?_⟩
    split <;> exact ⟨rfl, rfl, rfl⟩
  · rw [Chip.queue_setSeq, Chip.queue_link, if_pos rfl, hq]

end

/-! ### WAITQ_END (R199, R234) -/

section
variable {c : Chip} {r q : Nat}

/-- What a WAITQ reads without poison: packets of one queue go, and nothing else changes. -/
structure Chip.took (r q : Nat) (ks : List Packet) (c d : Chip) : Prop where
  rest : d.noQueues = c.noQueues
  regs : d.regs = c.regs
  linked : (d.queue r q).linked = ks

/-- Packets without poison in a queue that is not broken are consumed in order, as many as are wanted and there. -/
theorem Chip.consume_clean (n : Nat) : ∀ (c : Chip) (got : Nat), (c.queue r q).broken = false →
    (∀ k ∈ (c.queue r q).linked, ∀ y ∈ k.words, y.2 = false) →
    ∃ d, c.consume r q n got false = (d, got + min n (c.queue r q).linked.length, false) ∧
      Chip.took r q ((c.queue r q).linked.drop n) c d := by
  induction n with
  | zero => exact fun c got _ _ => ⟨c, by simp [Chip.consume], rfl, rfl, rfl⟩
  | succ n ih =>
    intro c got hb hp
    cases hl : (c.queue r q).linked with
    | nil => exact ⟨c, by simp [Chip.consume, Chip.qTake, hb, hl], rfl, rfl, hl⟩
    | cons k ks =>
      have hclean : k.words.any Prod.snd = false :=
        List.any_eq_false.mpr (fun y hy => by rw [hp k (by rw [hl]; exact List.mem_cons_self) y hy]; decide)
      have htake := Chip.qTake_cons hb hl
      rw [hclean, Chip.markPoisonIn_clean] at htake
      have hx := c.queue_setQueue_same r q { c.queue r q with linked := ks, rd := 0, timer := if ks.isEmpty then none else c.newTimer r q }
      have hsame : ∀ x, (c.setQueue r q x).noQueues = c.noQueues ∧ (c.setQueue r q x).regs = c.regs := fun x => ⟨rfl, rfl⟩
      generalize he : c.setQueue r q _ = e at htake hx
      obtain ⟨hrest, hregs⟩ : e.noQueues = c.noQueues ∧ e.regs = c.regs := he ▸ hsame _
      obtain ⟨d, hd, hdrest, hdregs, hdlinked⟩ := ih e (got + 1) (by rw [hx]; exact hb)
        (fun k' hk' => hp k' (by rw [hl]; rw [hx] at hk'; exact List.mem_cons_of_mem _ hk'))
      rw [hx] at hd hdlinked
      refine ⟨d, ?_, hdrest.trans hrest, hdregs.trans hregs, hdlinked⟩
      unfold Chip.consume
      rw [htake]
      dsimp only
      rw [hclean, Bool.or_self, hd, List.length_cons, Nat.succ_min_succ]
      congr 2
      dsimp only
      omega

end

/-- Records linked go to the tails of their queues. -/
theorem Chip.linked_linkRecords (r q cl : Nat) (os : List OutCmd) : ∀ (c : Chip) (blocked : List Nat),
    ∃ l, ((c.linkRecords cl blocked os).1.queue r q).linked = (c.queue r q).linked ++ l := by
  induction os with
  | nil => exact fun c _ => ⟨[], by simp [Chip.linkRecords]⟩
  | cons o os ih =>
    intro c blocked
    unfold Chip.linkRecords
    dsimp only
    split
    · exact ih c _
    · split
      · exact ih c _
      · split
        · exact ih c _
        · split
          · next d hp =>
            obtain ⟨l, hl⟩ := ih d blocked
            rw [(Chip.post_clean hp).1, Chip.queue_link] at hl
            rw [(Chip.post_clean hp).1, hl]
            split
            · next hk => rw [c.queue_key hk, List.append_assoc]; exact ⟨_, rfl⟩
            · exact ⟨l, rfl⟩
          · next d hp =>
            obtain ⟨l, hl⟩ := ih (d.set1 .CLU_SEQ_STICKY_QUEUE_ERR cl) blocked
            rw [Chip.post_closed_eq hp, Chip.queue_set1, Chip.queue_markMalformed] at hl
            exact ⟨l, by rw [Chip.post_closed_eq hp, hl]⟩
          · exact ih c _

/-- The end of a command may add its record to a queue, and takes no packet. -/
theorem Chip.linked_endCmd (c : Chip) (cl id : Nat) (m : Part) (r q : Nat) :
    ∃ l, ((c.endCmd cl id m).queue r q).linked = (c.queue r q).linked ++ l := by
  have hsticky : ∀ (d : Chip) (m : Part) (b : Bool), (d.seqSticky cl m b).queue r q = d.queue r q := by
    intro d m b
    exact Chip.queue_of_queues (by unfold Chip.seqSticky; dsimp only; split_ifs <;> rfl) r q
  unfold Chip.endCmd
  split
  · exact ⟨[], (List.append_nil _).symm⟩
  · dsimp only
    unfold Chip.flushRecords
    dsimp only
    rw [Chip.queue_setSeq]
    obtain ⟨l, hl⟩ := Chip.linked_linkRecords r q cl _ (Chip.showPhase _ _) []
    rw [Chip.showPhase, Chip.queue_put, Chip.queue_setSeq, hsticky, Chip.queue_inc] at hl
    exact ⟨l, hl⟩

/-- Sequencer cl's only WAITQ, on a queue that is not broken, reads packets without poison: `d` is the chip after them. -/
structure Chip.loneWait (c : Chip) (cl : Nat) (w : WaitQ) (d : Chip) (got : Nat) : Prop where
  only : (c.seq cl).waitqs = [w]
  clean : w.poison = false
  reads : c.consume (regionOfCl cl) w.queue (w.count - w.got) w.got false = (d, got, false)

section
variable {s : State} {cl got : Nat} {w : WaitQ} {d : Chip}

theorem exec_waitqEnd_counted (h : s.chip.loneWait cl w d got) (hn : w.count ≤ got) : exec (.waitqEnd cl) s = .next (s.onChip (fun _ =>
    (d.endCmd cl w.id { order := 0, detail := got }).setSeq cl { (d.endCmd cl w.id { order := 0, detail := got }).seq cl with waitqs := [] })) := by
  obtain ⟨honly, hclean, hreads⟩ := h
  refine nextChip_eq ?_
  simp [honly, Chip.serveWaitqs, hclean, hreads, hn]

theorem exec_waitqEnd_stale (h : s.chip.loneWait cl w d got) (hn : got < w.count) (hs : w.stale = true) :
    exec (.waitqEnd cl) s = .next (s.onChip (fun _ =>
      (d.endCmd cl w.id { order := 0, status := stStaleEnd, detail := got }).setSeq cl
        { (d.endCmd cl w.id { order := 0, status := stStaleEnd, detail := got }).seq cl with waitqs := [] })) := by
  obtain ⟨honly, hclean, hreads⟩ := h
  refine nextChip_eq ?_
  simp [honly, Chip.serveWaitqs, hclean, hreads, hs, show ¬ w.count ≤ got by omega]

theorem exec_waitqEnd_waits (h : s.chip.loneWait cl w d got) (hn : got < w.count) (hs : w.stale = false) :
    exec (.waitqEnd cl) s = .next (s.onChip (fun _ => d.setSeq cl { d.seq cl with waitqs := [{ w with got := got }] })) := by
  obtain ⟨honly, hclean, hreads⟩ := h
  refine nextChip_eq ?_
  simp [honly, Chip.serveWaitqs, hclean, hreads, hs, show ¬ w.count ≤ got by omega]

end

/-- The command of a WAITQ ends, and the WAITQ with it: its queue, the sequencer, the record and the counters change. -/
theorem Chip.took.ends {c d : Chip} {r q : Nat} {ks : List Packet} (h : Chip.took r q ks c d) (cl id : Nat) (m : Part) :
    let t := (d.endCmd cl id m).setSeq cl { (d.endCmd cl id m).seq cl with waitqs := [] }
    (t.seq cl).waitqs = [] ∧ (∃ l, (t.queue r q).linked = ks ++ l) ∧ c.regsBut t seqRegs ∧ c.stepKept t ∧ t.noSeqs = c.noSeqs := by
  have hend := Chip.cmdOnly_endCmd cl id d m
  have hregs : c.regsBut d [] := Chip.regsBut_of_regs h.regs []
  obtain ⟨l, hl⟩ := d.linked_endCmd cl id m r q
  have hrest : d.noSeqs = c.noSeqs := congrArg (fun x : Chip => { x with seqs := [] }) h.rest
  refine ⟨congrArg SeqS.waitqs (Chip.seq_setSeq_same _ _ _), ⟨l, ?_⟩, (hregs.mono (by simp)).trans hend.regs,
    (hregs.stepKept (by simp)).trans hend.step, hend.rest.trans hrest⟩
  rw [Chip.queue_setSeq, hl, h.linked]

/-! ### The clauses of each command -/

section
variable {s : State} {cl : Nat} {w : List Word}

/-- A SIGNAL to a region of another partition is refused, and the crossing counted (R538). -/
theorem signal_denied (h : s.chip.offers cl w) (hop : isOp 0x04 w = true)
    (ho : s.chip.owns (s.chip.partOfCl cl) (wbits (wordAt w 1) 3 0) = false) :
    ∃ t, exec (.cmdSignal cl) s = .next t ∧ s.chipOnly t ∧ t.chip.g .CLU_SEQ_STICKY_DENIED cl = 1 ∧
      (t.chip.seq cl).nextId = (s.chip.seq cl).nextId + 1 ∧ (s.chip.homeFaults (s.chip.partOfCl cl) →
        t.chip.g .PART_CNT_XPART_COUNT (s.chip.partOfCl cl) = (s.chip.g .PART_CNT_XPART_COUNT (s.chip.partOfCl cl) + 1) % 2 ^ 64) := by
  have hplain : hdrOp (wordAt w 0) ∉ markedOps := by rw [show hdrOp (wordAt w 0) = 0x04 by simpa [isOp] using hop]; decide
  obtain ⟨-, hregs, -, hown⟩ := s.chip.prepared_advanceCmd cl w
  have hpart := hregs.partOfCl (by decide) cl
  refine ⟨_, exec_cmdSignal_denied h hop rfl (by rw [hpart, hregs.owns (by decide), ho]), State.chipOnly_onChip _ _, ?_⟩
  rw [State.onChip_chip, Chip.refuse_plain _ _ _ _ hplain, hpart]
  refine ⟨Chip.issueEnd_denied _ _ _ rfl, ?_, fun hf => ?_⟩
  · rw [Chip.issueEnd_nextId, Chip.seq_xpart, (SeqS.of_sansPos hown).1]
  · rw [(Chip.issueEnd_regs _ _ _ _).g .PART_CNT_XPART_COUNT _ _ (by decide), Chip.g_xpart _ _ _ _ (hregs.homeFaults (by decide) hf),
      hregs.g .PART_CNT_XPART_COUNT _ _ (by decide)]

/-- A SIGNAL to a disabled queue is refused, and the queue marked (R203, R235). -/
theorem signal_disabled (h : s.chip.offers cl w) (hop : isOp 0x04 w = true)
    (ho : s.chip.owns (s.chip.partOfCl cl) (wbits (wordAt w 1) 3 0) = true)
    (he : s.chip.on .QP_QCFG_EN (wbits (wordAt w 1) 3 0) (wbits (wordAt w 1) 13 4) = false) :
    ∃ t, exec (.cmdSignal cl) s = .next t ∧ s.chipOnly t ∧ t.chip.g .CLU_SEQ_STICKY_QUEUE_ERR cl = 1 ∧
      t.chip.g .QP_QSTAT_MALFORMED (wbits (wordAt w 1) 3 0) (wbits (wordAt w 1) 13 4) = 1 ∧
      t.chip.g .QP_STICKY_MALFORMED (wbits (wordAt w 1) 3 0) = 1 ∧ (t.chip.seq cl).nextId = (s.chip.seq cl).nextId + 1 := by
  have hplain : hdrOp (wordAt w 0) ∉ markedOps := by rw [show hdrOp (wordAt w 0) = 0x04 by simpa [isOp] using hop]; decide
  obtain ⟨-, hregs, -, hown⟩ := s.chip.prepared_advanceCmd cl w
  refine ⟨_, exec_cmdSignal_disabled h hop rfl (by rw [hregs.partOfCl (by decide), hregs.owns (by decide), ho])
    (by rw [hregs.on .QP_QCFG_EN _ _ (by decide), he]), State.chipOnly_onChip _ _, ?_⟩
  rw [State.onChip_chip, Chip.refuse_plain _ _ _ _ hplain]
  generalize s.chip.advanceCmd cl w = d at hown ⊢
  obtain ⟨hqueue, hpool⟩ := d.g_markMalformed (wbits (wordAt w 1) 3 0) (wbits (wordAt w 1) 13 4)
  have hseq := (d.queueOnly_markMalformed (wbits (wordAt w 1) 3 0) (wbits (wordAt w 1) 13 4)).seq cl
  refine ⟨Chip.issueEnd_queueErr _ _ _ rfl, Chip.mark_issueEnd _ _ _ ?_ (by decide) hqueue, Chip.mark_issueEnd _ _ _ ?_ (by decide) hpool, ?_⟩
  · exact ⟨⟨by decide, by decide⟩, by decide, by decide, .inl rfl, .inr (.inl (by decide)), .inr (.inl (by decide))⟩
  · exact ⟨⟨by decide, by decide⟩, by decide, by decide, .inr (.inl (by decide)), .inl rfl, .inr (.inl (by decide))⟩
  · rw [Chip.issueEnd_nextId, hseq, (SeqS.of_sansPos hown).1]

end

end Sys2Proof.Machine
end

open Sys2Proof.Machine in
/-- Settles O19: WAITQ and SIGNAL at issue by what their queue is, and the lone WAITQ by what its queue holds. -/
theorem waitingAndSignalling : Obligations.WaitingAndSignalling := by
  refine ⟨?_, ?_⟩
  · intro s cl w hcl hoff c
    have hprep := c.prepared_advanceCmd cl w
    refine ⟨?_, ?_⟩
    · intro hop r q n mine
      have hmine : (c.advanceCmd cl w).waitsOn cl q ↔ mine := hprep.regs.waitsOn (by decide) cl q
      have hplain : hdrOp (wordAt w 0) ∉ markedOps := by rw [show hdrOp (wordAt w 0) = 0x03 by simpa [isOp] using hop]; decide
      obtain ⟨hrefused, htrivial, hwaits⟩ := exec_cmdWaitq hoff hop rfl
      refine ⟨fun hn => ?_, fun hm h0 => ?_, fun hm h0 => ?_⟩
      · exact ⟨_, hrefused (by rwa [hmine]), State.chipOnly_onChip _ _, hprep.refusedPlain (by decide) hplain⟩
      · exact ⟨_, htrivial (hmine.mpr hm) h0, State.chipOnly_onChip _ _, hprep.endsAtOnce w _ ⟨List.not_mem_nil, List.not_mem_nil⟩⟩
      · obtain ⟨hissued, hlast⟩ := hprep.waitq w
        exact ⟨_, hwaits (hmine.mpr hm) h0, State.chipOnly_onChip _ _, hissued,
          (Chip.queue_waitq _ cl w r q).trans (c.queue_advanceCmd cl w hm.2.2.2), hlast⟩
    · intro hop r q d
      refine ⟨signal_denied hoff hop, signal_disabled hoff hop, fun ho he hn hb hopen hw hs hc => ?_⟩
      have hon : d.on .QP_QCFG_EN r q = true := (hprep.regs.on .QP_QCFG_EN r q (by decide)).trans he
      have howns : d.owns (d.partOfCl cl) r = true := by
        rw [hprep.regs.partOfCl (by decide), hprep.regs.owns (by decide)]; exact ho
      exact ⟨_, exec_cmdSignal_null hoff hop rfl howns hon hb (Chip.one_le_maxCells hc) hn, State.chipOnly_onChip _ _,
        hprep.signalNull w ((d.on_iff rfl r q).mp hon) hb hopen hw hs hc⟩
  · intro s cl w hcl hone hgot c x hb hp hclean
    obtain ⟨d, hreads, htook⟩ := Chip.consume_clean (w.count - w.got) c w.got hb hp
    have hlone : c.loneWait cl w d (w.got + min (w.count - w.got) x.linked.length) := ⟨hone, hclean, hreads⟩
    refine ⟨fun hn => ?_, fun hn hs => ?_, fun hn hs => ?_⟩
    · exact ⟨_, exec_waitqEnd_counted hlone (by omega), State.chipOnly_onChip _ _, htook.ends cl w.id _⟩
    · have hall : w.got + min (w.count - w.got) x.linked.length = w.got + x.linked.length := by omega
      have hseq : d.seq cl = c.seq cl := congrArg (sget ({} : SeqS) · cl) (congrArg Chip.seqs htook.rest :)
      refine ⟨_, exec_waitqEnd_waits hlone (by omega) hs, State.chipOnly_onChip _ _, ?_, ?_, Chip.regsBut_of_regs htook.regs [], ?_⟩
      · rw [State.onChip_chip, Chip.seq_setSeq_same, hall]
      · rw [State.onChip_chip, Chip.queue_setSeq, htook.linked]
        exact List.drop_eq_nil_of_le (show x.linked.length ≤ w.count - w.got by omega)
      · rw [State.onChip_chip, Chip.seq_setSeq_same, hseq]
    · obtain ⟨hwait, -, hregs, hstep, hrest⟩ := htook.ends cl w.id
        { order := 0, status := stStaleEnd, detail := w.got + min (w.count - w.got) x.linked.length }
      exact ⟨_, exec_waitqEnd_stale hlone (by omega) hs, State.chipOnly_onChip _ _, hwait, hregs, hstep, hrest⟩

section
/-! The transfer engines (R175–R178, R187, R190, R233, R237): what their checks read, what acceptance and completion write. -/

namespace Sys2Proof.Machine

/-! ### What a tier address means depends on a few registers (R176, R180, R182, R570) -/

/-- The registers that say which bytes a partition reaches. -/
def reachRegs : List Reg := [.PART_OWN, .PART_NTX, .PART_CLX, .RACK_AREA, .SOLV_STAGE]

section
variable {c d : Chip} {l : List Reg}

theorem Chip.regsBut.nearOf (h : c.regsBut d l) (hl : Reg.PART_NTX ∉ l) (p a : Nat) : d.nearOf p a = c.nearOf p a := by
  unfold Chip.nearOf
  rw [show (fun i => ntxKey (d.rd .PART_NTX p i) a) = fun i => ntxKey (c.rd .PART_NTX p i) a from funext (fun i => by rw [h _ _ _ hl])]

theorem Chip.regsBut.cellarOf (h : c.regsBut d l) (hl : Reg.PART_CLX ∉ l) (p a : Nat) : d.cellarOf p a = c.cellarOf p a := by
  unfold Chip.cellarOf
  rw [show (fun i => clxKey (d.rd .PART_CLX p i) a) = fun i => clxKey (c.rd .PART_CLX p i) a from funext (fun i => by rw [h _ _ _ hl])]

theorem Chip.regsBut.tierKey (h : c.regsBut d l) (hl : ∀ r ∈ reachRegs, r ∉ l) (p a : Nat) : d.tierKey p a = c.tierKey p a := by
  have hown := h.owns (hl .PART_OWN (by decide)) p
  have harea := h.inArea (hl .RACK_AREA (by decide)) (hl .SOLV_STAGE (by decide))
  unfold Chip.tierKey
  simp only [hown, harea, h.nearOf (hl .PART_NTX (by decide)), h.cellarOf (hl .PART_CLX (by decide))]

theorem Chip.regsBut.hostOf (h : c.regsBut d l) (hl : Reg.HOSTIF_PORT ∉ l ∧ Reg.HOSTIF_WIN ∉ l ∧ Reg.HOSTIF_WINSZ ∉ l) (p a : Nat) :
    d.hostOf p a = c.hostOf p a := by
  obtain ⟨hport, hwin, hsize⟩ := hl
  unfold Chip.hostOf Chip.hostAt Chip.fnOf Chip.portOf
  simp only [h.g .HOSTIF_PORT_HOST1 _ _ hport, h.on .HOSTIF_WIN_EN _ _ hwin, h.g .HOSTIF_WIN_BASE _ _ hwin, h.g .HOSTIF_WINSZ_PAGES _ _ hsize]

end

/-! ### What the checks of XFER read stays as the stream moves (R177, R187, R237) -/

section
variable {c d : Chip} {cl : Nat} (h : Chip.prepared cl [] c d)
include h

theorem Chip.prepared.tierOk (p a n : Nat) : d.tierOk p a n = c.tierOk p a n := by
  have hkey := h.regs.tierKey (by decide) p
  have hhost := h.regs.hostOf (by decide) p
  unfold Chip.tierOk Chip.granuleOk
  simp only [hkey, hhost]

theorem Chip.prepared.rowInRoutine (a n : Nat) : d.rowInRoutine a n = c.rowInRoutine a n := by
  have hrtn : ∀ k i, d.rd .CLU_SEQ_RTN k i = c.rd .CLU_SEQ_RTN k i := fun k i => h.regs .CLU_SEQ_RTN k i (by decide)
  unfold Chip.rowInRoutine Chip.inRoutine
  simp only [hrtn]

theorem Chip.prepared.updFenced (p : Nat) : d.updFenced p = c.updFenced p := by
  have hmaps : d.maps = c.maps := (congrArg Chip.maps h.rest :)
  have hheld : d.held = c.held := (congrArg Chip.held h.rest :)
  unfold Chip.updFenced Chip.tensors Chip.curMap Chip.mapS
  rw [hmaps, hheld]

theorem Chip.prepared.rootRanges (p : Nat) : d.rootRanges p = c.rootRanges p := by
  have hsolvers : d.solvers = c.solvers := (congrArg Chip.solvers h.rest :)
  have hparity : d.parity p = c.parity p := by unfold Chip.parity; rw [h.regs.g .HUB_STEP_SEALED_STEP p 0 (by decide)]
  have hregions : d.regionsOf p = c.regionsOf p := by
    unfold Chip.regionsOf; rw [show d.owns p = c.owns p from funext (h.regs.owns (by decide) p)]
  unfold Chip.rootRanges
  simp only [hregions, hsolvers, hparity, h.regs.g .SOLV_RTAB_COUNT _ _ (show Reg.SOLV_RTAB ∉ [] ++ qpRegs by decide),
    h.regs.g .SOLV_RTAB_ADDR _ _ (show Reg.SOLV_RTAB ∉ [] ++ qpRegs by decide), h.regs.nearOf (by decide), Chip.num_of_mem h.mem]

/-- The fence guards the same ranges. -/
theorem Chip.prepared.fenceHit (p a n : Nat) : d.fenceHit p a n = c.fenceHit p a n := by
  have hmaps : d.maps = c.maps := (congrArg Chip.maps h.rest :)
  have hstats : d.stats = c.stats := (congrArg Chip.stats h.rest :)
  have hstat : d.statRanges p = c.statRanges p := by
    unfold Chip.statRanges Chip.parity
    rw [hstats, h.regs.g .HUB_STEP_SEALED_STEP p 0 (by decide)]
  have hfenced : d.fenced p = c.fenced p := by
    unfold Chip.fenced Chip.mapS
    rw [h.updFenced, h.rootRanges, hstat, hmaps]
  unfold Chip.fenceHit
  rw [hfenced]

end

/-- Rows that meet no fenced range. -/
theorem Chip.rowsFenced_none (c : Chip) (p n : Nat) (rs : List (Nat × Nat)) (h : ∀ x ∈ rs, c.fenceHit p x.2 n = none) :
    c.rowsFenced p n rs = none := by
  induction rs with
  | nil => rfl
  | cons r rs ih =>
    unfold Chip.rowsFenced
    rw [h r List.mem_cons_self]
    exact ih (fun x hx => h x (List.mem_cons_of_mem _ hx))

/-! ### CMD_XFER (R177, R233) -/

/-- Every row of a transfer lies in bytes that the partition and the engine of its region reach. -/
def Chip.rowsMapped (c : Chip) (cl : Nat) (w : List Word) : Prop :=
  ∀ x ∈ xfRowList w, c.tierOk (c.partOfCl cl) x.1 (xfRowBytes w) = true ∧ c.tierOk (c.partOfCl cl) x.2 (xfRowBytes w) = true ∧
    inEngineReach (regionOfCl cl) x.1 = true ∧ inEngineReach (regionOfCl cl) x.2 = true

/-- A transfer that waits last in its region's list. -/
def Chip.queueXfer (d : Chip) (cl : Nat) (w : List Word) : Chip :=
  let e := (d.issue cl (wordAt w 0) 1).2
  let x : XferJob := { cl := cl, id := (d.issue cl (wordAt w 0) 1).1, words := w, accepted := false }
  { e with xfers := sset [] e.xfers (regionOfCl cl) (sget [] e.xfers (regionOfCl cl) ++ [x]) }

section
variable {s : State} {cl : Nat} {w : List Word} {d : Chip}

theorem exec_cmdXfer_empty (h : s.chip.offers cl w) (hop : isOp 0x12 w = true) (hd : d = s.chip.advanceCmd cl w)
    (h0 : xfRows w = 0 ∨ xfRowBytes w = 0) : exec (.cmdXfer cl) s = .next (s.onChip (fun _ => d.issueEnd cl (wordAt w 0) { order := 0 })) := by
  refine nextChip_eq ?_
  rw [Chip.take_offers h (isOp 0x12) false _ hop nofun, ← hd]
  exact if_pos h0

theorem Chip.rowsMapped_iff : ((xfRowList w).all (fun x => d.tierOk (d.partOfCl cl) x.1 (xfRowBytes w) &&
    d.tierOk (d.partOfCl cl) x.2 (xfRowBytes w) && inEngineReach (regionOfCl cl) x.1 && inEngineReach (regionOfCl cl) x.2)) = true ↔
    d.rowsMapped cl w := by
  simp only [Chip.rowsMapped, List.all_eq_true, Bool.and_eq_true, and_assoc]

theorem exec_cmdXfer_unmapped (h : s.chip.offers cl w) (hop : isOp 0x12 w = true) (hd : d = s.chip.advanceCmd cl w)
    (h0 : ¬ (xfRows w = 0 ∨ xfRowBytes w = 0)) (hm : ¬ d.rowsMapped cl w) :
    exec (.cmdXfer cl) s = .next (s.onChip (fun _ => d.refuse cl w stBadAddr)) := by
  refine nextChip_eq ?_
  rw [Chip.take_offers h (isOp 0x12) false _ hop nofun, ← hd]
  exact (if_neg h0).trans (if_pos (by rwa [Chip.rowsMapped_iff]))

theorem exec_cmdXfer_queued (h : s.chip.offers cl w) (hop : isOp 0x12 w = true) (hd : d = s.chip.advanceCmd cl w)
    (h0 : ¬ (xfRows w = 0 ∨ xfRowBytes w = 0)) (hm : d.rowsMapped cl w) (hr : ∀ x ∈ xfRowList w, d.rowInRoutine x.2 (xfRowBytes w) = false)
    (hf : ∀ x ∈ xfRowList w, d.fenceHit (d.partOfCl cl) x.2 (xfRowBytes w) = none) (ho : rowsOverlap (xfRowBytes w) (xfRowList w) = false) :
    exec (.cmdXfer cl) s = .next (s.onChip (fun _ => d.queueXfer cl w)) := by
  have hroutine : ¬ (xfRowList w).any (fun x => d.rowInRoutine x.2 (xfRowBytes w)) = true := by
    simp only [List.any_eq_true, not_exists, not_and]
    exact fun x hx => by rw [hr x hx]; decide
  refine nextChip_eq ?_
  rw [Chip.take_offers h (isOp 0x12) false _ hop nofun, ← hd]
  dsimp only
  rw [if_neg h0, if_neg (by rwa [not_not, Chip.rowsMapped_iff]), if_neg hroutine, d.rowsFenced_none _ _ _ hf]
  exact if_neg (by rw [ho]; decide)

end

theorem Chip.prepared.rowsMapped {c d : Chip} {cl : Nat} (h : Chip.prepared cl [] c d) (w : List Word) :
    d.rowsMapped cl w ↔ c.rowsMapped cl w := by
  unfold Chip.rowsMapped
  simp only [h.tierOk, h.regs.partOfCl (show Reg.PART_OWN ∉ [] ++ qpRegs by decide)]

/-- A transfer that passed its checks is outstanding, and waits for the engine. -/
theorem Chip.prepared.queueXfer {c d : Chip} {cl : Nat} (h : Chip.prepared cl [] c d) (w : List Word) :
    Chip.issued cl w c (d.queueXfer cl w) ∧
    sget [] (d.queueXfer cl w).xfers (regionOfCl cl) = sget [] c.xfers (regionOfCl cl) ++
      [{ cl := cl, id := (c.seq cl).nextId, words := w, accepted := false }] ∧
    c.regsBut (d.queueXfer cl w) qpRegs ∧ (d.queueXfer cl w).mem = c.mem := by
  have hxfers : (d.issue cl (wordAt w 0) 1).2.xfers = c.xfers := (congrArg Chip.xfers h.rest :)
  have hid : (d.issue cl (wordAt w 0) 1).1 = (c.seq cl).nextId := (d.issue_fst cl _ 1).trans (SeqS.of_sansPos h.own).1
  refine ⟨(h.issued (w := w) 1).kept rfl rfl (fun o ho => ⟨o, ho, rfl, rfl, rfl⟩) (fun _ _ => rfl), ?_, h.regs.regs rfl, h.mem⟩
  exact (sget_sset_same _ _ _ _).trans (by rw [hxfers, hid])

end Sys2Proof.Machine
end

section
/-! XFER_ACCEPT and XFER_COMPLETE (R178, R190, R233). -/

namespace Sys2Proof.Machine

/-! ### One entry of a list set -/

theorem getElem?_listSet {α : Type} {a : α} (l : List α) : ∀ {n : Nat}, n < l.length → ∀ k,
    (listSet l n a)[k]? = if k = n then some a else l[k]? := by
  induction l with
  | nil => exact fun h => absurd h (Nat.not_lt_zero _)
  | cons x l ih =>
    intro n hn k
    cases n with
    | zero => cases k <;> rfl
    | succ n =>
      cases k with
      | zero => rfl
      | succ k =>
        have := ih (n := n) (by simpa using hn) k
        simpa [listSet] using this

/-! ### XFER_ACCEPT (R178, R233, R270) -/

/-- Transfer n of a region's list accepted. -/
def Chip.acceptXfer (c : Chip) (r n : Nat) (x : XferJob) : Chip :=
  { c with xfers := sset [] c.xfers r (listSet (sget [] c.xfers r) n { x with accepted := true }) }

section
variable {s : State} {r n : Nat} {x : XferJob}

theorem exec_xferAccept_accepts (hx : (sget [] s.chip.xfers r)[n]? = some x) (ha : x.accepted = false) (hslots : s.chip.slotsUsed r < 16)
    (hfirst : ∀ y ∈ (sget [] s.chip.xfers r).take n, y.cl = x.cl → y.accepted = true) :
    exec (.xferAccept r n) s = .next (s.onChip (fun _ => s.chip.acceptXfer r n x)) := by
  refine nextChip_eq ?_
  dsimp only
  rw [hx]
  refine if_neg (fun h => ?_)
  rcases h with h | h | h
  · rw [ha] at h; cases h
  · omega
  · obtain ⟨y, hy, hyx⟩ := List.any_eq_true.mp h
    simp only [Bool.and_eq_true, beq_iff_eq] at hyx
    rw [hfirst y hy hyx.1] at hyx
    exact absurd hyx.2 (by decide)

theorem exec_xferAccept_full (hx : (sget [] s.chip.xfers r)[n]? = some x) (hslots : 16 ≤ s.chip.slotsUsed r) :
    exec (.xferAccept r n) s = .next s := by
  refine nextChip_same ?_
  dsimp only
  rw [hx]
  exact if_pos (.inr (.inl hslots))

theorem State.effect_acceptXfer (s : State) (r n : Nat) (x : XferJob) :
    s.effect (s.onChip (fun _ => s.chip.acceptXfer r n x)) { s.chip with xfers := (s.chip.acceptXfer r n x).xfers } [] :=
  ⟨⟨rfl, rfl⟩, rfl, Chip.fieldsBut_of_regs rfl _⟩

theorem Chip.xfers_acceptXfer (c : Chip) (r n : Nat) (x : XferJob) :
    sget [] (c.acceptXfer r n x).xfers r = listSet (sget [] c.xfers r) n { x with accepted := true } := sget_sset_same _ _ _ _

end

/-! ### A granule copied (R190) -/

theorem Chip.xfers_touch (c : Chip) (k : Nat) : (c.touch k).xfers = c.xfers := by
  unfold Chip.touch
  split
  · rfl
  · split
    · exact Chip.put_xfers _ _ _ _ _
    · rfl

theorem Chip.xfers_putBytes (bs : List Byte) : ∀ (c : Chip) (k : Nat), (c.putBytes k bs).xfers = c.xfers := by
  induction bs with
  | nil => exact fun _ _ => rfl
  | cons b bs ih => exact fun c k => ih (c.putByte k b) (k + 1)

theorem Chip.xfers_write64 (c : Chip) (k : Nat) (bs : List Byte) (ps : List Bool) : (c.write64 k bs ps).xfers = c.xfers := by
  unfold Chip.write64
  split
  · rw [foldl_keeps Chip.xfers (fun (c : Chip) i => c.setBad (k + 8 * i) (ps.getD i false)) (fun _ _ => rfl), Chip.xfers_putBytes]
  · rw [Chip.xfers_touch, Chip.setBad_xfers, Chip.xfers_putBytes]

/-- What bytes written make of memory depends on memory alone. -/
theorem Chip.putBytes_of_mem (bs : List Byte) : ∀ {c d : Chip}, d.mem = c.mem → ∀ k, (d.putBytes k bs).mem = (c.putBytes k bs).mem := by
  induction bs with
  | nil => exact fun h _ => h
  | cons b bs ih => exact fun h k => ih (congrArg (sset memDefault · k b) h) (k + 1)

/-- The bytes of a run written read as written. -/
theorem Chip.bytes_putBytes (c : Chip) (k : Nat) (bs : List Byte) : (c.putBytes k bs).bytes k bs.length = bs := by
  refine List.ext_getElem (by simp [Chip.bytes, rangeFrom]) (fun i h1 h2 => ?_)
  simp [Chip.bytes, rangeFrom, Chip.byte_putBytes, h2]

theorem Chip.length_bytes (c : Chip) (k n : Nat) : (c.bytes k n).length = n := by simp [Chip.bytes, rangeFrom]

/-- One granule of module memory copied for a partition: its bytes and no others are written, and the transfers stay. -/
theorem Chip.copyGranules_one {c : Chip} {p a b k k' : Nat} (host : List Byte) (ha : bits a 63 60 < 4) (hb : bits b 63 60 < 4)
    (hk : c.tierKey p a = some k) (hk' : c.tierKey p b = some k') :
    ((c.copyGranules p [(a, b)] 0 host none).1).mem = (c.putBytes k' (c.bytes k 64)).mem ∧
    ((c.copyGranules p [(a, b)] 0 host none).1).xfers = c.xfers := by
  have hread : c.readGranule p a host = (c.bytes k 64, c.badWords k) := by
    unfold Chip.readGranule
    rw [if_neg (by omega), hk]
  unfold Chip.copyGranules Chip.copyGranules
  rw [hread]
  dsimp only
  rw [hk]
  dsimp only
  have hdest : ((c.touch k).meter p (meterOfTier a false) 64).tierKey p b = some k' := by
    rw [(Chip.regsBut_of_regs (Chip.meter_regs _ _ _ _) []).tierKey (by decide), (c.regsBut_touch k).tierKey (by decide), hk']
  have hmem : ((c.touch k).meter p (meterOfTier a false) 64).mem = c.mem := by rw [Chip.meter_mem, Chip.touch_mem]
  have hxfers : ((c.touch k).meter p (meterOfTier a false) 64).xfers = c.xfers := by rw [Chip.meter_xfers, Chip.xfers_touch]
  generalize (c.touch k).meter p (meterOfTier a false) 64 = d at hdest hmem hxfers ⊢
  unfold Chip.writeGranule
  rw [if_neg (by omega), hdest]
  dsimp only
  rw [Chip.meter_mem, Chip.write64_mem, Chip.meter_xfers, Chip.xfers_write64]
  exact ⟨Chip.putBytes_of_mem _ hmem k', hxfers⟩

/-! ### XFER_COMPLETE (R178) -/

/-- Transfer n taken from a region's list. -/
def Chip.takeXfer (c : Chip) (r n : Nat) : Chip :=
  { c with xfers := sset [] c.xfers r ((sget [] c.xfers r).take n ++ (sget [] c.xfers r).drop (n + 1)) }

/-- The outcome of a transfer by the offset of its first poisoned granule. -/
def xferOutcome : Option Nat → Part
  | some o => { order := 0, flags := 16, detail := 1 + o % 2 ^ 47 * 2 }
  | none => { order := 0 }

theorem exec_xferComplete {s : State} {r n : Nat} {x : XferJob} (host : List Byte) (hx : (sget [] s.chip.xfers r)[n]? = some x)
    (ha : x.accepted = true) (hfirst : ∀ y ∈ (sget [] s.chip.xfers r).take n, y.cl ≠ x.cl) :
    exec (.xferComplete r n host) s = .next (s.onChip (fun _ =>
      let copied := (s.chip.takeXfer r n).copyGranules (s.chip.partOfCl x.cl) (xfGranules x.words) 0 host none
      copied.1.finish x.cl x.id (xferOutcome copied.2))) := by
  refine nextChip_eq ?_
  dsimp only
  rw [hx]
  refine (if_neg (fun h => ?_)).trans rfl
  rcases h with h | h
  · exact h ha
  · obtain ⟨y, hy, hyx⟩ := List.any_eq_true.mp h
    exact hfirst y hy (by simpa using hyx)

end Sys2Proof.Machine
end

open Sys2Proof.Machine in
/-- Settles O23: the checks of XFER read what the moved stream leaves, acceptance sets one entry, completion copies one granule. -/
theorem transfersCopy : Obligations.TransfersCopy := by
  refine ⟨?_, ?_⟩
  · intro s cl w hcl hoff hop c r p n mapped
    have hprep := c.prepared_advanceCmd cl w
    have hplain : hdrOp (wordAt w 0) ∉ markedOps := by rw [show hdrOp (wordAt w 0) = 0x12 by simpa [isOp] using hop]; decide
    have hmapped : (c.advanceCmd cl w).rowsMapped cl w ↔ mapped := hprep.rowsMapped w
    have hpart : (c.advanceCmd cl w).partOfCl cl = p := hprep.regs.partOfCl (by decide) cl
    refine ⟨fun h0 => ?_, fun hr hn hm => ?_, fun hr hn hm hfree ho => ?_⟩
    · exact ⟨_, exec_cmdXfer_empty hoff hop rfl h0, State.chipOnly_onChip _ _, hprep.endsAtOnce w _ ⟨List.not_mem_nil, List.not_mem_nil⟩⟩
    · exact ⟨_, exec_cmdXfer_unmapped hoff hop rfl (not_or.mpr ⟨hr, hn⟩) (by rwa [hmapped]), State.chipOnly_onChip _ _,
        hprep.refusedPlain (by decide) hplain⟩
    · have hroutine : ∀ x ∈ xfRowList w, (c.advanceCmd cl w).rowInRoutine x.2 n = false := fun x hx => by
        rw [hprep.rowInRoutine, (hfree x hx).1]
      have hfence : ∀ x ∈ xfRowList w, (c.advanceCmd cl w).fenceHit ((c.advanceCmd cl w).partOfCl cl) x.2 n = none := fun x hx => by
        rw [hpart, hprep.fenceHit, (hfree x hx).2]
      exact ⟨_, exec_cmdXfer_queued hoff hop rfl (not_or.mpr ⟨hr, hn⟩) (hmapped.mpr hm) hroutine hfence ho, State.chipOnly_onChip _ _,
        hprep.queueXfer w⟩
  · intro s r n x hx c l
    have hlen : n < l.length := (List.getElem?_eq_some_iff.mp hx).1
    refine ⟨fun ha hslots hfirst => ?_, exec_xferAccept_full hx, fun a b k k' host ha hfirst hgran ha4 hb4 hk hk' => ?_⟩
    · refine ⟨_, exec_xferAccept_accepts hx ha hslots hfirst, s.effect_acceptXfer r n x, ?_, fun k hk => ?_⟩
      · rw [State.onChip_chip, Chip.xfers_acceptXfer, getElem?_listSet _ hlen, if_pos rfl]
      · rw [State.onChip_chip, Chip.xfers_acceptXfer, getElem?_listSet _ hlen, if_neg hk]
    · have hexec := exec_xferComplete host hx ha hfirst
      rw [hgran] at hexec
      have hkey : ∀ p a, (c.takeXfer r n).tierKey p a = c.tierKey p a := (Chip.regsBut_of_regs rfl []).tierKey (by decide)
      have hbytes : (c.takeXfer r n).bytes k 64 = c.bytes k 64 := rfl
      have hlist : sget [] (c.takeXfer r n).xfers r = l.take n ++ l.drop (n + 1) := sget_sset_same _ _ _ _
      obtain ⟨hmem, hxfers⟩ := Chip.copyGranules_one (c := c.takeXfer r n) host ha4 hb4 ((hkey _ _).trans hk) ((hkey _ _).trans hk')
      rw [hbytes] at hmem
      have hmem := hmem.trans (Chip.putBytes_of_mem _ (show (c.takeXfer r n).mem = c.mem from rfl) k')
      refine ⟨_, hexec, State.chipOnly_onChip _ _, ?_, ?_, ?_⟩
      · exact (congrArg (sget [] · r) hxfers).trans hlist
      · refine (Chip.bytes_of_mem hmem k' 64).trans ?_
        have := c.bytes_putBytes k' (c.bytes k 64)
        rwa [Chip.length_bytes] at this
      · intro y hy
        exact (congrArg (sget memDefault · y) hmem).trans (Chip.byte_putBytes_outside _ c k' y (by rwa [Chip.length_bytes]))
